-- ==== Sys2Proof/Word.lean ====
section
/-!
DEFINITION. The word types of the machine and the enumerations that name operands of instructions and of
device steps: element types (R23), scopes (R99), width classes (R111), scalar operation names (R78), events' parts.
-/
namespace Sys2Proof

/-- A scalar register value, an address while it is computed, a status word. -/
abbrev Word := BitVec 64
/-- One byte of memory. -/
abbrev Byte := BitVec 8

/-- The sixteen element types of R23, by name. -/
inductive ETag where
  | none | i8 | n8 | i16 | n16 | i32 | n32 | i64 | n64 | e4m3 | e5m2 | bf16 | fp16 | fp32 | fp64 | i4
  deriving DecidableEq, Repr

/-- The 4-bit code of R23. -/
def ETag.code : ETag → Nat
  | .none => 0 | .i8 => 1 | .n8 => 2 | .i16 => 3 | .n16 => 4 | .i32 => 5 | .n32 => 6 | .i64 => 7
  | .n64 => 8 | .e4m3 => 9 | .e5m2 => 10 | .bf16 => 11 | .fp16 => 12 | .fp32 => 13 | .fp64 => 14 | .i4 => 15

/-- The type of a 4-bit code of R23 (taken modulo 16). -/
def ETag.ofCode (c : Nat) : ETag :=
  match c % 16 with
  | 0 => .none | 1 => .i8 | 2 => .n8 | 3 => .i16 | 4 => .n16 | 5 => .i32 | 6 => .n32 | 7 => .i64
  | 8 => .n64 | 9 => .e4m3 | 10 => .e5m2 | 11 => .bf16 | 12 => .fp16 | 13 => .fp32 | 14 => .fp64 | _ => .i4

/-- Width(t) of R22 and R23; NONE has no width and counts as 8 bits where bytes are moved (R127, R285). -/
def ETag.width : ETag → Nat
  | .none => 8 | .i8 => 8 | .n8 => 8 | .i16 => 16 | .n16 => 16 | .i32 => 32 | .n32 => 32 | .i64 => 64
  | .n64 => 64 | .e4m3 => 8 | .e5m2 => 8 | .bf16 => 16 | .fp16 => 16 | .fp32 => 32 | .fp64 => 64 | .i4 => 4

/-- Signed integer kind of R23. -/
def ETag.isSigned : ETag → Bool
  | .i4 | .i8 | .i16 | .i32 | .i64 => true
  | _ => false

/-- Unsigned integer kind of R23. -/
def ETag.isUnsigned : ETag → Bool
  | .n8 | .n16 | .n32 | .n64 => true
  | _ => false

/-- Integer kind of R23. -/
def ETag.isInt (t : ETag) : Bool := t.isSigned || t.isUnsigned

/-- Floating-point kind of R23. -/
def ETag.isFloat : ETag → Bool
  | .e4m3 | .e5m2 | .bf16 | .fp16 | .fp32 | .fp64 => true
  | _ => false

/-- Element widths that vshape names (R111). -/
inductive WidthClass where
  | w4 | w8 | w16 | w32 | w64
  deriving DecidableEq, Repr

/-- The width code of R98. -/
def WidthClass.code : WidthClass → Nat
  | .w4 => 0 | .w8 => 1 | .w16 => 2 | .w32 => 3 | .w64 => 4

/-- The width in bits, 4 << code (R111). -/
def WidthClass.bits : WidthClass → Nat
  | .w4 => 4 | .w8 => 8 | .w16 => 16 | .w32 => 32 | .w64 => 64

/-- The width class of a code, none for the reserved codes 5 to 31 (R98). -/
def WidthClass.ofCode : Nat → Option WidthClass
  | 0 => some .w4 | 1 => some .w8 | 2 => some .w16 | 3 => some .w32 | 4 => some .w64 | _ => Option.none

/-- Scopes of R99 and R255, codes 0 to 6. -/
inductive Scope where
  | strand | core | cluster | die | package | system | fabric
  deriving DecidableEq, Repr

/-- The scope code of R99. -/
def Scope.code : Scope → Nat
  | .strand => 0 | .core => 1 | .cluster => 2 | .die => 3 | .package => 4 | .system => 5 | .fabric => 6

/-- The scope of a code; code 7 is reserved (R99). -/
def Scope.ofCode : Nat → Option Scope
  | 0 => some .strand | 1 => some .core | 2 => some .cluster | 3 => some .die | 4 => some .package
  | 5 => some .system | 6 => some .fabric | _ => Option.none

/-- Standard loads of RV64I (R78). -/
inductive LoadOp where
  | lb | lh | lw | ld | lbu | lhu | lwu
  deriving DecidableEq, Repr

/-- Bytes that a load reads. -/
def LoadOp.bytes : LoadOp → Nat
  | .lb => 1 | .lh => 2 | .lw => 4 | .ld => 8 | .lbu => 1 | .lhu => 2 | .lwu => 4

/-- Loads whose value is sign-extended. -/
def LoadOp.signed : LoadOp → Bool
  | .lb | .lh | .lw | .ld => true
  | _ => false

/-- Standard stores of RV64I (R78). -/
inductive StoreOp where
  | sb | sh | sw | sd
  deriving DecidableEq, Repr

/-- Bytes that a store writes. -/
def StoreOp.bytes : StoreOp → Nat
  | .sb => 1 | .sh => 2 | .sw => 4 | .sd => 8

/-- Scalar AMO operations of the A extension (R78, R79). -/
inductive AmoOp where
  | swap | add | xor | and | or | min | max | minu | maxu
  deriving DecidableEq, Repr

/-- Conditional branches of RV64I. -/
inductive BranchOp where
  | beq | bne | blt | bge | bltu | bgeu
  deriving DecidableEq, Repr

/-- Register-register operations of RV64I, M, Zba and Zbb on 64-bit values. -/
inductive AluOp where
  | add | sub | sll | slt | sltu | xor | srl | sra | or | and
  | mul | mulh | mulhsu | mulhu | div | divu | rem | remu
  | sh1add | sh2add | sh3add | addUw | sh1addUw | sh2addUw | sh3addUw
  | andn | orn | xnor | min | minu | max | maxu | rol | ror
  deriving DecidableEq, Repr

/-- Register-register operations on 32-bit values. -/
inductive AluWOp where
  | addw | subw | sllw | srlw | sraw | mulw | divw | divuw | remw | remuw | rolw | rorw
  deriving DecidableEq, Repr

/-- One-source operations of Zbb. -/
inductive UnaryOp where
  | clz | ctz | cpop | clzw | ctzw | cpopw | sextB | sextH | zextH | orcB | rev8
  deriving DecidableEq, Repr

/-- Operations with a 12-bit signed immediate. -/
inductive ImmOp where
  | addi | slti | sltiu | xori | ori | andi
  deriving DecidableEq, Repr

/-- Shifts by a 6-bit immediate. -/
inductive ShiftOp where
  | slli | srli | srai | rori | slliUw
  deriving DecidableEq, Repr

/-- 32-bit shifts by a 5-bit immediate. -/
inductive ShiftWOp where
  | slliw | srliw | sraiw | roriw
  deriving DecidableEq, Repr

/-- The three CSR operations of Zicsr. -/
inductive CsrOp where
  | rw | rs | rc
  deriving DecidableEq, Repr

/-- The source of a CSR instruction: a register or a 5-bit immediate. -/
inductive CsrSrc where
  | reg (r : BitVec 5)
  | imm (u : BitVec 5)
  deriving DecidableEq, Repr

/-- The rs1 field of a CSR source. -/
def CsrSrc.field : CsrSrc → BitVec 5
  | .reg r => r
  | .imm u => u

/-- The standard arithmetic, jump, branch and CSR-reading instructions of the row SCALAR_INSTRUCTION (R78). -/
inductive ScalarOp where
  | lui (rd : BitVec 5) (imm : BitVec 20)
  | auipc (rd : BitVec 5) (imm : BitVec 20)
  /-- off is the offset divided by 2, signed. -/
  | jal (rd : BitVec 5) (off : BitVec 20)
  | jalr (rd rs1 : BitVec 5) (imm : BitVec 12)
  /-- off is the offset divided by 2, signed. -/
  | branch (op : BranchOp) (rs1 rs2 : BitVec 5) (off : BitVec 12)
  | opImm (op : ImmOp) (rd rs1 : BitVec 5) (imm : BitVec 12)
  | shiftImm (op : ShiftOp) (rd rs1 : BitVec 5) (shamt : BitVec 6)
  | addiw (rd rs1 : BitVec 5) (imm : BitVec 12)
  | shiftImmW (op : ShiftWOp) (rd rs1 : BitVec 5) (shamt : BitVec 5)
  | alu (op : AluOp) (rd rs1 rs2 : BitVec 5)
  | aluW (op : AluWOp) (rd rs1 rs2 : BitVec 5)
  | unary (op : UnaryOp) (rd rs1 : BitVec 5)
  /-- A CSR access that writes nothing: CSRRS or CSRRC with rs1 = x0 or a zero immediate (R81). -/
  | csrRead (csr : BitVec 12) (op : CsrOp) (imm : Bool) (rd : BitVec 5)
  deriving DecidableEq, Repr

/-- What the row REGISTER_WRITE writes: a CSR without a row of its own, by an instruction, or a BAR0 or BAR2
register, by the host (R19, R368). -/
inductive RegTarget where
  | csr (addr : BitVec 12) (op : CsrOp) (src : CsrSrc) (rd : BitVec 5)
  /-- A write by the host of BAR0 of a function: 0 the physical function, 1 to 64 a virtual one. -/
  | bar0 (fn off bytes : Nat) (value : Word)
  /-- A write by the host of BAR2 of a function. -/
  | bar2 (fn off bytes : Nat) (value : Word)
  deriving DecidableEq, Repr

/-- A core's place in the package and a strand slot of it (coreid of R84, R324). -/
structure Place where
  die : Nat
  cluster : Nat
  core : Nat
  slot : Nat
  deriving DecidableEq, Repr

/-- Update tokens of R316 as the row UPDATE_TOKEN_APPLY carries them. -/
inductive TokenOp where
  | amo (op : AmoOp)
  | vadd | vmin | vmax | vand | vor | vxor | vswp | vcas
  deriving DecidableEq, Repr

/-- Units of the self-test rows (R398, R399): a die, a stack, a cluster as its die's number and eight times its own, or a lane by the
location that R404 gives it, lane 32 being the one that acts as proof lane. -/
inductive UnitKind where
  | die | stack | cluster | lane
  deriving DecidableEq, Repr

/-- An image in a slot of the flash: its bytes, its security version and its two signatures, empty where absent (R397). -/
structure SignedImage where
  bytes : List Byte
  version : BitVec 32
  ed25519 : List Byte
  mldsa65 : List Byte
  deriving DecidableEq, Repr

/-- Where an update node or a bank sits (R316, R363). -/
inductive NodeSite where
  | cluster (die cluster : Nat)
  | stack (s : Nat)
  deriving DecidableEq, Repr

/-- Kinds of remote request that another package makes here (R407, R411). -/
inductive RemoteKind where
  | write | read | addToken (fmt : ETag) (rm : Nat)
  deriving DecidableEq, Repr

/-- A contribution or a fault notice as it reaches the switch (R415). A fault notice has no data. -/
structure Contribution where
  tag : Nat
  seq : Nat
  self : Nat
  op : Nat
  fmt : ETag
  count : Nat
  root : Nat
  members : Nat
  cdl : Nat
  rm : Nat
  fault : Bool
  data : List Word
  deriving DecidableEq, Repr

end Sys2Proof
end

