-- ==== Sys2Proof/Syntax.lean ====
section
/-!
DEFINITION. The instructions and device steps: one constructor for each row of the opcode table, the rows
without operands last (95_what_each_step_holds.md), with the operands of the encodings of R94 to R99 or of the step.
-/
namespace Sys2Proof

/-- One constructor per row of the opcode table. -/
inductive Instr where
  /-- VADD (R134). Adds A and B element by element in the common type, saturating integers and rounding floats under ecls.rm. -/
  | vadd (km : BitVec 3) (s : Bool) (vs2 vs1 vd : BitVec 5)
  /-- VSUB (R134). Subtracts B from A element by element in the common type. -/
  | vsub (km : BitVec 3) (s : Bool) (vs2 vs1 vd : BitVec 5)
  /-- VRSUB (R134). Subtracts A from B element by element in the common type. -/
  | vrsub (km : BitVec 3) (s : Bool) (vs2 vs1 vd : BitVec 5)
  /-- VMUL (R134). Multiplies A by B element by element with one rounding or saturation. -/
  | vmul (km : BitVec 3) (s : Bool) (vs2 vs1 vd : BitVec 5)
  /-- VMULH (R136). Delivers the high half of the exact integer product of A and B. -/
  | vmulh (km : BitVec 3) (s : Bool) (vs2 vs1 vd : BitVec 5)
  /-- VDIV (R137). Divides A by B, with integer division by zero and overflow saturating and float division correctly rounded. -/
  | vdiv (km : BitVec 3) (s : Bool) (vs2 vs1 vd : BitVec 5)
  /-- VREM (R137). Delivers the integer remainder of A divided by B, truncating toward zero. -/
  | vrem (km : BitVec 3) (s : Bool) (vs2 vs1 vd : BitVec 5)
  /-- VMIN (R138). Delivers the lesser of A and B under the total float order, with NaNs giving the canonical NaN. -/
  | vmin (km : BitVec 3) (s : Bool) (vs2 vs1 vd : BitVec 5)
  /-- VMAX (R138). Delivers the greater of A and B under the total float order. -/
  | vmax (km : BitVec 3) (s : Bool) (vs2 vs1 vd : BitVec 5)
  /-- VAND (R140). Bitwise AND of the element encodings of two equally tagged operands. -/
  | vand (km : BitVec 3) (s : Bool) (vs2 vs1 vd : BitVec 5)
  /-- VOR (R140). Bitwise inclusive OR of the element encodings. -/
  | vor (km : BitVec 3) (s : Bool) (vs2 vs1 vd : BitVec 5)
  /-- VXOR (R140). Bitwise exclusive OR of the element encodings. -/
  | vxor (km : BitVec 3) (s : Bool) (vs2 vs1 vd : BitVec 5)
  /-- VSLL (R141). Shifts each integer element left by its count, giving 0 for counts out of range. -/
  | vsll (km : BitVec 3) (s : Bool) (vs2 vs1 vd : BitVec 5)
  /-- VSRL (R141). Shifts each element right logically by its count. -/
  | vsrl (km : BitVec 3) (s : Bool) (vs2 vs1 vd : BitVec 5)
  /-- VSRA (R141). Shifts each element right arithmetically by its count. -/
  | vsra (km : BitVec 3) (s : Bool) (vs2 vs1 vd : BitVec 5)
  /-- VCMPEQ (R142). Writes bit e of kd with whether A equals B for each active element. -/
  | vcmpeq (km : BitVec 3) (s : Bool) (vs2 vs1 : BitVec 5) (kd : BitVec 3)
  /-- VCMPNE (R142). Writes bit e of kd with whether A differs from B. -/
  | vcmpne (km : BitVec 3) (s : Bool) (vs2 vs1 : BitVec 5) (kd : BitVec 3)
  /-- VCMPLT (R142). Writes bit e of kd with whether A is less than B. -/
  | vcmplt (km : BitVec 3) (s : Bool) (vs2 vs1 : BitVec 5) (kd : BitVec 3)
  /-- VCMPLE (R142). Writes bit e of kd with whether A is at most B. -/
  | vcmple (km : BitVec 3) (s : Bool) (vs2 vs1 : BitVec 5) (kd : BitVec 3)
  /-- VFMA (R139). Computes a × b + c with vd as c and one rounding. -/
  | vfma (km : BitVec 3) (s : Bool) (vs2 vs1 vd : BitVec 5)
  /-- VFMS (R139). Computes a × b − c with one rounding. -/
  | vfms (km : BitVec 3) (s : Bool) (vs2 vs1 vd : BitVec 5)
  /-- VFNMA (R139). Computes −(a × b) − c with one rounding. -/
  | vfnma (km : BitVec 3) (s : Bool) (vs2 vs1 vd : BitVec 5)
  /-- VFNMS (R139). Computes −(a × b) + c with one rounding. -/
  | vfnms (km : BitVec 3) (s : Bool) (vs2 vs1 vd : BitVec 5)
  /-- VSEL (R144). Copies each element from A or B as the selector mask km chooses. -/
  | vsel (km : BitVec 3) (vs2 vs1 vd : BitVec 5)
  /-- VQBLK (R151). Quantises each 32-element group of vs1 into E4M3 elements in vd and a scale byte in vs2. -/
  | vqblk (km : BitVec 3) (vs2 vs1 vd : BitVec 5)
  /-- VDQBLK (R152). Dequantises E4M3 elements with their group scale bytes into the type of vd. -/
  | vdqblk (km : BitVec 3) (vs2 vs1 vd : BitVec 5)
  /-- VSPLAT (R146). Writes the low bits of an x register to every active element of vd. -/
  | vsplat (km : BitVec 3) (rs1 vd : BitVec 5)
  /-- VADD_VI (R134). Adds a broadcast imm6 to each element of vs1. -/
  | vaddVi (km : BitVec 3) (imm : BitVec 6) (vs1 vd : BitVec 5)
  /-- VSUB_VI (R134). Subtracts a broadcast imm6 from each element of vs1. -/
  | vsubVi (km : BitVec 3) (imm : BitVec 6) (vs1 vd : BitVec 5)
  /-- VRSUB_VI (R134). Subtracts each element of vs1 from a broadcast imm6. -/
  | vrsubVi (km : BitVec 3) (imm : BitVec 6) (vs1 vd : BitVec 5)
  /-- VMUL_VI (R134). Multiplies each element of vs1 by a broadcast imm6. -/
  | vmulVi (km : BitVec 3) (imm : BitVec 6) (vs1 vd : BitVec 5)
  /-- VMIN_VI (R138). Delivers the lesser of each element and a broadcast imm6. -/
  | vminVi (km : BitVec 3) (imm : BitVec 6) (vs1 vd : BitVec 5)
  /-- VMAX_VI (R138). Delivers the greater of each element and a broadcast imm6. -/
  | vmaxVi (km : BitVec 3) (imm : BitVec 6) (vs1 vd : BitVec 5)
  /-- VAND_VI (R140). Bitwise AND of each element with a converted imm6. -/
  | vandVi (km : BitVec 3) (imm : BitVec 6) (vs1 vd : BitVec 5)
  /-- VOR_VI (R140). Bitwise OR of each element with a converted imm6. -/
  | vorVi (km : BitVec 3) (imm : BitVec 6) (vs1 vd : BitVec 5)
  /-- VXOR_VI (R140). Bitwise XOR of each element with a converted imm6. -/
  | vxorVi (km : BitVec 3) (imm : BitVec 6) (vs1 vd : BitVec 5)
  /-- VSLL_VI (R141). Shifts each element left by an unsigned imm6 count. -/
  | vsllVi (km : BitVec 3) (imm : BitVec 6) (vs1 vd : BitVec 5)
  /-- VSRL_VI (R141). Shifts each element right logically by an unsigned imm6 count. -/
  | vsrlVi (km : BitVec 3) (imm : BitVec 6) (vs1 vd : BitVec 5)
  /-- VSRA_VI (R141). Shifts each element right arithmetically by an unsigned imm6 count. -/
  | vsraVi (km : BitVec 3) (imm : BitVec 6) (vs1 vd : BitVec 5)
  /-- VCMPEQ_VI (R142). Compares each element with a broadcast imm6 for equality into kd. -/
  | vcmpeqVi (km : BitVec 3) (imm : BitVec 6) (vs1 : BitVec 5) (kd : BitVec 3)
  /-- VCMPNE_VI (R142). Compares each element with a broadcast imm6 for inequality into kd. -/
  | vcmpneVi (km : BitVec 3) (imm : BitVec 6) (vs1 : BitVec 5) (kd : BitVec 3)
  /-- VCMPLT_VI (R142). Compares each element less than a broadcast imm6 into kd. -/
  | vcmpltVi (km : BitVec 3) (imm : BitVec 6) (vs1 : BitVec 5) (kd : BitVec 3)
  /-- VCMPLE_VI (R142). Compares each element at most a broadcast imm6 into kd. -/
  | vcmpleVi (km : BitVec 3) (imm : BitVec 6) (vs1 : BitVec 5) (kd : BitVec 3)
  /-- VSPLAT_VI (R146). Writes a converted imm6 to every active element of vd. -/
  | vsplatVi (km : BitVec 3) (imm : BitVec 6) (vd : BitVec 5)
  /-- VMV (R145). Copies each active element encoding of vs1 to vd and tags vd with Tag(vs1). -/
  | vmv (km : BitVec 3) (vs1 vd : BitVec 5)
  /-- VABS (R148). Delivers the absolute value of each element. -/
  | vabs (km : BitVec 3) (vs1 vd : BitVec 5)
  /-- VNEG (R148). Delivers the negation of each signed or float element. -/
  | vneg (km : BitVec 3) (vs1 vd : BitVec 5)
  /-- VNOT (R148). Delivers the bitwise complement of each element encoding. -/
  | vnot (km : BitVec 3) (vs1 vd : BitVec 5)
  /-- VSQRT (R149). Delivers the correctly rounded square root of each float element. -/
  | vsqrt (km : BitVec 3) (vs1 vd : BitVec 5)
  /-- VRCP (R149). Delivers the correctly rounded reciprocal of each float element. -/
  | vrcp (km : BitVec 3) (vs1 vd : BitVec 5)
  /-- VRSQRT (R149). Delivers the correctly rounded reciprocal square root of each float element. -/
  | vrsqrt (km : BitVec 3) (vs1 vd : BitVec 5)
  /-- VEXP2 (R149). Delivers the correctly rounded 2^a of each float element. -/
  | vexp2 (km : BitVec 3) (vs1 vd : BitVec 5)
  /-- VLOG2 (R149). Delivers the correctly rounded log2 of each float element. -/
  | vlog2 (km : BitVec 3) (vs1 vd : BitVec 5)
  /-- VCLZ (R148). Counts the leading zero bits of each integer element. -/
  | vclz (km : BitVec 3) (vs1 vd : BitVec 5)
  /-- VPOP (R148). Counts the one bits of each integer element. -/
  | vpop (km : BitVec 3) (vs1 vd : BitVec 5)
  /-- VCLASS (R143). Writes a one-hot N16 class code for each active element. -/
  | vclass (km : BitVec 3) (vs1 vd : BitVec 5)
  /-- VCVT (R150). Converts each active element from Tag(vs1) to Tag(vd) under R35. -/
  | vcvt (km : BitVec 3) (vs1 vd : BitVec 5)
  /-- VID (R147). Writes each active element's index, converted to Tag(vd). -/
  | vid (km : BitVec 3) (vd : BitVec 5)
  /-- KAND (R153). Writes kd bits below vl with ks1 AND ks2. -/
  | kand (ks2 ks1 kd : BitVec 3)
  /-- KOR (R153). Writes kd bits below vl with ks1 OR ks2. -/
  | kor (ks2 ks1 kd : BitVec 3)
  /-- KXOR (R153). Writes kd bits below vl with ks1 XOR ks2. -/
  | kxor (ks2 ks1 kd : BitVec 3)
  /-- KANDN (R153). Writes kd bits below vl with ks1 AND NOT ks2. -/
  | kandn (ks2 ks1 kd : BitVec 3)
  /-- KNOT (R153). Writes kd bits below vl with NOT ks1. -/
  | knot (ks1 kd : BitVec 3)
  /-- KPOP (R154). Writes to rd the number of ks1 bits set below vl. -/
  | kpop (ks1 : BitVec 3) (rd : BitVec 5)
  /-- KFIRST (R154). Writes to rd the least set bit index of ks1 below vl, or −1. -/
  | kfirst (ks1 : BitVec 3) (rd : BitVec 5)
  /-- KMV (R153). Copies ks1 bits below vl into kd. -/
  | kmv (ks1 kd : BitVec 3)
  /-- KMV_FROM_EMASK (R155). Copies every MLEN bit of emask into kd. -/
  | kmvFromEmask (kd : BitVec 3)
  /-- KMV_TO_EMASK (R155). Copies every MLEN bit of ks1 into emask. -/
  | kmvToEmask (ks1 : BitVec 3)
  /-- KSET (R153). Sets kd bits below x[rs1] and clears the rest below vl. -/
  | kset (rs1 : BitVec 5) (kd : BitVec 3)
  /-- VLD (R164). Loads each active element of vd from consecutive memory under Tag(vd). -/
  | vld (km : BitVec 3) (rs1 vd : BitVec 5)
  /-- VST (R164). Stores each active element of vs3 to consecutive memory. -/
  | vst (km : BitVec 3) (rs1 vs3 : BitVec 5)
  /-- VLDS (R164). Loads active elements at a signed byte stride. -/
  | vlds (km : BitVec 3) (rs2 rs1 vd : BitVec 5)
  /-- VSTS (R164). Stores active elements at a signed byte stride. -/
  | vsts (km : BitVec 3) (rs2 rs1 vs3 : BitVec 5)
  /-- VLDX (R164). Loads active elements at base plus per-element byte offsets from vs2. -/
  | vldx (km : BitVec 3) (vs2 rs1 vd : BitVec 5)
  /-- VSTX (R164). Stores active elements at base plus per-element byte offsets. -/
  | vstx (km : BitVec 3) (vs2 rs1 vs3 : BitVec 5)
  /-- VGL (R166). Loads as vldx and sets a vector link on each loaded line after clearing the link set. -/
  | vgl (km : BitVec 3) (vs2 rs1 vd : BitVec 5)
  /-- VSC (R167). Stores each active element only where its line's link is held and records success in km. -/
  | vsc (km : BitVec 3) (vs2 rs1 vs3 : BitVec 5)
  /-- VLSL (R168). Loads each active element from its lane's slice at a byte offset. -/
  | vlsl (km : BitVec 3) (vs2 rs1 vd : BitVec 5)
  /-- VSSL (R168). Stores each active element into its lane's slice at a byte offset. -/
  | vssl (km : BitVec 3) (vs2 rs1 vs3 : BitVec 5)
  /-- VAMOADD (R169). Sends an add token per active element to its home and optionally returns old values. -/
  | vamoadd (km : BitVec 3) (old : Bool) (vs2 rs1 vd : BitVec 5)
  /-- VAMOMIN (R169). Sends a minimum token per active element to its home. -/
  | vamomin (km : BitVec 3) (old : Bool) (vs2 rs1 vd : BitVec 5)
  /-- VAMOMAX (R169). Sends a maximum token per active element to its home. -/
  | vamomax (km : BitVec 3) (old : Bool) (vs2 rs1 vd : BitVec 5)
  /-- VAMOAND (R169). Sends a bitwise AND token per active element to its home. -/
  | vamoand (km : BitVec 3) (old : Bool) (vs2 rs1 vd : BitVec 5)
  /-- VAMOOR (R169). Sends a bitwise OR token per active element to its home. -/
  | vamoor (km : BitVec 3) (old : Bool) (vs2 rs1 vd : BitVec 5)
  /-- VAMOXOR (R169). Sends a bitwise XOR token per active element to its home. -/
  | vamoxor (km : BitVec 3) (old : Bool) (vs2 rs1 vd : BitVec 5)
  /-- VAMOSWP (R169). Sends a swap token per active element to its home. -/
  | vamoswp (km : BitVec 3) (old : Bool) (vs2 rs1 vd : BitVec 5)
  /-- VAMOCAS (R169). Sends a compare-and-swap token per active element and returns the old values. -/
  | vamocas (km : BitVec 3) (vs2 rs1 vd : BitVec 5)
  /-- VPERM (R173). Writes each active element from the vs1 element indexed by vs2, or zero. -/
  | vperm (km : BitVec 3) (vs2 vs1 vd : BitVec 5)
  /-- VSLUP (R173). Slides vs1 up by x[rs2] elements into vd. -/
  | vslup (km : BitVec 3) (rs2 vs1 vd : BitVec 5)
  /-- VSLDN (R173). Slides vs1 down by x[rs2] elements into vd, zero-filling. -/
  | vsldn (km : BitVec 3) (rs2 vs1 vd : BitVec 5)
  /-- VCOMP (R174). Packs the active elements of vs1 into a prefix of vd and zeroes the rest. -/
  | vcomp (km : BitVec 3) (vs1 vd : BitVec 5)
  /-- VEXPD (R174). Spreads a prefix of vs1 onto the active positions of vd. -/
  | vexpd (km : BitVec 3) (vs1 vd : BitVec 5)
  /-- VSCAN (R175). Writes the inclusive prefix sum over active elements, exactly for narrow floats. -/
  | vscan (km : BitVec 3) (vs1 vd : BitVec 5)
  /-- VCEX (R176). Compare-exchanges each element with its partner index, one sorting-network layer. -/
  | vcex (km : BitVec 3) (vs2 vs1 vd : BitVec 5)
  /-- VMRG (R177). Stably merges two ascending runs into vd and records the sources in km. -/
  | vmrg (km : BitVec 3) (vs2 vs1 vd : BitVec 5)
  /-- VRED (R178). Adds every active element of vs1 exactly into an exact accumulator. -/
  | vred (km : BitVec 3) (vs1 : BitVec 5) (ea : BitVec 3)
  /-- VREDMX (R179). Writes element 0 of vd with the greatest of it and every active element of vs1. -/
  | vredmx (km : BitVec 3) (vs1 vd : BitVec 5)
  /-- VREDMN (R179). Writes element 0 of vd with the least of it and every active element of vs1. -/
  | vredmn (km : BitVec 3) (vs1 vd : BitVec 5)
  /-- VDOT (R178). Adds every active product of vs1 and vs2 exactly into an exact accumulator. -/
  | vdot (km : BitVec 3) (vs2 vs1 : BitVec 5) (ea : BitVec 3)
  /-- EACLR (R180). Clears an exact accumulator to the state of ExactLoad(−0). -/
  | eaclr (ea : BitVec 3)
  /-- EARD (R180). Reads an exact accumulator out once into element 0 of vd. -/
  | eard (ea : BitVec 3) (vd : BitVec 5)
  /-- EAMV_LOAD (R180). Loads a 96-byte accumulator image from memory into an exact accumulator. -/
  | eamvLoad (rs1 : BitVec 5) (ea : BitVec 3)
  /-- EAMV_STORE (R180). Stores an exact accumulator's 96-byte image to memory. -/
  | eamvStore (rs1 : BitVec 5) (ea : BitVec 3)
  /-- MMA (R198). Forms each element of mc as one exact read-out of the old element plus the K products of ma and mb. -/
  | mma (mc ma mb : BitVec 3)
  /-- MMASP (R199). Multiplies a compressed ma whose kept K positions vs lists by mb into mc. -/
  | mmasp (mc ma mb : BitVec 3) (v : BitVec 5)
  /-- MMACK (R200). Performs mma and writes predicted row and column checksums to vd. -/
  | mmack (mc ma mb : BitVec 3) (v : BitVec 5)
  /-- TZERO (R194). Writes the zero encoding to every element of mc's granted shape. -/
  | tzero (mc : BitVec 3)
  /-- TMV (R195). Copies every element encoding of ma into mc. -/
  | tmv (mc ma : BitVec 3)
  /-- TCVT (R195). Converts every element of ma to the type of mc. -/
  | tcvt (mc ma : BitVec 3)
  /-- TADD (R195). Adds ma and mb element by element into mc with one rounding. -/
  | tadd (mc ma mb : BitVec 3)
  /-- TSCALE (R195). Multiplies every element of ma by a scalar from an x register into mc. -/
  | tscale (mc ma : BitVec 3) (rs : BitVec 5)
  /-- TSUM (R201). Writes the actual row and column sums of ma to vd. -/
  | tsum (ma : BitVec 3) (v : BitVec 5)
  /-- TLD (R192). Loads the granted shape of md from memory row by row at a byte stride. -/
  | tld (md : BitVec 3) (rs2 rs1 : BitVec 5)
  /-- TST (R192). Stores the granted shape of md to memory row by row at a byte stride. -/
  | tst (md : BitVec 3) (rs2 rs1 : BitVec 5)
  /-- TTOV (R193). Copies one row of md to vd and tags vd with the tile's type. -/
  | ttov (md : BitVec 3) (v rs1 : BitVec 5)
  /-- VTOT (R193). Copies elements of vs into one row of md. -/
  | vtot (md : BitVec 3) (v rs1 : BitVec 5)
  /-- VSHAPE (R111). Grants a vector length for a width class, makes a strip boundary in user mode and writes the grant to rd. -/
  | vshape (width : WidthClass) (rs1 rd : BitVec 5)
  /-- VTAG (R115). Sets the element-type tag of vd without changing its bits. -/
  | vtag (ty : ETag) (vd : BitVec 5)
  /-- TGETSH (R122). Reads the shape CSR of md into rd. -/
  | tgetsh (md : BitVec 3) (rd : BitVec 5)
  /-- TSHAPE (R120). Grants rows, columns and a type to tile md. -/
  | tshape (ty : ETag) (rs2 rs1 : BitVec 5) (md : BitVec 3)
  /-- CHCFG (R218). Reads a chain record, checks it in two passes and grants it, leaving the handle READY or REJECTED. -/
  | chcfg (rs1 : BitVec 5) (c : BitVec 2)
  /-- CHRUN (R218). Sets a run quota and starts the chain running asynchronously. -/
  | chrun (rs1 : BitVec 5) (c : BitVec 2)
  /-- CHWAIT (R218). Waits with a deadline until the handle is not RUNNING and writes its status. -/
  | chwait (rs2 : BitVec 5) (c : BitVec 2) (rd : BitVec 5)
  /-- CHBRK (R218). Cuts a RUNNING chain with cause REQUEST. -/
  | chbrk (c : BitVec 2)
  /-- CHRES (R218). Resumes a BROKEN chain under a fresh grant. -/
  | chres (c : BitVec 2)
  /-- CHSTAT (R225). Returns a selected item of chain state to rd. -/
  | chstat (rs2 : BitVec 5) (c : BitVec 2) (rd : BitVec 5)
  /-- CHFREE (R218). Releases a chain's lane groups, ports and buffers, cutting it first if running. -/
  | chfree (c : BitVec 2)
  /-- CHSAVE (R226). Stores the chain image of a handle to memory. -/
  | chsave (rs1 : BitVec 5) (c : BitVec 2)
  /-- CHLOAD (R226). Loads a chain image into a handle and grants it afresh. -/
  | chload (rs1 : BitVec 5) (c : BitVec 2)
  /-- TLWAIT (R236). Waits until a timeline's completion count reaches a threshold. -/
  | tlwait (tl : BitVec 2) (rs2 rs1 rd : BitVec 5)
  /-- TLNOW (R237). Returns a timeline's completion count. -/
  | tlnow (tl : BitVec 2) (rd : BitVec 5)
  /-- WFLAG (R238). Waits until an 8-byte flag equals, or is at least, the expected value in rd. -/
  | wflag (ge : Bool) (rs2 rs1 rd : BitVec 5)
  /-- SYNC (R240). Waits until the named classes of prior accesses are complete at the named scope. -/
  | sync (scope : Scope) (classes rs1 rd : BitVec 5)
  /-- RLNEW (R243). Creates a reel at phase 0 with the strand as sole member. -/
  | rlnew (rs1 rd : BitVec 5)
  /-- RLJOIN (R243). Requests membership of a reel from its next phase. -/
  | rljoin (rs1 rd : BitVec 5)
  /-- RLLEAVE (R243). Arrives in the current phase and ends membership at its end. -/
  | rlleave (rs1 rd : BitVec 5)
  /-- RLFREE (R243). Dissolves a reel, cancelling every pending wait on it. -/
  | rlfree (rs1 rd : BitVec 5)
  /-- RLARR (R244). Records the strand's arrival in the current phase without waiting. -/
  | rlarr (rs1 rd : BitVec 5)
  /-- RLWAIT (R245). Waits for the phase named by a token to complete, or reports it stale. -/
  | rlwait (rs2 rs1 rd : BitVec 5)
  /-- RLBAR (R244). Arrives in the current phase and waits for it to complete. -/
  | rlbar (rs2 rs1 rd : BitVec 5)
  /-- ECOPY (R309). Issues a strided copy command to the cluster's engine on a timeline. -/
  | ecopy (tl : BitVec 2) (rs2 rs1 rd : BitVec 5)
  /-- EGTH (R309). Issues an indexed gather command to the engine. -/
  | egth (tl : BitVec 2) (rs2 rs1 rd : BitVec 5)
  /-- ESCT (R309). Issues an indexed scatter command, optionally with add tokens. -/
  | esct (tl : BitVec 2) (rs2 rs1 rd : BitVec 5)
  /-- EFILL (R309). Issues a fill command writing one value to strided elements. -/
  | efill (tl : BitVec 2) (rs2 rs1 rd : BitVec 5)
  /-- ECVT (R309). Issues a conversion command, including CE8 encode and decode. -/
  | ecvt (tl : BitVec 2) (rs2 rs1 rd : BitVec 5)
  /-- ECAN (R313). Marks an engine command cancelled and waits until it has ended. -/
  | ecan (tl : BitVec 2) (rs2 rs1 rd : BitVec 5)
  /-- ICINV (R343). Invalidates a text range in the instruction caches of every core of the die or package. -/
  | icinv (pkg : Bool) (rs2 rs1 rd : BitVec 5)
  /-- TLBINV (R339). Removes translations of an address space from the die's or package's caches and waits for completion. -/
  | tlbinv (pkg : Bool) (rs2 rs1 rd : BitVec 5)
  /-- FPUT (R411). Issues a fabric command that writes local bytes to remote memory. -/
  | fput (tl : BitVec 2) (rs2 rs1 rd : BitVec 5)
  /-- FGET (R411). Issues a fabric command that reads remote bytes into local memory. -/
  | fget (tl : BitVec 2) (rs2 rs1 rd : BitVec 5)
  /-- FCOLL (R414). Issues a collective over a fabric group, contributing the local source. -/
  | fcoll (tl : BitVec 2) (rs2 rs1 rd : BitVec 5)
  /-- DLAUNCH (R391). Submits a launch record from memory to the Shutter. -/
  | dlaunch (rs2 rs1 rd : BitVec 5)
  /-- LDAQ (R241). Loads 8 bytes as an acquire at the encoded scope. -/
  | ldaq (scope : Scope) (rs1 rd : BitVec 5)
  /-- STRL (R241). Stores 8 bytes as a release at the encoded scope after completing prior accesses. -/
  | strl (scope : Scope) (rs2 rs1 : BitVec 5)
  /-- VQPUSH (R183). Appends elements 0 to vl−1 of vs to a queue, all or nothing, with a deadline. -/
  | vqpush (q : BitVec 3) (vs rs1 rd : BitVec 5)
  /-- VQPOP (R183). Removes the vl oldest elements of a queue into vd, all or nothing, with a deadline. -/
  | vqpop (q : BitVec 3) (vd rs1 rd : BitVec 5)
  /-- VQCNT (R185). Returns a queue's element count, tag and mark state. -/
  | vqcnt (q : BitVec 3) (rd : BitVec 5)
  /-- VWAIT (R239). Waits on a vector of flags and writes the unmet mask to kd. -/
  | vwait (ge : Bool) (kd : BitVec 3) (vs rs1 rd : BitVec 5)
  /-- FENCE (R79). Acts as a package-scope sync of loads and stores with deadline wdef. -/
  | fence (fm pred succ : BitVec 4) (rs1 rd : BitVec 5)
  /-- FENCE_I (R79). Commits the strip store buffer, waits for prior stores at their homes and invalidates this core's instruction cache. -/
  | fenceI (imm : BitVec 12) (rs1 rd : BitVec 5)
  /-- LR (R79). Loads and sets the strand's single scalar link at the line's home. -/
  | lr (dbl aq rl : Bool) (rs1 rd : BitVec 5)
  /-- SC (R79). Stores at the home only if the strand's link is intact, writing 0 or 1 to rd and clearing the link. -/
  | sc (dbl aq rl : Bool) (rs2 rs1 rd : BitVec 5)
  /-- AMO (R79). Performs a scalar atomic at the home update node with deadline wdef. -/
  | amo (op : AmoOp) (dbl aq rl : Bool) (rs2 rs1 rd : BitVec 5)
  /-- SCALAR_LOAD (R262). Loads from memory, the strip store buffer or the scalar data cache under the visibility rules. -/
  | scalarLoad (op : LoadOp) (imm : BitVec 12) (rs1 rd : BitVec 5)
  /-- SCALAR_STORE (R280). Stores to memory, held in the strip store buffer while the strip is rewindable. -/
  | scalarStore (op : StoreOp) (imm : BitVec 12) (rs2 rs1 : BitVec 5)
  /-- SFENCE_VMA (R79). Invalidates this core's TLB entries for the strand's address-space identifier. -/
  | sfenceVma (rs2 rs1 : BitVec 5)
  /-- VSTA_WRITE (R82). A CSR write sets vsta to the written value, held as written. -/
  | vstaWrite (op : CsrOp) (src : CsrSrc) (rd : BitVec 5)
  /-- EMASK_WRITE (R66). A CSR write sets emask bits 63 to 0 and clears every higher bit. -/
  | emaskWrite (op : CsrOp) (src : CsrSrc) (rd : BitVec 5)
  /-- ECLS_WRITE (R65). A CSR write sets cls and rm, ignoring reserved codes, and clears emask when cls changes. -/
  | eclsWrite (op : CsrOp) (src : CsrSrc) (rd : BitVec 5)
  /-- WCEIL_WRITE (R84). A CSR write sets wceil, holding values above 2^40 as 2^40. -/
  | wceilWrite (op : CsrOp) (src : CsrSrc) (rd : BitVec 5)
  /-- WPT_WRITE (R85). A CSR write sets a watchpoint, translating the region for src 3 or holding src at 0 when it cannot. -/
  | wptWrite (n : BitVec 2) (op : CsrOp) (src : CsrSrc) (rd : BitVec 5)
  /-- FINJ_WRITE (R85). A CSR write inverts one bit of one element of the strand's own tile, once. -/
  | finjWrite (op : CsrOp) (src : CsrSrc) (rd : BitVec 5)
  /-- REGISTER_WRITE (R19). A write to any register or CSR with no row of its own acts under its access codes. -/
  | registerWrite (target : RegTarget)
  /-- STRAND_PLACE (R383). The Shutter places a strand on a core, sets lpart and starts or restores it. -/
  | strandPlace (launch idx : Nat) (place : Place) (n0 n1 : Nat)
  /-- PREEMPT (R284). Stops a strand at a boundary, cuts its chains with AUTO and begins its two-copy context save. -/
  | preempt (sid copyA copyB : Nat)
  /-- CONTEXT_SAVE_END (R386). A context save completes and the Shutter decides placement afresh. -/
  | contextSaveEnd (sid : Nat)
  /-- CONTEXT_RESTORE (R286). Restores a saved strand block by block from either copy, or ends the launch with CONTEXT_LOST. -/
  | contextRestore (sid : Nat) (place : Place) (n0 n1 : Nat)
  /-- CHAIN_STAGE_UNIT (R209). A chain stage performs one unit from its sources into its destination. -/
  | chainStageUnit (c : BitVec 2) (stage : Nat)
  /-- PORT_ELEMENT_READ (R261). An input port reads an element, possibly ahead, at its home. -/
  | portElementRead (c : BitVec 2) (port : Nat)
  /-- PORT_ELEMENT_WRITE (R261). An output or ordered-update port writes a produced element once. -/
  | portElementWrite (c : BitVec 2) (port : Nat)
  /-- LINK_ELEMENT_RECEIVE (R220). An element sent on a lane link arrives in the peer's receive buffer. -/
  | linkElementReceive (c : BitVec 2) (link : Nat) (ty : ETag) (value : Word) (mark : Bool)
  /-- CUT_MARKER_RECEIVE (R223). A segment receives a peer's cut marker and is cut by it. -/
  | cutMarkerReceive (c : BitVec 2) (link cause : Nat)
  /-- TEMPORAL_PASS (R224). Runs one downstream-first pass of a temporally executed chain. -/
  | temporalPass (c : BitVec 2)
  /-- HOME_ACCESS_APPLY (R251). A home applies a read or write to a location in its arrival order. -/
  | homeAccessApply (write : Bool) (pa bytes : Nat) (data : Word)
  /-- UPDATE_TOKEN_APPLY (R316). An update node applies an atomic, link or update token indivisibly at the line's bank. -/
  | updateTokenApply (op : TokenOp) (ty : ETag) (pa : Nat) (data cmp : Word) (rm : Nat)
  /-- ENGINE_ELEMENT (R305). An engine performs one element's index read, source read and destination write. -/
  | engineElement (cmd : Nat)
  /-- ENGINE_COMMAND_END (R312). An engine command ends by completion, fault or cancellation, writes its record and completes its ticket. -/
  | engineCommandEnd (cmd : Nat)
  /-- PATROL_SCRUB (R301). The cluster scrubber reads a word and writes back a corrected value. -/
  | patrolScrub (pa err : Nat)
  /-- WRITE_QUEUE_DRAIN (R356). A channel controller drains writes to the DRAM array between its watermarks. -/
  | writeQueueDrain (stack chan : Nat)
  /-- ROW_ACTIVATE (R357). A DRAM activation updates the hot-row tracker and may issue directed refresh management. -/
  | rowActivate (pa bank row : Nat)
  /-- REFRESH_WINDOW_START (R357). At the start of each refresh window every tracker counter of the bank is freed. -/
  | refreshWindowStart (stack bank : Nat)
  /-- FIXER_SCRUB (R364). The fixer core reads a word of a live region and conditionally writes back a correction. -/
  | fixerScrub (pa err : Nat)
  /-- SUSPECT_REREAD (R364). The fixer core re-reads a suspect word and clears its poison when its bits were intact. -/
  | suspectReread (pa : Nat) (intact : Bool)
  /-- ROW_SPARING (R364). Replaces a DRAM row with a lasting fault by a spare row after copying it. -/
  | rowSparing (pa bytes : Nat) (unreadable : List Nat)
  /-- UCIE_RETRAIN (R327). A UCIe module retrains or repairs lanes, changing timing only. -/
  | ucieRetrain (module : Nat)
  /-- UCIE_MODULE_LOST (R366). A UCIe module leaves service, cutting chains on its links with AUTO and rerouting traffic. -/
  | ucieModuleLost (module : Nat) (links : List (Place × Nat))
  /-- STACK_LOST (R366). A stack leaves service, its reads consume errors and its writes are discarded. -/
  | stackLost (stack : Nat)
  /-- BANK_LOST (R319). A tile-memory bank is lost, so every word reads poisoned and writes are discarded. -/
  | bankLost (die cluster bank : Nat)
  /-- ENGINE_LOST (R319). An engine is lost, its running command faults and its queue passes to the other engine. -/
  | engineLost (die cluster engine : Nat)
  /-- UPDATE_NODE_LOST (R319). An update node is lost and its memory acts as a lost bank. -/
  | updateNodeLost (site : NodeSite)
  /-- CORE_RETIRE (R345). A lost core is retired, its strands saved and its links relayed. -/
  | coreRetire (die cluster core : Nat) (unread copyA copyB : List Nat)
  /-- DIE_OUT_OF_SERVICE (R346). A compute die leaves service, retiring its cores and losing its clusters and UCIe links. -/
  | dieOutOfService (die : Nat) (unread : List Nat) (copies : List (Nat × Nat))
  /-- HOST_BAR4_WRITE (R269). A host posted write through BAR4 is performed at the home as a system-scope release. -/
  | hostBar4Write (pa : Nat) (data : List Byte)
  /-- HOST_BAR4_READ (R269). A host read through BAR4 is performed at the home as a system-scope acquire. -/
  | hostBar4Read (pa bytes : Nat)
  /-- PORT_RECORD_ACCEPT (R372). A host write covering byte 0x07F of a port's record area accepts or drops the record. -/
  | portRecordAccept (port off : Nat) (data : List Byte)
  /-- RECORD_TAKE (R372). The Shutter takes a record from a port slot into the graph when it holds fewer than 65,536 launches. -/
  | recordTake (port : Nat)
  /-- PCAN_WRITE (R388). A full write of PCAN cancels the named incomplete launch of the port's address space. -/
  | pcanWrite (port bytes : Nat) (value : Word)
  /-- CREATE (R369). SCMD op 1 makes an address space live from its descriptor. -/
  | create (asid : BitVec 10) (arg : BitVec 48)
  /-- DESTROY (R369). SCMD op 2 ends an address space and removes its translations, lines and code. -/
  | destroy (asid : BitVec 10) (arg : BitVec 48)
  /-- FLUSHCODE (R369). SCMD op 3 removes the residency of one code object. -/
  | flushcode (asid : BitVec 10) (arg : BitVec 48)
  /-- INVALTLB (R369). SCMD op 4 invalidates every translation of an address space across the package. -/
  | invaltlb (asid : BitVec 10) (arg : BitVec 48)
  /-- PBIND_WRITE (R369). A write to a port binding sets it, leaving en at 0 when the address space is not live. -/
  | pbindWrite (port : Nat) (value : Word)
  /-- PLACEMENT_DECISION (R385). The Shutter considers ready nodes by effective priority and places or pre-empts. -/
  | placementDecision (places : List Place) (copyA copyB : List Nat)
  /-- CODE_OBJECT_LOAD (R375). The loader fetches a code object, selects an image, places its sections and maps them. -/
  | codeObjectLoad (launch : Nat)
  /-- LAUNCH_DEADLINE_EXPIRY (R382). A launch not placed before its deadline completes with TIMEOUT. -/
  | launchDeadlineExpiry (launch : Nat)
  /-- LAUNCH_COMPLETE (R387). A draining launch completes, writing its status record, timeline, mirror and MSI-X, then satisfying successors. -/
  | launchComplete (launch : Nat)
  /-- LAUNCH_REPLAY (R390). Ends every strand of a replayable launch, rewrites its data and returns it to READY. -/
  | launchReplay (launch : Nat)
  /-- HOST_COPY (R374). The I/O-die copy engine performs a host copy byte by byte in ascending order. -/
  | hostCopy (launch : Nat)
  /-- DEVICE_RESET (R398). Device reset starts the timebase at 0 and the root of trust verifies the controller firmware. -/
  | deviceReset (slotA slotB : SignedImage)
  /-- FIXER_IMAGE_VERIFY (R398). The controller verifies the fixer image once for all base dies. -/
  | fixerImageVerify (slotA slotB : SignedImage)
  /-- UNIT_SELF_TEST_END (R399). A die or stack finishes self-test and training and joins, or stays out of service. -/
  | unitSelfTestEnd (kind : UnitKind) (n : Nat) (pass : Bool)
  /-- ATTESTATION_REQUEST (R401). A write to ATREQ starts a signed attestation report into a named area. -/
  | attestationRequest (value : Word)
  /-- PWRCAP_WRITE (R402). A write to PWRCAP sets the power limit, clamped to 1,000 to 3,800 W. -/
  | pwrcapWrite (value : Word)
  /-- RASACK_WRITE (R402). A write to RASACK advances the consumed count when within range. -/
  | rasackWrite (value : Word)
  /-- THERMAL_TRIP (R403). A sensor reaching 115 °C pre-empts every placed strand until all fall below 95 °C. -/
  | thermalTrip (copyA copyB : List Nat)
  /-- WMARK_WRITE (R367). A write to WMARK sets the watermarks unless lo is not below hi. -/
  | wmarkWrite (stack : Nat) (value : Word)
  /-- HROW_WRITE (R367). A write to HROW sets threshold and radius with clamping and invalid radius ignored. -/
  | hrowWrite (stack : Nat) (value : Word)
  /-- ELIDE_MARK (R359). ELIDE op 1 marks a region not live as one write of zeros at the home. -/
  | elideMark (stack : Nat) (value : Word)
  /-- FPKG_WRITE (R405). A write to FPKG sets the package number and enable, discarded while a launch is incomplete. -/
  | fpkgWrite (value : Word)
  /-- FABRIC_REMOTE_REQUEST (R407). A package accepts or refuses a remote request and performs its accesses. -/
  | fabricRemoteRequest (kind : RemoteKind) (asid tag fromPkg fromAsid raddr len : Nat) (data : List Byte)
  /-- FABRIC_COMMAND_END (R412). An fput or fget ends, writes its record and completes its ticket. -/
  | fabricCommandEnd (cmd : Nat) (cause : BitVec 8) (count : Nat) (location : Word) (data : List Byte)
  /-- COLLECTIVE_CONTRIBUTION (R415). The switch receives a contribution or fault notice and adds it exactly or aborts. -/
  | collectiveContribution (msg : Contribution)
  /-- COLLECTIVE_RESULT_RECEIVE (R415). A member writes the switch's result into its stage and acknowledges. -/
  | collectiveResultReceive (cmd : Nat) (data : List Word) (classes : BitVec 6)
  /-- COLLECTIVE_COMMIT (R415). Once every member has acknowledged, each copies its stage into its destination. -/
  | collectiveCommit (key : Nat × Nat) (acks : List Nat)
  /-- COLLECTIVE_EXPIRY (R415). The collective deadline expires before commit and aborts it with reason 1. -/
  | collectiveExpiry (tag seq : Nat)
  /-- COLLECTIVE_MEMBER_LOST (R415). A member is lost before commit and the collective aborts with reason 4. -/
  | collectiveMemberLost (tag seq member : Nat)
  /-- SCALAR_INSTRUCTION (R78). Executes a standard RV64I, M, Zba or Zbb arithmetic, jump or branch instruction of the strand. -/
  | scalarInstruction (op : ScalarOp)
  /-- ENCODING_THAT_SELECTS_NOTHING (R101). An instruction word whose opcode, function or reserved fields select no instruction raises Illegal() with no other effect. -/
  | encodingThatSelectsNothing (bits : BitVec 32)
  /-- MEMORY_SIDE_CACHE_LINE_MOVE (R354). The memory-side cache moves a line to or from the DRAM array, carrying its poison with it. -/
  | memorySideCacheLineMove (line : Nat) (toArray : Bool)
  /-- BANK_ROW_SPARING (R319). A cluster tile-memory bank row with a lasting fault is replaced by a spare row of the bank, keeping readable words and poisoning the rest. -/
  | bankRowSparing (pa bytes : Nat) (unreadable : List Nat)
  /-- FABRIC_PORT_TRAINED (R405). A fabric port finishes training and enters service, setting its bit in FPKG.up. -/
  | fabricPortTrained (port : Nat)
  /-- FABRIC_PORT_LOST (R412). A fabric port leaves service, clearing its FPKG.up bit, and when no path remains, remote commands end with cause 0xC1. -/
  | fabricPortLost (port : Nat)
  /-- COLLECTIVE_ABORT_RECEIVE (R415). A member's fabric engine learns the switch's abort outcome and ends its fcoll FAILED with the reason and mask, writing its record and completing its ticket. -/
  | collectiveAbortReceive (cmd reason : Nat) (mask : List Nat)
  /-- CLAIM (R278). Cuts running chains, writes the victim's vector state to the claim image and resets it for the handler. -/
  | claim
  /-- ECALL (R79). Traps with cause 8 from user mode or 9 from supervisor mode. -/
  | ecall
  /-- EBREAK (R274). Traps with cause 3 and stval holding its address. -/
  | ebreak
  /-- WFI (R79). Performs no operation. -/
  | wfi
  /-- SRET (R278). Returns from a trap, first checking and reloading the claim image when claimed and re-forming AUTO-cut chains. -/
  | sret
  /-- ASYNC_EVENT_TAKE (R275). Takes one pending chain-cut, asynchronous watchpoint or step event as a trap at a user-mode boundary. -/
  | asyncEventTake
  /-- STRAND_END (R387). A fetch at virtual address 0 ends the strand, normally in user mode or fatally in supervisor mode. -/
  | strandEnd
  /-- WAIT_CONDITION_MET (R229). A waiting instruction finds its condition met on a change of state and ends with its success code. -/
  | waitConditionMet
  /-- WAIT_EXPIRY (R229). A waiting instruction reaches its expiry with its condition unmet and ends with its expiry code. -/
  | waitExpiry
  /-- THERMAL_CALIBRATION_END (R399). Thermal calibration ends, clearing half rate and possibly entering FULL. -/
  | thermalCalibrationEnd
  /-- THERMAL_RECOVER (R403). Every sensor falling below 95 °C allows placement again. -/
  | thermalRecover
  /-- SCMD_COMMAND_COMPLETE (R369). A running SCMD command finishes, clearing SCST.busy and writing its result. -/
  | scmdCommandComplete
  /-- ATTESTATION_REPORT_COMPLETE (R401). The controller finishes writing the signed report into the area and sets ATST.result, clearing busy. -/
  | attestationReportComplete
  deriving DecidableEq, Repr

end Sys2Proof
end

