-- ==== Sys2Proof/WellFormed.lean ====
section
/-!
DEFINITION. Which terms of Instr the encodings admit: the register exclusions of R97 and R99, the reserved codes of
R98, the CSR forms that other rows take, and the bounds of the operands of device steps.
-/
namespace Sys2Proof

/-- A CSR instruction of a CSR-write row writes: CSRRW always, CSRRS and CSRRC with a nonzero source field (R81). -/
def csrWrites (op : CsrOp) (src : CsrSrc) : Bool := op == .rw || src.field != 0

/-- The CSR addresses with rows of their own. -/
def csrHasRow (a : Nat) : Bool :=
  a == 0x800 || a == 0x801 || a == 0x802 || a == 0x805 || a == 0x5C0 || (0x5C4 ≤ a && a ≤ 0x5C7)

/-- A place lies in the package (R84). -/
def Place.wf (p : Place) : Bool := p.die < 8 && p.cluster < 25 && p.core < 8 && p.slot < 2

/-- Lane-group counts that lpart admits (R70). -/
def laneCountsWf (n0 n1 : Nat) : Bool := n0 % 2 == 0 && n1 % 2 == 0 && n0 + n1 ≤ 8

/-- Well-formedness of a term: what the encodings and the machine's sizes admit. -/
def Instr.wf : Instr → Bool
  | .vsc km _ _ _ => km != 0
  | .vamocas _ _ _ vd => vd != 31
  | .vwait _ _ vs _ _ => vs != 31
  | .tshape ty _ _ _ => ty != .none
  | .vstaWrite op src _ | .emaskWrite op src _ | .eclsWrite op src _ | .wceilWrite op src _ | .wptWrite _ op src _
  | .finjWrite op src _ => csrWrites op src
  | .registerWrite (.csr a op src _) => csrWrites op src && !csrHasRow a.toNat
  | .registerWrite (.bar0 fn off n _) => decide (fn ≤ 64) && (n == 4 || n == 8) && off % n == 0 && off + n ≤ 65536
  | .registerWrite (.bar2 fn off n _) => decide (fn ≤ 64) && (n == 4 || n == 8) && off % n == 0 && off + n ≤ 262144
  | .scalarInstruction (.csrRead _ op _ _) => op != .rw
  | .strandPlace _ _ p n0 n1 | .contextRestore _ p n0 n1 => p.wf && laneCountsWf n0 n1
  | .portRecordAccept port off data => port < 64 && off + data.length ≤ 128
  | .recordTake port | .pbindWrite port _ => port < 64
  | .pcanWrite port n _ => port < 64 && n ≤ 8
  | .wmarkWrite s _ | .hrowWrite s _ | .elideMark s _ | .stackLost s => s < 16
  | .bankLost d c b => d < 8 && c < 25 && b < 64
  | .engineLost d c e => d < 8 && c < 25 && e < 2
  | .coreRetire d c k _ _ _ => d < 8 && c < 25 && k < 8
  | .dieOutOfService d _ _ => d < 8
  | .fabricPortTrained p | .fabricPortLost p => p < 18
  | _ => true

end Sys2Proof
end

