-- ==== Sys2Proof/Decode.lean ====
section
/-!
DEFINITION. Decoding of instruction words and bytes (R78, R90 to R101) and, after it, the encoder written from the
same tables. Fields are taken by division and remainder, so that a word is a plain number.
-/
namespace Sys2Proof

/-- Why bytes decode to no instruction (R101): the names a rejection carries. -/
inductive Reject where
  /-- A funct6, funct5, funct8, funct7, sub-function, fmt3, funct3, scope or width code that is reserved. -/
  | reservedFunct
  /-- A reserved field or bit, or a forbidden s or w, is nonzero, or a required bit is clear. -/
  | reservedField
  /-- A register that the entry excludes: km = k0 in vsc, vd = v31 in vamocas, vs = v31 in vwait. -/
  | excludedOperand
  /-- A major opcode or standard function that the profile of R78 does not implement. -/
  | unassigned
  /-- Fewer bytes than the instruction has. -/
  | tooShort
  deriving DecidableEq, Repr

/-- Field of n bits at bit lo of a word. -/
def fld (w lo n : Nat) : Nat := w / 2 ^ lo % 2 ^ n

/-- The same field as a bit vector. -/
def fv (w lo n : Nat) : BitVec n := BitVec.ofNat n (w / 2 ^ lo)

/-- One bit of a word. -/
def fbit (w lo : Nat) : Bool := w / 2 ^ lo % 2 == 1

/-- The unary group of R95, by the vs2 field. -/
def decodeUnary (w : Nat) : Except Reject Instr :=
  match fld w 17 5 with
  | 0 => if fld w 22 1 = 0 then .ok (.vmv (fv w 23 3) (fv w 12 5) (fv w 7 5)) else .error .reservedField
  | 1 => if fld w 22 1 = 0 then .ok (.vabs (fv w 23 3) (fv w 12 5) (fv w 7 5)) else .error .reservedField
  | 2 => if fld w 22 1 = 0 then .ok (.vneg (fv w 23 3) (fv w 12 5) (fv w 7 5)) else .error .reservedField
  | 3 => if fld w 22 1 = 0 then .ok (.vnot (fv w 23 3) (fv w 12 5) (fv w 7 5)) else .error .reservedField
  | 4 => if fld w 22 1 = 0 then .ok (.vsqrt (fv w 23 3) (fv w 12 5) (fv w 7 5)) else .error .reservedField
  | 5 => if fld w 22 1 = 0 then .ok (.vrcp (fv w 23 3) (fv w 12 5) (fv w 7 5)) else .error .reservedField
  | 6 => if fld w 22 1 = 0 then .ok (.vrsqrt (fv w 23 3) (fv w 12 5) (fv w 7 5)) else .error .reservedField
  | 7 => if fld w 22 1 = 0 then .ok (.vexp2 (fv w 23 3) (fv w 12 5) (fv w 7 5)) else .error .reservedField
  | 8 => if fld w 22 1 = 0 then .ok (.vlog2 (fv w 23 3) (fv w 12 5) (fv w 7 5)) else .error .reservedField
  | 9 => if fld w 22 1 = 0 then .ok (.vclz (fv w 23 3) (fv w 12 5) (fv w 7 5)) else .error .reservedField
  | 10 => if fld w 22 1 = 0 then .ok (.vpop (fv w 23 3) (fv w 12 5) (fv w 7 5)) else .error .reservedField
  | 11 => if fld w 22 1 = 0 then .ok (.vclass (fv w 23 3) (fv w 12 5) (fv w 7 5)) else .error .reservedField
  | 12 => if fld w 22 1 = 0 then .ok (.vcvt (fv w 23 3) (fv w 12 5) (fv w 7 5)) else .error .reservedField
  | 13 => if fld w 12 5 = 0 ∧ fld w 22 1 = 0 then .ok (.vid (fv w 23 3) (fv w 7 5)) else .error .reservedField
  | _ => .error .reservedFunct

/-- The mask group of R96, by its sub-function. -/
def decodeMask (w : Nat) : Except Reject Instr :=
  match fld w 17 5 with
  | 0 => if fld w 10 2 = 0 ∧ fld w 15 2 = 0 ∧ fld w 22 1 = 0 then .ok (.kand (fv w 23 3) (fv w 12 3) (fv w 7 3)) else .error .reservedField
  | 1 => if fld w 10 2 = 0 ∧ fld w 15 2 = 0 ∧ fld w 22 1 = 0 then .ok (.kor (fv w 23 3) (fv w 12 3) (fv w 7 3)) else .error .reservedField
  | 2 => if fld w 10 2 = 0 ∧ fld w 15 2 = 0 ∧ fld w 22 1 = 0 then .ok (.kxor (fv w 23 3) (fv w 12 3) (fv w 7 3)) else .error .reservedField
  | 3 => if fld w 10 2 = 0 ∧ fld w 15 2 = 0 ∧ fld w 22 1 = 0 then .ok (.kandn (fv w 23 3) (fv w 12 3) (fv w 7 3)) else .error .reservedField
  | 4 => if fld w 10 2 = 0 ∧ fld w 15 2 = 0 ∧ fld w 22 4 = 0 then .ok (.knot (fv w 12 3) (fv w 7 3)) else .error .reservedField
  | 5 => if fld w 15 2 = 0 ∧ fld w 22 4 = 0 then .ok (.kpop (fv w 12 3) (fv w 7 5)) else .error .reservedField
  | 6 => if fld w 15 2 = 0 ∧ fld w 22 4 = 0 then .ok (.kfirst (fv w 12 3) (fv w 7 5)) else .error .reservedField
  | 7 => if fld w 10 2 = 0 ∧ fld w 15 2 = 0 ∧ fld w 22 4 = 0 then .ok (.kmv (fv w 12 3) (fv w 7 3)) else .error .reservedField
  | 8 => if fld w 10 7 = 0 ∧ fld w 22 4 = 0 then .ok (.kmvFromEmask (fv w 7 3)) else .error .reservedField
  | 9 => if fld w 7 5 = 0 ∧ fld w 15 2 = 0 ∧ fld w 22 4 = 0 then .ok (.kmvToEmask (fv w 12 3)) else .error .reservedField
  | 10 => if fld w 10 2 = 0 ∧ fld w 22 4 = 0 then .ok (.kset (fv w 12 5) (fv w 7 3)) else .error .reservedField
  | _ => .error .reservedFunct

/-- Major opcode 0x0B, R94. -/
def decodeVA (w : Nat) : Except Reject Instr :=
  match fld w 26 6 with
  | 0 => .ok (.vadd (fv w 23 3) (fbit w 22) (fv w 17 5) (fv w 12 5) (fv w 7 5))
  | 1 => .ok (.vsub (fv w 23 3) (fbit w 22) (fv w 17 5) (fv w 12 5) (fv w 7 5))
  | 2 => .ok (.vrsub (fv w 23 3) (fbit w 22) (fv w 17 5) (fv w 12 5) (fv w 7 5))
  | 3 => .ok (.vmul (fv w 23 3) (fbit w 22) (fv w 17 5) (fv w 12 5) (fv w 7 5))
  | 4 => .ok (.vmulh (fv w 23 3) (fbit w 22) (fv w 17 5) (fv w 12 5) (fv w 7 5))
  | 5 => .ok (.vdiv (fv w 23 3) (fbit w 22) (fv w 17 5) (fv w 12 5) (fv w 7 5))
  | 6 => .ok (.vrem (fv w 23 3) (fbit w 22) (fv w 17 5) (fv w 12 5) (fv w 7 5))
  | 7 => .ok (.vmin (fv w 23 3) (fbit w 22) (fv w 17 5) (fv w 12 5) (fv w 7 5))
  | 8 => .ok (.vmax (fv w 23 3) (fbit w 22) (fv w 17 5) (fv w 12 5) (fv w 7 5))
  | 9 => .ok (.vand (fv w 23 3) (fbit w 22) (fv w 17 5) (fv w 12 5) (fv w 7 5))
  | 10 => .ok (.vor (fv w 23 3) (fbit w 22) (fv w 17 5) (fv w 12 5) (fv w 7 5))
  | 11 => .ok (.vxor (fv w 23 3) (fbit w 22) (fv w 17 5) (fv w 12 5) (fv w 7 5))
  | 12 => .ok (.vsll (fv w 23 3) (fbit w 22) (fv w 17 5) (fv w 12 5) (fv w 7 5))
  | 13 => .ok (.vsrl (fv w 23 3) (fbit w 22) (fv w 17 5) (fv w 12 5) (fv w 7 5))
  | 14 => .ok (.vsra (fv w 23 3) (fbit w 22) (fv w 17 5) (fv w 12 5) (fv w 7 5))
  | 15 => if fld w 10 2 = 0 then .ok (.vcmpeq (fv w 23 3) (fbit w 22) (fv w 17 5) (fv w 12 5) (fv w 7 3)) else .error .reservedField
  | 16 => if fld w 10 2 = 0 then .ok (.vcmpne (fv w 23 3) (fbit w 22) (fv w 17 5) (fv w 12 5) (fv w 7 3)) else .error .reservedField
  | 17 => if fld w 10 2 = 0 then .ok (.vcmplt (fv w 23 3) (fbit w 22) (fv w 17 5) (fv w 12 5) (fv w 7 3)) else .error .reservedField
  | 18 => if fld w 10 2 = 0 then .ok (.vcmple (fv w 23 3) (fbit w 22) (fv w 17 5) (fv w 12 5) (fv w 7 3)) else .error .reservedField
  | 19 => .ok (.vfma (fv w 23 3) (fbit w 22) (fv w 17 5) (fv w 12 5) (fv w 7 5))
  | 20 => .ok (.vfms (fv w 23 3) (fbit w 22) (fv w 17 5) (fv w 12 5) (fv w 7 5))
  | 21 => .ok (.vfnma (fv w 23 3) (fbit w 22) (fv w 17 5) (fv w 12 5) (fv w 7 5))
  | 22 => .ok (.vfnms (fv w 23 3) (fbit w 22) (fv w 17 5) (fv w 12 5) (fv w 7 5))
  | 23 => if fld w 22 1 = 0 then .ok (.vsel (fv w 23 3) (fv w 17 5) (fv w 12 5) (fv w 7 5)) else .error .reservedField
  | 24 => if fld w 22 1 = 0 then .ok (.vqblk (fv w 23 3) (fv w 17 5) (fv w 12 5) (fv w 7 5)) else .error .reservedField
  | 25 => if fld w 22 1 = 0 then .ok (.vdqblk (fv w 23 3) (fv w 17 5) (fv w 12 5) (fv w 7 5)) else .error .reservedField
  | 26 => if fld w 17 6 = 32 then .ok (.vsplat (fv w 23 3) (fv w 12 5) (fv w 7 5)) else .error .reservedField
  | 32 => .ok (.vaddVi (fv w 23 3) (fv w 17 6) (fv w 12 5) (fv w 7 5))
  | 33 => .ok (.vsubVi (fv w 23 3) (fv w 17 6) (fv w 12 5) (fv w 7 5))
  | 34 => .ok (.vrsubVi (fv w 23 3) (fv w 17 6) (fv w 12 5) (fv w 7 5))
  | 35 => .ok (.vmulVi (fv w 23 3) (fv w 17 6) (fv w 12 5) (fv w 7 5))
  | 39 => .ok (.vminVi (fv w 23 3) (fv w 17 6) (fv w 12 5) (fv w 7 5))
  | 40 => .ok (.vmaxVi (fv w 23 3) (fv w 17 6) (fv w 12 5) (fv w 7 5))
  | 41 => .ok (.vandVi (fv w 23 3) (fv w 17 6) (fv w 12 5) (fv w 7 5))
  | 42 => .ok (.vorVi (fv w 23 3) (fv w 17 6) (fv w 12 5) (fv w 7 5))
  | 43 => .ok (.vxorVi (fv w 23 3) (fv w 17 6) (fv w 12 5) (fv w 7 5))
  | 44 => .ok (.vsllVi (fv w 23 3) (fv w 17 6) (fv w 12 5) (fv w 7 5))
  | 45 => .ok (.vsrlVi (fv w 23 3) (fv w 17 6) (fv w 12 5) (fv w 7 5))
  | 46 => .ok (.vsraVi (fv w 23 3) (fv w 17 6) (fv w 12 5) (fv w 7 5))
  | 47 => if fld w 10 2 = 0 then .ok (.vcmpeqVi (fv w 23 3) (fv w 17 6) (fv w 12 5) (fv w 7 3)) else .error .reservedField
  | 48 => if fld w 10 2 = 0 then .ok (.vcmpneVi (fv w 23 3) (fv w 17 6) (fv w 12 5) (fv w 7 3)) else .error .reservedField
  | 49 => if fld w 10 2 = 0 then .ok (.vcmpltVi (fv w 23 3) (fv w 17 6) (fv w 12 5) (fv w 7 3)) else .error .reservedField
  | 50 => if fld w 10 2 = 0 then .ok (.vcmpleVi (fv w 23 3) (fv w 17 6) (fv w 12 5) (fv w 7 3)) else .error .reservedField
  | 58 => if fld w 12 5 = 0 then .ok (.vsplatVi (fv w 23 3) (fv w 17 6) (fv w 7 5)) else .error .reservedField
  | 30 => decodeMask w
  | 31 => decodeUnary w
  | _ => .error .reservedFunct

/-- Major opcode 0x2B, R97. -/
def decodeVX (w : Nat) : Except Reject Instr :=
  match fld w 26 6 with
  | 0 => if fld w 17 6 = 0 then .ok (.vld (fv w 23 3) (fv w 12 5) (fv w 7 5)) else .error .reservedField
  | 1 => if fld w 17 6 = 0 then .ok (.vst (fv w 23 3) (fv w 12 5) (fv w 7 5)) else .error .reservedField
  | 2 => if fld w 22 1 = 0 then .ok (.vlds (fv w 23 3) (fv w 17 5) (fv w 12 5) (fv w 7 5)) else .error .reservedField
  | 3 => if fld w 22 1 = 0 then .ok (.vsts (fv w 23 3) (fv w 17 5) (fv w 12 5) (fv w 7 5)) else .error .reservedField
  | 4 => if fld w 22 1 = 0 then .ok (.vldx (fv w 23 3) (fv w 17 5) (fv w 12 5) (fv w 7 5)) else .error .reservedField
  | 5 => if fld w 22 1 = 0 then .ok (.vstx (fv w 23 3) (fv w 17 5) (fv w 12 5) (fv w 7 5)) else .error .reservedField
  | 6 => if fld w 22 1 = 0 then .ok (.vgl (fv w 23 3) (fv w 17 5) (fv w 12 5) (fv w 7 5)) else .error .reservedField
  | 7 => if fld w 22 1 = 0 then (if fld w 23 3 = 0 then .error .excludedOperand else .ok (.vsc (fv w 23 3) (fv w 17 5) (fv w 12 5) (fv w 7 5))) else .error .reservedField
  | 8 => if fld w 22 1 = 0 then .ok (.vlsl (fv w 23 3) (fv w 17 5) (fv w 12 5) (fv w 7 5)) else .error .reservedField
  | 9 => if fld w 22 1 = 0 then .ok (.vssl (fv w 23 3) (fv w 17 5) (fv w 12 5) (fv w 7 5)) else .error .reservedField
  | 16 => .ok (.vamoadd (fv w 23 3) (fbit w 22) (fv w 17 5) (fv w 12 5) (fv w 7 5))
  | 17 => .ok (.vamomin (fv w 23 3) (fbit w 22) (fv w 17 5) (fv w 12 5) (fv w 7 5))
  | 18 => .ok (.vamomax (fv w 23 3) (fbit w 22) (fv w 17 5) (fv w 12 5) (fv w 7 5))
  | 19 => .ok (.vamoand (fv w 23 3) (fbit w 22) (fv w 17 5) (fv w 12 5) (fv w 7 5))
  | 20 => .ok (.vamoor (fv w 23 3) (fbit w 22) (fv w 17 5) (fv w 12 5) (fv w 7 5))
  | 21 => .ok (.vamoxor (fv w 23 3) (fbit w 22) (fv w 17 5) (fv w 12 5) (fv w 7 5))
  | 22 => .ok (.vamoswp (fv w 23 3) (fbit w 22) (fv w 17 5) (fv w 12 5) (fv w 7 5))
  | 23 => if fld w 22 1 = 1 then (if fld w 7 5 = 31 then .error .excludedOperand else .ok (.vamocas (fv w 23 3) (fv w 17 5) (fv w 12 5) (fv w 7 5))) else .error .reservedField
  | 24 => if fld w 22 1 = 0 then .ok (.vperm (fv w 23 3) (fv w 17 5) (fv w 12 5) (fv w 7 5)) else .error .reservedField
  | 25 => if fld w 22 1 = 0 then .ok (.vslup (fv w 23 3) (fv w 17 5) (fv w 12 5) (fv w 7 5)) else .error .reservedField
  | 26 => if fld w 22 1 = 0 then .ok (.vsldn (fv w 23 3) (fv w 17 5) (fv w 12 5) (fv w 7 5)) else .error .reservedField
  | 27 => if fld w 17 6 = 0 then .ok (.vcomp (fv w 23 3) (fv w 12 5) (fv w 7 5)) else .error .reservedField
  | 28 => if fld w 17 6 = 0 then .ok (.vexpd (fv w 23 3) (fv w 12 5) (fv w 7 5)) else .error .reservedField
  | 29 => if fld w 17 6 = 0 then .ok (.vscan (fv w 23 3) (fv w 12 5) (fv w 7 5)) else .error .reservedField
  | 30 => if fld w 22 1 = 0 then .ok (.vcex (fv w 23 3) (fv w 17 5) (fv w 12 5) (fv w 7 5)) else .error .reservedField
  | 31 => if fld w 22 1 = 0 then .ok (.vmrg (fv w 23 3) (fv w 17 5) (fv w 12 5) (fv w 7 5)) else .error .reservedField
  | 32 => if fld w 10 2 = 0 ∧ fld w 17 6 = 0 then .ok (.vred (fv w 23 3) (fv w 12 5) (fv w 7 3)) else .error .reservedField
  | 33 => if fld w 17 6 = 0 then .ok (.vredmx (fv w 23 3) (fv w 12 5) (fv w 7 5)) else .error .reservedField
  | 34 => if fld w 17 6 = 0 then .ok (.vredmn (fv w 23 3) (fv w 12 5) (fv w 7 5)) else .error .reservedField
  | 35 => if fld w 10 2 = 0 ∧ fld w 22 1 = 0 then .ok (.vdot (fv w 23 3) (fv w 17 5) (fv w 12 5) (fv w 7 3)) else .error .reservedField
  | 36 => if fld w 10 16 = 0 then .ok (.eaclr (fv w 7 3)) else .error .reservedField
  | 37 => if fld w 15 11 = 0 then .ok (.eard (fv w 12 3) (fv w 7 5)) else .error .reservedField
  | 38 => if fbit w 22 then (if fld w 10 2 = 0 ∧ fld w 17 5 = 0 ∧ fld w 23 3 = 0 then .ok (.eamvStore (fv w 12 5) (fv w 7 3)) else .error .reservedField) else (if fld w 10 2 = 0 ∧ fld w 17 5 = 0 ∧ fld w 23 3 = 0 then .ok (.eamvLoad (fv w 12 5) (fv w 7 3)) else .error .reservedField)
  | _ => .error .reservedFunct

/-- MT group 000, matrix products (R98). -/
def decodeTT0 (w : Nat) : Except Reject Instr :=
  match fld w 27 5 with
  | 0 => if fld w 7 5 = 0 ∧ fld w 18 1 = 0 ∧ fld w 22 1 = 0 ∧ fld w 26 1 = 0 then .ok (.mma (fv w 23 3) (fv w 19 3) (fv w 15 3)) else .error .reservedField
  | 1 => if fld w 18 1 = 0 ∧ fld w 22 1 = 0 ∧ fld w 26 1 = 0 then .ok (.mmasp (fv w 23 3) (fv w 19 3) (fv w 15 3) (fv w 7 5)) else .error .reservedField
  | 2 => if fld w 18 1 = 0 ∧ fld w 22 1 = 0 ∧ fld w 26 1 = 0 then .ok (.mmack (fv w 23 3) (fv w 19 3) (fv w 15 3) (fv w 7 5)) else .error .reservedField
  | _ => .error .reservedFunct

/-- MT group 001, tile element operations (R98). -/
def decodeTT1 (w : Nat) : Except Reject Instr :=
  match fld w 27 5 with
  | 0 => if fld w 7 5 = 0 ∧ fld w 15 8 = 0 ∧ fld w 26 1 = 0 then .ok (.tzero (fv w 23 3)) else .error .reservedField
  | 1 => if fld w 7 5 = 0 ∧ fld w 15 4 = 0 ∧ fld w 22 1 = 0 ∧ fld w 26 1 = 0 then .ok (.tmv (fv w 23 3) (fv w 19 3)) else .error .reservedField
  | 2 => if fld w 7 5 = 0 ∧ fld w 15 4 = 0 ∧ fld w 22 1 = 0 ∧ fld w 26 1 = 0 then .ok (.tcvt (fv w 23 3) (fv w 19 3)) else .error .reservedField
  | 3 => if fld w 7 5 = 0 ∧ fld w 18 1 = 0 ∧ fld w 22 1 = 0 ∧ fld w 26 1 = 0 then .ok (.tadd (fv w 23 3) (fv w 19 3) (fv w 15 3)) else .error .reservedField
  | 4 => if fld w 15 4 = 0 ∧ fld w 22 1 = 0 ∧ fld w 26 1 = 0 then .ok (.tscale (fv w 23 3) (fv w 19 3) (fv w 7 5)) else .error .reservedField
  | 5 => if fld w 15 4 = 0 ∧ fld w 22 5 = 0 then .ok (.tsum (fv w 19 3) (fv w 7 5)) else .error .reservedField
  | _ => .error .reservedFunct

/-- MT group 100, tile transfers (R98). -/
def decodeTL (w : Nat) : Except Reject Instr :=
  match fld w 24 8 with
  | 0 => if fld w 23 1 = 0 then .ok (.tld (fv w 20 3) (fv w 15 5) (fv w 7 5)) else .error .reservedField
  | 1 => if fld w 23 1 = 0 then .ok (.tst (fv w 20 3) (fv w 15 5) (fv w 7 5)) else .error .reservedField
  | 2 => if fld w 23 1 = 0 then .ok (.ttov (fv w 20 3) (fv w 15 5) (fv w 7 5)) else .error .reservedField
  | 3 => if fld w 23 1 = 0 then .ok (.vtot (fv w 20 3) (fv w 15 5) (fv w 7 5)) else .error .reservedField
  | _ => .error .reservedFunct

/-- MT group 101, shape and type operations (R98). -/
def decodeShape (w : Nat) : Except Reject Instr :=
  match fld w 25 7 with
  | 0 => (match WidthClass.ofCode (fld w 20 5) with | some x => .ok (.vshape x (fv w 15 5) (fv w 7 5)) | none => .error .reservedFunct)
  | 1 => if fld w 19 6 = 0 then .ok (.vtag (ETag.ofCode (fld w 15 4)) (fv w 7 5)) else .error .reservedField
  | 2 => if fld w 18 7 = 0 then .ok (.tgetsh (fv w 15 3) (fv w 7 5)) else .error .reservedField
  | 32 | 33 | 34 | 35 | 36 | 37 | 38 | 39 | 40 | 41 | 42 | 43 | 44 | 45 | 46 | 47 => if fld w 10 2 = 0 then (if fld w 25 4 = 0 then .error .reservedFunct else .ok (.tshape (ETag.ofCode (fld w 25 4)) (fv w 20 5) (fv w 15 5) (fv w 7 3))) else .error .reservedField
  | _ => .error .reservedFunct

/-- Major opcode 0x5B, R98. -/
def decodeMT (w : Nat) : Except Reject Instr :=
  match fld w 12 3 with
  | 0 => decodeTT0 w
  | 1 => decodeTT1 w
  | 4 => decodeTL w
  | 5 => decodeShape w
  | _ => .error .reservedFunct

/-- SY group 000 (R99). -/
def decodeSY0 (w : Nat) : Except Reject Instr :=
  match fld w 25 7 with
  | 0 => if fld w 9 3 = 0 ∧ fld w 20 5 = 0 then .ok (.chcfg (fv w 15 5) (fv w 7 2)) else .error .reservedField
  | 1 => if fld w 9 3 = 0 ∧ fld w 20 5 = 0 then .ok (.chrun (fv w 15 5) (fv w 7 2)) else .error .reservedField
  | 2 => if fld w 17 3 = 0 then .ok (.chwait (fv w 20 5) (fv w 15 2) (fv w 7 5)) else .error .reservedField
  | 3 => if fld w 9 3 = 0 ∧ fld w 15 10 = 0 then .ok (.chbrk (fv w 7 2)) else .error .reservedField
  | 4 => if fld w 9 3 = 0 ∧ fld w 15 10 = 0 then .ok (.chres (fv w 7 2)) else .error .reservedField
  | 5 => if fld w 17 3 = 0 then .ok (.chstat (fv w 20 5) (fv w 15 2) (fv w 7 5)) else .error .reservedField
  | 6 => if fld w 9 3 = 0 ∧ fld w 15 10 = 0 then .ok (.chfree (fv w 7 2)) else .error .reservedField
  | 7 => if fld w 9 3 = 0 ∧ fld w 20 5 = 0 then .ok (.chsave (fv w 15 5) (fv w 7 2)) else .error .reservedField
  | 8 => if fld w 9 3 = 0 ∧ fld w 20 5 = 0 then .ok (.chload (fv w 15 5) (fv w 7 2)) else .error .reservedField
  | _ => .error .reservedFunct

/-- SY group 001 (R99). -/
def decodeSY1 (w : Nat) : Except Reject Instr :=
  match fld w 25 7 with
  | 0 | 1 | 2 | 3 => .ok (.tlwait (fv w 25 2) (fv w 20 5) (fv w 15 5) (fv w 7 5))
  | 4 | 5 | 6 | 7 => if fld w 15 10 = 0 then .ok (.tlnow (fv w 25 2) (fv w 7 5)) else .error .reservedField
  | 8 | 9 => .ok (.wflag (fbit w 25) (fv w 20 5) (fv w 15 5) (fv w 7 5))
  | 64 | 65 | 66 | 67 | 68 | 69 | 70 => (match Scope.ofCode (fld w 25 3) with | some x => .ok (.sync x (fv w 20 5) (fv w 15 5) (fv w 7 5)) | none => .error .reservedFunct)
  | _ => .error .reservedFunct

/-- SY group 010 (R99). -/
def decodeSY2 (w : Nat) : Except Reject Instr :=
  match fld w 25 7 with
  | 0 => if fld w 20 5 = 0 then .ok (.rlnew (fv w 15 5) (fv w 7 5)) else .error .reservedField
  | 1 => if fld w 20 5 = 0 then .ok (.rljoin (fv w 15 5) (fv w 7 5)) else .error .reservedField
  | 2 => if fld w 20 5 = 0 then .ok (.rlleave (fv w 15 5) (fv w 7 5)) else .error .reservedField
  | 3 => if fld w 20 5 = 0 then .ok (.rlfree (fv w 15 5) (fv w 7 5)) else .error .reservedField
  | 4 => if fld w 20 5 = 0 then .ok (.rlarr (fv w 15 5) (fv w 7 5)) else .error .reservedField
  | 5 => .ok (.rlwait (fv w 20 5) (fv w 15 5) (fv w 7 5))
  | 6 => .ok (.rlbar (fv w 20 5) (fv w 15 5) (fv w 7 5))
  | _ => .error .reservedFunct

/-- SY group 011 (R99). -/
def decodeSY3 (w : Nat) : Except Reject Instr :=
  match fld w 25 7 with
  | 0 | 1 | 2 | 3 => .ok (.ecopy (fv w 25 2) (fv w 20 5) (fv w 15 5) (fv w 7 5))
  | 4 | 5 | 6 | 7 => .ok (.egth (fv w 25 2) (fv w 20 5) (fv w 15 5) (fv w 7 5))
  | 8 | 9 | 10 | 11 => .ok (.esct (fv w 25 2) (fv w 20 5) (fv w 15 5) (fv w 7 5))
  | 12 | 13 | 14 | 15 => .ok (.efill (fv w 25 2) (fv w 20 5) (fv w 15 5) (fv w 7 5))
  | 16 | 17 | 18 | 19 => .ok (.ecvt (fv w 25 2) (fv w 20 5) (fv w 15 5) (fv w 7 5))
  | 20 | 21 | 22 | 23 => .ok (.ecan (fv w 25 2) (fv w 20 5) (fv w 15 5) (fv w 7 5))
  | _ => .error .reservedFunct

/-- SY group 100 (R99). -/
def decodeSY4 (w : Nat) : Except Reject Instr :=
  match fld w 25 7 with
  | 0 | 1 => .ok (.icinv (fbit w 25) (fv w 20 5) (fv w 15 5) (fv w 7 5))
  | 2 | 3 => .ok (.tlbinv (fbit w 25) (fv w 20 5) (fv w 15 5) (fv w 7 5))
  | 16 => if fld w 7 5 = 0 ∧ fld w 15 10 = 0 then .ok (.claim) else .error .reservedField
  | _ => .error .reservedFunct

/-- SY group 101 (R99). -/
def decodeSY5 (w : Nat) : Except Reject Instr :=
  match fld w 25 7 with
  | 0 | 1 | 2 | 3 => .ok (.fput (fv w 25 2) (fv w 20 5) (fv w 15 5) (fv w 7 5))
  | 4 | 5 | 6 | 7 => .ok (.fget (fv w 25 2) (fv w 20 5) (fv w 15 5) (fv w 7 5))
  | 8 | 9 | 10 | 11 => .ok (.fcoll (fv w 25 2) (fv w 20 5) (fv w 15 5) (fv w 7 5))
  | 12 => .ok (.dlaunch (fv w 20 5) (fv w 15 5) (fv w 7 5))
  | _ => .error .reservedFunct

/-- SY group 110 (R99). -/
def decodeSY6 (w : Nat) : Except Reject Instr :=
  match fld w 25 7 with
  | 0 | 1 | 2 | 3 | 4 | 5 | 6 => if fld w 20 5 = 0 then (match Scope.ofCode (fld w 25 3) with | some x => .ok (.ldaq x (fv w 15 5) (fv w 7 5)) | none => .error .reservedFunct) else .error .reservedField
  | 8 | 9 | 10 | 11 | 12 | 13 | 14 => if fld w 7 5 = 0 then (match Scope.ofCode (fld w 25 3) with | some x => .ok (.strl x (fv w 20 5) (fv w 15 5)) | none => .error .reservedFunct) else .error .reservedField
  | _ => .error .reservedFunct

/-- SY group 111 (R99). -/
def decodeSY7 (w : Nat) : Except Reject Instr :=
  match fld w 25 7 with
  | 0 | 1 | 2 | 3 | 4 | 5 | 6 | 7 => .ok (.vqpush (fv w 25 3) (fv w 20 5) (fv w 15 5) (fv w 7 5))
  | 8 | 9 | 10 | 11 | 12 | 13 | 14 | 15 => .ok (.vqpop (fv w 25 3) (fv w 20 5) (fv w 15 5) (fv w 7 5))
  | 16 | 17 | 18 | 19 | 20 | 21 | 22 | 23 => if fld w 15 10 = 0 then .ok (.vqcnt (fv w 25 3) (fv w 7 5)) else .error .reservedField
  | 32 | 33 | 34 | 35 | 36 | 37 | 38 | 39 | 40 | 41 | 42 | 43 | 44 | 45 | 46 | 47 => (if fld w 20 5 = 31 then .error .excludedOperand else .ok (.vwait (fbit w 28) (fv w 25 3) (fv w 20 5) (fv w 15 5) (fv w 7 5)))
  | _ => .error .reservedFunct

/-- Major opcode 0x7B, R99. -/
def decodeSY (w : Nat) : Except Reject Instr :=
  match fld w 12 3 with
  | 0 => decodeSY0 w
  | 1 => decodeSY1 w
  | 2 => decodeSY2 w
  | 3 => decodeSY3 w
  | 4 => decodeSY4 w
  | 5 => decodeSY5 w
  | 6 => decodeSY6 w
  | _ => decodeSY7 w

/-- Standard loads (RV64I). -/
def decodeLoad (w : Nat) : Except Reject Instr :=
  let mk (op : LoadOp) : Except Reject Instr := .ok (.scalarLoad op (fv w 20 12) (fv w 15 5) (fv w 7 5))
  match fld w 12 3 with
  | 0 => mk .lb | 1 => mk .lh | 2 => mk .lw | 3 => mk .ld | 4 => mk .lbu | 5 => mk .lhu | 6 => mk .lwu
  | _ => .error .unassigned

/-- Standard stores (RV64I). -/
def decodeStore (w : Nat) : Except Reject Instr :=
  let mk (op : StoreOp) : Except Reject Instr :=
    .ok (.scalarStore op (BitVec.ofNat 12 (fld w 25 7 * 32 + fld w 7 5)) (fv w 20 5) (fv w 15 5))
  match fld w 12 3 with
  | 0 => mk .sb | 1 => mk .sh | 2 => mk .sw | 3 => mk .sd
  | _ => .error .unassigned

/-- FENCE and FENCE.I (RV64I, Zifencei). -/
def decodeMiscMem (w : Nat) : Except Reject Instr :=
  match fld w 12 3 with
  | 0 => .ok (.fence (fv w 28 4) (fv w 24 4) (fv w 20 4) (fv w 15 5) (fv w 7 5))
  | 1 => .ok (.fenceI (fv w 20 12) (fv w 15 5) (fv w 7 5))
  | _ => .error .unassigned

/-- One scalar operation as an instruction. -/
def scalar (op : ScalarOp) : Except Reject Instr := .ok (.scalarInstruction op)

/-- Unary and shift-left forms of OP-IMM, funct3 1 (RV64I, Zbb). -/
def decodeImmLeft (w : Nat) : Except Reject Instr :=
  let rd : BitVec 5 := fv w 7 5
  let rs1 : BitVec 5 := fv w 15 5
  if fld w 26 6 = 0 then scalar (.shiftImm .slli rd rs1 (fv w 20 6))
  else match fld w 20 12 with
  | 0x600 => scalar (.unary .clz rd rs1) | 0x601 => scalar (.unary .ctz rd rs1)
  | 0x602 => scalar (.unary .cpop rd rs1) | 0x604 => scalar (.unary .sextB rd rs1)
  | 0x605 => scalar (.unary .sextH rd rs1)
  | _ => .error .unassigned

/-- Unary and shift-right forms of OP-IMM, funct3 5 (RV64I, Zbb). -/
def decodeImmRight (w : Nat) : Except Reject Instr :=
  let rd : BitVec 5 := fv w 7 5
  let rs1 : BitVec 5 := fv w 15 5
  match fld w 26 6 with
  | 0x00 => scalar (.shiftImm .srli rd rs1 (fv w 20 6))
  | 0x10 => scalar (.shiftImm .srai rd rs1 (fv w 20 6))
  | 0x18 => scalar (.shiftImm .rori rd rs1 (fv w 20 6))
  | _ => match fld w 20 12 with
    | 0x287 => scalar (.unary .orcB rd rs1) | 0x6B8 => scalar (.unary .rev8 rd rs1)
    | _ => .error .unassigned

/-- OP-IMM (RV64I, Zbb). -/
def decodeOpImm (w : Nat) : Except Reject Instr :=
  let mk (op : ImmOp) : Except Reject Instr := scalar (.opImm op (fv w 7 5) (fv w 15 5) (fv w 20 12))
  match fld w 12 3 with
  | 0 => mk .addi | 2 => mk .slti | 3 => mk .sltiu | 4 => mk .xori | 6 => mk .ori | 7 => mk .andi
  | 1 => decodeImmLeft w
  | _ => decodeImmRight w

/-- OP-IMM-32 (RV64I, Zba, Zbb). -/
def decodeOpImmW (w : Nat) : Except Reject Instr :=
  let rd : BitVec 5 := fv w 7 5
  let rs1 : BitVec 5 := fv w 15 5
  match fld w 12 3 with
  | 0 => scalar (.addiw rd rs1 (fv w 20 12))
  | 1 =>
    if fld w 25 7 = 0 then scalar (.shiftImmW .slliw rd rs1 (fv w 20 5))
    else if fld w 26 6 = 2 then scalar (.shiftImm .slliUw rd rs1 (fv w 20 6))
    else match fld w 20 12 with
    | 0x600 => scalar (.unary .clzw rd rs1) | 0x601 => scalar (.unary .ctzw rd rs1)
    | 0x602 => scalar (.unary .cpopw rd rs1)
    | _ => .error .unassigned
  | 5 => match fld w 25 7 with
    | 0x00 => scalar (.shiftImmW .srliw rd rs1 (fv w 20 5))
    | 0x20 => scalar (.shiftImmW .sraiw rd rs1 (fv w 20 5))
    | 0x30 => scalar (.shiftImmW .roriw rd rs1 (fv w 20 5))
    | _ => .error .unassigned
  | _ => .error .unassigned

/-- The operation of OP by funct7 and funct3 (RV64I, M, Zba, Zbb). -/
def aluOf (f7 f3 : Nat) : Option AluOp :=
  match f7 with
  | 0x00 => match f3 with
    | 0 => some .add | 1 => some .sll | 2 => some .slt | 3 => some .sltu | 4 => some .xor | 5 => some .srl
    | 6 => some .or | _ => some .and
  | 0x01 => match f3 with
    | 0 => some .mul | 1 => some .mulh | 2 => some .mulhsu | 3 => some .mulhu | 4 => some .div | 5 => some .divu
    | 6 => some .rem | _ => some .remu
  | 0x05 => match f3 with
    | 4 => some .min | 5 => some .minu | 6 => some .max | 7 => some .maxu | _ => none
  | 0x10 => match f3 with
    | 2 => some .sh1add | 4 => some .sh2add | 6 => some .sh3add | _ => none
  | 0x20 => match f3 with
    | 0 => some .sub | 4 => some .xnor | 5 => some .sra | 6 => some .orn | 7 => some .andn | _ => none
  | 0x30 => match f3 with
    | 1 => some .rol | 5 => some .ror | _ => none
  | _ => none

/-- OP. -/
def decodeOp (w : Nat) : Except Reject Instr :=
  match aluOf (fld w 25 7) (fld w 12 3) with
  | some op => scalar (.alu op (fv w 7 5) (fv w 15 5) (fv w 20 5))
  | none => .error .unassigned

/-- The operation of OP-32 by funct7 and funct3. -/
def aluWOf (f7 f3 : Nat) : Option AluWOp :=
  match f7 with
  | 0x00 => match f3 with
    | 0 => some .addw | 1 => some .sllw | 5 => some .srlw | _ => none
  | 0x01 => match f3 with
    | 0 => some .mulw | 4 => some .divw | 5 => some .divuw | 6 => some .remw | 7 => some .remuw | _ => none
  | 0x20 => match f3 with
    | 0 => some .subw | 5 => some .sraw | _ => none
  | 0x30 => match f3 with
    | 1 => some .rolw | 5 => some .rorw | _ => none
  | _ => none

/-- The Zba operations of OP-32, whose results have 64 bits. -/
def aluUwOf (f7 f3 : Nat) : Option AluOp :=
  match f7 with
  | 0x04 => match f3 with
    | 0 => some .addUw | _ => none
  | 0x10 => match f3 with
    | 2 => some .sh1addUw | 4 => some .sh2addUw | 6 => some .sh3addUw | _ => none
  | _ => none

/-- OP-32 (RV64I, M, Zba, Zbb). -/
def decodeOpW (w : Nat) : Except Reject Instr :=
  match aluWOf (fld w 25 7) (fld w 12 3) with
  | some op => scalar (.aluW op (fv w 7 5) (fv w 15 5) (fv w 20 5))
  | none => match aluUwOf (fld w 25 7) (fld w 12 3) with
    | some op => scalar (.alu op (fv w 7 5) (fv w 15 5) (fv w 20 5))
    | none =>
      if fld w 25 7 = 4 ∧ fld w 12 3 = 4 ∧ fld w 20 5 = 0 then scalar (.unary .zextH (fv w 7 5) (fv w 15 5))
      else .error .unassigned

/-- BRANCH. -/
def decodeBranch (w : Nat) : Except Reject Instr :=
  let off := fld w 31 1 * 2048 + fld w 7 1 * 1024 + fld w 25 6 * 16 + fld w 8 4
  let mk (op : BranchOp) : Except Reject Instr := scalar (.branch op (fv w 15 5) (fv w 20 5) (BitVec.ofNat 12 off))
  match fld w 12 3 with
  | 0 => mk .beq | 1 => mk .bne | 4 => mk .blt | 5 => mk .bge | 6 => mk .bltu | 7 => mk .bgeu
  | _ => .error .unassigned

/-- JAL's offset divided by 2. -/
def jalOff (w : Nat) : BitVec 20 :=
  BitVec.ofNat 20 (fld w 31 1 * 524288 + fld w 12 8 * 2048 + fld w 20 1 * 1024 + fld w 21 10)

/-- AMO (A extension), LR and SC. -/
def decodeAmo (w : Nat) : Except Reject Instr :=
  let mk (dbl : Bool) : Except Reject Instr :=
    let a (op : AmoOp) : Except Reject Instr :=
      .ok (.amo op dbl (fbit w 26) (fbit w 25) (fv w 20 5) (fv w 15 5) (fv w 7 5))
    match fld w 27 5 with
    | 0x02 => if fld w 20 5 = 0 then .ok (.lr dbl (fbit w 26) (fbit w 25) (fv w 15 5) (fv w 7 5)) else .error .unassigned
    | 0x03 => .ok (.sc dbl (fbit w 26) (fbit w 25) (fv w 20 5) (fv w 15 5) (fv w 7 5))
    | 0x00 => a .add | 0x01 => a .swap | 0x04 => a .xor | 0x08 => a .or | 0x0C => a .and
    | 0x10 => a .min | 0x14 => a .max | 0x18 => a .minu | 0x1C => a .maxu
    | _ => .error .unassigned
  match fld w 12 3 with
  | 2 => mk false | 3 => mk true
  | _ => .error .unassigned

/-- A CSR instruction. One that writes a CSR with a row of its own is that row; any other write is REGISTER_WRITE;
an access that writes nothing (R81) is a scalar instruction. -/
def csrInstr (csr : BitVec 12) (op : CsrOp) (src : CsrSrc) (rd : BitVec 5) : Instr :=
  if op ≠ .rw ∧ src.field = 0 then
    .scalarInstruction (.csrRead csr op (match src with | .imm _ => true | .reg _ => false) rd)
  else match csr.toNat with
  | 0x800 => .vstaWrite op src rd
  | 0x801 => .emaskWrite op src rd
  | 0x802 => .eclsWrite op src rd
  | 0x805 => .finjWrite op src rd
  | 0x5C0 => .wceilWrite op src rd
  | 0x5C4 => .wptWrite 0 op src rd
  | 0x5C5 => .wptWrite 1 op src rd
  | 0x5C6 => .wptWrite 2 op src rd
  | 0x5C7 => .wptWrite 3 op src rd
  | _ => .registerWrite (.csr csr op src rd)

/-- SYSTEM (RV64I, Zicsr, supervisor). MRET is not implemented (R78). -/
def decodeSystem (w : Nat) : Except Reject Instr :=
  let c (op : CsrOp) (src : CsrSrc) : Except Reject Instr := .ok (csrInstr (fv w 20 12) op src (fv w 7 5))
  match fld w 12 3 with
  | 0 => match w / 128 with
    | 0x0 => .ok .ecall
    | 0x2000 => .ok .ebreak
    | 0x20A000 => .ok .wfi
    | 0x204000 => .ok .sret
    | _ => if fld w 25 7 = 9 ∧ fld w 7 5 = 0 then .ok (.sfenceVma (fv w 20 5) (fv w 15 5)) else .error .unassigned
  | 1 => c .rw (.reg (fv w 15 5)) | 2 => c .rs (.reg (fv w 15 5)) | 3 => c .rc (.reg (fv w 15 5))
  | 5 => c .rw (.imm (fv w 15 5)) | 6 => c .rs (.imm (fv w 15 5)) | 7 => c .rc (.imm (fv w 15 5))
  | _ => .error .unassigned

/-- A 32-bit instruction word, by its major opcode. -/
def decode32 (w : Nat) : Except Reject Instr :=
  match fld w 0 7 with
  | 0x0B => decodeVA w
  | 0x2B => decodeVX w
  | 0x5B => decodeMT w
  | 0x7B => decodeSY w
  | 0x03 => decodeLoad w
  | 0x23 => decodeStore w
  | 0x0F => decodeMiscMem w
  | 0x13 => decodeOpImm w
  | 0x1B => decodeOpImmW w
  | 0x33 => decodeOp w
  | 0x3B => decodeOpW w
  | 0x37 => scalar (.lui (fv w 7 5) (fv w 12 20))
  | 0x17 => scalar (.auipc (fv w 7 5) (fv w 12 20))
  | 0x6F => scalar (.jal (fv w 7 5) (jalOff w))
  | 0x67 => if fld w 12 3 = 0 then scalar (.jalr (fv w 7 5) (fv w 15 5) (fv w 20 12)) else .error .unassigned
  | 0x63 => decodeBranch w
  | 0x2F => decodeAmo w
  | 0x73 => decodeSystem w
  | _ => .error .unassigned

/-- The eight registers that a 3-bit compressed field names, x8 to x15. -/
def cReg (w lo : Nat) : BitVec 5 := BitVec.ofNat 5 (8 + fld w lo 3)

/-- The 6-bit immediate of the CI format. -/
def cImm6 (w : Nat) : Nat := fld w 12 1 * 32 + fld w 2 5

/-- A signed n-bit value as a 12-bit immediate. -/
def sext12 (n v : Nat) : BitVec 12 := (BitVec.ofNat n v).signExtend 12

/-- Compressed quadrant 0 (C extension without F and D). -/
def decodeC0 (w : Nat) : Except Reject Instr :=
  let lw := fld w 10 3 * 8 + fld w 6 1 * 4 + fld w 5 1 * 64
  let ld := fld w 10 3 * 8 + fld w 5 2 * 64
  match fld w 13 3 with
  | 0 =>
    let imm := fld w 11 2 * 16 + fld w 7 4 * 64 + fld w 6 1 * 4 + fld w 5 1 * 8
    if imm = 0 then .error .unassigned else scalar (.opImm .addi (cReg w 2) 2 (BitVec.ofNat 12 imm))
  | 2 => .ok (.scalarLoad .lw (BitVec.ofNat 12 lw) (cReg w 7) (cReg w 2))
  | 3 => .ok (.scalarLoad .ld (BitVec.ofNat 12 ld) (cReg w 7) (cReg w 2))
  | 6 => .ok (.scalarStore .sw (BitVec.ofNat 12 lw) (cReg w 2) (cReg w 7))
  | 7 => .ok (.scalarStore .sd (BitVec.ofNat 12 ld) (cReg w 2) (cReg w 7))
  | _ => .error .unassigned

/-- The arithmetic group of compressed quadrant 1. -/
def decodeC1Arith (w : Nat) : Except Reject Instr :=
  let rd := cReg w 7
  match fld w 10 2 with
  | 0 => scalar (.shiftImm .srli rd rd (BitVec.ofNat 6 (cImm6 w)))
  | 1 => scalar (.shiftImm .srai rd rd (BitVec.ofNat 6 (cImm6 w)))
  | 2 => scalar (.opImm .andi rd rd (sext12 6 (cImm6 w)))
  | _ => match fld w 12 1 * 4 + fld w 5 2 with
    | 0 => scalar (.alu .sub rd rd (cReg w 2))
    | 1 => scalar (.alu .xor rd rd (cReg w 2))
    | 2 => scalar (.alu .or rd rd (cReg w 2))
    | 3 => scalar (.alu .and rd rd (cReg w 2))
    | 4 => scalar (.aluW .subw rd rd (cReg w 2))
    | 5 => scalar (.aluW .addw rd rd (cReg w 2))
    | _ => .error .unassigned

/-- Compressed quadrant 1. -/
def decodeC1 (w : Nat) : Except Reject Instr :=
  let rd : BitVec 5 := fv w 7 5
  match fld w 13 3 with
  | 0 => scalar (.opImm .addi rd rd (sext12 6 (cImm6 w)))
  | 1 => if rd = 0 then .error .unassigned else scalar (.addiw rd rd (sext12 6 (cImm6 w)))
  | 2 => scalar (.opImm .addi rd 0 (sext12 6 (cImm6 w)))
  | 3 =>
    if cImm6 w = 0 then .error .unassigned
    else if rd = 2 then
      scalar (.opImm .addi 2 2 (sext12 10 (fld w 12 1 * 512 + fld w 6 1 * 16 + fld w 5 1 * 64 + fld w 3 2 * 128 + fld w 2 1 * 32)))
    else scalar (.lui rd ((BitVec.ofNat 6 (cImm6 w)).signExtend 20))
  | 4 => decodeC1Arith w
  | 5 =>
    let off := fld w 12 1 * 1024 + fld w 8 1 * 512 + fld w 9 2 * 128 + fld w 6 1 * 64 + fld w 7 1 * 32
      + fld w 2 1 * 16 + fld w 11 1 * 8 + fld w 3 3
    scalar (.jal 0 ((BitVec.ofNat 11 off).signExtend 20))
  | k =>
    let off := fld w 12 1 * 128 + fld w 5 2 * 32 + fld w 2 1 * 16 + fld w 10 2 * 4 + fld w 3 2
    scalar (.branch (if k = 6 then .beq else .bne) (cReg w 7) 0 ((BitVec.ofNat 8 off).signExtend 12))

/-- Compressed quadrant 2. -/
def decodeC2 (w : Nat) : Except Reject Instr :=
  let rd : BitVec 5 := fv w 7 5
  let rs2 : BitVec 5 := fv w 2 5
  match fld w 13 3 with
  | 0 => scalar (.shiftImm .slli rd rd (BitVec.ofNat 6 (cImm6 w)))
  | 2 =>
    if rd = 0 then .error .unassigned
    else .ok (.scalarLoad .lw (BitVec.ofNat 12 (fld w 12 1 * 32 + fld w 4 3 * 4 + fld w 2 2 * 64)) 2 rd)
  | 3 =>
    if rd = 0 then .error .unassigned
    else .ok (.scalarLoad .ld (BitVec.ofNat 12 (fld w 12 1 * 32 + fld w 5 2 * 8 + fld w 2 3 * 64)) 2 rd)
  | 4 =>
    if fld w 12 1 = 0 then
      if rs2 = 0 then (if rd = 0 then .error .unassigned else scalar (.jalr 0 rd 0))
      else scalar (.alu .add rd 0 rs2)
    else if rs2 = 0 then (if rd = 0 then .ok .ebreak else scalar (.jalr 1 rd 0))
    else scalar (.alu .add rd rd rs2)
  | 6 => .ok (.scalarStore .sw (BitVec.ofNat 12 (fld w 9 4 * 4 + fld w 7 2 * 64)) rs2 2)
  | 7 => .ok (.scalarStore .sd (BitVec.ofNat 12 (fld w 10 3 * 8 + fld w 7 3 * 64)) rs2 2)
  | _ => .error .unassigned

/-- A compressed instruction of 16 bits (R90), as the standard instruction it stands for. -/
def decode16 (w : Nat) : Except Reject Instr :=
  match fld w 0 2 with
  | 0 => decodeC0 w
  | 1 => decodeC1 w
  | _ => decodeC2 w

/-- Whether a first halfword begins a 32-bit instruction (R90). -/
def isLong (h : Nat) : Bool := h % 4 == 3

/-- Decoding of bytes in ascending address order (R17, R90): an instruction and the bytes after it. -/
def decode : List Byte → Except Reject (Instr × List Byte)
  | b0 :: b1 :: rest =>
    let h := b0.toNat + 256 * b1.toNat
    if isLong h then
      match rest with
      | b2 :: b3 :: more =>
        match decode32 (h + 65536 * b2.toNat + 16777216 * b3.toNat) with
        | .ok i => .ok (i, more)
        | .error r => .error r
      | _ => .error .tooShort
    else match decode16 h with
      | .ok i => .ok (i, rest)
      | .error r => .error r
  | _ => .error .tooShort

/-- The bytes of a number, least significant first (R17). -/
def leBytes : Nat → Nat → List Byte
  | 0, _ => []
  | n + 1, w => BitVec.ofNat 8 w :: leBytes n (w / 256)

/-- The instruction that the decoder reads from a word of the opcode table's numbering; the bits above nbits are 0. -/
def decodeTableWord (nbits w : Nat) : Option Instr :=
  match decode (leBytes 4 (w % 2 ^ nbits)) with
  | .ok (i, _) => some i
  | .error _ => none

/-! The encoder. -/

/-- Halves of a number that encodings split. -/
def hi (v k : Nat) : Nat := v / 2 ^ k

/-- R format of the standard encodings. -/
def encR (op f3 f7 : Nat) (rd rs1 rs2 : BitVec 5) : Nat :=
  op + rd.toNat * 128 + f3 * 4096 + rs1.toNat * 32768 + rs2.toNat * 1048576 + f7 * 33554432

/-- I format of the standard encodings. -/
def encI (op f3 : Nat) (rd rs1 : BitVec 5) (imm : BitVec 12) : Nat :=
  op + rd.toNat * 128 + f3 * 4096 + rs1.toNat * 32768 + imm.toNat * 1048576

/-- funct7 and funct3 of a 64-bit register operation in OP (first) or OP-32 (second). -/
def AluOp.funct : AluOp → Nat × Nat × Nat
  | .add => (0x33, 0, 0) | .sll => (0x33, 0, 1) | .slt => (0x33, 0, 2) | .sltu => (0x33, 0, 3)
  | .xor => (0x33, 0, 4) | .srl => (0x33, 0, 5) | .or => (0x33, 0, 6) | .and => (0x33, 0, 7)
  | .mul => (0x33, 1, 0) | .mulh => (0x33, 1, 1) | .mulhsu => (0x33, 1, 2) | .mulhu => (0x33, 1, 3)
  | .div => (0x33, 1, 4) | .divu => (0x33, 1, 5) | .rem => (0x33, 1, 6) | .remu => (0x33, 1, 7)
  | .min => (0x33, 5, 4) | .minu => (0x33, 5, 5) | .max => (0x33, 5, 6) | .maxu => (0x33, 5, 7)
  | .sh1add => (0x33, 16, 2) | .sh2add => (0x33, 16, 4) | .sh3add => (0x33, 16, 6)
  | .sub => (0x33, 32, 0) | .xnor => (0x33, 32, 4) | .sra => (0x33, 32, 5) | .orn => (0x33, 32, 6)
  | .andn => (0x33, 32, 7) | .rol => (0x33, 48, 1) | .ror => (0x33, 48, 5)
  | .addUw => (0x3B, 4, 0) | .sh1addUw => (0x3B, 16, 2) | .sh2addUw => (0x3B, 16, 4) | .sh3addUw => (0x3B, 16, 6)

/-- funct7 and funct3 of a 32-bit register operation. -/
def AluWOp.funct : AluWOp → Nat × Nat
  | .addw => (0, 0) | .sllw => (0, 1) | .srlw => (0, 5) | .subw => (32, 0) | .sraw => (32, 5)
  | .mulw => (1, 0) | .divw => (1, 4) | .divuw => (1, 5) | .remw => (1, 6) | .remuw => (1, 7)
  | .rolw => (48, 1) | .rorw => (48, 5)

/-- Opcode, funct3 and the fixed 12-bit immediate of a unary operation. -/
def UnaryOp.funct : UnaryOp → Nat × Nat × Nat
  | .clz => (0x13, 1, 0x600) | .ctz => (0x13, 1, 0x601) | .cpop => (0x13, 1, 0x602)
  | .sextB => (0x13, 1, 0x604) | .sextH => (0x13, 1, 0x605)
  | .clzw => (0x1B, 1, 0x600) | .ctzw => (0x1B, 1, 0x601) | .cpopw => (0x1B, 1, 0x602)
  | .zextH => (0x3B, 4, 0x080) | .orcB => (0x13, 5, 0x287) | .rev8 => (0x13, 5, 0x6B8)

/-- funct3 of an immediate operation. -/
def ImmOp.funct : ImmOp → Nat
  | .addi => 0 | .slti => 2 | .sltiu => 3 | .xori => 4 | .ori => 6 | .andi => 7

/-- Opcode, funct3 and funct6 of a 64-bit immediate shift. -/
def ShiftOp.funct : ShiftOp → Nat × Nat × Nat
  | .slli => (0x13, 1, 0) | .srli => (0x13, 5, 0) | .srai => (0x13, 5, 16) | .rori => (0x13, 5, 24)
  | .slliUw => (0x1B, 1, 2)

/-- funct3 and funct7 of a 32-bit immediate shift. -/
def ShiftWOp.funct : ShiftWOp → Nat × Nat
  | .slliw => (1, 0) | .srliw => (5, 0) | .sraiw => (5, 32) | .roriw => (5, 48)

/-- funct3 of a branch. -/
def BranchOp.funct : BranchOp → Nat
  | .beq => 0 | .bne => 1 | .blt => 4 | .bge => 5 | .bltu => 6 | .bgeu => 7

/-- funct3 of a load. -/
def LoadOp.funct : LoadOp → Nat
  | .lb => 0 | .lh => 1 | .lw => 2 | .ld => 3 | .lbu => 4 | .lhu => 5 | .lwu => 6

/-- funct3 of a store. -/
def StoreOp.funct : StoreOp → Nat
  | .sb => 0 | .sh => 1 | .sw => 2 | .sd => 3

/-- funct5 of an AMO. -/
def AmoOp.funct : AmoOp → Nat
  | .add => 0 | .swap => 1 | .xor => 4 | .or => 8 | .and => 12 | .min => 16 | .max => 20 | .minu => 24 | .maxu => 28

/-- funct3 of a CSR operation with a register or an immediate source. -/
def csrFunct (op : CsrOp) (imm : Bool) : Nat :=
  (match op with | .rw => 1 | .rs => 2 | .rc => 3) + (if imm then 4 else 0)

/-- A CSR instruction word. -/
def encCsr (csr : Nat) (op : CsrOp) (src : CsrSrc) (rd : BitVec 5) : Nat :=
  match src with
  | .reg r => 0x73 + rd.toNat * 128 + csrFunct op false * 4096 + r.toNat * 32768 + csr * 1048576
  | .imm u => 0x73 + rd.toNat * 128 + csrFunct op true * 4096 + u.toNat * 32768 + csr * 1048576

/-- The word of a scalar operation. -/
def encScalar : ScalarOp → Nat
  | .lui rd imm => 0x37 + rd.toNat * 128 + imm.toNat * 4096
  | .auipc rd imm => 0x17 + rd.toNat * 128 + imm.toNat * 4096
  | .jal rd off => 0x6F + rd.toNat * 128 + (off.toNat / 2048 % 256) * 4096 + (off.toNat / 1024 % 2) * 1048576
      + (off.toNat % 1024) * 2097152 + (off.toNat / 524288) * 2147483648
  | .jalr rd rs1 imm => encI 0x67 0 rd rs1 imm
  | .branch op rs1 rs2 off => 0x63 + (off.toNat / 1024 % 2) * 128 + (off.toNat % 16) * 256 + op.funct * 4096
      + rs1.toNat * 32768 + rs2.toNat * 1048576 + (off.toNat / 16 % 64) * 33554432 + (off.toNat / 2048) * 2147483648
  | .opImm op rd rs1 imm => encI 0x13 op.funct rd rs1 imm
  | .shiftImm op rd rs1 sh => op.funct.1 + rd.toNat * 128 + op.funct.2.1 * 4096 + rs1.toNat * 32768
      + sh.toNat * 1048576 + op.funct.2.2 * 67108864
  | .addiw rd rs1 imm => encI 0x1B 0 rd rs1 imm
  | .shiftImmW op rd rs1 sh => encR 0x1B op.funct.1 op.funct.2 rd rs1 sh
  | .alu op rd rs1 rs2 => encR op.funct.1 op.funct.2.2 op.funct.2.1 rd rs1 rs2
  | .aluW op rd rs1 rs2 => encR 0x3B op.funct.2 op.funct.1 rd rs1 rs2
  | .unary op rd rs1 => op.funct.1 + rd.toNat * 128 + op.funct.2.1 * 4096 + rs1.toNat * 32768 + op.funct.2.2 * 1048576
  | .csrRead csr op imm rd => 0x73 + rd.toNat * 128 + csrFunct op imm * 4096 + csr.toNat * 1048576

/-- The 32-bit word of an instruction: none for the rows that are steps of an agent and have no word. -/
def encodeWord : Instr → Option Nat
  | .vadd km s vs2 vs1 vd => some (11 + km.toNat * 8388608 + s.toNat * 4194304 + vs2.toNat * 131072 + vs1.toNat * 4096 + vd.toNat * 128)
  | .vsub km s vs2 vs1 vd => some (67108875 + km.toNat * 8388608 + s.toNat * 4194304 + vs2.toNat * 131072 + vs1.toNat * 4096 + vd.toNat * 128)
  | .vrsub km s vs2 vs1 vd => some (134217739 + km.toNat * 8388608 + s.toNat * 4194304 + vs2.toNat * 131072 + vs1.toNat * 4096 + vd.toNat * 128)
  | .vmul km s vs2 vs1 vd => some (201326603 + km.toNat * 8388608 + s.toNat * 4194304 + vs2.toNat * 131072 + vs1.toNat * 4096 + vd.toNat * 128)
  | .vmulh km s vs2 vs1 vd => some (268435467 + km.toNat * 8388608 + s.toNat * 4194304 + vs2.toNat * 131072 + vs1.toNat * 4096 + vd.toNat * 128)
  | .vdiv km s vs2 vs1 vd => some (335544331 + km.toNat * 8388608 + s.toNat * 4194304 + vs2.toNat * 131072 + vs1.toNat * 4096 + vd.toNat * 128)
  | .vrem km s vs2 vs1 vd => some (402653195 + km.toNat * 8388608 + s.toNat * 4194304 + vs2.toNat * 131072 + vs1.toNat * 4096 + vd.toNat * 128)
  | .vmin km s vs2 vs1 vd => some (469762059 + km.toNat * 8388608 + s.toNat * 4194304 + vs2.toNat * 131072 + vs1.toNat * 4096 + vd.toNat * 128)
  | .vmax km s vs2 vs1 vd => some (536870923 + km.toNat * 8388608 + s.toNat * 4194304 + vs2.toNat * 131072 + vs1.toNat * 4096 + vd.toNat * 128)
  | .vand km s vs2 vs1 vd => some (603979787 + km.toNat * 8388608 + s.toNat * 4194304 + vs2.toNat * 131072 + vs1.toNat * 4096 + vd.toNat * 128)
  | .vor km s vs2 vs1 vd => some (671088651 + km.toNat * 8388608 + s.toNat * 4194304 + vs2.toNat * 131072 + vs1.toNat * 4096 + vd.toNat * 128)
  | .vxor km s vs2 vs1 vd => some (738197515 + km.toNat * 8388608 + s.toNat * 4194304 + vs2.toNat * 131072 + vs1.toNat * 4096 + vd.toNat * 128)
  | .vsll km s vs2 vs1 vd => some (805306379 + km.toNat * 8388608 + s.toNat * 4194304 + vs2.toNat * 131072 + vs1.toNat * 4096 + vd.toNat * 128)
  | .vsrl km s vs2 vs1 vd => some (872415243 + km.toNat * 8388608 + s.toNat * 4194304 + vs2.toNat * 131072 + vs1.toNat * 4096 + vd.toNat * 128)
  | .vsra km s vs2 vs1 vd => some (939524107 + km.toNat * 8388608 + s.toNat * 4194304 + vs2.toNat * 131072 + vs1.toNat * 4096 + vd.toNat * 128)
  | .vcmpeq km s vs2 vs1 kd => some (1006632971 + km.toNat * 8388608 + s.toNat * 4194304 + vs2.toNat * 131072 + vs1.toNat * 4096 + kd.toNat * 128)
  | .vcmpne km s vs2 vs1 kd => some (1073741835 + km.toNat * 8388608 + s.toNat * 4194304 + vs2.toNat * 131072 + vs1.toNat * 4096 + kd.toNat * 128)
  | .vcmplt km s vs2 vs1 kd => some (1140850699 + km.toNat * 8388608 + s.toNat * 4194304 + vs2.toNat * 131072 + vs1.toNat * 4096 + kd.toNat * 128)
  | .vcmple km s vs2 vs1 kd => some (1207959563 + km.toNat * 8388608 + s.toNat * 4194304 + vs2.toNat * 131072 + vs1.toNat * 4096 + kd.toNat * 128)
  | .vfma km s vs2 vs1 vd => some (1275068427 + km.toNat * 8388608 + s.toNat * 4194304 + vs2.toNat * 131072 + vs1.toNat * 4096 + vd.toNat * 128)
  | .vfms km s vs2 vs1 vd => some (1342177291 + km.toNat * 8388608 + s.toNat * 4194304 + vs2.toNat * 131072 + vs1.toNat * 4096 + vd.toNat * 128)
  | .vfnma km s vs2 vs1 vd => some (1409286155 + km.toNat * 8388608 + s.toNat * 4194304 + vs2.toNat * 131072 + vs1.toNat * 4096 + vd.toNat * 128)
  | .vfnms km s vs2 vs1 vd => some (1476395019 + km.toNat * 8388608 + s.toNat * 4194304 + vs2.toNat * 131072 + vs1.toNat * 4096 + vd.toNat * 128)
  | .vsel km vs2 vs1 vd => some (1543503883 + km.toNat * 8388608 + vs2.toNat * 131072 + vs1.toNat * 4096 + vd.toNat * 128)
  | .vqblk km vs2 vs1 vd => some (1610612747 + km.toNat * 8388608 + vs2.toNat * 131072 + vs1.toNat * 4096 + vd.toNat * 128)
  | .vdqblk km vs2 vs1 vd => some (1677721611 + km.toNat * 8388608 + vs2.toNat * 131072 + vs1.toNat * 4096 + vd.toNat * 128)
  | .vsplat km rs1 vd => some (1749024779 + km.toNat * 8388608 + rs1.toNat * 4096 + vd.toNat * 128)
  | .vaddVi km imm vs1 vd => some (2147483659 + km.toNat * 8388608 + imm.toNat * 131072 + vs1.toNat * 4096 + vd.toNat * 128)
  | .vsubVi km imm vs1 vd => some (2214592523 + km.toNat * 8388608 + imm.toNat * 131072 + vs1.toNat * 4096 + vd.toNat * 128)
  | .vrsubVi km imm vs1 vd => some (2281701387 + km.toNat * 8388608 + imm.toNat * 131072 + vs1.toNat * 4096 + vd.toNat * 128)
  | .vmulVi km imm vs1 vd => some (2348810251 + km.toNat * 8388608 + imm.toNat * 131072 + vs1.toNat * 4096 + vd.toNat * 128)
  | .vminVi km imm vs1 vd => some (2617245707 + km.toNat * 8388608 + imm.toNat * 131072 + vs1.toNat * 4096 + vd.toNat * 128)
  | .vmaxVi km imm vs1 vd => some (2684354571 + km.toNat * 8388608 + imm.toNat * 131072 + vs1.toNat * 4096 + vd.toNat * 128)
  | .vandVi km imm vs1 vd => some (2751463435 + km.toNat * 8388608 + imm.toNat * 131072 + vs1.toNat * 4096 + vd.toNat * 128)
  | .vorVi km imm vs1 vd => some (2818572299 + km.toNat * 8388608 + imm.toNat * 131072 + vs1.toNat * 4096 + vd.toNat * 128)
  | .vxorVi km imm vs1 vd => some (2885681163 + km.toNat * 8388608 + imm.toNat * 131072 + vs1.toNat * 4096 + vd.toNat * 128)
  | .vsllVi km imm vs1 vd => some (2952790027 + km.toNat * 8388608 + imm.toNat * 131072 + vs1.toNat * 4096 + vd.toNat * 128)
  | .vsrlVi km imm vs1 vd => some (3019898891 + km.toNat * 8388608 + imm.toNat * 131072 + vs1.toNat * 4096 + vd.toNat * 128)
  | .vsraVi km imm vs1 vd => some (3087007755 + km.toNat * 8388608 + imm.toNat * 131072 + vs1.toNat * 4096 + vd.toNat * 128)
  | .vcmpeqVi km imm vs1 kd => some (3154116619 + km.toNat * 8388608 + imm.toNat * 131072 + vs1.toNat * 4096 + kd.toNat * 128)
  | .vcmpneVi km imm vs1 kd => some (3221225483 + km.toNat * 8388608 + imm.toNat * 131072 + vs1.toNat * 4096 + kd.toNat * 128)
  | .vcmpltVi km imm vs1 kd => some (3288334347 + km.toNat * 8388608 + imm.toNat * 131072 + vs1.toNat * 4096 + kd.toNat * 128)
  | .vcmpleVi km imm vs1 kd => some (3355443211 + km.toNat * 8388608 + imm.toNat * 131072 + vs1.toNat * 4096 + kd.toNat * 128)
  | .vsplatVi km imm vd => some (3892314123 + km.toNat * 8388608 + imm.toNat * 131072 + vd.toNat * 128)
  | .vmv km vs1 vd => some (2080374795 + km.toNat * 8388608 + vs1.toNat * 4096 + vd.toNat * 128)
  | .vabs km vs1 vd => some (2080505867 + km.toNat * 8388608 + vs1.toNat * 4096 + vd.toNat * 128)
  | .vneg km vs1 vd => some (2080636939 + km.toNat * 8388608 + vs1.toNat * 4096 + vd.toNat * 128)
  | .vnot km vs1 vd => some (2080768011 + km.toNat * 8388608 + vs1.toNat * 4096 + vd.toNat * 128)
  | .vsqrt km vs1 vd => some (2080899083 + km.toNat * 8388608 + vs1.toNat * 4096 + vd.toNat * 128)
  | .vrcp km vs1 vd => some (2081030155 + km.toNat * 8388608 + vs1.toNat * 4096 + vd.toNat * 128)
  | .vrsqrt km vs1 vd => some (2081161227 + km.toNat * 8388608 + vs1.toNat * 4096 + vd.toNat * 128)
  | .vexp2 km vs1 vd => some (2081292299 + km.toNat * 8388608 + vs1.toNat * 4096 + vd.toNat * 128)
  | .vlog2 km vs1 vd => some (2081423371 + km.toNat * 8388608 + vs1.toNat * 4096 + vd.toNat * 128)
  | .vclz km vs1 vd => some (2081554443 + km.toNat * 8388608 + vs1.toNat * 4096 + vd.toNat * 128)
  | .vpop km vs1 vd => some (2081685515 + km.toNat * 8388608 + vs1.toNat * 4096 + vd.toNat * 128)
  | .vclass km vs1 vd => some (2081816587 + km.toNat * 8388608 + vs1.toNat * 4096 + vd.toNat * 128)
  | .vcvt km vs1 vd => some (2081947659 + km.toNat * 8388608 + vs1.toNat * 4096 + vd.toNat * 128)
  | .vid km vd => some (2082078731 + km.toNat * 8388608 + vd.toNat * 128)
  | .kand ks2 ks1 kd => some (2013265931 + ks2.toNat * 8388608 + ks1.toNat * 4096 + kd.toNat * 128)
  | .kor ks2 ks1 kd => some (2013397003 + ks2.toNat * 8388608 + ks1.toNat * 4096 + kd.toNat * 128)
  | .kxor ks2 ks1 kd => some (2013528075 + ks2.toNat * 8388608 + ks1.toNat * 4096 + kd.toNat * 128)
  | .kandn ks2 ks1 kd => some (2013659147 + ks2.toNat * 8388608 + ks1.toNat * 4096 + kd.toNat * 128)
  | .knot ks1 kd => some (2013790219 + ks1.toNat * 4096 + kd.toNat * 128)
  | .kpop ks1 rd => some (2013921291 + ks1.toNat * 4096 + rd.toNat * 128)
  | .kfirst ks1 rd => some (2014052363 + ks1.toNat * 4096 + rd.toNat * 128)
  | .kmv ks1 kd => some (2014183435 + ks1.toNat * 4096 + kd.toNat * 128)
  | .kmvFromEmask kd => some (2014314507 + kd.toNat * 128)
  | .kmvToEmask ks1 => some (2014445579 + ks1.toNat * 4096)
  | .kset rs1 kd => some (2014576651 + rs1.toNat * 4096 + kd.toNat * 128)
  | .vld km rs1 vd => some (43 + km.toNat * 8388608 + rs1.toNat * 4096 + vd.toNat * 128)
  | .vst km rs1 vs3 => some (67108907 + km.toNat * 8388608 + rs1.toNat * 4096 + vs3.toNat * 128)
  | .vlds km rs2 rs1 vd => some (134217771 + km.toNat * 8388608 + rs2.toNat * 131072 + rs1.toNat * 4096 + vd.toNat * 128)
  | .vsts km rs2 rs1 vs3 => some (201326635 + km.toNat * 8388608 + rs2.toNat * 131072 + rs1.toNat * 4096 + vs3.toNat * 128)
  | .vldx km vs2 rs1 vd => some (268435499 + km.toNat * 8388608 + vs2.toNat * 131072 + rs1.toNat * 4096 + vd.toNat * 128)
  | .vstx km vs2 rs1 vs3 => some (335544363 + km.toNat * 8388608 + vs2.toNat * 131072 + rs1.toNat * 4096 + vs3.toNat * 128)
  | .vgl km vs2 rs1 vd => some (402653227 + km.toNat * 8388608 + vs2.toNat * 131072 + rs1.toNat * 4096 + vd.toNat * 128)
  | .vsc km vs2 rs1 vs3 => some (469762091 + km.toNat * 8388608 + vs2.toNat * 131072 + rs1.toNat * 4096 + vs3.toNat * 128)
  | .vlsl km vs2 rs1 vd => some (536870955 + km.toNat * 8388608 + vs2.toNat * 131072 + rs1.toNat * 4096 + vd.toNat * 128)
  | .vssl km vs2 rs1 vs3 => some (603979819 + km.toNat * 8388608 + vs2.toNat * 131072 + rs1.toNat * 4096 + vs3.toNat * 128)
  | .vamoadd km old vs2 rs1 vd => some (1073741867 + km.toNat * 8388608 + old.toNat * 4194304 + vs2.toNat * 131072 + rs1.toNat * 4096 + vd.toNat * 128)
  | .vamomin km old vs2 rs1 vd => some (1140850731 + km.toNat * 8388608 + old.toNat * 4194304 + vs2.toNat * 131072 + rs1.toNat * 4096 + vd.toNat * 128)
  | .vamomax km old vs2 rs1 vd => some (1207959595 + km.toNat * 8388608 + old.toNat * 4194304 + vs2.toNat * 131072 + rs1.toNat * 4096 + vd.toNat * 128)
  | .vamoand km old vs2 rs1 vd => some (1275068459 + km.toNat * 8388608 + old.toNat * 4194304 + vs2.toNat * 131072 + rs1.toNat * 4096 + vd.toNat * 128)
  | .vamoor km old vs2 rs1 vd => some (1342177323 + km.toNat * 8388608 + old.toNat * 4194304 + vs2.toNat * 131072 + rs1.toNat * 4096 + vd.toNat * 128)
  | .vamoxor km old vs2 rs1 vd => some (1409286187 + km.toNat * 8388608 + old.toNat * 4194304 + vs2.toNat * 131072 + rs1.toNat * 4096 + vd.toNat * 128)
  | .vamoswp km old vs2 rs1 vd => some (1476395051 + km.toNat * 8388608 + old.toNat * 4194304 + vs2.toNat * 131072 + rs1.toNat * 4096 + vd.toNat * 128)
  | .vamocas km vs2 rs1 vd => some (1547698219 + km.toNat * 8388608 + vs2.toNat * 131072 + rs1.toNat * 4096 + vd.toNat * 128)
  | .vperm km vs2 vs1 vd => some (1610612779 + km.toNat * 8388608 + vs2.toNat * 131072 + vs1.toNat * 4096 + vd.toNat * 128)
  | .vslup km rs2 vs1 vd => some (1677721643 + km.toNat * 8388608 + rs2.toNat * 131072 + vs1.toNat * 4096 + vd.toNat * 128)
  | .vsldn km rs2 vs1 vd => some (1744830507 + km.toNat * 8388608 + rs2.toNat * 131072 + vs1.toNat * 4096 + vd.toNat * 128)
  | .vcomp km vs1 vd => some (1811939371 + km.toNat * 8388608 + vs1.toNat * 4096 + vd.toNat * 128)
  | .vexpd km vs1 vd => some (1879048235 + km.toNat * 8388608 + vs1.toNat * 4096 + vd.toNat * 128)
  | .vscan km vs1 vd => some (1946157099 + km.toNat * 8388608 + vs1.toNat * 4096 + vd.toNat * 128)
  | .vcex km vs2 vs1 vd => some (2013265963 + km.toNat * 8388608 + vs2.toNat * 131072 + vs1.toNat * 4096 + vd.toNat * 128)
  | .vmrg km vs2 vs1 vd => some (2080374827 + km.toNat * 8388608 + vs2.toNat * 131072 + vs1.toNat * 4096 + vd.toNat * 128)
  | .vred km vs1 ea => some (2147483691 + km.toNat * 8388608 + vs1.toNat * 4096 + ea.toNat * 128)
  | .vredmx km vs1 vd => some (2214592555 + km.toNat * 8388608 + vs1.toNat * 4096 + vd.toNat * 128)
  | .vredmn km vs1 vd => some (2281701419 + km.toNat * 8388608 + vs1.toNat * 4096 + vd.toNat * 128)
  | .vdot km vs2 vs1 ea => some (2348810283 + km.toNat * 8388608 + vs2.toNat * 131072 + vs1.toNat * 4096 + ea.toNat * 128)
  | .eaclr ea => some (2415919147 + ea.toNat * 128)
  | .eard ea vd => some (2483028011 + ea.toNat * 4096 + vd.toNat * 128)
  | .eamvLoad rs1 ea => some (2550136875 + rs1.toNat * 4096 + ea.toNat * 128)
  | .eamvStore rs1 ea => some (2554331179 + rs1.toNat * 4096 + ea.toNat * 128)
  | .mma mc ma mb => some (91 + mc.toNat * 8388608 + ma.toNat * 524288 + mb.toNat * 32768)
  | .mmasp mc ma mb v => some (134217819 + mc.toNat * 8388608 + ma.toNat * 524288 + mb.toNat * 32768 + v.toNat * 128)
  | .mmack mc ma mb v => some (268435547 + mc.toNat * 8388608 + ma.toNat * 524288 + mb.toNat * 32768 + v.toNat * 128)
  | .tzero mc => some (4187 + mc.toNat * 8388608)
  | .tmv mc ma => some (134221915 + mc.toNat * 8388608 + ma.toNat * 524288)
  | .tcvt mc ma => some (268439643 + mc.toNat * 8388608 + ma.toNat * 524288)
  | .tadd mc ma mb => some (402657371 + mc.toNat * 8388608 + ma.toNat * 524288 + mb.toNat * 32768)
  | .tscale mc ma rs => some (536875099 + mc.toNat * 8388608 + ma.toNat * 524288 + rs.toNat * 128)
  | .tsum ma v => some (671092827 + ma.toNat * 524288 + v.toNat * 128)
  | .tld md rs2 rs1 => some (16475 + md.toNat * 1048576 + rs2.toNat * 32768 + rs1.toNat * 128)
  | .tst md rs2 rs1 => some (16793691 + md.toNat * 1048576 + rs2.toNat * 32768 + rs1.toNat * 128)
  | .ttov md v rs1 => some (33570907 + md.toNat * 1048576 + v.toNat * 32768 + rs1.toNat * 128)
  | .vtot md v rs1 => some (50348123 + md.toNat * 1048576 + v.toNat * 32768 + rs1.toNat * 128)
  | .vshape width rs1 rd => some (20571 + width.code * 1048576 + rs1.toNat * 32768 + rd.toNat * 128)
  | .vtag ty vd => some (33575003 + ty.code * 32768 + vd.toNat * 128)
  | .tgetsh md rd => some (67129435 + md.toNat * 32768 + rd.toNat * 128)
  | .tshape ty rs2 rs1 md => some (1073762395 + ty.code * 33554432 + rs2.toNat * 1048576 + rs1.toNat * 32768 + md.toNat * 128)
  | .chcfg rs1 c => some (123 + rs1.toNat * 32768 + c.toNat * 128)
  | .chrun rs1 c => some (33554555 + rs1.toNat * 32768 + c.toNat * 128)
  | .chwait rs2 c rd => some (67108987 + rs2.toNat * 1048576 + c.toNat * 32768 + rd.toNat * 128)
  | .chbrk c => some (100663419 + c.toNat * 128)
  | .chres c => some (134217851 + c.toNat * 128)
  | .chstat rs2 c rd => some (167772283 + rs2.toNat * 1048576 + c.toNat * 32768 + rd.toNat * 128)
  | .chfree c => some (201326715 + c.toNat * 128)
  | .chsave rs1 c => some (234881147 + rs1.toNat * 32768 + c.toNat * 128)
  | .chload rs1 c => some (268435579 + rs1.toNat * 32768 + c.toNat * 128)
  | .tlwait tl rs2 rs1 rd => some (4219 + tl.toNat * 33554432 + rs2.toNat * 1048576 + rs1.toNat * 32768 + rd.toNat * 128)
  | .tlnow tl rd => some (134221947 + tl.toNat * 33554432 + rd.toNat * 128)
  | .wflag ge rs2 rs1 rd => some (268439675 + ge.toNat * 33554432 + rs2.toNat * 1048576 + rs1.toNat * 32768 + rd.toNat * 128)
  | .sync scope classes rs1 rd => some (2147487867 + scope.code * 33554432 + classes.toNat * 1048576 + rs1.toNat * 32768 + rd.toNat * 128)
  | .rlnew rs1 rd => some (8315 + rs1.toNat * 32768 + rd.toNat * 128)
  | .rljoin rs1 rd => some (33562747 + rs1.toNat * 32768 + rd.toNat * 128)
  | .rlleave rs1 rd => some (67117179 + rs1.toNat * 32768 + rd.toNat * 128)
  | .rlfree rs1 rd => some (100671611 + rs1.toNat * 32768 + rd.toNat * 128)
  | .rlarr rs1 rd => some (134226043 + rs1.toNat * 32768 + rd.toNat * 128)
  | .rlwait rs2 rs1 rd => some (167780475 + rs2.toNat * 1048576 + rs1.toNat * 32768 + rd.toNat * 128)
  | .rlbar rs2 rs1 rd => some (201334907 + rs2.toNat * 1048576 + rs1.toNat * 32768 + rd.toNat * 128)
  | .ecopy tl rs2 rs1 rd => some (12411 + tl.toNat * 33554432 + rs2.toNat * 1048576 + rs1.toNat * 32768 + rd.toNat * 128)
  | .egth tl rs2 rs1 rd => some (134230139 + tl.toNat * 33554432 + rs2.toNat * 1048576 + rs1.toNat * 32768 + rd.toNat * 128)
  | .esct tl rs2 rs1 rd => some (268447867 + tl.toNat * 33554432 + rs2.toNat * 1048576 + rs1.toNat * 32768 + rd.toNat * 128)
  | .efill tl rs2 rs1 rd => some (402665595 + tl.toNat * 33554432 + rs2.toNat * 1048576 + rs1.toNat * 32768 + rd.toNat * 128)
  | .ecvt tl rs2 rs1 rd => some (536883323 + tl.toNat * 33554432 + rs2.toNat * 1048576 + rs1.toNat * 32768 + rd.toNat * 128)
  | .ecan tl rs2 rs1 rd => some (671101051 + tl.toNat * 33554432 + rs2.toNat * 1048576 + rs1.toNat * 32768 + rd.toNat * 128)
  | .icinv pkg rs2 rs1 rd => some (16507 + pkg.toNat * 33554432 + rs2.toNat * 1048576 + rs1.toNat * 32768 + rd.toNat * 128)
  | .tlbinv pkg rs2 rs1 rd => some (67125371 + pkg.toNat * 33554432 + rs2.toNat * 1048576 + rs1.toNat * 32768 + rd.toNat * 128)
  | .claim => some (536887419)
  | .fput tl rs2 rs1 rd => some (20603 + tl.toNat * 33554432 + rs2.toNat * 1048576 + rs1.toNat * 32768 + rd.toNat * 128)
  | .fget tl rs2 rs1 rd => some (134238331 + tl.toNat * 33554432 + rs2.toNat * 1048576 + rs1.toNat * 32768 + rd.toNat * 128)
  | .fcoll tl rs2 rs1 rd => some (268456059 + tl.toNat * 33554432 + rs2.toNat * 1048576 + rs1.toNat * 32768 + rd.toNat * 128)
  | .dlaunch rs2 rs1 rd => some (402673787 + rs2.toNat * 1048576 + rs1.toNat * 32768 + rd.toNat * 128)
  | .ldaq scope rs1 rd => some (24699 + scope.code * 33554432 + rs1.toNat * 32768 + rd.toNat * 128)
  | .strl scope rs2 rs1 => some (268460155 + scope.code * 33554432 + rs2.toNat * 1048576 + rs1.toNat * 32768)
  | .vqpush q vs rs1 rd => some (28795 + q.toNat * 33554432 + vs.toNat * 1048576 + rs1.toNat * 32768 + rd.toNat * 128)
  | .vqpop q vd rs1 rd => some (268464251 + q.toNat * 33554432 + vd.toNat * 1048576 + rs1.toNat * 32768 + rd.toNat * 128)
  | .vqcnt q rd => some (536899707 + q.toNat * 33554432 + rd.toNat * 128)
  | .vwait ge kd vs rs1 rd => some (1073770619 + ge.toNat * 268435456 + kd.toNat * 33554432 + vs.toNat * 1048576 + rs1.toNat * 32768 + rd.toNat * 128)
  | .fence fm p s rs1 rd => some (0x0F + rd.toNat * 128 + rs1.toNat * 32768 + s.toNat * 1048576 + p.toNat * 16777216
      + fm.toNat * 268435456)
  | .fenceI imm rs1 rd => some (encI 0x0F 1 rd rs1 imm)
  | .lr d aq rl rs1 rd => some (0x1000002F + rd.toNat * 128 + (2 + d.toNat) * 4096 + rs1.toNat * 32768
      + rl.toNat * 33554432 + aq.toNat * 67108864)
  | .sc d aq rl rs2 rs1 rd => some (0x1800002F + rd.toNat * 128 + (2 + d.toNat) * 4096 + rs1.toNat * 32768
      + rs2.toNat * 1048576 + rl.toNat * 33554432 + aq.toNat * 67108864)
  | .amo op d aq rl rs2 rs1 rd => some (0x2F + rd.toNat * 128 + (2 + d.toNat) * 4096 + rs1.toNat * 32768
      + rs2.toNat * 1048576 + rl.toNat * 33554432 + aq.toNat * 67108864 + op.funct * 134217728)
  | .scalarLoad op imm rs1 rd => some (encI 0x03 op.funct rd rs1 imm)
  | .scalarStore op imm rs2 rs1 => some (0x23 + (imm.toNat % 32) * 128 + op.funct * 4096 + rs1.toNat * 32768
      + rs2.toNat * 1048576 + (imm.toNat / 32) * 33554432)
  | .ecall => some 0x00000073
  | .ebreak => some 0x00100073
  | .wfi => some 0x10500073
  | .sret => some 0x10200073
  | .sfenceVma rs2 rs1 => some (0x12000073 + rs1.toNat * 32768 + rs2.toNat * 1048576)
  | .vstaWrite op src rd => some (encCsr 0x800 op src rd)
  | .emaskWrite op src rd => some (encCsr 0x801 op src rd)
  | .eclsWrite op src rd => some (encCsr 0x802 op src rd)
  | .finjWrite op src rd => some (encCsr 0x805 op src rd)
  | .wceilWrite op src rd => some (encCsr 0x5C0 op src rd)
  | .wptWrite n op src rd => some (encCsr (0x5C4 + n.toNat) op src rd)
  | .registerWrite (.csr csr op src rd) => some (encCsr csr.toNat op src rd)
  | .scalarInstruction op => some (encScalar op)
  | .encodingThatSelectsNothing bits => some bits.toNat
  | _ => none

/-- The 32 instruction bits that R101, R119 and R216 put into stval. -/
def encode (i : Instr) : Nat := (encodeWord i).getD 0

/-- The bytes of an instruction in ascending address order (R17). -/
def encodeBytes (i : Instr) : List Byte := leBytes 4 (encode i)

end Sys2Proof
end

