-- ==== Sys2Proof/Config.lean ====
section
/-!
DEFINITION. What an implementation fixes, and the free values. A constant with no body is a value that the spec leaves
open: nothing can evaluate it, so a statement about it holds whatever it is. Free values are applied to the counter
State.free or to the operands they depend on.
-/
namespace Sys2Proof.Config

/-- Architecture revision, Ryuloth 1.0 (R6). -/
def revision : Nat := 0x00010000
/-- Implementation identifier: fab line one (R4). DESIGN CHOICE, log 9: the spec issues two, and names no one of them. -/
def implementer : Nat := 0x08800001
/-- Stepping code A0 (R5). DESIGN CHOICE, log 9. -/
def stepping : Nat := 0xA0
/-- Whether the present stepping has an erratum (R377): the spec lists no erratum of any stepping. A free value. -/
opaque hasErratum : Nat → Bool
/-- Compute dies, stacks, clusters per die and cores per cluster of a C880-P (R299, R324, R352). -/
def dies : Nat := 8
/-- Stacks of a C880-P (R352). -/
def hbmStacks : Nat := 16
/-- Clusters of a die (R299). -/
def clusters : Nat := 25
/-- Cores of a cluster (R299). -/
def cores : Nat := 8
/-- Lane-link buffer LB of R13: receive slots a link can be granted. -/
def linkSlots : Nat := 16
/-- Vector links that a strand can hold (R13, R166). -/
def gatherLinks : Nat := 4096
/-- Strip store buffer capacity in 4-byte words: 64 KiB of words (R13, R280). -/
def stripWords : Nat := 16384
/-- Entries of a channel's write queue; the spec gives none (R356 counts sixty-fourths of it). A free value. -/
opaque writeQueueEntries : Nat
/-- What a stage buffer holds after an aborted collective (R415: no guaranteed value), and any other value that the
spec leaves open after a step that goes on. A free value. -/
opaque freeWord : Nat → Word
/-- The word of a chain image that holds the quota and the least performed count: R226 gives two values of 49 bits in 8 bytes
and no layout. Free values. -/
opaque packQuota : Nat → Nat → Word
/-- The quota and count that such a word stands for when it is loaded. A free value. -/
opaque unpackQuota : Word → Nat × Nat
/-- Whether an informative counter moved; cycle and instret are informative (R80). -/
opaque freeCount : Nat → Word
/-- Package power in W and hottest sensor in °C, informative (R402). -/
opaque freePower : Nat → BitVec 20
/-- Time between steps that the spec does not fix (R9, R227); one tick in this model. -/
def tick : Nat := 1
/-- The native code of the schedule of a Flaset image (R378): translation is a function of its inputs and the spec gives no code.
A free value (log 32). -/
opaque flasetCode : List Byte → List Byte
/-- Where the translation of a Flaset image lies among the virtual addresses, in pages (R378). A free value (log 32). -/
opaque flasetVa : List Byte → Nat
/-- Signatures of a report by the device keys (R401): the keys are outside the spec. Free values. -/
opaque ed25519 : List Byte → List Byte
/-- The ML-DSA-65 signature of a report (R401). A free value. -/
opaque mldsa65 : List Byte → List Byte
/-- The SHA3-384 digest of an image (R397): a function that the spec names and does not define. A free value. -/
opaque sha3 : List Byte → List Byte
/-- Whether an Ed25519 signature over a digest verifies against the fused public key (R397): the key is outside the spec. A free
value. -/
opaque edVerifies : List Byte → List Byte → Bool
/-- Whether an ML-DSA-65 signature over a digest verifies against the fused public key (R397). A free value. -/
opaque mldsaVerifies : List Byte → List Byte → Bool
/-- The security version fused for the controller image and for the fixer image (R397). Free values. -/
opaque fusedVersion : Bool → BitVec 32
/-- The root-of-trust code, whose digest a report carries (R401). A free value. -/
opaque rootOfTrust : List Byte

end Sys2Proof.Config
end

