-- ==== Sys2Proof/Machine/Formats.lean ====
section
/-!
DEFINITION. Element formats and exact arithmetic (02_number_formats.md, R23 to R49): values of encodings, rounding in
the three steps of R31, the exception classes of R34, conversions of R35, the exact accumulator of R36 to R39, block
quantisation of R44 and R45, and CE8 blocks of R46 to R49. Everything is total Nat and Int arithmetic.
-/
namespace Sys2Proof.Machine

/-- Exception classes raised, code c of R65 in bit c − 1. -/
abbrev Cls := BitVec 6

/-- Class Invalid of R34. -/
def Cls.invalid : Cls := 0x01#6
/-- Class Divide by zero of R34. -/
def Cls.divZero : Cls := 0x02#6
/-- Class Overflow of R34. -/
def Cls.overflow : Cls := 0x04#6
/-- Class Underflow of R34. -/
def Cls.underflow : Cls := 0x08#6
/-- Class Inexact of R34. -/
def Cls.inexact : Cls := 0x10#6
/-- Class Saturation of R34. -/
def Cls.saturation : Cls := 0x20#6

/-- The class when the condition holds, else none. -/
def Cls.on (c : Cls) (b : Bool) : Cls := if b then c else 0#6

/-- Rounding modes of R30. -/
inductive RMode where
  | rne | rtz | rdn | rup | rod
  deriving DecidableEq, Repr

/-- The mode of a code of R30. ecls.rm never holds a reserved code; one reads as rod here. -/
def RMode.ofCode : Nat → RMode
  | 0 => .rne | 1 => .rtz | 2 => .rdn | 3 => .rup | _ => .rod

/-- The code of a mode (R30). -/
def RMode.code : RMode → Nat
  | .rne => 0 | .rtz => 1 | .rdn => 2 | .rup => 3 | .rod => 4

/-- Number of bits of a natural number. -/
def bitLen (n : Nat) : Nat := if n = 0 then 0 else Nat.log2 n + 1

/-- Fields of a floating-point format: mantissa bits, exponent bits, bias, greatest finite value as maxM × 2^maxE. -/
structure Fmt where
  m : Nat
  eb : Nat
  bias : Nat
  maxM : Nat
  maxE : Int
  deriving DecidableEq, Repr

/-- The formats of R26; an integer type has no format and is given that of FP64 (never used). -/
def fmtOf : ETag → Fmt
  | .fp32 => ⟨23, 8, 127, 2 ^ 24 - 1, 104⟩
  | .bf16 => ⟨7, 8, 127, 2 ^ 8 - 1, 120⟩
  | .fp16 => ⟨10, 5, 15, 2 ^ 11 - 1, 5⟩
  | .e5m2 => ⟨2, 5, 15, 7, 13⟩
  | .e4m3 => ⟨3, 4, 7, 14, 5⟩
  | _ => ⟨52, 11, 1023, 2 ^ 53 - 1, 971⟩

/-- The value of an encoding: a NaN (signalling or quiet), an infinity, or (−1)^neg × m × 2^e. -/
inductive Num where
  | nan (sig : Bool)
  | inf (neg : Bool)
  | fin (neg : Bool) (m : Nat) (e : Int)
  deriving DecidableEq, Repr

/-- The canonical NaN of R26. -/
def canonNaN (t : ETag) : Nat :=
  match t with
  | .fp64 => 0x7FF8000000000000 | .fp32 => 0x7FC00000 | .bf16 => 0x7FC0 | .fp16 => 0x7E00
  | .e5m2 => 0x7E | .e4m3 => 0x7F | _ => 0

/-- The sign bit of an encoding of type t. -/
def signBit (t : ETag) (n : Nat) : Bool := n.testBit (t.width - 1)

/-- The encoding of an infinity; E4M3 has none and gives its canonical NaN (R28, R35). -/
def encInf (t : ETag) (neg : Bool) : Nat :=
  if t = .e4m3 then canonNaN t
  else ((2 ^ (fmtOf t).eb - 1) <<< (fmtOf t).m) + (if neg then 2 ^ (t.width - 1) else 0)

/-- The greatest finite magnitude with a sign (R26). -/
def encMax (t : ETag) (neg : Bool) : Nat :=
  (if t = .e4m3 then 0x7E else ((2 ^ (fmtOf t).eb - 1) <<< (fmtOf t).m) - 1) + (if neg then 2 ^ (t.width - 1) else 0)

/-- The value of an encoding of a float type (R27, R28, R29). -/
def decodeFloat (t : ETag) (n : Nat) : Num :=
  let f := (fmtOf t)
  let neg := signBit t n
  let e := (n >>> f.m) % 2 ^ f.eb
  let m := n % 2 ^ f.m
  if t = .e4m3 then
    if e = 15 ∧ m = 7 then .nan false
    else if e = 0 then .fin neg m (1 - (f.bias : Int) - f.m)
    else .fin neg (2 ^ f.m + m) ((e : Int) - f.bias - f.m)
  else if e = 2 ^ f.eb - 1 then
    if m = 0 then .inf neg else .nan (!m.testBit (f.m - 1))
  else if e = 0 then .fin neg m (1 - (f.bias : Int) - f.m)
  else .fin neg (2 ^ f.m + m) ((e : Int) - f.bias - f.m)

/-- The integer value of an encoding of an integer type (R24). -/
def decodeInt (t : ETag) (n : Nat) : Int :=
  let n := n % 2 ^ t.width
  if t.isSigned ∧ n.testBit (t.width - 1) then (n : Int) - 2 ^ t.width else n

/-- Least value of an integer type (R24). -/
def intMin (t : ETag) : Int := if t.isSigned then -(2 ^ (t.width - 1)) else 0
/-- Greatest value of an integer type (R24). -/
def intMax (t : ETag) : Int := if t.isSigned then 2 ^ (t.width - 1) - 1 else 2 ^ t.width - 1

/-- The low Width(t) bits of an integer, Trunc of R22. -/
def truncInt (t : ETag) (i : Int) : Nat := (i % (2 ^ t.width : Int)).toNat

/-- Sat(i, t) of R22: the nearest value of the range. -/
def satInt (t : ETag) (i : Int) : Int := if i < intMin t then intMin t else if intMax t < i then intMax t else i

/-- Sat as an encoding, with the class Saturation when it clamps. -/
def satEnc (t : ETag) (i : Int) : Nat × Cls := (truncInt t (satInt t i), Cls.saturation.on (satInt t i != i))

/-- Whether a magnitude is increased by one unit, given its last bit, the comparison of the rest with half a unit
(0 none, 1 below, 2 equal, 3 above) and the sign (R30). -/
def roundUp (mode : RMode) (neg odd : Bool) (rest : Nat) : Bool :=
  match mode with
  | .rne => rest == 3 || (rest == 2 && odd)
  | .rtz => false
  | .rdn => neg && rest != 0
  | .rup => !neg && rest != 0
  | .rod => !odd && rest != 0

/-- |x| = (m + ε) × 2^e, with 0 < ε < 1 when sticky and ε = 0 otherwise, rounded to a multiple of 2^g: the multiple and
whether it differs from x (R30). -/
def roundGrid (mode : RMode) (neg : Bool) (m : Nat) (e : Int) (sticky : Bool) (g : Int) : Nat × Bool :=
  if g ≤ e then
    let q := m <<< (e - g).toNat
    let rest := if sticky then 1 else 0
    (if roundUp mode neg (q % 2 == 1) rest then q + 1 else q, rest != 0)
  else
    let sh := (g - e).toNat
    let q := m >>> sh
    let r := m % 2 ^ sh
    let h := 2 ^ (sh - 1)
    let rest := if r < h then (if r = 0 && !sticky then 0 else 1) else if r = h && !sticky then 2 else 3
    (if roundUp mode neg (q % 2 == 1) rest then q + 1 else q, rest != 0)

/-- The encoding of (−1)^neg × q × 2^g, which the format represents (R27). -/
def encFinite (t : ETag) (neg : Bool) (q : Nat) (g : Int) : Nat :=
  let f := (fmtOf t)
  let s := if neg then 2 ^ (t.width - 1) else 0
  if q = 0 then s
  else
    let grid : Int := 1 - (f.bias : Int) - f.m
    let top : Int := g + bitLen q - 1
    if top < 1 - (f.bias : Int) then s + (q <<< (g - grid).toNat)
    else
      let sig := if bitLen q ≤ f.m + 1 then q <<< (f.m + 1 - bitLen q) else q >>> (bitLen q - (f.m + 1))
      s + (((top + f.bias).toNat <<< f.m) + (sig - 2 ^ f.m))

/-- Overflow result of R31. -/
def overflowEnc (t : ETag) (mode : RMode) (neg : Bool) : Nat :=
  if t = .e4m3 then encMax t neg
  else match mode with
    | .rne => encInf t neg
    | .rtz | .rod => encMax t neg
    | .rdn => if neg then encInf t neg else encMax t neg
    | .rup => if neg then encMax t neg else encInf t neg

/-- Round(x, f, mode) of R31 for |x| = (m + ε) × 2^e, not zero, with the classes of R34. -/
def roundFinite (t : ETag) (mode : RMode) (neg : Bool) (m : Nat) (e : Int) (sticky : Bool) : Nat × Cls :=
  let f := (fmtOf t)
  let g1 : Int := e + bitLen m - (f.m + 1)
  let y := roundGrid mode neg m e sticky g1
  let tooBig : Bool := if f.maxE ≤ g1 then decide (f.maxM < y.1 <<< (g1 - f.maxE).toNat)
    else decide (f.maxM <<< (f.maxE - g1).toNat < y.1)
  if tooBig then (overflowEnc t mode neg, Cls.overflow ||| Cls.inexact)
  else if g1 + bitLen y.1 ≤ 1 - (f.bias : Int) then
    let z := roundGrid mode neg m e sticky (1 - (f.bias : Int) - f.m)
    (encFinite t neg z.1 (1 - (f.bias : Int) - f.m),
      if z.2 then Cls.underflow ||| Cls.inexact else 0#6)
  else (encFinite t neg y.1 g1, Cls.inexact.on y.2)

/-- A value delivered in a float type under a mode: R31 for a finite value, R35 for an infinity, R29 for a NaN. The
class of a signalling NaN is raised where the operands are read. -/
def roundNum (t : ETag) (mode : RMode) : Num → Nat × Cls
  | .nan _ => (canonNaN t, 0#6)
  | .inf neg => (encInf t neg, Cls.invalid.on (t == .e4m3))
  | .fin neg m e => if m = 0 then (encFinite t neg 0 0, 0#6) else roundFinite t mode neg m e false

/-- A finite value rounded to an integer under a mode (R35), and whether it differs. -/
def roundToInt (mode : RMode) (neg : Bool) (m : Nat) (e : Int) : Int × Bool :=
  let q := roundGrid mode neg m e false 0
  (if neg then -(q.1 : Int) else q.1, q.2)

/-- A value converted to an integer type (R35). -/
def numToInt (t : ETag) (mode : RMode) : Num → Nat × Cls
  | .nan _ => (0, Cls.invalid)
  | .inf neg => (truncInt t (if neg then intMin t else intMax t), Cls.invalid)
  | .fin neg m e =>
    let n := roundToInt mode neg m e
    if satInt t n.1 = n.1 then (truncInt t n.1, Cls.inexact.on n.2) else (truncInt t (satInt t n.1), Cls.invalid)

/-- The value of an integer as a number. -/
def intNum (i : Int) : Num := .fin (decide (i < 0)) i.natAbs 0

/-- A number in a destination type of either kind. -/
def numTo (d : ETag) (mode : RMode) (x : Num) : Nat × Cls :=
  if d.isFloat then roundNum d mode x else numToInt d mode x

/-- The invalid class of a signalling NaN operand (R34). -/
def sigCls : Num → Cls
  | .nan s => Cls.invalid.on s
  | _ => 0#6

/-- Conversion of an encoding from type s to type d (R35). -/
def convert (s d : ETag) (mode : RMode) (n : Nat) : Nat × Cls :=
  if s.isFloat then
    let x := decodeFloat s n
    let r := numTo d mode x
    (r.1, r.2 ||| sigCls x)
  else if d.isFloat then roundNum d mode (intNum (decodeInt s n))
  else satEnc d (decodeInt s n)

/-- The exact widening of R117: a NaN keeps its quiet or signalling status, every E4M3 NaN is quiet. -/
def widen (s d : ETag) (n : Nat) : Nat :=
  if s = d then n
  else if s.isFloat then
    match decodeFloat s n with
    | .nan true => ((2 ^ (fmtOf d).eb - 1) <<< (fmtOf d).m) + 1
    | .nan false => canonNaN d
    | x => (roundNum d .rtz x).1
  else truncInt d (decodeInt s n)

/-- The sign of an exact zero result whose terms are not all zeros of one sign (R33). -/
def zeroSign (mode : RMode) : Bool := mode == .rdn

/-- Exact negation. -/
def negNum : Num → Num
  | .nan s => .nan s
  | .inf n => .inf (!n)
  | .fin n m e => .fin (!n) m e

/-- Exact product, with Invalid for 0 × ∞ (R34). -/
def mulNum : Num → Num → Num × Cls
  | .nan _, _ => (.nan false, 0#6)
  | _, .nan _ => (.nan false, 0#6)
  | .inf a, .inf b => (.inf (a != b), 0#6)
  | .inf a, .fin b m _ => if m = 0 then (.nan false, Cls.invalid) else (.inf (a != b), 0#6)
  | .fin a m _, .inf b => if m = 0 then (.nan false, Cls.invalid) else (.inf (a != b), 0#6)
  | .fin a m e, .fin b n f => (.fin (a != b) (m * n) (e + f), 0#6)

/-- The signed integer m × 2^(e − g). -/
def scaled (neg : Bool) (m : Nat) (e g : Int) : Int :=
  let v : Int := (m <<< (e - g).toNat : Nat)
  if neg then -v else v

/-- Exact sum, with Invalid for +∞ and −∞ (R34) and the zero signs of R33. -/
def addNum (mode : RMode) : Num → Num → Num × Cls
  | .nan _, _ => (.nan false, 0#6)
  | _, .nan _ => (.nan false, 0#6)
  | .inf a, .inf b => if a = b then (.inf a, 0#6) else (.nan false, Cls.invalid)
  | .inf a, .fin _ _ _ => (.inf a, 0#6)
  | .fin _ _ _, .inf b => (.inf b, 0#6)
  | .fin a m e, .fin b n f =>
    if m = 0 ∧ n = 0 then (.fin (if a = b then a else zeroSign mode) 0 0, 0#6)
    else
      let g := if e ≤ f then e else f
      let s := scaled a m e g + scaled b n f g
      if s = 0 then (.fin (zeroSign mode) 0 0, 0#6) else (.fin (decide (s < 0)) s.natAbs g, 0#6)

/-- a + b in format t, rounded once. -/
def fAdd (t : ETag) (mode : RMode) (a b : Nat) : Nat × Cls :=
  let x := decodeFloat t a
  let y := decodeFloat t b
  let s := addNum mode x y
  let r := roundNum t mode s.1
  (r.1, r.2 ||| s.2 ||| sigCls x ||| sigCls y)

/-- The encoding with its sign bit inverted. -/
def flipSign (t : ETag) (n : Nat) : Nat := n ^^^ 2 ^ (t.width - 1)

/-- a × b in format t, rounded once. -/
def fMul (t : ETag) (mode : RMode) (a b : Nat) : Nat × Cls :=
  let x := decodeFloat t a
  let y := decodeFloat t b
  let s := mulNum x y
  let r := roundNum t mode s.1
  (r.1, r.2 ||| s.2 ||| sigCls x ||| sigCls y)

/-- ±(a × b) ± c in format t, rounded once (R139). -/
def fFma (t : ETag) (mode : RMode) (negP negC : Bool) (a b c : Nat) : Nat × Cls :=
  let x := decodeFloat t a
  let y := decodeFloat t b
  let z := decodeFloat t c
  let p := mulNum x y
  let s := addNum mode (if negP then negNum p.1 else p.1) (if negC then negNum z else z)
  let r := roundNum t mode s.1
  (r.1, r.2 ||| s.2 ||| p.2 ||| sigCls x ||| sigCls y ||| sigCls z)

/-! ### The exact accumulator -/

/-- The state of an exact accumulator (R36). -/
structure Acc where
  a : BitVec 640
  nf : Bool
  pf : Bool
  mf : Bool
  vf : Bool
  zf : Bool
  deriving DecidableEq, Repr

/-- The state of ExactLoad(ea, −0), which eaclr gives (R38). -/
def Acc.clear : Acc := ⟨0#640, false, false, false, false, true⟩

/-- t × 2^320 for a term of the accumulator's range (R36). -/
def fixedPoint (neg : Bool) (m : Nat) (e : Int) : Int := scaled neg m e (-320)

/-- ExactLoad of R38 from a value. -/
def Acc.load : Num → Acc
  | .nan _ => ⟨0#640, true, false, false, false, false⟩
  | .inf false => ⟨0#640, false, true, false, false, false⟩
  | .inf true => ⟨0#640, false, false, true, false, false⟩
  | .fin neg m e => if m = 0 then ⟨0#640, false, false, false, false, neg⟩
      else ⟨BitVec.ofInt 640 (fixedPoint neg m e), false, false, false, false, false⟩

/-- The addition of an exact term, +0 or finite nonzero (the last branch of ExactAdd, R38). -/
def Acc.addInt (ea : Acc) (t : Int) : Acc :=
  let s := ea.a.toInt + t
  { ea with zf := false, vf := ea.vf || decide (s < -(2 ^ 639) ∨ 2 ^ 639 ≤ s), a := BitVec.ofInt 640 s }

/-- ExactAdd of R38 for a term given as a value with the classes of its operands. -/
def Acc.addTerm (ea : Acc) (anyNaN : Bool) (p : Num × Cls) (sig : Cls) : Acc × Cls :=
  if anyNaN then ({ ea with nf := true }, sig)
  else match p.1 with
    | .nan _ => ({ ea with nf := true }, p.2 ||| sig)
    | .inf false => ({ ea with pf := true }, sig)
    | .inf true => ({ ea with mf := true }, sig)
    | .fin neg m e => if m = 0 ∧ neg = true then (ea, sig) else (ea.addInt (fixedPoint neg m e), sig)

/-- Whether a value is a NaN. -/
def Num.isNaN : Num → Bool
  | .nan _ => true
  | _ => false

/-- ExactAdd of a single value (R38). -/
def Acc.add1 (ea : Acc) (x : Num) : Acc × Cls := ea.addTerm x.isNaN (x, 0#6) (sigCls x)

/-- ExactAdd of a product (R38). -/
def Acc.add2 (ea : Acc) (x y : Num) : Acc × Cls :=
  ea.addTerm (x.isNaN || y.isNaN) (mulNum x y) (sigCls x ||| sigCls y)

/-- NaNOrZero of R39. -/
def nanOrZero (d : ETag) : Nat := if d.isFloat then canonNaN d else 0

/-- ExactRead of R39. -/
def Acc.read (ea : Acc) (d : ETag) (mode : RMode) : Nat × Cls :=
  if ea.vf then (nanOrZero d, Cls.invalid)
  else if ea.nf then (nanOrZero d, Cls.invalid.on (!d.isFloat))
  else if ea.pf && ea.mf then (nanOrZero d, Cls.invalid)
  else if ea.pf then numTo d mode (.inf false)
  else if ea.mf then numTo d mode (.inf true)
  else
    let v := ea.a.toInt
    if v = 0 then numTo d mode (.fin (ea.zf || mode == .rdn) 0 0)
    else if d.isInt ∧ v % 2 ^ 320 = 0 then satEnc d (v / 2 ^ 320)
    else numTo d mode (.fin (decide (v < 0)) v.natAbs (-320))

/-- The flags word of the memory image (R37). -/
def Acc.flagBits (ea : Acc) : Nat :=
  ea.nf.toNat + 2 * ea.pf.toNat + 4 * ea.mf.toNat + 8 * ea.vf.toNat + 16 * ea.zf.toNat

/-! ### Block quantisation and CE8 -/

/-- The least s with amax ≤ 448 × 2^s for amax = m × 2^e, m nonzero (R44). -/
def blockScale (m : Nat) (e : Int) : Int :=
  -- amax ≤ 7 × 2^(s+6): with L bits in m, s + 6 ≥ e + L − 3, plus one when the top bits exceed 7
  let s0 : Int := e + bitLen m - 3 - 6
  let k := bitLen m
  let fits : Bool := if k ≤ 3 then decide (m <<< (3 - k) ≤ 7) else decide (m ≤ 7 <<< (k - 3))
  if fits then s0 else s0 + 1

/-- Whether |m × 2^e| exceeds |n × 2^f|. -/
def magLt (n : Nat) (f : Int) (m : Nat) (e : Int) : Bool :=
  let g := if e ≤ f then e else f
  decide (n <<< (f - g).toNat < m <<< (e - g).toNat)

/-- The greatest magnitude of a group, none when an element is a NaN or an infinity (R44). -/
def amaxOf : List Num → Option (Nat × Int)
  | [] => some (0, 0)
  | .fin _ m e :: rest =>
    match amaxOf rest with
    | some (n, f) => some (if magLt n f m e then (m, e) else (n, f))
    | none => none
  | _ :: _ => none

/-- Block quantisation of one group (R44): the scale byte, the elements' codes, each with its classes. Elements that
count as +0 are given as +0. -/
def quantGroup (mode : RMode) (xs : List Num) : Nat × List (Nat × Cls) :=
  match amaxOf xs with
  | none => (255, xs.map fun _ => (0, 0#6))
  | some (m, e) =>
    let s : Int := if m = 0 then 0 else blockScale m e
    let b : Int := 127 + (if s < -127 then -127 else if 127 < s then 127 else s)
    (b.toNat, xs.map fun x =>
      match x with
      | .fin n m e => roundNum .e4m3 mode (.fin n m (e + 127 - b))
      | _ => (0, 0#6))

/-- Dequantisation of one E4M3 element (R45). -/
def dequant (d : ETag) (mode : RMode) (b q : Nat) : Nat × Cls :=
  if b = 255 then (canonNaN d, 0#6)
  else match decodeFloat .e4m3 q with
    | .fin n m e => roundNum d mode (.fin n m (e + b - 127))
    | _ => (canonNaN d, 0#6)

/-- The bits of one element's CE8 code, first bit first (R47). -/
def ce8Code (k q : Nat) : List Bool :=
  let d := 15 - (q >>> 3) % 16
  [q.testBit 7, q.testBit 0, q.testBit 1, q.testBit 2] ++ List.replicate (d >>> k) true ++ [false]
    ++ (List.range k).map fun i => d.testBit i

/-- The number of bits of the codes of a group under k (R47). -/
def ce8Bits (k : Nat) (qs : List Nat) : Nat := qs.foldl (fun n q => n + 5 + k + ((15 - (q >>> 3) % 16) >>> k)) 0

/-- The k that the encoder chooses (R48). -/
def ce8K (qs : List Nat) : Nat :=
  let c := [1, 2, 3].foldl (fun best k => if ce8Bits k qs < best.2 then (k, ce8Bits k qs) else best) (0, ce8Bits 0 qs)
  c.1

/-- A list of bits, first bit least significant, as a number. -/
def bitsToNat (bs : List Bool) : Nat := bs.foldr (fun b n => 2 * n + b.toNat) 0

/-- The CE8 block of a group as one number of 32 × words bits, and its length in words (R46, R48). -/
def ce8Encode (b : Nat) (qs : List Nat) : Nat × Nat :=
  let k := ce8K qs
  let words := (16 + ce8Bits k qs + 31) / 32
  (b + (k <<< 8) + ((words - 1) <<< 10) + (bitsToNat (qs.flatMap (ce8Code k)) <<< 16), words)

/-- A unary run of at most 15 >> k ones from bit p; none when it passes that length (R47, R49). -/
def ce8Unary (block limit : Nat) : Nat → Nat → Nat → Option (Nat × Nat)
  | 0, _, _ => none
  | fuel + 1, p, q =>
    if limit < q then none
    else if block.testBit p then ce8Unary block limit fuel (p + 1) (q + 1) else some (q, p + 1)

/-- The element codes of a block from bit p (R49). -/
def ce8Elems (block k : Nat) : Nat → Nat → Option (List Nat × Nat)
  | 0, p => some ([], p)
  | n + 1, p =>
    match ce8Unary block 15 17 (p + 4) 0 with
    | none => none
    | some (q, p') =>
      let d := (q <<< k) + (block >>> p') % 2 ^ k
      if 15 < d then none
      else
        let code := (((block >>> p) % 2) <<< 7) + ((15 - d) <<< 3) + (block >>> (p + 1)) % 8
        match ce8Elems block k n (p' + k) with
        | none => none
        | some (cs, e) => some (code :: cs, e)

/-- A decoded CE8 block: scale byte, 32 codes, whether it was malformed, and its length in words (R49). -/
def ce8Decode (block : Nat) : Nat × List Nat × Bool × Nat :=
  let b := block % 256
  let k := (block >>> 8) % 4
  let words := (block >>> 10) % 64 + 1
  let bad := (255, List.replicate 32 0x7F, true, words)
  match ce8Elems (block % 2 ^ (32 * words)) k 32 16 with
  | none => bad
  | some (cs, e) =>
    if 32 * words < e ∨ e ≤ 32 * (words - 1) ∨ (block % 2 ^ (32 * words)) >>> e ≠ 0 then bad else (b, cs, false, words)

end Sys2Proof.Machine
end

