-- ==== Sys2Proof/Machine/State.lean ====
section
/-!
DEFINITION. The state of one C880-P package as the spec gives it, one strand at a time in `hart`, plain data
throughout; the reasons a step can stop; and the state right after device reset.
-/
namespace Sys2Proof.Machine

/-- Reasons the machine stops. -/
inductive Fault where
  /-- Raised by step: boot found no acceptable controller image, SVST.state is FAILED and nothing else runs (R398).
  Safe: the spec runs nothing after it. -/
  | bootFailed
  deriving DecidableEq, Repr

/-- Reasons a step has no meaning. -/
inductive Refusal where
  /-- Raised by an arm of exec whose instruction has no meaning yet. Safe. -/
  | notModelled (mnemonic : String)
  /-- Raised by an arm of exec for a step of an agent that the rules do not enable in this state, such as the end of a
  command that does not exist. Safe: no device takes such a step. -/
  | stepNotEnabled (why : String)
  /-- Raised by step when the agenda names an instruction of a strand as a step of another agent; strands run their
  instructions from memory only. Safe. -/
  | notAnEvent
  /-- Raised by step when no strand is placed and the agenda is empty: the device waits for its host. Safe. -/
  | idle
  deriving DecidableEq, Repr

/-- Privilege modes (R78). -/
inductive Mode where
  | user | supervisor
  deriving DecidableEq, Repr

/-- Supervisor CSRs of R80 and the count of retired instructions; time reads the timebase and cycle is a free value
(log 7). -/
structure Csrs where
  sstatus : Word
  stvec : Word
  sscratch : Word
  sepc : Word
  scause : Word
  stval : Word
  scounteren : BitVec 32
  senvcfg : Word
  instret : Word
  deriving DecidableEq, Repr

/-- The granted shape of a tile (R83). -/
structure TShape where
  rows : Nat
  cols : Nat
  ty : ETag
  deriving DecidableEq, Repr

/-- A chaining queue: elements, oldest first, each with its end-of-run mark, and their tag (R77, R182). -/
structure Queue where
  elems : List (Word × Bool)
  tag : ETag
  deriving DecidableEq, Repr

/-- A timeline: tickets given out, the completion count, and tickets above it that ended out of order (R77, R315). -/
structure Timeline where
  issued : Word
  completed : Word
  early : List Nat
  deriving DecidableEq, Repr

/-- A stage entry of a chain record (R204). -/
structure StageEnt where
  inst : BitVec 32
  selA : Nat
  selB : Nat
  selC : Nat
  selD : Nat
  lanes : Nat
  rep : Nat
  flags : Nat
  deriving DecidableEq, Repr

/-- A port entry (R206); dim holds count and stride of each used dimension. -/
structure PortEnt where
  base : Nat
  format : Nat
  dir : Nat
  mode : Nat
  dim : List (Nat × Int)
  deriving DecidableEq, Repr

/-- A link entry (R207). -/
structure LinkEnt where
  dir : Nat
  peer : Nat
  pstr : Nat
  slots : Nat
  deriving DecidableEq, Repr

/-- A chain record as read by chcfg (R203). -/
structure ChainRec where
  fcls : Nat
  tmp : Bool
  stages : List StageEnt
  ports : List PortEnt
  links : List LinkEnt
  deriving DecidableEq, Repr

/-- Progress and grant of a stage: counts since chcfg (R205), end flags (R215, R217), units performed in this run
(R217), types fixed at chcfg for its sources A, B and C, its operation and its result (R210), owned lane groups held (R213):
none under a temporal grant, and none for a stage that the nodes of a stack carry out (R362). -/
structure StageSt where
  produced : Nat
  consA : Nat
  consB : Nat
  consC : Nat
  ended : Bool
  endA : Bool
  endB : Bool
  inRun : Nat
  srcTys : List ETag
  opTy : ETag
  resTy : ETag
  groups : List Nat
  deriving DecidableEq, Repr

/-- A port's cursor; for CE8 the word offset of the block in hand and what is left of it, or the elements of an open group;
values read ahead (R214, R261). -/
structure PortSt where
  cursor : Nat
  word : Nat
  pend : List Nat
  ahead : List Nat
  deriving DecidableEq, Repr

/-- A receive slot of a lane link: elements of one tag (R220). -/
structure Slot where
  tag : ETag
  elems : List (Word × Bool)
  deriving DecidableEq, Repr

/-- A link of a chain: elements sent, granted slots, whether its lane-link port is held, the bound peer as strand, handle
and link (R326), the received slots, elements sent and not yet arrived, cut markers not yet received; await says that the
peer's answer to an AUTO marker is still to come (R223). The mark 8 is the notice that the peer chain was freed during this run
(R218, R222), and freedAt the strand's count of retired instructions then. late holds what has arrived while the chain stands in a claim image or a saved context. -/
structure LinkSt where
  sent : Nat
  granted : Nat
  port : Bool
  peer : Option (Nat × Nat × Nat)
  rx : List Slot
  wire : List (ETag × Word × Bool)
  marks : List Nat
  await : Bool
  late : List (ETag × Word × Bool)
  freedAt : Nat
  deriving DecidableEq, Repr

/-- States of a chain handle (R216). -/
inductive ChState where
  | free | rejected | ready | running | broken
  deriving DecidableEq, Repr

/-- A chain handle and all the state of its chain (R216 to R226). A RUNNING chain whose cause is 7 has been cut with AUTO
and is not yet re-formed (R222). -/
structure Chain where
  state : ChState
  reject : Nat
  rcd : ChainRec
  raw : List Byte
  vlc : Nat
  consts : List Word
  rm : Nat
  user : Bool
  tgrant : Bool
  stages : List StageSt
  ports : List PortSt
  links : List LinkSt
  last : Option Word
  quota : Nat
  summary : BitVec 7
  first : Word
  faultAt : Word
  cause : Nat
  deriving DecidableEq, Repr

/-- One entry of the strip store buffer: a 4-byte word with its nibble enables; va is the virtual address that the store
named, span the size in bytes of the page that translated it and die the die on which it did, 8 where that is not known (R339), and cont marks the later words of one access (R280,
R285). -/
structure Held where
  slice : Bool
  va : Nat
  span : Nat
  die : Nat
  addr : Nat
  data : BitVec 32
  en : BitVec 8
  cont : Bool
  deriving DecidableEq, Repr

/-- A strip checkpoint (R279). -/
structure Checkpoint where
  pc : Word
  x : Vector Word 32
  xmask : BitVec 32
  emask : BitVec 16384
  ea : Vector Acc 8
  deriving DecidableEq, Repr

/-- The strip of a strand (R279 to R282). rewinds is 0, 1, or 2 between a rewind and its vshape (log 12). -/
structure Strip where
  rewindable : Bool
  rewinds : Nat
  checkpoint : Option Checkpoint
  buffer : List Held
  deriving DecidableEq, Repr

/-- A pending wait (R232): the instruction, its expiry, whether that was clamped, the rd value read at issue, the met
elements of vwait, a number that the instruction keeps, and by number what it still waits for: the old values and classes
of a vector atomic's elements (R170), the elements that the strand's output ports owe a sync (R264), the size of the page of a
translated access (R339), or the address that a tlbinv names. -/
structure PendingWait where
  instr : Instr
  expiry : Nat
  clamped : Bool
  rdVal : Word
  met : List Nat
  token : Nat
  due : List (Nat × Nat × Cls)
  deriving DecidableEq, Repr

/-- An uncorrectable word of the strand's storage: its kind and number as src and idx of R283, and which word it is: the
32-bit word of a register, mask or tile (R57, R190), the element of a queue, 0 elsewhere. -/
structure BadWord where
  src : Nat
  idx : Nat
  off : Nat
  deriving DecidableEq, Repr

/-- Where a strand stands in its life (R382, R387). -/
inductive StrandStatus where
  | unplaced | running | saving | saved | ended
  deriving DecidableEq, Repr

/-- A channel of a Flaset image as the actor that fires sees it under a queue's name (R380): its number, whether it is an input,
the tokens that a firing moves on it, their type, and how many it has moved. -/
structure Conduit where
  chan : Nat
  input : Bool
  rate : Nat
  ty : ETag
  moved : Nat
  deriving DecidableEq, Repr

/-- Where a strand that runs actors of a Flaset image stands (R378 to R380): the address of the schedule between two firings, that of
the closing ret of the body that fires, the period count once it is read, the firings that it has ended, the actor that fires with its channels, and the first channel that a
firing has broken the rates or types of. -/
structure Firing where
  home : Word
  close : Word
  periods : Option Nat
  turn : Nat
  actor : Option Nat
  queues : List Conduit
  broken : Option Nat
  deriving DecidableEq, Repr

/-- A strand: its context (R88), its placement (R84) and what the Shutter keeps of it. kept and keptBad hold, while claimed,
the chains that stand in the claim image, and the uncorrectable words with the offsets of the image's words that hold them (log 13). watch holds the physical base and
length of each src-3 watch (R287); hit is the precise hit of the instruction in progress with its element, none between
instructions; firing is there in a launch of a Flaset image. -/
structure Strand where
  sid : Nat
  launch : Nat
  idx : Nat
  nstr : Nat
  status : StrandStatus
  place : Place
  lown : Nat
  root : Nat
  asid : Nat
  claimVa : Nat
  copies : Nat × Nat
  saveSeq : Nat
  pc : Word
  npc : Word
  x : Vector Word 32
  mode : Mode
  csr : Csrs
  vl : Nat
  wid : Nat
  rgf : Bool
  vsta : Nat
  emask : BitVec 16384
  cls : Nat
  rm : Nat
  stripmask : BitVec 32
  wdef : Word
  wceil : Nat
  estep : Bool
  wpt : Vector Word 4
  watch : List (Nat × Nat × Nat)
  v : Vector (BitVec 65536) 32
  vtag : Vector ETag 32
  k : Vector (BitVec 16384) 8
  m : Vector (BitVec 262144) 8
  tshape : Vector TShape 8
  q : Vector Queue 8
  ea : Vector Acc 8
  c : Vector Chain 4
  tl : Vector Timeline 4
  slices : List Host.Cell
  badSlice : List Nat
  bad : List BadWord
  sliced : Bool
  strip : Strip
  claimed : Bool
  kept : List Chain
  keptBad : List (BadWord × List Nat)
  wait : Option PendingWait
  cuts : Vector (Option (Nat × Word)) 4
  hits : Vector (Option Word) 4
  step : Option Word
  hit : Option (Nat × Word)
  firing : Option Firing
  deriving DecidableEq, Repr

/-- Holding strand and kind of a link at a home (R317). -/
structure LinkEntry where
  line : Nat
  sid : Nat
  vector : Bool
  deriving DecidableEq, Repr

/-- A cached line: core number, identifier, line address and bytes (R86, R87, R342). -/
structure CacheLine where
  core : Nat
  asid : Nat
  line : Nat
  bytes : List Byte
  deriving DecidableEq, Repr

/-- The translation caches: a core's TLB, a cluster's TLB, and the table pointers that the walkers of a die keep (R337). -/
inductive TlbSite where
  | core (core : Nat)
  | cluster (die cluster : Nat)
  | walker (die : Nat)
  deriving DecidableEq, Repr

/-- An entry held by a translation cache (R337): the level of the table that it was read from, the base of what it maps, and
its word. -/
structure TlbEntry where
  site : TlbSite
  asid : Nat
  level : Nat
  va : Nat
  entry : Nat
  deriving DecidableEq, Repr

/-- A core's partition and health (R67, R70, R62, R345); portHolder names sid and handle for each of N, E, S, W (R69). -/
structure CoreInfo where
  die : Nat
  cluster : Nat
  core : Nat
  n0 : Nat
  n1 : Nat
  lgen : BitVec 8
  fallen : BitVec 8
  retired : Bool
  spareUsed : BitVec 8
  checks : Vector (BitVec 5) 8
  portHolder : List (Nat × Nat × Nat)
  deriving DecidableEq, Repr

/-- Kinds of gather/scatter command (R304). -/
inductive EngKind where
  | copy | gather | scatter | fill | cvt
  deriving DecidableEq, Repr

/-- An engine descriptor (R303). -/
structure EngDesc where
  sbase : Nat
  dbase : Nat
  xbase : Nat
  rcd : Nat
  sfmt : Nat
  dfmt : Nat
  dims : Nat
  flags : Nat
  dim : List (Nat × Int × Int)
  deriving DecidableEq, Repr

/-- A fabric group as read at issue (R406). -/
structure Group where
  tag : Nat
  self : Nat
  members : List (Nat × Nat)
  deriving DecidableEq, Repr

/-- An fput or fget descriptor (R410). -/
structure RemDesc where
  laddr : Nat
  raddr : Nat
  len : Nat
  rcd : Nat
  mem : Nat
  flags : Nat
  fmt : Nat
  deriving DecidableEq, Repr

/-- An fcoll descriptor (R413). -/
structure CollDesc where
  src : Nat
  dst : Nat
  stg : Nat
  rcd : Nat
  op : Nat
  fmt : Nat
  root : Nat
  c : Nat
  seq : Nat
  cdl : Nat
  deriving DecidableEq, Repr

/-- What a command does. -/
inductive CmdBody where
  | engine (kind : EngKind) (d : EngDesc)
  | remote (put : Bool) (d : RemDesc) (g : Group)
  | coll (d : CollDesc) (g : Group)
  deriving DecidableEq, Repr

/-- How a command ended: code, count, cause, where (R311, R412). -/
structure CmdEnd where
  code : Nat
  count : Nat
  cause : Nat
  loc : Nat
  deriving DecidableEq, Repr

/-- A command of an engine or of the fabric engine (R302, R309, R409). next counts elements performed; word and pend
serve CE8 streams; for a collective next is its stage (0 issued, 1 contributed, 2 staged). A tl of 4 or more is that of an earlier
firing of an actor, whose timelines began anew since (R380). -/
structure Cmd where
  id : Nat
  sid : Nat
  launch : Nat
  tl : Nat
  ticket : Nat
  die : Nat
  cluster : Nat
  engine : Nat
  asid : Nat
  root : Nat
  user : Bool
  rm : Nat
  body : CmdBody
  next : Nat
  cls : Cls
  word : Nat
  pend : List Nat
  cancelled : Bool
  fin : Option CmdEnd
  deriving DecidableEq, Repr

/-- The outcome of a collective at the switch (R415): a result, each member's data and the classes, stands until every member has
acknowledged it, and is committed with it. -/
inductive CollOutcome where
  | pending
  | result (data : List (List Word)) (cls : Cls)
  | committed (data : List (List Word)) (cls : Cls)
  | aborted (reason : Nat) (mask : List Nat)
  deriving DecidableEq, Repr

/-- A collective as the switch holds it (R415); late lists the members whose contribution or fault notice arrived after the
decision, and whether that was more than 2^31 sequence numbers after it. -/
structure Collective where
  tag : Nat
  seq : Nat
  op : Nat
  fmt : ETag
  count : Nat
  root : Nat
  n : Nat
  rm : Nat
  cdl : Nat
  expiry : Nat
  got : List (Nat × List Word)
  acks : List Nat
  late : List (Nat × Bool)
  outcome : CollOutcome
  deriving DecidableEq, Repr

/-- What leaves the package on the fabric. -/
inductive FabricMsg where
  | contribution (msg : Contribution)
  | ack (tag seq self : Nat)
  | request (cmd pkg : Nat) (data : List Byte)
  | reply (pkg : Nat) (refused : Bool) (cause loc : Nat) (data : List Byte)
  deriving DecidableEq, Repr

/-- A reel (R242): members and arrivals are strand numbers. -/
structure Reel where
  launch : Nat
  id : Nat
  phase : Nat
  members : List Nat
  arrived : List Nat
  joining : List Nat
  leaving : List Nat
  deriving DecidableEq, Repr

/-- A predecessor of a launch (R373). -/
inductive Pred where
  | launch (id : Nat) (succ : Bool)
  | timeline (t : Nat) (threshold : Nat)
  deriving DecidableEq, Repr

/-- States of a launch (R382). -/
inductive LState where
  | accepted | ready | running | draining | complete
  deriving DecidableEq, Repr

/-- What an actor of a Flaset image keeps from one firing to the next (R380): of x the registers x8, x9 and x18 to x27. -/
structure ActorRegs where
  x : Vector Word 32
  ea : Vector Acc 8
  m : Vector (BitVec 262144) 8
  tshape : Vector TShape 8
  deriving DecidableEq, Repr

/-- The tokens on each channel of a Flaset image that a launch runs, oldest first, and what each actor keeps (R379, R380). -/
structure Flow where
  tokens : List (List Word)
  regs : List ActorRegs
  deriving DecidableEq, Repr

/-- A launch or host copy as the Shutter holds it: its record (R373, R374), what it waits on, its progress; the dies that were
ready when it was placed (R399), whether a consumed error calls for its replay (R390), the tokens of a Flaset image. -/
structure Launch where
  id : Nat
  asid : Nat
  port : Option Nat
  raw : List Byte
  prio : Nat
  safe : Bool
  waiting : List Pred
  state : LState
  accepted : Nat
  order : Nat
  placed : Bool
  loaded : Bool
  started : List Nat
  code : Nat
  reason : Nat
  replays : Nat
  faultIdx : Nat
  scause : Nat
  stval : Word
  dies : BitVec 8
  trigger : Bool
  replaying : Bool
  flow : Option Flow
  deriving DecidableEq, Repr

/-- A resident code object (R375): the bus address and length of the object, the selected image's entries, trap entry and VLMAX
range, a Flaset image's bytes, the pages of its text with each die's copy (R341), the pages of its data; and the acceptance number
from which launches no longer use it, after FLUSHCODE (R369). -/
structure Resident where
  handle : Nat
  object : Nat × Nat
  flaset : Bool
  entries : List Nat
  trap : Nat
  vlLow : Nat
  vlHigh : Nat
  image : List Byte
  text : List (Nat × List Byte)
  copies : List (Nat × Nat)
  data : Nat × Nat
  flushed : Option Nat
  deriving DecidableEq, Repr

/-- A live address space (R370); served counts, for each effective priority, its turns in the present round of R385. -/
structure Space where
  asid : Nat
  roots : List Nat
  codeTable : Nat
  codeCount : Nat
  weight : Nat
  ttable : Nat
  mirror : Nat
  ctxBase : Nat
  ctxLen : Nat
  loadBase : Nat
  loadLen : Nat
  devSeq : Nat
  served : List Nat
  resident : List Resident
  deriving DecidableEq, Repr

/-- A record in a slot of a port: its sequence number, its place and time in the order of acceptance, its address space. -/
structure SlotRec where
  seq : Nat
  order : Nat
  time : Nat
  asid : Nat
  raw : List Byte
  deriving DecidableEq, Repr

/-- A port: record area, PSTAT, filled slots and PBIND (R369, R371, R372). -/
structure Port where
  area : List Byte
  free : Nat
  seq : Nat
  drop : Bool
  slots : List SlotRec
  asid : Nat
  en : Bool
  vec : Nat
  vf : Nat
  deriving DecidableEq, Repr

/-- SVST.state of R402. -/
inductive BootState where
  | boot | safelight | full | failed
  deriving DecidableEq, Repr

/-- Boot, power, attestation and RAS state (R397 to R404): what slots A and B of the flash held when the controller images, and
the fixer images, were verified;
whether the fixer image has been tried; whether the sensors have been read since reset; scDone holds the result of an SCMD
command that has had its effect and is not yet reported. -/
structure Service where
  boot : BootState
  flash : List SignedImage
  fixerFlash : List SignedImage
  controller : Bool
  fixer : Bool
  fixerTried : Bool
  sensed : Bool
  dies : BitVec 8
  hbmStacks : BitVec 16
  deadDies : BitVec 8
  deadStacks : BitVec 16
  deadClusters : List (Nat × Nat)
  half : Bool
  calibrated : Bool
  tripped : Bool
  pwrcap : Nat
  atBusy : Bool
  atArea : Nat
  atResult : Nat
  scBusy : Bool
  scCmd : Word
  scResult : Nat
  scDone : Option Nat
  rasBase : Nat
  rasHead : Nat
  rasDrop : Nat
  rasAck : Nat
  pkg : Nat
  fabEn : Bool
  fabUp : BitVec 18
  fgt : List (Nat × Word)
  deriving DecidableEq, Repr

/-- Control registers of a stack: WMARK and HROW (R367). -/
structure StackRegs where
  stack : Nat
  lo : Nat
  hi : Nat
  thr : Nat
  radius : Nat
  deriving DecidableEq, Repr

/-- A counter of the hot-row tracker (R357). -/
structure RowCounter where
  stack : Nat
  bank : Nat
  row : Nat
  count : Nat
  deriving DecidableEq, Repr

/-- Which permitted outcome an access through a cache takes (R8, R86, R87, R337): read afresh, use a held line, or
read afresh and keep the line. ahead fills the translation caches of the running strand with what a walk of an address reads,
before the access; fillAt fills those of a place for an identifier, before the next step or access. stale lets held entries translate
the accesses that chain ports and agents other than strands make in the next step; it is on while that step runs (R337). late is taken by an instruction that waits for an answer: it has not come yet, but for the first n responses of a
vector atomic (R170, R231). -/
inductive Choice where
  | fresh | held | fill
  | ahead (va : Nat)
  | fillAt (p : Place) (asid va : Nat)
  | stale (on : Bool)
  | late (n : Nat)
  deriving DecidableEq, Repr

/-- Where a physical fault is met: by a lane group at an element group of a vector or matrix instruction of the running strand, at
a unit of a stage of one of its chains, or while it is idle; or in a memory word, whose single-bit error the next step's read corrects
(R301, R355; log 30). -/
inductive UpsetSite where
  | group (egroup : Nat)
  | stage (c stage : Nat)
  | idle (die cluster core group : Nat)
  | word (pa : Nat)
  deriving DecidableEq, Repr

/-- One disagreement of a proof lane with the lane it checks, or a fault of an idle group (R59, R62, R63): the strand, the
site, what the self-test finds (0 transient, 1 a working lane fails, 2 the proof lane fails), the number of the checked
lane; and if the group is lost: the words that the save reads as uncorrectable (a lane-slice word by its place in slices)
and the places of the context copies, a pair for each strand. more says that the same instruction meets the next upset of the list too. -/
structure Upset where
  sid : Nat
  site : UpsetSite
  test : Nat
  lane : Nat
  lost : List BadWord
  copies : List (Nat × Nat)
  more : Bool
  deriving DecidableEq, Repr

/-- A turn of the agenda: a step of another agent, or the next instruction of a strand. -/
inductive Turn where
  | event (i : Instr)
  | run (sid : Nat)
  deriving DecidableEq, Repr

/-- The memory of the package by physical address: HBM and cluster tile memory (R299, R352). Addresses rise strictly and
no entry is 0, which is what an unlisted address reads as (log 2, log 3). -/
abbrev Memory := List Host.Cell

/-- The canonical form of a memory, with every address above lo. -/
def memWfFrom (lo : Nat) : Memory → Bool
  | [] => true
  | (a, b) :: rest => decide (lo ≤ a) && (b != 0#8) && memWfFrom (a + 1) rest

/-- The canonical form of a memory. -/
def Memory.wf (m : Memory) : Bool := memWfFrom 0 m

end Sys2Proof.Machine

namespace Sys2Proof.Machine

/-- The whole package. -/
structure State where
  hart : Strand
  parked : List Strand
  agenda : List Turn
  choices : List Choice
  upsets : List Upset
  swapped : List Nat
  images : List (List Byte × Chain)
  now : Nat
  free : Nat
  nextId : Nat
  mem : Memory
  hostMem : Memory
  poison : List Nat
  suspect : List Nat
  live : List Nat
  links : List LinkEntry
  dcache : List CacheLine
  icache : List CacheLine
  tlb : List TlbEntry
  cores : List CoreInfo
  lostBanks : List (Nat × Nat × Nat)
  lostNodes : List NodeSite
  lostEngines : List (Nat × Nat × Nat)
  lostModules : List Nat
  stackRegs : List StackRegs
  mscLines : List Nat
  writeQueue : List (Nat × Nat × Nat)
  rows : List RowCounter
  refreshed : List (Nat × Nat × Nat)
  cmds : List Cmd
  collectives : List Collective
  fabricOut : List FabricMsg
  reels : List Reel
  launches : List Launch
  nextOrder : Nat
  spaces : List Space
  ports : List Port
  svc : Service
  msix : List (Nat × Nat)
  hostRead : List Byte
  deriving DecidableEq, Repr

/-- A tile without a granted shape (R83). -/
def TShape.none : TShape := ⟨0, 0, .none⟩

/-- An empty queue (R77). -/
def Queue.empty : Queue := ⟨[], .none⟩

/-- A timeline at strand start (R88). -/
def Timeline.start : Timeline := ⟨0#64, 0#64, []⟩

/-- An empty chain record. -/
def ChainRec.empty : ChainRec := ⟨0, false, [], [], []⟩

/-- A FREE chain handle (R216). -/
def Chain.free : Chain :=
  { state := .free, reject := 0, rcd := .empty, raw := [], vlc := 0, consts := [], rm := 0,
    user := true, tgrant := false, stages := [], ports := [], links := [], last := none, quota := 0, summary := 0#7,
    first := 0#64, faultAt := 0#64, cause := 0 }

/-- The strip before the first vshape of a strand: not rewindable, nothing held (R279). -/
def Strip.start : Strip := ⟨false, 0, none, []⟩

/-- Supervisor CSRs at strand start: the privileged specification's reset values, PRESUMED 0 with UXL 2 (R80, R88,
log 6). -/
def Csrs.start : Csrs :=
  { sstatus := 0x200000000#64, stvec := 0#64, sscratch := 0#64, sepc := 0#64, scause := 0#64, stval := 0#64,
    scounteren := 0#32, senvcfg := 0#64, instret := 0#64 }

/-- A strand at strand start (R88), not placed: lown, place, roots and the launch's values are zero until placement. -/
def Strand.start : Strand :=
  { sid := 0, launch := 0, idx := 0, nstr := 0, status := .unplaced, place := ⟨0, 0, 0, 0⟩, lown := 0, root := 0,
    asid := 0, claimVa := 0, copies := (0, 0), saveSeq := 0, pc := 0#64, npc := 0#64, x := Vector.replicate 32 0#64,
    mode := .user, csr := .start, vl := 0, wid := 0, rgf := false, vsta := 0, emask := 0#16384, cls := 0, rm := 0,
    stripmask := 0#32, wdef := 0x40000000#64, wceil := 2 ^ 40, estep := false, wpt := Vector.replicate 4 0#64,
    watch := [], v := Vector.replicate 32 0#65536, vtag := Vector.replicate 32 .none, k := Vector.replicate 8 0#16384,
    m := Vector.replicate 8 0#262144, tshape := Vector.replicate 8 .none, q := Vector.replicate 8 .empty,
    ea := Vector.replicate 8 .clear, c := Vector.replicate 4 .free, tl := Vector.replicate 4 .start, slices := [],
    badSlice := [], bad := [], sliced := false, strip := .start, claimed := false, kept := [], keptBad := [], wait := none,
    cuts := Vector.replicate 4 none, hits := Vector.replicate 4 none, step := none,
    hit := none, firing := none }

/-- A port at device reset (R369, R371). -/
def Port.start : Port :=
  { area := List.replicate 128 0#8, free := 16, seq := 0, drop := false, slots := [], asid := 0, en := false, vec := 0,
    vf := 0 }

/-- The service registers at device reset (R369, R402, R405). -/
def Service.start : Service :=
  { boot := .boot, flash := [], fixerFlash := [], controller := false, fixer := false, fixerTried := false, sensed := false, dies := 0#8, hbmStacks := 0#16, deadDies := 0#8,
    deadStacks := 0#16, deadClusters := [], half := true, calibrated := false, tripped := false, pwrcap := 3800, atBusy := false,
    atArea := 0, atResult := 0, scBusy := false, scCmd := 0#64, scResult := 0, scDone := none, rasBase := 0, rasHead := 0,
    rasDrop := 0, rasAck := 0, pkg := 0, fabEn := false, fabUp := 0#18, fgt := [] }

/-- The package right after device reset: the timebase at 0 (R227), no region live (R358), no address space, no launch
and no strand placed (log 4), SVST in BOOT (R402). -/
def State.reset : State :=
  { hart := .start, parked := [], agenda := [], choices := [], upsets := [], swapped := [], images := [], now := 0, free := 0, nextId := 1, mem := [],
    hostMem := [], poison := [], suspect := [], live := [], links := [], dcache := [], icache := [], tlb := [],
    cores := [], lostBanks := [], lostNodes := [], lostEngines := [], lostModules := [], stackRegs := [], mscLines := [],
    writeQueue := [], rows := [], refreshed := [], cmds := [], collectives := [], fabricOut := [], reels := [],
    launches := [], nextOrder := 1, spaces := [], ports := List.replicate 64 .start, svc := .start, msix := [],
    hostRead := [] }

end Sys2Proof.Machine
end

