-- ==== Sys2Proof/Machine/Ops.lean ====
section
/-!
DEFINITION. The named operations over the machine that the meanings share: memory at its home (R251, R300, R301, R354 to
R367), translation (R329 to R337), the strand's loads and stores with the strip store buffer (R262, R279 to R282), links
(R79, R166, R317), watchpoints (R287), registers, and taking an exception and returning from one (R272, R278).
-/
namespace Sys2Proof.Machine

/-- Why an instruction stops before it completes. -/
inductive Stop where
  /-- A synchronous trap; vsta is written when given (Fault of R22). -/
  | trap (cause : Nat) (tval : Word) (vsta : Option Nat)
  /-- A trap whose stval is the instruction bits: cause 2 (Illegal), 24 (SHAPE) or 25 (TYPE) of R119. -/
  | bits (cause : Nat)
  /-- A consumed uncorrectable error with its stval (R282, R283). -/
  | ue (tval : Word) (vsta : Option Nat)
  /-- The instruction is complete with the effects it has had. -/
  | done
  /-- The instruction waits (R229), or an element step has left it unfinished (R288): the pc stays. -/
  | hold
  /-- The strand has been taken off its core within the instruction. -/
  | switched
  | refuse (r : Refusal)
  | halt (f : Fault)
  deriving DecidableEq, Repr

/-- A step in progress: a state, and a reason to stop that keeps the effects so far. -/
abbrev M := EStateM Stop State

/-- Change the running strand. -/
def modH (f : Strand → Strand) : M Unit := modify fun s => { s with hart := f s.hart }

/-- The running strand. -/
def getH : M Strand := do return (← get).hart

/-- Stop with a trap. -/
def raise (cause : Nat) (tval : Word) : M α := throw (.trap cause tval none)

/-- Fault(cause, e, addr) of R22. -/
def raiseAt (cause e addr : Nat) : M α := throw (.trap cause (BitVec.ofNat 64 addr) (some e))

/-- Illegal() of R101. -/
def illegal : M α := throw (.bits 2)

/-- A shape fault of R119. -/
def shapeFault : M α := throw (.bits 24)

/-- A type fault of R119. -/
def typeFault : M α := throw (.bits 25)

/-- A step that the rules do not enable. -/
def notEnabled (why : String) : M α := throw (.refuse (.stepNotEnabled why))

/-- Continue only when the condition holds, else fail as given. -/
def need (c : Bool) (fail : M Unit) : M Unit := if c then pure () else fail

/-- Run an operation on each element of a list in order. -/
def forEach : List α → (α → M Unit) → M Unit
  | [], _ => pure ()
  | a :: as, f => do f a; forEach as f

/-- Collect the results of an operation on each element of a list in order. -/
def mapEach : List α → (α → M β) → M (List β)
  | [], _ => pure []
  | a :: as, f => do
    let b ← f a
    let bs ← mapEach as f
    return b :: bs

/-- A precise hit that an element's action has met is that element's (R276, R287). -/
def hitAt (e : Nat) (s s' : State) : State :=
  match s.hart.hit, s'.hart.hit with
  | none, some w => { s' with hart := { s'.hart with hit := some (e, w.2) } }
  | _, _ => s'

/-- A fault of an action, or a hit, reported at element e (R22, R276). -/
def atElem (e : Nat) (act : M α) : M α := fun s =>
  match act s with
  | .error (.trap c t none) s' => .error (.trap c t (some e)) (hitAt e s s')
  | .error (.ue t none) s' => .error (.ue t (some e)) (hitAt e s s')
  | .error x s' => .error x (hitAt e s s')
  | .ok a s' => .ok a (hitAt e s s')

/-! ### Sorted sets of numbers and list helpers -/

/-- Insert into a rising list. -/
def setAdd (n : Nat) : List Nat → List Nat
  | [] => [n]
  | a :: as => if n < a then n :: a :: as else if n = a then a :: as else a :: setAdd n as

/-- The numbers lo, lo + 1, …, lo + n − 1. -/
def rangeFrom (lo : Nat) : Nat → List Nat
  | 0 => []
  | n + 1 => lo :: rangeFrom (lo + 1) n

/-- A list entry by position, with a default. -/
def nth (l : List α) (i : Nat) (d : α) : α := (l[i]?).getD d

/-- Replace a list entry by position. -/
def setNth (l : List α) (i : Nat) (a : α) : List α := l.set i a

/-! ### Little-endian bytes (R17) -/

/-- The bytes of a number, least significant first. -/
def toBytes : Nat → Nat → List Byte
  | 0, _ => []
  | n + 1, v => BitVec.ofNat 8 v :: toBytes n (v / 256)

/-- The number of a list of bytes, least significant first. -/
def ofBytes : List Byte → Nat
  | [] => 0
  | b :: bs => b.toNat + 256 * ofBytes bs

/-! ### Bytes of a memory in canonical form -/

/-- The byte at an address: 0 where none is listed (R358, R360; log 2, log 3). -/
def Memory.get : Memory → Nat → Byte
  | [], _ => 0#8
  | (a, b) :: rest, k => if k = a then b else Memory.get rest k

/-- Write one byte, keeping the canonical form. -/
def Memory.put (k : Nat) (v : Byte) : Memory → Memory
  | [] => if v = 0#8 then [] else [(k, v)]
  | (a, b) :: rest =>
    if k < a then (if v = 0#8 then (a, b) :: rest else (k, v) :: (a, b) :: rest)
    else if k = a then (if v = 0#8 then rest else (k, v) :: rest)
    else (a, b) :: Memory.put k v rest

/-- Bytes from an address upward. -/
def Memory.getBytes (m : Memory) (k : Nat) : Nat → List Byte
  | 0 => []
  | n + 1 => m.get k :: Memory.getBytes m (k + 1) n

/-- Bytes from an address upward of a memory whose cells below that address are gone. -/
def runFrom : Nat → Nat → Memory → List Byte
  | 0, _, _ => []
  | n + 1, k, m =>
    match m with
    | [] => 0#8 :: runFrom n (k + 1) []
    | (a, b) :: rest => if a = k then b :: runFrom n (k + 1) rest else 0#8 :: runFrom n (k + 1) m

/-- A long run of bytes of a memory. -/
def Memory.bulk (m : Memory) (k n : Nat) : List Byte := runFrom n k (m.dropWhile fun c => decide (c.1 < k))

/-- The cells that bytes from an address upward list. -/
def cellsOf : Nat → List Byte → Memory
  | _, [] => []
  | k, b :: bs => if b = 0#8 then cellsOf (k + 1) bs else (k, b) :: cellsOf (k + 1) bs

/-- Replace a run of cells of a memory. -/
def Memory.splice (m : Memory) (k n : Nat) (cells : Memory) : Memory :=
  (m.filter fun c => decide (c.1 < k)) ++ cells ++ (m.filter fun c => decide (k + n ≤ c.1))

/-- Write bytes from an address upward, keeping the canonical form. -/
def Memory.putBytes (m : Memory) (k : Nat) (bs : List Byte) : Memory := m.splice k bs.length (cellsOf k bs)

/-- Clear a range of addresses. -/
def Memory.clear (m : Memory) (lo n : Nat) : Memory := m.filter fun c => decide (c.1 < lo) || decide (lo + n ≤ c.1)

/-! ### The physical map (R299, R352) -/

/-- First address of the cluster tile memory windows. -/
def tileBase : Nat := 2 ^ 40
/-- First address of the stack control spaces. -/
def ctlBase : Nat := 2 ^ 41

/-- Whether a bit of a small register is set. -/
def bit (v : BitVec w) (i : Nat) : Bool := v.getLsbD i

/-- Whether an address lies in HBM of a stack that has joined (R352, R398); one that is lost later stays memory, whose
reads consume errors (R366). -/
def inHbm (s : State) (pa : Nat) : Bool :=
  decide (pa < 2 ^ 40) && (bit s.svc.hbmStacks (pa / 2 ^ 36) || s.lostNodes.contains (.stack (pa / 2 ^ 36)))

/-- Whether an address lies in the tile memory of a cluster that is present (R299): its die has joined, or has been lost
after that, and its own self-test has not failed (R398). -/
def inTile (s : State) (pa : Nat) : Bool :=
  let d := (pa / 2 ^ 31) % 8
  let c := (pa / 2 ^ 26) % 32
  decide (tileBase ≤ pa) && decide (pa < tileBase + 2 ^ 34) && decide (c < Config.clusters)
    && (bit s.svc.dies d || s.lostNodes.contains (.cluster d c)) && !s.svc.deadClusters.contains (d, c)

/-- Whether an address lies in the control space of a stack in service (R352, R366). -/
def inCtl (s : State) (pa : Nat) : Bool :=
  decide (ctlBase ≤ pa) && decide (pa < ctlBase + 2 ^ 20) && bit s.svc.hbmStacks ((pa - ctlBase) / 2 ^ 16)

/-- Whether an address lies in memory (R352). -/
def inMemory (s : State) (pa : Nat) : Bool := inHbm s pa || inTile s pa || inCtl s pa

/-- The 2 MiB region of an HBM address, counted over the package (R358). -/
def regionOf (pa : Nat) : Nat := pa / 2 ^ 21

/-- Whether the home of an address is lost: a bank, an update node, a stack (R319, R366). The bank of a line is
PA[11:6], the C880's figure of R300. -/
def lost (s : State) (pa : Nat) : Bool :=
  if pa < 2 ^ 40 then s.lostNodes.contains (.stack (pa / 2 ^ 36))
  else
    let d := (pa / 2 ^ 31) % 8
    let c := (pa / 2 ^ 26) % 32
    s.lostNodes.contains (.cluster d c) || s.lostBanks.contains (d, c, (pa / 64) % 64)

/-- Whether a read of n bytes at an address meets an uncorrectable word, in any of its lines (R301, R355, R319). -/
def readsBad (s : State) (pa n : Nat) : Bool :=
  lost s pa || ((rangeFrom (pa / 64 + 1) ((pa + n - 1) / 64 - pa / 64)).any fun l => lost s (64 * l)) ||
    (s.poison.any fun w => decide (w < pa + n) && decide (pa < w + 8))

/-- Mark every poisoned HBM word that a read of a range meets as suspect (R355, R364). -/
def suspectRead (pa n : Nat) (s : State) : State :=
  let met := s.poison.filter fun w => decide (w < pa + n) && decide (pa < w + 8) && decide (w < 2 ^ 40)
  { s with suspect := met.foldl (fun l w => setAdd w l) s.suspect }

/-- The bytes that a home supplies (R251). -/
def homeBytes (s : State) (pa n : Nat) : List Byte := s.mem.getBytes pa n

/-- The number that a home supplies. -/
def homeRead (s : State) (pa n : Nat) : Nat := ofBytes (homeBytes s pa n)

/-! ### Agents and watchpoint hits -/

/-- Who performs an access (R249, R287). -/
inductive Agent where
  | strand (sid core : Nat)
  | port (sid core : Nat)
  | engine (die cluster n : Nat)
  | ioCopy
  | remote (pkg : Nat)
  | host
  | shutter
  deriving DecidableEq, Repr

/-- Bits [11:0] of coreid (R84). -/
def coreBits (p : Place) : Nat := p.slot + 2 * p.core + 16 * p.cluster + 512 * p.die

/-- The number of a core, coreid bits [11:1]. -/
def coreNo (p : Place) : Nat := coreBits p / 2

/-- The strand as an agent. -/
def Strand.agent (h : Strand) : Agent := .strand h.sid (coreBits h.place)

/-- Fields of an asynchronous hit word: agent kind, package, identity (R287). -/
def agentFields (s : State) (owner : Nat) : Agent → Nat × Nat × Nat
  | .strand sid c => (if sid = owner then 0 else 1, s.svc.pkg, c)
  | .port _ c => (2, s.svc.pkg, c)
  | .engine d c n => (3, s.svc.pkg, n + 2 * c + 64 * d)
  | .ioCopy => (4, s.svc.pkg, 0)
  | .remote p => (5, p, 0)
  | .host => (6, s.svc.pkg, 0)
  | .shutter => (7, s.svc.pkg, 0)

/-- The asynchronous hit word of R287; offset is the hit line's offset in the region. -/
def asyncHit (s : State) (owner n : Nat) (write : Bool) (a : Agent) (offset : Nat) : Word :=
  let f := agentFields s owner a
  BitVec.ofNat 64 (n + 8 * write.toNat + 16 * f.1 + 2 ^ 7 * f.2.1 + 2 ^ 20 * f.2.2 + 2 ^ 32 * ((offset / 64) % 2 ^ 28)
    + 8 * 2 ^ 60)

/-- Record a pending hit of watchpoint n; a hit while one is pending only sets its dropped bit (R275, R287). -/
def Strand.addHit (h : Strand) (n : Fin 4) (w : Word) : Strand :=
  match h.hits.get n with
  | none => { h with hits := h.hits.set n (some w) }
  | some old => { h with hits := h.hits.set n (some (old ||| 4#64)) }

/-- Fields of a watchpoint (R85): base and length of its region. -/
def wptRegion (w : Word) : Nat × Nat :=
  let a := w.toNat % 2 ^ 57 / 64
  if w.getLsbD 5 then
    -- trailing ones of addr give the size 2^(n + 7)
    let rec trail : Nat → Nat → Nat
      | 0, _ => 0
      | f + 1, v => if v % 2 = 1 then trail f (v / 2) + 1 else 0
    let n := trail 51 a
    (a / 2 ^ (n + 1) * 2 ^ (n + 1) * 64, 2 ^ (n + 7))
  else (a * 64, 64)

/-- src of a watchpoint (R85). -/
def wptSrc (w : Word) : Nat := w.toNat % 4

/-- Whether two byte ranges overlap. -/
def overlaps (a n b m : Nat) : Bool := decide (a < b + m) && decide (b < a + n)

/-- The src-3 hits of one strand for a write performed at its home (R287). -/
def Strand.watchWrite (s : State) (a : Agent) (pa n : Nat) (h : Strand) : Strand :=
  h.watch.foldl (fun h w =>
    let i : Fin 4 := ⟨w.1 % 4, Nat.mod_lt _ (by decide)⟩
    let reg := h.wpt.get i
    if wptSrc reg = 3 && reg.getLsbD 3 && overlaps pa n w.2.1 w.2.2 then
      h.addHit i (asyncHit s h.sid i.1 true a ((if pa < w.2.1 then w.2.1 else pa) - w.2.1))
    else h) h

/-! ### Writes at the home -/

/-- The 64-byte lines that a range touches. -/
def linesOf (pa n : Nat) : List Nat := (rangeFrom (pa / 64) ((pa + n - 1) / 64 + 1 - pa / 64)).map (64 * ·)

/-- Clear every link on the lines of a range (R79, R166, R316). -/
def clearLinks (s : State) (pa n : Nat) : State :=
  { s with links := s.links.filter fun l => !overlaps pa n l.line 64 }

/-- Replace bytes of a cached line by the bytes written (R87, R262). -/
def CacheLine.update (l : CacheLine) (pa : Nat) (bs : List Byte) : CacheLine :=
  { l with bytes := (rangeFrom 0 64).map fun i =>
      let a := l.line + i
      if pa ≤ a ∧ a < pa + bs.length then nth bs (a - pa) 0#8 else nth l.bytes i 0#8 }

/-- A write of bytes applied by their home: contents, poison (R301, R355), live region (R360), links, the writing
core's cached line (R262), watchpoints (R287). A write to a lost home is discarded (R319, R366). -/
def homeWrite (a : Agent) (pa : Nat) (bs : List Byte) (s : State) : State :=
  if bs = [] then s
  else if lost s pa then s
  else
    let n := bs.length
    let regions := rangeFrom (regionOf pa) (regionOf (pa + n - 1) + 1 - regionOf pa)
    let s := { s with
      mem := s.mem.putBytes pa bs
      poison := s.poison.filter fun w => !(decide (pa ≤ w) && decide (w + 8 ≤ pa + n))
      live := if pa < 2 ^ 40 then regions.foldl (fun l g => setAdd g l) s.live else s.live
      dcache := match a with
        | .strand _ c => s.dcache.map fun l =>
            if l.core = c / 2 ∧ overlaps pa n l.line 64 = true then l.update pa bs else l
        | _ => s.dcache }
    let s := clearLinks s pa n
    { s with hart := s.hart.watchWrite s a pa n, parked := s.parked.map fun h => h.watchWrite s a pa n }

/-- A write of many bytes: where some of its lines are lost, the others are written line by line. -/
def homeWriteAll (a : Agent) (pa : Nat) (bs : List Byte) (s : State) : State :=
  if (linesOf pa bs.length).any (lost s) then
    (linesOf pa bs.length).foldl (fun s l =>
      homeWrite a (max pa l) ((bs.drop (max pa l - pa)).take (l + 64 - max pa l)) s) s
  else homeWrite a pa bs s

/-! ### Stack control space (R367) -/

/-- The control registers of a stack, at their reset values unless written. -/
def stackReg (s : State) (k : Nat) : StackRegs :=
  match s.stackRegs.find? fun r => r.stack == k with
  | some r => r
  | none => ⟨k, 16, 48, 2048, 1⟩

/-- Set the control registers of a stack. -/
def setStackReg (r : StackRegs) (s : State) : State :=
  { s with stackRegs := r :: (s.stackRegs.filter fun q => q.stack != r.stack) }

/-- A read of the control space of stack k at an offset (R367). -/
def ctlRead (s : State) (k off : Nat) : Word :=
  let r := stackReg s k
  if off = 0 then BitVec.ofNat 64 (k + 64 * 256 + 16 * 65536)
  else if off = 8 then BitVec.ofNat 64 (r.lo + 256 * r.hi)
  else if off = 0x10 then BitVec.ofNat 64 (r.thr + 65536 * r.radius)
  else if off = 0x20 then
    BitVec.ofNat 64 (32768 - (s.live.filter fun g => g / 32768 == k).length)
  else if 0x1000 ≤ off ∧ off < 0x2000 then
    BitVec.ofNat 64 ((rangeFrom 0 64).foldl (fun w i =>
      w + (if s.live.contains (k * 32768 + (off - 0x1000) / 8 * 64 + i) then 2 ^ i else 0)) 0)
  else 0#64

/-- WMARK is written unless lo is not below hi (R367). -/
def ctlWmark (k : Nat) (v : Word) (s : State) : State :=
  let lo := v.toNat % 64
  let hi := v.toNat / 256 % 64
  if lo < hi then setStackReg { stackReg s k with lo := lo, hi := hi } s else s

/-- HROW is written with thr at least 256 and radius 1 or 2 (R367). -/
def ctlHrow (k : Nat) (v : Word) (s : State) : State :=
  let thr := v.toNat % 65536
  let rad := v.toNat / 65536 % 4
  let r := stackReg s k
  setStackReg { r with thr := if thr < 256 then 256 else thr, radius := if rad = 1 ∨ rad = 2 then rad else r.radius } s

/-- A mark of region r of stack k as not live: one write of zeros at the home (R359). -/
def elide (a : Agent) (k r : Nat) (s : State) : State :=
  let base := k * 2 ^ 36 + r * 2 ^ 21
  let n := 2 ^ 21
  let s := { s with
    mem := s.mem.clear base n
    live := s.live.filter (· != regionOf base)
    poison := s.poison.filter fun w => !overlaps w 8 base n
    suspect := s.suspect.filter fun w => !overlaps w 8 base n
    mscLines := s.mscLines.filter fun l => !overlaps l 64 base n
    dcache := match a with
      | .strand _ c => s.dcache.map fun l =>
          if l.core = c / 2 ∧ overlaps base n l.line 64 = true then { l with bytes := List.replicate 64 0#8 } else l
      | _ => s.dcache }
  let s := clearLinks s base n
  { s with hart := s.hart.watchWrite s a base n, parked := s.parked.map fun h => h.watchWrite s a base n }

/-- ELIDE: op 1 on a region of the stack marks it (R367). -/
def ctlElide (a : Agent) (k : Nat) (v : Word) (s : State) : State :=
  if v.toNat / 65536 % 4 = 1 then elide a k (v.toNat % 32768) s else s

/-- A write of a control register that watchpoints of src 3 see at its line (R287). -/
def ctlWatched (a : Agent) (k off : Nat) (s : State) : State :=
  let pa := ctlBase + 2 ^ 16 * k + off
  { s with hart := s.hart.watchWrite s a pa 8, parked := s.parked.map fun h => h.watchWrite s a pa 8 }

/-- A write of the control space of stack k at an offset (R367). -/
def ctlWrite (a : Agent) (k off : Nat) (v : Word) (s : State) : State :=
  ctlWatched a k off (
    if off = 8 then ctlWmark k v s
    else if off = 0x10 then ctlHrow k v s
    else if off = 0x18 then ctlElide a k v s
    else s)

/-! ### Translation (R329 to R335) -/

/-- Kinds of access (R333). -/
inductive Access where
  | fetch | load | store
  deriving DecidableEq, Repr

/-- PageFault causes (R334). -/
def pageCause : Access → Nat
  | .fetch => 12 | .load => 13 | .store => 15

/-- AccessFault causes (R334). -/
def accessCause : Access → Nat
  | .fetch => 1 | .load => 5 | .store => 7

/-- A virtual address is canonical when bits 63 to 57 equal bit 56 (R160). -/
def canonical (va : Nat) : Bool := decide (va < 2 ^ 56) || decide (2 ^ 64 - 2 ^ 56 ≤ va)

/-- Reserved fields of a page-table entry (R331). -/
def pteReserved (e : Nat) : Bool :=
  e.testBit 7 || decide (e / 2 ^ 52 ≠ 0) ||
    (if e.testBit 6 then decide (e / 2 % 32 ≠ 0) || decide (e / 256 % 16 ≠ 0) else e.testBit 2 && !e.testBit 1)

/-- The permission check of R334 at a leaf: the cause of the first condition met. -/
def permission (user : Bool) (k : Access) (e : Nat) : Option Nat :=
  if user && !e.testBit 4 then some (pageCause k)
  else if !user && k == .fetch && e.testBit 4 then some 12
  else if k == .load && !e.testBit 1 then some 13
  else if k == .store && !e.testBit 2 then some 15
  else if k == .fetch && (!e.testBit 3 || e.testBit 5) then some 1
  else none

/-- The physical address and class that a leaf gives (R333). -/
def leafAddress (s : State) (user : Bool) (k : Access) (va e : Nat) : Except Nat (Nat × Bool) :=
  let span := 2 ^ (12 + 2 * (e / 256 % 16))
  let pa := (e / 4096 % 2 ^ 40) * 4096 + va % span
  match permission user k e with
  | some c => .error c
  | none => if inMemory s pa then .ok (pa, e.testBit 5) else .error (accessCause k)

/-- The walk of R333 from level L − 1 down, with the table at a; answers the leaf entry. -/
def walkFrom (s : State) (k : Access) (va : Nat) : Nat → Nat → Except Nat Nat
  | 0, _ => .error (pageCause k)
  | l + 1, a =>
    let at_ := a + 8 * (va / 2 ^ (12 + 9 * l) % 512)
    if !(inHbm s a || inTile s a) then .error (accessCause k)
    else if readsBad s at_ 8 then .error 28
    else
      let e := homeRead s at_ 8
      if !e.testBit 0 || pteReserved e then .error (pageCause k)
      else if e.testBit 6 then
        if l = 0 then .error (pageCause k) else walkFrom s k va l (e / 4096 % 2 ^ 40 * 4096)
      else
        let size := e / 256 % 16
        if 2 * size / 9 ≠ l ∨ (e / 4096 % 2 ^ 40 * 4096) % 2 ^ (12 + 2 * size) ≠ 0 then .error (pageCause k)
        else .ok e

/-- The addresses of the entries that such a walk reads. -/
def walkTrail (s : State) (va : Nat) : Nat → Nat → List Nat
  | 0, _ => []
  | l + 1, a =>
    let at_ := a + 8 * (va / 2 ^ (12 + 9 * l) % 512)
    if !(inHbm s a || inTile s a) then []
    else
      let e := homeRead s at_ 8
      if !readsBad s at_ 8 && e.testBit 0 && !pteReserved e && e.testBit 6
      then at_ :: walkTrail s va l (e / 4096 % 2 ^ 40 * 4096) else [at_]

/-- Translate of R333: the physical address and whether it is device class, or the cause of R334. -/
def translate (s : State) (root : Nat) (user : Bool) (k : Access) (va : Nat) : Except Nat (Nat × Bool) :=
  if !canonical va then .error (pageCause k)
  else match walkFrom s k va 5 root with
    | .error c => .error c
    | .ok e => leafAddress s user k va e

/-- The virtual base of the page that a leaf maps. -/
def leafVa (va e : Nat) : Nat := va / 2 ^ (12 + 2 * (e / 256 % 16)) * 2 ^ (12 + 2 * (e / 256 % 16))

/-- Take the next permitted outcome of an access through a cache (R8); an empty list gives the fresh one, and what stands
there for a translation or an answer stays. -/
def takeChoice : M Choice := do
  let s ← get
  match s.choices with
  | [] => return .fresh
  | .late _ :: _ | .ahead _ :: _ | .fillAt _ _ _ :: _ | .stale _ :: _ => return .fresh
  | c :: cs => set { s with choices := cs }; return c

/-- Whether the answer that an instruction waits for has come: the number of responses before it where it has not (R170,
R231). When it comes is open (R9): it has, unless the next choice says otherwise. -/
def takeAnswer : M (Option Nat) := do
  let s ← get
  match s.choices with
  | .late n :: cs => set { s with choices := cs }; return some n
  | _ => return none

/-- Whether a cached entry covers an address of an identifier. -/
def TlbEntry.covers (t : TlbEntry) (asid va : Nat) : Bool :=
  t.asid == asid && t.va == (if t.entry.testBit 6 then va / 2 ^ (12 + 9 * t.level) else leafVa va t.entry)

/-- The translation caches that serve an agent on a place, nearest first (R337). -/
def sitesOf (p : Place) : List TlbSite := [.core (coreNo p), .cluster p.die p.cluster, .walker p.die]

/-- The entry of the nearest of some caches that covers an address; among the table pointers of a walker, the one nearest the
leaf (R337). -/
def tlbFind (s : State) (sites : List TlbSite) (asid va : Nat) : Option TlbEntry :=
  sites.findSome? fun site =>
    let here := s.tlb.filter fun t => t.site == site && t.covers asid va
    (rangeFrom 0 5).findSome? fun l => here.find? fun t => t.level == l

/-- The valid entries that a walk of an address reads, from level L − 1 down: level and word (R333). -/
def walkEntries (s : State) (k : Access) (va : Nat) : Nat → Nat → List (Nat × Nat)
  | 0, _ => []
  | l + 1, a =>
    match walkFrom s k va (l + 1) a with
    | .error _ => []
    | .ok _ =>
      let e := homeRead s (a + 8 * (va / 2 ^ (12 + 9 * l) % 512)) 8
      (l, e) :: (if e.testBit 6 then walkEntries s k va l (e / 4096 % 2 ^ 40 * 4096) else [])

/-- Whether a leaf gives some access of an address a place. -/
def leafServes (s : State) (va e : Nat) : Bool :=
  [true, false].any fun user => [Access.load, .store, .fetch].any fun k => (match leafAddress s user k va e with
    | .ok _ => true
    | .error _ => false)

/-- Fill the caches of a place with what a walk of an address reads: the leaf into both TLBs, the pointers into the walkers'
cache. A walk that fails fills nothing, nor does a leaf that faults for every access (R337). -/
def fillTranslation (p : Place) (asid root va : Nat) (s : State) : State :=
  { s with tlb := (walkEntries s .load va 5 root).flatMap (fun le =>
      if le.2.testBit 6 then [⟨.walker p.die, asid, le.1, va / 2 ^ (12 + 9 * le.1), le.2⟩]
      else if !leafServes s va le.2 then []
      else [⟨.core (coreNo p), asid, le.1, leafVa va le.2, le.2⟩, ⟨.cluster p.die p.cluster, asid, le.1, leafVa va le.2, le.2⟩])
    ++ s.tlb }

/-- A leaf that has faulted stays in no cache that serves the agent (R337). -/
def dropFaulted (sites : List TlbSite) (asid va : Nat) (s : State) : State :=
  { s with tlb := s.tlb.filter fun t => !(sites.contains t.site && !t.entry.testBit 6 && t.covers asid va) }

/-- Translation from what a cache holds: a leaf as it stands, or a walk that goes on from a table pointer (R337). -/
def translateFrom (s : State) (user : Bool) (k : Access) (va : Nat) (t : TlbEntry) : Except Nat (Nat × Bool) :=
  if !canonical va then .error (pageCause k)
  else if t.entry.testBit 6 then
    match walkFrom s k va t.level (t.entry / 4096 % 2 ^ 40 * 4096) with
    | .error c => .error c
    | .ok e => leafAddress s user k va e
  else leafAddress s user k va t.entry

/-- The entries that the walk of an access reads: all of them, those below a table pointer that a cache holds, or none where it
holds the leaf (R333, R337). -/
def walkReads (s : State) (root va : Nat) (from_ : Option TlbEntry) : List Nat :=
  if !canonical va then []
  else match from_ with
    | none => walkTrail s va 5 root
    | some t => if t.entry.testBit 6 then walkTrail s va t.level (t.entry / 4096 % 2 ^ 40 * 4096) else []

/-- A walk is a read of the running strand: the core's scalar data cache keeps no line of an entry that it has read, so that no
later load returns an older write of it (R257, R336). -/
def State.walked (s : State) (va : Nat) (from_ : Option TlbEntry) : State :=
  { s with dcache := s.dcache.filter fun l =>
      !(l.core == coreNo s.hart.place && (walkReads s s.hart.root va from_).any fun a => overlaps a 8 l.line 64) }

/-- The uncorrectable words among the entries that a walk has read are suspect (R355). -/
def suspectWalk (entries : List Nat) (s : State) : State := entries.foldl (fun s a => suspectRead a 8 s) s

/-- A walk of the running strand's tables for an access that is not made. -/
def State.probed (s : State) (va : Nat) : State := suspectWalk (walkReads s s.hart.root va none) (s.walked va none)

/-- The root of an identifier on a die, as the Shutter holds it (R329). -/
def rootOn (s : State) (asid die : Nat) : Option Nat :=
  (s.spaces.find? fun x => x.asid == asid).bind fun x => x.roots[die]?

/-- Fills ahead of an access, one for each such choice that stands first (R337). -/
def fillsAhead : List Choice → State → List Choice × State
  | .ahead va :: cs, s => fillsAhead cs (fillTranslation s.hart.place s.hart.asid s.hart.root va (s.walked va none))
  | .fillAt p asid va :: cs, s => fillsAhead cs (match rootOn s asid p.die with
      | some root => fillTranslation p asid root va s
      | none => s)
  | cs, s => (cs, s)

/-- Take the fills that stand first (R337). -/
def takeFills : M Unit := modify fun s =>
  let r := fillsAhead s.choices s
  { r.2 with choices := r.1 }

/-- Translation of the running strand's access, through the translation caches as the permitted outcome says (R336, R337). -/
def translateH (k : Access) (va : Nat) : M (Nat × Bool) := do
  takeFills
  let c ← takeChoice
  let s ← get
  let h := s.hart
  let user := h.mode == .user
  let held := if c = .held then tlbFind s (sitesOf h.place) h.asid va else none
  set (s.walked va held)
  match (match held with
    | some t => translateFrom s user k va t
    | none => translate s h.root user k va) with
  | .error cause =>
    if cause = 28 then do
      -- the walk has met an uncorrectable word (R355)
      modify fun s => suspectWalk (walkReads s s.hart.root va held) s
      throw (.ue (BitVec.ofNat 64 va) none)
    else do
      modify (dropFaulted (sitesOf h.place) h.asid va)
      raise cause (BitVec.ofNat 64 va)
  | .ok r =>
    if c = .fill then modify (fillTranslation h.place h.asid h.root va)
    return r

/-! ### Registers -/

/-- Read an x register; x0 reads zero (R73). -/
def Strand.rx (h : Strand) (r : BitVec 5) : Word := if r = 0#5 then 0#64 else h.x.get r.toFin

/-- Write an x register; a write to x0 is discarded (R73). -/
def Strand.wx (h : Strand) (r : BitVec 5) (v : Word) : Strand :=
  if r = 0#5 then h else { h with x := h.x.set r.toFin v }

/-- Read an x register of the running strand. -/
def readX (r : BitVec 5) : M Word := do return (← getH).rx r

/-- Write an x register of the running strand. -/
def writeX (r : BitVec 5) (v : Word) : M Unit := modH fun h => h.wx r v

/-- A status word: code and detail (R234). -/
def status (code detail : Nat) : Word := BitVec.ofNat 64 (code + 256 * (detail % 2 ^ 56))

/-! ### The strip store buffer (R279 to R281) -/

/-- Byte i of a held word with its enabled nibbles laid over a byte. -/
def Held.lay (e : Held) (i : Nat) (b : Byte) : Byte :=
  let d := e.data.toNat / 2 ^ (8 * i) % 256
  let lo := if e.en.getLsbD (2 * i) then d % 16 else b.toNat % 16
  let hi := if e.en.getLsbD (2 * i + 1) then d / 16 else b.toNat / 16
  BitVec.ofNat 8 (lo + 16 * hi)

/-- A byte as the strand's own loads see it: the home's byte with held stores laid over it (R280). -/
def overlayByte (buf : List Held) (slice : Bool) (a : Nat) (b : Byte) : Byte :=
  buf.foldl (fun b e => if e.slice = slice ∧ e.addr = a / 4 * 4 then e.lay (a % 4) b else b) b

/-- Whether held stores cover a byte whole. -/
def coveredByte (buf : List Held) (slice : Bool) (a : Nat) : Bool :=
  let en := buf.foldl (fun (m : Nat × Nat) e =>
    if e.slice = slice ∧ e.addr = a / 4 * 4 then
      ((if e.en.getLsbD (2 * (a % 4)) then 1 else m.1), (if e.en.getLsbD (2 * (a % 4) + 1) then 1 else m.2)) else m) (0, 0)
  en == (1, 1)

/-- The bytes that one held access gives at its place: existing bytes with the enabled nibbles replaced. -/
def Held.bytesOver (e : Held) (old : Nat → Byte) : List (Nat × Byte) :=
  ((rangeFrom 0 4).filter fun i => e.en.getLsbD (2 * i) || e.en.getLsbD (2 * i + 1)).map fun i =>
    (e.addr + i, e.lay i (old (e.addr + i)))

/-- Bytes at rising addresses, gathered into runs. -/
def runsOf : List (Nat × Byte) → List (Nat × List Byte)
  | [] => []
  | (a, b) :: rest =>
    match runsOf rest with
    | (a', bs) :: more => if a' = a + 1 then (a, b :: bs) :: more else (a, [b]) :: (a', bs) :: more
    | [] => [(a, [b])]

/-- The slice key of a lane and offset, and slices as a memory (R54). -/
def sliceKey (lane off : Nat) : Nat := 49152 * lane + off

/-- Write bytes to lane slices; a store to a poisoned word clears the poison (R57). -/
def Strand.putSlice (h : Strand) (k : Nat) (bs : List Byte) : Strand :=
  { h with slices := Memory.putBytes h.slices k bs,
           badSlice := h.badSlice.filter fun w => !overlaps w 4 k bs.length }

/-- Perform one held access at its home or in its slice (R279, R280). -/
def performHeld (es : List Held) (s : State) : State :=
  match es with
  | [] => s
  | e :: _ =>
    if e.slice then
      let bs := es.flatMap fun e => e.bytesOver (Memory.get s.hart.slices)
      (runsOf bs).foldl (fun s r => { s with hart := s.hart.putSlice r.1 r.2 }) s
    else
      let bs := es.flatMap fun e => e.bytesOver (Memory.get s.mem)
      (runsOf bs).foldl (fun s r => homeWrite s.hart.agent r.1 r.2 s) s

/-- Held entries gathered into accesses, in order. -/
def heldAccesses : List Held → List (List Held)
  | [] => []
  | e :: rest =>
    match heldAccesses rest with
    | (f :: fs) :: more => if f.cont then (e :: f :: fs) :: more else [e] :: (f :: fs) :: more
    | other => [e] :: other

/-- Perform every held store in program order (R279 step 1). An uncorrectable word of the buffer is consumed here
(R282). DESIGN CHOICE (log 12): the mark of the word goes with that, and a later commit stores the held value as a good word. -/
def commitStrip : M Unit := do
  let s ← get
  if s.hart.bad.any (·.src == 8) then
    modH fun h => { h with bad := h.bad.filter (·.src != 8) }
    throw (.ue (0xE000000000000008#64) none)
  set ((heldAccesses s.hart.strip.buffer).foldl (fun s es => performHeld es s)
    { s with hart := { s.hart with strip := { s.hart.strip with buffer := [] } } })

/-- An event of R281: commit the buffer and make the strip non-rewindable. -/
def endRewind : M Unit := do
  commitStrip
  modH fun h => { h with strip := { h.strip with rewindable := false } }

/-- The word entries of a store of whole bytes, or of one nibble of a byte. -/
def heldOf (slice : Bool) (a : Nat) (bs : List Byte) : List Held :=
  let words := rangeFrom (a / 4) ((a + bs.length - 1) / 4 + 1 - a / 4)
  words.map fun w =>
    let byte (i : Nat) : Option Byte := if a ≤ 4 * w + i ∧ 4 * w + i < a + bs.length then some (nth bs (4 * w + i - a) 0#8) else none
    { slice := slice, va := 0, span := 0, die := 8, addr := 4 * w,
      data := BitVec.ofNat 32 ((rangeFrom 0 4).foldl (fun n i => n + ((byte i).getD 0#8).toNat * 2 ^ (8 * i)) 0),
      en := BitVec.ofNat 8 ((rangeFrom 0 4).foldl (fun n i => n + (if (byte i).isSome then 3 * 4 ^ i else 0)) 0),
      cont := decide (4 * w > a) }

/-- The word entry of a one-nibble store (R165, R280). -/
def heldNibble (slice : Bool) (a : Nat) (hi : Bool) (v : Nat) : Held :=
  let sh := 8 * (a % 4) + 4 * hi.toNat
  { slice := slice, va := 0, span := 0, die := 8, addr := a / 4 * 4, data := BitVec.ofNat 32 ((v % 16) * 2 ^ sh),
    en := BitVec.ofNat 8 (2 ^ (2 * (a % 4) + hi.toNat)), cont := false }

/-- The number of distinct words that held stores touch (R280). -/
def heldWords (buf : List Held) : Nat :=
  (buf.foldl (fun (l : List (Bool × Nat)) e => if l.contains (e.slice, e.addr) then l else (e.slice, e.addr) :: l) []).length

/-- The size of the page that a leaf maps. -/
def leafSpan (e : Nat) : Nat := 2 ^ (12 + 2 * (e / 256 % 16))

/-- The leaf to which a held entry leads an address, with the size of the part of the address space that the entry covers: the page of
a leaf, all that a table pointer serves (R337). -/
def TlbEntry.leads (t : TlbEntry) (s : State) (va : Nat) : Option (Nat × Nat) :=
  if t.entry.testBit 6 then
    match walkFrom s .store va t.level (t.entry / 4096 % 2 ^ 40 * 4096) with
    | .ok e => some (e, 2 ^ (12 + 9 * t.level))
    | .error _ => none
  else some (t.entry, leafSpan t.entry)

/-- The size of the part of the address space covered by the entries through which the running strand's address reaches a place: the
leaf that a walk finds, and what a cache holds (R331, R337, R339). -/
def pageSpan (s : State) (va pa : Nat) : Nat :=
  let walked := match walkFrom s .store va 5 s.hart.root with
    | .ok e => [(e, leafSpan e)]
    | .error _ => []
  let kept := (s.tlb.filter fun t => (sitesOf s.hart.place).contains t.site && t.covers s.hart.asid va).filterMap fun t => t.leads s va
  (((walked ++ kept).filter fun x => x.1 / 4096 % 2 ^ 40 * 4096 + va % leafSpan x.1 == pa).map (·.2)).foldl max 4096

/-- The entries of a store as the buffer holds them: with the address that the store named, the size of its page, and the die. -/
def heldAs (s : State) (va : Nat) (es : List Held) : List Held :=
  es.map fun e => { e with va := va, die := s.hart.place.die, span := if e.slice then 0 else pageSpan s (va / 4 * 4) ((es.head?.map (·.addr)).getD 0) }

/-- Hold a store at a virtual address, or commit and perform it directly when it would exceed the capacity, the strip is not
rewindable or the strand is in supervisor mode (R280). -/
def holdOrPerform (va : Nat) (es : List Held) : M Unit := do
  let h ← getH
  let direct : M Unit := modify (performHeld es)
  if h.mode = .supervisor then
    if es.any fun e => h.strip.buffer.any fun f => f.slice == e.slice && f.addr == e.addr then endRewind
    direct
  else if h.strip.rewindable then
    if Config.stripWords < heldWords (h.strip.buffer ++ es) then do endRewind; direct
    else modify fun s => { s with hart := { s.hart with
      strip := { s.hart.strip with buffer := s.hart.strip.buffer ++ heldAs s va es } } }
  else direct

/-! ### Watchpoints of the strand's own accesses (R287) -/

/-- The precise hit word of R287. -/
def preciseHit (n : Nat) (write : Bool) (va : Nat) : Word :=
  BitVec.ofNat 64 (n + 8 * write.toNat + va % 2 ^ 57 / 64 * 64 + 0x50 * 2 ^ 57)

/-- Compare an own access of n bytes with each watchpoint of src 1 or 2; the instruction's first hit is kept. -/
def noteAccess (write : Bool) (va n : Nat) : M Unit := do
  let h ← getH
  if h.hit.isNone then
    forEach [0, 1, 2, 3] fun i => do
      let h ← getH
      let w := nth h.wpt.toList i 0#64
      let r := wptRegion w
      if h.hit.isNone && (wptSrc w == 1 || wptSrc w == 2) && (if write then w.getLsbD 3 else w.getLsbD 2)
          && overlaps (va % 2 ^ 57) n r.1 r.2 then
        modH fun h => { h with hit := some (0, preciseHit i write (if va % 2 ^ 57 < r.1 then r.1 else va % 2 ^ 57)) }

/-! ### Loads and stores of the strand -/

/-- Whether the strand's address is mapped to the control space of a stack, for an access of its kind (R367). -/
def ctlMapped (k : Access) (va : Nat) (s : State) : Bool :=
  match translate s s.hart.root (s.hart.mode == .user) k va with
  | .ok r => decide (ctlBase ≤ r.1)
  | .error _ => false

/-- The address checks of an access in their order: canonical, aligned (R79, R161, R238, R241). A misaligned access of a
stack's control space raises an access fault, so the tables are walked for it (R257, R336, R367). -/
def checkAddress (k : Access) (va n : Nat) : M Unit := do
  if !canonical va then raise (pageCause k) (BitVec.ofNat 64 va)
  if va % n ≠ 0 then
    let s ← get
    modify (·.probed va)
    if ctlMapped k va s then raise (accessCause k) (BitVec.ofNat 64 va)
    else raise (if k = .store then 6 else 4) (BitVec.ofNat 64 va)

/-- Translate and reject device-class memory and control space (R161, R238). -/
def translateIdem (k : Access) (va : Nat) : M Nat := do
  let (pa, dev) ← translateH k va
  if dev || decide (ctlBase ≤ pa) then raise (accessCause k) (BitVec.ofNat 64 va)
  return pa

/-- The bytes of an idempotent load at its home under the strip store buffer; a poisoned word that a byte is taken from
is consumed (R280, R282). -/
def ownBytes (pa n va : Nat) : M (List Byte) := do
  let s ← get
  let buf := s.hart.strip.buffer
  let as := rangeFrom pa n
  if as.any fun a => !coveredByte buf false a && readsBad s a 1 then
    set (suspectRead pa n s)
    throw (.ue (BitVec.ofNat 64 va) none)
  return as.map fun a => overlayByte buf false a (s.mem.get a)

/-- Drop the core's scalar data-cache lines of a range (R87); also after an access that bypasses the cache, so that no
later load returns an older write (R257). -/
def dropDcache (pa n : Nat) : M Unit := modify fun s =>
  { s with dcache := s.dcache.filter fun l => !(l.core == coreNo s.hart.place && overlaps pa n l.line 64) }

/-- Bar every line filled so far from the strand's later loads: an acquire (R262). -/
def acquire : M Unit := modify fun s =>
  { s with dcache := s.dcache.filter fun l => l.core != coreNo s.hart.place }

/-- An idempotent load that bypasses the scalar data cache (R87, R162). -/
def bypassLoad (va n : Nat) : M Nat := do
  checkAddress .load va n
  let pa ← translateIdem .load va
  let bs ← ownBytes pa n va
  dropDcache pa n
  noteAccess false va n
  return ofBytes bs

/-- The line of the core's scalar data cache that holds an address (R87). -/
def dcacheFind (s : State) (pa : Nat) : Option CacheLine :=
  s.dcache.find? fun l => l.core == coreNo s.hart.place && l.line == pa / 64 * 64

/-- An access of a stack's control space is of 8 bytes (R367). -/
def needCtlSize (k : Access) (va pa n : Nat) : M Unit := do
  if ctlBase ≤ pa ∧ n ≠ 8 then raise (accessCause k) (BitVec.ofNat 64 va)

/-- A device-class read of control space or memory, performed once; no line that the core's scalar data cache holds of the
place serves a later load (R257, R260, R367). -/
def deviceRead (va pa n : Nat) : M Nat := do
  needCtlSize .load va pa n
  endRewind
  dropDcache pa n
  let s ← get
  if ctlBase ≤ pa then return (ctlRead s ((pa - ctlBase) / 65536) (pa % 65536)).toNat
  else if readsBad s pa n then
    set (suspectRead pa n s)
    throw (.ue (BitVec.ofNat 64 va) none)
  else return homeRead s pa n

/-- Keep the line of an address in the core's scalar data cache as its home holds it now (R87, R262); an uncorrectable line
is not kept. -/
def keepLine (pa : Nat) : M Unit := modify fun s =>
  let line := pa / 64 * 64
  if readsBad s line 64 then s
  else { s with dcache := (⟨coreNo s.hart.place, s.hart.asid, line, homeBytes s line 64⟩ : CacheLine) :: s.dcache }

/-- An idempotent scalar load of n bytes through the scalar data cache: from the held line, or afresh, when an older line goes
so that no later load returns an older write (R87, R257, R262, R280). -/
def cachedLoad (va pa n : Nat) : M Nat := do
  let c ← takeChoice
  let s ← get
  match (if c = .held then dcacheFind s pa else none) with
  | some l =>
    return ofBytes ((rangeFrom pa n).map fun a => overlayByte s.hart.strip.buffer false a (nth l.bytes (a % 64) 0#8))
  | none => do
    let bs ← ownBytes pa n va
    dropDcache pa n
    if c = .fill then keepLine pa
    return ofBytes bs

/-- A scalar load of n bytes from memory that is not device class (R79, R87, R262, R280). -/
def idemRead (va pa n : Nat) : M Nat := do
  if ctlBase ≤ pa then raise 5 (BitVec.ofNat 64 va)
  let v ← cachedLoad va pa n
  noteAccess false va n
  return v

/-- A device-class write, performed once (R260, R367). -/
def deviceWrite (va pa n : Nat) (v : Nat) : M Unit := do
  needCtlSize .store va pa n
  endRewind
  let a := (← getH).agent
  if ctlBase ≤ pa then modify (ctlWrite a ((pa - ctlBase) / 65536) (pa % 65536) (BitVec.ofNat 64 v))
  else modify (homeWrite a pa (toBytes n v))

/-- A scalar store of n bytes (R79, R280). -/
def scalarWrite (va n v : Nat) : M Unit := do
  checkAddress .store va n
  let (pa, dev) ← translateH .store va
  if dev then deviceWrite va pa n v
  else
    if ctlBase ≤ pa then raise 7 (BitVec.ofNat 64 va)
    holdOrPerform va (heldOf false pa (toBytes n v))
  noteAccess true va n

/-- An idempotent store of bytes at a checked and translated address (vector, tile, eamv, chsave; R280). -/
def idemStore (va pa : Nat) (bs : List Byte) : M Unit := do
  holdOrPerform va (heldOf false pa bs)
  noteAccess true va bs.length

/-! ### Links (R79, R166, R317) -/

/-- Remove every link of a strand: a trap, a save (R88, R272). -/
def dropLinks (sid : Nat) (s : State) : State := { s with links := s.links.filter fun l => l.sid != sid }

/-- Set a link at its home, newest first; a new scalar link replaces the strand's previous one (R79). -/
def setLink (line sid : Nat) (vector : Bool) (s : State) : State :=
  { s with links := ⟨line, sid, vector⟩ ::
      (s.links.filter fun l => !(l.sid == sid && l.vector == vector && (l.line == line || !vector))) }

/-- The update node of a line: its stack, or its cluster's window (R316, R363). -/
def nodeOf (line : Nat) : Nat := if line < 2 ^ 40 then line / 2 ^ 36 else 16 + line / 2 ^ 26

/-- The oldest link at a node that is not the newest one of its strand there; links stand newest first (R317). -/
def evictable (node : Nat) (ls : List LinkEntry) : Option LinkEntry :=
  let here := ls.filter fun l => nodeOf l.line == node
  here.reverse.find? fun l =>
    match here.find? fun k => k.sid == l.sid with
    | some k => k != l
    | none => false

/-- Set a link; the node may clear an older one to make room (R317). -/
def newLink (line sid : Nat) (vector : Bool) : M Unit := do
  let c ← takeChoice
  modify fun s =>
    let s := match (if c = .held then evictable (nodeOf line) s.links else none) with
      | some l => { s with links := s.links.erase l }
      | none => s
    setLink line sid vector s

/-- Whether a strand holds a link on a line. -/
def holdsLink (s : State) (line sid : Nat) (vector : Bool) : Bool :=
  s.links.any fun l => l.line == line && l.sid == sid && l.vector == vector

/-! ### The RAS log (R404) -/

/-- A write of the Shutter or the controller at a physical address: a stack that never joined serves nothing (R352, R398). -/
def hbmWrite (pa : Nat) (bs : List Byte) (s : State) : State :=
  if inHbm s pa || inTile s pa then homeWrite .shutter pa bs s else s

/-- Write one log entry, or count it as not written (R404). DESIGN CHOICE (log 23): the agent of the write, which a watchpoint shows, is
the Shutter. -/
def rasLog (kind loc pa : Nat) (s : State) : State :=
  let v := s.svc
  if v.rasBase ≠ 0 ∧ v.rasHead - v.rasAck < 4096 then
    let bs := toBytes 8 s.now ++ toBytes 1 kind ++ toBytes 7 loc ++ toBytes 8 pa ++ toBytes 8 1
    let s := hbmWrite (v.rasBase + 32 * (v.rasHead % 4096)) bs s
    { s with svc := { s.svc with rasHead := (v.rasHead + 1) % 2 ^ 32 } }
  else { s with svc := { v with rasDrop := (v.rasDrop + 1) % 2 ^ 32 } }

/-- An entry for an event to which R404 gives no kind: its kind is a free value (log 23). -/
def rasLogOther (loc pa : Nat) (s : State) : State :=
  rasLog ((Config.freeWord s.free).toNat % 256) loc pa { s with free := s.free + 1 }

/-- Location field of a memory event: the stack, or the die and cluster of tile memory (R404). -/
def memLoc (pa : Nat) : Nat := if pa < 2 ^ 40 then pa / 2 ^ 36 else (pa / 2 ^ 31) % 8 + 8 * ((pa / 2 ^ 26) % 32)

/-- A word is poisoned, with its entry of the log where it was not (R404). -/
def poisonSaved (s : State) (w : Nat) : State :=
  if s.poison.contains w then s else rasLog 6 (memLoc w) w { s with poison := setAdd w s.poison }

/-- The location field of a compute event (R404). -/
def coreLoc (p : Place) (group lane : Nat) : Nat := p.die + 8 * p.cluster + 256 * p.core + 2048 * group + 16384 * lane

/-! ### Taking an exception (R272), strip rewind (R282) -/

/-- Trap entry of R272: sepc, scause, stval, SPP, SPIE and SIE of sstatus, supervisor mode, stvec; the strand's links go. -/
def takeTrap (cause : Nat) (tval : Word) (s : State) : State :=
  let h := s.hart
  let c := h.csr
  let st := c.sstatus
  let kept := st &&& ~~~(0x122#64)
  let spp := if h.mode = .supervisor then 0x100#64 else 0#64
  let spie := if st.getLsbD 1 then 0x20#64 else 0#64
  dropLinks h.sid { s with hart := { h with
    csr := { c with sepc := h.pc, scause := BitVec.ofNat 64 cause, stval := tval, sstatus := kept ||| spp ||| spie }
    mode := .supervisor
    pc := c.stvec &&& ~~~(3#64)
    hit := none
    wait := none } }

/-- A fault reported at element e: a precise hit met by an element below it is reported in its place (R276). -/
def takeTrapAt (cause : Nat) (tval : Word) (e : Nat) (s : State) : State :=
  let s := { s with hart := { s.hart with vsta := e } }
  match s.hart.hit with
  | some w => if w.1 < e then takeTrap 3 w.2 s else takeTrap cause tval s
  | none => takeTrap cause tval s

/-- The x registers of a checkpoint where stripmask named them (R82, R282). -/
def restoreX (cp : Checkpoint) (x : Vector Word 32) : Vector Word 32 :=
  (rangeFrom 1 31).foldl (fun x i =>
    if h : i < 32 then (if cp.xmask.getLsbD i then x.set i (cp.x.get ⟨i, h⟩) else x) else x) x

/-- The rewind of R282: held stores go, the checkpoint's registers return, the pc is that of the vshape. The count stands
at 2 until that vshape re-executes, then at 1, so that its strip is rewound once (log 12). -/
def rewindTo (cp : Checkpoint) (h : Strand) : Strand :=
  { h with strip := { h.strip with buffer := [], rewinds := 2 },
           x := restoreX cp h.x, emask := cp.emask, ea := cp.ea, vsta := 0, pc := cp.pc, hit := none, wait := none }

/-- The launch of an identifier. -/
def findLaunch (s : State) (id : Nat) : Option Launch := s.launches.find? fun l => l.id == id

/-- Replace a launch. -/
def setLaunch (l : Launch) (s : State) : State :=
  { s with launches := s.launches.map fun k => if k.id = l.id then l else k }

/-- A bit of the control word of a launch record (bytes 40 to 47, R373). -/
def Launch.ctl (l : Launch) (lo n : Nat) : Nat := ofBytes ((l.raw.drop 40).take 8) / 2 ^ lo % 2 ^ n

/-- Whether the running strand's launch is replayable (R283, R373). -/
def replayable (s : State) : Bool :=
  match findLaunch s s.hart.launch with
  | some l => l.ctl 20 1 == 1
  | none => false

/-- A replay of a launch is called for; the Shutter takes it up (R283, R390). -/
def callReplay (launch : Nat) (s : State) : State :=
  { s with launches := s.launches.map fun l => if l.id = launch then { l with trigger := true } else l }

/-- A consumed error calls for a replay: the strand ends without a save (R283, R390). -/
def endForReplay (s : State) : State :=
  callReplay s.hart.launch { s with
    hart := { s.hart with status := .ended, strip := { s.hart.strip with buffer := [] }, wait := none, hit := none } }

/-- A consumed uncorrectable error (R282, R283): a first error of a rewindable strip rewinds it; otherwise the launch is
replayed, or the strand traps with CONSUMED_UE. A second error in a rewound strip first commits it (R281). -/
def consumeUE (tval : Word) (vsta : Option Nat) (s : State) : State :=
  let h := s.hart
  let after (s : State) : State :=
    if replayable s then endForReplay s
    else
      match vsta with
      | some e => takeTrapAt 28 tval e s
      | none => takeTrap 28 tval s
  if h.mode = .user ∧ h.strip.rewindable = true then
    match h.strip.checkpoint with
    | some cp =>
      if h.strip.rewinds = 0 then rasLog 9 (coreLoc h.place 0 0) 0 { s with hart := rewindTo cp h }
      else match endRewind s with
        | .ok _ s' => after s'
        | .error _ s' => after s'
    | none => after s
  else after s

/-- The instruction's bits as stval holds them (R22, R119). -/
def instrBits (i : Instr) : Word := BitVec.ofNat 64 ((encodeWord i).getD 0)

/-- Instructions that work on elements as one unit from element 0, whatever vsta holds: the mask group, the cross-lane and matrix
instructions of R171 and R189, the queue transfers and vwait. -/
def wholeFromZero : Instr → Bool
  | .kand _ _ _ | .kor _ _ _ | .kxor _ _ _ | .kandn _ _ _ | .knot _ _ | .kmv _ _ | .kset _ _ | .kpop _ _ | .kfirst _ _
  | .kmvFromEmask _ | .kmvToEmask _ | .vperm _ _ _ _ | .vslup _ _ _ _ | .vsldn _ _ _ _ | .vcomp _ _ _ | .vexpd _ _ _
  | .vscan _ _ _ | .vcex _ _ _ _ | .vmrg _ _ _ _ | .mma _ _ _ | .mmasp _ _ _ _ | .mmack _ _ _ _ | .tsum _ _ | .tadd _ _ _
  | .tscale _ _ _ | .tcvt _ _ | .tmv _ _ | .tzero _ | .ttov _ _ _ | .vtot _ _ _ | .vqpush _ _ _ _ | .vqpop _ _ _ _
  | .vwait _ _ _ _ _ => true
  | _ => false

/-- The first element of the step that an instruction is (R288): 0 where it works from element 0 whatever vsta holds, else vsta.
DESIGN CHOICE (log 34): an instruction without elements shows vsta as it stands. -/
def firstElem (i : Instr) (h : Strand) : Nat := if wholeFromZero i then 0 else h.vsta

/-- End a completed instruction: the pc moves on, the retired count rises, a precise hit is reported at the boundary
(R287), and in element-step mode the step is recorded (R288). -/
def retire (stepping : Bool) (first : Nat) (complete : Bool) (s : State) : State :=
  let h := s.hart
  let h := { h with pc := if complete then h.npc else h.pc, wait := none,
                    csr := { h.csr with instret := if complete then h.csr.instret + 1#64 else h.csr.instret } }
  let h := if stepping
    then { h with step := some (BitVec.ofNat 64 (first % 32768 + 32768 * complete.toNat + 0xC * 2 ^ 60)) } else h
  let s := { s with hart := h }
  match h.hit with
  | some w => takeTrap 3 w.2 s
  | none => s

/-- Run the meaning of a strand's instruction: what it stops with becomes a trap, a rewind, a wait or its end. -/
def runInstr (i : Instr) (body : M Unit) (s : State) : Host.Outcome State Fault Refusal :=
  let stepping := s.hart.estep && s.hart.mode == .user
  let first := firstElem i s.hart
  match body s with
  | .ok _ s' => .next (retire stepping first true s')
  | .error .done s' => .next (retire stepping first true s')
  | .error .hold s' => .next (if s'.hart.wait.isSome then s' else retire stepping first false s')
  | .error .switched s' => .next s'
  | .error (.refuse r) _ => .refused r
  | .error (.halt f) _ => .fault f
  | .error (.ue t v) s' => .next (consumeUE t v s')
  | .error (.bits c) s' =>
    .next (takeTrap c (instrBits i) (if c = 2 then s' else { s' with hart := { s'.hart with vsta := 0 } }))
  | .error (.trap c t none) s' => .next (takeTrap c t s')
  | .error (.trap c t (some e)) s' => .next (takeTrapAt c t e s')

/-- Run a step of another agent: it leaves a state, or the rules do not enable it. -/
def runEvent (body : M Unit) (s : State) : Host.Outcome State Fault Refusal :=
  match body s with
  | .ok _ s' => .next s'
  | .error (.refuse r) _ => .refused r
  | .error (.halt f) _ => .fault f
  | .error _ s' => .next s'

end Sys2Proof.Machine
end

