-- ==== Sys2Proof/Machine/Operands.lean ====
section
/-!
DEFINITION. Operand forms: elements of vector registers in the lane layout (R51), mask bits (R75), tile elements (R121),
broadcast operands (R93), the common type (R117), the checks of R72, R114, R119, R124, R221 and R277 that precede an
element loop, and the uncorrectable words of register files (R282).
-/
namespace Sys2Proof.Machine

/-! ### Elements of vector registers -/

/-- Bit offset of element e of width w in a vector register (R51). DESIGN CHOICE (log 21): of an element at or beyond the register's
capacity, which only a kind-0 selector with vlc above Cap(Tag(v)) reaches (R205), the same formula is used, so that it lies in the
next lane's share; the spec does not say what Elem(v, n mod vlc) is there. -/
def elemOff (lown w e : Nat) : Nat := if lown = 0 then 0 else 256 * (e % lown) + w * (e / lown)

/-- The encoding of element e of width w of a register's bits. -/
def getElem_ (v : BitVec 65536) (lown w e : Nat) : Nat := v.toNat / 2 ^ elemOff lown w e % 2 ^ w

/-- The register with element e of width w replaced. -/
def setElem_ (v : BitVec 65536) (lown w e x : Nat) : BitVec 65536 :=
  let o := elemOff lown w e
  (v &&& ~~~(BitVec.ofNat 65536 ((2 ^ w - 1) <<< o))) ||| BitVec.ofNat 65536 ((x % 2 ^ w) <<< o)

/-- Tag of a vector register (R74). -/
def Strand.tag (h : Strand) (r : BitVec 5) : ETag := h.vtag.get r.toFin

/-- Encoding of element e of a register read with width w. -/
def Strand.elem (h : Strand) (r : BitVec 5) (w e : Nat) : Nat := getElem_ (h.v.get r.toFin) h.lown w e

/-- Write the encoding of element e of a register with width w. -/
def Strand.putElem (h : Strand) (r : BitVec 5) (w e x : Nat) : Strand :=
  { h with v := h.v.set r.toFin (setElem_ (h.v.get r.toFin) h.lown w e x) }

/-- Write the tag of a register. -/
def Strand.putTag (h : Strand) (r : BitVec 5) (t : ETag) : Strand := { h with vtag := h.vtag.set r.toFin t }

/-- The register after a given one, modulo 32. -/
def nextReg (r : BitVec 5) : BitVec 5 := r + 1#5

/-- Cap(u): elements of type u that a register holds (R114). -/
def Strand.cap (h : Strand) (u : ETag) : Nat := h.lown * 256 / u.width

/-! ### Masks -/

/-- Bits of a mask register: MLEN = Lown × 64 (R75). -/
def Strand.mlen (h : Strand) : Nat := h.lown * 64

/-- Bit e of a mask register; k0 reads all ones (R75). -/
def Strand.kbit (h : Strand) (k : BitVec 3) (e : Nat) : Bool := k == 0#3 || (h.k.get k.toFin).getLsbD e

/-- One bit of a wide vector replaced. -/
def putBit (v : BitVec w) (e : Nat) (b : Bool) : BitVec w :=
  if b then v ||| BitVec.ofNat w (1 <<< e) else v &&& ~~~(BitVec.ofNat w (1 <<< e))

/-- Write bit e of a mask register; writes to k0 are discarded (R75). -/
def Strand.putKbit (h : Strand) (k : BitVec 3) (e : Nat) (b : Bool) : Strand :=
  if k = 0#3 then h else { h with k := h.k.set k.toFin (putBit (h.k.get k.toFin) e b) }

/-- Active(km, e) of R22. -/
def Strand.active (h : Strand) (km : BitVec 3) (e : Nat) : Bool := decide (e < h.vl) && h.kbit km e

/-- The active elements from lo up to below hi, ascending. -/
def Strand.activeFrom (h : Strand) (km : BitVec 3) (lo hi : Nat) : List Nat :=
  (rangeFrom lo (hi - lo)).filter (h.active km)

/-! ### Tiles -/

/-- Bit offset of element (i, j) of width w of a tile (R121). -/
def tileOff (w i j : Nat) : Nat := 2048 * i + w * j

/-- Encoding of element (i, j) of width w of a tile. -/
def Strand.tileElem (h : Strand) (m : BitVec 3) (w i j : Nat) : Nat :=
  (h.m.get m.toFin).toNat / 2 ^ tileOff w i j % 2 ^ w

/-- Replace element (i, j) of width w of a tile. -/
def setTile (t : BitVec 262144) (w i j x : Nat) : BitVec 262144 :=
  let o := tileOff w i j
  (t &&& ~~~(BitVec.ofNat 262144 ((2 ^ w - 1) <<< o))) ||| BitVec.ofNat 262144 ((x % 2 ^ w) <<< o)

/-- Write element (i, j) of width w of a tile. -/
def Strand.putTile (h : Strand) (m : BitVec 3) (w i j x : Nat) : Strand :=
  { h with m := h.m.set m.toFin (setTile (h.m.get m.toFin) w i j x) }

/-- Shape of a tile. -/
def Strand.shape (h : Strand) (m : BitVec 3) : TShape := h.tshape.get m.toFin

/-- ColMax of R120. -/
def colMax (t : ETag) : Nat := if t.width = 4 then 256 else 2048 / t.width

/-- The 64-bit value of a shape CSR (R83). -/
def TShape.word (t : TShape) : Word := BitVec.ofNat 64 (t.rows + 256 * t.cols + 2 ^ 20 * t.ty.code)

/-! ### Types -/

/-- The bits of a broadcast x register as an element of type t (R93). -/
def broadcastX (t : ETag) (x : Word) : Nat := x.toNat % 2 ^ t.width

/-- A signed imm6 as an element of type t (R93). -/
def broadcastImm (t : ETag) (imm : BitVec 6) : Nat :=
  if t.isFloat then (roundNum t .rne (intNum imm.toInt)).1 else truncInt t imm.toInt

/-- The narrowest integer type of a list in order of width that is at least as wide as every source (R117). -/
def widestInt (ts : List ETag) : ETag :=
  ts.foldl (fun a b => if a.width < b.width then b else a) (nth ts 0 .none)

/-- Whether every value of float type a is a value of float type b (R117). -/
def floatFits (a b : ETag) : Bool :=
  match a, b with
  | .e4m3, _ => b != .e5m2
  | .e5m2, _ => b != .e4m3
  | .fp16, .fp16 | .fp16, .fp32 | .fp16, .fp64 => true
  | .bf16, .bf16 | .bf16, .fp32 | .bf16, .fp64 => true
  | .fp32, .fp32 | .fp32, .fp64 => true
  | .fp64, .fp64 => true
  | _, _ => false

/-- The common type of the typed sources, none when there is none (R116, R117). -/
def commonType (ts : List ETag) : Option ETag :=
  if ts.any (· == .none) then none
  else if ts.all ETag.isSigned || ts.all ETag.isUnsigned then some (widestInt ts)
  else if ts.all ETag.isFloat then
    [.e4m3, .e5m2, .fp16, .bf16, .fp32, .fp64].find? fun b => ts.all fun a => floatFits a b
  else none

/-! ### Checks before an element loop -/

/-- A strand with Lown = 0 may not name vector state (R72), and a supervisor may not before claim (R277). -/
def vecGate : M Unit := do
  let h ← getH
  if h.lown = 0 then illegal
  if h.mode = .supervisor ∧ h.claimed = false then illegal

/-- The gate of vqcnt, which names no vector or mask register: R277 alone. -/
def claimGate : M Unit := do
  let h ← getH
  if h.mode = .supervisor ∧ h.claimed = false then illegal

/-- The types of R114 fit the vector length, else a shape fault. -/
def needCap (ts : List ETag) : M Unit := do
  let h ← getH
  if ts.any fun u => decide (h.cap u < h.vl) then shapeFault

/-- Resources that a chain names: kind and number (0 vector register, 4 tile, 8 accumulator, 6 lane slices). -/
inductive Res where
  | vreg (r : Nat) | tile (m : Nat) | acc (a : Nat) | slices
  deriving DecidableEq, Repr

/-- The resource of a selector byte (R205). -/
def selRes (sel : Nat) : Option Res :=
  match sel / 32 with
  | 0 => some (.vreg (sel % 32))
  | 4 => some (.tile (sel % 32))
  | 6 => some .slices
  | _ => none

/-- Whether a stage is a reduction stage: vred or vdot, opcode 0x2B (R208). -/
def StageEnt.isReduction (e : StageEnt) : Bool :=
  e.inst.toNat % 128 == 0x2B && (e.inst.toNat / 2 ^ 26 == 0x20 || e.inst.toNat / 2 ^ 26 == 0x23)

/-- What a record's selectors read. -/
def ChainRec.reads (r : ChainRec) : List Res :=
  r.stages.flatMap fun e => [e.selA, e.selB, e.selC].filterMap selRes

/-- What a record's selectors and flags.ea write (R211). -/
def ChainRec.writes (r : ChainRec) : List Res :=
  r.stages.flatMap fun e => (selRes e.selD).toList ++ (if e.isReduction then [.acc (e.flags / 256 % 8)] else [])

/-- Whether a chain restricts the strand's own instructions (R221). -/
def Chain.active (c : Chain) : Bool := c.state == .running || c.state == .broken

/-- The shape check of R221: an instruction may not write what a running or broken chain names, nor read what it writes. -/
def needChains (reads writes : List Res) : M Unit := do
  let h ← getH
  if h.c.toList.any fun c => c.active &&
      ((writes.any fun r => c.rcd.reads.contains r || c.rcd.writes.contains r) ||
       (reads.any fun r => c.rcd.writes.contains r)) then shapeFault

/-- The shape check of R124: a tag or tile shape that a configured chain's selectors name may not change. -/
def needUnconfigured (r : Res) : M Unit := do
  let h ← getH
  if h.c.toList.any fun c => c.state != .free && c.state != .rejected &&
      (c.rcd.reads.contains r || c.rcd.writes.contains r) then shapeFault

/-! ### Uncorrectable words of register files (R282, R283) -/

/-- What reads storage that can hold an uncorrectable word: the kind and number of the storage, the element read, as stval
reports them, and the words that hold it (R57, R283). -/
structure SrcRead where
  src : Nat
  idx : Nat
  off : Nat
  words : List Nat
  deriving DecidableEq, Repr

/-- The word that stval holds for a register-side error (R283). -/
def ueWord (src idx off : Nat) : Word := BitVec.ofNat 64 (src + 256 * idx + 2 ^ 16 * (off % 2 ^ 32) + 0xE * 2 ^ 60)

/-- The 32-bit words that hold bits from an offset on. -/
def wordsAt (off w : Nat) : List Nat := rangeFrom (off / 32) ((off + w - 1) / 32 + 1 - off / 32)

/-- The words of element e of width w of a vector register (R51). -/
def Strand.elemWords (h : Strand) (w e : Nat) : List Nat := wordsAt (elemOff h.lown w e) w

/-- A read of element e of a vector register under its tag. -/
def Strand.regRead (h : Strand) (r : BitVec 5) (e : Nat) : SrcRead := ⟨1, r.toNat, e, h.elemWords (h.tag r).width e⟩

/-- A read of bit e of a mask register. -/
def maskRead (k : BitVec 3) (e : Nat) : SrcRead := ⟨2, k.toNat, e, [e / 32]⟩

/-- The words of element (i, j) of width w of a tile (R121). -/
def tileWords (w i j : Nat) : List Nat := wordsAt (tileOff w i j) w

/-- A read of element e, in row order, of a tile under its granted shape. -/
def Strand.tileRead (h : Strand) (m : BitVec 3) (e : Nat) : SrcRead :=
  let sh := h.shape m
  ⟨3, m.toNat, e, tileWords sh.ty.width (e / sh.cols) (e % sh.cols)⟩

/-- A read of an accumulator. -/
def accRead (ea : BitVec 3) : SrcRead := ⟨5, ea.toNat, 0, [0]⟩

/-- The reads of element e of some vector registers and of a governing mask. -/
def Strand.srcReads (h : Strand) (regs : List (BitVec 5)) (km : BitVec 3) (e : Nat) : List SrcRead :=
  regs.map (fun r => h.regRead r e) ++ (if km = 0#3 then [] else [maskRead km e])

/-- The first of some reads that meets an uncorrectable word, as stval reports it. -/
def Strand.badOf (h : Strand) (rs : List SrcRead) : Option Word :=
  if h.bad = [] then none
  else (rs.find? fun r => r.words.any fun n => h.bad.contains ⟨r.src, r.idx, n⟩).map fun r => ueWord r.src r.idx r.off

/-- Consume an uncorrectable error. -/
def consume (b : Option Word) : M Unit :=
  match b with
  | some w => throw (.ue w none)
  | none => pure ()

/-- A store to an uncorrectable word makes it good again, as R57 gives for a lane slice. -/
def Strand.heal (h : Strand) (src idx : Nat) (ws : List Nat) : Strand :=
  if h.bad = [] then h else { h with bad := h.bad.filter fun b => !(b.src == src && b.idx == idx && ws.contains b.off) }

/-- Write the encoding of element e of a register with width w; the words that hold it are good. -/
def Strand.storeElem (h : Strand) (r : BitVec 5) (w e x : Nat) : Strand := (h.putElem r w e x).heal 1 r.toNat (h.elemWords w e)

/-- Write bit e of a mask register; the word that holds it is good. -/
def Strand.storeKbit (h : Strand) (k : BitVec 3) (e : Nat) (b : Bool) : Strand := (h.putKbit k e b).heal 2 k.toNat [e / 32]

/-- Write element (i, j) of width w of a tile; the words that hold it are good. -/
def Strand.storeTile (h : Strand) (m : BitVec 3) (w i j x : Nat) : Strand :=
  (h.putTile m w i j x).heal 3 m.toNat (tileWords w i j)

/-! ### The element loop -/

/-- The end of this execution of a loop over n elements from vsta: in element-step mode one element group (R288). -/
def loopEnd (n : Nat) : M Nat := do
  let h ← getH
  if h.estep ∧ h.mode = .user then
    let g := (h.vsta / 32 + 1) * 32
    return if g < n then g else n
  else return n

/-- Finish a loop that ran up to hi of n elements: vsta is left at 0, or at hi with the instruction unfinished (R288). -/
def loopDone (hi n : Nat) : M Unit := do
  if hi < n then
    modH fun h => { h with vsta := hi }
    throw .hold
  else modH fun h => { h with vsta := 0 }

/-- Finish an instruction that has no element loop and leaves vsta at 0 (R82). -/
def clearVsta : M Unit := modH fun h => { h with vsta := 0 }

end Sys2Proof.Machine
end

