-- ==== Sys2Proof/Machine/Flags.lean ====
section
/-!
DEFINITION. Recording exception classes: Flag of R22 into emask (R65, R66), and a chain's class summary (R209).
-/
namespace Sys2Proof.Machine

/-- Flag(e, cls) of R22 and R66: bit e of emask is set when ecls selects a class that is raised. -/
def Strand.flag (h : Strand) (e : Nat) (c : Cls) : Strand :=
  if h.cls ≠ 0 ∧ c.getLsbD (h.cls - 1) = true then { h with emask := putBit h.emask e true } else h

/-- The class summary of a chain with the classes of element n of stage s added; the first of fcls is kept (R209, R225). -/
def Chain.flag (c : Chain) (s n : Nat) (cls : Cls) : Chain :=
  let hit := c.rcd.fcls != 0 && cls.getLsbD (c.rcd.fcls - 1)
  { c with
    summary := c.summary ||| cls.zeroExtend 7 ||| (if hit then 0x40#7 else 0#7)
    first := if hit && (!c.summary.getLsbD 6 || (c.first.toNat / 2 ^ 48 == s && decide (n < c.first.toNat % 2 ^ 48)))
      then BitVec.ofNat 64 (n % 2 ^ 48 + 2 ^ 48 * s) else c.first }

/-- A chain whose input ports hold nothing that they have read and not delivered (R261, R265): values read ahead, and the rest
of a CE8 block. -/
def Chain.withoutAhead (c : Chain) : Chain :=
  { c with ports := (c.ports.zip (c.rcd.ports ++ List.replicate c.ports.length ⟨0, 0, 1, 0, []⟩)).map fun p =>
      { p.1 with ahead := [], pend := if p.2.dir = 0 then [] else p.1.pend } }

end Sys2Proof.Machine
end

