-- ==== Sys2Proof/Machine/Arith.lean ====
section
/-!
DEFINITION. The arithmetic of elements on their encodings (R134 to R150), each delivered with the exception classes it
raises; the correctly rounded functions of R149 are computed to more bits than any of their rounding boundaries needs.
-/
namespace Sys2Proof.Machine

/-! ### Comparison -/

/-- Whether an exact value is less than another; zeros of either sign are equal, NaNs compare false. -/
def numLt : Num → Num → Bool
  | .nan _, _ => false
  | _, .nan _ => false
  | .inf a, .inf b => a && !b
  | .inf a, .fin _ _ _ => a
  | .fin _ _ _, .inf b => !b
  | .fin a m e, .fin b n f =>
    let g := if e ≤ f then e else f
    decide (scaled a m e g < scaled b n f g)

/-- Whether two exact values are equal; zeros of either sign are equal, NaNs are unequal to everything. -/
def numEq : Num → Num → Bool
  | .inf a, .inf b => a == b
  | .fin a m e, .fin b n f =>
    let g := if e ≤ f then e else f
    decide (scaled a m e g = scaled b n f g)
  | _, _ => false

/-- Whether a value is a negative zero. -/
def isNegZero : Num → Bool
  | .fin true 0 _ => true
  | _ => false

/-- Less than in the order of R138, where −0 precedes +0. -/
def orderLt (a b : Num) : Bool := numLt a b || (numEq a b && isNegZero a && !isNegZero b)

/-- A value of an encoding of any type, for comparison. -/
def valueOf (t : ETag) (n : Nat) : Num := if t.isFloat then decodeFloat t n else intNum (decodeInt t n)

/-! ### Two-operand arithmetic -/

/-- The element operations of two operands. -/
inductive BinOp where
  | add | sub | rsub | mul | mulh | div | rem | min | max | and | or | xor
  deriving DecidableEq, Repr

/-- The integer square root by binary digits from digit i down. -/
def sqrtDigits (m : Nat) : Nat → Nat → Nat
  | 0, r => r
  | i + 1, r => sqrtDigits m i (if (r + 2 ^ i) * (r + 2 ^ i) ≤ m then r + 2 ^ i else r)

/-- The integer square root. -/
def natSqrt (m : Nat) : Nat := sqrtDigits m (bitLen m / 2 + 1) 0

/-- a ÷ b of finite nonzero values, rounded once. -/
def divFinite (t : ETag) (mode : RMode) (neg : Bool) (m : Nat) (e : Int) (n : Nat) (f : Int) : Nat × Cls :=
  let k := bitLen n + 64
  let q := (m <<< k) / n
  roundFinite t mode neg q (e - f - k) (decide ((m <<< k) % n ≠ 0))

/-- Float division (R137, R135). -/
def fDiv (t : ETag) (mode : RMode) (a b : Nat) : Nat × Cls :=
  let x := decodeFloat t a
  let y := decodeFloat t b
  let r : Nat × Cls := match x, y with
    | .nan _, _ => (canonNaN t, 0#6)
    | _, .nan _ => (canonNaN t, 0#6)
    | .inf _, .inf _ => (canonNaN t, Cls.invalid)
    | .inf p, .fin q _ _ => roundNum t mode (.inf (p != q))
    | .fin p _ _, .inf q => roundNum t mode (.fin (p != q) 0 0)
    | .fin p m e, .fin q n f =>
      if n = 0 then
        if m = 0 then (canonNaN t, Cls.invalid)
        else
          let z := roundNum t mode (.inf (p != q))
          (z.1, z.2 ||| Cls.divZero)
      else if m = 0 then roundNum t mode (.fin (p != q) 0 0)
      else divFinite t mode (p != q) m e n f
  (r.1, r.2 ||| sigCls x ||| sigCls y)

/-- Float minimum or maximum (R138). -/
def fMinMax (t : ETag) (wantMax : Bool) (a b : Nat) : Nat × Cls :=
  let x := decodeFloat t a
  let y := decodeFloat t b
  if x.isNaN || y.isNaN then (canonNaN t, sigCls x ||| sigCls y)
  else if wantMax then (if orderLt x y then b else a, 0#6) else (if orderLt y x then b else a, 0#6)

/-- Integer division and remainder (R137). -/
def intDiv (t : ETag) (a b : Int) : Nat × Cls :=
  if b = 0 then (truncInt t (if a < 0 then intMin t else intMax t), Cls.saturation)
  else satEnc t (Int.tdiv a b)

/-- Integer remainder (R137). -/
def intRem (t : ETag) (a b : Int) : Nat × Cls :=
  if b = 0 then (truncInt t a, 0#6) else (truncInt t (a - b * Int.tdiv a b), 0#6)

/-- The result of a two-operand operation on encodings of the operation type (R134, R136 to R138, R140). -/
def elemBin (op : BinOp) (t : ETag) (mode : RMode) (a b : Nat) : Nat × Cls :=
  match op with
  | .and => (Nat.land a b, 0#6)
  | .or => (Nat.lor a b, 0#6)
  | .xor => (Nat.xor a b, 0#6)
  | .add => if t.isFloat then fAdd t mode a b else satEnc t (decodeInt t a + decodeInt t b)
  | .sub => if t.isFloat then fFma t mode false true a (encOne t) b else satEnc t (decodeInt t a - decodeInt t b)
  | .rsub => if t.isFloat then fFma t mode false true b (encOne t) a else satEnc t (decodeInt t b - decodeInt t a)
  | .mul => if t.isFloat then fMul t mode a b else satEnc t (decodeInt t a * decodeInt t b)
  | .mulh => (truncInt t (decodeInt t a * decodeInt t b / 2 ^ t.width), 0#6)
  | .div => if t.isFloat then fDiv t mode a b else intDiv t (decodeInt t a) (decodeInt t b)
  | .rem => intRem t (decodeInt t a) (decodeInt t b)
  | .min => if t.isFloat then fMinMax t false a b else (if decodeInt t b < decodeInt t a then b else a, 0#6)
  | .max => if t.isFloat then fMinMax t true a b else (if decodeInt t a < decodeInt t b then b else a, 0#6)
where
  /-- The encoding of 1 in a float type, so that a difference is one fused operation with one rounding. -/
  encOne (t : ETag) : Nat := (fmtOf t).bias <<< (fmtOf t).m

/-- The fused multiply-adds of R139; the flags negate the product and the addend. -/
def elemFma (negP negC : Bool) (t : ETag) (mode : RMode) (a b c : Nat) : Nat × Cls :=
  if t.isFloat then fFma t mode negP negC a b c
  else
    let p := decodeInt t a * decodeInt t b
    let z := decodeInt t c
    satEnc t ((if negP then -p else p) + (if negC then -z else z))

/-- The shifts of R141. -/
inductive ShOp where
  | sll | srl | sra
  deriving DecidableEq, Repr

/-- A shift of the encoding p of an integer type by the count c (R141). -/
def elemShift (op : ShOp) (t : ETag) (p : Nat) (c : Int) : Nat :=
  let n := t.width
  if 0 ≤ c ∧ c < n then
    match op with
    | .sll => (p <<< c.toNat) % 2 ^ n
    | .srl => p >>> c.toNat
    | .sra => truncInt t (decodeInt t p / 2 ^ c.toNat)
  else match op with
    | .sra => if t.isSigned ∧ decodeInt t p < 0 then 2 ^ n - 1 else 0
    | _ => 0

/-- The compares of R142. -/
inductive CmpOp where
  | eq | ne | lt | le
  deriving DecidableEq, Repr

/-- A compare on encodings of the common type: the bit and the classes (R142). -/
def elemCmp (op : CmpOp) (t : ETag) (a b : Nat) : Bool × Cls :=
  let x := valueOf t a
  let y := valueOf t b
  let quiet := sigCls x ||| sigCls y
  let any := Cls.invalid.on (x.isNaN || y.isNaN)
  match op with
  | .eq => (numEq x y, quiet)
  | .ne => (!numEq x y, quiet)
  | .lt => (numLt x y, any)
  | .le => (numLt x y || numEq x y, any)

/-! ### One-operand operations -/

/-- The one-operand operations of R145, R148, R149 and R143. -/
inductive UnOp where
  | mv | abs | neg | not | sqrt | rcp | rsqrt | exp2 | log2 | clz | pop
  deriving DecidableEq, Repr

/-- Square root of a finite positive value, rounded once (R149). -/
def sqrtFinite (t : ETag) (mode : RMode) (m : Nat) (e : Int) : Nat × Cls :=
  let k := 160 + (if (e - 160) % 2 = 0 then 0 else 1)
  let v := m <<< k
  let r := natSqrt v
  roundFinite t mode false r ((e - k) / 2) (decide (r * r ≠ v))

/-- Reciprocal square root of a finite positive value, rounded once (R149). -/
def rsqrtFinite (t : ETag) (mode : RMode) (m : Nat) (e : Int) : Nat × Cls :=
  let k0 := bitLen m + 160
  let k := if (-e - k0) % 2 = 0 then k0 else k0 + 1
  let q := 2 ^ k / m
  let r := natSqrt q
  roundFinite t mode false r ((-e - k) / 2) (decide (r * r * m ≠ 2 ^ k))

/-- ln 2 in units of 2^−320. -/
def ln2Fixed : Nat := 1480553391661173448385607439722553250922680800745876974795605978609098082859138712941075737848984

/-- Terms of the exponential series: sum of y^i / i! in units of 2^−320, from term i on, the term in hand being u. -/
def expSeries (y : Nat) : Nat → Nat → Nat → Nat → Nat
  | 0, _, _, acc => acc
  | n + 1, i, u, acc => expSeries y n (i + 1) (u * y / 2 ^ 320 / (i + 1)) (acc + u)

/-- 2^a for finite nonzero a = ±m × 2^e, rounded once (R149). -/
def exp2Finite (t : ETag) (mode : RMode) (neg : Bool) (m : Nat) (e : Int) : Nat × Cls :=
  if 0 ≤ e ∨ m % 2 ^ (-e).toNat = 0 then
    let i : Nat := if 0 ≤ e then (if 12 < e then 4000 else m <<< e.toNat) else m >>> (-e).toNat
    let i := if 4000 < i then 4000 else i
    roundFinite t mode false 1 (if neg then -(i : Int) else i) false
  else
    let x := scaled neg m e e
    -- whole part and fraction of a in units of 2^−320
    let k := (-e).toNat
    let whole := x / 2 ^ k
    let whole := if whole < -4000 then -4000 else if 4000 < whole then 4000 else whole
    let frac := (x % 2 ^ k).toNat
    let f := if k ≤ 320 then frac <<< (320 - k) else frac >>> (k - 320)
    let y := f * ln2Fixed / 2 ^ 320
    roundFinite t mode false (expSeries y 80 0 (2 ^ 320) 0) (whole - 320) true

/-- Terms of 2 artanh z in units of 2^−320: z^(2i+1)/(2i+1) from term i on, the power in hand being u. -/
def atanhSeries (z2 : Int) : Nat → Nat → Int → Int → Int
  | 0, _, _, acc => 2 * acc
  | n + 1, i, u, acc => atanhSeries z2 n (i + 1) (u * z2 / 2 ^ 320) (acc + u / (2 * i + 1 : Nat))

/-- log2 of a finite positive value, rounded once (R149). -/
def log2Finite (t : ETag) (mode : RMode) (m : Nat) (e : Int) : Nat × Cls :=
  let l := bitLen m
  if m = 2 ^ (l - 1) then
    let i : Int := e + l - 1
    if i = 0 then (0, 0#6) else roundFinite t mode (decide (i < 0)) i.natAbs 0 false
  else
    -- y = m / 2^(l−1) in [1, 2), halved above 3/2; then log2 x = k + log2 y
    let big : Bool := decide (3 * 2 ^ (l - 1) < 2 * m)
    let den : Int := if big then 2 ^ l else 2 ^ (l - 1)
    let k : Int := e + l - 1 + (if big then 1 else 0)
    let z : Int := ((m : Int) - den) * 2 ^ 320 / ((m : Int) + den)
    let ln := atanhSeries (z * z / 2 ^ 320) 110 0 z 0
    let v : Int := k * 2 ^ 320 + ln * 2 ^ 320 / ln2Fixed
    roundFinite t mode (decide (v < 0)) v.natAbs (-320) true

/-- The correctly rounded functions with their special operands (R149, R135). -/
def fFunc (op : UnOp) (t : ETag) (mode : RMode) (a : Nat) : Nat × Cls :=
  let x := decodeFloat t a
  let nanInv : Nat × Cls := (canonNaN t, Cls.invalid)
  let dz (neg : Bool) : Nat × Cls :=
    let z := roundNum t mode (.inf neg)
    (z.1, z.2 ||| Cls.divZero)
  match x with
  | .nan s => (canonNaN t, Cls.invalid.on s)
  | .inf neg =>
    match op with
    | .rcp => (encFinite t neg 0 0, 0#6)
    | .exp2 => if neg then (0, 0#6) else roundNum t mode (.inf false)
    | .rsqrt => if neg then nanInv else (0, 0#6)
    | _ => if neg then nanInv else roundNum t mode (.inf false)
  | .fin neg m e =>
    if m = 0 then
      match op with
      | .sqrt => (a, 0#6)
      | .rcp => dz neg
      | .rsqrt => dz neg
      | .exp2 => roundFinite t mode false 1 0 false
      | _ => dz true
    else match op with
      | .rcp => divFinite t mode neg 1 0 m e
      | .exp2 => exp2Finite t mode neg m e
      | .sqrt => if neg then nanInv else sqrtFinite t mode m e
      | .rsqrt => if neg then nanInv else rsqrtFinite t mode m e
      | _ => if neg then nanInv else log2Finite t mode m e

/-- The number of one bits among the low n bits. -/
def popCount (p : Nat) : Nat → Nat
  | 0 => 0
  | n + 1 => (p.testBit n).toNat + popCount p n

/-- A one-operand operation on an encoding of its type (R145, R148, R149). -/
def elemUn (op : UnOp) (t : ETag) (mode : RMode) (a : Nat) : Nat × Cls :=
  match op with
  | .mv => (a, 0#6)
  | .not => (2 ^ t.width - 1 - a, 0#6)
  | .clz => (t.width - bitLen a, 0#6)
  | .pop => (popCount a t.width, 0#6)
  | .abs =>
    if t.isFloat then
      match decodeFloat t a with
      | .nan s => (canonNaN t, Cls.invalid.on s)
      | _ => (a % 2 ^ (t.width - 1), 0#6)
    else satEnc t (decodeInt t a).natAbs
  | .neg =>
    if t.isFloat then
      match decodeFloat t a with
      | .nan s => (canonNaN t, Cls.invalid.on s)
      | _ => (flipSign t a, 0#6)
    else satEnc t (-(decodeInt t a))
  | _ => fFunc op t mode a

/-- vclass of R143: the number of the one bit set. -/
def classBit (t : ETag) (a : Nat) : Nat :=
  if t.isFloat then
    match decodeFloat t a with
    | .nan s => if s then 8 else 9
    | .inf neg => if neg then 0 else 7
    | .fin neg m _ =>
      if m = 0 then (if neg then 3 else 4)
      else if m < 2 ^ (fmtOf t).m then (if neg then 2 else 5)
      else (if neg then 1 else 6)
  else
    let i := decodeInt t a
    if i < 0 then 1 else if i = 0 then 4 else 6

/-- vcvt of R150: to the same type it is the identity but for NaNs. -/
def elemCvt (s d : ETag) (mode : RMode) (a : Nat) : Nat × Cls := convert s d mode a

/-! ### Update tokens (R169, R316) -/

/-- Vector update-token operations (R169). -/
inductive VAmo where
  | add | min | max | and | or | xor | swp
  deriving DecidableEq, Repr

/-- The new value of an update token on memory value m with operand a, in type t (R169). -/
def tokenNew (op : VAmo) (t : ETag) (mode : RMode) (m a : Nat) : Nat × Cls :=
  match op with
  | .add => if t.isFloat then fAdd t mode m a else ((m + a) % 2 ^ t.width, 0#6)
  | .min => if t.isFloat then fMinMax t false m a else (if decodeInt t a < decodeInt t m then a else m, 0#6)
  | .max => if t.isFloat then fMinMax t true m a else (if decodeInt t m < decodeInt t a then a else m, 0#6)
  | .and => (Nat.land m a, 0#6)
  | .or => (Nat.lor m a, 0#6)
  | .xor => (Nat.xor m a, 0#6)
  | .swp => (a, 0#6)

/-- The new value of a scalar AMO of w bits (R79, RV64 A). -/
def amoNew (op : AmoOp) (w m a : Nat) : Nat :=
  let t : ETag := if w = 64 then .i64 else .i32
  match op with
  | .swap => a
  | .add => (m + a) % 2 ^ w
  | .xor => Nat.xor m a
  | .and => Nat.land m a
  | .or => Nat.lor m a
  | .min => if decodeInt t a < decodeInt t m then a else m
  | .max => if decodeInt t m < decodeInt t a then a else m
  | .minu => if a < m then a else m
  | .maxu => if m < a then a else m

end Sys2Proof.Machine
end

