-- ==== Sys2Proof/Machine/Loops.lean ====
section
/-!
DEFINITION. The element loop that vector and tile instructions share (R82, R131, R276, R288): elements in ascending order
from vsta, a consumed error or a fault at the element that meets it; and the physical faults of a lane group that a
vector instruction can meet (R58 to R63).
-/
namespace Sys2Proof.Machine

/-! ### Lane-group faults (R59, R62, R63) -/

/-- The lane groups that a core has left (R84). DESIGN CHOICE (log 25): lpart.lgen shows a lost group at once; R71 and R84 have lpart
change at a placement, and do not say whether lgen waits for one. -/
def CoreInfo.left (c : CoreInfo) : BitVec 8 := c.lgen &&& ~~~c.fallen

/-- The lane groups of a core that its partition counts in ascending order (R70). -/
def enabledGroups (c : CoreInfo) : List Nat := (rangeFrom 0 8).filter fun g => bit c.lgen g

/-- The physical lane groups of a strand slot (R70). -/
def ownedGroups (c : CoreInfo) (slot : Nat) : List Nat :=
  let g := enabledGroups c
  if slot = 0 then g.take c.n0 else (g.drop c.n0).take c.n1

/-- The core of a place. -/
def findCore (s : State) (p : Place) : Option CoreInfo :=
  s.cores.find? fun c => c.die == p.die && c.cluster == p.cluster && c.core == p.core

/-- What is known of a core: one that nothing has changed has eight lane groups. DESIGN CHOICE (log 30): the spec gives the checked position
of R58 no first value. -/
def coreInfo (s : State) (p : Place) : CoreInfo :=
  (findCore s p).getD ⟨p.die, p.cluster, p.core, 0, 0, 0xFF#8, 0#8, false, 0#8, Vector.replicate 8 0#5, []⟩

/-- Replace a core's record. -/
def putCore (c : CoreInfo) (s : State) : State :=
  { s with cores := s.cores.map fun d => if d.die = c.die ∧ d.cluster = c.cluster ∧ d.core = c.core then c else d }

/-- Whether a strand is placed on a core, in the given slot. -/
def onCore (h : Strand) (p : Place) (slot : Nat) : Bool :=
  h.status == .running && h.place.die == p.die && h.place.cluster == p.cluster && h.place.core == p.core && h.place.slot == slot

/-- The strands of the package. -/
def strands (s : State) : List Strand := s.hart :: s.parked

/-- A core without a lane group: it leaves the partition, or, where the groups of a strand that keeps running would move, at the next
placement that may move them (R63, R71). -/
def CoreInfo.without (c : CoreInfo) (phys : Nat) (stay : List Nat) : CoreInfo :=
  let out := { c with lgen := c.lgen &&& ~~~(1#8 <<< phys) }
  if stay.all fun slot => ownedGroups out slot == ownedGroups c slot then out else { c with fallen := c.fallen ||| (1#8 <<< phys) }

/-- The lane group of a core is disabled (R63): it takes no further work; what the running strand held there and the save
cannot read is lost; the strands to pre-empt are pre-empted at once, each with the places of its copies as far as they are given.
A core without a lane group is retired (R345). -/
def disableGroup (u : Upset) (p : Place) (c : CoreInfo) (phys loc : Nat) (who : List Strand) (s : State) : State :=
  let stay := [0, 1].filter fun slot => (strands s).any fun h => onCore h p slot && !(who.any fun k => k.sid == h.sid)
  let c := c.without phys stay
  let places (i : Nat) : Nat × Nat := nth u.copies i (0, 0)
  let rest := u.copies.drop who.length
  rasLog 3 loc 0
    { putCore c s with
      hart := { s.hart with
        bad := s.hart.bad ++ u.lost.filter fun b => b.src == 1 || b.src == 4
        badSlice := s.hart.badSlice ++ (u.lost.filter fun b => b.src == 6).map (·.off) }
      agenda := who.mapIdx (fun i h => .event (.preempt h.sid (places i).1 (places i).2)) ++
        (if c.left = 0#8 then [.event (.coreRetire p.die p.cluster p.core [] (rest.map (·.1)) (rest.map (·.2)))] else []) ++ s.agenda }

/-- The running strand, which owns the lost group, and the other strand of its core unless the lost group lies above every
group that it owns (R63). -/
def lostOwners (c : CoreInfo) (phys : Nat) (s : State) : List Strand :=
  let p := s.hart.place
  s.hart :: s.parked.filter fun h => onCore h p (1 - p.slot) && !((ownedGroups c (1 - p.slot)).all fun g => decide (g < phys))

/-- What the disagreements of one element group come to (R59): agreement in the end, a consumed error at the fourth, or the
loss of the lane group (R63). -/
inductive Met where
  | agreed (s : State)
  | error (s : State)
  | lost (s : State)

/-- The working position of a physical lane group whose results its proof lane checks (R58). -/
def CoreInfo.position (c : CoreInfo) (phys : Nat) : Nat := (nth c.checks.toList phys 0#5).toNat

/-- The location that an entry names: the lane at the checked working position, or, where the proof lane fails, its lane. DESIGN CHOICE
(log 30): R404 does not say whether its lane is a working position or a physical lane. -/
def Upset.loc (u : Upset) (p : Place) (c : CoreInfo) (phys : Nat) : Nat := coreLoc p phys (if u.test = 2 then u.lane else c.position phys)

/-- One disagreement on a physical lane group: a transient one is logged, a failing lane is retired onto the spare, which cuts
the strand's chains with AUTO until they re-form at once (R62, R222), and a second failing lane loses the group. -/
def meetOne (phys : Nat) (u : Upset) (s : State) : Met :=
  let p := s.hart.place
  match findCore s p with
  | none => .agreed s
  | some c =>
    let loc := u.loc p c phys
    if u.test = 0 then .agreed (rasLog 1 loc 0 s)
    else if bit c.spareUsed phys then .lost (disableGroup u p c phys loc (lostOwners c phys s) s)
    else .agreed (rasLog 2 loc 0 { putCore { c with spareUsed := c.spareUsed ||| (1#8 <<< phys) } s with
      swapped := setAdd s.hart.sid s.swapped })

/-- A physical fault of an idle lane group, of a core that holds no strand too: logged, or its lane replaced by the spare, or the group
lost; it pre-empts no strand (R59, R62, R63, R404). -/
def meetIdle (u : Upset) (p : Place) (phys : Nat) (s : State) : State :=
  let c := coreInfo s p
  let s := if (findCore s p).isSome then s else { s with cores := c :: s.cores }
  let loc := coreLoc p phys u.lane
  if bit c.left phys = false then s
  else if u.test = 0 then rasLog 1 loc 0 s
  else if bit c.spareUsed phys then disableGroup { u with lost := [] } p c phys loc [] s
  else rasLog 2 loc 0 (putCore { c with spareUsed := c.spareUsed ||| (1#8 <<< phys) } s)

/-- The disagreements of one element group in order, n of them already met (R59). -/
def meetAll (phys : Nat) : Nat → List Upset → State → Met
  | _, [], s => .agreed s
  | n, u :: us, s =>
    match meetOne phys u s with
    | .agreed s => if n = 3 then .error s else meetAll phys (n + 1) us s
    | m => m

/-- The physical lane group of the running strand that performs element group g. -/
def physGroup (s : State) (g : Nat) : Nat :=
  match findCore s s.hart.place with
  | none => 0
  | some c => let own := ownedGroups c s.hart.place.slot
    nth own (if own.length = 0 then 0 else g % own.length) 0

/-- Meet the disagreements of element group g before it is written. An error is consumed at element e; a lost group pre-empts the
strand with the instruction to be taken up at vsta = stand. DESIGN CHOICE (log 16): in a loop entered within a group, at a vsta
that is no multiple of 32, the fourth disagreement is consumed at vsta, below which the instruction has no element, and not at
the group's first element, which R59 names. -/
def meetGroup (g e stand : Nat) (us : List Upset) : M Unit := do
  let s ← get
  match meetAll (physGroup s g) 0 us s with
  | .agreed s => set s
  | .error s => do
    set s
    throw (.ue (ueWord 7 0 0) (some e))
  | .lost s => do
    set { s with hart := { s.hart with vsta := stand } }
    throw .switched

/-- The element group of an upset. -/
def UpsetSite.egroup : UpsetSite → Option Nat
  | .group g => some g
  | _ => none

/-- The upsets that stand first for one instruction, or one unit of a stage, of a strand, and the others. -/
def splitUpsets (sid : Nat) (here : UpsetSite → Bool) : List Upset → List Upset × List Upset
  | [] => ([], [])
  | u :: us =>
    if u.sid = sid ∧ here u.site = true then
      (if u.more then let r := splitUpsets sid here us
        (u :: r.1, r.2) else ([u], us))
    else ([], u :: us)

/-- The physical faults that the vector instruction in hand meets (R8). -/
def takeUpsets : M (List Upset) := do
  let s ← get
  match s.upsets with
  | [] => return []
  | us =>
    let r := splitUpsets s.hart.sid (fun x => x.egroup.isSome) us
    set { s with upsets := r.2 }
    return r.1

/-- An upset of element group g laid before those gathered. -/
def addUpset (g : Nat) (u : Upset) : List (Nat × List Upset) → List (Nat × List Upset)
  | [] => [(g, [u])]
  | (k, l) :: rest =>
    if g = k then (k, u :: l) :: rest
    else if g < k then (g, [u]) :: (k, l) :: rest
    else (k, l) :: addUpset g u rest

/-- Upsets gathered by element group, the groups in ascending order, those of a group in the order of the list (R58, R59). -/
def byGroup : List Upset → List (Nat × List Upset)
  | [] => []
  | u :: us => addUpset (u.site.egroup.getD 0) u (byGroup us)

/-- Upsets by element group, of the groups that hold one of the elements from lo below hi: no other group takes part (R58). -/
def groupsIn (lo hi : Nat) (us : List Upset) : List (Nat × List Upset) :=
  (byGroup us).filter fun g => decide (lo < 32 * g.1 + 32) && decide (32 * g.1 < hi)

/-- An instruction on the elements from lo below hi that runs as one unit meets its physical faults before it writes anything: an
error is consumed with vsta at 0, and a pre-emption falls before the instruction, whose vsta stays (R58, R132, R276). -/
def needUpsetIn (lo hi : Nat) : M Unit := do
  let us ← takeUpsets
  forEach (groupsIn lo hi us) fun g => do meetGroup g.1 0 (← getH).vsta g.2

/-- The same of an instruction on tiles or accumulators: every element group may take part. -/
def needUpset : M Unit := do
  let us ← takeUpsets
  forEach (byGroup us) fun g => do meetGroup g.1 0 (← getH).vsta g.2

/-! ### The loop -/

/-- Perform elements in order: each first consumes an uncorrectable word of its sources. -/
def runElems (bad : Nat → Option Word) (act : Nat → M Unit) (es : List Nat) : M Unit :=
  forEach es fun e => atElem e (do
    consume (bad e)
    act e)

/-- Perform elements from lo below hi in order; before an element group that meets faults is written, they are met. -/
def runGroups (bad : Nat → Option Word) (act : Nat → M Unit) (hi : Nat) : Nat → List (Nat × List Upset) → List Nat → M Unit
  | _, [], es => runElems bad act es
  | lo, (g, us) :: rest, es => do
    let cut := if 32 * g < lo then lo else if hi < 32 * g then hi else 32 * g
    runElems bad act (es.filter fun e => decide (e < cut))
    meetGroup g cut cut us
    runGroups bad act hi cut rest (es.filter fun e => decide (cut ≤ e))

/-- The elements of a loop over n elements from vsta, restricted to the given elements, with what it writes before them, up to
the end that it answers. An indivisible one runs as one unit: it consumes an error, and meets every fault of a lane group, before its first
effect: an error is reported with vsta at 0, a pre-emption leaves vsta (R132, R171, R276). -/
def loopElements (n : Nat) (indivisible : Bool) (start : M Unit) (active : Nat → Bool) (bad : Nat → Option Word)
    (act : Nat → M Unit) : M Nat := do
  let lo := (← getH).vsta
  let hi ← if indivisible then pure n else loopEnd n
  let es := (rangeFrom lo (hi - lo)).filter active
  if indivisible then
    match es.findSome? bad with
    | some w => throw (.ue w (some 0))
    | none => pure ()
    needUpsetIn lo hi
    start
    runElems bad act es
  else
    start
    runGroups bad act hi lo (groupsIn lo hi (← takeUpsets)) es
  return hi

/-- The element loop of an instruction, with its end (R82, R131, R288). -/
def elementLoop (n : Nat) (indivisible : Bool) (start : M Unit) (active : Nat → Bool) (bad : Nat → Option Word)
    (act : Nat → M Unit) : M Unit := do
  loopDone (← loopElements n indivisible start active bad act) n

/-! ### The checked position (R58) -/

/-- The elements, from the first below the second, whose lane groups take part in an instruction: the mask bits of a mask instruction,
every owned lane of one on tiles or on an exact accumulator alone, else the elements from the first performed below vl. -/
def laneSpan (i : Instr) (h : Strand) : Nat × Nat :=
  match i with
  | .eaclr _ | .eard _ _ | .eamvLoad _ _ | .eamvStore _ _ => (0, h.lown)
  | .kand _ _ _ | .kor _ _ _ | .kxor _ _ _ | .kandn _ _ _ | .knot _ _ | .kpop _ _ | .kfirst _ _ | .kmv _ _ | .kmvFromEmask _
  | .kmvToEmask _ | .kset _ _ => (0, h.mlen)
  | .vqpush _ _ _ _ | .vqpop _ _ _ _ | .vwait _ _ _ _ _ => (0, h.vl)
  | i =>
    let w := encode i
    if w % 128 = 0x0B ∨ w % 128 = 0x2B then (firstElem i h, h.vl)
    else if w % 128 = 0x5B ∧ w / 4096 % 8 ≠ 5 then (0, h.lown)
    else (0, 0)

/-- The lane groups that an instruction's span of elements gives work to, by owned number (R52). -/
def spanGroups (lo hi : Nat) : List Nat := rangeFrom (lo / 32) ((hi + 31) / 32 - lo / 32)

/-- The checked position of every lane group that took part goes on by one, modulo 32. -/
def CoreInfo.checked (c : CoreInfo) (phys : List Nat) : CoreInfo :=
  { c with checks := Vector.ofFn fun g => c.checks.get g + (if phys.contains g.val then 1#5 else 0#5) }

/-- The checked positions after an instruction that the running strand of s began and t has seen retired (R58). A step of another
agent is no instruction of a lane group. -/
def State.laneChecked (i : Instr) (s t : State) : State :=
  let i := (s.hart.wait.map (·.instr)).getD i
  let span := laneSpan i s.hart
  if s.hart.sid = t.hart.sid ∧ s.hart.csr.instret ≠ t.hart.csr.instret ∧ span.1 < span.2 then
    match findCore t s.hart.place with
    | none => t
    | some c => putCore (c.checked ((spanGroups span.1 span.2).map (physGroup s))) t
  else t

/-- What a step answers once the lane groups' checked positions have gone on (R58). -/
def laneChecks (i : Instr) (s : State) : Host.Outcome State Fault Refusal → Host.Outcome State Fault Refusal
  | .next t => .next (s.laneChecked i t)
  | o => o

end Sys2Proof.Machine
end

