-- ==== Sys2Proof/Machine/Waits.lean ====
section
/-!
DEFINITION. Deadlines and waits (11_waits_and_reels.md): expiry and clamping (R228 to R231), waits on timelines (R236,
R237) and flags (R238, R239), fences and scoped accesses (R240, R241), reels (R242 to R248).
-/
namespace Sys2Proof.Machine

/-! ### The waiting discipline -/

/-- How a waiting instruction evaluates its condition (with its success effects), what an expiry undoes, the status it
then writes, and the relative deadline it read. -/
structure WaitOps where
  attempt : M Bool
  withdraw : M Unit
  expired : M Unit
  deadline : M Word

/-- Expiry(d) of R228. -/
def expiryOf (d : Word) : M (Nat × Bool) := do
  let s ← get
  let c := s.hart.wceil
  if c < d.toNat then return (s.now + c, true) else return (s.now + d.toNat, false)

/-- End a wait at its expiry: what it withdraws, then its code, or WAIT_CEILING for a clamped wait (R229, R230). -/
def waitEnds (ops : WaitOps) (clamped : Bool) : M Unit := do
  ops.withdraw
  if clamped then raise 27 (← ops.deadline) else ops.expired

/-- Start a wait that stands on some pieces of what it waits for: evaluate at issue, end at once when the deadline is 0 or already
past, else hold the strand (R229). -/
def startWaitOn (i : Instr) (rdVal : Word) (token : Nat) (due : List (Nat × Nat × Cls)) (ops : WaitOps) : M Unit := do
  let (x, c) ← expiryOf (← ops.deadline)
  modH fun h => { h with wait := some ⟨i, x, c, rdVal, [], token, due⟩ }
  if (← ops.attempt) then pure ()
  else if x ≤ (← get).now then waitEnds ops c
  else throw .hold

/-- Start a wait (R229). -/
def startWait (i : Instr) (rdVal : Word) (token : Nat) (ops : WaitOps) : M Unit := startWaitOn i rdVal token [] ops

/-- The pending wait's record, changed. -/
def modWait (f : PendingWait → PendingWait) : M Unit := modH fun h => { h with wait := h.wait.map f }

/-- A field of the pending wait, with a default. -/
def getWait (d : α) (f : PendingWait → α) : M α := do return ((← getH).wait.map f).getD d

/-! ### Answers (R231) -/

/-- The expiry of an instruction that has no deadline operand: WAIT_CEILING, whether it was clamped or not (R231). -/
def wdefExpires : M Unit := do raise 27 (← getH).wdef

/-- How an instruction without a deadline operand waits for its answer: it goes on once the answer has come, and traps at the
expiry of wdef having done nothing more (R231). -/
def answerOps (finish : M Unit) : WaitOps where
  attempt := do
    match (← takeAnswer) with
    | none => do
      finish
      return true
    | some _ => return false
  withdraw := pure ()
  expired := wdefExpires
  deadline := return (← getH).wdef

/-! ### Timelines -/

/-- A timeline of the running strand. -/
def Strand.timeline (h : Strand) (t : BitVec 2) : Timeline := h.tl.get t.toFin

/-- How tlwait waits (R236). -/
def tlwaitOps (tl : BitVec 2) (rs2 rs1 rd : BitVec 5) : WaitOps where
  attempt := do
    let h ← getH
    let t := h.timeline tl
    if (h.rx rs1).toNat ≤ t.completed.toNat then
      acquire
      writeX rd (status 0 t.completed.toNat)
      return true
    else return false
  withdraw := pure ()
  expired := do
    let h ← getH
    writeX rd (status 1 (h.timeline tl).completed.toNat)
  deadline := readX rs2

/-- tlwait (R236). -/
def execTlwait (tl : BitVec 2) (rs2 rs1 rd : BitVec 5) (s : State) : Host.Outcome State Fault Refusal :=
  runInstr (.tlwait tl rs2 rs1 rd) (do
    let h ← getH
    if (h.timeline tl).issued.toNat < (h.rx rs1).toNat then writeX rd (status 7 (h.timeline tl).issued.toNat)
    else startWait (.tlwait tl rs2 rs1 rd) 0#64 0 (tlwaitOps tl rs2 rs1 rd)) s

/-- tlnow (R237). -/
def execTlnow (tl : BitVec 2) (rd : BitVec 5) (s : State) : Host.Outcome State Fault Refusal :=
  runInstr (.tlnow tl rd) (do writeX rd ((← getH).timeline tl).completed) s

/-! ### Flags in memory -/

/-- The test of wflag and vwait on unsigned values (R238). -/
def flagTest (ge : Bool) (v want : Nat) : Bool := if ge then decide (want ≤ v) else v == want

/-- How wflag waits (R238); the pending wait's token is the last value read. -/
def wflagOps (ge : Bool) (rs2 rs1 rd : BitVec 5) : WaitOps where
  attempt := do
    let want ← getWait 0#64 (·.rdVal)
    let a ← readX rs1
    let v ← bypassLoad a.toNat 8
    modWait fun w => { w with token := v }
    if flagTest ge v want.toNat then
      acquire
      writeX rd (status 0 v)
      return true
    else return false
  withdraw := pure ()
  expired := do writeX rd (status 1 (← getWait 0 (·.token)))
  deadline := readX rs2

/-- wflag (R238). -/
def execWflag (ge : Bool) (rs2 rs1 rd : BitVec 5) (s : State) : Host.Outcome State Fault Refusal :=
  runInstr (.wflag ge rs2 rs1 rd) (do
    let h ← getH
    startWait (.wflag ge rs2 rs1 rd) (h.rx rd) 0 (wflagOps ge rs2 rs1 rd)) s

/-- Whether a flag value of the expected element's type passes vwait's test (R239). -/
def vflagTest (ge : Bool) (t : ETag) (v want : Nat) : Bool :=
  if ge then decide (decodeInt t want ≤ decodeInt t v) else v == want

/-- On ending, each active element's bit of kd is 1 when it was not met (R239). -/
def vwaitMask (kd : BitVec 3) : M Unit := do
  let met ← getWait [] (·.met)
  modH fun h => (h.activeFrom kd 0 h.vl).foldl (fun k e => k.storeKbit kd e (!met.contains e)) h

/-- How vwait waits (R239). -/
def vwaitOps (ge : Bool) (kd : BitVec 3) (vs rs1 rd : BitVec 5) : WaitOps where
  attempt := do
    let h ← getH
    let t := h.tag (nextReg vs)
    let es := h.activeFrom kd 0 h.vl
    forEach es fun e => do
      let met ← getWait [] (·.met)
      if met.contains e then pure ()
      else do
        let v ← atElem e (bypassLoad (h.elem vs 64 e) (t.width / 8))
        if vflagTest ge t v (h.elem (nextReg vs) t.width e) then
          acquire
          modWait fun w => { w with met := setAdd e w.met }
    let met ← getWait [] (·.met)
    if es.all met.contains then
      vwaitMask kd
      writeX rd (status 0 0)
      clearVsta
      return true
    else return false
  withdraw := do
    vwaitMask kd
    clearVsta
  expired := do
    let h ← getH
    let met ← getWait [] (·.met)
    -- kd has been written: its active bits are the unmet elements
    let unmet := if kd = 0#3 then (rangeFrom 0 h.vl).filter fun e => !met.contains e else h.activeFrom kd 0 h.vl
    writeX rd (status 1 unmet.length)
  deadline := readX rs1

/-- vwait (R239). -/
def execVwait (ge : Bool) (kd : BitVec 3) (vs rs1 rd : BitVec 5) (s : State) : Host.Outcome State Fault Refusal :=
  runInstr (.vwait ge kd vs rs1 rd) (do
    vecGate
    let h ← getH
    let t := h.tag vs
    let u := h.tag (nextReg vs)
    need (t == .i64 || t == .n64) typeFault
    need (u == .i32 || u == .n32 || u == .i64 || u == .n64) typeFault
    needCap [t, u]
    needChains [.vreg vs.toNat, .vreg (nextReg vs).toNat] []
    let es := h.activeFrom kd 0 h.vl
    forEach es fun e => atElem e (consume (h.badOf (h.srcReads [vs, nextReg vs] kd e)))
    needUpsetIn 0 h.vl
    forEach es fun e => atElem e (do
      checkAddress .load (h.elem vs 64 e) (u.width / 8)
      let _ ← translateIdem .load (h.elem vs 64 e))
    startWait (.vwait ge kd vs rs1 rd) 0#64 0 (vwaitOps ge kd vs rs1 rd)) s

/-! ### Fences and scoped accesses -/

/-- Invalidate this core's instruction cache (R79, R240). -/
def flushIcache : M Unit := modify fun s =>
  { s with icache := s.icache.filter fun l => l.core != coreNo s.hart.place }

/-- Whether every command that the strand issued before command number n has ended (class e, R264). -/
def commandsDone (s : State) (n : Nat) : Bool :=
  s.cmds.all fun c => c.sid != s.hart.sid || n ≤ c.id || c.fin.isSome

/-- Acquire at a scope: cached lines are barred at core scope or wider (R262). -/
def acquireAt (sc : Scope) : M Unit := if sc = .strand then pure () else acquire

/-- The output CE8 ports of the strand's chains, each with its number, what it has produced and what of that stands in an open
group, not yet written (R214). -/
def openPorts (h : Strand) : List (Nat × Nat × Nat) :=
  ((rangeFrom 0 4).zip h.c.toList).flatMap fun x =>
    ((rangeFrom 0 8).zip (x.2.rcd.ports.zip x.2.ports)).filterMap fun p =>
      if p.2.1.dir = 1 ∧ p.2.1.format = 0x10 then some (8 * x.1 + p.1, p.2.2.cursor, p.2.2.pend.length) else none

/-- What the strand's output ports owe a sync that issues now: their elements that are produced and not written (R264). -/
def portsOwe (h : Strand) : List (Nat × Nat × Cls) :=
  ((openPorts h).filter fun p => p.2.2 != 0).map fun p => (p.1, p.2.1, 0#6)

/-- Whether every output element that the strand's chains had produced when a sync issued is written (class c, R264); a chain
released since owes nothing. -/
def portsWritten (h : Strand) (due : List (Nat × Nat × Cls)) : Bool :=
  due.all fun d => (openPorts h).all fun p => p.1 != d.1 || decide (p.2.1 < d.2.1) || decide (d.2.1 ≤ p.2.1 - p.2.2)

/-- Read-ahead of the strand's chain ports is withdrawn, the rest of a CE8 block that an input port has read with it (class l,
R265). -/
def dropAhead (h : Strand) : Strand :=
  { h with c := h.c.map fun c => c.withoutAhead }

/-- The named classes that are not complete: only e and c can be, the strand's own accesses being performed as they are
made (R240, R264). DESIGN CHOICE (log 20): at strand scope, for which R264 speaks of l and s alone, e and c are complete where they are at
the wider scopes. -/
def incomplete (s : State) (classes n : Nat) (due : List (Nat × Nat × Cls)) : Nat :=
  (if classes.testBit 2 ∧ commandsDone s n = false then 4 else 0) +
    (if classes.testBit 3 ∧ portsWritten s.hart due = false then 8 else 0)

/-- The ordering that a sync gives once some classes are complete: no cached line and no read-ahead from before it serves the
strand after it, for l, at every scope; no instruction line, for i (R262, R265, R240). -/
def orderAfter (done : Nat) : M Unit := do
  if done.testBit 0 then
    acquire
    modH dropAhead
  if done.testBit 4 then flushIcache

/-- How sync waits; the token is the first command number issued after it, and what the output ports owed at its issue stands
beside it (R240). -/
def syncOps (classes rs1 rd : BitVec 5) : WaitOps where
  attempt := do
    let n ← getWait 0 (·.token)
    if incomplete (← get) classes.toNat n (← getWait [] (·.due)) = 0 then
      orderAfter classes.toNat
      writeX rd (status 0 classes.toNat)
      return true
    else return false
  withdraw := pure ()
  expired := do
    let n ← getWait 0 (·.token)
    let done := classes.toNat - incomplete (← get) classes.toNat n (← getWait [] (·.due))
    orderAfter done
    writeX rd (status 5 done)
  deadline := readX rs1

/-- sync (R240): classes l, s, e, c, i in bits 0 to 4. -/
def execSync (sc : Scope) (classes rs1 rd : BitVec 5) (s : State) : Host.Outcome State Fault Refusal :=
  runInstr (.sync sc classes rs1 rd) (do
    if classes.getLsbD 1 || classes.getLsbD 4 then endRewind
    let s ← get
    startWaitOn (.sync sc classes rs1 rd) 0#64 s.nextId (portsOwe s.hart) (syncOps classes rs1 rd)) s

/-- The page of an access that waits for its answer, as its wait keeps it: its size (R339). -/
def pageOf (va pa : Nat) : M (List (Nat × Nat × Cls)) := do
  let s ← get
  return [(pageSpan s va pa, 0, 0#6)]

/-- What an ldaq does when its data comes (R241, R260); the token is the physical address, twice, and one more for device
class. -/
def finishLdaq (sc : Scope) (rs1 rd : BitVec 5) : M Unit := do
  let t ← getWait 0 (·.token)
  let va := (← readX rs1).toNat
  let pa := t / 2
  let v ← if t % 2 = 1 then deviceRead va pa 8
    else do
      let bs ← ownBytes pa 8 va
      dropDcache pa 8
      pure (ofBytes bs)
  noteAccess false va 8
  acquireAt sc
  writeX rd (BitVec.ofNat 64 v)

/-- ldaq (R241): it waits for its data under wdef. -/
def execLdaq (sc : Scope) (rs1 rd : BitVec 5) (s : State) : Host.Outcome State Fault Refusal :=
  runInstr (.ldaq sc rs1 rd) (do
    let va := (← readX rs1).toNat
    checkAddress .load va 8
    let (pa, dev) ← translateH .load va
    if !dev && decide (ctlBase ≤ pa) then raise 5 (BitVec.ofNat 64 va)
    if dev then endRewind
    startWaitOn (.ldaq sc rs1 rd) 0#64 (2 * pa + dev.toNat) (← pageOf va pa) (answerOps (finishLdaq sc rs1 rd))) s

/-- What a strl does when the strand's earlier accesses are complete (R241). -/
def finishStrl (rs2 rs1 : BitVec 5) : M Unit := do
  let t ← getWait 0 (·.token)
  let h ← getH
  let va := (h.rx rs1).toNat
  if t % 2 = 1 then deviceWrite va (t / 2) 8 (h.rx rs2).toNat
  else modify (homeWrite h.agent (t / 2) (toBytes 8 (h.rx rs2).toNat))
  noteAccess true va 8

/-- strl (R241): it commits the strip, waits under wdef for the strand's earlier accesses, and stores. DESIGN CHOICE (log 18): one
whose address check fails traps before the commit, which R281 calls the first step of a strl. -/
def execStrl (sc : Scope) (rs2 rs1 : BitVec 5) (s : State) : Host.Outcome State Fault Refusal :=
  runInstr (.strl sc rs2 rs1) (do
    let va := (← readX rs1).toNat
    checkAddress .store va 8
    let (pa, dev) ← translateH .store va
    if !dev && decide (ctlBase ≤ pa) then raise 7 (BitVec.ofNat 64 va)
    endRewind
    startWaitOn (.strl sc rs2 rs1) 0#64 (2 * pa + dev.toNat) (← pageOf va pa) (answerOps (finishStrl rs2 rs1))) s

/-! ### Reels -/

/-- The reel of an identifier in a launch (R242). -/
def findReel (s : State) (launch id : Nat) : Option Reel := s.reels.find? fun r => r.launch == launch && r.id == id

/-- Replace a reel. -/
def putReel (r : Reel) (s : State) : State :=
  { s with reels := r :: s.reels.filter fun q => !(q.launch == r.launch && q.id == r.id) }

/-- The phase token (R242). -/
def Reel.token (r : Reel) : Nat := r.id * 2 ^ 32 + r.phase

/-- Whether a strand waits on a phase token of its launch. -/
def waitsOn (launch token : Nat) (h : Strand) : Bool :=
  h.launch == launch && (match h.wait with
    | some w => (match w.instr with
        | .rlbar _ _ _ | .rlwait _ _ _ => w.token == token
        | _ => false)
    | none => false)

/-- Decide every wait on a phase token: 1 dissolved, 2 complete (R243, R245). -/
def decideWaits (launch token what : Nat) (s : State) : State :=
  let f (h : Strand) : Strand :=
    if waitsOn launch token h then
      { h with wait := h.wait.map fun w => if w.met = [] then { w with met := [what] } else w }
    else h
  { s with hart := f s.hart, parked := s.parked.map f }

/-- Complete the phase when every member has arrived; joins and leaves then apply (R242). -/
def settleReel (r : Reel) (s : State) : State :=
  if r.members ≠ [] ∧ r.members.all r.arrived.contains = true then
    let next : Reel := { r with
      phase := (r.phase + 1) % 2 ^ 32
      members := (r.members.filter fun m => !r.leaving.contains m) ++ r.joining
      arrived := [], joining := [], leaving := [] }
    decideWaits r.launch r.token 2 (putReel next s)
  else putReel r s

/-- The reel operand of a membership instruction: refused with a nonzero high part (R243). DESIGN CHOICE (log 20): rlarr and rlbar are refused
so too, with reason 6, though R244 names bits 15 to 0 of x[rs1] alone. -/
def reelOperand (rs1 rd : BitVec 5) (f : Nat → M Unit) : M Unit := do
  let v := (← readX rs1).toNat
  if 2 ^ 16 ≤ v then writeX rd (status 7 6) else f v

/-- The live reel of an identifier, or a refusal with reason 1. -/
def liveReel (id : Nat) (rd : BitVec 5) (f : Reel → M Unit) : M Unit := do
  let s ← get
  match findReel s s.hart.launch id with
  | some r => f r
  | none => writeX rd (status 7 1)

/-- rlnew (R243). -/
def execRlnew (rs1 rd : BitVec 5) (s : State) : Host.Outcome State Fault Refusal :=
  runInstr (.rlnew rs1 rd) (reelOperand rs1 rd fun id => do
    let s ← get
    if (findReel s s.hart.launch id).isSome then writeX rd (status 7 2)
    else do
      endRewind
      let r : Reel := ⟨s.hart.launch, id, 0, [s.hart.sid], [], [], []⟩
      modify (putReel r)
      writeX rd (status 0 r.token)) s

/-- rljoin (R243): from the next phase, or from the current one when it has no members. -/
def execRljoin (rs1 rd : BitVec 5) (s : State) : Host.Outcome State Fault Refusal :=
  runInstr (.rljoin rs1 rd) (reelOperand rs1 rd fun id => liveReel id rd fun r => do
    let sid := (← getH).sid
    if r.members.contains sid || r.joining.contains sid then writeX rd (status 7 3)
    else do
      endRewind
      if r.members = [] then
        modify (putReel { r with members := [sid] })
        writeX rd (status 0 r.token)
      else
        modify (putReel { r with joining := r.joining ++ [sid] })
        writeX rd (status 0 (r.id * 2 ^ 32 + (r.phase + 1) % 2 ^ 32))) s

/-- Arrive and leave at the end of the current phase (R243, R247). -/
def leaveReel (sid : Nat) (r : Reel) (s : State) : State :=
  settleReel { r with arrived := if r.arrived.contains sid then r.arrived else sid :: r.arrived,
                      leaving := sid :: r.leaving } s

/-- rlleave (R243). -/
def execRlleave (rs1 rd : BitVec 5) (s : State) : Host.Outcome State Fault Refusal :=
  runInstr (.rlleave rs1 rd) (reelOperand rs1 rd fun id => liveReel id rd fun r => do
    let sid := (← getH).sid
    if !r.members.contains sid || r.leaving.contains sid then writeX rd (status 7 4)
    else do
      endRewind
      modify (leaveReel sid r)
      writeX rd (status 0 r.token)) s

/-- rlfree (R243). -/
def execRlfree (rs1 rd : BitVec 5) (s : State) : Host.Outcome State Fault Refusal :=
  runInstr (.rlfree rs1 rd) (reelOperand rs1 rd fun id => liveReel id rd fun r => do
    endRewind
    modify fun s => decideWaits r.launch r.token 1
      { s with reels := s.reels.filter fun q => !(q.launch == r.launch && q.id == r.id) }
    writeX rd (status 0 r.token)) s

/-- rlarr (R244). -/
def execRlarr (rs1 rd : BitVec 5) (s : State) : Host.Outcome State Fault Refusal :=
  runInstr (.rlarr rs1 rd) (reelOperand rs1 rd fun id => liveReel id rd fun r => do
    let sid := (← getH).sid
    if !r.members.contains sid then writeX rd (status 7 4)
    else if r.arrived.contains sid then writeX rd (status 7 5)
    else do
      endRewind
      modify (settleReel { r with arrived := sid :: r.arrived })
      writeX rd (status 0 r.token)) s

/-- How rlbar and rlwait wait on the token they hold (R244, R245, R246); an rlbar that takes effect ends rewindability (R247),
which its arrival has done already where it arrived itself, and so does the withdrawal of an earlier arrival (R246). -/
def phaseOps (bar : Bool) (rs2 rd : BitVec 5) : WaitOps where
  attempt := do
    let t ← getWait 0 (·.token)
    let met ← getWait [] (·.met)
    if met = [1] then
      writeX rd (status 6 t)
      return true
    else if met = [2] then
      if bar then endRewind
      acquire
      writeX rd (status 0 t)
      return true
    else return false
  withdraw := do
    let t ← getWait 0 (·.token)
    let s ← get
    match findReel s s.hart.launch (t / 2 ^ 32) with
    | some r =>
      if r.phase = t % 2 ^ 32 ∧ r.arrived.contains s.hart.sid = true then
        if bar then endRewind
        modify (putReel { r with arrived := r.arrived.filter (· != s.hart.sid) })
    | none => pure ()
  expired := do writeX rd (status 1 (← getWait 0 (·.token)))
  deadline := readX rs2

/-- rlbar (R244): an arrival, when the strand has not arrived, then a wait. An arrival that a deadline of 0 would withdraw at
once has no effect, so it does not end rewindability (R246, R281); any other arrival ends it, also where its wait later ends with
TIMEOUT (DESIGN CHOICE, log 20). -/
def execRlbar (rs2 rs1 rd : BitVec 5) (s : State) : Host.Outcome State Fault Refusal :=
  runInstr (.rlbar rs2 rs1 rd) (reelOperand rs1 rd fun id => liveReel id rd fun r => do
    let sid := (← getH).sid
    let ops := phaseOps true rs2 rd
    let first := !r.arrived.contains sid
    let completes := first && r.members.all fun m => m == sid || r.arrived.contains m
    if !r.members.contains sid then writeX rd (status 7 4)
    else do
      let (x, c) ← expiryOf (← readX rs2)
      let brief := !completes && decide (x ≤ (← get).now)
      if first && !brief then endRewind
      -- the wait stands before the arrival, so that the completion it makes decides it
      modH fun h => { h with wait := some ⟨.rlbar rs2 rs1 rd, x, c, 0#64, [], r.token, []⟩ }
      if first && !brief then modify (settleReel { r with arrived := sid :: r.arrived })
      if (← ops.attempt) then pure ()
      else if x ≤ (← get).now then waitEnds ops c
      else throw .hold) s

/-- rlwait (R245). -/
def execRlwait (rs2 rs1 rd : BitVec 5) (s : State) : Host.Outcome State Fault Refusal :=
  runInstr (.rlwait rs2 rs1 rd) (do
    let t := (← readX rs1).toNat
    if 2 ^ 48 ≤ t then writeX rd (status 7 6)
    else liveReel (t / 2 ^ 32) rd fun r => do
      let d := (r.phase + 2 ^ 32 - t % 2 ^ 32) % 2 ^ 32
      if 2 ^ 31 ≤ d then writeX rd (status 7 7)
      else if d = 0 then startWait (.rlwait rs2 rs1 rd) 0#64 t (phaseOps false rs2 rd)
      else if d = 1 then do
        acquire
        writeX rd (status 0 t)
      else writeX rd (status 2 r.token)) s

end Sys2Proof.Machine
end

