-- ==== Sys2Proof/Machine/Engines.lean ====
section
/-!
DEFINITION. The gather/scatter engines (16_cluster.md, R302 to R315): descriptors, issue, element accesses, completion
records, cancelling, the range checker; and the accesses that agents other than strands make at their homes.
-/
namespace Sys2Proof.Machine

/-! ### Strands by number -/

/-- A strand by its number. -/
def findStrand (s : State) (sid : Nat) : Option Strand :=
  if s.hart.sid = sid then some s.hart else s.parked.find? fun h => h.sid == sid

/-- Change a strand by its number. -/
def modStrand (sid : Nat) (f : Strand → Strand) (s : State) : State :=
  if s.hart.sid = sid then { s with hart := f s.hart }
  else { s with parked := s.parked.map fun h => if h.sid = sid then f h else h }

/-- Record the src-2 hits of an access that an agent of the strand makes (R287). -/
def noteAsync (sid : Nat) (a : Agent) (write : Bool) (va n : Nat) (s : State) : State :=
  modStrand sid (fun h => [0, 1, 2, 3].foldl (fun h i =>
    let w := nth h.wpt.toList i 0#64
    let r := wptRegion w
    if wptSrc w = 2 && (if write then w.getLsbD 3 else w.getLsbD 2) && overlaps (va % 2 ^ 57) n r.1 r.2 then
      h.addHit ⟨i % 4, Nat.mod_lt _ (by decide)⟩ (asyncHit s sid i write a ((if va % 2 ^ 57 < r.1 then r.1 else va % 2 ^ 57) - r.1))
    else h) h) s

/-- Record the src-2 hits of accesses in order: offsets and sizes from an address (R287). -/
def noteEach (sid : Nat) (a : Agent) (write : Bool) (va : Nat) (us : List (Nat × Nat)) (s : State) : State :=
  us.foldl (fun s u => noteAsync sid a write (va + u.1) u.2 s) s

/-- Record the src-2 hit of an atomic that an agent of the strand makes: it counts as a read and a write, and hits a watchpoint
once. DESIGN CHOICE (log 34): the word shows a read where the watchpoint watches reads, as the strand's own atomic does. -/
def noteAtomic (sid : Nat) (a : Agent) (va n : Nat) (s : State) : State :=
  modStrand sid (fun h => [0, 1, 2, 3].foldl (fun h i =>
    let w := nth h.wpt.toList i 0#64
    let r := wptRegion w
    if wptSrc w = 2 && (w.getLsbD 2 || w.getLsbD 3) && overlaps (va % 2 ^ 57) n r.1 r.2 then
      h.addHit ⟨i % 4, Nat.mod_lt _ (by decide)⟩
        (asyncHit s sid i (!w.getLsbD 2) a ((if va % 2 ^ 57 < r.1 then r.1 else va % 2 ^ 57) - r.1))
    else h) h) s

/-! ### Accesses of other agents -/

/-- Where an agent translates: its address-space identifier, the root of its die (R329), and the translation caches that serve it,
nearest first (R337). -/
structure Realm where
  asid : Nat
  root : Nat
  sites : List TlbSite
  deriving DecidableEq, Repr

/-- The strand's own realm, which its chain ports share (R328, R329). -/
def Strand.realm (h : Strand) : Realm := ⟨h.asid, h.root, sitesOf h.place⟩

/-- The realm of the I/O-die copy engine, the fabric engine's local side and the Shutter: die 0's (R329, R339). -/
def packageRealm (asid root : Nat) : Realm := ⟨asid, root, [.walker 0]⟩

/-- A command's realm: of the cluster whose engine carries it out, or of die 0 (R329). -/
def Cmd.realm (c : Cmd) : Realm :=
  match c.body with
  | .engine _ _ => ⟨c.asid, c.root, [.cluster c.die c.cluster, .walker c.die]⟩
  | _ => packageRealm c.asid c.root

/-- The held entry that translates an agent's access, where the step takes those (R337). -/
def agentEntry (s : State) (r : Realm) (va : Nat) : Option TlbEntry :=
  match s.choices with
  | .stale true :: _ => tlbFind s r.sites r.asid va
  | _ => none

/-- The translation of an agent's access: by a held entry or by a walk (R333, R337). -/
def agentTranslate (s : State) (r : Realm) (user : Bool) (k : Access) (va : Nat) : Except Nat (Nat × Bool) :=
  match agentEntry s r va with
  | some t => translateFrom s user k va t
  | none => translate s r.root user k va

/-- Translate an idempotent access of an agent: the address, or the cause (R312, R334). Alignment n, 1 for none; a misaligned access
of a stack's control space raises an access fault, as any other of an agent there does (R367). -/
def agentAddr (s : State) (r : Realm) (user : Bool) (k : Access) (va n : Nat) : Except Nat Nat :=
  if !canonical va then .error (pageCause k)
  else match agentTranslate s r user k va with
    | .error c => .error (if va % n ≠ 0 then (if k = .store then 6 else 4) else c)
    | .ok (pa, dev) =>
      if ctlBase ≤ pa then .error (accessCause k)
      else if va % n ≠ 0 then .error (if k = .store then 6 else 4)
      else if dev then .error (accessCause k)
      else .ok pa

/-- A read of n bytes by an agent: cause 28 for a poisoned word. -/
def agentRead (s : State) (r : Realm) (user : Bool) (va n : Nat) : Except Nat Nat :=
  match agentAddr s r user .load va n with
  | .error c => .error c
  | .ok pa => if readsBad s pa n then .error 28 else .ok (homeRead s pa n)

/-- The words that a read of an agent has met as uncorrectable are suspect: those of its walk, and those it was to read
(R355). -/
def agentSuspect (r : Realm) (user : Bool) (va n : Nat) (s : State) : State :=
  let s := suspectWalk (walkReads s r.root va (agentEntry s r va)) s
  match agentAddr s r user .load va n with
  | .ok pa => suspectRead pa n s
  | .error _ => s

/-- What an access of an agent that has failed with a cause leaves: the words that it met as uncorrectable are suspect (R355), and no
cache keeps a leaf that has faulted (R337). -/
def suspectAt (r : Realm) (user : Bool) (cause va : Nat) (s : State) : State :=
  if cause = 28 then agentSuspect r user va 1 s else dropFaulted r.sites r.asid va s

/-- A write of n bytes by an agent. -/
def agentWrite (s : State) (a : Agent) (r : Realm) (user : Bool) (va n v : Nat) : Except Nat State :=
  match agentAddr s r user .store va n with
  | .error c => .error c
  | .ok pa => .ok (homeWrite a pa (toBytes n v) s)

/-- An update token of an agent: applied at the home; a token to a lost node is an uncorrectable error (R316, R319). -/
def agentToken (s : State) (a : Agent) (r : Realm) (user : Bool) (op : VAmo) (t : ETag) (mode : RMode) (va v : Nat) :
    Except Nat (State × Cls) :=
  let n := t.width / 8
  match agentAddr s r user .store va n with
  | .error c => .error c
  | .ok pa =>
    if readsBad s pa n then .error 28
    else
      let r := tokenNew op t mode (homeRead s pa n) v
      .ok (homeWrite a pa (toBytes n r.1) s, r.2)

/-! ### Descriptors -/

/-- Field of n bytes at an offset of a structure in memory. -/
def sub (bs : List Byte) (off n : Nat) : Nat := ofBytes ((bs.drop off).take n)

/-- A 32-bit field read as signed. -/
def signed32 (v : Nat) : Int := if v < 2 ^ 31 then v else (v : Int) - 2 ^ 32

/-- Read a structure of n bytes in idempotent memory; a fault is at its lowest failing word (R218, R309, R391). -/
def readStruct (a n : Nat) : M (List Byte) := do
  if a % 64 ≠ 0 then raiseAt 4 0 a
  let ws ← mapEach (rangeFrom 0 (n / 8)) fun i => atElem 0 (do
    let va := (a + 8 * i) % 2 ^ 64
    let pa ← translateIdem .load va
    let bs ← ownBytes pa 8 va
    dropDcache pa 8
    noteAccess false va 8
    return bs)
  return ws.flatten

/-- The descriptor of R303. -/
def parseEng (bs : List Byte) : EngDesc :=
  { sbase := sub bs 0 8, dbase := sub bs 8 8, xbase := sub bs 16 8, rcd := sub bs 24 8, sfmt := sub bs 32 1,
    dfmt := sub bs 33 1, dims := sub bs 34 1, flags := sub bs 35 1,
    dim := (rangeFrom 0 6).map fun d =>
      (sub bs (40 + 12 * d) 4, signed32 (sub bs (44 + 12 * d) 4), signed32 (sub bs (48 + 12 * d) 4)) }

/-- The used dimensions. -/
def EngDesc.used (d : EngDesc) : List (Nat × Int × Int) := d.dim.take d.dims

/-- The element count C (R303). -/
def EngDesc.total (d : EngDesc) : Nat := d.used.foldl (fun n x => n * x.1) 1

/-- Formats that esct with add accepts (R304). -/
def addFormat (f : Nat) : Bool := f == 5 || f == 6 || f == 7 || f == 8 || f == 13 || f == 14

/-- Fields that R303 reserves or R304 marks zero for a kind. -/
def engReserved (k : EngKind) (bs : List Byte) (d : EngDesc) : Bool :=
  let sz := d.dim.all fun x => x.2.1 == 0
  let dz := d.dim.all fun x => x.2.2 == 0
  sub bs 36 4 != 0 || sub bs 112 16 != 0 || 4 ≤ d.flags || ((d.dim.drop d.dims).any fun x => x != (0, 0, 0)) ||
    (match k with
      | .copy => d.xbase != 0 || d.flags != 0
      | .gather => !sz || 2 ≤ d.flags
      | .scatter => !dz
      | .fill => d.sbase != 0 || !sz || d.flags != 0
      | .cvt => d.xbase != 0 || d.flags != 0)

/-- Whether a format code is a type of R23 that the engines take. -/
def plainFormat (f : Nat) : Bool := 1 ≤ f && f ≤ 14

/-- The format rule of R304 and R307. -/
def engFormats (k : EngKind) (d : EngDesc) : Bool :=
  match k with
  | .copy | .gather => plainFormat d.sfmt && d.sfmt == d.dfmt
  | .scatter => plainFormat d.sfmt && d.sfmt == d.dfmt && (d.flags < 2 || addFormat d.dfmt)
  | .fill => d.sfmt == 0 && plainFormat d.dfmt
  | .cvt => (plainFormat d.sfmt && plainFormat d.dfmt)
      || (d.sfmt == 0x10 && plainFormat d.dfmt && (ETag.ofCode d.dfmt).isFloat)
      || (d.sfmt == 13 && d.dfmt == 0x10)

/-- The CE8 rule of R307. -/
def engCe8 (d : EngDesc) : Bool :=
  let x := nth d.dim 0 (0, 0, 0)
  (d.sfmt != 0x10 || (d.dims == 1 && x.2.1 == 0 && x.1 % 32 == 0)) &&
  (d.dfmt != 0x10 || (d.dims == 1 && x.2.2 == 0 && x.1 % 32 == 0))

/-- The engine of the cluster that serves a core: n mod 2, or the other one when it is lost (R302, R319). -/
def engineFor (s : State) (p : Place) : Option Nat :=
  let e := p.core % 2
  let gone (e : Nat) : Bool := s.lostEngines.contains (p.die, p.cluster, e)
  if !gone e then some e else if !gone (1 - e) then some (1 - e) else none

/-- The lowest-numbered refusal reason of R310, 0 for none. -/
def engRefusal (s : State) (k : EngKind) (bs : List Byte) (d : EngDesc) : Nat :=
  if engReserved k bs d then 1
  else if !engFormats k d then 2
  else if d.dims < 1 || 6 < d.dims then 3
  else if 2 ^ 48 ≤ d.total then 4
  else if !engCe8 d then 5
  else if d.rcd % 16 ≠ 0 then 6
  else if (engineFor s s.hart.place).isNone then 7
  else 0

/-! ### The range checker (R314) -/

/-- The least and greatest offset that the indices of one side give. -/
def sideSpan (ds : List (Nat × Int)) : Int × Int :=
  ds.foldl (fun (lo, hi) x =>
    let far := ((x.1 : Int) - 1) * x.2
    (lo + (if far < 0 then far else 0), hi + (if far < 0 then 0 else far))) (0, 0)

/-- A range of virtual addresses: first address and length. -/
abbrev Span := Int × Int

/-- The range of a strided side. -/
def strided (base w : Nat) (ds : List (Nat × Int)) : Span :=
  let sp := sideSpan ds
  ((base : Int) + sp.1, sp.2 - sp.1 + w)

/-- The range of an indexed side. -/
def indexed (base : Nat) (ix64 : Bool) : Span := if ix64 then (-(2 ^ 64), 2 ^ 66) else (base, 2 ^ 32 + 8)

/-- Width in bytes of a format, 1 for CE8 (its streams have ranges of their own). -/
def fmtBytes (f : Nat) : Nat := if f = 0x10 then 1 else (ETag.ofCode f).width / 8

/-- The ranges of a command (R314, R409). -/
def cmdRanges (c : Cmd) : List Span :=
  let rcd (r n : Nat) : List Span := if r = 0 then [] else [((r : Int), (n : Int))]
  match c.body with
  | .engine k d =>
    let n := d.total
    if n = 0 then rcd d.rcd 16
    else
      let ss := d.used.map fun x => (x.1, x.2.1)
      let ds := d.used.map fun x => (x.1, x.2.2)
      let ix := d.flags % 2 == 1
      let list : Span := (d.xbase, (if ix then 8 else 4) * n)
      let src : Span := if d.sfmt = 0x10 then (d.sbase, 8 * n) else strided d.sbase (fmtBytes d.sfmt) ss
      let dst : Span := if d.dfmt = 0x10 then (d.dbase, 8 * n) else strided d.dbase (fmtBytes d.dfmt) ds
      (match k with
        | .copy | .cvt => [src, dst]
        | .gather => [indexed d.sbase ix, dst, list]
        | .scatter => [src, indexed d.dbase ix, list]
        | .fill => [dst]) ++ rcd d.rcd 16
  | .remote _ d _ => ((d.laddr : Int), (d.len : Int)) :: rcd d.rcd 16
  | .coll d g =>
    let w := fmtBytes d.fmt
    let n := g.members.length
    let sIn := if d.op = 1 then n * d.c else d.c
    let sOut := if d.op = 2 then n * d.c else d.c
    [((d.src : Int), ((sIn * w : Nat) : Int)), ((d.dst : Int), ((sOut * w : Nat) : Int)),
      ((d.stg : Int), ((sOut * w : Nat) : Int))] ++ rcd d.rcd (24 + 8 * ((n + 63) / 64))

/-- Whether two ranges overlap; addresses wrap modulo 2^64 (R305). -/
def spansMeet (a b : Span) : Bool :=
  decide (0 < a.2) && decide (0 < b.2) && (decide ((b.1 - a.1) % 2 ^ 64 < a.2) || decide ((a.1 - b.1) % 2 ^ 64 < b.2))

/-- Whether an earlier command of the strand that has not completed overlaps this one (R314). -/
def mustWait (s : State) (c : Cmd) : Bool :=
  s.cmds.any fun d => d.sid == c.sid && decide (d.id < c.id) && d.fin.isNone &&
    (cmdRanges d).any fun a => (cmdRanges c).any (spansMeet a)

/-! ### Tickets and records -/

/-- Advance a completion count over the tickets that ended early (R315). -/
def drainEarly : Nat → Timeline → Timeline
  | 0, t => t
  | n + 1, t =>
    if t.early.contains (t.completed.toNat + 1) then
      drainEarly n { t with completed := t.completed + 1#64, early := t.early.filter (· != t.completed.toNat + 1) }
    else t

/-- A ticket of a timeline has ended (R77, R315). -/
def Timeline.complete (t : Timeline) (ticket : Nat) : Timeline :=
  let t := { t with early := ticket :: t.early }
  drainEarly t.early.length t

/-- A ticket of a strand's timeline has ended; a command of an earlier firing counts on none (R380). -/
def completeTicket (sid tl ticket : Nat) (s : State) : State :=
  if 4 ≤ tl then s
  else modStrand sid (fun h =>
    let i : Fin 4 := ⟨tl % 4, Nat.mod_lt _ (by decide)⟩
    { h with tl := h.tl.set i ((h.tl.get i).complete ticket) }) s

/-- Replace a command. -/
def putCmd (c : Cmd) (s : State) : State := { s with cmds := s.cmds.map fun d => if d.id = c.id then c else d }

/-- A command by its number. -/
def findCmd (s : State) (id : Nat) : Option Cmd := s.cmds.find? fun c => c.id == id

/-- The engine as an agent; the fabric engine's local side lies in the package (R255). DESIGN CHOICE (log 29): R287 has a kind for a fabric
engine of another package only; the strand's own reports that kind with its own package. -/
def Cmd.agent (c : Cmd) (pkg : Nat) : Agent :=
  match c.body with
  | .engine _ _ => .engine c.die c.cluster c.engine
  | _ => .remote pkg

/-! ### Contributions to a collective (R414, R415) -/

/-- Elements of a member's source and of its destination (R414); a member that is not the root has no source to read. -/
def collCounts (d : CollDesc) (g : Group) : Nat × Nat :=
  let n := g.members.length
  ((if d.op = 1 then n * d.c else if d.op = 3 ∧ g.self ≠ d.root then 0 else d.c), (if d.op = 2 then n * d.c else d.c))

/-- Elements of a member's source that are translated and checked: all of it, also where the member is not the root (R415). -/
def collSource (d : CollDesc) (g : Group) : Nat := if d.op = 1 then g.members.length * d.c else d.c

/-- The first fault of an agent's accesses of n elements of w bytes, those that are reads reading them: its cause and address. -/
def firstFault (s : State) (r : Realm) (user reads : Bool) (k : Access) (a w : Nat) : Nat → Nat → Option (Nat × Nat)
  | 0, _ => none
  | n + 1, i =>
    let va := (a + w * i) % 2 ^ 64
    match agentAddr s r user k va w with
    | .error c => some (c, va)
    | .ok pa => if reads && readsBad s pa w then some (28, va) else firstFault s r user reads k a w n (i + 1)

/-- The offsets and sizes of n elements of w bytes. -/
def elemUnits (w n : Nat) : List (Nat × Nat) := (rangeFrom 0 n).map fun i => (w * i, w)

/-- A member's contribution, or its fault notice, leaves for the switch; a fault is kept for its record. The whole source, destination
and stage are translated and checked before the source is read. -/
def contribute (c : Cmd) (d : CollDesc) (g : Group) (s : State) : State :=
  let w := fmtBytes d.fmt
  let n := collCounts d g
  let check := (firstFault s c.realm c.user false .load d.src w (collSource d g) 0).orElse fun _ =>
    (firstFault s c.realm c.user false .store d.dst w n.2 0).orElse fun _ => firstFault s c.realm c.user false .store d.stg w n.2 0
  let bad := check.orElse fun _ => firstFault s c.realm c.user true .load d.src w n.1 0
  -- the elements that the engine reads, up to the first that it cannot
  let read := if check.isSome then [] else (elemUnits w n.1).take (match bad with
    | some (_, a) => (a + 2 ^ 64 - d.src) % 2 ^ 64 / w
    | none => n.1)
  let data := (rangeFrom 0 n.1).map fun i =>
    match agentRead s c.realm c.user ((d.src + w * i) % 2 ^ 64) w with
    | .ok v => BitVec.ofNat 64 v
    | .error _ => 0#64
  let m : Contribution :=
    { tag := g.tag, seq := d.seq, self := g.self, op := d.op, fmt := ETag.ofCode d.fmt, count := d.c, root := d.root
      members := g.members.length, cdl := d.cdl, rm := c.rm, fault := bad.isSome, data := if bad.isSome then [] else data }
  let c := { c with next := 1, pend := match bad with
    | some (e, a) => [e, a]
    | none => [] }
  let s := match bad with
    | some (e, a) => suspectAt c.realm c.user e a s
    | none => s
  let s := noteEach c.sid (c.agent s.svc.pkg) false d.src read s
  { putCmd c s with fabricOut := s.fabricOut ++ [.contribution m] }

/-- Every collective whose earlier commands let it begin contributes (R314, R415). -/
def contributeReady (s : State) : State :=
  s.cmds.foldl (fun s c =>
    match c.body with
    | .coll d g => if c.fin.isNone && c.next == 0 && !mustWait s c then contribute c d g s else s
    | _ => s) s

/-- Write words of a record in order where its address translates; else none is written, and the log holds the loss (R311,
R387). A word that is written is an access of the given strand's command, none where the Shutter writes (R287). -/
def writeRecord (owner : Option Nat) (a : Agent) (r : Realm) (user : Bool) (va : Nat) (ws : List Nat) (s : State) : State :=
  let addrs := (rangeFrom 0 ws.length).map fun i => agentAddr s r user .store ((va + 8 * i) % 2 ^ 64) 8
  if va = 0 then s
  else if addrs.any (fun r => match r with | .error _ => true | .ok _ => false) then rasLogOther 0 0 s
  else (rangeFrom 0 ws.length).foldl (fun s i =>
    match nth addrs i (.error 0) with
    | .ok pa =>
      let s := homeWrite a pa (toBytes 8 (nth ws i 0)) s
      match owner with
      | some sid => noteAsync sid a true (va + 8 * i) 8 s
      | none => s
    | .error _ => s) s

/-- End a command: its record, then its ticket; a collective that waited for it may begin (R311, R312, R314). -/
def endCommand (c : Cmd) (e : CmdEnd) (w1 : Nat) (s : State) : State :=
  let rcd := match c.body with
    | .engine _ d => d.rcd
    | .remote _ d _ => d.rcd
    | .coll d _ => d.rcd
  let w0 := e.code + 256 * (e.count % 2 ^ 48) + 2 ^ 56 * e.cause
  let s := writeRecord (some c.sid) (c.agent s.svc.pkg) c.realm c.user rcd [w0, w1] s
  contributeReady (completeTicket c.sid c.tl c.ticket (putCmd { c with fin := some e } s))

/-! ### Issue -/

/-- Take a ticket on a timeline and queue a command for the running strand (R309, R315). -/
def issueCommand (tl : BitVec 2) (rd : BitVec 5) (die cluster engine root : Nat) (body : CmdBody) : M Cmd := do
  endRewind
  let s ← get
  let h := s.hart
  let t := h.timeline tl
  let n := t.issued + 1#64
  let c : Cmd := { id := s.nextId, sid := h.sid, launch := h.launch, tl := tl.toNat, ticket := n.toNat, die := die,
                   cluster := cluster, engine := engine, asid := h.asid, root := root, user := h.mode == .user, rm := h.rm,
                   body := body, next := 0, cls := 0#6, word := 0, pend := [], cancelled := false, fin := none }
  set { s with hart := { h with tl := h.tl.set tl.toFin { t with issued := n } }, cmds := s.cmds ++ [c], nextId := s.nextId + 1 }
  writeX rd (status 0 n.toNat)
  return c

/-- How an instruction waits for its engine to accept a command (R309, R409). -/
def issueOps (rs2 rd : BitVec 5) (accept : M Bool) : WaitOps where
  attempt := do
    match (← takeAnswer) with
    | none => accept
    | some _ => return false
  withdraw := pure ()
  expired := writeX rd (status 1 0)
  deadline := readX rs2

/-- The engine accepts a command (R309); one without elements completes at once, unless its record overlaps an earlier command
that has not ended (R314). The wait's token holds the descriptor. -/
def acceptEngine (k : EngKind) (tl : BitVec 2) (rd : BitVec 5) : M Bool := do
  let d := parseEng (toBytes 128 (← getWait 0 (·.token)))
  let s ← get
  let p := s.hart.place
  match engineFor s p with
  | none => return false
  | some e => do
    let c ← issueCommand tl rd p.die p.cluster e s.hart.root (.engine k d)
    if d.total = 0 then modify fun s => if mustWait s c then s else endCommand c ⟨0, 0, 0, 0⟩ 0 s
    return true

/-- Issue of an engine command (R309). -/
def issueEngine (i : Instr) (k : EngKind) (tl : BitVec 2) (rs2 rs1 rd : BitVec 5) : M Unit := do
  let a := (← readX rs1).toNat
  let bs ← readStruct a 128
  let d := parseEng bs
  let s ← get
  let why := engRefusal s k bs d
  if why ≠ 0 then writeX rd (status 7 why)
  else startWait i 0#64 (ofBytes bs) (issueOps rs2 rd (acceptEngine k tl rd))

/-- ecopy (R304, R309). -/
def execEcopy (tl : BitVec 2) (rs2 rs1 rd : BitVec 5) (s : State) : Host.Outcome State Fault Refusal :=
  runInstr (.ecopy tl rs2 rs1 rd) (issueEngine (.ecopy tl rs2 rs1 rd) .copy tl rs2 rs1 rd) s

/-- egth (R304, R309). -/
def execEgth (tl : BitVec 2) (rs2 rs1 rd : BitVec 5) (s : State) : Host.Outcome State Fault Refusal :=
  runInstr (.egth tl rs2 rs1 rd) (issueEngine (.egth tl rs2 rs1 rd) .gather tl rs2 rs1 rd) s

/-- esct (R304, R309). -/
def execEsct (tl : BitVec 2) (rs2 rs1 rd : BitVec 5) (s : State) : Host.Outcome State Fault Refusal :=
  runInstr (.esct tl rs2 rs1 rd) (issueEngine (.esct tl rs2 rs1 rd) .scatter tl rs2 rs1 rd) s

/-- efill (R304, R309). -/
def execEfill (tl : BitVec 2) (rs2 rs1 rd : BitVec 5) (s : State) : Host.Outcome State Fault Refusal :=
  runInstr (.efill tl rs2 rs1 rd) (issueEngine (.efill tl rs2 rs1 rd) .fill tl rs2 rs1 rd) s

/-- ecvt (R304, R309). -/
def execEcvt (tl : BitVec 2) (rs2 rs1 rd : BitVec 5) (s : State) : Host.Outcome State Fault Refusal :=
  runInstr (.ecvt tl rs2 rs1 rd) (issueEngine (.ecvt tl rs2 rs1 rd) .cvt tl rs2 rs1 rd) s

/-! ### Cancelling (R313) -/

/-- A command of the running strand by timeline and ticket. -/
def findTicket (s : State) (tl ticket : Nat) : Option Cmd :=
  s.cmds.find? fun c => c.sid == s.hart.sid && c.tl == tl && c.ticket == ticket

/-- The ecan status of an ended command (R313): its record's count, with which it always agrees; a collective reports o = 0 and count 0
(R415). -/
def ecanStatus (c : Cmd) (e : CmdEnd) : Word :=
  let o := if e.code = 6 then (if e.count = 0 then 1 else 2) else 0
  match c.body with
  | .coll _ _ => status 0 0
  | _ => status 0 (o + 4 * (e.count % 2 ^ 48))

/-- A member's collective before anything of it has arrived at the switch (R415). -/
def newCollective (c : Cmd) (d : CollDesc) (g : Group) (now : Nat) : Collective :=
  { tag := g.tag, seq := d.seq, op := d.op, fmt := ETag.ofCode d.fmt, count := d.c, root := d.root, n := g.members.length, rm := c.rm
    cdl := d.cdl, expiry := now + d.cdl, got := [], acks := [], late := [], outcome := .pending }

/-- A collective whose expiry has passed before its commit has aborted with reason 1 (R415). -/
def Collective.due (k : Collective) (now : Nat) : Collective :=
  match k.outcome with
  | .pending | .result _ _ => if k.expiry ≤ now then { k with outcome := .aborted 1 (k.got.map (·.1)) } else k
  | _ => k

/-- A collective that is not yet decided aborts with reason 5 (R415). -/
def Collective.cancelled (k : Collective) : Collective :=
  match k.outcome with
  | .pending | .result _ _ => { k with outcome := .aborted 5 (k.got.map (·.1)) }
  | _ => k

/-- The mark reaches the switch, before any contribution of the collective or after some of them (R415). -/
def cancelCollective (c : Cmd) (s : State) : State :=
  match c.body with
  | .coll d g =>
    if s.collectives.any fun k => k.tag == g.tag && k.seq == d.seq then
      { s with collectives := s.collectives.map fun k => if k.tag = g.tag ∧ k.seq = d.seq then (k.due s.now).cancelled else k }
    else { s with collectives := s.collectives ++ [(newCollective c d g s.now).cancelled] }
  | _ => s

/-- How ecan waits (R313). -/
def ecanOps (tl : BitVec 2) (rs2 rs1 rd : BitVec 5) : WaitOps where
  attempt := do
    let s ← get
    match findTicket s tl.toNat (s.hart.rx rs1).toNat with
    | some c =>
      match c.fin with
      | some e => writeX rd (ecanStatus c e); return true
      | none => return false
    | none => writeX rd (status 0 0); return true
  withdraw := pure ()
  expired := writeX rd (status 1 0)
  deadline := readX rs2

/-- ecan (R313). DESIGN CHOICE (log 19): a ticket marked a second time, whose command has not ended, reports the count 0 with o = 0. -/
def execEcan (tl : BitVec 2) (rs2 rs1 rd : BitVec 5) (s : State) : Host.Outcome State Fault Refusal :=
  runInstr (.ecan tl rs2 rs1 rd) (do
    let s ← get
    let h := (s.hart.rx rs1).toNat
    if h = 0 ∨ (s.hart.timeline tl).issued.toNat < h then writeX rd (status 7 0)
    else match findTicket s tl.toNat h with
      | none => writeX rd (status 0 0)
      | some c =>
        match c.fin with
        | some e => writeX rd (ecanStatus c { e with code := 0 })
        | none =>
          if c.cancelled then writeX rd (status 0 0)
          else do
            modify fun s => cancelCollective c (putCmd { c with cancelled := true } s)
            startWait (.ecan tl rs2 rs1 rd) 0#64 0 (ecanOps tl rs2 rs1 rd)) s

/-! ### Elements (R305 to R307) -/

/-- The indices of element p. -/
def indicesOf : Nat → List Nat → List Nat
  | _, [] => []
  | p, n :: ns => p % n :: indicesOf (p / n) ns

/-- The strided address of element p on one side, modulo 2^64. -/
def stridedAddr (base p : Nat) (ds : List (Nat × Int)) : Nat :=
  let is := indicesOf p (ds.map (·.1))
  (((base : Int) + ((is.zip ds).foldl (fun (t : Int) (x : Nat × Nat × Int) => t + (x.1 : Int) * x.2.2) 0)) % 2 ^ 64).toNat

/-- The outcome of an engine's work on one element: the state and command after it, or the fault's cause, address and the
element that faults. -/
abbrev ElemResult := Except (Nat × Nat × Nat) (State × Cmd)

/-- The words of a CE8 block read by an agent from an address: the block as a number. -/
def readBlock (s : State) (r : Realm) (user : Bool) (va : Nat) : Except (Nat × Nat) Nat :=
  match agentRead s r user va 4 with
  | .error c => .error (c, va)
  | .ok w0 =>
    let n := w0 / 1024 % 64
    (rangeFrom 1 n).foldl (fun acc i =>
      match acc with
      | .error e => .error e
      | .ok b =>
        match agentRead s r user ((va + 4 * i) % 2 ^ 64) 4 with
        | .error c => .error (c, (va + 4 * i) % 2 ^ 64)
        | .ok w => .ok (b + w * 2 ^ (32 * i))) (.ok w0)

/-- The words of a CE8 block written by an agent, none when one of them faults. -/
def writeBlock (s : State) (a : Agent) (r : Realm) (user : Bool) (va block words : Nat) : Except (Nat × Nat) State :=
  let bad := (rangeFrom 0 words).find? fun i =>
    match agentAddr s r user .store ((va + 4 * i) % 2 ^ 64) 4 with
    | .error _ => true
    | .ok _ => false
  match bad with
  | some i =>
    match agentAddr s r user .store ((va + 4 * i) % 2 ^ 64) 4 with
    | .error c => .error (c, (va + 4 * i) % 2 ^ 64)
    | .ok _ => .ok s
  | none => .ok ((rangeFrom 0 words).foldl (fun s i =>
      match agentWrite s a r user ((va + 4 * i) % 2 ^ 64) 4 (block / 2 ^ (32 * i) % 2 ^ 32) with
      | .ok s' => s'
      | .error _ => s) s)

/-- The source value of element p as the destination's bits, before a CE8 destination gathers its group. -/
def engSource (s : State) (c : Cmd) (k : EngKind) (d : EngDesc) (p : Nat) : Except (Nat × Nat) (Nat × Cmd) :=
  let mode := RMode.ofCode c.rm
  let rd (va n : Nat) : Except (Nat × Nat) Nat :=
    match agentRead s c.realm c.user va n with
    | .ok v => .ok v
    | .error e => .error (e, va)
  let ss := d.used.map fun x => (x.1, x.2.1)
  let w := fmtBytes d.sfmt
  match k with
  | .fill => .ok (d.xbase % 2 ^ (8 * fmtBytes d.dfmt), c)
  | .copy | .scatter => (rd (stridedAddr d.sbase p ss) w).map fun v => (v, c)
  | .gather =>
    let ix := d.flags % 2 == 1
    match rd ((d.xbase + (if ix then 8 else 4) * p) % 2 ^ 64) (if ix then 8 else 4) with
    | .error e => .error e
    | .ok x => (rd ((d.sbase + x) % 2 ^ 64) w).map fun v => (v, c)
  | .cvt =>
    if d.sfmt = 0x10 then
      let t := ETag.ofCode d.dfmt
      let fetch : Except (Nat × Nat) Cmd :=
        if c.pend ≠ [] then .ok c
        else match readBlock s c.realm c.user ((d.sbase + 4 * c.word) % 2 ^ 64) with
          | .error e => .error e
          | .ok b =>
            let (sc, qs, badBlock, words) := ce8Decode b
            .ok { c with pend := qs.map (fun q => q + 256 * sc), word := c.word + words,
                         cls := c.cls ||| Cls.invalid.on badBlock }
      match fetch with
      | .error e => .error e
      | .ok c =>
        let q := nth c.pend 0 0
        let r := dequant t mode (q / 256) (q % 256)
        .ok (r.1, { c with pend := c.pend.drop 1, cls := c.cls ||| r.2 })
    else
      match rd (stridedAddr d.sbase p ss) w with
      | .error e => .error e
      | .ok v =>
        if d.dfmt = 0x10 then .ok (v, c)
        else
          let r := convert (ETag.ofCode d.sfmt) (ETag.ofCode d.dfmt) mode v
          .ok (r.1, { c with cls := c.cls ||| r.2 })

/-- The destination write of element p. -/
def engDest (s : State) (c : Cmd) (k : EngKind) (d : EngDesc) (p v : Nat) : Except (Nat × Nat) (State × Cmd) :=
  let mode := RMode.ofCode c.rm
  let a := c.agent s.svc.pkg
  let ds := d.used.map fun x => (x.1, x.2.2)
  let w := fmtBytes d.dfmt
  let wr (va : Nat) : Except (Nat × Nat) (State × Cmd) :=
    match agentWrite s a c.realm c.user va w v with
    | .ok s' => .ok (noteAsync c.sid a true va w s', c)
    | .error e => .error (e, va)
  match k with
  | .scatter =>
    let ix := d.flags % 2 == 1
    let xa := (d.xbase + (if ix then 8 else 4) * p) % 2 ^ 64
    match agentRead s c.realm c.user xa (if ix then 8 else 4) with
    | .error e => .error (e, xa)
    | .ok x =>
      let va := (d.dbase + x) % 2 ^ 64
      if d.flags < 2 then wr va
      else match agentToken s a c.realm c.user .add (ETag.ofCode d.dfmt) mode va v with
        | .error e => .error (e, va)
        | .ok (s', cl) => .ok (noteAtomic c.sid a va w s', { c with cls := c.cls ||| cl })
  | _ =>
    if d.dfmt = 0x10 then
      let pend := c.pend ++ [v]
      if pend.length < 32 then .ok (s, { c with pend := pend })
      else
        let xs := pend.map (decodeFloat .fp32)
        let q := quantGroup mode xs
        let cl := q.2.foldl (fun k x => k ||| x.2) (xs.foldl (fun k x => k ||| sigCls x ||| (match x with
          | .inf _ => Cls.invalid
          | _ => 0#6)) 0#6)
        let b := ce8Encode q.1 (q.2.map (·.1))
        match writeBlock s a c.realm c.user ((d.dbase + 4 * c.word) % 2 ^ 64) b.1 b.2 with
        | .error e => .error e
        | .ok s' =>
          .ok (noteAsync c.sid a true ((d.dbase + 4 * c.word) % 2 ^ 64) (4 * b.2) s', { c with pend := [], word := c.word + b.2, cls := c.cls ||| cl })
    else wr (stridedAddr d.dbase p ds)

/-- What an engine reads for element p: index and source, or a CE8 block with its first element. -/
def engReads (s : State) (c : Cmd) (k : EngKind) (d : EngDesc) (p : Nat) : List (Nat × Nat) :=
  let n := if d.flags % 2 = 1 then 8 else 4
  let xa := (d.xbase + n * p) % 2 ^ 64
  let source : Nat × Nat := (stridedAddr d.sbase p (d.used.map fun x => (x.1, x.2.1)), fmtBytes d.sfmt)
  match k with
  | .fill => []
  | .copy => [source]
  | .scatter => [(xa, n), source]
  | .gather => [(xa, n), ((d.sbase + (match agentRead s c.realm c.user xa n with
      | .ok x => x
      | .error _ => 0)) % 2 ^ 64, fmtBytes d.sfmt)]
  | .cvt =>
    if d.sfmt ≠ 0x10 then [source]
    else if c.pend ≠ [] then []
    else
      let va := (d.sbase + 4 * c.word) % 2 ^ 64
      match readBlock s c.realm c.user va with
      | .ok b => [(va, 4 * (ce8Decode b).2.2.2)]
      | .error _ => []

/-- One element of an engine command: index, source, destination (R305), with the watchpoint hits of its reads (R287). -/
def engElement (s : State) (c : Cmd) (k : EngKind) (d : EngDesc) : ElemResult :=
  let p := c.next
  let c₀ := c
  -- a CE8 destination performs its elements a whole block at a time
  let bad (e : Nat × Nat) : ElemResult := .error (e.1, e.2, if d.dfmt = 0x10 then p / 32 * 32 else p)
  -- the index of a scatter is read before its source
  let first : Except (Nat × Nat) Unit :=
    match k with
    | .scatter =>
      let n := if d.flags % 2 = 1 then 8 else 4
      let xa := (d.xbase + n * p) % 2 ^ 64
      match agentRead s c.realm c.user xa n with
      | .ok _ => .ok ()
      | .error e => .error (e, xa)
    | _ => .ok ()
  match first with
  | .error e => bad e
  | .ok _ =>
    match engSource s c k d p with
    | .error e => bad e
    | .ok (v, c) =>
      let noted := (engReads s c₀ k d p).foldl (fun t x => noteAsync c.sid (c.agent s.svc.pkg) false x.1 x.2 t) s
      match engDest noted c k d p v with
      | .error e => bad e
      | .ok (s', c) => .ok (putCmd { c with next := p + 1 } s', { c with next := p + 1 })

/-- The second word of the record of a command that ends without a fault (R311). -/
def recordWord (c : Cmd) (doneCode : Bool) : Nat :=
  match c.body with
  | .engine .cvt d => c.cls.toNat + (if doneCode ∧ d.dfmt = 0x10 then 256 * (4 * c.word) else 0)
  | _ => c.cls.toNat

/-- End an engine command with FAULT at element p (R312). -/
def faultCommand (c : Cmd) (cause va p : Nat) (s : State) : State :=
  endCommand c ⟨4, p, cause, if cause = 28 then 0 else va⟩ (if cause = 28 then 0 else va) (suspectAt c.realm c.user cause va s)

/-- Whether the engine that a command stands on is lost (R319). -/
def Cmd.engineLost (c : Cmd) (s : State) : Bool := s.lostEngines.contains (c.die, c.cluster, c.engine)

/-- The elements that a command stopped where it stands has performed: whole blocks of a CE8 destination (R307). -/
def stopCount (c : Cmd) : Nat :=
  match c.body with
  | .engine _ d => if d.dfmt = 0x10 then c.next / 32 * 32 else c.next
  | _ => c.next

/-- ENGINE_ELEMENT (R305, R312): the next element of a command, which may end it with FAULT. -/
def execEngineElement (cmd : Nat) (s : State) : Host.Outcome State Fault Refusal :=
  runEvent (do
    let s ← get
    match findCmd s cmd with
    | some c =>
      match c.body with
      | .engine k d =>
        if c.fin.isSome || c.cancelled || c.engineLost s || d.total ≤ c.next || mustWait s c then notEnabled "engine element"
        else match engElement s c k d with
          | .ok (s', _) => set s'
          | .error (e, va, p) => set (faultCommand { c with next := p } e va p s)
      | _ => notEnabled "engine element"
    | none => notEnabled "engine element") s

/-- ENGINE_COMMAND_END (R312): completion, cancellation at the next element, or the fault of the next element; a command whose
engine is lost, with the other one, ends with FAULT and cause 28 (R319). -/
def execEngineCommandEnd (cmd : Nat) (s : State) : Host.Outcome State Fault Refusal :=
  runEvent (do
    let s ← get
    match findCmd s cmd with
    | some c =>
      match c.body with
      | .engine k d =>
        if c.fin.isSome || mustWait s c then notEnabled "engine command end"
        else if c.engineLost s then set (endCommand c ⟨4, stopCount c, 28, 0⟩ 0 s)
        else if d.total ≤ c.next then set (endCommand c ⟨0, d.total, 0, 0⟩ (recordWord c true) s)
        else if c.cancelled then
          let q := if d.dfmt = 0x10 then c.next / 32 * 32 else c.next
          set (endCommand c ⟨6, q, 0, 0⟩ (recordWord c false) s)
        else match engElement s c k d with
          | .ok _ => notEnabled "engine command end"
          | .error (e, va, p) => set (faultCommand { c with next := p } e va p s)
      | _ => notEnabled "engine command end"
    | none => notEnabled "engine command end") s

end Sys2Proof.Machine
end

