-- ==== Sys2Proof/Machine/VectorArith.lean ====
section
/-!
DEFINITION. The major opcode VA (07_vector_arithmetic.md, R131 to R155): element-wise arithmetic in registers, compares,
moves, conversions, block quantisation and the mask group.
-/
namespace Sys2Proof.Machine

/-- The second operand of a VA instruction (R93). -/
inductive Opnd where
  | vec (r : BitVec 5)
  | scal (r : BitVec 5)
  | imm (i : BitVec 6)
  deriving DecidableEq, Repr

/-- The type of an operand beside an A of type tA (R93, R116). -/
def Opnd.ty (o : Opnd) (h : Strand) (tA : ETag) : ETag :=
  match o with
  | .vec r => h.tag r
  | _ => tA

/-- The encoding of an operand for element e, in its own type. -/
def Opnd.val (o : Opnd) (h : Strand) (tA : ETag) (e : Nat) : Nat :=
  match o with
  | .vec r => h.elem r (h.tag r).width e
  | .scal r => broadcastX tA (h.rx r)
  | .imm i => broadcastImm tA i

/-- The registers that an operand names. -/
def Opnd.regs : Opnd → List (BitVec 5)
  | .vec r => [r]
  | _ => []

/-- The operands of a VV row: A and B (R93). -/
def vvOperands (s : Bool) (vs2 vs1 : BitVec 5) : BitVec 5 × Opnd := (vs2, if s then .scal vs1 else .vec vs1)

/-- The rounding mode of the strand (R30). -/
def Strand.mode_ (h : Strand) : RMode := RMode.ofCode h.rm

/-- Write one element with its classes (R131). -/
def Strand.deliver (h : Strand) (vd : BitVec 5) (w e : Nat) (r : Nat × Cls) : Strand :=
  (h.storeElem vd w e r.1).flag e r.2

/-- The common course of R131 after the type checks: capacities, chains, the tag, then the element loop with each source
read before any write; reads names the words that an element reads. -/
def vaRunOn (reads : Strand → Nat → List SrcRead) (km : BitVec 3) (vd : BitVec 5) (regs : List (BitVec 5)) (t : ETag)
    (indivisible : Bool) (f : Strand → Nat → Nat × Cls) : M Unit := do
  let h ← getH
  needCap (t :: regs.map h.tag)
  needChains (regs.map fun r => .vreg r.toNat) [.vreg vd.toNat]
  elementLoop h.vl (indivisible || regs.any fun r => r == vd && (h.tag r).width != t.width) (modH fun k => k.putTag vd t)
    (h.active km) (fun e => h.badOf (reads h e))
    (fun e => modH fun k => k.deliver vd t.width e (f h e))

/-- The same where element e reads element e of each source. -/
def vaRun (km : BitVec 3) (vd : BitVec 5) (regs : List (BitVec 5)) (t : ETag) (indivisible : Bool)
    (f : Strand → Nat → Nat × Cls) : M Unit := vaRunOn (fun h => h.srcReads regs km) km vd regs t indivisible f

/-- The operation type, or a type fault (R117). -/
def opType (ts : List ETag) : M ETag :=
  match commonType ts with
  | some t => pure t
  | none => typeFault

/-- A two-operand instruction of the Common class (R134 to R138). -/
def vaBin (op : BinOp) (intOnly : Bool) (km : BitVec 3) (a : BitVec 5) (b : Opnd) (vd : BitVec 5) : M Unit := do
  vecGate
  let h ← getH
  let tA := h.tag a
  let tB := b.ty h tA
  let t ← opType [tA, tB]
  need (!intOnly || t.isInt) typeFault
  vaRun km vd (a :: b.regs) t false fun h e =>
    elemBin op t h.mode_ (widen tA t (h.elem a tA.width e)) (widen tB t (b.val h tA e))

/-- A logic instruction: equal tags, operating on encodings (R140). -/
def vaLogic (op : BinOp) (km : BitVec 3) (a : BitVec 5) (b : Opnd) (vd : BitVec 5) : M Unit := do
  vecGate
  let h ← getH
  let t := h.tag a
  need (t != .none && b.ty h t == t) typeFault
  vaRun km vd (a :: b.regs) t false fun h e => elemBin op t h.mode_ (h.elem a t.width e) (b.val h t e)

/-- The shift count for element e (R141). -/
def shiftCount (h : Strand) (b : Opnd) (e : Nat) : Int :=
  match b with
  | .vec r => decodeInt (h.tag r) (h.elem r (h.tag r).width e)
  | .scal r => (h.rx r).toNat
  | .imm i => i.toNat

/-- A shift (R141). -/
def vaShift (op : ShOp) (km : BitVec 3) (a : BitVec 5) (b : Opnd) (vd : BitVec 5) : M Unit := do
  vecGate
  let h ← getH
  let t := h.tag a
  need (t.isInt && (b.ty h t).isInt) typeFault
  vaRun km vd (a :: b.regs) t false fun h e => (elemShift op t (h.elem a t.width e) (shiftCount h b e), 0#6)

/-- A compare: bits of kd, no vector destination (R142). -/
def vaCmp (op : CmpOp) (km : BitVec 3) (a : BitVec 5) (b : Opnd) (kd : BitVec 3) : M Unit := do
  vecGate
  let h ← getH
  let tA := h.tag a
  let tB := b.ty h tA
  let t ← opType [tA, tB]
  needCap ((a :: b.regs).map h.tag)
  needChains ((a :: b.regs).map fun r => .vreg r.toNat) []
  elementLoop h.vl false (pure ()) (h.active km) (fun e => h.badOf (h.srcReads (a :: b.regs) km e)) fun e =>
    let r := elemCmp op t (widen tA t (h.elem a tA.width e)) (widen tB t (b.val h tA e))
    modH fun k => (k.storeKbit kd e r.1).flag e r.2

/-- A fused multiply-add: vd is the third typed source (R139). -/
def vaFma (negP negC : Bool) (km : BitVec 3) (a : BitVec 5) (b : Opnd) (vd : BitVec 5) : M Unit := do
  vecGate
  let h ← getH
  let tA := h.tag a
  let tB := b.ty h tA
  let tC := h.tag vd
  let t ← opType [tA, tB, tC]
  vaRun km vd (a :: vd :: b.regs) t false fun h e =>
    elemFma negP negC t h.mode_ (widen tA t (h.elem a tA.width e)) (widen tB t (b.val h tA e))
      (widen tC t (h.elem vd tC.width e))

/-- A one-operand instruction of the Common class on types that the entry accepts (R145, R148, R149). -/
def vaUnary (op : UnOp) (accepts : ETag → Bool) (km : BitVec 3) (vs1 vd : BitVec 5) : M Unit := do
  vecGate
  let h ← getH
  let t := h.tag vs1
  need (t != .none && accepts t) typeFault
  vaRun km vd [vs1] t false fun h e => elemUn op t h.mode_ (h.elem vs1 t.width e)

/-! ### Two operands -/

/-- VADD (R134). -/
def execVadd (km : BitVec 3) (s : Bool) (vs2 vs1 vd : BitVec 5) (st : State) : Host.Outcome State Fault Refusal :=
  runInstr (.vadd km s vs2 vs1 vd) (vaBin .add false km vs2 (vvOperands s vs2 vs1).2 vd) st

/-- VSUB (R134). -/
def execVsub (km : BitVec 3) (s : Bool) (vs2 vs1 vd : BitVec 5) (st : State) : Host.Outcome State Fault Refusal :=
  runInstr (.vsub km s vs2 vs1 vd) (vaBin .sub false km vs2 (vvOperands s vs2 vs1).2 vd) st

/-- VRSUB (R134). -/
def execVrsub (km : BitVec 3) (s : Bool) (vs2 vs1 vd : BitVec 5) (st : State) : Host.Outcome State Fault Refusal :=
  runInstr (.vrsub km s vs2 vs1 vd) (vaBin .rsub false km vs2 (vvOperands s vs2 vs1).2 vd) st

/-- VMUL (R134). -/
def execVmul (km : BitVec 3) (s : Bool) (vs2 vs1 vd : BitVec 5) (st : State) : Host.Outcome State Fault Refusal :=
  runInstr (.vmul km s vs2 vs1 vd) (vaBin .mul false km vs2 (vvOperands s vs2 vs1).2 vd) st

/-- VMULH (R136). -/
def execVmulh (km : BitVec 3) (s : Bool) (vs2 vs1 vd : BitVec 5) (st : State) : Host.Outcome State Fault Refusal :=
  runInstr (.vmulh km s vs2 vs1 vd) (vaBin .mulh true km vs2 (vvOperands s vs2 vs1).2 vd) st

/-- VDIV (R137). -/
def execVdiv (km : BitVec 3) (s : Bool) (vs2 vs1 vd : BitVec 5) (st : State) : Host.Outcome State Fault Refusal :=
  runInstr (.vdiv km s vs2 vs1 vd) (vaBin .div false km vs2 (vvOperands s vs2 vs1).2 vd) st

/-- VREM (R137). -/
def execVrem (km : BitVec 3) (s : Bool) (vs2 vs1 vd : BitVec 5) (st : State) : Host.Outcome State Fault Refusal :=
  runInstr (.vrem km s vs2 vs1 vd) (vaBin .rem true km vs2 (vvOperands s vs2 vs1).2 vd) st

/-- VMIN (R138). -/
def execVmin (km : BitVec 3) (s : Bool) (vs2 vs1 vd : BitVec 5) (st : State) : Host.Outcome State Fault Refusal :=
  runInstr (.vmin km s vs2 vs1 vd) (vaBin .min false km vs2 (vvOperands s vs2 vs1).2 vd) st

/-- VMAX (R138). -/
def execVmax (km : BitVec 3) (s : Bool) (vs2 vs1 vd : BitVec 5) (st : State) : Host.Outcome State Fault Refusal :=
  runInstr (.vmax km s vs2 vs1 vd) (vaBin .max false km vs2 (vvOperands s vs2 vs1).2 vd) st

/-- VAND (R140). -/
def execVand (km : BitVec 3) (s : Bool) (vs2 vs1 vd : BitVec 5) (st : State) : Host.Outcome State Fault Refusal :=
  runInstr (.vand km s vs2 vs1 vd) (vaLogic .and km vs2 (vvOperands s vs2 vs1).2 vd) st

/-- VOR (R140). -/
def execVor (km : BitVec 3) (s : Bool) (vs2 vs1 vd : BitVec 5) (st : State) : Host.Outcome State Fault Refusal :=
  runInstr (.vor km s vs2 vs1 vd) (vaLogic .or km vs2 (vvOperands s vs2 vs1).2 vd) st

/-- VXOR (R140). -/
def execVxor (km : BitVec 3) (s : Bool) (vs2 vs1 vd : BitVec 5) (st : State) : Host.Outcome State Fault Refusal :=
  runInstr (.vxor km s vs2 vs1 vd) (vaLogic .xor km vs2 (vvOperands s vs2 vs1).2 vd) st

/-- VSLL (R141). -/
def execVsll (km : BitVec 3) (s : Bool) (vs2 vs1 vd : BitVec 5) (st : State) : Host.Outcome State Fault Refusal :=
  runInstr (.vsll km s vs2 vs1 vd) (vaShift .sll km vs2 (vvOperands s vs2 vs1).2 vd) st

/-- VSRL (R141). -/
def execVsrl (km : BitVec 3) (s : Bool) (vs2 vs1 vd : BitVec 5) (st : State) : Host.Outcome State Fault Refusal :=
  runInstr (.vsrl km s vs2 vs1 vd) (vaShift .srl km vs2 (vvOperands s vs2 vs1).2 vd) st

/-- VSRA (R141). -/
def execVsra (km : BitVec 3) (s : Bool) (vs2 vs1 vd : BitVec 5) (st : State) : Host.Outcome State Fault Refusal :=
  runInstr (.vsra km s vs2 vs1 vd) (vaShift .sra km vs2 (vvOperands s vs2 vs1).2 vd) st

/-- VCMPEQ (R142). -/
def execVcmpeq (km : BitVec 3) (s : Bool) (vs2 vs1 : BitVec 5) (kd : BitVec 3) (st : State) : Host.Outcome State Fault Refusal :=
  runInstr (.vcmpeq km s vs2 vs1 kd) (vaCmp .eq km vs2 (vvOperands s vs2 vs1).2 kd) st

/-- VCMPNE (R142). -/
def execVcmpne (km : BitVec 3) (s : Bool) (vs2 vs1 : BitVec 5) (kd : BitVec 3) (st : State) : Host.Outcome State Fault Refusal :=
  runInstr (.vcmpne km s vs2 vs1 kd) (vaCmp .ne km vs2 (vvOperands s vs2 vs1).2 kd) st

/-- VCMPLT (R142). -/
def execVcmplt (km : BitVec 3) (s : Bool) (vs2 vs1 : BitVec 5) (kd : BitVec 3) (st : State) : Host.Outcome State Fault Refusal :=
  runInstr (.vcmplt km s vs2 vs1 kd) (vaCmp .lt km vs2 (vvOperands s vs2 vs1).2 kd) st

/-- VCMPLE (R142). -/
def execVcmple (km : BitVec 3) (s : Bool) (vs2 vs1 : BitVec 5) (kd : BitVec 3) (st : State) : Host.Outcome State Fault Refusal :=
  runInstr (.vcmple km s vs2 vs1 kd) (vaCmp .le km vs2 (vvOperands s vs2 vs1).2 kd) st

/-- VFMA (R139). -/
def execVfma (km : BitVec 3) (s : Bool) (vs2 vs1 vd : BitVec 5) (st : State) : Host.Outcome State Fault Refusal :=
  runInstr (.vfma km s vs2 vs1 vd) (vaFma false false km vs2 (vvOperands s vs2 vs1).2 vd) st

/-- VFMS (R139). -/
def execVfms (km : BitVec 3) (s : Bool) (vs2 vs1 vd : BitVec 5) (st : State) : Host.Outcome State Fault Refusal :=
  runInstr (.vfms km s vs2 vs1 vd) (vaFma false true km vs2 (vvOperands s vs2 vs1).2 vd) st

/-- VFNMA (R139). -/
def execVfnma (km : BitVec 3) (s : Bool) (vs2 vs1 vd : BitVec 5) (st : State) : Host.Outcome State Fault Refusal :=
  runInstr (.vfnma km s vs2 vs1 vd) (vaFma true true km vs2 (vvOperands s vs2 vs1).2 vd) st

/-- VFNMS (R139). -/
def execVfnms (km : BitVec 3) (s : Bool) (vs2 vs1 vd : BitVec 5) (st : State) : Host.Outcome State Fault Refusal :=
  runInstr (.vfnms km s vs2 vs1 vd) (vaFma true false km vs2 (vvOperands s vs2 vs1).2 vd) st

/-- VSEL (R144): km selects, and does not govern. -/
def execVsel (km : BitVec 3) (vs2 vs1 vd : BitVec 5) (st : State) : Host.Outcome State Fault Refusal :=
  runInstr (.vsel km vs2 vs1 vd) (do
    vecGate
    let h ← getH
    let t := h.tag vs2
    need (t != .none && h.tag vs1 == t) typeFault
    needCap [t]
    needChains [.vreg vs2.toNat, .vreg vs1.toNat] [.vreg vd.toNat]
    elementLoop h.vl false (modH fun k => k.putTag vd t) (fun _ => true)
      (fun e => h.badOf (h.srcReads [vs2, vs1] km e)) fun e =>
      modH fun k => k.deliver vd t.width e (h.elem (if h.kbit km e then vs2 else vs1) t.width e, 0#6)) st

/-! ### Immediate forms -/

/-- VADD_VI (R134). -/
def execVaddVi (km : BitVec 3) (imm : BitVec 6) (vs1 vd : BitVec 5) (st : State) : Host.Outcome State Fault Refusal :=
  runInstr (.vaddVi km imm vs1 vd) (vaBin .add false km vs1 (.imm imm) vd) st

/-- VSUB_VI (R134). -/
def execVsubVi (km : BitVec 3) (imm : BitVec 6) (vs1 vd : BitVec 5) (st : State) : Host.Outcome State Fault Refusal :=
  runInstr (.vsubVi km imm vs1 vd) (vaBin .sub false km vs1 (.imm imm) vd) st

/-- VRSUB_VI (R134). -/
def execVrsubVi (km : BitVec 3) (imm : BitVec 6) (vs1 vd : BitVec 5) (st : State) : Host.Outcome State Fault Refusal :=
  runInstr (.vrsubVi km imm vs1 vd) (vaBin .rsub false km vs1 (.imm imm) vd) st

/-- VMUL_VI (R134). -/
def execVmulVi (km : BitVec 3) (imm : BitVec 6) (vs1 vd : BitVec 5) (st : State) : Host.Outcome State Fault Refusal :=
  runInstr (.vmulVi km imm vs1 vd) (vaBin .mul false km vs1 (.imm imm) vd) st

/-- VMIN_VI (R138). -/
def execVminVi (km : BitVec 3) (imm : BitVec 6) (vs1 vd : BitVec 5) (st : State) : Host.Outcome State Fault Refusal :=
  runInstr (.vminVi km imm vs1 vd) (vaBin .min false km vs1 (.imm imm) vd) st

/-- VMAX_VI (R138). -/
def execVmaxVi (km : BitVec 3) (imm : BitVec 6) (vs1 vd : BitVec 5) (st : State) : Host.Outcome State Fault Refusal :=
  runInstr (.vmaxVi km imm vs1 vd) (vaBin .max false km vs1 (.imm imm) vd) st

/-- VAND_VI (R140). -/
def execVandVi (km : BitVec 3) (imm : BitVec 6) (vs1 vd : BitVec 5) (st : State) : Host.Outcome State Fault Refusal :=
  runInstr (.vandVi km imm vs1 vd) (vaLogic .and km vs1 (.imm imm) vd) st

/-- VOR_VI (R140). -/
def execVorVi (km : BitVec 3) (imm : BitVec 6) (vs1 vd : BitVec 5) (st : State) : Host.Outcome State Fault Refusal :=
  runInstr (.vorVi km imm vs1 vd) (vaLogic .or km vs1 (.imm imm) vd) st

/-- VXOR_VI (R140). -/
def execVxorVi (km : BitVec 3) (imm : BitVec 6) (vs1 vd : BitVec 5) (st : State) : Host.Outcome State Fault Refusal :=
  runInstr (.vxorVi km imm vs1 vd) (vaLogic .xor km vs1 (.imm imm) vd) st

/-- VSLL_VI (R141). -/
def execVsllVi (km : BitVec 3) (imm : BitVec 6) (vs1 vd : BitVec 5) (st : State) : Host.Outcome State Fault Refusal :=
  runInstr (.vsllVi km imm vs1 vd) (vaShift .sll km vs1 (.imm imm) vd) st

/-- VSRL_VI (R141). -/
def execVsrlVi (km : BitVec 3) (imm : BitVec 6) (vs1 vd : BitVec 5) (st : State) : Host.Outcome State Fault Refusal :=
  runInstr (.vsrlVi km imm vs1 vd) (vaShift .srl km vs1 (.imm imm) vd) st

/-- VSRA_VI (R141). -/
def execVsraVi (km : BitVec 3) (imm : BitVec 6) (vs1 vd : BitVec 5) (st : State) : Host.Outcome State Fault Refusal :=
  runInstr (.vsraVi km imm vs1 vd) (vaShift .sra km vs1 (.imm imm) vd) st

/-- VCMPEQ_VI (R142). -/
def execVcmpeqVi (km : BitVec 3) (imm : BitVec 6) (vs1 : BitVec 5) (kd : BitVec 3) (st : State) : Host.Outcome State Fault Refusal :=
  runInstr (.vcmpeqVi km imm vs1 kd) (vaCmp .eq km vs1 (.imm imm) kd) st

/-- VCMPNE_VI (R142). -/
def execVcmpneVi (km : BitVec 3) (imm : BitVec 6) (vs1 : BitVec 5) (kd : BitVec 3) (st : State) : Host.Outcome State Fault Refusal :=
  runInstr (.vcmpneVi km imm vs1 kd) (vaCmp .ne km vs1 (.imm imm) kd) st

/-- VCMPLT_VI (R142). -/
def execVcmpltVi (km : BitVec 3) (imm : BitVec 6) (vs1 : BitVec 5) (kd : BitVec 3) (st : State) : Host.Outcome State Fault Refusal :=
  runInstr (.vcmpltVi km imm vs1 kd) (vaCmp .lt km vs1 (.imm imm) kd) st

/-- VCMPLE_VI (R142). -/
def execVcmpleVi (km : BitVec 3) (imm : BitVec 6) (vs1 : BitVec 5) (kd : BitVec 3) (st : State) : Host.Outcome State Fault Refusal :=
  runInstr (.vcmpleVi km imm vs1 kd) (vaCmp .le km vs1 (.imm imm) kd) st

/-! ### Splat, index, unary group, conversion -/

/-- The Destination class: vd's own tag, which may not be NONE (R118). -/
def destType (vd : BitVec 5) : M ETag := do
  let t := (← getH).tag vd
  need (t != .none) typeFault
  return t

/-- VSPLAT (R146). -/
def execVsplat (km : BitVec 3) (rs1 vd : BitVec 5) (st : State) : Host.Outcome State Fault Refusal :=
  runInstr (.vsplat km rs1 vd) (do
    vecGate
    let t ← destType vd
    vaRun km vd [] t false fun h _ => (broadcastX t (h.rx rs1), 0#6)) st

/-- VSPLAT_VI (R146). -/
def execVsplatVi (km : BitVec 3) (imm : BitVec 6) (vd : BitVec 5) (st : State) : Host.Outcome State Fault Refusal :=
  runInstr (.vsplatVi km imm vd) (do
    vecGate
    let t ← destType vd
    vaRun km vd [] t false fun _ _ => (broadcastImm t imm, 0#6)) st

/-- VID (R147). -/
def execVid (km : BitVec 3) (vd : BitVec 5) (st : State) : Host.Outcome State Fault Refusal :=
  runInstr (.vid km vd) (do
    vecGate
    let t ← destType vd
    vaRun km vd [] t false fun h e => if t.isFloat then roundNum t h.mode_ (intNum e) else satEnc t e) st

/-- VMV (R145). -/
def execVmv (km : BitVec 3) (vs1 vd : BitVec 5) (st : State) : Host.Outcome State Fault Refusal :=
  runInstr (.vmv km vs1 vd) (vaUnary .mv (fun _ => true) km vs1 vd) st

/-- VABS (R148). -/
def execVabs (km : BitVec 3) (vs1 vd : BitVec 5) (st : State) : Host.Outcome State Fault Refusal :=
  runInstr (.vabs km vs1 vd) (vaUnary .abs (fun _ => true) km vs1 vd) st

/-- VNEG (R148). -/
def execVneg (km : BitVec 3) (vs1 vd : BitVec 5) (st : State) : Host.Outcome State Fault Refusal :=
  runInstr (.vneg km vs1 vd) (vaUnary .neg (fun t => t.isSigned || t.isFloat) km vs1 vd) st

/-- VNOT (R148). -/
def execVnot (km : BitVec 3) (vs1 vd : BitVec 5) (st : State) : Host.Outcome State Fault Refusal :=
  runInstr (.vnot km vs1 vd) (vaUnary .not (fun _ => true) km vs1 vd) st

/-- VSQRT (R149). -/
def execVsqrt (km : BitVec 3) (vs1 vd : BitVec 5) (st : State) : Host.Outcome State Fault Refusal :=
  runInstr (.vsqrt km vs1 vd) (vaUnary .sqrt ETag.isFloat km vs1 vd) st

/-- VRCP (R149). -/
def execVrcp (km : BitVec 3) (vs1 vd : BitVec 5) (st : State) : Host.Outcome State Fault Refusal :=
  runInstr (.vrcp km vs1 vd) (vaUnary .rcp ETag.isFloat km vs1 vd) st

/-- VRSQRT (R149). -/
def execVrsqrt (km : BitVec 3) (vs1 vd : BitVec 5) (st : State) : Host.Outcome State Fault Refusal :=
  runInstr (.vrsqrt km vs1 vd) (vaUnary .rsqrt ETag.isFloat km vs1 vd) st

/-- VEXP2 (R149): every float type but FP64. -/
def execVexp2 (km : BitVec 3) (vs1 vd : BitVec 5) (st : State) : Host.Outcome State Fault Refusal :=
  runInstr (.vexp2 km vs1 vd) (vaUnary .exp2 (fun t => t.isFloat && t != .fp64) km vs1 vd) st

/-- VLOG2 (R149): every float type but FP64. -/
def execVlog2 (km : BitVec 3) (vs1 vd : BitVec 5) (st : State) : Host.Outcome State Fault Refusal :=
  runInstr (.vlog2 km vs1 vd) (vaUnary .log2 (fun t => t.isFloat && t != .fp64) km vs1 vd) st

/-- VCLZ (R148). -/
def execVclz (km : BitVec 3) (vs1 vd : BitVec 5) (st : State) : Host.Outcome State Fault Refusal :=
  runInstr (.vclz km vs1 vd) (vaUnary .clz ETag.isInt km vs1 vd) st

/-- VPOP (R148). -/
def execVpop (km : BitVec 3) (vs1 vd : BitVec 5) (st : State) : Host.Outcome State Fault Refusal :=
  runInstr (.vpop km vs1 vd) (vaUnary .pop ETag.isInt km vs1 vd) st

/-- VCLASS (R143): N16, one bit set. With vd = vs1 it runs as one unit unless the source has the tag N16: the rest of a 16-bit source
could not be read again under another tag, and an uninterrupted run must be matched. DESIGN CHOICE (log 16): R132 lists only sources of
another width. -/
def execVclass (km : BitVec 3) (vs1 vd : BitVec 5) (st : State) : Host.Outcome State Fault Refusal :=
  runInstr (.vclass km vs1 vd) (do
    vecGate
    let t := (← getH).tag vs1
    need (t != .none) typeFault
    vaRun km vd [vs1] .n16 (vd == vs1 && t != .n16) fun h e => (2 ^ classBit t (h.elem vs1 t.width e), 0#6)) st

/-- VCVT (R150): the Destination class. -/
def execVcvt (km : BitVec 3) (vs1 vd : BitVec 5) (st : State) : Host.Outcome State Fault Refusal :=
  runInstr (.vcvt km vs1 vd) (do
    vecGate
    let t := (← getH).tag vs1
    need (t != .none) typeFault
    let d ← destType vd
    vaRun km vd [vs1] d false fun h e => elemCvt t d h.mode_ (h.elem vs1 t.width e)) st

/-! ### Block quantisation (R151, R152) -/

/-- The values of group g that R44 quantises: elements at or beyond vl, or inactive, count as +0. -/
def groupValues (h : Strand) (km : BitVec 3) (vs1 : BitVec 5) (g : Nat) : List Num :=
  (rangeFrom (32 * g) 32).map fun e =>
    if h.active km e then decodeFloat (h.tag vs1) (h.elem vs1 (h.tag vs1).width e) else .fin false 0 0

/-- Deliver one group of vqblk: 32 codes, then the scale byte; an infinity or a signalling NaN raises invalid. -/
def quantInto (km : BitVec 3) (vs2 vd : BitVec 5) (h : Strand) (vs1 : BitVec 5) (g : Nat) (k : Strand) : Strand :=
  let xs := groupValues h km vs1 g
  let q := quantGroup h.mode_ xs
  let k := (rangeFrom 0 32).foldl (fun k i =>
    let e := 32 * g + i
    if h.vl ≤ e then k
    else if h.active km e then
      let r := nth q.2 i (0, 0#6)
      let x := nth xs i (.fin false 0 0)
      let c := r.2 ||| sigCls x ||| Cls.invalid.on (match x with
        | .inf _ => true
        | _ => false)
      k.deliver vd 8 e (r.1, c)
    else k.storeElem vd 8 e 0) k
  k.storeElem vs2 8 g q.1

/-- VQBLK (R151): whole groups, from the one that holds element vsta, which is read as its start. -/
def execVqblk (km : BitVec 3) (vs2 vs1 vd : BitVec 5) (st : State) : Host.Outcome State Fault Refusal :=
  runInstr (.vqblk km vs2 vs1 vd) (do
    vecGate
    let h ← getH
    let t := h.tag vs1
    need (t == .fp32 || t == .bf16 || t == .fp16) typeFault
    needCap [t, .e4m3, .n8]
    need (vs2 != vd) shapeFault
    needChains [.vreg vs1.toNat] [.vreg vd.toNat, .vreg vs2.toNat]
    modH fun k => { k with vsta := k.vsta / 32 * 32 }
    elementLoop h.vl (vd == vs1 || vs2 == vs1) (modH fun k => (k.putTag vd .e4m3).putTag vs2 .n8)
      (fun e => e % 32 == 0)
      (fun e => h.badOf (((rangeFrom (e / 32 * 32) 32).filter (h.active km)).flatMap (h.srcReads [vs1] km)))
      (fun e => modH (quantInto km vs2 vd h vs1 (e / 32)))) st

/-- VDQBLK (R152): element e reads the scale of its group. -/
def execVdqblk (km : BitVec 3) (vs2 vs1 vd : BitVec 5) (st : State) : Host.Outcome State Fault Refusal :=
  runInstr (.vdqblk km vs2 vs1 vd) (do
    vecGate
    let h ← getH
    let t := h.tag vd
    need (h.tag vs2 == .e4m3 && h.tag vs1 == .n8 && t.isFloat) typeFault
    vaRunOn (fun h e => h.regRead vs2 e :: h.srcReads [] km e ++ [h.regRead vs1 (e / 32)]) km vd [vs2, vs1] t (vd == vs1) fun h e =>
      dequant t h.mode_ (h.elem vs1 8 (e / 32)) (h.elem vs2 8 e)) st

/-! ### The mask group (R153 to R155) -/

/-- Bits 0 to n − 1 of a mask register. -/
def lowBits (n : Nat) : BitVec 16384 := BitVec.ofNat 16384 (2 ^ n - 1)

/-- A mask register as bits; k0 reads all ones (R75). -/
def Strand.kreg (h : Strand) (k : BitVec 3) : BitVec 16384 := if k = 0#3 then BitVec.allOnes 16384 else h.k.get k.toFin

/-- Write a whole mask register; k0 discards (R75). DESIGN CHOICE (log 16): the write makes every word of kd good, those of bits at or
above vl too, of which the spec says nothing. -/
def Strand.putK (h : Strand) (k : BitVec 3) (v : BitVec 16384) : Strand :=
  if k = 0#3 then h else { h with k := h.k.set k.toFin v, bad := h.bad.filter fun b => !(b.src == 2 && b.idx == k.toNat) }

/-- Consume an uncorrectable word among the MLEN bits of a mask register. -/
def needMask (k : BitVec 3) : M Unit := do
  let h ← getH
  consume (if k = 0#3 then none else h.badOf ((rangeFrom 0 (h.mlen / 32)).map fun n => maskRead k (32 * n)))

/-- A mask operation on bits 0 to vl − 1 of kd (R153). -/
def maskOp (srcs : List (BitVec 3)) (kd : BitVec 3) (f : Strand → BitVec 16384) : M Unit := do
  vecGate
  forEach srcs needMask
  needUpsetIn 0 (← getH).vl
  modH fun h => h.putK kd ((h.kreg kd &&& ~~~(lowBits h.vl)) ||| (f h &&& lowBits h.vl))
  clearVsta

/-- KAND (R153). -/
def execKand (ks2 ks1 kd : BitVec 3) (s : State) : Host.Outcome State Fault Refusal :=
  runInstr (.kand ks2 ks1 kd) (maskOp [ks1, ks2] kd fun h => h.kreg ks1 &&& h.kreg ks2) s

/-- KOR (R153). -/
def execKor (ks2 ks1 kd : BitVec 3) (s : State) : Host.Outcome State Fault Refusal :=
  runInstr (.kor ks2 ks1 kd) (maskOp [ks1, ks2] kd fun h => h.kreg ks1 ||| h.kreg ks2) s

/-- KXOR (R153). -/
def execKxor (ks2 ks1 kd : BitVec 3) (s : State) : Host.Outcome State Fault Refusal :=
  runInstr (.kxor ks2 ks1 kd) (maskOp [ks1, ks2] kd fun h => h.kreg ks1 ^^^ h.kreg ks2) s

/-- KANDN (R153). -/
def execKandn (ks2 ks1 kd : BitVec 3) (s : State) : Host.Outcome State Fault Refusal :=
  runInstr (.kandn ks2 ks1 kd) (maskOp [ks1, ks2] kd fun h => h.kreg ks1 &&& ~~~(h.kreg ks2)) s

/-- KNOT (R153). -/
def execKnot (ks1 kd : BitVec 3) (s : State) : Host.Outcome State Fault Refusal :=
  runInstr (.knot ks1 kd) (maskOp [ks1] kd fun h => ~~~(h.kreg ks1)) s

/-- KMV between mask registers (R153). -/
def execKmv (ks1 kd : BitVec 3) (s : State) : Host.Outcome State Fault Refusal :=
  runInstr (.kmv ks1 kd) (maskOp [ks1] kd fun h => h.kreg ks1) s

/-- KSET (R153). -/
def execKset (rs1 : BitVec 5) (kd : BitVec 3) (s : State) : Host.Outcome State Fault Refusal :=
  runInstr (.kset rs1 kd) (maskOp [] kd fun h => lowBits (if (h.rx rs1).toNat < h.vl then (h.rx rs1).toNat else h.vl)) s

/-- KPOP (R154). -/
def execKpop (ks1 : BitVec 3) (rd : BitVec 5) (s : State) : Host.Outcome State Fault Refusal :=
  runInstr (.kpop ks1 rd) (do
    vecGate
    needMask ks1
    needUpsetIn 0 (← getH).vl
    let h ← getH
    writeX rd (BitVec.ofNat 64 (((rangeFrom 0 h.vl).filter (h.kbit ks1)).length))
    clearVsta) s

/-- KFIRST (R154). -/
def execKfirst (ks1 : BitVec 3) (rd : BitVec 5) (s : State) : Host.Outcome State Fault Refusal :=
  runInstr (.kfirst ks1 rd) (do
    vecGate
    needMask ks1
    needUpsetIn 0 (← getH).vl
    let h ← getH
    writeX rd (match (rangeFrom 0 h.vl).find? (h.kbit ks1) with
      | some e => BitVec.ofNat 64 e
      | none => BitVec.allOnes 64)
    clearVsta) s

/-- KMV from emask (R155): every one of the MLEN bits. -/
def execKmvFromEmask (kd : BitVec 3) (s : State) : Host.Outcome State Fault Refusal :=
  runInstr (.kmvFromEmask kd) (do
    vecGate
    needUpsetIn 0 (← getH).mlen
    modH fun h => h.putK kd (h.emask &&& lowBits h.mlen)
    clearVsta) s

/-- KMV to emask (R155): every one of the MLEN bits. -/
def execKmvToEmask (ks1 : BitVec 3) (s : State) : Host.Outcome State Fault Refusal :=
  runInstr (.kmvToEmask ks1) (do
    vecGate
    needMask ks1
    needUpsetIn 0 (← getH).mlen
    modH fun h => { h with emask := h.kreg ks1 &&& lowBits h.mlen }
    clearVsta) s

end Sys2Proof.Machine
end

