-- ==== Sys2Proof/Machine/Queues.lean ====
section
/-!
DEFINITION. Chaining queues (R77, R182) and their transfers from temporal code: vqpush, vqpop and vqcnt (R183 to R185).
-/
namespace Sys2Proof.Machine

/-- Elements of a type that a queue holds (R182). -/
def queueCap (t : ETag) : Nat := 65536 / t.width

/-- A queue of a strand. -/
def Strand.queue (h : Strand) (q : Nat) : Queue := nth h.q.toList q .empty

/-- Replace a queue of a strand. -/
def Strand.putQueue (h : Strand) (q : Nat) (v : Queue) : Strand :=
  { h with q := h.q.set (q % 8) v (Nat.mod_lt _ (by decide)) }

/-- Whether n elements of type t fit a queue now (R183). -/
def Queue.fits (q : Queue) (t : ETag) (n : Nat) : Bool :=
  (q.elems == [] || q.tag == t) && decide (q.elems.length + n ≤ queueCap t)

/-- Append elements of a type (R182). -/
def Queue.push (q : Queue) (t : ETag) (es : List (Word × Bool)) : Queue := ⟨q.elems ++ es, t⟩

/-- The uncorrectable word of a queue among its n oldest elements, as stval reports it. -/
def Strand.badQueue (h : Strand) (q n : Nat) : Option Word :=
  h.badOf ((rangeFrom 0 n).map fun e => ⟨4, q, e, [e]⟩)

/-- Remove the n oldest elements of a queue; uncorrectable words move up with their elements. -/
def Strand.popQueue (h : Strand) (q n : Nat) : Strand :=
  let v := h.queue q
  { h.putQueue q { v with elems := v.elems.drop n } with
    bad := (h.bad.filter fun b => !(b.src == 4 && b.idx == q && decide (b.off < n))).map fun b =>
      if b.src = 4 ∧ b.idx = q then { b with off := b.off - n } else b }

/-- The queue that a selector byte names (R205). -/
def selQueue (sel : Nat) : Option Nat := if sel / 32 = 1 then some (sel % 32) else none

/-- The queues that a record's stages read. -/
def ChainRec.queueReads (r : ChainRec) : List Nat := r.stages.flatMap fun e => [e.selA, e.selB, e.selC].filterMap selQueue

/-- The queues that a record's stages write. -/
def ChainRec.queueWrites (r : ChainRec) : List Nat := r.stages.filterMap fun e => selQueue e.selD

/-- Whether a handle holds a configured chain (R216). -/
def Chain.configured (c : Chain) : Bool := c.state == .ready || c.state == .running || c.state == .broken

/-- Whether a configured chain of the strand writes a queue, or reads it. -/
def Strand.chainWrites (h : Strand) (q : Nat) : Bool := h.c.toList.any fun c => c.configured && c.rcd.queueWrites.contains q

/-- Whether a configured chain of the strand reads a queue. -/
def Strand.chainReads (h : Strand) (q : Nat) : Bool := h.c.toList.any fun c => c.configured && c.rcd.queueReads.contains q

/-- End a queue transfer: the status and vsta at 0 (R82, R183). -/
def transferEnds (rd : BitVec 5) (st : Word) : M Unit := do
  writeX rd st
  clearVsta

/-! ### Channels of a Flaset image under the queues' names (R380) -/

/-- The channel that a queue's name stands for while the strand fires an actor. -/
def Strand.conduit (h : Strand) (q : Nat) : Option Conduit :=
  match h.firing with
  | some f => if f.actor.isSome then f.queues[q]? else none
  | none => none

/-- The tokens on a channel of the running strand's launch. -/
def channelTokens (s : State) (c : Nat) : List Word :=
  match (findLaunch s s.hart.launch).bind (·.flow) with
  | some f => nth f.tokens c []
  | none => []

/-- Put tokens on a channel of the running strand's launch. -/
def putTokens (c : Nat) (ts : List Word) (s : State) : State :=
  match findLaunch s s.hart.launch with
  | some l => setLaunch { l with flow := l.flow.map fun f => { f with tokens := f.tokens.set c ts } } s
  | none => s

/-- The strand as its firing has moved n more tokens under a queue's name. -/
def Strand.moves (h : Strand) (q n : Nat) : Strand :=
  { h with firing := h.firing.map fun f => { f with queues := f.queues.modify q fun c => { c with moved := c.moved + n } } }

/-- A firing that breaks its rates or types goes back to the schedule, which ends the launch (R380). -/
def breakFiring (q : Nat) : M Unit := modH fun h => { h with
  firing := h.firing.map fun f => { f with broken := some q }, npc := (h.firing.map (·.home)).getD h.npc }

/-- The 16 bits of a count of tokens in a status or in vqcnt's word; more than they hold gives a free value (log 32). -/
def tokenCount (n : Nat) : M Nat :=
  if n < 2 ^ 16 then return n
  else do
    let s ← get
    set { s with free := s.free + 1 }
    return (Config.freeWord s.free).toNat % 2 ^ 16

/-- End a transfer with the count of a channel. -/
def tokensEnd (rd : BitVec 5) (n : Nat) : M Unit := do transferEnds rd (status 0 (← tokenCount n))

/-- vqpush on a channel: a transfer fits at once (R380). -/
def pushTokens (q : BitVec 3) (c : Conduit) (vs rd : BitVec 5) : M Unit := do
  let s ← get
  let h := s.hart
  let t := h.tag vs
  let ts := channelTokens s c.chan
  if h.vl = 0 then tokensEnd rd ts.length
  else if c.input || c.ty != t || decide (c.rate < c.moved + h.vl) then breakFiring q.toNat
  else do
    consume (h.badOf ((rangeFrom 0 h.vl).map (h.regRead vs)))
    needUpsetIn 0 h.vl
    endRewind
    modify (putTokens c.chan (ts ++ (rangeFrom 0 h.vl).map fun e => BitVec.ofNat 64 (h.elem vs t.width e)))
    modH fun k => k.moves q.toNat h.vl
    tokensEnd rd (ts.length + h.vl)

/-- vqpop on a channel. -/
def popTokens (q : BitVec 3) (c : Conduit) (vd : BitVec 5) (t : ETag) (rd : BitVec 5) : M Unit := do
  let s ← get
  let h := s.hart
  let ts := channelTokens s c.chan
  if h.vl = 0 then do
    acquire
    tokensEnd rd ts.length
  else if !c.input || decide (c.rate < c.moved + h.vl) then breakFiring q.toNat
  else if c.ty ≠ t then transferEnds rd (status 4 c.ty.code)
  else do
    needUpsetIn 0 h.vl
    endRewind
    acquire
    modify (putTokens c.chan (ts.drop h.vl))
    modH fun k => (rangeFrom 0 h.vl).foldl (fun k e => k.storeElem vd t.width e (nth ts e 0#64).toNat) (k.moves q.toNat h.vl)
    tokensEnd rd (ts.length - h.vl)

/-! ### Transfers -/

/-- How vqpush waits (R183). -/
def vqpushOps (q : BitVec 3) (vs rs1 rd : BitVec 5) : WaitOps where
  attempt := do
    let h ← getH
    let t := h.tag vs
    let v := h.queue q.toNat
    if v.fits t h.vl then
      endRewind
      modH fun k => k.putQueue q.toNat (v.push t ((rangeFrom 0 h.vl).map fun e => (BitVec.ofNat 64 (h.elem vs t.width e), false)))
      transferEnds rd (status 0 (v.elems.length + h.vl))
      return true
    else return false
  withdraw := clearVsta
  expired := do writeX rd (status 1 ((← getH).queue q.toNat).elems.length)
  deadline := readX rs1

/-- VQPUSH (R183). -/
def execVqpush (q : BitVec 3) (vs rs1 rd : BitVec 5) (s : State) : Host.Outcome State Fault Refusal :=
  runInstr (.vqpush q vs rs1 rd) (do
    vecGate
    let h ← getH
    let t := h.tag vs
    need (t != .none) typeFault
    needCap [t]
    needChains [.vreg vs.toNat] []
    match h.conduit q.toNat with
    | some c => pushTokens q c vs rd
    | none => pushQueue h) s
where
  /-- vqpush on a queue of the strand. -/
  pushQueue (h : Strand) : M Unit :=
    if h.vl = 0 then transferEnds rd (status 0 (h.queue q.toNat).elems.length)
    else if h.chainWrites q.toNat then transferEnds rd (status 7 0)
    else do
      consume (h.badOf ((rangeFrom 0 h.vl).map (h.regRead vs)))
      needUpsetIn 0 h.vl
      startWait (.vqpush q vs rs1 rd) 0#64 0 (vqpushOps q vs rs1 rd)

/-- The index of the first marked element, with whether there is one. -/
def firstMark : List (Word × Bool) → Nat × Bool
  | [] => (0, false)
  | e :: es => if e.2 then (0, true) else ((firstMark es).1 + 1, (firstMark es).2)

/-- How vqpop waits (R183, R184). -/
def vqpopOps (q : BitVec 3) (vd rs1 rd : BitVec 5) : WaitOps where
  attempt := do
    let h ← getH
    let t := h.tag vd
    let v := h.queue q.toNat
    if h.vl ≤ v.elems.length then
      if v.tag ≠ t then
        transferEnds rd (status 4 v.tag.code)
        return true
      else
        consume (h.badQueue q.toNat h.vl)
        endRewind
        let es := v.elems.take h.vl
        let m := firstMark es
        acquire
        modH fun k => (rangeFrom 0 h.vl).foldl (fun k e => k.storeElem vd t.width e (nth es e (0#64, false)).1.toNat)
          (k.popQueue q.toNat h.vl)
        transferEnds rd (status 0 (v.elems.length - h.vl + (if m.2 then 2 ^ 16 + 2 ^ 17 * m.1 else 0)))
        return true
    else return false
  withdraw := clearVsta
  expired := do writeX rd (status 1 ((← getH).queue q.toNat).elems.length)
  deadline := readX rs1

/-- VQPOP (R183): the Destination class. -/
def execVqpop (q : BitVec 3) (vd rs1 rd : BitVec 5) (s : State) : Host.Outcome State Fault Refusal :=
  runInstr (.vqpop q vd rs1 rd) (do
    vecGate
    let t ← destType vd
    needCap [t]
    needChains [] [.vreg vd.toNat]
    let h ← getH
    match h.conduit q.toNat with
    | some c => popTokens q c vd t rd
    | none => popQueue h) s
where
  /-- vqpop on a queue of the strand. -/
  popQueue (h : Strand) : M Unit :=
    if h.vl = 0 then do
      acquire
      transferEnds rd (status 0 (h.queue q.toNat).elems.length)
    else if h.chainReads q.toNat then transferEnds rd (status 7 0)
    else do
      needUpsetIn 0 h.vl
      startWait (.vqpop q vd rs1 rd) 0#64 0 (vqpopOps q vd rs1 rd)

/-- The word of vqcnt (R185). -/
def Queue.countWord (q : Queue) : Word :=
  BitVec.ofNat 64 (q.elems.length + 65536 * q.tag.code + 2 ^ 20 * (q.elems.any (·.2)).toNat)

/-- VQCNT (R185): legal at Lown 0. -/
def execVqcnt (q : BitVec 3) (rd : BitVec 5) (s : State) : Host.Outcome State Fault Refusal :=
  runInstr (.vqcnt q rd) (do
    claimGate
    let s ← get
    match s.hart.conduit q.toNat with
    | some c => do
      let n ← tokenCount (channelTokens s c.chan).length
      writeX rd (BitVec.ofNat 64 (n + 65536 * c.ty.code))
    | none => writeX rd (s.hart.queue q.toNat).countWord) s

end Sys2Proof.Machine
end

