-- ==== Sys2Proof/Machine/ChainRecord.lean ====
section
/-!
DEFINITION. Chain records (R203 to R207), what a stage's encoding computes (R156, R186, R202, R208), the two passes of
chcfg's checks (R210 to R212), the core grid (R324, R325) and the grant (R213).
-/
namespace Sys2Proof.Machine

/-! ### Stage operations -/

/-- What an eligible stage encoding computes. -/
inductive StageOp where
  | bin (op : BinOp) (intOnly : Bool)
  | logic (op : BinOp)
  | shift (op : ShOp)
  | fma (negP negC : Bool)
  | un (op : UnOp)
  | classify
  | cvt
  | gather
  | merge
  | red
  | dot
  | mat
  deriving DecidableEq, Repr

/-- A stage operation when its register, s and km fields are all zero (R204). -/
def plainStage (zero : Bool) (op : StageOp) (imm : Option (BitVec 6)) : Option (StageOp × Option (BitVec 6)) :=
  if zero then some (op, imm) else none

/-- A binary stage: every operand field zero. -/
def binStage (km : BitVec 3) (s : Bool) (a b d : BitVec 5) (op : StageOp) : Option (StageOp × Option (BitVec 6)) :=
  plainStage (km == 0#3 && !s && a == 0#5 && b == 0#5 && d == 0#5) op none

/-- An immediate stage: imm6 is B. -/
def immStage (km : BitVec 3) (i : BitVec 6) (a d : BitVec 5) (op : StageOp) : Option (StageOp × Option (BitVec 6)) :=
  plainStage (km == 0#3 && a == 0#5 && d == 0#5) op (some i)

/-- A unary stage. -/
def unStage (km : BitVec 3) (a d : BitVec 5) (op : StageOp) : Option (StageOp × Option (BitVec 6)) :=
  plainStage (km == 0#3 && a == 0#5 && d == 0#5) op none

/-- The stage operation of an instruction, none when it is not eligible (R156, R186, R202). -/
def eligible : Instr → Option (StageOp × Option (BitVec 6))
  | .vadd km s b a d => binStage km s b a d (.bin .add false)
  | .vsub km s b a d => binStage km s b a d (.bin .sub false)
  | .vrsub km s b a d => binStage km s b a d (.bin .rsub false)
  | .vmul km s b a d => binStage km s b a d (.bin .mul false)
  | .vmulh km s b a d => binStage km s b a d (.bin .mulh true)
  | .vdiv km s b a d => binStage km s b a d (.bin .div false)
  | .vrem km s b a d => binStage km s b a d (.bin .rem true)
  | .vmin km s b a d => binStage km s b a d (.bin .min false)
  | .vmax km s b a d => binStage km s b a d (.bin .max false)
  | .vand km s b a d => binStage km s b a d (.logic .and)
  | .vor km s b a d => binStage km s b a d (.logic .or)
  | .vxor km s b a d => binStage km s b a d (.logic .xor)
  | .vsll km s b a d => binStage km s b a d (.shift .sll)
  | .vsrl km s b a d => binStage km s b a d (.shift .srl)
  | .vsra km s b a d => binStage km s b a d (.shift .sra)
  | .vfma km s b a d => binStage km s b a d (.fma false false)
  | .vfms km s b a d => binStage km s b a d (.fma false true)
  | .vfnma km s b a d => binStage km s b a d (.fma true true)
  | .vfnms km s b a d => binStage km s b a d (.fma true false)
  | .vaddVi km i a d => immStage km i a d (.bin .add false)
  | .vsubVi km i a d => immStage km i a d (.bin .sub false)
  | .vrsubVi km i a d => immStage km i a d (.bin .rsub false)
  | .vmulVi km i a d => immStage km i a d (.bin .mul false)
  | .vminVi km i a d => immStage km i a d (.bin .min false)
  | .vmaxVi km i a d => immStage km i a d (.bin .max false)
  | .vandVi km i a d => immStage km i a d (.logic .and)
  | .vorVi km i a d => immStage km i a d (.logic .or)
  | .vxorVi km i a d => immStage km i a d (.logic .xor)
  | .vsllVi km i a d => immStage km i a d (.shift .sll)
  | .vsrlVi km i a d => immStage km i a d (.shift .srl)
  | .vsraVi km i a d => immStage km i a d (.shift .sra)
  | .vmv km a d => unStage km a d (.un .mv)
  | .vabs km a d => unStage km a d (.un .abs)
  | .vneg km a d => unStage km a d (.un .neg)
  | .vnot km a d => unStage km a d (.un .not)
  | .vsqrt km a d => unStage km a d (.un .sqrt)
  | .vrcp km a d => unStage km a d (.un .rcp)
  | .vrsqrt km a d => unStage km a d (.un .rsqrt)
  | .vexp2 km a d => unStage km a d (.un .exp2)
  | .vlog2 km a d => unStage km a d (.un .log2)
  | .vclz km a d => unStage km a d (.un .clz)
  | .vpop km a d => unStage km a d (.un .pop)
  | .vclass km a d => unStage km a d .classify
  | .vcvt km a d => unStage km a d .cvt
  | .vldx km b a d => binStage km false b a d .gather
  | .vmrg km b a d => binStage km false b a d .merge
  | .vred km a ea => plainStage (km == 0#3 && a == 0#5 && ea == 0#3) .red none
  | .vdot km b a ea => plainStage (km == 0#3 && b == 0#5 && a == 0#5 && ea == 0#3) .dot none
  | .mma mc ma mb => plainStage (mc == 0#3 && ma == 0#3 && mb == 0#3) .mat none
  | _ => none

/-- The operation of a stage entry's instruction word (R204). -/
def stageOp (inst : BitVec 32) : Option (StageOp × Option (BitVec 6)) :=
  match decode (leBytes 4 inst.toNat) with
  | .ok (i, []) => eligible i
  | _ => none

/-- The types that a unary operation accepts (R145, R148, R149). -/
def UnOp.accepts (op : UnOp) (t : ETag) : Bool :=
  match op with
  | .mv | .abs | .not => true
  | .neg => t.isSigned || t.isFloat
  | .sqrt | .rcp | .rsqrt => t.isFloat
  | .exp2 | .log2 => t.isFloat && t != .fp64
  | .clz | .pop => t.isInt

/-! ### Parsing -/

/-- The first header word (R203). -/
def hdr (raw : List Byte) (lo n : Nat) : Nat := sub raw 0 4 / 2 ^ lo % 2 ^ n

/-- Counts of stages, ports and links. -/
def hdrStages (raw : List Byte) : Nat := if hdr raw 8 4 = 0 then 16 else hdr raw 8 4

/-- The length that the header's counts give (R203). -/
def recordLength (raw : List Byte) : Nat := 16 + 16 * hdrStages raw + 64 * hdr raw 12 4 + 8 * hdr raw 20 4

/-- The header's fields but for Q are valid (R203). -/
def headerValid (raw : List Byte) : Bool :=
  hdr raw 0 8 == 0xC4 && decide (hdr raw 12 4 ≤ 8) && decide (hdr raw 16 4 ≤ 8) && decide (hdr raw 20 4 ≤ 4) &&
    decide (hdr raw 24 3 ≤ 6) && hdr raw 28 4 == 0 && sub raw 4 4 == recordLength raw && sub raw 8 8 == 0

/-- A stage entry at an offset (R204). -/
def parseStage (raw : List Byte) (o : Nat) : StageEnt :=
  { inst := BitVec.ofNat 32 (sub raw o 4), selA := sub raw (o + 4) 1, selB := sub raw (o + 5) 1, selC := sub raw (o + 6) 1,
    selD := sub raw (o + 7) 1, lanes := sub raw (o + 8) 1, rep := sub raw (o + 9) 1, flags := sub raw (o + 10) 2 }

/-- A port entry at an offset (R206). -/
def parsePort (raw : List Byte) (o : Nat) : PortEnt :=
  { base := sub raw o 8, format := sub raw (o + 8) 1, dir := sub raw (o + 9) 1, mode := sub raw (o + 10) 1,
    dim := (rangeFrom 0 (sub raw (o + 11) 1)).map fun d => (sub raw (o + 12 + 8 * d) 4, signed32 (sub raw (o + 16 + 8 * d) 4)) }

/-- A link entry at an offset (R207). -/
def parseLink (raw : List Byte) (o : Nat) : LinkEnt :=
  { dir := sub raw o 1 % 4, peer := sub raw (o + 1) 1 % 4, pstr := sub raw (o + 1) 1 / 4 % 2, slots := sub raw (o + 2) 1 }

/-- Offset of a stage, port or link entry. -/
def stageOff (i : Nat) : Nat := 16 + 16 * i
/-- Offset of a port entry. -/
def portOff (raw : List Byte) (p : Nat) : Nat := 16 + 16 * hdrStages raw + 64 * p
/-- Offset of a link entry. -/
def linkOff (raw : List Byte) (l : Nat) : Nat := 16 + 16 * hdrStages raw + 64 * hdr raw 12 4 + 8 * l

/-- The record of its bytes. -/
def parseRecord (raw : List Byte) : ChainRec :=
  { fcls := hdr raw 24 3, tmp := hdr raw 27 1 == 1,
    stages := (rangeFrom 0 (hdrStages raw)).map fun i => parseStage raw (stageOff i)
    ports := (rangeFrom 0 (hdr raw 12 4)).map fun p => parsePort raw (portOff raw p)
    links := (rangeFrom 0 (hdr raw 20 4)).map fun l => parseLink raw (linkOff raw l) }

/-! ### Selectors (R205, R208) -/

/-- The kind of a selector. -/
def selKind (sel : Nat) : Nat := sel / 32
/-- The index of a selector. -/
def selIdx (sel : Nat) : Nat := sel % 32
/-- The selector that names nothing. -/
def selNone : Nat := 224

/-- Whether a selector may be a source of stream elements; a constant only where allowed. -/
def srcOk (r : ChainRec) (vlc : Nat) (const : Bool) (sel : Nat) : Bool :=
  match selKind sel with
  | 0 => vlc != 0
  | 1 => decide (selIdx sel < 8)
  | 2 => decide (selIdx sel < r.ports.length)
  | 3 => decide (selIdx sel < r.links.length)
  | 5 => const
  | 6 => true
  | _ => false

/-- Whether a selector may be a destination. -/
def dstOk (r : ChainRec) (vlc : Nat) (sel : Nat) : Bool := selKind sel != 5 && srcOk r vlc false sel

/-- Whether a selector is a chain constant. -/
def isConst (sel : Nat) : Bool := selKind sel == 5

/-- The selectors of a stage fit its roles (R205, R208): code 3 where they do not. A constant stands for any source but a lone
one, a shift stage's A (the count B has no type, R141), a gather's port and a matrix stage's tile. -/
def rolesOk (r : ChainRec) (vlc : Nat) (e : StageEnt) (op : StageOp) (imm : Bool) : Bool :=
  let src := srcOk r vlc true
  let run := srcOk r vlc false
  let noB := e.selB == selNone
  let noC := e.selC == selNone
  let noD := e.selD == selNone
  let dst := dstOk r vlc e.selD
  let narrow := e.flags % 16 == 15 && [e.selA, e.selB, e.selC].any fun s => selKind s == 6
  !narrow &&
  match op with
  | .bin _ _ | .logic _ =>
    if imm then run e.selA && noB && noC && dst
    else src e.selA && src e.selB && !(isConst e.selA && isConst e.selB) && noC && dst
  | .shift _ => run e.selA && (if imm then noB else src e.selB) && noC && dst
  | .fma _ _ =>
    src e.selA && src e.selB && src e.selC && !(isConst e.selA && isConst e.selB && isConst e.selC) && dst
  | .un _ | .classify | .cvt => run e.selA && noB && noC && dst
  | .gather =>
    selKind e.selA == 2 && (match r.ports[selIdx e.selA]? with
      | some p => p.mode == 1
      | none => false) && src e.selB && noC && dst
  | .merge => src e.selA && src e.selB && !(isConst e.selA && isConst e.selB) && noC && dst
  | .red => run e.selA && noB && noC && noD
  | .dot => src e.selA && src e.selB && !(isConst e.selA && isConst e.selB) && noC && noD
  | .mat => src e.selA && selKind e.selB == 4 && decide (selIdx e.selB < 8) && (noC || src e.selC) && dst

/-- The source selectors of a stage. -/
def StageEnt.sources (e : StageEnt) : List Nat := [e.selA, e.selB, e.selC].filter fun s => selKind s != 7

/-- The queues that a record's kind-1 selectors name, each once, an index that is no queue among them (R203). -/
def queuesNamed (r : ChainRec) : Nat :=
  ((rangeFrom 0 32).filter fun q => r.stages.any fun e => [e.selA, e.selB, e.selC, e.selD].contains (32 + q)).length

/-- The code of the first failing check of a stage entry, 0 for none (R212). DESIGN CHOICE (log 21): an ityp, otyp or ea that is
nonzero where the stage has no use for it is accepted, since R204 says that it is zero and no code of R212 is for it. -/
def stageCode (raw : List Byte) (r : ChainRec) (vlc i : Nat) : Nat :=
  let o := stageOff i
  let e := parseStage raw o
  match stageOp e.inst with
  | none => 2
  | some (op, imm) =>
    if !rolesOk r vlc e op imm.isSome then 3
    else if e.rep < 1 || 8 < e.rep || e.flags / 2048 != 0 || sub raw (o + 12) 4 != 0 then 8
    else 0

/-- How many source and destination selectors name a port or link. -/
def namedAs (r : ChainRec) (kind idx : Nat) : Nat × Nat :=
  let sel := 32 * kind + idx
  ((r.stages.flatMap StageEnt.sources).countP (· == sel), (r.stages.map (·.selD)).countP (· == sel))

/-- Whether a port is the A source of a gather stage. -/
def namedByGather (r : ChainRec) (p : Nat) : Bool :=
  r.stages.any fun e => e.selA == 64 + p && (match stageOp e.inst with
    | some (.gather, _) => true
    | _ => false)

/-- A port entry is valid (R206). -/
def portValid (raw : List Byte) (r : ChainRec) (p : Nat) : Bool :=
  let o := portOff raw p
  let e := parsePort raw o
  let n := namedAs r 2 p
  let d := e.dim.length
  let s0 := (nth e.dim 0 (0, 0)).2
  ((1 ≤ e.format && e.format ≤ 0x10)) && e.dir ≤ 1 && e.mode ≤ 3 && 1 ≤ d && d ≤ 6 &&
    ((rangeFrom d (6 - d)).all fun k => sub raw (o + 12 + 8 * k) 8 == 0) &&
    (e.mode != 1 || (namedByGather r p && e.dir == 0)) &&
    (e.mode != 2 || (e.dir == 1 && (e.format == 5 || e.format == 6 || e.format == 7 || e.format == 8 || e.format == 13 || e.format == 14))) &&
    (e.mode != 3 || e.dir == 0) &&
    (e.format != 0x10 || (e.mode == 0 && d == 1 && s0 == 0 && (nth e.dim 0 (0, 0)).1 % 32 == 0)) &&
    (e.format != 15 || s0 == 0) && n.1 + n.2 ≤ 1 && (n.1 == 0 || e.dir == 0) && (n.2 == 0 || e.dir == 1)

/-! ### The core grid (R324, R325) -/

/-- Package row and column of a core (R324). -/
def gridPos (p : Place) : Nat × Nat :=
  (10 * (p.die / 2) + (2 * (p.cluster / 5) + p.core / 4), 20 * (p.die % 2) + (4 * (p.cluster % 5) + p.core % 4))

/-- The core at a grid position. -/
def coreAt (py px slot : Nat) : Place :=
  { die := 2 * (py / 10) + px / 20, cluster := 5 * (py % 10 / 2) + px % 20 / 4, core := 4 * (py % 2) + px % 4, slot := slot }

/-- Whether a core is present and in service (R319, R345, R346). -/
def coreInService (s : State) (p : Place) : Bool :=
  bit s.svc.dies p.die && !s.svc.deadClusters.contains (p.die, p.cluster) && (match findCore s p with
    | some c => !c.retired
    | none => true)

/-- The neighbouring core in a direction N, E, S, W (R325). -/
def neighbour (s : State) (p : Place) (dir slot : Nat) : Option Place :=
  let g := gridPos p
  let at_ : Option (Nat × Nat) :=
    if dir = 0 then (if g.1 = 0 then none else some (g.1 - 1, g.2))
    else if dir = 1 then (if g.2 = 39 then none else some (g.1, g.2 + 1))
    else if dir = 2 then (if g.1 = 39 then none else some (g.1 + 1, g.2))
    else (if g.2 = 0 then none else some (g.1, g.2 - 1))
  match at_ with
  | some (y, x) => if coreInService s (coreAt y x slot) then some (coreAt y x slot) else none
  | none => none

/-- A link entry is valid (R207). -/
def linkValid (s : State) (r : ChainRec) (l : Nat) (e : LinkEnt) : Bool :=
  let n := namedAs r 3 l
  1 ≤ e.slots && n.1 ≤ 1 && n.2 ≤ 1 && (r.links.countP fun k => k.dir == e.dir) ≤ 1 &&
    (neighbour s s.hart.place e.dir e.pstr).isSome

/-- The code of a port entry. -/
def portCode (raw : List Byte) (r : ChainRec) (p : Nat) : Nat :=
  if !portValid raw r p then 6 else if sub raw (portOff raw p + 60) 4 != 0 then 8 else 0

/-- The code of a link entry. -/
def linkCode (s : State) (raw : List Byte) (r : ChainRec) (l : Nat) : Nat :=
  let o := linkOff raw l
  if !linkValid s r l (parseLink raw o) then 7
  else if sub raw o 1 / 4 != 0 || sub raw (o + 1) 1 / 8 != 0 || sub raw (o + 3) 5 != 0 then 8 else 0

/-- The first code that is not 0. -/
def firstCode : List Nat → Nat
  | [] => 0
  | c :: cs => if c = 0 then firstCode cs else c

/-- The first pass over a record whose header is valid but for Q (R212). -/
def firstPass (s : State) (raw : List Byte) (vlc : Nat) : Nat :=
  let r := parseRecord raw
  firstCode ([if queuesNamed r = hdr raw 16 4 then 0 else 1] ++
    (rangeFrom 0 r.stages.length).map (stageCode raw r vlc) ++ (rangeFrom 0 r.ports.length).map (portCode raw r) ++
    (rangeFrom 0 r.links.length).map (linkCode s raw r))

/-! ### Types (R210) -/

/-- The type of a port's elements. -/
def PortEnt.ty (p : PortEnt) : ETag := if p.format = 0x10 then .fp32 else ETag.ofCode p.format

/-- The result type of the earlier stage that writes a queue. -/
def queueType (r : ChainRec) (res : List ETag) (i q : Nat) : Option ETag :=
  ((rangeFrom 0 i).find? fun j => (nth r.stages j ⟨0#32, 0, 0, 0, 0, 0, 0, 0⟩).selD == 32 + q).map fun j => nth res j .none

/-- The type that a source selector of stage i gives; NONE when it has none. res holds the result types so far. -/
def srcType (h : Strand) (r : ChainRec) (res : List ETag) (i ityp sel : Nat) : ETag :=
  let ext := ETag.ofCode ityp
  match selKind sel with
  | 0 => h.tag (BitVec.ofNat 5 (selIdx sel))
  | 1 => (queueType r res i (selIdx sel)).getD ext
  | 2 => match r.ports[selIdx sel]? with
    | some p => p.ty
    | none => .none
  | 4 => (h.shape (BitVec.ofNat 3 sel)).ty
  | 3 | 6 => ext
  | _ => .none

/-- The type that a destination selector gives to a Destination-class or matrix stage (R210). -/
def dstType (h : Strand) (r : ChainRec) (otyp sel : Nat) : ETag :=
  match selKind sel with
  | 0 => h.tag (BitVec.ofNat 5 (selIdx sel))
  | 2 => match r.ports[selIdx sel]? with
    | some p => p.ty
    | none => .none
  | _ => ETag.ofCode otyp

/-- Whether a destination takes elements of a result type (R210). -/
def dstTakes (h : Strand) (r : ChainRec) (sel : Nat) (t : ETag) : Bool :=
  match selKind sel with
  | 0 => h.tag (BitVec.ofNat 5 (selIdx sel)) == t
  | 2 => match r.ports[selIdx sel]? with
    | some p => p.ty == t
    | none => false
  | _ => true

/-- Types accepted by the reductions (R157). -/
def redAccepts (t : ETag) : Bool :=
  t.isFloat && t != .fp64 || t == .i4 || t == .i8 || t == .i16 || t == .i32 || t == .n8 || t == .n16 || t == .n32

/-- Factor types of a matrix stage (R196). -/
def matFactor (t : ETag) : Bool :=
  t.isFloat && t != .fp64 || t == .i4 || t == .i8 || t == .i16 || t == .n8 || t == .n16

/-- Whether a matrix stage's product of types a and b goes to type c (R196). -/
def matTypes (a b c : ETag) : Bool :=
  matFactor a && matFactor b &&
    ((a.isFloat && b.isFloat && c.isFloat && c != .fp64) ||
     (a.isSigned && b.isSigned && (c == .i16 || c == .i32 || c == .i64)) ||
     (a.isUnsigned && b.isUnsigned && (c == .n16 || c == .n32 || c == .n64)))

/-- The types of a stage's sources A, B and C where a chain constant takes the type of the stage's other typed source (R205);
for a constant shift count NONE, its value being the whole register's (R141), and for the seed of a matrix stage its
destination's type (R210). op is the operation type of the other stages. -/
def sourceTypes (h : Strand) (r : ChainRec) (res : List ETag) (i : Nat) (e : StageEnt) (op : ETag) : List ETag :=
  let ty (sel : Nat) : ETag := srcType h r res i (e.flags % 16) sel
  let or_ (sel : Nat) (t : ETag) : ETag := if isConst sel then t else ty sel
  match stageOp e.inst with
  | some (.shift _, _) => [ty e.selA, ty e.selB, .none]
  | some (.gather, _) => [ty e.selA, or_ e.selB (ty e.selA), .none]
  | some (.merge, _) => [or_ e.selA (ty e.selB), or_ e.selB (ty e.selA), .none]
  | some (.mat, _) => [or_ e.selA (ty e.selB), ty e.selB, or_ e.selC (dstType h r (e.flags / 16 % 16) e.selD)]
  | _ => [or_ e.selA op, or_ e.selB op, or_ e.selC op]

/-- The operation and result types of a stage, none for a type fault (R210). A reduction has no result type. -/
def stageTypes (h : Strand) (r : ChainRec) (res : List ETag) (i : Nat) (e : StageEnt) : Option (ETag × ETag) :=
  match stageOp e.inst with
  | none => none
  | some (op, imm) =>
    let ty (sel : Nat) : ETag := srcType h r res i (e.flags % 16) sel
    let typed (sels : List Nat) : List ETag := (sels.filter fun s => !isConst s && selKind s != 7).map ty
    let out := dstType h r (e.flags / 16 % 16) e.selD
    let src (k : Nat) : ETag := nth (sourceTypes h r res i e .none) k .none
    let ok (c : Bool) (o t : ETag) : Option (ETag × ETag) := if c && t != .none && dstTakes h r e.selD t then some (o, t) else none
    match op with
    | .bin _ intOnly =>
      match commonType (typed [e.selA, e.selB]) with
      | some t => ok (!intOnly || t.isInt) t t
      | none => none
    | .logic _ =>
      let ts := typed [e.selA, e.selB]
      let t := nth ts 0 .none
      ok (ts.all (· == t)) t t
    | .shift _ =>
      let t := src 0
      ok (t.isInt && (imm.isSome || isConst e.selB || (src 1).isInt)) t t
    | .fma _ _ =>
      match commonType (typed [e.selA, e.selB, e.selC]) with
      | some t => ok true t t
      | none => none
    | .un u => ok (u.accepts (ty e.selA)) (ty e.selA) (ty e.selA)
    | .classify => ok (ty e.selA != .none) (ty e.selA) .n16
    | .cvt => ok (ty e.selA != .none) (ty e.selA) out
    | .gather => ok ((src 1).isInt && ty e.selA == out && out != .i4) (src 1) out
    | .merge => ok (src 0 == src 1) (src 0) (src 0)
    | .red => if redAccepts (ty e.selA) then some (ty e.selA, .none) else none
    | .dot =>
      let ts := typed [e.selA, e.selB]
      let t := nth ts 0 .none
      if ts.all redAccepts && (ts.all ETag.isFloat || ts.all ETag.isSigned || ts.all ETag.isUnsigned) then some (t, .none) else none
    | .mat =>
      let b := (h.shape (BitVec.ofNat 3 e.selB))
      ok (b.rows != 0 && matTypes (src 0) b.ty out && (selKind e.selC == 7 || src 2 == out)) (src 0) out

/-! ### Queue and register use (R211) -/

/-- Other configured chains of the strand. -/
def otherChains (h : Strand) (ci : Nat) : List Chain :=
  ((rangeFrom 0 4).filter (· != ci)).filterMap fun k =>
    let c := nth h.c.toList k .free
    if c.configured then some c else none

/-- Whether a stage's use of queues, registers and accumulators breaks R211. -/
def useBreaks (h : Strand) (ci : Nat) (r : ChainRec) (i : Nat) (e : StageEnt) : Bool :=
  let others := otherChains h ci
  let stage (j : Nat) : StageEnt := nth r.stages j ⟨0#32, 0, 0, 0, 0, 0, 0, 0⟩
  let srcQ := e.sources.filterMap selQueue
  let earlierQ := (rangeFrom 0 i).flatMap fun j => (stage j).sources.filterMap selQueue
  let all : List Nat := r.stages.flatMap fun x => x.sources ++ [x.selD]
  let foreign : List Nat := others.flatMap fun c => c.rcd.stages.flatMap fun x => x.sources ++ [x.selD]
  let foreignD : List Nat := others.flatMap fun c => c.rcd.stages.map (·.selD)
  let accs (x : StageEnt) : List Nat := if x.isReduction then [x.flags / 256 % 8] else []
  -- one consumer of a queue, after its producer
  (srcQ.any fun q => earlierQ.contains q || decide (1 < srcQ.countP (· == q)) ||
      ((rangeFrom i (r.stages.length - i)).any fun j => (stage j).selD == 32 + q) || others.any fun c => c.rcd.queueReads.contains q) ||
  -- one producer of a queue
  (match selQueue e.selD with
    | some q => ((rangeFrom 0 i).any fun j => (stage j).selD == 32 + q) || others.any fun c => c.rcd.queueWrites.contains q
    | none => false) ||
  -- a destination register named by no other selector
  (selKind e.selD == 0 && (decide (1 < all.countP (· == e.selD)) || foreign.contains e.selD)) ||
  (e.sources.any fun s => (selKind s == 0 || selKind s == 4) && foreignD.contains s) ||
  -- an accumulator of one reduction only
  ((accs e).any fun a => decide (1 < (r.stages.flatMap accs).countP (· == a)) ||
    others.any fun c => (c.rcd.stages.flatMap accs).contains a)

/-- The second pass from stage i: the types of every stage, or a code (R212). -/
def secondPass (h : Strand) (ci : Nat) (r : ChainRec) : List StageEnt → Nat → List ETag → Except Nat (List (ETag × ETag))
  | [], _, _ => .ok []
  | e :: es, i, res =>
    match stageTypes h r res i e with
    | none => .error 4
    | some t =>
      if selKind e.selD == 6 && t.2 == .i4 then .error 3
      else if useBreaks h ci r i e then .error 5
      else match secondPass h ci r es (i + 1) (res ++ [t.2]) with
        | .ok ts => .ok (t :: ts)
        | .error c => .error c

/-! ### Grant (R213) -/

/-- Whether a stage is a matrix stage. -/
def StageEnt.isMatrix (e : StageEnt) : Bool := e.inst.toNat % 128 == 0x5B

/-- Whether a stage has a kind-6 selector. -/
def StageEnt.onSlices (e : StageEnt) : Bool := (e.selD :: e.sources).any fun s => selKind s == 6

/-- Whether a stage is a merge stage. -/
def StageEnt.isMerge (e : StageEnt) : Bool :=
  match stageOp e.inst with
  | some (.merge, _) => true
  | _ => false

/-- Lane groups of a kind held by chains, by owned number. -/
def heldGroups (cs : List Chain) (matrix : Bool) : List Nat :=
  cs.flatMap fun c => (rangeFrom 0 c.stages.length).flatMap fun i =>
    match c.rcd.stages[i]?, c.stages[i]? with
    | some e, some st => if e.isMatrix == matrix then st.groups else []
    | _, _ => []

/-- The groups of each stage in order, and whether some stage had none. A stage with a kind-6 selector takes every owned group,
each a replica of it whatever rep says. DESIGN CHOICE (log 21): R213 grants it every group and gives no count of replicas,
for a merge stage neither. -/
def grantFrom (lown : Nat) : List StageEnt → List Nat → List Nat → List (List Nat) × Bool
  | [], _, _ => ([], false)
  | e :: es, hv, hm =>
    let held := if e.isMatrix then hm else hv
    let owned := rangeFrom 0 (lown / 32)
    let free := owned.filter fun g => !held.contains g
    let g :=
      if e.onSlices then (if free.length = owned.length then owned else [])
      else
        let c := free.filter fun g => e.lanes.testBit g
        c.take (if e.isMerge then 1 else e.rep)
    let rest := if e.isMatrix then grantFrom lown es hv (hm ++ g) else grantFrom lown es (hv ++ g) hm
    (g :: rest.1, g.isEmpty || rest.2)

/-- Whether the nodes of a stack may carry out a stage: it consumes one near port, and is an element stage whose other typed
sources are constants or none, or vred (R362). -/
def nearStage (r : ChainRec) (e : StageEnt) : Bool :=
  let near (sel : Nat) : Bool := selKind sel == 2 && (nth r.ports (selIdx sel) ⟨0, 0, 0, 0, []⟩).mode == 3
  match stageOp e.inst with
  | some (.red, _) => near e.selA
  | some (.gather, _) | some (.merge, _) | some (.mat, _) | some (.dot, _) => false
  | some _ => e.sources.countP near == 1 && e.sources.all fun s => near s || isConst s
  | none => false

/-- The grant of R213: whether it is temporal, and the groups of each stage. Under a spatial grant the nodes of a stack carry
out the stages that they may, where near says so, and those hold no lane group (R362). -/
def grantOf (h : Strand) (ci : Nat) (r : ChainRec) (near : Bool) : Bool × List (List Nat) :=
  let o := otherChains h ci
  let g := grantFrom h.lown r.stages (heldGroups o false) (heldGroups o true)
  if r.tmp || g.2 then (true, r.stages.map fun _ => [])
  else (false, (r.stages.zip g.1).map fun x => if near && nearStage r x.1 then [] else x.2)

end Sys2Proof.Machine
end

