-- ==== Sys2Proof/Machine/CrossLane.lean ====
section
/-!
DEFINITION. The cross-lane and reduction half of the major opcode VX (R171 to R180): permutes, slides, packing, scans,
compare-exchange, merge, reductions and the exact accumulators.
-/
namespace Sys2Proof.Machine

/-! ### The indivisible cross-lane instructions (R171) -/

/-- Run a cross-lane instruction: it starts at element 0 whatever vsta holds; f gives each element of vd from the sources
as they stand, or leaves it. -/
def crossRun (km : BitVec 3) (vd : BitVec 5) (regs : List (BitVec 5)) (t : ETag) (f : Strand → Nat → Option (Nat × Cls)) :
    M Unit := do
  let h ← getH
  needCap (t :: regs.map h.tag)
  needChains (regs.map fun r => .vreg r.toNat) [.vreg vd.toNat]
  let bad := h.badOf ((rangeFrom 0 h.vl).flatMap (h.srcReads regs km))
  match bad with
  | some w => throw (.ue w (some 0))
  | none => pure ()
  needUpsetIn 0 h.vl
  clearVsta
  modH fun k => k.putTag vd t
  forEach (rangeFrom 0 h.vl) fun e =>
    match f h e with
    | some r => modH fun k => k.deliver vd t.width e r
    | none => pure ()

/-- The tag of a Common source that accepts any tag but NONE. -/
def anyTag (r : BitVec 5) : M ETag := do
  let t := (← getH).tag r
  need (t != .none) typeFault
  return t

/-- Element e of a register of type t. -/
def encOf (h : Strand) (t : ETag) (r : BitVec 5) (e : Nat) : Nat := h.elem r t.width e

/-- VPERM (R173). -/
def execVperm (km : BitVec 3) (vs2 vs1 vd : BitVec 5) (s : State) : Host.Outcome State Fault Refusal :=
  runInstr (.vperm km vs2 vs1 vd) (do
    vecGate
    let t ← anyTag vs1
    let u := (← getH).tag vs2
    need u.isInt typeFault
    crossRun km vd [vs1, vs2] t fun h e =>
      let i := decodeInt u (h.elem vs2 u.width e)
      if h.active km e then some (if 0 ≤ i ∧ i < h.vl then encOf h t vs1 i.toNat else 0, 0#6) else none) s

/-- VSLUP (R173). -/
def execVslup (km : BitVec 3) (rs2 vs1 vd : BitVec 5) (s : State) : Host.Outcome State Fault Refusal :=
  runInstr (.vslup km rs2 vs1 vd) (do
    vecGate
    let t ← anyTag vs1
    crossRun km vd [vs1] t fun h e =>
      let n := (h.rx rs2).toNat
      if h.active km e ∧ n ≤ e then some (encOf h t vs1 (e - n), 0#6) else none) s

/-- VSLDN (R173). -/
def execVsldn (km : BitVec 3) (rs2 vs1 vd : BitVec 5) (s : State) : Host.Outcome State Fault Refusal :=
  runInstr (.vsldn km rs2 vs1 vd) (do
    vecGate
    let t ← anyTag vs1
    crossRun km vd [vs1] t fun h e =>
      let n := (h.rx rs2).toNat
      if h.active km e then some (if e + n < h.vl then encOf h t vs1 (e + n) else 0, 0#6) else none) s

/-- VCOMP (R174): the active elements packed, zeros after them. -/
def execVcomp (km : BitVec 3) (vs1 vd : BitVec 5) (s : State) : Host.Outcome State Fault Refusal :=
  runInstr (.vcomp km vs1 vd) (do
    vecGate
    let t ← anyTag vs1
    let h ← getH
    let packed := (h.activeFrom km 0 h.vl).map (encOf h t vs1)
    crossRun km vd [vs1] t fun _ e => some (nth packed e 0, 0#6)) s

/-- VEXPD (R174): a prefix spread onto the active positions. -/
def execVexpd (km : BitVec 3) (vs1 vd : BitVec 5) (s : State) : Host.Outcome State Fault Refusal :=
  runInstr (.vexpd km vs1 vd) (do
    vecGate
    let t ← anyTag vs1
    crossRun km vd [vs1] t fun h e =>
      if h.active km e then some (encOf h t vs1 (h.activeFrom km 0 e).length, 0#6) else none) s

/-- Running sums of float elements through an exact accumulator (R41, R175). -/
def scanExact (t : ETag) (mode : RMode) : Acc → List Nat → List (Nat × Cls)
  | _, [] => []
  | a, x :: xs =>
    let r := a.add1 (decodeFloat t x)
    let o := r.1.read t mode
    (o.1, r.2 ||| o.2) :: scanExact t mode r.1 xs

/-- Running sums of FP64 elements (R43). -/
def scanF64 (mode : RMode) : Nat → List Nat → List (Nat × Cls)
  | _, [] => []
  | a, x :: xs =>
    let r := fAdd .fp64 mode a x
    r :: scanF64 mode r.1 xs

/-- Running sums of integers, each clamped on its own (R175). -/
def scanInt (t : ETag) : Int → List Nat → List (Nat × Cls)
  | _, [] => []
  | a, x :: xs => satEnc t (a + decodeInt t x) :: scanInt t (a + decodeInt t x) xs

/-- The outputs of vscan for the active elements in order. -/
def scanOuts (t : ETag) (mode : RMode) (xs : List Nat) : List (Nat × Cls) :=
  if t = .fp64 then scanF64 mode (2 ^ 63) xs
  else if t.isFloat then scanExact t mode .clear xs
  else scanInt t 0 xs

/-- VSCAN (R175). -/
def execVscan (km : BitVec 3) (vs1 vd : BitVec 5) (s : State) : Host.Outcome State Fault Refusal :=
  runInstr (.vscan km vs1 vd) (do
    vecGate
    let t ← anyTag vs1
    let h ← getH
    let outs := scanOuts t h.mode_ ((h.activeFrom km 0 h.vl).map (encOf h t vs1))
    crossRun km vd [vs1] t fun h e =>
      if h.active km e then some (nth outs (h.activeFrom km 0 e).length (0, 0#6)) else none) s

/-- The key of an encoding under R172: integers by value, floats by the total order of their encodings. -/
def orderKey (t : ETag) (p : Nat) : Int :=
  if t.isFloat then
    (if p.testBit (t.width - 1) then ((2 ^ t.width - 1 - p : Nat) : Int) else ((p + 2 ^ (t.width - 1) : Nat) : Int))
  else decodeInt t p

/-- Less of R172. -/
def encLess (t : ETag) (a b : Nat) : Bool := decide (orderKey t a < orderKey t b)

/-- VCEX (R176). -/
def execVcex (km : BitVec 3) (vs2 vs1 vd : BitVec 5) (s : State) : Host.Outcome State Fault Refusal :=
  runInstr (.vcex km vs2 vs1 vd) (do
    vecGate
    let t ← anyTag vs1
    let u := (← getH).tag vs2
    need u.isInt typeFault
    crossRun km vd [vs1, vs2] t fun h e =>
      if h.active km e then
        let p := decodeInt u (h.elem vs2 u.width e)
        let x := encOf h t vs1 e
        let y := encOf h t vs1 p.toNat
        some (if p < 0 ∨ h.vl ≤ p ∨ p = e then x
          else if (e : Int) < p then (if encLess t y x then y else x)
          else (if encLess t x y then y else x), 0#6)
      else none) s

/-- The merge of R177: n elements from A at i and B at j, each with whether it came from A. -/
def mergeRuns (t : ETag) (a b : Nat → Nat) : Nat → Nat → Nat → List (Nat × Bool)
  | 0, _, _ => []
  | n + 1, i, j =>
    if encLess t (b j) (a i) then (b j, false) :: mergeRuns t a b n i (j + 1)
    else (a i, true) :: mergeRuns t a b n (i + 1) j

/-- VMRG (R177): km is a destination. -/
def execVmrg (km : BitVec 3) (vs2 vs1 vd : BitVec 5) (s : State) : Host.Outcome State Fault Refusal :=
  runInstr (.vmrg km vs2 vs1 vd) (do
    vecGate
    let t ← anyTag vs1
    let h ← getH
    need (h.tag vs2 == t) typeFault
    let out := mergeRuns t (encOf h t vs1) (encOf h t vs2) h.vl 0 0
    crossRun 0#3 vd [vs1, vs2] t fun _ e => some ((nth out e (0, false)).1, 0#6)
    modH fun k => (rangeFrom 0 h.vl).foldl (fun k e => k.storeKbit km e (nth out e (0, false)).2) k) s

/-! ### Reductions (R178, R179) -/

/-- The types of vred and vdot (R157). -/
def redType (t : ETag) : Bool :=
  t == .fp32 || t == .bf16 || t == .fp16 || t == .e4m3 || t == .e5m2 || t == .i4 || t == .i8 || t == .i16 || t == .i32 ||
    t == .n8 || t == .n16 || t == .n32

/-- Change an exact accumulator. -/
def Strand.putAcc (h : Strand) (ea : BitVec 3) (a : Acc) : Strand := { h with ea := h.ea.set ea.toFin a }

/-- Add an exact term for each active element to an accumulator (R178). -/
def reduceInto (km : BitVec 3) (regs : List (BitVec 5)) (ea : BitVec 3) (term : Strand → Nat → Acc → Acc × Cls) : M Unit := do
  let h ← getH
  needCap (regs.map h.tag)
  needChains (regs.map fun r => .vreg r.toNat) [.acc ea.toNat]
  elementLoop h.vl false (pure ()) (h.active km) (fun e => h.badOf (h.srcReads regs km e ++ [accRead ea])) fun e =>
    modH fun k =>
      let r := term h e (k.ea.get ea.toFin)
      (k.putAcc ea r.1).flag e r.2

/-- VRED (R178). -/
def execVred (km : BitVec 3) (vs1 : BitVec 5) (ea : BitVec 3) (s : State) : Host.Outcome State Fault Refusal :=
  runInstr (.vred km vs1 ea) (do
    vecGate
    let t := (← getH).tag vs1
    need (redType t) typeFault
    reduceInto km [vs1] ea fun h e a => a.add1 (valueOf t (encOf h t vs1 e))) s

/-- The exact product of one element pair as a term (R38, R178). -/
def addProduct (a : Acc) (t u : ETag) (x y : Nat) : Acc × Cls :=
  if t.isFloat then a.add2 (decodeFloat t x) (decodeFloat u y) else a.add1 (intNum (decodeInt t x * decodeInt u y))

/-- VDOT (R178): float formats may differ, integers are of one signedness. -/
def execVdot (km : BitVec 3) (vs2 vs1 : BitVec 5) (ea : BitVec 3) (s : State) : Host.Outcome State Fault Refusal :=
  runInstr (.vdot km vs2 vs1 ea) (do
    vecGate
    let h ← getH
    let t := h.tag vs1
    let u := h.tag vs2
    need (redType t && redType u && ((t.isFloat && u.isFloat) || (t.isSigned && u.isSigned) || (t.isUnsigned && u.isUnsigned)))
      typeFault
    reduceInto km [vs1, vs2] ea fun h e a => addProduct a t u (encOf h t vs1 e) (encOf h u vs2 e)) s

/-- Invalid for a signalling NaN of a float type. -/
def sigOf (t : ETag) (x : Nat) : Cls := if t.isFloat then sigCls (decodeFloat t x) else 0#6

/-- A running greatest or least in element 0 of vd (R179). -/
def reduceMinMax (op : BinOp) (km : BitVec 3) (vs1 vd : BitVec 5) : M Unit := do
  vecGate
  let t ← anyTag vs1
  let h ← getH
  need (h.tag vd == t) typeFault
  needCap [t]
  needChains [.vreg vs1.toNat, .vreg vd.toNat] [.vreg vd.toNat]
  elementLoop h.vl false (pure ()) (h.active km) (fun e => h.badOf (h.regRead vd 0 :: h.srcReads [vs1] km e)) fun e =>
    modH fun k =>
      let old := encOf k t vd 0
      let x := encOf h t vs1 e
      ((k.storeElem vd t.width 0 (elemBin op t k.mode_ old x).1).flag 0 (sigOf t old)).flag e (sigOf t x)

/-- VREDMX (R179). -/
def execVredmx (km : BitVec 3) (vs1 vd : BitVec 5) (s : State) : Host.Outcome State Fault Refusal :=
  runInstr (.vredmx km vs1 vd) (reduceMinMax .max km vs1 vd) s

/-- VREDMN (R179). -/
def execVredmn (km : BitVec 3) (vs1 vd : BitVec 5) (s : State) : Host.Outcome State Fault Refusal :=
  runInstr (.vredmn km vs1 vd) (reduceMinMax .min km vs1 vd) s

/-! ### Exact accumulators (R180) -/

/-- EACLR (R180): ExactLoad(ea, −0). -/
def execEaclr (ea : BitVec 3) (s : State) : Host.Outcome State Fault Refusal :=
  runInstr (.eaclr ea) (do
    vecGate
    needChains [] [.acc ea.toNat]
    needUpset
    modH fun h => (h.putAcc ea .clear).heal 5 ea.toNat [0]
    clearVsta) s

/-- EARD (R180, R39): one read-out into element 0 of vd. -/
def execEard (ea : BitVec 3) (vd : BitVec 5) (s : State) : Host.Outcome State Fault Refusal :=
  runInstr (.eard ea vd) (do
    vecGate
    let t ← destType vd
    need (t != .i4) typeFault
    needChains [.acc ea.toNat] [.vreg vd.toNat]
    let h ← getH
    consume (h.badOf [accRead ea])
    needUpset
    modH fun k => k.deliver vd t.width 0 ((h.ea.get ea.toFin).read t h.mode_)
    clearVsta) s

/-- The 96-byte image of an accumulator (R37). -/
def Acc.image (a : Acc) : List Byte := toBytes 80 a.a.toNat ++ toBytes 8 a.flagBits ++ toBytes 8 0

/-- The accumulator of an image, none when a reserved bit is set (R37). -/
def Acc.ofImage (bs : List Byte) : Option Acc :=
  let f := ofBytes ((bs.drop 80).take 8)
  if 32 ≤ f ∨ ofBytes ((bs.drop 88).take 8) ≠ 0 then none
  else some ⟨BitVec.ofNat 640 (ofBytes (bs.take 80)), f.testBit 0, f.testBit 1, f.testBit 2, f.testBit 3, f.testBit 4⟩

/-- Addresses of the words of an image, every one checked before any effect (R180). -/
def imageWords (k : Access) (a n : Nat) : M (List (Nat × Nat)) :=
  mapEach (rangeFrom 0 n) fun i => atElem 0 (do
    let va := (a + 8 * i) % 2 ^ 64
    checkAddress k va 8
    let pa ← translateIdem k va
    return (va, pa))

/-- EAMV from memory (R180). -/
def execEamvLoad (rs1 : BitVec 5) (ea : BitVec 3) (s : State) : Host.Outcome State Fault Refusal :=
  runInstr (.eamvLoad rs1 ea) (do
    vecGate
    needChains [] [.acc ea.toNat]
    let a := (← readX rs1).toNat
    let ws ← imageWords .load a 12
    let bs ← mapEach ws fun w => atElem 0 (ownBytes w.2 8 w.1)
    forEach ws fun w => do
      dropDcache w.2 8
      noteAccess false w.1 8
    match Acc.ofImage bs.flatten with
    | none => raiseAt 5 0 a
    | some v =>
      needUpset
      modH fun h => (h.putAcc ea v).heal 5 ea.toNat [0]
      clearVsta) s

/-- EAMV to memory (R180). -/
def execEamvStore (rs1 : BitVec 5) (ea : BitVec 3) (s : State) : Host.Outcome State Fault Refusal :=
  runInstr (.eamvStore rs1 ea) (do
    vecGate
    needChains [.acc ea.toNat] []
    let h ← getH
    let ws ← imageWords .store (h.rx rs1).toNat 12
    consume (h.badOf [accRead ea])
    needUpset
    let img := (h.ea.get ea.toFin).image
    forEach (rangeFrom 0 12) fun i =>
      let w := nth ws i (0, 0)
      idemStore w.1 w.2 ((img.drop (8 * i)).take 8)
    clearVsta) s

end Sys2Proof.Machine
end

