-- ==== Sys2Proof/Machine/VectorMemory.lean ====
section
/-!
DEFINITION. The memory half of the major opcode VX (08_vector_memory_and_crosslane.md, R157 to R170): element loads and
stores, gather-linked and scatter-conditional, lane slices and vector atomics.
-/
namespace Sys2Proof.Machine

/-! ### Element accesses (R160 to R163) -/

/-- One element load: device-class memory is accessed once, anything else bypasses the scalar data cache (R87, R163). -/
def vecRead (va n : Nat) : M Nat := do
  checkAddress .load va n
  let (pa, dev) ← translateH .load va
  if ctlBase ≤ pa then raise 5 (BitVec.ofNat 64 va)
  let v ← if dev then deviceRead va pa n
    else do
      let bs ← ownBytes pa n va
      dropDcache pa n
      pure (ofBytes bs)
  noteAccess false va n
  return v

/-- One element store (R163, R280). -/
def vecWrite (va n v : Nat) : M Unit := do
  checkAddress .store va n
  let (pa, dev) ← translateH .store va
  if ctlBase ≤ pa then raise 7 (BitVec.ofNat 64 va)
  if dev then
    deviceWrite va pa n v
    noteAccess true va n
  else idemStore va pa (toBytes n v)

/-- A store of one nibble of a byte (R165, R280). -/
def nibbleWrite (va : Nat) (hi : Bool) (v : Nat) : M Unit := do
  checkAddress .store va 1
  let (pa, dev) ← translateH .store va
  if ctlBase ≤ pa then raise 7 (BitVec.ofNat 64 va)
  if dev then
    -- the strip is committed before the other nibble is read
    endRewind
    let old := homeRead (← get) pa 1
    deviceWrite va pa 1 (if hi then old % 16 + 16 * (v % 16) else old / 16 * 16 + v % 16)
  else holdOrPerform va [heldNibble false pa hi v]
  noteAccess true va 1

/-- An offset operand as a 64-bit addend, read under its own tag (R160). -/
def offsetOf (h : Strand) (vs2 : BitVec 5) (e : Nat) : Word :=
  BitVec.ofInt 64 (decodeInt (h.tag vs2) (h.elem vs2 (h.tag vs2).width e))

/-- How the address of element e is formed (R160). -/
inductive Addressing where
  | unit
  | stride (rs2 : BitVec 5)
  | index (vs2 : BitVec 5)
  deriving DecidableEq, Repr

/-- The address of element e of w bits (R160). -/
def Addressing.addr (a : Addressing) (h : Strand) (rs1 : BitVec 5) (w e : Nat) : Nat :=
  match a with
  | .unit => (h.rx rs1 + BitVec.ofNat 64 (if w = 4 then e / 2 else e * (w / 8))).toNat
  | .stride rs2 => (h.rx rs1 + BitVec.ofNat 64 e * h.rx rs2).toNat
  | .index vs2 => (h.rx rs1 + offsetOf h vs2 e).toNat

/-- The vector registers that an address form reads. -/
def Addressing.regs : Addressing → List (BitVec 5)
  | .index vs2 => [vs2]
  | _ => []

/-- The type checks of a vector access: a tag other than NONE, I4 for unit addressing only, an integer offset tag (R157). -/
def accessTypes (a : Addressing) (r : BitVec 5) : M ETag := do
  let h ← getH
  let t := h.tag r
  need (t != .none && (t != .i4 || a == .unit) && a.regs.all fun x => (h.tag x).isInt) typeFault
  return t

/-- A vector load (R164). -/
def vecLoad (km : BitVec 3) (a : Addressing) (rs1 vd : BitVec 5) : M Unit := do
  vecGate
  let t ← accessTypes a vd
  let h ← getH
  needCap (t :: a.regs.map h.tag)
  need (!a.regs.contains vd) shapeFault
  needChains (a.regs.map fun r => .vreg r.toNat) [.vreg vd.toNat]
  elementLoop h.vl false (pure ()) (h.active km) (fun e => h.badOf (h.srcReads a.regs km e)) fun e => do
    let va := a.addr h rs1 t.width e
    let v ← if t = .i4 then do
        let b ← vecRead va 1
        pure (if e % 2 = 0 then b % 16 else b / 16)
      else vecRead va (t.width / 8)
    modH fun k => k.deliver vd t.width e (v, 0#6)

/-- A store of I4 elements: whole bytes, and one nibble for the last byte of an odd vl (R165). Where the upper element of a byte
stands in an uncorrectable word, the lower one is stored alone, and the upper one consumes the error (R276, R282). -/
def storePair (h : Strand) (vs3 : BitVec 5) (bad : Nat → Option Word) (lo va e : Nat) : M Unit := do
  let v (e : Nat) : Nat := h.elem vs3 4 e
  if e % 2 = 1 then (if e = lo then nibbleWrite va true (v e) else pure ())
  else if e + 1 < h.vl ∧ (bad (e + 1)).isNone = true then vecWrite va 1 (v e + 16 * v (e + 1))
  else nibbleWrite va false (v e)

/-- A vector store (R164, R165). -/
def vecStore (km : BitVec 3) (a : Addressing) (rs1 vs3 : BitVec 5) : M Unit := do
  vecGate
  let t ← accessTypes a vs3
  let h ← getH
  need (t != .i4 || km == 0#3) typeFault
  needCap (t :: a.regs.map h.tag)
  needChains (.vreg vs3.toNat :: a.regs.map fun r => .vreg r.toNat) []
  let bad (e : Nat) : Option Word := h.badOf (h.srcReads (vs3 :: a.regs) km e)
  elementLoop h.vl false (pure ()) (h.active km) bad fun e => do
    let va := a.addr h rs1 t.width e
    if t = .i4 then storePair h vs3 bad h.vsta va e
    else vecWrite va (t.width / 8) (h.elem vs3 t.width e)

/-- VLD (R164). -/
def execVld (km : BitVec 3) (rs1 vd : BitVec 5) (s : State) : Host.Outcome State Fault Refusal :=
  runInstr (.vld km rs1 vd) (vecLoad km .unit rs1 vd) s

/-- VST (R164, R165). -/
def execVst (km : BitVec 3) (rs1 vs3 : BitVec 5) (s : State) : Host.Outcome State Fault Refusal :=
  runInstr (.vst km rs1 vs3) (vecStore km .unit rs1 vs3) s

/-- VLDS (R164). -/
def execVlds (km : BitVec 3) (rs2 rs1 vd : BitVec 5) (s : State) : Host.Outcome State Fault Refusal :=
  runInstr (.vlds km rs2 rs1 vd) (vecLoad km (.stride rs2) rs1 vd) s

/-- VSTS (R164). -/
def execVsts (km : BitVec 3) (rs2 rs1 vs3 : BitVec 5) (s : State) : Host.Outcome State Fault Refusal :=
  runInstr (.vsts km rs2 rs1 vs3) (vecStore km (.stride rs2) rs1 vs3) s

/-- VLDX (R164). -/
def execVldx (km : BitVec 3) (vs2 rs1 vd : BitVec 5) (s : State) : Host.Outcome State Fault Refusal :=
  runInstr (.vldx km vs2 rs1 vd) (vecLoad km (.index vs2) rs1 vd) s

/-- VSTX (R164). -/
def execVstx (km : BitVec 3) (vs2 rs1 vs3 : BitVec 5) (s : State) : Host.Outcome State Fault Refusal :=
  runInstr (.vstx km vs2 rs1 vs3) (vecStore km (.index vs2) rs1 vs3) s

/-! ### Gather-linked and scatter-conditional (R166, R167) -/

/-- Clear the strand's vector link set. -/
def dropVectorLinks (s : State) : State :=
  { s with links := s.links.filter fun l => !(l.sid == s.hart.sid && l.vector) }

/-- Link the line of a loaded element, unless the set is full (R166). -/
def linkLine (pa : Nat) : M Unit := do
  let s ← get
  let line := pa / 64 * 64
  if holdsLink s line s.hart.sid true then pure ()
  else if (s.links.filter fun l => l.sid == s.hart.sid && l.vector).length < Config.gatherLinks then
    newLink line s.hart.sid true

/-- VGL (R166): loads as vldx does, of a location that the strip store buffer holds the held bytes (log 18); device-class memory raises an
access fault. -/
def execVgl (km : BitVec 3) (vs2 rs1 vd : BitVec 5) (s : State) : Host.Outcome State Fault Refusal :=
  runInstr (.vgl km vs2 rs1 vd) (do
    vecGate
    let t ← accessTypes (.index vs2) vd
    let h ← getH
    needCap [t, h.tag vs2]
    need (vs2 != vd) shapeFault
    needChains [.vreg vs2.toNat] [.vreg vd.toNat]
    modify dropVectorLinks
    elementLoop h.vl false (pure ()) (h.active km) (fun e => h.badOf (h.srcReads [vs2] km e)) fun e => do
      let va := Addressing.addr (.index vs2) h rs1 t.width e
      let n := t.width / 8
      checkAddress .load va n
      let pa ← translateIdem .load va
      let bs ← ownBytes pa n va
      dropDcache pa n
      noteAccess false va n
      linkLine pa
      modH fun k => k.deliver vd t.width e (ofBytes bs, 0#6)) s

/-- One element of vsc: stored where the strand holds the line's link; elements of one line act as one (R167), so the
strand's own store leaves its link for the later elements, until the whole set goes. -/
def storeIfLinked (km : BitVec 3) (va n v e : Nat) : M Unit := do
  checkAddress .store va n
  let pa ← translateIdem .store va
  endRewind
  let s ← get
  let line := pa / 64 * 64
  -- the token of a lost home is an uncorrectable error (R319, R363, R366)
  if lost s pa then throw (.ue (BitVec.ofNat 64 va) none)
  if holdsLink s line s.hart.sid true then
    set (setLink line s.hart.sid true (homeWrite s.hart.agent pa (toBytes n v) s))
    noteAccess true va n
    modH fun k => k.storeKbit km e true
  else modH fun k => k.storeKbit km e false

/-- VSC (R167): km other than k0. -/
def execVsc (km : BitVec 3) (vs2 rs1 vs3 : BitVec 5) (s : State) : Host.Outcome State Fault Refusal :=
  runInstr (.vsc km vs2 rs1 vs3) (do
    vecGate
    need (km != 0#3) illegal
    let t ← accessTypes (.index vs2) vs3
    let h ← getH
    needCap [t, h.tag vs2]
    needChains [.vreg vs3.toNat, .vreg vs2.toNat] []
    elementLoop h.vl false (pure ()) (h.active km) (fun e => h.badOf (h.srcReads [vs3, vs2] km e)) fun e =>
      storeIfLinked km (Addressing.addr (.index vs2) h rs1 t.width e) (t.width / 8) (h.elem vs3 t.width e) e
    modify dropVectorLinks) s

/-! ### Lane slices (R168) -/

/-- The offset of element e, checked: in range, and aligned; stval holds the offset (R168). DESIGN CHOICE (log 15): one that is both
out of range and misaligned raises the access fault. -/
def sliceOffset (store : Bool) (h : Strand) (rs1 vs2 : BitVec 5) (n e : Nat) : M Nat := do
  let o := h.rx rs1 + offsetOf h vs2 e
  if o.toInt < 0 ∨ 49152 < o.toInt + n then raise (if store then 7 else 5) o
  if o.toNat % n ≠ 0 then raise (if store then 6 else 4) o
  return o.toNat

/-- The checks of vlsl and vssl; the strand is a lane-slice strand from here on (R56, R168). -/
def sliceStart (vs2 r : BitVec 5) : M ETag := do
  vecGate
  let t ← accessTypes (.index vs2) r
  let h ← getH
  needCap [t, h.tag vs2]
  return t

/-- Read bytes of a lane slice under the strip store buffer; a poisoned word is consumed (R57, R280). -/
def sliceRead (lane off n : Nat) : M Nat := do
  let h ← getH
  let k := sliceKey lane off
  let buf := h.strip.buffer
  if (rangeFrom k n).any fun a => !coveredByte buf true a && h.badSlice.any fun w => decide (w ≤ a) && decide (a < w + 4) then
    throw (.ue (ueWord 6 0 off) none)
  return ofBytes ((rangeFrom k n).map fun a => overlayByte buf true a (Memory.get h.slices a))

/-- VLSL (R168). -/
def execVlsl (km : BitVec 3) (vs2 rs1 vd : BitVec 5) (s : State) : Host.Outcome State Fault Refusal :=
  runInstr (.vlsl km vs2 rs1 vd) (do
    let t ← sliceStart vs2 vd
    need (vs2 != vd) shapeFault
    needChains [.vreg vs2.toNat] [.vreg vd.toNat, .slices]
    modH fun k => { k with sliced := true }
    let h ← getH
    elementLoop h.vl false (pure ()) (h.active km) (fun e => h.badOf (h.srcReads [vs2] km e)) fun e => do
      let o ← sliceOffset false h rs1 vs2 (t.width / 8) e
      let v ← sliceRead (e % h.lown) o (t.width / 8)
      modH fun k => k.deliver vd t.width e (v, 0#6)) s

/-- VSSL (R168): held and committed with the strip (R280). -/
def execVssl (km : BitVec 3) (vs2 rs1 vs3 : BitVec 5) (s : State) : Host.Outcome State Fault Refusal :=
  runInstr (.vssl km vs2 rs1 vs3) (do
    let t ← sliceStart vs2 vs3
    needChains [.vreg vs2.toNat, .vreg vs3.toNat] [.slices]
    modH fun k => { k with sliced := true }
    let h ← getH
    elementLoop h.vl false (pure ()) (h.active km) (fun e => h.badOf (h.srcReads [vs3, vs2] km e)) fun e => do
      let o ← sliceOffset true h rs1 vs2 (t.width / 8) e
      holdOrPerform 0 (heldOf true (sliceKey (e % h.lown) o) (toBytes (t.width / 8) (h.elem vs3 t.width e)))) s

/-! ### Vector atomics (R169, R170) -/

/-- The types that a vector atomic accepts (R157). -/
def VAmo.accepts : VAmo → ETag → Bool
  | .add, t => t == .i32 || t == .n32 || t == .i64 || t == .n64 || t == .fp32 || t == .fp64
  | .min, t | .max, t => t == .i32 || t == .n32 || t == .i64 || t == .n64 || t == .fp32
  | _, t => t != .none && (t.width == 32 || t.width == 64)

/-- One token applied at its home: the old value, and the classes that the new one raised (R169, R316); one that writes
nothing is no write of the location (R360). -/
def sendToken (va n : Nat) (new : Nat → Option Nat × Cls) : M (Nat × Cls) := do
  checkAddress .store va n
  let pa ← translateIdem .store va
  endRewind
  let old := ofBytes (← ownBytes pa n va)
  let r := new old
  modify fun s => match r.1 with
    | some v => homeWrite s.hart.agent pa (toBytes n v) s
    | none => s
  dropDcache pa n
  noteAccess false va n
  noteAccess true va n
  return (old, r.2)

/-- What the response of element e delivers to vd where the old value is wanted, and the classes that it brings (R169). -/
def amoDeliver (old : Bool) (vd : BitVec 5) (e : Nat) (r : Nat × Cls) (k : Strand) : Strand :=
  if old then k.deliver vd (k.tag vd).width e r else k.flag e r.2

/-- Deliver the responses that are due to a waiting vector atomic, in element order; its wait is over (R170). -/
def amoSettled (old : Bool) (vd : BitVec 5) (h : Strand) : Strand :=
  match h.wait with
  | some w => (w.due.foldl (fun k d => amoDeliver old vd d.1 d.2 k) { h with wait := none })
  | none => h

/-- A loop of tokens that stops at an element: the responses of the elements below it are waited for first (R170, R276). -/
def amoStops (old : Bool) (vd : BitVec 5) (act : M α) : M α := fun s =>
  match act s with
  | .error x s' => .error x { s' with hart := amoSettled old vd s'.hart }
  | .ok a s' => .ok a s'

/-- The end of a vector atomic once every response is there: a loop up to hi of vl elements. -/
def amoDone (old : Bool) (vd : BitVec 5) : M Unit := do
  let hi ← getWait 0 (·.token)
  modH (amoSettled old vd)
  loopDone hi (← getH).vl

/-- How a vector atomic waits for the responses of its tokens, which may come a few at a time; the token is the end of its
loop. At the expiry vsta is the lowest element without a response and stval holds how many from there on were issued (R170,
R231). -/
def amoOps (old : Bool) (vd : BitVec 5) : WaitOps where
  attempt := do
    let due ← getWait [] (·.due)
    match (← takeAnswer) with
    | none => do
      amoDone old vd
      return true
    | some n =>
      modH fun k => (due.take n).foldl (fun k d => amoDeliver old vd d.1 d.2 k) k
      modWait fun w => { w with due := due.drop n }
      if due.length ≤ n then do
        amoDone old vd
        return true
      else return false
  withdraw := do
    let due ← getWait [] (·.due)
    modH fun k => { k with vsta := (due.head?.map (·.1)).getD k.vsta }
    raise 27 (BitVec.ofNat 64 due.length)
  expired := pure ()
  deadline := return (← getH).wdef

/-- The loop of a vector atomic: the token of each active element in order (R169). Responses come at once, or some of them
late: then every token is issued, and the instruction waits (R170). -/
def tokenLoop (i : Instr) (km : BitVec 3) (old : Bool) (vd : BitVec 5) (bad : Nat → Option Word)
    (send : Nat → M (Nat × Cls)) : M Unit := do
  let h ← getH
  match (← takeAnswer) with
  | none => elementLoop h.vl false (pure ()) (h.active km) bad fun e => do
      let r ← send e
      modH (amoDeliver old vd e r)
  | some n => do
      let (x, c) ← expiryOf h.wdef
      modH fun k => { k with wait := some ⟨i, x, c, 0#64, [], 0, []⟩ }
      let hi ← amoStops old vd (loopElements h.vl false (pure ()) (h.active km) bad fun e => do
        let r ← send e
        modWait fun w => { w with due := w.due ++ [(e, r)] })
      modWait fun w => { w with token := hi }
      let due ← getWait [] (·.due)
      modH fun k => (due.take n).foldl (fun k d => amoDeliver old vd d.1 d.2 k) k
      modWait fun w => { w with due := due.drop n }
      if due.length ≤ n then amoDone old vd
      else if x ≤ (← get).now then waitEnds (amoOps old vd) c
      else throw .hold

/-- A vector atomic: a token for each active element in order (R169, R170). -/
def vecAmo (i : Instr) (op : VAmo) (km : BitVec 3) (old : Bool) (vs2 rs1 vd : BitVec 5) : M Unit := do
  vecGate
  let h ← getH
  let t := h.tag vd
  need (op.accepts t && (h.tag vs2).isInt) typeFault
  needCap [t, h.tag vs2]
  need (!old || vs2 != vd) shapeFault
  needChains [.vreg vd.toNat, .vreg vs2.toNat] (if old then [.vreg vd.toNat] else [])
  tokenLoop i km old vd (fun e => h.badOf (h.srcReads [vd, vs2] km e)) fun e =>
    sendToken (Addressing.addr (.index vs2) h rs1 t.width e) (t.width / 8) fun m =>
      let r := tokenNew op t h.mode_ m (h.elem vd t.width e)
      (some r.1, r.2)

/-- VAMOADD (R169). -/
def execVamoadd (km : BitVec 3) (old : Bool) (vs2 rs1 vd : BitVec 5) (s : State) : Host.Outcome State Fault Refusal :=
  runInstr (.vamoadd km old vs2 rs1 vd) (vecAmo (.vamoadd km old vs2 rs1 vd) .add km old vs2 rs1 vd) s

/-- VAMOMIN (R169). -/
def execVamomin (km : BitVec 3) (old : Bool) (vs2 rs1 vd : BitVec 5) (s : State) : Host.Outcome State Fault Refusal :=
  runInstr (.vamomin km old vs2 rs1 vd) (vecAmo (.vamomin km old vs2 rs1 vd) .min km old vs2 rs1 vd) s

/-- VAMOMAX (R169). -/
def execVamomax (km : BitVec 3) (old : Bool) (vs2 rs1 vd : BitVec 5) (s : State) : Host.Outcome State Fault Refusal :=
  runInstr (.vamomax km old vs2 rs1 vd) (vecAmo (.vamomax km old vs2 rs1 vd) .max km old vs2 rs1 vd) s

/-- VAMOAND (R169). -/
def execVamoand (km : BitVec 3) (old : Bool) (vs2 rs1 vd : BitVec 5) (s : State) : Host.Outcome State Fault Refusal :=
  runInstr (.vamoand km old vs2 rs1 vd) (vecAmo (.vamoand km old vs2 rs1 vd) .and km old vs2 rs1 vd) s

/-- VAMOOR (R169). -/
def execVamoor (km : BitVec 3) (old : Bool) (vs2 rs1 vd : BitVec 5) (s : State) : Host.Outcome State Fault Refusal :=
  runInstr (.vamoor km old vs2 rs1 vd) (vecAmo (.vamoor km old vs2 rs1 vd) .or km old vs2 rs1 vd) s

/-- VAMOXOR (R169). -/
def execVamoxor (km : BitVec 3) (old : Bool) (vs2 rs1 vd : BitVec 5) (s : State) : Host.Outcome State Fault Refusal :=
  runInstr (.vamoxor km old vs2 rs1 vd) (vecAmo (.vamoxor km old vs2 rs1 vd) .xor km old vs2 rs1 vd) s

/-- VAMOSWP (R169). -/
def execVamoswp (km : BitVec 3) (old : Bool) (vs2 rs1 vd : BitVec 5) (s : State) : Host.Outcome State Fault Refusal :=
  runInstr (.vamoswp km old vs2 rs1 vd) (vecAmo (.vamoswp km old vs2 rs1 vd) .swp km old vs2 rs1 vd) s

/-- VAMOCAS (R169): v(d+1) supplies the new value where the memory value equals vd's. -/
def execVamocas (km : BitVec 3) (vs2 rs1 vd : BitVec 5) (s : State) : Host.Outcome State Fault Refusal :=
  runInstr (.vamocas km vs2 rs1 vd) (do
    vecGate
    let h ← getH
    let t := h.tag vd
    let vn := nextReg vd
    need (VAmo.accepts .swp t && h.tag vn == t && (h.tag vs2).isInt) typeFault
    needCap [t, h.tag vs2]
    need (vs2 != vd && vs2 != vn) shapeFault
    needChains [.vreg vd.toNat, .vreg vn.toNat, .vreg vs2.toNat] [.vreg vd.toNat]
    tokenLoop (.vamocas km vs2 rs1 vd) km true vd (fun e => h.badOf (h.srcReads [vd, vn, vs2] km e)) fun e =>
      sendToken (Addressing.addr (.index vs2) h rs1 t.width e) (t.width / 8) fun m =>
        (if m = h.elem vd t.width e then some (h.elem vn t.width e) else none, 0#6)) s

end Sys2Proof.Machine
end

