-- ==== Sys2Proof/Machine/Matrix.lean ====
section
/-!
DEFINITION. Tile and matrix instructions (09_matrix.md, R187 to R201): tile loads and stores, rows between tiles and vector
registers, element operations, exact products, checksums.
-/
namespace Sys2Proof.Machine

/-- Whether a tile has a granted shape. -/
def TShape.granted (t : TShape) : Bool := t.rows != 0

/-- A tile without a granted shape raises a shape fault (R123). -/
def needTiles (ms : List (BitVec 3)) : M Unit := do
  let h ← getH
  if ms.any fun m => !(h.shape m).granted then shapeFault

/-- Consume an uncorrectable word of a tile read whole (R190), the first in row order. DESIGN CHOICE (log 16): where an instruction has
several uncorrectable source words the spec does not say which is the one consumed; the model takes the destination tile where it is
a source, then ma, then mb, each in row order, and mmasp's v before its positions are checked. -/
def needTileWords (m : BitVec 3) : M Unit := do
  let h ← getH
  atElem 0 (consume (h.badOf ((rangeFrom 0 ((h.shape m).rows * (h.shape m).cols)).map (h.tileRead m))))

/-- The value of element (i, j) of a tile under its own type. -/
def Strand.tileAt (h : Strand) (m : BitVec 3) (i j : Nat) : Nat := h.tileElem m (h.shape m).ty.width i j

/-- Write every element of a tile's granted shape, recording classes by row (R188). -/
def fillTile (mc : BitVec 3) (f : Strand → Nat → Nat → Nat × Cls) : M Unit := modH fun h =>
  let sh := h.shape mc
  { (rangeFrom 0 (sh.rows * sh.cols)).foldl (fun k e =>
      let r := f h (e / sh.cols) (e % sh.cols)
      (k.storeTile mc sh.ty.width (e / sh.cols) (e % sh.cols) r.1).flag (e / sh.cols) r.2) h
    with vsta := 0 }

/-! ### Tile loads and stores (R192) -/

/-- The address of element e of a tile transfer (R192). -/
def tileAddr (h : Strand) (rs1 rs2 : BitVec 5) (w n e : Nat) : Nat :=
  (h.rx rs1 + BitVec.ofNat 64 (e / n) * h.rx rs2 + BitVec.ofNat 64 (e % n * w / 8)).toNat

/-- TLD (R192). -/
def execTld (md : BitVec 3) (rs2 rs1 : BitVec 5) (s : State) : Host.Outcome State Fault Refusal :=
  runInstr (.tld md rs2 rs1) (do
    vecGate
    needTiles [md]
    needChains [] [.tile md.toNat]
    let h ← getH
    let sh := h.shape md
    let w := sh.ty.width
    elementLoop (sh.rows * sh.cols) false (pure ()) (fun _ => true) (fun _ => none) fun e => do
      let va := tileAddr h rs1 rs2 w sh.cols e
      let n := if w = 4 then 1 else w / 8
      let b ← bypassLoad va n
      let v := if w = 4 then (if e % sh.cols % 2 = 0 then b % 16 else b / 16) else b
      modH fun k => k.storeTile md w (e / sh.cols) (e % sh.cols) v) s

/-- TST (R192). -/
def execTst (md : BitVec 3) (rs2 rs1 : BitVec 5) (s : State) : Host.Outcome State Fault Refusal :=
  runInstr (.tst md rs2 rs1) (do
    vecGate
    needTiles [md]
    needChains [.tile md.toNat] []
    let h ← getH
    let sh := h.shape md
    let w := sh.ty.width
    elementLoop (sh.rows * sh.cols) false (pure ()) (fun _ => true) (fun e => h.badOf [h.tileRead md e]) fun e => do
      let va := tileAddr h rs1 rs2 w sh.cols e
      let n := if w = 4 then 1 else w / 8
      let v := h.tileAt md (e / sh.cols) (e % sh.cols)
      checkAddress .store va n
      let pa ← translateIdem .store va
      if w = 4 then
        holdOrPerform va [heldNibble false pa (e % sh.cols % 2 == 1) v]
        noteAccess true va 1
      else idemStore va pa (toBytes n v)) s

/-! ### Rows (R193) -/

/-- TTOV (R193): the fixed class, the tile's type. DESIGN CHOICE (log 16): it reads md in full, as R189 says of every source, so
an uncorrectable word of any row is consumed; vtot reads only the elements of v that it copies. -/
def execTtov (md : BitVec 3) (v rs1 : BitVec 5) (s : State) : Host.Outcome State Fault Refusal :=
  runInstr (.ttov md v rs1) (do
    vecGate
    needTiles [md]
    let h ← getH
    let sh := h.shape md
    let r := (h.rx rs1).toNat
    needCap [sh.ty]
    need (decide (r < sh.rows) && decide (sh.cols ≤ h.cap sh.ty)) shapeFault
    needChains [.tile md.toNat] [.vreg v.toNat]
    needTileWords md
    needUpset
    modH fun h => { (rangeFrom 0 sh.cols).foldl (fun k j => k.deliver v sh.ty.width j (h.tileAt md r j, 0#6)) (h.putTag v sh.ty)
      with vsta := 0 }) s

/-- VTOT (R193). -/
def execVtot (md : BitVec 3) (v rs1 : BitVec 5) (s : State) : Host.Outcome State Fault Refusal :=
  runInstr (.vtot md v rs1) (do
    vecGate
    let h ← getH
    let sh := h.shape md
    need (h.tag v != .none && (!sh.granted || h.tag v == sh.ty)) typeFault
    needTiles [md]
    let r := (h.rx rs1).toNat
    needCap [sh.ty]
    need (decide (r < sh.rows) && decide (sh.cols ≤ h.cap sh.ty)) shapeFault
    needChains [.vreg v.toNat] [.tile md.toNat]
    atElem 0 (consume (h.badOf ((rangeFrom 0 sh.cols).map (h.regRead v))))
    needUpset
    modH fun h => { (rangeFrom 0 sh.cols).foldl (fun k j =>
        k.storeTile md sh.ty.width r j (h.elem v sh.ty.width j)) h
      with vsta := 0 }) s

/-! ### Element operations (R194, R195) -/

/-- TZERO (R194). -/
def execTzero (mc : BitVec 3) (s : State) : Host.Outcome State Fault Refusal :=
  runInstr (.tzero mc) (do
    vecGate
    needTiles [mc]
    needChains [] [.tile mc.toNat]
    needUpset
    fillTile mc fun _ _ _ => (0, 0#6)) s

/-- The kind that types share: all float, all signed or all unsigned (R195, R196). -/
inductive Kind where
  | float | signed | unsigned
  deriving DecidableEq, Repr

/-- The kind of a type. -/
def kindOf (t : ETag) : Kind := if t.isFloat then .float else if t.isSigned then .signed else .unsigned

/-- The types of the granted tiles among some (R187). -/
def grantedTypes (h : Strand) (ms : List (BitVec 3)) : List ETag :=
  ((ms.map h.shape).filter TShape.granted).map (·.ty)

/-- Whether all types are of one kind. -/
def oneKind : List ETag → Bool
  | [] => true
  | t :: ts => ts.all fun u => kindOf u == kindOf t

/-- The shape checks, chains and uncorrectable words of an element operation (R187, R195). -/
def tileMapChecks (mc : BitVec 3) (srcs : List (BitVec 3)) : M Unit := do
  needTiles (mc :: srcs)
  let h ← getH
  need (srcs.all fun m => (h.shape m).rows == (h.shape mc).rows && (h.shape m).cols == (h.shape mc).cols) shapeFault
  needChains (srcs.map fun m => .tile m.toNat) [.tile mc.toNat]
  forEach srcs needTileWords
  needUpset

/-- TMV (R195): equal types, encodings unchanged. -/
def execTmv (mc ma : BitVec 3) (s : State) : Host.Outcome State Fault Refusal :=
  runInstr (.tmv mc ma) (do
    vecGate
    let h ← getH
    need (!(h.shape mc).granted || !(h.shape ma).granted || (h.shape mc).ty == (h.shape ma).ty) typeFault
    tileMapChecks mc [ma]
    fillTile mc fun h i j => (h.tileAt ma i j, 0#6)) s

/-- TCVT (R195). -/
def execTcvt (mc ma : BitVec 3) (s : State) : Host.Outcome State Fault Refusal :=
  runInstr (.tcvt mc ma) (do
    vecGate
    tileMapChecks mc [ma]
    fillTile mc fun h i j => convert (h.shape ma).ty (h.shape mc).ty h.mode_ (h.tileAt ma i j)) s

/-- The exact sum of two encodings of two types, rounded once to a third (R195). -/
def addInto (ta tb tc : ETag) (mode : RMode) (a b : Nat) : Nat × Cls :=
  if tc.isFloat then
    let x := decodeFloat ta a
    let y := decodeFloat tb b
    let p := addNum mode x y
    let r := roundNum tc mode p.1
    (r.1, r.2 ||| p.2 ||| sigCls x ||| sigCls y)
  else satEnc tc (decodeInt ta a + decodeInt tb b)

/-- The exact product of two encodings of two types, rounded once to a third (R195). -/
def mulInto (ta tb tc : ETag) (mode : RMode) (a b : Nat) : Nat × Cls :=
  if tc.isFloat then
    let x := decodeFloat ta a
    let y := decodeFloat tb b
    let p := mulNum x y
    let r := roundNum tc mode p.1
    (r.1, r.2 ||| p.2 ||| sigCls x ||| sigCls y)
  else satEnc tc (decodeInt ta a * decodeInt tb b)

/-- TADD (R195). -/
def execTadd (mc ma mb : BitVec 3) (s : State) : Host.Outcome State Fault Refusal :=
  runInstr (.tadd mc ma mb) (do
    vecGate
    need (oneKind (grantedTypes (← getH) [mc, ma, mb])) typeFault
    tileMapChecks mc [ma, mb]
    fillTile mc fun h i j =>
      addInto (h.shape ma).ty (h.shape mb).ty (h.shape mc).ty h.mode_ (h.tileAt ma i j) (h.tileAt mb i j)) s

/-- TSCALE (R195). -/
def execTscale (mc ma : BitVec 3) (rs : BitVec 5) (s : State) : Host.Outcome State Fault Refusal :=
  runInstr (.tscale mc ma rs) (do
    vecGate
    need (oneKind (grantedTypes (← getH) [mc, ma])) typeFault
    tileMapChecks mc [ma]
    fillTile mc fun h i j =>
      let t := (h.shape ma).ty
      mulInto t t (h.shape mc).ty h.mode_ (h.tileAt ma i j) (broadcastX t (h.rx rs))) s

/-! ### Products (R196 to R200) -/

/-- Types that a product accepts as ma or mb (R196). -/
def factorType (t : ETag) : Bool :=
  t == .fp32 || t == .bf16 || t == .fp16 || t == .e4m3 || t == .e5m2 || t == .i4 || t == .i8 || t == .i16 || t == .n8 || t == .n16

/-- Types that a product accepts as mc (R196). -/
def productType (t : ETag) : Bool :=
  t == .fp32 || t == .bf16 || t == .fp16 || t == .e4m3 || t == .e5m2 || t == .i16 || t == .i32 || t == .i64 ||
    t == .n16 || t == .n32 || t == .n64

/-- The type check of a product over its granted tiles (R187, R196). -/
def needProductTypes (mc ma mb : BitVec 3) : M Unit := do
  let h ← getH
  need ((grantedTypes h [ma, mb]).all factorType && (grantedTypes h [mc]).all productType && oneKind (grantedTypes h [mc, ma, mb]))
    typeFault

/-- A seed and exact products, read out once (R41, R42, R198); a signalling NaN, the seed among them, raises invalid (R34, R42). -/
def dotInto (ta tb tc : ETag) (mode : RMode) (c : Nat) (ps : List (Nat × Nat)) : Nat × Cls :=
  if tc.isFloat then
    let seed := decodeFloat tc c
    let r := ps.foldl (fun (a : Acc × Cls) p =>
      let x := addProduct a.1 ta tb p.1 p.2
      (x.1, a.2 ||| x.2)) (Acc.load seed, sigCls seed)
    let o := r.1.read tc mode
    (o.1, r.2 ||| o.2)
  else satEnc tc (ps.foldl (fun n p => n + decodeInt ta p.1 * decodeInt tb p.2) (decodeInt tc c))

/-- The shape agreements of mma (R197). -/
def mmaShapes (h : Strand) (mc ma mb : BitVec 3) : Bool :=
  (h.shape ma).rows == (h.shape mc).rows && (h.shape mb).cols == (h.shape mc).cols && (h.shape ma).cols == (h.shape mb).rows

/-- The factor pairs of element (i, j) of a dense product. -/
def densePairs (h : Strand) (ma mb : BitVec 3) (i j : Nat) : List (Nat × Nat) :=
  (rangeFrom 0 (h.shape ma).cols).map fun k => (h.tileAt ma i k, h.tileAt mb k j)

/-- The product of R198 written to mc. -/
def fillProduct (mc ma mb : BitVec 3) (pairs : Strand → Nat → Nat → List (Nat × Nat)) : M Unit :=
  fillTile mc fun h i j =>
    dotInto (h.shape ma).ty (h.shape mb).ty (h.shape mc).ty h.mode_ (h.tileAt mc i j) (pairs h i j)

/-- MMA (R196 to R198). -/
def execMma (mc ma mb : BitVec 3) (s : State) : Host.Outcome State Fault Refusal :=
  runInstr (.mma mc ma mb) (do
    vecGate
    needProductTypes mc ma mb
    needTiles [mc, ma, mb]
    need (mmaShapes (← getH) mc ma mb) shapeFault
    needChains [.tile mc.toNat, .tile ma.toNat, .tile mb.toNat] [.tile mc.toNat]
    forEach [mc, ma, mb] needTileWords
    needUpset
    fillProduct mc ma mb fun h i j => densePairs h ma mb i j) s

/-- Position P(i, p) of a kept value (R199). -/
def keptPos (h : Strand) (v : BitVec 5) (n i p : Nat) : Nat := h.elem v 8 (i * n + p)

/-- Whether a row's positions rise strictly and stay within 127 (R199). -/
def keptRow (h : Strand) (v : BitVec 5) (n i : Nat) : Bool :=
  (rangeFrom 0 n).all fun p =>
    decide (keptPos h v n i p ≤ 127) && (p == 0 || decide (keptPos h v n i (p - 1) < keptPos h v n i p))

/-- MMASP (R199). -/
def execMmasp (mc ma mb : BitVec 3) (v : BitVec 5) (s : State) : Host.Outcome State Fault Refusal :=
  runInstr (.mmasp mc ma mb v) (do
    vecGate
    needProductTypes mc ma mb
    let h ← getH
    need (h.tag v == .n8) typeFault
    needTiles [mc, ma, mb]
    let n := (h.shape ma).cols
    let m := (h.shape mc).rows
    needCap [.n8]
    need ((h.shape mb).rows == 128 && (n == 16 || n == 32 || n == 64) && (h.shape ma).rows == m &&
      (h.shape mb).cols == (h.shape mc).cols && decide (m * n ≤ h.cap .n8)) shapeFault
    needChains [.tile mc.toNat, .tile ma.toNat, .tile mb.toNat, .vreg v.toNat] [.tile mc.toNat]
    atElem 0 (consume (h.badOf ((rangeFrom 0 (m * n)).map (h.regRead v))))
    need ((rangeFrom 0 m).all (keptRow h v n)) shapeFault
    forEach [mc, ma, mb] needTileWords
    needUpset
    fillProduct mc ma mb fun h i j =>
      (rangeFrom 0 n).map fun p => (h.tileAt ma i p, h.tileAt mb (keptPos h v n i p) j)) s

/-- A checksum: old elements and products summed exactly from −0, read out once (R200). -/
def checksum (ta tb tc td : ETag) (mode : RMode) (olds : List Nat) (ps : List (Nat × Nat)) : Nat × Cls :=
  if tc.isFloat then
    let r := olds.foldl (fun (a : Acc × Cls) c =>
      let x := a.1.add1 (decodeFloat tc c)
      (x.1, a.2 ||| x.2)) (Acc.clear, 0#6)
    let r := ps.foldl (fun (a : Acc × Cls) p =>
      let x := addProduct a.1 ta tb p.1 p.2
      (x.1, a.2 ||| x.2)) r
    let o := r.1.read td mode
    (o.1, r.2 ||| o.2)
  else satEnc td (ps.foldl (fun n p => n + decodeInt ta p.1 * decodeInt tb p.2)
    (olds.foldl (fun n c => n + decodeInt tc c) 0))

/-- The kinds of a checksum destination (R200, R201): float for a float tile, an integer type but I4 otherwise. -/
def checksumType (t td : ETag) : Bool := if t.isFloat then td.isFloat else td.isInt && td != .i4

/-- MMACK (R200): mma with predicted row and column sums in vd. -/
def execMmack (mc ma mb : BitVec 3) (v : BitVec 5) (s : State) : Host.Outcome State Fault Refusal :=
  runInstr (.mmack mc ma mb v) (do
    vecGate
    needProductTypes mc ma mb
    let td ← destType v
    let h ← getH
    need ((grantedTypes h [mc, ma, mb]).all fun t => checksumType t td) typeFault
    needTiles [mc, ma, mb]
    let m := (h.shape mc).rows
    let n := (h.shape mc).cols
    needCap [td]
    need (mmaShapes h mc ma mb && decide (m + n ≤ h.cap td)) shapeFault
    needChains [.tile mc.toNat, .tile ma.toNat, .tile mb.toNat] [.tile mc.toNat, .vreg v.toNat]
    forEach [mc, ma, mb] needTileWords
    needUpset
    let ck (olds : List Nat) (ps : List (Nat × Nat)) : Nat :=
      (checksum (h.shape ma).ty (h.shape mb).ty (h.shape mc).ty td h.mode_ olds ps).1
    fillProduct mc ma mb fun h i j => densePairs h ma mb i j
    modH fun k => (rangeFrom 0 (m + n)).foldl (fun k e =>
      k.deliver v td.width e (if e < m
        then ck ((rangeFrom 0 n).map fun j => h.tileAt mc e j) ((rangeFrom 0 n).flatMap fun j => densePairs h ma mb e j)
        else ck ((rangeFrom 0 m).map fun i => h.tileAt mc i (e - m)) ((rangeFrom 0 m).flatMap fun i => densePairs h ma mb i (e - m)), 0#6)) k) s

/-- TSUM (R201): actual row and column sums. -/
def execTsum (ma : BitVec 3) (v : BitVec 5) (s : State) : Host.Outcome State Fault Refusal :=
  runInstr (.tsum ma v) (do
    vecGate
    let td ← destType v
    let h ← getH
    need ((grantedTypes h [ma]).all fun t => t != .fp64 && checksumType t td) typeFault
    needTiles [ma]
    let sh := h.shape ma
    needCap [td]
    need (decide (sh.rows + sh.cols ≤ h.cap td)) shapeFault
    needChains [.tile ma.toNat] [.vreg v.toNat]
    needTileWords ma
    needUpset
    let sum (cs : List Nat) : Nat × Cls := checksum sh.ty sh.ty sh.ty td h.mode_ cs []
    modH fun k => { (rangeFrom 0 (sh.rows + sh.cols)).foldl (fun k e =>
        k.deliver v td.width e (if e < sh.rows then sum ((rangeFrom 0 sh.cols).map fun j => h.tileAt ma e j)
          else sum ((rangeFrom 0 sh.rows).map fun i => h.tileAt ma i (e - sh.rows)))) k
      with vsta := 0 }) s

end Sys2Proof.Machine
end

