-- ==== Sys2Proof/Machine/ChainRun.lean ====
section
/-!
DEFINITION. Running chains: what a stage takes from its sources and puts to its destination (R205, R209, R214, R215, R220),
its units and their ends (R217), links (R220, R326), cuts (R222, R223) and temporal execution (R224).
-/
namespace Sys2Proof.Machine

/-! ### Parts of a chain -/

/-- A stage that names nothing. -/
def StageEnt.none : StageEnt := ⟨0#32, 0, 0, 0, 0, 0, 0, 0⟩

/-- A stage's progress at chcfg. -/
def StageSt.start : StageSt := ⟨0, 0, 0, 0, false, false, false, 0, [], .none, .none, []⟩

/-- A port's progress at chcfg. -/
def PortSt.start : PortSt := ⟨0, 0, [], []⟩

/-- A link at chcfg with its granted slots. -/
def LinkSt.start (granted : Nat) (port : Bool) : LinkSt := ⟨0, granted, port, .none, [], [], [], false, [], 0⟩

/-- A handle of a strand. -/
def Strand.chain (h : Strand) (ci : Nat) : Chain := h.c.get ⟨ci % 4, Nat.mod_lt _ (by decide)⟩

/-- Replace a handle of a strand. -/
def Strand.putChain (h : Strand) (ci : Nat) (c : Chain) : Strand := { h with c := h.c.set (ci % 4) c (Nat.mod_lt _ (by decide)) }

/-- Change a handle of the running strand. -/
def modChain (ci : Nat) (f : Chain → Chain) (s : State) : State :=
  { s with hart := s.hart.putChain ci (f (s.hart.chain ci)) }

/-- A stage entry. -/
def Chain.ent (c : Chain) (i : Nat) : StageEnt := nth c.rcd.stages i .none
/-- A stage's progress. -/
def Chain.st (c : Chain) (i : Nat) : StageSt := nth c.stages i .start
/-- A port entry. -/
def Chain.portEnt (c : Chain) (p : Nat) : PortEnt := nth c.rcd.ports p ⟨0, 0, 0, 0, []⟩
/-- A port's progress. -/
def Chain.portSt (c : Chain) (p : Nat) : PortSt := nth c.ports p .start
/-- A link's state. -/
def Chain.link (c : Chain) (l : Nat) : LinkSt := nth c.links l (.start 0 false)

/-- Change a stage's progress. -/
def Chain.modStage (c : Chain) (i : Nat) (f : StageSt → StageSt) : Chain := { c with stages := c.stages.set i (f (c.st i)) }
/-- Change a port's progress. -/
def Chain.modPort (c : Chain) (p : Nat) (f : PortSt → PortSt) : Chain := { c with ports := c.ports.set p (f (c.portSt p)) }
/-- Change a link's state. -/
def Chain.modLink (c : Chain) (l : Nat) (f : LinkSt → LinkSt) : Chain := { c with links := c.links.set l (f (c.link l)) }

/-- A port's element count C (R214). -/
def PortEnt.count (p : PortEnt) : Nat := p.dim.foldl (fun n d => n * d.1) 1

/-- The elements of a port's innermost dimension. -/
def PortEnt.run (p : PortEnt) : Nat := (nth p.dim 0 (0, 0)).1

/-- The type of the elements that source k of stage i gives, as chcfg fixed it (R210). -/
def Chain.srcTy (c : Chain) (i k : Nat) : ETag := nth (c.st i).srcTys k .none

/-- The chain's rounding mode. -/
def Chain.mode (c : Chain) : RMode := RMode.ofCode c.rm

/-! ### A unit in progress -/

/-- Why a unit is not performed. -/
inductive UStop where
  /-- A source or the destination does not allow it yet. -/
  | wait
  /-- The stage is ended (R217). -/
  | ended
  /-- A port (port true) or gather stage faults: index, element, cause, address (R222). -/
  | fault (port : Bool) (idx elem cause addr : Nat)
  /-- A tag mismatch on a queue or link (R220). -/
  | tag (idx : Nat)
  /-- An uncorrectable error with its stval (R222, R283); n is the number of bytes that a read of memory was to give, 0 for
  storage of the strand. -/
  | ue (tval : Word) (n : Nat)
  deriving DecidableEq, Repr

/-- A unit in progress; what it did is discarded when it stops. -/
abbrev U := EStateM UStop State

/-- The chain in hand. -/
def getChain (ci : Nat) : U Chain := do return (← get).hart.chain ci

/-- A port access of n bytes that failed (R214, R222). -/
def portFail (p elem cause va n : Nat) : U α :=
  if cause = 28 then throw (.ue (BitVec.ofNat 64 va) n) else throw (.fault true p elem cause va)

/-- Consume an uncorrectable word of the strand's storage. -/
def goodWords (rs : List SrcRead) : U Unit := do
  match (← get).hart.badOf rs with
  | some w => throw (.ue w 0)
  | none => pure ()

/-- The strand's chain ports as an agent. -/
def Strand.portAgent (h : Strand) : Agent := .port h.sid (coreBits h.place)

/-- The address of element p of a port that is not CE8, and the half of the byte for I4 (R214). -/
def portAddr (e : PortEnt) (p : Nat) : Nat × Nat :=
  let a := stridedAddr e.base p e.dim
  if e.format = 15 then ((a + p % e.run / 2) % 2 ^ 64, p % e.run % 2) else (a, 0)

/-- Bytes of one access of a port. -/
def PortEnt.bytes (e : PortEnt) : Nat := if e.format = 15 then 1 else e.ty.width / 8

/-- An element of a CE8 block in hand: its code, the block's scale and length in words, and whether it was malformed. -/
def ce8Entry (scale words : Nat) (bad : Bool) (code : Nat) : Nat := code + 2 ^ 8 * scale + 2 ^ 16 * words + 2 ^ 24 * bad.toNat

/-- The length in words of the block that an entry belongs to. -/
def ce8Words (e : Nat) : Nat := e / 2 ^ 16 % 2 ^ 8

/-- The value of an input port's next element, its mark and classes; the cursor moves on (R214, R215). A watchpoint compares a
CE8 block with its first element (R287). -/
def portTake (ci p : Nat) : U (Nat × Bool × Cls) := do
  let s ← get
  let c ← getChain ci
  let e := c.portEnt p
  let st := c.portSt p
  let n := st.cursor
  let mark := (e.mode == 0 || e.mode == 3) && (n + 1) % e.run == 0
  if e.format = 0x10 then do
    let va := (e.base + 4 * st.word) % 2 ^ 64
    let (pend, ahead) ← if st.pend ≠ [] then pure (st.pend, st.ahead)
      else do
        let b ← match st.ahead with
          | b :: _ => pure b
          | [] => match readBlock s s.hart.realm c.user va with
            | .ok b => pure b
            | .error (k, a) => portFail p n k a 4
        let (sc, qs, bad, words) := ce8Decode b
        pure ((qs.map (ce8Entry sc words bad)).drop (n % 32), st.ahead.drop 1)
    let q := nth pend 0 0
    let r := dequant .fp32 c.mode (q / 2 ^ 8 % 2 ^ 8) (q % 2 ^ 8)
    modify (modChain ci fun c => c.modPort p fun t =>
      { t with cursor := n + 1, word := if n % 32 = 31 then st.word + ce8Words q else st.word, pend := pend.drop 1, ahead := ahead })
    if n % 32 = 0 then modify (noteAsync s.hart.sid s.hart.portAgent false va (4 * ce8Words q))
    return (r.1, mark, r.2 ||| Cls.invalid.on (q.testBit 24))
  else do
    let (va, half) := portAddr e n
    let v ← match st.ahead with
      | v :: _ => pure v
      | [] => match agentRead s s.hart.realm c.user va e.bytes with
        | .ok v => pure v
        | .error k => portFail p n k va e.bytes
    modify (modChain ci fun c => c.modPort p fun t => { t with cursor := n + 1, ahead := t.ahead.drop 1 })
    modify (noteAsync s.hart.sid s.hart.portAgent false va e.bytes)
    return (if e.format = 15 then v / 16 ^ half % 16 else v, mark, 0#6)

/-- Write the next element of an output or ordered-update port (R214). It answers the classes of an addition or a quantisation,
each with how many elements before the one in hand its element is (R209). -/
def portPut (ci p v : Nat) : U (List (Nat × Cls)) := do
  let s ← get
  let c ← getChain ci
  let e := c.portEnt p
  let st := c.portSt p
  let n := st.cursor
  let a := s.hart.portAgent
  let next (s : State) (f : PortSt → PortSt) : State :=
    modChain ci (fun c => c.modPort p fun t => f { t with cursor := n + 1 }) s
  if e.format = 0x10 then do
    let pend := st.pend ++ [v]
    if pend.length < 32 then
      set (next s fun t => { t with pend := pend })
      return []
    else do
      let xs := pend.map (decodeFloat .fp32)
      let q := quantGroup c.mode xs
      let cls := (xs.zip q.2).map fun (x : Num × Nat × Cls) => x.2.2 ||| sigCls x.1 ||| (match x.1 with
        | .inf _ => Cls.invalid
        | _ => 0#6)
      let b := ce8Encode q.1 (q.2.map (·.1))
      let va := (e.base + 4 * st.word) % 2 ^ 64
      match writeBlock s a s.hart.realm c.user va b.1 b.2 with
      | .error (k, x) => portFail p n k x 4
      | .ok s =>
        set (noteAsync s.hart.sid a true va (4 * b.2) (next s fun t => { t with pend := [], word := st.word + b.2 }))
        return (rangeFrom 0 32).map fun i => (31 - i, nth cls i 0#6)
  else do
    let (va, half) := portAddr e n
    let done (s : State) (cl : Cls) : U (List (Nat × Cls)) := do
      set (next (if e.mode = 2 then noteAtomic s.hart.sid a va e.bytes s else noteAsync s.hart.sid a true va e.bytes s) id)
      return [(0, cl)]
    if e.mode = 2 then
      match agentToken s a s.hart.realm c.user .add e.ty c.mode va v with
      | .error k => portFail p n k va e.bytes
      | .ok (s, cl) => done s cl
    else if e.format = 15 then
      match agentAddr s s.hart.realm c.user .store va 1 with
      | .error k => portFail p n k va 1
      | .ok pa => done ((runsOf ((heldNibble false pa (half == 1) v).bytesOver (Memory.get s.mem))).foldl
          (fun s r => homeWrite a r.1 r.2 s) s) 0#6
    else match agentWrite s a s.hart.realm c.user va e.bytes v with
      | .error k => portFail p n k va e.bytes
      | .ok s => done s 0#6

/-! ### Sources and destinations -/

/-- Whether a source or destination allows a number of elements now, later, or never again. -/
inductive Avail where
  | ok | wait | ended
  deriving DecidableEq, Repr

/-- Elements received on a link. -/
def LinkSt.received (l : LinkSt) : Nat := l.rx.foldl (fun n s => n + s.elems.length) 0

/-- The chain at the far end of a link: while the strand is claimed, the one that stands in its claim image. -/
def Strand.far (h : Strand) (p : Nat) : Chain := if p < h.kept.length then nth h.kept p .free else h.chain p

/-- Change the chain at the far end of a link. -/
def Strand.modFar (h : Strand) (p : Nat) (f : Chain → Chain) : Strand :=
  if p < h.kept.length then { h with kept := h.kept.set p (f (nth h.kept p .free)) } else h.putChain p (f (h.chain p))

/-- What is left of a port for n elements: it is ended after its last element (R214). -/
def portAvail (c : Chain) (p n : Nat) : Avail :=
  if (c.portSt p).cursor + n ≤ (c.portEnt p).count then .ok
  else if (c.portEnt p).count ≤ (c.portSt p).cursor then .ended
  else .wait

/-- What a source holds for n elements (R217): a queue is ended once it is empty and its producer in the record is ended, a port after its
last element. One that holds some of a row's elements is not ended: its stage waits. -/
def srcAvail (h : Strand) (c : Chain) (sel n : Nat) : Avail :=
  match selKind sel with
  | 1 =>
    let held := (h.queue (selIdx sel)).elems.length
    if n ≤ held then .ok
    else if held = 0 ∧ ((rangeFrom 0 c.stages.length).any fun j => (c.ent j).selD == sel && (c.st j).ended) = true then .ended
    else .wait
  | 2 => if (c.portEnt (selIdx sel)).mode = 1 then .ok else portAvail c (selIdx sel) n
  | 3 => if n ≤ (c.link (selIdx sel)).received then .ok else .wait
  | _ => .ok

/-- Whether a link's source elements were consumed: the oldest one. -/
def takeSlot : List Slot → Option ((ETag × Word × Bool) × List Slot)
  | [] => none
  | s :: ss =>
    match s.elems with
    | [] => takeSlot ss
    | e :: es => some ((s.tag, e.1, e.2), if es = [] then ss else { s with elems := es } :: ss)

/-- Put an element into a receive buffer: a slot holds 128 bytes of one tag (R53, R220). -/
def slotPut : List Slot → ETag × Word × Bool → List Slot
  | [], x => [⟨x.1, [x.2]⟩]
  | [s], x => if s.tag = x.1 ∧ s.elems.length < 1024 / x.1.width then [{ s with elems := s.elems ++ [x.2] }] else [s, ⟨x.1, [x.2]⟩]
  | s :: ss, x => s :: slotPut ss x

/-- The place of an element of a lane slice (R205). -/
def slicePlace (h : Strand) (sel w n : Nat) : Nat :=
  sliceKey (n % h.lown) (512 * selIdx sel + (n / h.lown * (w / 8)) % 512)

/-- The k-th consumed count of a stage. -/
def StageSt.taken (t : StageSt) : Nat → Nat
  | 0 => t.consA
  | 1 => t.consB
  | _ => t.consC

/-- Count an element consumed from source k. -/
def StageSt.count (t : StageSt) : Nat → StageSt
  | 0 => { t with consA := t.consA + 1 }
  | 1 => { t with consB := t.consB + 1 }
  | _ => { t with consC := t.consC + 1 }

/-- Consume one element of source k of stage i: its encoding, mark, and classes of its decoding (R205). Where vlc exceeds the
capacity of a kind-0 register, elemOff's choice stands (log 21). -/
def takeSrc (ci i k sel : Nat) : U (Nat × Bool × Cls) := do
  let s ← get
  let h := s.hart
  let c ← getChain ci
  let n := (c.st i).taken k
  let t := c.srcTy i k
  let idx := selIdx sel
  modify (modChain ci fun c => c.modStage i fun x => x.count k)
  match selKind sel with
  | 0 =>
    goodWords [⟨1, idx, n % c.vlc, h.elemWords t.width (n % c.vlc)⟩]
    return (h.elem (BitVec.ofNat 5 idx) t.width (n % c.vlc), false, 0#6)
  | 1 =>
    let q := h.queue idx
    if q.tag ≠ t then throw (.tag idx)
    match h.badQueue idx 1 with
    | some w => throw (.ue w 0)
    | none => pure ()
    modify fun s => { s with hart := s.hart.popQueue idx 1 }
    let e := nth q.elems 0 (0#64, false)
    return (e.1.toNat, e.2, 0#6)
  | 2 => portTake ci idx
  | 3 =>
    match takeSlot (c.link idx).rx with
    | none => throw .wait
    | some (e, rx) =>
      if e.1 ≠ t then throw (.tag idx)
      modify (modChain ci fun c => c.modLink idx fun l => { l with rx := rx })
      return (e.2.1.toNat, e.2.2, 0#6)
  | 5 =>
    let v := (nth c.consts idx 0#64).toNat
    return (if t = .none then v else v % 2 ^ t.width, false, 0#6)
  | 6 =>
    let a := slicePlace h sel t.width n
    if h.badSlice.any fun w => overlaps w 4 a (t.width / 8) then throw (.ue (ueWord 6 0 (a % 49152)) 0)
    return (ofBytes (Memory.getBytes h.slices a (t.width / 8)), false, 0#6)
  | _ => return (0, false, 0#6)

/-- Slots that a sender's peer would hold with elements still on their way and n more of a type (R220). -/
def slotsAfter (rx : List Slot) (wire : List (ETag × Word × Bool)) (t : ETag) (n : Nat) : Nat :=
  ((rangeFrom 0 n).foldl (fun r _ => slotPut r (t, 0#64, false)) (wire.foldl slotPut rx)).length

/-- What a destination allows for n elements of a type (R217, R220). -/
def dstAvail (s : State) (c : Chain) (sel : Nat) (t : ETag) (n : Nat) : Avail :=
  match selKind sel with
  | 1 =>
    let q := s.hart.queue (selIdx sel)
    if q.elems ≠ [] ∧ q.tag ≠ t then .ok
    else if q.elems.length + n ≤ queueCap t then .ok else .wait
  | 2 => portAvail c (selIdx sel) n
  | 3 =>
    let l := c.link (selIdx sel)
    match l.peer with
    | none => .wait
    | some (sid, p, k) =>
      match findStrand s sid with
      | none => .wait
      | some h =>
        let far := (h.far p).link k
        if slotsAfter far.rx (far.late ++ l.wire) t n ≤ far.granted then .ok else .wait
  | _ => .ok

/-- Put one element of the stage's result type to its destination (R205, R215); the classes that this raises, by element. -/
def putDst (ci i : Nat) (v : Nat) (mark : Bool) : U (List (Nat × Cls)) := do
  let h := (← get).hart
  let c ← getChain ci
  let t := (c.st i).resTy
  let n := (c.st i).produced
  let sel := (c.ent i).selD
  let idx := selIdx sel
  modify (modChain ci fun c => c.modStage i fun x => { x with produced := n + 1, inRun := x.inRun + 1 })
  match selKind sel with
  | 0 =>
    let r := BitVec.ofNat 5 idx
    modify fun s => { s with hart := s.hart.storeElem r t.width (n % c.vlc) v }
    return []
  | 1 =>
    if (h.queue idx).elems ≠ [] ∧ (h.queue idx).tag ≠ t then throw (.tag idx)
    modify fun s => { s with hart := s.hart.putQueue idx ((s.hart.queue idx).push t [(BitVec.ofNat 64 v, mark)]) }
    return []
  | 2 => return (← portPut ci idx v).map fun x => (n - x.1, x.2)
  | 3 =>
    modify (modChain ci fun c => c.modLink idx fun l =>
      { l with sent := l.sent + 1, wire := l.wire ++ [(t, BitVec.ofNat 64 v, mark)] })
    return []
  | 6 =>
    modify fun s => { s with hart := s.hart.putSlice (slicePlace h sel t.width n) (toBytes (t.width / 8) v) }
    return []
  | _ => return []

/-! ### Units (R208, R209, R215) -/

/-- Record the classes of element n of a stage (R209). -/
def flagChain (ci i n : Nat) (cls : Cls) : U Unit := modify (modChain ci fun c => c.flag i n cls)

/-- Record classes by element of a stage. -/
def flagEach (ci i : Nat) (cs : List (Nat × Cls)) : U Unit := modify fun s => cs.foldl (fun s x => modChain ci (fun c => c.flag i x.1 x.2) s) s

/-- Stop unless the sources hold what a unit consumes and the destination has room: an end comes before a wait (R217). -/
def allow (as : List Avail) : U Unit := do
  if as.contains .ended then throw .ended
  if as.contains .wait then throw .wait

/-- The result of an element stage on its consumed values (R134 to R150). -/
def stageValue (c : Chain) (i : Nat) (op : StageOp) (imm : Option (BitVec 6)) (a b x : Nat) : Nat × Cls :=
  let t := (c.st i).opTy
  let wide (k v : Nat) : Nat := widen (c.srcTy i k) t v
  let second : Nat := match imm with
    | some m => broadcastImm t m
    | none => wide 1 b
  match op with
  | .bin o _ | .logic o => elemBin o t c.mode (wide 0 a) second
  | .shift o =>
    let n : Int := match imm with
      | some m => m.toNat
      | none => if isConst (c.ent i).selB then b else decodeInt (c.srcTy i 1) b
    (elemShift o t a n, 0#6)
  | .fma p q => elemFma p q t c.mode (wide 0 a) second (wide 2 x)
  | .un o => elemUn o t c.mode a
  | .classify => (2 ^ classBit t a, 0#6)
  | .cvt => elemCvt t (c.st i).resTy c.mode a
  | _ => (0, 0#6)

/-- Consume one element of each source that a stage has. -/
def takeEach (ci i : Nat) : List (Nat × Nat) → U (List Nat × Bool × Cls)
  | [] => pure ([], false, 0#6)
  | (k, sel) :: rest => do
    let x ← takeSrc ci i k sel
    let xs ← takeEach ci i rest
    return (x.1 :: xs.1, x.2.1 || xs.2.1, x.2.2 ||| xs.2.2)

/-- An element stage's unit. -/
def unitElement (ci i : Nat) (op : StageOp) (imm : Option (BitVec 6)) : U Unit := do
  let s ← get
  let c ← getChain ci
  let e := c.ent i
  let srcs := [(0, e.selA), (1, e.selB), (2, e.selC)].filter fun x => selKind x.2 != 7
  allow (dstAvail s c e.selD (c.st i).resTy 1 :: srcs.map fun x => srcAvail s.hart c x.2 1)
  let xs ← takeEach ci i srcs
  let at_ (k : Nat) : Nat := nth ((srcs.zip xs.1).filterMap fun p => if p.1.1 = k then some p.2 else none) 0 0
  let r := stageValue c i op imm (at_ 0) (at_ 1) (at_ 2)
  flagChain ci i (c.st i).produced (r.2 ||| xs.2.2)
  flagEach ci i (← putDst ci i r.1 xs.2.1)

/-- A gather stage's unit (R209): the cursor of its random port counts the elements gathered (R223, R225). DESIGN CHOICE (log 21): an
offset that is both out of range and misaligned takes cause 5, the condition that R209 names first. -/
def unitGather (ci i : Nat) : U Unit := do
  let s ← get
  let c ← getChain ci
  let e := c.ent i
  let n := (c.st i).produced
  allow [srcAvail s.hart c e.selB 1, dstAvail s c e.selD (c.st i).resTy 1]
  let x ← takeSrc ci i 1 e.selB
  let p := c.portEnt (selIdx e.selA)
  let w := p.ty.width / 8
  let o := decodeInt (c.srcTy i 1) x.1
  let va := ((p.base : Int) + o) % 2 ^ 64
  let va := va.toNat
  if o < 0 ∨ ((p.run * w : Nat) : Int) < o + w then throw (.fault false i n 5 va)
  if o % w ≠ 0 then throw (.fault false i n 4 va)
  match agentRead (← get) s.hart.realm c.user va w with
  | .error k => if k = 28 then throw (.ue (BitVec.ofNat 64 va) w) else throw (.fault false i n k va)
  | .ok v =>
    modify (modChain ci fun c => (c.modStage i fun t => { t with consA := t.consA + 1 }).modPort (selIdx e.selA) fun t =>
      { t with cursor := t.cursor + 1 })
    modify (noteAsync s.hart.sid s.hart.portAgent false va w)
    flagChain ci i n x.2.2
    flagEach ci i (← putDst ci i v x.2.1)

/-- The head of a source without consuming it (R214, R215). -/
def headOf (ci i k sel : Nat) : U (Nat × Bool × Cls) := do
  let s ← get
  let x ← takeSrc ci i k sel
  set s
  return x

/-- Set the end flags of a merge stage. -/
def setEnds (ci i : Nat) (a b : Bool) : U Unit :=
  modify (modChain ci fun c => c.modStage i fun t => { t with endA := a, endB := b })

/-- A merge stage's unit (R215): an ended stream serves as an empty run. -/
def unitMerge (ci i : Nat) : U Unit := do
  let s ← get
  let c ← getChain ci
  let e := c.ent i
  let t := (c.st i).opTy
  allow [dstAvail s c e.selD (c.st i).resTy 1]
  let a := srcAvail s.hart c e.selA 1
  let b := srcAvail s.hart c e.selB 1
  let endA := (c.st i).endA || a == .ended
  let endB := (c.st i).endB || b == .ended
  if a = .ended ∧ b = .ended then throw .ended
  let (endA, endB) := if endA && endB then (a == .ended, b == .ended) else (endA, endB)
  if !endA then allow [a]
  if !endB then allow [b]
  let fromB ← if !endA && !endB then do
      let x ← headOf ci i 0 e.selA
      let y ← headOf ci i 1 e.selB
      pure (encLess t y.1 x.1)
    else pure endA
  let x ← takeSrc ci i (if fromB then 1 else 0) (if fromB then e.selB else e.selA)
  let s' ← get
  let done := x.2.1 || srcAvail s'.hart (s'.hart.chain ci) (if fromB then e.selB else e.selA) 1 == .ended
  let endA := endA || (!fromB && done)
  let endB := endB || (fromB && done)
  setEnds ci i endA endB
  flagChain ci i (c.st i).produced x.2.2
  flagEach ci i (← putDst ci i x.1 (endA && endB))

/-- A reduction stage's unit: ExactAdd into the accumulator that flags.ea names (R178, R209). -/
def unitReduce (ci i : Nat) (dot : Bool) : U Unit := do
  let s ← get
  let c ← getChain ci
  let e := c.ent i
  let ea := BitVec.ofNat 3 (e.flags / 256)
  let srcs := if dot then [(0, e.selA), (1, e.selB)] else [(0, e.selA)]
  allow (srcs.map fun x => srcAvail s.hart c x.2 1)
  goodWords [accRead ea]
  let n := (c.st i).consA
  let xs ← takeEach ci i srcs
  let v (k : Nat) : Nat := nth xs.1 k 0
  let old := (← get).hart.ea.get ea.toFin
  let r := if dot then addProduct old (c.srcTy i 0) (c.srcTy i 1) (v 0) (v 1) else old.add1 (valueOf (c.srcTy i 0) (v 0))
  modify fun s => { s with hart := s.hart.putAcc ea r.1 }
  modify (modChain ci fun c => c.modStage i fun x => { x with inRun := x.inRun + 1 })
  flagChain ci i n (r.2 ||| xs.2.2)

/-- Put a row to the destination; its last element carries the mark (R215). -/
def putRow (ci i : Nat) (mark : Bool) : List (Nat × Cls) → U Unit
  | [] => pure ()
  | r :: rs => do
    let n := ((← getChain ci).st i).produced
    flagChain ci i n r.2
    flagEach ci i (← putDst ci i r.1 (mark && rs.isEmpty))
    putRow ci i mark rs

/-- A matrix stage's unit: one row (R198, R209). -/
def unitMatrix (ci i : Nat) : U Unit := do
  let s ← get
  let c ← getChain ci
  let e := c.ent i
  let m := BitVec.ofNat 3 e.selB
  let sh := s.hart.shape m
  let t := (c.st i).resTy
  let hasC := selKind e.selC != 7
  allow ([srcAvail s.hart c e.selA sh.rows, dstAvail s c e.selD t sh.cols] ++
    (if hasC then [srcAvail s.hart c e.selC sh.cols] else []))
  goodWords ((rangeFrom 0 (sh.rows * sh.cols)).map (s.hart.tileRead m))
  let a ← takeEach ci i (List.replicate sh.rows (0, e.selA))
  let seed ← if hasC then takeEach ci i (List.replicate sh.cols (2, e.selC)) else pure ([], false, 0#6)
  let ta := c.srcTy i 0
  let seed0 := if t.isFloat then 2 ^ (t.width - 1) else 0
  let row := (rangeFrom 0 sh.cols).map fun j =>
    dotInto ta sh.ty t c.mode (if hasC then nth seed.1 j 0 else seed0)
      ((rangeFrom 0 sh.rows).map fun k => (nth a.1 k 0, s.hart.tileAt m k j))
  flagChain ci i (c.st i).produced (a.2.2 ||| seed.2.2)
  putRow ci i a.2.1 row

/-- One unit of stage i of a chain. -/
def unit (ci i : Nat) : U Unit := do
  let c ← getChain ci
  match stageOp (c.ent i).inst with
  | none => throw .wait
  | some (op, imm) =>
    match op with
    | .gather => unitGather ci i
    | .merge => unitMerge ci i
    | .red => unitReduce ci i false
    | .dot => unitReduce ci i true
    | .mat => unitMatrix ci i
    | _ => unitElement ci i op imm

/-! ### Runs (R217) -/

/-- Whether a stage is a sink. -/
def ChainRec.isSink (r : ChainRec) (e : StageEnt) : Bool :=
  match selQueue e.selD with
  | some q => !r.queueReads.contains q
  | none => true

/-- The sinks of a chain by stage number. -/
def Chain.sinks (c : Chain) : List Nat := (rangeFrom 0 c.stages.length).filter fun i => c.rcd.isSink (c.ent i)

/-- The least number of elements that a sink has performed in the run. -/
def Chain.least (c : Chain) : Nat :=
  match c.sinks.map fun i => (c.st i).inRun with
  | [] => 0
  | n :: ns => ns.foldl Nat.min n

/-- The status words of R219. -/
def chainWord (code count cause : Nat) : Word := BitVec.ofNat 64 (code + 256 * (count % 2 ^ 49) + 2 ^ 57 * cause)

/-- Whether a chain performs units: RUNNING and not cut with AUTO. -/
def Chain.runs (c : Chain) : Bool := c.state == .running && c.cause != 7

/-- Whether every sink of a running chain has met the quota or is ended (R217). -/
def Chain.complete (c : Chain) : Bool :=
  c.runs && c.sinks.all fun i => decide (c.quota ≤ (c.st i).inRun) || (c.st i).ended

/-- What stands among a link's markers once its peer chain has been freed (R218, R222). -/
def freedMark : Nat := 8

/-- Whether the chain at the far end of a link has been freed in this run. -/
def LinkSt.gone (l : LinkSt) : Bool := l.marks.contains freedMark

/-- The chain after its run, READY with its status; read-ahead is withdrawn (R216, R261). -/
def Chain.completed (c : Chain) : Chain :=
  Chain.withoutAhead
    { c with
      state := .ready, last := some (chainWord 0 c.least 0)
      links := c.links.map fun x => { x with marks := x.marks.filter (· != freedMark) } }

/-- The run completes when every sink has met the quota or is ended (R216, R217, R224). -/
def settle (ci : Nat) (s : State) : State := modChain ci (fun c => if c.complete then c.completed else c) s

/-- Whether stage i may begin a unit as far as its end and the run's quota go (R217, R224). -/
def Chain.mayBegin (c : Chain) (i : Nat) : Bool :=
  !(c.st i).ended && (!c.rcd.isSink (c.ent i) || decide ((c.st i).inRun < c.quota))

/-! ### Element groups (R58, R213, R223, R224) -/

/-- Whether stage i stands at the end of an element group of its output, of what it consumes for a reduction stage, or of a row
for a matrix stage. -/
def Chain.atGroupEnd (c : Chain) (i : Nat) : Bool :=
  (c.ent i).isMatrix || (if (c.ent i).isReduction then (c.st i).consA else (c.st i).produced) % 32 == 0

/-- The rest of an element group whose first units are performed: it ends early where a source, the destination or the quota
allows no more, or where the next element's tag cuts the chain before it (R220, R224). A unit that fails leaves nothing of the
group. -/
def restOfGroup (ci i : Nat) : Nat → State → Except UStop State
  | 0, s => .ok s
  | n + 1, s =>
    if (s.hart.chain ci).atGroupEnd i || !(s.hart.chain ci).mayBegin i then .ok s
    else match unit ci i s with
      | .ok _ s' => restOfGroup ci i n s'
      | .error (.fault p k e c a) _ => .error (.fault p k e c a)
      | .error (.ue t b) _ => .error (.ue t b)
      | .error _ _ => .ok s

/-- The units of stage i up to the end of the element group in hand, as far as its sources, its destination and the quota allow:
they are performed together or not at all (R58, R223, R224). -/
def elementGroup (ci i : Nat) (s : State) : Except UStop State :=
  match unit ci i s with
  | .ok _ s' => restOfGroup ci i 31 s'
  | .error u _ => .error u

/-! ### Cuts (R222, R223) -/

/-- The chain at the far end of link l of the running strand's chain ci, changed. -/
def modPeer (ci l : Nat) (f : Chain → LinkSt → LinkSt) (s : State) : State :=
  match ((s.hart.chain ci).link l).peer with
  | none => s
  | some (sid, p, j) => modStrand sid (fun h => h.modFar p fun c => c.modLink j (f c)) s

/-- The chain at the far end of a link. -/
def peerChain (s : State) (ci l : Nat) : Option Chain :=
  match ((s.hart.chain ci).link l).peer with
  | none => none
  | some (sid, p, _) => (findStrand s sid).map fun h => h.far p

/-- Whether the chain at the far end of a link stands in a claim image or a saved context. -/
def peerAway (s : State) (ci l : Nat) : Bool :=
  match ((s.hart.chain ci).link l).peer with
  | none => false
  | some (sid, p, _) => (findStrand s sid).any fun h => decide (p < h.kept.length) || h.status != .running

/-- Elements that the peer sent on link l arrive: each goes into the receive buffer. -/
def arriveAll (ci l : Nat) (s : State) : State :=
  match ((s.hart.chain ci).link l).peer with
  | none => s
  | some (sid, p, k) =>
    match findStrand s sid with
    | none => s
    | some h =>
      let w := ((h.far p).link k).wire
      modChain ci (fun c => c.modLink l fun x => { x with rx := w.foldl slotPut x.rx })
        (modStrand sid (fun h => h.modFar p fun c => c.modLink k fun x => { x with wire := [] }) s)

/-- Elements sent on link l arrive at the peer: in its receive buffer, or beside it while that stands in an image in memory. -/
def deliverAll (ci l : Nat) (s : State) : State :=
  let w := ((s.hart.chain ci).link l).wire
  let f (x : LinkSt) : LinkSt := if peerAway s ci l then { x with late := x.late ++ w } else { x with rx := w.foldl slotPut x.rx }
  modChain ci (fun c => c.modLink l fun x => { x with wire := [] }) (modPeer ci l (fun _ x => f x) s)

/-- What has arrived beside a chain's receive buffers joins them. -/
def Chain.absorbLate (c : Chain) : Chain :=
  { c with links := c.links.map fun x => { x with rx := x.late.foldl slotPut x.rx, late := [] } }

/-- Elements on their way to the peer arrive, and the marker follows them; a segment that does not run takes no notice of a
marker. After an AUTO marker the peer's own is awaited, unless this one answers it (R223). -/
def sendMarker (ci cause : Nat) (answers : Option Nat) (s : State) (l : Nat) : State :=
  let runs := (peerChain s ci l).any fun c => c.state == .running
  let s := modPeer ci l (fun c x => { x with marks := if c.state = .running then x.marks ++ [cause] else x.marks }) (deliverAll ci l s)
  modChain ci (fun c => c.modLink l fun x => { x with await := cause == 7 && runs && answers != some l }) s

/-- A chain cut with a cause: AUTO leaves it RUNNING until it re-forms; read-ahead is withdrawn (R222, R223). -/
def Chain.cutState (c : Chain) (own : Nat) : Chain :=
  let links := if own = 7 then c.links else c.links.map fun x => { x with marks := [], await := false }
  Chain.withoutAhead { c with state := if own = 7 then .running else .broken, cause := own, links := links }

/-- A cut of a running chain. Its stages stand at the ends of what they performed, an element group being performed in one step;
read-ahead is withdrawn and markers leave on every link. own is the cause that the handle shows, sent the one that the markers
carry, answers the link whose marker this cut answers. -/
def cutChain (ci own sent : Nat) (answers : Option Nat) (s : State) : State :=
  if !(s.hart.chain ci).runs then s
  else
    let s := (rangeFrom 0 (s.hart.chain ci).links.length).foldl (sendMarker ci sent answers) s
    modChain ci (fun c => c.cutState own) s

/-- Hold a cut's trap pending (R222, R275). DESIGN CHOICE (log 21): where a trap of an earlier cut of the handle is still pending,
the newer one replaces it; the spec does not say which of the two is taken. -/
def pendCut (ci cause : Nat) (tval : Word) (s : State) : State :=
  { s with hart := { s.hart with cuts := s.hart.cuts.set (ci % 4) (some (cause, tval)) (Nat.mod_lt _ (by decide)) } }

/-- A cut that traps to the strand. -/
def cutTrap (ci own trap : Nat) (tval : Word) (s : State) : State :=
  if (s.hart.chain ci).runs then
    pendCut ci trap tval (cutChain ci own own none s)
  else s

/-- The cut that a stopped unit makes (R222): FAULT, QUEUE or UE. -/
def cutBy (ci : Nat) (u : UStop) (s : State) : State :=
  match u with
  | .fault port idx elem cause addr =>
    modChain ci (fun c => { c with faultAt := BitVec.ofNat 64 (elem % 2 ^ 48 + 2 ^ 48 * idx + 2 ^ 52 * port.toNat + 2 ^ 53 * cause) })
      (cutTrap ci 2 26 (BitVec.ofNat 64 addr) (dropFaulted s.hart.realm.sites s.hart.asid addr s))
  | .tag idx => cutTrap ci 3 30 (BitVec.ofNat 64 idx) s
  | .ue tval n =>
    let s := if n = 0 then s else agentSuspect s.hart.realm (s.hart.chain ci).user tval.toNat n s
    if replayable s then endForReplay s else cutTrap ci 5 28 tval s
  | _ => s

/-- Whether the nodes of the stacks carry out the stages that they may, under a grant made now: open to the part (R8, R362). -/
def takeNear (r : ChainRec) (s : State) : Bool × State :=
  match s.choices with
  | .held :: cs => if r.stages.any (nearStage r) then (true, { s with choices := cs }) else (false, s)
  | _ => (false, s)

/-- Give a chain its grant afresh (R213). -/
def regrant (ci : Nat) (s : State) : State :=
  let n := takeNear (s.hart.chain ci).rcd s
  let s := n.2
  let g := grantOf s.hart ci (s.hart.chain ci).rcd n.1
  modChain ci (fun c => { c with tgrant := g.1, stages := (c.stages.zip g.2).map fun x => { x.1 with groups := x.2 } }) s

/-- Re-form a chain that was cut with AUTO (R222). -/
def reform (ci : Nat) (s : State) : State :=
  let c := s.hart.chain ci
  if c.state = .running ∧ c.cause = 7 then settle ci (modChain ci (fun c => { c with cause := 0 }) (regrant ci s)) else s

/-- Run an operation with another strand in the running strand's place. -/
def asStrand (sid : Nat) (f : State → State) (s : State) : State :=
  if s.hart.sid = sid then f s
  else match s.parked.find? fun h => h.sid == sid with
    | none => s
    | some h =>
      let me := s.hart
      let t := f { s with hart := h, parked := me :: s.parked.filter fun k => k.sid != sid }
      match t.parked.find? fun k => k.sid == me.sid with
      | none => t
      | some m => { t with hart := m, parked := t.hart :: t.parked.filter fun k => k.sid != me.sid }

/-- Cut every chain of a strand with AUTO and re-form it at once: a spare lane has been swapped in (R62, R222). -/
def cutAndReform (s : State) (sid : Nat) : State :=
  asStrand sid (fun s => (rangeFrom 0 4).foldl (fun s ci => if (s.hart.chain ci).runs then reform ci (cutChain ci 7 7 none s) else s) s) s

/-! ### Links (R220, R326) -/

/-- The strand placed at a place. -/
def strandAt (s : State) (p : Place) : Option Strand :=
  (s.hart :: s.parked).find? fun h => h.status == .running && h.place == p

/-- Whether a link entry of a chain at handle p names handle ci of a strand in slot pstr on the port opposite dir (R220). -/
def entryMatches (e : LinkEnt) (dir ci pstr : Nat) : Bool := e.dir == (dir + 2) % 4 && e.peer == ci && e.pstr == pstr

/-- Whether a link may be bound: it is not, and the chain that it was bound to has not been freed in this run. -/
def LinkSt.unbound (l : LinkSt) : Bool := l.peer.isNone && !l.gone

/-- The link of the named peer chain that matches link l of the running strand's chain ci. -/
def matching (s : State) (ci l : Nat) : Option (Nat × Nat × Nat) :=
  let c := s.hart.chain ci
  match c.rcd.links[l]? with
  | none => none
  | some e =>
    match neighbour s s.hart.place e.dir e.pstr with
    | none => none
    | some p =>
      match strandAt s p with
      | none => none
      | some h =>
        if (h.chain e.peer).configured then
          ((rangeFrom 0 (h.chain e.peer).rcd.links.length).find? fun k =>
            match (h.chain e.peer).rcd.links[k]? with
            | some x => entryMatches x e.dir ci s.hart.place.slot && ((h.chain e.peer).link k).unbound
            | none => false).map fun k => (h.sid, e.peer, k)
        else none

/-- Bind the unbound links of a configured chain to matching ones, both ways (R326). -/
def bindLinks (ci : Nat) (s : State) : State :=
  let me := s.hart.sid
  (rangeFrom 0 (s.hart.chain ci).links.length).foldl (fun s l =>
    if !((s.hart.chain ci).link l).unbound then s
    else match matching s ci l with
      | none => s
      | some (sid, p, k) =>
        modStrand sid (fun h => h.putChain p ((h.chain p).modLink k fun x => { x with peer := some (me, ci, l) }))
          (modChain ci (fun c => c.modLink l fun x => { x with peer := some (sid, p, k) }) s)) s

/-- Cut with LINK the running chains that name chain ci as their peer and that its configured links do not match (R222). -/
def cutMismatched (ci : Nat) (s : State) : State :=
  let me := s.hart
  let dirs := (me.chain ci).rcd.links.map (·.dir)
  (s.hart :: s.parked).foldl (fun s h =>
    (rangeFrom 0 4).foldl (fun s p =>
      (rangeFrom 0 (h.chain p).rcd.links.length).foldl (fun s l =>
        match (h.chain p).rcd.links[l]? with
        | none => s
        | some e =>
          if (h.chain p).runs && ((h.chain p).link l).unbound && e.peer == ci && dirs.contains ((e.dir + 2) % 4)
              && neighbour s h.place e.dir e.pstr == some me.place && !(h.sid == me.sid && p == ci) then
            asStrand h.sid (cutTrap p 4 31 (BitVec.ofNat 64 l)) s
          else s) s) s) s

/-- A cut marker is received on link l: causes 1 to 5 cut with PEER. AUTO is the answer to the segment's own marker where one is
awaited, and else cuts a segment that runs, which re-forms at once; one that does not run sends no answer. The notice that the
peer chain is freed cuts with LINK (R222, R223). -/
def markerIn (ci l cause : Nat) (s : State) : State :=
  let k := s.hart.chain ci
  let told := modChain ci (fun c => c.modLink l fun x => { x with await := false }) s
  if cause = freedMark then cutTrap ci 4 31 (BitVec.ofNat 64 l) told
  else if cause ≠ 7 then cutChain ci 6 cause none told
  else if (k.link l).await then told
  else if k.runs then reform ci (cutChain ci 7 7 (some l) s)
  else modPeer ci l (fun _ x => { x with await := false }) s

/-- Receive the markers that have come in on a link, in order; of the notices that a peer is freed, only where all says so. -/
def markersIn (all : Bool) (ci l : Nat) (s : State) : State :=
  let ms := ((s.hart.chain ci).link l).marks
  let now := if all then ms else ms.takeWhile (· != freedMark)
  now.foldl (fun s m => markerIn ci l m s) (modChain ci (fun c => c.modLink l fun x => { x with marks := ms.drop now.length }) s)

/-- Instructions that the strand at the far end of link l has retired. -/
def peerRetired (ci l : Nat) (s : State) : Nat :=
  match ((s.hart.chain ci).link l).peer with
  | none => 0
  | some (sid, _, _) => ((findStrand s sid).map fun h => h.csr.instret.toNat).getD 0

/-- The peer of link l loses it: what was sent to the peer arrives, and where the peer runs, the notice follows it. -/
def unbindPeer (ci : Nat) (s : State) (l : Nat) : State :=
  let n := peerRetired ci l s
  modPeer ci l (fun c x => { x with
    peer := none, await := false, freedAt := n
    marks := if c.state = .running then x.marks ++ [freedMark] else x.marks }) (deliverAll ci l s)

/-- The peers of a chain's links whose runs go on: strand, handle and link. -/
def runningPeers (ci : Nat) (s : State) : List (Nat × Nat × Nat) :=
  (s.hart.chain ci).links.filterMap fun l => l.peer.bind fun (x : Nat × Nat × Nat) =>
    (findStrand s x.1).bind fun h => if x.2.1 < h.kept.length || !(h.chain x.2.1).runs then none else some x

/-- Whether the notice of a freeing is received at once, where a peer runs: open to the part (R8: the point at which a chain is cut). -/
def takePrompt (ci : Nat) (s : State) : Bool × State :=
  match s.choices with
  | .held :: cs => if (runningPeers ci s).isEmpty then (false, s) else (true, { s with choices := cs })
  | _ => (false, s)

/-- Release a chain (R218): its lane-link ports are free, and every peer that holds a link to it is cut with LINK (R222) when it receives
the notice, after the markers sent before. DEDUCED (log 21): the notice follows what was sent, so that a run which has all it needs
from the freed chain completes, and one that has not times out first, as R349 and R351 have it; it is received where the agenda says or
its strand has gone on for long (Plan.lean), and at once where a choice says so. -/
def dropChain (ci : Nat) (s : State) : State :=
  let me := s.hart.sid
  let n := takePrompt ci s
  let peers := if n.1 then runningPeers ci n.2 else []
  let s := (rangeFrom 0 (s.hart.chain ci).links.length).foldl (unbindPeer ci) n.2
  let s := { modChain ci (fun _ => .free) s with
    cores := s.cores.map fun k => { k with portHolder := k.portHolder.filter fun x => !(x.2.1 == me && x.2.2 == ci) } }
  peers.foldl (fun s x => asStrand x.1 (markersIn true x.2.1 x.2.2) s) s

/-- What has come in on a chain's links: elements and markers. -/
def arrivals (ci : Nat) (s : State) : State :=
  (rangeFrom 0 (s.hart.chain ci).links.length).foldl (fun s l => markersIn false ci l (arriveAll ci l s)) (bindLinks ci s)

/-- Re-form a chain that was cut with AUTO; what has come in meanwhile arrives (R222). -/
def resumeChain (ci : Nat) (s : State) : State := arrivals ci (reform ci s)

/-! ### Passes (R224) -/

/-- What an attempt at an element group gives. -/
inductive Attempt where
  | moved (s : State)
  | stuck
  | cut (s : State)

/-- The lane group that performs the element group or matrix row of stage i in hand, by owned number; none where no lane group does
(R213, R362). -/
def Chain.hostGroup (c : Chain) (h : Strand) (i : Nat) : Option Nat :=
  let st := c.st i
  let j :=
    if (c.ent i).isMatrix then st.produced / (h.shape (BitVec.ofNat 3 (c.ent i).selB)).cols
    else (if (c.ent i).isReduction then st.consA else st.produced) / 32
  if c.tgrant then (if h.lown < 32 then none else some (j % (h.lown / 32)))
  else st.groups[j % st.groups.length]?

/-- The physical faults that an element group of a stage meets before its results are written (R58, R59). -/
def meetUnit (ci i : Nat) (s : State) : Met :=
  match (s.hart.chain ci).hostGroup s.hart i, s.upsets with
  | none, _ => .agreed s
  | _, [] => .agreed s
  | some g, us =>
    let r := splitUpsets s.hart.sid (· == .stage (ci % 4) i) us
    meetAll (physGroup s g) 0 r.1 { s with upsets := r.2 }

/-- Attempt an element group of stage i: performed, its stage found ended, not possible now, or the chain cut. The lanes' results
are compared before anything of the group is written. -/
def attempt (ci i : Nat) (s : State) : Attempt :=
  let c := s.hart.chain ci
  if !c.runs || !c.mayBegin i then .stuck
  else match elementGroup ci i s with
    | .ok _ =>
      (match meetUnit ci i s with
        | .agreed s => (match elementGroup ci i s with
          | .ok s' => .moved (settle ci s')
          | .error _ => .cut s)
        | .error s => .cut (cutBy ci (.ue (ueWord 7 0 0) 0) s)
        | .lost s => .cut s)
    | .error .wait => .stuck
    | .error .ended => .moved (settle ci (modChain ci (fun c => c.modStage i fun t => { t with ended := true }) s))
    | .error u => .cut (cutBy ci u s)

/-- Element groups that a stage performs in one pass at most; any number is permitted (R224). -/
def passGroups : Nat := 16

/-- Up to n element groups of stage i; answers whether the chain was cut. -/
def passStage (ci i : Nat) : Nat → State → State × Bool
  | 0, s => (s, false)
  | n + 1, s =>
    match attempt ci i s with
    | .moved s' => passStage ci i n s'
    | .stuck => (s, false)
    | .cut s' => (s', true)

/-- One pass over stages in the given order, downstream first; the run completes where every sink is done (R224). -/
def passStages (ci : Nat) : List Nat → State → State
  | [], s => settle ci s
  | i :: is, s =>
    match passStage ci i passGroups s with
    | (s', true) => s'
    | (s', false) => passStages ci is s'

/-- One pass of Temporal after what has come in on the links. -/
def pass (ci : Nat) (s : State) : State :=
  let s := arrivals ci s
  passStages ci (rangeFrom 0 (s.hart.chain ci).stages.length).reverse s

end Sys2Proof.Machine
end

