-- ==== Sys2Proof/Machine/ChainInstr.lean ====
section
/-!
DEFINITION. The chain instructions (10_chains.md, R216 to R219, R225, R226) and the steps of chains as agents (R209, R214,
R220, R223, R224, R261).
-/
namespace Sys2Proof.Machine

/-! ### Configuration -/

/-- Take the lane-link ports that are free for a chain's links (R69): per link, whether it holds its port. -/
def takePorts (ci : Nat) (r : ChainRec) (s : State) : State × List Bool :=
  match findCore s s.hart.place with
  | none => (s, r.links.map fun _ => false)
  | some k =>
    let got := r.links.map fun e => !(k.portHolder.any fun x => x.1 == e.dir)
    let mine := (r.links.zip got).filterMap fun x => if x.2 then some (x.1.dir, s.hart.sid, ci) else none
    (putCore { k with portHolder := k.portHolder ++ mine } s, got)

/-- The chain that a valid record gives, granted and with its captures (R213, R218). -/
def newChain (h : Strand) (ci : Nat) (raw : List Byte) (types : List (ETag × ETag)) (ports : List Bool) (near : Bool) : Chain :=
  let r := parseRecord raw
  let g := grantOf h ci r near
  let res := types.map (·.2)
  { Chain.free with
    state := .ready, rcd := r, raw := raw, vlc := h.vl, consts := h.x.toList.set 0 0#64, rm := h.rm, user := h.mode == .user,
    tgrant := g.1
    stages := (rangeFrom 0 types.length).map fun i =>
      let t := nth types i (.none, .none)
      { StageSt.start with
        srcTys := sourceTypes h r res i (nth r.stages i .none) t.1, opTy := t.1, resTy := t.2, groups := nth g.2 i [] }
    ports := r.ports.map fun _ => .start
    links := (r.links.zip ports).map fun x => .start (if x.1.slots < Config.linkSlots then x.1.slots else Config.linkSlots) x.2 }

/-- The reject code of a record, or its stages' types (R203, R212). -/
def checkRecord (s : State) (ci vlc : Nat) (raw : List Byte) : Except Nat (List (ETag × ETag)) :=
  if !headerValid raw then .error 1
  else
    let code := firstPass s raw vlc
    if code ≠ 0 then .error code else secondPass s.hart ci (parseRecord raw) (parseRecord raw).stages 0 []

/-- Put a configured chain in place: links bind, and chains that it does not match are cut (R220, R222). -/
def installChain (ci : Nat) (c : Chain) (s : State) : State :=
  cutMismatched ci (bindLinks ci { s with hart := s.hart.putChain ci c })

/-- Configure a handle from a record that has been read (R216, R218). -/
def configure (ci : Nat) (raw : List Byte) (s : State) : State :=
  let s := dropChain ci s
  match checkRecord s ci s.hart.vl raw with
  | .error code => modChain ci (fun _ => { Chain.free with state := .rejected, reject := code }) s
  | .ok types =>
    let n := takeNear (parseRecord raw) s
    let p := takePorts ci (parseRecord raw) n.2
    installChain ci (newChain p.1.hart ci raw types p.2 n.1) p.1

/-- The handle may not be RUNNING (nor BROKEN, where said): a shape fault (R216). -/
def needIdle (c : BitVec 2) (broken : Bool) : M Unit := do
  let k := (← getH).chain c.toNat
  need (k.state != .running && !(broken && k.state == .broken)) shapeFault

/-- CHCFG (R216, R218). DESIGN CHOICE (log 21): where the header is not valid the record's length is not known, and only its 16
bytes are read. -/
def execChcfg (rs1 : BitVec 5) (c : BitVec 2) (s : State) : Host.Outcome State Fault Refusal :=
  runInstr (.chcfg rs1 c) (do
    vecGate
    needIdle c true
    let a := (← readX rs1).toNat
    let head ← readStruct a 16
    let raw ← if headerValid head then readStruct a (recordLength head) else pure head
    modify (configure c.toNat raw)) s

/-! ### Runs -/

/-- Whether a quota breaks the matrix rule of R217. -/
def quotaBreaks (h : Strand) (c : Chain) (n : Nat) : Bool :=
  c.sinks.any fun i => (c.ent i).isMatrix && n % (h.shape (BitVec.ofNat 3 (c.ent i).selB)).cols != 0

/-- A run begins or resumes: lane slices are in use from now on (R56). -/
def markSliced (ci : Nat) (h : Strand) : Strand :=
  if (h.chain ci).rcd.stages.any StageEnt.onSlices then { h with sliced := true } else h

/-- CHRUN (R216, R218). -/
def execChrun (rs1 : BitVec 5) (c : BitVec 2) (s : State) : Host.Outcome State Fault Refusal :=
  runInstr (.chrun rs1 c) (do
    vecGate
    needIdle c true
    let h ← getH
    let ci := c.toNat
    let k := h.chain ci
    let n := (h.rx rs1).toNat
    let last (w : Word) : M Unit := modify (modChain ci fun k => { k with last := some w })
    if k.state = .free then last (chainWord 7 0 17)
    else if k.state = .rejected then last (chainWord 7 0 k.reject)
    else if n = 0 then last (chainWord 0 0 0)
    else if 2 ^ 48 < n ∨ quotaBreaks h k n = true then last (chainWord 7 0 16)
    else do
      endRewind
      modH (markSliced ci)
      modify (modChain ci fun k => { k with
        state := .running, cause := 0, quota := n, stages := k.stages.map fun t => { t with inRun := 0 } })
      modify (settle ci)) s

/-- The status that chwait returns, by the handle's state (R219). -/
def Chain.statusWord (c : Chain) : Word :=
  match c.state with
  | .free => chainWord 7 0 17
  | .rejected => chainWord 7 0 c.reject
  | .ready => c.last.getD (chainWord 0 0 0)
  | .running => chainWord 1 c.least 0
  | .broken => chainWord 3 c.least c.cause

/-- How chwait waits (R218, R219). -/
def chwaitOps (rs2 : BitVec 5) (c : BitVec 2) (rd : BitVec 5) : WaitOps where
  attempt := do
    let k := (← getH).chain c.toNat
    if k.state = .running then return false
    else do
      if k.state = .ready || k.state = .broken then acquire
      writeX rd k.statusWord
      return true
  withdraw := pure ()
  expired := do writeX rd ((← getH).chain c.toNat).statusWord
  deadline := readX rs2

/-- CHWAIT (R218, R219). -/
def execChwait (rs2 : BitVec 5) (c : BitVec 2) (rd : BitVec 5) (s : State) : Host.Outcome State Fault Refusal :=
  runInstr (.chwait rs2 c rd) (do
    vecGate
    startWait (.chwait rs2 c rd) 0#64 0 (chwaitOps rs2 c rd)) s

/-- A cut on request: a chain already cut with AUTO becomes BROKEN as it stands (R222). -/
def requestCut (ci : Nat) (s : State) : State :=
  let s := cutChain ci 1 1 none s
  modChain ci (fun k => if k.state = .running then { k with state := .broken, cause := 1 } else k) s

/-- CHBRK (R216, R218). -/
def execChbrk (c : BitVec 2) (s : State) : Host.Outcome State Fault Refusal :=
  runInstr (.chbrk c) (do
    vecGate
    if ((← getH).chain c.toNat).state = .running then modify (requestCut c.toNat)) s

/-- CHRES (R216, R218). -/
def execChres (c : BitVec 2) (s : State) : Host.Outcome State Fault Refusal :=
  runInstr (.chres c) (do
    vecGate
    let ci := c.toNat
    if ((← getH).chain ci).state = .broken then
      endRewind
      modH (markSliced ci)
      modify fun s => settle ci (modChain ci (fun k => { k with state := .running, cause := 0 }) (regrant ci s))) s

/-- CHFREE (R216, R218). -/
def execChfree (c : BitVec 2) (s : State) : Host.Outcome State Fault Refusal :=
  runInstr (.chfree c) (do
    vecGate
    let ci := c.toNat
    if ((← getH).chain ci).state ≠ .free then
      modify fun s => dropChain ci (if (s.hart.chain ci).state = .running then requestCut ci s else s)) s

/-! ### Reading chain state (R225) -/

/-- The lane groups of a kind that a chain holds, as a mask. -/
def Chain.groupMask (c : Chain) (matrix : Bool) : Nat :=
  (rangeFrom 0 8).foldl (fun m g => if (heldGroups [c] matrix).contains g then m + 2 ^ g else m) 0

/-- The code of a handle's state. -/
def ChState.code : ChState → Nat
  | .free => 0 | .rejected => 1 | .ready => 2 | .running => 3 | .broken => 4

/-- chstat selector 0. -/
def Chain.infoWord (c : Chain) : Nat :=
  let why := match c.state with
    | .rejected => c.reject
    | .broken => c.cause
    | _ => 0
  c.state.code + 8 * c.tgrant.toNat + 16 * c.rm + 2 ^ 7 * c.rcd.fcls + 2 ^ 10 * why +
    2 ^ 16 * c.groupMask false + 2 ^ 24 * c.groupMask true

/-- chstat selector 3. -/
def Chain.firstWord (c : Chain) : Word := if c.state = .broken ∧ c.cause = 2 then c.faultAt else c.first

/-- The slots that a link's receive buffer holds, those of elements on their way to it counted with them: a slot is free only
once a stage has taken its elements (R220). -/
def heldSlots (s : State) (ci l : Nat) : List Slot :=
  let k := (s.hart.chain ci).link l
  let wire := match k.peer with
    | none => []
    | some (sid, p, j) => ((findStrand s sid).map fun (h : Strand) => ((h.far p).link j).wire).getD []
  wire.foldl slotPut k.rx

/-- The value of a chstat selector. DESIGN CHOICE (log 21): a selector 0x60 + q answers for each of q0 to q7, whether or not the
chain names it, since the queues are the strand's. -/
def chstatValue (s : State) (ci sel : Nat) : Word :=
  let h := s.hart
  let c := h.chain ci
  let num (n : Nat) : Word := BitVec.ofNat 64 n
  if sel = 0 then num c.infoWord
  else if sel = 1 then c.statusWord
  else if sel = 2 then c.summary.zeroExtend 64
  else if sel = 3 then c.firstWord
  else if 0x10 ≤ sel ∧ sel < 0x10 + c.stages.length then num (c.st (sel - 0x10)).produced
  else if 0x20 ≤ sel ∧ sel < 0x20 + 4 * c.stages.length ∧ sel % 4 < 3 then num ((c.st ((sel - 0x20) / 4)).taken (sel % 4))
  else if 0x60 ≤ sel ∧ sel < 0x68 then (h.queue (sel - 0x60)).countWord
  else if 0x70 ≤ sel ∧ sel < 0x70 + c.links.length then
    let g := (c.link (sel - 0x70)).granted
    let n := (heldSlots s ci (sel - 0x70)).length
    num (g - n + 2 ^ 16 * g + 2 ^ 32 * n)
  else if 0x80 ≤ sel ∧ sel < 0x80 + c.ports.length then num (c.portSt (sel - 0x80)).cursor
  else if 0x90 ≤ sel ∧ sel < 0x90 + c.stages.length then
    let g := (c.st (sel - 0x90)).groups
    num (g.length + 2 ^ 8 * g.foldl (fun m x => m + 2 ^ x) 0)
  else 0#64

/-- CHSTAT (R225). -/
def execChstat (rs2 : BitVec 5) (c : BitVec 2) (rd : BitVec 5) (s : State) : Host.Outcome State Fault Refusal :=
  runInstr (.chstat rs2 c rd) (do
    vecGate
    let s ← get
    writeX rd (chstatValue s c.toNat (s.hart.rx rs2).toNat)) s

/-! ### Chain images (R226) -/

/-- A free value, a fresh one each time. -/
def freshWord : M Word := do
  let s ← get
  set { s with free := s.free + 1 }
  return Config.freeWord s.free

/-- Bytes of a chain image: 2,048 + 512 × LB. -/
def imageBytes : Nat := 2048 + 512 * Config.linkSlots

/-- The 128 bytes of a receive slot. -/
def Slot.bytes (s : Slot) : List Byte :=
  toBytes 128 (s.elems.foldr (fun (e : Word × Bool) (n : Nat) => e.1.toNat % 2 ^ s.tag.width + 2 ^ s.tag.width * n) 0)

/-- A list of bytes extended with zeros to a length. -/
def padTo (n : Nat) (bs : List Byte) : List Byte := bs ++ List.replicate (n - bs.length) 0#8

/-- The image of a handle. -/
def Strand.image (h : Strand) (ci : Nat) : List Byte :=
  let k := h.chain ci
  let c := if k.state = .rejected then Chain.free else k
  toBytes 8 c.infoWord ++ toBytes 8 (c.last.getD 0#64).toNat ++ toBytes 8 (Config.packQuota c.quota c.least).toNat ++
  toBytes 8 c.summary.toNat ++ toBytes 8 c.firstWord.toNat ++ List.replicate 24 0#8 ++ padTo 832 c.raw ++
  padTo 256 (c.consts.flatMap fun w => toBytes 8 w.toNat) ++
  padTo 768 (c.stages.flatMap fun t =>
    toBytes 8 t.produced ++ toBytes 8 t.consA ++ toBytes 8 t.consB ++ toBytes 8 t.consC ++
    toBytes 8 (t.ended.toNat + 2 * t.endA.toNat + 4 * t.endB.toNat) ++ toBytes 8 0) ++
  padTo 64 (c.ports.flatMap fun p => toBytes 8 p.cursor) ++
  padTo 64 (c.links.flatMap fun l => toBytes 8 l.sent ++ toBytes 2 l.rx.length ++ toBytes 2 l.granted ++ toBytes 4 0) ++
  (rangeFrom 0 4).flatMap fun l => padTo (128 * Config.linkSlots) ((c.link l).rx.flatMap Slot.bytes)

/-- Fields of an image that may not hold what they hold, in order of offset: reserved fields of R225, R226 and R203, a state
or rounding mode that is none (R226, R278). -/
def imageFields (bs : List Byte) (running : Bool) : List (Nat × Bool) :=
  let st := sub bs 0 8 % 8
  [(0, decide (2 ^ 32 ≤ sub bs 0 8) || decide (4 < st) || (st == 3 && !running) || decide (4 < sub bs 0 8 / 16 % 8)),
   (8, decide (2 ^ 63 ≤ sub bs 8 8)), (24, decide (2 ^ 7 ≤ sub bs 24 8)),
   (32, decide ((if st = 4 ∧ sub bs 0 8 / 2 ^ 10 % 64 = 2 then 2 ^ 61 else 2 ^ 52) ≤ sub bs 32 8)),
   (40, sub bs 40 24 != 0)] ++
  ((rangeFrom 0 16).flatMap fun i =>
    [(1152 + 48 * i + 32, decide (8 ≤ sub bs (1152 + 48 * i + 32) 8)), (1152 + 48 * i + 40, sub bs (1152 + 48 * i + 40) 8 != 0)]) ++
  (rangeFrom 0 4).map fun l => (1984 + 16 * l + 12, sub bs (1984 + 16 * l + 12) 4 != 0)

/-- A receive slot of an image: the image holds neither its tag nor its count nor its marks, which are free values. -/
def slotOf (t : ETag) (bs : List Byte) : M Slot := do
  let n := (← freshWord).toNat % (1024 / t.width) + 1
  let marks := (← freshWord).toNat
  let v := ofBytes bs
  return ⟨t, (rangeFrom 0 n).map fun i => (BitVec.ofNat 64 (v / 2 ^ (t.width * i) % 2 ^ t.width), marks.testBit i)⟩

/-- The type of the elements that a record's stage takes from link l; I8 where no stage does. -/
def linkType (r : ChainRec) (l : Nat) : ETag :=
  match r.stages.find? fun e => e.sources.contains (96 + l) with
  | some e => if e.flags % 16 = 0 then .i8 else ETag.ofCode (e.flags % 16)
  | none => .i8

/-- The word offset of block b of a CE8 port's stream: the blocks before it are read one after another from base (R49, R214). -/
def blockStart (s : State) (user : Bool) (base : Nat) : Nat → Option Nat
  | 0 => some 0
  | b + 1 =>
    match blockStart s user base b with
    | none => none
    | some w =>
      match readBlock s s.hart.realm user ((base + 4 * w) % 2 ^ 64) with
      | .ok x => some (w + x / 1024 % 64)
      | .error _ => none

/-- The chain of an image whose record is valid, with stage types and granted ports; what the image does not hold are free
values: vlc, the privilege, the first fcls element behind a FAULT, the quota's packing, the elements of an open CE8 output group, the
place of a block behind one that cannot be read, what a receive slot's bytes stand for (log 13). -/
def chainOfImage (ci : Nat) (bs raw : List Byte) (types : List (ETag × ETag)) (ports : List Bool) (near : Bool) : M Chain := do
  let h ← getH
  let r := parseRecord raw
  let base := newChain h ci raw types ports near
  let q := Config.unpackQuota (BitVec.ofNat 64 (sub bs 16 8))
  let vlc := (← freshWord).toNat
  let user := (← freshWord).getLsbD 0
  let ps ← mapEach (rangeFrom 0 r.ports.length) fun p => do
    let n := sub bs (1920 + 8 * p) 8
    let e := nth r.ports p ⟨0, 0, 0, 0, []⟩
    let ce8 := e.format == 0x10 && n != 0
    let some1 ← freshWord
    let now ← get
    let word := if ce8 then (blockStart now user e.base (n / 32)).getD some1.toNat else 0
    let pend ← if ce8 then mapEach (rangeFrom 0 (e.dir * (n % 32))) fun _ => do
        return (← freshWord).toNat % 2 ^ 32
      else pure []
    return (⟨n, word, pend, []⟩ : PortSt)
  let ls ← mapEach (rangeFrom 0 base.links.length) fun l => do
    let o := 1984 + 16 * l
    let held := sub bs (o + 8) 2
    let rx ← mapEach (rangeFrom 0 held) fun k =>
      slotOf (linkType r l) ((bs.drop (2048 + 128 * (Config.linkSlots * l + k))).take 128)
    return { base.link l with sent := sub bs o 8, granted := sub bs (o + 10) 2, rx := rx }
  let w0 := sub bs 0 8
  let fault := w0 % 8 == 4 && w0 / 2 ^ 10 % 64 == 2
  let other ← freshWord
  return { base with
    state := if w0 % 8 = 2 then .ready else if w0 % 8 = 3 then .running else .broken
    vlc := vlc, user := user, rm := w0 / 16 % 8, cause := if w0 % 8 = 3 then 7 else w0 / 2 ^ 10 % 64
    consts := (rangeFrom 0 32).map fun i => BitVec.ofNat 64 (sub bs (896 + 8 * i) 8)
    last := some (BitVec.ofNat 64 (sub bs 8 8)), quota := q.1
    summary := BitVec.ofNat 7 (sub bs 24 8), first := if fault then other else BitVec.ofNat 64 (sub bs 32 8)
    faultAt := if fault then BitVec.ofNat 64 (sub bs 32 8) else 0#64
    stages := (rangeFrom 0 base.stages.length).map fun i =>
      let o := 1152 + 48 * i
      let f := sub bs (o + 32) 8
      { base.st i with
        produced := sub bs o 8, consA := sub bs (o + 8) 8, consB := sub bs (o + 16) 8, consC := sub bs (o + 24) 8
        ended := f.testBit 0, endA := f.testBit 1, endB := f.testBit 2, inRun := q.2 }
    ports := ps, links := ls }

/-- A chain that chsave stored, put into a handle again with fresh ports and a fresh grant (R226). -/
def restoredChain (h : Strand) (ci : Nat) (c : Chain) (ports : List Bool) (near : Bool) : Chain :=
  let g := grantOf h ci c.rcd near
  { c with
    tgrant := g.1
    stages := (c.stages.zip g.2).map fun x => { x.1 with groups := x.2 }
    links := (c.links.zip ports).map fun x =>
      { LinkSt.start x.1.granted x.2 with sent := x.1.sent, rx := x.1.rx } }

/-- Load an image into a handle: false when it is refused (R226). A handle whose image this already is keeps the parts of
its chain that the image lacks; an image that chsave stored brings back the chain that it stored. DESIGN CHOICE (log 13): so the
types of a chain that chload brings back are those fixed at its chcfg (R124) where chsave stored the image, and for any other
image those that the register tags and tile shapes at the load give; the spec gives no types for a loaded chain. -/
def loadImage (ci : Nat) (bs : List Byte) (running : Bool) : M Bool := do
  let s ← get
  let st := sub bs 0 8 % 8
  let raw0 := (bs.drop 64).take 832
  if (imageFields bs running).any (·.2) then return false
  else if st = 0 then
    modify (dropChain ci)
    return true
  else if st = 1 then
    modify fun s => modChain ci (fun _ => { Chain.free with state := .rejected, reject := sub bs 0 8 / 2 ^ 10 % 64 }) (dropChain ci s)
    return true
  else if !headerValid raw0 || ofBytes (raw0.drop (recordLength raw0)) != 0 then return false
  else
    let raw := raw0.take (recordLength raw0)
    match checkRecord s ci 1 raw with
    | .error _ => return false
    | .ok types =>
      if (s.hart.chain ci).raw = raw ∧ s.hart.image ci = bs then
        modify (regrant ci)
        return true
      else do
        modify (dropChain ci)
        let n := takeNear (parseRecord raw) (← get)
        let p := takePorts ci (parseRecord raw) n.2
        set p.1
        match p.1.images.find? fun x => x.1 == bs with
        | some x => modify (installChain ci (restoredChain p.1.hart ci x.2 p.2 n.1))
        | none => do
          let c ← chainOfImage ci bs raw types p.2 n.1
          modify (installChain ci c)
        return true

/-- Chain images are moved by a supervisor only (R99), at 64-byte addresses. -/
def imageGate (store : Bool) (c : BitVec 2) (a : Nat) : M Unit := do
  if (← getH).mode = .user then illegal
  vecGate
  needIdle c false
  if a % 64 ≠ 0 then raiseAt (if store then 6 else 4) 0 a

/-- CHSAVE (R226). -/
def execChsave (rs1 : BitVec 5) (c : BitVec 2) (s : State) : Host.Outcome State Fault Refusal :=
  runInstr (.chsave rs1 c) (do
    let a := (← readX rs1).toNat
    imageGate true c a
    let ws ← imageWords .store a (imageBytes / 8)
    let h ← getH
    let img := h.image c.toNat
    modify fun s => { s with images := (img, h.chain c.toNat) :: s.images }
    forEach (rangeFrom 0 (imageBytes / 8)) fun i =>
      let w := nth ws i (0, 0)
      idemStore w.1 w.2 ((img.drop (8 * i)).take 8)) s

/-- CHLOAD (R226). -/
def execChload (rs1 : BitVec 5) (c : BitVec 2) (s : State) : Host.Outcome State Fault Refusal :=
  runInstr (.chload rs1 c) (do
    let a := (← readX rs1).toNat
    imageGate false c a
    let ws ← imageWords .load a (imageBytes / 8)
    let bs ← mapEach ws fun w => atElem 0 (ownBytes w.2 8 w.1)
    forEach ws fun w => do
      dropDcache w.2 8
      noteAccess false w.1 8
    if !(← loadImage c.toNat bs.flatten false) then raise 5 (BitVec.ofNat 64 a)) s

/-! ### Steps of chains as agents -/

/-- Whether the running strand is placed and its chain c runs. -/
def needRuns (c : BitVec 2) : M Chain := do
  let h ← getH
  if h.status ≠ .running ∨ (h.chain c.toNat).runs = false then notEnabled "chain not running"
  return h.chain c.toNat

/-- An element group of a stage, or the cut or the end that it meets. -/
def stepStage (c : BitVec 2) (i : Nat) : M Unit := do
  modify (bindLinks c.toNat)
  match attempt c.toNat i (← get) with
  | .moved s => set s
  | .cut s => set s
  | .stuck => notEnabled "stage"

/-- CHAIN_STAGE_UNIT (R209). DEDUCED (log 21): the units of one element group, as far as the sources, the destination and the quota
allow them, are one step, since nothing of a group is written before its results are compared (R58) and a cut never stands within
the group (R223); a group of one unit is such a step too. -/
def execChainStageUnit (c : BitVec 2) (stage : Nat) (s : State) : Host.Outcome State Fault Refusal :=
  runEvent (do
    let k ← needRuns c
    if k.stages.length ≤ stage then notEnabled "stage"
    stepStage c stage) s

/-- PORT_ELEMENT_READ (R214, R261): a stream or near port reads its next unread element ahead; a fault is not reported. -/
def execPortElementRead (c : BitVec 2) (port : Nat) (s : State) : Host.Outcome State Fault Refusal :=
  runEvent (do
    let k ← needRuns c
    let s ← get
    let e := k.portEnt port
    let t := k.portSt port
    let next := t.word + (t.pend.head?.map ce8Words).getD 0
    if k.ports.length ≤ port ∨ e.dir ≠ 0 ∨ e.mode = 1 then notEnabled "port read"
    else if e.format = 0x10 then
      if e.count ≤ t.cursor + t.pend.length ∨ t.ahead ≠ [] then notEnabled "port read"
      else match readBlock s s.hart.realm k.user ((e.base + 4 * next) % 2 ^ 64) with
        | .ok b => modify (modChain c.toNat fun k => k.modPort port fun t => { t with ahead := [b] })
        | .error x => bad k x.1 x.2
    else if e.count ≤ t.cursor + t.ahead.length then notEnabled "port read"
    else
      let va := (portAddr e (t.cursor + t.ahead.length)).1
      match agentRead s s.hart.realm k.user va e.bytes with
      | .ok v => modify (modChain c.toNat fun k => k.modPort port fun t => { t with ahead := t.ahead ++ [v] })
      | .error x => bad k x va) s
where
  /-- A read that meets an uncorrectable word marks it suspect (R355); else nothing is reported. -/
  bad (k : Chain) (cause va : Nat) : M Unit := modify fun s => suspectAt s.hart.realm k.user cause va s

/-- PORT_ELEMENT_WRITE (R214, R261): the stage that feeds an output port produces and the port writes, in one step. -/
def execPortElementWrite (c : BitVec 2) (port : Nat) (s : State) : Host.Outcome State Fault Refusal :=
  runEvent (do
    let k ← needRuns c
    match (rangeFrom 0 k.stages.length).find? fun i => (k.ent i).selD == 64 + port with
    | some i => stepStage c i
    | none => notEnabled "port write") s

/-- LINK_ELEMENT_RECEIVE (R220): the oldest element on its way arrives. -/
def execLinkElementReceive (c : BitVec 2) (link : Nat) (ty : ETag) (value : Word) (mark : Bool) (s : State) :
    Host.Outcome State Fault Refusal :=
  runEvent (do
    let s ← get
    match ((s.hart.chain c.toNat).link link).peer with
    | none => notEnabled "link receive"
    | some (sid, p, k) =>
      match findStrand s sid with
      | none => notEnabled "link receive"
      | some h =>
        match ((h.far p).link k).wire with
        | [] => notEnabled "link receive"
        | x :: rest =>
          if x ≠ (ty, value, mark) then notEnabled "link receive"
          else
            modify (modStrand sid fun h => h.modFar p fun c => c.modLink k fun y => { y with wire := rest })
            modify (modChain c.toNat fun ch => ch.modLink link fun y => { y with rx := slotPut y.rx x })) s

/-- CUT_MARKER_RECEIVE (R222, R223): the oldest marker on a link. -/
def execCutMarkerReceive (c : BitVec 2) (link cause : Nat) (s : State) : Host.Outcome State Fault Refusal :=
  runEvent (do
    let k := (← getH).chain c.toNat
    match (k.link link).marks with
    | [] => notEnabled "cut marker"
    | m :: ms =>
      if m ≠ cause then notEnabled "cut marker"
      else modify fun s =>
        markerIn c.toNat link m (modChain c.toNat (fun k => k.modLink link fun x => { x with marks := ms }) s)) s

/-- TEMPORAL_PASS (R224). -/
def execTemporalPass (c : BitVec 2) (s : State) : Host.Outcome State Fault Refusal :=
  runEvent (do
    let k ← needRuns c
    if !k.tgrant then notEnabled "temporal pass"
    modify (pass c.toNat)) s

end Sys2Proof.Machine
end

