-- ==== Sys2Proof/Machine/Flaset.lean ====
section
/-!
DEFINITION. Flaset images (R378 to R380): layout, repetition vector, the schedule of one period and the channels' buffers, what an
actor's body may hold, and the translation: where the bodies, the schedule's code, the actors' stacks and the buffers lie.
-/
namespace Sys2Proof.Machine

/-- An actor of an image. -/
structure Actor where
  body : List Byte
  ins : Nat
  outs : Nat
  chans : List Nat
  deriving DecidableEq, Repr

/-- A channel of an image. -/
structure Channel where
  producer : Nat
  consumer : Nat
  prod : Nat
  cons : Nat
  init : Nat
  ty : ETag
  deriving DecidableEq, Repr

/-! ### Layout (R379) -/

/-- Whether n bytes at an offset lie in the image. -/
def within (bs : List Byte) (off n : Nat) : Bool := decide (off + n ≤ bs.length)

/-- The header's checks. -/
def flasetHeader (bs : List Byte) (entries : Nat) : Bool :=
  within bs 0 48 && sub bs 0 4 == 0x0F1A5E70 && sub bs 4 2 == 1 && decide (1 ≤ sub bs 6 2) && decide (sub bs 6 2 ≤ 4096) &&
    decide (sub bs 8 4 ≤ 65535) && sub bs 12 2 == entries && sub bs 14 2 == 0 && sub bs 40 8 == 0 &&
    within bs (sub bs 16 8) (32 * sub bs 6 2) && within bs (sub bs 24 8) (16 * sub bs 8 4) && within bs (sub bs 32 8) (8 * entries)

/-- Actor k, when its entry passes its checks. -/
def actorAt (bs : List Byte) (k : Nat) : Option Actor :=
  let o := sub bs 16 8 + 32 * k
  let off := sub bs o 8
  let len := sub bs (o + 8) 8
  let ni := sub bs (o + 16) 1
  let no := sub bs (o + 17) 1
  let list := sub bs (o + 24) 8
  if off % 4 = 0 ∧ len % 4 = 0 ∧ 4 ≤ len ∧ len ≤ 2 ^ 20 ∧ ni + no ≤ 8 ∧ sub bs (o + 18) 6 = 0 ∧ within bs off len = true ∧
      within bs list (4 * (ni + no)) = true then
    some ⟨(bs.drop off).take len, ni, no, (rangeFrom 0 (ni + no)).map fun i => sub bs (list + 4 * i) 4⟩
  else none

/-- Channel k, when its entry passes its checks. -/
def channelAt (bs : List Byte) (k : Nat) : Option Channel :=
  let o := sub bs 24 8 + 16 * k
  let c : Channel := ⟨sub bs o 2, sub bs (o + 2) 2, sub bs (o + 4) 2, sub bs (o + 6) 2, sub bs (o + 8) 4, ETag.ofCode (sub bs (o + 12) 1)⟩
  let n := sub bs 6 2
  if c.producer < n ∧ c.consumer < n ∧ 1 ≤ c.prod ∧ 1 ≤ c.cons ∧ c.init ≤ 2 ^ 24 ∧ 1 ≤ sub bs (o + 12) 1 ∧
      sub bs (o + 12) 1 ≤ 15 ∧ sub bs (o + 13) 3 = 0 then some c
  else none

/-- The actors of launch entry j, first and last. -/
def flasetRange (bs : List Byte) (j : Nat) : Option (Nat × Nat) :=
  let o := sub bs 32 8 + 8 * j
  if sub bs o 2 ≤ sub bs (o + 2) 2 ∧ sub bs (o + 2) 2 < sub bs 6 2 ∧ sub bs (o + 4) 4 = 0 then some (sub bs o 2, sub bs (o + 2) 2)
  else none

/-- Every entry of a list that answers, or none. -/
def allSome : List (Option α) → Option (List α)
  | [] => some []
  | none :: _ => none
  | some a :: rest => (allSome rest).map (a :: ·)

/-- Whether an actor's list names its own channels, inputs first. -/
def listsOwn (cs : List Channel) (k : Nat) (a : Actor) : Bool :=
  (rangeFrom 0 a.chans.length).all fun i =>
    match cs[nth a.chans i cs.length]? with
    | some c => if i < a.ins then c.consumer == k else c.producer == k
    | none => false

/-! ### Bodies (R380) -/

/-- Whether an instruction of SY group 000, or one that a body may not hold. -/
def bodyBars (word : Nat) (i : Instr) : Bool :=
  (word % 128 == 0x7B && word / 2 ^ 12 % 8 == 0) ||
    (match i with
      | .claim | .dlaunch _ _ _ | .chsave _ _ | .chload _ _ => true
      | _ => false)

/-- Queues that an instruction names. -/
def bodyQueue : Instr → Option Nat
  | .vqpush q _ _ _ | .vqpop q _ _ _ | .vqcnt q _ => some q.toNat
  | _ => none

/-- Whether an instruction jumps to a fixed address, relative to x0: none lies in a body (R380). -/
def jumpsAbsolute : Instr → Bool
  | .scalarInstruction (.jalr _ rs1 _) => rs1 == 0#5
  | _ => false

/-- The offset of a direct jump or branch in bytes. -/
def jumpOffset : Instr → Option Int
  | .scalarInstruction (.jal _ off) => some (2 * off.toInt)
  | .scalarInstruction (.branch _ _ _ off) => some (2 * off.toInt)
  | _ => none

/-- The closing ret of a body: JALR x0, 0(x1). -/
def isRet : Instr → Bool
  | .scalarInstruction (.jalr rd rs1 imm) => rd == 0#5 && rs1 == 1#5 && imm == 0#12
  | _ => false

/-- Whether an instruction's word may name x1 as its destination: in bits [11:7], where C.JR has its source, or as C.JALR. -/
def writesRa (word : Nat) : Bool :=
  if word < 2 ^ 16 ∧ word % 2 ^ 7 = 2 then word / 2 ^ 12 == 9 else word / 2 ^ 7 % 32 == 1

/-- Whether some instruction of a body may write x1. -/
def bodyLinks : Nat → List Byte → Bool
  | 0, _ => false
  | n + 1, bs =>
    match decode bs with
    | .error _ => false
    | .ok (_, rest) => writesRa (ofBytes (bs.take (bs.length - rest.length))) || bodyLinks n rest

/-- Whether an instruction may stand at an offset of a body of the given length. A ret before the closing one leaves the body where
nothing in it writes x1, which is 0 as the firing starts; else its target is a matter of the run. -/
def bodyAllows (len queues off word : Nat) (links : Bool) (i : Instr) : Bool :=
  !bodyBars word i && !jumpsAbsolute i && (links || !isRet i) && (match bodyQueue i with
    | some q => decide (q < queues)
    | none => true) &&
  (match jumpOffset i with
    | some o => decide (0 ≤ (off : Int) + o) && decide ((off : Int) + o < len)
    | none => true)

/-- Whether the instructions of a body from an offset on may stand there, the last of them its closing ret. -/
def bodyFrom (len queues : Nat) (links : Bool) : Nat → Nat → List Byte → Bool
  | 0, _, _ => false
  | n + 1, off, bs =>
    match decode bs with
    | .error _ => false
    | .ok (i, rest) =>
      let k := bs.length - rest.length
      if rest = [] then isRet i
      else bodyAllows len queues off (ofBytes (bs.take k)) links i && bodyFrom len queues links n (off + k) rest

/-- Whether a body keeps R380 and closes with its ret. -/
def bodyOk (a : Actor) : Bool := bodyFrom a.body.length (a.ins + a.outs) (bodyLinks (a.body.length / 2) a.body) (a.body.length / 2) 0 a.body

/-! ### Repetition vector (R378 step 1) -/

/-- A fraction in lowest terms; (0, 0) stands for a count that is not known. -/
def reduced (n d : Nat) : Nat × Nat := (n / Nat.gcd n d, d / Nat.gcd n d)

/-- Carry a known count across a channel. -/
def carry (r : List (Nat × Nat)) (c : Channel) : List (Nat × Nat) :=
  let a := nth r c.producer (0, 0)
  let b := nth r c.consumer (0, 0)
  if a.2 ≠ 0 ∧ b.2 = 0 then r.set c.consumer (reduced (a.1 * c.prod) (a.2 * c.cons))
  else if a.2 = 0 ∧ b.2 ≠ 0 then r.set c.producer (reduced (b.1 * c.cons) (b.2 * c.prod))
  else r

/-- Carry counts until every actor joined to a known one has its count. -/
def spread (cs : List Channel) : Nat → List (Nat × Nat) → List (Nat × Nat)
  | 0, r => r
  | n + 1, r => spread cs n (cs.foldl carry r)

/-- The least positive counts of the actors joined to actor k. -/
def solveFrom (cs : List Channel) (k : Nat) (r : List (Nat × Nat)) : List (Nat × Nat) :=
  if (nth r k (0, 0)).2 ≠ 0 then r
  else
    let t := spread cs r.length (r.set k (1, 1))
    let new := (t.zip r).filter fun x => x.2.2 == 0 && x.1.2 != 0
    let l := new.foldl (fun l x => Nat.lcm l x.1.2) 1
    let g := new.foldl (fun g x => Nat.gcd g (x.1.1 * (l / x.1.2))) 0
    (t.zip r).map fun x => if x.2.2 = 0 ∧ x.1.2 ≠ 0 then (x.1.1 * (l / x.1.2) / g, 1) else x.1

/-- The repetition vector, none for an inconsistent graph. -/
def repetition (cs : List Channel) (lo n : Nat) : Option (List Nat) :=
  let cs := cs.map fun c => { c with producer := c.producer - lo, consumer := c.consumer - lo }
  let r := (rangeFrom 0 n).foldl (fun r k => solveFrom cs k r) (List.replicate n (0, 0))
  let r := r.map (·.1)
  if cs.all fun c => c.prod * nth r c.producer 0 == c.cons * nth r c.consumer 0 then some r else none

/-! ### The schedule of one period (R378 step 2) -/

/-- Whether an actor may fire. -/
def fireable (cs : List Channel) (r tokens fired : List Nat) (k : Nat) : Bool :=
  decide (nth fired k 0 < nth r k 0) &&
    (cs.zip tokens).all fun x => x.1.consumer != k || decide (x.1.cons ≤ x.2)

/-- The tokens after a firing. -/
def fire (cs : List Channel) (tokens : List Nat) (k : Nat) : List Nat :=
  (cs.zip tokens).map fun x =>
    (if x.1.consumer = k then x.2 - x.1.cons else x.2) + (if x.1.producer = k then x.1.prod else 0)

/-- Fire, up to n times, the lowest actor that can fire, until every count is met: the firings in order and the greatest number of
tokens on each channel, none where it deadlocks. -/
def periodFrom (cs : List Channel) (r : List Nat) : Nat → List Nat → List Nat → List Nat → Option (List Nat × List Nat)
  | 0, _, fired, most => if fired = r then some ([], most) else none
  | n + 1, tokens, fired, most =>
    match (rangeFrom 0 r.length).find? (fireable cs r tokens fired) with
    | some k =>
      let t := fire cs tokens k
      (periodFrom cs r n t (fired.set k (nth fired k 0 + 1)) ((most.zip t).map fun x => max x.1 x.2)).map fun x => (k :: x.1, x.2)
    | none => if fired = r then some ([], most) else none

/-- What the translator finds of the graph of a launch entry: its first actor, the firings of one period in order and the size of
each of its channels' buffers by channel, in tokens (R378). -/
structure Graph where
  first : Nat
  order : List Nat
  sizes : List (Nat × Nat)
  deriving DecidableEq, Repr

/-- The graph of actors first to last, none where it is inconsistent or deadlocks (R378, R379). -/
def graphOf (cs : List Channel) (first last : Nat) : Option Graph :=
  let inside (k : Nat) : Bool := decide (first ≤ k) && decide (k ≤ last)
  let own := ((rangeFrom 0 cs.length).zip cs).filter fun x => inside x.2.producer && inside x.2.consumer
  let n := last + 1 - first
  if cs.any fun c => inside c.producer != inside c.consumer then none
  else match repetition (own.map (·.2)) first n with
    | none => none
    | some r =>
      let here := own.map fun x => { x.2 with producer := x.2.producer - first, consumer := x.2.consumer - first }
      let start := here.map (·.init)
      (periodFrom here r (r.foldl (· + ·) 0) start (List.replicate n 0) start).map fun x =>
        ⟨first, x.1.map (· + first), (own.map (·.1)).zip x.2⟩

/-- The actors of an image that passes its checks. -/
def actorsOf (bs : List Byte) : List Actor := (rangeFrom 0 (sub bs 6 2)).filterMap (actorAt bs)

/-- The channels of an image that passes its checks. -/
def channelsOf (bs : List Byte) : List Channel := (rangeFrom 0 (sub bs 8 4)).filterMap (channelAt bs)

/-- The graph of launch entry j of an image. -/
def graphAt (bs : List Byte) (j : Nat) : Option Graph := (flasetRange bs j).bind fun r => graphOf (channelsOf bs) r.1 r.2

/-- Whether the header, every actor, channel and launch entry of an image passes its checks (R379). -/
def flasetLayout (bs : List Byte) (entries : Nat) : Bool :=
  flasetHeader bs entries && (rangeFrom 0 (sub bs 6 2)).all (fun k => (actorAt bs k).isSome) &&
    (rangeFrom 0 (sub bs 8 4)).all (fun k => (channelAt bs k).isSome) && (rangeFrom 0 entries).all fun j => (flasetRange bs j).isSome

/-- Whether a Flaset image can be translated (R378 to R380). -/
def flasetOk (bs : List Byte) (entries : Nat) : Bool :=
  flasetHeader bs entries &&
    (match allSome ((rangeFrom 0 (sub bs 6 2)).map (actorAt bs)), allSome ((rangeFrom 0 (sub bs 8 4)).map (channelAt bs)) with
      | some as, some cs =>
        ((rangeFrom 0 as.length).zip as).all (fun x => listsOwn cs x.1 x.2 && bodyOk x.2) &&
          (rangeFrom 0 entries).all fun j => (graphAt bs j).isSome
      | _, _ => false)

/-! ### The translation (R378, R380) -/

/-- Where the translation of an image lies: whole pages at a canonical address that is not 0. -/
def flasetBase (bs : List Byte) : Nat := 4096 * (1 + Config.flasetVa bs % 2 ^ 40)

/-- The bytes of the first k bodies. -/
def bodiesBelow (bs : List Byte) (k : Nat) : Nat := ((actorsOf bs).take k).foldl (fun n a => n + a.body.length) 0

/-- The address of the translation of actor k's body. DESIGN CHOICE (log 32): a body in portable form is translated to its own
words, and the queues' names are channels to them. -/
def bodyVa (bs : List Byte) (k : Nat) : Nat := flasetBase bs + bodiesBelow bs k

/-- The address of the closing ret of actor k's body: its last instruction, C.JR x1 or the word of JALR x0, 0(x1). -/
def closeVa (bs : List Byte) (k : Nat) : Nat :=
  let body := ((actorsOf bs)[k]?.map (·.body)).getD []
  bodyVa bs k + body.length - (if body.drop (body.length - 2) = [0x82#8, 0x80#8] then 2 else 4)

/-- The address of the schedule, where a strand stands between two firings. -/
def scheduleVa (bs : List Byte) : Nat := flasetBase bs + bodiesBelow bs (actorsOf bs).length

/-- The text of a translation: the bodies, then the schedule's code. -/
def flasetText (bs : List Byte) : List Byte := (actorsOf bs).flatMap (·.body) ++ Config.flasetCode bs

/-- The address of the data of a translation, the page after its text. -/
def flasetDataVa (bs : List Byte) : Nat := flasetBase bs + ((flasetText bs).length + 4095) / 4096 * 4096

/-- The top of the 64 KiB stack of actor k (R380). -/
def stackTop (bs : List Byte) (k : Nat) : Nat := flasetDataVa bs + 65536 * (k + 1)

/-- Bytes of a channel's buffer, the greatest that one of the launch entries needs (R378). -/
def bufferBytes (bs : List Byte) (c : Nat) (ty : ETag) : Nat :=
  ((rangeFrom 0 (sub bs 12 2)).foldl (fun n j =>
    max n (((graphAt bs j).bind fun g => (g.sizes.find? fun x => x.1 == c).map (·.2)).getD 0)) 0 * ty.width + 7) / 8

/-- Bytes of a translation's data: the actors' stacks, then the channels' buffers. -/
def flasetDataBytes (bs : List Byte) : Nat :=
  let cs := channelsOf bs
  65536 * (actorsOf bs).length + ((rangeFrom 0 cs.length).zip cs).foldl (fun n x => n + bufferBytes bs x.1 x.2.ty) 0

/-! ### Tokens (R379) -/

/-- What an actor keeps before its first firing (R380, R88). -/
def ActorRegs.start : ActorRegs :=
  { x := Vector.replicate 32 0#64, ea := Vector.replicate 8 .clear, m := Vector.replicate 8 0#262144, tshape := Vector.replicate 8 .none }

/-- The channels and actors of an image as a launch begins: the initial tokens hold the all-zero encoding. -/
def Flow.start (bs : List Byte) : Flow :=
  { tokens := (channelsOf bs).map fun c => List.replicate c.init 0#64, regs := (actorsOf bs).map fun _ => .start }

/-- The channels of actor k under the names of q0 upward (R380). -/
def conduitsOf (bs : List Byte) (k : Nat) : List Conduit :=
  match (actorsOf bs)[k]? with
  | none => []
  | some a =>
    let cs := channelsOf bs
    (rangeFrom 0 a.chans.length).filterMap fun i =>
      (cs[nth a.chans i cs.length]?).map fun c =>
        { chan := nth a.chans i 0, input := decide (i < a.ins), rate := if i < a.ins then c.cons else c.prod, ty := c.ty, moved := 0 }

end Sys2Proof.Machine
end

