-- ==== Sys2Proof/Machine/Invalidate.lean ====
section
/-!
DEFINITION. Invalidation across dies: icinv (R343) and tlbinv (R339), with the statuses of R340.
-/
namespace Sys2Proof.Machine

/-- The die of a core number. -/
def dieOfCore (core : Nat) : Nat := core / 256

/-- The dies of a mask of eight bits. -/
def diesOf (mask : Nat) : List Nat := (rangeFrom 0 8).filter mask.testBit

/-- The mask of a list of dies. -/
def maskOf (ds : List Nat) : Nat := ds.foldl (fun m d => m ||| 2 ^ d) 0

/-- Remove the instruction-cache lines of an identifier on one die that overlap n bytes from an address (R343). -/
def removeText (asid va n d : Nat) (s : State) : State :=
  { s with icache := s.icache.filter fun l =>
      !(dieOfCore l.core == d && l.asid == asid && n != 0 &&
        (overlaps l.line 64 va n || overlaps (l.line + 2 ^ 64) 64 va n)) }

/-- The die of a translation cache. -/
def TlbSite.die : TlbSite → Nat
  | .core c => dieOfCore c
  | .cluster d _ => d
  | .walker d => d

/-- Whether a cached entry is one that an invalidation of an identifier on a die removes: those that cover the address, or all. -/
def TlbEntry.removedBy (t : TlbEntry) (asid : Nat) (va : Option Nat) (d : Nat) : Bool :=
  t.site.die == d && t.asid == asid && (match va with
    | some a => t.covers asid a
    | none => true)

/-- Remove the translations of an identifier on one die that cover an address, or all of them. The lines of the identifier
go with them: a line may be dropped at any time, and the pages of removed entries may no longer be known (R339, R86). -/
def removeTranslations (asid : Nat) (va : Option Nat) (d : Nat) (s : State) : State :=
  { s with
    tlb := s.tlb.filter fun t => !t.removedBy asid va d
    icache := s.icache.filter fun l => !(dieOfCore l.core == d && l.asid == asid) }

/-- The dies in the scope of an invalidation (R339, R343). -/
def scopeMask (s : State) (pkg : Bool) : Nat := if pkg then s.svc.dies.toNat else 2 ^ s.hart.place.die

/-- Perform a removal on each die of a mask. -/
def onDies (remove : Nat → State → State) (mask : Nat) (s : State) : State := (diesOf mask).foldl (fun s d => remove d s) s

/-! ### Accesses that a removed entry has translated (R339) -/

/-- An access that a strand's pending wait has translated and not performed: its virtual address, the size of its page, and the die
(R231, R241). -/
def Strand.waitingPage (h : Strand) : Option (Nat × Nat × Nat) :=
  match h.wait with
  | none => none
  | some w =>
    let page := ((w.due.head?.map (·.1)).getD (2 ^ 64), h.place.die)
    match w.instr with
    | .scalarLoad _ imm rs1 _ => some ((h.rx rs1 + imm.signExtend 64).toNat, page)
    | .ldaq _ rs1 _ => some ((h.rx rs1).toNat, page)
    | .strl _ _ rs1 => some ((h.rx rs1).toNat, page)
    | _ => none

/-- The accesses that a strand has translated and not performed, its held stores and what it waits on: each with its virtual
address, the size of the page that translated it, and the die. -/
def Strand.translatedPages (h : Strand) : List (Nat × Nat × Nat) :=
  ((h.strip.buffer.filter fun e => !e.slice).map fun e => (e.va, e.span, e.die)) ++ h.waitingPage.toList

/-- Whether a strand has translated an access of the identifier, in a page for which the test holds, and not performed it. -/
def Strand.translates (h : Strand) (asid : Nat) (page : Nat × Nat × Nat → Bool) : Bool :=
  h.asid == asid && (h.status == .running || h.status == .saving || h.status == .saved) && h.translatedPages.any page

/-- Whether a translated access was translated on a die, or on one that is not known. -/
def onDie (d : Nat) (p : Nat × Nat × Nat) : Bool := p.2.2 == d || decide (8 ≤ p.2.2)

/-- Whether another strand has translated such an access on a die, which it may have left since. -/
def translatesOn (s : State) (asid d : Nat) (page : Nat × Nat × Nat → Bool) : Bool :=
  s.parked.any fun h => h.translates asid fun p => onDie d p && page p

/-- Whether the page of an access, or what a table pointer that led to it serves, covers the address that a tlbinv names, if it names one: the entry that translated the access is
then one that it removes (R339). -/
def pageRemoved (names : List (Nat × Nat × Cls)) (p : Nat × Nat × Nat) : Bool :=
  names.all fun a => p.1 / p.2.1 == a.1 / p.2.1

/-- How icinv and tlbinv wait: the token holds the dies done in its low byte and the dies of the scope above it. A die may
take longer, as the oracle says; what has started completes, and a die that has left service is done (R340). -/
def invalidateOps (remove : Nat → State → State) (busy : State → List (Nat × Nat × Cls) → Nat → Bool) (deadline : Word)
    (rd : BitVec 5) : WaitOps where
  attempt := do
    let t ← getWait 0 (·.token)
    let scope := t / 256
    let dies := (← get).svc.dies
    let rest := (diesOf scope).filter fun d => !(t % 256).testBit d && bit dies d
    let c ← takeChoice
    let removed := match c, rest with
      | .held, d :: _ :: _ => [d]
      | .held, _ => []
      | _, _ => rest
    modify (onDies remove (maskOf removed))
    let due ← getWait [] (·.due)
    let s ← get
    let done := removed.filter fun d => !busy s due d
    modWait fun w => { w with token := t ||| maskOf done }
    if rest.all done.contains then
      writeX rd (status 0 scope)
      return true
    else return false
  withdraw := do
    let t ← getWait 0 (·.token)
    modify (onDies remove (t / 256))
  expired := do
    let t ← getWait 0 (·.token)
    let dies := (← get).svc.dies
    writeX rd (status 5 (t % 256 ||| maskOf ((diesOf (t / 256)).filter fun d => !bit dies d)))
  deadline := pure deadline

/-- How icinv waits (R343), with the operands captured at issue. -/
def icinvOps (rs2 rs1 rd : BitVec 5) (deadline : Word) : WaitOps :=
  invalidateOps (fun d s => removeText s.hart.asid (s.hart.rx rs1).toNat (s.hart.rx rs2).toNat d s) (fun _ _ _ => false) deadline rd

/-- icinv (R343). -/
def execIcinv (pkg : Bool) (rs2 rs1 rd : BitVec 5) (s : State) : Host.Outcome State Fault Refusal :=
  runInstr (.icinv pkg rs2 rs1 rd) (do
    let h ← getH
    let d := h.rx rd
    if !canonical (h.rx rs1).toNat || decide (2 ^ 48 < (h.rx rs2).toNat) then writeX rd (status 7 1)
    else do
      endRewind
      startWait (.icinv pkg rs2 rs1 rd) d (256 * scopeMask (← get) pkg) (icinvOps rs2 rs1 rd d)) s

/-- The address that tlbinv names, none for every one. -/
def tlbinvVa (h : Strand) (rs1 : BitVec 5) : Option Nat := if rs1 = 0#5 then none else some (h.rx rs1).toNat

/-- How tlbinv waits (R339); beside the token stands the address that it names. -/
def tlbinvOps (rs1 rd : BitVec 5) (deadline : Word) : WaitOps :=
  invalidateOps (fun d s => removeTranslations s.hart.asid (tlbinvVa s.hart rs1) d s)
    (fun s due d => translatesOn s s.hart.asid d (pageRemoved due)) deadline rd

/-- tlbinv (R339). -/
def execTlbinv (pkg : Bool) (rs2 rs1 rd : BitVec 5) (s : State) : Host.Outcome State Fault Refusal :=
  runInstr (.tlbinv pkg rs2 rs1 rd) (do
    let h ← getH
    if h.mode = .user then illegal
    let d := h.rx rd
    if rs2 ≠ 0#5 ∧ (h.rx rs2).toNat ≠ h.asid then writeX rd (status 7 2)
    else if rs1 ≠ 0#5 ∧ canonical (h.rx rs1).toNat = false then writeX rd (status 7 1)
    else do
      endRewind
      let s ← get
      let names := (tlbinvVa s.hart rs1).toList.map fun a => (a, 0, 0#6)
      startWaitOn (.tlbinv pkg rs2 rs1 rd) d (256 * scopeMask s pkg) names (tlbinvOps rs1 rd d)) s

end Sys2Proof.Machine
end

