-- ==== Sys2Proof/Machine/Area.lean ====
section
/-!
DEFINITION. The layout of the context area and the claim image (R285): a strand as the parts that each holds, and those
parts put back into a strand (R278, R286).
-/
namespace Sys2Proof.Machine

/-! ### Parts as bytes -/

/-- Numbers of w bits each as one number, the first lowest. -/
def packNums (w : Nat) (xs : List Nat) : Nat := xs.foldr (fun x n => x % 2 ^ w + 2 ^ w * n) 0

/-- The width that a register's elements have in the area. -/
def areaWidth (t : ETag) : Nat := if t = .none then 8 else t.width

/-- A vector register in element order (R285). -/
def Strand.vBytes (h : Strand) (r : BitVec 5) : List Byte :=
  let w := areaWidth (h.tag r)
  toBytes (32 * h.lown) (packNums w ((rangeFrom 0 (h.lown * 256 / w)).map (h.elem r w)))

/-- A queue's elements and marks. -/
def Queue.bytes (q : Queue) : List Byte := toBytes 8192 (packNums q.tag.width (q.elems.map fun e => e.1.toNat))

/-- The end-of-run marks of a queue. -/
def Queue.markBytes (q : Queue) : List Byte := toBytes 2048 (packNums 1 (q.elems.map fun e => e.2.toNat))

/-- Eight-byte words. -/
def words (ws : List Nat) : List Byte := ws.flatMap (toBytes 8)

/-- Bytes of a mask of MLEN bits. -/
def maskBytes (h : Strand) (k : BitVec 16384) : List Byte := toBytes 2048 (k.toNat % 2 ^ h.mlen)

/-- The parts that claim and a save share, by offset (R278, R285). -/
def sharedParts (h : Strand) : List (Nat × List Byte) :=
  [(0x300, h.ea.toList.flatMap Acc.image),
   (0xA00, toBytes 16 (packNums 4 (h.vtag.toList.map ETag.code))),
   (0xA10, words (h.tshape.toList.map fun t => t.word.toNat)),
   (0xA50, words (h.q.toList.flatMap fun q => [q.elems.length + 65536 * q.tag.code, 0])),
   (0x1000, (rangeFrom 0 4).flatMap h.image),
   (0xB000, h.q.toList.flatMap Queue.bytes),
   (0x1B000, h.q.toList.flatMap Queue.markBytes),
   (0x1F000, maskBytes h h.emask),
   (0x20000, (h.k.toList.drop 1).flatMap (maskBytes h)),
   (0x24000, h.m.toList.flatMap fun t => toBytes 32768 t.toNat),
   (0x64000, (rangeFrom 0 32).flatMap fun r => padTo 8192 (h.vBytes (BitVec.ofNat 5 r)))]

/-- vl, vwid without the placement's Lown, vsta, ecls. -/
def shapeWords (h : Strand) : List Nat := [h.vl, h.wid + 128 * h.rgf.toNat, h.vsta, h.cls + 16 * h.rm]

/-- The parts of a claim image (R278). -/
def claimParts (h : Strand) : List (Nat × List Byte) := (0x140, words (shapeWords h)) :: sharedParts h

/-- The flags word of a context area. -/
def flagsWord (h : Strand) : Nat :=
  let b (x : Bool) (i : Nat) : Nat := x.toNat * 2 ^ i
  b (h.mode == .supervisor) 0 + b h.claimed 1 + b h.wait.isSome 2 + b h.strip.rewindable 3 + b h.strip.checkpoint.isSome 4 +
  b h.sliced 5 + packNums 1 (h.hits.toList.map fun x => x.isSome.toNat) * 2 ^ 6 +
  packNums 1 (h.cuts.toList.map fun x => x.isSome.toNat) * 2 ^ 10 + b h.step.isSome 14 + b (h.strip.rewinds != 0) 15

/-- A held store of the strip store buffer in 16 bytes. -/
def Held.bytes (e : Held) : List Byte :=
  toBytes 8 e.addr ++ toBytes 4 e.data.toNat ++ toBytes 4 (e.en.toNat + 256 * e.slice.toNat)

/-- A later store laid over an earlier one of the same word. -/
def Held.under (f e : Held) : Held :=
  { f with data := BitVec.ofNat 32 (ofBytes ((rangeFrom 0 4).map fun i => e.lay i (BitVec.ofNat 8 (f.data.toNat / 2 ^ (8 * i)))))
           en := f.en ||| e.en, cont := false }

/-- The words of the strip store buffer, each once, with what the stores to it hold together (R280). -/
def mergeHeld (buf : List Held) : List Held :=
  buf.foldl (fun ws e => if ws.any fun f => f.slice == e.slice && f.addr == e.addr
    then ws.map fun f => if f.slice = e.slice ∧ f.addr = e.addr then f.under e else f
    else ws ++ [{ e with cont := false }]) []

/-- The x registers of a checkpoint, zero where stripmask is clear. -/
def Checkpoint.words (c : Checkpoint) : List Nat :=
  c.pc.toNat :: (rangeFrom 1 31).map fun i => if c.xmask.getLsbD i then (nth c.x.toList i 0#64).toNat else 0

/-- Whether a pending wait is one of vwait, which keeps the set of its met elements (R239). -/
def PendingWait.isVwait (w : PendingWait) : Bool :=
  match w.instr with
  | .vwait _ _ _ _ _ => true
  | _ => false

/-- A set of elements as a mask. -/
def bitsOf (es : List Nat) : BitVec 16384 := es.foldl (fun k e => k ||| BitVec.ofNat 16384 (2 ^ e)) 0#16384

/-- The parts of a pending wait: instruction bits, expiry, clamp flag, the rd value read at issue. -/
def waitWords (w : PendingWait) : List Nat := [(instrBits w.instr).toNat, w.expiry, w.clamped.toNat, w.rdVal.toNat]

/-- The parts of a context area that a claim image leaves zero, but for the lane slices (R285). -/
def ownParts (h : Strand) (seq : Nat) : List (Nat × List Byte) :=
  let c := h.csr
  let nats (ws : List Word) : List Byte := words (ws.map BitVec.toNat)
  [(0, words ([1 + 65536 * h.lown, seq, flagsWord h, (mergeHeld h.strip.buffer).length] ++ h.hits.toList.map fun x => (x.getD 0#64).toNat)),
   (0x40, nats (h.pc :: h.x.toList.drop 1)),
   (0x140, words (shapeWords h ++ [h.stripmask.toNat, h.wdef.toNat, h.wceil])),
   (0x180, words (h.estep.toNat :: h.wpt.toList.map BitVec.toNat)),
   (0x1C0, nats [c.sstatus, 0#64, 0#64, c.stvec, c.sscratch, c.sepc, c.scause, c.stval, c.scounteren.zeroExtend 64, c.senvcfg]),
   (0x240, nats (h.tl.toList.flatMap fun t => [t.issued, t.completed])),
   (0x2C0, words ((h.wait.map waitWords).getD [])),
   (0x600, words ((h.strip.checkpoint.map Checkpoint.words).getD [])),
   (0x700, (h.strip.checkpoint.map fun c => c.ea.toList.flatMap Acc.image).getD []),
   (0x1F800, (h.strip.checkpoint.map fun c => maskBytes h c.emask).getD []),
   (0x23800, ((h.wait.filter PendingWait.isVwait).map fun w => maskBytes h (bitsOf w.met)).getD []),
   (0xA4000, (mergeHeld h.strip.buffer).flatMap Held.bytes)]

/-- The offsets of the words of a claim image that hold an uncorrectable word of the claimed parts (R285, R286). -/
def claimSpots (h : Strand) (b : BadWord) : List Nat :=
  let word (o : Nat) : Nat := o / 8 * 8
  if b.src = 1 then
    let w := areaWidth (h.vtag.toList[b.idx]?.getD .none)
    ((rangeFrom 0 (h.lown * 256 / w)).filter fun e => (wordsAt (elemOff h.lown w e) w).contains b.off).foldl
      (fun os e => setAdd (word (0x64000 + 8192 * b.idx + w * e / 8)) os) []
  else if b.src = 2 then [word ((if b.idx = 0 then 0x1F000 else 0x20000 + 2048 * (b.idx - 1)) + 4 * b.off)]
  else if b.src = 3 then [word (0x24000 + 32768 * b.idx + 4 * b.off)]
  else if b.src = 4 then [word (0xB000 + 8192 * b.idx + (h.q.toList[b.idx]?.getD .empty).tag.width * b.off / 8)]
  else (rangeFrom 0 12).map fun i => 0x300 + 96 * b.idx + 8 * i

/-- Bytes of a claim image, and of the context area before the lane slices. -/
def claimBytes : Nat := 0xA4000
/-- Offset of the lane slices. -/
def sliceOffset0 : Nat := 0xE4000
/-- Bytes of a context area. -/
def areaBytes : Nat := sliceOffset0 + 12582912

/-- Lay parts of rising offsets out from an offset on, with zeros between them. -/
def layOut : Nat → List (Nat × List Byte) → List Byte
  | _, [] => []
  | at_, (o, bs) :: rest => List.replicate (o - at_) 0#8 ++ bs ++ layOut (o + bs.length) rest

/-- Insert a part by its offset. -/
def putPart (p : Nat × List Byte) : List (Nat × List Byte) → List (Nat × List Byte)
  | [] => [p]
  | q :: qs => if p.1 < q.1 then p :: q :: qs else q :: putPart p qs

/-- The whole claim image. -/
def claimImage (h : Strand) : List Byte := padTo claimBytes (layOut 0 (claimParts h))

/-- The context area of a strand before its lane slices. -/
def areaImage (h : Strand) (seq : Nat) : List Byte :=
  padTo sliceOffset0 ((layOut 0 ((ownParts h seq).foldr putPart (sharedParts h))).take sliceOffset0)

/-- Write a context area at a physical address, its lane slices with it; what stood there goes (R284, R286). DESIGN CHOICE (log 13): of
R286's two ways for the slices, every save copies them into the area, and every restore reads them back. -/
def writeArea (base : Nat) (h : Strand) (seq : Nat) (s : State) : State :=
  let kept := h.slices.filter fun c => decide (c.1 < areaBytes - sliceOffset0)
  let cells := cellsOf base (areaImage h seq) ++ kept.foldl (fun m c => Memory.put (base + sliceOffset0 + c.1) c.2 m) []
  let s := { s with
    mem := s.mem.splice base areaBytes cells
    poison := s.poison.filter fun w => !overlaps w 8 base areaBytes
    live := (rangeFrom (base / 2 ^ 21) ((base + areaBytes - 1) / 2 ^ 21 + 1 - base / 2 ^ 21)).foldl (fun l r => setAdd r l) s.live }
  let s := clearLinks s base areaBytes
  { s with hart := s.hart.watchWrite s .shutter base areaBytes, parked := s.parked.map fun k => k.watchWrite s .shutter base areaBytes }

/-! ### Parts put back -/

/-- Consecutive pieces of n bytes. -/
def pieces (n : Nat) : Nat → List Byte → List (List Byte)
  | 0, _ => []
  | k + 1, bs => bs.take n :: pieces n k (bs.drop n)

/-- Put numbers into the elements of a register. -/
def unpackReg (lown w : Nat) (v : Nat) : BitVec 65536 :=
  BitVec.ofNat 65536 ((rangeFrom 0 (lown * 256 / w)).foldl (fun n e => n + (v / 2 ^ (w * e) % 2 ^ w) * 2 ^ elemOff lown w e) 0)

/-- A vector of which each entry comes from a piece of bytes by position. -/
def vecOf (n : Nat) (f : Nat → α) : Vector α n := Vector.ofFn fun i => f i.1

/-- A queue of its word, contents and marks. -/
def queueOf (w : Nat) (body marks : List Byte) : Queue :=
  let t := ETag.ofCode (w / 65536 % 16)
  let v := ofBytes body
  let m := ofBytes marks
  ⟨(rangeFrom 0 (w % 65536)).map fun i => (BitVec.ofNat 64 (v / 2 ^ (t.width * i) % 2 ^ t.width), m.testBit i), t⟩

/-- A tile shape of its word (R83). -/
def shapeOf (w : Nat) : TShape := ⟨w % 256, w / 256 % 2 ^ 9, ETag.ofCode (w / 2 ^ 20 % 16)⟩

/-- The rounding mode that an image's ecls word gives a strand that holds old: a reserved code leaves it unchanged. DESIGN CHOICE
(log 13): R278 does not count a reserved code as a reserved field, and R30 says this of a CSR write only. -/
def rmOfWord (old w : Nat) : Nat := if w / 16 % 8 < 5 then w / 16 % 8 else old

/-- The shared parts of an image put back into a strand, but for its chains. DESIGN CHOICE (log 13): the reserved cls code 7 is held as 7,
which records no class. -/
def Strand.fromShared (h : Strand) (bs : List Byte) : Strand :=
  let at_ (o n : Nat) : List Byte := (bs.drop o).take n
  let num (o n : Nat) : Nat := ofBytes (at_ o n)
  let tags : Vector ETag 32 := vecOf 32 fun i => ETag.ofCode (num 0xA00 16 / 16 ^ i % 16)
  { h with
    vl := num 0x140 8 % 2 ^ 15, wid := num 0x148 8 % 128, rgf := (num 0x148 8).testBit 7, vsta := num 0x150 8 % 2 ^ 15
    cls := num 0x158 8 % 8, rm := rmOfWord h.rm (num 0x158 8)
    ea := vecOf 8 fun i => (Acc.ofImage (at_ (0x300 + 96 * i) 96)).getD .clear
    vtag := tags
    tshape := vecOf 8 fun i => shapeOf (num (0xA10 + 8 * i) 8)
    q := vecOf 8 fun i => queueOf (num (0xA50 + 16 * i) 8) (at_ (0xB000 + 8192 * i) 8192) (at_ (0x1B000 + 2048 * i) 2048)
    emask := BitVec.ofNat 16384 (num 0x1F000 2048)
    k := vecOf 8 fun i => if i = 0 then nth h.k.toList 0 0#16384 else BitVec.ofNat 16384 (num (0x20000 + 2048 * (i - 1)) 2048)
    m := vecOf 8 fun i => BitVec.ofNat 262144 (num (0x24000 + 32768 * i) 32768)
    v := vecOf 32 fun i => unpackReg h.lown (areaWidth (tags.toList[i]?.getD .none)) (num (0x64000 + 8192 * i) (32 * h.lown)) }

/-- A held store of its 16 bytes. The area holds no virtual address: the store counts as one of every page and
die (R339). -/
def heldFrom (bs : List Byte) : Held :=
  { slice := (sub bs 12 4).testBit 8, va := 0, span := 2 ^ 64, die := 8, addr := sub bs 0 8, data := BitVec.ofNat 32 (sub bs 8 4),
    en := BitVec.ofNat 8 (sub bs 12 4), cont := false }

/-- A checkpoint put back; stripmask at its vshape is not in the area and stays as the Shutter kept it. -/
def Checkpoint.fromArea (c : Checkpoint) (bs : List Byte) : Checkpoint :=
  { c with
    pc := BitVec.ofNat 64 (sub bs 0x600 8)
    x := vecOf 32 fun i => if i = 0 then 0#64 else BitVec.ofNat 64 (sub bs (0x600 + 8 * i) 8)
    emask := BitVec.ofNat 16384 (sub bs 0x1F800 2048)
    ea := vecOf 8 fun i => (Acc.ofImage ((bs.drop (0x700 + 96 * i)).take 96)).getD .clear }

/-- A pending wait put back. -/
def PendingWait.fromArea (w : PendingWait) (bs : List Byte) : PendingWait :=
  { w with
    instr := match decode (leBytes 4 (sub bs 0x2C0 8)) with
      | .ok (i, _) => i
      | .error _ => w.instr
    expiry := sub bs 0x2C8 8, clamped := (sub bs 0x2D0 8).testBit 0, rdVal := BitVec.ofNat 64 (sub bs 0x2D8 8)
    met := if w.isVwait then (rangeFrom 0 16384).filter (sub bs 0x23800 2048).testBit else w.met }

/-- The parts of a context area that a claim image has not, put back into the strand that the Shutter kept. DESIGN CHOICE (log 34): src-3
hits recorded while the strand stood saved are replaced by the area's (R287). -/
def Strand.fromOwn (h : Strand) (bs : List Byte) : Strand :=
  let num (o : Nat) : Nat := sub bs o 8
  let word (o : Nat) : Word := BitVec.ofNat 64 (num o)
  let flags := num 0x10
  let heldBytes := (bs.drop 0xA4000).take (16 * num 0x18)
  { h with
    mode := if flags.testBit 0 then .supervisor else .user
    claimed := flags.testBit 1
    sliced := flags.testBit 5
    wait := if flags.testBit 2 then h.wait.map fun w => w.fromArea bs else none
    strip := { h.strip with
      rewindable := flags.testBit 3
      rewinds := if flags.testBit 15 then max 1 h.strip.rewinds else 0
      checkpoint := if flags.testBit 4 then h.strip.checkpoint.map fun c => c.fromArea bs else none
      buffer := if (mergeHeld h.strip.buffer).flatMap Held.bytes = heldBytes then h.strip.buffer
        else (pieces 16 (num 0x18) heldBytes).map heldFrom }
    hits := vecOf 4 fun i => if flags.testBit (6 + i) then some (word (0x20 + 8 * i)) else none
    cuts := vecOf 4 fun i => if flags.testBit (10 + i) then h.cuts.toList[i]?.getD none else none
    step := if flags.testBit 14 then h.step else none
    pc := word 0x40
    x := vecOf 32 fun i => if i = 0 then 0#64 else word (0x40 + 8 * i)
    stripmask := (word 0x160).truncate 32, wdef := word 0x168, wceil := min (num 0x170) (2 ^ 40)
    estep := (num 0x180).testBit 0
    wpt := vecOf 4 fun i => word (0x188 + 8 * i)
    csr := { h.csr with
      sstatus := word 0x1C0, stvec := word 0x1D8, sscratch := word 0x1E0, sepc := word 0x1E8, scause := word 0x1F0,
      stval := word 0x1F8, scounteren := (word 0x200).truncate 32, senvcfg := word 0x208 }
    tl := vecOf 4 fun i =>
      let t := h.tl.toList[i]?.getD .start
      -- commands that ended while the strand was saved have moved the count on (R315)
      { t with issued := word (0x240 + 16 * i)
               completed := if (word (0x248 + 16 * i)).toNat ≤ t.completed.toNat then t.completed else word (0x248 + 16 * i) } }

/-- The 4 KiB blocks of an area that neither copy reads without an uncorrectable error (R286). -/
def lostBlocks (s : State) (a b n : Nat) : Bool :=
  (rangeFrom 0 ((n + 4095) / 4096)).any fun i => readsBad s (a + 4096 * i) 4096 && readsBad s (b + 4096 * i) 4096

/-- What the reading of an area marks suspect: the poisoned words of the first copy, and of the blocks of the second one that are read
in place of a bad one (R286, R355). -/
def areaSuspects (a b : Nat) (s : State) : State :=
  s.poison.foldl (fun s w =>
    if overlaps w 8 a areaBytes || (overlaps w 8 b areaBytes && readsBad s (a + (w - b) / 4096 * 4096) 4096) then suspectRead w 8 s
    else s) s

/-- The bytes of a context area before the lane slices, each block from a copy that reads good. -/
def readArea (s : State) (a b : Nat) : List Byte :=
  (rangeFrom 0 (sliceOffset0 / 4096)).flatMap fun i =>
    s.mem.bulk ((if readsBad s (a + 4096 * i) 4096 then b else a) + 4096 * i) 4096

/-- The lane slices of a context area. -/
def readSlices (s : State) (a b : Nat) : List Host.Cell :=
  (s.mem.filterMap fun c =>
    let from_ (base : Nat) : Option Host.Cell :=
      if base + sliceOffset0 ≤ c.1 ∧ c.1 < base + areaBytes then some (c.1 - base - sliceOffset0, c.2) else none
    match from_ a with
    | some x => if readsBad s (a + (x.1 + sliceOffset0) / 4096 * 4096) 4096 then none else some x
    | none => match from_ b with
      | some x => if readsBad s (a + (x.1 + sliceOffset0) / 4096 * 4096) 4096 then some x else none
      | none => none).foldl (fun l c => Memory.put c.1 c.2 l) []

end Sys2Proof.Machine
end

