-- ==== Sys2Proof/Machine/Fetch.lean ====
section
/-!
DEFINITION. The fetch of an instruction (R78, R86, R263), and the placement of an instruction where the next step fetches it.
-/
namespace Sys2Proof.Machine

/-- Whether an instruction of the table is a step of another agent or of the device, not an instruction word. -/
def isEvent : Instr → Bool
  | .registerWrite (.csr _ _ _ _) => false
  | .registerWrite _ => true
  | .encodingThatSelectsNothing _ => false
  | .strandEnd | .asyncEventTake => true
  | i => (encodeWord i).isNone

/-- Two bytes of text as fetched now by the running strand (R342), from a held line or its home, or a stop. The permission of the
page is checked in both (R334); control space gives no text (R367). -/
def fetchLine (va : Nat) : M (List Byte) := do
  let c ← takeChoice
  let s ← get
  let h := s.hart
  let core := coreNo h.place
  let (pa, _) ← translateH .fetch va
  if ctlBase ≤ pa then raise 1 (BitVec.ofNat 64 va)
  match (if c = .held then s.icache.find? fun l => l.core == core && l.asid == h.asid && l.line == va / 64 * 64 else none) with
  | some l => return (rangeFrom 0 2).map fun i => nth l.bytes (va % 64 + i) 0#8
  | none => do
    let s ← get
    if readsBad s pa 2 then
      set (suspectRead pa 2 s)
      throw (.ue (BitVec.ofNat 64 va) none)
    if c = .fill ∧ readsBad s (pa / 64 * 64) 64 = false then
      modify fun s => { s with icache := (⟨core, h.asid, va / 64 * 64, homeBytes s (pa / 64 * 64) 64⟩ : CacheLine) ::
        (s.icache.filter fun l => !(l.core == core && l.asid == h.asid && l.line == va / 64 * 64)) }
    return homeBytes s pa 2

/-- Fetch the instruction at the pc in its 2-byte parts and set the address after it (R78). -/
def fetchInstr : M Instr := do
  let h ← getH
  let pc := h.pc.toNat
  let lo ← fetchLine pc
  let bs ← if ofBytes lo % 4 = 3 then do
      let hi ← fetchLine ((pc + 2) % 2 ^ 64)
      pure (lo ++ hi)
    else pure lo
  modH fun h => { h with npc := h.pc + BitVec.ofNat 64 bs.length }
  match decode bs with
  | .ok (i, _) => return i
  | .error _ => return .encodingThatSelectsNothing (BitVec.ofNat 32 (ofBytes bs))

/-- Whether an asynchronous event of R275 is pending. -/
def hasPending (h : Strand) : Bool :=
  h.cuts.toList.any (·.isSome) || h.hits.toList.any (·.isSome) || h.step.isSome

/-- Put another strand in the running strand's place (log 1). -/
def swapTo (sid : Nat) (s : State) : Option State :=
  if s.hart.sid = sid then some s
  else match s.parked.find? fun h => h.sid == sid with
    | some h =>
      let rest := s.parked.filter fun k => k.sid != sid
      some { s with hart := h, parked := if s.hart.status = .unplaced then rest else rest ++ [s.hart] }
    | none => none

/-- Ticks from one turn of the other agents to the next (log 1). -/
def turnEvery : Nat := 32

/-- Whether a tick is a turn of the other agents. -/
def turnDue (now : Nat) : Bool := now % turnEvery == 0

/-- Physical addresses of the tables and of the text page that placeWord sets up, one page each from here. -/
def setupBase : Nat := 0x10000

/-- A page-table entry of 8 bytes at an address. -/
def putEntry (a e : Nat) (m : Memory) : Memory := m.putBytes a (toBytes 8 e)

/-- The package with a user-mode strand of eight lane groups placed on core 0 as its Shutter would (R383, R88), one page
of text at virtual address 0x10000, and every die and stack ready (log 4). -/
def placedForFetch (s : State) : State :=
  let b := setupBase
  let m := putEntry b (b + 0x1000 + 0x41) <| putEntry (b + 0x1000) (b + 0x2000 + 0x41) <|
    putEntry (b + 0x2000) (b + 0x3000 + 0x41) <| putEntry (b + 0x3000) (b + 0x4000 + 0x41) <|
    putEntry (b + 0x4000 + 8 * 16) (b + 0x5000 + 0x1B) s.mem
  { s with
    hart := { Strand.start with sid := s.nextId, nstr := 1, status := .running, lown := 256, root := b, pc := 0x10000#64 }
    parked := if s.hart.status = .unplaced then s.parked else s.hart :: s.parked
    agenda := []
    now := if turnDue (s.now + Config.tick) then s.now + 1 else s.now
    nextId := s.nextId + 1
    mem := m
    live := setAdd (regionOf b) s.live
    cores := ⟨0, 0, 0, 8, 0, 0xFF#8, 0#8, false, 0#8, Vector.replicate 8 0#5, []⟩ :: s.cores.filter fun c => !(c.die == 0 && c.cluster == 0 && c.core == 0)
    svc := { s.svc with boot := .full, controller := true, fixer := true, dies := 0xFF#8, hbmStacks := 0xFFFF#16,
                        half := false, calibrated := true } }

/-- Whether the next step fetches an instruction at the running strand's pc. -/
def fetches (s : State) : Bool :=
  s.agenda == [] && !turnDue (s.now + Config.tick) && s.choices == [] && decide (s.svc.boot ≠ .failed) && s.hart.status == .running && s.hart.wait.isNone &&
    !(s.hart.mode == .user && hasPending s.hart) && s.hart.pc != 0#64 &&
    (match translate s s.hart.root (s.hart.mode == .user) .fetch s.hart.pc.toNat with
      | .ok r => s.hart.pc.toNat % 4096 ≤ 4092 && !readsBad s r.1 4
      | .error _ => false)

/-- The bytes of a word of nbits bits, the bits above it zero, stored at the pc's location. -/
def storeAtPc (s : State) (nbits w : Nat) : State :=
  match translate s s.hart.root (s.hart.mode == .user) .fetch s.hart.pc.toNat with
  | .ok r => { s with mem := s.mem.putBytes r.1 (leBytes 4 (w % 2 ^ nbits)) }
  | .error _ => s

/-- An instruction stored where the next step fetches; where the next step fetches none, a strand is placed first. -/
def placeWord (s : State) (nbits w : Nat) : State :=
  if fetches s then storeAtPc s nbits w else storeAtPc (placedForFetch s) nbits w

end Sys2Proof.Machine
end

