-- ==== Sys2Proof/Machine/Scalar.lean ====
section
/-!
DEFINITION. The scalar profile (R78 to R80): RV64I, M, A, C, Zba, Zbb and Zicsr with the changes of R79; the CSRs of R80 to
R85 as instructions read and write them.
-/
namespace Sys2Proof.Machine

/-! ### Integer operations of the standard profile (R78) -/

/-- A 32-bit result sign-extended. -/
def sext32 (v : BitVec 32) : Word := v.signExtend 64

/-- The low 32 bits of a word. -/
def lo32 (a : Word) : BitVec 32 := a.truncate 32

/-- Signed division of the base rules: by zero −1, overflow wraps. -/
def divS (a b : BitVec w) : BitVec w := if b = 0#w then BitVec.allOnes w else BitVec.ofInt w (Int.tdiv a.toInt b.toInt)

/-- Unsigned division of the base rules: by zero all ones. -/
def divU (a b : BitVec w) : BitVec w := if b = 0#w then BitVec.allOnes w else a / b

/-- Signed remainder of the base rules: by zero the dividend. -/
def remS (a b : BitVec w) : BitVec w := if b = 0#w then a else BitVec.ofInt w (Int.tmod a.toInt b.toInt)

/-- Unsigned remainder of the base rules: by zero the dividend. -/
def remU (a b : BitVec w) : BitVec w := if b = 0#w then a else a % b

/-- 1 when a condition holds, else 0. -/
def flagWord (b : Bool) : Word := if b then 1#64 else 0#64

/-- Register-register operations (R78). -/
def aluOp (op : AluOp) (a b : Word) : Word :=
  let sh := b.toNat % 64
  let uw := (lo32 a).zeroExtend 64
  match op with
  | .add => a + b
  | .sub => a - b
  | .sll => a <<< sh
  | .slt => flagWord (a.slt b)
  | .sltu => flagWord (a.ult b)
  | .xor => a ^^^ b
  | .srl => a >>> sh
  | .sra => a.sshiftRight sh
  | .or => a ||| b
  | .and => a &&& b
  | .mul => a * b
  | .mulh => BitVec.ofInt 64 (a.toInt * b.toInt / 2 ^ 64)
  | .mulhsu => BitVec.ofInt 64 (a.toInt * b.toNat / 2 ^ 64)
  | .mulhu => BitVec.ofNat 64 (a.toNat * b.toNat / 2 ^ 64)
  | .div => divS a b
  | .divu => divU a b
  | .rem => remS a b
  | .remu => remU a b
  | .sh1add => (a <<< 1) + b
  | .sh2add => (a <<< 2) + b
  | .sh3add => (a <<< 3) + b
  | .addUw => uw + b
  | .sh1addUw => (uw <<< 1) + b
  | .sh2addUw => (uw <<< 2) + b
  | .sh3addUw => (uw <<< 3) + b
  | .andn => a &&& ~~~b
  | .orn => a ||| ~~~b
  | .xnor => ~~~(a ^^^ b)
  | .min => if a.slt b then a else b
  | .minu => if a.ult b then a else b
  | .max => if a.slt b then b else a
  | .maxu => if a.ult b then b else a
  | .rol => a.rotateLeft sh
  | .ror => a.rotateRight sh

/-- 32-bit register-register operations (R78). -/
def aluWOp (op : AluWOp) (a b : BitVec 32) : BitVec 32 :=
  let sh := b.toNat % 32
  match op with
  | .addw => a + b
  | .subw => a - b
  | .sllw => a <<< sh
  | .srlw => a >>> sh
  | .sraw => a.sshiftRight sh
  | .mulw => a * b
  | .divw => divS a b
  | .divuw => divU a b
  | .remw => remS a b
  | .remuw => remU a b
  | .rolw => a.rotateLeft sh
  | .rorw => a.rotateRight sh

/-- Trailing zero bits among the low n bits from bit i up. -/
def trailingZeros (p : Nat) : Nat → Nat → Nat
  | 0, _ => 0
  | n + 1, i => if p.testBit i then 0 else trailingZeros p n (i + 1) + 1

/-- One-source operations of Zbb. -/
def unaryOp (op : UnaryOp) (a : Word) : Word :=
  let w := a.toNat % 2 ^ 32
  let byte (i : Nat) : Nat := a.toNat / 256 ^ i % 256
  match op with
  | .clz => BitVec.ofNat 64 (64 - bitLen a.toNat)
  | .ctz => BitVec.ofNat 64 (trailingZeros a.toNat 64 0)
  | .cpop => BitVec.ofNat 64 (popCount a.toNat 64)
  | .clzw => BitVec.ofNat 64 (32 - bitLen w)
  | .ctzw => BitVec.ofNat 64 (trailingZeros w 32 0)
  | .cpopw => BitVec.ofNat 64 (popCount w 32)
  | .sextB => (a.truncate 8).signExtend 64
  | .sextH => (a.truncate 16).signExtend 64
  | .zextH => (a.truncate 16).zeroExtend 64
  | .orcB => BitVec.ofNat 64 ((rangeFrom 0 8).foldl (fun n i => n + (if byte i = 0 then 0 else 255 * 256 ^ i)) 0)
  | .rev8 => BitVec.ofNat 64 ((rangeFrom 0 8).foldl (fun n i => n + byte (7 - i) * 256 ^ i) 0)

/-- Operations with a sign-extended immediate. -/
def immOp (op : ImmOp) (a b : Word) : Word :=
  match op with
  | .addi => a + b
  | .slti => flagWord (a.slt b)
  | .sltiu => flagWord (a.ult b)
  | .xori => a ^^^ b
  | .ori => a ||| b
  | .andi => a &&& b

/-- Shifts by an immediate. -/
def shiftImmOp (op : ShiftOp) (a : Word) (n : Nat) : Word :=
  match op with
  | .slli => a <<< n
  | .srli => a >>> n
  | .srai => a.sshiftRight n
  | .rori => a.rotateRight n
  | .slliUw => ((lo32 a).zeroExtend 64) <<< n

/-- 32-bit shifts by an immediate. -/
def shiftImmWOp (op : ShiftWOp) (a : BitVec 32) (n : Nat) : BitVec 32 :=
  match op with
  | .slliw => a <<< n
  | .srliw => a >>> n
  | .sraiw => a.sshiftRight n
  | .roriw => a.rotateRight n

/-- Conditions of the branches. -/
def branchTaken (op : BranchOp) (a b : Word) : Bool :=
  match op with
  | .beq => a == b
  | .bne => a != b
  | .blt => a.slt b
  | .bge => !a.slt b
  | .bltu => a.ult b
  | .bgeu => !a.ult b

/-! ### CSRs (R80 to R85) -/

/-- What lpart reads (R84): the core's partition. DESIGN CHOICE (log 25): lgen shows at once the lane groups that are left. -/
def lpartWord (s : State) : Word :=
  match findCore s s.hart.place with
  | some c => BitVec.ofNat 64 (c.n0 + 16 * c.n1 + 256 * c.left.toNat)
  | none => 0xFF00#64

/-- The low bits of an emask read (R66). -/
def emaskWord (h : Strand) : Word := h.emask.truncate 64

/-- ecls as a word (R82). -/
def eclsWord (h : Strand) : Word := BitVec.ofNat 64 (h.cls + 16 * h.rm)

/-- A CSR that only reads: a counter of Zicntr, open to user mode as scounteren says (R80). -/
def counterOpen (h : Strand) (i : Nat) : Bool := h.mode == .supervisor || h.csr.scounteren.getLsbD i

/-- Read of a user-mode CSR, none when the address is not one (R81). -/
def userCsr (s : State) (a : Nat) : Option Word :=
  let h := s.hart
  if a = 0x800 then some (BitVec.ofNat 64 h.vsta)
  else if a = 0x801 then some (emaskWord h)
  else if a = 0x802 then some (eclsWord h)
  else if a = 0x803 then some (h.stripmask.zeroExtend 64)
  else if a = 0x804 then some h.wdef
  else if a = 0x805 then some 0#64
  else if a = 0xCC0 then some (BitVec.ofNat 64 h.vl)
  else if a = 0xCC1 then some (BitVec.ofNat 64 (h.wid + 128 * h.rgf.toNat + 256 * h.lown))
  else if a = 0xCC2 then some (BitVec.ofNat 64 (h.idx + 65536 * h.nstr))
  else if a = 0xCC3 then some (BitVec.ofNat 64 (coreBits h.place + 65536 * s.svc.pkg))
  else if a = 0xCC4 then some (lpartWord s)
  else if 0xCD0 ≤ a ∧ a ≤ 0xCDF then
    if (a - 0xCD0) / 8 = h.place.slot then some (h.tshape.get ⟨(a - 0xCD0) % 8, Nat.mod_lt _ (by decide)⟩).word else none
  else if a = 0xC00 then (if counterOpen h 0 then some (Config.freeCount s.free) else none)
  else if a = 0xC01 then (if counterOpen h 1 then some (BitVec.ofNat 64 s.now) else none)
  else if a = 0xC02 then (if counterOpen h 2 then some h.csr.instret else none)
  else none

/-- Read of a supervisor-mode CSR, none when the address is not one (R80, R81). -/
def superCsr (s : State) (a : Nat) : Option Word :=
  let h := s.hart
  let c := h.csr
  if a = 0x100 then some c.sstatus
  else if a = 0x104 ∨ a = 0x144 then some 0#64
  else if a = 0x105 then some c.stvec
  else if a = 0x106 then some (c.scounteren.zeroExtend 64)
  else if a = 0x10A then some c.senvcfg
  else if a = 0x140 then some c.sscratch
  else if a = 0x141 then some c.sepc
  else if a = 0x142 then some c.scause
  else if a = 0x143 then some c.stval
  else if a = 0x5C0 then some (BitVec.ofNat 64 h.wceil)
  else if a = 0x5C1 then some (flagWord h.estep)
  else if 0x5C4 ≤ a ∧ a ≤ 0x5C7 then some (h.wpt.get ⟨(a - 0x5C4) % 4, Nat.mod_lt _ (by decide)⟩)
  else if a = 0xDC0 then some (BitVec.ofNat 64 h.root)
  else if a = 0xDC1 then some (BitVec.ofNat 64 h.asid)
  else none

/-- What an access to a CSR reads, none when it raises Illegal() (R80, R81). -/
def csrValue (s : State) (a : Nat) : Option Word :=
  match userCsr s a with
  | some v => some v
  | none => if s.hart.mode = .supervisor then superCsr s a else none

/-- Read a CSR; a read of cycle uses one free value. -/
def readCsr (a : Nat) : M Word := do
  let s ← get
  match csrValue s a with
  | some v =>
    if a = 0xC00 then set { s with free := s.free + 1 }
    return v
  | none => illegal

/-- Whether every field of a CSR is RO, so that a write raises Illegal(): by the address rule of Zicsr (R81). -/
def csrReadOnly (a : Nat) : Bool := decide (0xC00 ≤ a)

/-- The value that a CSR instruction writes. -/
def csrNew (op : CsrOp) (old src : Word) : Word :=
  match op with
  | .rw => src
  | .rs => old ||| src
  | .rc => old &&& ~~~src

/-- The source operand of a CSR instruction. -/
def csrSource (h : Strand) : CsrSrc → Word
  | .reg r => h.rx r
  | .imm u => u.zeroExtend 64

/-- A CSR write instruction: the access checks, the write, and the old value to rd (R19, R81). -/
def csrWrite (a : Nat) (op : CsrOp) (src : CsrSrc) (rd : BitVec 5) (put : Word → M Unit) : M Unit := do
  if csrReadOnly a then illegal
  let old ← readCsr a
  put (csrNew op old (csrSource (← getH) src))
  writeX rd old

/-- vsta takes 15 bits as written (R82). -/
def putVsta (v : Word) : M Unit := modH fun h => { h with vsta := v.toNat % 32768 }

/-- emask bits 63 to 0, as far as a mask register has them (none at an owned lane count of 0); every higher bit is cleared (R66). -/
def putEmask (v : Word) : M Unit := modH fun h => { h with emask := BitVec.ofNat 16384 (v.toNat % 2 ^ h.mlen) }

/-- ecls: reserved codes leave their field; a change of cls clears emask (R30, R65, R66). -/
def putEcls (v : Word) : M Unit := modH fun h =>
  let cls := if v.toNat % 8 = 7 then h.cls else v.toNat % 8
  let rm := if 5 ≤ v.toNat / 16 % 8 then h.rm else v.toNat / 16 % 8
  { h with cls := cls, rm := rm, emask := if cls = h.cls then h.emask else 0#16384 }

/-- wceil: 41 bits, held at most 2^40 (R84). DESIGN CHOICE (log 34): the written value is all 64 bits, so one with a reserved bit set is
above 2^40, although R20 discards writes of reserved bits. -/
def putWceil (v : Word) : M Unit := modH fun h => { h with wceil := if 2 ^ 40 < v.toNat then 2 ^ 40 else v.toNat }

/-- A virtual address from its low 57 bits. -/
def vaOf57 (a : Nat) : Nat := if a < 2 ^ 56 then a else a + (2 ^ 64 - 2 ^ 57)

/-- The physical place of a watched region: mapped with write permission and within one page (R85), else none. -/
def watchPlace (s : State) (w : Word) : Option (Nat × Nat) :=
  let r := wptRegion w
  let va := vaOf57 r.1
  match translate s s.hart.root false .store va, walkFrom s .store va 5 s.hart.root with
  | .ok (pa, _), .ok e => if leafVa va e = leafVa (va + r.2 - 1) e then some (pa, r.2) else none
  | _, _ => none

/-- A watchpoint register: src 3 translates its region now, by a walk of the strand (R336), else src is held as 0 (R85). -/
def putWpt (n : BitVec 2) (v : Word) : M Unit := do
  let s ← get
  let v := v &&& 0x01FFFFFFFFFFFFEF#64
  let at_ := if wptSrc v = 3 then watchPlace s v else none
  let walks := wptSrc v = 3
  let v := if wptSrc v = 3 ∧ at_ = none then v &&& ~~~(3#64) else v
  if walks then modify fun s => s.probed (vaOf57 (wptRegion v).1)
  modH fun h =>
    let others := h.watch.filter fun w => w.1 != n.toNat
    { h with wpt := h.wpt.set n.toFin v
             watch := match at_ with
               | some (pa, len) => (n.toNat, pa, len) :: others
               | none => others }

/-- Fields of finj within its tile's granted shape (R85). -/
def finjInside (h : Strand) (v : Word) : Bool :=
  let t := h.tshape.get ⟨v.toNat % 8, Nat.mod_lt _ (by decide)⟩
  v.toNat / 8 % 2 == 0 && v.toNat / 2 ^ 24 == 0 && decide (v.toNat / 16 % 128 < t.rows) &&
    decide (v.toNat / 2 ^ 11 % 256 < t.cols) && decide (v.toNat / 2 ^ 19 % 32 < t.ty.width)

/-- finj inverts one bit of an element of the strand's own tile, once (R85). -/
def putFinj (v : Word) : M Unit := do
  let h ← getH
  if finjInside h v then
    needChains [] [.tile (v.toNat % 8)]
    let m : BitVec 3 := BitVec.ofNat 3 v.toNat
    let w := (h.shape m).ty.width
    let i := v.toNat / 16 % 128
    let j := v.toNat / 2 ^ 11 % 256
    modH fun h => h.putTile m w i j (Nat.xor (h.tileElem m w i j) (2 ^ (v.toNat / 2 ^ 19 % 32)))

/-- sstatus: SIE, SPIE, SPP, SUM and MXR are writable; UXL reads 2 and the rest zero (R80). -/
def sstatusHeld (v : Word) : Word := (v &&& 0xC0122#64) ||| 0x200000000#64

/-- Writes of the CSRs that have no row of their own (R80, R82, R84, R85). -/
def putCsr (a : Nat) (v : Word) : M Unit :=
  let sup (f : Csrs → Csrs) : M Unit := modH fun h => { h with csr := f h.csr }
  if a = 0x803 then modH fun h => { h with stripmask := (v.truncate 32) &&& 0xFFFFFFFE#32 }
  else if a = 0x804 then modH fun h => { h with wdef := v }
  else if a = 0x5C1 then modH fun h => { h with estep := v.getLsbD 0 }
  else if a = 0x100 then sup fun c => { c with sstatus := sstatusHeld v }
  else if a = 0x105 then sup fun c => { c with stvec := v &&& ~~~(3#64) }
  else if a = 0x106 then sup fun c => { c with scounteren := (v.truncate 32) &&& 7#32 }
  else if a = 0x10A then sup fun c => { c with senvcfg := v &&& 1#64 }
  else if a = 0x140 then sup fun c => { c with sscratch := v }
  else if a = 0x141 then sup fun c => { c with sepc := v &&& ~~~(1#64) }
  else if a = 0x142 then sup fun c => { c with scause := v }
  else if a = 0x143 then sup fun c => { c with stval := v }
  else pure ()

/-- VSTA_WRITE (R82). -/
def execVstaWrite (op : CsrOp) (src : CsrSrc) (rd : BitVec 5) (s : State) : Host.Outcome State Fault Refusal :=
  runInstr (.vstaWrite op src rd) (csrWrite 0x800 op src rd putVsta) s

/-- EMASK_WRITE (R66). -/
def execEmaskWrite (op : CsrOp) (src : CsrSrc) (rd : BitVec 5) (s : State) : Host.Outcome State Fault Refusal :=
  runInstr (.emaskWrite op src rd) (csrWrite 0x801 op src rd putEmask) s

/-- ECLS_WRITE (R65, R30). -/
def execEclsWrite (op : CsrOp) (src : CsrSrc) (rd : BitVec 5) (s : State) : Host.Outcome State Fault Refusal :=
  runInstr (.eclsWrite op src rd) (csrWrite 0x802 op src rd putEcls) s

/-- WCEIL_WRITE (R84). -/
def execWceilWrite (op : CsrOp) (src : CsrSrc) (rd : BitVec 5) (s : State) : Host.Outcome State Fault Refusal :=
  runInstr (.wceilWrite op src rd) (csrWrite 0x5C0 op src rd putWceil) s

/-- WPT_WRITE (R85). -/
def execWptWrite (n : BitVec 2) (op : CsrOp) (src : CsrSrc) (rd : BitVec 5) (s : State) : Host.Outcome State Fault Refusal :=
  runInstr (.wptWrite n op src rd) (csrWrite (0x5C4 + n.toNat) op src rd (putWpt n)) s

/-- FINJ_WRITE (R85). -/
def execFinjWrite (op : CsrOp) (src : CsrSrc) (rd : BitVec 5) (s : State) : Host.Outcome State Fault Refusal :=
  runInstr (.finjWrite op src rd) (csrWrite 0x805 op src rd putFinj) s

/-! ### Arithmetic, jumps and branches -/

/-- Continue at an address instead of the next instruction. -/
def jumpTo (a : Word) : M Unit := modH fun h => { h with npc := a }

/-- An instruction of the row SCALAR_INSTRUCTION (R78); jumps clear bit 0 of a computed target. -/
def scalarOp (op : ScalarOp) : M Unit := do
  let h ← getH
  match op with
  | .lui rd imm => writeX rd ((imm ++ 0#12).signExtend 64)
  | .auipc rd imm => writeX rd (h.pc + (imm ++ 0#12).signExtend 64)
  | .jal rd off =>
    writeX rd h.npc
    jumpTo (h.pc + (off ++ 0#1).signExtend 64)
  | .jalr rd rs1 imm =>
    writeX rd h.npc
    jumpTo ((h.rx rs1 + imm.signExtend 64) &&& ~~~(1#64))
  | .branch op rs1 rs2 off =>
    if branchTaken op (h.rx rs1) (h.rx rs2) then jumpTo (h.pc + (off ++ 0#1).signExtend 64)
  | .opImm op rd rs1 imm => writeX rd (immOp op (h.rx rs1) (imm.signExtend 64))
  | .shiftImm op rd rs1 n => writeX rd (shiftImmOp op (h.rx rs1) n.toNat)
  | .addiw rd rs1 imm => writeX rd (sext32 (lo32 (h.rx rs1) + imm.signExtend 32))
  | .shiftImmW op rd rs1 n => writeX rd (sext32 (shiftImmWOp op (lo32 (h.rx rs1)) n.toNat))
  | .alu op rd rs1 rs2 => writeX rd (aluOp op (h.rx rs1) (h.rx rs2))
  | .aluW op rd rs1 rs2 => writeX rd (sext32 (aluWOp op (lo32 (h.rx rs1)) (lo32 (h.rx rs2))))
  | .unary op rd rs1 => writeX rd (unaryOp op (h.rx rs1))
  | .csrRead csr _ _ rd => writeX rd (← readCsr csr.toNat)

/-- SCALAR_INSTRUCTION (R78). -/
def execScalarInstruction (op : ScalarOp) (s : State) : Host.Outcome State Fault Refusal :=
  runInstr (.scalarInstruction op) (scalarOp op) s

/-- ENCODING_THAT_SELECTS_NOTHING (R101): Illegal() and no other effect. -/
def execEncodingThatSelectsNothing (bits : BitVec 32) (s : State) : Host.Outcome State Fault Refusal :=
  runInstr (.encodingThatSelectsNothing bits) illegal s

/-! ### Loads and stores -/

/-- The effective address of a scalar access. -/
def scalarAddr (h : Strand) (rs1 : BitVec 5) (imm : BitVec 12) : Nat := (h.rx rs1 + imm.signExtend 64).toNat

/-- A loaded value extended to 64 bits. -/
def extendLoad (signed : Bool) (bytes v : Nat) : Word :=
  if signed ∧ 2 ^ (8 * bytes - 1) ≤ v then BitVec.ofInt 64 ((v : Int) - 2 ^ (8 * bytes)) else BitVec.ofNat 64 v

/-- What a load from device-class memory does when its data comes (R79, R260); the token is the physical address. -/
def finishLoad (op : LoadOp) (imm : BitVec 12) (rs1 rd : BitVec 5) : M Unit := do
  let va := scalarAddr (← getH) rs1 imm
  let v ← deviceRead va (← getWait 0 (·.token)) op.bytes
  noteAccess false va op.bytes
  writeX rd (extendLoad op.signed op.bytes v)

/-- SCALAR_LOAD (R79, R262, R280): from device-class memory it waits under wdef. -/
def execScalarLoad (op : LoadOp) (imm : BitVec 12) (rs1 rd : BitVec 5) (s : State) : Host.Outcome State Fault Refusal :=
  runInstr (.scalarLoad op imm rs1 rd) (do
    let va := scalarAddr (← getH) rs1 imm
    checkAddress .load va op.bytes
    let (pa, dev) ← translateH .load va
    if dev then do
      needCtlSize .load va pa op.bytes
      endRewind
      startWaitOn (.scalarLoad op imm rs1 rd) 0#64 pa (← pageOf va pa) (answerOps (finishLoad op imm rs1 rd))
    else do
      let v ← idemRead va pa op.bytes
      writeX rd (extendLoad op.signed op.bytes v)) s

/-- SCALAR_STORE (R79, R280). -/
def execScalarStore (op : StoreOp) (imm : BitVec 12) (rs2 rs1 : BitVec 5) (s : State) : Host.Outcome State Fault Refusal :=
  runInstr (.scalarStore op imm rs2 rs1) (do
    let h ← getH
    scalarWrite (scalarAddr h rs1 imm) op.bytes ((h.rx rs2).toNat % 2 ^ (8 * op.bytes))) s

/-! ### Atomics (R79) -/

/-- Bytes of a scalar atomic. -/
def atomicBytes (dbl : Bool) : Nat := if dbl then 8 else 4

/-- LR.W, LR.D (R79): a load that bypasses the cache and sets the strand's one scalar link at the line's home. DESIGN CHOICE (log 18): of a
location that the strip store buffer holds it delivers the held bytes (R280), not the home's (R258), as vgl does. -/
def execLr (dbl aq rl : Bool) (rs1 rd : BitVec 5) (s : State) : Host.Outcome State Fault Refusal :=
  runInstr (.lr dbl aq rl rs1 rd) (do
    let h ← getH
    let va := (h.rx rs1).toNat
    let n := atomicBytes dbl
    checkAddress .load va n
    let pa ← translateIdem .load va
    let bs ← ownBytes pa n va
    dropDcache pa n
    noteAccess false va n
    newLink (pa / 64 * 64) h.sid false
    if aq then acquire
    writeX rd (extendLoad true n (ofBytes bs))) s

/-- Clear the strand's scalar link (R79). -/
def dropScalarLink (s : State) : State :=
  { s with links := s.links.filter fun l => !(l.sid == s.hart.sid && !l.vector) }

/-- SC.W, SC.D (R79): the strip commits, then the home stores when the strand's link names the line. A lost home is an
uncorrectable error (R319, R363, R366). -/
def execSc (dbl aq rl : Bool) (rs2 rs1 rd : BitVec 5) (s : State) : Host.Outcome State Fault Refusal :=
  runInstr (.sc dbl aq rl rs2 rs1 rd) (do
    let h ← getH
    let va := (h.rx rs1).toNat
    let n := atomicBytes dbl
    checkAddress .store va n
    let pa ← translateIdem .store va
    endRewind
    let s ← get
    if lost s pa then throw (.ue (BitVec.ofNat 64 va) none)
    let ok := holdsLink s (pa / 64 * 64) s.hart.sid false
    modify dropScalarLink
    dropDcache pa n
    if ok then
      modify (homeWrite h.agent pa (toBytes n ((h.rx rs2).toNat % 2 ^ (8 * n))))
      noteAccess true va n
    if aq then acquire
    writeX rd (flagWord (!ok))) s

/-- What an AMO does when its response comes (R79). -/
def finishAmo (aq : Bool) (rd : BitVec 5) : M Unit := do
  if aq then acquire
  writeX rd (← getWait 0#64 (·.rdVal))

/-- AMO*.W, AMO*.D (R79, R316): performed at the home update node at once; its response is waited for under wdef. -/
def execAmo (op : AmoOp) (dbl aq rl : Bool) (rs2 rs1 rd : BitVec 5) (s : State) : Host.Outcome State Fault Refusal :=
  runInstr (.amo op dbl aq rl rs2 rs1 rd) (do
    let h ← getH
    let va := (h.rx rs1).toNat
    let n := atomicBytes dbl
    checkAddress .store va n
    let pa ← translateIdem .store va
    endRewind
    let old := ofBytes (← ownBytes pa n va)
    modify (homeWrite h.agent pa (toBytes n (amoNew op (8 * n) old ((h.rx rs2).toNat % 2 ^ (8 * n)))))
    dropDcache pa n
    noteAccess false va n
    noteAccess true va n
    startWait (.amo op dbl aq rl rs2 rs1 rd) (extendLoad true n old) 0 (answerOps (finishAmo aq rd))) s

/-! ### Fences and system instructions (R79) -/

/-- What a fence does when the classes that its bits select are complete (R79, R265): loads, where the predecessor or the
successor set has R or I. -/
def finishFence (pred succ : BitVec 4) : M Unit :=
  orderAfter (if (pred ||| succ) &&& 0xA#4 = 0#4 then 0 else 1)

/-- FENCE, FENCE.TSO (R79): a package-scope sync of the classes that the predecessor and successor bits select, under wdef. -/
def execFence (fm pred succ : BitVec 4) (rs1 rd : BitVec 5) (s : State) : Host.Outcome State Fault Refusal :=
  runInstr (.fence fm pred succ rs1 rd) (do
    if pred ≠ 0#4 ∧ succ ≠ 0#4 then
      endRewind
      startWait (.fence fm pred succ rs1 rd) 0#64 0 (answerOps (finishFence pred succ))) s

/-- FENCE.I (R79): the strip commits, and this core's instruction cache goes once the stores are performed, under wdef. -/
def execFenceI (imm : BitVec 12) (rs1 rd : BitVec 5) (s : State) : Host.Outcome State Fault Refusal :=
  runInstr (.fenceI imm rs1 rd) (do
    endRewind
    startWait (.fenceI imm rs1 rd) 0#64 0 (answerOps flushIcache)) s

/-- ECALL (R79). -/
def execEcall (s : State) : Host.Outcome State Fault Refusal :=
  runInstr .ecall (do raise (if (← getH).mode = .user then 8 else 9) 0#64) s

/-- EBREAK (R274). -/
def execEbreak (s : State) : Host.Outcome State Fault Refusal :=
  runInstr .ebreak (do raise 3 (← getH).pc) s

/-- WFI (R79): no operation in both modes. -/
def execWfi (s : State) : Host.Outcome State Fault Refusal := runInstr .wfi (pure ()) s

/-- SFENCE.VMA (R79): this core's TLB, the strand's address-space identifier, with the operands of the base rules. -/
def execSfenceVma (rs2 rs1 : BitVec 5) (s : State) : Host.Outcome State Fault Refusal :=
  runInstr (.sfenceVma rs2 rs1) (do
    let h ← getH
    if h.mode = .user then illegal
    let va := (h.rx rs1).toNat
    if rs2 = 0#5 ∨ (h.rx rs2).toNat % 1024 = h.asid then
      modify fun s => { s with tlb := s.tlb.filter fun t =>
        !(t.site == .core (coreNo h.place) && t.asid == h.asid && (rs1 == 0#5 || t.covers h.asid va)) }) s

end Sys2Proof.Machine
end

