-- ==== Sys2Proof/Machine/Traps.lean ====
section
/-!
DEFINITION. claim and sret (R278), the events of a user-mode boundary (R275), the end of a strand (R387), pre-emption, the
context save and its restore (R284 to R286, R127, R128).
-/
namespace Sys2Proof.Machine

/-! ### Chains of a strand as a whole -/

/-- Cut every running chain of the running strand with AUTO (R222). -/
def cutAllAuto (s : State) : State := (rangeFrom 0 4).foldl (fun s ci => cutChain ci 7 7 none s) s

/-- Re-form every chain that was cut with AUTO, and take in what came on its links meanwhile (R222). -/
def reformAll (s : State) : State :=
  (rangeFrom 0 4).foldl (fun s ci =>
    let c := s.hart.chain ci
    if c.state = .running ∧ c.cause = 7 then resumeChain ci s else s) s

/-- Free every chain of the running strand as it ends, those that stand in a claim image too; their running peers are cut with
LINK (R218, R222, R326, R387). -/
def dropChains (s : State) : State :=
  let all (s : State) : State := (rangeFrom 0 4).foldl (fun s ci => dropChain ci s) s
  let kept := s.hart.kept
  let s := all { s with hart := { s.hart with kept := [] } }
  if kept = [] then s
  else all { s with hart := { s.hart with c := vecOf 4 fun i => nth kept i .free } }

/-! ### A strand taken off its core (R387, R247) -/

/-- Leave every reel as rlleave does; a pending join is withdrawn (R247). -/
def leaveReels (sid launch : Nat) (s : State) : State :=
  (s.reels.filter fun r => r.launch == launch).foldl (fun s r =>
    if r.members.contains sid then (if r.leaving.contains sid then s else leaveReel sid r s)
    else if r.joining.contains sid then putReel { r with joining := r.joining.filter (· != sid) } s
    else s) s

/-- End the running strand without a save: held stores are discarded, chains freed, queues, links and slices discarded. -/
def endHart (s : State) : State :=
  let s := dropChains s
  let h := s.hart
  leaveReels h.sid h.launch (dropLinks h.sid { s with hart := { h with
    status := .ended, strip := { h.strip with buffer := [], rewindable := false }, wait := none, hit := none
    q := Vector.replicate 8 .empty, slices := [], badSlice := [], cuts := Vector.replicate 4 none
    hits := Vector.replicate 4 none, step := none, watch := [] } })

/-- Strands of a launch that have started and not ended. -/
def liveStrands (s : State) (launch : Nat) : List Strand :=
  (s.hart :: s.parked).filter fun h => h.launch == launch && h.status != .unplaced && h.status != .ended

/-- A launch drains with the given outcome: every strand ends at once without a save; one whose save is in progress ends
when the save has (R382, R386). -/
def drainLaunch (l : Launch) (s : State) : State :=
  let s := setLaunch { l with state := .draining } s
  ((liveStrands s l.id).filter fun h => h.status != .saving).foldl (fun s h => asStrand h.sid endHart s) s

/-! ### claim and sret (R278) -/

/-- Physical places of the pages of the claim image. -/
def claimPages (k : Access) : M (List Nat) := do
  let a := (← getH).claimVa
  mapEach (rangeFrom 0 (claimBytes / 4096)) fun i => translateIdem k ((a + 4096 * i) % 2 ^ 64)

/-- The strand with the parts that claim names at their values at strand start (R88). -/
def Strand.cleared (h : Strand) : Strand :=
  let z := Strand.start
  { h with
    v := z.v, vtag := z.vtag, k := z.k.set 0 (h.k.get 0), emask := z.emask, m := z.m, tshape := z.tshape, q := z.q, ea := z.ea
    c := z.c, vl := z.vl, wid := z.wid, rgf := z.rgf, vsta := z.vsta, cls := z.cls, rm := z.rm
    claimed := true
    kept := h.c.toList
    keptBad := (h.bad.filter fun b => decide (b.src < 6)).map fun b => (b, claimSpots h b)
    bad := h.bad.filter fun b => !decide (b.src < 6) }

/-- The physical address of an offset of the claim image. -/
def claimAddr (pages : List Nat) (o : Nat) : Nat := nth pages (o / 4096) 0 + o % 4096

/-- Write the claim image: to its home and to the mirror, which holds it where the home is lost; a word of it that holds an
uncorrectable word is poisoned (R278, R286). DESIGN CHOICE (log 13): the spec gives the mirror no place; the bytes last written to the
image stand for it. -/
def writeClaim (h : Strand) (pages : List Nat) (s : State) : State :=
  let s := (pages.zip (pieces 4096 (claimBytes / 4096) (claimImage h))).foldl (fun s p =>
    let s := homeWriteAll h.agent p.1 p.2 s
    { s with mem := s.mem.putBytes p.1 p.2 }) s
  h.cleared.keptBad.foldl (fun s b => b.2.foldl (fun s o => poisonSaved s (claimAddr pages o)) s) s

/-- CLAIM (R278). -/
def execClaim (s : State) : Host.Outcome State Fault Refusal :=
  runInstr .claim (do
    let h ← getH
    if h.mode = .user then illegal
    if h.claimed then pure ()
    else do
      let pages ← claimPages .store
      modify cutAllAuto
      -- claim is a save, and a save clears the links (R88)
      modify (dropLinks h.sid)
      let h ← getH
      modify (writeClaim h pages)
      modH Strand.cleared) s

/-- The offset of the first field of a claim image that may not hold what it holds (R278). DESIGN CHOICE (log 13): the reserved fields
that count are those of the claimed parts and the word at 0x178 beside vl to ecls; the rows of R285 that a claim image leaves zero, with
their header and flags, are not read; the spec does not say whether their reserved fields count. -/
def claimBadField (bs : List Byte) : Option Nat :=
  let num (o : Nat) : Nat := sub bs o 8
  let tile (i : Nat) : Bool :=
    let w := num (0xA10 + 8 * i)
    let t := shapeOf w
    decide (2 ^ 24 ≤ w) || w / 2 ^ 17 % 8 != 0 || (t.rows != 0 && t.ty == .none) || decide (128 < t.rows) || (t.ty != .none && decide (colMax t.ty < t.cols))
  let chain (i : Nat) : List (Nat × Bool) :=
    (imageFields ((bs.drop (0x1000 + imageBytes * i)).take imageBytes) true).map fun f => (0x1000 + imageBytes * i + f.1, f.2)
  ([(0x140, decide (2 ^ 15 ≤ num 0x140)), (0x148, decide (2 ^ 17 ≤ num 0x148)), (0x150, decide (2 ^ 15 ≤ num 0x150)),
    (0x158, (num 0x158).testBit 3 || decide (2 ^ 7 ≤ num 0x158)), (0x178, num 0x178 != 0)] ++
   ((rangeFrom 0 8).flatMap fun i =>
     [(0x300 + 96 * i + 80, decide (32 ≤ num (0x300 + 96 * i + 80))), (0x300 + 96 * i + 88, num (0x300 + 96 * i + 88) != 0)]) ++
   ((rangeFrom 0 8).map fun i => (0xA10 + 8 * i, tile i)) ++
   ((rangeFrom 0 8).flatMap fun q =>
     [(0xA50 + 16 * q, decide (2 ^ 20 ≤ num (0xA50 + 16 * q))), (0xA50 + 16 * q + 8, num (0xA50 + 16 * q + 8) != 0)]) ++
   (rangeFrom 0 4).flatMap chain).findSome? fun (f : Nat × Bool) => if f.2 then some f.1 else none

/-- Load the chain of a claim image into a handle: a chain whose image stands as claim wrote it comes back whole; a record
that fails R212 is a failing field (log 13). -/
def reclaimChain (kept : List Chain) (bs : List Byte) (ci : Nat) : M Unit := do
  let img := (bs.drop (0x1000 + imageBytes * ci)).take imageBytes
  let old := nth kept ci .free
  let h ← getH
  if (h.putChain ci old).image ci = img then modH fun h => h.putChain ci old.absorbLate
  else if ← loadImage ci img true then pure ()
  else raise 29 (BitVec.ofNat 64 (0x1000 + imageBytes * ci + 64))

/-- The running strand's launch ends with CONTEXT_LOST: a block of its claim image is lost in both copies (R286). -/
def loseClaim : M Unit := do
  let s ← get
  let t := rasLog 11 (coreLoc s.hart.place 0 0) 0 s
  match findLaunch s s.hart.launch with
  | some l => set (drainLaunch { l with code := 7, reason := 5 } t)
  | none => set (endHart t)
  throw .switched

/-- The words of the claim image that still hold an uncorrectable word of the claimed parts (R286). -/
def claimBadWords (s : State) (h : Strand) (pages : List Nat) : List (BadWord × List Nat) :=
  h.keptBad.filter fun b => b.2.any fun o => s.poison.contains (claimAddr pages o)

/-- The pages of the claim image, its mirror in place of what it cannot read (R286); a word that was written poisoned is no word
that it cannot read. DESIGN CHOICE (log 13): the mirror holds what was last written to the image, and whether it reads good too is left
open. -/
def readClaim (pages : List Nat) : M (List Byte) := do
  let s ← get
  let own := s.hart.keptBad.flatMap fun b => b.2.map (claimAddr pages)
  modify fun s => pages.foldl (fun s p => suspectRead p 4096 s) s
  if pages.any fun p => readsBad { s with poison := s.poison.filter fun w => !own.contains w } p 4096 then
    if (← takeChoice) = .held then loseClaim
  return pages.flatMap fun p => s.mem.bulk p 4096

/-- Replace every claimed part with the image (R278). -/
def reloadClaim : M Unit := do
  let h ← getH
  let pages ← claimPages .load
  let bs ← readClaim pages
  match claimBadField bs with
  | some o => raise 29 (BitVec.ofNat 64 o)
  | none => pure ()
  let saved ← get
  -- a chain that cannot come back leaves everything as it was
  let act : M Unit := do
    modify fun s => { dropChainsOwn s with hart := { (dropChainsOwn s).hart with kept := [] } }
    forEach (rangeFrom 0 4) (reclaimChain h.kept bs)
  match act saved with
  | .error e _ => throw e
  | .ok _ s' =>
    set s'
    modH fun k => { k.fromShared bs with
      claimed := false, keptBad := []
      bad := (k.bad.filter fun b => !decide (b.src < 6)) ++ (claimBadWords saved h pages).map (·.1) }
where
  /-- Free the handler's own chains. -/
  dropChainsOwn (s : State) : State :=
    (rangeFrom 0 4).foldl (fun s ci => dropChain ci s) s

/-- The return of the privileged rules (R278): mode of SPP, SIE of SPIE, SPIE 1, SPP user, the pc of sepc. -/
def returnFromTrap (s : State) : State :=
  let h := s.hart
  let c := h.csr
  let kept := c.sstatus &&& ~~~(0x122#64)
  let sie := if c.sstatus.getLsbD 5 then 0x2#64 else 0#64
  { s with hart := { h with
    csr := { c with sstatus := kept ||| sie ||| 0x20#64 }
    mode := if c.sstatus.getLsbD 8 then .supervisor else .user
    npc := c.sepc } }

/-- SRET (R278). -/
def execSret (s : State) : Host.Outcome State Fault Refusal :=
  runInstr .sret (do
    let h ← getH
    if h.mode = .user then illegal
    if h.claimed then reloadClaim
    modify returnFromTrap
    if h.claimed then modify reformAll) s

/-! ### Asynchronous events (R275) -/

/-- ASYNC_EVENT_TAKE (R275): one trap, cuts by handle, then hits by watchpoint, then the step. -/
def execAsyncEventTake (s : State) : Host.Outcome State Fault Refusal :=
  let h := s.hart
  let cut := (rangeFrom 0 4).findSome? fun i => (h.cuts.toList[i]?.getD none).map fun x => (i, x)
  let hit := (rangeFrom 0 4).findSome? fun i => (h.hits.toList[i]?.getD none).map fun x => (i, x)
  if h.status ≠ .running ∨ h.mode ≠ .user ∨ h.wait.isSome = true then .refused (.stepNotEnabled "asynchronous event")
  else match cut, hit, h.step with
    | some (i, c), _, _ =>
      .next (takeTrap c.1 c.2 { s with hart := { h with cuts := h.cuts.set (i % 4) none (Nat.mod_lt _ (by decide)) } })
    | none, some (i, w), _ =>
      .next (takeTrap 3 w { s with hart := { h with hits := h.hits.set (i % 4) none (Nat.mod_lt _ (by decide)) } })
    | none, none, some w => .next (takeTrap 3 w { s with hart := { h with step := none } })
    | none, none, none => .refused (.stepNotEnabled "asynchronous event")

/-! ### Fatal faults and the end of a strand (R387) -/

/-- A fatal fault of a strand: the first one is reported (R382, R387). -/
def fatalFault (sid scause : Nat) (stval : Word) (s : State) : State :=
  match findStrand s sid with
  | none => s
  | some h =>
    let s := asStrand sid endHart s
    match findLaunch s h.launch with
    | none => s
    | some l =>
      if l.state = .running then
        drainLaunch { l with code := 4, reason := 0, faultIdx := h.idx, scause := scause, stval := stval } s
      else s

/-- Every strand of a running launch has ended (R382). -/
def drainWhenEnded (launch : Nat) (s : State) : State :=
  match findLaunch s launch with
  | none => s
  | some l =>
    if l.state = .running ∧ l.trigger = false ∧ l.replaying = false ∧ l.started.length = l.ctl 0 12 ∧ liveStrands s launch = [] then setLaunch { l with state := .draining } s
    else s

/-- STRAND_END (R387): in user mode the strip commits and the strand ends; in supervisor mode it is a fatal fault. -/
def execStrandEnd (s : State) : Host.Outcome State Fault Refusal :=
  let h := s.hart
  if h.status ≠ .running ∨ h.pc ≠ 0#64 ∨ h.wait.isSome = true then .refused (.stepNotEnabled "strand end")
  else if h.mode = .supervisor then .next (fatalFault h.sid 12 0#64 s)
  else match commitStrip s with
    | .ok _ s' => .next (drainWhenEnded h.launch (endHart s'))
    | .error (.ue t v) s' => .next (consumeUE t v s')
    | .error _ s' => .next s'

/-! ### Pre-emption and the context save (R284, R286) -/

/-- The live address space of an identifier. -/
def findSpace (s : State) (asid : Nat) : Option Space := s.spaces.find? fun x => x.asid == asid

/-- Two places for the copies of a save: whole, in the context pool, in stacks of two pairs, clear of every other save (R286,
R353, R370). -/
def copiesOk (s : State) (h : Strand) (a b : Nat) : Bool :=
  let inPool (x : Nat) : Bool := match findSpace s h.asid with
    | some p => x % 4096 == 0 && decide (p.ctxBase ≤ x) && decide (x + areaBytes ≤ p.ctxBase + p.ctxLen) && inHbm s x
    | none => false
  let clear (x : Nat) : Bool := (s.hart :: s.parked).all fun k =>
    (k.status != .saving && k.status != .saved) || k.copies.1 == k.copies.2 ||
      (!overlaps x areaBytes k.copies.1 areaBytes && !overlaps x areaBytes k.copies.2 areaBytes)
  inPool a && inPool b && clear a && clear b && a / 2 ^ 37 != (b / 2 ^ 37) && a / 2 ^ 36 == (a + areaBytes - 1) / 2 ^ 36 &&
    b / 2 ^ 36 == (b + areaBytes - 1) / 2 ^ 36

/-- Stop the running strand and begin its save; at equal places, where there are no two for the copies yet, the save waits for them. -/
def beginSave (a b : Nat) (s : State) : State :=
  let s := cutAllAuto s
  let h := s.hart
  dropLinks h.sid { s with
    hart := { h with status := .saving, copies := (a, b), saveSeq := h.saveSeq + 1 }
    cores := s.cores.map fun k => { k with portHolder := k.portHolder.filter fun x => x.2.1 != h.sid } }

/-- Pre-empt a strand with two places for its copies. DESIGN CHOICE (log 25): where they cannot take the copies the strand stops all
the same, and its save waits for a PREEMPT with places that can; R286 does not say what becomes of a strand that has none. -/
def preempted (h : Strand) (a b : Nat) (s : State) : State :=
  asStrand h.sid (if copiesOk s h a b then beginSave a b else beginSave 0 0) s

/-- Whether a strand's save can end: it has places for its copies, or its launch no longer runs. -/
def saveDue (s : State) (h : Strand) : Bool :=
  h.status == .saving && (h.copies.1 != h.copies.2 || !((findLaunch s h.launch).any fun l => l.state == .running))

/-- PREEMPT (R284). DESIGN CHOICE (log 16): R284 lets the issue stop at an instruction boundary or at an element-group boundary of
an element loop; here a pre-emption stops a strand between instructions, and only a lost lane group stops one inside a loop. -/
def execPreempt (sid copyA copyB : Nat) (s : State) : Host.Outcome State Fault Refusal :=
  runEvent (do
    let s ← get
    match findStrand s sid with
    | none => notEnabled "preempt"
    | some h =>
      if h.status = .running then set (preempted h copyA copyB s)
      else if h.status = .saving ∧ h.copies.1 = h.copies.2 ∧ copiesOk s h copyA copyB = true then
        set (modStrand sid (fun h => { h with copies := (copyA, copyB) }) s)
      else notEnabled "preempt") s

/-- CONTEXT_SAVE_END (R286, R386): the area stands in two copies; a strand whose launch no longer runs ends now. -/
def execContextSaveEnd (sid : Nat) (s : State) : Host.Outcome State Fault Refusal :=
  runEvent (do
    let s ← get
    match findStrand s sid with
    | none => notEnabled "save end"
    | some h =>
      if saveDue s h = false then notEnabled "save end"
      else
        let s := if h.copies.1 = h.copies.2 then s else writeArea h.copies.2 h h.saveSeq (writeArea h.copies.1 h h.saveSeq s)
        let s := modStrand sid (fun h => { h with status := .saved }) s
        match findLaunch s h.launch with
        | some l => set (if l.state = .running then s else asStrand sid endHart s)
        | none => set s) s

/-! ### Placement on a core (R70, R71, R383) -/

/-- Whether a strand occupies a slot of a core: running there, or being saved there. -/
def occupied (s : State) (p : Place) : Bool :=
  (s.hart :: s.parked).any fun h => (h.status == .running || h.status == .saving) && h.place == p

/-- A lane count that lpart can hold. -/
def laneCount (n : Nat) : Bool := n == 0 || n == 2 || n == 4 || n == 6 || n == 8

/-- A core with a new partition of the lane groups that it has left. -/
def CoreInfo.parted (c : CoreInfo) (n0 n1 : Nat) : CoreInfo := { c with n0 := n0, n1 := n1, lgen := c.left, fallen := 0#8 }

/-- Whether a strand of n lane groups can be placed with the partition n0, n1 (R70, R71, R399, R403): the lane groups of a strand that
runs in the other slot stay as they are. -/
def canPlace (s : State) (p : Place) (n n0 n1 : Nat) : Bool :=
  let c := coreInfo s p
  let other : Place := { p with slot := 1 - p.slot }
  decide (p.die < 8) && decide (p.cluster < Config.clusters) && decide (p.core < Config.cores) && decide (p.slot < 2) &&
    coreInService s p && !s.svc.tripped && laneCount n0 && laneCount n1 && decide (n0 + n1 ≤ (enabledGroups (c.parted n0 n1)).length) &&
    (if p.slot = 0 then n0 == n else n1 == n) && !occupied s p &&
    (!occupied s other || (n0 == c.n0 && (p.slot == 1 || n1 == c.n1) &&
      ownedGroups (c.parted n0 n1) other.slot == ownedGroups c other.slot))

/-- Set a core's partition as a strand is placed there; no line of the core's instruction cache (R86) or data cache (R262, R270) is
older. -/
def setPart (p : Place) (n0 n1 : Nat) (s : State) : State :=
  let c := (coreInfo s p).parted n0 n1
  let s := { s with icache := s.icache.filter fun l => l.core != coreNo p
                    dcache := s.dcache.filter fun l => l.core != coreNo p }
  if (findCore s p).isSome then putCore c s else { s with cores := c :: s.cores }

/-- Whether some core offers a lane count now. DESIGN CHOICE (log 25): every core that is free at that count offers it (R128), one too
that the affinity, the state of the boot or a node ahead bars for the strand; the spec does not say that such a core offers nothing. -/
def offered (s : State) (n : Nat) : Bool :=
  (rangeFrom 0 (8 * Config.clusters * Config.cores)).any fun i =>
    [0, 1].any fun slot =>
      let p : Place := ⟨i / 200, i / 8 % 25, i % 8, slot⟩
      let c := coreInfo s p
      let far (q : Nat) : Nat := if occupied s { p with slot := 1 - slot } then q else 0
      if slot = 0 then canPlace s p n n (far c.n1) else canPlace s p n (far c.n0) n

/-- The resident code object that a launch uses: the oldest residency of its handle that was not flushed before the launch was
accepted (R369, R375). -/
def residentOf (s : State) (l : Launch) : Option Resident :=
  match findSpace s l.asid with
  | none => none
  | some p => p.resident.find? fun r => r.handle == sub l.raw 0 8 && (match r.flushed with
      | some n => decide (l.order < n)
      | none => true)

/-- Whether an FP32 VLMAX lies within the image's range; a Flaset image accepts every VLMAX (R110, R377). -/
def vlFits (r : Resident) (vlmax : Nat) : Bool := r.flaset || (decide (r.vlLow ≤ vlmax) && decide (vlmax ≤ r.vlHigh))

/-- Whether a saved strand may be regranted at n lane groups, fewer than it held (R56, R128). DESIGN CHOICE (log 25): it has executed
no vshape since it started where it holds no checkpoint and no width; a vshape in supervisor mode, which makes no strip boundary, is
seen by the width that it leaves, and R128 does not say whether it counts. -/
def admissible (s : State) (h : Strand) (n : Nat) : Bool :=
  decide (32 * n < h.lown) && !h.sliced && n != 0 &&
    ((h.strip.checkpoint.isNone && h.wid == 0) || (h.strip.rewindable && h.mode == .user)) &&
    (match (findLaunch s h.launch).bind (residentOf s) with
      | some r => vlFits r (256 * n)
      | none => false)

/-- Whether a saved strand may resume with n lane groups: its former count, or the largest admissible one that some core offers
where none offers that (R128, R129). -/
def mayResume (s : State) (h : Strand) (n : Nat) : Bool :=
  if 32 * n = h.lown then true
  else admissible s h n && !offered s (h.lown / 32) && [2, 4, 6].all fun m => m ≤ n || !(admissible s h m && offered s m)

/-! ### Restore (R286, R127) -/

/-- A register under a smaller Lown: its elements below the new capacity at their new places. -/
def shrinkReg (old new w : Nat) (v : BitVec 65536) : BitVec 65536 :=
  (rangeFrom 0 (new * 256 / w)).foldl (fun r e => setElem_ r new w e (getElem_ v old w e)) 0#65536

/-- An uncorrectable word under a smaller Lown: the words that hold the elements it held (R127, R286). -/
def regrantBad (h : Strand) (lown : Nat) (b : BadWord) : List BadWord :=
  if b.src = 1 then
    let w := areaWidth (h.vtag.toList[b.idx]?.getD .none)
    ((rangeFrom 0 (lown * 256 / w)).filter fun e => (wordsAt (elemOff h.lown w e) w).contains b.off).flatMap fun e =>
      (wordsAt (elemOff lown w e) w).map fun o => { b with off := o }
  else if b.src = 2 then (if 32 * b.off < 64 * lown then [b] else [])
  else [b]

/-- The regrant of R127 to a smaller Lown: the strand resumes at its last strip start. -/
def regrantStrand (lown : Nat) (h : Strand) : Strand :=
  let h := match h.strip.checkpoint with
    | some cp => { rewindTo cp h with strip := { h.strip with buffer := [] }, hit := h.hit }
    | none => h
  let keep (k : BitVec 16384) : BitVec 16384 := k &&& BitVec.ofNat 16384 (2 ^ (64 * lown) - 1)
  let cap := if h.wid = 0 then 0 else lown * 256 / h.wid
  { h with
    v := vecOf 32 fun i => shrinkReg h.lown lown (areaWidth (h.vtag.toList[i]?.getD .none)) (h.v.toList[i]?.getD 0#65536)
    k := h.k.map keep, emask := keep h.emask, bad := h.bad.flatMap (regrantBad h lown)
    vl := if h.vl < cap then h.vl else cap, rgf := true, vsta := 0, lown := lown }

/-- Grants of every configured chain at a placement (R213, R222). -/
def regrantAll (s : State) : State :=
  let s := { s with hart := { s.hart with c := s.hart.c.map fun c => { c with stages := c.stages.map fun t => { t with groups := [] } } } }
  (rangeFrom 0 4).foldl (fun s ci => if (s.hart.chain ci).configured then regrant ci s else s) s

/-- Whether a context area holds a nonzero reserved field, or a field that may not hold what it holds; the strand cannot be
restored then. DESIGN CHOICE (log 13): R20 rejects such a structure, and R285 names no outcome; it is the outcome that R286
gives an area that cannot be read. -/
def areaBad (bs : List Byte) : Bool :=
  let num (o : Nat) : Nat := sub bs o 8
  (claimBadField bs).isSome || num 0 % 2 ^ 16 != 1 || decide (2 ^ 32 ≤ num 0) || decide (2 ^ 16 ≤ num 0x10) ||
    decide (Config.stripWords < num 0x18) || ((pieces 16 (num 0x18) (bs.drop 0xA4000)).any fun e => decide (2 ^ 9 ≤ sub e 12 4)) ||
    ([(0x1A8, 24), (0x1C8, 16), (0x210, 48), (0x280, 64), (0x2E0, 32)].any fun x => sub bs x.1 x.2 != 0) ||
    num 0x160 % 2 != 0 || decide (2 ^ 32 ≤ num 0x160) || decide (2 ^ 41 ≤ num 0x170) || decide (2 ≤ num 0x180) ||
    ((rangeFrom 0 4).any fun i => (num (0x188 + 8 * i)).testBit 4 || decide (2 ^ 57 ≤ num (0x188 + 8 * i))) ||
    (sstatusHeld (BitVec.ofNat 64 (num 0x1C0))).toNat != num 0x1C0 || num 0x1D8 % 4 != 0 || decide (8 ≤ num 0x200) ||
    decide (2 ≤ num 0x208) ||
    (rangeFrom 0 8).any fun i => (Acc.ofImage ((bs.drop (0x700 + 96 * i)).take 96)).isNone

/-- Put the area's contents back into the running strand, which the Shutter kept. -/
def reloadArea (a b : Nat) : M Unit := do
  let s ← get
  let bs := readArea s a b
  let kept := s.hart.c
  let slices := readSlices s a b
  modH fun h => { (h.fromShared bs).fromOwn bs with slices := slices }
  forEach (rangeFrom 0 4) fun ci => do
    let img := (bs.drop (0x1000 + imageBytes * ci)).take imageBytes
    let h ← getH
    let old := kept.toList[ci]?.getD .free
    if (h.putChain ci old).image ci = img then modH fun h => h.putChain ci (h.chain ci).absorbLate
    else
      let _ ← loadImage ci img true

end Sys2Proof.Machine
end

