-- ==== Sys2Proof/Machine/Loader.lean ====
section
/-!
DEFINITION. The loader (R341, R375 to R377): code table and code objects in host memory, image selection, placement of sections in
the load pool, leaf entries in the roots, and a fresh text copy after a stack is lost (R366).
-/
namespace Sys2Proof.Machine

/-! ### Code objects (R375 to R377) -/

/-- A directory entry of a code object. -/
structure DirEnt where
  kind : Nat
  errata : List Nat
  revision : Nat
  implementer : Nat
  stepping : Nat
  vlLow : Nat
  vlHigh : Nat
  off : Nat
  len : Nat
  deriving DecidableEq, Repr

/-- A section of a native image: kind 1 text, 2 data, 3 rodata. -/
structure Section where
  kind : Nat
  va : Nat
  bytes : List Byte
  deriving DecidableEq, Repr

/-- A selected image, ready to be placed. -/
structure Loaded where
  flaset : Bool
  entries : List Nat
  trap : Nat
  vlLow : Nat
  vlHigh : Nat
  sections : List Section
  deriving DecidableEq, Repr

/-- A field of host memory. -/
def hostField (s : State) (a n : Nat) : Nat := ofBytes (s.hostMem.getBytes a n)

/-- Bus address and length of a handle's object, when its code-table entry is valid (R375). -/
def codeEntry (s : State) (sp : Space) (handle : Nat) : Option (Nat × Nat) :=
  let e := sp.codeTable + 32 * (handle - 1)
  if handle = 0 ∨ sp.codeCount < handle ∨ hostField s (e + 16) 8 ≠ 1 ∨ hostField s (e + 24) 8 ≠ 0 then none
  else some (hostField s e 8, hostField s (e + 8) 8)

/-- The header of an object of a length: image count, launch-entry count and directory offset. -/
def codeHeader (s : State) (a len : Nat) : Option (Nat × Nat × Nat) :=
  let f := hostField s
  let images := f (a + 16) 2
  let entries := f (a + 18) 2
  let dir := f (a + 24) 8
  if 64 ≤ len ∧ f a 4 = 0x7C880C0B ∧ f (a + 4) 4 = 1 ∧ f (a + 8) 8 = len ∧ 1 ≤ images ∧ images ≤ 64 ∧ 1 ≤ entries ∧ entries ≤ 4096 ∧
      f (a + 20) 4 = 0 ∧ f (a + 32) 32 = 0 ∧ dir + 64 * images ≤ len then
    some (images, entries, dir)
  else none

/-- The directory entry at an address, for an object at a of a length. -/
def dirEntry (s : State) (a len e : Nat) : Option DirEnt :=
  let f := hostField s
  let n := f (e + 2) 2
  let list := f (e + 40) 8
  let d : DirEnt := { kind := f e 1, errata := (rangeFrom 0 n).map fun i => f (a + list + 2 * i) 2, revision := f (e + 4) 4,
                      implementer := f (e + 8) 4, stepping := f (e + 12) 1, vlLow := f (e + 16) 4, vlHigh := f (e + 20) 4,
                      off := f (e + 24) 8, len := f (e + 32) 8 }
  if (d.kind = 1 ∨ d.kind = 2) ∧ f (e + 1) 1 = 0 ∧ f (e + 13) 3 = 0 ∧ f (e + 48) 16 = 0 ∧ d.off + d.len ≤ len ∧
      list + 2 * n ≤ len then some d
  else none

/-- The rank of an image on this device, none when it is excluded (R377). -/
def rankOf (d : DirEnt) : Option Nat :=
  if d.errata.any fun e => !Config.hasErratum e then none
  else if d.kind = 2 then some 3
  else if d.revision = Config.revision ∧ d.implementer = Config.implementer ∧ d.stepping = Config.stepping then some 1
  else if d.implementer = 0 ∧ d.stepping = 0 ∧ d.revision = Config.revision then some 2
  else none

/-- The first image of the best rank (R377). -/
def selectImage (ds : List DirEnt) : Option DirEnt := [1, 2, 3].findSome? fun r => ds.find? fun d => rankOf d == some r

/-- A section of a native image at i of length n. -/
def sectionAt (s : State) (i n e : Nat) : Option Section :=
  let f := hostField s
  let k := f e 1
  let off := f (e + 16) 8
  let len := f (e + 24) 8
  if 1 ≤ k ∧ k ≤ 3 ∧ f (e + 1) 7 = 0 ∧ off + len ≤ n then some ⟨k, f (e + 8) 8, s.hostMem.bulk (i + off) len⟩ else none

/-- A native image (R376). -/
def nativeImage (s : State) (a entries : Nat) (d : DirEnt) : Option Loaded :=
  let i := a + d.off
  let c := hostField s i 8
  let t := 8 * (1 + 4 * c)
  if d.len < t + 8 * entries + 8 then none
  else match allSome ((rangeFrom 0 c).map fun k => sectionAt s i d.len (i + 8 + 32 * k)) with
    | none => none
    | some secs =>
      some { flaset := false, entries := (rangeFrom 0 entries).map fun k => hostField s (i + t + 8 * k) 8,
             trap := hostField s (i + t + 8 * entries) 8, vlLow := d.vlLow, vlHigh := d.vlHigh, sections := secs }

/-- A Flaset image as it is translated; its own bytes are kept as a section of kind 0. -/
def flasetImage (s : State) (a entries : Nat) (d : DirEnt) : Option Loaded :=
  let bs := s.hostMem.bulk (a + d.off) d.len
  if flasetOk bs entries then
    some { flaset := true, entries := List.replicate entries 0, trap := 0, vlLow := 0, vlHigh := 0,
           sections := [⟨0, 0, bs⟩, ⟨1, flasetBase bs, flasetText bs⟩,
                        ⟨2, flasetDataVa bs, List.replicate (flasetDataBytes bs) 0#8⟩] }
  else none

/-- Whether the layout of an image passes its checks, selected or not (R376, R379); the graph and the actors' bodies of a Flaset image
are checked when it is translated (R378, R380). -/
def imageOk (s : State) (a entries : Nat) (d : DirEnt) : Bool :=
  if d.kind = 2 then flasetLayout (s.hostMem.bulk (a + d.off) d.len) entries else (nativeImage s a entries d).isSome

/-- Fetch an object, check all of it and select its image (R375 to R378). -/
def fetchObject (s : State) (a len : Nat) : Option Loaded :=
  match codeHeader s a len with
  | none => none
  | some (images, entries, dir) =>
    match allSome ((rangeFrom 0 images).map fun k => dirEntry s a len (a + dir + 64 * k)) with
    | none => none
    | some ds =>
      match (if ds.all (imageOk s a entries) then selectImage ds else none) with
      | none => none
      | some d => if d.kind = 1 then nativeImage s a entries d else flasetImage s a entries d

/-! ### Pages -/

/-- The 4 KiB pages that sections of the given kinds cover, rising. -/
def pagesOf (secs : List Section) : List Nat :=
  secs.foldl (fun ps x =>
    if x.bytes = [] then ps
    else (rangeFrom (x.va / 4096) ((x.va + x.bytes.length - 1) / 4096 + 1 - x.va / 4096)).foldl (fun ps p => setAdd p ps) ps) []

/-- The sections' bytes as a memory by virtual address. -/
def imageMem (secs : List Section) : Memory :=
  secs.foldl (fun m x => if x.kind = 0 then m else m.splice x.va x.bytes.length (cellsOf x.va x.bytes)) []

/-- Whether a page is one that a section of the kind covers. -/
def coversPage (secs : List Section) (kind p : Nat) : Bool := (pagesOf (secs.filter fun x => x.kind == kind)).contains p

/-- Attribute bits of a leaf (R331, R341): valid, read, write on data, exec on text, user. The page of a trap entry that holds no
launch entry is for the supervisor (log 11). -/
def leafBits (l : Loaded) (p : Nat) : Nat :=
  let text := coversPage l.sections 1 p
  let user := !(text && l.trap / 4096 == p && !(l.entries.any fun e => e / 4096 == p))
  3 + (if coversPage l.sections 2 p && !text then 4 else 0) + (if text then 8 else 0) + (if user then 16 else 0)

/-- The place of the level-0 entry of an address, where every table above it is there (R375). -/
def leafSlot (s : State) (va : Nat) : Nat → Nat → Option Nat
  | l, a =>
    if !(inHbm s a || inTile s a) then none
    else
      let at_ := a + 8 * (va / 2 ^ (12 + 9 * l) % 512)
      match l with
      | 0 => some at_
      | k + 1 =>
        let e := homeRead s at_ 8
        if readsBad s at_ 8 || !e.testBit 0 || pteReserved e || !e.testBit 6 then none
        else leafSlot s va k (e / 4096 % 2 ^ 40 * 4096)

/-- The entries that the way to a leaf's place reads. -/
def leafReads (s : State) (va : Nat) : Nat → Nat → List Nat
  | 0, _ => []
  | k + 1, a =>
    let at_ := a + 8 * (va / 2 ^ (12 + 9 * (k + 1)) % 512)
    if !(inHbm s a || inTile s a) then []
    else
      let e := homeRead s at_ 8
      at_ :: (if readsBad s at_ 8 || !e.testBit 0 || pteReserved e || !e.testBit 6 then [] else leafReads s va k (e / 4096 % 2 ^ 40 * 4096))

/-- The tables that lead to the leaves of some pages are read: bad words that this meets become suspect (R355). -/
def tablesRead (root : Nat) (pages : List Nat) (s : State) : State :=
  if s.poison = [] then s
  else pages.foldl (fun s p => (leafReads s (4096 * p) 4 root).foldl (fun s a => suspectRead a 8 s) s) s

/-- Compute dies in service. -/
def textDies (s : State) : List Nat := (rangeFrom 0 8).filter fun d => bit s.svc.dies d

/-! ### The load pool (R341, R370) -/

/-- Ranges of the pool in use. -/
def poolUsed (sp : Space) : List (Nat × Nat) :=
  sp.resident.flatMap fun r =>
    (r.copies.map fun c => (c.2, 4096 * r.text.length)) ++ (if r.data.2 = 0 then [] else [(r.data.1, 4096 * r.data.2)])

/-- Whether a page lies in memory that can be read and written: a stack's, or a cluster's tile memory (R299, R352). -/
def usable (s : State) (page : Nat) : Bool :=
  (inHbm s page && !lost s page) || (inTile s page && !(rangeFrom 0 64).any fun i => lost s (page + 64 * i))

/-- Where the windows of the stacks begin, and those of the clusters where a pool reaches them. -/
def windows (sp : Space) : List Nat :=
  (rangeFrom 0 16).map (2 ^ 36 * ·) ++
    (if sp.loadBase + sp.loadLen ≤ tileBase then [] else (rangeFrom 0 256).map fun i => tileBase + 2 ^ 26 * i)

/-- The first free place for n bytes in a window of the pool, whole pages and in memory that is there. -/
def findFree (s : State) (sp : Space) (used : List (Nat × Nat)) (lo hi n : Nat) : Option Nat :=
  let lo := max lo sp.loadBase
  let hi := min hi (sp.loadBase + sp.loadLen)
  let up (a : Nat) : Nat := (a + 4095) / 4096 * 4096
  -- a free place begins where the window, a stack or cluster, or what follows a used range begins
  (up lo :: (used.map fun (u : Nat × Nat) => up (u.1 + u.2)) ++ windows sp).find? fun a =>
    decide (lo ≤ a) && decide (a + n ≤ hi) && !(used.any fun u => overlaps a n u.1 u.2) &&
      (rangeFrom 0 ((n + 4095) / 4096)).all fun i => usable s (a + 4096 * i)

/-- A place for die d's copy of text: in stack 2d, then 2d + 1, then anywhere (R341). -/
def placeText (s : State) (sp : Space) (used : List (Nat × Nat)) (d n : Nat) : Option Nat :=
  match findFree s sp used (2 * d * 2 ^ 36) ((2 * d + 1) * 2 ^ 36) n with
  | some a => some a
  | none =>
    match findFree s sp used ((2 * d + 1) * 2 ^ 36) ((2 * d + 2) * 2 ^ 36) n with
    | some a => some a
    | none => findFree s sp used 0 (2 ^ 64) n

/-- Places for the copies of the given dies. -/
def placeTexts (s : State) (sp : Space) (n : Nat) : List Nat → List (Nat × Nat) → Option (List (Nat × Nat))
  | [], _ => some []
  | d :: ds, used =>
    match placeText s sp used d n with
    | none => none
    | some a => (placeTexts s sp n ds ((a, n) :: used)).map ((d, a) :: ·)

/-- Write pages at consecutive places. -/
def writePages (base : Nat) (pages : List (Nat × List Byte)) (s : State) : State :=
  ((rangeFrom 0 pages.length).zip pages).foldl (fun s x => homeWriteAll .shutter (base + 4096 * x.1) x.2.2 s) s

/-- Write leaf entries: the place of each and the entry. -/
def writeLeaves (ls : List (Nat × Nat)) (s : State) : State :=
  ls.foldl (fun s x => homeWrite .shutter x.1 (toBytes 8 x.2) s) s

/-- Remove every translation and line of an identifier on the given dies. -/
def dropSpaceCaches (asid : Nat) (ds : List Nat) (s : State) : State :=
  { s with
    tlb := s.tlb.filter fun t => !(t.asid == asid && ds.contains t.site.die)
    icache := s.icache.filter fun l => !(l.asid == asid && ds.contains (l.core / 256)) }

/-- The leaf entries of a run of pages for one root. -/
def leavesFor (s : State) (l : Loaded) (root base : Nat) (pages : List Nat) : Option (List (Nat × Nat)) :=
  allSome (((rangeFrom 0 pages.length).zip pages).map fun x =>
    (leafSlot s (4096 * x.2) 4 root).map fun a => (a, base + 4096 * x.1 + leafBits l x.2))

/-- Replace an address space. -/
def putSpace (sp : Space) (s : State) : State := { s with spaces := s.spaces.map fun x => if x.asid = sp.asid then sp else x }

/-- The reads of the page tables that placing an image makes: of its pages in every root, of its text's only for dies in service. -/
def imageTables (sp : Space) (l : Loaded) (s : State) : State :=
  let all := pagesOf (l.sections.filter fun x => x.kind != 0)
  (rangeFrom 0 8).foldl (fun s d =>
    tablesRead (nth sp.roots d 0) (all.filter fun p => !coversPage l.sections 1 p || (textDies s).contains d) s) s

/-- Place a selected image for an address space: the state with it resident, or none for LOAD_ERROR (R341, R375). -/
def placeImage (s : State) (sp : Space) (handle : Nat) (object : Nat × Nat) (l : Loaded) : Option State :=
  let mem := imageMem l.sections
  let all := pagesOf (l.sections.filter fun x => x.kind != 0)
  let text := all.filter fun p => coversPage l.sections 1 p
  let data := all.filter fun p => !text.contains p
  let page (p : Nat) : Nat × List Byte := (4096 * p, mem.bulk (4096 * p) 4096)
  if coversPage l.sections 1 0 || all.any (fun p => !canonical (4096 * p)) then none
  else
    let used := poolUsed sp
    match (if data = [] then some 0 else findFree s sp used 0 (2 ^ 64) (4096 * data.length)) with
    | none => none
    | some dbase =>
      let used := (dbase, 4096 * data.length) :: used
      match (if text = [] then some [] else placeTexts s sp (4096 * text.length) (textDies s) used) with
      | none => none
      | some copies =>
        let leaves := allSome ((rangeFrom 0 8).map fun d =>
          let root := nth sp.roots d 0
          match leavesFor s l root dbase data with
          | none => none
          | some ds =>
            match copies.find? fun c => c.1 == d with
            | none => some ds
            | some c => (leavesFor s l root c.2 text).map (ds ++ ·))
        match leaves with
        | none => none
        | some ls =>
          let r : Resident :=
            { handle := handle, object := object, flaset := l.flaset, entries := l.entries, trap := l.trap, vlLow := l.vlLow, vlHigh := l.vlHigh
              image := ((l.sections.find? fun x => x.kind == 0).map (·.bytes)).getD []
              text := text.map page, copies := copies, data := (dbase, data.length), flushed := none }
          let s := writePages dbase (data.map page) s
          let s := copies.foldl (fun s c => writePages c.2 r.text s) s
          let s := ls.foldl (fun s x => writeLeaves x s) s
          some (dropSpaceCaches sp.asid (rangeFrom 0 8) (putSpace { sp with resident := sp.resident ++ [r] } s))

/-! ### A fresh text copy (R366) -/

/-- The pages of a resident's text as a loaded image, for the attribute bits of its leaves. -/
def Resident.loaded (r : Resident) : Loaded :=
  { flaset := r.flaset, entries := r.entries, trap := r.trap, vlLow := r.vlLow, vlHigh := r.vlHigh
    sections := r.text.map fun p => ⟨1, p.1, p.2⟩ }

/-- Write a copy of a resident's text for die d and map it in the die's root; without room or tables the die has none. -/
def copyText (asid d : Nat) (r : Resident) (s : State) : State :=
  match findSpace s asid with
  | none => s
  | some sp =>
    let used := poolUsed { sp with resident := sp.resident.map fun x => { x with copies := x.copies.filter fun c => usable s c.2 } }
    match placeText s sp used d (4096 * r.text.length) with
    | none => s
    | some a =>
      let s := tablesRead (nth sp.roots d 0) (r.text.map fun p => p.1 / 4096) s
      match leavesFor s r.loaded (nth sp.roots d 0) a (r.text.map fun p => p.1 / 4096) with
      | none => s
      | some ls =>
        let r' := { r with copies := (d, a) :: r.copies.filter fun c => c.1 != d }
        dropSpaceCaches asid [d] (putSpace { sp with resident := sp.resident.map fun x => if x = r then r' else x }
          (writeLeaves ls (writePages a r.text s)))

/-- Fresh copies for every die in service that has none that can be read: after the loss of a stack, and for a die that has
joined (R366, R341). -/
def renewTexts (s : State) : State :=
  s.spaces.foldl (fun s sp =>
    sp.resident.foldl (fun s r =>
      if r.text = [] then s
      else (textDies s).foldl (fun s d =>
        match findSpace s sp.asid with
        | none => s
        | some now =>
          match now.resident.find? fun x => x.handle == r.handle && x.flushed == r.flushed with
          | none => s
          | some x => if x.copies.any fun c => c.1 == d && usable s c.2 then s else copyText sp.asid d x s) s) s) s

/-! ### Making a launch ready to place (R375, R377) -/

/-- The entry address of a launch in its resident object. -/
def entryOf (r : Resident) (l : Launch) : Nat :=
  if r.flaset then scheduleVa r.image
  else nth r.entries (sub l.raw 8 2) 0

/-- Why a launch cannot use its resident object: VLRANGE 4, LOAD_ERROR 3, none otherwise (R377). -/
def residentRefuses (r : Resident) (l : Launch) : Option Nat :=
  if !vlFits r (256 * l.ctl 12 4) then some 4
  else if r.entries.length ≤ sub l.raw 8 2 then some 3
  else none

/-- Residencies that no launch can use any more: flushed, with every launch accepted before the flush complete (R369). -/
def inUse (s : State) (sp : Space) (r : Resident) : Bool :=
  match r.flushed with
  | none => true
  | some n =>
    (s.launches.any fun l => l.state != .complete && l.asid == sp.asid && sub l.raw 0 8 == r.handle && decide (l.order < n)) ||
      s.ports.any fun p => p.slots.any fun x => x.asid == sp.asid && sub x.raw 0 8 == r.handle && decide (x.order < n)

/-- Load what a launch needs: the state with its object resident, and the reason of FAILED where there is one (R375, R387). An object
that has been loaded stays, where the launch cannot use it too. -/
def loadFor (s : State) (l : Launch) : State × Option Nat :=
  let refuse (s : State) : State × Option Nat :=
    (s, match residentOf s l with
      | none => some 3
      | some r => residentRefuses r l)
  match findSpace s l.asid with
  | none => (s, some 2)
  | some sp =>
    if (residentOf s l).isSome then refuse s
    else
      let handle := sub l.raw 0 8
      match codeEntry s sp handle with
      | none => (s, some 2)
      | some (a, len) =>
        match fetchObject s a len with
        | none => (s, some 3)
        | some img =>
          let s := imageTables sp img s
          let sp := { sp with resident := sp.resident.filter (inUse s sp) }
          match placeImage (putSpace sp s) sp handle (a, len) img with
          | none => (s, some 3)
          | some s' => refuse s'

end Sys2Proof.Machine
end

