-- ==== Sys2Proof/Machine/Units.lean ====
section
/-!
DEFINITION. Steps of the homes (R251, R316), of the scrubbers and base dies (R301, R354 to R367), and the failures and
retirements of units (R319, R327, R345, R346, R366).
-/
namespace Sys2Proof.Machine

/-- Continue a device step only where the rules enable it. -/
def enabled (c : Bool) (why : String) : M Unit := if c then pure () else notEnabled why

/-- Bytes that a reader outside the strands receives; a word that cannot be read gives free values, and an HBM word becomes
suspect (R301, R355). -/
def outsideRead (pa n : Nat) : M (List Byte) := do
  let s ← get
  if readsBad s pa n then
    set (suspectRead pa n { s with free := s.free + 1 })
    return (rangeFrom 0 n).map fun i => BitVec.ofNat 8 ((Config.freeWord s.free).toNat / 2 ^ (8 * (i % 8)))
  else return homeBytes s pa n

/-! ### Homes -/

/-- A naturally aligned access of 1, 2, 4 or 8 bytes. -/
def wordAccess (pa n : Nat) : Bool := (n == 1 || n == 2 || n == 4 || n == 8) && pa % n == 0

/-- HOME_ACCESS_APPLY (R251): an access of an agent outside the strands, taken as the host (log 10). A read's bytes stand in
hostRead. -/
def execHomeAccessApply (write : Bool) (pa bytes : Nat) (data : Word) (s : State) : Host.Outcome State Fault Refusal :=
  runEvent (do
    let s ← get
    enabled (wordAccess pa bytes && (inHbm s pa || inTile s pa)) "home access"
    if write then modify (homeWrite .host pa (toBytes bytes data.toNat))
    else do
      let bs ← outsideRead pa bytes
      modify fun s => { s with hostRead := bs }) s

/-- The new value of a token, none where it writes nothing. -/
def tokenApply (op : TokenOp) (t : ETag) (mode : RMode) (m a cmp : Nat) : Option Nat :=
  let v (o : VAmo) : Option Nat := some (tokenNew o t mode m a).1
  match op with
  | .amo o => some (amoNew o t.width m a)
  | .vadd => v .add
  | .vmin => v .min
  | .vmax => v .max
  | .vand => v .and
  | .vor => v .or
  | .vxor => v .xor
  | .vswp => v .swp
  | .vcas => if m = cmp then some a else none

/-- The types of a token (R157, R258). -/
def tokenAccepts (op : TokenOp) (t : ETag) : Bool :=
  match op with
  | .amo _ => t == .i32 || t == .i64
  | .vadd => VAmo.add.accepts t
  | .vmin => VAmo.min.accepts t
  | .vmax => VAmo.max.accepts t
  | _ => VAmo.swp.accepts t

/-- UPDATE_TOKEN_APPLY (R316): a token of another package's fabric engine (log 10), applied at the line's bank as one action. A
token whose word cannot be read is an uncorrectable error of its sender and writes nothing. The old value returns in
hostRead. -/
def execUpdateTokenApply (op : TokenOp) (ty : ETag) (pa : Nat) (data cmp : Word) (rm : Nat) (s : State) :
    Host.Outcome State Fault Refusal :=
  runEvent (do
    let s ← get
    let n := ty.width / 8
    enabled (tokenAccepts op ty && pa % n == 0 && (inHbm s pa || inTile s pa)) "update token"
    let old ← outsideRead pa n
    if readsBad s pa n then pure ()
    else do
      let m := ofBytes old
      match tokenApply op ty (RMode.ofCode rm) m (data.toNat % 2 ^ ty.width) (cmp.toNat % 2 ^ ty.width) with
      | some v => modify (homeWrite (.remote s.svc.pkg) pa (toBytes n v))
      | none => pure ()
      modify fun s => { s with hostRead := old }) s

/-! ### Scrubbing and repair -/

/-- Poison a word, where its region is live or lies in tile memory (R301, R360). -/
def poisonWord (w : Nat) (s : State) : State :=
  if w < 2 ^ 40 ∧ s.live.contains (regionOf w) = false then s else { s with poison := setAdd w s.poison }

/-- What a scrub finds in a word: 0 nothing, 1 a single-bit error, which it corrects, more an uncorrectable error, which
poisons the word and marks it suspect, as the read of a word that is poisoned does (R301, R355). -/
def scrubWord (pa err : Nat) (s : State) : State :=
  if s.poison.contains pa then suspectRead pa 1 s
  else if err = 0 then s
  else if err = 1 then rasLog 5 (memLoc pa) pa s
  else rasLog 6 (memLoc pa) pa (suspectRead pa 1 (poisonWord pa s))

/-- PATROL_SCRUB (R301). -/
def execPatrolScrub (pa err : Nat) (s : State) : Host.Outcome State Fault Refusal :=
  runEvent (do
    let s ← get
    enabled (inTile s pa && !lost s pa && pa % 8 == 0) "patrol scrub"
    set (scrubWord pa err s)) s

/-- FIXER_SCRUB (R364): words of live regions only (R360). -/
def execFixerScrub (pa err : Nat) (s : State) : Host.Outcome State Fault Refusal :=
  runEvent (do
    let s ← get
    enabled (inHbm s pa && !lost s pa && pa % 8 == 0 && s.live.contains (regionOf pa)) "fixer scrub"
    set (scrubWord pa err s)) s

/-- SUSPECT_REREAD (R364): a word whose stored bits were intact becomes readable again. -/
def execSuspectReread (pa : Nat) (intact : Bool) (s : State) : Host.Outcome State Fault Refusal :=
  runEvent (do
    let s ← get
    enabled (s.suspect.contains pa && !lost s pa) "suspect re-read"
    set { s with suspect := s.suspect.filter (· != pa)
                 poison := if intact then s.poison.filter (· != pa) else s.poison }) s

/-- A word that cannot be read as its row is replaced is poisoned, with an entry of the log where it was not (R404), and suspect
(R355). -/
def spareWord (s : State) (w : Nat) : State :=
  let t := suspectRead w 1 (poisonWord w s)
  if t.poison = s.poison then t else rasLog 6 (memLoc w) w t

/-- A row is replaced by a spare row: words keep their values, and those that cannot be read are poisoned (R319, R364). -/
def spareRow (pa bytes : Nat) (unreadable : List Nat) (s : State) : State :=
  rasLog 7 (memLoc pa) pa
    ((unreadable.filter fun w => w % 8 == 0 && decide (pa ≤ w) && decide (w < pa + bytes)).foldl spareWord s)

/-- ROW_SPARING (R364). -/
def execRowSparing (pa bytes : Nat) (unreadable : List Nat) (s : State) : Host.Outcome State Fault Refusal :=
  runEvent (do
    let s ← get
    enabled (inHbm s pa && !lost s pa && pa % 8 == 0 && bytes % 8 == 0 && inHbm s (pa + bytes - 1)) "row sparing"
    set (spareRow pa bytes unreadable s)) s

/-- BANK_ROW_SPARING (R319). -/
def execBankRowSparing (pa bytes : Nat) (unreadable : List Nat) (s : State) : Host.Outcome State Fault Refusal :=
  runEvent (do
    let s ← get
    enabled (inTile s pa && !lost s pa && pa % 8 == 0 && bytes % 8 == 0 && inTile s (pa + bytes - 1)) "bank row sparing"
    set (spareRow pa bytes unreadable s)) s

/-! ### The memory-side cache, the write queue and the hot-row tracker (R354 to R357) -/

/-- Channel of an HBM address: 4 KiB blocks rotate across 32 channels (R353, informative). -/
def chanOf (pa : Nat) : Nat := pa / 4096 % 32

/-- MEMORY_SIDE_CACHE_LINE_MOVE (R354): a line leaves for the array by its channel's write queue, or comes from the array. The
bytes and their poison stand at the home in either place. -/
def execMemorySideCacheLineMove (line : Nat) (toArray : Bool) (s : State) : Host.Outcome State Fault Refusal :=
  runEvent (do
    let s ← get
    enabled (inHbm s line && line % 64 == 0 && (s.mscLines.contains line == toArray)) "line move"
    if toArray then
      set { s with mscLines := s.mscLines.filter (· != line)
                   writeQueue := s.writeQueue ++ [(line / 2 ^ 36, chanOf line, line)] }
    else set { s with mscLines := setAdd line s.mscLines }) s

/-- Writes that wait on a channel. -/
def queued (s : State) (stack chan : Nat) : Nat := (s.writeQueue.filter fun w => w.1 == stack && w.2.1 == chan).length

/-- Let the n oldest writes of a channel reach the array. -/
def drainOldest (stack chan : Nat) : Nat → List (Nat × Nat × Nat) → List (Nat × Nat × Nat)
  | 0, q => q
  | _, [] => []
  | n + 1, w :: q =>
    if w.1 = stack ∧ w.2.1 = chan then drainOldest stack chan n q else w :: drainOldest stack chan (n + 1) q

/-- WRITE_QUEUE_DRAIN (R356): from the high watermark down to the low one; below it, one write of a channel without reads. -/
def execWriteQueueDrain (stack chan : Nat) (s : State) : Host.Outcome State Fault Refusal :=
  runEvent (do
    let s ← get
    let n := queued s stack chan
    enabled (n != 0) "write queue drain"
    let r := stackReg s stack
    let low := r.lo * Config.writeQueueEntries / 64
    let k := if r.hi * Config.writeQueueEntries ≤ 64 * n then n - low else 1
    set { s with writeQueue := drainOldest stack chan k s.writeQueue }) s

/-- Counters of a bank. -/
def bankRows (s : State) (stack bank : Nat) : List RowCounter := s.rows.filter fun r => r.stack == stack && r.bank == bank

/-- Hot-row counters of a bank, k of R357. -/
def rowCounters : Nat := 16

/-- OnActivate of R357 up to the comparison with thr. -/
def countRow (stack bank row : Nat) (s : State) : List RowCounter :=
  let here := bankRows s stack bank
  let rest := s.rows.filter fun r => !(r.stack == stack && r.bank == bank)
  if here.any (·.row == row) then (here.map fun r => if r.row = row then { r with count := r.count + 1 } else r) ++ rest
  else if here.length < rowCounters then ⟨stack, bank, row, 1⟩ :: s.rows
  else ((here.map fun r => { r with count := r.count - 1 }).filter (·.count != 0)) ++ rest

/-- ROW_ACTIVATE (R357): an access of an address opens a row of the array of its stack. The tracker skips a region that is not live
(R360). -/
def execRowActivate (pa bank row : Nat) (s : State) : Host.Outcome State Fault Refusal :=
  runEvent (do
    let s ← get
    enabled (decide (pa < 2 ^ 40) && bit s.svc.hbmStacks (pa / 2 ^ 36)) "row activation"
    if s.live.contains (regionOf pa) then set (countActivation (pa / 2 ^ 36) bank row s)) s
where
  /-- OnActivate of R357; the refresh that a row calls for is a tracker event, which the fixer core enters in the log (R364). -/
  countActivation (stack bank row : Nat) (s : State) : State :=
    let r := stackReg s stack
    let rows := countRow stack bank row s
    let hot := rows.any fun c => c.stack == stack && c.bank == bank && c.row == row && decide (r.thr ≤ c.count)
    if hot then
      let near := ((rangeFrom (row - r.radius) (row - (row - r.radius))) ++ rangeFrom (row + 1) r.radius).map fun n => (stack, bank, n)
      rasLogOther stack 0
        { s with rows := rows.filter fun c => !(c.stack == stack && c.bank == bank && c.row == row), refreshed := s.refreshed ++ near }
    else { s with rows := rows }

/-- REFRESH_WINDOW_START (R357). -/
def execRefreshWindowStart (stack bank : Nat) (s : State) : Host.Outcome State Fault Refusal :=
  runEvent (do
    let s ← get
    enabled (bit s.svc.hbmStacks stack) "refresh window"
    set { s with rows := s.rows.filter fun r => !(r.stack == stack && r.bank == bank) }) s

/-! ### Control registers of a stack (R367, R359) -/

/-- WMARK_WRITE (R367); the writer is the running strand, as for HROW and ELIDE. -/
def execWmarkWrite (stack : Nat) (value : Word) (s : State) : Host.Outcome State Fault Refusal :=
  runEvent (do
    enabled (bit (← get).svc.hbmStacks stack) "wmark"
    modify fun s => ctlWrite s.hart.agent stack 8 value s) s

/-- HROW_WRITE (R367). -/
def execHrowWrite (stack : Nat) (value : Word) (s : State) : Host.Outcome State Fault Refusal :=
  runEvent (do
    enabled (bit (← get).svc.hbmStacks stack) "hrow"
    modify fun s => ctlWrite s.hart.agent stack 0x10 value s) s

/-- ELIDE_MARK (R359): the base die applies the mark; the writer is the running strand. -/
def execElideMark (stack : Nat) (value : Word) (s : State) : Host.Outcome State Fault Refusal :=
  runEvent (do
    let s ← get
    enabled (bit s.svc.hbmStacks stack) "elide"
    set (ctlWrite s.hart.agent stack 0x18 value s)) s

/-! ### UCIe modules and lane links (R327, R365, R366) -/

/-- UCIE_RETRAIN (R327): timing only, with an entry of the log (R404). -/
def execUcieRetrain (module : Nat) (s : State) : Host.Outcome State Fault Refusal :=
  runEvent (do
    let s ← get
    enabled (!s.lostModules.contains module) "retrain"
    set (rasLog 8 (module % 16) 0 s)) s

/-- Cut with AUTO every chain on a lost lane link, and re-form it at once with the link relayed (R222, R327). -/
def relayLinks (crosses : Strand → LinkEnt → Bool) (s : State) : State :=
  (s.hart :: s.parked).foldl (fun s h =>
    if h.status ≠ .running then s
    else (rangeFrom 0 4).foldl (fun s ci =>
      if (h.chain ci).runs && (h.chain ci).rcd.links.any (crosses h) then
        asStrand h.sid (fun s => resumeChain ci (cutChain ci 7 7 none s)) s
      else s) s) s

/-- UCIE_MODULE_LOST (R366, R327): the given ports are those whose links cross the module. -/
def execUcieModuleLost (module : Nat) (links : List (Place × Nat)) (s : State) : Host.Outcome State Fault Refusal :=
  runEvent (do
    let s ← get
    enabled (!s.lostModules.contains module) "module lost"
    let crosses (h : Strand) (e : LinkEnt) : Bool := links.any fun l =>
      l.1.die == h.place.die && l.1.cluster == h.place.cluster && l.1.core == h.place.core && l.2 == e.dir
    set (relayLinks crosses (rasLog 8 (module % 16) 0 { s with lostModules := setAdd module s.lostModules }))) s

/-! ### Lost memory (R319, R366) -/

/-- BANK_LOST (R319). -/
def execBankLost (die cluster bank : Nat) (s : State) : Host.Outcome State Fault Refusal :=
  runEvent (do
    let s ← get
    enabled (decide (die < 8) && decide (cluster < Config.clusters) && decide (bank < 64) &&
      !s.lostBanks.contains (die, cluster, bank)) "bank lost"
    set (rasLog 6 (die + 8 * cluster) 0 { s with lostBanks := (die, cluster, bank) :: s.lostBanks })) s

/-- Whether the cluster or stack of an update node has joined (R398). -/
def nodeThere (s : State) : NodeSite → Bool
  | .cluster d c => bit s.svc.dies d && decide (c < Config.clusters) && !s.svc.deadClusters.contains (d, c)
  | .stack k => bit s.svc.hbmStacks k

/-- UPDATE_NODE_LOST (R319, R363). -/
def execUpdateNodeLost (site : NodeSite) (s : State) : Host.Outcome State Fault Refusal :=
  runEvent (do
    let s ← get
    enabled (nodeThere s site && !s.lostNodes.contains site) "update node lost"
    let loc := match site with
      | .cluster d c => d + 8 * c
      | .stack k => k
    set (rasLog 6 loc 0 { s with lostNodes := site :: s.lostNodes })) s

/-- Commands on an engine that has been lost: one in progress ends with FAULT, a queued one passes to the other engine or, when
both are lost, ends too, at once or as soon as no earlier command that it overlaps is left (R314, R319). -/
def loseEngine (die cluster engine : Nat) (s : State) : State :=
  let s := { s with lostEngines := (die, cluster, engine) :: s.lostEngines }
  let both := s.lostEngines.contains (die, cluster, 1 - engine)
  s.cmds.foldl (fun s c =>
    match c.body with
    | .engine _ _ =>
      if c.fin.isNone && c.die == die && c.cluster == cluster && c.engine == engine then
        if both || c.next != 0 then (if mustWait s c then s else endCommand c ⟨4, stopCount c, 28, 0⟩ 0 s)
        else putCmd { c with engine := 1 - engine } s
      else s
    | _ => s) s

/-- ENGINE_LOST (R319). -/
def execEngineLost (die cluster engine : Nat) (s : State) : Host.Outcome State Fault Refusal :=
  runEvent (do
    let s ← get
    enabled (decide (die < 8) && decide (cluster < Config.clusters) && decide (engine < 2) &&
      !s.lostEngines.contains (die, cluster, engine)) "engine lost"
    set (rasLogOther (die + 8 * cluster) 0 (loseEngine die cluster engine s))) s

/-! ### Retirement (R345, R346) -/

/-- The state of a strand is lost: its launch is replayed, or it ends with CONTEXT_LOST (R283, R286, R345). -/
def loseContext (sid : Nat) (s : State) : State :=
  match findStrand s sid with
  | none => s
  | some h =>
    match findLaunch s h.launch with
    | none => asStrand sid endHart s
    | some l =>
      let s := asStrand sid endHart s
      if l.state ≠ .running then s
      else if l.ctl 20 1 = 1 then callReplay l.id s
      else drainLaunch { l with code := 7, reason := 5 } (rasLog 11 (coreLoc h.place 0 0) 0 s)

/-- Pre-empt strands in order, each with the places of its own two copies as far as they are given (R284, R286). -/
def saveAll : List Strand → List (Nat × Nat) → State → State
  | [], _, s => s
  | h :: hs, cs, s => saveAll hs (cs.drop 1) (preempted h (nth cs 0 (0, 0)).1 (nth cs 0 (0, 0)).2 s)

/-- Whether a strand is placed on a core, running or in the middle of its save. -/
def liesOn (h : Strand) (die cluster core : Nat) : Bool :=
  (h.status == .running || h.status == .saving) && h.place.die == die && h.place.cluster == cluster && h.place.core == core

/-- A core takes no work again: its TLB and caches are discarded, its ports have no neighbour (R345). -/
def clearCore (die cluster core : Nat) (s : State) : State :=
  let p : Place := ⟨die, cluster, core, 0⟩
  let n := coreNo p
  let c := { coreInfo s p with retired := true, portHolder := [] }
  let s := if (findCore s p).isSome then putCore c s else { s with cores := c :: s.cores }
  { s with
    tlb := s.tlb.filter fun t => t.site != .core n
    icache := s.icache.filter fun l => l.core != n
    dcache := s.dcache.filter fun l => l.core != n }

/-- A core is retired, with its entry of the log (R345, R404). -/
def dropCore (die cluster core : Nat) (s : State) : State :=
  rasLog 4 (coreLoc ⟨die, cluster, core, 0⟩ 0 0) 0 (clearCore die cluster core s)

/-- Every core in service of a die is retired, every cluster of it and the die itself, each with its entry of the log, once
(R345, R346, R404). -/
def dropDie (die : Nat) (s : State) : State :=
  let s := (rangeFrom 0 Config.clusters).foldl (fun s c =>
    let s := (rangeFrom 0 Config.cores).foldl (fun s k => if coreInService s ⟨die, c, k, 0⟩ then dropCore die c k s else s) s
    if s.svc.deadClusters.contains (die, c) then s else rasLog 4 (coreLoc ⟨die, c, 0, 0⟩ 0 0) 0 s) s
  rasLog 4 (coreLoc ⟨die, 0, 0, 0⟩ 0 0) 0 s

/-- The strands on failing cores leave them: one whose state cannot be read is lost, the others are saved (R345). -/
def clearCores (here : Strand → Bool) (unread : List Nat) (copies : List (Nat × Nat)) (s : State) : State :=
  let s := ((strands s).filter fun h => here h && unread.contains h.sid).foldl (fun s h => loseContext h.sid s) s
  saveAll ((strands s).filter fun h => here h && h.status == .running) copies s

/-- CORE_RETIRE (R345, R319): its strands are saved, each at the places of its two copies, or lost when their state cannot be read. -/
def execCoreRetire (die cluster core : Nat) (unread copyA copyB : List Nat) (s : State) : Host.Outcome State Fault Refusal :=
  runEvent (do
    let s ← get
    let p : Place := ⟨die, cluster, core, 0⟩
    enabled (decide (die < 8) && decide (cluster < Config.clusters) && decide (core < Config.cores) && coreInService s p)
      "core retirement"
    set (dropCore die cluster core (clearCores (fun h => liesOn h die cluster core) unread (copyA.zip copyB) s))) s

/-- Whether a link entry of a strand leads to a core of a die. -/
def leadsTo (s : State) (die : Nat) (h : Strand) (e : LinkEnt) : Bool :=
  match neighbour s h.place e.dir e.pstr with
  | some p => p.die == die
  | none => false

/-- DIE_OUT_OF_SERVICE (R346): every core retired, every cluster wholly lost, every lane link on its edges lost. -/
def execDieOutOfService (die : Nat) (unread : List Nat) (copies : List (Nat × Nat)) (s : State) : Host.Outcome State Fault Refusal :=
  runEvent (do
    let s ← get
    enabled (decide (die < 8) && bit s.svc.dies die) "die out of service"
    let s' := clearCores (fun h => (h.status == .running || h.status == .saving) && h.place.die == die) unread copies s
    let s' := dropDie die (relayLinks (leadsTo s die) s')
    let s' := (rangeFrom 0 Config.clusters).foldl (fun s c =>
      let s := [0, 1].foldl (fun s e => if s.lostEngines.contains (die, c, e) then s else loseEngine die c e s) s
      if s.lostNodes.contains (.cluster die c) then s else { s with lostNodes := .cluster die c :: s.lostNodes }) s'
    set { s' with
      tlb := s'.tlb.filter fun t => t.site.die != die
      svc := { s'.svc with dies := s'.svc.dies &&& ~~~(1#8 <<< die), deadDies := s'.svc.deadDies ||| (1#8 <<< die) } }) s

end Sys2Proof.Machine
end

