-- ==== Sys2Proof/Machine/Shutter.lean ====
section
/-!
DEFINITION. The Shutter (21_launch_and_scheduling.md): records and host copies (R372 to R374), the graph and its states (R381, R382),
completion (R387), cancel and replay (R388, R390), the host copy engine (R374), dlaunch (R391).
-/
namespace Sys2Proof.Machine

/-! ### Launch identifiers -/

/-- The number under which a launch is kept: device identifiers count within their address space (R372, R391). -/
def launchKey (asid id : Nat) : Nat := if id.testBit 47 then asid * 2 ^ 48 + id else id

/-- Incomplete launches of the package. -/
def incompletes (s : State) : Nat := (s.launches.filter fun l => l.state != .complete).length

/-- The place of an accepted launch in the order of acceptance. -/
def acceptedOrder (s : State) (asid id : Nat) : Option Nat :=
  match findLaunch s (launchKey asid id) with
  | some l => some l.order
  | none =>
    if id.testBit 47 then none
    else (nth s.ports (id / 2 ^ 41) .start).slots.findSome? fun x => if x.seq = id % 2 ^ 41 then some x.order else none

/-! ### Records (R373, R374) -/

/-- A predecessor entry that keeps R373 for a record accepted at a place in the order. -/
def predEntry (s : State) (asid order e : Nat) : Option Pred :=
  if e % 4 = 1 then
    let id := e / 1024 % 2 ^ 48
    if e / 8 % 128 = 0 ∧ e / 2 ^ 58 = 0 then
      match acceptedOrder s asid id with
      | some o => if o < order then some (.launch (launchKey asid id) (e.testBit 2)) else none
      | none => none
    else none
  else if e % 4 = 2 then
    if e / 2 ^ 58 = 0 then some (.timeline (e / 4 % 256) (e / 1024 % 2 ^ 48)) else none
  else none

/-- The control word of a record. -/
def ctlWord (raw : List Byte) : Nat := sub raw 40 8

/-- The predecessors of a record, none where they break R373. -/
def recordPreds (s : State) (asid order : Nat) (raw : List Byte) : Option (List Pred) :=
  let n := ctlWord raw / 2 ^ 24 % 16
  if n ≤ 8 ∧ (rangeFrom n (8 - n)).all (fun i => sub raw (64 + 8 * i) 8 == 0) = true then
    allSome ((rangeFrom 0 n).map fun i => predEntry s asid order (sub raw (64 + 8 * i) 8))
  else none

/-- The fields that every record has: deadline and completion value. -/
def commonFields (raw : List Byte) : Bool :=
  decide (1 ≤ sub raw 56 8) && decide (sub raw 56 8 ≤ 2 ^ 40) && sub raw 54 2 == 0

/-- Whether the fields of a launch keep R373; a row that leaves the package grid breaks it. -/
def launchFields (raw : List Byte) : Bool :=
  let c := ctlWord raw
  let f (lo n : Nat) : Nat := c / 2 ^ lo % 2 ^ n
  let lanes := f 12 4
  let row := f 28 2 == 2
  sub raw 10 6 == 0 && f 23 1 == 0 && f 30 2 == 0 && f 52 12 == 0 && decide (1 ≤ f 0 12) && decide (f 0 12 ≤ 3200) && laneCount lanes &&
    f 28 2 != 3 && sub raw 24 8 % 4096 == 0 && sub raw 24 8 != 0 && sub raw 32 8 % 32 == 0 &&
    (!row || (decide (f 32 6 < 40) && decide (f 38 6 + f 0 12 ≤ 40)))

/-- Whether the fields of a host copy keep R374. -/
def copyFields (raw : List Byte) : Bool :=
  let c := ctlWord raw
  let kept := (c / 2 ^ 16 % 8) * 2 ^ 16 + (c / 2 ^ 22 % 2) * 2 ^ 22 + (c / 2 ^ 24 % 16) * 2 ^ 24 + (c / 2 ^ 44 % 256) * 2 ^ 44
  c == kept && sub raw 32 8 / 2 % 16 == 0 && decide (sub raw 24 8 < 2 ^ 48)

/-- Whether a record is a host copy. -/
def isCopy (raw : List Byte) : Bool := sub raw 0 8 == 0

/-- The predecessors of a valid record, none for one that breaks R373 or R374. -/
def recordCheck (s : State) (asid order : Nat) (raw : List Byte) : Option (List Pred) :=
  if commonFields raw && (if isCopy raw then copyFields raw else launchFields raw) then recordPreds s asid order raw else none

/-- A node of the graph for a record. -/
def newLaunch (key asid : Nat) (port : Option Nat) (raw : List Byte) (prio : Nat) (safe : Bool) (preds : List Pred)
    (time order : Nat) : Launch :=
  { id := key, asid := asid, port := port, raw := raw, prio := prio, safe := safe, waiting := preds, state := .accepted
    accepted := time, order := order, placed := false, loaded := false, started := [], code := 0, reason := 0, replays := 0
    faultIdx := 0, scause := 0, stval := 0#64, dies := 0#8, trigger := false, replaying := false, flow := none }

/-! ### Predecessors (R381) -/

/-- Word t of an address space's launch timeline table (R370). One that cannot be read is a free value: the spec does not say what the
Shutter takes it for (log 24). -/
def timelineWord (s : State) (asid t : Nat) : Nat :=
  match findSpace s asid with
  | some sp =>
    let pa := sp.ttable + 8 * t
    if (inHbm s pa || inTile s pa) && !readsBad s pa 8 then homeRead s pa 8 else (Config.freeWord s.free).toNat
  | none => 0

/-- The Shutter reads word t of a launch timeline table: one that is poisoned is suspect (R355). -/
def timelineMet (asid t : Nat) (s : State) : State :=
  match findSpace s asid with
  | some sp => suspectRead (sp.ttable + 8 * t) 8 s
  | none => s

/-- The Shutter reads the timeline words that the waiting nodes name. -/
def timelinesMet (s : State) : State :=
  s.launches.foldl (fun s l =>
    if l.state = .accepted then
      l.waiting.foldl (fun s p => match p with
        | .timeline t _ => timelineMet l.asid t s
        | .launch _ _ => s) s
    else s) s

/-- What a predecessor says now: satisfied, cancelling, or nothing yet. -/
def predSays (s : State) (asid : Nat) : Pred → Option Bool
  | .timeline t n => if n ≤ timelineWord s asid t then some true else none
  | .launch key succ =>
    match findLaunch s key with
    | some l => if l.state = .complete then some (!succ || l.code == 0) else none
    | none => none

/-- Satisfy what can be satisfied: waiting nodes lose satisfied predecessors and become READY; the keys answered are those of
nodes that a failed predecessor cancels. -/
def satisfy (s : State) : State × List Nat :=
  let cancel := s.launches.filter fun l => l.state == .accepted && l.waiting.any fun p => predSays s l.asid p == some false
  ({ timelinesMet s with launches := s.launches.map fun l =>
      if l.state = .accepted then
        let w := l.waiting.filter fun p => (predSays s l.asid p).isNone
        if w = [] ∧ (l.waiting.any fun p => predSays s l.asid p == some false) = false then { l with waiting := [], state := .ready }
        else { l with waiting := w ++ l.waiting.filter fun p => predSays s l.asid p == some false }
      else l },
   cancel.map (·.id))

/-! ### Completion (R387) -/

/-- The status-record address of a node. -/
def srecOf (raw : List Byte) : Nat := if isCopy raw then sub raw 32 8 / 32 * 32 else sub raw 32 8

/-- The words of the status record. -/
def statusWords (s : State) (l : Launch) : List Nat :=
  [l.code + 256 * l.reason + 2 ^ 16 * l.replays + (if l.code = 4 then 2 ^ 20 * l.faultIdx + 2 ^ 32 * l.scause else 0),
   (if l.code = 4 then l.stval.toNat else 0), l.id % 2 ^ 48, s.now]

/-- Steps 1 to 4 of R387. -/
def report (l : Launch) (s : State) : State :=
  match findSpace s l.asid with
  | none => s
  | some sp =>
    let s := writeRecord none .shutter (packageRealm sp.asid (nth sp.roots 0 0)) true (srecOf l.raw) (statusWords s l) s
    let t := l.ctl 44 8
    let v := max (timelineWord s l.asid t) (sub l.raw 48 6)
    let s := hbmWrite (sp.ttable + 8 * t) (toBytes 8 v) (timelineMet l.asid t s)
    let s := if sp.mirror = 0 then s else { s with hostMem := s.hostMem.putBytes (sp.mirror + 8 * t) (toBytes 8 v) }
    match l.port with
    | some p => if l.ctl 22 1 = 1 then { s with msix := s.msix ++ [((nth s.ports p .start).vec, (nth s.ports p .start).vf)] } else s
    | none => s

/-- Complete a node, and every node that its end cancels (R381, R382, R387). -/
def completeLaunch : Nat → Nat → State → State
  | 0, _, s => s
  | n + 1, key, s =>
    match findLaunch s key with
    | none => s
    | some l =>
      if l.state = .complete then s
      else
        let s := setLaunch { l with state := .complete, waiting := [], replaying := false } (report l s)
        let s := { s with parked := s.parked.filter fun h => !(h.launch == key && h.status == .ended)
                          reels := s.reels.filter fun r => r.launch != key }
        let r := satisfy s
        r.2.foldl (fun s k =>
          match findLaunch s k with
          | some w => completeLaunch n k (setLaunch { w with code := 6, reason := 2 } s)
          | none => s) r.1

/-- Complete a node with a code and a reason. -/
def endLaunch (key code reason : Nat) (s : State) : State :=
  match findLaunch s key with
  | none => s
  | some l => completeLaunch (s.launches.length + 1) key (setLaunch { l with code := code, reason := reason } s)

/-- Take a node into the graph: an invalid record completes at once, FAILED RECORD; else its predecessors are counted
(R372, R381). -/
def enterGraph (l : Launch) (valid : Bool) (s : State) : State :=
  let s := { s with launches := s.launches ++ [l] }
  if !valid then endLaunch l.id 7 1 s
  else
    let r := satisfy s
    r.2.foldl (fun s k => endLaunch k 6 2 s) r.1

/-- LAUNCH_COMPLETE (R387): every strand has ended and every command of its strands too. -/
def execLaunchComplete (launch : Nat) (s : State) : Host.Outcome State Fault Refusal :=
  runEvent (do
    let s ← get
    match findLaunch s launch with
    | none => notEnabled "launch complete"
    | some l =>
      enabled (l.state == .draining && liveStrands s launch == [] && !(s.cmds.any fun c => c.launch == launch && c.fin.isNone))
        "launch complete"
      set (completeLaunch (s.launches.length + 1) launch s)) s

/-- LAUNCH_DEADLINE_EXPIRY (R382): counted from acceptance, before the launch is placed. -/
def execLaunchDeadlineExpiry (launch : Nat) (s : State) : Host.Outcome State Fault Refusal :=
  runEvent (do
    let s ← get
    match findLaunch s launch with
    | none => notEnabled "launch deadline"
    | some l =>
      enabled ((l.state == .accepted || l.state == .ready) && !l.placed && decide (l.accepted + sub l.raw 56 8 ≤ s.now))
        "launch deadline"
      set (endLaunch launch 1 0 s)) s

/-! ### Ports (R372, R388) -/

/-- Change a port. -/
def modPort (p : Nat) (f : Port → Port) (s : State) : State := { s with ports := s.ports.set p (f (nth s.ports p .start)) }

/-- Lay bytes over a list from an offset; what lies beyond the list is dropped. -/
def layBytes (old : List Byte) (off : Nat) (new : List Byte) : List Byte :=
  (rangeFrom 0 old.length).map fun i => if off ≤ i ∧ i < off + new.length then nth new (i - off) 0#8 else nth old i 0#8

/-- A host write of the record area; one that covers byte 0x07F accepts or drops the record (R372). -/
def writeArea_ (port off : Nat) (data : List Byte) (s : State) : State :=
  let s := modPort port (fun p => { p with area := layBytes p.area off data }) s
  if off ≤ 0x7F ∧ 0x7F < off + data.length then
    let p := nth s.ports port .start
    if p.free = 0 ∨ p.en = false then modPort port (fun p => { p with drop := true }) s
    else
      let x : SlotRec := ⟨p.seq + 1, s.nextOrder, s.now, p.asid, p.area⟩
      modPort port (fun p => { p with free := p.free - 1, seq := p.seq + 1, slots := p.slots ++ [x] })
        { s with nextOrder := s.nextOrder + 1 }
  else s

/-- PORT_RECORD_ACCEPT (R372). -/
def execPortRecordAccept (port off : Nat) (data : List Byte) (s : State) : Host.Outcome State Fault Refusal :=
  runEvent (do
    enabled (decide (port < 64) && decide (off ≤ 0x7F) && decide (0x7F < off + data.length)) "record accept"
    modify (writeArea_ port off data)) s

/-- The node of a record in a port's slot, and whether the record is valid. -/
def slotLaunch (s : State) (port : Nat) (x : SlotRec) : Launch × Bool :=
  let preds := recordCheck s x.asid x.order x.raw
  let c := ctlWord x.raw
  (newLaunch (port * 2 ^ 41 + x.seq) x.asid (some port) x.raw (c / 2 ^ 16 % 8) (!isCopy x.raw && c.testBit 21)
    (preds.getD []) x.time x.order, preds.isSome)

/-- RECORD_TAKE (R372): the oldest record of a port. -/
def execRecordTake (port : Nat) (s : State) : Host.Outcome State Fault Refusal :=
  runEvent (do
    let s ← get
    match (nth s.ports port .start).slots with
    | [] => notEnabled "record take"
    | x :: rest =>
      enabled (decide (port < 64) && decide (incompletes s < 65536)) "record take"
      let l := slotLaunch s port x
      set (enterGraph l.1 l.2 (modPort port (fun p => { p with free := p.free + 1, slots := rest }) s))) s

/-- Cancel a launch of an address space (R388): one that is not placed completes at once; a running one drains. -/
def cancelLaunch (asid key : Nat) (s : State) : State :=
  match findLaunch s key with
  | none => s
  | some l =>
    if l.asid ≠ asid then s
    else match l.state with
      | .accepted | .ready => endLaunch key 6 1 s
      | .running => drainLaunch { l with code := 6, reason := 1, replaying := false } s
      | _ => s

/-- PCAN is written (R371, R388); a record still in a slot is a launch that is not placed. -/
def cancelWrite (port bytes : Nat) (value : Word) (s : State) : State :=
  if bytes ≠ 8 then s
  else
    let asid := (nth s.ports port .start).asid
    let id := value.toNat % 2 ^ 48
    let q := id / 2 ^ 41
    match (if id.testBit 47 then none else (nth s.ports q .start).slots.find? fun x => x.seq == id % 2 ^ 41 && x.asid == asid) with
    | some x =>
      let l := slotLaunch s q x
      endLaunch l.1.id 6 1 { modPort q (fun p => { p with free := p.free + 1, slots := p.slots.filter (· != x) }) s with
        launches := s.launches ++ [l.1] }
    | none => cancelLaunch asid (launchKey asid id) s

/-- PCAN_WRITE (R388). -/
def execPcanWrite (port bytes : Nat) (value : Word) (s : State) : Host.Outcome State Fault Refusal :=
  runEvent (do
    enabled (decide (port < 64)) "pcan"
    modify (cancelWrite port bytes value)) s

/-! ### Replay (R390) -/

/-- Rewrite the data of a launch's resident image from the code object as the host holds it, through the die-0 root; none where that
object does not load any more. -/
def rewriteData (l : Launch) (s : State) : Option State :=
  match findSpace s l.asid, residentOf s l with
  | some sp, some r =>
    (fetchObject s r.object.1 r.object.2).map fun img =>
      (img.sections.filter fun x => !r.flaset && (x.kind == 2 || x.kind == 3)).foldl (fun s x =>
        ((rangeFrom 0 x.bytes.length).zip x.bytes).foldl (fun s b =>
          let root := nth sp.roots 0 0
          match translate s root false .load (x.va + b.1) with
          | .ok (pa, _) => homeWrite .shutter pa [b.2] s
          | .error _ => suspectWalk (walkReads s root (x.va + b.1) none) s) s) s
  | _, _ => some s

/-- Every strand of a launch ends without a save; one whose save is in progress ends when the save has (R386, R390). -/
def endStrands (launch : Nat) (s : State) : State :=
  ((strands s).filter fun h => h.launch == launch && h.status != .unplaced && h.status != .saving).foldl
    (fun s h => asStrand h.sid endHart s) s

/-- LAUNCH_REPLAY (R390): a consumed error of a replayable launch calls for it, and ends every strand; once their commands have ended,
the data is rewritten and the launch is READY again. The fourth trigger ends it. DESIGN CHOICE (log 27): a code object that does
not load any more ends the launch with LOAD_ERROR. -/
def execLaunchReplay (launch : Nat) (s : State) : Host.Outcome State Fault Refusal :=
  runEvent (do
    let s ← get
    match findLaunch s launch with
    | none => notEnabled "replay"
    | some l =>
      if l.state ≠ .running ∨ l.ctl 20 1 ≠ 1 ∨ (l.trigger = false ∧ l.replaying = false) then notEnabled "replay"
      else if l.replays = 3 then
        set (drainLaunch { l with code := 7, reason := 6, trigger := false, replaying := false } (endStrands launch s))
      else
        let s := endStrands launch s
        let busy := (s.cmds.any fun c => c.launch == launch && c.fin.isNone) || !(liveStrands s launch).isEmpty
        if busy then
          enabled (!l.replaying) "replay"
          set (setLaunch { l with trigger := false, replaying := true } s)
        else match rewriteData l (rasLog 10 0 0 s) with
        | none => set (setLaunch { l with state := .draining, code := 7, reason := 3, trigger := false, replaying := false } s)
        | some s =>
          let s := { s with parked := s.parked.filter fun h => !(h.launch == launch && h.status == .ended)
                            reels := s.reels.filter fun r => r.launch != launch }
          set (setLaunch { l with
            state := .ready, started := [], replays := l.replays + 1, trigger := false, replaying := false, flow := none } s)) s

/-! ### Host copies (R374) -/

/-- Copy n bytes upward: the state and, at a fault, its cause and address. -/
def copyBytes (r : Realm) (toHost : Bool) : Nat → Nat → Nat → State → State × Option (Nat × Nat)
  | 0, _, _, s => (s, none)
  | n + 1, src, dst, s =>
    let va := if toHost then src else dst
    match agentAddr s r true (if toHost then .load else .store) (va % 2 ^ 64) 1 with
    | .error c => (suspectAt r true c (va % 2 ^ 64) s, some (if c = 28 then 28 else if toHost then 13 else 15, va % 2 ^ 64))
    | .ok pa =>
      if toHost then
        if readsBad s pa 1 then (suspectRead pa 1 s, some (28, va % 2 ^ 64))
        else copyBytes r toHost n (src + 1) (dst + 1) { s with hostMem := s.hostMem.put dst (s.mem.get pa) }
      else copyBytes r toHost n (src + 1) (dst + 1) (homeWrite .ioCopy pa [s.hostMem.get src] s)

/-- HOST_COPY (R374): the copy engine performs a ready copy; it then drains. -/
def execHostCopy (launch : Nat) (s : State) : Host.Outcome State Fault Refusal :=
  runEvent (do
    let s ← get
    match findLaunch s launch with
    | none => notEnabled "host copy"
    | some l =>
      match findSpace s l.asid with
      | none => notEnabled "host copy"
      | some sp =>
        enabled (isCopy l.raw && l.state == .ready && s.svc.boot != .boot) "host copy"
        let r := copyBytes (packageRealm sp.asid (nth sp.roots 0 0)) ((sub l.raw 32 8).testBit 0) (sub l.raw 24 8) (sub l.raw 8 8) (sub l.raw 16 8) s
        let l := { l with state := .draining, placed := true }
        set (setLaunch (match r.2 with
          | none => l
          | some (c, a) => { l with code := 4, scause := c, stval := BitVec.ofNat 64 a }) r.1)) s

/-! ### The loader's step -/

/-- CODE_OBJECT_LOAD (R375 to R377): a READY launch finds or loads its object, or ends FAILED. -/
def execCodeObjectLoad (launch : Nat) (s : State) : Host.Outcome State Fault Refusal :=
  runEvent (do
    let s ← get
    match findLaunch s launch with
    | none => notEnabled "code object load"
    | some l =>
      enabled (!isCopy l.raw && l.state == .ready && !l.loaded) "code object load"
      match loadFor s l with
      | (s', some why) => set (endLaunch launch 7 why s')
      | (s', none) => set (setLaunch { l with loaded := true } s')) s

/-! ### dlaunch (R391) -/

/-- How dlaunch waits: the token holds the record that was read at issue. -/
def dlaunchOps (rs2 rd : BitVec 5) : WaitOps where
  attempt := do
    let raw := toBytes 128 (← getWait 0 (·.token))
    if incompletes (← get) < 65536 then
      endRewind
      let s ← get
      let h := s.hart
      match findSpace s h.asid with
      | none => return false
      | some sp =>
        let mine := findLaunch s h.launch
        let id := 2 ^ 47 + sp.devSeq + 1
        let c := ctlWord raw
        let prio := min (c / 2 ^ 16 % 8) ((mine.map (·.prio)).getD 7)
        let safe := !isCopy raw && c.testBit 21 && (mine.map (·.safe)).getD true
        let preds := recordCheck s h.asid s.nextOrder raw
        let l := newLaunch (launchKey h.asid id) h.asid none raw prio safe (preds.getD []) s.now s.nextOrder
        modify fun s => enterGraph l preds.isSome { putSpace { sp with devSeq := sp.devSeq + 1 } s with nextOrder := s.nextOrder + 1 }
        writeX rd (status 0 id)
        return true
    else return false
  withdraw := pure ()
  expired := writeX rd (status 1 0)
  deadline := readX rs2

/-- dlaunch (R391). -/
def execDlaunch (rs2 rs1 rd : BitVec 5) (s : State) : Host.Outcome State Fault Refusal :=
  runInstr (.dlaunch rs2 rs1 rd) (do
    let a := (← readX rs1).toNat
    let raw ← readStruct a 128
    let s ← get
    if (recordCheck s s.hart.asid s.nextOrder raw).isNone then writeX rd (status 7 1)
    else startWait (.dlaunch rs2 rs1 rd) 0#64 (ofBytes raw) (dlaunchOps rs2 rd)) s

end Sys2Proof.Machine
end

