-- ==== Sys2Proof/Machine/Services.lean ====
section
/-!
DEFINITION. What the host does through BAR0, BAR2 and BAR4 (R269, R368 to R371, R402, R405, R406), the address-space commands
(R369, R370), boot and self-test (R397 to R400), attestation (R401), power and temperature (R403).
-/
namespace Sys2Proof.Machine

/-! ### BAR4 (R269) -/

/-- HOST_BAR4_WRITE (R269). -/
def execHostBar4Write (pa : Nat) (data : List Byte) (s : State) : Host.Outcome State Fault Refusal :=
  runEvent (do
    let s ← get
    enabled (data != [] && inHbm s pa && inHbm s (pa + data.length - 1)) "BAR4 write"
    set (homeWrite .host pa data s)) s

/-- HOST_BAR4_READ (R269). -/
def execHostBar4Read (pa bytes : Nat) (s : State) : Host.Outcome State Fault Refusal :=
  runEvent (do
    let s ← get
    enabled (bytes != 0 && inHbm s pa && inHbm s (pa + bytes - 1)) "BAR4 read"
    let bs ← outsideRead pa bytes
    modify fun s => { s with hostRead := bs }) s

/-! ### Address-space commands (R369, R370) -/

/-- A write of SCMD starts a command when none runs. -/
def scmdWrite (v : Word) (s : State) : State :=
  if s.svc.scBusy then s else { s with svc := { s.svc with scBusy := true, scCmd := v, scDone := none } }

/-- Whether the command that runs is the given one and has not had its effect. -/
def scmdRuns (s : State) (op : Nat) (asid : BitVec 10) (arg : BitVec 48) : Bool :=
  let c := s.svc.scCmd.toNat
  s.svc.scBusy && s.svc.scDone.isNone && c % 16 == op && c / 16 % 1024 == asid.toNat && c / 2 ^ 16 == arg.toNat

/-- An SCMD command has its effect: its result, and the state after it. -/
def scmdEffect (op : Nat) (asid : BitVec 10) (arg : BitVec 48) (f : State → Nat × State) (s : State) :
    Host.Outcome State Fault Refusal :=
  runEvent (do
    let s ← get
    enabled (scmdRuns s op asid arg) "SCMD command"
    let r := f s
    set { r.2 with svc := { r.2.svc with scDone := some r.1 } }) s

/-- Every die of the package. -/
def everyDie : List Nat := rangeFrom 0 8

/-- The descriptor of R370 as an address space, none where a field breaks it. -/
def parseSpace (asid : Nat) (bs : List Byte) : Option Space :=
  let roots := (rangeFrom 0 8).map fun d => sub bs (8 * d) 8
  if sub bs 76 4 = 0 ∧ sub bs 74 2 ≠ 0 ∧ roots.all (fun r => r % 4096 == 0 && decide (r < 2 ^ 52)) = true ∧ sub bs 80 8 % 2048 = 0 ∧
      sub bs 88 8 % 2048 = 0 ∧ sub bs 96 8 % 4096 = 0 ∧ sub bs 104 8 % 4096 = 0 ∧ sub bs 112 8 % 4096 = 0 ∧ sub bs 120 8 % 4096 = 0 then
    some { asid := asid, roots := roots, codeTable := sub bs 64 8, codeCount := sub bs 72 2, weight := sub bs 74 2, ttable := sub bs 80 8,
           mirror := sub bs 88 8, ctxBase := sub bs 96 8, ctxLen := sub bs 104 8, loadBase := sub bs 112 8, loadLen := sub bs 120 8,
           devSeq := 0, served := List.replicate 8 0, resident := [] }
  else none

/-- CREATE: refused for a live identifier; a descriptor that cannot be read or breaks R370 is an invalid operand. The caches hold
nothing of the identifier from here (R337). -/
def createSpace (asid : BitVec 10) (arg : BitVec 48) (s : State) : Nat × State :=
  let a := 16 * arg.toNat
  if (findSpace s asid.toNat).isSome then (1, s)
  else if arg.toNat % 8 ≠ 0 ∨ (inHbm s a || inTile s a) = false then (2, s)
  else if readsBad s a 128 then (2, suspectRead a 128 s)
  else match parseSpace asid.toNat (homeBytes s a 128) with
    | none => (2, s)
    | some sp => (0, dropSpaceCaches asid.toNat everyDie { s with spaces := sp :: s.spaces })

/-- CREATE (R369). -/
def execCreate (asid : BitVec 10) (arg : BitVec 48) (s : State) : Host.Outcome State Fault Refusal :=
  scmdEffect 1 asid arg (createSpace asid arg) s

/-- DESTROY: refused for an identifier that is not live or has an incomplete launch. Its port bindings stay as they are (R369). -/
def destroySpace (asid : BitVec 10) (arg : BitVec 48) (s : State) : Nat × State :=
  let n := asid.toNat
  if arg ≠ 0#48 then (2, s)
  else if (findSpace s n).isNone || (s.launches.any fun l => l.asid == n && l.state != .complete) ||
      (s.ports.any fun p => p.slots.any fun x => x.asid == n) then (1, s)
  else (0, dropSpaceCaches n everyDie { s with
    spaces := s.spaces.filter fun x => x.asid != n
    launches := s.launches.filter fun l => !(l.asid == n && l.id.testBit 47) })

/-- DESTROY (R369). -/
def execDestroy (asid : BitVec 10) (arg : BitVec 48) (s : State) : Host.Outcome State Fault Refusal :=
  scmdEffect 2 asid arg (destroySpace asid arg) s

/-- FLUSHCODE: the residency serves only launches accepted before it. -/
def flushCode (asid : BitVec 10) (arg : BitVec 48) (s : State) : Nat × State :=
  match findSpace s asid.toNat with
  | none => (1, s)
  | some sp =>
    if arg = 0#48 ∨ 65535 < arg.toNat then (2, s)
    else (0, putSpace { sp with resident := sp.resident.map fun r =>
      if r.handle = arg.toNat ∧ r.flushed = none then { r with flushed := some s.nextOrder } else r } s)

/-- FLUSHCODE (R369). -/
def execFlushcode (asid : BitVec 10) (arg : BitVec 48) (s : State) : Host.Outcome State Fault Refusal :=
  scmdEffect 3 asid arg (flushCode asid arg) s

/-- INVALTLB (R369): as a package-scope tlbinv of every address. -/
def execInvaltlb (asid : BitVec 10) (arg : BitVec 48) (s : State) : Host.Outcome State Fault Refusal :=
  scmdEffect 4 asid arg (fun s => if arg ≠ 0#48 then (2, s) else (0, dropSpaceCaches asid.toNat everyDie s)) s

/-- Whether some die is not done with an INVALTLB: a strand has translated an access of the identifier and not performed it (R339). -/
def invalidating (s : State) : Bool :=
  s.svc.scCmd.toNat % 16 == 4 && (s.hart :: s.parked).any fun h => h.translates (s.svc.scCmd.toNat / 16 % 1024) fun _ => true

/-- SCMD_COMMAND_COMPLETE (R369): busy clears and the result is written; an op that names no command is refused. -/
def execScmdCommandComplete (s : State) : Host.Outcome State Fault Refusal :=
  runEvent (do
    let s ← get
    let op := s.svc.scCmd.toNat % 16
    let r := match s.svc.scDone with
      | some r => some r
      | none => if op = 0 ∨ 4 < op then some 1 else none
    match r with
    | none => notEnabled "SCMD complete"
    | some r =>
      enabled (s.svc.scBusy && !(r == 0 && invalidating s)) "SCMD complete"
      set { s with svc := { s.svc with scBusy := false, scResult := r, scDone := none } }) s

/-! ### Registers of BAR0 (R369, R402, R405, R406) -/

/-- A port binding is written; en stays 0 for an address space that is not live. A vf above 64 is kept and names no function
(log 28). -/
def pbindSet (port : Nat) (v : Word) (s : State) : State :=
  let asid := v.toNat % 1024
  modPort port (fun p => { p with asid := asid, en := v.getLsbD 16 && (findSpace s asid).isSome, vec := v.toNat / 2 ^ 24 % 256,
                                  vf := v.toNat / 2 ^ 32 % 128 }) s

/-- PBIND_WRITE (R369). -/
def execPbindWrite (port : Nat) (value : Word) (s : State) : Host.Outcome State Fault Refusal :=
  runEvent (do
    enabled (decide (port < 64)) "port binding"
    modify (pbindSet port value)) s

/-- PWRCAP is held between 1,000 and 3,800 (R402). -/
def pwrcapSet (v : Word) (s : State) : State :=
  let w := v.toNat % 4096
  { s with svc := { s.svc with pwrcap := if w < 1000 then 1000 else if 3800 < w then 3800 else w } }

/-- PWRCAP_WRITE (R402). -/
def execPwrcapWrite (value : Word) (s : State) : Host.Outcome State Fault Refusal := runEvent (modify (pwrcapSet value)) s

/-- RASACK moves forward, not past head (R402). -/
def rasackSet (v : Word) (s : State) : State :=
  let w := v.toNat % 2 ^ 32
  if s.svc.rasAck ≤ w ∧ w ≤ s.svc.rasHead then { s with svc := { s.svc with rasAck := w } } else s

/-- RASACK_WRITE (R402). -/
def execRasackWrite (value : Word) (s : State) : Host.Outcome State Fault Refusal := runEvent (modify (rasackSet value)) s

/-- ATREQ starts a report, unless one is being formed (R402). -/
def atreqSet (v : Word) (s : State) : State :=
  if s.svc.atBusy then s else { s with svc := { s.svc with atBusy := true, atArea := v.toNat % 2 ^ 52 / 4096 * 4096 } }

/-- ATTESTATION_REQUEST (R401). -/
def execAttestationRequest (value : Word) (s : State) : Host.Outcome State Fault Refusal := runEvent (modify (atreqSet value)) s

/-- RASBASE (R402). -/
def rasbaseSet (v : Word) (s : State) : State := { s with svc := { s.svc with rasBase := v.toNat % 2 ^ 52 / 2 ^ 17 * 2 ^ 17 } }

/-- Whether some launch of the package is incomplete, one in a port's slot included. -/
def someLaunch (s : State) : Bool := incompletes s != 0 || s.ports.any fun p => p.slots != []

/-- FPKG is written when no launch is incomplete (R405). -/
def fpkgSet (v : Word) (s : State) : State :=
  if someLaunch s then s else { s with svc := { s.svc with pkg := v.toNat % 8192, fabEn := v.getLsbD 13 } }

/-- FPKG_WRITE (R405). -/
def execFpkgWrite (value : Word) (s : State) : Host.Outcome State Fault Refusal := runEvent (modify (fpkgSet value)) s

/-- FGT(a) (R406). -/
def fgtSet (a : Nat) (v : Word) (s : State) : State :=
  let w := v.toNat % 4096 + v.toNat % 2 ^ 52 / 4096 * 4096
  { s with svc := { s.svc with fgt := (a, BitVec.ofNat 64 w) :: s.svc.fgt.filter fun x => x.1 != a } }

/-- FGT(a), 0 until written. -/
def fgtOf (s : State) (a : Nat) : Word := ((s.svc.fgt.find? fun x => x.1 == a).map (·.2)).getD 0#64

/-- The value of 8 bytes of BAR0 as a function reads it, 0 the physical one (R7, R369, R402, R405, R406): a virtual function has the
identification only (R368). -/
def bar0Value (s : State) (fn off : Nat) : Word :=
  let v := s.svc
  let w (n : Nat) : Word := BitVec.ofNat 64 n
  if fn ≠ 0 ∧ 16 ≤ off then 0#64
  else if off = 0 then w (Config.revision + 2 ^ 32 * Config.implementer)
  else if off = 8 then w Config.stepping
  else if off = 0x108 then w (v.scBusy.toNat + 256 * v.scResult)
  else if off = 0x200 then
    w ((match v.boot with
      | .boot => 0
      | .safelight => 1
      | .full => 2
      | .failed => 3) + 4 * v.dies.toNat + 2 ^ 10 * v.hbmStacks.toNat + 2 ^ 26 * v.half.toNat)
  else if off = 0x208 then w v.pwrcap
  else if off = 0x210 then if v.sensed then (Config.freePower s.now).setWidth 64 else 0#64
  else if off = 0x220 then w (v.atBusy.toNat + 256 * v.atResult)
  else if off = 0x228 then w v.rasBase
  else if off = 0x230 then w (v.rasHead + 2 ^ 32 * v.rasDrop)
  else if off = 0x238 then w v.rasAck
  else if off = 0x300 then w (v.pkg + 2 ^ 13 * v.fabEn.toNat + 2 ^ 32 * v.fabUp.toNat)
  else if 0x1000 ≤ off ∧ off < 0x1200 then
    let p := nth s.ports ((off - 0x1000) / 8) .start
    w (p.asid + 2 ^ 16 * p.en.toNat + 2 ^ 24 * p.vec + 2 ^ 32 * p.vf)
  else if 0x4000 ≤ off ∧ off < 0x6000 then fgtOf s ((off - 0x4000) / 8)
  else 0#64

/-- The port behind window j of a function (R368): port j, or for a virtual function the j-th port whose binding names it. -/
def portOf (s : State) (fn j : Nat) : Option Nat :=
  (if fn = 0 then rangeFrom 0 64 else (rangeFrom 0 64).filter fun p => (nth s.ports p .start).vf == fn)[j]?

/-- The value of a word of a port's window (R371). -/
def windowValue (s : State) (port o : Nat) : Word :=
  let p := nth s.ports port .start
  if o < 0x80 then BitVec.ofNat 64 (sub p.area o 8)
  else if o = 0x80 then BitVec.ofNat 64 (p.free + 2 ^ 16 * p.seq + 2 ^ 63 * p.drop.toNat)
  else if 0x800 ≤ o then BitVec.ofNat 64 (timelineWord s p.asid ((o - 0x800) / 8))
  else 0#64

/-- The value of a word of BAR2 as a function reads it; a window with no port reads as zero (R368). -/
def bar2Value (s : State) (fn off : Nat) : Word := ((portOf s fn (off / 4096)).map fun p => windowValue s p (off % 4096)).getD 0#64

/-- A write of n bytes laid over a register's value. -/
def mergeWord (old : Word) (lo n : Nat) (v : Word) : Word :=
  BitVec.ofNat 64 (ofBytes (layBytes (toBytes 8 old.toNat) lo (toBytes n v.toNat)))

/-- A host write of BAR0; offsets that hold no writable register, and every one of a virtual function, discard it (R368). -/
def bar0Write (fn off n : Nat) (v : Word) (s : State) : State :=
  let a := off / 8 * 8
  let x := mergeWord (bar0Value s fn a) (off % 8) n v
  if fn ≠ 0 then s
  else if a = 0x100 then scmdWrite x s
  else if a = 0x208 then pwrcapSet x s
  else if a = 0x218 then atreqSet x s
  else if a = 0x228 then rasbaseSet x s
  else if a = 0x238 then rasackSet x s
  else if a = 0x300 then fpkgSet x s
  else if 0x1000 ≤ a ∧ a < 0x1200 then pbindSet ((a - 0x1000) / 8) x s
  else if 0x4000 ≤ a ∧ a < 0x6000 then fgtSet ((a - 0x4000) / 8) x s
  else s

/-- A write of a port's window at an offset (R371, R372, R388): PSTAT.drop is cleared by writing 1. -/
def windowWrite (port o n : Nat) (v : Word) (s : State) : State :=
  if o < 0x80 then writeArea_ port o (toBytes n v.toNat) s
  else if o / 8 * 8 = 0x80 then
    if (mergeWord 0#64 (o % 8) n v).getLsbD 63 then modPort port (fun p => { p with drop := false }) s else s
  else if o = 0x88 then cancelWrite port n v s
  else s

/-- A host write of BAR2 by a function; one of a window with no port is discarded (R368). -/
def bar2Write (fn off n : Nat) (v : Word) (s : State) : State :=
  match portOf s fn (off / 4096) with
  | some port => windowWrite port (off % 4096) n v s
  | none => s

/-- REGISTER_WRITE (R19): a CSR by an instruction, or a register of the host's windows. -/
def execRegisterWrite (target : RegTarget) (s : State) : Host.Outcome State Fault Refusal :=
  match target with
  | .csr a op src rd => runInstr (.registerWrite (.csr a op src rd)) (csrWrite a.toNat op src rd (putCsr a.toNat)) s
  | .bar0 fn off n v => runEvent (do
      enabled (decide (fn ≤ 64) && wordAccess off n && decide (off < 0x10000)) "BAR0 write"
      modify (bar0Write fn off n v)) s
  | .bar2 fn off n v => runEvent (do
      enabled (decide (fn ≤ 64) && wordAccess off n && decide (off < 0x40000)) "BAR2 write"
      modify (bar2Write fn off n v)) s

/-! ### The loss of a stack (R366) -/

/-- STACK_LOST (R366): reads of the stack consume errors, writes are discarded, its control space is not memory; the
loader writes fresh copies of the text that stood in it. -/
def execStackLost (stack : Nat) (s : State) : Host.Outcome State Fault Refusal :=
  runEvent (do
    let s ← get
    enabled (bit s.svc.hbmStacks stack) "stack lost"
    set (renewTexts { s with svc := { s.svc with hbmStacks := s.svc.hbmStacks &&& ~~~(1#16 <<< stack)
                                                 deadStacks := s.svc.deadStacks ||| (1#16 <<< stack) }
                             lostNodes := .stack stack :: s.lostNodes })) s

/-! ### Boot (R397 to R400) -/

/-- Whether an image is accepted (R397): both signatures are present, well formed and verify over one digest, and its security
version is not below the one fused for its kind, the fixer image's or the controller image's. -/
def accepts (fixer : Bool) (img : SignedImage) : Bool :=
  let digest := Config.sha3 img.bytes
  img.ed25519.length == 64 && Config.edVerifies digest img.ed25519 && img.mldsa65.length == 3309 &&
    Config.mldsaVerifies digest img.mldsa65 && decide (Config.fusedVersion fixer ≤ img.version)

/-- The image of a kind that is executed: that of slot A if it is accepted, else that of slot B (R398). -/
def imageOf (fixer : Bool) (slots : List SignedImage) : Option SignedImage := slots.find? (accepts fixer)

/-- DEVICE_RESET (R398): every register and memory of the device at its reset value; the root of trust verifies the controller
firmware in the flash's slots A and B. The host's memory, and the turns that the model's environment has laid out, stay. -/
def execDeviceReset (slotA slotB : SignedImage) (s : State) : Host.Outcome State Fault Refusal :=
  let t := { State.reset with hostMem := s.hostMem, agenda := s.agenda, choices := s.choices, upsets := s.upsets }
  let ok := (imageOf false [slotA, slotB]).isSome
  .next { t with svc := { t.svc with flash := [slotA, slotB], controller := ok, boot := if ok then .boot else .failed } }

/-- FIXER_IMAGE_VERIFY (R398): of the flash's fixer slots A and B, once for the whole package; a failure in both is an entry of
kind 12. -/
def execFixerImageVerify (slotA slotB : SignedImage) (s : State) : Host.Outcome State Fault Refusal :=
  runEvent (do
    let s ← get
    enabled (s.svc.controller && !s.svc.fixerTried) "fixer image"
    let s := { s with svc := { s.svc with fixerTried := true, fixerFlash := [slotA, slotB] } }
    if (imageOf true [slotA, slotB]).isSome then set { s with svc := { s.svc with fixer := true } } else set (rasLog 12 0 0 s)) s

/-- Whether every present die and stack is ready or out of service (R400). -/
def allSettled (s : State) : Bool :=
  ((rangeFrom 0 8).all fun d => bit s.svc.dies d || bit s.svc.deadDies d) &&
  (rangeFrom 0 16).all fun k => bit s.svc.hbmStacks k || bit s.svc.deadStacks k

/-- SVST.state moves on (R399, R400). -/
def bootMoves (s : State) : State :=
  let v := s.svc
  let v := if v.boot = .boot ∧ v.controller = true ∧ v.dies ≠ 0#8 ∧ v.hbmStacks ≠ 0#16 then { v with boot := .safelight } else v
  let v := if v.boot = .safelight ∧ v.calibrated = true ∧ allSettled s = true then { v with boot := .full } else v
  { s with svc := v }

/-- A lane of a core that has failed its self-test stays out of service: the spare takes its place, a second one costs its lane group
(R62, R63), and a core without a lane group is retired (R345), each of these two with its own entry of the log (R404). -/
def laneOut (p : Place) (group loc : Nat) (s : State) : State :=
  let c := coreInfo s p
  let spent := bit c.spareUsed group
  let c := if spent then { c with lgen := c.lgen &&& ~~~(1#8 <<< group) } else { c with spareUsed := c.spareUsed ||| (1#8 <<< group) }
  let s := if (findCore s p).isSome then putCore c s else { s with cores := c :: s.cores }
  let s := if spent then rasLog 3 loc 0 s else s
  if c.lgen = 0#8 then dropCore p.die p.cluster p.core s else s

/-- UNIT_SELF_TEST_END (R398, R399): a unit joins, or stays out of service with an entry of kind 12. A stack trains only once its
fixer core has started; a die tests its lanes and clusters before it joins, from the third step of the boot on. A die that joins
gets its copies of resident text (R341). -/
def execUnitSelfTestEnd (kind : UnitKind) (n : Nat) (pass : Bool) (s : State) : Host.Outcome State Fault Refusal :=
  runEvent (do
    let s ← get
    let v := { s.svc with sensed := true }
    match kind with
    | .cluster =>
      let p : Place := ⟨n % 8, n / 8, 0, 0⟩
      enabled (v.controller && v.fixerTried && decide (p.cluster < Config.clusters) && !bit v.dies p.die && !bit v.deadDies p.die &&
        !v.deadClusters.contains (p.die, p.cluster)) "self-test"
      if pass then set { s with svc := v }
      else set (rasLog 12 (coreLoc p 0 0) 0 { s with svc := { v with deadClusters := (p.die, p.cluster) :: v.deadClusters } })
    | .lane =>
      let p : Place := ⟨n % 8, n / 8 % 32, n / 256 % 8, 0⟩
      let group := n / 2048 % 8
      enabled (v.controller && v.fixerTried && decide (p.cluster < Config.clusters) && decide (p.core < Config.cores) &&
        decide (n / 16384 < 34) && !bit v.dies p.die && !bit v.deadDies p.die && bit (coreInfo s p).lgen group) "self-test"
      if pass then set { s with svc := v } else set (laneOut p group n (rasLog 12 n 0 { s with svc := v }))
    | .die =>
      enabled (v.controller && v.fixerTried && decide (n < 8) && !bit v.dies n && !bit v.deadDies n) "self-test"
      if pass then set (renewTexts (bootMoves { s with svc := { v with dies := v.dies ||| (1#8 <<< n) } }))
      else set (bootMoves (rasLog 12 n 0 { s with svc := { v with deadDies := v.deadDies ||| (1#8 <<< n) } }))
    | .stack =>
      enabled (v.controller && v.fixer && decide (n < 16) && !bit v.hbmStacks n && !bit v.deadStacks n) "self-test"
      if pass then set (bootMoves { s with svc := { v with hbmStacks := v.hbmStacks ||| (1#16 <<< n) } })
      else set (bootMoves (rasLog 12 n 0 { s with svc := { v with deadStacks := v.deadStacks ||| (1#16 <<< n) } }))) s

/-- The temperature that a thermal step has read is entered in the log (R364). DESIGN CHOICE (log 23): R404 has no kind for it. -/
def temperature (s : State) : State := rasLogOther 0 0 s

/-- THERMAL_CALIBRATION_END (R399): half rate ends, and the state may become FULL. -/
def execThermalCalibrationEnd (s : State) : Host.Outcome State Fault Refusal :=
  runEvent (do
    let s ← get
    enabled (s.svc.controller && !s.svc.calibrated) "thermal calibration"
    set (temperature (bootMoves { s with svc := { s.svc with calibrated := true, half := false, sensed := true } }))) s

/-! ### Attestation (R401) -/

/-- The SHA3-384 digest and the security version of the image of a kind that is executed; of none, free values (log 31). -/
def imageFacts (fixer : Bool) (s : State) : List Byte × List Byte :=
  match imageOf fixer (if fixer then s.svc.fixerFlash else s.svc.flash) with
  | some img => (padTo 48 ((Config.sha3 img.bytes).take 48), toBytes 4 img.version.toNat)
  | none => (padTo 48 ((Config.sha3 []).take 48), toBytes 4 (Config.fusedVersion fixer).toNat)

/-- The report's bytes 0 to 255. -/
def reportBody (s : State) (nonce : List Byte) : List Byte :=
  nonce ++ toBytes 4 Config.revision ++ toBytes 4 Config.implementer ++ toBytes 4 Config.stepping ++
    toBytes 4 (0xFF + 256 * s.svc.dies.toNat) ++ toBytes 4 (0xFFFF + 65536 * s.svc.hbmStacks.toNat) ++
    ((rangeFrom 0 8).map fun d => BitVec.ofNat 8 (16 * (d / 2) + d % 2)) ++ toBytes 4 64 ++
    (imageFacts false s).1 ++ (imageFacts true s).1 ++ padTo 48 ((Config.sha3 Config.rootOfTrust).take 48) ++
    (imageFacts false s).2 ++ (imageFacts true s).2 ++ List.replicate 40 0#8

/-- The whole report, 4 KiB. -/
def reportBytes (s : State) (nonce : List Byte) : List Byte :=
  let b := reportBody s nonce
  let fit (n : Nat) (l : List Byte) : List Byte := padTo n (l.take n)
  padTo 4096 (b ++ fit 64 (Config.ed25519 b) ++ fit 3309 (Config.mldsa65 b))

/-- ATTESTATION_REPORT_COMPLETE (R401): the report is written, or nothing where the area lies in no ready stack; a nonce that cannot be
read gives free bytes (R355, log 30). DESIGN CHOICE (log 23): the agent of the write, which a watchpoint shows, is the host. -/
def execAttestationReportComplete (s : State) : Host.Outcome State Fault Refusal :=
  runEvent (do
    let s ← get
    let a := s.svc.atArea
    enabled s.svc.atBusy "attestation report"
    let ok := decide (a < 2 ^ 40) && bit s.svc.hbmStacks (a / 2 ^ 36)
    if ok then
      let nonce ← outsideRead a 32
      modify fun s => homeWrite .host a (reportBytes s nonce) s
    let s ← get
    set { s with svc := { s.svc with atBusy := false, atResult := if ok then 0 else 1 } }) s

/-! ### Temperature (R403) -/

/-- THERMAL_TRIP (R403): every placed strand is pre-empted, and none is placed until the sensors recover. -/
def execThermalTrip (copyA copyB : List Nat) (s : State) : Host.Outcome State Fault Refusal :=
  runEvent (do
    let s ← get
    enabled (!s.svc.tripped) "thermal trip"
    let s' := saveAll ((strands s).filter fun h => h.status == .running) (copyA.zip copyB) s
    set (temperature { s' with svc := { s'.svc with tripped := true, sensed := true } })) s

/-- THERMAL_RECOVER (R403). -/
def execThermalRecover (s : State) : Host.Outcome State Fault Refusal :=
  runEvent (do
    let s ← get
    enabled s.svc.tripped "thermal recovery"
    set (temperature { s with svc := { s.svc with tripped := false, sensed := true } })) s

end Sys2Proof.Machine
end

