-- ==== Sys2Proof/Machine/Fabric.lean ====
section
/-!
DEFINITION. The fabric (24_fabric.md): groups (R406), fput and fget (R408 to R412), remote requests (R407, R411), collectives and
their switch (R413 to R416), fabric ports (R405).
-/
namespace Sys2Proof.Machine

/-! ### Groups (R406) -/

/-- The group at a group-table entry, none where it is invalid for an address space. -/
def groupAt (s : State) (asid entry : Nat) : Option Group :=
  let there (a n : Nat) : Bool := (inHbm s a || inTile s a) && (inHbm s (a + n - 1) || inTile s (a + n - 1)) && !readsBad s a n
  let bs := homeBytes s entry 16
  let list := sub bs 0 8
  let n := sub bs 8 2
  let self := sub bs 10 2
  if !there entry 16 || list % 4 != 0 || n == 0 || decide (8192 < n) || decide (n ≤ self) || !there list (4 * n) then none
  else
    let es := (rangeFrom 0 n).map fun i => homeRead s (list + 4 * i) 4
    let ms := es.map fun e => (e % 8192, e / 8192 % 1024)
    if es.any (fun e => decide (2 ^ 23 ≤ e)) || nth ms self (0, 0) != (s.svc.pkg, asid) || !decide (ms.map (·.1)).Nodup then none
    else some ⟨sub bs 12 4, self, ms⟩

/-- The uncorrectable words that the fabric engine meets in group g of an address space, in its entry or its member list, are suspect
(R355). -/
def groupSuspect (s : State) (asid g : Nat) : State :=
  let r := (fgtOf s asid).toNat
  let entry := r / 4096 * 4096 + 16 * g
  if r % 4096 ≤ g ∨ inHbm s entry = false then s
  else if readsBad s entry 16 then suspectRead entry 16 s
  else
    let n := homeRead s (entry + 8) 2
    if 8192 < n then s else suspectRead (homeRead s entry 8) (4 * n) s

/-- Group g of an address space. -/
def groupOf (s : State) (asid g : Nat) : Option Group :=
  let r := (fgtOf s asid).toNat
  if g < r % 4096 then groupAt s asid (r / 4096 * 4096 + 16 * g) else none

/-! ### Issue (R409, R410) -/

/-- Root of the fabric engine's local side: the die-0 root of the strand's address space (R329). -/
def fabricRoot (s : State) : Nat :=
  match findSpace s s.hart.asid with
  | some sp => nth sp.roots 0 0
  | none => s.hart.root

/-- The descriptor of fput and fget. -/
def parseRem (bs : List Byte) : RemDesc :=
  { laddr := sub bs 0 8, raddr := sub bs 8 8, len := sub bs 16 8, rcd := sub bs 24 8, mem := sub bs 34 2, flags := sub bs 36 1,
    fmt := sub bs 37 1 }

/-- The lowest-numbered refusal of a remote command, 0 for none (R409, R410). -/
def remRefusal (s : State) (put : Bool) (bs : List Byte) (d : RemDesc) (g : Option Group) : Nat :=
  let f (i : Nat) : Bool := d.flags.testBit i
  let w := if f 0 then fmtBytes d.fmt else 1
  let sync := f 2 || f 3
  if decide (16 ≤ d.flags) || sub bs 38 26 != 0 then 1
  else if (!put && (f 0 || f 2)) || (put && f 3) || (f 0 && f 2) || (if f 0 then !addFormat d.fmt else d.fmt != 0) then 2
  else if decide (2 ^ 48 ≤ d.len) || d.len % w != 0 || (sync && (decide (d.len < 8) || d.len % 8 != 0)) then 3
  else if d.laddr % w != 0 || d.raddr % w != 0 || (sync && (d.laddr % 8 != 0 || d.raddr % 8 != 0)) || d.rcd % 16 != 0 then 4
  else match g with
    | none => 5
    | some g => if g.members.length ≤ d.mem then 5 else if s.svc.fabEn then 0 else 6

/-- A group as an instruction that waits for the fabric engine keeps it. -/
def Group.kept (g : Group) : List (Nat × Nat × Cls) := (g.tag, g.self, 0#6) :: g.members.map fun m => (m.1, m.2, 0#6)

/-- The group that an instruction has kept. -/
def Group.ofKept : List (Nat × Nat × Cls) → Group
  | [] => ⟨0, 0, []⟩
  | x :: ms => ⟨x.1, x.2.1, ms.map fun m => (m.1, m.2.1)⟩

/-- The fabric engine accepts a command: its descriptor is the wait's token, its group stands beside it (R409). -/
def acceptFabric (body : List Byte → Group → CmdBody) (tl : BitVec 2) (rd : BitVec 5) : M Cmd := do
  let bs := toBytes 64 (← getWait 0 (·.token))
  let g := Group.ofKept (← getWait [] (·.due))
  issueCommand tl rd 0 0 0 (fabricRoot (← get)) (body bs g)

/-- Issue of a fabric command: the descriptor is read and checked, then the instruction waits for acceptance (R409). -/
def issueFabric (i : Instr) (refusal : State → List Byte → Option Group → Nat) (rs1 rd : BitVec 5) (ops : WaitOps) : M Unit := do
  let a := (← readX rs1).toNat
  let bs ← readStruct a 64
  modify fun s => groupSuspect s s.hart.asid (sub bs 32 2)
  let s ← get
  let g := groupOf s s.hart.asid (sub bs 32 2)
  let why := refusal s bs g
  if why ≠ 0 then writeX rd (status 7 why) else startWaitOn i 0#64 (ofBytes bs) ((g.map Group.kept).getD []) ops

/-- fput or fget is accepted; one of no bytes completes at once, unless its record overlaps an earlier command that has not ended
(R314, R410). -/
def acceptRemote (put : Bool) (tl : BitVec 2) (rd : BitVec 5) : M Bool := do
  let c ← acceptFabric (fun bs g => .remote put (parseRem bs) g) tl rd
  match c.body with
  | .remote _ d _ => if d.len = 0 then modify fun s => if mustWait s c then s else endCommand c ⟨0, 0, 0, 0⟩ 0 s
  | _ => pure ()
  return true

/-- How fput and fget wait. -/
def remoteOps (put : Bool) (tl : BitVec 2) (rs2 rd : BitVec 5) : WaitOps := issueOps rs2 rd (acceptRemote put tl rd)

/-- fput (R411). -/
def execFput (tl : BitVec 2) (rs2 rs1 rd : BitVec 5) (s : State) : Host.Outcome State Fault Refusal :=
  runInstr (.fput tl rs2 rs1 rd)
    (issueFabric (.fput tl rs2 rs1 rd) (fun s bs g => remRefusal s true bs (parseRem bs) g) rs1 rd (remoteOps true tl rs2 rd)) s

/-- fget (R411). -/
def execFget (tl : BitVec 2) (rs2 rs1 rd : BitVec 5) (s : State) : Host.Outcome State Fault Refusal :=
  runInstr (.fget tl rs2 rs1 rd)
    (issueFabric (.fget tl rs2 rs1 rd) (fun s bs g => remRefusal s false bs (parseRem bs) g) rs1 rd (remoteOps false tl rs2 rd)) s

/-! ### Accesses in ascending order (R411) -/

/-- The size of the access at an address with n bytes left: a whole aligned 8-byte word, one byte, or one element of w bytes. -/
def unitAt (w a n : Nat) : Nat := if w ≠ 0 then w else if a % 8 = 0 ∧ 8 ≤ n then 8 else 1

/-- The offsets and sizes of the accesses that remain of a range: at most f of them, n bytes from an offset. -/
def unitsFrom (w a : Nat) : Nat → Nat → Nat → List (Nat × Nat)
  | 0, _, _ => []
  | f + 1, n, off =>
    if n = 0 then []
    else
      let k := unitAt w (a + off) n
      (off, k) :: unitsFrom w a f (n - k) (off + k)

/-- The accesses of n bytes at an address. -/
def unitsOf (w a n : Nat) : List (Nat × Nat) := unitsFrom w a n n 0

/-- Read bytes by an agent: those below the first fault, and its cause and offset. -/
def readUnits (s : State) (r : Realm) (user : Bool) (a : Nat) : List (Nat × Nat) → List Byte → List Byte × Option (Nat × Nat)
  | [], got => (got, none)
  | (off, k) :: us, got =>
    match agentRead s r user ((a + off) % 2 ^ 64) k with
    | .error c => (got, some (c, off))
    | .ok v => readUnits s r user a us (got ++ toBytes k v)

/-- Write bytes by an agent: the state with those below the first fault written, and its cause and offset. -/
def writeUnits (ag : Agent) (r : Realm) (user : Bool) (a : Nat) (bs : List Byte) : List (Nat × Nat) → State → State × Option (Nat × Nat)
  | [], s => (s, none)
  | (off, k) :: us, s =>
    match agentWrite s ag r user ((a + off) % 2 ^ 64) k (sub bs off k) with
    | .error c => (s, some (c, off))
    | .ok s' => writeUnits ag r user a bs us s'

/-- Send add tokens by an agent, element by element. -/
def addUnits (ag : Agent) (r : Realm) (user : Bool) (t : ETag) (mode : RMode) (a : Nat) (bs : List Byte) :
    List (Nat × Nat) → State → State × Option (Nat × Nat)
  | [], s => (s, none)
  | (off, k) :: us, s =>
    match agentToken s ag r user .add t mode ((a + off) % 2 ^ 64) (sub bs off k) with
    | .error c => (s, some (c, off))
    | .ok (s', _) => addUnits ag r user t mode a bs us s'

/-! ### The end of a remote command (R412) -/

/-- Element size of a remote command: that of its add tokens, 0 for plain bytes. -/
def RemDesc.unit (d : RemDesc) : Nat := if d.flags.testBit 0 then fmtBytes d.fmt else 0

/-- The count of a remote command's record and ecan status: in bytes, in whole elements for add. DEDUCED (log 29): R412 counts ecan's q
in elements there and has record and status agree (R313). -/
def RemDesc.tally (d : RemDesc) (bytes : Nat) : Nat := if d.unit = 0 then bytes else bytes / d.unit

/-- Package number of the remote member. -/
def RemDesc.pkg (d : RemDesc) (g : Group) : Nat := (nth g.members d.mem (0, 0)).1

/-- Whether ord holds a command back: an earlier fput or fget of the strand to the same package has not ended (R411). -/
def ordWait (s : State) (c : Cmd) (d : RemDesc) (g : Group) : Bool :=
  d.flags.testBit 1 && s.cmds.any fun e => e.sid == c.sid && decide (e.id < c.id) && e.fin.isNone && (match e.body with
    | .remote _ d' g' => d'.pkg g' == d.pkg g
    | _ => false)

/-- The local accesses of the first n bytes: an fput reads what it sends, an fget writes what it has received. -/
def localPart (c : Cmd) (put : Bool) (d : RemDesc) (g : Group) (n : Nat) (data : List Byte) (s : State) : State × Option (Nat × Nat) :=
  let us := unitsOf d.unit d.laddr n
  let ag := c.agent s.svc.pkg
  let noteLocal (write : Bool) (bad : Option (Nat × Nat)) (s : State) : State :=
    let done := (bad.map (·.2)).getD n
    noteEach c.sid ag write d.laddr (us.takeWhile fun u => decide (u.1 < done)) s
  if put then
    let r := readUnits s c.realm c.user d.laddr us []
    (noteLocal false r.2 { s with fabricOut := s.fabricOut ++ [.request c.id (d.pkg g) r.1] }, r.2)
  else
    let r := writeUnits ag c.realm c.user d.laddr data us s
    (noteLocal true r.2 r.1, r.2)

/-- Causes that the other side or the path can give (R412). -/
def remoteCause (cause : Nat) : Bool := cause == 0 || cause == 0xC0 || cause == 0xC1 || (decide (0x80 ≤ cause) && decide (cause < 0xA0))

/-- Where the record of a command that the other side or the path has stopped after count bytes says that it did: location for a
remote fault (R412). -/
def remoteWhere (cause count : Nat) (location : Word) (d : RemDesc) : Nat :=
  if cause = 0xC0 then d.raddr else if cause = 0xC1 then (d.raddr + count) % 2 ^ 64 else location.toNat

/-- FABRIC_COMMAND_END (R412): the remote side has answered for the first count bytes. A local fault below count ends the command
there; a command that is marked cancelled ends with count bytes performed, DONE when they are all. For add, location carries the
classes. -/
def execFabricCommandEnd (cmd : Nat) (cause : BitVec 8) (count : Nat) (location : Word) (data : List Byte) (s : State) :
    Host.Outcome State Fault Refusal :=
  runEvent (do
    let s ← get
    match findCmd s cmd with
    | none => notEnabled "fabric command end"
    | some c =>
      match c.body with
      | .remote put d g =>
        let whole := cause = 0#8 ∧ c.cancelled = false
        let ok := c.fin.isNone && !mustWait s c && !ordWait s c d g && remoteCause cause.toNat && decide (count ≤ d.len) && (!decide whole || count == d.len) &&
          (d.unit == 0 || count % d.unit == 0) && (put || data.length == count) && (cause != 0xC0#8 || count == 0)
        enabled ok "fabric command end"
        let r := localPart c put d g count data s
        match r.2 with
        | some (e, off) =>
          let va := (d.laddr + off) % 2 ^ 64
          set (endCommand c ⟨4, d.tally off, e, if e = 28 then 0 else va⟩ (if e = 28 then 0 else va) (suspectAt c.realm c.user e va r.1))
        | none =>
          if cause ≠ 0#8 then
            let at_ := remoteWhere cause.toNat count location d
            set (endCommand c ⟨4, d.tally count, cause.toNat, at_⟩ at_ r.1)
          else
            let classes := if d.unit = 0 then 0 else location.toNat % 64
            set (endCommand c ⟨if count = d.len then 0 else 6, d.tally count, 0, 0⟩ classes r.1)
      | _ => notEnabled "fabric command end") s

/-- FABRIC_PORT_TRAINED (R405). -/
def execFabricPortTrained (port : Nat) (s : State) : Host.Outcome State Fault Refusal :=
  runEvent (do
    let s ← get
    enabled (decide (port < 18) && !bit s.svc.fabUp port) "fabric port"
    set { s with svc := { s.svc with fabUp := s.svc.fabUp ||| (1#18 <<< port) } }) s

/-- FABRIC_PORT_LOST (R412): when no path remains, every remote command ends with cause 0xC1. -/
def execFabricPortLost (port : Nat) (s : State) : Host.Outcome State Fault Refusal :=
  runEvent (do
    let s ← get
    enabled (decide (port < 18) && bit s.svc.fabUp port) "fabric port"
    let s := { s with svc := { s.svc with fabUp := s.svc.fabUp &&& ~~~(1#18 <<< port) } }
    if s.svc.fabUp ≠ 0#18 then set s
    else set (s.cmds.foldl (fun s c =>
      match c.body with
      | .remote _ d _ => if c.fin.isNone && !mustWait s c then endCommand c ⟨4, 0, 0xC1, d.raddr⟩ d.raddr s else s
      | _ => s) s)) s

/-! ### Requests of other packages (R407, R411) -/

/-- Whether a request is accepted: the engine is enabled, the space is live, and a valid group of it with the tag names the
requester. -/
def acceptsRequest (s : State) (asid tag fromPkg fromAsid : Nat) : Bool :=
  s.svc.fabEn && (findSpace s asid).isSome &&
    (rangeFrom 0 ((fgtOf s asid).toNat % 4096)).any fun g =>
      match groupOf s asid g with
      | some x => x.tag == tag && x.members.contains (fromPkg, fromAsid)
      | none => false

/-- FABRIC_REMOTE_REQUEST (R407, R411): accepted, its accesses are performed in ascending order; the reply carries the cause and
location of a fault, or what was read. -/
def execFabricRemoteRequest (kind : RemoteKind) (asid tag fromPkg fromAsid raddr len : Nat) (data : List Byte) (s : State) :
    Host.Outcome State Fault Refusal :=
  runEvent (do
    if (← get).svc.fabEn ∧ (findSpace (← get) asid).isSome = true then
      modify fun s => (rangeFrom 0 ((fgtOf s asid).toNat % 4096)).foldl (fun s g => groupSuspect s asid g) s
    let s ← get
    let answer (s : State) (m : FabricMsg) : State := { s with fabricOut := s.fabricOut ++ [m] }
    match (if acceptsRequest s asid tag fromPkg fromAsid then findSpace s asid else none) with
    | none => set (answer s (.reply fromPkg true 0xC0 raddr []))
    | some sp =>
      let realm := packageRealm sp.asid (nth sp.roots 0 0)
      let ag := Agent.remote fromPkg
      let reply28 (c : Nat) : Nat := if c = 28 then 0x9C else 0x80 + c
      let reply (s : State) (bad : Option (Nat × Nat)) (got : List Byte) : State :=
        match bad with
        | some (c, off) => answer (suspectAt realm true c ((raddr + off) % 2 ^ 64) s)
            (.reply fromPkg false (reply28 c) ((raddr + off) % 2 ^ 64) got)
        | none => answer s (.reply fromPkg false 0 0 got)
      match kind with
      | .read =>
        let r := readUnits s realm true raddr (unitsOf 0 raddr len) []
        set (reply s r.2 r.1)
      | .write =>
        let r := writeUnits ag realm true raddr data (unitsOf 0 raddr data.length) s
        set (reply r.1 r.2 [])
      | .addToken t rm =>
        enabled (VAmo.add.accepts t) "remote request"
        let r := addUnits ag realm true t (RMode.ofCode rm) raddr data (unitsOf (t.width / 8) raddr data.length) s
        set (reply r.1 r.2 [])) s

/-! ### fcoll (R413, R414) -/

/-- The descriptor of fcoll. -/
def parseColl (bs : List Byte) : CollDesc :=
  { src := sub bs 0 8, dst := sub bs 8 8, stg := sub bs 16 8, rcd := sub bs 24 8, op := sub bs 34 1, fmt := sub bs 35 1,
    root := sub bs 36 2, c := sub bs 40 4, seq := sub bs 44 4, cdl := sub bs 48 8 }

/-- Types that an operation accepts. -/
def collFormat (op fmt : Nat) : Bool :=
  let t := ETag.ofCode fmt
  plainFormat fmt && t != .i4 && (2 ≤ op || t != .fp64)

/-- The lowest-numbered refusal of fcoll, 0 for none (R409, R413). -/
def collRefusal (s : State) (bs : List Byte) (d : CollDesc) (g : Option Group) : Nat :=
  let n := (g.map (·.members.length)).getD (2 ^ 16)
  let w := fmtBytes d.fmt
  let len (k : Nat) : Nat := k * d.c * w
  let sIn := len (if d.op = 1 then n else 1)
  let sOut := len (if d.op = 2 then n else 1)
  let meet (a m b k : Nat) : Bool := overlaps a m b k
  if sub bs 38 2 != 0 || sub bs 56 8 != 0 then 1
  else if decide (3 < d.op) || !collFormat d.op d.fmt || (if d.op = 3 then decide (n ≤ d.root) else d.root != 0) ||
      (g.isSome && (meet d.stg sOut d.src sIn || meet d.stg sOut d.dst sOut)) then 2
  else if d.c == 0 || d.cdl == 0 || decide (2 ^ 40 < d.cdl) || (g.isSome && (decide (2 ^ 40 ≤ sIn) || decide (2 ^ 40 ≤ sOut))) then 3
  else if d.src % w != 0 || d.dst % w != 0 || d.stg % w != 0 || d.rcd % 16 != 0 then 4
  else if g.isNone then 5
  else if s.svc.fabEn then 0 else 6

/-- fcoll is accepted: the member contributes as soon as its earlier commands let it (R415). -/
def acceptColl (tl : BitVec 2) (rd : BitVec 5) : M Bool := do
  let _ ← acceptFabric (fun bs g => .coll (parseColl bs) g) tl rd
  modify contributeReady
  return true

/-- How fcoll waits. -/
def collOps (tl : BitVec 2) (rs2 rd : BitVec 5) : WaitOps := issueOps rs2 rd (acceptColl tl rd)

/-- fcoll (R409, R415). -/
def execFcoll (tl : BitVec 2) (rs2 rs1 rd : BitVec 5) (s : State) : Host.Outcome State Fault Refusal :=
  runInstr (.fcoll tl rs2 rs1 rd)
    (issueFabric (.fcoll tl rs2 rs1 rd) (fun s bs g => collRefusal s bs (parseColl bs) g) rs1 rd (collOps tl rs2 rd)) s

/-! ### The switch (R414, R415) -/

/-- Advance of a sequence number to a later one, in serial order. -/
def serialStep (a b : Nat) : Nat := let d := (b + 2 ^ 32 - a) % 2 ^ 32; if d < 2 ^ 31 then d else 0

/-- How far the sequence numbers of a tag have moved since a decided collective of it. -/
def movedSince (ks : List Collective) (k : Collective) : Nat :=
  -- collectives stand in the order in which they began
  let later := (ks.dropWhile (· != k)).filter fun x => x.tag == k.tag && x.outcome != .pending
  (later.foldl (fun (a : Nat × Nat) x => (a.1 + serialStep a.2 x.seq, if serialStep a.2 x.seq = 0 then a.2 else x.seq)) (0, k.seq)).1

/-- One read-out of the exact sum of members' elements (R414). -/
def reduceElem (t : ETag) (mode : RMode) (xs : List Nat) : Nat × Cls :=
  if t.isFloat then (xs.foldl (fun a x => (a.add1 (decodeFloat t x)).1) Acc.clear).read t mode
  else satEnc t (xs.foldl (fun n x => n + decodeInt t x) 0)

/-- Element i of a member's contribution. -/
def given (k : Collective) (m i : Nat) : Nat :=
  (nth (((k.got.find? fun g => g.1 == m).map (·.2)).getD []) i 0#64).toNat

/-- What each member's destination receives, and the classes of every read-out (R414). -/
def collResult (k : Collective) : List (List Word) × Cls :=
  let mode := RMode.ofCode k.rm
  let word (n : Nat) : Word := BitVec.ofNat 64 n
  let members := rangeFrom 0 k.n
  let sum (i : Nat) : Nat × Cls := reduceElem k.fmt mode (members.map fun m => given k m i)
  if k.op = 0 then
    let r := (rangeFrom 0 k.count).map sum
    (members.map fun _ => r.map fun x => word x.1, r.foldl (fun c x => c ||| x.2) 0#6)
  else if k.op = 1 then
    let r := (rangeFrom 0 (k.n * k.count)).map sum
    (members.map fun m => ((r.drop (m * k.count)).take k.count).map fun x => word x.1, r.foldl (fun c x => c ||| x.2) 0#6)
  else if k.op = 2 then
    let r := (rangeFrom 0 (k.n * k.count)).map fun i => word (given k (i / k.count) (i % k.count))
    (members.map fun _ => r, 0#6)
  else
    let r := (rangeFrom 0 k.count).map fun i => word (given k k.root i)
    (members.map fun _ => r, 0#6)

/-- Replace a collective. -/
def putCollective (k : Collective) (s : State) : State :=
  { s with collectives := s.collectives.map fun x => if x.tag = k.tag ∧ x.seq = k.seq then k else x }

/-- A collective by tag and sequence number. -/
def findCollective (s : State) (tag seq : Nat) : Option Collective := s.collectives.find? fun k => k.tag == tag && k.seq == seq

/-- The outcome Abort(r), with the mask of contributions that have arrived. -/
def Collective.abort (k : Collective) (r : Nat) : Collective := { k with outcome := .aborted r (k.got.map (·.1)) }

/-- A contribution or fault notice arrives at a collective that is not decided. -/
def arrive (m : Contribution) (k : Collective) : Collective :=
  if k.op ≠ m.op ∨ k.fmt ≠ m.fmt ∨ k.count ≠ m.count ∨ k.root ≠ m.root ∨ k.n ≠ m.members ∨ k.rm ≠ m.rm ∨ k.cdl ≠ m.cdl ∨ k.n ≤ m.self ∨
      k.got.any (fun g => g.1 == m.self) = true then k.abort 2
  else if m.fault then k.abort 3
  else
    let k := { k with got := k.got ++ [(m.self, m.data)] }
    if k.got.length = k.n then { k with outcome := .result (collResult k).1 (collResult k).2 } else k

/-- A contribution or fault notice arrives at the switch: at a collective that is not decided, or after the decision, when its member
learns the outcome or, where the decision lies too far back, reason 6. -/
def arriveAt (ks : List Collective) (m : Contribution) (k : Collective) : Collective :=
  match k.outcome with
  | .pending | .result _ _ => arrive m k
  | _ => { k with late := (m.self, decide (2 ^ 31 < movedSince ks k)) :: k.late }

/-- COLLECTIVE_CONTRIBUTION (R415). -/
def execCollectiveContribution (msg : Contribution) (s : State) : Host.Outcome State Fault Refusal :=
  runEvent (do
    let s ← get
    match findCollective s msg.tag msg.seq with
    | some k => set (putCollective (arriveAt s.collectives msg (k.due s.now)) s)
    | none =>
      let k : Collective :=
        { tag := msg.tag, seq := msg.seq, op := msg.op, fmt := msg.fmt, count := msg.count, root := msg.root, n := msg.members, rm := msg.rm
          cdl := msg.cdl, expiry := s.now + msg.cdl, got := [], acks := [], late := [], outcome := .pending }
      set { s with collectives := s.collectives ++ [arrive msg k] }) s

/-- COLLECTIVE_EXPIRY (R415): before Commit. -/
def execCollectiveExpiry (tag seq : Nat) (s : State) : Host.Outcome State Fault Refusal :=
  runEvent (do
    let s ← get
    match findCollective s tag seq with
    | none => notEnabled "collective expiry"
    | some k =>
      match k.outcome with
      | .pending | .result _ _ =>
        enabled (decide (k.expiry ≤ s.now)) "collective expiry"
        set (putCollective (k.abort 1) s)
      | _ => notEnabled "collective expiry") s

/-- COLLECTIVE_MEMBER_LOST (R415): before Commit. -/
def execCollectiveMemberLost (tag seq member : Nat) (s : State) : Host.Outcome State Fault Refusal :=
  runEvent (do
    let s ← get
    match findCollective s tag seq with
    | none => notEnabled "member lost"
    | some k =>
      match k.outcome with
      | .pending | .result _ _ =>
        enabled (decide (member < k.n) && decide (s.now < k.expiry)) "member lost"
        set (putCollective (k.abort 4) s)
      | _ => notEnabled "member lost") s

/-! ### A member of a collective (R415, R416) -/

/-- Words of the contribution mask. -/
def maskWords (n : Nat) (mask : List Nat) : List Nat :=
  (rangeFrom 0 ((n + 63) / 64)).map fun w => mask.foldl (fun v i => if i / 64 = w then v ||| 2 ^ (i % 64) else v) 0

/-- End an fcoll: its record, then its ticket (R416). -/
def endCollective (c : Cmd) (d : CollDesc) (g : Group) (code reason : Nat) (cls : Cls) (mask : List Nat) (s : State) : State :=
  let n := g.members.length
  let ws := [code + 256 * reason + 2 ^ 16 * nth c.pend 0 0, nth c.pend 1 0, cls.toNat] ++ maskWords n mask
  let ag := c.agent s.svc.pkg
  let s := writeRecord (some c.sid) ag c.realm c.user d.rcd ws s
  contributeReady (completeTicket c.sid c.tl c.ticket (putCmd { c with fin := some ⟨code, 0, reason, 0⟩ } s))

/-- Write elements of w bytes from an address, each where it counts an access of the command's (R287); one that does not translate any
more is not written. -/
def writeElems (counts : Bool) (c : Cmd) (a w : Nat) : List Nat → Nat → State → State
  | [], _, s => s
  | v :: vs, i, s =>
    let ag := c.agent s.svc.pkg
    let va := (a + w * i) % 2 ^ 64
    writeElems counts c a w vs (i + 1) (match agentWrite s ag c.realm c.user va w v with
      | .ok s' => if counts then noteAsync c.sid ag true va w s' else s'
      | .error _ => s)

/-- A member's fcoll in progress. -/
def memberCmd (s : State) (cmd : Nat) : Option (Cmd × CollDesc × Group) :=
  match findCmd s cmd with
  | none => none
  | some c =>
    match c.body with
    | .coll d g => if c.fin.isNone then some (c, d, g) else none
    | _ => none

/-- Whether a member's contribution or notice came too long after the decision (R415). -/
def Collective.staleFor (k : Collective) (self : Nat) : Bool := k.late.contains (self, true)

/-- Whether a member learns the outcome of a decided collective: its contribution or notice has arrived, in time or late, or, as to
an abort, the decision does not lie so far back that what it sends is stale (R415). -/
def Collective.tells (k : Collective) (ks : List Collective) (aborts : Bool) (self : Nat) : Bool :=
  !k.staleFor self && (k.late.contains (self, false) || (aborts && (k.got.any (·.1 == self) || decide (movedSince ks k ≤ 2 ^ 31))))

/-- COLLECTIVE_RESULT_RECEIVE (R415): the result of the switch is written into the stage and acknowledged; a member whose
contribution, or fault notice, came after the commit receives the same result. -/
def execCollectiveResultReceive (cmd : Nat) (data : List Word) (classes : BitVec 6) (s : State) : Host.Outcome State Fault Refusal :=
  runEvent (do
    let s ← get
    match memberCmd s cmd with
    | none => notEnabled "collective result"
    | some (c, d, g) =>
      let right := match findCollective s g.tag d.seq with
        | none => true
        | some k => (match k.outcome with
            | .result r cls => c.pend == [] && nth r g.self [] == data && cls == classes
            | .committed r cls => k.tells s.collectives false g.self && nth r g.self [] == data && cls == classes
            | _ => false)
      enabled (c.next == 1 && right && data.length == (collCounts d g).2) "collective result"
      let w := fmtBytes d.fmt
      let s := writeElems true c d.stg w (data.map (·.toNat)) 0 s
      let s := putCmd { c with next := 2, cls := classes } s
      let s := { s with fabricOut := s.fabricOut ++ [.ack g.tag d.seq g.self] }
      match findCollective s g.tag d.seq with
      | some k => set (putCollective { k with acks := setAdd g.self k.acks } s)
      | none => set s) s

/-- Copy a member's stage into its destination and end its command DONE. An element of the stage that cannot be read any more is a
free value (log 29). -/
def commitMember (c : Cmd) (d : CollDesc) (g : Group) (s : State) : State :=
  let w := fmtBytes d.fmt
  let n := (collCounts d g).2
  let vs := (rangeFrom 0 n).map fun i =>
    match agentRead s c.realm c.user ((d.stg + w * i) % 2 ^ 64) w with
    | .ok v => v
    | .error _ => (Config.freeWord (s.free + i)).toNat % 2 ^ (8 * w)
  let s := (rangeFrom 0 n).foldl (fun s i =>
    let a := (d.stg + w * i) % 2 ^ 64
    match agentRead s c.realm c.user a w with
    | .error e => suspectAt c.realm c.user e a s
    | .ok _ => noteAsync c.sid (c.agent s.svc.pkg) false a w s) s
  let s := writeElems true c d.dst w vs 0 { s with free := s.free + n }
  endCollective c d g 0 0 c.cls [] s

/-- The package's own members of a collective. -/
def ownMembers (s : State) (tag seq : Nat) : List (Cmd × CollDesc × Group) :=
  (s.cmds.filterMap fun c => memberCmd s c.id).filter fun x => x.2.2.tag == tag && x.2.1.seq == seq

/-- Whether every member of a collective has acknowledged its result: the package's own members here, members of other packages as
their acknowledgements reach the switch. -/
def allAcked (k : Collective) (own : List (Cmd × CollDesc × Group)) (acks : List Nat) : Bool :=
  (rangeFrom 0 k.n).all fun i => k.acks.contains i || (acks.contains i && !own.any fun x => x.2.2.self == i)

/-- COLLECTIVE_COMMIT (R415) of the collective of a tag and a sequence number: every member has acknowledged, those of other packages as the operand lists; or a member that came after
the commit has. A second command of a member does not hold it up: what it sends arrives late. -/
def execCollectiveCommit (key : Nat × Nat) (acks : List Nat) (s : State) : Host.Outcome State Fault Refusal :=
  runEvent (do
    let s ← get
    let own := ownMembers s key.1 key.2
    let ready := own.filter fun x => x.1.next == 2
    let right := match findCollective s key.1 key.2 with
      | none => ready != [] && own.all fun x => ready.any fun y => y.2.2.self == x.2.2.self
      | some k => (match k.outcome with
          | .result _ _ => allAcked k own acks && decide (s.now < k.expiry)
          | .committed _ _ => ready != []
          | _ => false)
    enabled right "collective commit"
    let s := ready.foldl (fun s x => commitMember x.1 x.2.1 x.2.2 s) s
    match findCollective s key.1 key.2 with
    | some k => (match k.outcome with
        | .result r cls => set (putCollective { k with outcome := .committed r cls, acks := rangeFrom 0 k.n } s)
        | _ => set s)
    | none => set s) s

/-- COLLECTIVE_ABORT_RECEIVE (R415): the member ends FAILED; its stage holds no guaranteed value. -/
def execCollectiveAbortReceive (cmd reason : Nat) (mask : List Nat) (s : State) : Host.Outcome State Fault Refusal :=
  runEvent (do
    let s ← get
    match memberCmd s cmd with
    | none => notEnabled "collective abort"
    | some (c, d, g) =>
      let right := match findCollective s g.tag d.seq with
        | none => decide (1 ≤ reason) && decide (reason ≤ 6)
        | some k => if k.staleFor g.self then reason == 6
          else (match k.outcome with
            | .aborted r m => k.tells s.collectives true g.self && r == reason && m == mask
            | _ => false)
      enabled ((c.next != 0 || !mustWait s c) && right) "collective abort"
      let n := (collCounts d g).2
      let w := fmtBytes d.fmt
      let vs := (rangeFrom 0 n).map fun i => (Config.freeWord (s.free + i)).toNat % 2 ^ (8 * w)
      let s := writeElems false c d.stg w vs 0 { s with free := s.free + n }
      set (endCollective c d g 7 reason 0#6 mask s)) s

end Sys2Proof.Machine
end

