-- ==== Sys2Proof/Machine/Pending.lean ====
section
/-!
DEFINITION. Pending waits (R229 to R232): the condition met, and the expiry.
-/
namespace Sys2Proof.Machine

/-- How a waiting instruction waits: for a condition (R236 to R248), for an answer (R231), for an engine (R309, R409). -/
def waitOpsOf (w : PendingWait) : Option WaitOps :=
  match w.instr with
  | .scalarLoad op imm rs1 rd => some (answerOps (finishLoad op imm rs1 rd))
  | .amo _ _ aq _ _ _ rd => some (answerOps (finishAmo aq rd))
  | .fence _ pred succ _ _ => some (answerOps (finishFence pred succ))
  | .fenceI _ _ _ => some (answerOps flushIcache)
  | .ldaq sc rs1 rd => some (answerOps (finishLdaq sc rs1 rd))
  | .strl _ rs2 rs1 => some (answerOps (finishStrl rs2 rs1))
  | .vamoadd _ old _ _ vd | .vamomin _ old _ _ vd | .vamomax _ old _ _ vd | .vamoand _ old _ _ vd | .vamoor _ old _ _ vd
  | .vamoxor _ old _ _ vd | .vamoswp _ old _ _ vd => some (amoOps old vd)
  | .vamocas _ _ _ vd => some (amoOps true vd)
  | .ecopy tl rs2 _ rd => some (issueOps rs2 rd (acceptEngine .copy tl rd))
  | .egth tl rs2 _ rd => some (issueOps rs2 rd (acceptEngine .gather tl rd))
  | .esct tl rs2 _ rd => some (issueOps rs2 rd (acceptEngine .scatter tl rd))
  | .efill tl rs2 _ rd => some (issueOps rs2 rd (acceptEngine .fill tl rd))
  | .ecvt tl rs2 _ rd => some (issueOps rs2 rd (acceptEngine .cvt tl rd))
  | .fput tl rs2 _ rd => some (remoteOps true tl rs2 rd)
  | .fget tl rs2 _ rd => some (remoteOps false tl rs2 rd)
  | .fcoll tl rs2 _ rd => some (collOps tl rs2 rd)
  | .tlwait tl rs2 rs1 rd => some (tlwaitOps tl rs2 rs1 rd)
  | .wflag ge rs2 rs1 rd => some (wflagOps ge rs2 rs1 rd)
  | .vwait ge kd vs rs1 rd => some (vwaitOps ge kd vs rs1 rd)
  | .sync _ classes rs1 rd => some (syncOps classes rs1 rd)
  | .rlbar rs2 _ rd => some (phaseOps true rs2 rd)
  | .rlwait rs2 _ rd => some (phaseOps false rs2 rd)
  | .ecan tl rs2 rs1 rd => some (ecanOps tl rs2 rs1 rd)
  | .vqpush q vs rs1 rd => some (vqpushOps q vs rs1 rd)
  | .vqpop q vd rs1 rd => some (vqpopOps q vd rs1 rd)
  | .chwait rs2 c rd => some (chwaitOps rs2 c rd)
  | .icinv _ rs2 rs1 rd => some (icinvOps rs2 rs1 rd w.rdVal)
  | .tlbinv _ _ rs1 rd => some (tlbinvOps rs1 rd w.rdVal)
  | .dlaunch rs2 _ rd => some (dlaunchOps rs2 rd)
  | _ => none

/-- The running strand's pending wait and how it waits. -/
def pendingOps (s : State) : Option (PendingWait × WaitOps) :=
  if s.hart.status ≠ .running then none
  else match s.hart.wait with
    | some w => (waitOpsOf w).map fun o => (w, o)
    | none => none

/-- Whether a pending wait ends when it is evaluated now: its condition is met, or evaluating it stops the instruction. -/
def waitReady (s : State) : Bool :=
  match pendingOps s with
  | none => false
  | some (_, o) =>
    match o.attempt s with
    | .ok false _ => false
    | _ => true

/-- What an evaluation that does not end the running strand's wait leaves: the elements that vwait has found met (R239), the value that
wflag has read (R238), the dies that a removal has reached (R340). -/
def observed (s : State) : State :=
  match pendingOps s with
  | none => s
  | some (_, o) =>
    match o.attempt s with
    | .ok false t => t
    | _ => s

/-- WAIT_CONDITION_MET (R229). -/
def execWaitConditionMet (s : State) : Host.Outcome State Fault Refusal :=
  match pendingOps s with
  | none => .refused (.stepNotEnabled "wait condition")
  | some (w, o) =>
    if waitReady s then runInstr w.instr (do
      if (← o.attempt) then pure () else throw .hold) s
    else .refused (.stepNotEnabled "wait condition")

/-- WAIT_EXPIRY (R229, R230): one more evaluation decides between the success code and the expiry. -/
def execWaitExpiry (s : State) : Host.Outcome State Fault Refusal :=
  match pendingOps s with
  | none => .refused (.stepNotEnabled "wait expiry")
  | some (w, o) =>
    if s.now < w.expiry then .refused (.stepNotEnabled "wait expiry")
    else runInstr w.instr (do
      if (← o.attempt) then pure () else waitEnds o w.clamped) s

end Sys2Proof.Machine
end

