-- ==== Sys2Proof/Machine/Placement.lean ====
section
/-!
DEFINITION. Placement (R383 to R386, R399, R403): the strand placed at strand start (R88), effective priority, the placement
decision with its pre-emptions.
-/
namespace Sys2Proof.Machine

/-! ### Where a strand may be placed (R383) -/

/-- Whether n bytes of memory lie in stacks or clusters that are ready, or in the control space of such a stack (R399). -/
def readyRange (s : State) (a n : Nat) : Bool :=
  n == 0 || (if a < 2 ^ 40 then (rangeFrom (a / 2 ^ 36) ((a + n - 1) / 2 ^ 36 + 1 - a / 2 ^ 36)).all (bit s.svc.hbmStacks)
    else inTile s a || inCtl s a)

/-- The places of the entries of a table that are not zero. -/
def entriesOf (s : State) (a : Nat) : List Nat :=
  (s.mem.filter fun c => decide (a ≤ c.1) && decide (c.1 < a + 4096)).foldl (fun l c => setAdd (c.1 / 8 * 8) l) []

/-- Whether the tables below one of level L − 1, and every page that they map, lie in memory that is ready (R399). -/
def tableReady (s : State) : Nat → Nat → Bool
  | 0, _ => true
  | l + 1, a =>
    readyRange s a 4096 && (entriesOf s a).all fun at_ =>
      let e := homeRead s at_ 8
      if !e.testBit 0 || pteReserved e then true
      else if e.testBit 6 then tableReady s l (e / 4096 % 2 ^ 40 * 4096)
      else readyRange s (e / 4096 % 2 ^ 40 * 4096) (2 ^ (12 + 2 * (e / 256 % 16)))

/-- Whether the memory of an address space, as the root of a die reaches it, lies in memory that is ready (R399). -/
def spaceReady (s : State) (sp : Space) (die : Nat) : Bool :=
  tableReady s 5 (nth sp.roots die 0) && readyRange s sp.ctxBase sp.ctxLen && readyRange s sp.loadBase sp.loadLen && readyRange s sp.ttable 2048

/-- Whether the state of the boot lets a launch be placed on a die: in SAFELIGHT only a safe launch whose memory is ready
(R382, R399, R400). -/
def bootAllows (s : State) (l : Launch) (die : Nat) : Bool :=
  match s.svc.boot with
  | .full => true
  | .safelight =>
    l.safe && (match findSpace s l.asid with
      | some sp => spaceReady s sp die
      | none => false)
  | _ => false

/-- Strands of a launch that lie on cores. -/
def placedOf (s : State) (l : Launch) : List Strand :=
  (strands s).filter fun h => h.launch == l.id && (h.status == .running || h.status == .saving)

/-- Whether a cluster has a core in service. -/
def clusterThere (s : State) (d c : Nat) : Bool := (rangeFrom 0 Config.cores).any fun k => coreInService s ⟨d, c, k, 0⟩

/-- Whether some cluster of the package holds no strand of a launch. -/
def freeCluster (s : State) (l : Launch) : Bool :=
  (rangeFrom 0 (8 * Config.clusters)).any fun i =>
    let d := i / Config.clusters
    let c := i % Config.clusters
    clusterThere s d c && !((placedOf s l).any fun h => h.place.die == d && h.place.cluster == c)

/-- Strands of a launch that wait for a placement: saved ones, and indices not started. -/
def savedOf (s : State) (l : Launch) : List Strand := (strands s).filter fun h => h.launch == l.id && h.status == .saved

/-- Indices of a launch not yet started. -/
def unstarted (l : Launch) : List Nat := (rangeFrom 0 (l.ctl 0 12)).filter fun i => !l.started.contains i

/-- The partition that gives a place n lane groups: a strand in the other slot keeps its count. -/
def partFor (s : State) (p : Place) (n : Nat) : Nat × Nat :=
  let c := coreInfo s p
  let there := occupied s { p with slot := 1 - p.slot }
  if p.slot = 0 then (n, if there then c.n1 else 0) else (if there then c.n0 else 0, n)

/-- Whether a place takes a strand with n lane groups now. -/
def takes (s : State) (p : Place) (n : Nat) : Bool := canPlace s p n (partFor s p n).1 (partFor s p n).2

/-- The core of a row launch's strand idx (R373, R383). -/
def rowPlace (l : Launch) (idx : Nat) : Place := coreAt (l.ctl 32 6) (l.ctl 38 6 + idx) 0

/-- Whether no core of a row launch's waiting strands is retired, absent or busy (R383). -/
def rowFits (s : State) (l : Launch) : Bool :=
  ((unstarted l).all fun i => takes s (rowPlace l i) (l.ctl 12 4)) &&
    (savedOf s l).all fun h => [8, 6, 4, 2, 0].any fun n => decide (32 * n ≤ h.lown) && mayResume s h n && takes s (rowPlace l h.idx) n

/-- The affinity of R383 for strand idx. -/
def affinityOk (s : State) (l : Launch) (idx : Nat) (p : Place) : Bool :=
  match l.ctl 28 2 with
  | 1 => !((placedOf s l).any fun h => h.place.die == p.die && h.place.cluster == p.cluster) || !freeCluster s l
  | 2 => p == rowPlace l idx && rowFits s l
  | _ => true

/-- Whether strand idx of a launch may be placed with a partition, in any launch state. -/
def placeable (s : State) (l : Launch) (idx : Nat) (p : Place) (n0 n1 : Nat) : Bool :=
  canPlace s p (l.ctl 12 4) n0 n1 && bootAllows s l p.die && affinityOk s l idx p

/-! ### Strand start (R88, R383) -/

/-- Where a strand of a launch of a Flaset image stands at its start: at the schedule, before its first firing (R379). -/
def Firing.start (r : Resident) : Option Firing :=
  if r.flaset then some ⟨BitVec.ofNat 64 (scheduleVa r.image), 0#64, none, 0, none, [], none⟩ else none

/-- A strand at its start on a core. -/
def freshStrand (s : State) (l : Launch) (sp : Space) (r : Resident) (idx : Nat) (p : Place) : Strand :=
  let z := Strand.start
  { z with
    sid := s.nextId, launch := l.id, idx := idx, nstr := l.ctl 0 12, status := .running, place := p, lown := 32 * l.ctl 12 4
    root := nth sp.roots p.die 0, asid := l.asid, claimVa := sub l.raw 24 8 + claimBytes * idx
    pc := BitVec.ofNat 64 (entryOf r l)
    x := z.x.set 10 (BitVec.ofNat 64 (sub l.raw 16 8)) (by decide)
    csr := { z.csr with stvec := BitVec.ofNat 64 r.trap &&& ~~~(3#64) }
    firing := Firing.start r }

/-- Put a new strand into the package: in the running strand's place when none is placed yet. -/
def addStrand (h : Strand) (s : State) : State :=
  let s := { s with nextId := s.nextId + 1 }
  if s.hart.status = .unplaced then { s with hart := h } else { s with parked := s.parked ++ [h] }

/-- Place strand idx of a loaded launch and start it. -/
def startStrand (l : Launch) (idx : Nat) (p : Place) (n0 n1 : Nat) (s : State) : State :=
  match findSpace s l.asid, residentOf s l with
  | some sp, some r =>
    let s := setPart p n0 n1 s
    let s := addStrand (freshStrand s l sp r idx p) s
    match findLaunch s l.id with
    | some l => setLaunch { l with
        state := .running, placed := true, started := idx :: l.started, dies := if l.state = .running then l.dies else s.svc.dies
        flow := if l.flow.isNone && r.flaset then some (Flow.start r.image) else l.flow } s
    | none => s
  | _, _ => s

/-- Whether a launch may have strands placed: ready or running, its object loaded. -/
def mayPlace (l : Launch) : Bool := (l.state == .ready || l.state == .running) && l.loaded && !l.replaying

/-! ### Effective priority (R384) -/

/-- Whether there is an edge from W to X: W is not placed and waits on X. -/
def waitsFor (w x : Launch) : Bool :=
  !w.placed && w.state != .complete && w.waiting.any fun p =>
    match p with
    | .launch key _ => key == x.id
    | .timeline t _ => x.asid == w.asid && x.state != .complete && x.ctl 44 8 == t

/-- One round of carrying priorities along the edges. -/
def carryPrio (ls : List Launch) (es : List (Nat × Nat)) : List (Nat × Nat) :=
  ls.map fun x => (x.id, ls.foldl (fun m w =>
    if waitsFor w x then max m (((es.find? fun e => e.1 == w.id).map (·.2)).getD 0) else m)
    (((es.find? fun e => e.1 == x.id).map (·.2)).getD 0))

/-- E of every incomplete node. -/
def priorities (s : State) : List (Nat × Nat) :=
  let ls := s.launches.filter fun l => l.state != .complete
  let rec go : Nat → List (Nat × Nat) → List (Nat × Nat)
    | 0, es => es
    | n + 1, es => go n (carryPrio ls es)
  go ls.length (ls.map fun l => (l.id, l.prio))

/-- E of a node. -/
def effective (es : List (Nat × Nat)) (l : Launch) : Nat := ((es.find? fun e => e.1 == l.id).map (·.2)).getD 0

/-! ### The order of R385 -/

/-- Whether node a is considered before node b. -/
def before (s : State) (es : List (Nat × Nat)) (a b : Launch) : Bool :=
  let ea := effective es a
  let eb := effective es b
  if ea ≠ eb then decide (eb < ea)
  else if a.asid = b.asid then decide (a.order < b.order)
  else match findSpace s a.asid, findSpace s b.asid with
    | some x, some y =>
      let n := nth x.served ea 0 * y.weight
      let m := nth y.served ea 0 * x.weight
      if n = m then decide (x.asid < y.asid) else decide (n < m)
    | _, _ => false

/-- Insert a node in its place. -/
def insertNode (s : State) (es : List (Nat × Nat)) (l : Launch) : List Launch → List Launch
  | [] => [l]
  | x :: xs => if before s es l x then l :: x :: xs else x :: insertNode s es l xs

/-- Whether a node is ready to place and has strands that wait for it; it has its turn while its object is still to be loaded too. -/
def wantsPlace (s : State) (l : Launch) : Bool :=
  !isCopy l.raw && mayPlace { l with loaded := true } && (!(unstarted l).isEmpty || !(savedOf s l).isEmpty)

/-- The nodes to consider, in order. -/
def nodesInOrder (s : State) : List Launch :=
  let es := priorities s
  (s.launches.filter (wantsPlace s)).foldl (fun ns l => insertNode s es l ns) []

/-! ### Restore (R286, R383) -/

/-- Whether a saved strand of a launch may resume at a place (R383, R399): one of a gang only on a die that was ready when the gang
was placed. -/
def resumePlace (s : State) (l : Launch) (h : Strand) (p : Place) : Bool :=
  bootAllows s l p.die && affinityOk s l h.idx p && (l.ctl 19 1 == 0 || bit l.dies p.die)

/-- A strand put in the running strand's place. -/
def asFront (sid : Nat) (s : State) : State := (swapTo sid s).getD s

/-- A saved strand is read back from either copy and placed, or its launch ends with CONTEXT_LOST; none where the place does not
take it. -/
def restoreAt (h : Strand) (l : Launch) (place : Place) (n0 n1 : Nat) (s : State) : Option State :=
  let n := if place.slot = 0 then n0 else n1
  match findSpace s h.asid with
  | none => none
  | some sp =>
    if h.status ≠ .saved ∨ l.state ≠ .running ∨ canPlace s place n n0 n1 = false ∨ mayResume s h n = false ∨
        resumePlace s l h place = false then none
    else
    let s := areaSuspects h.copies.1 h.copies.2 s
    if lostBlocks s h.copies.1 h.copies.2 areaBytes || areaBad (readArea s h.copies.1 h.copies.2) then
      some (drainLaunch { l with code := 7, reason := 5 } (rasLog 11 (coreLoc h.place 0 0) h.copies.1 s))
    else
      let act : M Unit := do
        reloadArea h.copies.1 h.copies.2
        modH fun k => { k with status := .running, place := place, root := nth sp.roots place.die 0 }
        modH fun k => if 32 * n < k.lown then regrantStrand (32 * n) k else k
        modify regrantAll
        modify reformAll
      match act (asFront h.sid (setPart place n0 n1 s)) with
      | .ok _ t => some (asFront s.hart.sid t)
      | .error _ _ => none

/-! ### Placing a node -/

/-- Lane groups with which a saved strand may resume at a place, largest first (R128). -/
def resumeCount (s : State) (l : Launch) (h : Strand) (p : Place) : Option Nat :=
  [8, 6, 4, 2, 0].find? fun n => decide (32 * n ≤ h.lown) && resumePlace s l h p && mayResume s h n && takes s p n

/-- How a saved strand is put at a place with a partition. -/
abbrev Putter := Strand → Launch → Place → Nat → Nat → State → Option State

/-- A saved strand holds its place, while places for others are looked for. -/
def holdPlace : Putter := fun h _ p n0 n1 s =>
  some (modStrand h.sid (fun h => { h with status := .saving, place := p }) (setPart p n0 n1 s))

/-- Put the next strand of a node that waits at a place; none where the place does not take it. -/
def placeNext (put : Putter) (l : Launch) (p : Place) (s : State) : Option State :=
  match savedOf s l, unstarted l with
  | h :: _, _ =>
    match resumeCount s l h p with
    | none => none
    | some n => put h l p (partFor s p n).1 (partFor s p n).2 s
  | [], idx :: _ =>
    let q := partFor s p (l.ctl 12 4)
    if placeable s l idx p q.1 q.2 then some (startStrand l idx p q.1 q.2 s) else none
  | [], [] => none

/-- Place the strands of a node at places in order; the launch is looked up afresh for each, and one that has been lost meanwhile
takes no more. -/
def placeAll (key : Nat) : List Place → State → Option State
  | [], s => some s
  | p :: ps, s =>
    match findLaunch s key with
    | none => none
    | some l => if mayPlace l then (placeNext restoreAt l p s).bind (placeAll key ps) else some s

/-- Slots of the package in ascending order. -/
def allPlaces : List Place :=
  (rangeFrom 0 (16 * Config.clusters * Config.cores)).map fun i => ⟨i / 400, i / 16 % 25, i / 2 % 8, i % 2⟩

/-- Places for the next n strands of a node, tried in order. -/
def greedy (key : Nat) : List Place → Nat → State → Nat → Nat
  | [], _, _, k => k
  | p :: ps, n, s, k =>
    if n ≤ k then k
    else match (findLaunch s key).bind fun l => placeNext holdPlace l p s with
      | some s' => greedy key ps n s' (k + 1)
      | none => greedy key ps n s k

/-- How many strands must be placed in one decision: every waiting one of a gang or a row, else one (R382, R383). -/
def leastPlaced (s : State) (l : Launch) : Nat :=
  if l.ctl 19 1 = 1 ∨ l.ctl 28 2 = 2 then (savedOf s l).length + (unstarted l).length else 1

/-- Whether a place is one that a node that waits before this one could use (R385). -/
def barred (s : State) (ahead : List Launch) (p : Place) : Bool := ahead.any fun x => (placeNext holdPlace x p s).isSome

/-- Whether a node can be placed now on what the nodes ahead of it could not use. -/
def placeableNow (s : State) (ahead : List Launch) (l : Launch) : Bool :=
  let n := leastPlaced s l
  let ps := if l.ctl 28 2 = 2 then ((savedOf s l).map (·.idx) ++ unstarted l).map (rowPlace l) else allPlaces
  n != 0 && greedy l.id (if ahead = [] then ps else ps.filter fun p => !barred s ahead p) n s 0 == n

/-! ### Pre-emption for a node (R385, R386) -/

/-- Insert a launch among victims: lowest E first, then youngest. -/
def insertVictim (es : List (Nat × Nat)) (l : Launch) : List Launch → List Launch
  | [] => [l]
  | x :: xs =>
    let a := effective es l
    let b := effective es x
    if a < b ∨ (a = b ∧ x.order < l.order) then l :: x :: xs else x :: insertVictim es l xs

/-- Running launches with E below that of a node, in the order in which they are pre-empted. -/
def victimsFor (s : State) (l : Launch) : List Launch :=
  let es := priorities s
  (s.launches.filter fun x => x.state == .running && decide (effective es x < effective es l) &&
    ((strands s).any fun h => h.launch == x.id && h.status == .running)).foldl (fun vs x => insertVictim es x vs) []

/-- The state as it would be with every strand of some launches off its core, saves in progress ended too where asked. -/
def without (saves : Bool) (keys : List Nat) (s : State) : State :=
  let f (h : Strand) : Strand :=
    if (saves && h.status == .saving) || (h.status == .running && keys.contains h.launch) then { h with status := .saved } else h
  { s with hart := f s.hart, parked := s.parked.map f }

/-- The least number of victims whose pre-emption lets a node be placed, with saves in progress ended or not. -/
def victimsNeeded (s : State) (saves : Bool) (ahead : List Launch) (l : Launch) (vs : List Launch) : Option Nat :=
  (rangeFrom 0 (vs.length + 1)).find? fun n => placeableNow (without saves ((vs.take n).map (·.id)) s) ahead l

/-- The launches that a node that cannot be placed pre-empts now: none where no pre-emption helps, or where it would need a core whose
save is in progress, which ends first (R385, R386). -/
def preempts (s : State) (ahead : List Launch) (l : Launch) : List Launch :=
  let vs := victimsFor s l
  match victimsNeeded s true ahead l vs with
  | none => []
  | some n => if victimsNeeded s false ahead l vs = some n then vs.take n else []

/-! ### The decision (R385) -/

/-- Whose turn it is: the first node, in order, that can be placed, with the nodes that wait ahead of it, or that pre-empts; a node
that waits is passed over. -/
inductive Turned where
  | place (l : Launch) (ahead : List Launch)
  | preempt (victims : List Launch)
  | nobody
  deriving DecidableEq

/-- The decision over nodes in order; one whose object is still to be loaded waits, and keeps from those after it what it could use. -/
def turnOf (s : State) : List Launch → List Launch → Turned
  | _, [] => .nobody
  | ahead, l :: ls =>
    if l.loaded = false then turnOf s (ahead ++ [l]) ls
    else if placeableNow s ahead l then .place l ahead
    else match preempts s ahead l with
      | [] => turnOf s (ahead ++ [l]) ls
      | vs => .preempt vs

/-- Whether it is a node's turn to be placed, and a place is not one that a node ahead of it waits for. -/
def mayTake (s : State) (l : Launch) (p : Place) : Bool :=
  match turnOf s [] (nodesInOrder s) with
  | .place x ahead => x.id == l.id && !barred s ahead p
  | _ => false

/-- Count a turn of an address space in the round-robin of a node's effective priority; a turn beyond the space's weight begins a new
round, since every other space with a node that can be placed has had its turns of this one (R370, R385). -/
def serve (l : Launch) (s : State) : State :=
  let e := effective (priorities s) l
  match findSpace s l.asid with
  | some sp =>
    let s := if nth sp.served e 0 < sp.weight then s
      else { s with spaces := s.spaces.map fun x => { x with served := setNth x.served e 0 } }
    { s with spaces := s.spaces.map fun x => if x.asid = sp.asid then { x with served := setNth x.served e (nth x.served e 0 + 1) } else x }
  | none => s

/-- PLACEMENT_DECISION (R385): the given places serve the node whose turn it is; the places of copies serve the saves of a pre-emption. -/
def execPlacementDecision (places : List Place) (copyA copyB : List Nat) (s : State) : Host.Outcome State Fault Refusal :=
  runEvent (do
    let s ← get
    match turnOf s [] (nodesInOrder s) with
    | .nobody => notEnabled "placement decision"
    | .preempt vs =>
      let hs := (strands s).filter fun h => h.status == .running && (vs.map (·.id)).contains h.launch
      enabled (decide (hs.length ≤ (copyA.zip copyB).length)) "placement decision"
      set { s with agenda := (hs.zip (copyA.zip copyB)).map (fun (x : Strand × (Nat × Nat)) => Turn.event (.preempt x.1.sid x.2.1 x.2.2)) ++ s.agenda }
    | .place l ahead =>
      enabled (decide (leastPlaced s l ≤ places.length) && !places.any (barred s ahead)) "placement decision"
      match placeAll l.id places s with
      | none => notEnabled "placement decision"
      | some s' => set (serve l s')) s

/-- Whether a strand of a launch may be placed by itself: no gang's or row's other strands wait with it (R383). -/
def alone (s : State) (l : Launch) : Bool := leastPlaced s l == 1

/-- STRAND_PLACE (R383): one strand of the node whose turn it is. -/
def execStrandPlace (launch idx : Nat) (place : Place) (n0 n1 : Nat) (s : State) : Host.Outcome State Fault Refusal :=
  runEvent (do
    let s ← get
    match findLaunch s launch with
    | none => notEnabled "strand place"
    | some l =>
      enabled (mayPlace l && decide (idx < l.ctl 0 12) && !l.started.contains idx && alone s l && (findSpace s l.asid).isSome &&
        (residentOf s l).isSome && placeable s l idx place n0 n1 && mayTake s l place) "strand place"
      set (serve l (startStrand l idx place n0 n1 s))) s

/-- CONTEXT_RESTORE (R286, R383): one saved strand of the node whose turn it is is read back from either copy, or its launch ends
with CONTEXT_LOST. -/
def execContextRestore (sid : Nat) (place : Place) (n0 n1 : Nat) (s : State) : Host.Outcome State Fault Refusal :=
  runEvent (do
    let s ← get
    match findStrand s sid with
    | none => notEnabled "restore"
    | some h =>
      match findLaunch s h.launch with
      | none => notEnabled "restore"
      | some l =>
        enabled (alone s l && mayTake s l place) "restore"
        match restoreAt h l place n0 n1 s with
        | some s' => set (serve l s')
        | none => notEnabled "restore") s

end Sys2Proof.Machine
end

