-- ==== Sys2Proof/Machine/Shape.lean ====
section
/-!
DEFINITION. Shape grants and tags (06_shape_and_type.md): vshape with its strip boundary (R111, R279), vtag (R115), tshape
(R120) and tgetsh (R122).
-/
namespace Sys2Proof.Machine

/-- StripBoundary of R111 and R279: commit, checkpoint, a new rewindable strip; the vshape that a rewind re-executes keeps
the strip's rewind (R282, log 12). -/
def stripBoundary : M Unit := do
  commitStrip
  modH fun h =>
    { h with strip := { rewindable := true, rewinds := if h.strip.rewinds = 2 then 1 else 0, buffer := [],
                        checkpoint := some ⟨h.pc, h.x, h.stripmask, h.emask, h.ea⟩ } }

/-- The grant of R111: min(request, Lown × 256 / w). -/
def vshapeGrant (h : Strand) (w : WidthClass) (rs1 : BitVec 5) : Nat :=
  let most := h.lown * 256 / w.bits
  if (h.rx rs1).toNat < most then (h.rx rs1).toNat else most

/-- VSHAPE (R111). -/
def execVshape (width : WidthClass) (rs1 rd : BitVec 5) (s : State) : Host.Outcome State Fault Refusal :=
  runInstr (.vshape width rs1 rd) (do
    vecGate
    let h ← getH
    let g := vshapeGrant h width rs1
    if h.mode = .user then stripBoundary
    modH fun h => { h with vl := g, wid := width.bits, rgf := false, vsta := 0 }
    writeX rd (BitVec.ofNat 64 g)) s

/-- VTAG (R115). -/
def execVtag (ty : ETag) (vd : BitVec 5) (s : State) : Host.Outcome State Fault Refusal :=
  runInstr (.vtag ty vd) (do
    vecGate
    needUnconfigured (.vreg vd.toNat)
    modH fun h => h.putTag vd ty) s

/-- The shape that tshape grants (R120). -/
def tshapeGrant (t : ETag) (rows cols : Nat) : TShape :=
  if rows = 0 ∨ cols = 0 then .none
  else ⟨if rows < 128 then rows else 128, if cols < colMax t then cols else colMax t, t⟩

/-- TSHAPE (R120). -/
def execTshape (ty : ETag) (rs2 rs1 : BitVec 5) (md : BitVec 3) (s : State) : Host.Outcome State Fault Refusal :=
  runInstr (.tshape ty rs2 rs1 md) (do
    vecGate
    needUnconfigured (.tile md.toNat)
    modH fun h => { h with tshape := h.tshape.set md.toFin (tshapeGrant ty (h.rx rs1).toNat (h.rx rs2).toNat) }) s

/-- TGETSH (R122). -/
def execTgetsh (md : BitVec 3) (rd : BitVec 5) (s : State) : Host.Outcome State Fault Refusal :=
  runInstr (.tgetsh md rd) (do
    vecGate
    writeX rd ((← getH).shape md).word) s

end Sys2Proof.Machine
end

