-- ==== Sys2Proof/Machine/Dispatch.lean ====
section
/-!
DEFINITION. One arm per constructor of Instr, each one direct call of its meaning.
-/
namespace Sys2Proof.Machine

/-- The meaning of each instruction and step of the opcode table. -/
def exec (i : Instr) (s : State) : Host.Outcome State Fault Refusal :=
  match i with
  | .vadd km sc vs2 vs1 vd => Sys2Proof.Machine.execVadd km sc vs2 vs1 vd s
  | .vsub km sc vs2 vs1 vd => Sys2Proof.Machine.execVsub km sc vs2 vs1 vd s
  | .vrsub km sc vs2 vs1 vd => Sys2Proof.Machine.execVrsub km sc vs2 vs1 vd s
  | .vmul km sc vs2 vs1 vd => Sys2Proof.Machine.execVmul km sc vs2 vs1 vd s
  | .vmulh km sc vs2 vs1 vd => Sys2Proof.Machine.execVmulh km sc vs2 vs1 vd s
  | .vdiv km sc vs2 vs1 vd => Sys2Proof.Machine.execVdiv km sc vs2 vs1 vd s
  | .vrem km sc vs2 vs1 vd => Sys2Proof.Machine.execVrem km sc vs2 vs1 vd s
  | .vmin km sc vs2 vs1 vd => Sys2Proof.Machine.execVmin km sc vs2 vs1 vd s
  | .vmax km sc vs2 vs1 vd => Sys2Proof.Machine.execVmax km sc vs2 vs1 vd s
  | .vand km sc vs2 vs1 vd => Sys2Proof.Machine.execVand km sc vs2 vs1 vd s
  | .vor km sc vs2 vs1 vd => Sys2Proof.Machine.execVor km sc vs2 vs1 vd s
  | .vxor km sc vs2 vs1 vd => Sys2Proof.Machine.execVxor km sc vs2 vs1 vd s
  | .vsll km sc vs2 vs1 vd => Sys2Proof.Machine.execVsll km sc vs2 vs1 vd s
  | .vsrl km sc vs2 vs1 vd => Sys2Proof.Machine.execVsrl km sc vs2 vs1 vd s
  | .vsra km sc vs2 vs1 vd => Sys2Proof.Machine.execVsra km sc vs2 vs1 vd s
  | .vcmpeq km sc vs2 vs1 kd => Sys2Proof.Machine.execVcmpeq km sc vs2 vs1 kd s
  | .vcmpne km sc vs2 vs1 kd => Sys2Proof.Machine.execVcmpne km sc vs2 vs1 kd s
  | .vcmplt km sc vs2 vs1 kd => Sys2Proof.Machine.execVcmplt km sc vs2 vs1 kd s
  | .vcmple km sc vs2 vs1 kd => Sys2Proof.Machine.execVcmple km sc vs2 vs1 kd s
  | .vfma km sc vs2 vs1 vd => Sys2Proof.Machine.execVfma km sc vs2 vs1 vd s
  | .vfms km sc vs2 vs1 vd => Sys2Proof.Machine.execVfms km sc vs2 vs1 vd s
  | .vfnma km sc vs2 vs1 vd => Sys2Proof.Machine.execVfnma km sc vs2 vs1 vd s
  | .vfnms km sc vs2 vs1 vd => Sys2Proof.Machine.execVfnms km sc vs2 vs1 vd s
  | .vsel km vs2 vs1 vd => Sys2Proof.Machine.execVsel km vs2 vs1 vd s
  | .vqblk km vs2 vs1 vd => Sys2Proof.Machine.execVqblk km vs2 vs1 vd s
  | .vdqblk km vs2 vs1 vd => Sys2Proof.Machine.execVdqblk km vs2 vs1 vd s
  | .vsplat km rs1 vd => Sys2Proof.Machine.execVsplat km rs1 vd s
  | .vaddVi km imm vs1 vd => Sys2Proof.Machine.execVaddVi km imm vs1 vd s
  | .vsubVi km imm vs1 vd => Sys2Proof.Machine.execVsubVi km imm vs1 vd s
  | .vrsubVi km imm vs1 vd => Sys2Proof.Machine.execVrsubVi km imm vs1 vd s
  | .vmulVi km imm vs1 vd => Sys2Proof.Machine.execVmulVi km imm vs1 vd s
  | .vminVi km imm vs1 vd => Sys2Proof.Machine.execVminVi km imm vs1 vd s
  | .vmaxVi km imm vs1 vd => Sys2Proof.Machine.execVmaxVi km imm vs1 vd s
  | .vandVi km imm vs1 vd => Sys2Proof.Machine.execVandVi km imm vs1 vd s
  | .vorVi km imm vs1 vd => Sys2Proof.Machine.execVorVi km imm vs1 vd s
  | .vxorVi km imm vs1 vd => Sys2Proof.Machine.execVxorVi km imm vs1 vd s
  | .vsllVi km imm vs1 vd => Sys2Proof.Machine.execVsllVi km imm vs1 vd s
  | .vsrlVi km imm vs1 vd => Sys2Proof.Machine.execVsrlVi km imm vs1 vd s
  | .vsraVi km imm vs1 vd => Sys2Proof.Machine.execVsraVi km imm vs1 vd s
  | .vcmpeqVi km imm vs1 kd => Sys2Proof.Machine.execVcmpeqVi km imm vs1 kd s
  | .vcmpneVi km imm vs1 kd => Sys2Proof.Machine.execVcmpneVi km imm vs1 kd s
  | .vcmpltVi km imm vs1 kd => Sys2Proof.Machine.execVcmpltVi km imm vs1 kd s
  | .vcmpleVi km imm vs1 kd => Sys2Proof.Machine.execVcmpleVi km imm vs1 kd s
  | .vsplatVi km imm vd => Sys2Proof.Machine.execVsplatVi km imm vd s
  | .vmv km vs1 vd => Sys2Proof.Machine.execVmv km vs1 vd s
  | .vabs km vs1 vd => Sys2Proof.Machine.execVabs km vs1 vd s
  | .vneg km vs1 vd => Sys2Proof.Machine.execVneg km vs1 vd s
  | .vnot km vs1 vd => Sys2Proof.Machine.execVnot km vs1 vd s
  | .vsqrt km vs1 vd => Sys2Proof.Machine.execVsqrt km vs1 vd s
  | .vrcp km vs1 vd => Sys2Proof.Machine.execVrcp km vs1 vd s
  | .vrsqrt km vs1 vd => Sys2Proof.Machine.execVrsqrt km vs1 vd s
  | .vexp2 km vs1 vd => Sys2Proof.Machine.execVexp2 km vs1 vd s
  | .vlog2 km vs1 vd => Sys2Proof.Machine.execVlog2 km vs1 vd s
  | .vclz km vs1 vd => Sys2Proof.Machine.execVclz km vs1 vd s
  | .vpop km vs1 vd => Sys2Proof.Machine.execVpop km vs1 vd s
  | .vclass km vs1 vd => Sys2Proof.Machine.execVclass km vs1 vd s
  | .vcvt km vs1 vd => Sys2Proof.Machine.execVcvt km vs1 vd s
  | .vid km vd => Sys2Proof.Machine.execVid km vd s
  | .kand ks2 ks1 kd => Sys2Proof.Machine.execKand ks2 ks1 kd s
  | .kor ks2 ks1 kd => Sys2Proof.Machine.execKor ks2 ks1 kd s
  | .kxor ks2 ks1 kd => Sys2Proof.Machine.execKxor ks2 ks1 kd s
  | .kandn ks2 ks1 kd => Sys2Proof.Machine.execKandn ks2 ks1 kd s
  | .knot ks1 kd => Sys2Proof.Machine.execKnot ks1 kd s
  | .kpop ks1 rd => Sys2Proof.Machine.execKpop ks1 rd s
  | .kfirst ks1 rd => Sys2Proof.Machine.execKfirst ks1 rd s
  | .kmv ks1 kd => Sys2Proof.Machine.execKmv ks1 kd s
  | .kmvFromEmask kd => Sys2Proof.Machine.execKmvFromEmask kd s
  | .kmvToEmask ks1 => Sys2Proof.Machine.execKmvToEmask ks1 s
  | .kset rs1 kd => Sys2Proof.Machine.execKset rs1 kd s
  | .vld km rs1 vd => Sys2Proof.Machine.execVld km rs1 vd s
  | .vst km rs1 vs3 => Sys2Proof.Machine.execVst km rs1 vs3 s
  | .vlds km rs2 rs1 vd => Sys2Proof.Machine.execVlds km rs2 rs1 vd s
  | .vsts km rs2 rs1 vs3 => Sys2Proof.Machine.execVsts km rs2 rs1 vs3 s
  | .vldx km vs2 rs1 vd => Sys2Proof.Machine.execVldx km vs2 rs1 vd s
  | .vstx km vs2 rs1 vs3 => Sys2Proof.Machine.execVstx km vs2 rs1 vs3 s
  | .vgl km vs2 rs1 vd => Sys2Proof.Machine.execVgl km vs2 rs1 vd s
  | .vsc km vs2 rs1 vs3 => Sys2Proof.Machine.execVsc km vs2 rs1 vs3 s
  | .vlsl km vs2 rs1 vd => Sys2Proof.Machine.execVlsl km vs2 rs1 vd s
  | .vssl km vs2 rs1 vs3 => Sys2Proof.Machine.execVssl km vs2 rs1 vs3 s
  | .vamoadd km old vs2 rs1 vd => Sys2Proof.Machine.execVamoadd km old vs2 rs1 vd s
  | .vamomin km old vs2 rs1 vd => Sys2Proof.Machine.execVamomin km old vs2 rs1 vd s
  | .vamomax km old vs2 rs1 vd => Sys2Proof.Machine.execVamomax km old vs2 rs1 vd s
  | .vamoand km old vs2 rs1 vd => Sys2Proof.Machine.execVamoand km old vs2 rs1 vd s
  | .vamoor km old vs2 rs1 vd => Sys2Proof.Machine.execVamoor km old vs2 rs1 vd s
  | .vamoxor km old vs2 rs1 vd => Sys2Proof.Machine.execVamoxor km old vs2 rs1 vd s
  | .vamoswp km old vs2 rs1 vd => Sys2Proof.Machine.execVamoswp km old vs2 rs1 vd s
  | .vamocas km vs2 rs1 vd => Sys2Proof.Machine.execVamocas km vs2 rs1 vd s
  | .vperm km vs2 vs1 vd => Sys2Proof.Machine.execVperm km vs2 vs1 vd s
  | .vslup km rs2 vs1 vd => Sys2Proof.Machine.execVslup km rs2 vs1 vd s
  | .vsldn km rs2 vs1 vd => Sys2Proof.Machine.execVsldn km rs2 vs1 vd s
  | .vcomp km vs1 vd => Sys2Proof.Machine.execVcomp km vs1 vd s
  | .vexpd km vs1 vd => Sys2Proof.Machine.execVexpd km vs1 vd s
  | .vscan km vs1 vd => Sys2Proof.Machine.execVscan km vs1 vd s
  | .vcex km vs2 vs1 vd => Sys2Proof.Machine.execVcex km vs2 vs1 vd s
  | .vmrg km vs2 vs1 vd => Sys2Proof.Machine.execVmrg km vs2 vs1 vd s
  | .vred km vs1 ea => Sys2Proof.Machine.execVred km vs1 ea s
  | .vredmx km vs1 vd => Sys2Proof.Machine.execVredmx km vs1 vd s
  | .vredmn km vs1 vd => Sys2Proof.Machine.execVredmn km vs1 vd s
  | .vdot km vs2 vs1 ea => Sys2Proof.Machine.execVdot km vs2 vs1 ea s
  | .eaclr ea => Sys2Proof.Machine.execEaclr ea s
  | .eard ea vd => Sys2Proof.Machine.execEard ea vd s
  | .eamvLoad rs1 ea => Sys2Proof.Machine.execEamvLoad rs1 ea s
  | .eamvStore rs1 ea => Sys2Proof.Machine.execEamvStore rs1 ea s
  | .mma mc ma mb => Sys2Proof.Machine.execMma mc ma mb s
  | .mmasp mc ma mb v => Sys2Proof.Machine.execMmasp mc ma mb v s
  | .mmack mc ma mb v => Sys2Proof.Machine.execMmack mc ma mb v s
  | .tzero mc => Sys2Proof.Machine.execTzero mc s
  | .tmv mc ma => Sys2Proof.Machine.execTmv mc ma s
  | .tcvt mc ma => Sys2Proof.Machine.execTcvt mc ma s
  | .tadd mc ma mb => Sys2Proof.Machine.execTadd mc ma mb s
  | .tscale mc ma rs => Sys2Proof.Machine.execTscale mc ma rs s
  | .tsum ma v => Sys2Proof.Machine.execTsum ma v s
  | .tld md rs2 rs1 => Sys2Proof.Machine.execTld md rs2 rs1 s
  | .tst md rs2 rs1 => Sys2Proof.Machine.execTst md rs2 rs1 s
  | .ttov md v rs1 => Sys2Proof.Machine.execTtov md v rs1 s
  | .vtot md v rs1 => Sys2Proof.Machine.execVtot md v rs1 s
  | .vshape width rs1 rd => Sys2Proof.Machine.execVshape width rs1 rd s
  | .vtag ty vd => Sys2Proof.Machine.execVtag ty vd s
  | .tgetsh md rd => Sys2Proof.Machine.execTgetsh md rd s
  | .tshape ty rs2 rs1 md => Sys2Proof.Machine.execTshape ty rs2 rs1 md s
  | .chcfg rs1 c => Sys2Proof.Machine.execChcfg rs1 c s
  | .chrun rs1 c => Sys2Proof.Machine.execChrun rs1 c s
  | .chwait rs2 c rd => Sys2Proof.Machine.execChwait rs2 c rd s
  | .chbrk c => Sys2Proof.Machine.execChbrk c s
  | .chres c => Sys2Proof.Machine.execChres c s
  | .chstat rs2 c rd => Sys2Proof.Machine.execChstat rs2 c rd s
  | .chfree c => Sys2Proof.Machine.execChfree c s
  | .chsave rs1 c => Sys2Proof.Machine.execChsave rs1 c s
  | .chload rs1 c => Sys2Proof.Machine.execChload rs1 c s
  | .tlwait tl rs2 rs1 rd => Sys2Proof.Machine.execTlwait tl rs2 rs1 rd s
  | .tlnow tl rd => Sys2Proof.Machine.execTlnow tl rd s
  | .wflag ge rs2 rs1 rd => Sys2Proof.Machine.execWflag ge rs2 rs1 rd s
  | .sync scope classes rs1 rd => Sys2Proof.Machine.execSync scope classes rs1 rd s
  | .rlnew rs1 rd => Sys2Proof.Machine.execRlnew rs1 rd s
  | .rljoin rs1 rd => Sys2Proof.Machine.execRljoin rs1 rd s
  | .rlleave rs1 rd => Sys2Proof.Machine.execRlleave rs1 rd s
  | .rlfree rs1 rd => Sys2Proof.Machine.execRlfree rs1 rd s
  | .rlarr rs1 rd => Sys2Proof.Machine.execRlarr rs1 rd s
  | .rlwait rs2 rs1 rd => Sys2Proof.Machine.execRlwait rs2 rs1 rd s
  | .rlbar rs2 rs1 rd => Sys2Proof.Machine.execRlbar rs2 rs1 rd s
  | .ecopy tl rs2 rs1 rd => Sys2Proof.Machine.execEcopy tl rs2 rs1 rd s
  | .egth tl rs2 rs1 rd => Sys2Proof.Machine.execEgth tl rs2 rs1 rd s
  | .esct tl rs2 rs1 rd => Sys2Proof.Machine.execEsct tl rs2 rs1 rd s
  | .efill tl rs2 rs1 rd => Sys2Proof.Machine.execEfill tl rs2 rs1 rd s
  | .ecvt tl rs2 rs1 rd => Sys2Proof.Machine.execEcvt tl rs2 rs1 rd s
  | .ecan tl rs2 rs1 rd => Sys2Proof.Machine.execEcan tl rs2 rs1 rd s
  | .icinv pkg rs2 rs1 rd => Sys2Proof.Machine.execIcinv pkg rs2 rs1 rd s
  | .tlbinv pkg rs2 rs1 rd => Sys2Proof.Machine.execTlbinv pkg rs2 rs1 rd s
  | .fput tl rs2 rs1 rd => Sys2Proof.Machine.execFput tl rs2 rs1 rd s
  | .fget tl rs2 rs1 rd => Sys2Proof.Machine.execFget tl rs2 rs1 rd s
  | .fcoll tl rs2 rs1 rd => Sys2Proof.Machine.execFcoll tl rs2 rs1 rd s
  | .dlaunch rs2 rs1 rd => Sys2Proof.Machine.execDlaunch rs2 rs1 rd s
  | .ldaq scope rs1 rd => Sys2Proof.Machine.execLdaq scope rs1 rd s
  | .strl scope rs2 rs1 => Sys2Proof.Machine.execStrl scope rs2 rs1 s
  | .vqpush q vs rs1 rd => Sys2Proof.Machine.execVqpush q vs rs1 rd s
  | .vqpop q vd rs1 rd => Sys2Proof.Machine.execVqpop q vd rs1 rd s
  | .vqcnt q rd => Sys2Proof.Machine.execVqcnt q rd s
  | .vwait ge kd vs rs1 rd => Sys2Proof.Machine.execVwait ge kd vs rs1 rd s
  | .fence fm pred succ rs1 rd => Sys2Proof.Machine.execFence fm pred succ rs1 rd s
  | .fenceI imm rs1 rd => Sys2Proof.Machine.execFenceI imm rs1 rd s
  | .lr dbl aq rl rs1 rd => Sys2Proof.Machine.execLr dbl aq rl rs1 rd s
  | .sc dbl aq rl rs2 rs1 rd => Sys2Proof.Machine.execSc dbl aq rl rs2 rs1 rd s
  | .amo op dbl aq rl rs2 rs1 rd => Sys2Proof.Machine.execAmo op dbl aq rl rs2 rs1 rd s
  | .scalarLoad op imm rs1 rd => Sys2Proof.Machine.execScalarLoad op imm rs1 rd s
  | .scalarStore op imm rs2 rs1 => Sys2Proof.Machine.execScalarStore op imm rs2 rs1 s
  | .sfenceVma rs2 rs1 => Sys2Proof.Machine.execSfenceVma rs2 rs1 s
  | .vstaWrite op src rd => Sys2Proof.Machine.execVstaWrite op src rd s
  | .emaskWrite op src rd => Sys2Proof.Machine.execEmaskWrite op src rd s
  | .eclsWrite op src rd => Sys2Proof.Machine.execEclsWrite op src rd s
  | .wceilWrite op src rd => Sys2Proof.Machine.execWceilWrite op src rd s
  | .wptWrite n op src rd => Sys2Proof.Machine.execWptWrite n op src rd s
  | .finjWrite op src rd => Sys2Proof.Machine.execFinjWrite op src rd s
  | .registerWrite target => Sys2Proof.Machine.execRegisterWrite target s
  | .strandPlace launch idx place n0 n1 => Sys2Proof.Machine.execStrandPlace launch idx place n0 n1 s
  | .preempt sid copyA copyB => Sys2Proof.Machine.execPreempt sid copyA copyB s
  | .contextSaveEnd sid => Sys2Proof.Machine.execContextSaveEnd sid s
  | .contextRestore sid place n0 n1 => Sys2Proof.Machine.execContextRestore sid place n0 n1 s
  | .chainStageUnit c stage => Sys2Proof.Machine.execChainStageUnit c stage s
  | .portElementRead c port => Sys2Proof.Machine.execPortElementRead c port s
  | .portElementWrite c port => Sys2Proof.Machine.execPortElementWrite c port s
  | .linkElementReceive c link ty value mark => Sys2Proof.Machine.execLinkElementReceive c link ty value mark s
  | .cutMarkerReceive c link cause => Sys2Proof.Machine.execCutMarkerReceive c link cause s
  | .temporalPass c => Sys2Proof.Machine.execTemporalPass c s
  | .homeAccessApply write pa bytes data => Sys2Proof.Machine.execHomeAccessApply write pa bytes data s
  | .updateTokenApply op ty pa data cmp rm => Sys2Proof.Machine.execUpdateTokenApply op ty pa data cmp rm s
  | .engineElement cmd => Sys2Proof.Machine.execEngineElement cmd s
  | .engineCommandEnd cmd => Sys2Proof.Machine.execEngineCommandEnd cmd s
  | .patrolScrub pa err => Sys2Proof.Machine.execPatrolScrub pa err s
  | .writeQueueDrain stack chan => Sys2Proof.Machine.execWriteQueueDrain stack chan s
  | .rowActivate pa bank row => Sys2Proof.Machine.execRowActivate pa bank row s
  | .refreshWindowStart stack bank => Sys2Proof.Machine.execRefreshWindowStart stack bank s
  | .fixerScrub pa err => Sys2Proof.Machine.execFixerScrub pa err s
  | .suspectReread pa intact => Sys2Proof.Machine.execSuspectReread pa intact s
  | .rowSparing pa bytes unreadable => Sys2Proof.Machine.execRowSparing pa bytes unreadable s
  | .ucieRetrain module => Sys2Proof.Machine.execUcieRetrain module s
  | .ucieModuleLost module links => Sys2Proof.Machine.execUcieModuleLost module links s
  | .stackLost stack => Sys2Proof.Machine.execStackLost stack s
  | .bankLost die cluster bank => Sys2Proof.Machine.execBankLost die cluster bank s
  | .engineLost die cluster engine => Sys2Proof.Machine.execEngineLost die cluster engine s
  | .updateNodeLost site => Sys2Proof.Machine.execUpdateNodeLost site s
  | .coreRetire die cluster core unread copyA copyB => Sys2Proof.Machine.execCoreRetire die cluster core unread copyA copyB s
  | .dieOutOfService die unread copies => Sys2Proof.Machine.execDieOutOfService die unread copies s
  | .hostBar4Write pa data => Sys2Proof.Machine.execHostBar4Write pa data s
  | .hostBar4Read pa bytes => Sys2Proof.Machine.execHostBar4Read pa bytes s
  | .portRecordAccept port off data => Sys2Proof.Machine.execPortRecordAccept port off data s
  | .recordTake port => Sys2Proof.Machine.execRecordTake port s
  | .pcanWrite port bytes value => Sys2Proof.Machine.execPcanWrite port bytes value s
  | .create asid arg => Sys2Proof.Machine.execCreate asid arg s
  | .destroy asid arg => Sys2Proof.Machine.execDestroy asid arg s
  | .flushcode asid arg => Sys2Proof.Machine.execFlushcode asid arg s
  | .invaltlb asid arg => Sys2Proof.Machine.execInvaltlb asid arg s
  | .pbindWrite port value => Sys2Proof.Machine.execPbindWrite port value s
  | .placementDecision places copyA copyB => Sys2Proof.Machine.execPlacementDecision places copyA copyB s
  | .codeObjectLoad launch => Sys2Proof.Machine.execCodeObjectLoad launch s
  | .launchDeadlineExpiry launch => Sys2Proof.Machine.execLaunchDeadlineExpiry launch s
  | .launchComplete launch => Sys2Proof.Machine.execLaunchComplete launch s
  | .launchReplay launch => Sys2Proof.Machine.execLaunchReplay launch s
  | .hostCopy launch => Sys2Proof.Machine.execHostCopy launch s
  | .deviceReset slotA slotB => Sys2Proof.Machine.execDeviceReset slotA slotB s
  | .fixerImageVerify slotA slotB => Sys2Proof.Machine.execFixerImageVerify slotA slotB s
  | .unitSelfTestEnd kind n pass => Sys2Proof.Machine.execUnitSelfTestEnd kind n pass s
  | .attestationRequest value => Sys2Proof.Machine.execAttestationRequest value s
  | .pwrcapWrite value => Sys2Proof.Machine.execPwrcapWrite value s
  | .rasackWrite value => Sys2Proof.Machine.execRasackWrite value s
  | .thermalTrip copyA copyB => Sys2Proof.Machine.execThermalTrip copyA copyB s
  | .wmarkWrite stack value => Sys2Proof.Machine.execWmarkWrite stack value s
  | .hrowWrite stack value => Sys2Proof.Machine.execHrowWrite stack value s
  | .elideMark stack value => Sys2Proof.Machine.execElideMark stack value s
  | .fpkgWrite value => Sys2Proof.Machine.execFpkgWrite value s
  | .fabricRemoteRequest kind asid tag fromPkg fromAsid raddr len data => Sys2Proof.Machine.execFabricRemoteRequest kind asid tag fromPkg fromAsid raddr len data s
  | .fabricCommandEnd cmd cause count location data => Sys2Proof.Machine.execFabricCommandEnd cmd cause count location data s
  | .collectiveContribution msg => Sys2Proof.Machine.execCollectiveContribution msg s
  | .collectiveResultReceive cmd data classes => Sys2Proof.Machine.execCollectiveResultReceive cmd data classes s
  | .collectiveCommit key acks => Sys2Proof.Machine.execCollectiveCommit key acks s
  | .collectiveExpiry tag seq => Sys2Proof.Machine.execCollectiveExpiry tag seq s
  | .collectiveMemberLost tag seq member => Sys2Proof.Machine.execCollectiveMemberLost tag seq member s
  | .scalarInstruction op => Sys2Proof.Machine.execScalarInstruction op s
  | .encodingThatSelectsNothing bits => Sys2Proof.Machine.execEncodingThatSelectsNothing bits s
  | .memorySideCacheLineMove line toArray => Sys2Proof.Machine.execMemorySideCacheLineMove line toArray s
  | .bankRowSparing pa bytes unreadable => Sys2Proof.Machine.execBankRowSparing pa bytes unreadable s
  | .fabricPortTrained port => Sys2Proof.Machine.execFabricPortTrained port s
  | .fabricPortLost port => Sys2Proof.Machine.execFabricPortLost port s
  | .collectiveAbortReceive cmd reason mask => Sys2Proof.Machine.execCollectiveAbortReceive cmd reason mask s
  | .claim => Sys2Proof.Machine.execClaim s
  | .ecall => Sys2Proof.Machine.execEcall s
  | .ebreak => Sys2Proof.Machine.execEbreak s
  | .wfi => Sys2Proof.Machine.execWfi s
  | .sret => Sys2Proof.Machine.execSret s
  | .asyncEventTake => Sys2Proof.Machine.execAsyncEventTake s
  | .strandEnd => Sys2Proof.Machine.execStrandEnd s
  | .waitConditionMet => Sys2Proof.Machine.execWaitConditionMet s
  | .waitExpiry => Sys2Proof.Machine.execWaitExpiry s
  | .thermalCalibrationEnd => Sys2Proof.Machine.execThermalCalibrationEnd s
  | .thermalRecover => Sys2Proof.Machine.execThermalRecover s
  | .scmdCommandComplete => Sys2Proof.Machine.execScmdCommandComplete s
  | .attestationReportComplete => Sys2Proof.Machine.execAttestationReportComplete s

end Sys2Proof.Machine
end

