-- ==== Sys2Proof/Machine/Firing.lean ====
section
/-!
DEFINITION. The firings of a Flaset image (R378 to R380): what the translated schedule does when a strand stands at it, between
two firings.
-/
namespace Sys2Proof.Machine

/-- Whether the running strand stands at its schedule: between two firings, or at the closing ret of the body that fires, which ends the
firing whatever x1 holds there (R380; log 32). -/
def atSchedule (h : Strand) : Bool :=
  h.mode == .user && h.firing.any fun f => f.home == h.pc || (f.actor.isSome && f.close == h.pc)

/-- The firings of one period that a strand of a launch performs: actor k of the graph fires on strand (k − first) mod N (R379). -/
def ownOrder (g : Graph) (idx nstr : Nat) : List Nat := g.order.filter fun k => (k - g.first) % nstr == idx

/-- Whether an actor may fire: the tokens that it takes are there, and its buffers have room for those that it gives (R378). -/
def mayFire (bs : List Byte) (g : Graph) (w : Flow) (k : Nat) : Bool :=
  let cs := conduitsOf bs k
  let held (c : Nat) : Nat := (nth w.tokens c []).length
  let taken (c : Nat) : Nat := ((cs.find? fun x => x.input && x.chan == c).map (·.rate)).getD 0
  cs.all fun x =>
    if x.input then decide (x.rate ≤ held x.chan)
    else decide (held x.chan - taken x.chan + x.rate ≤ ((g.sizes.find? fun y => y.1 == x.chan).map (·.2)).getD 0)

/-- Whether a register of x is one that an actor keeps (R380). -/
def keptX (i : Nat) : Bool := i == 8 || i == 9 || (decide (18 ≤ i) && decide (i ≤ 27))

/-- The strand as a firing of actor k starts: what the actor's previous firing left, a0 the argument, sp the top of its stack, and
every other register at its value at strand start, the supervisor's and the timelines among them (R380,
R88); a Flaset image has no trap entry (R387). -/
def Strand.fires (h : Strand) (k : Nat) (r : ActorRegs) (a0 sp body close : Nat) (queues : List Conduit) : Strand :=
  let z := Strand.start
  { h with
    pc := BitVec.ofNat 64 body
    x := vecOf 32 fun i =>
      if i = 2 then BitVec.ofNat 64 sp else if i = 10 then BitVec.ofNat 64 a0
      else if keptX i then nth r.x.toList i 0#64 else 0#64
    ea := r.ea, m := r.m, tshape := r.tshape
    v := z.v, vtag := z.vtag, k := z.k, emask := z.emask, q := z.q, vl := z.vl, wid := z.wid, rgf := z.rgf, vsta := z.vsta
    cls := z.cls, rm := z.rm, stripmask := z.stripmask, wdef := z.wdef, wceil := z.wceil, estep := z.estep, wpt := z.wpt
    watch := z.watch, csr := z.csr, tl := z.tl
    bad := h.bad.filter fun b => b.src == 3 || b.src == 5
    firing := h.firing.map fun f => { f with close := BitVec.ofNat 64 close, actor := some k, queues := queues } }

/-- What the running strand leaves to an actor's next firing. -/
def Strand.leaves (h : Strand) : ActorRegs := { x := h.x, ea := h.ea, m := h.m, tshape := h.tshape }

/-- End a firing, at its closing ret, which completes: the strand stands at the schedule. The strand's launch ends with FAULT, scause 30, where it has moved another count than its rates or elements of
another type; else what the actor keeps is kept (R380). -/
def endFiring (f : Firing) (k : Nat) (l : Launch) : M Unit := do
  let s ← get
  match f.broken.orElse fun _ => f.queues.findIdx? fun c => c.moved != c.rate with
  | some q => do
    set (fatalFault s.hart.sid 30 (BitVec.ofNat 64 q) s)
    throw .switched
  | none => do
    modify fun s => setLaunch { l with flow := l.flow.map fun w => { w with regs := w.regs.set k s.hart.leaves } } (dropChains s)
    modH fun h => { h with
      pc := f.home
      csr := { h.csr with instret := h.csr.instret + 1#64 }
      firing := some { f with actor := none, queues := [], turn := f.turn + 1 } }

/-- The period count, read where a0 of the launch points when the strand first stands at the schedule (R379). -/
def readPeriods (f : Firing) (arg : Nat) : M Nat := do
  match f.periods with
  | some p => return p
  | none => do
    let p ← bypassLoad arg 8
    modH fun h => { h with firing := some { f with periods := some p } }
    return p

/-- The next firing of a strand begins, where its tokens and its room are there; after the last one the strand returns to address
0 (R387). -/
def nextFiring (bs : List Byte) (l : Launch) (g : Graph) (w : Flow) (f : Firing) : M Unit := do
  let arg := sub l.raw 16 8
  let p ← readPeriods f arg
  let h ← getH
  let own := ownOrder g h.idx h.nstr
  if p * own.length ≤ f.turn then modH fun h => { h with pc := 0#64 }
  else
    let k := nth own (f.turn % own.length) 0
    if mayFire bs g w k then
      modify fun s => { s with cmds := s.cmds.map fun c => if c.sid = h.sid ∧ c.tl < 4 then { c with tl := c.tl + 4 } else c }
      modH fun h => h.fires k (nth w.regs k .start) ((arg + 8) % 2 ^ 64) (stackTop bs k) (bodyVa bs k) (closeVa bs k) (conduitsOf bs k)

/-- What the schedule does: it ends the firing that has come back to it, else it begins the next one. Between them the strip
commits, as the tokens are beyond a rewind. -/
def scheduleStep : M Unit := do
  endRewind
  let s ← get
  match s.hart.firing, findLaunch s s.hart.launch with
  | some f, some l =>
    match residentOf s l, l.flow with
    | some r, some w =>
      match f.actor with
      | some k => endFiring f k l
      | none =>
        match graphAt r.image (sub l.raw 8 2) with
        | some g => nextFiring r.image l g w f
        | none => pure ()
    | _, _ => pure ()
  | _, _ => pure ()

end Sys2Proof.Machine
end

