-- ==== Sys2Proof/Machine/Plan.lean ====
section
/-!
DEFINITION. What the next step of the machine is: a turn of the agenda; for the running strand a boundary event (R275), its end
at virtual address 0 (R387), a waiting instruction (R229) or the fetched and decoded instruction (R78); and, where every
strand waits, a step of another agent. Which agent goes next is open to the part (R9), and log 1 says what the model does.
-/
namespace Sys2Proof.Machine

/-- What the next step does. -/
inductive Plan where
  | exec (i : Instr) (s : State)
  | next (s : State)
  | refused (r : Refusal)
  | fault (f : Fault)

/-- The next step of an engine, for the oldest command that can go on. -/
def engineNext (s : State) : Option Instr :=
  s.cmds.findSome? fun c =>
    match c.body with
    | .engine _ d =>
      if c.fin.isSome || mustWait s c then none
      else if c.cancelled || c.engineLost s || decide (d.total ≤ c.next) then some (.engineCommandEnd c.id) else some (.engineElement c.id)
    | _ => none

/-- What has come in on a link of the running strand's chain ci: the oldest marker, else the oldest element. The notice that a
peer is freed (R218) is received where the agenda or lateNotice says. -/
def linkNext (s : State) (ci : Nat) : Option Instr :=
  let k := s.hart.chain ci
  (rangeFrom 0 k.links.length).findSome? fun l =>
    match (k.link l).marks with
    | m :: _ => if m = freedMark then none else some (.cutMarkerReceive (BitVec.ofNat 2 ci) l m)
    | [] =>
      match (k.link l).peer with
      | none => none
      | some (sid, p, j) =>
        match (findStrand s sid).map fun h => ((h.far p).link j).wire with
        | some (x :: _) => some (.linkElementReceive (BitVec.ofNat 2 ci) l x.1 x.2.1 x.2.2)
        | _ => none

/-- A stage of the running strand's chain ci that has a unit to perform, the last one first. -/
def stageNext (s : State) (ci : Nat) : Option Instr :=
  let s := bindLinks ci s
  ((rangeFrom 0 (s.hart.chain ci).stages.length).reverse.find? fun i =>
    match attempt ci i s with
    | .stuck => false
    | _ => true).map fun i => .chainStageUnit (BitVec.ofNat 2 ci) i

/-- The next step of one of the running strand's chains: a pass under a temporal grant, else one unit or one arrival
(R213, R224). -/
def chainNext (s : State) : Option Instr :=
  (rangeFrom 0 4).findSome? fun ci =>
    let k := s.hart.chain ci
    if !k.configured then none
    else (linkNext s ci).orElse fun _ =>
      if !k.runs then none
      else if k.tgrant then (if (pass ci s).hart.c == s.hart.c then none else some (.temporalPass (BitVec.ofNat 2 ci)))
      else stageNext s ci

/-- Instructions that a strand retires before it receives the notice of a freed peer, where none of its chains has another step. DESIGN
CHOICE (log 21). -/
def noticeAfter : Nat := 1024

/-- The notice of a freed peer that the running strand receives now: it does not wait, and has gone on for long since (R218, R222). -/
def lateNotice (s : State) : Option Instr :=
  if s.hart.wait.isSome then none
  else (rangeFrom 0 4).findSome? fun ci =>
    let k := s.hart.chain ci
    if !k.runs then none
    else (rangeFrom 0 k.links.length).findSome? fun l =>
      match (k.link l).marks with
      | m :: _ =>
        if m = freedMark ∧ (k.link l).freedAt + noticeAfter ≤ s.hart.csr.instret.toNat then some (.cutMarkerReceive (BitVec.ofNat 2 ci) l m)
        else none
      | [] => none

/-- A placed strand other than the running one whose chain has a next step, in the running strand's place. -/
def otherChain (s : State) : Option (Instr × State) :=
  s.parked.findSome? fun h =>
    if h.status = .running ∧ h.c.toList.any Chain.configured = true then
      (swapTo h.sid s).bind fun t => (chainNext t).map fun i => (i, t)
    else none

/-- A step of the Shutter or a save that is due. -/
def shutterNext (s : State) : Option Instr :=
  let save := ((strands s).find? (saveDue s)).map fun h => Instr.contextSaveEnd h.sid
  let idle (l : Launch) : Bool := liveStrands s l.id == [] && !(s.cmds.any fun c => c.launch == l.id && c.fin.isNone)
  let launch := s.launches.findSome? fun l =>
    if l.state = .draining ∧ idle l = true then some (Instr.launchComplete l.id)
    else if l.state = .running ∧ (l.trigger = true ∨ l.replaying = true ∧ idle l = true) then some (Instr.launchReplay l.id)
    else if l.state = .ready ∧ isCopy l.raw = true ∧ s.svc.boot ≠ .boot then some (Instr.hostCopy l.id)
    else if l.state = .ready ∧ isCopy l.raw = false ∧ l.loaded = false then some (Instr.codeObjectLoad l.id)
    else none
  let take := ((rangeFrom 0 64).find? fun p => (nth s.ports p .start).slots != []).map fun p => Instr.recordTake p
  save.orElse fun _ => launch.orElse fun _ => if incompletes s < 65536 then take else none

/-- The state after a step of the strand outside its instructions, its stops taken as a trap or a consumed error. -/
def stopped (r : EStateM.Result Stop State α) (f : α → State → State) : State :=
  match r with
  | .ok a s => f a s
  | .error (.trap c t _) s => takeTrap c t s
  | .error (.ue t _) s => consumeUE t none s
  | .error _ s => s

/-- The next step of the running strand, when it does not wait. -/
def planFetch (s : State) : Plan :=
  if s.hart.mode = .user ∧ hasPending s.hart = true then .exec .asyncEventTake s
  else if s.hart.pc = 0#64 then .exec .strandEnd s
  else if atSchedule s.hart then .next (stopped (scheduleStep s) fun _ s' => s')
  else match fetchInstr s with
    | .ok i s' => .exec i s'
    | r => .next (stopped r fun _ s' => s')

/-- A strand that is not the running one and can go on: it does not wait, or its wait is over. -/
def otherRuns (s : State) : Option State :=
  s.parked.findSome? fun h =>
    if h.status ≠ .running then none
    else match swapTo h.sid s with
      | none => none
      | some t =>
        match h.wait with
        | none => some t
        | some w => if w.expiry ≤ t.now ∨ waitReady t = true then some t else none

/-- The next step of a strand whose wait is over, or that does not wait. -/
def planReady (s : State) : Plan :=
  match s.hart.wait with
  | none => planFetch s
  | some w => if w.expiry ≤ s.now then .exec .waitExpiry s else .exec .waitConditionMet s

/-- The least expiry of the placed strands that wait, at least e. -/
def soonest (s : State) (e : Nat) : Nat :=
  s.parked.foldl (fun e h => match h.wait with
    | some w => if h.status = .running ∧ w.expiry < e then w.expiry else e
    | none => e) e

/-- The next step while the running strand waits: its wait ends, or another agent or strand goes on, or time passes to the
next expiry. -/
def planWait (w : PendingWait) (s : State) : Plan :=
  if w.expiry ≤ s.now ∨ waitReady s = true then planReady s
  else match (chainNext s).orElse fun _ => engineNext s with
    | some i => .exec i s
    | none =>
      match otherRuns s, otherChain s with
      | some t, _ => planReady t
      | none, some (i, t) => .exec i t
      | none, none =>
        match shutterNext s with
        | some i => .exec i s
        | none =>
          let x := soonest s w.expiry
          if x = w.expiry then .exec .waitExpiry { s with now := x }
          else match otherRuns { s with now := x } with
            | some t => planReady t
            | none => .exec .waitExpiry { s with now := w.expiry }

/-- The next step where no turn is laid out. -/
def planStrand (s : State) : Plan :=
  if s.svc.boot = .failed then .fault .bootFailed
  else if s.hart.status = .running then
    match s.hart.wait with
    | none => planFetch s
    | some w => planWait w s
  else match otherRuns s with
    | some t => planReady t
    | none =>
      match (s.parked.find? fun h => h.status == .running).bind fun h => swapTo h.sid s with
      | some t => (match t.hart.wait with
          | none => planFetch t
          | some w => planWait w t)
      | none =>
        match (engineNext s).orElse fun _ => shutterNext s with
        | some i => .exec i s
        | none => .refused .idle

/-! ### What precedes a turn -/

/-- The strands whose waits are evaluated. -/
def waiters (s : State) : List Nat := ((s.hart :: s.parked).filter fun h => h.status == .running && h.wait.isSome).map (·.sid)

/-- Evaluate a strand's wait in place, as far as that does not end it (R229). -/
def observeOne (s : State) (sid : Nat) : State :=
  match swapTo sid s with
  | none => s
  | some t =>
    let t := observed t
    let now (k : Strand) : Strand := if k.sid = sid then t.hart else (t.parked.find? fun h => h.sid == k.sid).getD k
    { t with hart := now s.hart, parked := s.parked.map now }

/-- Evaluate every pending wait once: state that its condition reads may have changed (R229). -/
def observe (s : State) : State := (waiters s).foldl observeOne s

/-- The first strand whose wait ends when it is evaluated now, in the running strand's place. -/
def readyWait (s : State) : Option State :=
  (waiters s).findSome? fun sid => (swapTo sid s).bind fun t => if waitReady t then some t else none

/-- The chains of strands that had a lane replaced are cut with AUTO and re-formed (R62, R222). -/
def settleLanes (s : State) : State := s.swapped.foldl cutAndReform { s with swapped := [] }

/-- Whether a running strand holds a lane group of a core. -/
def groupHeld (s : State) (p : Place) (phys : Nat) : Bool :=
  match findCore s p with
  | none => false
  | some c => (s.hart :: s.parked).any fun h => [0, 1].any fun k => onCore h p k && (ownedGroups c k).contains phys

/-- A physical fault of an idle lane group that stands first is met (R63); a single-bit error of a word is corrected, with its entry of
the log, and has no other effect (R301, R404). -/
def idleFault (s : State) : State :=
  match s.upsets with
  | u :: us =>
    (match u.site with
      | .idle d c k g =>
        let p : Place := ⟨d, c, k, 0⟩
        let s := { s with upsets := us }
        if groupHeld s p g then s else meetIdle u p g s
      | .word pa =>
        let s := { s with upsets := us }
        if inHbm s pa || inTile s pa then rasLog 5 (memLoc pa) (pa / 8 * 8) s else s
      | _ => s)
  | [] => s

/-- What the host can still do after a failed boot: a reset, and writes of BAR0 (R398). -/
def byHost : Instr → Bool
  | .deviceReset _ _ | .registerWrite (.bar0 _ _ _ _) | .pbindWrite _ _ | .pwrcapWrite _ | .rasackWrite _ | .attestationRequest _
  | .fpkgWrite _ => true
  | _ => false

/-- The next step at a turn of the other agents: one of the chains, engines, other strands or the Shutter in rotation, where
it has one, so that no agent waits for ever while the running strand goes on. -/
def planTurn (s : State) : Plan :=
  if s.svc.boot = .failed then .fault .bootFailed
  else if s.now / turnEvery % 2 = 0 then
    match (if s.hart.status = .running then (chainNext s).orElse fun _ => lateNotice s else none).orElse fun _ => engineNext s with
    | some i => .exec i s
    | none =>
      match otherChain s with
      | some (i, t) => .exec i t
      | none => planStrand s
  else match otherRuns s with
    | some t => planReady t
    | none =>
      match shutterNext s with
      | some i => .exec i s
      | none => planStrand s

/-- The next step by the agenda: its head, else the running strand, or another agent's turn (log 1). -/
def planAgenda (s : State) : Plan :=
  match s.agenda with
  | [] => if turnDue s.now then planTurn s else planStrand s
  | .event i :: rest =>
    if s.svc.boot = .failed ∧ byHost i = false then .fault .bootFailed
    else if isEvent i then .exec i { s with agenda := rest } else .refused .notAnEvent
  | .run sid :: rest =>
    match swapTo sid { s with agenda := rest } with
    | some s' => planStrand s'
    | none => .refused (.stepNotEnabled "run")

/-- What stands first among the choices for the step that begins: what the last step took goes, fills are made, and the step takes held
entries for other agents' accesses where that is next (R337). -/
def beginChoices (s : State) : State :=
  match s.choices with
  | [] => s
  | cs =>
    let cs := match cs with
      | .stale true :: rest => rest
      | _ => cs
    let r := fillsAhead cs s
    { r.2 with choices := match r.1 with
        | .stale false :: rest => .stale true :: rest
        | rest => rest }

/-- The next step of the machine: a wait whose condition is met ends (R229), else the agenda says. One tick passes (R227). -/
def plan (s : State) : Plan :=
  let s := observe (idleFault (settleLanes (beginChoices { s with now := s.now + Config.tick })))
  if s.svc.boot = .failed then planAgenda s
  else match readyWait s with
    | some t => planReady t
    | none => planAgenda s

end Sys2Proof.Machine
end

