-- ==== Sys2Proof/Machine/Step.lean ====
section
/-!
DEFINITION. One step of the machine: what is planned (Plan.lean) is carried out by the instruction's meaning, after which the
checked positions of the lane groups that took part go on.
-/
namespace Sys2Proof.Machine

/-- One step. -/
def step (s : State) : Host.Outcome State Fault Refusal :=
  match plan s with
  | .exec i s' => laneChecks i s' (exec i s')
  | .next s' => .next s'
  | .refused r => .refused r
  | .fault f => .fault f

/-- The state with an instruction stored where step fetches its next instruction (log 4). -/
def State.withFetchWord (s : State) (nbits w : Nat) : State := placeWord s nbits w

end Sys2Proof.Machine
end

