-- ==== Sys2Proof/Safety.lean ====
section
/-!
DEFINITION. The words in which the statements speak: what holds of every state (the canonical form of the memories), when
nothing outside an instruction can keep the running strand from completing it, and the state that a completed instruction
leaves.
-/
namespace Sys2Proof.Machine

/-- The package with another strand as the running one. -/
def State.withHart (s : State) (h : Strand) : State := { s with hart := h }

/-- The memories stand in their canonical form: addresses rise strictly and no cell holds what an unlisted address reads. -/
def State.tidy (s : State) : Bool := s.mem.wf && s.hostMem.wf

/-- No watchpoint of the running strand watches its own accesses: no src of 1 or 2 (R85, R287). -/
def Strand.unwatched (h : Strand) : Bool := h.wpt.toList.all fun w => wptSrc w != 1 && wptSrc w != 2

/-- Nothing outside an instruction can stop or redirect it: no precise hit is pending and no watchpoint is set on the strand's
own accesses (R287), the caches answer afresh and no lane group meets a fault (R8, R59), no register holds an uncorrectable
word (R282), and the strand does not step by elements (R288). -/
def State.calm (s : State) : Bool :=
  s.hart.hit.isNone && s.hart.unwatched && s.choices.isEmpty && s.upsets.isEmpty && s.hart.bad.isEmpty && !s.hart.estep

/-- The strand may name vector state: it owns lanes, of the 256 of a core (R50, R72), and in supervisor mode it has claimed
(R89, R277). -/
def Strand.mayVector (h : Strand) : Bool := h.lown != 0 && decide (h.lown ≤ 256) && (h.mode == .user || h.claimed)

/-- No chain of the strand is configured, so none restricts an instruction (R124, R221). -/
def Strand.unchained (h : Strand) : Bool := h.c.toList.all fun k => k.state == .free || k.state == .rejected

/-- The state after an instruction begun in s is complete, the running strand being h at its end: the pc is that of the next
instruction, one more instruction is retired, no wait is left. -/
def State.completes (s : State) (h : Strand) : State :=
  s.withHart { h with pc := h.npc, wait := none, csr := { h.csr with instret := h.csr.instret + 1#64 } }

/-- Registers of these types hold the vector length (R114). -/
def Strand.fits (h : Strand) (ts : List ETag) : Bool := ts.all fun u => decide (h.vl ≤ h.cap u)

/-- A strand h differs from k at most in vector register vd with its tag, in emask, and in vsta, which is 0: nothing else of
the strand has changed, and emask only where a class is selected (R65). -/
def Strand.vectorFrame (k h : Strand) (vd : BitVec 5) : Prop :=
  h = { k with v := h.v, vtag := h.vtag, emask := h.emask, vsta := 0 } ∧ (k.cls = 0 → h.emask = k.emask) ∧
    ∀ r, r ≠ vd → h.v.get r.toFin = k.v.get r.toFin ∧ h.tag r = k.tag r

/-- Register vd of h has tag t, and its elements are those of k but for the active ones from vsta, which have the given
encodings. -/
def Strand.delivered (k h : Strand) (vd : BitVec 5) (t : ETag) (active : Nat → Bool) (f : Nat → Nat) : Prop :=
  h.tag vd = t ∧ ∀ e, e < k.cap t → getElem_ (h.v.get vd.toFin) k.lown t.width e =
    if k.vsta ≤ e ∧ active e = true then f e % 2 ^ t.width else getElem_ (k.v.get vd.toFin) k.lown t.width e

/-- A strand h differs from k at most in the mask registers, in emask, and in vsta, which is 0; of the mask registers in kd
alone, and not at all where kd is k0. -/
def Strand.maskFrame (k h : Strand) (kd : BitVec 3) : Prop :=
  h = { k with k := h.k, emask := h.emask, vsta := 0 } ∧ (k.cls = 0 → h.emask = k.emask) ∧ (kd = 0#3 → h.k = k.k) ∧
    ∀ q, q ≠ kd → h.k.get q.toFin = k.k.get q.toFin

/-- A strand h differs from k only in vsta, which is 0, and in what was written to rd, where it is not x0 (R73). -/
def Strand.registerFrame (k h : Strand) (rd : BitVec 5) (v : Word) : Prop := h = { k.wx rd v with vsta := 0 }

/-- The state after a strand takes a type or shape fault at instruction i, with nothing else changed: vsta is 0 and stval holds
the instruction bits (R119). -/
def State.checkFault (s : State) (cause : Nat) (i : Instr) : State :=
  takeTrap cause (instrBits i) (s.withHart { s.hart with vsta := 0 })

/-- Two-operand arithmetic with a register as B or a broadcast x register, with its operation and whether it takes integers
only. -/
def arithmeticVV : List ((BitVec 3 → Bool → BitVec 5 → BitVec 5 → BitVec 5 → Instr) × BinOp × Bool) :=
  [(.vadd, .add, false), (.vsub, .sub, false), (.vrsub, .rsub, false), (.vmul, .mul, false), (.vmulh, .mulh, true),
   (.vdiv, .div, false), (.vrem, .rem, true), (.vmin, .min, false), (.vmax, .max, false)]

/-- Two-operand arithmetic with an immediate as B. -/
def arithmeticVI : List ((BitVec 3 → BitVec 6 → BitVec 5 → BitVec 5 → Instr) × BinOp) :=
  [(.vaddVi, .add), (.vsubVi, .sub), (.vrsubVi, .rsub), (.vmulVi, .mul), (.vminVi, .min), (.vmaxVi, .max)]

/-- The real value of a finite number. -/
def Num.value : Num → ℚ
  | .fin neg m e => (if neg then -1 else 1) * (m : ℚ) * 2 ^ e
  | _ => 0

/-- k × 2^g is what an exact value becomes that is rounded under a mode to a multiple of 2^g (R30). -/
def RMode.rounds (mode : RMode) (x : ℚ) (g k : Int) : Prop :=
  let u : ℚ := 2 ^ g
  match mode with
  | .rne => 2 * |x - k * u| < u ∨ (2 * |x - k * u| = u ∧ k % 2 = 0)
  | .rtz => 0 ≤ k * x ∧ |k * u| ≤ |x| ∧ |x| < |k * u| + u
  | .rdn => k * u ≤ x ∧ x < k * u + u
  | .rup => k * u - u < x ∧ x ≤ k * u
  | .rod => x = k * u ∨ (|x - k * u| < u ∧ k % 2 = 1)

/-- An encoding of a float type has a value, with a sign where that is zero. -/
def floatHolds (t : ETag) (r : Nat) (neg : Bool) (v : ℚ) : Prop :=
  ∃ m e, decodeFloat t r = .fin neg m e ∧ (Num.fin neg m e).value = v

/-- An encoding of a float type is Round(x, t, mode) of an exact nonzero x, in the three steps of R31. -/
def isRoundOf (t : ETag) (mode : RMode) (x : ℚ) (r : Nat) : Prop :=
  let f := fmtOf t
  let neg := decide (x < 0)
  let least : Int := 1 - f.bias
  ∀ n k : Int, (2 : ℚ) ^ n ≤ |x| → |x| < 2 ^ (n + 1) → mode.rounds x (n - f.m) k →
    let y : ℚ := k * 2 ^ (n - f.m)
    let most : ℚ := f.maxM * 2 ^ f.maxE
    (most < |y| → r = overflowEnc t mode neg) ∧
    (|y| ≤ most → 2 ^ least ≤ |y| → floatHolds t r neg y) ∧
    (|y| ≤ most → |y| < 2 ^ least → ∀ j, mode.rounds x (least - f.m) j → floatHolds t r neg (j * 2 ^ (least - f.m)))

/-- Sums, differences and products with their exact values (R134). -/
def exactOps : List (BinOp × (ℚ → ℚ → ℚ)) :=
  [(.add, fun x y => x + y), (.sub, fun x y => x - y), (.rsub, fun x y => y - x), (.mul, fun x y => x * y)]

/-- Logic with a register or x register as B. -/
def logicVV : List ((BitVec 3 → Bool → BitVec 5 → BitVec 5 → BitVec 5 → Instr) × BinOp) :=
  [(.vand, .and), (.vor, .or), (.vxor, .xor)]

/-- Logic with an immediate as B. -/
def logicVI : List ((BitVec 3 → BitVec 6 → BitVec 5 → BitVec 5 → Instr) × BinOp) :=
  [(.vandVi, .and), (.vorVi, .or), (.vxorVi, .xor)]

/-- Shifts with a register or x register as the count. -/
def shiftVV : List ((BitVec 3 → Bool → BitVec 5 → BitVec 5 → BitVec 5 → Instr) × ShOp) :=
  [(.vsll, .sll), (.vsrl, .srl), (.vsra, .sra)]

/-- Shifts with an immediate count. -/
def shiftVI : List ((BitVec 3 → BitVec 6 → BitVec 5 → BitVec 5 → Instr) × ShOp) :=
  [(.vsllVi, .sll), (.vsrlVi, .srl), (.vsraVi, .sra)]

/-- Compares with a register or x register as B. -/
def compareVV : List ((BitVec 3 → Bool → BitVec 5 → BitVec 5 → BitVec 3 → Instr) × CmpOp) :=
  [(.vcmpeq, .eq), (.vcmpne, .ne), (.vcmplt, .lt), (.vcmple, .le)]

/-- Compares with an immediate as B. -/
def compareVI : List ((BitVec 3 → BitVec 6 → BitVec 5 → BitVec 3 → Instr) × CmpOp) :=
  [(.vcmpeqVi, .eq), (.vcmpneVi, .ne), (.vcmpltVi, .lt), (.vcmpleVi, .le)]

/-- Fused multiply-add: whether the product and whether the C term is negated. -/
def fusedVV : List ((BitVec 3 → Bool → BitVec 5 → BitVec 5 → BitVec 5 → Instr) × Bool × Bool) :=
  [(.vfma, false, false), (.vfms, false, true), (.vfnma, true, true), (.vfnms, true, false)]

/-- One-operand instructions of the Common class with the types they accept (R145, R148, R149). -/
def unaryV : List ((BitVec 3 → BitVec 5 → BitVec 5 → Instr) × UnOp × (ETag → Bool)) :=
  [(.vmv, .mv, fun _ => true), (.vabs, .abs, fun _ => true), (.vneg, .neg, fun t => t.isSigned || t.isFloat),
   (.vnot, .not, fun _ => true), (.vsqrt, .sqrt, ETag.isFloat), (.vrcp, .rcp, ETag.isFloat), (.vrsqrt, .rsqrt, ETag.isFloat),
   (.vexp2, .exp2, fun t => t.isFloat && t != .fp64), (.vlog2, .log2, fun t => t.isFloat && t != .fp64),
   (.vclz, .clz, ETag.isInt), (.vpop, .pop, ETag.isInt)]

/-- Mask operations on two masks, with the bit they give. -/
def maskVV : List ((BitVec 3 → BitVec 3 → BitVec 3 → Instr) × (Bool → Bool → Bool)) :=
  [(.kand, fun a b => a && b), (.kor, fun a b => a || b), (.kxor, fun a b => a != b), (.kandn, fun a b => a && !b)]

/-- The bytes of a range are all in memory and good, and translate together: the physical address of a virtual range of n
bytes that the running strand may access as k, of idempotent class (R160, R161, R333). -/
def State.reaches (s : State) (k : Access) (va n pa : Nat) : Bool :=
  canonical va && decide (va % n = 0) && decide (pa < ctlBase) &&
    (match translate s s.hart.root (s.hart.mode == .user) k va with
      | .ok r => r == (pa, false)
      | .error _ => false)

/-- Nothing stops or redirects an instruction that names no memory and no vector state: no precise hit is pending and the strand
does not step by elements (R287, R288). -/
def Strand.plain (h : Strand) : Bool := h.hit.isNone && !h.estep

/-- The value of n bytes that a load of the running strand takes at a physical place, its held stores laid over them (R280). -/
def State.ownValue (s : State) (pa n : Nat) : Nat :=
  ofBytes ((rangeFrom pa n).map fun a => overlayByte s.hart.strip.buffer false a (s.mem.get a))

/-- No byte that such a load takes is uncorrectable, unless held stores cover it (R280, R282). -/
def State.ownGood (s : State) (pa n : Nat) : Bool :=
  (rangeFrom pa n).all fun a => coveredByte s.hart.strip.buffer false a || !readsBad s a 1

/-- This core's data cache without its lines of a range (R87). -/
def State.withoutLines (s : State) (pa n : Nat) : State :=
  { s with dcache := s.dcache.filter fun l => !(l.core == coreNo s.hart.place && overlaps pa n l.line 64) }

/-- This core's data cache without its lines: an acquire (R262). -/
def State.acquired (s : State) : State := { s with dcache := s.dcache.filter fun l => l.core != coreNo s.hart.place }

/-- No cached line and no read-ahead of a chain port from before serves the strand any more (R262, R265). -/
def State.ordered (s : State) : State := s.acquired.withHart (dropAhead s.hart)

/-- This core's instruction cache without its lines (R79, R240). -/
def State.withoutText (s : State) : State := { s with icache := s.icache.filter fun l => l.core != coreNo s.hart.place }

/-- The strip committed and made non-rewindable (R279, R281): its held stores are performed in program order. -/
def State.committed (s : State) : State :=
  let t := (heldAccesses s.hart.strip.buffer).foldl (fun s es => performHeld es s)
    { s with hart := { s.hart with strip := { s.hart.strip with buffer := [] } } }
  t.withHart { t.hart with strip := { t.hart.strip with rewindable := false } }

/-- A store of the running strand at a virtual address (R280): held in a rewindable strip of user mode that has room for it, else performed, after a
commit where the strip had no room or a supervisor's store meets a held one. -/
def State.stored (s : State) (va : Nat) (es : List Held) : State :=
  if s.hart.mode = .supervisor then
    performHeld es (if (es.any fun e => s.hart.strip.buffer.any fun f => f.slice == e.slice && f.addr == e.addr) = true then s.committed else s)
  else if s.hart.strip.rewindable = true then
    if Config.stripWords < heldWords (s.hart.strip.buffer ++ es) then performHeld es s.committed
    else s.withHart { s.hart with strip := { s.hart.strip with buffer := s.hart.strip.buffer ++ heldAs s va es } }
  else performHeld es s

/-- The walks of several accesses of the running strand, one after another (R257, R336). -/
def State.walkedAll (s : State) (vas : List Nat) : State := vas.foldl (fun t va => t.walked va none) s

/-- One store of the running strand, if it stores anything: the walk that translates its address, then the store. -/
def State.walkStored (s : State) (va : Nat) (es : List Held) : State := if es = [] then s else (s.walked va none).stored va es

/-- Whatever the bytes for which W holds come to be, and whichever uncorrectable words go, the running strand's access of kind k at a
virtual address reaches one place of idempotent class: the tables that translate it stand outside those bytes (R329, R333). -/
def State.settles (s : State) (k : Access) (va pa : Nat) (W : Nat → Prop) : Prop :=
  ∀ t : State, t.svc = s.svc → t.lostNodes = s.lostNodes → t.lostBanks = s.lostBanks → (∀ w ∈ t.poison, w ∈ s.poison) →
    (∀ a, ¬ W a → t.mem.get a = s.mem.get a) → translate t s.hart.root (s.hart.mode == .user) k va = .ok (pa, false)

/-- The place of the n bytes at pa. -/
def bytesAt (pa n a : Nat) : Prop := pa ≤ a ∧ a < pa + n

/-- The tags, the capacity and the chains let a vector access of register r at addresses of the given form go on (R114, R157, R221). -/
def Strand.mayAccess (h : Strand) (a : Addressing) (r : BitVec 5) : Bool :=
  h.mayVector && h.unchained && h.tag r != .none && (h.tag r != .i4 || a == .unit) && h.fits (h.tag r :: a.regs.map h.tag) &&
    a.regs.all fun x => (h.tag x).isInt

/-- The elements that an execution performs, in order: the active ones from vsta (R82, R131). -/
def Strand.elements (h : Strand) (km : BitVec 3) : List Nat := h.activeFrom km h.vsta h.vl

/-- The strand's stores are performed at once: it holds none, and is in supervisor mode or its strip is not rewindable (R280). -/
def Strand.writesThrough (h : Strand) : Bool := h.strip.buffer.isEmpty && (h.mode == .supervisor || !h.strip.rewindable)

/-- The strand's stores are held: it is in user mode in a rewindable strip that has room for those given (R280). -/
def Strand.holds (h : Strand) (es : List Held) : Bool :=
  h.mode == .user && h.strip.rewindable && decide (heldWords (h.strip.buffer ++ es) ≤ Config.stripWords)

/-- The vector load of an addressing form. -/
def loadOf (km : BitVec 3) (a : Addressing) (rs1 vd : BitVec 5) : Instr :=
  match a with
  | .unit => .vld km rs1 vd
  | .stride rs2 => .vlds km rs2 rs1 vd
  | .index vs2 => .vldx km vs2 rs1 vd

/-- The vector store of an addressing form. -/
def storeOf (km : BitVec 3) (a : Addressing) (rs1 vs3 : BitVec 5) : Instr :=
  match a with
  | .unit => .vst km rs1 vs3
  | .stride rs2 => .vsts km rs2 rs1 vs3
  | .index vs2 => .vstx km vs2 rs1 vs3

/-- Bytes of an access of one element: a byte for a 4-bit element (R25, R160). -/
def accessBytes (t : ETag) : Nat := if t = .i4 then 1 else t.width / 8

/-- What a vector store stores for element e at the place pa: the element's bytes; of 4-bit elements whole bytes, and one nibble at
the end of an odd vl or where the execution begins within a byte (R164, R165). -/
def Strand.stores (h : Strand) (vs3 : BitVec 5) (pa e : Nat) : List Held :=
  let x (d : Nat) : Nat := h.elem vs3 (h.tag vs3).width d
  if h.tag vs3 = .i4 then
    if e % 2 = 1 then (if e = h.vsta then [heldNibble false pa true (x e)] else [])
    else if e + 1 < h.vl then heldOf false pa [BitVec.ofNat 8 (x e + 16 * x (e + 1))]
    else [heldNibble false pa false (x e)]
  else heldOf false pa (toBytes ((h.tag vs3).width / 8) (x e))

/-- The bytes that the running strand's stores to places of n bytes, or a commit of what it holds before, can change. -/
def State.reachedBy (s : State) (es : List Nat) (pa : Nat → Nat) (n a : Nat) : Prop :=
  (∃ e ∈ es, bytesAt (pa e) n a) ∨ ∃ f ∈ s.hart.strip.buffer, f.slice = false ∧ bytesAt f.addr 4 a

/-- The elements of a vector access reach their places: each address is aligned and translates to a place of idempotent memory,
whatever the access itself has stored before (R160, R161). -/
def State.reachesAll (s : State) (k : Access) (es : List Nat) (va pa : Nat → Nat) (n : Nat) : Prop :=
  ∀ e ∈ es, va e % n = 0 ∧ pa e < ctlBase ∧ s.settles k (va e) (pa e) (s.reachedBy es pa n)

/-- An access of the running strand of n bytes at a virtual address faults with cause c: the address is not canonical, it is misaligned,
its translation faults, or it is mapped to the control space of a stack (R79, R161, R333, R367). -/
def State.refuses (s : State) (k : Access) (va n c : Nat) : Prop :=
  (canonical va = false ∧ c = pageCause k) ∨
  (canonical va = true ∧ va % n ≠ 0 ∧ c = if ctlMapped k va s then accessCause k else if k = .store then 6 else 4) ∨
  (canonical va = true ∧ va % n = 0 ∧ ((translate s s.hart.root (s.hart.mode == .user) k va = .error c ∧ c ≠ 28) ∨
    (ctlMapped k va s = true ∧ c = accessCause k)))

/-- What such an access leaves: the walk has read its entries, and no cache that serves the strand keeps a leaf that has faulted
(R257, R336, R337, R355). -/
def State.refused (s : State) (k : Access) (va n : Nat) : State :=
  if canonical va = false then s
  else if va % n ≠ 0 then s.probed va
  else match translate s s.hart.root (s.hart.mode == .user) k va with
    | .ok _ => s.walked va none
    | .error _ => dropFaulted (sitesOf s.hart.place) s.hart.asid va (s.walked va none)

/-- The running strand traps with cause c at an access that element d of its instruction makes: stval holds the address and vsta the
element (R21, R161, R272, R276). -/
def State.trapsAt (s : State) (k : Access) (va n c d : Nat) : State :=
  takeTrap c (BitVec.ofNat 64 va) ((s.refused k va n).withHart { s.hart with vsta := d })

/-- One element of vsc at its home: where the strand holds the line's link the n bytes are stored, and bit e of km says so (R167). -/
def State.storeLinked (s : State) (km : BitVec 3) (va pa n v e : Nat) : State :=
  let u := (s.walked va none).committed
  if holdsLink u (pa / 64 * 64) u.hart.sid true = true then
    let w := setLink (pa / 64 * 64) u.hart.sid true (homeWrite u.hart.agent pa (toBytes n v) u)
    w.withHart (w.hart.storeKbit km e true)
  else u.withHart (u.hart.storeKbit km e false)

/-- One update token of the running strand at its home: the old value, the classes, and the state after it; one that writes nothing is
no write of the location (R169, R316, R360). -/
def State.sendToken (s : State) (va pa n : Nat) (new : Nat → Option Nat × Cls) : (Nat × Cls) × State :=
  let u := (s.walked va none).committed
  let m := u.ownValue pa n
  let w := match (new m).1 with
    | some v => homeWrite u.hart.agent pa (toBytes n v) u
    | none => u
  ((m, (new m).2), w.withoutLines pa n)

/-- A granted shape within the bounds that tshape keeps (R120). -/
def TShape.legal (t : TShape) : Bool :=
  t.ty != .none && decide (1 ≤ t.rows) && decide (t.rows ≤ 128) && decide (1 ≤ t.cols) && decide (t.cols ≤ colMax t.ty)

/-- A strand h differs from k at most in tile mc, in emask and in vsta, which is 0; of mc only the elements of its granted shape
differ, those from lo, and they have the given encodings (R76, R188). -/
def Strand.tileWritten (k h : Strand) (mc : BitVec 3) (lo : Nat) (f : Nat → Nat → Nat) : Prop :=
  h = { k with m := h.m, emask := h.emask, vsta := 0 } ∧ (k.cls = 0 → h.emask = k.emask) ∧
    (∀ q, q ≠ mc → h.m.get q.toFin = k.m.get q.toFin) ∧
    (∀ i j, i < (k.shape mc).rows → j < (k.shape mc).cols → lo ≤ i * (k.shape mc).cols + j →
      h.tileElem mc (k.shape mc).ty.width i j = f i j % 2 ^ (k.shape mc).ty.width) ∧
    ∀ b, (∀ i j, i < (k.shape mc).rows → j < (k.shape mc).cols → lo ≤ i * (k.shape mc).cols + j →
        ¬ bytesAt (tileOff (k.shape mc).ty.width i j) (k.shape mc).ty.width b) →
      (h.m.get mc.toFin).getLsbD b = (k.m.get mc.toFin).getLsbD b

/-- The strand may run a matrix instruction on tiles, all of granted and legal shapes (R123, R187, R221). -/
def Strand.mayMatrix (h : Strand) (ms : List (BitVec 3)) : Bool :=
  h.mayVector && h.unchained && ms.all fun m => (h.shape m).legal

/-- A structure of n bytes that an instruction reads stands at a multiple of 64 and is reached and good word by word (R218, R309,
R391). -/
def State.readsStruct (s : State) (a n : Nat) (pa : Nat → Nat) : Prop :=
  a % 64 = 0 ∧ ∀ i, i < n / 8 → s.reaches .load ((a + 8 * i) % 2 ^ 64) 8 (pa i) = true ∧ s.ownGood (pa i) 8 = true

/-- The bytes of such a structure, as the strand's own loads see them (R280). -/
def State.structBytes (s : State) (n : Nat) (pa : Nat → Nat) : List Byte :=
  (rangeFrom 0 (n / 8)).flatMap fun i => toBytes 8 (s.ownValue (pa i) 8)

/-- What reading such a structure leaves: this core's data cache without the lines of the words and of the page-table entries that the
walks read (R87, R257, R336). -/
def State.withoutStruct (s : State) (a n : Nat) (pa : Nat → Nat) : State :=
  (rangeFrom 0 (n / 8)).foldl (fun t i => (t.walked ((a + 8 * i) % 2 ^ 64) none).withoutLines (pa i) 8) s

/-- A command that the running strand issues, and the state after it: the strip is committed, the timeline has given out one more
ticket, which rd holds with status 0, and the command is the last of the queue (R309, R315). -/
def State.issues (s : State) (tl : BitVec 2) (rd : BitVec 5) (die cluster engine root : Nat) (body : CmdBody) : Cmd × State :=
  let u := s.committed
  let h := u.hart
  let n := (h.timeline tl).issued + 1#64
  let c : Cmd := { id := s.nextId, sid := h.sid, launch := h.launch, tl := tl.toNat, ticket := n.toNat, die := die
                   cluster := cluster, engine := engine, asid := h.asid, root := root, user := h.mode == .user, rm := h.rm
                   body := body, next := 0, cls := 0#6, word := 0, pend := [], cancelled := false, fin := none }
  let k : Strand := { h with tl := h.tl.set tl.toFin { h.timeline tl with issued := n } }
  (c, { u with hart := k.wx rd (status 0 n.toNat), cmds := u.cmds ++ [c], nextId := s.nextId + 1 })

/-- The element that stage i of a chain takes next from source k, with its end-of-run mark, where that source is a register, a queue, a
stream or near port of a format other than CE8, a constant or a lane slice, and has one (R205, R214). -/
def State.nextOf (s : State) (ci i k sel : Nat) : Option (Nat × Bool) :=
  let h := s.hart
  let c := h.chain ci
  let n := (c.st i).taken k
  let t := c.srcTy i k
  let x := selIdx sel
  match selKind sel with
  | 0 => some (h.elem (BitVec.ofNat 5 x) t.width (n % c.vlc), false)
  | 1 => if (h.queue x).tag = t then (h.queue x).elems.head?.map fun e => (e.1.toNat, e.2) else none
  | 2 =>
    let p := c.portEnt x
    let q := c.portSt x
    let a := portAddr p q.cursor
    let here : Option Nat := match agentAddr s h.realm c.user .load a.1 p.bytes with
      | .ok pa => if readsBad s pa p.bytes then none else some (homeRead s pa p.bytes)
      | .error _ => none
    if p.format = 0x10 ∨ p.mode = 1 ∨ p.count ≤ q.cursor then none
    else (q.ahead.head?.or here).map fun v =>
      (if p.format = 15 then v / 16 ^ a.2 % 16 else v, (p.mode == 0 || p.mode == 3) && (q.cursor + 1) % p.run == 0)
  | 5 => some (if t = .none then (nth c.consts x 0#64).toNat else (nth c.consts x 0#64).toNat % 2 ^ t.width, false)
  | 6 => some (ofBytes (Memory.getBytes h.slices (slicePlace h sel t.width n) (t.width / 8)), false)
  | _ => none

/-- The sources of an element stage, by operand: A, B and C where they name something (R204, R205). -/
def StageEnt.operands (e : StageEnt) : List (Nat × Nat) := [(0, e.selA), (1, e.selB), (2, e.selC)].filter fun x => selKind x.2 != 7

/-- Whether the destination of a stage has room for its next element: a register that holds elements of the type there; a lane slice;
a queue that is empty or of the type, below its capacity; a port with elements left whose next address is written, or, of CE8, whose
group is not full (R205, R214, R217). -/
def State.hasRoom (s : State) (ci i : Nat) : Bool :=
  let h := s.hart
  let c := h.chain ci
  let t := (c.st i).resTy
  let x := selIdx (c.ent i).selD
  match selKind (c.ent i).selD with
  | 0 => decide ((c.st i).produced % c.vlc < h.cap t)
  | 6 => t.width % 8 == 0
  | 1 => ((h.queue x).elems == [] || (h.queue x).tag == t) && decide ((h.queue x).elems.length + 1 ≤ queueCap t)
  | 2 =>
    let p := c.portEnt x
    let q := c.portSt x
    decide (q.cursor < p.count) &&
      (if p.format = 0x10 then decide (q.pend.length < 31)
      else match agentAddr s h.realm c.user .store (portAddr p q.cursor).1 (if p.mode = 2 then p.ty.width / 8 else p.bytes) with
        | .ok pa => !(p.mode == 2 && readsBad s pa (p.ty.width / 8))
        | .error _ => false)
  | _ => false

/-- Whether an operation is one of an element stage: it takes one element of each source for one of its destination (R208, R209). -/
def StageOp.elementwise : StageOp → Bool
  | .gather | .merge | .red | .dot | .mat => false
  | _ => true

/-- The elements that the sources of a stage give next, by operand, and the or of their marks. -/
def State.nextAll (s : State) (ci i : Nat) (srcs : List (Nat × Nat)) : List (Nat × Nat) × Bool :=
  srcs.foldr (fun x r => ((x.1, ((s.nextOf ci i x.1 x.2).getD (0, false)).1) :: r.1, ((s.nextOf ci i x.1 x.2).getD (0, false)).2 || r.2))
    ([], false)

/-- The value that an element stage delivers next (R134 to R150, R209). -/
def State.stageResult (s : State) (ci i : Nat) (op : StageOp) (imm : Option (BitVec 6)) : Nat :=
  let c := s.hart.chain ci
  let xs := (s.nextAll ci i (c.ent i).operands).1
  let at_ (k : Nat) : Nat := ((xs.find? fun x => x.1 == k).map (·.2)).getD 0
  (stageValue c i op imm (at_ 0) (at_ 1) (at_ 2)).1

/-- The state after n units of stage i performed one after another within one element group, each but the first begun where the group, the
quota and the stage's end allow it; none where one of them is not performed. -/
def groupUnits (ci i : Nat) : Nat → State → Option State
  | 0, s => some s
  | n + 1, s =>
    match unit ci i s with
    | .ok _ t =>
      if n = 0 then some t
      else if (t.hart.chain ci).atGroupEnd i || !(t.hart.chain ci).mayBegin i then none
      else groupUnits ci i n t
    | .error _ _ => none

/-- Whether a stop of a unit discards the element group in hand and cuts the chain: a fault or an uncorrectable error (R222, R223). -/
def UStop.cuts : UStop → Bool
  | .fault _ _ _ _ _ | .ue _ _ => true
  | _ => false

/-- The state after element groups of stages taken in order by the chain's own steps, none where one of them is not taken. -/
def unitsRun (c : BitVec 2) : List Nat → State → Option State
  | [], s => some s
  | i :: is, s =>
    match exec (.chainStageUnit c i) s with
    | .next t => unitsRun c is t
    | _ => none

/-- The five engine commands and what each does (R304). -/
def engineIssue : List ((BitVec 2 → BitVec 5 → BitVec 5 → BitVec 5 → Instr) × EngKind) :=
  [(.ecopy, .copy), (.egth, .gather), (.esct, .scatter), (.efill, .fill), (.ecvt, .cvt)]

/-- Two states hold the same bytes at every address. -/
def State.sameMemory (s t : State) : Prop := ∀ a, t.mem.get a = s.mem.get a

/-- Two states hold the same bytes at every address outside a range. -/
def State.sameMemoryOutside (s t : State) (pa n : Nat) : Prop := ∀ a, a < pa ∨ pa + n ≤ a → t.mem.get a = s.mem.get a

end Sys2Proof.Machine
end

