-- ==== Sys2Proof/Certificates/Slice0/Obligations.lean ====
section
/-!
DEFINITION. The statements for the provers, in the words of Safety.lean: one family of instructions or device steps each.
-/
open Sys2Proof Sys2Proof.Machine

/-! ### Vector arithmetic -/

/-- vadd, vsub, vrsub, vmul, vmulh, vdiv, vrem, vmin and vmax complete in the forms VV and VX where the operands have a common type that the
instruction takes and that holds the vector length, and vadd, vsub, vrsub, vmul, vmin and vmax with an immediate in Tag(vs1): each active
element from vsta has the result of the operation on the operands widened to that type; no other register, no memory and no other state
changes (R51, R93, R117, R131). -/
def Obligations.VectorArithmeticCompletes : Prop :=
  (∀ f ∈ arithmeticVV, ∀ (km : BitVec 3) (sc : Bool) (a b vd : BitVec 5) (s : State) (t : ETag),
      s.calm = true → s.hart.mayVector = true → s.hart.unchained = true →
      commonType [s.hart.tag a, if sc then s.hart.tag a else s.hart.tag b] = some t → (f.2.2 = true → t.isInt = true) →
      s.hart.fits (t :: s.hart.tag a :: (if sc then [] else [s.hart.tag b])) = true →
      ∃ h, exec (f.1 km sc a b vd) s = .next (s.completes h) ∧ s.hart.vectorFrame h vd ∧
        s.hart.delivered h vd t (s.hart.active km) fun e =>
          (elemBin f.2.1 t (RMode.ofCode s.hart.rm) (widen (s.hart.tag a) t (s.hart.elem a (s.hart.tag a).width e))
            (if sc then widen (s.hart.tag a) t (broadcastX (s.hart.tag a) (s.hart.rx b))
             else widen (s.hart.tag b) t (s.hart.elem b (s.hart.tag b).width e))).1) ∧
  (∀ f ∈ arithmeticVI, ∀ (km : BitVec 3) (imm : BitVec 6) (a vd : BitVec 5) (s : State),
      s.calm = true → s.hart.mayVector = true → s.hart.unchained = true → s.hart.tag a ≠ .none →
      s.hart.fits [s.hart.tag a] = true →
      ∃ h, exec (f.1 km imm a vd) s = .next (s.completes h) ∧ s.hart.vectorFrame h vd ∧
        s.hart.delivered h vd (s.hart.tag a) (s.hart.active km) fun e =>
          (elemBin f.2 (s.hart.tag a) (RMode.ofCode s.hart.rm)
            (widen (s.hart.tag a) (s.hart.tag a) (s.hart.elem a (s.hart.tag a).width e))
            (widen (s.hart.tag a) (s.hart.tag a) (broadcastImm (s.hart.tag a) imm))).1)

/-- Integer addition, subtraction and multiplication deliver the exact value clamped to the type's range, and raise saturation exactly where
it is clamped; an exact sum, difference or product of finite floats that is not zero is rounded in the three steps of R31. An integer
quotient is rounded toward zero and clamped, with saturation where it is clamped or the divisor is 0, where it is the end of the range that
has the dividend's sign; the remainder is what it leaves, the dividend for a divisor of 0, and the lesser and the greater are those of the
values. vmulh takes integers only, delivers the exact product divided by 2 to the width, rounded down, and raises no flag; any
other common type, or none, is a type fault. The shifts by a count in range move the encoding; a count below 0 or of the width and more
gives 0, but −1 for vsra of a negative element (R24, R31, R134, R136 to R138, R141). -/
def Obligations.IntegerElementResults : Prop :=
  (∀ (t : ETag) (m : RMode) (a b : Nat), t.isInt = true →
      ∀ f ∈ ([(.add, fun x y => x + y), (.sub, fun x y => x - y), (.rsub, fun x y => y - x), (.mul, fun x y => x * y)] :
          List (BinOp × (Int → Int → Int))),
        let x := f.2 (decodeInt t a) (decodeInt t b)
        decodeInt t (elemBin f.1 t m a b).1 = max (intMin t) (min (intMax t) x) ∧
          ((elemBin f.1 t m a b).2 = if intMin t ≤ x ∧ x ≤ intMax t then 0#6 else Cls.saturation)) ∧
  (∀ (t : ETag) (m : RMode) (a b : Nat) (p q : Bool) (i j : Nat) (e g : Int), t.isFloat = true →
      decodeFloat t a = .fin p i e → decodeFloat t b = .fin q j g →
      ∀ f ∈ exactOps, let x := f.2 (Num.fin p i e).value (Num.fin q j g).value
        x ≠ 0 → isRoundOf t m x (elemBin f.1 t m a b).1) ∧
  (∀ (t : ETag) (m : RMode) (a b : Nat), t.isInt = true →
      let x := decodeInt t a
      let y := decodeInt t b
      let quot : Int := if y = 0 then (if x < 0 then intMin t else intMax t) else max (intMin t) (min (intMax t) (x.tdiv y))
      decodeInt t (elemBin .div t m a b).1 = quot ∧
        (elemBin .div t m a b).2 = (if y ≠ 0 ∧ intMin t ≤ x.tdiv y ∧ x.tdiv y ≤ intMax t then 0#6 else Cls.saturation) ∧
      decodeInt t (elemBin .rem t m a b).1 = (if y = 0 then x else x - y * x.tdiv y) ∧ (elemBin .rem t m a b).2 = 0#6 ∧
      decodeInt t (elemBin .min t m a b).1 = min x y ∧ (elemBin .min t m a b).2 = 0#6 ∧
      decodeInt t (elemBin .max t m a b).1 = max x y ∧ (elemBin .max t m a b).2 = 0#6) ∧
  (∀ (km : BitVec 3) (sc : Bool) (a b vd : BitVec 5) (s : State),
      s.calm = true → s.hart.mayVector = true → s.hart.unchained = true →
      (∀ t, commonType [s.hart.tag a, if sc then s.hart.tag a else s.hart.tag b] = some t → t.isInt = true →
        s.hart.fits (t :: s.hart.tag a :: (if sc then [] else [s.hart.tag b])) = true →
        ∃ h, exec (.vmulh km sc a b vd) s = .next (s.completes h) ∧ s.hart.vectorFrame h vd ∧ h.emask = s.hart.emask ∧
          h.tag vd = t ∧ ∀ e, s.hart.vsta ≤ e → s.hart.active km e = true →
            decodeInt t (getElem_ (h.v.get vd.toFin) s.hart.lown t.width e) =
              (decodeInt (s.hart.tag a) (s.hart.elem a (s.hart.tag a).width e) *
                (if sc then decodeInt (s.hart.tag a) (broadcastX (s.hart.tag a) (s.hart.rx b))
                 else decodeInt (s.hart.tag b) (s.hart.elem b (s.hart.tag b).width e))) / 2 ^ t.width) ∧
      ((∀ t, commonType [s.hart.tag a, if sc then s.hart.tag a else s.hart.tag b] = some t → t.isInt = false) →
        exec (.vmulh km sc a b vd) s = .next (s.checkFault 25 (.vmulh km sc a b vd)))) ∧
  (∀ (t : ETag) (p : Nat) (c : Int), t.isInt = true → p < 2 ^ t.width →
      (0 ≤ c → c < t.width → elemShift .sll t p c % 2 ^ t.width = p * 2 ^ c.toNat % 2 ^ t.width ∧
        elemShift .srl t p c % 2 ^ t.width = p / 2 ^ c.toNat ∧
        (t.isSigned = true → decodeInt t (elemShift .sra t p c) = decodeInt t p / 2 ^ c.toNat) ∧
        (t.isSigned = false → elemShift .sra t p c % 2 ^ t.width = p / 2 ^ c.toNat)) ∧
      (c < 0 ∨ t.width ≤ c → elemShift .sll t p c = 0 ∧ elemShift .srl t p c = 0 ∧
        decodeInt t (elemShift .sra t p c) = if t.isSigned = true ∧ decodeInt t p < 0 then -1 else 0))

/-- vand, vor, vxor with equal tags, vsll, vsrl, vsra with integer tags, and their immediate forms complete, deliver the result for
each active element from vsta, and change nothing else (R93, R131, R140, R141). -/
def Obligations.VectorLogicAndShiftsComplete : Prop :=  ∀ (km : BitVec 3) (a vd : BitVec 5) (s : State),
    s.calm = true → s.hart.mayVector = true → s.hart.unchained = true → s.hart.fits [s.hart.tag a] = true →
    (∀ f ∈ logicVV, ∀ sc b, s.hart.tag a ≠ .none → (sc = false → s.hart.tag b = s.hart.tag a) →
      ∃ h, exec (f.1 km sc a b vd) s = .next (s.completes h) ∧ s.hart.vectorFrame h vd ∧ h.emask = s.hart.emask ∧
        s.hart.delivered h vd (s.hart.tag a) (s.hart.active km) fun e =>
          (elemBin f.2 (s.hart.tag a) .rne (s.hart.elem a (s.hart.tag a).width e)
            (if sc then broadcastX (s.hart.tag a) (s.hart.rx b) else s.hart.elem b (s.hart.tag a).width e)).1) ∧
    (∀ f ∈ logicVI, ∀ imm, s.hart.tag a ≠ .none →
      ∃ h, exec (f.1 km imm a vd) s = .next (s.completes h) ∧ s.hart.vectorFrame h vd ∧ h.emask = s.hart.emask ∧
        s.hart.delivered h vd (s.hart.tag a) (s.hart.active km) fun e =>
          (elemBin f.2 (s.hart.tag a) .rne (s.hart.elem a (s.hart.tag a).width e) (broadcastImm (s.hart.tag a) imm)).1) ∧
    (∀ f ∈ shiftVV, ∀ sc b, (s.hart.tag a).isInt = true → (sc = false → (s.hart.tag b).isInt = true ∧ s.hart.fits [s.hart.tag b] = true) →
      ∃ h, exec (f.1 km sc a b vd) s = .next (s.completes h) ∧ s.hart.vectorFrame h vd ∧ h.emask = s.hart.emask ∧
        s.hart.delivered h vd (s.hart.tag a) (s.hart.active km) fun e =>
          elemShift f.2 (s.hart.tag a) (s.hart.elem a (s.hart.tag a).width e)
            (if sc then ((s.hart.rx b).toNat : Int) else decodeInt (s.hart.tag b) (s.hart.elem b (s.hart.tag b).width e))) ∧
    (∀ f ∈ shiftVI, ∀ imm, (s.hart.tag a).isInt = true →
      ∃ h, exec (f.1 km imm a vd) s = .next (s.completes h) ∧ s.hart.vectorFrame h vd ∧ h.emask = s.hart.emask ∧
        s.hart.delivered h vd (s.hart.tag a) (s.hart.active km) fun e =>
          elemShift f.2 (s.hart.tag a) (s.hart.elem a (s.hart.tag a).width e) (imm.toNat : Int))

/-- vfma, vfms, vfnma and vfnms read vd as their third typed source, complete, round each element once, and change nothing but vd
and emask (R131, R139). -/
def Obligations.FusedMultiplyAddCompletes : Prop :=  ∀ f ∈ fusedVV, ∀ (km : BitVec 3) (sc : Bool) (a b vd : BitVec 5) (s : State) (t : ETag),
    s.calm = true → s.hart.mayVector = true → s.hart.unchained = true →
    commonType [s.hart.tag a, if sc then s.hart.tag a else s.hart.tag b, s.hart.tag vd] = some t →
    s.hart.fits (t :: s.hart.tag a :: s.hart.tag vd :: (if sc then [] else [s.hart.tag b])) = true →
    ∃ h, exec (f.1 km sc a b vd) s = .next (s.completes h) ∧ s.hart.vectorFrame h vd ∧
      s.hart.delivered h vd t (s.hart.active km) fun e =>
        (elemFma f.2.1 f.2.2 t (RMode.ofCode s.hart.rm) (widen (s.hart.tag a) t (s.hart.elem a (s.hart.tag a).width e))
          (if sc then widen (s.hart.tag a) t (broadcastX (s.hart.tag a) (s.hart.rx b))
           else widen (s.hart.tag b) t (s.hart.elem b (s.hart.tag b).width e))
          (widen (s.hart.tag vd) t (s.hart.elem vd (s.hart.tag vd).width e))).1

/-- The compares complete and write the bits of kd of the active elements from vsta; every other bit of kd, every other mask
register, every vector register, all of memory and all else is unchanged, and kd = k0 discards the bits (R75, R142). -/
def Obligations.ComparesComplete : Prop :=  ∀ (km kd : BitVec 3) (a : BitVec 5) (s : State) (t : ETag),
    s.calm = true → s.hart.mayVector = true → s.hart.unchained = true → s.hart.fits [s.hart.tag a] = true →
    (∀ f ∈ compareVV, ∀ sc b, commonType [s.hart.tag a, if sc then s.hart.tag a else s.hart.tag b] = some t →
      (sc = false → s.hart.fits [s.hart.tag b] = true) →
      ∃ h, exec (f.1 km sc a b kd) s = .next (s.completes h) ∧ s.hart.maskFrame h kd ∧
        (kd ≠ 0#3 → ∀ e, (h.k.get kd.toFin).getLsbD e = if s.hart.vsta ≤ e ∧ s.hart.active km e = true then
            (elemCmp f.2 t (widen (s.hart.tag a) t (s.hart.elem a (s.hart.tag a).width e))
              (if sc then widen (s.hart.tag a) t (broadcastX (s.hart.tag a) (s.hart.rx b))
               else widen (s.hart.tag b) t (s.hart.elem b (s.hart.tag b).width e))).1
          else (s.hart.k.get kd.toFin).getLsbD e)) ∧
    (∀ f ∈ compareVI, ∀ imm, s.hart.tag a = t → t ≠ .none →
      ∃ h, exec (f.1 km imm a kd) s = .next (s.completes h) ∧ s.hart.maskFrame h kd ∧
        (kd ≠ 0#3 → ∀ e, (h.k.get kd.toFin).getLsbD e = if s.hart.vsta ≤ e ∧ s.hart.active km e = true then
            (elemCmp f.2 t (widen t t (s.hart.elem a t.width e)) (widen t t (broadcastImm t imm))).1
          else (s.hart.k.get kd.toFin).getLsbD e))

/-- vmv, vabs, vneg, vnot, vsqrt, vrcp, vrsqrt, vexp2, vlog2, vclz and vpop complete on the types they accept, and change nothing but vd
and emask; vmv copies encodings bit for bit and raises no flag (R131, R145, R148, R149). -/
def Obligations.UnaryVectorCompletes : Prop :=
  (∀ f ∈ unaryV, ∀ (km : BitVec 3) (a vd : BitVec 5) (s : State),
      s.calm = true → s.hart.mayVector = true → s.hart.unchained = true → s.hart.tag a ≠ .none → f.2.2 (s.hart.tag a) = true →
      s.hart.fits [s.hart.tag a] = true →
      ∃ h, exec (f.1 km a vd) s = .next (s.completes h) ∧ s.hart.vectorFrame h vd ∧
        s.hart.delivered h vd (s.hart.tag a) (s.hart.active km) fun e =>
          (elemUn f.2.1 (s.hart.tag a) (RMode.ofCode s.hart.rm) (s.hart.elem a (s.hart.tag a).width e)).1) ∧
  (∀ (km : BitVec 3) (a vd : BitVec 5) (s : State),
      s.calm = true → s.hart.mayVector = true → s.hart.unchained = true → s.hart.tag a ≠ .none → s.hart.fits [s.hart.tag a] = true →
      ∃ h, exec (.vmv km a vd) s = .next (s.completes h) ∧ s.hart.vectorFrame h vd ∧ h.emask = s.hart.emask ∧
        s.hart.delivered h vd (s.hart.tag a) (s.hart.active km) fun e => s.hart.elem a (s.hart.tag a).width e)

/-- vsel, vclass, vcvt, vid, vsplat and its immediate form complete. vsel copies each element from vsta bit for bit from vs2 where its bit of
km is 1 and from vs1 otherwise, raises no flag, and is a type fault unless both carry the same tag; vclass writes one bit of N16, the
others write values of vd's own type (R118, R143, R144, R146, R147, R150). -/
def Obligations.SelectsAndConversionsComplete : Prop :=
  (∀ (km : BitVec 3) (a b vd : BitVec 5) (s : State),
      s.calm = true → s.hart.mayVector = true → s.hart.unchained = true →
      (s.hart.tag a ≠ .none → s.hart.tag b = s.hart.tag a → s.hart.fits [s.hart.tag a] = true →
        ∃ h, exec (.vsel km a b vd) s = .next (s.completes h) ∧ s.hart.vectorFrame h vd ∧ h.emask = s.hart.emask ∧
          s.hart.delivered h vd (s.hart.tag a) (fun e => decide (e < s.hart.vl)) fun e =>
            s.hart.elem (if s.hart.kbit km e then a else b) (s.hart.tag a).width e) ∧
      (s.hart.tag b ≠ s.hart.tag a → exec (.vsel km a b vd) s = .next (s.checkFault 25 (.vsel km a b vd)))) ∧
  (∀ (km : BitVec 3) (a vd rs1 : BitVec 5) (imm : BitVec 6) (s : State),
      s.calm = true → s.hart.mayVector = true → s.hart.unchained = true →
      (s.hart.tag a ≠ .none → s.hart.fits [.n16, s.hart.tag a] = true →
        ∃ h, exec (.vclass km a vd) s = .next (s.completes h) ∧ s.hart.vectorFrame h vd ∧ h.emask = s.hart.emask ∧
          s.hart.delivered h vd .n16 (s.hart.active km) fun e => 2 ^ classBit (s.hart.tag a) (s.hart.elem a (s.hart.tag a).width e)) ∧
      (s.hart.tag vd ≠ .none → s.hart.fits [s.hart.tag vd] = true →
        (s.hart.tag a ≠ .none → s.hart.fits [s.hart.tag a] = true →
          ∃ h, exec (.vcvt km a vd) s = .next (s.completes h) ∧ s.hart.vectorFrame h vd ∧
            s.hart.delivered h vd (s.hart.tag vd) (s.hart.active km) fun e =>
              (elemCvt (s.hart.tag a) (s.hart.tag vd) (RMode.ofCode s.hart.rm) (s.hart.elem a (s.hart.tag a).width e)).1) ∧
        (∃ h, exec (.vid km vd) s = .next (s.completes h) ∧ s.hart.vectorFrame h vd ∧
          s.hart.delivered h vd (s.hart.tag vd) (s.hart.active km) fun e =>
            (if (s.hart.tag vd).isFloat then (roundNum (s.hart.tag vd) (RMode.ofCode s.hart.rm) (intNum e)).1
             else truncInt (s.hart.tag vd) (satInt (s.hart.tag vd) e))) ∧
        (∃ h, exec (.vsplat km rs1 vd) s = .next (s.completes h) ∧ s.hart.vectorFrame h vd ∧ h.emask = s.hart.emask ∧
          s.hart.delivered h vd (s.hart.tag vd) (s.hart.active km) fun _ => (s.hart.rx rs1).toNat) ∧
        (∃ h, exec (.vsplatVi km imm vd) s = .next (s.completes h) ∧ s.hart.vectorFrame h vd ∧ h.emask = s.hart.emask ∧
          s.hart.delivered h vd (s.hart.tag vd) (s.hart.active km) fun _ => broadcastImm (s.hart.tag vd) imm)))

/-- vqblk and vdqblk complete: vqblk tags vd E4M3 and vs2 N8 and writes whole groups from the one that holds element vsta, an inactive
element as 0, with their scale bytes, and leaves the elements of vd before those groups or at or beyond vl and the other elements of vs2;
vs2 equal to vd is a shape fault; vdqblk scales each active element by its group's byte (R44, R45, R151, R152). -/
def Obligations.BlockQuantisationCompletes : Prop :=  ∀ (km : BitVec 3) (vs2 vs1 vd : BitVec 5) (s : State),
    s.calm = true → s.hart.mayVector = true → s.hart.unchained = true →
    ((s.hart.tag vs1 = .fp32 ∨ s.hart.tag vs1 = .bf16 ∨ s.hart.tag vs1 = .fp16) → vs2 ≠ vd →
      s.hart.fits [s.hart.tag vs1, .e4m3, .n8] = true →
      let g0 := s.hart.vsta / 32
      ∃ h, exec (.vqblk km vs2 vs1 vd) s = .next (s.completes h) ∧
        h = { s.hart with v := h.v, vtag := h.vtag, emask := h.emask, vsta := 0 } ∧
        (∀ r, r ≠ vd → r ≠ vs2 → h.v.get r.toFin = s.hart.v.get r.toFin ∧ h.tag r = s.hart.tag r) ∧
        h.tag vd = .e4m3 ∧ h.tag vs2 = .n8 ∧ (s.hart.cls = 0 → h.emask = s.hart.emask) ∧
        (∀ e, e < s.hart.cap .e4m3 → h.elem vd 8 e =
          if 32 * g0 ≤ e ∧ e < s.hart.vl then
            (if s.hart.active km e = true then
              (nth (quantGroup (RMode.ofCode s.hart.rm) (groupValues s.hart km vs1 (e / 32))).2 (e % 32) (0, 0#6)).1 % 256
            else 0)
          else s.hart.elem vd 8 e) ∧
        ∀ g, g < s.hart.cap .n8 → h.elem vs2 8 g =
          if g0 ≤ g ∧ 32 * g < s.hart.vl then (quantGroup (RMode.ofCode s.hart.rm) (groupValues s.hart km vs1 g)).1 % 256
          else s.hart.elem vs2 8 g) ∧
    ((s.hart.tag vs1 = .fp32 ∨ s.hart.tag vs1 = .bf16 ∨ s.hart.tag vs1 = .fp16) → vs2 = vd →
      s.hart.fits [s.hart.tag vs1, .e4m3, .n8] = true →
      exec (.vqblk km vs2 vs1 vd) s = .next (s.checkFault 24 (.vqblk km vs2 vs1 vd))) ∧
    (s.hart.tag vs2 = .e4m3 → s.hart.tag vs1 = .n8 → (s.hart.tag vd).isFloat = true →
      s.hart.fits [s.hart.tag vd, .e4m3, .n8] = true →
      ∃ h, exec (.vdqblk km vs2 vs1 vd) s = .next (s.completes h) ∧ s.hart.vectorFrame h vd ∧
        s.hart.delivered h vd (s.hart.tag vd) (s.hart.active km) fun e =>
          (dequant (s.hart.tag vd) (RMode.ofCode s.hart.rm) (s.hart.elem vs1 8 (e / 32)) (s.hart.elem vs2 8 e)).1)

/-- The mask instructions complete, write bits 0 to vl − 1 of kd, leave its higher bits, every other mask register and all else, and leave
vsta 0; kd = k0 discards the write, and a source of k0 reads as all ones. kpop writes to rd the number of bits of ks1 set below vl, and
kfirst the least such bit's number, or all ones. kmv to and from emask copies all MLEN bits, whatever vl is, without a change of ecls
(R75, R153 to R155). -/
def Obligations.MaskInstructionsComplete : Prop :=
  (∀ (ks2 ks1 kd : BitVec 3) (rs1 : BitVec 5) (s : State), s.calm = true → s.hart.mayVector = true →
      ∀ p ∈ (maskVV.map (fun f => (f.1 ks2 ks1 kd, fun e => f.2 (s.hart.kbit ks1 e) (s.hart.kbit ks2 e))) ++
          [(.knot ks1 kd, fun e => !s.hart.kbit ks1 e), (.kmv ks1 kd, fun e => s.hart.kbit ks1 e),
           (.kset rs1 kd, fun e => decide (e < (s.hart.rx rs1).toNat))] : List (Instr × (Nat → Bool))),
        ∃ h, exec p.1 s = .next (s.completes h) ∧ s.hart.maskFrame h kd ∧ h.emask = s.hart.emask ∧
          (kd ≠ 0#3 → ∀ e, e < s.hart.mlen →
            (h.k.get kd.toFin).getLsbD e = if e < s.hart.vl then p.2 e else (s.hart.k.get kd.toFin).getLsbD e)) ∧
  (∀ (ks1 : BitVec 3) (rd : BitVec 5) (s : State), s.calm = true → s.hart.mayVector = true →
      (∃ h, exec (.kpop ks1 rd) s = .next (s.completes h) ∧
        s.hart.registerFrame h rd (BitVec.ofNat 64 ((List.range s.hart.vl).countP fun e => s.hart.kbit ks1 e))) ∧
      ∃ h v, exec (.kfirst ks1 rd) s = .next (s.completes h) ∧ s.hart.registerFrame h rd v ∧
        ((∃ e, e < s.hart.vl ∧ s.hart.kbit ks1 e = true ∧ (∀ d, d < e → s.hart.kbit ks1 d = false) ∧ v = BitVec.ofNat 64 e) ∨
          ((∀ e, e < s.hart.vl → s.hart.kbit ks1 e = false) ∧ v = BitVec.allOnes 64))) ∧
  (∀ (k : BitVec 3) (s : State), s.calm = true → s.hart.mayVector = true →
      (∃ h, exec (.kmvFromEmask k) s = .next (s.completes h) ∧ s.hart.maskFrame h k ∧ h.emask = s.hart.emask ∧
        (k ≠ 0#3 → ∀ e, e < s.hart.mlen → (h.k.get k.toFin).getLsbD e = s.hart.emask.getLsbD e)) ∧
      ∃ h, exec (.kmvToEmask k) s = .next (s.completes h) ∧ h = { s.hart with emask := h.emask, vsta := 0 } ∧
        ∀ e, e < s.hart.mlen → h.emask.getLsbD e = s.hart.kbit k e)

/-! ### The machine as a whole -/

/-- Right after reset the package is as the rules that name a reset value say: the timebase at 0, SVST in BOOT with no die or stack
ready and half rate, the power cap at 3,800 W and PWRNOW at 0, no RAS entry, sixty-four ports with sixteen free slots, no sequence number, no
binding and no drop, no region live, every byte of memory 0, and its memories in their canonical form; a strand starts in user
mode with empty vector state, its default deadline 2^30 ns and its ceiling 2^40 ns (R88, R227, R358, R369, R402). Where no rule
names a value at reset the model's choice stands: that the running strand, which is not placed, holds the values of a strand start, every
clause on it here, is log 4's, and the bytes of memory are log 2's. -/
def Obligations.ResetState : Prop :=  let s := State.reset
  s.tidy = true ∧ s.now = 0 ∧ s.live = [] ∧ (∀ a, s.mem.get a = 0#8) ∧ s.svc.boot = .boot ∧ s.svc.dies = 0#8 ∧
    s.svc.hbmStacks = 0#16 ∧ s.svc.half = true ∧ s.svc.pwrcap = 3800 ∧ s.svc.rasHead = 0 ∧ s.svc.rasAck = 0 ∧ s.svc.rasDrop = 0 ∧
    s.ports.length = 64 ∧ (∀ p ∈ s.ports, p.free = 16 ∧ p.seq = 0 ∧ p.drop = false ∧ p.slots = [] ∧ p.en = false) ∧
    s.launches = [] ∧ s.spaces = [] ∧ (∀ fn, bar0Value s fn 0x210 = 0#64) ∧
    s.hart.mode = .user ∧ s.hart.vl = 0 ∧ s.hart.vsta = 0 ∧ s.hart.cls = 0 ∧ s.hart.rm = 0 ∧ s.hart.emask = 0#16384 ∧
    s.hart.wdef = 0x40000000#64 ∧ s.hart.wceil = 2 ^ 40 ∧ s.hart.estep = false ∧ (∀ r, s.hart.rx r = 0#64) ∧
    (∀ r, s.hart.tag r = .none) ∧ (∀ m, s.hart.shape m = .none) ∧ (∀ q, s.hart.queue q = .empty) ∧
    (∀ i : Fin 4, s.hart.c.get i = .free ∧ s.hart.tl.get i = ⟨0#64, 0#64, []⟩) ∧ (∀ i : Fin 8, s.hart.ea.get i = .clear)

/-- Every step keeps the memory of the package, and that of the host, in their canonical form, whatever state it begins in: the
model's own invariant (log 2, log 3). -/
def Obligations.StepsKeepTidy : Prop := ∀ s t : State, s.tidy = true → step s = .next t → t.tidy = true

/-- An instruction word that the encoder gives for a well-formed instruction decodes to that instruction, with every operand it
admits, whatever bytes follow (R89 to R101). -/
def Obligations.DecodeOfEncode : Prop :=  ∀ (i : Instr) (w : Nat) (rest : List Byte), encodeWord i = some w → i.wf = true → (∀ b, i ≠ .encodingThatSelectsNothing b) →
    decode (leBytes 4 w ++ rest) = .ok (i, rest)

/-- Words that the spec's encoding tables write out decode to the instructions beside which they stand, a family each: vadd with a
mask and with a broadcast x register, vadd with an immediate, kset, vsc, vamoadd, vred, eard, mmack, tzero, tld, vshape, vtag,
chwait, tlnow, sync, ecopy, vqpush, claim and a read of vl (R93 to R99, R81, R154, R167, R180, R278). -/
def Obligations.DecodesTheWordsOfTheSpec : Prop :=  decode32 0x0102218B = .ok (.vadd 2#3 false 1#5 2#5 3#5) ∧ decode32 0x0042A18B = .ok (.vadd 0#3 true 1#5 10#5 3#5) ∧
    decode32 0x8076118B = .ok (.vaddVi 0#3 0x3B#6 1#5 3#5) ∧ decode32 0x7814A10B = .ok (.kset 10#5 2#3) ∧
    decode32 0x1D06B32B = .ok (.vsc 2#3 3#5 11#5 6#5) ∧ decode32 0x4052C42B = .ok (.vamoadd 0#3 true 9#5 12#5 8#5) ∧
    decode32 0x8180512B = .ok (.vred 3#3 5#5 2#3) ∧ decode32 0x940023AB = .ok (.eard 2#3 7#5) ∧
    decode32 0x1100825B = .ok (.mmack 2#3 0#3 1#3 4#5) ∧ decode32 0x0100105B = .ok (.tzero 2#3) ∧
    decode32 0x0025C55B = .ok (.tld 2#3 11#5 10#5) ∧ decode32 0x003552DB = .ok (.vshape .w32 10#5 5#5) ∧
    decode32 0x0206D0DB = .ok (.vtag .fp32 1#5) ∧ decode32 0x04B0857B = .ok (.chwait 11#5 1#2 10#5) ∧
    decode32 0x0C00157B = .ok (.tlnow 2#2 10#5) ∧ decode32 0x8835957B = .ok (.sync .package 3#5 11#5 10#5) ∧
    decode32 0x00C5B57B = .ok (.ecopy 0#2 12#5 11#5 10#5) ∧ decode32 0x0455F57B = .ok (.vqpush 2#3 5#5 11#5 10#5) ∧
    decode32 0x2000407B = .ok .claim ∧ decode32 0xCC002573 = .ok (.scalarInstruction (.csrRead 0xCC0#12 .rs false 10#5))

/-- Where the agenda is empty, no turn of the other agents is due, no lane group has met a fault, no placed strand waits, and the
running strand is placed, has no event to take and stands at an address other than 0 whose text translates to memory that can be
read, a step passes one tick, walks the tables of its text, sets the address after the instruction and runs the instruction that its bytes decode to, of four
bytes or of two, after which the checked positions of the lane groups that took part go on; bytes that select nothing run as the encoding that
selects nothing. A strand that stands at the schedule of a
Flaset image, its strip committed, begins its next firing, where the tokens and the room are there: every register is at its value
at strand start but those that the actor keeps, a0 and sp (R58, R78, R101, R227, R275, R378 to R380, R387; that no other agent
goes first is log 1, where the schedule stands is log 32). -/
def Obligations.StepRunsTheDecodedInstruction : Prop :=  ∀ (s : State) (pa pb : Nat) (d e : Bool), s.agenda = [] → turnDue (s.now + Config.tick) = false → s.svc.boot ≠ .failed →
    s.hart.status = .running → s.hart.wait = none → (∀ k ∈ s.parked, k.status = .running → k.wait = none) →
    (s.hart.mode = .user → hasPending s.hart = false) → s.hart.pc ≠ 0#64 → s.choices = [] → s.upsets = [] → s.swapped = [] →
    (∀ f l r w g p, s.hart.mode = .user → s.hart.firing = some f → f.home = s.hart.pc → f.actor = none → f.periods = some p →
      findLaunch s s.hart.launch = some l → residentOf s l = some r → l.flow = some w → graphAt r.image (sub l.raw 8 2) = some g →
      s.hart.strip.buffer = [] → s.hart.bad = [] →
      let own := ownOrder g s.hart.idx s.hart.nstr
      let k := nth own (f.turn % own.length) 0
      f.turn < p * own.length → mayFire r.image g w k = true →
      step s = .next { s with
        now := s.now + Config.tick
        hart := { s.hart with strip := { s.hart.strip with rewindable := false } }.fires k (nth w.regs k .start)
          ((sub l.raw 16 8 + 8) % 2 ^ 64) (stackTop r.image k) (bodyVa r.image k) (closeVa r.image k) (conduitsOf r.image k) }) ∧
    (atSchedule s.hart = false →
    translate s s.hart.root (s.hart.mode == .user) .fetch s.hart.pc.toNat = .ok (pa, d) → pa < ctlBase → readsBad s pa 2 = false →
    let u := { s with now := s.now + Config.tick }.walked s.hart.pc.toNat none
    let runs (i : Instr) (t : State) : Prop := step s = laneChecks i t (exec i t)
    (ofBytes (homeBytes s pa 2) % 4 = 3 →
      translate s s.hart.root (s.hart.mode == .user) .fetch ((s.hart.pc.toNat + 2) % 2 ^ 64) = .ok (pb, e) → pb < ctlBase →
      readsBad s pb 2 = false →
      (∀ i r, decode (homeBytes s pa 2 ++ homeBytes s pb 2) = .ok (i, r) →
        runs i { u.walked ((s.hart.pc.toNat + 2) % 2 ^ 64) none with hart := { s.hart with npc := s.hart.pc + 4#64 } }) ∧
      (∀ r, decode (homeBytes s pa 2 ++ homeBytes s pb 2) = .error r →
        runs (.encodingThatSelectsNothing (BitVec.ofNat 32 (ofBytes (homeBytes s pa 2 ++ homeBytes s pb 2))))
          { u.walked ((s.hart.pc.toNat + 2) % 2 ^ 64) none with hart := { s.hart with npc := s.hart.pc + 4#64 } })) ∧
    (ofBytes (homeBytes s pa 2) % 4 ≠ 3 →
      (∀ i r, decode (homeBytes s pa 2) = .ok (i, r) →
        runs i { u with hart := { s.hart with npc := s.hart.pc + 2#64 } }) ∧
      (∀ r, decode (homeBytes s pa 2) = .error r →
        runs (.encodingThatSelectsNothing (BitVec.ofNat 32 (ofBytes (homeBytes s pa 2))))
          { u with hart := { s.hart with npc := s.hart.pc + 2#64 } })))

/-! ### The scalar profile -/

/-- x0 reads as zero, whatever state the strand is in, and writes to it are discarded: nothing changes; a write to another of the
thirty-two 64-bit x registers reads back and changes no other one (R73). -/
def Obligations.XRegisters : Prop :=  ∀ (h : Strand) (v : Word), h.rx 0#5 = 0#64 ∧ h.wx 0#5 v = h ∧
    ∀ r, r ≠ 0#5 → (h.wx r v).rx r = v ∧ (∀ q, q ≠ r → (h.wx r v).rx q = h.rx q) ∧ h.wx r v = { h with x := (h.wx r v).x }

/-- Every standard arithmetic, jump and branch instruction completes, writes its result to rd alone and continues at the next
instruction, or where a jump or a taken branch leads; memory and all other state stay (R73, R78). -/
def Obligations.ScalarInstructionsComplete : Prop :=  ∀ (s : State) (rd rs1 rs2 : BitVec 5), s.hart.plain = true →
    let h := s.hart
    let a := h.rx rs1
    let b := h.rx rs2
    let result (op : ScalarOp) (v : Word) : Prop := exec (.scalarInstruction op) s = .next (s.completes (h.wx rd v))
    (∀ imm, result (.lui rd imm) ((imm ++ 0#12).signExtend 64) ∧ result (.auipc rd imm) (h.pc + (imm ++ 0#12).signExtend 64)) ∧
    (∀ off, exec (.scalarInstruction (.jal rd off)) s =
      .next (s.completes { h.wx rd h.npc with npc := h.pc + (off ++ 0#1).signExtend 64 })) ∧
    (∀ imm, exec (.scalarInstruction (.jalr rd rs1 imm)) s =
      .next (s.completes { h.wx rd h.npc with npc := (a + imm.signExtend 64) &&& ~~~1#64 })) ∧
    (∀ op off, exec (.scalarInstruction (.branch op rs1 rs2 off)) s =
      .next (s.completes { h with npc := if branchTaken op a b then h.pc + (off ++ 0#1).signExtend 64 else h.npc })) ∧
    (∀ op imm, result (.opImm op rd rs1 imm) (immOp op a (imm.signExtend 64))) ∧
    (∀ op n, result (.shiftImm op rd rs1 n) (shiftImmOp op a n.toNat)) ∧
    (∀ imm, result (.addiw rd rs1 imm) ((a.truncate 32 + imm.signExtend 32).signExtend 64)) ∧
    (∀ op n, result (.shiftImmW op rd rs1 n) ((shiftImmWOp op (a.truncate 32) n.toNat).signExtend 64)) ∧
    (∀ op, result (.alu op rd rs1 rs2) (aluOp op a b)) ∧
    (∀ op, result (.aluW op rd rs1 rs2) ((aluWOp op (a.truncate 32) (b.truncate 32)).signExtend 64)) ∧
    (∀ op, result (.unary op rd rs1) (unaryOp op a))

/-- Division and remainder at their corners: by zero a quotient is all ones and a remainder the dividend, and the most negative number by −1
gives itself and remainder 0; otherwise the quotient is the exact one rounded toward zero and the remainder what it leaves. The high
products are those of the exact 128-bit product. The forms on words do the same with the low 32 bits, and shift by the low five bits of
the count. An AMO writes the swapped, summed, combined, lesser or greater value, to the width (R78, R79). -/
def Obligations.ScalarResults : Prop :=
  (∀ a b : Word,
      (b = 0#64 → aluOp .div a b = BitVec.allOnes 64 ∧ aluOp .divu a b = BitVec.allOnes 64 ∧ aluOp .rem a b = a ∧ aluOp .remu a b = a) ∧
      (b ≠ 0#64 → (aluOp .divu a b).toNat = a.toNat / b.toNat ∧ (aluOp .remu a b).toNat = a.toNat % b.toNat ∧
        (aluOp .rem a b).toInt = a.toInt.tmod b.toInt ∧
        (a ≠ BitVec.intMin 64 ∨ b ≠ BitVec.allOnes 64 → (aluOp .div a b).toInt = a.toInt.tdiv b.toInt)) ∧
      (a = BitVec.intMin 64 → b = BitVec.allOnes 64 → aluOp .div a b = a ∧ aluOp .rem a b = 0#64) ∧
      (aluOp .mulhu a b).toNat * 2 ^ 64 + (aluOp .mul a b).toNat = a.toNat * b.toNat ∧
      (aluOp .mulh a b).toInt * 2 ^ 64 + (aluOp .mul a b).toNat = a.toInt * b.toInt ∧
      (aluOp .mulhsu a b).toInt * 2 ^ 64 + (aluOp .mul a b).toNat = a.toInt * b.toNat) ∧
  (∀ a b : BitVec 32,
      aluWOp .addw a b = a + b ∧ aluWOp .subw a b = a - b ∧ aluWOp .mulw a b = a * b ∧
      aluWOp .rolw a b = a <<< (b.toNat % 32) ||| a >>> (32 - b.toNat % 32) ∧
      aluWOp .rorw a b = a >>> (b.toNat % 32) ||| a <<< (32 - b.toNat % 32) ∧
      (aluWOp .sllw a b).toNat = a.toNat * 2 ^ (b.toNat % 32) % 2 ^ 32 ∧ (aluWOp .srlw a b).toNat = a.toNat / 2 ^ (b.toNat % 32) ∧
      (aluWOp .sraw a b).toInt = a.toInt / 2 ^ (b.toNat % 32) ∧
      (b = 0#32 → aluWOp .divw a b = BitVec.allOnes 32 ∧ aluWOp .divuw a b = BitVec.allOnes 32 ∧ aluWOp .remw a b = a ∧
        aluWOp .remuw a b = a) ∧
      (b ≠ 0#32 → (aluWOp .divuw a b).toNat = a.toNat / b.toNat ∧ (aluWOp .remuw a b).toNat = a.toNat % b.toNat ∧
        (aluWOp .remw a b).toInt = a.toInt.tmod b.toInt ∧
        (a ≠ BitVec.intMin 32 ∨ b ≠ BitVec.allOnes 32 → (aluWOp .divw a b).toInt = a.toInt.tdiv b.toInt)) ∧
      (a = BitVec.intMin 32 → b = BitVec.allOnes 32 → aluWOp .divw a b = a ∧ aluWOp .remw a b = 0#32)) ∧
  (∀ (w a b : Nat), w = 32 ∨ w = 64 → a < 2 ^ w → b < 2 ^ w →
      amoNew .swap w a b = b ∧ amoNew .add w a b = (a + b) % 2 ^ w ∧ amoNew .xor w a b = a ^^^ b ∧ amoNew .and w a b = a &&& b ∧
        amoNew .or w a b = a ||| b ∧ amoNew .minu w a b = min a b ∧ amoNew .maxu w a b = max a b ∧
        (BitVec.ofNat w (amoNew .min w a b)).toInt = min (BitVec.ofNat w a).toInt (BitVec.ofNat w b).toInt ∧
        (BitVec.ofNat w (amoNew .max w a b)).toInt = max (BitVec.ofNat w a).toInt (BitVec.ofNat w b).toInt)

/-- A CSR access that writes nothing completes and delivers the register's value to rd where the strand may read it, and raises
Illegal() where the address is none or is the supervisor's: nothing but a free count of cycle changes. The read-only registers hold vl, the
width class, register form and lanes, the strand's index and count, its place and package, its core's partition, the granted shapes of
its own slot, the time, the retired instructions and, in supervisor mode, its root and identifier; timebase and counters open to user
mode as scounteren says (R80, R81, R83, R84, R101; cycle is a free value, log 7, and lpart.lgen shows a lost lane group at once, the model's
choice, log 25). -/
def Obligations.CsrReadsComplete : Prop :=  ∀ (s : State) (csr : BitVec 12) (op : CsrOp) (imm : Bool) (rd : BitVec 5), s.hart.plain = true →
    (∀ v, csrValue s csr.toNat = some v → ∃ n, (csr ≠ 0xC00#12 → n = s.free) ∧
      exec (.scalarInstruction (.csrRead csr op imm rd)) s = .next ({ s with free := n }.completes (s.hart.wx rd v))) ∧
    (csrValue s csr.toNat = none → exec (.scalarInstruction (.csrRead csr op imm rd)) s =
      .next (takeTrap 2 (instrBits (.scalarInstruction (.csrRead csr op imm rd))) s)) ∧
    (s.hart.mode = .user → ∀ a ∈ [0x100, 0x104, 0x105, 0x106, 0x10A, 0x140, 0x141, 0x142, 0x143, 0x144, 0x5C0, 0x5C1, 0x5C4, 0x5C5,
      0x5C6, 0x5C7, 0xDC0, 0xDC1], csrValue s a = none) ∧
    (let h := s.hart
      let holds (a v : Nat) : Prop := csrValue s a = some (BitVec.ofNat 64 v)
      let opens (i : Nat) : Prop := h.mode = .supervisor ∨ h.csr.scounteren.getLsbD i = true
      holds 0xCC0 h.vl ∧ holds 0xCC1 (h.wid + 2 ^ 7 * h.rgf.toNat + 2 ^ 8 * h.lown) ∧ holds 0xCC2 (h.idx + 2 ^ 16 * h.nstr) ∧
      holds 0xCC3 (h.place.slot + 2 * h.place.core + 2 ^ 4 * h.place.cluster + 2 ^ 9 * h.place.die + 2 ^ 16 * s.svc.pkg) ∧
      (∀ k, findCore s h.place = some k → holds 0xCC4 (k.n0 + 2 ^ 4 * k.n1 + 2 ^ 8 * (k.lgen &&& ~~~k.fallen).toNat)) ∧
      (∀ m : BitVec 3, h.place.slot < 2 →
        holds (0xCD0 + 8 * h.place.slot + m.toNat) ((h.shape m).rows + 2 ^ 8 * (h.shape m).cols + 2 ^ 20 * (h.shape m).ty.code) ∧
        csrValue s (0xCD0 + 8 * (1 - h.place.slot) + m.toNat) = none) ∧
      (opens 1 → holds 0xC01 s.now) ∧ (opens 2 → csrValue s 0xC02 = some h.csr.instret) ∧
      (¬ opens 0 → csrValue s 0xC00 = none) ∧ (¬ opens 1 → csrValue s 0xC01 = none) ∧ (¬ opens 2 → csrValue s 0xC02 = none) ∧
      (h.mode = .supervisor → holds 0xDC0 h.root ∧ holds 0xDC1 h.asid))

/-- Writes of vsta, emask, ecls and wceil complete and deliver the old value to rd: vsta keeps 15 bits, emask takes its low 64 bits, as far as a mask register has them, and clears
the rest, a change of ecls.cls clears emask while a reserved code leaves its field, wceil holds at most 2^40, and user mode may not write
wceil. A write of a watchpoint completes in supervisor mode and raises Illegal() in user mode: reserved bits read 0; src 3 watches the physical place of its region where it
translates for writes within one page, and otherwise src is held as 0. A write of finj, which reads 0, inverts one bit of an element
within a granted shape and is otherwise discarded (R19, R30, R65, R66, R81, R82, R84, R85, R336; that wceil compares all 64 bits written is
the model's choice, log 34). -/
def Obligations.CsrWritesComplete : Prop :=
  (∀ (s : State) (op : CsrOp) (src : CsrSrc) (rd : BitVec 5), s.hart.plain = true →
      let h := s.hart
      let new (old : Word) : Nat := (csrNew op old (csrSource h src)).toNat
      let ecls := new (BitVec.ofNat 64 (h.cls + 16 * h.rm))
      let cls := if ecls % 8 = 7 then h.cls else ecls % 8
      exec (.vstaWrite op src rd) s =
        .next (s.completes ({ h with vsta := new (BitVec.ofNat 64 h.vsta) % 2 ^ 15 }.wx rd (BitVec.ofNat 64 h.vsta))) ∧
      exec (.emaskWrite op src rd) s =
        .next (s.completes ({ h with emask := BitVec.ofNat 16384 (new (h.emask.truncate 64) % 2 ^ h.mlen) }.wx rd (h.emask.truncate 64))) ∧
      exec (.eclsWrite op src rd) s = .next (s.completes ({ h with
        cls := cls, rm := if 5 ≤ ecls / 16 % 8 then h.rm else ecls / 16 % 8
        emask := if cls = h.cls then h.emask else 0#16384 }.wx rd (BitVec.ofNat 64 (h.cls + 16 * h.rm)))) ∧
      (h.mode = .supervisor → exec (.wceilWrite op src rd) s =
        .next (s.completes ({ h with wceil := min (2 ^ 40) (new (BitVec.ofNat 64 h.wceil)) }.wx rd (BitVec.ofNat 64 h.wceil)))) ∧
      (h.mode = .user → exec (.wceilWrite op src rd) s = .next (takeTrap 2 (instrBits (.wceilWrite op src rd)) s))) ∧
  (∀ (s : State) (op : CsrOp) (src : CsrSrc) (rd : BitVec 5), s.hart.plain = true →
      let h := s.hart
      (h.mode = .user → ∀ n : BitVec 2, exec (.wptWrite n op src rd) s = .next (takeTrap 2 (instrBits (.wptWrite n op src rd)) s)) ∧
      (h.mode = .supervisor → ∀ n : BitVec 2,
        let old := h.wpt.get n.toFin
        let w := csrNew op old (csrSource h src) &&& 0x01FFFFFFFFFFFFEF#64
        let others := h.watch.filter fun x => x.1 != n.toNat
        let z := s.probed (vaOf57 (wptRegion w).1)
        (w.toNat % 4 ≠ 3 → exec (.wptWrite n op src rd) s =
          .next (s.completes ({ h with wpt := h.wpt.set n.toFin w, watch := others }.wx rd old))) ∧
        (w.toNat % 4 = 3 → (∀ pa len, watchPlace s w = some (pa, len) → exec (.wptWrite n op src rd) s =
            .next (z.completes ({ h with wpt := h.wpt.set n.toFin w, watch := (n.toNat, pa, len) :: others }.wx rd old))) ∧
          (watchPlace s w = none → exec (.wptWrite n op src rd) s =
            .next (z.completes ({ h with wpt := h.wpt.set n.toFin (w &&& ~~~3#64), watch := others }.wx rd old))))) ∧
      (h.unchained = true →
        let v := (csrNew op 0#64 (csrSource h src)).toNat
        let m : BitVec 3 := BitVec.ofNat 3 v
        let row := v / 16 % 128
        let col := v / 2 ^ 11 % 256
        let bit := v / 2 ^ 19 % 32
        let inside := v / 8 % 2 = 0 ∧ v < 2 ^ 24 ∧ row < (h.shape m).rows ∧ col < (h.shape m).cols ∧ bit < (h.shape m).ty.width
        (inside → exec (.finjWrite op src rd) s = .next (s.completes
          ((h.putTile m (h.shape m).ty.width row col (Nat.xor (h.tileElem m (h.shape m).ty.width row col) (2 ^ bit))).wx rd 0#64))) ∧
        (¬ inside → exec (.finjWrite op src rd) s = .next (s.completes (h.wx rd 0#64)))))

/-- Writes of the other CSRs complete, each holding the bits it has, and deliver the old value to rd; a write of a read-only CSR
raises Illegal(), as does a write of a supervisor's CSR in user mode. A host's write of BAR0 changes the one register at its offset: SCMD starts a command unless one runs, PWRCAP is
clamped, ATREQ starts a report unless one is formed, RASBASE is a multiple of 128 KiB, RASACK moves forward, FPKG is written while
no launch is incomplete, PBIND and FGT hold their fields; a write of four bytes is one of eight with the register's other half as
it reads. Every other offset, and every offset of a virtual function, discards the write. A write of BAR2 goes to the port behind
the window, a virtual function's window j being the j-th port bound to it: its record area, its drop bit where 1 is written, its
cancel register; a window without a port discards it (R19, R80 to R84, R368, R369, R371, R388, R402, R405, R406; which bits of the
supervisor CSRs are held where R80 leaves it to the privileged rules is log 6, that a partial write keeps the other half log 28). -/
def Obligations.RegisterWritesComplete : Prop :=  ∀ s : State,
    (∀ (op : CsrOp) (src : CsrSrc) (rd : BitVec 5), s.hart.plain = true →
      let h := s.hart
      let writes (a : BitVec 12) (old : Word) (f : Word → Strand) : Prop := exec (.registerWrite (.csr a op src rd)) s =
        .next (s.completes ((f (csrNew op old (csrSource h src))).wx rd old))
      writes 0x803#12 (h.stripmask.zeroExtend 64) (fun v => { h with stripmask := v.truncate 32 &&& 0xFFFFFFFE#32 }) ∧
      writes 0x804#12 h.wdef (fun v => { h with wdef := v }) ∧
      (h.mode = .supervisor →
        writes 0x5C1#12 (if h.estep then 1#64 else 0#64) (fun v => { h with estep := v.getLsbD 0 }) ∧
        writes 0x100#12 h.csr.sstatus (fun v => { h with csr := { h.csr with sstatus := sstatusHeld v } }) ∧
        writes 0x105#12 h.csr.stvec (fun v => { h with csr := { h.csr with stvec := v &&& ~~~3#64 } }) ∧
        writes 0x106#12 (h.csr.scounteren.zeroExtend 64) (fun v => { h with csr := { h.csr with scounteren := v.truncate 32 &&& 7#32 } }) ∧
        writes 0x10A#12 h.csr.senvcfg (fun v => { h with csr := { h.csr with senvcfg := v &&& 1#64 } }) ∧
        writes 0x140#12 h.csr.sscratch (fun v => { h with csr := { h.csr with sscratch := v } }) ∧
        writes 0x141#12 h.csr.sepc (fun v => { h with csr := { h.csr with sepc := v &&& ~~~1#64 } }) ∧
        writes 0x142#12 h.csr.scause (fun v => { h with csr := { h.csr with scause := v } }) ∧
        writes 0x143#12 h.csr.stval (fun v => { h with csr := { h.csr with stval := v } }) ∧
        writes 0x104#12 0#64 (fun _ => h) ∧ writes 0x144#12 0#64 (fun _ => h)) ∧
      (h.mode = .user → ∀ a ∈ [0x5C1#12, 0x100#12, 0x104#12, 0x105#12, 0x106#12, 0x10A#12, 0x140#12, 0x141#12, 0x142#12, 0x143#12, 0x144#12],
        exec (.registerWrite (.csr a op src rd)) s = .next (takeTrap 2 (instrBits (.registerWrite (.csr a op src rd))) s)) ∧
      (∀ a : BitVec 12, 0xC00 ≤ a.toNat → exec (.registerWrite (.csr a op src rd)) s =
        .next (takeTrap 2 (instrBits (.registerWrite (.csr a op src rd))) s))) ∧
    (∀ (fn off : Nat) (v : Word), fn ≤ 64 → off % 8 = 0 → off < 0x10000 → s.ports.length = 64 →
      let gives (t : State) : Prop := exec (.registerWrite (.bar0 fn off 8 v)) s = .next t
      let z := s.svc
      let w := v.toNat
      (fn ≠ 0 → gives s) ∧
      (fn = 0 →
        (off = 0x100 → gives (if z.scBusy then s else { s with svc := { z with scBusy := true, scCmd := v, scDone := none } })) ∧
        (off = 0x208 → gives { s with svc := { z with pwrcap := max 1000 (min 3800 (w % 4096)) } }) ∧
        (off = 0x218 → gives (if z.atBusy then s else { s with svc := { z with atBusy := true, atArea := w % 2 ^ 52 / 4096 * 4096 } })) ∧
        (off = 0x228 → gives { s with svc := { z with rasBase := w % 2 ^ 52 / 2 ^ 17 * 2 ^ 17 } }) ∧
        (off = 0x238 → gives (if z.rasAck ≤ w % 2 ^ 32 ∧ w % 2 ^ 32 ≤ z.rasHead
          then { s with svc := { z with rasAck := w % 2 ^ 32 } } else s)) ∧
        (off = 0x300 → gives (if (s.launches.any fun l => l.state != .complete) || s.ports.any fun p => p.slots != []
          then s else { s with svc := { z with pkg := w % 8192, fabEn := v.getLsbD 13 } })) ∧
        (∀ k, k < 64 → off = 0x1000 + 8 * k → ∃ t, gives t ∧ t = { s with ports := t.ports } ∧ t.ports.length = 64 ∧
          ∀ q, nth t.ports q .start = if q = k then { nth s.ports k .start with
              asid := w % 1024, en := v.getLsbD 16 && (s.spaces.any fun x => x.asid == w % 1024)
              vec := w / 2 ^ 24 % 256, vf := w / 2 ^ 32 % 128 } else nth s.ports q .start) ∧
        (∀ a, a < 1024 → off = 0x4000 + 8 * a → ∃ t, gives t ∧ t = { s with svc := { z with fgt := t.svc.fgt } } ∧
          ∀ b, fgtOf t b = if b = a then v &&& 0xFFFFFFFFFFFFF#64 else fgtOf s b) ∧
        (off ∉ [0x100, 0x208, 0x218, 0x228, 0x238, 0x300] → off < 0x1000 ∨ 0x1200 ≤ off → off < 0x4000 ∨ 0x6000 ≤ off → gives s)) ∧
      (∀ half : Bool, exec (.registerWrite (.bar0 fn (if half then off + 4 else off) 4 v)) s =
        let old := bar0Value s fn off
        let low := v.extractLsb' 0 32
        exec (.registerWrite (.bar0 fn off 8 (if half then low ++ old.extractLsb' 0 32 else old.extractLsb' 32 32 ++ low))) s)) ∧
    ∀ (fn off n : Nat) (v : Word), fn ≤ 64 → n = 4 ∨ n = 8 → off % n = 0 → off < 0x40000 → s.ports.length = 64 →
      let gives (t : State) : Prop := exec (.registerWrite (.bar2 fn off n v)) s = .next t
      let o := off % 4096
      let behind := ((rangeFrom 0 64).filter fun p => fn == 0 || (nth s.ports p .start).vf == fn)[off / 4096]?
      (behind = none → gives s) ∧
      ∀ p, behind = some p →
        (o + n < 0x80 → gives (modPort p (fun q => { q with area := layBytes q.area o (toBytes n v.toNat) }) s)) ∧
        (o + n = 0x80 → exec (.registerWrite (.bar2 fn off n v)) s = exec (.portRecordAccept p o (toBytes n v.toNat)) s) ∧
        (o = 0x80 → n = 8 → gives (if v.getLsbD 63 then modPort p (fun q => { q with drop := false }) s else s)) ∧
        (o = 0x80 → n = 4 → gives s) ∧
        (o = 0x84 → gives (if v.getLsbD 31 then modPort p (fun q => { q with drop := false }) s else s)) ∧
        (o = 0x88 → exec (.registerWrite (.bar2 fn off n v)) s = exec (.pcanWrite p n v) s) ∧
        (o = 0x88 → n = 4 → gives s) ∧
        (0x8C ≤ o → gives s)

/-- A scalar load takes its bytes from memory with the strand's held stores laid over them, extends them as its form says and writes rd alone;
a scalar store is held in the strip store buffer or performed at the home, and writes no register (its bytes are
StoresReachTheirBytes). Either walks the tables, and the data cache keeps no line of an entry read or of the place loaded. One to device-class memory first commits the strip; where the answer of such a load is late, it waits until its
deadline, the lesser of wdef and wceil, and traps with WAIT_CEILING at once where that is 0. In the control space of a stack one of eight
bytes reads or writes a register after a commit, and one of another size is an access fault. A misaligned one accesses nothing and traps
with cause 4 or 6, or with 5 or 7 where its address is mapped to that space. One whose address is not canonical or does not translate
traps with the cause, a page fault being 13 or 15, and no cache that serves the strand keeps the leaf. A load that meets an uncorrectable
word rewinds a strip that may be rewound, from its checkpoint, its held stores dropped, and else traps with cause 28 or ends the strand for
a replay (R73, R79, R87, R228, R231, R260, R262, R280 to R283, R333, R334, R337, R355, R367). -/
def Obligations.ScalarMemoryCompletes : Prop :=
  (∀ (s : State) (op : LoadOp) (imm : BitVec 12) (rs1 rd : BitVec 5) (pa : Nat),
      let va := (s.hart.rx rs1 + imm.signExtend 64).toNat
      let n := op.bytes
      s.calm = true → canonical va = true →
      (s.reaches .load va n pa = true → s.ownGood pa n = true → exec (.scalarLoad op imm rs1 rd) s =
        .next (((s.walked va none).withoutLines pa n).completes (s.hart.wx rd (extendLoad op.signed n (s.ownValue pa n))))) ∧
      (va % n = 0 → translate s s.hart.root (s.hart.mode == .user) .load va = .ok (pa, true) → pa < ctlBase →
        readsBad s.committed pa n = false →
        let u := (s.walked va none).committed.withoutLines pa n
        exec (.scalarLoad op imm rs1 rd) s = .next (u.completes (u.hart.wx rd (extendLoad op.signed n (homeRead s.committed pa n))))) ∧
      (va % n = 0 → translate s s.hart.root (s.hart.mode == .user) .load va = .ok (pa, true) → pa < ctlBase →
        let d := min s.hart.wdef.toNat s.hart.wceil
        let u := (s.walked va none).committed
        (d = 0 → exec (.scalarLoad op imm rs1 rd) { s with choices := [.late 0] } = .next (takeTrap 27 s.hart.wdef u)) ∧
        (0 < d → ∃ w, exec (.scalarLoad op imm rs1 rd) { s with choices := [.late 0] } =
          .next (u.withHart { u.hart with wait := some w }) ∧ w.instr = .scalarLoad op imm rs1 rd ∧ w.expiry = s.now + d)) ∧
      (va % n = 0 → translate s s.hart.root (s.hart.mode == .user) .load va = .ok (pa, true) → ctlBase ≤ pa →
        let u := (s.walked va none).committed.withoutLines pa n
        (n = 8 → exec (.scalarLoad op imm rs1 rd) s =
          .next (u.completes (u.hart.wx rd (ctlRead s.committed ((pa - ctlBase) / 2 ^ 16) (pa % 2 ^ 16))))) ∧
        (n ≠ 8 → exec (.scalarLoad op imm rs1 rd) s = .next (takeTrap 5 (BitVec.ofNat 64 va) (s.walked va none)))) ∧
      (va % n ≠ 0 → exec (.scalarLoad op imm rs1 rd) s =
        .next (takeTrap (if ctlMapped .load va s then 5 else 4) (BitVec.ofNat 64 va) (s.probed va))) ∧
      (∀ c, va % n = 0 → translate s s.hart.root (s.hart.mode == .user) .load va = .error c → c ≠ 28 → exec (.scalarLoad op imm rs1 rd) s =
        .next (takeTrap c (BitVec.ofNat 64 va) (dropFaulted (sitesOf s.hart.place) s.hart.asid va (s.walked va none)))) ∧
      (s.reaches .load va n pa = true → s.ownGood pa n = false →
        let u := suspectRead pa n (s.walked va none)
        let h := s.hart
        let fails (t : State) : Prop := exec (.scalarLoad op imm rs1 rd) s = .next t
        (h.mode = .supervisor ∨ h.strip.rewindable = false →
          (replayable s = false → fails (takeTrap 28 (BitVec.ofNat 64 va) u)) ∧ (replayable s = true → fails (endForReplay u))) ∧
        ∀ cp, h.mode = .user → h.strip.rewindable = true → h.strip.checkpoint = some cp → h.strip.rewinds = 0 →
          let t := rasLog 9 (coreLoc h.place 0 0) 0 (u.withHart (rewindTo cp h))
          fails t ∧ (rewindTo cp h).pc = cp.pc ∧ (rewindTo cp h).strip.buffer = [] ∧ (rewindTo cp h).vsta = 0 ∧
            (rewindTo cp h).emask = cp.emask ∧ (rewindTo cp h).ea = cp.ea ∧ (rewindTo cp h).v = h.v ∧
            ∀ r : BitVec 5, r ≠ 0#5 → (rewindTo cp h).rx r = if cp.xmask.getLsbD r.toNat then cp.x.get r.toFin else h.rx r)) ∧
  (∀ (s : State) (op : StoreOp) (imm : BitVec 12) (rs2 rs1 : BitVec 5) (pa : Nat),
      let va := (s.hart.rx rs1 + imm.signExtend 64).toNat
      let n := op.bytes
      let v := (s.hart.rx rs2).toNat % 2 ^ (8 * n)
      s.calm = true → canonical va = true →
      (s.reaches .store va n pa = true →
        let t := (s.walked va none).stored va (heldOf false pa (toBytes n v))
        exec (.scalarStore op imm rs2 rs1) s = .next (t.completes t.hart)) ∧
      (va % n = 0 → translate s s.hart.root (s.hart.mode == .user) .store va = .ok (pa, true) → pa < ctlBase →
        let t := homeWrite s.hart.agent pa (toBytes n v) (s.walked va none).committed
        exec (.scalarStore op imm rs2 rs1) s = .next (t.completes t.hart)) ∧
      (va % n = 0 → translate s s.hart.root (s.hart.mode == .user) .store va = .ok (pa, true) → ctlBase ≤ pa →
        let t := ctlWrite s.hart.agent ((pa - ctlBase) / 2 ^ 16) (pa % 2 ^ 16) (BitVec.ofNat 64 v) (s.walked va none).committed
        (n = 8 → exec (.scalarStore op imm rs2 rs1) s = .next (t.completes t.hart)) ∧
        (n ≠ 8 → exec (.scalarStore op imm rs2 rs1) s = .next (takeTrap 7 (BitVec.ofNat 64 va) (s.walked va none)))) ∧
      (va % n ≠ 0 → exec (.scalarStore op imm rs2 rs1) s =
        .next (takeTrap (if ctlMapped .store va s then 7 else 6) (BitVec.ofNat 64 va) (s.probed va))) ∧
      (∀ c, va % n = 0 → translate s s.hart.root (s.hart.mode == .user) .store va = .error c → c ≠ 28 → exec (.scalarStore op imm rs2 rs1) s =
        .next (takeTrap c (BitVec.ofNat 64 va) (dropFaulted (sitesOf s.hart.place) s.hart.asid va (s.walked va none))))) ∧
  ∀ (s : State) (op : LoadOp) (st : StoreOp) (imm : BitVec 12) (rs2 rs1 rd : BitVec 5),
    let va := (s.hart.rx rs1 + imm.signExtend 64).toNat
    s.calm = true → canonical va = false →
      exec (.scalarLoad op imm rs1 rd) s = .next (takeTrap 13 (BitVec.ofNat 64 va) s) ∧
      exec (.scalarStore st imm rs2 rs1) s = .next (takeTrap 15 (BitVec.ofNat 64 va) s)

/-- Bytes stored by the running strand at a place that is not lost: a later load of the strand takes exactly them, whether they are
held or performed. Performed, they stand in memory; held, memory is unchanged. Either way no byte outside the range changes where
no earlier store was held (R251, R279, R280). -/
def Obligations.StoresReachTheirBytes : Prop :=  ∀ (s : State) (va pa : Nat) (bs : List Byte), bs ≠ [] → (∀ a, pa ≤ a → a < pa + bs.length → lost s a = false) →
    s.hart.strip.buffer = [] →
    let t := s.stored va (heldOf false pa bs)
    t.ownValue pa bs.length = ofBytes bs ∧ s.sameMemoryOutside t pa bs.length ∧
      (t.hart.strip.buffer = [] → homeBytes t pa bs.length = bs) ∧ (t.hart.strip.buffer ≠ [] → s.sameMemory t)

/-- LR, SC and AMO complete, for words and doublewords and every aq and rl. LR takes the strand's own view of its bytes and sets the
strand's one scalar link on the line. SC commits the strip, stores and delivers 0 where the strand's link names the line, else
stores nothing and delivers 1, and either way clears the strand's scalar link; at a lost home it consumes an uncorrectable error. AMO
commits the strip, delivers the old value and writes the new one at the home. aq acquires. A misaligned one accesses nothing and traps
with cause 4 or 6, or with 5 or 7 where its address is mapped to the control space of a stack; one to device-class memory with cause 5
or 7 (R79, R262, R316, R319, R363, R366, R367; that SC commits the strip whether it stores or not, and that LR takes held bytes, are the
model's choice, log 18, since R79 has its store commit and R281 names the atomic, and R258 gives LR the home's value). -/
def Obligations.AtomicsComplete : Prop :=  ∀ (s : State) (dbl aq rl : Bool) (rs2 rs1 rd : BitVec 5) (pa : Nat),
    let h := s.hart
    let va := (h.rx rs1).toNat
    let n := if dbl then 8 else 4
    let v := (h.rx rs2).toNat % 2 ^ (8 * n)
    let line := pa / 64 * 64
    let closes (t : State) : State := if aq then t.acquired else t
    let z := s.walked va none
    s.calm = true → canonical va = true →
    (s.reaches .load va n pa = true → s.ownGood pa n = true →
      let t := closes (setLink line h.sid false (z.withoutLines pa n))
      exec (.lr dbl aq rl rs1 rd) s = .next (t.completes (h.wx rd (extendLoad true n (s.ownValue pa n))))) ∧
    (s.reaches .store va n pa = true → lost s pa = true → s.hart.mode = .supervisor → replayable s = false →
      exec (.sc dbl aq rl rs2 rs1 rd) s = .next (takeTrap 28 (BitVec.ofNat 64 va) z.committed)) ∧
    (s.reaches .store va n pa = true → lost s pa = false →
      let t := z.committed
      let ok := holdsLink t line h.sid false
      let u := { t with links := t.links.filter fun l => !(l.sid == h.sid && !l.vector) }.withoutLines pa n
      let w := closes (if ok then homeWrite h.agent pa (toBytes n v) u else u)
      exec (.sc dbl aq rl rs2 rs1 rd) s = .next (w.completes (w.hart.wx rd (if ok then 0#64 else 1#64)))) ∧
    (s.reaches .store va n pa = true → s.committed.ownGood pa n = true → ∀ op : AmoOp,
      let t := z.committed
      let old := t.ownValue pa n
      let w := closes ((homeWrite h.agent pa (toBytes n (amoNew op (8 * n) old v)) t).withoutLines pa n)
      exec (.amo op dbl aq rl rs2 rs1 rd) s = .next (w.completes (w.hart.wx rd (extendLoad true n old)))) ∧
    (va % n ≠ 0 →
      let c := if ctlMapped .store va s then 7 else 6
      exec (.lr dbl aq rl rs1 rd) s = .next (takeTrap (if ctlMapped .load va s then 5 else 4) (BitVec.ofNat 64 va) (s.probed va)) ∧
      exec (.sc dbl aq rl rs2 rs1 rd) s = .next (takeTrap c (BitVec.ofNat 64 va) (s.probed va)) ∧
      ∀ op, exec (.amo op dbl aq rl rs2 rs1 rd) s = .next (takeTrap c (BitVec.ofNat 64 va) (s.probed va))) ∧
    (va % n = 0 → translate s h.root (h.mode == .user) .load va = .ok (pa, true) →
      exec (.lr dbl aq rl rs1 rd) s = .next (takeTrap 5 (BitVec.ofNat 64 va) z)) ∧
    (va % n = 0 → translate s h.root (h.mode == .user) .store va = .ok (pa, true) →
      exec (.sc dbl aq rl rs2 rs1 rd) s = .next (takeTrap 7 (BitVec.ofNat 64 va) z) ∧
      ∀ op, exec (.amo op dbl aq rl rs2 rs1 rd) s = .next (takeTrap 7 (BitVec.ofNat 64 va) z))

/-- ldaq takes eight bytes past the data cache, writes rd and acquires at its scope; strl commits the strip and then stores the eight bytes of
rs2 at the home, which is its release. FENCE commits the strip where neither of its sets is empty, and where either set names loads or
device reads no cached line and no read-ahead from before it serves the strand any more; it is a no-op otherwise. FENCE.I commits the strip
and empties this core's instruction cache; WFI is a no-op in both modes; SFENCE.VMA drops the translations of the strand's identifier that
its operands name from this core's TLB, and raises Illegal() in user mode (R79, R86, R241, R262, R264, R265, R337; which sets make FENCE
acquire is the model's choice, log 30, since R79 says only that it acquires as they select). -/
def Obligations.FencesAndScopedAccessesComplete : Prop :=
  (∀ (s : State) (sc : Scope) (rs2 rs1 rd : BitVec 5) (pa : Nat),
      let h := s.hart
      let va := (h.rx rs1).toNat
      s.calm = true →
      (s.reaches .load va 8 pa = true → s.ownGood pa 8 = true →
        let t := (s.walked va none).withoutLines pa 8
        let u := if sc = .strand then t else t.acquired
        exec (.ldaq sc rs1 rd) s = .next (u.completes (h.wx rd (BitVec.ofNat 64 (s.ownValue pa 8))))) ∧
      (s.reaches .store va 8 pa = true →
        let t := homeWrite h.agent pa (toBytes 8 (h.rx rs2).toNat) (s.walked va none).committed
        exec (.strl sc rs2 rs1) s = .next (t.completes t.hart))) ∧
  (∀ s : State, s.calm = true →
      (∀ fm pred succ rs1 rd, (pred = 0#4 ∨ succ = 0#4 → exec (.fence fm pred succ rs1 rd) s = .next (s.completes s.hart)) ∧
        (pred ≠ 0#4 → succ ≠ 0#4 →
          let t := if (pred ||| succ) &&& 0xA#4 = 0#4 then s.committed else s.committed.ordered
          exec (.fence fm pred succ rs1 rd) s = .next (t.completes t.hart))) ∧
      (∀ imm rs1 rd,
        let t := s.committed.withoutText
        exec (.fenceI imm rs1 rd) s = .next (t.completes t.hart)) ∧
      exec .wfi s = .next (s.completes s.hart) ∧
      (∀ rs2 rs1, s.hart.mode = .user → exec (.sfenceVma rs2 rs1) s = .next (takeTrap 2 (instrBits (.sfenceVma rs2 rs1)) s)) ∧
      (∀ rs2 rs1, s.hart.mode = .supervisor → ∃ t : State, exec (.sfenceVma rs2 rs1) s = .next (t.completes s.hart) ∧
        t = { s with tlb := t.tlb } ∧ ∀ x, x ∈ t.tlb ↔ x ∈ s.tlb ∧
          ¬ ((rs2 = 0#5 ∨ (s.hart.rx rs2).toNat % 1024 = s.hart.asid) ∧ x.site = .core (coreNo s.hart.place) ∧ x.asid = s.hart.asid ∧
            (rs1 = 0#5 ∨ x.covers s.hart.asid (s.hart.rx rs1).toNat = true))))

/-! ### Exceptions -/

/-- Trap entry writes sepc, scause and stval, records the previous mode in SPP and the interrupt enable in SPIE, clears SIE, enters
supervisor mode, continues at stvec and clears the strand's links. It writes no vector register, tag, mask, tile, queue, accumulator,
chain, timeline, slice, vl, vwid, vsta, emask or ecls, no x register and no memory, and leaves the strip as it stands (R80, R272; that SPIE
takes SIE and SIE becomes 0, which R272's list does not name, is log 6, from the privileged specification). -/
def Obligations.TrapEntry : Prop :=  ∀ (cause : Nat) (tval : Word) (s : State),
    let t := takeTrap cause tval s
    t.hart.csr.sepc = s.hart.pc ∧ t.hart.csr.scause = BitVec.ofNat 64 cause ∧ t.hart.csr.stval = tval ∧
      t.hart.mode = .supervisor ∧ t.hart.pc = s.hart.csr.stvec &&& ~~~3#64 ∧
      (t.hart.csr.sstatus.getLsbD 8 = true ↔ s.hart.mode = .supervisor) ∧
      t.hart.csr.sstatus.getLsbD 5 = s.hart.csr.sstatus.getLsbD 1 ∧ t.hart.csr.sstatus.getLsbD 1 = false ∧
      (∀ i, i ≠ 1 → i ≠ 5 → i ≠ 8 → t.hart.csr.sstatus.getLsbD i = s.hart.csr.sstatus.getLsbD i) ∧
      (∀ l, l ∈ t.links ↔ l ∈ s.links ∧ l.sid ≠ s.hart.sid) ∧
      t = { s with links := t.links
                   hart := { s.hart with pc := t.hart.pc, mode := .supervisor, wait := none, hit := none
                                         csr := { s.hart.csr with sepc := t.hart.csr.sepc, scause := t.hart.csr.scause
                                                                  stval := tval, sstatus := t.hart.csr.sstatus } } }

/-- ecall takes cause 8 from user mode and 9 from supervisor mode with stval 0; ebreak takes cause 3 with its address; a word that selects
nothing takes cause 2 with its 32 bits in stval. An asynchronous event that is pending at a user-mode boundary traps, a chain's cut before a
watchpoint's hit before a step, the lowest numbered first, and is pending no longer. A strand that reaches address 0 in user mode ends: its
strip commits, its queues, slices, links and chains go, and nothing else of memory changes; in supervisor mode its launch fails (R79, R101,
R102, R272, R274, R275, R279, R387). -/
def Obligations.EnvironmentCallsAndEvents : Prop :=
  (∀ s : State,
      (s.hart.hit = none →
        (s.hart.mode = .user → exec .ecall s = .next (takeTrap 8 0#64 s)) ∧
        (s.hart.mode = .supervisor → exec .ecall s = .next (takeTrap 9 0#64 s)) ∧
        exec .ebreak s = .next (takeTrap 3 s.hart.pc s)) ∧
      ∀ bits : BitVec 32, exec (.encodingThatSelectsNothing bits) s = .next (takeTrap 2 (bits.zeroExtend 64) s)) ∧
  (∀ s : State, s.hart.status = .running → s.hart.wait = none →
      (s.hart.mode = .user →
        (∀ (i : Fin 4) c, s.hart.cuts.get i = some c → (∀ j, j < i → s.hart.cuts.get j = none) →
          exec .asyncEventTake s = .next (takeTrap c.1 c.2 (s.withHart { s.hart with cuts := s.hart.cuts.set i none }))) ∧
        ((∀ i, s.hart.cuts.get i = none) →
          (∀ (i : Fin 4) w, s.hart.hits.get i = some w → (∀ j, j < i → s.hart.hits.get j = none) →
            exec .asyncEventTake s = .next (takeTrap 3 w (s.withHart { s.hart with hits := s.hart.hits.set i none }))) ∧
          (∀ w, (∀ i, s.hart.hits.get i = none) → s.hart.step = some w →
            exec .asyncEventTake s = .next (takeTrap 3 w (s.withHart { s.hart with step := none }))))) ∧
      (s.hart.pc = 0#64 → s.hart.mode = .user → s.hart.bad = [] → s.hart.unchained = true → s.hart.kept = [] →
        (∀ i : Fin 4, (s.hart.c.get i).links = []) → ∃ t, exec .strandEnd s = .next t ∧ t.hart.status = .ended ∧ t.hart.strip.buffer = [] ∧ t.hart.slices = [] ∧
          (∀ q, t.hart.queue q = .empty) ∧ (∀ i : Fin 4, t.hart.c.get i = .free) ∧ (∀ l ∈ t.links, l.sid ≠ s.hart.sid) ∧
          t.hart.x = s.hart.x ∧ t.hart.v = s.hart.v ∧ t.mem = s.committed.mem) ∧
      (s.hart.pc = 0#64 → s.hart.mode = .supervisor → exec .strandEnd s = .next (fatalFault s.hart.sid 12 0#64 s)))

/-- sret of a strand that has not claimed returns to sepc in the mode of SPP, with SIE from SPIE, SPIE 1 and SPP user, and changes
nothing else; of one that has, it first puts the claim image back and then re-forms chains, so with an image that can be read and
whose fields are legal; in user mode it and claim raise Illegal(). claim clears the strand's links, writes the claim image to the
strand's claim area, a word of it that holds an uncorrectable word poisoned, sets the vector state to its values at strand start and
marks the strand as claimed; a second claim changes nothing (R88, R101, R278, R286; the mirror of the image, and which of its words
still are uncorrectable at sret, are the model's choice, log 13; that sret gives SIE from SPIE, SPIE 1 and SPP user is log 6, from the
privileged specification, whose rules R278 names). -/
def Obligations.ClaimAndReturnComplete : Prop :=  ∀ s : State, s.hart.plain = true →
    let walks := s.walkedAll ((rangeFrom 0 (claimBytes / 4096)).map fun i => (s.hart.claimVa + 4096 * i) % 2 ^ 64)
    (s.hart.mode = .supervisor → s.hart.claimed = false →
      let c := s.hart.csr
      ∃ st : Word, exec .sret s = .next (s.completes { s.hart with
          mode := if c.sstatus.getLsbD 8 then .supervisor else .user, npc := c.sepc, csr := { c with sstatus := st } }) ∧
        st.getLsbD 1 = c.sstatus.getLsbD 5 ∧ st.getLsbD 5 = true ∧ st.getLsbD 8 = false ∧
        ∀ i, i ≠ 1 → i ≠ 5 → i ≠ 8 → st.getLsbD i = c.sstatus.getLsbD i) ∧
    (s.hart.mode = .supervisor → s.hart.claimed = true → ∀ t, reloadClaim s = .ok () t →
      let u := reformAll (returnFromTrap t)
      u.hart.hit = none → exec .sret s = .next (u.completes u.hart)) ∧
    (s.hart.mode = .user → exec .sret s = .next (takeTrap 2 (instrBits .sret) s) ∧
      exec .claim s = .next (takeTrap 2 (instrBits .claim) s)) ∧
    (s.hart.mode = .supervisor → s.hart.claimed = true → exec .claim s = .next (s.completes s.hart)) ∧
    (∀ pages : List Nat, s.hart.mode = .supervisor → s.hart.claimed = true → s.choices = [] → pages.length = claimBytes / 4096 →
      (∀ i, i < pages.length → s.reaches .load ((s.hart.claimVa + 4096 * i) % 2 ^ 64) 4096 (nth pages i 0) = true ∧
        readsBad s (nth pages i 0) 4096 = false) →
      let bs := pages.flatMap fun p => s.mem.bulk p 4096
      claimBadField bs = none → (∀ i : Fin 4, s.hart.c.get i = .free ∧ nth s.hart.kept i .free = .free ∧
        sub bs (0x1000 + imageBytes * i) 8 % 8 = 0) →
      (∀ k ∈ s.cores, ∀ x ∈ k.portHolder, x.2.1 ≠ s.hart.sid) →
      let u := returnFromTrap (walks.withHart { ({ s.hart with kept := [] } : Strand).fromShared bs with
        claimed := false, keptBad := []
        bad := (s.hart.bad.filter fun b => !decide (b.src < 6)) ++ (claimBadWords s s.hart pages).map (·.1) })
      exec .sret s = .next (u.completes u.hart)) ∧
    ∀ pages : List Nat, s.hart.mode = .supervisor → s.hart.claimed = false → s.hart.unchained = true → s.choices = [] →
      pages.length = claimBytes / 4096 →
      (∀ i, i < pages.length → s.reaches .store ((s.hart.claimVa + 4096 * i) % 2 ^ 64) 4096 (nth pages i 0) = true) →
      let t := writeClaim s.hart pages { walks with links := s.links.filter fun l => l.sid != s.hart.sid }
      exec .claim s = .next (t.completes t.hart.cleared) ∧ t.hart.cleared.claimed = true ∧ t.hart.cleared.vl = 0 ∧
        (∀ r, t.hart.cleared.tag r = .none ∧ t.hart.cleared.v.get r.toFin = 0#65536) ∧ (∀ m, t.hart.cleared.shape m = .none) ∧
        t.hart.cleared.x = s.hart.x ∧ t.hart.cleared.csr = s.hart.csr ∧ t.hart.cleared.slices = s.hart.slices

/-! ### Vector memory -/

/-- vld, vlds and vldx complete where every active element from vsta reaches memory that can be read: each such element of vd takes
the strand's own view of its bytes, a nibble for I4; no other register, no mask, no memory and no flag changes. At an element whose
access faults they trap with that cause: stval holds its address and vsta its number, the active elements below it are delivered, and
it and those above it are not (R21, R157, R160 to R164, R276, R280). -/
def Obligations.VectorLoadsComplete : Prop :=  ∀ (km : BitVec 3) (a : Addressing) (rs1 vd : BitVec 5) (s : State) (pa : Nat → Nat),
    let t := s.hart.tag vd
    let n := accessBytes t
    s.calm = true → s.hart.mayAccess a vd = true → vd ∉ a.regs →
    let va := a.addr s.hart rs1 t.width
    let got (e : Nat) : Bool := s.reaches .load (va e) n (pa e) && s.ownGood (pa e) n
    let loads (h : Strand) (active : Nat → Bool) : Prop := s.hart.vectorFrame { h with vsta := 0 } vd ∧ h.emask = s.hart.emask ∧
      s.hart.delivered h vd t active fun e => if t = .i4 then s.ownValue (pa e) 1 / 16 ^ (e % 2) else s.ownValue (pa e) n
    ((∀ e ∈ s.hart.elements km, got e = true) →
      ∃ h dc, exec (loadOf km a rs1 vd) s = .next ({ s with dcache := dc }.completes h) ∧ (∀ l ∈ dc, l ∈ s.dcache) ∧ h.vsta = 0 ∧
        loads h (s.hart.active km)) ∧
    ∀ d ∈ s.hart.elements km, ∀ c, (∀ e ∈ s.hart.elements km, e < d → got e = true) → s.refuses .load (va d) n c →
      ∃ h dc, exec (loadOf km a rs1 vd) s = .next (({ s with dcache := dc }.withHart h).trapsAt .load (va d) n c d) ∧
        (∀ l ∈ dc, l ∈ s.dcache) ∧ loads h fun e => s.hart.active km e && decide (e < d)

/-- vst, vsts and vstx complete where every active element from vsta reaches its place, whatever the instruction stores before it:
the elements' bytes are stored in ascending element order, held or performed; a 4-bit element needs k0; no register, mask or flag
changes but vsta, which is 0. Where the strand's stores are performed at once, no byte outside the elements' places changes, and an
element's bytes whose place no other element shares hold its encoding. At an element whose access faults they trap with that cause:
stval holds its address and vsta its number, and the stores of the elements below it stand (R21, R157, R160 to R165, R276, R280). -/
def Obligations.VectorStoresComplete : Prop :=  ∀ (km : BitVec 3) (a : Addressing) (rs1 vs3 : BitVec 5) (s : State) (pa : Nat → Nat),
    let t := s.hart.tag vs3
    let n := accessBytes t
    let es := s.hart.elements km
    let va := a.addr s.hart rs1 t.width
    let after (es : List Nat) : State := es.foldl (fun u e => u.walkStored (va e) (s.hart.stores vs3 (pa e) e)) s
    let keeps (es : List Nat) : Prop := let u := after es
      u.hart.x = s.hart.x ∧ u.hart.v = s.hart.v ∧ u.hart.k = s.hart.k ∧ u.hart.emask = s.hart.emask ∧
      (s.hart.writesThrough = true → (∀ b, (∀ e ∈ es, ¬ bytesAt (pa e) n b) → u.mem.get b = s.mem.get b) ∧
        (t ≠ .i4 → ∀ e ∈ es, (∀ d ∈ es, d ≠ e → pa d + n ≤ pa e ∨ pa e + n ≤ pa d) → lost s (pa e) = false →
          homeBytes u (pa e) n = toBytes n (s.hart.elem vs3 t.width e)))
    s.calm = true → s.hart.mayAccess a vs3 = true → (t = .i4 → km = 0#3) →
    (s.reachesAll .store es va pa n →
      exec (storeOf km a rs1 vs3) s = .next ((after es).completes { (after es).hart with vsta := 0 }) ∧ keeps es) ∧
    ∀ d ∈ es, ∀ c, let low := es.filter fun e => decide (e < d)
      s.reachesAll .store low va pa n → (t = .i4 → d % 2 = 0 ∨ d = s.hart.vsta) → (after low).refuses .store (va d) n c →
      exec (storeOf km a rs1 vs3) s = .next ((after low).trapsAt .store (va d) n c d) ∧ keeps low

/-- vgl completes as vldx does and links, for the strand alone, exactly the lines of the elements it loads, where they are no more than its
link set holds. vsc stores, element by element, where the strand holds the line's link, writes bit e of km to say so, and ends with the
strand's whole vector link set cleared: with no link held nothing is stored, with every line linked every element is; the homes of its
elements are in service, a lost one being an uncorrectable error. Other bits of km, other registers and other bytes stay (R102, R166,
R167). -/
def Obligations.LinkedAccessesComplete : Prop :=
  (∀ (km : BitVec 3) (vs2 rs1 vd : BitVec 5) (s : State) (pa : Nat → Nat),
      let t := s.hart.tag vd
      let n := accessBytes t
      let es := s.hart.elements km
      s.calm = true → s.hart.mayAccess (.index vs2) vd = true → vs2 ≠ vd → es.length ≤ Config.gatherLinks →
      (∀ e ∈ es, s.reaches .load (Addressing.addr (.index vs2) s.hart rs1 t.width e) n (pa e) = true ∧ s.ownGood (pa e) n = true) →
      ∃ h d ls, exec (.vgl km vs2 rs1 vd) s = .next ({ s with dcache := d, links := ls }.completes h) ∧ (∀ l ∈ d, l ∈ s.dcache) ∧
        s.hart.vectorFrame h vd ∧ h.emask = s.hart.emask ∧
        s.hart.delivered h vd t (s.hart.active km) (fun e => s.ownValue (pa e) n) ∧
        ∀ l, l ∈ ls ↔ (l ∈ s.links ∧ ¬ (l.sid = s.hart.sid ∧ l.vector = true)) ∨
          (l.sid = s.hart.sid ∧ l.vector = true ∧ ∃ e ∈ es, l.line = pa e / 64 * 64)) ∧
  (∀ (km : BitVec 3) (vs2 rs1 vs3 : BitVec 5) (s : State) (pa : Nat → Nat),
      let t := s.hart.tag vs3
      let n := accessBytes t
      let es := s.hart.elements km
      s.calm = true → s.hart.mayAccess (.index vs2) vs3 = true → s.hart.strip.buffer = [] →
      (km = 0#3 → exec (.vsc km vs2 rs1 vs3) s = .next (takeTrap 2 (instrBits (.vsc km vs2 rs1 vs3)) s)) ∧
      (km ≠ 0#3 → s.reachesAll .store es (Addressing.addr (.index vs2) s.hart rs1 t.width) pa n → (∀ e ∈ es, lost s (pa e) = false) →
        let u := es.foldl (fun u e => u.storeLinked km (Addressing.addr (.index vs2) s.hart rs1 t.width e) (pa e) n (s.hart.elem vs3 t.width e) e) s
        let w := { u with links := u.links.filter fun l => !(l.sid == s.hart.sid && l.vector) }
        exec (.vsc km vs2 rs1 vs3) s = .next (w.completes { u.hart with vsta := 0 }) ∧ u.hart.x = s.hart.x ∧ u.hart.v = s.hart.v ∧
          u.hart.emask = s.hart.emask ∧ (∀ q, q ≠ km → u.hart.k.get q.toFin = s.hart.k.get q.toFin) ∧
          (∀ e, e ∉ es → u.hart.kbit km e = s.hart.kbit km e) ∧ (∀ b, (∀ e ∈ es, ¬ bytesAt (pa e) n b) → u.mem.get b = s.mem.get b) ∧
          ((∀ l ∈ s.links, ¬ (l.sid = s.hart.sid ∧ l.vector = true)) → s.sameMemory u ∧ ∀ e ∈ es, u.hart.kbit km e = false) ∧
          ((∀ e ∈ es, holdsLink s (pa e / 64 * 64) s.hart.sid true = true) → ∀ e ∈ es, u.hart.kbit km e = true ∧
            ((∀ d ∈ es, d ≠ e → pa d + n ≤ pa e ∨ pa e + n ≤ pa d) →
              homeBytes u (pa e) n = toBytes n (s.hart.elem vs3 t.width e)))))

/-- vlsl and vssl complete where every active element's offset lies within its lane's slice and is aligned; vlsl takes the strand's
own view of the slice's bytes into vd, vssl stores the elements in ascending order, held or performed; either makes the strand a
lane-slice strand, even with no active element (R54, R56, R168, R280). -/
def Obligations.LaneSlicesComplete : Prop :=  ∀ (km : BitVec 3) (vs2 rs1 r : BitVec 5) (s : State),
    let t := s.hart.tag r
    let n := t.width / 8
    let off (e : Nat) : Word := s.hart.rx rs1 + offsetOf s.hart vs2 e
    let place (e : Nat) : Nat := sliceKey (e % s.hart.lown) (off e).toNat
    let es := s.hart.elements km
    let u := es.foldl (fun u e => u.stored 0 (heldOf true (place e) (toBytes n (s.hart.elem r t.width e))))
      (s.withHart { s.hart with sliced := true })
    s.calm = true → s.hart.mayAccess (.index vs2) r = true →
    (∀ e ∈ es, 0 ≤ (off e).toInt ∧ (off e).toInt + n ≤ 49152 ∧ (off e).toNat % n = 0) →
    (vs2 ≠ r → s.hart.badSlice = [] →
      ∃ h, exec (.vlsl km vs2 rs1 r) s = .next (s.completes { h with sliced := true }) ∧ s.hart.vectorFrame h r ∧
        h.emask = s.hart.emask ∧ s.hart.delivered h r t (s.hart.active km) fun e =>
          ofBytes ((rangeFrom (place e) n).map fun b => overlayByte s.hart.strip.buffer true b (Memory.get s.hart.slices b))) ∧
    exec (.vssl km vs2 rs1 r) s = .next (u.completes { u.hart with vsta := 0 }) ∧ u.hart.x = s.hart.x ∧ u.hart.v = s.hart.v ∧
    (s.hart.writesThrough = true → s.sameMemory u ∧
      ∀ b, (∀ e ∈ es, ¬ bytesAt (place e) n b) → Memory.get u.hart.slices b = Memory.get s.hart.slices b)

/-- vamoadd, vamomin, vamomax, vamoand, vamoor, vamoxor, vamoswp and vamocas complete where every active element reaches a place that
can be read: one token per element, in ascending order, applied at the home of its bytes; with w set vd takes each old value. No
register changes but vd with w set and emask, and no byte outside the elements' places; where no two elements share a place each
writes the value of its operation on the old one. Where every response is late and the lesser of wdef and wceil is 0, every token is
applied and the instruction traps with WAIT_CEILING, the count of them in stval and the lowest element in vsta (R157, R169, R170, R228,
R316). -/
def Obligations.VectorAtomicsComplete : Prop :=  ∀ (km : BitVec 3) (old : Bool) (vs2 rs1 vd : BitVec 5) (s : State) (pa : Nat → Nat),
    let h := s.hart
    let t := h.tag vd
    let n := accessBytes t
    let es := h.elements km
    let mode := RMode.ofCode h.rm
    s.calm = true → h.mayAccess (.index vs2) vd = true → h.strip.buffer = [] → (old = true → vs2 ≠ vd) →
    s.reachesAll .store es (Addressing.addr (.index vs2) h rs1 t.width) pa n →
    (∀ e ∈ es, ∀ b, bytesAt (pa e) n b → readsBad s b 1 = false) →
    let run (new : Nat → Nat → Option Nat × Cls) (back : Bool) : State := es.foldl (fun u e =>
      let r := u.sendToken (Addressing.addr (.index vs2) h rs1 t.width e) (pa e) n (new e)
      r.2.withHart (if back then r.2.hart.deliver vd t.width e r.1 else r.2.hart.flag e r.1.2)) s
    let runs (i : Instr) (new : Nat → Nat → Option Nat × Cls) (back : Bool) : Prop :=
      let u := run new back
      let v := es.foldl (fun u e => (u.sendToken (Addressing.addr (.index vs2) h rs1 t.width e) (pa e) n (new e)).2) s
      exec i s = .next (u.completes { u.hart with vsta := 0 }) ∧ u.hart.x = h.x ∧ u.hart.k = h.k ∧ (back = false → u.hart.v = h.v) ∧
        (h.cls = 0 → u.hart.emask = h.emask) ∧ (∀ r, r ≠ vd → u.hart.v.get r.toFin = h.v.get r.toFin) ∧
        (∀ b, (∀ e ∈ es, ¬ bytesAt (pa e) n b) → u.mem.get b = s.mem.get b) ∧
        ((∀ e ∈ es, ∀ d ∈ es, d ≠ e → pa d + n ≤ pa e ∨ pa e + n ≤ pa d) → ∀ e ∈ es,
          homeRead u (pa e) n = ((new e (homeRead s (pa e) n)).1.getD (homeRead s (pa e) n)) % 2 ^ t.width ∧
          (back = true → u.hart.elem vd t.width e = homeRead s (pa e) n)) ∧
        (∀ e, es.head? = some e → min h.wdef.toNat h.wceil = 0 → exec i { s with choices := [.late 0] } =
          .next (takeTrap 27 (BitVec.ofNat 64 es.length) (v.withHart { v.hart with vsta := e })))
    (∀ f ∈ ([(.vamoadd, .add), (.vamomin, .min), (.vamomax, .max), (.vamoand, .and), (.vamoor, .or), (.vamoxor, .xor), (.vamoswp, .swp)] :
        List ((BitVec 3 → Bool → BitVec 5 → BitVec 5 → BitVec 5 → Instr) × VAmo)), f.2.accepts t = true →
      runs (f.1 km old vs2 rs1 vd) (fun e m =>
        let r := tokenNew f.2 t mode m (h.elem vd t.width e)
        (some r.1, r.2)) old) ∧
    (VAmo.accepts .swp t = true → vd ≠ 31#5 → h.tag (vd + 1#5) = t → vs2 ≠ vd → vs2 ≠ vd + 1#5 →
      runs (.vamocas km vs2 rs1 vd)
        (fun e m => (if m = h.elem vd t.width e then some (h.elem (vd + 1#5) t.width e) else none, 0#6)) true)

/-! ### Cross-lane instructions, reductions, exact accumulators -/

/-- The cross-lane instructions complete, starting at element 0 whatever vsta holds, and write vd alone: vperm gathers by index with 0
for an index out of range, vslup and vsldn move by a count, vcomp packs the active elements with zeros after them, vexpd spreads them,
vscan delivers running sums, vcex the lesser or greater of a pair, and vmrg merges two runs and writes km (R171 to R177). -/
def Obligations.CrossLaneComplete : Prop :=  ∀ (km : BitVec 3) (vs2 vs1 vd rs2 : BitVec 5) (s : State),
    let h := s.hart
    let t := h.tag vs1
    let u := h.tag vs2
    let z := { h with vsta := 0 }
    let x (e : Nat) : Nat := h.elem vs1 t.width e
    let j (e : Nat) : Int := decodeInt u (h.elem vs2 u.width e)
    let n := (h.rx rs2).toNat
    let packed := (h.activeFrom km 0 h.vl).map x
    let rank (e : Nat) : Nat := (h.activeFrom km 0 e).length
    s.calm = true → h.mayVector = true → h.unchained = true → t ≠ .none → h.fits [t] = true →
    let writes (i : Instr) (active : Nat → Bool) (f : Nat → Nat) : Prop :=
      ∃ k, exec i s = .next (s.completes k) ∧ z.vectorFrame k vd ∧ k.emask = h.emask ∧ z.delivered k vd t active f
    (u.isInt = true → h.fits [u] = true →
      writes (.vperm km vs2 vs1 vd) (h.active km) (fun e => if 0 ≤ j e ∧ j e < h.vl then x (j e).toNat else 0) ∧
      writes (.vcex km vs2 vs1 vd) (h.active km) (fun e =>
        if j e < 0 ∨ h.vl ≤ j e ∨ j e = e then x e
        else if (e : Int) < j e then (if encLess t (x (j e).toNat) (x e) then x (j e).toNat else x e)
        else if encLess t (x e) (x (j e).toNat) then x (j e).toNat else x e)) ∧
    writes (.vslup km rs2 vs1 vd) (fun e => h.active km e && decide (n ≤ e)) (fun e => x (e - n)) ∧
    writes (.vsldn km rs2 vs1 vd) (h.active km) (fun e => if e + n < h.vl then x (e + n) else 0) ∧
    writes (.vcomp km vs1 vd) (fun e => decide (e < h.vl)) (fun e => nth packed e 0) ∧
    writes (.vexpd km vs1 vd) (h.active km) (fun e => x (rank e)) ∧
    (∃ k, exec (.vscan km vs1 vd) s = .next (s.completes k) ∧ z.vectorFrame k vd ∧
      z.delivered k vd t (h.active km) fun e => (nth (scanOuts t (RMode.ofCode h.rm) packed) (rank e) (0, 0#6)).1) ∧
    (u = t →
      let out := mergeRuns t x (h.elem vs2 t.width) h.vl 0 0
      ∃ k, exec (.vmrg km vs2 vs1 vd) s = .next (s.completes k) ∧ k = { h with v := k.v, vtag := k.vtag, k := k.k, vsta := 0 } ∧
        (∀ r, r ≠ vd → k.v.get r.toFin = h.v.get r.toFin ∧ k.tag r = h.tag r) ∧ (∀ q, q ≠ km → k.k.get q.toFin = h.k.get q.toFin) ∧
        z.delivered k vd t (fun e => decide (e < h.vl)) (fun e => (nth out e (0, false)).1) ∧
        (km ≠ 0#3 → ∀ e, e < h.vl → k.kbit km e = (nth out e (0, false)).2))

/-- Integer terms are summed exactly: where the sums stay within the accumulator's integers, an accumulator that has taken integer terms and
nothing else reads out as their exact sum clamped to the type read; a running sum of vscan is the exact sum so far clamped, and an integer
element of a matrix product the exact sum of its old value and its products, clamped. The image of an accumulator has 96 bytes, and loading
it gives the accumulator back (R37, R38, R42, R175, R180, R198). -/
def Obligations.IntegersAccumulateExactly : Prop :=
  (∀ (t : ETag) (m : RMode) (xs : List Int), t.isInt = true → t ≠ .i4 → (∀ x ∈ xs, x.natAbs < 2 ^ 64) → xs.length < 2 ^ 64 →
      decodeInt t (((xs.foldl (fun a x => (a.add1 (intNum x)).1) Acc.clear).read t m).1) = max (intMin t) (min (intMax t) xs.sum)) ∧
  (∀ a : Acc, a.image.length = 96 ∧ Acc.ofImage a.image = some a) ∧
  (∀ (t : ETag) (m : RMode) (xs : List Nat), t.isInt = true →
      (scanOuts t m xs).length = xs.length ∧ ∀ i, i < xs.length →
        decodeInt t (nth (scanOuts t m xs) i (0, 0#6)).1 =
          max (intMin t) (min (intMax t) (((xs.take (i + 1)).map (decodeInt t)).sum))) ∧
  (∀ (ta tb tc : ETag) (m : RMode) (c : Nat) (ps : List (Nat × Nat)), tc.isInt = true →
      decodeInt tc (dotInto ta tb tc m c ps).1 =
        max (intMin tc) (min (intMax tc) (decodeInt tc c + (ps.map fun p => decodeInt ta p.1 * decodeInt tb p.2).sum)))

/-- vred, vdot, vredmx and vredmn complete: vred adds the exact value, and vdot the exact product, of each active element from vsta
to its accumulator; vredmx and vredmn fold element 0 of vd with them, and leave it where none is active. Nothing else changes but emask and vsta (R38, R131, R178,
R179). -/
def Obligations.ReductionsComplete : Prop :=  ∀ (km : BitVec 3) (vs2 vs1 vd : BitVec 5) (ea : BitVec 3) (s : State),
    let h := s.hart
    let t := h.tag vs1
    let u := h.tag vs2
    let es := h.elements km
    let x (e : Nat) : Nat := h.elem vs1 t.width e
    s.calm = true → h.mayVector = true → h.unchained = true → h.fits [t] = true →
    (redType t = true → ∃ k, exec (.vred km vs1 ea) s = .next (s.completes k) ∧
      k = { h with ea := h.ea.set ea.toFin (es.foldl (fun a e => (a.add1 (valueOf t (x e))).1) (h.ea.get ea.toFin))
                   emask := k.emask, vsta := 0 } ∧ (h.cls = 0 → k.emask = h.emask)) ∧
    (redType t = true → redType u = true → h.fits [u] = true →
      (t.isFloat = true ∧ u.isFloat = true) ∨ (t.isSigned = true ∧ u.isSigned = true) ∨ (t.isUnsigned = true ∧ u.isUnsigned = true) →
      ∃ k, exec (.vdot km vs2 vs1 ea) s = .next (s.completes k) ∧
        k = { h with ea := h.ea.set ea.toFin (es.foldl (fun a e => (addProduct a t u (x e) (h.elem vs2 u.width e)).1) (h.ea.get ea.toFin))
                     emask := k.emask, vsta := 0 } ∧ (h.cls = 0 → k.emask = h.emask)) ∧
    (t ≠ .none → h.tag vd = t →
      ∀ f ∈ ([(.vredmx, .max), (.vredmn, .min)] : List ((BitVec 3 → BitVec 5 → BitVec 5 → Instr) × BinOp)),
        ∃ k, exec (f.1 km vs1 vd) s = .next (s.completes k) ∧ k = { h with v := k.v, emask := k.emask, vsta := 0 } ∧
          (h.cls = 0 → k.emask = h.emask) ∧ (∀ r, r ≠ vd → k.v.get r.toFin = h.v.get r.toFin) ∧
          k.elem vd t.width 0 =
            es.foldl (fun m e => (elemBin f.2 t (RMode.ofCode h.rm) m (x e)).1 % 2 ^ t.width) (h.elem vd t.width 0) ∧
          ∀ e, 0 < e → e < h.cap t → k.elem vd t.width e = h.elem vd t.width e)

/-- eaclr, eard and both forms of eamv complete: eaclr leaves −0, eard writes one read-out to element 0 of vd, eamv moves the 96-byte
image from or to memory, whose every byte it reaches; a loaded image with a reserved bit that is not 0 raises an access fault with x[rs1]
in stval and leaves the accumulator; nothing else changes (R37, R39, R180). -/
def Obligations.AccumulatorMovesComplete : Prop :=  ∀ (ea : BitVec 3) (vd rs1 : BitVec 5) (s : State) (pa : Nat → Nat),
    let h := s.hart
    let t := h.tag vd
    let a := (h.rx rs1).toNat
    let ws := rangeFrom 0 12
    let va (i : Nat) : Nat := (a + 8 * i) % 2 ^ 64
    let img := (h.ea.get ea.toFin).image
    s.calm = true → h.mayVector = true → h.unchained = true →
    exec (.eaclr ea) s = .next (s.completes { h with ea := h.ea.set ea.toFin .clear, vsta := 0 }) ∧
    (t ≠ .none → t ≠ .i4 →
      let r := (h.ea.get ea.toFin).read t (RMode.ofCode h.rm)
      exec (.eard ea vd) s = .next (s.completes { (h.putElem vd t.width 0 r.1).flag 0 r.2 with vsta := 0 })) ∧
    ((∀ i ∈ ws, s.reaches .load (va i) 8 (pa i) = true ∧ s.ownGood (pa i) 8 = true) →
      ∀ v, Acc.ofImage (ws.flatMap fun i => toBytes 8 (s.ownValue (pa i) 8)) = some v →
        ∃ d, exec (.eamvLoad rs1 ea) s =
            .next ({ s with dcache := d }.completes { h with ea := h.ea.set ea.toFin v, vsta := 0 }) ∧ ∀ l ∈ d, l ∈ s.dcache) ∧
    ((∀ i ∈ ws, s.reaches .load (va i) 8 (pa i) = true ∧ s.ownGood (pa i) 8 = true) →
      Acc.ofImage (ws.flatMap fun i => toBytes 8 (s.ownValue (pa i) 8)) = none →
        ∃ d, exec (.eamvLoad rs1 ea) s =
            .next (takeTrap 5 (h.rx rs1) ({ s with dcache := d }.withHart { h with vsta := 0 })) ∧ ∀ l ∈ d, l ∈ s.dcache) ∧
    ((∀ i ∈ ws, s.reaches .store (va i) 8 (pa i) = true) →
      let u := ws.foldl (fun u i => u.stored (va i) (heldOf false (pa i) ((img.drop (8 * i)).take 8))) (s.walkedAll (ws.map va))
      exec (.eamvStore rs1 ea) s = .next (u.completes { u.hart with vsta := 0 }) ∧ u.hart.x = h.x ∧ u.hart.v = h.v ∧ u.hart.ea = h.ea ∧
        (h.writesThrough = true → ∀ b, (∀ i ∈ ws, ¬ bytesAt (pa i) 8 b) → u.mem.get b = s.mem.get b))

/-! ### Tiles and matrix products -/

/-- tzero completes for any type of a granted tile, writes the all-zero encoding into every element of its granted shape, raises no
flag and changes no other bit (R194). -/
def Obligations.TzeroClears : Prop :=  ∀ (mc : BitVec 3) (s : State), s.calm = true → s.hart.mayMatrix [mc] = true →
    ∃ k, exec (.tzero mc) s = .next (s.completes k) ∧ s.hart.tileWritten k mc 0 (fun _ _ => 0) ∧ k.emask = s.hart.emask

/-- tmv, tcvt, tadd and tscale complete on tiles of one shape: tmv copies encodings of one type without a flag, tcvt converts, tadd
and tscale round the exact sum and product once; nothing but mc, emask and vsta changes (R187, R188, R195). -/
def Obligations.TileOperationsComplete : Prop :=  ∀ (mc ma mb : BitVec 3) (rs : BitVec 5) (s : State),
    let h := s.hart
    let A := h.shape ma
    let B := h.shape mb
    let C := h.shape mc
    let m := RMode.ofCode h.rm
    let at_ (q : BitVec 3) (i j : Nat) : Nat := h.tileElem q (h.shape q).ty.width i j
    s.calm = true → h.mayMatrix [mc, ma] = true → A.rows = C.rows → A.cols = C.cols →
    let gives (i : Instr) (f : Nat → Nat → Nat) : Prop := ∃ k, exec i s = .next (s.completes k) ∧ h.tileWritten k mc 0 f
    (C.ty = A.ty → gives (.tmv mc ma) (at_ ma) ∧ ∀ t, exec (.tmv mc ma) s = .next t → t.hart.emask = h.emask) ∧
    gives (.tcvt mc ma) (fun i j => (convert A.ty C.ty m (at_ ma i j)).1) ∧
    (oneKind [C.ty, A.ty] = true →
      gives (.tscale mc ma rs) (fun i j => (mulInto A.ty A.ty C.ty m (at_ ma i j) (broadcastX A.ty (h.rx rs))).1)) ∧
    (oneKind [C.ty, A.ty, B.ty] = true → B.legal = true → B.rows = C.rows → B.cols = C.cols →
      gives (.tadd mc ma mb) (fun i j => (addInto A.ty B.ty C.ty m (at_ ma i j) (at_ mb i j)).1))

/-- mma, mmasp and mmack complete on tiles whose shapes and types agree, each element of mc taking its old value plus the exact
products, rounded once; mmack also writes the predicted row and column sums to vd, and tsum the actual ones, with vd's type. Nothing
else changes but emask and vsta (R187, R196 to R201). -/
def Obligations.ProductsComplete : Prop :=  ∀ (mc ma mb : BitVec 3) (v : BitVec 5) (s : State),
    let h := s.hart
    let A := h.shape ma
    let B := h.shape mb
    let C := h.shape mc
    let td := h.tag v
    let m := RMode.ofCode h.rm
    let at_ (q : BitVec 3) (i j : Nat) : Nat := h.tileElem q (h.shape q).ty.width i j
    let dense (i j : Nat) : List (Nat × Nat) := (rangeFrom 0 A.cols).map fun p => (at_ ma i p, at_ mb p j)
    let dot (ps : Nat → Nat → List (Nat × Nat)) (i j : Nat) : Nat := (dotInto A.ty B.ty C.ty m (at_ mc i j) (ps i j)).1
    s.calm = true → h.mayMatrix [mc, ma, mb] = true → factorType A.ty = true → factorType B.ty = true → productType C.ty = true →
    oneKind [C.ty, A.ty, B.ty] = true → A.rows = C.rows → B.cols = C.cols →
    (A.cols = B.rows → ∃ k, exec (.mma mc ma mb) s = .next (s.completes k) ∧ h.tileWritten k mc 0 (dot dense)) ∧
    (td = .n8 → h.fits [.n8] = true → B.rows = 128 → A.cols = 16 ∨ A.cols = 32 ∨ A.cols = 64 → C.rows * A.cols ≤ h.cap .n8 →
      (rangeFrom 0 C.rows).all (keptRow h v A.cols) = true →
      ∃ k, exec (.mmasp mc ma mb v) s = .next (s.completes k) ∧ h.tileWritten k mc 0
        (dot fun i j => (rangeFrom 0 A.cols).map fun p => (at_ ma i p, at_ mb (h.elem v 8 (i * A.cols + p)) j))) ∧
    (A.cols = B.rows → checksumType C.ty td = true → td ≠ .none → h.fits [td] = true → C.rows + C.cols ≤ h.cap td →
      let ck (olds : List Nat) (ps : List (Nat × Nat)) : Nat := (checksum A.ty B.ty C.ty td m olds ps).1
      ∃ k l, exec (.mmack mc ma mb v) s = .next (s.completes k) ∧ h.tileWritten l mc 0 (dot dense) ∧
        k = { l with v := k.v } ∧ (∀ r, r ≠ v → k.v.get r.toFin = h.v.get r.toFin) ∧
        (∀ e, e < C.rows → k.elem v td.width e =
          ck ((rangeFrom 0 C.cols).map fun j => at_ mc e j) ((rangeFrom 0 C.cols).flatMap fun j => dense e j) % 2 ^ td.width) ∧
        (∀ e, e < C.cols → k.elem v td.width (C.rows + e) =
          ck ((rangeFrom 0 C.rows).map fun i => at_ mc i e) ((rangeFrom 0 C.rows).flatMap fun i => dense i e) % 2 ^ td.width) ∧
        ∀ e, C.rows + C.cols ≤ e → e < h.cap td → k.elem v td.width e = h.elem v td.width e) ∧
    (C.ty ≠ .fp64 → checksumType C.ty td = true → td ≠ .none → h.fits [td] = true → C.rows + C.cols ≤ h.cap td →
      let sum (cs : List Nat) : Nat := (checksum C.ty C.ty C.ty td m cs []).1
      ∃ k, exec (.tsum mc v) s = .next (s.completes k) ∧ h.vectorFrame k v ∧
        { h with vsta := 0 }.delivered k v td (fun e => decide (e < C.rows + C.cols)) fun e =>
          if e < C.rows then sum ((rangeFrom 0 C.cols).map fun j => at_ mc e j)
          else sum ((rangeFrom 0 C.rows).map fun i => at_ mc i (e - C.rows)))

/-- tld and tst complete where every element of the granted shape from vsta reaches memory, loading the tile's elements and storing
them in ascending order, a 4-bit element by its nibble. At an element whose access faults they trap with that cause: stval holds its
address and vsta its number, and the elements below it are loaded or stored. ttov and vtot copy a row's encodings. Nothing else changes
(R21, R122, R161, R192, R193, R276). -/
def Obligations.TileTransfersComplete : Prop :=  ∀ (md : BitVec 3) (rs2 rs1 v : BitVec 5) (s : State) (pa : Nat → Nat),
    let h := s.hart
    let T := h.shape md
    let w := T.ty.width
    let n := accessBytes T.ty
    let es := rangeFrom h.vsta (T.rows * T.cols - h.vsta)
    let r := (h.rx rs1).toNat
    s.calm = true → h.mayMatrix [md] = true →
    let va := tileAddr h rs1 rs2 w T.cols
    let got (e : Nat) : Bool := s.reaches .load (va e) n (pa e) && s.ownGood (pa e) n
    let x (e : Nat) : Nat := if T.ty = .i4 then s.ownValue (pa e) 1 / 16 ^ (e % T.cols % 2) else s.ownValue (pa e) n
    let after (es : List Nat) : State := es.foldl (fun u e => u.walkStored (va e) (
      if T.ty = .i4 then [heldNibble false (pa e) (e % T.cols % 2 == 1) (h.tileElem md w (e / T.cols) (e % T.cols))]
      else heldOf false (pa e) (toBytes n (h.tileElem md w (e / T.cols) (e % T.cols))))) s
    let keeps (es : List Nat) : Prop := let u := after es
      u.hart.x = h.x ∧ u.hart.v = h.v ∧ u.hart.m = h.m ∧
        (h.writesThrough = true → ∀ b, (∀ e ∈ es, ¬ bytesAt (pa e) n b) → u.mem.get b = s.mem.get b)
    ((∀ e ∈ es, got e = true) → ∃ k dc, exec (.tld md rs2 rs1) s = .next ({ s with dcache := dc }.completes k) ∧
      (∀ l ∈ dc, l ∈ s.dcache) ∧ k.emask = h.emask ∧ h.tileWritten k md h.vsta fun i j => x (i * T.cols + j)) ∧
    (∀ d ∈ es, ∀ c, (∀ e ∈ es, e < d → got e = true) → s.refuses .load (va d) n c →
      ∃ k dc, exec (.tld md rs2 rs1) s = .next (({ s with dcache := dc }.withHart k).trapsAt .load (va d) n c d) ∧
        (∀ l ∈ dc, l ∈ s.dcache) ∧ k.emask = h.emask ∧ h.tileWritten { k with vsta := 0 } md h.vsta fun i j =>
          if i * T.cols + j < d then x (i * T.cols + j) else h.tileElem md w i j) ∧
    (s.reachesAll .store es va pa n →
      exec (.tst md rs2 rs1) s = .next ((after es).completes { (after es).hart with vsta := 0 }) ∧ keeps es) ∧
    (∀ d ∈ es, ∀ c, let low := es.filter fun e => decide (e < d)
      s.reachesAll .store low va pa n → (after low).refuses .store (va d) n c →
      exec (.tst md rs2 rs1) s = .next ((after low).trapsAt .store (va d) n c d) ∧ keeps low) ∧
    (h.fits [T.ty] = true → r < T.rows → T.cols ≤ h.cap T.ty →
      (∃ k, exec (.ttov md v rs1) s = .next (s.completes k) ∧ h.vectorFrame k v ∧ k.emask = h.emask ∧
        { h with vsta := 0 }.delivered k v T.ty (fun e => decide (e < T.cols)) fun e => h.tileElem md w r e) ∧
      (h.tag v = T.ty → ∃ k, exec (.vtot md v rs1) s = .next (s.completes k) ∧ k = { h with m := k.m, vsta := 0 } ∧
        (∀ q, q ≠ md → k.m.get q.toFin = h.m.get q.toFin) ∧
        ∀ i j, i < T.rows → j < T.cols → k.tileElem md w i j = if i = r then h.elem v w j else h.tileElem md w i j))

/-! ### Shapes and tags -/

/-- vshape grants the least of its request and the registers' capacity, begins a new strip in user mode, after the old one's commit,
with a checkpoint of the registers that R279 names, and leaves vsta 0; vtag and tshape set a tag and a granted shape, held to 128
rows and the type's columns, or none where a request is 0; tgetsh reads a shape. Nothing else changes (R111, R115, R120, R122,
R279; that a strip begun by the vshape executed again after a rewind carries the rewind count on, 2 as 1, is the model's choice, log 12,
since R279 has the count become 0). -/
def Obligations.ShapesComplete : Prop :=  ∀ (s : State) (rs2 rs1 rd vd : BitVec 5) (md : BitVec 3) (ty : ETag),
    let h := s.hart
    let rows := min (h.rx rs1).toNat 128
    let cols := min (h.rx rs2).toNat (colMax ty)
    let granted : TShape := if h.rx rs1 = 0#64 ∨ h.rx rs2 = 0#64 then .none else ⟨rows, cols, ty⟩
    s.calm = true → h.mayVector = true →
    (∀ w : WidthClass,
      let g := min (h.rx rs1).toNat (h.lown * 256 / w.bits)
      (h.mode = .supervisor → exec (.vshape w rs1 rd) s =
        .next (s.completes ({ h with vl := g, wid := w.bits, rgf := false, vsta := 0 }.wx rd (BitVec.ofNat 64 g)))) ∧
      (h.mode = .user →
        let t := s.committed
        exec (.vshape w rs1 rd) s = .next (t.completes ({ t.hart with
          vl := g, wid := w.bits, rgf := false, vsta := 0
          strip := ⟨true, if h.strip.rewinds = 2 then 1 else 0, some ⟨h.pc, h.x, h.stripmask, h.emask, h.ea⟩, []⟩ }.wx rd
            (BitVec.ofNat 64 g))))) ∧
    (h.unchained = true → exec (.vtag ty vd) s = .next (s.completes (h.putTag vd ty)) ∧
      exec (.tshape ty rs2 rs1 md) s = .next (s.completes { h with tshape := h.tshape.set md.toFin granted })) ∧
    exec (.tgetsh md rd) s = .next (s.completes (h.wx rd (h.shape md).word))

/-! ### Queues, waits and reels -/

/-- vqpush appends the elements 0 to vl − 1 of vs where they fit, and vqpop removes the vl oldest elements into vd where the queue has
them with vd's tag; each first commits the strip, and delivers status code 0 with the queue's new count, for vqpop also the first
mark's place; a vqpop with code 0 acquires. At vl 0 they move nothing; an empty or wrongly tagged queue gives codes 1 (deadline 0) and
4. vqcnt reads count and tag at any Lown. Nothing else changes but vsta. While the strand fires an actor of a Flaset image, the name of
a queue is a channel: the transfers move its tokens at once and count them, and one beyond the rate, against the direction, or
a push of another type goes back to the schedule with nothing moved (R182 to R185, R230, R262, R380; counts of 2^16 tokens and more are
free, log 32). -/
def Obligations.QueueTransfersComplete : Prop :=  ∀ (q : BitVec 3) (r rs1 rd : BitVec 5) (s : State),
    let h := s.hart
    let t := h.tag r
    let v := h.queue q.toNat
    let u := s.committed
    let push := Instr.vqpush q r rs1 rd
    let pop := Instr.vqpop q r rs1 rd
    s.calm = true →
    (∀ c, h.conduit q.toNat = some c →
      let ts := channelTokens s c.chan
      let n := ts.length
      let broken := s.completes { h with
        firing := h.firing.map fun f => { f with broken := some q.toNat }, npc := (h.firing.map (·.home)).getD h.npc }
      n + h.vl < 2 ^ 16 →
      ((h.mode = .user ∨ h.claimed = true) →
        exec (.vqcnt q rd) s = .next (s.completes (h.wx rd (BitVec.ofNat 64 (n + 65536 * c.ty.code))))) ∧
      (h.mayVector = true → h.unchained = true → t ≠ .none → h.fits [t] = true →
        (h.vl = 0 → exec push s = .next (s.completes { h.wx rd (status 0 n) with vsta := 0 }) ∧
          exec pop s = .next (s.acquired.completes { h.wx rd (status 0 n) with vsta := 0 })) ∧
        (0 < h.vl → (c.input = true ∨ c.ty ≠ t ∨ c.rate < c.moved + h.vl) → exec push s = .next broken) ∧
        (0 < h.vl → (c.input = false ∨ c.rate < c.moved + h.vl) → exec pop s = .next broken) ∧
        (0 < h.vl → c.moved + h.vl ≤ c.rate →
          (c.input = false → c.ty = t →
            exec push s = .next ((putTokens c.chan (ts ++ (rangeFrom 0 h.vl).map fun e => BitVec.ofNat 64 (h.elem r t.width e)) u).completes
              { (u.hart.moves q.toNat h.vl).wx rd (status 0 (n + h.vl)) with vsta := 0 })) ∧
          (c.input = true → c.ty ≠ t → exec pop s = .next (s.completes { h.wx rd (status 4 c.ty.code) with vsta := 0 })) ∧
          (c.input = true → c.ty = t →
            ∃ k, exec pop s = .next ((putTokens c.chan (ts.drop h.vl) u.acquired).completes k) ∧
              k = { (u.hart.moves q.toNat h.vl).wx rd (status 0 (n - h.vl)) with v := k.v, vsta := 0 } ∧
              (∀ p, p ≠ r → k.v.get p.toFin = h.v.get p.toFin) ∧
              { h with vsta := 0 }.delivered k r t (fun e => decide (e < h.vl)) fun e => (nth ts e 0#64).toNat)))) ∧
    (h.conduit q.toNat = none →
    ((h.mode = .user ∨ h.claimed = true) → exec (.vqcnt q rd) s = .next (s.completes (h.wx rd v.countWord))) ∧
    (h.mayVector = true → h.unchained = true → t ≠ .none → h.fits [t] = true →
      (h.vl = 0 → exec push s = .next (s.completes { h.wx rd (status 0 v.elems.length) with vsta := 0 }) ∧
        exec pop s = .next (s.acquired.completes { h.wx rd (status 0 v.elems.length) with vsta := 0 })) ∧
      (0 < h.vl → v.fits t h.vl = true →
        let es := (rangeFrom 0 h.vl).map fun e => (BitVec.ofNat 64 (h.elem r t.width e), false)
        exec push s = .next (u.completes
          { (u.hart.putQueue q.toNat (v.push t es)).wx rd (status 0 (v.elems.length + h.vl)) with vsta := 0 })) ∧
      (v.fits t h.vl = false → h.rx rs1 = 0#64 → 0 < h.vl →
        exec push s = .next (s.completes { h.wx rd (status 1 v.elems.length) with vsta := 0 })) ∧
      (0 < h.vl → h.vl ≤ v.elems.length → v.tag = t →
        let es := v.elems.take h.vl
        let mark := if (firstMark es).2 then 2 ^ 16 + 2 ^ 17 * (firstMark es).1 else 0
        ∃ k, exec pop s = .next (u.acquired.completes k) ∧
          k = { u.hart.wx rd (status 0 (v.elems.length - h.vl + mark)) with v := k.v, q := k.q, vsta := 0 } ∧
          (∀ p, p ≠ r → k.v.get p.toFin = h.v.get p.toFin) ∧
          (∀ p : BitVec 3, k.queue p.toNat = if p = q then { v with elems := v.elems.drop h.vl } else h.queue p.toNat) ∧
          { h with vsta := 0 }.delivered k r t (fun e => decide (e < h.vl)) fun e => (nth es e (0#64, false)).1.toNat) ∧
      (0 < h.vl → h.vl ≤ v.elems.length → v.tag ≠ t →
        exec pop s = .next (s.completes { h.wx rd (status 4 v.tag.code) with vsta := 0 })) ∧
      (v.elems.length < h.vl → h.rx rs1 = 0#64 →
        exec pop s = .next (s.completes { h.wx rd (status 1 v.elems.length) with vsta := 0 }))))

/-- tlnow writes the completion count. tlwait of a ticket not given out is refused with code 7; of a completed one it acquires and ends with
code 0; of another one it ends with code 1 at deadline 0, and else holds the strand with an absolute expiry, clamped to wceil; a held one
ends with the same codes when its condition is met or at its expiry, where a clamped one takes WAIT_CEILING with the deadline in stval and
rd unchanged. wflag and vwait end with code 0 where the flags pass at issue, and acquire; sync ends with code 0 once the named commands and
chain outputs are done; chwait delivers the status of a chain that does not run (R219, R228 to R230, R236 to R240, R264). -/
def Obligations.WaitsComplete : Prop :=
  (∀ (tl : BitVec 2) (rs2 rs1 rd : BitVec 5) (s : State),
      let h := s.hart
      let T := h.timeline tl
      let n := (h.rx rs1).toNat
      let d := (h.rx rs2).toNat
      let i := Instr.tlwait tl rs2 rs1 rd
      let met := s.acquired.completes (h.wx rd (status 0 T.completed.toNat))
      let unmet := s.completes (h.wx rd (status 1 T.completed.toNat))
      s.calm = true →
      exec (.tlnow tl rd) s = .next (s.completes (h.wx rd T.completed)) ∧
      (T.issued.toNat < n → exec i s = .next (s.completes (h.wx rd (status 7 T.issued.toNat)))) ∧
      (n ≤ T.issued.toNat →
        (n ≤ T.completed.toNat → exec i s = .next met) ∧
        (T.completed.toNat < n → d = 0 → exec i s = .next unmet) ∧
        (T.completed.toNat < n → 0 < d → 0 < h.wceil →
          let w : PendingWait := ⟨i, s.now + min d h.wceil, decide (h.wceil < d), 0#64, [], 0, []⟩
          exec i s = .next (s.withHart { h with wait := some w }))) ∧
      ∀ w, h.status = .running → h.wait = some w → w.instr = i →
        (n ≤ T.completed.toNat → exec .waitConditionMet s = .next met) ∧
        (T.completed.toNat < n → w.expiry ≤ s.now →
          exec .waitExpiry s = .next (if w.clamped then takeTrap 27 (h.rx rs2) s else unmet))) ∧
  (∀ (ge : Bool) (kd : BitVec 3) (rs2 rs1 rd vs : BitVec 5) (s : State) (pa : Nat) (at_ : Nat → Nat),
      let h := s.hart
      let va := (h.rx rs1).toNat
      let v := s.ownValue pa 8
      s.calm = true →
      (s.reaches .load va 8 pa = true → s.ownGood pa 8 = true →
        (flagTest ge v (h.rx rd).toNat = true → exec (.wflag ge rs2 rs1 rd) s = .next (s.acquired.completes (h.wx rd (status 0 v)))) ∧
        (flagTest ge v (h.rx rd).toNat = false → h.rx rs2 = 0#64 →
          exec (.wflag ge rs2 rs1 rd) s = .next ((s.withoutLines pa 8).completes (h.wx rd (status 1 v))))) ∧
      (let u := h.tag (nextReg vs)
        let n := u.width / 8
        let es := h.activeFrom kd 0 h.vl
        h.mayVector = true → h.unchained = true → h.tag vs = .i64 ∨ h.tag vs = .n64 → u ∈ [ETag.i32, .n32, .i64, .n64] →
        h.fits [h.tag vs, u] = true →
        (∀ e ∈ es, s.reaches .load (h.elem vs 64 e) n (at_ e) = true ∧ s.ownGood (at_ e) n = true ∧
          vflagTest ge u (s.ownValue (at_ e) n) (h.elem (nextReg vs) u.width e) = true) →
        exec (.vwait ge kd vs rs1 rd) s = .next ((if es = [] then s else s.acquired).completes
          { (es.foldl (fun k e => k.putKbit kd e false) h).wx rd (status 0 0) with vsta := 0 })) ∧
      (∀ (sc : Scope) (classes : BitVec 5), incomplete s classes.toNat s.nextId (portsOwe h) = 0 →
        let u := if classes.getLsbD 1 || classes.getLsbD 4 then s.committed else s
        let f := if classes.getLsbD 4 then u.withoutText else u
        let a := if classes.getLsbD 0 then f.ordered else f
        exec (.sync sc classes rs1 rd) s = .next (a.completes (a.hart.wx rd (status 0 classes.toNat)))) ∧
      (∀ c : BitVec 2, h.mayVector = true →
        let k := h.chain c.toNat
        (k.state ≠ .running →
          let t := if k.state = .ready ∨ k.state = .broken then s.acquired else s
          exec (.chwait rs2 c rd) s = .next (t.completes (h.wx rd k.statusWord))) ∧
        (k.state = .running → h.rx rs2 = 0#64 →
          exec (.chwait rs2 c rd) s = .next (s.completes (h.wx rd k.statusWord)))))

/-- The reel instructions complete, after a commit: rlnew makes a reel at phase 0 whose one member is the strand; rljoin joins from the
next phase, or at once where no member is; rlleave arrives and leaves at the end of the phase; rlfree dissolves the reel and its
waits; rlarr arrives; rlbar, the last arrival, completes the phase at once and acquires; rlwait acquires where the phase of its token
is past. Operands with a high part, reels that are not, and members out of turn are refused with code 7 and their reason (R242 to
R247). -/
def Obligations.ReelsComplete : Prop :=  ∀ (rs2 rs1 rd : BitVec 5) (s : State),
    let h := s.hart
    let u := s.committed
    let id := (h.rx rs1).toNat
    let reel := findReel s h.launch id
    let gives (i : Instr) (t : State) (w : Word) : Prop := exec i s = .next (t.completes (t.hart.wx rd w))
    s.calm = true →
    (2 ^ 16 ≤ id → ∀ i ∈ [Instr.rlnew rs1 rd, .rljoin rs1 rd, .rlleave rs1 rd, .rlfree rs1 rd, .rlarr rs1 rd, .rlbar rs2 rs1 rd],
      gives i s (status 7 6)) ∧
    (id < 2 ^ 16 → reel = none →
      gives (.rlnew rs1 rd) (putReel ⟨h.launch, id, 0, [h.sid], [], [], []⟩ u) (status 0 (id * 2 ^ 32)) ∧
      ∀ i ∈ [Instr.rljoin rs1 rd, .rlleave rs1 rd, .rlfree rs1 rd, .rlarr rs1 rd, .rlbar rs2 rs1 rd], gives i s (status 7 1)) ∧
    (∀ r : Reel, id < 2 ^ 16 → reel = some r →
      let mine := r.members.contains h.sid
      let joined := mine || r.joining.contains h.sid
      let arrives : Reel := { r with arrived := h.sid :: r.arrived }
      gives (.rlnew rs1 rd) s (status 7 2) ∧
      (joined = true → gives (.rljoin rs1 rd) s (status 7 3)) ∧
      (r.members = [] → joined = false → gives (.rljoin rs1 rd) (putReel { r with members := [h.sid] } u) (status 0 r.token)) ∧
      (r.members ≠ [] → joined = false → gives (.rljoin rs1 rd) (putReel { r with joining := r.joining ++ [h.sid] } u)
        (status 0 (r.id * 2 ^ 32 + (r.phase + 1) % 2 ^ 32))) ∧
      gives (.rlfree rs1 rd) (decideWaits r.launch r.token 1
        { u with reels := u.reels.filter fun q => !(q.launch == r.launch && q.id == r.id) }) (status 0 r.token) ∧
      (mine = false → gives (.rlleave rs1 rd) s (status 7 4) ∧ gives (.rlarr rs1 rd) s (status 7 4) ∧
        gives (.rlbar rs2 rs1 rd) s (status 7 4)) ∧
      (mine = true → r.leaving.contains h.sid = false → gives (.rlleave rs1 rd) (leaveReel h.sid r u) (status 0 r.token)) ∧
      (mine = true → r.arrived.contains h.sid = true → gives (.rlarr rs1 rd) s (status 7 5)) ∧
      (mine = true → r.arrived.contains h.sid = false → gives (.rlarr rs1 rd) (settleReel arrives u) (status 0 r.token) ∧
        ((∀ m ∈ r.members, m = h.sid ∨ m ∈ r.arrived) →
          gives (.rlbar rs2 rs1 rd) (settleReel arrives u).acquired (status 0 r.token)))) ∧
    (2 ^ 48 ≤ id → gives (.rlwait rs2 rs1 rd) s (status 7 6)) ∧
    ∀ r : Reel, id < 2 ^ 48 → findReel s h.launch (id / 2 ^ 32) = some r → r.phase < 2 ^ 32 →
      (r.phase = (id + 1) % 2 ^ 32 → gives (.rlwait rs2 rs1 rd) s.acquired (status 0 id)) ∧
      (r.phase = (id + 2) % 2 ^ 32 → gives (.rlwait rs2 rs1 rd) s (status 2 r.token))

/-- icinv and tlbinv complete with code 0 and the mask of the dies in their scope: they remove there the instruction-cache lines of the
strand's identifier that meet the range, and from every translation cache the identifier's entries that cover the address, or all of
them; tlbinv is a supervisor's, and completes at once where no other strand on those dies has translated an access of the identifier
that it has not performed. No memory and no other register changes but by the commit before (R337, R339, R340, R343; that tlbinv drops every
instruction-cache line of the identifier on those dies is the model's choice, log 22). -/
def Obligations.InvalidationsComplete : Prop :=  ∀ (pkg : Bool) (rs2 rs1 rd : BitVec 5) (s : State),
    let h := s.hart
    let a := (h.rx rs1).toNat
    let n := (h.rx rs2).toNat
    let u := s.committed
    let dies := if pkg then s.svc.dies.toNat else 2 ^ h.place.die
    let gone (core : Nat) : Bool := dies.testBit (core / 256)
    let k := u.hart.wx rd (status 0 dies)
    s.calm = true → h.place.die < 8 → s.svc.dies.getLsbD h.place.die = true →
    (canonical a = true → n ≤ 2 ^ 48 → ∃ ic, exec (.icinv pkg rs2 rs1 rd) s = .next ({ u with icache := ic }.completes k) ∧
      ∀ l, l ∈ ic ↔ l ∈ s.icache ∧ ¬ (gone l.core = true ∧ l.asid = h.asid ∧ n ≠ 0 ∧
        (overlaps l.line 64 a n = true ∨ overlaps (l.line + 2 ^ 64) 64 a n = true))) ∧
    (canonical a = false ∨ 2 ^ 48 < n → exec (.icinv pkg rs2 rs1 rd) s = .next (s.completes (h.wx rd (status 7 1)))) ∧
    (h.mode = .user → exec (.tlbinv pkg rs2 rs1 rd) s = .next (takeTrap 2 (instrBits (.tlbinv pkg rs2 rs1 rd)) s)) ∧
    (h.mode = .supervisor → rs2 = 0#5 ∨ n = h.asid → rs1 = 0#5 ∨ canonical a = true →
      (∀ x ∈ s.parked, x.translates h.asid (fun p => dies.testBit p.2.2 || decide (8 ≤ p.2.2)) = false) → ∃ tb ic,
      exec (.tlbinv pkg rs2 rs1 rd) s = .next ({ u with tlb := tb, icache := ic }.completes k) ∧
      (∀ l, l ∈ tb ↔ l ∈ s.tlb ∧ ¬ (dies.testBit l.site.die = true ∧ l.asid = h.asid ∧ (rs1 = 0#5 ∨ l.covers h.asid a = true))) ∧
      ∀ l, l ∈ ic ↔ l ∈ s.icache ∧ ¬ (gone l.core = true ∧ l.asid = h.asid)) ∧
    (h.mode = .supervisor → rs2 ≠ 0#5 → n ≠ h.asid →
      exec (.tlbinv pkg rs2 rs1 rd) s = .next (s.completes (h.wx rd (status 7 2))))

/-! ### Engine and fabric commands -/

/-- ecopy, egth, esct, efill, ecvt, fput, fget and fcoll whose descriptor or group breaks a rule write code 7 and the reason and issue nothing;
else they commit the strip, take a ticket and queue the command; one without elements or bytes ends at once, where no earlier command holds
its record, an fcoll contributes. Where
the engine has not accepted at deadline 0 they write code 1 and issue nothing. ecan writes code 7 for a ticket not given out, the count
of an ended command's record, and marks one in progress, ending with code 1 at deadline 0 (R228, R229, R303,
R304, R309, R310, R313, R409, R410, R412, R413). -/
def Obligations.CommandsIssue : Prop :=
  (∀ (tl : BitVec 2) (rs2 rs1 rd : BitVec 5) (s : State) (pa : Nat → Nat),
      let h := s.hart
      let p := h.place
      let a := (h.rx rs1).toNat
      let bs := s.structBytes 128 pa
      let d := parseEng bs
      let c := findTicket s tl.toNat a
      let can := exec (.ecan tl rs2 rs1 rd) s
      let bad := a = 0 ∨ (h.timeline tl).issued.toNat < a
      s.calm = true →
      (∀ f ∈ engineIssue,
        (a % 64 ≠ 0 → exec (f.1 tl rs2 rs1 rd) s = .next (takeTrap 4 (BitVec.ofNat 64 a) (s.withHart { h with vsta := 0 }))) ∧
        (s.readsStruct a 128 pa →
          let why := engRefusal s f.2 bs d
          let z := s.withoutStruct a 128 pa
          let r := z.issues tl rd p.die p.cluster ((engineFor s p).getD 0) h.root (.engine f.2 d)
          let t := if d.total = 0 ∧ mustWait r.2 r.1 = false then endCommand r.1 ⟨0, 0, 0, 0⟩ 0 r.2 else r.2
          (why ≠ 0 → exec (f.1 tl rs2 rs1 rd) s = .next (z.completes (h.wx rd (status 7 why)))) ∧
          (why = 0 → exec (f.1 tl rs2 rs1 rd) s = .next (t.completes t.hart)) ∧
          (why = 0 → h.rx rs2 = 0#64 → exec (f.1 tl rs2 rs1 rd) { s with choices := [.late 0] } =
            .next (z.completes (h.wx rd (status 1 0)))))) ∧
      (bad → can = .next (s.completes (h.wx rd (status 7 0)))) ∧
      (¬ bad → c = none → can = .next (s.completes (h.wx rd (status 0 0)))) ∧
      (∀ k e, ¬ bad → c = some k → k.fin = some e →
        let o := match k.body with
          | .coll _ _ => 0
          | _ => 4 * (e.count % 2 ^ 48)
        can = .next (s.completes (h.wx rd (status 0 o)))) ∧
      ∀ k, ¬ bad → c = some k → k.fin = none → k.cancelled = false → h.rx rs2 = 0#64 →
        can = .next ((cancelCollective k (putCmd { k with cancelled := true } s)).completes (h.wx rd (status 1 0)))) ∧
  (∀ (tl : BitVec 2) (rs2 rs1 rd : BitVec 5) (s : State) (pa : Nat → Nat),
      let h := s.hart
      let bs := s.structBytes 64 pa
      let d := parseRem bs
      let e := parseColl bs
      let g := groupOf s h.asid (sub bs 32 2)
      let why := collRefusal s bs e g
      let z := groupSuspect (s.withoutStruct (h.rx rs1).toNat 64 pa) h.asid (sub bs 32 2)
      s.calm = true → s.readsStruct (h.rx rs1).toNat 64 pa →
      (∀ f ∈ ([(.fput, true), (.fget, false)] : List ((BitVec 2 → BitVec 5 → BitVec 5 → BitVec 5 → Instr) × Bool)),
        let why := remRefusal s f.2 bs d g
        (why ≠ 0 → exec (f.1 tl rs2 rs1 rd) s = .next (z.completes (h.wx rd (status 7 why)))) ∧
        (why = 0 → h.rx rs2 = 0#64 → exec (f.1 tl rs2 rs1 rd) { s with choices := [.late 0] } =
          .next (z.completes (h.wx rd (status 1 0)))) ∧
        ∀ k, why = 0 → g = some k →
          let r := z.issues tl rd 0 0 0 (fabricRoot s) (.remote f.2 d k)
          let t := if d.len = 0 ∧ mustWait r.2 r.1 = false then endCommand r.1 ⟨0, 0, 0, 0⟩ 0 r.2 else r.2
          exec (f.1 tl rs2 rs1 rd) s = .next (t.completes t.hart)) ∧
      ((why ≠ 0 → exec (.fcoll tl rs2 rs1 rd) s = .next (z.completes (h.wx rd (status 7 why)))) ∧
        ∀ k, why = 0 → g = some k →
          let t := contributeReady (z.issues tl rd 0 0 0 (fabricRoot s) (.coll e k)).2
          exec (.fcoll tl rs2 rs1 rd) s = .next (t.completes t.hart)))

/-- An engine performs the next element of a command that need not wait: of a copy, the source element is read and written at the
destination as it is, of a fill the value of the descriptor. A faulting element ends the command with code 4; a performed command ends
with code 0 and its count, a cancelled one with code 6 and the elements performed, of a CE8 destination whole blocks, and one whose engine
is lost with code 4 and cause 28 (R304 to R307, R311 to R314, R319; that a CE8 destination's count stops at a block's start is the
model's choice, log 19). -/
def Obligations.EngineStepsComplete : Prop :=  ∀ (n : Nat) (s : State) (c : Cmd) (k : EngKind) (d : EngDesc), findCmd s n = some c → c.body = .engine k d → c.fin = none →
    (c.engineLost s = true → mustWait s c = false →
      let q := if d.dfmt = 0x10 then c.next / 32 * 32 else c.next
      exec (.engineCommandEnd n) s = .next (endCommand c ⟨4, q, 28, 0⟩ 0 s)) ∧
    (c.engineLost s = false → c.next < d.total → c.cancelled = false → mustWait s c = false →
      (∀ r, engElement s c k d = .ok r → exec (.engineElement n) s = .next r.1) ∧
      (∀ e va p, engElement s c k d = .error (e, va, p) → ∀ i, i = .engineElement n ∨ i = .engineCommandEnd n →
        exec i s = .next (faultCommand { c with next := p } e va p s)) ∧
      (k = .copy → d.dfmt = d.sfmt → d.sfmt ≠ 0x10 → ∀ ps pd,
        let w := fmtBytes d.sfmt
        let src := stridedAddr d.sbase c.next (d.used.map fun x => (x.1, x.2.1))
        let dst := stridedAddr d.dbase c.next (d.used.map fun x => (x.1, x.2.2))
        let ag := c.agent s.svc.pkg
        agentAddr s c.realm c.user .load src w = .ok ps → readsBad s ps w = false → agentAddr s c.realm c.user .store dst w = .ok pd →
        exec (.engineElement n) s = .next (putCmd { c with next := c.next + 1 } (noteAsync c.sid ag true dst w
          (homeWrite ag pd (toBytes w (homeRead s ps w)) (noteAsync c.sid ag false src w s))))) ∧
      (k = .fill → d.dfmt ≠ 0x10 → ∀ pd,
        let w := fmtBytes d.dfmt
        let dst := stridedAddr d.dbase c.next (d.used.map fun x => (x.1, x.2.2))
        let ag := c.agent s.svc.pkg
        agentAddr s c.realm c.user .store dst w = .ok pd → exec (.engineElement n) s = .next
          (putCmd { c with next := c.next + 1 } (noteAsync c.sid ag true dst w (homeWrite ag pd (toBytes w d.xbase) s))))) ∧
    (c.engineLost s = false → d.total ≤ c.next → mustWait s c = false → exec (.engineCommandEnd n) s = .next (endCommand c ⟨0, d.total, 0, 0⟩ (recordWord c true) s)) ∧
    (c.engineLost s = false → c.next < d.total → c.cancelled = true → mustWait s c = false →
      let q := if d.dfmt = 0x10 then c.next / 32 * 32 else c.next
      exec (.engineCommandEnd n) s = .next (endCommand c ⟨6, q, 0, 0⟩ (recordWord c false) s))

/-- The end of an fput or fget that need wait for no earlier command, by its ranges or by ord, performs its local accesses for the
bytes answered for, and ends the command: DONE where they are all, else CANCELLED with the count, or FAULT with the cause of the first
local fault, else of the other side, and where it was: the location given, the remote address of a refusal, the place where a lost path
has stopped it. A request of another package is performed and
answered where this package accepts it, and refused with cause C0 otherwise, an uncorrectable word met on the way being suspect. A port that trains or is lost shows in the register of
ports; with the last one lost, every remote command that need not wait ends with cause C1 (R314, R405, R407, R411, R412). The model's
choices, log 29: where C1 says that it was, that another package's accesses run with user privilege, that a remote addition's classes come
in the low bits of the location operand, and that add's count is one of elements. -/
def Obligations.FabricStepsComplete : Prop :=  ∀ s : State,
    (∀ (n count : Nat) (cause : BitVec 8) (loc : Word) (data : List Byte) (c : Cmd) (put : Bool) (d : RemDesc) (g : Group),
      findCmd s n = some c → c.body = .remote put d g → c.fin = none → mustWait s c = false → ordWait s c d g = false →
      remoteCause cause.toNat = true →
      count ≤ d.len → (cause = 0#8 → c.cancelled = false → count = d.len) → d.unit = 0 ∨ count % d.unit = 0 →
      put = true ∨ data.length = count → (cause = 0xC0#8 → count = 0) →
      let r := localPart c put d g count data s
      let done (n : Nat) : Nat := if d.unit = 0 then n else n / d.unit
      (r.2 = none → cause = 0#8 → exec (.fabricCommandEnd n cause count loc data) s =
        .next (endCommand c ⟨if count = d.len then 0 else 6, done count, 0, 0⟩ (if d.unit = 0 then 0 else loc.toNat % 64) r.1)) ∧
      (r.2 = none → cause ≠ 0#8 →
        let at_ := if cause = 0xC0#8 then d.raddr else if cause = 0xC1#8 then (d.raddr + count) % 2 ^ 64 else loc.toNat
        exec (.fabricCommandEnd n cause count loc data) s = .next (endCommand c ⟨4, done count, cause.toNat, at_⟩ at_ r.1)) ∧
      ∀ e off, r.2 = some (e, off) →
        let va := (d.laddr + off) % 2 ^ 64
        let at_ := if e = 28 then 0 else va
        exec (.fabricCommandEnd n cause count loc data) s =
          .next (endCommand c ⟨4, done off, e, at_⟩ at_ (suspectAt c.realm c.user e va r.1))) ∧
    (∀ (kind : RemoteKind) (asid tag pkg from_ addr len : Nat) (data : List Byte),
      let i := Instr.fabricRemoteRequest kind asid tag pkg from_ addr len data
      let leaving (t : State) (bad : Option (Nat × Nat)) (got : List Byte) : State :=
        match bad with
        | none => { t with fabricOut := t.fabricOut ++ [.reply pkg false 0 0 got] }
        | some (c, off) =>
          let u := match findSpace s asid with
            | some sp => suspectAt (packageRealm sp.asid (nth sp.roots 0 0)) true c ((addr + off) % 2 ^ 64) t
            | none => t
          { u with fabricOut := u.fabricOut ++ [.reply pkg false (if c = 28 then 0x9C else 0x80 + c) ((addr + off) % 2 ^ 64) got] }
      let z := if s.svc.fabEn = true ∧ (findSpace s asid).isSome = true
        then (rangeFrom 0 ((fgtOf s asid).toNat % 4096)).foldl (fun t g => groupSuspect t asid g) s else s
      (acceptsRequest s asid tag pkg from_ = false →
        exec i s = .next { z with fabricOut := s.fabricOut ++ [.reply pkg true 0xC0 addr []] }) ∧
      ∀ sp, acceptsRequest s asid tag pkg from_ = true → findSpace s asid = some sp →
        let realm := packageRealm sp.asid (nth sp.roots 0 0)
        let rd := readUnits s realm true addr (unitsOf 0 addr len) []
        let wr := writeUnits (.remote pkg) realm true addr data (unitsOf 0 addr data.length) z
        (kind = .read → exec i s = .next (leaving z rd.2 rd.1)) ∧ (kind = .write → exec i s = .next (leaving wr.1 wr.2 [])) ∧
        ∀ t rm, kind = .addToken t rm → VAmo.add.accepts t = true →
          let ad := addUnits (.remote pkg) realm true t (RMode.ofCode rm) addr data (unitsOf (t.width / 8) addr data.length) z
          exec i s = .next (leaving ad.1 ad.2 [])) ∧
    ∀ p, p < 18 →
      (s.svc.fabUp.getLsbD p = false → ∃ v : BitVec 18,
        exec (.fabricPortTrained p) s = .next { s with svc := { s.svc with fabUp := v } } ∧
        v.getLsbD p = true ∧ ∀ j, j ≠ p → v.getLsbD j = s.svc.fabUp.getLsbD j) ∧
      (s.svc.fabUp.getLsbD p = true → ∃ v : BitVec 18, v.getLsbD p = false ∧ (∀ j, j ≠ p → v.getLsbD j = s.svc.fabUp.getLsbD j) ∧
        let t := { s with svc := { s.svc with fabUp := v } }
        exec (.fabricPortLost p) s = .next (if v ≠ 0#18 then t else t.cmds.foldl (fun t c =>
          match c.body with
          | .remote _ d _ => if c.fin.isNone && !mustWait t c then endCommand c ⟨4, 0, 0xC1, d.raddr⟩ d.raddr t else t
          | _ => t) t))

/-- The switch takes a contribution into its collective, beginning it with the first; a repeated index aborts with reason 2 until Commit,
and one that comes after the decision changes nothing but that its member learns the outcome, or reason 6 where the decision lies more
than 2^31 sequence numbers back. Before Commit an expiry aborts with reason 1 and a lost member with 4, and Commit comes before the
expiry. A member takes its result into its stage and acknowledges it; at Commit, once every member has, each that has its result copies its
stage to its destination and ends DONE, a member whose contribution arrives after it too; at an abort it ends FAILED with the reason, its
stage of no stated value, unless what it sends would come too late for the outcome (R415, R416). -/
def Obligations.CollectiveStepsComplete : Prop :=  ∀ s : State,
    (∀ m : Contribution,
      let k : Collective := ⟨m.tag, m.seq, m.op, m.fmt, m.count, m.root, m.members, m.rm, m.cdl, s.now + m.cdl, [], [], [], .pending⟩
      (findCollective s m.tag m.seq = none →
        exec (.collectiveContribution m) s = .next { s with collectives := s.collectives ++ [arrive m k] }) ∧
      ∀ c, findCollective s m.tag m.seq = some c →
        let open_ := c.outcome = .pending ∨ ∃ r cls, c.outcome = .result r cls
        let learns (c : Collective) (stale : Bool) : Prop :=
          exec (.collectiveContribution m) s = .next (putCollective { c with late := (m.self, stale) :: c.late } s)
        (open_ → s.now < c.expiry → exec (.collectiveContribution m) s = .next (putCollective (arrive m c) s) ∧
          (m.self ∈ c.got.map (·.1) → exec (.collectiveContribution m) s = .next (putCollective (c.abort 2) s))) ∧
        (open_ → c.expiry ≤ s.now → learns (c.abort 1) (decide (2 ^ 31 < movedSince s.collectives (c.abort 1)))) ∧
        (¬ open_ → learns c (decide (2 ^ 31 < movedSince s.collectives c)))) ∧
    (∀ tag seq k, findCollective s tag seq = some k → k.outcome = .pending ∨ (∃ r cls, k.outcome = .result r cls) →
      (k.expiry ≤ s.now → exec (.collectiveExpiry tag seq) s = .next (putCollective (k.abort 1) s)) ∧
      ∀ m, m < k.n → s.now < k.expiry → exec (.collectiveMemberLost tag seq m) s = .next (putCollective (k.abort 4) s)) ∧
    (∀ tag seq k r cls acks, findCollective s tag seq = some k →
      let own := ownMembers s tag seq
      let ready := own.filter fun x => x.1.next == 2
      let t := ready.foldl (fun s x => commitMember x.1 x.2.1 x.2.2 s) s
      (k.outcome = .result r cls → s.now < k.expiry → (∀ m, m < k.n → m ∈ k.acks ∨ (m ∈ acks ∧ ∀ x ∈ own, x.2.2.self ≠ m)) →
        exec (.collectiveCommit (tag, seq) acks) s =
          .next (putCollective { k with outcome := .committed r cls, acks := rangeFrom 0 k.n } t)) ∧
      (k.outcome = .committed r cls → ready ≠ [] → exec (.collectiveCommit (tag, seq) acks) s = .next t)) ∧
    ∀ n c d g, memberCmd s n = some (c, d, g) →
      (∀ k cls data, c.next = 1 → data.length = (collCounts d g).2 → findCollective s g.tag d.seq = some k →
        (∃ r, ((k.outcome = .result r cls ∧ c.pend = []) ∨ (k.outcome = .committed r cls ∧ k.staleFor g.self = false ∧ (g.self, false) ∈ k.late)) ∧
          nth r g.self [] = data) →
        let w := fmtBytes d.fmt
        let t := putCmd { c with next := 2, cls := cls } (writeElems true c d.stg w (data.map (·.toNat)) 0 s)
        exec (.collectiveResultReceive n data cls) s = .next (putCollective { k with acks := setAdd g.self k.acks }
          { t with fabricOut := t.fabricOut ++ [.ack g.tag d.seq g.self] })) ∧
      ∀ k reason mask, c.next ≠ 0 ∨ mustWait s c = false → findCollective s g.tag d.seq = some k →
        (k.staleFor g.self = false → k.outcome = .aborted reason mask ∧
          ((g.self, false) ∈ k.late ∨ g.self ∈ k.got.map (·.1) ∨ movedSince s.collectives k ≤ 2 ^ 31)) → (k.staleFor g.self = true → reason = 6) →
        let m := (collCounts d g).2
        let vs := (rangeFrom 0 m).map fun i => (Config.freeWord (s.free + i)).toNat % 2 ^ (8 * fmtBytes d.fmt)
        exec (.collectiveAbortReceive n reason mask) s = .next (endCollective c d g 7 reason 0#6 mask
          (writeElems false c d.stg (fmtBytes d.fmt) vs 0 { s with free := s.free + m }))

/-! ### Chains -/

/-- The chain instructions complete: chcfg reads its record and configures a handle that does not run; chrun starts a READY chain with
its quota after a commit, or records why it does not; chbrk cuts a running chain; chres gives a BROKEN one its grant afresh and runs
it; chfree cuts and releases, and a running chain that it was linked to receives the notice behind what it has been sent, to be cut with LINK when
it takes it, or at once where a choice says so; chstat reads. A handle that runs, or is BROKEN, refuses chcfg and chrun with a shape fault. chsave and
chload, a supervisor's, move an image: one whose fields, header or record are not valid traps with cause 5, and any other gives the
handle the state, the record, the counts and the constants that it holds (R216 to R219, R222, R225, R226). The model's choices: a handle
that holds that image already is granted afresh, and a stored image brings back the chain stored (log 13); chcfg reads only the 16 bytes of
an invalid header, and when the notice of a freed peer is received (log 21); a refused chload leaves vsta (log 34). -/
def Obligations.ChainInstructionsComplete : Prop :=  ∀ (c : BitVec 2) (rs2 rs1 rd : BitVec 5) (s : State) (pa : Nat → Nat),
    let h := s.hart
    let ci := c.toNat
    let k := h.chain ci
    let a := (h.rx rs1).toNat
    let u := s.committed
    let at_ (w : Word) : State := modChain ci (fun k => { k with last := some w }) s
    let done (i : Instr) (t : State) : Prop := exec i s = .next (t.completes t.hart)
    let resumed : State := u.withHart (markSliced ci u.hart)
    let ws := rangeFrom 0 (imageBytes / 8)
    let word (i : Nat) : List Byte := ((h.image ci).drop (8 * i)).take 8
    let walks := s.walkedAll (ws.map fun i => (a + 8 * i) % 2 ^ 64)
    s.calm = true → h.mayVector = true →
    (k.state ≠ .running → k.state ≠ .broken → s.readsStruct a 16 pa →
      let head := s.structBytes 16 pa
      (headerValid head = false → done (.chcfg rs1 c) (configure ci head (s.withoutStruct a 16 pa))) ∧
      (headerValid head = true → s.readsStruct a (recordLength head) pa →
        done (.chcfg rs1 c) (configure ci (s.structBytes (recordLength head) pa)
          ((s.withoutStruct a 16 pa).withoutStruct a (recordLength head) pa)))) ∧
    (k.state = .running ∨ k.state = .broken → ∀ i ∈ [Instr.chcfg rs1 c, .chrun rs1 c], exec i s = .next (s.checkFault 24 i)) ∧
    (k.state = .free → done (.chrun rs1 c) (at_ (chainWord 7 0 17))) ∧
    (k.state = .rejected → done (.chrun rs1 c) (at_ (chainWord 7 0 k.reject))) ∧
    (k.state = .ready → a = 0 → done (.chrun rs1 c) (at_ (chainWord 0 0 0))) ∧
    (k.state = .ready → 0 < a → 2 ^ 48 < a ∨ quotaBreaks h k a = true → done (.chrun rs1 c) (at_ (chainWord 7 0 16))) ∧
    (k.state = .ready → 0 < a → a ≤ 2 ^ 48 → quotaBreaks h k a = false →
      done (.chrun rs1 c) (settle ci (modChain ci (fun k => { k with
        state := .running, cause := 0, quota := a, stages := k.stages.map fun t => { t with inRun := 0 } }) resumed))) ∧
    done (.chbrk c) (if k.state = .running then requestCut ci s else s) ∧
    done (.chres c) (if k.state = .broken then
      settle ci (modChain ci (fun k => { k with state := .running, cause := 0 }) (regrant ci resumed)) else s) ∧
    done (.chfree c) (if k.state = .free then s else dropChain ci (if k.state = .running then requestCut ci s else s)) ∧
    (∀ l sid p j f, k.state = .ready → k.links = [l] → l.peer = some (sid, p, j) → sid ≠ h.sid → findStrand s sid = some f →
      f.kept.length ≤ p → (f.chain p).runs = true → j < (f.chain p).links.length → ((f.chain p).link j).marks = [] →
      (∃ t g, exec (.chfree c) s = .next t ∧ findStrand t sid = some g ∧ (g.chain p).state = .running ∧
        ((g.chain p).link j).marks = [freedMark] ∧ ((g.chain p).link j).peer = none) ∧
      ∃ t g, exec (.chfree c) { s with choices := [.held] } = .next t ∧ findStrand t sid = some g ∧ (g.chain p).state = .broken ∧
        (g.chain p).cause = 4) ∧
    exec (.chstat rs2 c rd) s = .next (s.completes (h.wx rd (chstatValue s ci (h.rx rs2).toNat))) ∧
    (h.mode = .user → ∀ i ∈ [Instr.chsave rs1 c, .chload rs1 c], exec i s = .next (takeTrap 2 (instrBits i) s)) ∧
    (h.mode = .supervisor → k.state ≠ .running → a % 64 = 0 →
      ((∀ i ∈ ws, s.reaches .store ((a + 8 * i) % 2 ^ 64) 8 (pa i) = true) →
        done (.chsave rs1 c) (ws.foldl (fun t i => t.stored ((a + 8 * i) % 2 ^ 64) (heldOf false (pa i) (word i)))
          { walks with images := (h.image ci, k) :: s.images })) ∧
      (s.readsStruct a imageBytes pa →
        let t := ws.foldl (fun t i => t.withoutLines (pa i) 8) walks
        let bs := s.structBytes imageBytes pa
        let st := sub bs 0 8 % 8
        let raw0 := (bs.drop 64).take 832
        let raw := raw0.take (recordLength raw0)
        let badField := (imageFields bs false).any (·.2)
        let badRecord := !headerValid raw0 || ofBytes (raw0.drop (recordLength raw0)) != 0
        let refused : Prop := exec (.chload rs1 c) s = .next (takeTrap 5 (BitVec.ofNat 64 a) t)
        (badField = true → refused) ∧
        (badField = false →
          (st = 0 → done (.chload rs1 c) (dropChain ci t)) ∧
          (st = 1 → done (.chload rs1 c) (modChain ci (fun _ =>
            { Chain.free with state := .rejected, reject := sub bs 0 8 / 2 ^ 10 % 64 }) (dropChain ci t))) ∧
          (2 ≤ st → badRecord = true → refused) ∧
          (2 ≤ st → badRecord = false →
            (∀ n, checkRecord t ci 1 raw = .error n → refused) ∧
            ∀ types, checkRecord t ci 1 raw = .ok types →
              (k.raw = raw → h.image ci = bs → done (.chload rs1 c) (regrant ci t)) ∧
              (k.raw ≠ raw ∨ h.image ci ≠ bs → ∃ (b : Chain) (w : State), done (.chload rs1 c) (installChain ci b w) ∧
                w.sameMemory s ∧ w.hart.x = h.x ∧ w.hart.v = h.v ∧
                (s.images.find? (fun x => x.1 == bs) = none →
                  b.state = (if st = 2 then .ready else .broken) ∧ b.raw = raw ∧ b.rcd = parseRecord raw ∧ b.rm = sub bs 0 8 / 16 % 8 ∧
                  b.last = some (BitVec.ofNat 64 (sub bs 8 8)) ∧ b.consts = (rangeFrom 0 32).map (fun i => BitVec.ofNat 64 (sub bs (896 + 8 * i) 8)) ∧
                  (∀ i, i < types.length → (b.st i).produced = sub bs (1152 + 48 * i) 8 ∧ (b.st i).consA = sub bs (1160 + 48 * i) 8 ∧
                    (b.st i).resTy = (nth types i (.none, .none)).2) ∧
                  ∀ p, p < b.ports.length → (b.portSt p).cursor = sub bs (1920 + 8 * p) 8) ∧
                ∀ x, s.images.find? (fun x => x.1 == bs) = some x → b.state = x.2.state ∧ b.raw = x.2.raw ∧ b.consts = x.2.consts)))))

/-- Chains that run take their steps as agents of the strand. A unit of an element stage whose sources each have a next element and
whose destination has room takes one element of each and delivers the operation's value with the or of the marks: queues lose their
oldest element, counts and cursors move by one, memory changes only under an output port. A step of the stage performs such units up to
the end of the element group in hand, as far as sources, destination and quota allow them; where one of them faults or meets an
uncorrectable word the chain is cut with nothing of the group performed; the step of the port that the stage feeds is that step. Any
group that attempt performs, ends or cuts is taken. A stream or near port reads its next element or block ahead, or, where that faults,
nothing; an element that has been sent arrives on its link; a marker of causes 1 to 5 breaks the chain with cause PEER, the notice of a
freed peer with cause LINK; a pass of Temporal is steps of stages, downstream ones first, none only where none is possible (R58, R209,
R214, R220 to R224, R261; that an element group is one step, and the notice itself, are the model's choice, log 21). -/
def Obligations.ChainStepsComplete : Prop :=  ∀ (c : BitVec 2) (s : State),
    let h := s.hart
    let ci := c.toNat
    let k := h.chain ci
    h.status = .running →
    (k.runs = true → k.links = [] → s.upsets = [] → h.bad = [] → h.badSlice = [] → ∀ i op imm, i < k.stages.length → k.mayBegin i = true →
      stageOp (k.ent i).inst = some (op, imm) → op.elementwise = true →
      let e := k.ent i
      let srcs := e.operands
      let ty := (k.st i).resTy
      let n := (k.st i).produced
      let v := s.stageResult ci i op imm
      let mark := (s.nextAll ci i srcs).2
      let reads (sel : Nat) : Bool := (srcs.map (·.2)).contains sel
      h.lown ≤ 256 → (∀ x ∈ srcs, (s.nextOf ci i x.1 x.2).isSome) → s.hasRoom ci i = true → reads e.selD = false ∨ selKind e.selD = 0 ∨ selKind e.selD = 6 →
      ((srcs.map (·.2)).filter fun x => selKind x == 1 || selKind x == 2).Nodup →
      ∃ t w, unit ci i s = .ok () t ∧ exec (.chainStageUnit c i) s = .next w ∧
        (∀ p, e.selD = 64 + p → (∀ j, j < i → (k.ent j).selD ≠ 64 + p) → exec (.portElementWrite c p) s = .next w) ∧
        let m := t.hart.chain ci
        (m.st i).produced = n + 1 ∧ (m.st i).inRun = (k.st i).inRun + 1 ∧
        (∀ j, j < 3 → (m.st i).taken j = (k.st i).taken j + (srcs.countP fun x => x.1 == j)) ∧
        (∀ q, q < 8 → t.hart.queue q = if reads (32 + q) then { h.queue q with elems := (h.queue q).elems.drop 1 }
          else if e.selD = 32 + q then (h.queue q).push ty [(BitVec.ofNat 64 v, mark)] else h.queue q) ∧
        (∀ p, p < k.ports.length → (m.portSt p).cursor = (k.portSt p).cursor + if reads (64 + p) || e.selD == 64 + p then 1 else 0) ∧
        (selKind e.selD = 0 → ∀ x, x < h.cap ty → t.hart.elem (BitVec.ofNat 5 (selIdx e.selD)) ty.width x =
          if x = n % k.vlc then v % 2 ^ ty.width else h.elem (BitVec.ofNat 5 (selIdx e.selD)) ty.width x) ∧
        (∀ r : BitVec 5, e.selD ≠ r.toNat → t.hart.v.get r.toFin = h.v.get r.toFin) ∧ t.hart.x = h.x ∧
        (selKind e.selD = 6 → ofBytes (Memory.getBytes t.hart.slices (slicePlace h e.selD ty.width n) (ty.width / 8)) = v % 2 ^ ty.width) ∧
        (selKind e.selD ≠ 2 → s.sameMemory t) ∧
        ∀ p pa, e.selD = 64 + p → (k.portEnt p).format < 15 → (k.portEnt p).mode ≠ 2 → lost s pa = false →
          agentAddr s h.realm k.user .store (portAddr (k.portEnt p) (k.portSt p).cursor).1 (k.portEnt p).bytes = .ok pa →
          s.sameMemoryOutside t pa (k.portEnt p).bytes ∧
            ∀ b, b < (k.portEnt p).bytes → t.mem.get (pa + b) = BitVec.ofNat 8 (v / 2 ^ (8 * b))) ∧
    (k.runs = true → k.links = [] → s.upsets = [] → ∀ i n t, i < k.stages.length → k.mayBegin i = true → 0 < n → n ≤ 32 →
      groupUnits ci i n s = some t →
      let d := t.hart.chain ci
      let rests := d.atGroupEnd i = true ∨ d.mayBegin i = false
      (rests ∨ (∃ x w, unit ci i t = .error x w ∧ x.cuts = false) → exec (.chainStageUnit c i) s = .next (settle ci t)) ∧
      (¬ rests → n < 32 → ∀ x w, unit ci i t = .error x w → x.cuts = true → exec (.chainStageUnit c i) s = .next (cutBy ci x s))) ∧
    (k.runs = true → ∀ i, i < k.stages.length → ∀ t : State,
      attempt ci i (bindLinks ci s) = .moved t ∨ attempt ci i (bindLinks ci s) = .cut t →
      exec (.chainStageUnit c i) s = .next t ∧
      ∀ p, (∀ j, j < i → (k.ent j).selD ≠ 64 + p) → (k.ent i).selD = 64 + p → exec (.portElementWrite c p) s = .next t) ∧
    (k.runs = true → ∀ p, p < k.ports.length → (k.portEnt p).dir = 0 → (k.portEnt p).mode ≠ 1 →
      let e := k.portEnt p
      let q := k.portSt p
      let n := q.cursor + q.ahead.length
      let ahead (v : Nat) : State := modChain ci (fun k => k.modPort p fun q => { q with ahead := q.ahead ++ [v] }) s
      let reads (va pa : Nat) (n : Nat) : Prop := agentAddr s h.realm k.user .load va n = .ok pa ∧ readsBad s pa n = false
      let fails : Prop := ∃ l tb, exec (.portElementRead c p) s = .next { s with suspect := l, tlb := tb } ∧ ∀ x ∈ tb, x ∈ s.tlb
      let va (i : Nat) : Nat := ((e.base + 4 * (q.word + (q.pend.head?.map ce8Words).getD 0)) % 2 ^ 64 + 4 * i) % 2 ^ 64
      (e.format ≠ 0x10 → n < e.count →
        (∀ pa, reads (portAddr e n).1 pa e.bytes → exec (.portElementRead c p) s = .next (ahead (homeRead s pa e.bytes))) ∧
        ((∀ pa, ¬ reads (portAddr e n).1 pa e.bytes) → fails)) ∧
      (e.format = 0x10 → q.cursor + q.pend.length < e.count → q.ahead = [] →
        (∀ pa : Nat → Nat, (∀ i, i ≤ homeRead s (pa 0) 4 / 1024 % 64 → reads (va i) (pa i) 4) →
          exec (.portElementRead c p) s = .next (ahead ((rangeFrom 0 (homeRead s (pa 0) 4 / 1024 % 64 + 1)).foldl
            (fun b i => b + homeRead s (pa i) 4 * 2 ^ (32 * i)) 0))) ∧
        (fails ∨ ∃ v, exec (.portElementRead c p) s = .next (ahead v)))) ∧
    (∀ l sid p j f ty v mark rest, (k.link l).peer = some (sid, p, j) → findStrand s sid = some f →
      ((f.far p).link j).wire = (ty, v, mark) :: rest →
      exec (.linkElementReceive c l ty v mark) s = .next (modChain ci
        (fun k => k.modLink l fun x => { x with rx := slotPut x.rx (ty, v, mark) })
        (modStrand sid (fun g => g.modFar p fun k => k.modLink j fun x => { x with wire := rest }) s))) ∧
    (∀ l m ms, (k.link l).marks = m :: ms → exec (.cutMarkerReceive c l m) s = .next
      (markerIn ci l m (modChain ci (fun k => k.modLink l fun x => { x with marks := ms }) s))) ∧
    (∀ l m ms, k.runs = true → (k.link l).marks = m :: ms → m ≠ 7 → ∃ t, exec (.cutMarkerReceive c l m) s = .next t ∧
      (t.hart.chain ci).state = .broken ∧ (t.hart.chain ci).cause = if m = freedMark then 4 else 6) ∧
    (k.runs = true → k.tgrant = true → exec (.temporalPass c) s = .next (pass ci s)) ∧
    (k.runs = true → k.tgrant = true → k.links = [] → k.complete = false → ∃ is t, is.Pairwise (fun i j => j ≤ i) ∧
      unitsRun c is s = some t ∧ exec (.temporalPass c) s = .next t ∧
      (is = [] → ∀ i, i < k.stages.length → exec (.chainStageUnit c i) s = .refused (.stepNotEnabled "stage")))

/-! ### Homes, memories and repair -/

/-- Accesses of agents outside the strands reach the home: an aligned access of 1, 2, 4 or 8 bytes, a token, a BAR4 access of any
size. A write is performed whole; a read of good bytes returns them and changes nothing else. A token returns the old value; one whose
word cannot be read writes nothing (R251, R269, R316; that the agent of a home access is the host, and that a token is one of a remote
agent of this package, are the model's choice, log 10). -/
def Obligations.HomeAccessesComplete : Prop :=  ∀ (s : State) (pa n : Nat) (data cmp : Word) (rm : Nat) (op : TokenOp) (ty : ETag) (bs : List Byte),
    let got : State := { s with hostRead := homeBytes s pa n }
    let free (i : Instr) : Prop := ∃ bytes l, bytes.length = n ∧
      exec i s = .next { s with free := s.free + 1, suspect := l, hostRead := bytes }
    (wordAccess pa n = true → inHbm s pa = true ∨ inTile s pa = true →
      exec (.homeAccessApply true pa n data) s = .next (homeWrite .host pa (toBytes n data.toNat) s) ∧
      (readsBad s pa n = false → exec (.homeAccessApply false pa n data) s = .next got) ∧
      (readsBad s pa n = true → free (.homeAccessApply false pa n data))) ∧
    (tokenAccepts op ty = true → n = ty.width / 8 → pa % n = 0 → inHbm s pa = true ∨ inTile s pa = true →
      (readsBad s pa n = false →
        let w := tokenApply op ty (RMode.ofCode rm) (homeRead s pa n) (data.toNat % 2 ^ ty.width) (cmp.toNat % 2 ^ ty.width)
        let t := match w with
          | some v => homeWrite (.remote s.svc.pkg) pa (toBytes n v) s
          | none => s
        exec (.updateTokenApply op ty pa data cmp rm) s = .next { t with hostRead := homeBytes s pa n }) ∧
      (readsBad s pa n = true → ∃ l,
        exec (.updateTokenApply op ty pa data cmp rm) s = .next { s with free := s.free + 1, suspect := l })) ∧
    (bs ≠ [] → inHbm s pa = true → inHbm s (pa + bs.length - 1) = true →
      exec (.hostBar4Write pa bs) s = .next (homeWrite .host pa bs s)) ∧
    (0 < n → inHbm s pa = true → inHbm s (pa + n - 1) = true →
      (readsBad s pa n = false → exec (.hostBar4Read pa n) s = .next got) ∧ (readsBad s pa n = true → free (.hostBar4Read pa n)))

/-- A scrub corrects a single-bit error and logs it as kind 5, and poisons a word with more, as kind 6; a word without error stays as it
is, and one that it finds poisoned is suspect, as are those that it or a sparing poisons. A suspect word whose stored bits were intact becomes readable. A spared row keeps its words, poisons those that
could not be read, each logged as kind 6, and is logged as kind 7 (R301, R319, R355, R364, R404; the place field of an entry, memLoc, is
the model's choice where R404 does not give it, log 23). -/
def Obligations.ScrubsComplete : Prop :=  ∀ (s : State) (pa err bytes : Nat) (ws : List Nat),
    (pa % 8 = 0 → lost s pa = false →
      ∀ i, (i = Instr.patrolScrub pa err ∧ inTile s pa = true) ∨
          (i = .fixerScrub pa err ∧ inHbm s pa = true ∧ s.live.contains (regionOf pa) = true) →
        (s.poison.contains pa = true → exec i s = .next (suspectRead pa 1 s)) ∧
        (err = 0 → s.poison.contains pa = false → exec i s = .next s) ∧
        (err = 1 → s.poison.contains pa = false → exec i s = .next (rasLog 5 (memLoc pa) pa s)) ∧
        (1 < err → s.poison.contains pa = false → exec i s = .next (rasLog 6 (memLoc pa) pa (suspectRead pa 1 (poisonWord pa s))))) ∧
    (s.suspect.contains pa = true → lost s pa = false →
      let calm := s.suspect.filter (· != pa)
      exec (.suspectReread pa false) s = .next { s with suspect := calm } ∧
      exec (.suspectReread pa true) s = .next { s with suspect := calm, poison := s.poison.filter (· != pa) }) ∧
    (pa % 8 = 0 → bytes % 8 = 0 → lost s pa = false →
      ∀ i, (i = Instr.rowSparing pa bytes ws ∧ inHbm s pa = true ∧ inHbm s (pa + bytes - 1) = true) ∨
          (i = .bankRowSparing pa bytes ws ∧ inTile s pa = true ∧ inTile s (pa + bytes - 1) = true) →
        exec i s = .next (rasLog 7 (memLoc pa) pa ((ws.filter fun w => w % 8 == 0 && decide (pa ≤ w) && decide (w < pa + bytes)).foldl
          (fun s w =>
            let t := suspectRead w 1 (poisonWord w s)
            if (poisonWord w s).poison = s.poison then t else rasLog 6 (memLoc w) w t) s)))

/-- The memory devices take their steps without a change of contents: a line moves between the memory-side cache and the array by the
write queue; the writes of a channel drain oldest first, down to the low watermark once the high one is reached, else one; an activation
of a row in a live region is counted, and one that reaches thr has its neighbours within radius refreshed and its counter freed, with an
entry of the log; a refresh window clears its bank's counters. WMARK and HROW take legal values, ELIDE clears a region, and a watchpoint of
src 3 sees these writes (R287, R354, R356, R357, R359, R360, R364, R367). The model's choices: the entry of a tracker event has a free
kind (log 23), and the writer of a control register here is the running strand (log 10). -/
def Obligations.MemoryDevicesComplete : Prop :=  ∀ (s : State) (line k chan bank row pa : Nat) (v : Word),
    let r := stackReg s k
    let there := s.svc.hbmStacks.getLsbD k = true
    let rows := countRow k bank row s
    let here (c : RowCounter) : Bool := c.stack == k && c.bank == bank && c.row == row
    let seen := ctlWatched s.hart.agent k
    (inHbm s line = true → line % 64 = 0 →
      (s.mscLines.contains line = true → exec (.memorySideCacheLineMove line true) s = .next { s with
        mscLines := s.mscLines.filter (· != line), writeQueue := s.writeQueue ++ [(line / 2 ^ 36, chanOf line, line)] }) ∧
      (s.mscLines.contains line = false →
        exec (.memorySideCacheLineMove line false) s = .next { s with mscLines := setAdd line s.mscLines })) ∧
    (0 < queued s k chan →
      let mine (w : Nat × Nat × Nat) : Bool := w.1 == k && w.2.1 == chan
      let high := r.hi * Config.writeQueueEntries ≤ 64 * queued s k chan
      ∃ q, exec (.writeQueueDrain k chan) s = .next { s with writeQueue := q } ∧ q.Sublist s.writeQueue ∧
        (q.filter fun w => !mine w) = (s.writeQueue.filter fun w => !mine w) ∧
        q.filter mine = (s.writeQueue.filter mine).drop (if high then queued s k chan - r.lo * Config.writeQueueEntries / 64 else 1) ∧
        (high → r.lo * Config.writeQueueEntries / 64 ≤ queued s k chan →
          (q.filter mine).length = r.lo * Config.writeQueueEntries / 64)) ∧
    (there → pa / 2 ^ 36 = k → s.live.contains (regionOf pa) = false → exec (.rowActivate pa bank row) s = .next s) ∧
    (there → pa / 2 ^ 36 = k → s.live.contains (regionOf pa) = true →
      ((∀ c ∈ rows, here c = true → c.count < r.thr) → exec (.rowActivate pa bank row) s = .next { s with rows := rows }) ∧
      (∀ c ∈ rows, here c = true → r.thr ≤ c.count → ∃ near, exec (.rowActivate pa bank row) s = .next (rasLogOther k 0 { s with
          rows := rows.filter fun c => !here c, refreshed := s.refreshed ++ near }) ∧
        ∀ x, x ∈ near ↔ x.1 = k ∧ x.2.1 = bank ∧ x.2.2 ≠ row ∧ row - r.radius ≤ x.2.2 ∧ x.2.2 ≤ row + r.radius)) ∧
    (there → exec (.refreshWindowStart k bank) s = .next { s with rows := s.rows.filter fun c => !(c.stack == k && c.bank == bank) }) ∧
    (there →
      (v.toNat % 64 < v.toNat / 256 % 64 →
        exec (.wmarkWrite k v) s = .next (seen 8 (setStackReg { r with lo := v.toNat % 64, hi := v.toNat / 256 % 64 } s))) ∧
      (v.toNat / 256 % 64 ≤ v.toNat % 64 → exec (.wmarkWrite k v) s = .next (seen 8 s)) ∧
      (∃ q, exec (.hrowWrite k v) s = .next (seen 0x10 (setStackReg q s)) ∧ q.stack = r.stack ∧ q.lo = r.lo ∧ q.hi = r.hi ∧
        q.thr = max 256 (v.toNat % 65536) ∧
        q.radius = if v.toNat / 65536 % 4 = 1 ∨ v.toNat / 65536 % 4 = 2 then v.toNat / 65536 % 4 else r.radius) ∧
      (v.toNat / 65536 % 4 ≠ 1 → exec (.elideMark k v) s = .next (seen 0x18 s)) ∧
      (v.toNat / 65536 % 4 = 1 → ∃ t, exec (.elideMark k v) s = .next t ∧
        let base := k * 2 ^ 36 + v.toNat % 32768 * 2 ^ 21
        (∀ a, t.mem.get a = if base ≤ a ∧ a < base + 2 ^ 21 then 0#8 else s.mem.get a) ∧
        (∀ g, g ∈ t.live ↔ g ∈ s.live ∧ g ≠ base / 2 ^ 21) ∧ (∀ l ∈ t.links, overlaps base (2 ^ 21) l.line 64 = false) ∧
        t.hart.x = s.hart.x ∧ t.hart.v = s.hart.v))

/-- A retrain is logged and changes nothing else; a lost module has its links relayed; a lost stack, bank, engine or update node leaves
service, an engine's commands ending with an error or passing to the other engine; a retired core has its strands saved or lost, and takes
no work again: with no strand there, with one, whose save begins where its places take the copies and waits for such places otherwise, and
with any. A die out of service has its strands saved or lost, the links that led to it relayed, its cores, clusters and itself retired with
their entries, its engines and update nodes lost and its translations gone (R319, R327, R345, R346, R363, R366, R404). The model's choices: a lost bank or node is logged
with kind 6, an engine's loss with a free kind, and the place fields of the entries (log 23); what becomes of the texts of a lost stack
(log 24); a save without places for its copies waits (log 25). -/
def Obligations.LossesComplete : Prop :=  ∀ (s : State) (a b : Nat) (gone as bs : List Nat) (copies : List (Nat × Nat)),
    (∀ m, s.lostModules.contains m = false → exec (.ucieRetrain m) s = .next (rasLog 8 (m % 16) 0 s) ∧
      ∀ links, exec (.ucieModuleLost m links) s = .next (relayLinks (fun h e => links.any fun l =>
          l.1.die == h.place.die && l.1.cluster == h.place.cluster && l.1.core == h.place.core && l.2 == e.dir)
        (rasLog 8 (m % 16) 0 { s with lostModules := setAdd m s.lostModules }))) ∧
    (∀ k, k < 16 → s.svc.hbmStacks.getLsbD k = true → ∃ v w : BitVec 16,
      (∀ j, j < 16 → v.getLsbD j = (s.svc.hbmStacks.getLsbD j && decide (j ≠ k)) ∧ w.getLsbD j = (s.svc.deadStacks.getLsbD j || decide (j = k))) ∧
      exec (.stackLost k) s = .next (renewTexts { s with
        svc := { s.svc with hbmStacks := v, deadStacks := w }, lostNodes := .stack k :: s.lostNodes })) ∧
    (∀ d c x, d < 8 → c < 25 →
      (x < 64 → s.lostBanks.contains (d, c, x) = false →
        exec (.bankLost d c x) s = .next (rasLog 6 (d + 8 * c) 0 { s with lostBanks := (d, c, x) :: s.lostBanks })) ∧
      (x < 2 → s.lostEngines.contains (d, c, x) = false →
        exec (.engineLost d c x) s = .next (rasLogOther (d + 8 * c) 0 (loseEngine d c x s))) ∧
      (x < 8 → coreInService s ⟨d, c, x, 0⟩ = true →
        let on := (strands s).filter fun h => liesOn h d c x
        (on = [] → exec (.coreRetire d c x gone as bs) s = .next (dropCore d c x s)) ∧
        (∀ h, on = [h] → h.status = .running → h.sid ∉ gone →
          exec (.coreRetire d c x gone [a] [b]) s = .next (dropCore d c x (asStrand h.sid
            (if copiesOk s h a b = true then beginSave a b else beginSave 0 0) s))) ∧
        exec (.coreRetire d c x gone as bs) s =
          .next (dropCore d c x (clearCores (fun h => liesOn h d c x) gone (as.zip bs) s)))) ∧
    (∀ site, nodeThere s site = true → s.lostNodes.contains site = false →
      let loc := match site with
        | .cluster d c => d + 8 * c
        | .stack k => k
      exec (.updateNodeLost site) s = .next (rasLog 6 loc 0 { s with lostNodes := site :: s.lostNodes })) ∧
    ∀ d, d < 8 → s.svc.dies.getLsbD d = true →
      let here (h : Strand) : Bool := (h.status == .running || h.status == .saving) && h.place.die == d
      let left := dropDie d (relayLinks (leadsTo s d) (clearCores here gone copies s))
      let unserved := (rangeFrom 0 25).foldl (fun t c =>
        let t := [0, 1].foldl (fun t e => if t.lostEngines.contains (d, c, e) then t else loseEngine d c e t) t
        if t.lostNodes.contains (.cluster d c) then t else { t with lostNodes := .cluster d c :: t.lostNodes }) left
      let off : BitVec 8 := BitVec.ofNat 8 (2 ^ d)
      let u : State := { unserved with
        tlb := unserved.tlb.filter fun x => x.site.die != d
        svc := { unserved.svc with dies := unserved.svc.dies &&& ~~~off, deadDies := unserved.svc.deadDies ||| off } }
      exec (.dieOutOfService d gone copies) s = .next u ∧ u.svc.dies.getLsbD d = false ∧ u.svc.deadDies.getLsbD d = true ∧
        ∀ c, c < 25 → u.lostNodes.contains (.cluster d c) = true ∧ u.lostEngines.contains (d, c, 0) = true ∧
          u.lostEngines.contains (d, c, 1) = true ∧ ∀ x, x < 8 → coreInService u ⟨d, c, x, 0⟩ = false

/-! ### Placement -/

/-- A strand of a loaded launch whose turn it is starts where the partition, the boot, the affinity and the launch allow: with the lanes
of its record, at its image's entry, a0 and stvec as they say, all else as at strand start; so it does, by itself or by a decision,
where its node is the only one that waits. A decision that must pre-empt lays the saves of the running victims' strands on the agenda
(the model's choice, log 25). A running strand stops and its save begins, or waits where the places cannot take its copies (the model's
choice, log 25); a saved one stands in two copies, and is read back where it may resume, or its launch ends with CONTEXT_LOST where
neither copy can be read or the area is not valid (R88, R284, R286, R383, R385, R386; which areas are not valid is the model's choice, log
13). -/
def Obligations.PlacementsComplete : Prop :=  ∀ s : State,
    (∀ id idx p n0 n1 l sp r, findLaunch s id = some l → mayPlace l = true → idx < l.ctl 0 12 → idx ∉ l.started →
      alone s l = true → findSpace s l.asid = some sp → residentOf s l = some r → placeable s l idx p n0 n1 = true →
      mayTake s l p = true → s.hart.status = .unplaced →
      let t := serve l (startStrand l idx p n0 n1 s)
      exec (.strandPlace id idx p n0 n1) s = .next t ∧ t.hart.sid = s.nextId ∧ t.hart.status = .running ∧ t.hart.place = p ∧
        t.hart.lown = 32 * l.ctl 12 4 ∧ t.hart.root = nth sp.roots p.die 0 ∧ t.hart.pc = BitVec.ofNat 64 (entryOf r l) ∧
        t.hart.rx 10#5 = BitVec.ofNat 64 (sub l.raw 16 8) ∧ (∀ q : BitVec 5, q ≠ 10#5 → t.hart.rx q = 0#64) ∧
        t.hart.csr.stvec = BitVec.ofNat 64 r.trap &&& ~~~3#64 ∧ t.hart.mode = .user ∧ t.hart.vl = 0 ∧ (∀ q, t.hart.tag q = .none) ∧
        t.hart.strip.rewindable = false ∧ t.mem = s.mem) ∧
    (∀ id idx p n0 n1 l, findLaunch s id = some l → mayPlace l = true → idx < l.ctl 0 12 → idx ∉ l.started →
      alone s l = true → (findSpace s l.asid).isSome → (residentOf s l).isSome → placeable s l idx p n0 n1 = true →
      mayTake s l p = true → exec (.strandPlace id idx p n0 n1) s = .next (serve l (startStrand l idx p n0 n1 s))) ∧
    (∀ l idx p as bs, nodesInOrder s = [l] → l.loaded = true → findLaunch s l.id = some l → savedOf s l = [] → unstarted l = [idx] →
      (findSpace s l.asid).isSome → (residentOf s l).isSome →
      let q := partFor s p (l.ctl 12 4)
      let t := serve l (startStrand l idx p q.1 q.2 s)
      placeable s l idx p q.1 q.2 = true →
        exec (.strandPlace l.id idx p q.1 q.2) s = .next t ∧ exec (.placementDecision [p] as bs) s = .next t) ∧
    (∀ l ahead places as bs t, turnOf s [] (nodesInOrder s) = .place l ahead → leastPlaced s l ≤ places.length →
      places.any (barred s ahead) = false → placeAll l.id places s = some t →
      exec (.placementDecision places as bs) s = .next (serve l t)) ∧
    (∀ vs places as bs, turnOf s [] (nodesInOrder s) = .preempt vs →
      let hs := (strands s).filter fun h => h.status == .running && (vs.map (·.id)).contains h.launch
      hs.length ≤ (as.zip bs).length → exec (.placementDecision places as bs) s = .next { s with
        agenda := (hs.zip (as.zip bs)).map (fun (x : Strand × (Nat × Nat)) => Turn.event (.preempt x.1.sid x.2.1 x.2.2)) ++ s.agenda }) ∧
    (∀ sid a b h, findStrand s sid = some h → h.sid = sid →
      (h.status = .running →
        exec (.preempt sid a b) s = .next (asStrand sid (if copiesOk s h a b = true then beginSave a b else beginSave 0 0) s)) ∧
      (h.status = .saving → h.copies.1 = h.copies.2 → copiesOk s h a b = true →
        exec (.preempt sid a b) s = .next (modStrand sid (fun h => { h with copies := (a, b) }) s))) ∧
    (∀ sid h l, findStrand s sid = some h → h.status = .saving → findLaunch s h.launch = some l →
      h.copies.1 ≠ h.copies.2 ∨ l.state ≠ .running →
      let w := if h.copies.1 = h.copies.2 then s else writeArea h.copies.2 h h.saveSeq (writeArea h.copies.1 h h.saveSeq s)
      let t := modStrand sid (fun h => { h with status := .saved }) w
      exec (.contextSaveEnd sid) s = .next (if l.state = .running then t else asStrand sid endHart t)) ∧
    ∀ sid p n0 n1 h l sp,
      let n := if p.slot = 0 then n0 else n1
      let a := h.copies.1
      let b := h.copies.2
      let bs := readArea s a b
      let lost := lostBlocks s a b areaBytes || areaBad bs
      let y := areaSuspects a b s
      let z := asFront sid (setPart p n0 n1 y)
      findStrand s sid = some h → findLaunch s h.launch = some l → findSpace s h.asid = some sp → h.status = .saved →
      l.state = .running → alone s l = true → mayTake s l p = true → canPlace s p n n0 n1 = true → mayResume s h n = true →
      resumePlace s l h p = true → h.sid = sid →
      (lost = true → exec (.contextRestore sid p n0 n1) s =
        .next (serve l (drainLaunch { l with code := 7, reason := 5 } (rasLog 11 (coreLoc h.place 0 0) a y)))) ∧
      (lost = false → ∃ u, reloadArea a b z = .ok () u ∧
        (let k : Strand := { u.hart with status := .running, place := p, root := nth sp.roots p.die 0 }
          let v := reformAll (regrantAll (u.withHart (if 32 * n < k.lown then regrantStrand (32 * n) k else k)))
          exec (.contextRestore sid p n0 n1) s = .next (serve l (asFront s.hart.sid v))) ∧
        (h.c.toList.all (fun k => k.state == .free && k.links == []) = true → (∀ i, i < 4 → sub bs (0x1000 + imageBytes * i) 8 % 8 = 0) →
          u.hart.pc = BitVec.ofNat 64 (sub bs 0x40 8) ∧ u.hart.vl = sub bs 0x140 8 % 2 ^ 15 ∧ u.hart.csr.sepc = BitVec.ofNat 64 (sub bs 0x1E8 8) ∧
          u.hart.mode = (if (sub bs 0x10 8).testBit 0 then .supervisor else .user) ∧
          ∀ r : BitVec 5, r ≠ 0#5 → u.hart.rx r = BitVec.ofNat 64 (sub bs (0x40 + 8 * r.toNat) 8)))

/-! ### The host, the Shutter and the device -/

/-- The host's writes of the ports and registers complete: a write that covers the last byte of a record area accepts the record or sets
drop; the oldest record of a port enters the graph while there is room; PCAN cancels; PBIND binds, enabled only for a live space; PWRCAP
is held between 1,000 and 3,800; RASACK moves forward and not past head; ATREQ starts a report unless one is being formed; FPKG is
written while no launch is incomplete (R369, R371, R372, R388, R401, R402, R405). -/
def Obligations.HostRegistersComplete : Prop :=  ∀ (s : State) (p off : Nat) (data : List Byte) (v : Word),
    let z := s.svc
    let w := v.toNat % 2 ^ 32
    let area : State := modPort p (fun q => { q with area := layBytes q.area off data }) s
    let q := nth area.ports p .start
    (p < 64 → off ≤ 0x7F → 0x7F < off + data.length → s.ports.length = 64 →
      (q.free = 0 ∨ q.en = false → exec (.portRecordAccept p off data) s = .next (modPort p (fun q => { q with drop := true }) area)) ∧
      (q.free ≠ 0 → q.en = true → exec (.portRecordAccept p off data) s = .next (modPort p (fun q => { q with
          free := q.free - 1, seq := q.seq + 1, slots := q.slots ++ [⟨q.seq + 1, s.nextOrder, s.now, q.asid, q.area⟩] })
        { area with nextOrder := s.nextOrder + 1 }))) ∧
    (∀ x rest, p < 64 → (nth s.ports p .start).slots = x :: rest → incompletes s < 65536 →
      let l := slotLaunch s p x
      exec (.recordTake p) s = .next (enterGraph l.1 l.2 (modPort p (fun q => { q with free := q.free + 1, slots := rest }) s))) ∧
    (p < 64 →
      let asid := (nth s.ports p .start).asid
      let id := v.toNat % 2 ^ 48
      let o := id / 2 ^ 41
      let key := launchKey asid id
      let hit := if id.testBit 47 then none else (nth s.ports o .start).slots.find? fun x => x.seq == id % 2 ^ 41 && x.asid == asid
      (∀ n, n ≠ 8 → exec (.pcanWrite p n v) s = .next s) ∧
      (∀ x, hit = some x →
        let l := (slotLaunch s o x).1
        exec (.pcanWrite p 8 v) s = .next (endLaunch l.id 6 1 { modPort o (fun q => { q with
          free := q.free + 1, slots := q.slots.filter (· != x) }) s with launches := s.launches ++ [l] })) ∧
      (hit = none → (findLaunch s key = none → exec (.pcanWrite p 8 v) s = .next s) ∧
        ∀ l, findLaunch s key = some l →
          (l.asid ≠ asid ∨ l.state = .draining ∨ l.state = .complete → exec (.pcanWrite p 8 v) s = .next s) ∧
          (l.asid = asid → l.state = .accepted ∨ l.state = .ready → exec (.pcanWrite p 8 v) s = .next (endLaunch key 6 1 s)) ∧
          (l.asid = asid → l.state = .running →
            exec (.pcanWrite p 8 v) s = .next (drainLaunch { l with code := 6, reason := 1, replaying := false } s)))) ∧
    (p < 64 → exec (.pbindWrite p v) s = .next (modPort p (fun q => { q with
      asid := v.toNat % 1024, en := v.getLsbD 16 && (findSpace s (v.toNat % 1024)).isSome, vec := v.toNat / 2 ^ 24 % 256
      vf := v.toNat / 2 ^ 32 % 128 }) s)) ∧
    exec (.pwrcapWrite v) s = .next { s with svc := { z with pwrcap := max 1000 (min 3800 (v.toNat % 4096)) } } ∧
    (z.rasAck ≤ w → w ≤ z.rasHead → exec (.rasackWrite v) s = .next { s with svc := { z with rasAck := w } }) ∧
    (w < z.rasAck ∨ z.rasHead < w → exec (.rasackWrite v) s = .next s) ∧
    (z.atBusy = true → exec (.attestationRequest v) s = .next s) ∧
    (z.atBusy = false → exec (.attestationRequest v) s = .next { s with svc := { z with
      atBusy := true, atArea := v.toNat % 2 ^ 52 / 4096 * 4096 } }) ∧
    (someLaunch s = true → exec (.fpkgWrite v) s = .next s) ∧
    (someLaunch s = false → exec (.fpkgWrite v) s = .next { s with svc := { z with pkg := v.toNat % 8192, fabEn := v.getLsbD 13 } })

/-- The commands of SCMD have their effect while they run: CREATE makes the space that a valid descriptor gives, DESTROY removes one
without incomplete launches, FLUSHCODE closes a handle's residency to later launches, INVALTLB removes the identifier's translations;
each refuses what it does not accept. The command's end clears busy and writes the result (R369, R370). The model's choices: the order in
which the results 1 and 2 are decided where both hold, the live identifier of CREATE and the argument of DESTROY first (log 28), and that
the port bindings of a destroyed space stay (log 14). -/
def Obligations.SpaceCommandsComplete : Prop :=  ∀ (s : State) (asid : BitVec 10) (arg : BitVec 48),
    let live := (findSpace s asid.toNat).isSome
    let gives (i : Instr) (res : Nat) (t : State) : Prop := exec i s = .next { t with svc := { t.svc with scDone := some res } }
    (scmdRuns s 1 asid arg = true →
      (live = true → gives (.create asid arg) 1 s) ∧
      (∀ sp, live = false → arg.toNat % 8 = 0 → inHbm s (16 * arg.toNat) = true ∨ inTile s (16 * arg.toNat) = true →
        readsBad s (16 * arg.toNat) 128 = false → parseSpace asid.toNat (homeBytes s (16 * arg.toNat) 128) = some sp →
        gives (.create asid arg) 0 (dropSpaceCaches asid.toNat everyDie { s with spaces := sp :: s.spaces })) ∧
      (live = false → arg.toNat % 8 ≠ 0 ∨ (inHbm s (16 * arg.toNat) || inTile s (16 * arg.toNat)) = false ∨
          (readsBad s (16 * arg.toNat) 128 = false ∧ parseSpace asid.toNat (homeBytes s (16 * arg.toNat) 128) = none) →
        gives (.create asid arg) 2 s) ∧
      (live = false → arg.toNat % 8 = 0 → inHbm s (16 * arg.toNat) = true ∨ inTile s (16 * arg.toNat) = true →
        readsBad s (16 * arg.toNat) 128 = true → gives (.create asid arg) 2 (suspectRead (16 * arg.toNat) 128 s))) ∧
    (scmdRuns s 2 asid arg = true → (arg ≠ 0#48 → gives (.destroy asid arg) 2 s) ∧
      (arg = 0#48 → live = false → gives (.destroy asid arg) 1 s) ∧
      (arg = 0#48 → (∃ l ∈ s.launches, l.asid = asid.toNat ∧ l.state ≠ .complete) → gives (.destroy asid arg) 1 s) ∧
      (arg = 0#48 → live = true → (∀ l ∈ s.launches, l.asid = asid.toNat → l.state = .complete) →
        (∀ p ∈ s.ports, ∀ x ∈ p.slots, x.asid ≠ asid.toNat) → ∃ t : State, gives (.destroy asid arg) 0 t ∧
          t.spaces = s.spaces.filter (fun x => x.asid != asid.toNat) ∧ t.mem = s.mem ∧ t.hart = s.hart ∧ t.ports = s.ports ∧
          (∀ e ∈ t.tlb, e.asid = asid.toNat → 8 ≤ e.site.die) ∧ ∀ e ∈ t.icache, e.asid = asid.toNat → 8 ≤ e.core / 256)) ∧
    (scmdRuns s 3 asid arg = true → (live = false → gives (.flushcode asid arg) 1 s) ∧
      ∀ sp, findSpace s asid.toNat = some sp →
        (arg = 0#48 ∨ 65535 < arg.toNat → gives (.flushcode asid arg) 2 s) ∧
        (arg ≠ 0#48 → arg.toNat ≤ 65535 → gives (.flushcode asid arg) 0 (putSpace { sp with resident := sp.resident.map fun r =>
          if r.handle = arg.toNat ∧ r.flushed = none then { r with flushed := some s.nextOrder } else r } s))) ∧
    (scmdRuns s 4 asid arg = true → (arg ≠ 0#48 → gives (.invaltlb asid arg) 2 s) ∧
      (arg = 0#48 → gives (.invaltlb asid arg) 0 (dropSpaceCaches asid.toNat everyDie s))) ∧
    (s.svc.scBusy = true →
      let done (r : Nat) : Prop := exec .scmdCommandComplete s = .next { s with svc := { s.svc with
        scBusy := false, scResult := r, scDone := none } }
      (∀ r, s.svc.scDone = some r → r ≠ 0 ∨ invalidating s = false → done r) ∧
      (s.svc.scDone = none → s.svc.scCmd.toNat % 16 = 0 ∨ 4 < s.svc.scCmd.toNat % 16 → done 1))

/-- The steps of the Shutter on a launch complete: a ready launch finds its object loaded, or loads it, or ends FAILED, an object that
has been loaded staying resident; a deadline that passes before
placement ends it TIMEOUT; one that has drained completes; a replay that an error called for ends its strands, rewrites its data and
makes it ready again, or ends it where the code object does not load any more (the model's choice, log 27), and the fourth one ends it
FAILED; a ready host copy is performed and drains. dlaunch of a readable record that keeps R373 and R374 commits the strip and takes
the record as accepted, with the identifier 2^47 plus the next device sequence in a status with code 0; of another record it delivers
code 7 with reason 1; while 65,536 launches are incomplete it ends at deadline 0 with code 1; a misaligned address traps with cause 4
(R372 to R375, R382, R387, R390, R391). -/
def Obligations.LaunchStepsComplete : Prop :=
  (∀ (rs2 rs1 rd : BitVec 5) (s : State) (pa : Nat → Nat),
    let h := s.hart
    let a := (h.rx rs1).toNat
    let raw := s.structBytes 128 pa
    let z := s.withoutStruct a 128 pa
    let go := exec (.dlaunch rs2 rs1 rd) s
    s.calm = true →
    (a % 64 ≠ 0 → go = .next (takeTrap 4 (BitVec.ofNat 64 a) (s.withHart { h with vsta := 0 }))) ∧
    (s.readsStruct a 128 pa →
      (recordCheck s h.asid s.nextOrder raw = none → go = .next (z.completes (h.wx rd (status 7 1)))) ∧
      ∀ preds, recordCheck s h.asid s.nextOrder raw = some preds →
        (65536 ≤ incompletes s → h.rx rs2 = 0#64 → go = .next (z.completes (h.wx rd (status 1 0)))) ∧
        ∀ sp, incompletes s < 65536 → findSpace s h.asid = some sp →
          let id := 2 ^ 47 + sp.devSeq + 1
          let mine := findLaunch s h.launch
          let prio := min (ctlWord raw / 2 ^ 16 % 8) ((mine.map (·.prio)).getD 7)
          let safe := !isCopy raw && (ctlWord raw).testBit 21 && (mine.map (·.safe)).getD true
          let n := newLaunch (launchKey h.asid id) h.asid none raw prio safe preds s.now s.nextOrder
          let w := enterGraph n true { putSpace { sp with devSeq := sp.devSeq + 1 } z.committed with nextOrder := s.nextOrder + 1 }
          go = .next (w.completes (w.hart.wx rd (status 0 id))) ∧
            (findLaunch s (launchKey h.asid id) = none → ∃ m, findLaunch w (launchKey h.asid id) = some m ∧ m.raw = raw ∧
              m.asid = h.asid ∧ m.order = s.nextOrder ∧ m.prio = prio ∧ m.safe = safe))) ∧
  ∀ (s : State) (id : Nat) (l : Launch), findLaunch s id = some l →
    let busy (t : State) : Bool := (t.cmds.any fun c => c.launch == id && c.fin.isNone) || !(liveStrands t id).isEmpty
    (isCopy l.raw = false → l.state = .ready → l.loaded = false →
      exec (.codeObjectLoad id) s = .next (match (loadFor s l).2 with
        | none => setLaunch { l with loaded := true } (loadFor s l).1
        | some why => endLaunch id 7 why (loadFor s l).1) ∧
      (findSpace s l.asid = none → exec (.codeObjectLoad id) s = .next (endLaunch id 7 2 s)) ∧
      ∀ sp, findSpace s l.asid = some sp →
        (residentOf s l = none → codeEntry s sp (sub l.raw 0 8) = none → exec (.codeObjectLoad id) s = .next (endLaunch id 7 2 s)) ∧
        ∀ r, residentOf s l = some r →
          (vlFits r (256 * l.ctl 12 4) = false → exec (.codeObjectLoad id) s = .next (endLaunch id 7 4 s)) ∧
          (vlFits r (256 * l.ctl 12 4) = true → r.entries.length ≤ sub l.raw 8 2 →
            exec (.codeObjectLoad id) s = .next (endLaunch id 7 3 s)) ∧
          (vlFits r (256 * l.ctl 12 4) = true → sub l.raw 8 2 < r.entries.length →
            exec (.codeObjectLoad id) s = .next (setLaunch { l with loaded := true } s))) ∧
    (l.state = .accepted ∨ l.state = .ready → l.placed = false → l.accepted + sub l.raw 56 8 ≤ s.now →
      exec (.launchDeadlineExpiry id) s = .next (endLaunch id 1 0 s)) ∧
    (l.state = .draining → busy s = false →
      exec (.launchComplete id) s = .next (completeLaunch (s.launches.length + 1) id s)) ∧
    (l.state = .running → l.ctl 20 1 = 1 → l.trigger = true ∨ l.replaying = true →
      let t := endStrands id s
      (l.replays = 3 → exec (.launchReplay id) s =
        .next (drainLaunch { l with code := 7, reason := 6, trigger := false, replaying := false } t)) ∧
      (l.replays ≠ 3 → busy t = true → l.replaying = false →
        exec (.launchReplay id) s = .next (setLaunch { l with trigger := false, replaying := true } t)) ∧
      (l.replays ≠ 3 → busy t = false → exec (.launchReplay id) s = .next (match rewriteData l (rasLog 10 0 0 t) with
        | none => setLaunch { l with state := .draining, code := 7, reason := 3, trigger := false, replaying := false } t
        | some u => setLaunch { l with
            state := .ready, started := [], replays := l.replays + 1, trigger := false, replaying := false, flow := none }
          { u with parked := u.parked.filter fun h => !(h.launch == id && h.status == .ended)
                   reels := u.reels.filter fun r => r.launch != id }))) ∧
    ∀ sp, isCopy l.raw = true → l.state = .ready → findSpace s l.asid = some sp → s.svc.boot ≠ .boot →
      let r := copyBytes (packageRealm sp.asid (nth sp.roots 0 0)) ((sub l.raw 32 8).testBit 0) (sub l.raw 24 8) (sub l.raw 8 8) (sub l.raw 16 8) s
      let d : Launch := { l with state := .draining, placed := true }
      exec (.hostCopy id) s = .next (setLaunch (match r.2 with
        | none => d
        | some (c, a) => { d with code := 4, scause := c, stval := BitVec.ofNat 64 a }) r.1)

/-- A device reset puts the device at its reset state, with a controller image of slot A or B that is accepted, or the boot failed; the
fixer image is verified once, and a failure in both slots is logged. Dies, clusters and stacks join when their self-tests pass, and stay
out with an entry of kind 12 when they fail, as does a lane, whose spare takes its place, or else its group is lost with an entry of kind 3,
and with the last one the core with an entry of kind 4; calibration ends half
rate; a trip saves every placed strand, or has its save wait for places, and a recovery lets strands be placed again; a report is written
where its area lies in a ready stack (R62, R63, R345, R355, R364, R397 to R401, R403, R404). The model's choices: the temperature that a
thermal step enters in the log has a free kind (log 23), and the nonce of a report that cannot be read is free bytes (log 30); what a reset keeps, the host's memory and what
stands for the outside, and that the flash holds the operands (log 31); the place of the fixer's entry (log 23); a save without places for
its copies waits (log 25). -/
def Obligations.DeviceStepsComplete : Prop :=  ∀ (s : State) (n a b : Nat),
    let v := s.svc
    let z : Service := { v with sensed := true }
    (∀ slotA slotB : SignedImage,
      let ok := accepts false slotA || accepts false slotB
      exec (.deviceReset slotA slotB) s = .next { State.reset with
        hostMem := s.hostMem, agenda := s.agenda, choices := s.choices, upsets := s.upsets
        svc := { Service.start with flash := [slotA, slotB], controller := ok, boot := if ok then .boot else .failed } }) ∧
    (∀ slotA slotB : SignedImage, v.controller = true → v.fixerTried = false →
      let t : State := { s with svc := { v with fixerTried := true, fixerFlash := [slotA, slotB] } }
      exec (.fixerImageVerify slotA slotB) s = .next (if accepts true slotA || accepts true slotB then
        { t with svc := { t.svc with fixer := true } } else rasLog 12 0 0 t)) ∧
    (∀ c, v.controller = true → v.fixerTried = true → n < 8 → c < 25 → v.dies.getLsbD n = false → v.deadDies.getLsbD n = false → (n, c) ∉ v.deadClusters →
      exec (.unitSelfTestEnd .cluster (n + 8 * c) true) s = .next { s with svc := z } ∧
      exec (.unitSelfTestEnd .cluster (n + 8 * c) false) s = .next (rasLog 12 (coreLoc ⟨n, c, 0, 0⟩ 0 0) 0
        { s with svc := { z with deadClusters := (n, c) :: v.deadClusters } })) ∧
    (∀ (c x g l : Nat), v.controller = true → v.fixerTried = true → n < 8 → c < 25 → x < 8 → g < 8 → l < 34 →
      v.dies.getLsbD n = false → v.deadDies.getLsbD n = false →
      let p : Place := ⟨n, c, x, 0⟩
      let no := n + 8 * c + 256 * x + 2048 * g + 16384 * l
      (coreInfo s p).lgen.getLsbD g = true →
      exec (.unitSelfTestEnd .lane no true) s = .next { s with svc := z } ∧
      let old := coreInfo s p
      let spent := old.spareUsed.getLsbD g
      let k := if spent then { old with lgen := old.lgen &&& ~~~(1#8 <<< g) } else { old with spareUsed := old.spareUsed ||| (1#8 <<< g) }
      let logged := rasLog 12 no 0 { s with svc := z }
      let held := if (findCore s p).isSome then putCore k logged else { logged with cores := k :: logged.cores }
      let t := if spent then rasLog 3 no 0 held else held
      let u := if k.lgen = 0#8 then dropCore n c x t else t
      exec (.unitSelfTestEnd .lane no false) s = .next u ∧ (s.svc.rasBase = 0 → s.sameMemory u) ∧
        (∀ q : Place, (q.die, q.cluster, q.core) ≠ (n, c, x) → findCore u q = findCore s q) ∧
        ∃ k', findCore u p = some k' ∧
          (if spent then k'.lgen.getLsbD g = false ∧ ∀ j, j ≠ g → k'.lgen.getLsbD j = old.lgen.getLsbD j
            else k'.lgen = old.lgen ∧ k'.spareUsed.getLsbD g = true) ∧
          (k'.lgen = 0#8 → k'.retired = true)) ∧
    (v.controller = true → v.fixerTried = true → n < 8 → v.dies.getLsbD n = false → v.deadDies.getLsbD n = false →
      ∃ d e : BitVec 8,
        exec (.unitSelfTestEnd .die n true) s = .next (renewTexts (bootMoves { s with svc := { z with dies := d } })) ∧
        exec (.unitSelfTestEnd .die n false) s = .next (bootMoves (rasLog 12 n 0 { s with svc := { z with deadDies := e } })) ∧
        ∀ j, j < 8 → d.getLsbD j = (v.dies.getLsbD j || decide (j = n)) ∧ e.getLsbD j = (v.deadDies.getLsbD j || decide (j = n))) ∧
    (v.controller = true → v.fixer = true → n < 16 → v.hbmStacks.getLsbD n = false → v.deadStacks.getLsbD n = false →
      ∃ d e : BitVec 16,
        exec (.unitSelfTestEnd .stack n true) s = .next (bootMoves { s with svc := { z with hbmStacks := d } }) ∧
        exec (.unitSelfTestEnd .stack n false) s = .next (bootMoves (rasLog 12 n 0 { s with svc := { z with deadStacks := e } })) ∧
        ∀ j, j < 16 → d.getLsbD j = (v.hbmStacks.getLsbD j || decide (j = n)) ∧
          e.getLsbD j = (v.deadStacks.getLsbD j || decide (j = n))) ∧
    (v.controller = true → v.calibrated = false →
      exec .thermalCalibrationEnd s = .next (rasLogOther 0 0 (bootMoves { s with svc := { z with calibrated := true, half := false } }))) ∧
    (v.tripped = false →
      let on := (strands s).filter fun h => h.status == .running
      let tripped (t : State) : State := rasLogOther 0 0 { t with svc := { t.svc with tripped := true, sensed := true } }
      (on = [] → ∀ as bs, exec (.thermalTrip as bs) s = .next (tripped s)) ∧
      (∀ h, on = [h] → exec (.thermalTrip [a] [b]) s =
        .next (tripped (asStrand h.sid (if copiesOk s h a b = true then beginSave a b else beginSave 0 0) s))) ∧
      ∀ as bs, exec (.thermalTrip as bs) s = .next (tripped (saveAll on (as.zip bs) s))) ∧
    (v.tripped = true → exec .thermalRecover s = .next (rasLogOther 0 0 { s with svc := { z with tripped := false } })) ∧
    (v.atBusy = true → v.atArea < 2 ^ 40 → v.hbmStacks.getLsbD (v.atArea / 2 ^ 36) = true →
      let gives (u : State) (nonce : List Byte) : Prop :=
        let t := homeWrite .host v.atArea (reportBytes u nonce) u
        exec .attestationReportComplete s = .next { t with svc := { t.svc with atBusy := false, atResult := 0 } }
      (readsBad s v.atArea 32 = false → gives s (homeBytes s v.atArea 32)) ∧
      (readsBad s v.atArea 32 = true → ∃ bytes l, bytes.length = 32 ∧ gives { s with free := s.free + 1, suspect := l } bytes)) ∧
    (v.atBusy = true → 2 ^ 40 ≤ v.atArea ∨ v.hbmStacks.getLsbD (v.atArea / 2 ^ 36) = false →
      exec .attestationReportComplete s = .next { s with svc := { v with atBusy := false, atResult := 1 } })
end

