-- ==== Sys2Proof/Laws/Monad.lean ====
section
/-!
SUPPORT. What the sequencing of a meaning computes: one equation for each way a meaning is built (pure, bind, get, set, modify,
a stop, a test, a loop), and what runInstr and runEvent make of the result.
-/
namespace Sys2Proof.Machine

/-! ### The package with another running strand -/

@[simp] theorem withHart_hart (s : State) (h : Strand) : (s.withHart h).hart = h := rfl
@[simp] theorem withHart_parked (s : State) (h : Strand) : (s.withHart h).parked = s.parked := rfl
@[simp] theorem withHart_agenda (s : State) (h : Strand) : (s.withHart h).agenda = s.agenda := rfl
@[simp] theorem withHart_choices (s : State) (h : Strand) : (s.withHart h).choices = s.choices := rfl
@[simp] theorem withHart_upsets (s : State) (h : Strand) : (s.withHart h).upsets = s.upsets := rfl
@[simp] theorem withHart_now (s : State) (h : Strand) : (s.withHart h).now = s.now := rfl
@[simp] theorem withHart_free (s : State) (h : Strand) : (s.withHart h).free = s.free := rfl
@[simp] theorem withHart_nextId (s : State) (h : Strand) : (s.withHart h).nextId = s.nextId := rfl
@[simp] theorem withHart_mem (s : State) (h : Strand) : (s.withHart h).mem = s.mem := rfl
@[simp] theorem withHart_hostMem (s : State) (h : Strand) : (s.withHart h).hostMem = s.hostMem := rfl
@[simp] theorem withHart_poison (s : State) (h : Strand) : (s.withHart h).poison = s.poison := rfl
@[simp] theorem withHart_suspect (s : State) (h : Strand) : (s.withHart h).suspect = s.suspect := rfl
@[simp] theorem withHart_live (s : State) (h : Strand) : (s.withHart h).live = s.live := rfl
@[simp] theorem withHart_links (s : State) (h : Strand) : (s.withHart h).links = s.links := rfl
@[simp] theorem withHart_dcache (s : State) (h : Strand) : (s.withHart h).dcache = s.dcache := rfl
@[simp] theorem withHart_icache (s : State) (h : Strand) : (s.withHart h).icache = s.icache := rfl
@[simp] theorem withHart_tlb (s : State) (h : Strand) : (s.withHart h).tlb = s.tlb := rfl
@[simp] theorem withHart_cores (s : State) (h : Strand) : (s.withHart h).cores = s.cores := rfl
@[simp] theorem withHart_lostBanks (s : State) (h : Strand) : (s.withHart h).lostBanks = s.lostBanks := rfl
@[simp] theorem withHart_lostNodes (s : State) (h : Strand) : (s.withHart h).lostNodes = s.lostNodes := rfl
@[simp] theorem withHart_lostEngines (s : State) (h : Strand) : (s.withHart h).lostEngines = s.lostEngines := rfl
@[simp] theorem withHart_lostModules (s : State) (h : Strand) : (s.withHart h).lostModules = s.lostModules := rfl
@[simp] theorem withHart_stackRegs (s : State) (h : Strand) : (s.withHart h).stackRegs = s.stackRegs := rfl
@[simp] theorem withHart_mscLines (s : State) (h : Strand) : (s.withHart h).mscLines = s.mscLines := rfl
@[simp] theorem withHart_writeQueue (s : State) (h : Strand) : (s.withHart h).writeQueue = s.writeQueue := rfl
@[simp] theorem withHart_rows (s : State) (h : Strand) : (s.withHart h).rows = s.rows := rfl
@[simp] theorem withHart_refreshed (s : State) (h : Strand) : (s.withHart h).refreshed = s.refreshed := rfl
@[simp] theorem withHart_cmds (s : State) (h : Strand) : (s.withHart h).cmds = s.cmds := rfl
@[simp] theorem withHart_collectives (s : State) (h : Strand) : (s.withHart h).collectives = s.collectives := rfl
@[simp] theorem withHart_fabricOut (s : State) (h : Strand) : (s.withHart h).fabricOut = s.fabricOut := rfl
@[simp] theorem withHart_reels (s : State) (h : Strand) : (s.withHart h).reels = s.reels := rfl
@[simp] theorem withHart_launches (s : State) (h : Strand) : (s.withHart h).launches = s.launches := rfl
@[simp] theorem withHart_nextOrder (s : State) (h : Strand) : (s.withHart h).nextOrder = s.nextOrder := rfl
@[simp] theorem withHart_spaces (s : State) (h : Strand) : (s.withHart h).spaces = s.spaces := rfl
@[simp] theorem withHart_ports (s : State) (h : Strand) : (s.withHart h).ports = s.ports := rfl
@[simp] theorem withHart_svc (s : State) (h : Strand) : (s.withHart h).svc = s.svc := rfl
@[simp] theorem withHart_msix (s : State) (h : Strand) : (s.withHart h).msix = s.msix := rfl
@[simp] theorem withHart_hostRead (s : State) (h : Strand) : (s.withHart h).hostRead = s.hostRead := rfl

@[simp] theorem withHart_withHart (s : State) (h k : Strand) : (s.withHart h).withHart k = s.withHart k := rfl

@[simp] theorem withHart_self (s : State) : s.withHart s.hart = s := rfl

/-! ### Sequencing -/

@[simp] theorem run_pure (a : α) (s : State) : (pure a : M α) s = .ok a s := rfl

@[simp] theorem run_bind (x : M α) (f : α → M β) (s : State) :
    (x >>= f) s = match x s with
      | .ok a s' => f a s'
      | .error e s' => .error e s' := by
  show EStateM.bind x f s = _
  unfold EStateM.bind
  cases x s <;> rfl

@[simp] theorem run_map (f : α → β) (x : M α) (s : State) :
    (f <$> x) s = match x s with
      | .ok a s' => .ok (f a) s'
      | .error e s' => .error e s' := by
  show EStateM.map f x s = _
  unfold EStateM.map
  cases x s <;> rfl

@[simp] theorem run_get (s : State) : (get : M State) s = .ok s s := rfl

@[simp] theorem run_set (s s' : State) : (set s' : M PUnit) s = .ok ⟨⟩ s' := rfl

@[simp] theorem run_modify (f : State → State) (s : State) : (modify f : M PUnit) s = .ok ⟨⟩ (f s) := rfl

@[simp] theorem run_throw (e : Stop) (s : State) : (throw e : M α) s = .error e s := rfl

@[simp] theorem run_modH (f : Strand → Strand) (s : State) : modH f s = .ok () (s.withHart (f s.hart)) := rfl

@[simp] theorem run_getH (s : State) : getH s = .ok s.hart s := rfl

@[simp] theorem run_raise (c : Nat) (v : Word) (s : State) : (raise c v : M α) s = .error (.trap c v none) s := rfl

@[simp] theorem run_raiseAt (c e a : Nat) (s : State) :
    (raiseAt c e a : M α) s = .error (.trap c (BitVec.ofNat 64 a) (some e)) s := rfl

@[simp] theorem run_illegal (s : State) : (illegal : M α) s = .error (.bits 2) s := rfl

@[simp] theorem run_shapeFault (s : State) : (shapeFault : M α) s = .error (.bits 24) s := rfl

@[simp] theorem run_typeFault (s : State) : (typeFault : M α) s = .error (.bits 25) s := rfl

@[simp] theorem run_notEnabled (w : String) (s : State) :
    (notEnabled w : M α) s = .error (.refuse (.stepNotEnabled w)) s := rfl

/-- A test in the middle of a meaning. -/
theorem run_ite (c : Prop) [Decidable c] (x y : M α) (s : State) :
    (if c then x else y) s = if c then x s else y s := by split <;> rfl

/-- A test that holds goes on. -/
theorem need_true {c : Bool} {f : M Unit} (h : c = true) (s : State) : need c f s = .ok () s := by
  simp [need, h]

@[simp] theorem forEach_nil (f : α → M Unit) (s : State) : forEach [] f s = .ok () s := rfl

@[simp] theorem forEach_cons (a : α) (as : List α) (f : α → M Unit) (s : State) :
    forEach (a :: as) f s = match f a s with
      | .ok _ s' => forEach as f s'
      | .error e s' => .error e s' := by
  show (f a >>= fun _ => forEach as f) s = _
  rw [run_bind]
  cases f a s <;> rfl

/-- A loop whose every turn goes on from a state with an invariant, keeping it and a relation to the first state. -/
theorem forEach_ok {f : α → M Unit} {R : State → State → Prop} {as : List α} (refl : ∀ s, R s s)
    (trans : ∀ {a b c}, R a b → R b c → R a c) {I : State → Prop}
    (step : ∀ a ∈ as, ∀ s, I s → ∃ s', f a s = .ok () s' ∧ R s s' ∧ I s') :
    ∀ s, I s → ∃ s', forEach as f s = .ok () s' ∧ R s s' ∧ I s' := by
  induction as with
  | nil => exact fun s h => ⟨s, rfl, refl s, h⟩
  | cons a as ih =>
    intro s h
    obtain ⟨s₁, e₁, r₁, h₁⟩ := step a (by simp) s h
    obtain ⟨s₂, e₂, r₂, h₂⟩ := ih (fun b hb => step b (by simp [hb])) s₁ h₁
    exact ⟨s₂, by simp [e₁, e₂], trans r₁ r₂, h₂⟩

/-- A collecting loop whose every turn answers from a state, leaving it, answers the list of the answers. -/
theorem mapEach_ok {f : α → M β} {g : α → β} {as : List α} {s : State} (step : ∀ a ∈ as, f a s = .ok (g a) s) :
    mapEach as f s = .ok (as.map g) s := by
  induction as with
  | nil => rfl
  | cons a as ih =>
    have h₁ := step a (by simp)
    have h₂ := ih fun b hb => step b (by simp [hb])
    simp [mapEach, h₁, h₂]

/-- An action that meets no precise hit leaves none to be numbered. -/
theorem hitAt_quiet {e : Nat} {s s' : State} (h : s'.hart.hit = none) : hitAt e s s' = s' := by
  unfold hitAt
  rw [h]
  split <;> first | rfl | (rename_i h'; cases h')

/-- A fault's element is written only where an element faults, a hit's only where one is met. -/
theorem atElem_ok {act : M α} {e : Nat} {a : α} {s s' : State} (h : act s = .ok a s') (hh : s'.hart.hit = none) :
    atElem e act s = .ok a s' := by
  simp [atElem, h, hitAt_quiet hh]

/-! ### What runInstr makes of a meaning -/

/-- A meaning that runs to its end retires. -/
theorem runInstr_ok {i : Instr} {body : M Unit} {s s' : State} (h : body s = .ok () s') :
    runInstr i body s = .next (retire (s.hart.estep && s.hart.mode == .user) (firstElem i s.hart) true s') := by
  simp [runInstr, h]

/-- A meaning that ends early with its effects retires. -/
theorem runInstr_done {i : Instr} {body : M Unit} {s s' : State} (h : body s = .error .done s') :
    runInstr i body s = .next (retire (s.hart.estep && s.hart.mode == .user) (firstElem i s.hart) true s') := by
  simp [runInstr, h]

/-- A meaning that stops with Illegal() takes cause 2 with the instruction bits. -/
theorem runInstr_illegal {i : Instr} {body : M Unit} {s s' : State} (h : body s = .error (.bits 2) s') :
    runInstr i body s = .next (takeTrap 2 (instrBits i) s') := by
  simp [runInstr, h]

/-- A meaning that stops with a shape or type fault takes it with the instruction bits and clears vsta. -/
theorem runInstr_bits {i : Instr} {body : M Unit} {s s' : State} {c : Nat} (h : body s = .error (.bits c) s') (hc : c ≠ 2) :
    runInstr i body s = .next (takeTrap c (instrBits i) { s' with hart := { s'.hart with vsta := 0 } }) := by
  simp [runInstr, h, hc]

/-- A meaning that stops with a trap that names no element takes it. -/
theorem runInstr_trap {i : Instr} {body : M Unit} {s s' : State} {c : Nat} {v : Word}
    (h : body s = .error (.trap c v none) s') : runInstr i body s = .next (takeTrap c v s') := by
  simp [runInstr, h]

/-- A meaning that begins a wait leaves the pc. -/
theorem runInstr_hold {i : Instr} {body : M Unit} {s s' : State} (h : body s = .error .hold s') (hw : s'.hart.wait.isSome = true) :
    runInstr i body s = .next s' := by
  simp [runInstr, h, hw]

/-- A step of another agent that runs to its end leaves its state. -/
theorem runEvent_ok {body : M Unit} {s s' : State} (h : body s = .ok () s') : runEvent body s = .next s' := by
  simp [runEvent, h]

/-- Retiring with no precise hit: the pc moves on, the wait is over, the retired count rises by one. -/
theorem retire_quiet {first : Nat} {s : State} (h : s.hart.hit = none) :
    retire false first true s = s.completes s.hart := by
  simp [retire, h, State.completes, State.withHart]

/-- Retiring in element-step mode records the step (R288). -/
theorem retire_stepped {first : Nat} {s : State} (h : s.hart.hit = none) :
    retire true first true s = s.completes { s.hart with step := some (BitVec.ofNat 64 (first % 32768 + 32768 + 0xC * 2 ^ 60)) } := by
  simp [retire, h, State.completes, State.withHart]

end Sys2Proof.Machine
end

