-- ==== Sys2Proof/Laws/State.lean ====
section
/-!
SUPPORT. Every field of a strand or of the package that a named write leaves as it was, field by field, so that no later proof
unfolds a record update; and what the named writes do to the field they write.
-/
namespace Sys2Proof.Machine

/-! ### Writes of the running strand -/

@[simp] theorem Strand.wx_sid (h : Strand) (r : BitVec 5) (v : Word) : (h.wx r v).sid = h.sid := by unfold Strand.wx; split <;> rfl
@[simp] theorem Strand.wx_launch (h : Strand) (r : BitVec 5) (v : Word) : (h.wx r v).launch = h.launch := by unfold Strand.wx; split <;> rfl
@[simp] theorem Strand.wx_idx (h : Strand) (r : BitVec 5) (v : Word) : (h.wx r v).idx = h.idx := by unfold Strand.wx; split <;> rfl
@[simp] theorem Strand.wx_nstr (h : Strand) (r : BitVec 5) (v : Word) : (h.wx r v).nstr = h.nstr := by unfold Strand.wx; split <;> rfl
@[simp] theorem Strand.wx_status (h : Strand) (r : BitVec 5) (v : Word) : (h.wx r v).status = h.status := by unfold Strand.wx; split <;> rfl
@[simp] theorem Strand.wx_place (h : Strand) (r : BitVec 5) (v : Word) : (h.wx r v).place = h.place := by unfold Strand.wx; split <;> rfl
@[simp] theorem Strand.wx_lown (h : Strand) (r : BitVec 5) (v : Word) : (h.wx r v).lown = h.lown := by unfold Strand.wx; split <;> rfl
@[simp] theorem Strand.wx_root (h : Strand) (r : BitVec 5) (v : Word) : (h.wx r v).root = h.root := by unfold Strand.wx; split <;> rfl
@[simp] theorem Strand.wx_asid (h : Strand) (r : BitVec 5) (v : Word) : (h.wx r v).asid = h.asid := by unfold Strand.wx; split <;> rfl
@[simp] theorem Strand.wx_claimVa (h : Strand) (r : BitVec 5) (v : Word) : (h.wx r v).claimVa = h.claimVa := by unfold Strand.wx; split <;> rfl
@[simp] theorem Strand.wx_copies (h : Strand) (r : BitVec 5) (v : Word) : (h.wx r v).copies = h.copies := by unfold Strand.wx; split <;> rfl
@[simp] theorem Strand.wx_saveSeq (h : Strand) (r : BitVec 5) (v : Word) : (h.wx r v).saveSeq = h.saveSeq := by unfold Strand.wx; split <;> rfl
@[simp] theorem Strand.wx_pc (h : Strand) (r : BitVec 5) (v : Word) : (h.wx r v).pc = h.pc := by unfold Strand.wx; split <;> rfl
@[simp] theorem Strand.wx_npc (h : Strand) (r : BitVec 5) (v : Word) : (h.wx r v).npc = h.npc := by unfold Strand.wx; split <;> rfl
@[simp] theorem Strand.wx_mode (h : Strand) (r : BitVec 5) (v : Word) : (h.wx r v).mode = h.mode := by unfold Strand.wx; split <;> rfl
@[simp] theorem Strand.wx_csr (h : Strand) (r : BitVec 5) (v : Word) : (h.wx r v).csr = h.csr := by unfold Strand.wx; split <;> rfl
@[simp] theorem Strand.wx_vl (h : Strand) (r : BitVec 5) (v : Word) : (h.wx r v).vl = h.vl := by unfold Strand.wx; split <;> rfl
@[simp] theorem Strand.wx_wid (h : Strand) (r : BitVec 5) (v : Word) : (h.wx r v).wid = h.wid := by unfold Strand.wx; split <;> rfl
@[simp] theorem Strand.wx_rgf (h : Strand) (r : BitVec 5) (v : Word) : (h.wx r v).rgf = h.rgf := by unfold Strand.wx; split <;> rfl
@[simp] theorem Strand.wx_vsta (h : Strand) (r : BitVec 5) (v : Word) : (h.wx r v).vsta = h.vsta := by unfold Strand.wx; split <;> rfl
@[simp] theorem Strand.wx_emask (h : Strand) (r : BitVec 5) (v : Word) : (h.wx r v).emask = h.emask := by unfold Strand.wx; split <;> rfl
@[simp] theorem Strand.wx_cls (h : Strand) (r : BitVec 5) (v : Word) : (h.wx r v).cls = h.cls := by unfold Strand.wx; split <;> rfl
@[simp] theorem Strand.wx_rm (h : Strand) (r : BitVec 5) (v : Word) : (h.wx r v).rm = h.rm := by unfold Strand.wx; split <;> rfl
@[simp] theorem Strand.wx_stripmask (h : Strand) (r : BitVec 5) (v : Word) : (h.wx r v).stripmask = h.stripmask := by unfold Strand.wx; split <;> rfl
@[simp] theorem Strand.wx_wdef (h : Strand) (r : BitVec 5) (v : Word) : (h.wx r v).wdef = h.wdef := by unfold Strand.wx; split <;> rfl
@[simp] theorem Strand.wx_wceil (h : Strand) (r : BitVec 5) (v : Word) : (h.wx r v).wceil = h.wceil := by unfold Strand.wx; split <;> rfl
@[simp] theorem Strand.wx_estep (h : Strand) (r : BitVec 5) (v : Word) : (h.wx r v).estep = h.estep := by unfold Strand.wx; split <;> rfl
@[simp] theorem Strand.wx_wpt (h : Strand) (r : BitVec 5) (v : Word) : (h.wx r v).wpt = h.wpt := by unfold Strand.wx; split <;> rfl
@[simp] theorem Strand.wx_watch (h : Strand) (r : BitVec 5) (v : Word) : (h.wx r v).watch = h.watch := by unfold Strand.wx; split <;> rfl
@[simp] theorem Strand.wx_v (h : Strand) (r : BitVec 5) (v : Word) : (h.wx r v).v = h.v := by unfold Strand.wx; split <;> rfl
@[simp] theorem Strand.wx_vtag (h : Strand) (r : BitVec 5) (v : Word) : (h.wx r v).vtag = h.vtag := by unfold Strand.wx; split <;> rfl
@[simp] theorem Strand.wx_k (h : Strand) (r : BitVec 5) (v : Word) : (h.wx r v).k = h.k := by unfold Strand.wx; split <;> rfl
@[simp] theorem Strand.wx_m (h : Strand) (r : BitVec 5) (v : Word) : (h.wx r v).m = h.m := by unfold Strand.wx; split <;> rfl
@[simp] theorem Strand.wx_tshape (h : Strand) (r : BitVec 5) (v : Word) : (h.wx r v).tshape = h.tshape := by unfold Strand.wx; split <;> rfl
@[simp] theorem Strand.wx_q (h : Strand) (r : BitVec 5) (v : Word) : (h.wx r v).q = h.q := by unfold Strand.wx; split <;> rfl
@[simp] theorem Strand.wx_ea (h : Strand) (r : BitVec 5) (v : Word) : (h.wx r v).ea = h.ea := by unfold Strand.wx; split <;> rfl
@[simp] theorem Strand.wx_c (h : Strand) (r : BitVec 5) (v : Word) : (h.wx r v).c = h.c := by unfold Strand.wx; split <;> rfl
@[simp] theorem Strand.wx_tl (h : Strand) (r : BitVec 5) (v : Word) : (h.wx r v).tl = h.tl := by unfold Strand.wx; split <;> rfl
@[simp] theorem Strand.wx_slices (h : Strand) (r : BitVec 5) (v : Word) : (h.wx r v).slices = h.slices := by unfold Strand.wx; split <;> rfl
@[simp] theorem Strand.wx_badSlice (h : Strand) (r : BitVec 5) (v : Word) : (h.wx r v).badSlice = h.badSlice := by unfold Strand.wx; split <;> rfl
@[simp] theorem Strand.wx_bad (h : Strand) (r : BitVec 5) (v : Word) : (h.wx r v).bad = h.bad := by unfold Strand.wx; split <;> rfl
@[simp] theorem Strand.wx_sliced (h : Strand) (r : BitVec 5) (v : Word) : (h.wx r v).sliced = h.sliced := by unfold Strand.wx; split <;> rfl
@[simp] theorem Strand.wx_strip (h : Strand) (r : BitVec 5) (v : Word) : (h.wx r v).strip = h.strip := by unfold Strand.wx; split <;> rfl
@[simp] theorem Strand.wx_claimed (h : Strand) (r : BitVec 5) (v : Word) : (h.wx r v).claimed = h.claimed := by unfold Strand.wx; split <;> rfl
@[simp] theorem Strand.wx_kept (h : Strand) (r : BitVec 5) (v : Word) : (h.wx r v).kept = h.kept := by unfold Strand.wx; split <;> rfl
@[simp] theorem Strand.wx_keptBad (h : Strand) (r : BitVec 5) (v : Word) : (h.wx r v).keptBad = h.keptBad := by unfold Strand.wx; split <;> rfl
@[simp] theorem Strand.wx_wait (h : Strand) (r : BitVec 5) (v : Word) : (h.wx r v).wait = h.wait := by unfold Strand.wx; split <;> rfl
@[simp] theorem Strand.wx_cuts (h : Strand) (r : BitVec 5) (v : Word) : (h.wx r v).cuts = h.cuts := by unfold Strand.wx; split <;> rfl
@[simp] theorem Strand.wx_hits (h : Strand) (r : BitVec 5) (v : Word) : (h.wx r v).hits = h.hits := by unfold Strand.wx; split <;> rfl
@[simp] theorem Strand.wx_step (h : Strand) (r : BitVec 5) (v : Word) : (h.wx r v).step = h.step := by unfold Strand.wx; split <;> rfl
@[simp] theorem Strand.wx_hit (h : Strand) (r : BitVec 5) (v : Word) : (h.wx r v).hit = h.hit := by unfold Strand.wx; split <;> rfl
@[simp] theorem Strand.wx_firing (h : Strand) (r : BitVec 5) (v : Word) : (h.wx r v).firing = h.firing := by unfold Strand.wx; split <;> rfl
@[simp] theorem Strand.putElem_sid (h : Strand) (r : BitVec 5) (w e n : Nat) : (h.putElem r w e n).sid = h.sid := rfl
@[simp] theorem Strand.putElem_launch (h : Strand) (r : BitVec 5) (w e n : Nat) : (h.putElem r w e n).launch = h.launch := rfl
@[simp] theorem Strand.putElem_idx (h : Strand) (r : BitVec 5) (w e n : Nat) : (h.putElem r w e n).idx = h.idx := rfl
@[simp] theorem Strand.putElem_nstr (h : Strand) (r : BitVec 5) (w e n : Nat) : (h.putElem r w e n).nstr = h.nstr := rfl
@[simp] theorem Strand.putElem_status (h : Strand) (r : BitVec 5) (w e n : Nat) : (h.putElem r w e n).status = h.status := rfl
@[simp] theorem Strand.putElem_place (h : Strand) (r : BitVec 5) (w e n : Nat) : (h.putElem r w e n).place = h.place := rfl
@[simp] theorem Strand.putElem_lown (h : Strand) (r : BitVec 5) (w e n : Nat) : (h.putElem r w e n).lown = h.lown := rfl
@[simp] theorem Strand.putElem_root (h : Strand) (r : BitVec 5) (w e n : Nat) : (h.putElem r w e n).root = h.root := rfl
@[simp] theorem Strand.putElem_asid (h : Strand) (r : BitVec 5) (w e n : Nat) : (h.putElem r w e n).asid = h.asid := rfl
@[simp] theorem Strand.putElem_claimVa (h : Strand) (r : BitVec 5) (w e n : Nat) : (h.putElem r w e n).claimVa = h.claimVa := rfl
@[simp] theorem Strand.putElem_copies (h : Strand) (r : BitVec 5) (w e n : Nat) : (h.putElem r w e n).copies = h.copies := rfl
@[simp] theorem Strand.putElem_saveSeq (h : Strand) (r : BitVec 5) (w e n : Nat) : (h.putElem r w e n).saveSeq = h.saveSeq := rfl
@[simp] theorem Strand.putElem_pc (h : Strand) (r : BitVec 5) (w e n : Nat) : (h.putElem r w e n).pc = h.pc := rfl
@[simp] theorem Strand.putElem_npc (h : Strand) (r : BitVec 5) (w e n : Nat) : (h.putElem r w e n).npc = h.npc := rfl
@[simp] theorem Strand.putElem_x (h : Strand) (r : BitVec 5) (w e n : Nat) : (h.putElem r w e n).x = h.x := rfl
@[simp] theorem Strand.putElem_mode (h : Strand) (r : BitVec 5) (w e n : Nat) : (h.putElem r w e n).mode = h.mode := rfl
@[simp] theorem Strand.putElem_csr (h : Strand) (r : BitVec 5) (w e n : Nat) : (h.putElem r w e n).csr = h.csr := rfl
@[simp] theorem Strand.putElem_vl (h : Strand) (r : BitVec 5) (w e n : Nat) : (h.putElem r w e n).vl = h.vl := rfl
@[simp] theorem Strand.putElem_wid (h : Strand) (r : BitVec 5) (w e n : Nat) : (h.putElem r w e n).wid = h.wid := rfl
@[simp] theorem Strand.putElem_rgf (h : Strand) (r : BitVec 5) (w e n : Nat) : (h.putElem r w e n).rgf = h.rgf := rfl
@[simp] theorem Strand.putElem_vsta (h : Strand) (r : BitVec 5) (w e n : Nat) : (h.putElem r w e n).vsta = h.vsta := rfl
@[simp] theorem Strand.putElem_emask (h : Strand) (r : BitVec 5) (w e n : Nat) : (h.putElem r w e n).emask = h.emask := rfl
@[simp] theorem Strand.putElem_cls (h : Strand) (r : BitVec 5) (w e n : Nat) : (h.putElem r w e n).cls = h.cls := rfl
@[simp] theorem Strand.putElem_rm (h : Strand) (r : BitVec 5) (w e n : Nat) : (h.putElem r w e n).rm = h.rm := rfl
@[simp] theorem Strand.putElem_stripmask (h : Strand) (r : BitVec 5) (w e n : Nat) : (h.putElem r w e n).stripmask = h.stripmask := rfl
@[simp] theorem Strand.putElem_wdef (h : Strand) (r : BitVec 5) (w e n : Nat) : (h.putElem r w e n).wdef = h.wdef := rfl
@[simp] theorem Strand.putElem_wceil (h : Strand) (r : BitVec 5) (w e n : Nat) : (h.putElem r w e n).wceil = h.wceil := rfl
@[simp] theorem Strand.putElem_estep (h : Strand) (r : BitVec 5) (w e n : Nat) : (h.putElem r w e n).estep = h.estep := rfl
@[simp] theorem Strand.putElem_wpt (h : Strand) (r : BitVec 5) (w e n : Nat) : (h.putElem r w e n).wpt = h.wpt := rfl
@[simp] theorem Strand.putElem_watch (h : Strand) (r : BitVec 5) (w e n : Nat) : (h.putElem r w e n).watch = h.watch := rfl
@[simp] theorem Strand.putElem_vtag (h : Strand) (r : BitVec 5) (w e n : Nat) : (h.putElem r w e n).vtag = h.vtag := rfl
@[simp] theorem Strand.putElem_k (h : Strand) (r : BitVec 5) (w e n : Nat) : (h.putElem r w e n).k = h.k := rfl
@[simp] theorem Strand.putElem_m (h : Strand) (r : BitVec 5) (w e n : Nat) : (h.putElem r w e n).m = h.m := rfl
@[simp] theorem Strand.putElem_tshape (h : Strand) (r : BitVec 5) (w e n : Nat) : (h.putElem r w e n).tshape = h.tshape := rfl
@[simp] theorem Strand.putElem_q (h : Strand) (r : BitVec 5) (w e n : Nat) : (h.putElem r w e n).q = h.q := rfl
@[simp] theorem Strand.putElem_ea (h : Strand) (r : BitVec 5) (w e n : Nat) : (h.putElem r w e n).ea = h.ea := rfl
@[simp] theorem Strand.putElem_c (h : Strand) (r : BitVec 5) (w e n : Nat) : (h.putElem r w e n).c = h.c := rfl
@[simp] theorem Strand.putElem_tl (h : Strand) (r : BitVec 5) (w e n : Nat) : (h.putElem r w e n).tl = h.tl := rfl
@[simp] theorem Strand.putElem_slices (h : Strand) (r : BitVec 5) (w e n : Nat) : (h.putElem r w e n).slices = h.slices := rfl
@[simp] theorem Strand.putElem_badSlice (h : Strand) (r : BitVec 5) (w e n : Nat) : (h.putElem r w e n).badSlice = h.badSlice := rfl
@[simp] theorem Strand.putElem_bad (h : Strand) (r : BitVec 5) (w e n : Nat) : (h.putElem r w e n).bad = h.bad := rfl
@[simp] theorem Strand.putElem_sliced (h : Strand) (r : BitVec 5) (w e n : Nat) : (h.putElem r w e n).sliced = h.sliced := rfl
@[simp] theorem Strand.putElem_strip (h : Strand) (r : BitVec 5) (w e n : Nat) : (h.putElem r w e n).strip = h.strip := rfl
@[simp] theorem Strand.putElem_claimed (h : Strand) (r : BitVec 5) (w e n : Nat) : (h.putElem r w e n).claimed = h.claimed := rfl
@[simp] theorem Strand.putElem_kept (h : Strand) (r : BitVec 5) (w e n : Nat) : (h.putElem r w e n).kept = h.kept := rfl
@[simp] theorem Strand.putElem_keptBad (h : Strand) (r : BitVec 5) (w e n : Nat) : (h.putElem r w e n).keptBad = h.keptBad := rfl
@[simp] theorem Strand.putElem_wait (h : Strand) (r : BitVec 5) (w e n : Nat) : (h.putElem r w e n).wait = h.wait := rfl
@[simp] theorem Strand.putElem_cuts (h : Strand) (r : BitVec 5) (w e n : Nat) : (h.putElem r w e n).cuts = h.cuts := rfl
@[simp] theorem Strand.putElem_hits (h : Strand) (r : BitVec 5) (w e n : Nat) : (h.putElem r w e n).hits = h.hits := rfl
@[simp] theorem Strand.putElem_step (h : Strand) (r : BitVec 5) (w e n : Nat) : (h.putElem r w e n).step = h.step := rfl
@[simp] theorem Strand.putElem_hit (h : Strand) (r : BitVec 5) (w e n : Nat) : (h.putElem r w e n).hit = h.hit := rfl
@[simp] theorem Strand.putElem_firing (h : Strand) (r : BitVec 5) (w e n : Nat) : (h.putElem r w e n).firing = h.firing := rfl
@[simp] theorem Strand.putTag_sid (h : Strand) (r : BitVec 5) (t : ETag) : (h.putTag r t).sid = h.sid := rfl
@[simp] theorem Strand.putTag_launch (h : Strand) (r : BitVec 5) (t : ETag) : (h.putTag r t).launch = h.launch := rfl
@[simp] theorem Strand.putTag_idx (h : Strand) (r : BitVec 5) (t : ETag) : (h.putTag r t).idx = h.idx := rfl
@[simp] theorem Strand.putTag_nstr (h : Strand) (r : BitVec 5) (t : ETag) : (h.putTag r t).nstr = h.nstr := rfl
@[simp] theorem Strand.putTag_status (h : Strand) (r : BitVec 5) (t : ETag) : (h.putTag r t).status = h.status := rfl
@[simp] theorem Strand.putTag_place (h : Strand) (r : BitVec 5) (t : ETag) : (h.putTag r t).place = h.place := rfl
@[simp] theorem Strand.putTag_lown (h : Strand) (r : BitVec 5) (t : ETag) : (h.putTag r t).lown = h.lown := rfl
@[simp] theorem Strand.putTag_root (h : Strand) (r : BitVec 5) (t : ETag) : (h.putTag r t).root = h.root := rfl
@[simp] theorem Strand.putTag_asid (h : Strand) (r : BitVec 5) (t : ETag) : (h.putTag r t).asid = h.asid := rfl
@[simp] theorem Strand.putTag_claimVa (h : Strand) (r : BitVec 5) (t : ETag) : (h.putTag r t).claimVa = h.claimVa := rfl
@[simp] theorem Strand.putTag_copies (h : Strand) (r : BitVec 5) (t : ETag) : (h.putTag r t).copies = h.copies := rfl
@[simp] theorem Strand.putTag_saveSeq (h : Strand) (r : BitVec 5) (t : ETag) : (h.putTag r t).saveSeq = h.saveSeq := rfl
@[simp] theorem Strand.putTag_pc (h : Strand) (r : BitVec 5) (t : ETag) : (h.putTag r t).pc = h.pc := rfl
@[simp] theorem Strand.putTag_npc (h : Strand) (r : BitVec 5) (t : ETag) : (h.putTag r t).npc = h.npc := rfl
@[simp] theorem Strand.putTag_x (h : Strand) (r : BitVec 5) (t : ETag) : (h.putTag r t).x = h.x := rfl
@[simp] theorem Strand.putTag_mode (h : Strand) (r : BitVec 5) (t : ETag) : (h.putTag r t).mode = h.mode := rfl
@[simp] theorem Strand.putTag_csr (h : Strand) (r : BitVec 5) (t : ETag) : (h.putTag r t).csr = h.csr := rfl
@[simp] theorem Strand.putTag_vl (h : Strand) (r : BitVec 5) (t : ETag) : (h.putTag r t).vl = h.vl := rfl
@[simp] theorem Strand.putTag_wid (h : Strand) (r : BitVec 5) (t : ETag) : (h.putTag r t).wid = h.wid := rfl
@[simp] theorem Strand.putTag_rgf (h : Strand) (r : BitVec 5) (t : ETag) : (h.putTag r t).rgf = h.rgf := rfl
@[simp] theorem Strand.putTag_vsta (h : Strand) (r : BitVec 5) (t : ETag) : (h.putTag r t).vsta = h.vsta := rfl
@[simp] theorem Strand.putTag_emask (h : Strand) (r : BitVec 5) (t : ETag) : (h.putTag r t).emask = h.emask := rfl
@[simp] theorem Strand.putTag_cls (h : Strand) (r : BitVec 5) (t : ETag) : (h.putTag r t).cls = h.cls := rfl
@[simp] theorem Strand.putTag_rm (h : Strand) (r : BitVec 5) (t : ETag) : (h.putTag r t).rm = h.rm := rfl
@[simp] theorem Strand.putTag_stripmask (h : Strand) (r : BitVec 5) (t : ETag) : (h.putTag r t).stripmask = h.stripmask := rfl
@[simp] theorem Strand.putTag_wdef (h : Strand) (r : BitVec 5) (t : ETag) : (h.putTag r t).wdef = h.wdef := rfl
@[simp] theorem Strand.putTag_wceil (h : Strand) (r : BitVec 5) (t : ETag) : (h.putTag r t).wceil = h.wceil := rfl
@[simp] theorem Strand.putTag_estep (h : Strand) (r : BitVec 5) (t : ETag) : (h.putTag r t).estep = h.estep := rfl
@[simp] theorem Strand.putTag_wpt (h : Strand) (r : BitVec 5) (t : ETag) : (h.putTag r t).wpt = h.wpt := rfl
@[simp] theorem Strand.putTag_watch (h : Strand) (r : BitVec 5) (t : ETag) : (h.putTag r t).watch = h.watch := rfl
@[simp] theorem Strand.putTag_v (h : Strand) (r : BitVec 5) (t : ETag) : (h.putTag r t).v = h.v := rfl
@[simp] theorem Strand.putTag_k (h : Strand) (r : BitVec 5) (t : ETag) : (h.putTag r t).k = h.k := rfl
@[simp] theorem Strand.putTag_m (h : Strand) (r : BitVec 5) (t : ETag) : (h.putTag r t).m = h.m := rfl
@[simp] theorem Strand.putTag_tshape (h : Strand) (r : BitVec 5) (t : ETag) : (h.putTag r t).tshape = h.tshape := rfl
@[simp] theorem Strand.putTag_q (h : Strand) (r : BitVec 5) (t : ETag) : (h.putTag r t).q = h.q := rfl
@[simp] theorem Strand.putTag_ea (h : Strand) (r : BitVec 5) (t : ETag) : (h.putTag r t).ea = h.ea := rfl
@[simp] theorem Strand.putTag_c (h : Strand) (r : BitVec 5) (t : ETag) : (h.putTag r t).c = h.c := rfl
@[simp] theorem Strand.putTag_tl (h : Strand) (r : BitVec 5) (t : ETag) : (h.putTag r t).tl = h.tl := rfl
@[simp] theorem Strand.putTag_slices (h : Strand) (r : BitVec 5) (t : ETag) : (h.putTag r t).slices = h.slices := rfl
@[simp] theorem Strand.putTag_badSlice (h : Strand) (r : BitVec 5) (t : ETag) : (h.putTag r t).badSlice = h.badSlice := rfl
@[simp] theorem Strand.putTag_bad (h : Strand) (r : BitVec 5) (t : ETag) : (h.putTag r t).bad = h.bad := rfl
@[simp] theorem Strand.putTag_sliced (h : Strand) (r : BitVec 5) (t : ETag) : (h.putTag r t).sliced = h.sliced := rfl
@[simp] theorem Strand.putTag_strip (h : Strand) (r : BitVec 5) (t : ETag) : (h.putTag r t).strip = h.strip := rfl
@[simp] theorem Strand.putTag_claimed (h : Strand) (r : BitVec 5) (t : ETag) : (h.putTag r t).claimed = h.claimed := rfl
@[simp] theorem Strand.putTag_kept (h : Strand) (r : BitVec 5) (t : ETag) : (h.putTag r t).kept = h.kept := rfl
@[simp] theorem Strand.putTag_keptBad (h : Strand) (r : BitVec 5) (t : ETag) : (h.putTag r t).keptBad = h.keptBad := rfl
@[simp] theorem Strand.putTag_wait (h : Strand) (r : BitVec 5) (t : ETag) : (h.putTag r t).wait = h.wait := rfl
@[simp] theorem Strand.putTag_cuts (h : Strand) (r : BitVec 5) (t : ETag) : (h.putTag r t).cuts = h.cuts := rfl
@[simp] theorem Strand.putTag_hits (h : Strand) (r : BitVec 5) (t : ETag) : (h.putTag r t).hits = h.hits := rfl
@[simp] theorem Strand.putTag_step (h : Strand) (r : BitVec 5) (t : ETag) : (h.putTag r t).step = h.step := rfl
@[simp] theorem Strand.putTag_hit (h : Strand) (r : BitVec 5) (t : ETag) : (h.putTag r t).hit = h.hit := rfl
@[simp] theorem Strand.putTag_firing (h : Strand) (r : BitVec 5) (t : ETag) : (h.putTag r t).firing = h.firing := rfl
@[simp] theorem Strand.putKbit_sid (h : Strand) (k : BitVec 3) (e : Nat) (b : Bool) : (h.putKbit k e b).sid = h.sid := by unfold Strand.putKbit; split <;> rfl
@[simp] theorem Strand.putKbit_launch (h : Strand) (k : BitVec 3) (e : Nat) (b : Bool) : (h.putKbit k e b).launch = h.launch := by unfold Strand.putKbit; split <;> rfl
@[simp] theorem Strand.putKbit_idx (h : Strand) (k : BitVec 3) (e : Nat) (b : Bool) : (h.putKbit k e b).idx = h.idx := by unfold Strand.putKbit; split <;> rfl
@[simp] theorem Strand.putKbit_nstr (h : Strand) (k : BitVec 3) (e : Nat) (b : Bool) : (h.putKbit k e b).nstr = h.nstr := by unfold Strand.putKbit; split <;> rfl
@[simp] theorem Strand.putKbit_status (h : Strand) (k : BitVec 3) (e : Nat) (b : Bool) : (h.putKbit k e b).status = h.status := by unfold Strand.putKbit; split <;> rfl
@[simp] theorem Strand.putKbit_place (h : Strand) (k : BitVec 3) (e : Nat) (b : Bool) : (h.putKbit k e b).place = h.place := by unfold Strand.putKbit; split <;> rfl
@[simp] theorem Strand.putKbit_lown (h : Strand) (k : BitVec 3) (e : Nat) (b : Bool) : (h.putKbit k e b).lown = h.lown := by unfold Strand.putKbit; split <;> rfl
@[simp] theorem Strand.putKbit_root (h : Strand) (k : BitVec 3) (e : Nat) (b : Bool) : (h.putKbit k e b).root = h.root := by unfold Strand.putKbit; split <;> rfl
@[simp] theorem Strand.putKbit_asid (h : Strand) (k : BitVec 3) (e : Nat) (b : Bool) : (h.putKbit k e b).asid = h.asid := by unfold Strand.putKbit; split <;> rfl
@[simp] theorem Strand.putKbit_claimVa (h : Strand) (k : BitVec 3) (e : Nat) (b : Bool) : (h.putKbit k e b).claimVa = h.claimVa := by unfold Strand.putKbit; split <;> rfl
@[simp] theorem Strand.putKbit_copies (h : Strand) (k : BitVec 3) (e : Nat) (b : Bool) : (h.putKbit k e b).copies = h.copies := by unfold Strand.putKbit; split <;> rfl
@[simp] theorem Strand.putKbit_saveSeq (h : Strand) (k : BitVec 3) (e : Nat) (b : Bool) : (h.putKbit k e b).saveSeq = h.saveSeq := by unfold Strand.putKbit; split <;> rfl
@[simp] theorem Strand.putKbit_pc (h : Strand) (k : BitVec 3) (e : Nat) (b : Bool) : (h.putKbit k e b).pc = h.pc := by unfold Strand.putKbit; split <;> rfl
@[simp] theorem Strand.putKbit_npc (h : Strand) (k : BitVec 3) (e : Nat) (b : Bool) : (h.putKbit k e b).npc = h.npc := by unfold Strand.putKbit; split <;> rfl
@[simp] theorem Strand.putKbit_x (h : Strand) (k : BitVec 3) (e : Nat) (b : Bool) : (h.putKbit k e b).x = h.x := by unfold Strand.putKbit; split <;> rfl
@[simp] theorem Strand.putKbit_mode (h : Strand) (k : BitVec 3) (e : Nat) (b : Bool) : (h.putKbit k e b).mode = h.mode := by unfold Strand.putKbit; split <;> rfl
@[simp] theorem Strand.putKbit_csr (h : Strand) (k : BitVec 3) (e : Nat) (b : Bool) : (h.putKbit k e b).csr = h.csr := by unfold Strand.putKbit; split <;> rfl
@[simp] theorem Strand.putKbit_vl (h : Strand) (k : BitVec 3) (e : Nat) (b : Bool) : (h.putKbit k e b).vl = h.vl := by unfold Strand.putKbit; split <;> rfl
@[simp] theorem Strand.putKbit_wid (h : Strand) (k : BitVec 3) (e : Nat) (b : Bool) : (h.putKbit k e b).wid = h.wid := by unfold Strand.putKbit; split <;> rfl
@[simp] theorem Strand.putKbit_rgf (h : Strand) (k : BitVec 3) (e : Nat) (b : Bool) : (h.putKbit k e b).rgf = h.rgf := by unfold Strand.putKbit; split <;> rfl
@[simp] theorem Strand.putKbit_vsta (h : Strand) (k : BitVec 3) (e : Nat) (b : Bool) : (h.putKbit k e b).vsta = h.vsta := by unfold Strand.putKbit; split <;> rfl
@[simp] theorem Strand.putKbit_emask (h : Strand) (k : BitVec 3) (e : Nat) (b : Bool) : (h.putKbit k e b).emask = h.emask := by unfold Strand.putKbit; split <;> rfl
@[simp] theorem Strand.putKbit_cls (h : Strand) (k : BitVec 3) (e : Nat) (b : Bool) : (h.putKbit k e b).cls = h.cls := by unfold Strand.putKbit; split <;> rfl
@[simp] theorem Strand.putKbit_rm (h : Strand) (k : BitVec 3) (e : Nat) (b : Bool) : (h.putKbit k e b).rm = h.rm := by unfold Strand.putKbit; split <;> rfl
@[simp] theorem Strand.putKbit_stripmask (h : Strand) (k : BitVec 3) (e : Nat) (b : Bool) : (h.putKbit k e b).stripmask = h.stripmask := by unfold Strand.putKbit; split <;> rfl
@[simp] theorem Strand.putKbit_wdef (h : Strand) (k : BitVec 3) (e : Nat) (b : Bool) : (h.putKbit k e b).wdef = h.wdef := by unfold Strand.putKbit; split <;> rfl
@[simp] theorem Strand.putKbit_wceil (h : Strand) (k : BitVec 3) (e : Nat) (b : Bool) : (h.putKbit k e b).wceil = h.wceil := by unfold Strand.putKbit; split <;> rfl
@[simp] theorem Strand.putKbit_estep (h : Strand) (k : BitVec 3) (e : Nat) (b : Bool) : (h.putKbit k e b).estep = h.estep := by unfold Strand.putKbit; split <;> rfl
@[simp] theorem Strand.putKbit_wpt (h : Strand) (k : BitVec 3) (e : Nat) (b : Bool) : (h.putKbit k e b).wpt = h.wpt := by unfold Strand.putKbit; split <;> rfl
@[simp] theorem Strand.putKbit_watch (h : Strand) (k : BitVec 3) (e : Nat) (b : Bool) : (h.putKbit k e b).watch = h.watch := by unfold Strand.putKbit; split <;> rfl
@[simp] theorem Strand.putKbit_v (h : Strand) (k : BitVec 3) (e : Nat) (b : Bool) : (h.putKbit k e b).v = h.v := by unfold Strand.putKbit; split <;> rfl
@[simp] theorem Strand.putKbit_vtag (h : Strand) (k : BitVec 3) (e : Nat) (b : Bool) : (h.putKbit k e b).vtag = h.vtag := by unfold Strand.putKbit; split <;> rfl
@[simp] theorem Strand.putKbit_m (h : Strand) (k : BitVec 3) (e : Nat) (b : Bool) : (h.putKbit k e b).m = h.m := by unfold Strand.putKbit; split <;> rfl
@[simp] theorem Strand.putKbit_tshape (h : Strand) (k : BitVec 3) (e : Nat) (b : Bool) : (h.putKbit k e b).tshape = h.tshape := by unfold Strand.putKbit; split <;> rfl
@[simp] theorem Strand.putKbit_q (h : Strand) (k : BitVec 3) (e : Nat) (b : Bool) : (h.putKbit k e b).q = h.q := by unfold Strand.putKbit; split <;> rfl
@[simp] theorem Strand.putKbit_ea (h : Strand) (k : BitVec 3) (e : Nat) (b : Bool) : (h.putKbit k e b).ea = h.ea := by unfold Strand.putKbit; split <;> rfl
@[simp] theorem Strand.putKbit_c (h : Strand) (k : BitVec 3) (e : Nat) (b : Bool) : (h.putKbit k e b).c = h.c := by unfold Strand.putKbit; split <;> rfl
@[simp] theorem Strand.putKbit_tl (h : Strand) (k : BitVec 3) (e : Nat) (b : Bool) : (h.putKbit k e b).tl = h.tl := by unfold Strand.putKbit; split <;> rfl
@[simp] theorem Strand.putKbit_slices (h : Strand) (k : BitVec 3) (e : Nat) (b : Bool) : (h.putKbit k e b).slices = h.slices := by unfold Strand.putKbit; split <;> rfl
@[simp] theorem Strand.putKbit_badSlice (h : Strand) (k : BitVec 3) (e : Nat) (b : Bool) : (h.putKbit k e b).badSlice = h.badSlice := by unfold Strand.putKbit; split <;> rfl
@[simp] theorem Strand.putKbit_bad (h : Strand) (k : BitVec 3) (e : Nat) (b : Bool) : (h.putKbit k e b).bad = h.bad := by unfold Strand.putKbit; split <;> rfl
@[simp] theorem Strand.putKbit_sliced (h : Strand) (k : BitVec 3) (e : Nat) (b : Bool) : (h.putKbit k e b).sliced = h.sliced := by unfold Strand.putKbit; split <;> rfl
@[simp] theorem Strand.putKbit_strip (h : Strand) (k : BitVec 3) (e : Nat) (b : Bool) : (h.putKbit k e b).strip = h.strip := by unfold Strand.putKbit; split <;> rfl
@[simp] theorem Strand.putKbit_claimed (h : Strand) (k : BitVec 3) (e : Nat) (b : Bool) : (h.putKbit k e b).claimed = h.claimed := by unfold Strand.putKbit; split <;> rfl
@[simp] theorem Strand.putKbit_kept (h : Strand) (k : BitVec 3) (e : Nat) (b : Bool) : (h.putKbit k e b).kept = h.kept := by unfold Strand.putKbit; split <;> rfl
@[simp] theorem Strand.putKbit_keptBad (h : Strand) (k : BitVec 3) (e : Nat) (b : Bool) : (h.putKbit k e b).keptBad = h.keptBad := by unfold Strand.putKbit; split <;> rfl
@[simp] theorem Strand.putKbit_wait (h : Strand) (k : BitVec 3) (e : Nat) (b : Bool) : (h.putKbit k e b).wait = h.wait := by unfold Strand.putKbit; split <;> rfl
@[simp] theorem Strand.putKbit_cuts (h : Strand) (k : BitVec 3) (e : Nat) (b : Bool) : (h.putKbit k e b).cuts = h.cuts := by unfold Strand.putKbit; split <;> rfl
@[simp] theorem Strand.putKbit_hits (h : Strand) (k : BitVec 3) (e : Nat) (b : Bool) : (h.putKbit k e b).hits = h.hits := by unfold Strand.putKbit; split <;> rfl
@[simp] theorem Strand.putKbit_step (h : Strand) (k : BitVec 3) (e : Nat) (b : Bool) : (h.putKbit k e b).step = h.step := by unfold Strand.putKbit; split <;> rfl
@[simp] theorem Strand.putKbit_hit (h : Strand) (k : BitVec 3) (e : Nat) (b : Bool) : (h.putKbit k e b).hit = h.hit := by unfold Strand.putKbit; split <;> rfl
@[simp] theorem Strand.putKbit_firing (h : Strand) (k : BitVec 3) (e : Nat) (b : Bool) : (h.putKbit k e b).firing = h.firing := by unfold Strand.putKbit; split <;> rfl
@[simp] theorem Strand.putTile_sid (h : Strand) (m : BitVec 3) (w i j n : Nat) : (h.putTile m w i j n).sid = h.sid := rfl
@[simp] theorem Strand.putTile_launch (h : Strand) (m : BitVec 3) (w i j n : Nat) : (h.putTile m w i j n).launch = h.launch := rfl
@[simp] theorem Strand.putTile_idx (h : Strand) (m : BitVec 3) (w i j n : Nat) : (h.putTile m w i j n).idx = h.idx := rfl
@[simp] theorem Strand.putTile_nstr (h : Strand) (m : BitVec 3) (w i j n : Nat) : (h.putTile m w i j n).nstr = h.nstr := rfl
@[simp] theorem Strand.putTile_status (h : Strand) (m : BitVec 3) (w i j n : Nat) : (h.putTile m w i j n).status = h.status := rfl
@[simp] theorem Strand.putTile_place (h : Strand) (m : BitVec 3) (w i j n : Nat) : (h.putTile m w i j n).place = h.place := rfl
@[simp] theorem Strand.putTile_lown (h : Strand) (m : BitVec 3) (w i j n : Nat) : (h.putTile m w i j n).lown = h.lown := rfl
@[simp] theorem Strand.putTile_root (h : Strand) (m : BitVec 3) (w i j n : Nat) : (h.putTile m w i j n).root = h.root := rfl
@[simp] theorem Strand.putTile_asid (h : Strand) (m : BitVec 3) (w i j n : Nat) : (h.putTile m w i j n).asid = h.asid := rfl
@[simp] theorem Strand.putTile_claimVa (h : Strand) (m : BitVec 3) (w i j n : Nat) : (h.putTile m w i j n).claimVa = h.claimVa := rfl
@[simp] theorem Strand.putTile_copies (h : Strand) (m : BitVec 3) (w i j n : Nat) : (h.putTile m w i j n).copies = h.copies := rfl
@[simp] theorem Strand.putTile_saveSeq (h : Strand) (m : BitVec 3) (w i j n : Nat) : (h.putTile m w i j n).saveSeq = h.saveSeq := rfl
@[simp] theorem Strand.putTile_pc (h : Strand) (m : BitVec 3) (w i j n : Nat) : (h.putTile m w i j n).pc = h.pc := rfl
@[simp] theorem Strand.putTile_npc (h : Strand) (m : BitVec 3) (w i j n : Nat) : (h.putTile m w i j n).npc = h.npc := rfl
@[simp] theorem Strand.putTile_x (h : Strand) (m : BitVec 3) (w i j n : Nat) : (h.putTile m w i j n).x = h.x := rfl
@[simp] theorem Strand.putTile_mode (h : Strand) (m : BitVec 3) (w i j n : Nat) : (h.putTile m w i j n).mode = h.mode := rfl
@[simp] theorem Strand.putTile_csr (h : Strand) (m : BitVec 3) (w i j n : Nat) : (h.putTile m w i j n).csr = h.csr := rfl
@[simp] theorem Strand.putTile_vl (h : Strand) (m : BitVec 3) (w i j n : Nat) : (h.putTile m w i j n).vl = h.vl := rfl
@[simp] theorem Strand.putTile_wid (h : Strand) (m : BitVec 3) (w i j n : Nat) : (h.putTile m w i j n).wid = h.wid := rfl
@[simp] theorem Strand.putTile_rgf (h : Strand) (m : BitVec 3) (w i j n : Nat) : (h.putTile m w i j n).rgf = h.rgf := rfl
@[simp] theorem Strand.putTile_vsta (h : Strand) (m : BitVec 3) (w i j n : Nat) : (h.putTile m w i j n).vsta = h.vsta := rfl
@[simp] theorem Strand.putTile_emask (h : Strand) (m : BitVec 3) (w i j n : Nat) : (h.putTile m w i j n).emask = h.emask := rfl
@[simp] theorem Strand.putTile_cls (h : Strand) (m : BitVec 3) (w i j n : Nat) : (h.putTile m w i j n).cls = h.cls := rfl
@[simp] theorem Strand.putTile_rm (h : Strand) (m : BitVec 3) (w i j n : Nat) : (h.putTile m w i j n).rm = h.rm := rfl
@[simp] theorem Strand.putTile_stripmask (h : Strand) (m : BitVec 3) (w i j n : Nat) : (h.putTile m w i j n).stripmask = h.stripmask := rfl
@[simp] theorem Strand.putTile_wdef (h : Strand) (m : BitVec 3) (w i j n : Nat) : (h.putTile m w i j n).wdef = h.wdef := rfl
@[simp] theorem Strand.putTile_wceil (h : Strand) (m : BitVec 3) (w i j n : Nat) : (h.putTile m w i j n).wceil = h.wceil := rfl
@[simp] theorem Strand.putTile_estep (h : Strand) (m : BitVec 3) (w i j n : Nat) : (h.putTile m w i j n).estep = h.estep := rfl
@[simp] theorem Strand.putTile_wpt (h : Strand) (m : BitVec 3) (w i j n : Nat) : (h.putTile m w i j n).wpt = h.wpt := rfl
@[simp] theorem Strand.putTile_watch (h : Strand) (m : BitVec 3) (w i j n : Nat) : (h.putTile m w i j n).watch = h.watch := rfl
@[simp] theorem Strand.putTile_v (h : Strand) (m : BitVec 3) (w i j n : Nat) : (h.putTile m w i j n).v = h.v := rfl
@[simp] theorem Strand.putTile_vtag (h : Strand) (m : BitVec 3) (w i j n : Nat) : (h.putTile m w i j n).vtag = h.vtag := rfl
@[simp] theorem Strand.putTile_k (h : Strand) (m : BitVec 3) (w i j n : Nat) : (h.putTile m w i j n).k = h.k := rfl
@[simp] theorem Strand.putTile_tshape (h : Strand) (m : BitVec 3) (w i j n : Nat) : (h.putTile m w i j n).tshape = h.tshape := rfl
@[simp] theorem Strand.putTile_q (h : Strand) (m : BitVec 3) (w i j n : Nat) : (h.putTile m w i j n).q = h.q := rfl
@[simp] theorem Strand.putTile_ea (h : Strand) (m : BitVec 3) (w i j n : Nat) : (h.putTile m w i j n).ea = h.ea := rfl
@[simp] theorem Strand.putTile_c (h : Strand) (m : BitVec 3) (w i j n : Nat) : (h.putTile m w i j n).c = h.c := rfl
@[simp] theorem Strand.putTile_tl (h : Strand) (m : BitVec 3) (w i j n : Nat) : (h.putTile m w i j n).tl = h.tl := rfl
@[simp] theorem Strand.putTile_slices (h : Strand) (m : BitVec 3) (w i j n : Nat) : (h.putTile m w i j n).slices = h.slices := rfl
@[simp] theorem Strand.putTile_badSlice (h : Strand) (m : BitVec 3) (w i j n : Nat) : (h.putTile m w i j n).badSlice = h.badSlice := rfl
@[simp] theorem Strand.putTile_bad (h : Strand) (m : BitVec 3) (w i j n : Nat) : (h.putTile m w i j n).bad = h.bad := rfl
@[simp] theorem Strand.putTile_sliced (h : Strand) (m : BitVec 3) (w i j n : Nat) : (h.putTile m w i j n).sliced = h.sliced := rfl
@[simp] theorem Strand.putTile_strip (h : Strand) (m : BitVec 3) (w i j n : Nat) : (h.putTile m w i j n).strip = h.strip := rfl
@[simp] theorem Strand.putTile_claimed (h : Strand) (m : BitVec 3) (w i j n : Nat) : (h.putTile m w i j n).claimed = h.claimed := rfl
@[simp] theorem Strand.putTile_kept (h : Strand) (m : BitVec 3) (w i j n : Nat) : (h.putTile m w i j n).kept = h.kept := rfl
@[simp] theorem Strand.putTile_keptBad (h : Strand) (m : BitVec 3) (w i j n : Nat) : (h.putTile m w i j n).keptBad = h.keptBad := rfl
@[simp] theorem Strand.putTile_wait (h : Strand) (m : BitVec 3) (w i j n : Nat) : (h.putTile m w i j n).wait = h.wait := rfl
@[simp] theorem Strand.putTile_cuts (h : Strand) (m : BitVec 3) (w i j n : Nat) : (h.putTile m w i j n).cuts = h.cuts := rfl
@[simp] theorem Strand.putTile_hits (h : Strand) (m : BitVec 3) (w i j n : Nat) : (h.putTile m w i j n).hits = h.hits := rfl
@[simp] theorem Strand.putTile_step (h : Strand) (m : BitVec 3) (w i j n : Nat) : (h.putTile m w i j n).step = h.step := rfl
@[simp] theorem Strand.putTile_hit (h : Strand) (m : BitVec 3) (w i j n : Nat) : (h.putTile m w i j n).hit = h.hit := rfl
@[simp] theorem Strand.putTile_firing (h : Strand) (m : BitVec 3) (w i j n : Nat) : (h.putTile m w i j n).firing = h.firing := rfl
@[simp] theorem Strand.putSlice_sid (h : Strand) (k : Nat) (bs : List Byte) : (h.putSlice k bs).sid = h.sid := rfl
@[simp] theorem Strand.putSlice_launch (h : Strand) (k : Nat) (bs : List Byte) : (h.putSlice k bs).launch = h.launch := rfl
@[simp] theorem Strand.putSlice_idx (h : Strand) (k : Nat) (bs : List Byte) : (h.putSlice k bs).idx = h.idx := rfl
@[simp] theorem Strand.putSlice_nstr (h : Strand) (k : Nat) (bs : List Byte) : (h.putSlice k bs).nstr = h.nstr := rfl
@[simp] theorem Strand.putSlice_status (h : Strand) (k : Nat) (bs : List Byte) : (h.putSlice k bs).status = h.status := rfl
@[simp] theorem Strand.putSlice_place (h : Strand) (k : Nat) (bs : List Byte) : (h.putSlice k bs).place = h.place := rfl
@[simp] theorem Strand.putSlice_lown (h : Strand) (k : Nat) (bs : List Byte) : (h.putSlice k bs).lown = h.lown := rfl
@[simp] theorem Strand.putSlice_root (h : Strand) (k : Nat) (bs : List Byte) : (h.putSlice k bs).root = h.root := rfl
@[simp] theorem Strand.putSlice_asid (h : Strand) (k : Nat) (bs : List Byte) : (h.putSlice k bs).asid = h.asid := rfl
@[simp] theorem Strand.putSlice_claimVa (h : Strand) (k : Nat) (bs : List Byte) : (h.putSlice k bs).claimVa = h.claimVa := rfl
@[simp] theorem Strand.putSlice_copies (h : Strand) (k : Nat) (bs : List Byte) : (h.putSlice k bs).copies = h.copies := rfl
@[simp] theorem Strand.putSlice_saveSeq (h : Strand) (k : Nat) (bs : List Byte) : (h.putSlice k bs).saveSeq = h.saveSeq := rfl
@[simp] theorem Strand.putSlice_pc (h : Strand) (k : Nat) (bs : List Byte) : (h.putSlice k bs).pc = h.pc := rfl
@[simp] theorem Strand.putSlice_npc (h : Strand) (k : Nat) (bs : List Byte) : (h.putSlice k bs).npc = h.npc := rfl
@[simp] theorem Strand.putSlice_x (h : Strand) (k : Nat) (bs : List Byte) : (h.putSlice k bs).x = h.x := rfl
@[simp] theorem Strand.putSlice_mode (h : Strand) (k : Nat) (bs : List Byte) : (h.putSlice k bs).mode = h.mode := rfl
@[simp] theorem Strand.putSlice_csr (h : Strand) (k : Nat) (bs : List Byte) : (h.putSlice k bs).csr = h.csr := rfl
@[simp] theorem Strand.putSlice_vl (h : Strand) (k : Nat) (bs : List Byte) : (h.putSlice k bs).vl = h.vl := rfl
@[simp] theorem Strand.putSlice_wid (h : Strand) (k : Nat) (bs : List Byte) : (h.putSlice k bs).wid = h.wid := rfl
@[simp] theorem Strand.putSlice_rgf (h : Strand) (k : Nat) (bs : List Byte) : (h.putSlice k bs).rgf = h.rgf := rfl
@[simp] theorem Strand.putSlice_vsta (h : Strand) (k : Nat) (bs : List Byte) : (h.putSlice k bs).vsta = h.vsta := rfl
@[simp] theorem Strand.putSlice_emask (h : Strand) (k : Nat) (bs : List Byte) : (h.putSlice k bs).emask = h.emask := rfl
@[simp] theorem Strand.putSlice_cls (h : Strand) (k : Nat) (bs : List Byte) : (h.putSlice k bs).cls = h.cls := rfl
@[simp] theorem Strand.putSlice_rm (h : Strand) (k : Nat) (bs : List Byte) : (h.putSlice k bs).rm = h.rm := rfl
@[simp] theorem Strand.putSlice_stripmask (h : Strand) (k : Nat) (bs : List Byte) : (h.putSlice k bs).stripmask = h.stripmask := rfl
@[simp] theorem Strand.putSlice_wdef (h : Strand) (k : Nat) (bs : List Byte) : (h.putSlice k bs).wdef = h.wdef := rfl
@[simp] theorem Strand.putSlice_wceil (h : Strand) (k : Nat) (bs : List Byte) : (h.putSlice k bs).wceil = h.wceil := rfl
@[simp] theorem Strand.putSlice_estep (h : Strand) (k : Nat) (bs : List Byte) : (h.putSlice k bs).estep = h.estep := rfl
@[simp] theorem Strand.putSlice_wpt (h : Strand) (k : Nat) (bs : List Byte) : (h.putSlice k bs).wpt = h.wpt := rfl
@[simp] theorem Strand.putSlice_watch (h : Strand) (k : Nat) (bs : List Byte) : (h.putSlice k bs).watch = h.watch := rfl
@[simp] theorem Strand.putSlice_v (h : Strand) (k : Nat) (bs : List Byte) : (h.putSlice k bs).v = h.v := rfl
@[simp] theorem Strand.putSlice_vtag (h : Strand) (k : Nat) (bs : List Byte) : (h.putSlice k bs).vtag = h.vtag := rfl
@[simp] theorem Strand.putSlice_k (h : Strand) (k : Nat) (bs : List Byte) : (h.putSlice k bs).k = h.k := rfl
@[simp] theorem Strand.putSlice_m (h : Strand) (k : Nat) (bs : List Byte) : (h.putSlice k bs).m = h.m := rfl
@[simp] theorem Strand.putSlice_tshape (h : Strand) (k : Nat) (bs : List Byte) : (h.putSlice k bs).tshape = h.tshape := rfl
@[simp] theorem Strand.putSlice_q (h : Strand) (k : Nat) (bs : List Byte) : (h.putSlice k bs).q = h.q := rfl
@[simp] theorem Strand.putSlice_ea (h : Strand) (k : Nat) (bs : List Byte) : (h.putSlice k bs).ea = h.ea := rfl
@[simp] theorem Strand.putSlice_c (h : Strand) (k : Nat) (bs : List Byte) : (h.putSlice k bs).c = h.c := rfl
@[simp] theorem Strand.putSlice_tl (h : Strand) (k : Nat) (bs : List Byte) : (h.putSlice k bs).tl = h.tl := rfl
@[simp] theorem Strand.putSlice_bad (h : Strand) (k : Nat) (bs : List Byte) : (h.putSlice k bs).bad = h.bad := rfl
@[simp] theorem Strand.putSlice_sliced (h : Strand) (k : Nat) (bs : List Byte) : (h.putSlice k bs).sliced = h.sliced := rfl
@[simp] theorem Strand.putSlice_strip (h : Strand) (k : Nat) (bs : List Byte) : (h.putSlice k bs).strip = h.strip := rfl
@[simp] theorem Strand.putSlice_claimed (h : Strand) (k : Nat) (bs : List Byte) : (h.putSlice k bs).claimed = h.claimed := rfl
@[simp] theorem Strand.putSlice_kept (h : Strand) (k : Nat) (bs : List Byte) : (h.putSlice k bs).kept = h.kept := rfl
@[simp] theorem Strand.putSlice_keptBad (h : Strand) (k : Nat) (bs : List Byte) : (h.putSlice k bs).keptBad = h.keptBad := rfl
@[simp] theorem Strand.putSlice_wait (h : Strand) (k : Nat) (bs : List Byte) : (h.putSlice k bs).wait = h.wait := rfl
@[simp] theorem Strand.putSlice_cuts (h : Strand) (k : Nat) (bs : List Byte) : (h.putSlice k bs).cuts = h.cuts := rfl
@[simp] theorem Strand.putSlice_hits (h : Strand) (k : Nat) (bs : List Byte) : (h.putSlice k bs).hits = h.hits := rfl
@[simp] theorem Strand.putSlice_step (h : Strand) (k : Nat) (bs : List Byte) : (h.putSlice k bs).step = h.step := rfl
@[simp] theorem Strand.putSlice_hit (h : Strand) (k : Nat) (bs : List Byte) : (h.putSlice k bs).hit = h.hit := rfl
@[simp] theorem Strand.putSlice_firing (h : Strand) (k : Nat) (bs : List Byte) : (h.putSlice k bs).firing = h.firing := rfl
@[simp] theorem Strand.flag_sid (h : Strand) (e : Nat) (c : Cls) : (h.flag e c).sid = h.sid := by unfold Strand.flag; split <;> rfl
@[simp] theorem Strand.flag_launch (h : Strand) (e : Nat) (c : Cls) : (h.flag e c).launch = h.launch := by unfold Strand.flag; split <;> rfl
@[simp] theorem Strand.flag_idx (h : Strand) (e : Nat) (c : Cls) : (h.flag e c).idx = h.idx := by unfold Strand.flag; split <;> rfl
@[simp] theorem Strand.flag_nstr (h : Strand) (e : Nat) (c : Cls) : (h.flag e c).nstr = h.nstr := by unfold Strand.flag; split <;> rfl
@[simp] theorem Strand.flag_status (h : Strand) (e : Nat) (c : Cls) : (h.flag e c).status = h.status := by unfold Strand.flag; split <;> rfl
@[simp] theorem Strand.flag_place (h : Strand) (e : Nat) (c : Cls) : (h.flag e c).place = h.place := by unfold Strand.flag; split <;> rfl
@[simp] theorem Strand.flag_lown (h : Strand) (e : Nat) (c : Cls) : (h.flag e c).lown = h.lown := by unfold Strand.flag; split <;> rfl
@[simp] theorem Strand.flag_root (h : Strand) (e : Nat) (c : Cls) : (h.flag e c).root = h.root := by unfold Strand.flag; split <;> rfl
@[simp] theorem Strand.flag_asid (h : Strand) (e : Nat) (c : Cls) : (h.flag e c).asid = h.asid := by unfold Strand.flag; split <;> rfl
@[simp] theorem Strand.flag_claimVa (h : Strand) (e : Nat) (c : Cls) : (h.flag e c).claimVa = h.claimVa := by unfold Strand.flag; split <;> rfl
@[simp] theorem Strand.flag_copies (h : Strand) (e : Nat) (c : Cls) : (h.flag e c).copies = h.copies := by unfold Strand.flag; split <;> rfl
@[simp] theorem Strand.flag_saveSeq (h : Strand) (e : Nat) (c : Cls) : (h.flag e c).saveSeq = h.saveSeq := by unfold Strand.flag; split <;> rfl
@[simp] theorem Strand.flag_pc (h : Strand) (e : Nat) (c : Cls) : (h.flag e c).pc = h.pc := by unfold Strand.flag; split <;> rfl
@[simp] theorem Strand.flag_npc (h : Strand) (e : Nat) (c : Cls) : (h.flag e c).npc = h.npc := by unfold Strand.flag; split <;> rfl
@[simp] theorem Strand.flag_x (h : Strand) (e : Nat) (c : Cls) : (h.flag e c).x = h.x := by unfold Strand.flag; split <;> rfl
@[simp] theorem Strand.flag_mode (h : Strand) (e : Nat) (c : Cls) : (h.flag e c).mode = h.mode := by unfold Strand.flag; split <;> rfl
@[simp] theorem Strand.flag_csr (h : Strand) (e : Nat) (c : Cls) : (h.flag e c).csr = h.csr := by unfold Strand.flag; split <;> rfl
@[simp] theorem Strand.flag_vl (h : Strand) (e : Nat) (c : Cls) : (h.flag e c).vl = h.vl := by unfold Strand.flag; split <;> rfl
@[simp] theorem Strand.flag_wid (h : Strand) (e : Nat) (c : Cls) : (h.flag e c).wid = h.wid := by unfold Strand.flag; split <;> rfl
@[simp] theorem Strand.flag_rgf (h : Strand) (e : Nat) (c : Cls) : (h.flag e c).rgf = h.rgf := by unfold Strand.flag; split <;> rfl
@[simp] theorem Strand.flag_vsta (h : Strand) (e : Nat) (c : Cls) : (h.flag e c).vsta = h.vsta := by unfold Strand.flag; split <;> rfl
@[simp] theorem Strand.flag_cls (h : Strand) (e : Nat) (c : Cls) : (h.flag e c).cls = h.cls := by unfold Strand.flag; split <;> rfl
@[simp] theorem Strand.flag_rm (h : Strand) (e : Nat) (c : Cls) : (h.flag e c).rm = h.rm := by unfold Strand.flag; split <;> rfl
@[simp] theorem Strand.flag_stripmask (h : Strand) (e : Nat) (c : Cls) : (h.flag e c).stripmask = h.stripmask := by unfold Strand.flag; split <;> rfl
@[simp] theorem Strand.flag_wdef (h : Strand) (e : Nat) (c : Cls) : (h.flag e c).wdef = h.wdef := by unfold Strand.flag; split <;> rfl
@[simp] theorem Strand.flag_wceil (h : Strand) (e : Nat) (c : Cls) : (h.flag e c).wceil = h.wceil := by unfold Strand.flag; split <;> rfl
@[simp] theorem Strand.flag_estep (h : Strand) (e : Nat) (c : Cls) : (h.flag e c).estep = h.estep := by unfold Strand.flag; split <;> rfl
@[simp] theorem Strand.flag_wpt (h : Strand) (e : Nat) (c : Cls) : (h.flag e c).wpt = h.wpt := by unfold Strand.flag; split <;> rfl
@[simp] theorem Strand.flag_watch (h : Strand) (e : Nat) (c : Cls) : (h.flag e c).watch = h.watch := by unfold Strand.flag; split <;> rfl
@[simp] theorem Strand.flag_v (h : Strand) (e : Nat) (c : Cls) : (h.flag e c).v = h.v := by unfold Strand.flag; split <;> rfl
@[simp] theorem Strand.flag_vtag (h : Strand) (e : Nat) (c : Cls) : (h.flag e c).vtag = h.vtag := by unfold Strand.flag; split <;> rfl
@[simp] theorem Strand.flag_k (h : Strand) (e : Nat) (c : Cls) : (h.flag e c).k = h.k := by unfold Strand.flag; split <;> rfl
@[simp] theorem Strand.flag_m (h : Strand) (e : Nat) (c : Cls) : (h.flag e c).m = h.m := by unfold Strand.flag; split <;> rfl
@[simp] theorem Strand.flag_tshape (h : Strand) (e : Nat) (c : Cls) : (h.flag e c).tshape = h.tshape := by unfold Strand.flag; split <;> rfl
@[simp] theorem Strand.flag_q (h : Strand) (e : Nat) (c : Cls) : (h.flag e c).q = h.q := by unfold Strand.flag; split <;> rfl
@[simp] theorem Strand.flag_ea (h : Strand) (e : Nat) (c : Cls) : (h.flag e c).ea = h.ea := by unfold Strand.flag; split <;> rfl
@[simp] theorem Strand.flag_c (h : Strand) (e : Nat) (c : Cls) : (h.flag e c).c = h.c := by unfold Strand.flag; split <;> rfl
@[simp] theorem Strand.flag_tl (h : Strand) (e : Nat) (c : Cls) : (h.flag e c).tl = h.tl := by unfold Strand.flag; split <;> rfl
@[simp] theorem Strand.flag_slices (h : Strand) (e : Nat) (c : Cls) : (h.flag e c).slices = h.slices := by unfold Strand.flag; split <;> rfl
@[simp] theorem Strand.flag_badSlice (h : Strand) (e : Nat) (c : Cls) : (h.flag e c).badSlice = h.badSlice := by unfold Strand.flag; split <;> rfl
@[simp] theorem Strand.flag_bad (h : Strand) (e : Nat) (c : Cls) : (h.flag e c).bad = h.bad := by unfold Strand.flag; split <;> rfl
@[simp] theorem Strand.flag_sliced (h : Strand) (e : Nat) (c : Cls) : (h.flag e c).sliced = h.sliced := by unfold Strand.flag; split <;> rfl
@[simp] theorem Strand.flag_strip (h : Strand) (e : Nat) (c : Cls) : (h.flag e c).strip = h.strip := by unfold Strand.flag; split <;> rfl
@[simp] theorem Strand.flag_claimed (h : Strand) (e : Nat) (c : Cls) : (h.flag e c).claimed = h.claimed := by unfold Strand.flag; split <;> rfl
@[simp] theorem Strand.flag_kept (h : Strand) (e : Nat) (c : Cls) : (h.flag e c).kept = h.kept := by unfold Strand.flag; split <;> rfl
@[simp] theorem Strand.flag_keptBad (h : Strand) (e : Nat) (c : Cls) : (h.flag e c).keptBad = h.keptBad := by unfold Strand.flag; split <;> rfl
@[simp] theorem Strand.flag_wait (h : Strand) (e : Nat) (c : Cls) : (h.flag e c).wait = h.wait := by unfold Strand.flag; split <;> rfl
@[simp] theorem Strand.flag_cuts (h : Strand) (e : Nat) (c : Cls) : (h.flag e c).cuts = h.cuts := by unfold Strand.flag; split <;> rfl
@[simp] theorem Strand.flag_hits (h : Strand) (e : Nat) (c : Cls) : (h.flag e c).hits = h.hits := by unfold Strand.flag; split <;> rfl
@[simp] theorem Strand.flag_step (h : Strand) (e : Nat) (c : Cls) : (h.flag e c).step = h.step := by unfold Strand.flag; split <;> rfl
@[simp] theorem Strand.flag_hit (h : Strand) (e : Nat) (c : Cls) : (h.flag e c).hit = h.hit := by unfold Strand.flag; split <;> rfl
@[simp] theorem Strand.flag_firing (h : Strand) (e : Nat) (c : Cls) : (h.flag e c).firing = h.firing := by unfold Strand.flag; split <;> rfl
@[simp] theorem Strand.heal_sid (h : Strand) (a b : Nat) (ws : List Nat) : (h.heal a b ws).sid = h.sid := by unfold Strand.heal; split <;> rfl
@[simp] theorem Strand.heal_launch (h : Strand) (a b : Nat) (ws : List Nat) : (h.heal a b ws).launch = h.launch := by unfold Strand.heal; split <;> rfl
@[simp] theorem Strand.heal_idx (h : Strand) (a b : Nat) (ws : List Nat) : (h.heal a b ws).idx = h.idx := by unfold Strand.heal; split <;> rfl
@[simp] theorem Strand.heal_nstr (h : Strand) (a b : Nat) (ws : List Nat) : (h.heal a b ws).nstr = h.nstr := by unfold Strand.heal; split <;> rfl
@[simp] theorem Strand.heal_status (h : Strand) (a b : Nat) (ws : List Nat) : (h.heal a b ws).status = h.status := by unfold Strand.heal; split <;> rfl
@[simp] theorem Strand.heal_place (h : Strand) (a b : Nat) (ws : List Nat) : (h.heal a b ws).place = h.place := by unfold Strand.heal; split <;> rfl
@[simp] theorem Strand.heal_lown (h : Strand) (a b : Nat) (ws : List Nat) : (h.heal a b ws).lown = h.lown := by unfold Strand.heal; split <;> rfl
@[simp] theorem Strand.heal_root (h : Strand) (a b : Nat) (ws : List Nat) : (h.heal a b ws).root = h.root := by unfold Strand.heal; split <;> rfl
@[simp] theorem Strand.heal_asid (h : Strand) (a b : Nat) (ws : List Nat) : (h.heal a b ws).asid = h.asid := by unfold Strand.heal; split <;> rfl
@[simp] theorem Strand.heal_claimVa (h : Strand) (a b : Nat) (ws : List Nat) : (h.heal a b ws).claimVa = h.claimVa := by unfold Strand.heal; split <;> rfl
@[simp] theorem Strand.heal_copies (h : Strand) (a b : Nat) (ws : List Nat) : (h.heal a b ws).copies = h.copies := by unfold Strand.heal; split <;> rfl
@[simp] theorem Strand.heal_saveSeq (h : Strand) (a b : Nat) (ws : List Nat) : (h.heal a b ws).saveSeq = h.saveSeq := by unfold Strand.heal; split <;> rfl
@[simp] theorem Strand.heal_pc (h : Strand) (a b : Nat) (ws : List Nat) : (h.heal a b ws).pc = h.pc := by unfold Strand.heal; split <;> rfl
@[simp] theorem Strand.heal_npc (h : Strand) (a b : Nat) (ws : List Nat) : (h.heal a b ws).npc = h.npc := by unfold Strand.heal; split <;> rfl
@[simp] theorem Strand.heal_x (h : Strand) (a b : Nat) (ws : List Nat) : (h.heal a b ws).x = h.x := by unfold Strand.heal; split <;> rfl
@[simp] theorem Strand.heal_mode (h : Strand) (a b : Nat) (ws : List Nat) : (h.heal a b ws).mode = h.mode := by unfold Strand.heal; split <;> rfl
@[simp] theorem Strand.heal_csr (h : Strand) (a b : Nat) (ws : List Nat) : (h.heal a b ws).csr = h.csr := by unfold Strand.heal; split <;> rfl
@[simp] theorem Strand.heal_vl (h : Strand) (a b : Nat) (ws : List Nat) : (h.heal a b ws).vl = h.vl := by unfold Strand.heal; split <;> rfl
@[simp] theorem Strand.heal_wid (h : Strand) (a b : Nat) (ws : List Nat) : (h.heal a b ws).wid = h.wid := by unfold Strand.heal; split <;> rfl
@[simp] theorem Strand.heal_rgf (h : Strand) (a b : Nat) (ws : List Nat) : (h.heal a b ws).rgf = h.rgf := by unfold Strand.heal; split <;> rfl
@[simp] theorem Strand.heal_vsta (h : Strand) (a b : Nat) (ws : List Nat) : (h.heal a b ws).vsta = h.vsta := by unfold Strand.heal; split <;> rfl
@[simp] theorem Strand.heal_emask (h : Strand) (a b : Nat) (ws : List Nat) : (h.heal a b ws).emask = h.emask := by unfold Strand.heal; split <;> rfl
@[simp] theorem Strand.heal_cls (h : Strand) (a b : Nat) (ws : List Nat) : (h.heal a b ws).cls = h.cls := by unfold Strand.heal; split <;> rfl
@[simp] theorem Strand.heal_rm (h : Strand) (a b : Nat) (ws : List Nat) : (h.heal a b ws).rm = h.rm := by unfold Strand.heal; split <;> rfl
@[simp] theorem Strand.heal_stripmask (h : Strand) (a b : Nat) (ws : List Nat) : (h.heal a b ws).stripmask = h.stripmask := by unfold Strand.heal; split <;> rfl
@[simp] theorem Strand.heal_wdef (h : Strand) (a b : Nat) (ws : List Nat) : (h.heal a b ws).wdef = h.wdef := by unfold Strand.heal; split <;> rfl
@[simp] theorem Strand.heal_wceil (h : Strand) (a b : Nat) (ws : List Nat) : (h.heal a b ws).wceil = h.wceil := by unfold Strand.heal; split <;> rfl
@[simp] theorem Strand.heal_estep (h : Strand) (a b : Nat) (ws : List Nat) : (h.heal a b ws).estep = h.estep := by unfold Strand.heal; split <;> rfl
@[simp] theorem Strand.heal_wpt (h : Strand) (a b : Nat) (ws : List Nat) : (h.heal a b ws).wpt = h.wpt := by unfold Strand.heal; split <;> rfl
@[simp] theorem Strand.heal_watch (h : Strand) (a b : Nat) (ws : List Nat) : (h.heal a b ws).watch = h.watch := by unfold Strand.heal; split <;> rfl
@[simp] theorem Strand.heal_v (h : Strand) (a b : Nat) (ws : List Nat) : (h.heal a b ws).v = h.v := by unfold Strand.heal; split <;> rfl
@[simp] theorem Strand.heal_vtag (h : Strand) (a b : Nat) (ws : List Nat) : (h.heal a b ws).vtag = h.vtag := by unfold Strand.heal; split <;> rfl
@[simp] theorem Strand.heal_k (h : Strand) (a b : Nat) (ws : List Nat) : (h.heal a b ws).k = h.k := by unfold Strand.heal; split <;> rfl
@[simp] theorem Strand.heal_m (h : Strand) (a b : Nat) (ws : List Nat) : (h.heal a b ws).m = h.m := by unfold Strand.heal; split <;> rfl
@[simp] theorem Strand.heal_tshape (h : Strand) (a b : Nat) (ws : List Nat) : (h.heal a b ws).tshape = h.tshape := by unfold Strand.heal; split <;> rfl
@[simp] theorem Strand.heal_q (h : Strand) (a b : Nat) (ws : List Nat) : (h.heal a b ws).q = h.q := by unfold Strand.heal; split <;> rfl
@[simp] theorem Strand.heal_ea (h : Strand) (a b : Nat) (ws : List Nat) : (h.heal a b ws).ea = h.ea := by unfold Strand.heal; split <;> rfl
@[simp] theorem Strand.heal_c (h : Strand) (a b : Nat) (ws : List Nat) : (h.heal a b ws).c = h.c := by unfold Strand.heal; split <;> rfl
@[simp] theorem Strand.heal_tl (h : Strand) (a b : Nat) (ws : List Nat) : (h.heal a b ws).tl = h.tl := by unfold Strand.heal; split <;> rfl
@[simp] theorem Strand.heal_slices (h : Strand) (a b : Nat) (ws : List Nat) : (h.heal a b ws).slices = h.slices := by unfold Strand.heal; split <;> rfl
@[simp] theorem Strand.heal_badSlice (h : Strand) (a b : Nat) (ws : List Nat) : (h.heal a b ws).badSlice = h.badSlice := by unfold Strand.heal; split <;> rfl
@[simp] theorem Strand.heal_sliced (h : Strand) (a b : Nat) (ws : List Nat) : (h.heal a b ws).sliced = h.sliced := by unfold Strand.heal; split <;> rfl
@[simp] theorem Strand.heal_strip (h : Strand) (a b : Nat) (ws : List Nat) : (h.heal a b ws).strip = h.strip := by unfold Strand.heal; split <;> rfl
@[simp] theorem Strand.heal_claimed (h : Strand) (a b : Nat) (ws : List Nat) : (h.heal a b ws).claimed = h.claimed := by unfold Strand.heal; split <;> rfl
@[simp] theorem Strand.heal_kept (h : Strand) (a b : Nat) (ws : List Nat) : (h.heal a b ws).kept = h.kept := by unfold Strand.heal; split <;> rfl
@[simp] theorem Strand.heal_keptBad (h : Strand) (a b : Nat) (ws : List Nat) : (h.heal a b ws).keptBad = h.keptBad := by unfold Strand.heal; split <;> rfl
@[simp] theorem Strand.heal_wait (h : Strand) (a b : Nat) (ws : List Nat) : (h.heal a b ws).wait = h.wait := by unfold Strand.heal; split <;> rfl
@[simp] theorem Strand.heal_cuts (h : Strand) (a b : Nat) (ws : List Nat) : (h.heal a b ws).cuts = h.cuts := by unfold Strand.heal; split <;> rfl
@[simp] theorem Strand.heal_hits (h : Strand) (a b : Nat) (ws : List Nat) : (h.heal a b ws).hits = h.hits := by unfold Strand.heal; split <;> rfl
@[simp] theorem Strand.heal_step (h : Strand) (a b : Nat) (ws : List Nat) : (h.heal a b ws).step = h.step := by unfold Strand.heal; split <;> rfl
@[simp] theorem Strand.heal_hit (h : Strand) (a b : Nat) (ws : List Nat) : (h.heal a b ws).hit = h.hit := by unfold Strand.heal; split <;> rfl
@[simp] theorem Strand.heal_firing (h : Strand) (a b : Nat) (ws : List Nat) : (h.heal a b ws).firing = h.firing := by unfold Strand.heal; split <;> rfl
@[simp] theorem Strand.storeElem_sid (h : Strand) (r : BitVec 5) (w e n : Nat) : (h.storeElem r w e n).sid = h.sid := by simp [Strand.storeElem]
@[simp] theorem Strand.storeElem_launch (h : Strand) (r : BitVec 5) (w e n : Nat) : (h.storeElem r w e n).launch = h.launch := by simp [Strand.storeElem]
@[simp] theorem Strand.storeElem_idx (h : Strand) (r : BitVec 5) (w e n : Nat) : (h.storeElem r w e n).idx = h.idx := by simp [Strand.storeElem]
@[simp] theorem Strand.storeElem_nstr (h : Strand) (r : BitVec 5) (w e n : Nat) : (h.storeElem r w e n).nstr = h.nstr := by simp [Strand.storeElem]
@[simp] theorem Strand.storeElem_status (h : Strand) (r : BitVec 5) (w e n : Nat) : (h.storeElem r w e n).status = h.status := by simp [Strand.storeElem]
@[simp] theorem Strand.storeElem_place (h : Strand) (r : BitVec 5) (w e n : Nat) : (h.storeElem r w e n).place = h.place := by simp [Strand.storeElem]
@[simp] theorem Strand.storeElem_lown (h : Strand) (r : BitVec 5) (w e n : Nat) : (h.storeElem r w e n).lown = h.lown := by simp [Strand.storeElem]
@[simp] theorem Strand.storeElem_root (h : Strand) (r : BitVec 5) (w e n : Nat) : (h.storeElem r w e n).root = h.root := by simp [Strand.storeElem]
@[simp] theorem Strand.storeElem_asid (h : Strand) (r : BitVec 5) (w e n : Nat) : (h.storeElem r w e n).asid = h.asid := by simp [Strand.storeElem]
@[simp] theorem Strand.storeElem_claimVa (h : Strand) (r : BitVec 5) (w e n : Nat) : (h.storeElem r w e n).claimVa = h.claimVa := by simp [Strand.storeElem]
@[simp] theorem Strand.storeElem_copies (h : Strand) (r : BitVec 5) (w e n : Nat) : (h.storeElem r w e n).copies = h.copies := by simp [Strand.storeElem]
@[simp] theorem Strand.storeElem_saveSeq (h : Strand) (r : BitVec 5) (w e n : Nat) : (h.storeElem r w e n).saveSeq = h.saveSeq := by simp [Strand.storeElem]
@[simp] theorem Strand.storeElem_pc (h : Strand) (r : BitVec 5) (w e n : Nat) : (h.storeElem r w e n).pc = h.pc := by simp [Strand.storeElem]
@[simp] theorem Strand.storeElem_npc (h : Strand) (r : BitVec 5) (w e n : Nat) : (h.storeElem r w e n).npc = h.npc := by simp [Strand.storeElem]
@[simp] theorem Strand.storeElem_x (h : Strand) (r : BitVec 5) (w e n : Nat) : (h.storeElem r w e n).x = h.x := by simp [Strand.storeElem]
@[simp] theorem Strand.storeElem_mode (h : Strand) (r : BitVec 5) (w e n : Nat) : (h.storeElem r w e n).mode = h.mode := by simp [Strand.storeElem]
@[simp] theorem Strand.storeElem_csr (h : Strand) (r : BitVec 5) (w e n : Nat) : (h.storeElem r w e n).csr = h.csr := by simp [Strand.storeElem]
@[simp] theorem Strand.storeElem_vl (h : Strand) (r : BitVec 5) (w e n : Nat) : (h.storeElem r w e n).vl = h.vl := by simp [Strand.storeElem]
@[simp] theorem Strand.storeElem_wid (h : Strand) (r : BitVec 5) (w e n : Nat) : (h.storeElem r w e n).wid = h.wid := by simp [Strand.storeElem]
@[simp] theorem Strand.storeElem_rgf (h : Strand) (r : BitVec 5) (w e n : Nat) : (h.storeElem r w e n).rgf = h.rgf := by simp [Strand.storeElem]
@[simp] theorem Strand.storeElem_vsta (h : Strand) (r : BitVec 5) (w e n : Nat) : (h.storeElem r w e n).vsta = h.vsta := by simp [Strand.storeElem]
@[simp] theorem Strand.storeElem_emask (h : Strand) (r : BitVec 5) (w e n : Nat) : (h.storeElem r w e n).emask = h.emask := by simp [Strand.storeElem]
@[simp] theorem Strand.storeElem_cls (h : Strand) (r : BitVec 5) (w e n : Nat) : (h.storeElem r w e n).cls = h.cls := by simp [Strand.storeElem]
@[simp] theorem Strand.storeElem_rm (h : Strand) (r : BitVec 5) (w e n : Nat) : (h.storeElem r w e n).rm = h.rm := by simp [Strand.storeElem]
@[simp] theorem Strand.storeElem_stripmask (h : Strand) (r : BitVec 5) (w e n : Nat) : (h.storeElem r w e n).stripmask = h.stripmask := by simp [Strand.storeElem]
@[simp] theorem Strand.storeElem_wdef (h : Strand) (r : BitVec 5) (w e n : Nat) : (h.storeElem r w e n).wdef = h.wdef := by simp [Strand.storeElem]
@[simp] theorem Strand.storeElem_wceil (h : Strand) (r : BitVec 5) (w e n : Nat) : (h.storeElem r w e n).wceil = h.wceil := by simp [Strand.storeElem]
@[simp] theorem Strand.storeElem_estep (h : Strand) (r : BitVec 5) (w e n : Nat) : (h.storeElem r w e n).estep = h.estep := by simp [Strand.storeElem]
@[simp] theorem Strand.storeElem_wpt (h : Strand) (r : BitVec 5) (w e n : Nat) : (h.storeElem r w e n).wpt = h.wpt := by simp [Strand.storeElem]
@[simp] theorem Strand.storeElem_watch (h : Strand) (r : BitVec 5) (w e n : Nat) : (h.storeElem r w e n).watch = h.watch := by simp [Strand.storeElem]
@[simp] theorem Strand.storeElem_vtag (h : Strand) (r : BitVec 5) (w e n : Nat) : (h.storeElem r w e n).vtag = h.vtag := by simp [Strand.storeElem]
@[simp] theorem Strand.storeElem_k (h : Strand) (r : BitVec 5) (w e n : Nat) : (h.storeElem r w e n).k = h.k := by simp [Strand.storeElem]
@[simp] theorem Strand.storeElem_m (h : Strand) (r : BitVec 5) (w e n : Nat) : (h.storeElem r w e n).m = h.m := by simp [Strand.storeElem]
@[simp] theorem Strand.storeElem_tshape (h : Strand) (r : BitVec 5) (w e n : Nat) : (h.storeElem r w e n).tshape = h.tshape := by simp [Strand.storeElem]
@[simp] theorem Strand.storeElem_q (h : Strand) (r : BitVec 5) (w e n : Nat) : (h.storeElem r w e n).q = h.q := by simp [Strand.storeElem]
@[simp] theorem Strand.storeElem_ea (h : Strand) (r : BitVec 5) (w e n : Nat) : (h.storeElem r w e n).ea = h.ea := by simp [Strand.storeElem]
@[simp] theorem Strand.storeElem_c (h : Strand) (r : BitVec 5) (w e n : Nat) : (h.storeElem r w e n).c = h.c := by simp [Strand.storeElem]
@[simp] theorem Strand.storeElem_tl (h : Strand) (r : BitVec 5) (w e n : Nat) : (h.storeElem r w e n).tl = h.tl := by simp [Strand.storeElem]
@[simp] theorem Strand.storeElem_slices (h : Strand) (r : BitVec 5) (w e n : Nat) : (h.storeElem r w e n).slices = h.slices := by simp [Strand.storeElem]
@[simp] theorem Strand.storeElem_badSlice (h : Strand) (r : BitVec 5) (w e n : Nat) : (h.storeElem r w e n).badSlice = h.badSlice := by simp [Strand.storeElem]
@[simp] theorem Strand.storeElem_sliced (h : Strand) (r : BitVec 5) (w e n : Nat) : (h.storeElem r w e n).sliced = h.sliced := by simp [Strand.storeElem]
@[simp] theorem Strand.storeElem_strip (h : Strand) (r : BitVec 5) (w e n : Nat) : (h.storeElem r w e n).strip = h.strip := by simp [Strand.storeElem]
@[simp] theorem Strand.storeElem_claimed (h : Strand) (r : BitVec 5) (w e n : Nat) : (h.storeElem r w e n).claimed = h.claimed := by simp [Strand.storeElem]
@[simp] theorem Strand.storeElem_kept (h : Strand) (r : BitVec 5) (w e n : Nat) : (h.storeElem r w e n).kept = h.kept := by simp [Strand.storeElem]
@[simp] theorem Strand.storeElem_keptBad (h : Strand) (r : BitVec 5) (w e n : Nat) : (h.storeElem r w e n).keptBad = h.keptBad := by simp [Strand.storeElem]
@[simp] theorem Strand.storeElem_wait (h : Strand) (r : BitVec 5) (w e n : Nat) : (h.storeElem r w e n).wait = h.wait := by simp [Strand.storeElem]
@[simp] theorem Strand.storeElem_cuts (h : Strand) (r : BitVec 5) (w e n : Nat) : (h.storeElem r w e n).cuts = h.cuts := by simp [Strand.storeElem]
@[simp] theorem Strand.storeElem_hits (h : Strand) (r : BitVec 5) (w e n : Nat) : (h.storeElem r w e n).hits = h.hits := by simp [Strand.storeElem]
@[simp] theorem Strand.storeElem_step (h : Strand) (r : BitVec 5) (w e n : Nat) : (h.storeElem r w e n).step = h.step := by simp [Strand.storeElem]
@[simp] theorem Strand.storeElem_hit (h : Strand) (r : BitVec 5) (w e n : Nat) : (h.storeElem r w e n).hit = h.hit := by simp [Strand.storeElem]
@[simp] theorem Strand.storeElem_firing (h : Strand) (r : BitVec 5) (w e n : Nat) : (h.storeElem r w e n).firing = h.firing := by simp [Strand.storeElem]
@[simp] theorem Strand.storeKbit_sid (h : Strand) (k : BitVec 3) (e : Nat) (b : Bool) : (h.storeKbit k e b).sid = h.sid := by simp [Strand.storeKbit]
@[simp] theorem Strand.storeKbit_launch (h : Strand) (k : BitVec 3) (e : Nat) (b : Bool) : (h.storeKbit k e b).launch = h.launch := by simp [Strand.storeKbit]
@[simp] theorem Strand.storeKbit_idx (h : Strand) (k : BitVec 3) (e : Nat) (b : Bool) : (h.storeKbit k e b).idx = h.idx := by simp [Strand.storeKbit]
@[simp] theorem Strand.storeKbit_nstr (h : Strand) (k : BitVec 3) (e : Nat) (b : Bool) : (h.storeKbit k e b).nstr = h.nstr := by simp [Strand.storeKbit]
@[simp] theorem Strand.storeKbit_status (h : Strand) (k : BitVec 3) (e : Nat) (b : Bool) : (h.storeKbit k e b).status = h.status := by simp [Strand.storeKbit]
@[simp] theorem Strand.storeKbit_place (h : Strand) (k : BitVec 3) (e : Nat) (b : Bool) : (h.storeKbit k e b).place = h.place := by simp [Strand.storeKbit]
@[simp] theorem Strand.storeKbit_lown (h : Strand) (k : BitVec 3) (e : Nat) (b : Bool) : (h.storeKbit k e b).lown = h.lown := by simp [Strand.storeKbit]
@[simp] theorem Strand.storeKbit_root (h : Strand) (k : BitVec 3) (e : Nat) (b : Bool) : (h.storeKbit k e b).root = h.root := by simp [Strand.storeKbit]
@[simp] theorem Strand.storeKbit_asid (h : Strand) (k : BitVec 3) (e : Nat) (b : Bool) : (h.storeKbit k e b).asid = h.asid := by simp [Strand.storeKbit]
@[simp] theorem Strand.storeKbit_claimVa (h : Strand) (k : BitVec 3) (e : Nat) (b : Bool) : (h.storeKbit k e b).claimVa = h.claimVa := by simp [Strand.storeKbit]
@[simp] theorem Strand.storeKbit_copies (h : Strand) (k : BitVec 3) (e : Nat) (b : Bool) : (h.storeKbit k e b).copies = h.copies := by simp [Strand.storeKbit]
@[simp] theorem Strand.storeKbit_saveSeq (h : Strand) (k : BitVec 3) (e : Nat) (b : Bool) : (h.storeKbit k e b).saveSeq = h.saveSeq := by simp [Strand.storeKbit]
@[simp] theorem Strand.storeKbit_pc (h : Strand) (k : BitVec 3) (e : Nat) (b : Bool) : (h.storeKbit k e b).pc = h.pc := by simp [Strand.storeKbit]
@[simp] theorem Strand.storeKbit_npc (h : Strand) (k : BitVec 3) (e : Nat) (b : Bool) : (h.storeKbit k e b).npc = h.npc := by simp [Strand.storeKbit]
@[simp] theorem Strand.storeKbit_x (h : Strand) (k : BitVec 3) (e : Nat) (b : Bool) : (h.storeKbit k e b).x = h.x := by simp [Strand.storeKbit]
@[simp] theorem Strand.storeKbit_mode (h : Strand) (k : BitVec 3) (e : Nat) (b : Bool) : (h.storeKbit k e b).mode = h.mode := by simp [Strand.storeKbit]
@[simp] theorem Strand.storeKbit_csr (h : Strand) (k : BitVec 3) (e : Nat) (b : Bool) : (h.storeKbit k e b).csr = h.csr := by simp [Strand.storeKbit]
@[simp] theorem Strand.storeKbit_vl (h : Strand) (k : BitVec 3) (e : Nat) (b : Bool) : (h.storeKbit k e b).vl = h.vl := by simp [Strand.storeKbit]
@[simp] theorem Strand.storeKbit_wid (h : Strand) (k : BitVec 3) (e : Nat) (b : Bool) : (h.storeKbit k e b).wid = h.wid := by simp [Strand.storeKbit]
@[simp] theorem Strand.storeKbit_rgf (h : Strand) (k : BitVec 3) (e : Nat) (b : Bool) : (h.storeKbit k e b).rgf = h.rgf := by simp [Strand.storeKbit]
@[simp] theorem Strand.storeKbit_vsta (h : Strand) (k : BitVec 3) (e : Nat) (b : Bool) : (h.storeKbit k e b).vsta = h.vsta := by simp [Strand.storeKbit]
@[simp] theorem Strand.storeKbit_emask (h : Strand) (k : BitVec 3) (e : Nat) (b : Bool) : (h.storeKbit k e b).emask = h.emask := by simp [Strand.storeKbit]
@[simp] theorem Strand.storeKbit_cls (h : Strand) (k : BitVec 3) (e : Nat) (b : Bool) : (h.storeKbit k e b).cls = h.cls := by simp [Strand.storeKbit]
@[simp] theorem Strand.storeKbit_rm (h : Strand) (k : BitVec 3) (e : Nat) (b : Bool) : (h.storeKbit k e b).rm = h.rm := by simp [Strand.storeKbit]
@[simp] theorem Strand.storeKbit_stripmask (h : Strand) (k : BitVec 3) (e : Nat) (b : Bool) : (h.storeKbit k e b).stripmask = h.stripmask := by simp [Strand.storeKbit]
@[simp] theorem Strand.storeKbit_wdef (h : Strand) (k : BitVec 3) (e : Nat) (b : Bool) : (h.storeKbit k e b).wdef = h.wdef := by simp [Strand.storeKbit]
@[simp] theorem Strand.storeKbit_wceil (h : Strand) (k : BitVec 3) (e : Nat) (b : Bool) : (h.storeKbit k e b).wceil = h.wceil := by simp [Strand.storeKbit]
@[simp] theorem Strand.storeKbit_estep (h : Strand) (k : BitVec 3) (e : Nat) (b : Bool) : (h.storeKbit k e b).estep = h.estep := by simp [Strand.storeKbit]
@[simp] theorem Strand.storeKbit_wpt (h : Strand) (k : BitVec 3) (e : Nat) (b : Bool) : (h.storeKbit k e b).wpt = h.wpt := by simp [Strand.storeKbit]
@[simp] theorem Strand.storeKbit_watch (h : Strand) (k : BitVec 3) (e : Nat) (b : Bool) : (h.storeKbit k e b).watch = h.watch := by simp [Strand.storeKbit]
@[simp] theorem Strand.storeKbit_v (h : Strand) (k : BitVec 3) (e : Nat) (b : Bool) : (h.storeKbit k e b).v = h.v := by simp [Strand.storeKbit]
@[simp] theorem Strand.storeKbit_vtag (h : Strand) (k : BitVec 3) (e : Nat) (b : Bool) : (h.storeKbit k e b).vtag = h.vtag := by simp [Strand.storeKbit]
@[simp] theorem Strand.storeKbit_m (h : Strand) (k : BitVec 3) (e : Nat) (b : Bool) : (h.storeKbit k e b).m = h.m := by simp [Strand.storeKbit]
@[simp] theorem Strand.storeKbit_tshape (h : Strand) (k : BitVec 3) (e : Nat) (b : Bool) : (h.storeKbit k e b).tshape = h.tshape := by simp [Strand.storeKbit]
@[simp] theorem Strand.storeKbit_q (h : Strand) (k : BitVec 3) (e : Nat) (b : Bool) : (h.storeKbit k e b).q = h.q := by simp [Strand.storeKbit]
@[simp] theorem Strand.storeKbit_ea (h : Strand) (k : BitVec 3) (e : Nat) (b : Bool) : (h.storeKbit k e b).ea = h.ea := by simp [Strand.storeKbit]
@[simp] theorem Strand.storeKbit_c (h : Strand) (k : BitVec 3) (e : Nat) (b : Bool) : (h.storeKbit k e b).c = h.c := by simp [Strand.storeKbit]
@[simp] theorem Strand.storeKbit_tl (h : Strand) (k : BitVec 3) (e : Nat) (b : Bool) : (h.storeKbit k e b).tl = h.tl := by simp [Strand.storeKbit]
@[simp] theorem Strand.storeKbit_slices (h : Strand) (k : BitVec 3) (e : Nat) (b : Bool) : (h.storeKbit k e b).slices = h.slices := by simp [Strand.storeKbit]
@[simp] theorem Strand.storeKbit_badSlice (h : Strand) (k : BitVec 3) (e : Nat) (b : Bool) : (h.storeKbit k e b).badSlice = h.badSlice := by simp [Strand.storeKbit]
@[simp] theorem Strand.storeKbit_sliced (h : Strand) (k : BitVec 3) (e : Nat) (b : Bool) : (h.storeKbit k e b).sliced = h.sliced := by simp [Strand.storeKbit]
@[simp] theorem Strand.storeKbit_strip (h : Strand) (k : BitVec 3) (e : Nat) (b : Bool) : (h.storeKbit k e b).strip = h.strip := by simp [Strand.storeKbit]
@[simp] theorem Strand.storeKbit_claimed (h : Strand) (k : BitVec 3) (e : Nat) (b : Bool) : (h.storeKbit k e b).claimed = h.claimed := by simp [Strand.storeKbit]
@[simp] theorem Strand.storeKbit_kept (h : Strand) (k : BitVec 3) (e : Nat) (b : Bool) : (h.storeKbit k e b).kept = h.kept := by simp [Strand.storeKbit]
@[simp] theorem Strand.storeKbit_keptBad (h : Strand) (k : BitVec 3) (e : Nat) (b : Bool) : (h.storeKbit k e b).keptBad = h.keptBad := by simp [Strand.storeKbit]
@[simp] theorem Strand.storeKbit_wait (h : Strand) (k : BitVec 3) (e : Nat) (b : Bool) : (h.storeKbit k e b).wait = h.wait := by simp [Strand.storeKbit]
@[simp] theorem Strand.storeKbit_cuts (h : Strand) (k : BitVec 3) (e : Nat) (b : Bool) : (h.storeKbit k e b).cuts = h.cuts := by simp [Strand.storeKbit]
@[simp] theorem Strand.storeKbit_hits (h : Strand) (k : BitVec 3) (e : Nat) (b : Bool) : (h.storeKbit k e b).hits = h.hits := by simp [Strand.storeKbit]
@[simp] theorem Strand.storeKbit_step (h : Strand) (k : BitVec 3) (e : Nat) (b : Bool) : (h.storeKbit k e b).step = h.step := by simp [Strand.storeKbit]
@[simp] theorem Strand.storeKbit_hit (h : Strand) (k : BitVec 3) (e : Nat) (b : Bool) : (h.storeKbit k e b).hit = h.hit := by simp [Strand.storeKbit]
@[simp] theorem Strand.storeKbit_firing (h : Strand) (k : BitVec 3) (e : Nat) (b : Bool) : (h.storeKbit k e b).firing = h.firing := by simp [Strand.storeKbit]
@[simp] theorem Strand.storeTile_sid (h : Strand) (m : BitVec 3) (w i j n : Nat) : (h.storeTile m w i j n).sid = h.sid := by simp [Strand.storeTile]
@[simp] theorem Strand.storeTile_launch (h : Strand) (m : BitVec 3) (w i j n : Nat) : (h.storeTile m w i j n).launch = h.launch := by simp [Strand.storeTile]
@[simp] theorem Strand.storeTile_idx (h : Strand) (m : BitVec 3) (w i j n : Nat) : (h.storeTile m w i j n).idx = h.idx := by simp [Strand.storeTile]
@[simp] theorem Strand.storeTile_nstr (h : Strand) (m : BitVec 3) (w i j n : Nat) : (h.storeTile m w i j n).nstr = h.nstr := by simp [Strand.storeTile]
@[simp] theorem Strand.storeTile_status (h : Strand) (m : BitVec 3) (w i j n : Nat) : (h.storeTile m w i j n).status = h.status := by simp [Strand.storeTile]
@[simp] theorem Strand.storeTile_place (h : Strand) (m : BitVec 3) (w i j n : Nat) : (h.storeTile m w i j n).place = h.place := by simp [Strand.storeTile]
@[simp] theorem Strand.storeTile_lown (h : Strand) (m : BitVec 3) (w i j n : Nat) : (h.storeTile m w i j n).lown = h.lown := by simp [Strand.storeTile]
@[simp] theorem Strand.storeTile_root (h : Strand) (m : BitVec 3) (w i j n : Nat) : (h.storeTile m w i j n).root = h.root := by simp [Strand.storeTile]
@[simp] theorem Strand.storeTile_asid (h : Strand) (m : BitVec 3) (w i j n : Nat) : (h.storeTile m w i j n).asid = h.asid := by simp [Strand.storeTile]
@[simp] theorem Strand.storeTile_claimVa (h : Strand) (m : BitVec 3) (w i j n : Nat) : (h.storeTile m w i j n).claimVa = h.claimVa := by simp [Strand.storeTile]
@[simp] theorem Strand.storeTile_copies (h : Strand) (m : BitVec 3) (w i j n : Nat) : (h.storeTile m w i j n).copies = h.copies := by simp [Strand.storeTile]
@[simp] theorem Strand.storeTile_saveSeq (h : Strand) (m : BitVec 3) (w i j n : Nat) : (h.storeTile m w i j n).saveSeq = h.saveSeq := by simp [Strand.storeTile]
@[simp] theorem Strand.storeTile_pc (h : Strand) (m : BitVec 3) (w i j n : Nat) : (h.storeTile m w i j n).pc = h.pc := by simp [Strand.storeTile]
@[simp] theorem Strand.storeTile_npc (h : Strand) (m : BitVec 3) (w i j n : Nat) : (h.storeTile m w i j n).npc = h.npc := by simp [Strand.storeTile]
@[simp] theorem Strand.storeTile_x (h : Strand) (m : BitVec 3) (w i j n : Nat) : (h.storeTile m w i j n).x = h.x := by simp [Strand.storeTile]
@[simp] theorem Strand.storeTile_mode (h : Strand) (m : BitVec 3) (w i j n : Nat) : (h.storeTile m w i j n).mode = h.mode := by simp [Strand.storeTile]
@[simp] theorem Strand.storeTile_csr (h : Strand) (m : BitVec 3) (w i j n : Nat) : (h.storeTile m w i j n).csr = h.csr := by simp [Strand.storeTile]
@[simp] theorem Strand.storeTile_vl (h : Strand) (m : BitVec 3) (w i j n : Nat) : (h.storeTile m w i j n).vl = h.vl := by simp [Strand.storeTile]
@[simp] theorem Strand.storeTile_wid (h : Strand) (m : BitVec 3) (w i j n : Nat) : (h.storeTile m w i j n).wid = h.wid := by simp [Strand.storeTile]
@[simp] theorem Strand.storeTile_rgf (h : Strand) (m : BitVec 3) (w i j n : Nat) : (h.storeTile m w i j n).rgf = h.rgf := by simp [Strand.storeTile]
@[simp] theorem Strand.storeTile_vsta (h : Strand) (m : BitVec 3) (w i j n : Nat) : (h.storeTile m w i j n).vsta = h.vsta := by simp [Strand.storeTile]
@[simp] theorem Strand.storeTile_emask (h : Strand) (m : BitVec 3) (w i j n : Nat) : (h.storeTile m w i j n).emask = h.emask := by simp [Strand.storeTile]
@[simp] theorem Strand.storeTile_cls (h : Strand) (m : BitVec 3) (w i j n : Nat) : (h.storeTile m w i j n).cls = h.cls := by simp [Strand.storeTile]
@[simp] theorem Strand.storeTile_rm (h : Strand) (m : BitVec 3) (w i j n : Nat) : (h.storeTile m w i j n).rm = h.rm := by simp [Strand.storeTile]
@[simp] theorem Strand.storeTile_stripmask (h : Strand) (m : BitVec 3) (w i j n : Nat) : (h.storeTile m w i j n).stripmask = h.stripmask := by simp [Strand.storeTile]
@[simp] theorem Strand.storeTile_wdef (h : Strand) (m : BitVec 3) (w i j n : Nat) : (h.storeTile m w i j n).wdef = h.wdef := by simp [Strand.storeTile]
@[simp] theorem Strand.storeTile_wceil (h : Strand) (m : BitVec 3) (w i j n : Nat) : (h.storeTile m w i j n).wceil = h.wceil := by simp [Strand.storeTile]
@[simp] theorem Strand.storeTile_estep (h : Strand) (m : BitVec 3) (w i j n : Nat) : (h.storeTile m w i j n).estep = h.estep := by simp [Strand.storeTile]
@[simp] theorem Strand.storeTile_wpt (h : Strand) (m : BitVec 3) (w i j n : Nat) : (h.storeTile m w i j n).wpt = h.wpt := by simp [Strand.storeTile]
@[simp] theorem Strand.storeTile_watch (h : Strand) (m : BitVec 3) (w i j n : Nat) : (h.storeTile m w i j n).watch = h.watch := by simp [Strand.storeTile]
@[simp] theorem Strand.storeTile_v (h : Strand) (m : BitVec 3) (w i j n : Nat) : (h.storeTile m w i j n).v = h.v := by simp [Strand.storeTile]
@[simp] theorem Strand.storeTile_vtag (h : Strand) (m : BitVec 3) (w i j n : Nat) : (h.storeTile m w i j n).vtag = h.vtag := by simp [Strand.storeTile]
@[simp] theorem Strand.storeTile_k (h : Strand) (m : BitVec 3) (w i j n : Nat) : (h.storeTile m w i j n).k = h.k := by simp [Strand.storeTile]
@[simp] theorem Strand.storeTile_tshape (h : Strand) (m : BitVec 3) (w i j n : Nat) : (h.storeTile m w i j n).tshape = h.tshape := by simp [Strand.storeTile]
@[simp] theorem Strand.storeTile_q (h : Strand) (m : BitVec 3) (w i j n : Nat) : (h.storeTile m w i j n).q = h.q := by simp [Strand.storeTile]
@[simp] theorem Strand.storeTile_ea (h : Strand) (m : BitVec 3) (w i j n : Nat) : (h.storeTile m w i j n).ea = h.ea := by simp [Strand.storeTile]
@[simp] theorem Strand.storeTile_c (h : Strand) (m : BitVec 3) (w i j n : Nat) : (h.storeTile m w i j n).c = h.c := by simp [Strand.storeTile]
@[simp] theorem Strand.storeTile_tl (h : Strand) (m : BitVec 3) (w i j n : Nat) : (h.storeTile m w i j n).tl = h.tl := by simp [Strand.storeTile]
@[simp] theorem Strand.storeTile_slices (h : Strand) (m : BitVec 3) (w i j n : Nat) : (h.storeTile m w i j n).slices = h.slices := by simp [Strand.storeTile]
@[simp] theorem Strand.storeTile_badSlice (h : Strand) (m : BitVec 3) (w i j n : Nat) : (h.storeTile m w i j n).badSlice = h.badSlice := by simp [Strand.storeTile]
@[simp] theorem Strand.storeTile_sliced (h : Strand) (m : BitVec 3) (w i j n : Nat) : (h.storeTile m w i j n).sliced = h.sliced := by simp [Strand.storeTile]
@[simp] theorem Strand.storeTile_strip (h : Strand) (m : BitVec 3) (w i j n : Nat) : (h.storeTile m w i j n).strip = h.strip := by simp [Strand.storeTile]
@[simp] theorem Strand.storeTile_claimed (h : Strand) (m : BitVec 3) (w i j n : Nat) : (h.storeTile m w i j n).claimed = h.claimed := by simp [Strand.storeTile]
@[simp] theorem Strand.storeTile_kept (h : Strand) (m : BitVec 3) (w i j n : Nat) : (h.storeTile m w i j n).kept = h.kept := by simp [Strand.storeTile]
@[simp] theorem Strand.storeTile_keptBad (h : Strand) (m : BitVec 3) (w i j n : Nat) : (h.storeTile m w i j n).keptBad = h.keptBad := by simp [Strand.storeTile]
@[simp] theorem Strand.storeTile_wait (h : Strand) (m : BitVec 3) (w i j n : Nat) : (h.storeTile m w i j n).wait = h.wait := by simp [Strand.storeTile]
@[simp] theorem Strand.storeTile_cuts (h : Strand) (m : BitVec 3) (w i j n : Nat) : (h.storeTile m w i j n).cuts = h.cuts := by simp [Strand.storeTile]
@[simp] theorem Strand.storeTile_hits (h : Strand) (m : BitVec 3) (w i j n : Nat) : (h.storeTile m w i j n).hits = h.hits := by simp [Strand.storeTile]
@[simp] theorem Strand.storeTile_step (h : Strand) (m : BitVec 3) (w i j n : Nat) : (h.storeTile m w i j n).step = h.step := by simp [Strand.storeTile]
@[simp] theorem Strand.storeTile_hit (h : Strand) (m : BitVec 3) (w i j n : Nat) : (h.storeTile m w i j n).hit = h.hit := by simp [Strand.storeTile]
@[simp] theorem Strand.storeTile_firing (h : Strand) (m : BitVec 3) (w i j n : Nat) : (h.storeTile m w i j n).firing = h.firing := by simp [Strand.storeTile]
@[simp] theorem Strand.addHit_sid (h : Strand) (n : Fin 4) (w : Word) : (h.addHit n w).sid = h.sid := by unfold Strand.addHit; split <;> rfl
@[simp] theorem Strand.addHit_launch (h : Strand) (n : Fin 4) (w : Word) : (h.addHit n w).launch = h.launch := by unfold Strand.addHit; split <;> rfl
@[simp] theorem Strand.addHit_idx (h : Strand) (n : Fin 4) (w : Word) : (h.addHit n w).idx = h.idx := by unfold Strand.addHit; split <;> rfl
@[simp] theorem Strand.addHit_nstr (h : Strand) (n : Fin 4) (w : Word) : (h.addHit n w).nstr = h.nstr := by unfold Strand.addHit; split <;> rfl
@[simp] theorem Strand.addHit_status (h : Strand) (n : Fin 4) (w : Word) : (h.addHit n w).status = h.status := by unfold Strand.addHit; split <;> rfl
@[simp] theorem Strand.addHit_place (h : Strand) (n : Fin 4) (w : Word) : (h.addHit n w).place = h.place := by unfold Strand.addHit; split <;> rfl
@[simp] theorem Strand.addHit_lown (h : Strand) (n : Fin 4) (w : Word) : (h.addHit n w).lown = h.lown := by unfold Strand.addHit; split <;> rfl
@[simp] theorem Strand.addHit_root (h : Strand) (n : Fin 4) (w : Word) : (h.addHit n w).root = h.root := by unfold Strand.addHit; split <;> rfl
@[simp] theorem Strand.addHit_asid (h : Strand) (n : Fin 4) (w : Word) : (h.addHit n w).asid = h.asid := by unfold Strand.addHit; split <;> rfl
@[simp] theorem Strand.addHit_claimVa (h : Strand) (n : Fin 4) (w : Word) : (h.addHit n w).claimVa = h.claimVa := by unfold Strand.addHit; split <;> rfl
@[simp] theorem Strand.addHit_copies (h : Strand) (n : Fin 4) (w : Word) : (h.addHit n w).copies = h.copies := by unfold Strand.addHit; split <;> rfl
@[simp] theorem Strand.addHit_saveSeq (h : Strand) (n : Fin 4) (w : Word) : (h.addHit n w).saveSeq = h.saveSeq := by unfold Strand.addHit; split <;> rfl
@[simp] theorem Strand.addHit_pc (h : Strand) (n : Fin 4) (w : Word) : (h.addHit n w).pc = h.pc := by unfold Strand.addHit; split <;> rfl
@[simp] theorem Strand.addHit_npc (h : Strand) (n : Fin 4) (w : Word) : (h.addHit n w).npc = h.npc := by unfold Strand.addHit; split <;> rfl
@[simp] theorem Strand.addHit_x (h : Strand) (n : Fin 4) (w : Word) : (h.addHit n w).x = h.x := by unfold Strand.addHit; split <;> rfl
@[simp] theorem Strand.addHit_mode (h : Strand) (n : Fin 4) (w : Word) : (h.addHit n w).mode = h.mode := by unfold Strand.addHit; split <;> rfl
@[simp] theorem Strand.addHit_csr (h : Strand) (n : Fin 4) (w : Word) : (h.addHit n w).csr = h.csr := by unfold Strand.addHit; split <;> rfl
@[simp] theorem Strand.addHit_vl (h : Strand) (n : Fin 4) (w : Word) : (h.addHit n w).vl = h.vl := by unfold Strand.addHit; split <;> rfl
@[simp] theorem Strand.addHit_wid (h : Strand) (n : Fin 4) (w : Word) : (h.addHit n w).wid = h.wid := by unfold Strand.addHit; split <;> rfl
@[simp] theorem Strand.addHit_rgf (h : Strand) (n : Fin 4) (w : Word) : (h.addHit n w).rgf = h.rgf := by unfold Strand.addHit; split <;> rfl
@[simp] theorem Strand.addHit_vsta (h : Strand) (n : Fin 4) (w : Word) : (h.addHit n w).vsta = h.vsta := by unfold Strand.addHit; split <;> rfl
@[simp] theorem Strand.addHit_emask (h : Strand) (n : Fin 4) (w : Word) : (h.addHit n w).emask = h.emask := by unfold Strand.addHit; split <;> rfl
@[simp] theorem Strand.addHit_cls (h : Strand) (n : Fin 4) (w : Word) : (h.addHit n w).cls = h.cls := by unfold Strand.addHit; split <;> rfl
@[simp] theorem Strand.addHit_rm (h : Strand) (n : Fin 4) (w : Word) : (h.addHit n w).rm = h.rm := by unfold Strand.addHit; split <;> rfl
@[simp] theorem Strand.addHit_stripmask (h : Strand) (n : Fin 4) (w : Word) : (h.addHit n w).stripmask = h.stripmask := by unfold Strand.addHit; split <;> rfl
@[simp] theorem Strand.addHit_wdef (h : Strand) (n : Fin 4) (w : Word) : (h.addHit n w).wdef = h.wdef := by unfold Strand.addHit; split <;> rfl
@[simp] theorem Strand.addHit_wceil (h : Strand) (n : Fin 4) (w : Word) : (h.addHit n w).wceil = h.wceil := by unfold Strand.addHit; split <;> rfl
@[simp] theorem Strand.addHit_estep (h : Strand) (n : Fin 4) (w : Word) : (h.addHit n w).estep = h.estep := by unfold Strand.addHit; split <;> rfl
@[simp] theorem Strand.addHit_wpt (h : Strand) (n : Fin 4) (w : Word) : (h.addHit n w).wpt = h.wpt := by unfold Strand.addHit; split <;> rfl
@[simp] theorem Strand.addHit_watch (h : Strand) (n : Fin 4) (w : Word) : (h.addHit n w).watch = h.watch := by unfold Strand.addHit; split <;> rfl
@[simp] theorem Strand.addHit_v (h : Strand) (n : Fin 4) (w : Word) : (h.addHit n w).v = h.v := by unfold Strand.addHit; split <;> rfl
@[simp] theorem Strand.addHit_vtag (h : Strand) (n : Fin 4) (w : Word) : (h.addHit n w).vtag = h.vtag := by unfold Strand.addHit; split <;> rfl
@[simp] theorem Strand.addHit_k (h : Strand) (n : Fin 4) (w : Word) : (h.addHit n w).k = h.k := by unfold Strand.addHit; split <;> rfl
@[simp] theorem Strand.addHit_m (h : Strand) (n : Fin 4) (w : Word) : (h.addHit n w).m = h.m := by unfold Strand.addHit; split <;> rfl
@[simp] theorem Strand.addHit_tshape (h : Strand) (n : Fin 4) (w : Word) : (h.addHit n w).tshape = h.tshape := by unfold Strand.addHit; split <;> rfl
@[simp] theorem Strand.addHit_q (h : Strand) (n : Fin 4) (w : Word) : (h.addHit n w).q = h.q := by unfold Strand.addHit; split <;> rfl
@[simp] theorem Strand.addHit_ea (h : Strand) (n : Fin 4) (w : Word) : (h.addHit n w).ea = h.ea := by unfold Strand.addHit; split <;> rfl
@[simp] theorem Strand.addHit_c (h : Strand) (n : Fin 4) (w : Word) : (h.addHit n w).c = h.c := by unfold Strand.addHit; split <;> rfl
@[simp] theorem Strand.addHit_tl (h : Strand) (n : Fin 4) (w : Word) : (h.addHit n w).tl = h.tl := by unfold Strand.addHit; split <;> rfl
@[simp] theorem Strand.addHit_slices (h : Strand) (n : Fin 4) (w : Word) : (h.addHit n w).slices = h.slices := by unfold Strand.addHit; split <;> rfl
@[simp] theorem Strand.addHit_badSlice (h : Strand) (n : Fin 4) (w : Word) : (h.addHit n w).badSlice = h.badSlice := by unfold Strand.addHit; split <;> rfl
@[simp] theorem Strand.addHit_bad (h : Strand) (n : Fin 4) (w : Word) : (h.addHit n w).bad = h.bad := by unfold Strand.addHit; split <;> rfl
@[simp] theorem Strand.addHit_sliced (h : Strand) (n : Fin 4) (w : Word) : (h.addHit n w).sliced = h.sliced := by unfold Strand.addHit; split <;> rfl
@[simp] theorem Strand.addHit_strip (h : Strand) (n : Fin 4) (w : Word) : (h.addHit n w).strip = h.strip := by unfold Strand.addHit; split <;> rfl
@[simp] theorem Strand.addHit_claimed (h : Strand) (n : Fin 4) (w : Word) : (h.addHit n w).claimed = h.claimed := by unfold Strand.addHit; split <;> rfl
@[simp] theorem Strand.addHit_kept (h : Strand) (n : Fin 4) (w : Word) : (h.addHit n w).kept = h.kept := by unfold Strand.addHit; split <;> rfl
@[simp] theorem Strand.addHit_keptBad (h : Strand) (n : Fin 4) (w : Word) : (h.addHit n w).keptBad = h.keptBad := by unfold Strand.addHit; split <;> rfl
@[simp] theorem Strand.addHit_wait (h : Strand) (n : Fin 4) (w : Word) : (h.addHit n w).wait = h.wait := by unfold Strand.addHit; split <;> rfl
@[simp] theorem Strand.addHit_cuts (h : Strand) (n : Fin 4) (w : Word) : (h.addHit n w).cuts = h.cuts := by unfold Strand.addHit; split <;> rfl
@[simp] theorem Strand.addHit_step (h : Strand) (n : Fin 4) (w : Word) : (h.addHit n w).step = h.step := by unfold Strand.addHit; split <;> rfl
@[simp] theorem Strand.addHit_hit (h : Strand) (n : Fin 4) (w : Word) : (h.addHit n w).hit = h.hit := by unfold Strand.addHit; split <;> rfl
@[simp] theorem Strand.addHit_firing (h : Strand) (n : Fin 4) (w : Word) : (h.addHit n w).firing = h.firing := by unfold Strand.addHit; split <;> rfl

/-! ### Writes of the package -/

@[simp] theorem dropLinks_hart (n : Nat) (s : State) : (dropLinks n s).hart = s.hart := rfl
@[simp] theorem dropLinks_parked (n : Nat) (s : State) : (dropLinks n s).parked = s.parked := rfl
@[simp] theorem dropLinks_agenda (n : Nat) (s : State) : (dropLinks n s).agenda = s.agenda := rfl
@[simp] theorem dropLinks_choices (n : Nat) (s : State) : (dropLinks n s).choices = s.choices := rfl
@[simp] theorem dropLinks_upsets (n : Nat) (s : State) : (dropLinks n s).upsets = s.upsets := rfl
@[simp] theorem dropLinks_swapped (n : Nat) (s : State) : (dropLinks n s).swapped = s.swapped := rfl
@[simp] theorem dropLinks_images (n : Nat) (s : State) : (dropLinks n s).images = s.images := rfl
@[simp] theorem dropLinks_now (n : Nat) (s : State) : (dropLinks n s).now = s.now := rfl
@[simp] theorem dropLinks_free (n : Nat) (s : State) : (dropLinks n s).free = s.free := rfl
@[simp] theorem dropLinks_nextId (n : Nat) (s : State) : (dropLinks n s).nextId = s.nextId := rfl
@[simp] theorem dropLinks_mem (n : Nat) (s : State) : (dropLinks n s).mem = s.mem := rfl
@[simp] theorem dropLinks_hostMem (n : Nat) (s : State) : (dropLinks n s).hostMem = s.hostMem := rfl
@[simp] theorem dropLinks_poison (n : Nat) (s : State) : (dropLinks n s).poison = s.poison := rfl
@[simp] theorem dropLinks_suspect (n : Nat) (s : State) : (dropLinks n s).suspect = s.suspect := rfl
@[simp] theorem dropLinks_live (n : Nat) (s : State) : (dropLinks n s).live = s.live := rfl
@[simp] theorem dropLinks_dcache (n : Nat) (s : State) : (dropLinks n s).dcache = s.dcache := rfl
@[simp] theorem dropLinks_icache (n : Nat) (s : State) : (dropLinks n s).icache = s.icache := rfl
@[simp] theorem dropLinks_tlb (n : Nat) (s : State) : (dropLinks n s).tlb = s.tlb := rfl
@[simp] theorem dropLinks_cores (n : Nat) (s : State) : (dropLinks n s).cores = s.cores := rfl
@[simp] theorem dropLinks_lostBanks (n : Nat) (s : State) : (dropLinks n s).lostBanks = s.lostBanks := rfl
@[simp] theorem dropLinks_lostNodes (n : Nat) (s : State) : (dropLinks n s).lostNodes = s.lostNodes := rfl
@[simp] theorem dropLinks_lostEngines (n : Nat) (s : State) : (dropLinks n s).lostEngines = s.lostEngines := rfl
@[simp] theorem dropLinks_lostModules (n : Nat) (s : State) : (dropLinks n s).lostModules = s.lostModules := rfl
@[simp] theorem dropLinks_stackRegs (n : Nat) (s : State) : (dropLinks n s).stackRegs = s.stackRegs := rfl
@[simp] theorem dropLinks_mscLines (n : Nat) (s : State) : (dropLinks n s).mscLines = s.mscLines := rfl
@[simp] theorem dropLinks_writeQueue (n : Nat) (s : State) : (dropLinks n s).writeQueue = s.writeQueue := rfl
@[simp] theorem dropLinks_rows (n : Nat) (s : State) : (dropLinks n s).rows = s.rows := rfl
@[simp] theorem dropLinks_refreshed (n : Nat) (s : State) : (dropLinks n s).refreshed = s.refreshed := rfl
@[simp] theorem dropLinks_cmds (n : Nat) (s : State) : (dropLinks n s).cmds = s.cmds := rfl
@[simp] theorem dropLinks_collectives (n : Nat) (s : State) : (dropLinks n s).collectives = s.collectives := rfl
@[simp] theorem dropLinks_fabricOut (n : Nat) (s : State) : (dropLinks n s).fabricOut = s.fabricOut := rfl
@[simp] theorem dropLinks_reels (n : Nat) (s : State) : (dropLinks n s).reels = s.reels := rfl
@[simp] theorem dropLinks_launches (n : Nat) (s : State) : (dropLinks n s).launches = s.launches := rfl
@[simp] theorem dropLinks_nextOrder (n : Nat) (s : State) : (dropLinks n s).nextOrder = s.nextOrder := rfl
@[simp] theorem dropLinks_spaces (n : Nat) (s : State) : (dropLinks n s).spaces = s.spaces := rfl
@[simp] theorem dropLinks_ports (n : Nat) (s : State) : (dropLinks n s).ports = s.ports := rfl
@[simp] theorem dropLinks_svc (n : Nat) (s : State) : (dropLinks n s).svc = s.svc := rfl
@[simp] theorem dropLinks_msix (n : Nat) (s : State) : (dropLinks n s).msix = s.msix := rfl
@[simp] theorem dropLinks_hostRead (n : Nat) (s : State) : (dropLinks n s).hostRead = s.hostRead := rfl
@[simp] theorem clearLinks_hart (a n : Nat) (s : State) : (clearLinks s a n).hart = s.hart := rfl
@[simp] theorem clearLinks_parked (a n : Nat) (s : State) : (clearLinks s a n).parked = s.parked := rfl
@[simp] theorem clearLinks_agenda (a n : Nat) (s : State) : (clearLinks s a n).agenda = s.agenda := rfl
@[simp] theorem clearLinks_choices (a n : Nat) (s : State) : (clearLinks s a n).choices = s.choices := rfl
@[simp] theorem clearLinks_upsets (a n : Nat) (s : State) : (clearLinks s a n).upsets = s.upsets := rfl
@[simp] theorem clearLinks_swapped (a n : Nat) (s : State) : (clearLinks s a n).swapped = s.swapped := rfl
@[simp] theorem clearLinks_images (a n : Nat) (s : State) : (clearLinks s a n).images = s.images := rfl
@[simp] theorem clearLinks_now (a n : Nat) (s : State) : (clearLinks s a n).now = s.now := rfl
@[simp] theorem clearLinks_free (a n : Nat) (s : State) : (clearLinks s a n).free = s.free := rfl
@[simp] theorem clearLinks_nextId (a n : Nat) (s : State) : (clearLinks s a n).nextId = s.nextId := rfl
@[simp] theorem clearLinks_mem (a n : Nat) (s : State) : (clearLinks s a n).mem = s.mem := rfl
@[simp] theorem clearLinks_hostMem (a n : Nat) (s : State) : (clearLinks s a n).hostMem = s.hostMem := rfl
@[simp] theorem clearLinks_poison (a n : Nat) (s : State) : (clearLinks s a n).poison = s.poison := rfl
@[simp] theorem clearLinks_suspect (a n : Nat) (s : State) : (clearLinks s a n).suspect = s.suspect := rfl
@[simp] theorem clearLinks_live (a n : Nat) (s : State) : (clearLinks s a n).live = s.live := rfl
@[simp] theorem clearLinks_dcache (a n : Nat) (s : State) : (clearLinks s a n).dcache = s.dcache := rfl
@[simp] theorem clearLinks_icache (a n : Nat) (s : State) : (clearLinks s a n).icache = s.icache := rfl
@[simp] theorem clearLinks_tlb (a n : Nat) (s : State) : (clearLinks s a n).tlb = s.tlb := rfl
@[simp] theorem clearLinks_cores (a n : Nat) (s : State) : (clearLinks s a n).cores = s.cores := rfl
@[simp] theorem clearLinks_lostBanks (a n : Nat) (s : State) : (clearLinks s a n).lostBanks = s.lostBanks := rfl
@[simp] theorem clearLinks_lostNodes (a n : Nat) (s : State) : (clearLinks s a n).lostNodes = s.lostNodes := rfl
@[simp] theorem clearLinks_lostEngines (a n : Nat) (s : State) : (clearLinks s a n).lostEngines = s.lostEngines := rfl
@[simp] theorem clearLinks_lostModules (a n : Nat) (s : State) : (clearLinks s a n).lostModules = s.lostModules := rfl
@[simp] theorem clearLinks_stackRegs (a n : Nat) (s : State) : (clearLinks s a n).stackRegs = s.stackRegs := rfl
@[simp] theorem clearLinks_mscLines (a n : Nat) (s : State) : (clearLinks s a n).mscLines = s.mscLines := rfl
@[simp] theorem clearLinks_writeQueue (a n : Nat) (s : State) : (clearLinks s a n).writeQueue = s.writeQueue := rfl
@[simp] theorem clearLinks_rows (a n : Nat) (s : State) : (clearLinks s a n).rows = s.rows := rfl
@[simp] theorem clearLinks_refreshed (a n : Nat) (s : State) : (clearLinks s a n).refreshed = s.refreshed := rfl
@[simp] theorem clearLinks_cmds (a n : Nat) (s : State) : (clearLinks s a n).cmds = s.cmds := rfl
@[simp] theorem clearLinks_collectives (a n : Nat) (s : State) : (clearLinks s a n).collectives = s.collectives := rfl
@[simp] theorem clearLinks_fabricOut (a n : Nat) (s : State) : (clearLinks s a n).fabricOut = s.fabricOut := rfl
@[simp] theorem clearLinks_reels (a n : Nat) (s : State) : (clearLinks s a n).reels = s.reels := rfl
@[simp] theorem clearLinks_launches (a n : Nat) (s : State) : (clearLinks s a n).launches = s.launches := rfl
@[simp] theorem clearLinks_nextOrder (a n : Nat) (s : State) : (clearLinks s a n).nextOrder = s.nextOrder := rfl
@[simp] theorem clearLinks_spaces (a n : Nat) (s : State) : (clearLinks s a n).spaces = s.spaces := rfl
@[simp] theorem clearLinks_ports (a n : Nat) (s : State) : (clearLinks s a n).ports = s.ports := rfl
@[simp] theorem clearLinks_svc (a n : Nat) (s : State) : (clearLinks s a n).svc = s.svc := rfl
@[simp] theorem clearLinks_msix (a n : Nat) (s : State) : (clearLinks s a n).msix = s.msix := rfl
@[simp] theorem clearLinks_hostRead (a n : Nat) (s : State) : (clearLinks s a n).hostRead = s.hostRead := rfl
@[simp] theorem setLink_hart (a n : Nat) (b : Bool) (s : State) : (setLink a n b s).hart = s.hart := rfl
@[simp] theorem setLink_parked (a n : Nat) (b : Bool) (s : State) : (setLink a n b s).parked = s.parked := rfl
@[simp] theorem setLink_agenda (a n : Nat) (b : Bool) (s : State) : (setLink a n b s).agenda = s.agenda := rfl
@[simp] theorem setLink_choices (a n : Nat) (b : Bool) (s : State) : (setLink a n b s).choices = s.choices := rfl
@[simp] theorem setLink_upsets (a n : Nat) (b : Bool) (s : State) : (setLink a n b s).upsets = s.upsets := rfl
@[simp] theorem setLink_swapped (a n : Nat) (b : Bool) (s : State) : (setLink a n b s).swapped = s.swapped := rfl
@[simp] theorem setLink_images (a n : Nat) (b : Bool) (s : State) : (setLink a n b s).images = s.images := rfl
@[simp] theorem setLink_now (a n : Nat) (b : Bool) (s : State) : (setLink a n b s).now = s.now := rfl
@[simp] theorem setLink_free (a n : Nat) (b : Bool) (s : State) : (setLink a n b s).free = s.free := rfl
@[simp] theorem setLink_nextId (a n : Nat) (b : Bool) (s : State) : (setLink a n b s).nextId = s.nextId := rfl
@[simp] theorem setLink_mem (a n : Nat) (b : Bool) (s : State) : (setLink a n b s).mem = s.mem := rfl
@[simp] theorem setLink_hostMem (a n : Nat) (b : Bool) (s : State) : (setLink a n b s).hostMem = s.hostMem := rfl
@[simp] theorem setLink_poison (a n : Nat) (b : Bool) (s : State) : (setLink a n b s).poison = s.poison := rfl
@[simp] theorem setLink_suspect (a n : Nat) (b : Bool) (s : State) : (setLink a n b s).suspect = s.suspect := rfl
@[simp] theorem setLink_live (a n : Nat) (b : Bool) (s : State) : (setLink a n b s).live = s.live := rfl
@[simp] theorem setLink_dcache (a n : Nat) (b : Bool) (s : State) : (setLink a n b s).dcache = s.dcache := rfl
@[simp] theorem setLink_icache (a n : Nat) (b : Bool) (s : State) : (setLink a n b s).icache = s.icache := rfl
@[simp] theorem setLink_tlb (a n : Nat) (b : Bool) (s : State) : (setLink a n b s).tlb = s.tlb := rfl
@[simp] theorem setLink_cores (a n : Nat) (b : Bool) (s : State) : (setLink a n b s).cores = s.cores := rfl
@[simp] theorem setLink_lostBanks (a n : Nat) (b : Bool) (s : State) : (setLink a n b s).lostBanks = s.lostBanks := rfl
@[simp] theorem setLink_lostNodes (a n : Nat) (b : Bool) (s : State) : (setLink a n b s).lostNodes = s.lostNodes := rfl
@[simp] theorem setLink_lostEngines (a n : Nat) (b : Bool) (s : State) : (setLink a n b s).lostEngines = s.lostEngines := rfl
@[simp] theorem setLink_lostModules (a n : Nat) (b : Bool) (s : State) : (setLink a n b s).lostModules = s.lostModules := rfl
@[simp] theorem setLink_stackRegs (a n : Nat) (b : Bool) (s : State) : (setLink a n b s).stackRegs = s.stackRegs := rfl
@[simp] theorem setLink_mscLines (a n : Nat) (b : Bool) (s : State) : (setLink a n b s).mscLines = s.mscLines := rfl
@[simp] theorem setLink_writeQueue (a n : Nat) (b : Bool) (s : State) : (setLink a n b s).writeQueue = s.writeQueue := rfl
@[simp] theorem setLink_rows (a n : Nat) (b : Bool) (s : State) : (setLink a n b s).rows = s.rows := rfl
@[simp] theorem setLink_refreshed (a n : Nat) (b : Bool) (s : State) : (setLink a n b s).refreshed = s.refreshed := rfl
@[simp] theorem setLink_cmds (a n : Nat) (b : Bool) (s : State) : (setLink a n b s).cmds = s.cmds := rfl
@[simp] theorem setLink_collectives (a n : Nat) (b : Bool) (s : State) : (setLink a n b s).collectives = s.collectives := rfl
@[simp] theorem setLink_fabricOut (a n : Nat) (b : Bool) (s : State) : (setLink a n b s).fabricOut = s.fabricOut := rfl
@[simp] theorem setLink_reels (a n : Nat) (b : Bool) (s : State) : (setLink a n b s).reels = s.reels := rfl
@[simp] theorem setLink_launches (a n : Nat) (b : Bool) (s : State) : (setLink a n b s).launches = s.launches := rfl
@[simp] theorem setLink_nextOrder (a n : Nat) (b : Bool) (s : State) : (setLink a n b s).nextOrder = s.nextOrder := rfl
@[simp] theorem setLink_spaces (a n : Nat) (b : Bool) (s : State) : (setLink a n b s).spaces = s.spaces := rfl
@[simp] theorem setLink_ports (a n : Nat) (b : Bool) (s : State) : (setLink a n b s).ports = s.ports := rfl
@[simp] theorem setLink_svc (a n : Nat) (b : Bool) (s : State) : (setLink a n b s).svc = s.svc := rfl
@[simp] theorem setLink_msix (a n : Nat) (b : Bool) (s : State) : (setLink a n b s).msix = s.msix := rfl
@[simp] theorem setLink_hostRead (a n : Nat) (b : Bool) (s : State) : (setLink a n b s).hostRead = s.hostRead := rfl
@[simp] theorem setLaunch_hart (l : Launch) (s : State) : (setLaunch l s).hart = s.hart := rfl
@[simp] theorem setLaunch_parked (l : Launch) (s : State) : (setLaunch l s).parked = s.parked := rfl
@[simp] theorem setLaunch_agenda (l : Launch) (s : State) : (setLaunch l s).agenda = s.agenda := rfl
@[simp] theorem setLaunch_choices (l : Launch) (s : State) : (setLaunch l s).choices = s.choices := rfl
@[simp] theorem setLaunch_upsets (l : Launch) (s : State) : (setLaunch l s).upsets = s.upsets := rfl
@[simp] theorem setLaunch_swapped (l : Launch) (s : State) : (setLaunch l s).swapped = s.swapped := rfl
@[simp] theorem setLaunch_images (l : Launch) (s : State) : (setLaunch l s).images = s.images := rfl
@[simp] theorem setLaunch_now (l : Launch) (s : State) : (setLaunch l s).now = s.now := rfl
@[simp] theorem setLaunch_free (l : Launch) (s : State) : (setLaunch l s).free = s.free := rfl
@[simp] theorem setLaunch_nextId (l : Launch) (s : State) : (setLaunch l s).nextId = s.nextId := rfl
@[simp] theorem setLaunch_mem (l : Launch) (s : State) : (setLaunch l s).mem = s.mem := rfl
@[simp] theorem setLaunch_hostMem (l : Launch) (s : State) : (setLaunch l s).hostMem = s.hostMem := rfl
@[simp] theorem setLaunch_poison (l : Launch) (s : State) : (setLaunch l s).poison = s.poison := rfl
@[simp] theorem setLaunch_suspect (l : Launch) (s : State) : (setLaunch l s).suspect = s.suspect := rfl
@[simp] theorem setLaunch_live (l : Launch) (s : State) : (setLaunch l s).live = s.live := rfl
@[simp] theorem setLaunch_links (l : Launch) (s : State) : (setLaunch l s).links = s.links := rfl
@[simp] theorem setLaunch_dcache (l : Launch) (s : State) : (setLaunch l s).dcache = s.dcache := rfl
@[simp] theorem setLaunch_icache (l : Launch) (s : State) : (setLaunch l s).icache = s.icache := rfl
@[simp] theorem setLaunch_tlb (l : Launch) (s : State) : (setLaunch l s).tlb = s.tlb := rfl
@[simp] theorem setLaunch_cores (l : Launch) (s : State) : (setLaunch l s).cores = s.cores := rfl
@[simp] theorem setLaunch_lostBanks (l : Launch) (s : State) : (setLaunch l s).lostBanks = s.lostBanks := rfl
@[simp] theorem setLaunch_lostNodes (l : Launch) (s : State) : (setLaunch l s).lostNodes = s.lostNodes := rfl
@[simp] theorem setLaunch_lostEngines (l : Launch) (s : State) : (setLaunch l s).lostEngines = s.lostEngines := rfl
@[simp] theorem setLaunch_lostModules (l : Launch) (s : State) : (setLaunch l s).lostModules = s.lostModules := rfl
@[simp] theorem setLaunch_stackRegs (l : Launch) (s : State) : (setLaunch l s).stackRegs = s.stackRegs := rfl
@[simp] theorem setLaunch_mscLines (l : Launch) (s : State) : (setLaunch l s).mscLines = s.mscLines := rfl
@[simp] theorem setLaunch_writeQueue (l : Launch) (s : State) : (setLaunch l s).writeQueue = s.writeQueue := rfl
@[simp] theorem setLaunch_rows (l : Launch) (s : State) : (setLaunch l s).rows = s.rows := rfl
@[simp] theorem setLaunch_refreshed (l : Launch) (s : State) : (setLaunch l s).refreshed = s.refreshed := rfl
@[simp] theorem setLaunch_cmds (l : Launch) (s : State) : (setLaunch l s).cmds = s.cmds := rfl
@[simp] theorem setLaunch_collectives (l : Launch) (s : State) : (setLaunch l s).collectives = s.collectives := rfl
@[simp] theorem setLaunch_fabricOut (l : Launch) (s : State) : (setLaunch l s).fabricOut = s.fabricOut := rfl
@[simp] theorem setLaunch_reels (l : Launch) (s : State) : (setLaunch l s).reels = s.reels := rfl
@[simp] theorem setLaunch_nextOrder (l : Launch) (s : State) : (setLaunch l s).nextOrder = s.nextOrder := rfl
@[simp] theorem setLaunch_spaces (l : Launch) (s : State) : (setLaunch l s).spaces = s.spaces := rfl
@[simp] theorem setLaunch_ports (l : Launch) (s : State) : (setLaunch l s).ports = s.ports := rfl
@[simp] theorem setLaunch_svc (l : Launch) (s : State) : (setLaunch l s).svc = s.svc := rfl
@[simp] theorem setLaunch_msix (l : Launch) (s : State) : (setLaunch l s).msix = s.msix := rfl
@[simp] theorem setLaunch_hostRead (l : Launch) (s : State) : (setLaunch l s).hostRead = s.hostRead := rfl
@[simp] theorem setStackReg_hart (r : StackRegs) (s : State) : (setStackReg r s).hart = s.hart := rfl
@[simp] theorem setStackReg_parked (r : StackRegs) (s : State) : (setStackReg r s).parked = s.parked := rfl
@[simp] theorem setStackReg_agenda (r : StackRegs) (s : State) : (setStackReg r s).agenda = s.agenda := rfl
@[simp] theorem setStackReg_choices (r : StackRegs) (s : State) : (setStackReg r s).choices = s.choices := rfl
@[simp] theorem setStackReg_upsets (r : StackRegs) (s : State) : (setStackReg r s).upsets = s.upsets := rfl
@[simp] theorem setStackReg_swapped (r : StackRegs) (s : State) : (setStackReg r s).swapped = s.swapped := rfl
@[simp] theorem setStackReg_images (r : StackRegs) (s : State) : (setStackReg r s).images = s.images := rfl
@[simp] theorem setStackReg_now (r : StackRegs) (s : State) : (setStackReg r s).now = s.now := rfl
@[simp] theorem setStackReg_free (r : StackRegs) (s : State) : (setStackReg r s).free = s.free := rfl
@[simp] theorem setStackReg_nextId (r : StackRegs) (s : State) : (setStackReg r s).nextId = s.nextId := rfl
@[simp] theorem setStackReg_mem (r : StackRegs) (s : State) : (setStackReg r s).mem = s.mem := rfl
@[simp] theorem setStackReg_hostMem (r : StackRegs) (s : State) : (setStackReg r s).hostMem = s.hostMem := rfl
@[simp] theorem setStackReg_poison (r : StackRegs) (s : State) : (setStackReg r s).poison = s.poison := rfl
@[simp] theorem setStackReg_suspect (r : StackRegs) (s : State) : (setStackReg r s).suspect = s.suspect := rfl
@[simp] theorem setStackReg_live (r : StackRegs) (s : State) : (setStackReg r s).live = s.live := rfl
@[simp] theorem setStackReg_links (r : StackRegs) (s : State) : (setStackReg r s).links = s.links := rfl
@[simp] theorem setStackReg_dcache (r : StackRegs) (s : State) : (setStackReg r s).dcache = s.dcache := rfl
@[simp] theorem setStackReg_icache (r : StackRegs) (s : State) : (setStackReg r s).icache = s.icache := rfl
@[simp] theorem setStackReg_tlb (r : StackRegs) (s : State) : (setStackReg r s).tlb = s.tlb := rfl
@[simp] theorem setStackReg_cores (r : StackRegs) (s : State) : (setStackReg r s).cores = s.cores := rfl
@[simp] theorem setStackReg_lostBanks (r : StackRegs) (s : State) : (setStackReg r s).lostBanks = s.lostBanks := rfl
@[simp] theorem setStackReg_lostNodes (r : StackRegs) (s : State) : (setStackReg r s).lostNodes = s.lostNodes := rfl
@[simp] theorem setStackReg_lostEngines (r : StackRegs) (s : State) : (setStackReg r s).lostEngines = s.lostEngines := rfl
@[simp] theorem setStackReg_lostModules (r : StackRegs) (s : State) : (setStackReg r s).lostModules = s.lostModules := rfl
@[simp] theorem setStackReg_mscLines (r : StackRegs) (s : State) : (setStackReg r s).mscLines = s.mscLines := rfl
@[simp] theorem setStackReg_writeQueue (r : StackRegs) (s : State) : (setStackReg r s).writeQueue = s.writeQueue := rfl
@[simp] theorem setStackReg_rows (r : StackRegs) (s : State) : (setStackReg r s).rows = s.rows := rfl
@[simp] theorem setStackReg_refreshed (r : StackRegs) (s : State) : (setStackReg r s).refreshed = s.refreshed := rfl
@[simp] theorem setStackReg_cmds (r : StackRegs) (s : State) : (setStackReg r s).cmds = s.cmds := rfl
@[simp] theorem setStackReg_collectives (r : StackRegs) (s : State) : (setStackReg r s).collectives = s.collectives := rfl
@[simp] theorem setStackReg_fabricOut (r : StackRegs) (s : State) : (setStackReg r s).fabricOut = s.fabricOut := rfl
@[simp] theorem setStackReg_reels (r : StackRegs) (s : State) : (setStackReg r s).reels = s.reels := rfl
@[simp] theorem setStackReg_launches (r : StackRegs) (s : State) : (setStackReg r s).launches = s.launches := rfl
@[simp] theorem setStackReg_nextOrder (r : StackRegs) (s : State) : (setStackReg r s).nextOrder = s.nextOrder := rfl
@[simp] theorem setStackReg_spaces (r : StackRegs) (s : State) : (setStackReg r s).spaces = s.spaces := rfl
@[simp] theorem setStackReg_ports (r : StackRegs) (s : State) : (setStackReg r s).ports = s.ports := rfl
@[simp] theorem setStackReg_svc (r : StackRegs) (s : State) : (setStackReg r s).svc = s.svc := rfl
@[simp] theorem setStackReg_msix (r : StackRegs) (s : State) : (setStackReg r s).msix = s.msix := rfl
@[simp] theorem setStackReg_hostRead (r : StackRegs) (s : State) : (setStackReg r s).hostRead = s.hostRead := rfl
@[simp] theorem homeWrite_agenda (a : Agent) (n : Nat) (bs : List Byte) (s : State) : (homeWrite a n bs s).agenda = s.agenda := by unfold homeWrite; split; rfl; split <;> rfl
@[simp] theorem homeWrite_choices (a : Agent) (n : Nat) (bs : List Byte) (s : State) : (homeWrite a n bs s).choices = s.choices := by unfold homeWrite; split; rfl; split <;> rfl
@[simp] theorem homeWrite_upsets (a : Agent) (n : Nat) (bs : List Byte) (s : State) : (homeWrite a n bs s).upsets = s.upsets := by unfold homeWrite; split; rfl; split <;> rfl
@[simp] theorem homeWrite_swapped (a : Agent) (n : Nat) (bs : List Byte) (s : State) : (homeWrite a n bs s).swapped = s.swapped := by unfold homeWrite; split; rfl; split <;> rfl
@[simp] theorem homeWrite_images (a : Agent) (n : Nat) (bs : List Byte) (s : State) : (homeWrite a n bs s).images = s.images := by unfold homeWrite; split; rfl; split <;> rfl
@[simp] theorem homeWrite_now (a : Agent) (n : Nat) (bs : List Byte) (s : State) : (homeWrite a n bs s).now = s.now := by unfold homeWrite; split; rfl; split <;> rfl
@[simp] theorem homeWrite_free (a : Agent) (n : Nat) (bs : List Byte) (s : State) : (homeWrite a n bs s).free = s.free := by unfold homeWrite; split; rfl; split <;> rfl
@[simp] theorem homeWrite_nextId (a : Agent) (n : Nat) (bs : List Byte) (s : State) : (homeWrite a n bs s).nextId = s.nextId := by unfold homeWrite; split; rfl; split <;> rfl
@[simp] theorem homeWrite_hostMem (a : Agent) (n : Nat) (bs : List Byte) (s : State) : (homeWrite a n bs s).hostMem = s.hostMem := by unfold homeWrite; split; rfl; split <;> rfl
@[simp] theorem homeWrite_suspect (a : Agent) (n : Nat) (bs : List Byte) (s : State) : (homeWrite a n bs s).suspect = s.suspect := by unfold homeWrite; split; rfl; split <;> rfl
@[simp] theorem homeWrite_icache (a : Agent) (n : Nat) (bs : List Byte) (s : State) : (homeWrite a n bs s).icache = s.icache := by unfold homeWrite; split; rfl; split <;> rfl
@[simp] theorem homeWrite_tlb (a : Agent) (n : Nat) (bs : List Byte) (s : State) : (homeWrite a n bs s).tlb = s.tlb := by unfold homeWrite; split; rfl; split <;> rfl
@[simp] theorem homeWrite_cores (a : Agent) (n : Nat) (bs : List Byte) (s : State) : (homeWrite a n bs s).cores = s.cores := by unfold homeWrite; split; rfl; split <;> rfl
@[simp] theorem homeWrite_lostBanks (a : Agent) (n : Nat) (bs : List Byte) (s : State) : (homeWrite a n bs s).lostBanks = s.lostBanks := by unfold homeWrite; split; rfl; split <;> rfl
@[simp] theorem homeWrite_lostNodes (a : Agent) (n : Nat) (bs : List Byte) (s : State) : (homeWrite a n bs s).lostNodes = s.lostNodes := by unfold homeWrite; split; rfl; split <;> rfl
@[simp] theorem homeWrite_lostEngines (a : Agent) (n : Nat) (bs : List Byte) (s : State) : (homeWrite a n bs s).lostEngines = s.lostEngines := by unfold homeWrite; split; rfl; split <;> rfl
@[simp] theorem homeWrite_lostModules (a : Agent) (n : Nat) (bs : List Byte) (s : State) : (homeWrite a n bs s).lostModules = s.lostModules := by unfold homeWrite; split; rfl; split <;> rfl
@[simp] theorem homeWrite_stackRegs (a : Agent) (n : Nat) (bs : List Byte) (s : State) : (homeWrite a n bs s).stackRegs = s.stackRegs := by unfold homeWrite; split; rfl; split <;> rfl
@[simp] theorem homeWrite_mscLines (a : Agent) (n : Nat) (bs : List Byte) (s : State) : (homeWrite a n bs s).mscLines = s.mscLines := by unfold homeWrite; split; rfl; split <;> rfl
@[simp] theorem homeWrite_writeQueue (a : Agent) (n : Nat) (bs : List Byte) (s : State) : (homeWrite a n bs s).writeQueue = s.writeQueue := by unfold homeWrite; split; rfl; split <;> rfl
@[simp] theorem homeWrite_rows (a : Agent) (n : Nat) (bs : List Byte) (s : State) : (homeWrite a n bs s).rows = s.rows := by unfold homeWrite; split; rfl; split <;> rfl
@[simp] theorem homeWrite_refreshed (a : Agent) (n : Nat) (bs : List Byte) (s : State) : (homeWrite a n bs s).refreshed = s.refreshed := by unfold homeWrite; split; rfl; split <;> rfl
@[simp] theorem homeWrite_cmds (a : Agent) (n : Nat) (bs : List Byte) (s : State) : (homeWrite a n bs s).cmds = s.cmds := by unfold homeWrite; split; rfl; split <;> rfl
@[simp] theorem homeWrite_collectives (a : Agent) (n : Nat) (bs : List Byte) (s : State) : (homeWrite a n bs s).collectives = s.collectives := by unfold homeWrite; split; rfl; split <;> rfl
@[simp] theorem homeWrite_fabricOut (a : Agent) (n : Nat) (bs : List Byte) (s : State) : (homeWrite a n bs s).fabricOut = s.fabricOut := by unfold homeWrite; split; rfl; split <;> rfl
@[simp] theorem homeWrite_reels (a : Agent) (n : Nat) (bs : List Byte) (s : State) : (homeWrite a n bs s).reels = s.reels := by unfold homeWrite; split; rfl; split <;> rfl
@[simp] theorem homeWrite_launches (a : Agent) (n : Nat) (bs : List Byte) (s : State) : (homeWrite a n bs s).launches = s.launches := by unfold homeWrite; split; rfl; split <;> rfl
@[simp] theorem homeWrite_nextOrder (a : Agent) (n : Nat) (bs : List Byte) (s : State) : (homeWrite a n bs s).nextOrder = s.nextOrder := by unfold homeWrite; split; rfl; split <;> rfl
@[simp] theorem homeWrite_spaces (a : Agent) (n : Nat) (bs : List Byte) (s : State) : (homeWrite a n bs s).spaces = s.spaces := by unfold homeWrite; split; rfl; split <;> rfl
@[simp] theorem homeWrite_ports (a : Agent) (n : Nat) (bs : List Byte) (s : State) : (homeWrite a n bs s).ports = s.ports := by unfold homeWrite; split; rfl; split <;> rfl
@[simp] theorem homeWrite_svc (a : Agent) (n : Nat) (bs : List Byte) (s : State) : (homeWrite a n bs s).svc = s.svc := by unfold homeWrite; split; rfl; split <;> rfl
@[simp] theorem homeWrite_msix (a : Agent) (n : Nat) (bs : List Byte) (s : State) : (homeWrite a n bs s).msix = s.msix := by unfold homeWrite; split; rfl; split <;> rfl
@[simp] theorem homeWrite_hostRead (a : Agent) (n : Nat) (bs : List Byte) (s : State) : (homeWrite a n bs s).hostRead = s.hostRead := by unfold homeWrite; split; rfl; split <;> rfl
@[simp] theorem rasLog_agenda (k l p : Nat) (s : State) : (rasLog k l p s).agenda = s.agenda := by simp only [rasLog, hbmWrite]; split <;> (try split) <;> simp
@[simp] theorem rasLog_choices (k l p : Nat) (s : State) : (rasLog k l p s).choices = s.choices := by simp only [rasLog, hbmWrite]; split <;> (try split) <;> simp
@[simp] theorem rasLog_upsets (k l p : Nat) (s : State) : (rasLog k l p s).upsets = s.upsets := by simp only [rasLog, hbmWrite]; split <;> (try split) <;> simp
@[simp] theorem rasLog_swapped (k l p : Nat) (s : State) : (rasLog k l p s).swapped = s.swapped := by simp only [rasLog, hbmWrite]; split <;> (try split) <;> simp
@[simp] theorem rasLog_images (k l p : Nat) (s : State) : (rasLog k l p s).images = s.images := by simp only [rasLog, hbmWrite]; split <;> (try split) <;> simp
@[simp] theorem rasLog_now (k l p : Nat) (s : State) : (rasLog k l p s).now = s.now := by simp only [rasLog, hbmWrite]; split <;> (try split) <;> simp
@[simp] theorem rasLog_free (k l p : Nat) (s : State) : (rasLog k l p s).free = s.free := by simp only [rasLog, hbmWrite]; split <;> (try split) <;> simp
@[simp] theorem rasLog_nextId (k l p : Nat) (s : State) : (rasLog k l p s).nextId = s.nextId := by simp only [rasLog, hbmWrite]; split <;> (try split) <;> simp
@[simp] theorem rasLog_hostMem (k l p : Nat) (s : State) : (rasLog k l p s).hostMem = s.hostMem := by simp only [rasLog, hbmWrite]; split <;> (try split) <;> simp
@[simp] theorem rasLog_suspect (k l p : Nat) (s : State) : (rasLog k l p s).suspect = s.suspect := by simp only [rasLog, hbmWrite]; split <;> (try split) <;> simp
@[simp] theorem rasLog_icache (k l p : Nat) (s : State) : (rasLog k l p s).icache = s.icache := by simp only [rasLog, hbmWrite]; split <;> (try split) <;> simp
@[simp] theorem rasLog_tlb (k l p : Nat) (s : State) : (rasLog k l p s).tlb = s.tlb := by simp only [rasLog, hbmWrite]; split <;> (try split) <;> simp
@[simp] theorem rasLog_cores (k l p : Nat) (s : State) : (rasLog k l p s).cores = s.cores := by simp only [rasLog, hbmWrite]; split <;> (try split) <;> simp
@[simp] theorem rasLog_lostBanks (k l p : Nat) (s : State) : (rasLog k l p s).lostBanks = s.lostBanks := by simp only [rasLog, hbmWrite]; split <;> (try split) <;> simp
@[simp] theorem rasLog_lostNodes (k l p : Nat) (s : State) : (rasLog k l p s).lostNodes = s.lostNodes := by simp only [rasLog, hbmWrite]; split <;> (try split) <;> simp
@[simp] theorem rasLog_lostEngines (k l p : Nat) (s : State) : (rasLog k l p s).lostEngines = s.lostEngines := by simp only [rasLog, hbmWrite]; split <;> (try split) <;> simp
@[simp] theorem rasLog_lostModules (k l p : Nat) (s : State) : (rasLog k l p s).lostModules = s.lostModules := by simp only [rasLog, hbmWrite]; split <;> (try split) <;> simp
@[simp] theorem rasLog_stackRegs (k l p : Nat) (s : State) : (rasLog k l p s).stackRegs = s.stackRegs := by simp only [rasLog, hbmWrite]; split <;> (try split) <;> simp
@[simp] theorem rasLog_mscLines (k l p : Nat) (s : State) : (rasLog k l p s).mscLines = s.mscLines := by simp only [rasLog, hbmWrite]; split <;> (try split) <;> simp
@[simp] theorem rasLog_writeQueue (k l p : Nat) (s : State) : (rasLog k l p s).writeQueue = s.writeQueue := by simp only [rasLog, hbmWrite]; split <;> (try split) <;> simp
@[simp] theorem rasLog_rows (k l p : Nat) (s : State) : (rasLog k l p s).rows = s.rows := by simp only [rasLog, hbmWrite]; split <;> (try split) <;> simp
@[simp] theorem rasLog_refreshed (k l p : Nat) (s : State) : (rasLog k l p s).refreshed = s.refreshed := by simp only [rasLog, hbmWrite]; split <;> (try split) <;> simp
@[simp] theorem rasLog_cmds (k l p : Nat) (s : State) : (rasLog k l p s).cmds = s.cmds := by simp only [rasLog, hbmWrite]; split <;> (try split) <;> simp
@[simp] theorem rasLog_collectives (k l p : Nat) (s : State) : (rasLog k l p s).collectives = s.collectives := by simp only [rasLog, hbmWrite]; split <;> (try split) <;> simp
@[simp] theorem rasLog_fabricOut (k l p : Nat) (s : State) : (rasLog k l p s).fabricOut = s.fabricOut := by simp only [rasLog, hbmWrite]; split <;> (try split) <;> simp
@[simp] theorem rasLog_reels (k l p : Nat) (s : State) : (rasLog k l p s).reels = s.reels := by simp only [rasLog, hbmWrite]; split <;> (try split) <;> simp
@[simp] theorem rasLog_launches (k l p : Nat) (s : State) : (rasLog k l p s).launches = s.launches := by simp only [rasLog, hbmWrite]; split <;> (try split) <;> simp
@[simp] theorem rasLog_nextOrder (k l p : Nat) (s : State) : (rasLog k l p s).nextOrder = s.nextOrder := by simp only [rasLog, hbmWrite]; split <;> (try split) <;> simp
@[simp] theorem rasLog_spaces (k l p : Nat) (s : State) : (rasLog k l p s).spaces = s.spaces := by simp only [rasLog, hbmWrite]; split <;> (try split) <;> simp
@[simp] theorem rasLog_ports (k l p : Nat) (s : State) : (rasLog k l p s).ports = s.ports := by simp only [rasLog, hbmWrite]; split <;> (try split) <;> simp
@[simp] theorem rasLog_msix (k l p : Nat) (s : State) : (rasLog k l p s).msix = s.msix := by simp only [rasLog, hbmWrite]; split <;> (try split) <;> simp
@[simp] theorem rasLog_hostRead (k l p : Nat) (s : State) : (rasLog k l p s).hostRead = s.hostRead := by simp only [rasLog, hbmWrite]; split <;> (try split) <;> simp
@[simp] theorem takeTrap_parked (c : Nat) (v : Word) (s : State) : (takeTrap c v s).parked = s.parked := rfl
@[simp] theorem takeTrap_agenda (c : Nat) (v : Word) (s : State) : (takeTrap c v s).agenda = s.agenda := rfl
@[simp] theorem takeTrap_choices (c : Nat) (v : Word) (s : State) : (takeTrap c v s).choices = s.choices := rfl
@[simp] theorem takeTrap_upsets (c : Nat) (v : Word) (s : State) : (takeTrap c v s).upsets = s.upsets := rfl
@[simp] theorem takeTrap_swapped (c : Nat) (v : Word) (s : State) : (takeTrap c v s).swapped = s.swapped := rfl
@[simp] theorem takeTrap_images (c : Nat) (v : Word) (s : State) : (takeTrap c v s).images = s.images := rfl
@[simp] theorem takeTrap_now (c : Nat) (v : Word) (s : State) : (takeTrap c v s).now = s.now := rfl
@[simp] theorem takeTrap_free (c : Nat) (v : Word) (s : State) : (takeTrap c v s).free = s.free := rfl
@[simp] theorem takeTrap_nextId (c : Nat) (v : Word) (s : State) : (takeTrap c v s).nextId = s.nextId := rfl
@[simp] theorem takeTrap_mem (c : Nat) (v : Word) (s : State) : (takeTrap c v s).mem = s.mem := rfl
@[simp] theorem takeTrap_hostMem (c : Nat) (v : Word) (s : State) : (takeTrap c v s).hostMem = s.hostMem := rfl
@[simp] theorem takeTrap_poison (c : Nat) (v : Word) (s : State) : (takeTrap c v s).poison = s.poison := rfl
@[simp] theorem takeTrap_suspect (c : Nat) (v : Word) (s : State) : (takeTrap c v s).suspect = s.suspect := rfl
@[simp] theorem takeTrap_live (c : Nat) (v : Word) (s : State) : (takeTrap c v s).live = s.live := rfl
@[simp] theorem takeTrap_dcache (c : Nat) (v : Word) (s : State) : (takeTrap c v s).dcache = s.dcache := rfl
@[simp] theorem takeTrap_icache (c : Nat) (v : Word) (s : State) : (takeTrap c v s).icache = s.icache := rfl
@[simp] theorem takeTrap_tlb (c : Nat) (v : Word) (s : State) : (takeTrap c v s).tlb = s.tlb := rfl
@[simp] theorem takeTrap_cores (c : Nat) (v : Word) (s : State) : (takeTrap c v s).cores = s.cores := rfl
@[simp] theorem takeTrap_lostBanks (c : Nat) (v : Word) (s : State) : (takeTrap c v s).lostBanks = s.lostBanks := rfl
@[simp] theorem takeTrap_lostNodes (c : Nat) (v : Word) (s : State) : (takeTrap c v s).lostNodes = s.lostNodes := rfl
@[simp] theorem takeTrap_lostEngines (c : Nat) (v : Word) (s : State) : (takeTrap c v s).lostEngines = s.lostEngines := rfl
@[simp] theorem takeTrap_lostModules (c : Nat) (v : Word) (s : State) : (takeTrap c v s).lostModules = s.lostModules := rfl
@[simp] theorem takeTrap_stackRegs (c : Nat) (v : Word) (s : State) : (takeTrap c v s).stackRegs = s.stackRegs := rfl
@[simp] theorem takeTrap_mscLines (c : Nat) (v : Word) (s : State) : (takeTrap c v s).mscLines = s.mscLines := rfl
@[simp] theorem takeTrap_writeQueue (c : Nat) (v : Word) (s : State) : (takeTrap c v s).writeQueue = s.writeQueue := rfl
@[simp] theorem takeTrap_rows (c : Nat) (v : Word) (s : State) : (takeTrap c v s).rows = s.rows := rfl
@[simp] theorem takeTrap_refreshed (c : Nat) (v : Word) (s : State) : (takeTrap c v s).refreshed = s.refreshed := rfl
@[simp] theorem takeTrap_cmds (c : Nat) (v : Word) (s : State) : (takeTrap c v s).cmds = s.cmds := rfl
@[simp] theorem takeTrap_collectives (c : Nat) (v : Word) (s : State) : (takeTrap c v s).collectives = s.collectives := rfl
@[simp] theorem takeTrap_fabricOut (c : Nat) (v : Word) (s : State) : (takeTrap c v s).fabricOut = s.fabricOut := rfl
@[simp] theorem takeTrap_reels (c : Nat) (v : Word) (s : State) : (takeTrap c v s).reels = s.reels := rfl
@[simp] theorem takeTrap_launches (c : Nat) (v : Word) (s : State) : (takeTrap c v s).launches = s.launches := rfl
@[simp] theorem takeTrap_nextOrder (c : Nat) (v : Word) (s : State) : (takeTrap c v s).nextOrder = s.nextOrder := rfl
@[simp] theorem takeTrap_spaces (c : Nat) (v : Word) (s : State) : (takeTrap c v s).spaces = s.spaces := rfl
@[simp] theorem takeTrap_ports (c : Nat) (v : Word) (s : State) : (takeTrap c v s).ports = s.ports := rfl
@[simp] theorem takeTrap_svc (c : Nat) (v : Word) (s : State) : (takeTrap c v s).svc = s.svc := rfl
@[simp] theorem takeTrap_msix (c : Nat) (v : Word) (s : State) : (takeTrap c v s).msix = s.msix := rfl
@[simp] theorem takeTrap_hostRead (c : Nat) (v : Word) (s : State) : (takeTrap c v s).hostRead = s.hostRead := rfl
@[simp] theorem retire_parked (b : Bool) (n : Nat) (c : Bool) (s : State) : (retire b n c s).parked = s.parked := by simp only [retire]; split <;> (try split) <;> (try split) <;> simp
@[simp] theorem retire_agenda (b : Bool) (n : Nat) (c : Bool) (s : State) : (retire b n c s).agenda = s.agenda := by simp only [retire]; split <;> (try split) <;> (try split) <;> simp
@[simp] theorem retire_choices (b : Bool) (n : Nat) (c : Bool) (s : State) : (retire b n c s).choices = s.choices := by simp only [retire]; split <;> (try split) <;> (try split) <;> simp
@[simp] theorem retire_upsets (b : Bool) (n : Nat) (c : Bool) (s : State) : (retire b n c s).upsets = s.upsets := by simp only [retire]; split <;> (try split) <;> (try split) <;> simp
@[simp] theorem retire_swapped (b : Bool) (n : Nat) (c : Bool) (s : State) : (retire b n c s).swapped = s.swapped := by simp only [retire]; split <;> (try split) <;> (try split) <;> simp
@[simp] theorem retire_images (b : Bool) (n : Nat) (c : Bool) (s : State) : (retire b n c s).images = s.images := by simp only [retire]; split <;> (try split) <;> (try split) <;> simp
@[simp] theorem retire_now (b : Bool) (n : Nat) (c : Bool) (s : State) : (retire b n c s).now = s.now := by simp only [retire]; split <;> (try split) <;> (try split) <;> simp
@[simp] theorem retire_free (b : Bool) (n : Nat) (c : Bool) (s : State) : (retire b n c s).free = s.free := by simp only [retire]; split <;> (try split) <;> (try split) <;> simp
@[simp] theorem retire_nextId (b : Bool) (n : Nat) (c : Bool) (s : State) : (retire b n c s).nextId = s.nextId := by simp only [retire]; split <;> (try split) <;> (try split) <;> simp
@[simp] theorem retire_mem (b : Bool) (n : Nat) (c : Bool) (s : State) : (retire b n c s).mem = s.mem := by simp only [retire]; split <;> (try split) <;> (try split) <;> simp
@[simp] theorem retire_hostMem (b : Bool) (n : Nat) (c : Bool) (s : State) : (retire b n c s).hostMem = s.hostMem := by simp only [retire]; split <;> (try split) <;> (try split) <;> simp
@[simp] theorem retire_poison (b : Bool) (n : Nat) (c : Bool) (s : State) : (retire b n c s).poison = s.poison := by simp only [retire]; split <;> (try split) <;> (try split) <;> simp
@[simp] theorem retire_suspect (b : Bool) (n : Nat) (c : Bool) (s : State) : (retire b n c s).suspect = s.suspect := by simp only [retire]; split <;> (try split) <;> (try split) <;> simp
@[simp] theorem retire_live (b : Bool) (n : Nat) (c : Bool) (s : State) : (retire b n c s).live = s.live := by simp only [retire]; split <;> (try split) <;> (try split) <;> simp
@[simp] theorem retire_dcache (b : Bool) (n : Nat) (c : Bool) (s : State) : (retire b n c s).dcache = s.dcache := by simp only [retire]; split <;> (try split) <;> (try split) <;> simp
@[simp] theorem retire_icache (b : Bool) (n : Nat) (c : Bool) (s : State) : (retire b n c s).icache = s.icache := by simp only [retire]; split <;> (try split) <;> (try split) <;> simp
@[simp] theorem retire_tlb (b : Bool) (n : Nat) (c : Bool) (s : State) : (retire b n c s).tlb = s.tlb := by simp only [retire]; split <;> (try split) <;> (try split) <;> simp
@[simp] theorem retire_cores (b : Bool) (n : Nat) (c : Bool) (s : State) : (retire b n c s).cores = s.cores := by simp only [retire]; split <;> (try split) <;> (try split) <;> simp
@[simp] theorem retire_lostBanks (b : Bool) (n : Nat) (c : Bool) (s : State) : (retire b n c s).lostBanks = s.lostBanks := by simp only [retire]; split <;> (try split) <;> (try split) <;> simp
@[simp] theorem retire_lostNodes (b : Bool) (n : Nat) (c : Bool) (s : State) : (retire b n c s).lostNodes = s.lostNodes := by simp only [retire]; split <;> (try split) <;> (try split) <;> simp
@[simp] theorem retire_lostEngines (b : Bool) (n : Nat) (c : Bool) (s : State) : (retire b n c s).lostEngines = s.lostEngines := by simp only [retire]; split <;> (try split) <;> (try split) <;> simp
@[simp] theorem retire_lostModules (b : Bool) (n : Nat) (c : Bool) (s : State) : (retire b n c s).lostModules = s.lostModules := by simp only [retire]; split <;> (try split) <;> (try split) <;> simp
@[simp] theorem retire_stackRegs (b : Bool) (n : Nat) (c : Bool) (s : State) : (retire b n c s).stackRegs = s.stackRegs := by simp only [retire]; split <;> (try split) <;> (try split) <;> simp
@[simp] theorem retire_mscLines (b : Bool) (n : Nat) (c : Bool) (s : State) : (retire b n c s).mscLines = s.mscLines := by simp only [retire]; split <;> (try split) <;> (try split) <;> simp
@[simp] theorem retire_writeQueue (b : Bool) (n : Nat) (c : Bool) (s : State) : (retire b n c s).writeQueue = s.writeQueue := by simp only [retire]; split <;> (try split) <;> (try split) <;> simp
@[simp] theorem retire_rows (b : Bool) (n : Nat) (c : Bool) (s : State) : (retire b n c s).rows = s.rows := by simp only [retire]; split <;> (try split) <;> (try split) <;> simp
@[simp] theorem retire_refreshed (b : Bool) (n : Nat) (c : Bool) (s : State) : (retire b n c s).refreshed = s.refreshed := by simp only [retire]; split <;> (try split) <;> (try split) <;> simp
@[simp] theorem retire_cmds (b : Bool) (n : Nat) (c : Bool) (s : State) : (retire b n c s).cmds = s.cmds := by simp only [retire]; split <;> (try split) <;> (try split) <;> simp
@[simp] theorem retire_collectives (b : Bool) (n : Nat) (c : Bool) (s : State) : (retire b n c s).collectives = s.collectives := by simp only [retire]; split <;> (try split) <;> (try split) <;> simp
@[simp] theorem retire_fabricOut (b : Bool) (n : Nat) (c : Bool) (s : State) : (retire b n c s).fabricOut = s.fabricOut := by simp only [retire]; split <;> (try split) <;> (try split) <;> simp
@[simp] theorem retire_reels (b : Bool) (n : Nat) (c : Bool) (s : State) : (retire b n c s).reels = s.reels := by simp only [retire]; split <;> (try split) <;> (try split) <;> simp
@[simp] theorem retire_launches (b : Bool) (n : Nat) (c : Bool) (s : State) : (retire b n c s).launches = s.launches := by simp only [retire]; split <;> (try split) <;> (try split) <;> simp
@[simp] theorem retire_nextOrder (b : Bool) (n : Nat) (c : Bool) (s : State) : (retire b n c s).nextOrder = s.nextOrder := by simp only [retire]; split <;> (try split) <;> (try split) <;> simp
@[simp] theorem retire_spaces (b : Bool) (n : Nat) (c : Bool) (s : State) : (retire b n c s).spaces = s.spaces := by simp only [retire]; split <;> (try split) <;> (try split) <;> simp
@[simp] theorem retire_ports (b : Bool) (n : Nat) (c : Bool) (s : State) : (retire b n c s).ports = s.ports := by simp only [retire]; split <;> (try split) <;> (try split) <;> simp
@[simp] theorem retire_svc (b : Bool) (n : Nat) (c : Bool) (s : State) : (retire b n c s).svc = s.svc := by simp only [retire]; split <;> (try split) <;> (try split) <;> simp
@[simp] theorem retire_msix (b : Bool) (n : Nat) (c : Bool) (s : State) : (retire b n c s).msix = s.msix := by simp only [retire]; split <;> (try split) <;> (try split) <;> simp
@[simp] theorem retire_hostRead (b : Bool) (n : Nat) (c : Bool) (s : State) : (retire b n c s).hostRead = s.hostRead := by simp only [retire]; split <;> (try split) <;> (try split) <;> simp

/-! ### A walk of the running strand changes nothing but the core's data cache (R336) -/

@[simp] theorem State.walked_hart (s : State) (va : Nat) (t : Option TlbEntry) : (s.walked va t).hart = s.hart := rfl
@[simp] theorem State.walked_parked (s : State) (va : Nat) (t : Option TlbEntry) : (s.walked va t).parked = s.parked := rfl
@[simp] theorem State.walked_agenda (s : State) (va : Nat) (t : Option TlbEntry) : (s.walked va t).agenda = s.agenda := rfl
@[simp] theorem State.walked_choices (s : State) (va : Nat) (t : Option TlbEntry) : (s.walked va t).choices = s.choices := rfl
@[simp] theorem State.walked_upsets (s : State) (va : Nat) (t : Option TlbEntry) : (s.walked va t).upsets = s.upsets := rfl
@[simp] theorem State.walked_swapped (s : State) (va : Nat) (t : Option TlbEntry) : (s.walked va t).swapped = s.swapped := rfl
@[simp] theorem State.walked_images (s : State) (va : Nat) (t : Option TlbEntry) : (s.walked va t).images = s.images := rfl
@[simp] theorem State.walked_now (s : State) (va : Nat) (t : Option TlbEntry) : (s.walked va t).now = s.now := rfl
@[simp] theorem State.walked_free (s : State) (va : Nat) (t : Option TlbEntry) : (s.walked va t).free = s.free := rfl
@[simp] theorem State.walked_nextId (s : State) (va : Nat) (t : Option TlbEntry) : (s.walked va t).nextId = s.nextId := rfl
@[simp] theorem State.walked_mem (s : State) (va : Nat) (t : Option TlbEntry) : (s.walked va t).mem = s.mem := rfl
@[simp] theorem State.walked_hostMem (s : State) (va : Nat) (t : Option TlbEntry) : (s.walked va t).hostMem = s.hostMem := rfl
@[simp] theorem State.walked_poison (s : State) (va : Nat) (t : Option TlbEntry) : (s.walked va t).poison = s.poison := rfl
@[simp] theorem State.walked_suspect (s : State) (va : Nat) (t : Option TlbEntry) : (s.walked va t).suspect = s.suspect := rfl
@[simp] theorem State.walked_live (s : State) (va : Nat) (t : Option TlbEntry) : (s.walked va t).live = s.live := rfl
@[simp] theorem State.walked_icache (s : State) (va : Nat) (t : Option TlbEntry) : (s.walked va t).icache = s.icache := rfl
@[simp] theorem State.walked_tlb (s : State) (va : Nat) (t : Option TlbEntry) : (s.walked va t).tlb = s.tlb := rfl
@[simp] theorem State.walked_cores (s : State) (va : Nat) (t : Option TlbEntry) : (s.walked va t).cores = s.cores := rfl
@[simp] theorem State.walked_lostBanks (s : State) (va : Nat) (t : Option TlbEntry) : (s.walked va t).lostBanks = s.lostBanks := rfl
@[simp] theorem State.walked_lostNodes (s : State) (va : Nat) (t : Option TlbEntry) : (s.walked va t).lostNodes = s.lostNodes := rfl
@[simp] theorem State.walked_lostEngines (s : State) (va : Nat) (t : Option TlbEntry) : (s.walked va t).lostEngines = s.lostEngines := rfl
@[simp] theorem State.walked_lostModules (s : State) (va : Nat) (t : Option TlbEntry) : (s.walked va t).lostModules = s.lostModules := rfl
@[simp] theorem State.walked_stackRegs (s : State) (va : Nat) (t : Option TlbEntry) : (s.walked va t).stackRegs = s.stackRegs := rfl
@[simp] theorem State.walked_mscLines (s : State) (va : Nat) (t : Option TlbEntry) : (s.walked va t).mscLines = s.mscLines := rfl
@[simp] theorem State.walked_writeQueue (s : State) (va : Nat) (t : Option TlbEntry) : (s.walked va t).writeQueue = s.writeQueue := rfl
@[simp] theorem State.walked_rows (s : State) (va : Nat) (t : Option TlbEntry) : (s.walked va t).rows = s.rows := rfl
@[simp] theorem State.walked_refreshed (s : State) (va : Nat) (t : Option TlbEntry) : (s.walked va t).refreshed = s.refreshed := rfl
@[simp] theorem State.walked_cmds (s : State) (va : Nat) (t : Option TlbEntry) : (s.walked va t).cmds = s.cmds := rfl
@[simp] theorem State.walked_collectives (s : State) (va : Nat) (t : Option TlbEntry) : (s.walked va t).collectives = s.collectives := rfl
@[simp] theorem State.walked_fabricOut (s : State) (va : Nat) (t : Option TlbEntry) : (s.walked va t).fabricOut = s.fabricOut := rfl
@[simp] theorem State.walked_reels (s : State) (va : Nat) (t : Option TlbEntry) : (s.walked va t).reels = s.reels := rfl
@[simp] theorem State.walked_launches (s : State) (va : Nat) (t : Option TlbEntry) : (s.walked va t).launches = s.launches := rfl
@[simp] theorem State.walked_nextOrder (s : State) (va : Nat) (t : Option TlbEntry) : (s.walked va t).nextOrder = s.nextOrder := rfl
@[simp] theorem State.walked_spaces (s : State) (va : Nat) (t : Option TlbEntry) : (s.walked va t).spaces = s.spaces := rfl
@[simp] theorem State.walked_ports (s : State) (va : Nat) (t : Option TlbEntry) : (s.walked va t).ports = s.ports := rfl
@[simp] theorem State.walked_svc (s : State) (va : Nat) (t : Option TlbEntry) : (s.walked va t).svc = s.svc := rfl
@[simp] theorem State.walked_msix (s : State) (va : Nat) (t : Option TlbEntry) : (s.walked va t).msix = s.msix := rfl
@[simp] theorem State.walked_hostRead (s : State) (va : Nat) (t : Option TlbEntry) : (s.walked va t).hostRead = s.hostRead := rfl

/-! ### What the writes write -/

/-- x0 reads zero (R73). -/
@[simp] theorem Strand.rx_zero (h : Strand) : h.rx 0#5 = 0#64 := rfl

/-- A write to x0 is discarded (R73). -/
@[simp] theorem Strand.wx_zero (h : Strand) (v : Word) : h.wx 0#5 v = h := rfl

/-- Reading a vector of registers after one is set. -/
theorem get_set {n : Nat} (v : Vector α n) (i j : Fin n) (a : α) : (v.set i.1 a i.2).get j = if j = i then a else v.get j := by
  show (v.set i.1 a i.2)[j.1] = if j = i then a else v[j.1]
  rw [Vector.getElem_set]
  by_cases e : j = i
  · rw [if_pos e, if_pos (congrArg Fin.val e.symm)]
  · rw [if_neg e, if_neg fun k => e (Fin.ext k.symm)]

theorem toFin_inj {n : Nat} {a b : BitVec n} : a.toFin = b.toFin ↔ a = b :=
  ⟨fun e => BitVec.eq_of_toNat_eq (congrArg Fin.val e), fun e => e ▸ rfl⟩

/-- A register other than x0 reads what was written to it. -/
theorem Strand.rx_wx_same (h : Strand) {r : BitVec 5} (v : Word) (hr : r ≠ 0#5) : (h.wx r v).rx r = v := by
  simp only [Strand.rx, Strand.wx, if_neg hr]
  exact (get_set h.x r.toFin r.toFin v).trans (if_pos rfl)

/-- A register that is not the one written reads as before. -/
theorem Strand.rx_wx_other (h : Strand) {r q : BitVec 5} (v : Word) (hq : q ≠ r) : (h.wx r v).rx q = h.rx q := by
  simp only [Strand.rx, Strand.wx]
  split
  · rfl
  · split
    · rfl
    · exact (get_set h.x r.toFin q.toFin v).trans (if_neg fun e => hq (toFin_inj.mp e))

/-- A register's tag after a tag is written. -/
theorem Strand.tag_putTag (h : Strand) (r q : BitVec 5) (t : ETag) :
    (h.putTag r t).vtag.get q.toFin = if q = r then t else h.vtag.get q.toFin := by
  refine (get_set h.vtag r.toFin q.toFin t).trans ?_
  by_cases e : q = r
  · rw [if_pos e, if_pos (toFin_inj.mpr e)]
  · rw [if_neg e, if_neg fun k => e (toFin_inj.mp k)]

/-- A vector register that is not the one written is as before. -/
theorem Strand.v_putElem_other (h : Strand) {r q : BitVec 5} (w e n : Nat) (hq : q ≠ r) :
    (h.putElem r w e n).v.get q.toFin = h.v.get q.toFin :=
  (get_set h.v r.toFin q.toFin _).trans (if_neg fun k => hq (toFin_inj.mp k))

/-- A mask register that is not the one written is as before. -/
theorem Strand.k_putKbit_other (h : Strand) {r q : BitVec 3} (e : Nat) (b : Bool) (hq : q ≠ r) :
    (h.putKbit r e b).k.get q.toFin = h.k.get q.toFin := by
  unfold Strand.putKbit
  split
  · rfl
  · exact (get_set h.k r.toFin q.toFin _).trans (if_neg fun k => hq (toFin_inj.mp k))

/-- A tile that is not the one written is as before. -/
theorem Strand.m_putTile_other (h : Strand) {r q : BitVec 3} (w i j n : Nat) (hq : q ≠ r) :
    (h.putTile r w i j n).m.get q.toFin = h.m.get q.toFin :=
  (get_set h.m r.toFin q.toFin _).trans (if_neg fun k => hq (toFin_inj.mp k))

/-- A write of a home while nothing watches changes no strand. -/
theorem Strand.watchWrite_nil (s : State) (a : Agent) (n k : Nat) (h : Strand) (e : h.watch = []) : h.watchWrite s a n k = h := by
  simp [Strand.watchWrite, e]

/-- Only its pending hits change in a strand where a write is watched. -/
theorem Strand.watchWrite_eq (s : State) (a : Agent) (n k : Nat) (h : Strand) :
    h.watchWrite s a n k = { h with hits := (h.watchWrite s a n k).hits } := by
  have key : ∀ (ws : List (Nat × Nat × Nat)) (g : Strand), g = { h with hits := g.hits } →
      (ws.foldl (fun h w =>
        let i : Fin 4 := ⟨w.1 % 4, Nat.mod_lt _ (by decide)⟩
        let reg := h.wpt.get i
        if wptSrc reg = 3 && reg.getLsbD 3 && overlaps n k w.2.1 w.2.2 then
          h.addHit i (asyncHit s h.sid i.1 true a ((if n < w.2.1 then w.2.1 else n) - w.2.1))
        else h) g) = { h with hits := (ws.foldl (fun h w =>
        let i : Fin 4 := ⟨w.1 % 4, Nat.mod_lt _ (by decide)⟩
        let reg := h.wpt.get i
        if wptSrc reg = 3 && reg.getLsbD 3 && overlaps n k w.2.1 w.2.2 then
          h.addHit i (asyncHit s h.sid i.1 true a ((if n < w.2.1 then w.2.1 else n) - w.2.1))
        else h) g).hits } := by
    intro ws
    induction ws with
    | nil => exact fun g e => e
    | cons w ws ih =>
      intro g e
      simp only [List.foldl_cons]
      apply ih
      split
      · unfold Strand.addHit
        split <;> (rw [e])
      · exact e
  exact key h.watch h rfl

end Sys2Proof.Machine
end

