-- ==== Sys2Proof/Laws/Access.lean ====
section
/-!
SUPPORT. The shared operations of an access of the running strand: what the address checks and the translation answer where no
choice is pending, and what a refused access leaves.
-/
namespace Sys2Proof.Machine

/-- The words that a walk has met add to the suspect ones only. -/
theorem suspectWalk_eq (as : List Nat) (s : State) : suspectWalk as s = { s with suspect := (suspectWalk as s).suspect } := by
  induction as generalizing s with
  | nil => rfl
  | cons a as ih => exact ih (suspectRead a 8 s)

/-- A walk for an access that is not made drops lines of the data cache and adds suspect words, and changes nothing else. -/
theorem probed_eq (s : State) (va : Nat) :
    s.probed va = { s with dcache := (s.probed va).dcache, suspect := (s.probed va).suspect } := by
  simp only [State.probed]
  rw [suspectWalk_eq]
  rfl

@[simp] theorem probed_hart (s : State) (va : Nat) : (s.probed va).hart = s.hart := by rw [probed_eq]
@[simp] theorem probed_mem (s : State) (va : Nat) : (s.probed va).mem = s.mem := by rw [probed_eq]
@[simp] theorem probed_tlb (s : State) (va : Nat) : (s.probed va).tlb = s.tlb := by rw [probed_eq]

/-- A refused access changes the data cache, the translations and the suspect words alone. -/
theorem refused_eq (s : State) (k : Access) (va n : Nat) : s.refused k va n =
    { s with dcache := (s.refused k va n).dcache, tlb := (s.refused k va n).tlb, suspect := (s.refused k va n).suspect } := by
  simp only [State.refused]
  split
  · rfl
  · split
    · rw [probed_eq]
    · split <;> rfl

@[simp] theorem refused_hart (s : State) (k : Access) (va n : Nat) : (s.refused k va n).hart = s.hart := by rw [refused_eq]
@[simp] theorem refused_mem (s : State) (k : Access) (va n : Nat) : (s.refused k va n).mem = s.mem := by rw [refused_eq]

/-- An aligned canonical address passes. -/
theorem checkAddress_ok {k : Access} {va n : Nat} {s : State} (hc : canonical va = true) (hn : va % n = 0) :
    checkAddress k va n s = .ok () s := by
  simp [checkAddress, hc, hn]

/-- One that is not canonical is a page fault, before anything is read. -/
theorem checkAddress_far {k : Access} {va n : Nat} {s : State} (hc : canonical va = false) :
    checkAddress k va n s = .error (.trap (pageCause k) (BitVec.ofNat 64 va) none) s := by
  simp [checkAddress, hc]

/-- A misaligned one traps after a walk: with the access cause in the control space of a stack, else with the misaligned cause. -/
theorem checkAddress_misaligned {k : Access} {va n : Nat} {s : State} (hc : canonical va = true) (hn : va % n ≠ 0) :
    checkAddress k va n s = .error (.trap (if ctlMapped k va s then accessCause k else if k = .store then 6 else 4)
      (BitVec.ofNat 64 va) none) (s.probed va) := by
  simp [checkAddress, hc, hn, run_ite]
  split <;> rfl

/-- With no choice pending nothing is filled ahead of an access, and a choice is the plain one. -/
theorem takeFills_none {s : State} (hs : s.choices = []) : takeFills s = .ok () s := by
  cases s
  cases hs
  rfl

theorem takeChoice_none {s : State} (hs : s.choices = []) : takeChoice s = .ok .fresh s := by
  simp [takeChoice, hs]

/-- With no choice pending an address that translates reaches its place, and the walk has read the entries. -/
theorem translateH_ok {k : Access} {va : Nat} {s : State} {r : Nat × Bool} (hs : s.choices = [])
    (ht : translate s s.hart.root (s.hart.mode == .user) k va = .ok r) : translateH k va s = .ok r (s.walked va none) := by
  simp [translateH, takeFills_none hs, takeChoice_none hs, ht]

/-- With no choice pending an address whose translation faults traps with that cause, and no cache keeps the leaf. -/
theorem translateH_error {k : Access} {va c : Nat} {s : State} (hs : s.choices = [])
    (ht : translate s s.hart.root (s.hart.mode == .user) k va = .error c) (hc : c ≠ 28) :
    translateH k va s = .error (.trap c (BitVec.ofNat 64 va) none)
      (dropFaulted (sitesOf s.hart.place) s.hart.asid va (s.walked va none)) := by
  simp [translateH, takeFills_none hs, takeChoice_none hs, ht, hc]

end Sys2Proof.Machine
end

