-- ==== Sys2Proof/Laws/Flow.lean ====
section
/-!
SUPPORT. What the transfers and the firings of a Flaset image (R378 to R380) change: the tokens of the launch and where the strand
stands in its firing, and at a firing's beginning the registers that R380 resets; nothing else.
-/
namespace Sys2Proof.Machine

/-- A transfer counts in the strand's firing only. -/
theorem Strand.moves_eq (h : Strand) (q n : Nat) : h.moves q n = { h with firing := (h.moves q n).firing } := rfl

@[simp] theorem Strand.moves_x (h : Strand) (q n : Nat) : (h.moves q n).x = h.x := rfl
@[simp] theorem Strand.moves_v (h : Strand) (q n : Nat) : (h.moves q n).v = h.v := rfl
@[simp] theorem Strand.moves_vtag (h : Strand) (q n : Nat) : (h.moves q n).vtag = h.vtag := rfl
@[simp] theorem Strand.moves_q (h : Strand) (q n : Nat) : (h.moves q n).q = h.q := rfl
@[simp] theorem Strand.moves_c (h : Strand) (q n : Nat) : (h.moves q n).c = h.c := rfl
@[simp] theorem Strand.moves_vl (h : Strand) (q n : Nat) : (h.moves q n).vl = h.vl := rfl
@[simp] theorem Strand.moves_vsta (h : Strand) (q n : Nat) : (h.moves q n).vsta = h.vsta := rfl
@[simp] theorem Strand.moves_lown (h : Strand) (q n : Nat) : (h.moves q n).lown = h.lown := rfl
@[simp] theorem Strand.moves_bad (h : Strand) (q n : Nat) : (h.moves q n).bad = h.bad := rfl
@[simp] theorem Strand.moves_npc (h : Strand) (q n : Nat) : (h.moves q n).npc = h.npc := rfl
@[simp] theorem Strand.moves_tag (h : Strand) (q n : Nat) (r : BitVec 5) : (h.moves q n).tag r = h.tag r := rfl

/-- Tokens are put into the launches only. -/
theorem putTokens_eq (c : Nat) (ts : List Word) (s : State) :
    putTokens c ts s = { s with launches := (putTokens c ts s).launches } := by
  unfold putTokens; split <;> rfl

@[simp] theorem putTokens_hart (c : Nat) (ts : List Word) (s : State) : (putTokens c ts s).hart = s.hart := by rw [putTokens_eq]
@[simp] theorem putTokens_mem (c : Nat) (ts : List Word) (s : State) : (putTokens c ts s).mem = s.mem := by rw [putTokens_eq]
@[simp] theorem putTokens_free (c : Nat) (ts : List Word) (s : State) : (putTokens c ts s).free = s.free := by rw [putTokens_eq]
@[simp] theorem putTokens_dcache (c : Nat) (ts : List Word) (s : State) : (putTokens c ts s).dcache = s.dcache := by rw [putTokens_eq]

/-- A firing begins at its body's first word, in the strand's own place, space, mode, chains and lane slices, with the actor's
tiles and accumulators, no elements, every other CSR as at a strand's start and nothing in the vector registers, masks and
queues, and x1 at 0 (R380). -/
theorem Strand.fires_frame (h : Strand) (k : Nat) (r : ActorRegs) (a0 sp body close : Nat) (qs : List Conduit) :
    let g := h.fires k r a0 sp body close qs
    g.pc = BitVec.ofNat 64 body ∧ g.rx 1#5 = 0#64 ∧ g.sid = h.sid ∧ g.place = h.place ∧ g.lown = h.lown ∧ g.root = h.root ∧ g.asid = h.asid ∧
      g.mode = h.mode ∧ g.csr = Strand.start.csr ∧ g.c = h.c ∧ g.tl = Strand.start.tl ∧ g.slices = h.slices ∧ g.strip = h.strip ∧ g.ea = r.ea ∧
      g.m = r.m ∧ g.tshape = r.tshape ∧ g.v = Strand.start.v ∧ g.k = Strand.start.k ∧ g.q = Strand.start.q ∧ g.vl = 0 ∧ g.vsta = 0 :=
  ⟨rfl, (by simp [Strand.fires, Strand.rx, vecOf, keptX, Vector.get]; rfl), rfl, rfl, rfl, rfl, rfl, rfl, rfl, rfl, rfl, rfl, rfl, rfl, rfl, rfl, rfl, rfl, rfl, rfl, rfl⟩

/-- A strand that runs no actor has no channel under a queue's name. -/
theorem Strand.conduit_none {h : Strand} (q : Nat) (e : h.firing = none) : h.conduit q = none := by simp [Strand.conduit, e]

end Sys2Proof.Machine
end

