-- ==== Sys2Proof/Laws/Loops.lean ====
section
/-!
SUPPORT. The element loop when nothing stops it: the elements' effects in ascending order, then vsta 0. What calm says, part by
part.
-/
namespace Sys2Proof.Machine

theorem calm_iff (s : State) : s.calm = true ↔
    s.hart.hit = none ∧ s.hart.unwatched = true ∧ s.choices = [] ∧ s.upsets = [] ∧ s.hart.bad = [] ∧ s.hart.estep = false := by
  simp [State.calm, and_assoc]

/-- With no element stepping a completed meaning leaves the state that completes names. -/
theorem retire_completes {s s' : State} {n : Nat} (he : s.hart.estep = false) (hh : s'.hart.hit = none) :
    retire (s.hart.estep && s.hart.mode == .user) n true s' = s'.completes s'.hart := by
  rw [he, Bool.false_and, retire_quiet hh]

/-- A meaning that only changes the running strand, and keeps it without a hit, completes. -/
theorem completes_of_ok {i : Instr} {body : M Unit} {s : State} {h : Strand} (he : s.hart.estep = false)
    (hb : body s = .ok () (s.withHart h)) (hh : h.hit = none) : runInstr i body s = .next (s.completes h) := by
  rw [runInstr_ok hb, retire_completes he hh]
  rfl

/-- The loop end with no element stepping. -/
theorem loopEnd_steady {s : State} (he : s.hart.estep = false) (n : Nat) : loopEnd n s = .ok n s := by
  simp [loopEnd, he]

/-- The loop is done at its end. -/
theorem loopDone_end (n : Nat) (s : State) : loopDone n n s = .ok () (s.withHart { s.hart with vsta := 0 }) := by
  simp [loopDone]

/-- No upset is pending. -/
theorem takeUpsets_none {s : State} (hu : s.upsets = []) : takeUpsets s = .ok [] s := by
  simp [takeUpsets, hu]

theorem needUpset_none {s : State} (hu : s.upsets = []) : needUpset s = .ok () s := by
  simp [needUpset, takeUpsets_none hu, byGroup]

theorem needUpsetIn_none {s : State} {lo hi : Nat} (hu : s.upsets = []) : needUpsetIn lo hi s = .ok () s := by
  simp [needUpsetIn, takeUpsets_none hu, byGroup, groupsIn]

/-- The elements' effects on the running strand, in order. -/
def foldH (f : Nat → Strand → Strand) (es : List Nat) (h : Strand) : Strand := es.foldl (fun h e => f e h) h

@[simp] theorem foldH_nil (f : Nat → Strand → Strand) (h : Strand) : foldH f [] h = h := rfl

@[simp] theorem foldH_cons (f : Nat → Strand → Strand) (e : Nat) (es : List Nat) (h : Strand) :
    foldH f (e :: es) h = foldH f es (f e h) := rfl

/-- Elements that only change the running strand, one after the other. -/
theorem runElems_fold {bad : Nat → Option Word} {f : Nat → Strand → Strand} (hk : ∀ e h, (f e h).hit = h.hit) (es : List Nat)
    (hb : ∀ e ∈ es, bad e = none) : ∀ s : State, s.hart.hit = none →
    runElems bad (fun e => modH (f e)) es s = .ok () (s.withHart (foldH f es s.hart)) := by
  induction es with
  | nil => exact fun s _ => rfl
  | cons e es ih =>
    intro s hh
    have h₀ : (f e s.hart).hit = none := (hk e s.hart).trans hh
    have h₁ : atElem e (do consume (bad e); modH (f e)) s = .ok () (s.withHart (f e s.hart)) :=
      atElem_ok (by rw [hb e (by simp)]; rfl) h₀
    have h₂ := ih (fun d hd => hb d (by simp [hd])) (s.withHart (f e s.hart)) h₀
    show forEach (e :: es) _ s = _
    rw [forEach_cons, h₁]
    exact h₂

/-- The loop's elements, when nothing stops it: what it writes before them, then each in order. -/
theorem loopElements_fold {n : Nat} {ind : Bool} {g : Strand → Strand} {active : Nat → Bool} {bad : Nat → Option Word}
    {f : Nat → Strand → Strand} {s : State} (he : s.hart.estep = false) (hu : s.upsets = []) (hh : s.hart.hit = none)
    (hb : ∀ e, bad e = none) (hg : ∀ h, (g h).hit = h.hit) (hk : ∀ e h, (f e h).hit = h.hit) :
    loopElements n ind (modH g) active bad (fun e => modH (f e)) s = .ok n (s.withHart
      (foldH f ((rangeFrom s.hart.vsta (n - s.hart.vsta)).filter active) (g s.hart))) := by
  have hs : ∀ es : List Nat, es.findSome? bad = none := fun es => List.findSome?_eq_none_iff.mpr fun e _ => hb e
  have hr := runElems_fold hk ((rangeFrom s.hart.vsta (n - s.hart.vsta)).filter active) (fun e _ => hb e) (s.withHart (g s.hart))
    ((hg s.hart).trans hh)
  have hu' : (s.withHart (g s.hart)).upsets = [] := hu
  unfold loopElements
  cases ind
  · simp only [run_bind, run_getH, Bool.false_eq_true, if_false, loopEnd_steady he, run_modH]
    rw [show takeUpsets (s.withHart (g s.hart)) = _ from takeUpsets_none hu']
    simp only [groupsIn, byGroup, List.filter_nil, runGroups]
    rw [hr]
    rfl
  · simp only [run_bind, run_getH, if_true, run_pure, hs, needUpsetIn_none hu, run_modH]
    rw [show runElems bad (fun e => modH (f e)) _ _ = _ from hr]
    rfl

/-- The whole loop, when nothing stops it and its elements only change the running strand. -/
theorem elementLoop_fold {n : Nat} {ind : Bool} {g : Strand → Strand} {active : Nat → Bool} {bad : Nat → Option Word}
    {f : Nat → Strand → Strand} {s : State} (he : s.hart.estep = false) (hu : s.upsets = []) (hh : s.hart.hit = none)
    (hb : ∀ e, bad e = none) (hg : ∀ h, (g h).hit = h.hit) (hk : ∀ e h, (f e h).hit = h.hit) :
    elementLoop n ind (modH g) active bad (fun e => modH (f e)) s = .ok () (s.withHart
      { foldH f ((rangeFrom s.hart.vsta (n - s.hart.vsta)).filter active) (g s.hart) with vsta := 0 }) := by
  unfold elementLoop
  rw [run_bind, loopElements_fold he hu hh hb hg hk]
  exact loopDone_end n _

/-- A strand with no uncorrectable word meets none. -/
theorem badOf_none {h : Strand} (hb : h.bad = []) (ws : List SrcRead) : h.badOf ws = none := by
  simp [Strand.badOf, hb]

/-- Every effect of a kind that the elements' effects keep is kept by all of them. -/
theorem foldH_keeps {f : Nat → Strand → Strand} {α : Type} (p : Strand → α) (hp : ∀ e h, p (f e h) = p h) :
    ∀ (es : List Nat) (h : Strand), p (foldH f es h) = p h := by
  intro es
  induction es with
  | nil => exact fun _ => rfl
  | cons e es ih => exact fun h => (ih (f e h)).trans (hp e h)

/-- The numbers of a range. -/
theorem mem_rangeFrom {lo n e : Nat} : e ∈ rangeFrom lo n ↔ lo ≤ e ∧ e < lo + n := by
  induction n generalizing lo with
  | zero => simp [rangeFrom]
  | succ n ih => simp only [rangeFrom, List.mem_cons, ih]; omega

/-- A range has no number twice. -/
theorem nodup_rangeFrom (lo n : Nat) : (rangeFrom lo n).Nodup := by
  induction n generalizing lo with
  | zero => exact List.nodup_nil
  | succ n ih =>
    refine List.nodup_cons.mpr ⟨fun h => ?_, ih (lo + 1)⟩
    have := (mem_rangeFrom.mp h).1
    omega

end Sys2Proof.Machine
end

