-- ==== Sys2Proof/Laws/Lanes.lean ====
section
/-!
SUPPORT. Elements in the lane layout of R51: what is written reads back, and no other element changes; the common course of a
VA instruction when nothing stops it.
-/
namespace Sys2Proof.Machine

/-- A field of w bits at o of a register after a field of the same width at p is written: p is the same field or disjoint. -/
theorem field_set {n o p w x : Nat} (v : BitVec n) (hw : 0 < w) (hp : p + w ≤ n) (hd : o = p ∨ o + w ≤ p ∨ p + w ≤ o) :
    ((v &&& ~~~(BitVec.ofNat n ((2 ^ w - 1) <<< p))) ||| BitVec.ofNat n ((x % 2 ^ w) <<< p)).toNat / 2 ^ o % 2 ^ w =
      if o = p then x % 2 ^ w else v.toNat / 2 ^ o % 2 ^ w := by
  apply Nat.eq_of_testBit_eq
  intro i
  have hv : ∀ j, n ≤ j → v.toNat.testBit j = false := fun j hj =>
    Nat.testBit_lt_two_pow (Nat.lt_of_lt_of_le v.isLt (Nat.pow_le_pow_right (by decide) hj))
  have key : ∀ j, ((v &&& ~~~(BitVec.ofNat n ((2 ^ w - 1) <<< p))) ||| BitVec.ofNat n ((x % 2 ^ w) <<< p)).toNat.testBit j =
      if p ≤ j ∧ j < p + w then x.testBit (j - p) else v.toNat.testBit j := by
    intro j
    show BitVec.getLsbD _ j = _
    rw [BitVec.getLsbD_or, BitVec.getLsbD_and, BitVec.getLsbD_not, BitVec.getLsbD_ofNat, BitVec.getLsbD_ofNat,
      Nat.testBit_shiftLeft, Nat.testBit_shiftLeft, Nat.testBit_two_pow_sub_one, Nat.testBit_mod_two_pow]
    by_cases hj : j < n
    · by_cases h₁ : p ≤ j
      · by_cases h₂ : j < p + w
        · have h₃ : j - p < w := by omega
          simp [hj, h₁, h₂, h₃]
        · have h₃ : ¬ j - p < w := by omega
          simp [hj, h₁, h₂, h₃, BitVec.getLsbD]
      · simp [hj, h₁, BitVec.getLsbD]
    · have h₂ : ¬ (p ≤ j ∧ j < p + w) := by omega
      rw [if_neg h₂, hv j (by omega)]
      simp [hj]
  rw [Nat.testBit_mod_two_pow, Nat.testBit_div_two_pow, key]
  by_cases hi : i < w
  · rcases hd with rfl | hd
    · rw [if_pos (by omega), if_pos rfl, Nat.testBit_mod_two_pow, Nat.add_sub_cancel]
    · rw [if_neg (by omega), if_neg (by omega), Nat.testBit_mod_two_pow, Nat.testBit_div_two_pow]
  · have h₁ : decide (i < w) = false := by simp [hi]
    rw [h₁, Bool.false_and]
    split <;> rw [Nat.testBit_mod_two_pow, h₁, Bool.false_and]

/-- Width divides a lane's 256 bits. -/
theorem width_dvd (t : ETag) : 256 = t.width * (256 / t.width) ∧ 0 < t.width := by cases t <;> decide

/-- Distinct elements of a register lie in disjoint fields, within the register. -/
theorem elemOff_apart {lown e e' : Nat} (t : ETag) (hl : lown ≤ 256) (he : e < lown * 256 / t.width) (he' : e' < lown * 256 / t.width) :
    elemOff lown t.width e + t.width ≤ 65536 ∧ (e ≠ e' → elemOff lown t.width e + t.width ≤ elemOff lown t.width e' ∨
      elemOff lown t.width e' + t.width ≤ elemOff lown t.width e) := by
  have ⟨hw, hp⟩ := width_dvd t
  generalize hk : 256 / t.width = k at hw
  generalize t.width = w at *
  have hcap : lown * 256 / w = lown * k := by
    rw [hw, Nat.mul_comm w k, ← Nat.mul_assoc, Nat.mul_div_cancel _ hp]
  rw [hcap] at he he'
  by_cases h0 : lown = 0
  · subst h0; omega
  have hlp : 0 < lown := Nat.pos_of_ne_zero h0
  have bound : ∀ e, e < lown * k → e % lown < lown ∧ w * (e / lown) + w ≤ 256 := fun e h => by
    refine ⟨Nat.mod_lt _ hlp, ?_⟩
    have : e / lown < k := Nat.div_lt_of_lt_mul h
    have : w * (e / lown + 1) ≤ w * k := Nat.mul_le_mul_left w this
    rw [Nat.mul_add, Nat.mul_one, ← hw] at this
    exact this
  have ⟨m₁, d₁⟩ := bound e he
  have ⟨m₂, d₂⟩ := bound e' he'
  simp only [elemOff, if_neg h0]
  refine ⟨by omega, fun hne => ?_⟩
  by_cases hm : e % lown = e' % lown
  · have hd : e / lown ≠ e' / lown := fun hd => hne (by rw [← Nat.div_add_mod e lown, ← Nat.div_add_mod e' lown, hm, hd])
    rw [hm]
    rcases Nat.lt_or_gt_of_ne hd with h | h
    · left
      have : w * (e / lown + 1) ≤ w * (e' / lown) := Nat.mul_le_mul_left w h
      rw [Nat.mul_add, Nat.mul_one] at this
      omega
    · right
      have : w * (e' / lown + 1) ≤ w * (e / lown) := Nat.mul_le_mul_left w h
      rw [Nat.mul_add, Nat.mul_one] at this
      omega
  · rcases Nat.lt_or_gt_of_ne hm with h | h <;> omega

/-- An element reads as written, and every other element as before. -/
theorem getElem_setElem {lown e e' x : Nat} (v : BitVec 65536) (t : ETag) (hl : lown ≤ 256) (he : e < lown * 256 / t.width)
    (he' : e' < lown * 256 / t.width) :
    getElem_ (setElem_ v lown t.width e x) lown t.width e' = if e' = e then x % 2 ^ t.width else getElem_ v lown t.width e' := by
  have ⟨hb, ha⟩ := elemOff_apart t hl he he'
  unfold getElem_ setElem_
  by_cases h : e' = e
  · subst h
    rw [field_set v (width_dvd t).2 hb (Or.inl rfl), if_pos rfl, if_pos rfl]
  · have hd := ha (Ne.symm h)
    have hpos := (width_dvd t).2
    rw [field_set v hpos hb (by omega), if_neg (by omega), if_neg h]

end Sys2Proof.Machine
end

