-- ==== Sys2Proof/Laws/Memory.lean ====
section
/-!
SUPPORT. Memory keeps its canonical form under every operation, and reads after a write.
-/
namespace Sys2Proof.Machine

/-- A cell of a canonical memory lies at or above its bound, its byte is not 0, and the rest lies above it. -/
theorem memWfFrom_cons {lo a : Nat} {b : Byte} {m : Memory} :
    memWfFrom lo ((a, b) :: m) = true ↔ lo ≤ a ∧ b ≠ 0#8 ∧ memWfFrom (a + 1) m = true := by
  simp [memWfFrom, and_assoc]

/-- A bound may be lowered. -/
theorem memWfFrom_mono {lo lo' : Nat} {m : Memory} (h : memWfFrom lo m = true) (hl : lo' ≤ lo) : memWfFrom lo' m = true := by
  cases m with
  | nil => rfl
  | cons c m =>
    obtain ⟨a, b⟩ := c
    rw [memWfFrom_cons] at h ⊢
    exact ⟨Nat.le_trans hl h.1, h.2⟩

/-- Every cell of a canonical memory lies at or above its bound. -/
theorem memWfFrom_ge {lo : Nat} {m : Memory} (h : memWfFrom lo m = true) : ∀ c ∈ m, lo ≤ c.1 := by
  induction m generalizing lo with
  | nil => simp
  | cons c m ih =>
    obtain ⟨a, b⟩ := c
    rw [memWfFrom_cons] at h
    intro d hd
    rcases List.mem_cons.mp hd with rfl | hd
    · exact h.1
    · exact Nat.le_trans h.1 (Nat.le_of_succ_le (ih h.2.2 d hd))

/-- A part of a canonical memory is canonical. -/
theorem memWfFrom_filter {lo : Nat} {m : Memory} (p : Host.Cell → Bool) (h : memWfFrom lo m = true) :
    memWfFrom lo (m.filter p) = true := by
  induction m generalizing lo with
  | nil => rfl
  | cons c m ih =>
    obtain ⟨a, b⟩ := c
    rw [memWfFrom_cons] at h
    rw [List.filter_cons]
    split
    · exact memWfFrom_cons.mpr ⟨h.1, h.2.1, ih h.2.2⟩
    · exact memWfFrom_mono (ih h.2.2) (Nat.le_succ_of_le h.1)

/-- Two canonical memories, the second wholly above the first, join to one. -/
theorem memWfFrom_append {lo k : Nat} {m r : Memory} (hm : memWfFrom lo m = true) (hk : ∀ c ∈ m, c.1 < k) (hl : lo ≤ k)
    (hr : memWfFrom k r = true) : memWfFrom lo (m ++ r) = true := by
  induction m generalizing lo with
  | nil => exact memWfFrom_mono hr hl
  | cons c m ih =>
    obtain ⟨a, b⟩ := c
    rw [memWfFrom_cons] at hm
    exact memWfFrom_cons.mpr ⟨hm.1, hm.2.1, ih hm.2.2 (fun d hd => hk d (List.mem_cons_of_mem _ hd)) (hk (a, b) (List.mem_cons_self ..))⟩

/-- A part that lies above a bound is canonical from that bound. -/
theorem memWfFrom_filter_ge {lo k : Nat} {m : Memory} (h : memWfFrom lo m = true) :
    memWfFrom k (m.filter fun c => decide (k ≤ c.1)) = true := by
  induction m generalizing lo with
  | nil => rfl
  | cons c m ih =>
    obtain ⟨a, b⟩ := c
    rw [memWfFrom_cons] at h
    rw [List.filter_cons]
    split
    · rename_i hk
      exact memWfFrom_cons.mpr ⟨by simpa using hk, h.2.1, memWfFrom_filter _ h.2.2⟩
    · exact ih h.2.2

/-- The cells of bytes are canonical and lie in the bytes' range. -/
theorem cellsOf_wf (k : Nat) (bs : List Byte) :
    memWfFrom k (cellsOf k bs) = true ∧ ∀ c ∈ cellsOf k bs, c.1 < k + bs.length := by
  induction bs generalizing k with
  | nil => simp [cellsOf, memWfFrom]
  | cons b bs ih =>
    obtain ⟨h₁, h₂⟩ := ih (k + 1)
    simp only [cellsOf]
    split
    · exact ⟨memWfFrom_mono h₁ (Nat.le_succ k), fun c hc => by have := h₂ c hc; simp only [List.length_cons]; omega⟩
    · refine ⟨memWfFrom_cons.mpr ⟨Nat.le_refl k, by assumption, h₁⟩, fun c hc => ?_⟩
      rcases List.mem_cons.mp hc with rfl | hc
      · simp
      · have := h₂ c hc; simp only [List.length_cons]; omega

/-- Replacing a run of cells by canonical ones of that run keeps the canonical form. -/
theorem Memory.wf_splice {m cells : Memory} {k n : Nat} (h : m.wf = true) (hc : memWfFrom k cells = true)
    (hn : ∀ c ∈ cells, c.1 < k + n) : (m.splice k n cells).wf = true := by
  refine memWfFrom_append (k := k + n) (memWfFrom_append (k := k) (memWfFrom_filter _ h) (fun c hc => ?_) (Nat.zero_le _) hc)
    (fun c hc => ?_) (Nat.zero_le _) (memWfFrom_filter_ge h)
  · simpa using (List.mem_filter.mp hc).2
  · rcases List.mem_append.mp hc with hc | hc
    · have : c.1 < k := by simpa using (List.mem_filter.mp hc).2
      omega
    · exact hn c hc

/-- Writing bytes keeps the canonical form. -/
theorem Memory.wf_putBytes {m : Memory} (h : m.wf = true) (k : Nat) (bs : List Byte) : (m.putBytes k bs).wf = true :=
  Memory.wf_splice h (cellsOf_wf k bs).1 (cellsOf_wf k bs).2

/-- Writing one byte keeps the canonical form above a bound. -/
theorem memWfFrom_put {lo : Nat} {m : Memory} (h : memWfFrom lo m = true) {k : Nat} (v : Byte) (hk : lo ≤ k) :
    memWfFrom lo (Memory.put k v m) = true := by
  induction m generalizing lo with
  | nil =>
    simp only [Memory.put]
    split
    · rfl
    · exact memWfFrom_cons.mpr ⟨hk, by assumption, rfl⟩
  | cons c m ih =>
    obtain ⟨a, b⟩ := c
    have h' := memWfFrom_cons.mp h
    simp only [Memory.put]
    split
    · split
      · exact h
      · exact memWfFrom_cons.mpr ⟨hk, by assumption, memWfFrom_cons.mpr ⟨by omega, h'.2⟩⟩
    · split
      · split
        · exact memWfFrom_mono h'.2.2 (by omega)
        · exact memWfFrom_cons.mpr ⟨hk, by assumption, memWfFrom_mono h'.2.2 (by omega)⟩
      · exact memWfFrom_cons.mpr ⟨h'.1, h'.2.1, ih h'.2.2 (by omega)⟩

/-- Writing one byte keeps the canonical form. -/
theorem Memory.wf_put {m : Memory} (h : m.wf = true) (k : Nat) (v : Byte) : (Memory.put k v m).wf = true :=
  memWfFrom_put h v (Nat.zero_le k)

/-- Clearing a range keeps the canonical form. -/
theorem Memory.wf_clear {m : Memory} (h : m.wf = true) (lo n : Nat) : (m.clear lo n).wf = true := memWfFrom_filter _ h

/-! ### Reads -/

/-- An address that no cell lists reads 0. -/
theorem get_unlisted {m : Memory} {a : Nat} (h : ∀ c ∈ m, c.1 ≠ a) : m.get a = 0#8 := by
  induction m with
  | nil => rfl
  | cons c m ih =>
    simp only [Memory.get]
    rw [if_neg (Ne.symm (h c (List.mem_cons_self ..)))]
    exact ih fun d hd => h d (List.mem_cons_of_mem _ hd)

/-- A memory in front that does not list the address does not count. -/
theorem get_append_right {m r : Memory} {a : Nat} (h : ∀ c ∈ m, c.1 ≠ a) : Memory.get (m ++ r) a = r.get a := by
  induction m with
  | nil => rfl
  | cons c m ih =>
    simp only [List.cons_append, Memory.get]
    rw [if_neg (Ne.symm (h c (List.mem_cons_self ..)))]
    exact ih fun d hd => h d (List.mem_cons_of_mem _ hd)

/-- A memory behind that does not list the address does not count. -/
theorem get_append_left {m r : Memory} {a : Nat} (h : ∀ c ∈ r, c.1 ≠ a) : Memory.get (m ++ r) a = m.get a := by
  induction m with
  | nil => exact get_unlisted h
  | cons c m ih => simp only [List.cons_append, Memory.get, ih]

/-- Reading the part at the addresses of a set. -/
theorem get_filter (p : Nat → Bool) (m : Memory) (a : Nat) :
    Memory.get (m.filter fun c => p c.1) a = if p a = true then m.get a else 0#8 := by
  induction m with
  | nil => split <;> rfl
  | cons c m ih =>
    obtain ⟨x, b⟩ := c
    rw [List.filter_cons]
    by_cases e : a = x
    · subst e
      by_cases hp : p a = true
      · simp [hp, Memory.get]
      · simp only [hp, Bool.false_eq_true, if_false]
        exact get_unlisted fun c hc he => hp (by have := (List.mem_filter.mp hc).2; rwa [he] at this)
    · split
      · simp only [Memory.get, if_neg e, ih]
      · simp only [Memory.get, if_neg e, ih]

/-- Reading the cells of bytes. -/
theorem get_cellsOf (k : Nat) (bs : List Byte) (a : Nat) :
    Memory.get (cellsOf k bs) a = if k ≤ a then (bs[a - k]?).getD 0#8 else 0#8 := by
  induction bs generalizing k with
  | nil => simp [cellsOf, Memory.get]
  | cons b bs ih =>
    simp only [cellsOf]
    by_cases e : a = k
    · subst e
      split
      · rename_i hb
        rw [ih, if_neg (by omega), if_pos (Nat.le_refl a)]; simp [hb]
      · simp [Memory.get]
    · have hs : (if k ≤ a then ((b :: bs)[a - k]?).getD 0#8 else 0#8) =
          if k + 1 ≤ a then (bs[a - (k + 1)]?).getD 0#8 else 0#8 := by
        by_cases hl : k + 1 ≤ a
        · rw [if_pos (by omega), if_pos hl, show a - k = a - (k + 1) + 1 by omega]; rfl
        · rw [if_neg (by omega), if_neg hl]
      rw [hs]
      split
      · exact ih (k + 1)
      · simp only [Memory.get, ih]
        rw [if_neg e]

/-- A byte after bytes are written: the byte written there, else the byte that was there. -/
theorem get_putBytes (m : Memory) (k : Nat) (bs : List Byte) (a : Nat) :
    (m.putBytes k bs).get a = if k ≤ a ∧ a < k + bs.length then (bs[a - k]?).getD 0#8 else m.get a := by
  unfold Memory.putBytes Memory.splice
  have hc := cellsOf_wf k bs
  have lo : ∀ c ∈ m.filter fun c => decide (c.1 < k), c.1 < k := fun c hc => by simpa using (List.mem_filter.mp hc).2
  have mid : ∀ c ∈ cellsOf k bs, k ≤ c.1 ∧ c.1 < k + bs.length := fun c h => ⟨memWfFrom_ge hc.1 c h, hc.2 c h⟩
  have hi : ∀ c ∈ m.filter fun c => decide (k + bs.length ≤ c.1), k + bs.length ≤ c.1 :=
    fun c hc => by simpa using (List.mem_filter.mp hc).2
  by_cases h₁ : a < k
  · rw [List.append_assoc, get_append_left (fun c h => ?_), get_filter (fun x => decide (x < k)), if_pos (by simpa using h₁),
      if_neg (by omega)]
    rcases List.mem_append.mp h with h | h
    · have := mid c h; omega
    · have := hi c h; omega
  · by_cases h₂ : a < k + bs.length
    · rw [get_append_left (fun c h => by have := hi c h; omega), get_append_right (fun c h => by have := lo c h; omega), get_cellsOf,
        if_pos (by omega), if_pos ⟨by omega, h₂⟩]
    · rw [get_append_right (fun c h => ?_), get_filter (fun x => decide (k + bs.length ≤ x)), if_pos (by simpa using h₂),
        if_neg (by omega)]
      rcases List.mem_append.mp h with h | h
      · have := lo c h; omega
      · have := mid c h; omega

/-- Bytes outside a write read as before. -/
theorem get_putBytes_out {m : Memory} {k : Nat} {bs : List Byte} {a : Nat} (ha : a < k ∨ k + bs.length ≤ a) :
    (m.putBytes k bs).get a = m.get a := by
  rw [get_putBytes, if_neg (by omega)]

/-- Bytes read back as written. -/
theorem getBytes_putBytes (m : Memory) (k : Nat) (bs : List Byte) :
    (m.putBytes k bs).getBytes k bs.length = bs := by
  have key : ∀ (n j : Nat), j + n = bs.length → (m.putBytes k bs).getBytes (k + j) n = bs.drop j := by
    intro n
    induction n with
    | zero => intro j hj; simp [Memory.getBytes, ← hj]
    | succ n ih =>
      intro j hj
      have hj' : j < bs.length := by omega
      simp only [Memory.getBytes]
      rw [show k + j + 1 = k + (j + 1) by omega, ih (j + 1) (by omega), get_putBytes, if_pos (by omega),
        show k + j - k = j by omega, List.drop_eq_getElem_cons hj']
      simp [hj']
  simpa using key bs.length 0 (by omega)

end Sys2Proof.Machine
end

