-- ==== Sys2Proof/Laws/PerInstr.lean ====
section
/-!
SUPPORT. The family RoundTrip: the decoder reads from each instruction's word that instruction with every operand. A row that
is a step of an agent has no word, and a word of ENCODING_THAT_SELECTS_NOTHING names none (R101).
-/
namespace Sys2Proof.Laws.RoundTrip

/-- An instruction's word decodes to it. -/
def Statement (i : Instr) : Prop :=
  ∀ w, encodeWord i = some w → i.wf = true → (∀ b, i ≠ .encodingThatSelectsNothing b) → decode32 w = .ok i

/-! ### Fields of a word -/

theorem fv_eq {w lo n : Nat} (v : BitVec n) (h : fld w lo n = v.toNat) : fv w lo n = v := by
  apply BitVec.eq_of_toNat_eq; simpa [fv, fld] using h
theorem fbit_eq {w lo : Nat} (b : Bool) (h : fld w lo 1 = b.toNat) : fbit w lo = b := by
  cases b <;> simp_all [fbit, fld]

/-! ### From the major opcode to the group -/

theorem toVA {w : Nat} (h : fld w 0 7 = 11) : decode32 w = decodeVA w := by unfold decode32; rw [h]; rfl
theorem toVX {w : Nat} (h : fld w 0 7 = 0x2B) : decode32 w = decodeVX w := by unfold decode32; rw [h]; rfl
theorem toUnary {w : Nat} (h : fld w 0 7 = 11) (g : fld w 26 6 = 31) : decode32 w = decodeUnary w := by
  rw [toVA h, decodeVA, g]; rfl
theorem toMask {w : Nat} (h : fld w 0 7 = 11) (g : fld w 26 6 = 30) : decode32 w = decodeMask w := by
  rw [toVA h, decodeVA, g]; rfl
theorem toMT {w : Nat} (h : fld w 0 7 = 0x5B) : decode32 w = decodeMT w := by unfold decode32; rw [h]; rfl
theorem toSY {w : Nat} (h : fld w 0 7 = 0x7B) : decode32 w = decodeSY w := by unfold decode32; rw [h]; rfl
theorem toTT0 {w : Nat} (h : fld w 0 7 = 0x5B) (g : fld w 12 3 = 0) : decode32 w = decodeTT0 w := by rw [toMT h, decodeMT, g]; rfl
theorem toTT1 {w : Nat} (h : fld w 0 7 = 0x5B) (g : fld w 12 3 = 1) : decode32 w = decodeTT1 w := by rw [toMT h, decodeMT, g]; rfl
theorem toTL {w : Nat} (h : fld w 0 7 = 0x5B) (g : fld w 12 3 = 4) : decode32 w = decodeTL w := by rw [toMT h, decodeMT, g]; rfl
theorem toShape {w : Nat} (h : fld w 0 7 = 0x5B) (g : fld w 12 3 = 5) : decode32 w = decodeShape w := by rw [toMT h, decodeMT, g]; rfl
theorem toSY0 {w : Nat} (h : fld w 0 7 = 0x7B) (g : fld w 12 3 = 0) : decode32 w = decodeSY0 w := by rw [toSY h, decodeSY, g]; rfl
theorem toSY1 {w : Nat} (h : fld w 0 7 = 0x7B) (g : fld w 12 3 = 1) : decode32 w = decodeSY1 w := by rw [toSY h, decodeSY, g]; rfl
theorem toSY2 {w : Nat} (h : fld w 0 7 = 0x7B) (g : fld w 12 3 = 2) : decode32 w = decodeSY2 w := by rw [toSY h, decodeSY, g]; rfl
theorem toSY3 {w : Nat} (h : fld w 0 7 = 0x7B) (g : fld w 12 3 = 3) : decode32 w = decodeSY3 w := by rw [toSY h, decodeSY, g]; rfl
theorem toSY4 {w : Nat} (h : fld w 0 7 = 0x7B) (g : fld w 12 3 = 4) : decode32 w = decodeSY4 w := by rw [toSY h, decodeSY, g]; rfl
theorem toSY5 {w : Nat} (h : fld w 0 7 = 0x7B) (g : fld w 12 3 = 5) : decode32 w = decodeSY5 w := by rw [toSY h, decodeSY, g]; rfl
theorem toSY6 {w : Nat} (h : fld w 0 7 = 0x7B) (g : fld w 12 3 = 6) : decode32 w = decodeSY6 w := by rw [toSY h, decodeSY, g]; rfl
theorem toSY7 {w : Nat} (h : fld w 0 7 = 0x7B) (g : fld w 12 3 = 7) : decode32 w = decodeSY7 w := by rw [toSY h, decodeSY, g]; rfl

theorem sub {w lo m v : Nat} (h : fld w lo m = v) (a n x : Nat) (hn : a + n ≤ m) (hx : v / 2 ^ a % 2 ^ n = x) :
    fld w (lo + a) n = x := by
  subst hx; subst h; unfold fld
  have : m = a + (n + (m - a - n)) := by omega
  rw [this, Nat.pow_add 2 a (n + (m - a - n)), Nat.mod_mul_right_div_self, Nat.pow_add, Nat.pow_add, Nat.mod_mul_right_mod,
    Nat.div_div_eq_div_mul]
theorem join0 {w lo m n : Nat} (h : fld w lo m = 0) (g : fld w (lo + m) n = 0) : fld w lo (m + n) = 0 := by
  unfold fld at *
  rw [Nat.pow_add, ← Nat.div_div_eq_div_mul] at g
  rw [Nat.pow_add, Nat.mod_mul, h, g]; simp
theorem join {w lo m n u v : Nat} (h : fld w lo m = u) (g : fld w (lo + m) n = v) : fld w lo (m + n) = u + 2 ^ m * v := by
  unfold fld at *
  rw [Nat.pow_add, ← Nat.div_div_eq_div_mul] at g
  rw [Nat.pow_add, Nat.mod_mul, h, g]
theorem digit {v l x h : Nat} (a n : Nat) (hv : v = l + 2 ^ a * (x + 2 ^ n * h)) (hl : l < 2 ^ a) (hx : x < 2 ^ n) :
    v / 2 ^ a % 2 ^ n = x := by
  rw [hv, Nat.add_mul_div_left _ _ (Nat.two_pow_pos a), Nat.div_eq_of_lt hl, Nat.zero_add, Nat.add_mul_mod_self_left,
    Nat.mod_eq_of_lt hx]

/-! ### The instructions -/

theorem formV {w : Nat} (f0 f1 f2 f3 f4 f5 f6 : Nat) (hw : f0 + 128 * f1 + 4096 * f2 + 131072 * f3 + 4194304 * f4 + 8388608 * f5 + 67108864 * f6 = w) (h0 : f0 < 128) (h1 : f1 < 32) (h2 : f2 < 32) (h3 : f3 < 32) (h4 : f4 < 2) (h5 : f5 < 8) (h6 : f6 < 64) :
    fld w 0 7 = f0 ∧ fld w 7 5 = f1 ∧ fld w 12 5 = f2 ∧ fld w 17 5 = f3 ∧ fld w 22 1 = f4 ∧ fld w 23 3 = f5 ∧ fld w 26 6 = f6 := by
  subst hw; simp only [fld]; omega

theorem formI {w : Nat} (f0 f1 f2 f3 f4 f5 : Nat) (hw : f0 + 128 * f1 + 4096 * f2 + 131072 * f3 + 8388608 * f4 + 67108864 * f5 = w) (h0 : f0 < 128) (h1 : f1 < 32) (h2 : f2 < 32) (h3 : f3 < 64) (h4 : f4 < 8) (h5 : f5 < 64) :
    fld w 0 7 = f0 ∧ fld w 7 5 = f1 ∧ fld w 12 5 = f2 ∧ fld w 17 6 = f3 ∧ fld w 23 3 = f4 ∧ fld w 26 6 = f5 := by
  subst hw; simp only [fld]; omega

theorem formM {w : Nat} (f0 f1 f2 f3 f4 f5 f6 f7 f8 f9 : Nat) (hw : f0 + 128 * f1 + 4096 * f2 + 32768 * f3 + 262144 * f4 + 524288 * f5 + 4194304 * f6 + 8388608 * f7 + 67108864 * f8 + 134217728 * f9 = w) (h0 : f0 < 128) (h1 : f1 < 32) (h2 : f2 < 8) (h3 : f3 < 8) (h4 : f4 < 2) (h5 : f5 < 8) (h6 : f6 < 2) (h7 : f7 < 8) (h8 : f8 < 2) (h9 : f9 < 32) :
    fld w 0 7 = f0 ∧ fld w 7 5 = f1 ∧ fld w 12 3 = f2 ∧ fld w 15 3 = f3 ∧ fld w 18 1 = f4 ∧ fld w 19 3 = f5 ∧ fld w 22 1 = f6 ∧ fld w 23 3 = f7 ∧ fld w 26 1 = f8 ∧ fld w 27 5 = f9 := by
  subst hw; simp only [fld]; omega

theorem formL {w : Nat} (f0 f1 f2 f3 f4 f5 f6 : Nat) (hw : f0 + 128 * f1 + 4096 * f2 + 32768 * f3 + 1048576 * f4 + 8388608 * f5 + 16777216 * f6 = w) (h0 : f0 < 128) (h1 : f1 < 32) (h2 : f2 < 8) (h3 : f3 < 32) (h4 : f4 < 8) (h5 : f5 < 2) (h6 : f6 < 256) :
    fld w 0 7 = f0 ∧ fld w 7 5 = f1 ∧ fld w 12 3 = f2 ∧ fld w 15 5 = f3 ∧ fld w 20 3 = f4 ∧ fld w 23 1 = f5 ∧ fld w 24 8 = f6 := by
  subst hw; simp only [fld]; omega

theorem formT {w : Nat} (f0 f1 f2 f3 f4 f5 : Nat) (hw : f0 + 128 * f1 + 4096 * f2 + 32768 * f3 + 1048576 * f4 + 33554432 * f5 = w) (h0 : f0 < 128) (h1 : f1 < 32) (h2 : f2 < 8) (h3 : f3 < 32) (h4 : f4 < 32) (h5 : f5 < 128) :
    fld w 0 7 = f0 ∧ fld w 7 5 = f1 ∧ fld w 12 3 = f2 ∧ fld w 15 5 = f3 ∧ fld w 20 5 = f4 ∧ fld w 25 7 = f5 := by
  subst hw; simp only [fld]; omega

theorem vadd (km : BitVec 3) (s : Bool) (vs2 vs1 vd : BitVec 5) : Statement (.vadd km s vs2 vs1 vd) := by
  intro w hw _ _
  replace hw : 11 + km.toNat * 8388608 + s.toNat * 4194304 + vs2.toNat * 131072 + vs1.toNat * 4096 + vd.toNat * 128 = w := Option.some.inj hw
  have ⟨g0, g1, g2, g3, g4, g5, g6⟩ := formV (w := w) (11) (vd.toNat) (vs1.toNat) (vs2.toNat) (s.toNat) (km.toNat) (0) (by omega) (by decide) vd.isLt vs1.isLt vs2.isLt s.toNat_lt km.isLt (by decide)
  rw [toVA g0, decodeVA, g6, ← @fv_eq w 23 3 km g5, ← @fbit_eq w 22 s g4, ← @fv_eq w 17 5 vs2 g3, ← @fv_eq w 12 5 vs1 g2, ← @fv_eq w 7 5 vd g1]; rfl

theorem vsub (km : BitVec 3) (s : Bool) (vs2 vs1 vd : BitVec 5) : Statement (.vsub km s vs2 vs1 vd) := by
  intro w hw _ _
  replace hw : 67108875 + km.toNat * 8388608 + s.toNat * 4194304 + vs2.toNat * 131072 + vs1.toNat * 4096 + vd.toNat * 128 = w := Option.some.inj hw
  have ⟨g0, g1, g2, g3, g4, g5, g6⟩ := formV (w := w) (11) (vd.toNat) (vs1.toNat) (vs2.toNat) (s.toNat) (km.toNat) (1) (by omega) (by decide) vd.isLt vs1.isLt vs2.isLt s.toNat_lt km.isLt (by decide)
  rw [toVA g0, decodeVA, g6, ← @fv_eq w 23 3 km g5, ← @fbit_eq w 22 s g4, ← @fv_eq w 17 5 vs2 g3, ← @fv_eq w 12 5 vs1 g2, ← @fv_eq w 7 5 vd g1]; rfl

theorem vrsub (km : BitVec 3) (s : Bool) (vs2 vs1 vd : BitVec 5) : Statement (.vrsub km s vs2 vs1 vd) := by
  intro w hw _ _
  replace hw : 134217739 + km.toNat * 8388608 + s.toNat * 4194304 + vs2.toNat * 131072 + vs1.toNat * 4096 + vd.toNat * 128 = w := Option.some.inj hw
  have ⟨g0, g1, g2, g3, g4, g5, g6⟩ := formV (w := w) (11) (vd.toNat) (vs1.toNat) (vs2.toNat) (s.toNat) (km.toNat) (2) (by omega) (by decide) vd.isLt vs1.isLt vs2.isLt s.toNat_lt km.isLt (by decide)
  rw [toVA g0, decodeVA, g6, ← @fv_eq w 23 3 km g5, ← @fbit_eq w 22 s g4, ← @fv_eq w 17 5 vs2 g3, ← @fv_eq w 12 5 vs1 g2, ← @fv_eq w 7 5 vd g1]; rfl

theorem vmul (km : BitVec 3) (s : Bool) (vs2 vs1 vd : BitVec 5) : Statement (.vmul km s vs2 vs1 vd) := by
  intro w hw _ _
  replace hw : 201326603 + km.toNat * 8388608 + s.toNat * 4194304 + vs2.toNat * 131072 + vs1.toNat * 4096 + vd.toNat * 128 = w := Option.some.inj hw
  have ⟨g0, g1, g2, g3, g4, g5, g6⟩ := formV (w := w) (11) (vd.toNat) (vs1.toNat) (vs2.toNat) (s.toNat) (km.toNat) (3) (by omega) (by decide) vd.isLt vs1.isLt vs2.isLt s.toNat_lt km.isLt (by decide)
  rw [toVA g0, decodeVA, g6, ← @fv_eq w 23 3 km g5, ← @fbit_eq w 22 s g4, ← @fv_eq w 17 5 vs2 g3, ← @fv_eq w 12 5 vs1 g2, ← @fv_eq w 7 5 vd g1]; rfl

theorem vmulh (km : BitVec 3) (s : Bool) (vs2 vs1 vd : BitVec 5) : Statement (.vmulh km s vs2 vs1 vd) := by
  intro w hw _ _
  replace hw : 268435467 + km.toNat * 8388608 + s.toNat * 4194304 + vs2.toNat * 131072 + vs1.toNat * 4096 + vd.toNat * 128 = w := Option.some.inj hw
  have ⟨g0, g1, g2, g3, g4, g5, g6⟩ := formV (w := w) (11) (vd.toNat) (vs1.toNat) (vs2.toNat) (s.toNat) (km.toNat) (4) (by omega) (by decide) vd.isLt vs1.isLt vs2.isLt s.toNat_lt km.isLt (by decide)
  rw [toVA g0, decodeVA, g6, ← @fv_eq w 23 3 km g5, ← @fbit_eq w 22 s g4, ← @fv_eq w 17 5 vs2 g3, ← @fv_eq w 12 5 vs1 g2, ← @fv_eq w 7 5 vd g1]; rfl

theorem vdiv (km : BitVec 3) (s : Bool) (vs2 vs1 vd : BitVec 5) : Statement (.vdiv km s vs2 vs1 vd) := by
  intro w hw _ _
  replace hw : 335544331 + km.toNat * 8388608 + s.toNat * 4194304 + vs2.toNat * 131072 + vs1.toNat * 4096 + vd.toNat * 128 = w := Option.some.inj hw
  have ⟨g0, g1, g2, g3, g4, g5, g6⟩ := formV (w := w) (11) (vd.toNat) (vs1.toNat) (vs2.toNat) (s.toNat) (km.toNat) (5) (by omega) (by decide) vd.isLt vs1.isLt vs2.isLt s.toNat_lt km.isLt (by decide)
  rw [toVA g0, decodeVA, g6, ← @fv_eq w 23 3 km g5, ← @fbit_eq w 22 s g4, ← @fv_eq w 17 5 vs2 g3, ← @fv_eq w 12 5 vs1 g2, ← @fv_eq w 7 5 vd g1]; rfl

theorem vrem (km : BitVec 3) (s : Bool) (vs2 vs1 vd : BitVec 5) : Statement (.vrem km s vs2 vs1 vd) := by
  intro w hw _ _
  replace hw : 402653195 + km.toNat * 8388608 + s.toNat * 4194304 + vs2.toNat * 131072 + vs1.toNat * 4096 + vd.toNat * 128 = w := Option.some.inj hw
  have ⟨g0, g1, g2, g3, g4, g5, g6⟩ := formV (w := w) (11) (vd.toNat) (vs1.toNat) (vs2.toNat) (s.toNat) (km.toNat) (6) (by omega) (by decide) vd.isLt vs1.isLt vs2.isLt s.toNat_lt km.isLt (by decide)
  rw [toVA g0, decodeVA, g6, ← @fv_eq w 23 3 km g5, ← @fbit_eq w 22 s g4, ← @fv_eq w 17 5 vs2 g3, ← @fv_eq w 12 5 vs1 g2, ← @fv_eq w 7 5 vd g1]; rfl

theorem vmin (km : BitVec 3) (s : Bool) (vs2 vs1 vd : BitVec 5) : Statement (.vmin km s vs2 vs1 vd) := by
  intro w hw _ _
  replace hw : 469762059 + km.toNat * 8388608 + s.toNat * 4194304 + vs2.toNat * 131072 + vs1.toNat * 4096 + vd.toNat * 128 = w := Option.some.inj hw
  have ⟨g0, g1, g2, g3, g4, g5, g6⟩ := formV (w := w) (11) (vd.toNat) (vs1.toNat) (vs2.toNat) (s.toNat) (km.toNat) (7) (by omega) (by decide) vd.isLt vs1.isLt vs2.isLt s.toNat_lt km.isLt (by decide)
  rw [toVA g0, decodeVA, g6, ← @fv_eq w 23 3 km g5, ← @fbit_eq w 22 s g4, ← @fv_eq w 17 5 vs2 g3, ← @fv_eq w 12 5 vs1 g2, ← @fv_eq w 7 5 vd g1]; rfl

theorem vmax (km : BitVec 3) (s : Bool) (vs2 vs1 vd : BitVec 5) : Statement (.vmax km s vs2 vs1 vd) := by
  intro w hw _ _
  replace hw : 536870923 + km.toNat * 8388608 + s.toNat * 4194304 + vs2.toNat * 131072 + vs1.toNat * 4096 + vd.toNat * 128 = w := Option.some.inj hw
  have ⟨g0, g1, g2, g3, g4, g5, g6⟩ := formV (w := w) (11) (vd.toNat) (vs1.toNat) (vs2.toNat) (s.toNat) (km.toNat) (8) (by omega) (by decide) vd.isLt vs1.isLt vs2.isLt s.toNat_lt km.isLt (by decide)
  rw [toVA g0, decodeVA, g6, ← @fv_eq w 23 3 km g5, ← @fbit_eq w 22 s g4, ← @fv_eq w 17 5 vs2 g3, ← @fv_eq w 12 5 vs1 g2, ← @fv_eq w 7 5 vd g1]; rfl

theorem vand (km : BitVec 3) (s : Bool) (vs2 vs1 vd : BitVec 5) : Statement (.vand km s vs2 vs1 vd) := by
  intro w hw _ _
  replace hw : 603979787 + km.toNat * 8388608 + s.toNat * 4194304 + vs2.toNat * 131072 + vs1.toNat * 4096 + vd.toNat * 128 = w := Option.some.inj hw
  have ⟨g0, g1, g2, g3, g4, g5, g6⟩ := formV (w := w) (11) (vd.toNat) (vs1.toNat) (vs2.toNat) (s.toNat) (km.toNat) (9) (by omega) (by decide) vd.isLt vs1.isLt vs2.isLt s.toNat_lt km.isLt (by decide)
  rw [toVA g0, decodeVA, g6, ← @fv_eq w 23 3 km g5, ← @fbit_eq w 22 s g4, ← @fv_eq w 17 5 vs2 g3, ← @fv_eq w 12 5 vs1 g2, ← @fv_eq w 7 5 vd g1]; rfl

theorem vor (km : BitVec 3) (s : Bool) (vs2 vs1 vd : BitVec 5) : Statement (.vor km s vs2 vs1 vd) := by
  intro w hw _ _
  replace hw : 671088651 + km.toNat * 8388608 + s.toNat * 4194304 + vs2.toNat * 131072 + vs1.toNat * 4096 + vd.toNat * 128 = w := Option.some.inj hw
  have ⟨g0, g1, g2, g3, g4, g5, g6⟩ := formV (w := w) (11) (vd.toNat) (vs1.toNat) (vs2.toNat) (s.toNat) (km.toNat) (10) (by omega) (by decide) vd.isLt vs1.isLt vs2.isLt s.toNat_lt km.isLt (by decide)
  rw [toVA g0, decodeVA, g6, ← @fv_eq w 23 3 km g5, ← @fbit_eq w 22 s g4, ← @fv_eq w 17 5 vs2 g3, ← @fv_eq w 12 5 vs1 g2, ← @fv_eq w 7 5 vd g1]; rfl

theorem vxor (km : BitVec 3) (s : Bool) (vs2 vs1 vd : BitVec 5) : Statement (.vxor km s vs2 vs1 vd) := by
  intro w hw _ _
  replace hw : 738197515 + km.toNat * 8388608 + s.toNat * 4194304 + vs2.toNat * 131072 + vs1.toNat * 4096 + vd.toNat * 128 = w := Option.some.inj hw
  have ⟨g0, g1, g2, g3, g4, g5, g6⟩ := formV (w := w) (11) (vd.toNat) (vs1.toNat) (vs2.toNat) (s.toNat) (km.toNat) (11) (by omega) (by decide) vd.isLt vs1.isLt vs2.isLt s.toNat_lt km.isLt (by decide)
  rw [toVA g0, decodeVA, g6, ← @fv_eq w 23 3 km g5, ← @fbit_eq w 22 s g4, ← @fv_eq w 17 5 vs2 g3, ← @fv_eq w 12 5 vs1 g2, ← @fv_eq w 7 5 vd g1]; rfl

theorem vsll (km : BitVec 3) (s : Bool) (vs2 vs1 vd : BitVec 5) : Statement (.vsll km s vs2 vs1 vd) := by
  intro w hw _ _
  replace hw : 805306379 + km.toNat * 8388608 + s.toNat * 4194304 + vs2.toNat * 131072 + vs1.toNat * 4096 + vd.toNat * 128 = w := Option.some.inj hw
  have ⟨g0, g1, g2, g3, g4, g5, g6⟩ := formV (w := w) (11) (vd.toNat) (vs1.toNat) (vs2.toNat) (s.toNat) (km.toNat) (12) (by omega) (by decide) vd.isLt vs1.isLt vs2.isLt s.toNat_lt km.isLt (by decide)
  rw [toVA g0, decodeVA, g6, ← @fv_eq w 23 3 km g5, ← @fbit_eq w 22 s g4, ← @fv_eq w 17 5 vs2 g3, ← @fv_eq w 12 5 vs1 g2, ← @fv_eq w 7 5 vd g1]; rfl

theorem vsrl (km : BitVec 3) (s : Bool) (vs2 vs1 vd : BitVec 5) : Statement (.vsrl km s vs2 vs1 vd) := by
  intro w hw _ _
  replace hw : 872415243 + km.toNat * 8388608 + s.toNat * 4194304 + vs2.toNat * 131072 + vs1.toNat * 4096 + vd.toNat * 128 = w := Option.some.inj hw
  have ⟨g0, g1, g2, g3, g4, g5, g6⟩ := formV (w := w) (11) (vd.toNat) (vs1.toNat) (vs2.toNat) (s.toNat) (km.toNat) (13) (by omega) (by decide) vd.isLt vs1.isLt vs2.isLt s.toNat_lt km.isLt (by decide)
  rw [toVA g0, decodeVA, g6, ← @fv_eq w 23 3 km g5, ← @fbit_eq w 22 s g4, ← @fv_eq w 17 5 vs2 g3, ← @fv_eq w 12 5 vs1 g2, ← @fv_eq w 7 5 vd g1]; rfl

theorem vsra (km : BitVec 3) (s : Bool) (vs2 vs1 vd : BitVec 5) : Statement (.vsra km s vs2 vs1 vd) := by
  intro w hw _ _
  replace hw : 939524107 + km.toNat * 8388608 + s.toNat * 4194304 + vs2.toNat * 131072 + vs1.toNat * 4096 + vd.toNat * 128 = w := Option.some.inj hw
  have ⟨g0, g1, g2, g3, g4, g5, g6⟩ := formV (w := w) (11) (vd.toNat) (vs1.toNat) (vs2.toNat) (s.toNat) (km.toNat) (14) (by omega) (by decide) vd.isLt vs1.isLt vs2.isLt s.toNat_lt km.isLt (by decide)
  rw [toVA g0, decodeVA, g6, ← @fv_eq w 23 3 km g5, ← @fbit_eq w 22 s g4, ← @fv_eq w 17 5 vs2 g3, ← @fv_eq w 12 5 vs1 g2, ← @fv_eq w 7 5 vd g1]; rfl

theorem vcmpeq (km : BitVec 3) (s : Bool) (vs2 vs1 : BitVec 5) (kd : BitVec 3) : Statement (.vcmpeq km s vs2 vs1 kd) := by
  intro w hw _ _
  replace hw : 1006632971 + km.toNat * 8388608 + s.toNat * 4194304 + vs2.toNat * 131072 + vs1.toNat * 4096 + kd.toNat * 128 = w := Option.some.inj hw
  have ⟨g0, g1, g2, g3, g4, g5, g6⟩ := formV (w := w) (11) (kd.toNat) (vs1.toNat) (vs2.toNat) (s.toNat) (km.toNat) (15) (by omega) (by decide) (by have := kd.isLt; omega) vs1.isLt vs2.isLt s.toNat_lt km.isLt (by decide)
  have cc : fld w 10 2 = 0 := (sub g1 3 2 (0) (by decide) (by have := kd.isLt; omega))
  rw [toVA g0, decodeVA, g6, ← @fv_eq w 23 3 km g5, ← @fbit_eq w 22 s g4, ← @fv_eq w 17 5 vs2 g3, ← @fv_eq w 12 5 vs1 g2, ← @fv_eq w 7 3 kd (sub g1 0 3 (kd.toNat) (by decide) (by have := kd.isLt; omega))]; exact if_pos cc

theorem vcmpne (km : BitVec 3) (s : Bool) (vs2 vs1 : BitVec 5) (kd : BitVec 3) : Statement (.vcmpne km s vs2 vs1 kd) := by
  intro w hw _ _
  replace hw : 1073741835 + km.toNat * 8388608 + s.toNat * 4194304 + vs2.toNat * 131072 + vs1.toNat * 4096 + kd.toNat * 128 = w := Option.some.inj hw
  have ⟨g0, g1, g2, g3, g4, g5, g6⟩ := formV (w := w) (11) (kd.toNat) (vs1.toNat) (vs2.toNat) (s.toNat) (km.toNat) (16) (by omega) (by decide) (by have := kd.isLt; omega) vs1.isLt vs2.isLt s.toNat_lt km.isLt (by decide)
  have cc : fld w 10 2 = 0 := (sub g1 3 2 (0) (by decide) (by have := kd.isLt; omega))
  rw [toVA g0, decodeVA, g6, ← @fv_eq w 23 3 km g5, ← @fbit_eq w 22 s g4, ← @fv_eq w 17 5 vs2 g3, ← @fv_eq w 12 5 vs1 g2, ← @fv_eq w 7 3 kd (sub g1 0 3 (kd.toNat) (by decide) (by have := kd.isLt; omega))]; exact if_pos cc

theorem vcmplt (km : BitVec 3) (s : Bool) (vs2 vs1 : BitVec 5) (kd : BitVec 3) : Statement (.vcmplt km s vs2 vs1 kd) := by
  intro w hw _ _
  replace hw : 1140850699 + km.toNat * 8388608 + s.toNat * 4194304 + vs2.toNat * 131072 + vs1.toNat * 4096 + kd.toNat * 128 = w := Option.some.inj hw
  have ⟨g0, g1, g2, g3, g4, g5, g6⟩ := formV (w := w) (11) (kd.toNat) (vs1.toNat) (vs2.toNat) (s.toNat) (km.toNat) (17) (by omega) (by decide) (by have := kd.isLt; omega) vs1.isLt vs2.isLt s.toNat_lt km.isLt (by decide)
  have cc : fld w 10 2 = 0 := (sub g1 3 2 (0) (by decide) (by have := kd.isLt; omega))
  rw [toVA g0, decodeVA, g6, ← @fv_eq w 23 3 km g5, ← @fbit_eq w 22 s g4, ← @fv_eq w 17 5 vs2 g3, ← @fv_eq w 12 5 vs1 g2, ← @fv_eq w 7 3 kd (sub g1 0 3 (kd.toNat) (by decide) (by have := kd.isLt; omega))]; exact if_pos cc

theorem vcmple (km : BitVec 3) (s : Bool) (vs2 vs1 : BitVec 5) (kd : BitVec 3) : Statement (.vcmple km s vs2 vs1 kd) := by
  intro w hw _ _
  replace hw : 1207959563 + km.toNat * 8388608 + s.toNat * 4194304 + vs2.toNat * 131072 + vs1.toNat * 4096 + kd.toNat * 128 = w := Option.some.inj hw
  have ⟨g0, g1, g2, g3, g4, g5, g6⟩ := formV (w := w) (11) (kd.toNat) (vs1.toNat) (vs2.toNat) (s.toNat) (km.toNat) (18) (by omega) (by decide) (by have := kd.isLt; omega) vs1.isLt vs2.isLt s.toNat_lt km.isLt (by decide)
  have cc : fld w 10 2 = 0 := (sub g1 3 2 (0) (by decide) (by have := kd.isLt; omega))
  rw [toVA g0, decodeVA, g6, ← @fv_eq w 23 3 km g5, ← @fbit_eq w 22 s g4, ← @fv_eq w 17 5 vs2 g3, ← @fv_eq w 12 5 vs1 g2, ← @fv_eq w 7 3 kd (sub g1 0 3 (kd.toNat) (by decide) (by have := kd.isLt; omega))]; exact if_pos cc

theorem vfma (km : BitVec 3) (s : Bool) (vs2 vs1 vd : BitVec 5) : Statement (.vfma km s vs2 vs1 vd) := by
  intro w hw _ _
  replace hw : 1275068427 + km.toNat * 8388608 + s.toNat * 4194304 + vs2.toNat * 131072 + vs1.toNat * 4096 + vd.toNat * 128 = w := Option.some.inj hw
  have ⟨g0, g1, g2, g3, g4, g5, g6⟩ := formV (w := w) (11) (vd.toNat) (vs1.toNat) (vs2.toNat) (s.toNat) (km.toNat) (19) (by omega) (by decide) vd.isLt vs1.isLt vs2.isLt s.toNat_lt km.isLt (by decide)
  rw [toVA g0, decodeVA, g6, ← @fv_eq w 23 3 km g5, ← @fbit_eq w 22 s g4, ← @fv_eq w 17 5 vs2 g3, ← @fv_eq w 12 5 vs1 g2, ← @fv_eq w 7 5 vd g1]; rfl

theorem vfms (km : BitVec 3) (s : Bool) (vs2 vs1 vd : BitVec 5) : Statement (.vfms km s vs2 vs1 vd) := by
  intro w hw _ _
  replace hw : 1342177291 + km.toNat * 8388608 + s.toNat * 4194304 + vs2.toNat * 131072 + vs1.toNat * 4096 + vd.toNat * 128 = w := Option.some.inj hw
  have ⟨g0, g1, g2, g3, g4, g5, g6⟩ := formV (w := w) (11) (vd.toNat) (vs1.toNat) (vs2.toNat) (s.toNat) (km.toNat) (20) (by omega) (by decide) vd.isLt vs1.isLt vs2.isLt s.toNat_lt km.isLt (by decide)
  rw [toVA g0, decodeVA, g6, ← @fv_eq w 23 3 km g5, ← @fbit_eq w 22 s g4, ← @fv_eq w 17 5 vs2 g3, ← @fv_eq w 12 5 vs1 g2, ← @fv_eq w 7 5 vd g1]; rfl

theorem vfnma (km : BitVec 3) (s : Bool) (vs2 vs1 vd : BitVec 5) : Statement (.vfnma km s vs2 vs1 vd) := by
  intro w hw _ _
  replace hw : 1409286155 + km.toNat * 8388608 + s.toNat * 4194304 + vs2.toNat * 131072 + vs1.toNat * 4096 + vd.toNat * 128 = w := Option.some.inj hw
  have ⟨g0, g1, g2, g3, g4, g5, g6⟩ := formV (w := w) (11) (vd.toNat) (vs1.toNat) (vs2.toNat) (s.toNat) (km.toNat) (21) (by omega) (by decide) vd.isLt vs1.isLt vs2.isLt s.toNat_lt km.isLt (by decide)
  rw [toVA g0, decodeVA, g6, ← @fv_eq w 23 3 km g5, ← @fbit_eq w 22 s g4, ← @fv_eq w 17 5 vs2 g3, ← @fv_eq w 12 5 vs1 g2, ← @fv_eq w 7 5 vd g1]; rfl

theorem vfnms (km : BitVec 3) (s : Bool) (vs2 vs1 vd : BitVec 5) : Statement (.vfnms km s vs2 vs1 vd) := by
  intro w hw _ _
  replace hw : 1476395019 + km.toNat * 8388608 + s.toNat * 4194304 + vs2.toNat * 131072 + vs1.toNat * 4096 + vd.toNat * 128 = w := Option.some.inj hw
  have ⟨g0, g1, g2, g3, g4, g5, g6⟩ := formV (w := w) (11) (vd.toNat) (vs1.toNat) (vs2.toNat) (s.toNat) (km.toNat) (22) (by omega) (by decide) vd.isLt vs1.isLt vs2.isLt s.toNat_lt km.isLt (by decide)
  rw [toVA g0, decodeVA, g6, ← @fv_eq w 23 3 km g5, ← @fbit_eq w 22 s g4, ← @fv_eq w 17 5 vs2 g3, ← @fv_eq w 12 5 vs1 g2, ← @fv_eq w 7 5 vd g1]; rfl

theorem vsel (km : BitVec 3) (vs2 vs1 vd : BitVec 5) : Statement (.vsel km vs2 vs1 vd) := by
  intro w hw _ _
  replace hw : 1543503883 + km.toNat * 8388608 + vs2.toNat * 131072 + vs1.toNat * 4096 + vd.toNat * 128 = w := Option.some.inj hw
  have ⟨g0, g1, g2, g3, g4, g5, g6⟩ := formV (w := w) (11) (vd.toNat) (vs1.toNat) (vs2.toNat) (0) (km.toNat) (23) (by omega) (by decide) vd.isLt vs1.isLt vs2.isLt (by decide) km.isLt (by decide)
  have cc : fld w 22 1 = 0 := g4
  rw [toVA g0, decodeVA, g6, ← @fv_eq w 23 3 km g5, ← @fv_eq w 17 5 vs2 g3, ← @fv_eq w 12 5 vs1 g2, ← @fv_eq w 7 5 vd g1]; exact if_pos cc

theorem vqblk (km : BitVec 3) (vs2 vs1 vd : BitVec 5) : Statement (.vqblk km vs2 vs1 vd) := by
  intro w hw _ _
  replace hw : 1610612747 + km.toNat * 8388608 + vs2.toNat * 131072 + vs1.toNat * 4096 + vd.toNat * 128 = w := Option.some.inj hw
  have ⟨g0, g1, g2, g3, g4, g5, g6⟩ := formV (w := w) (11) (vd.toNat) (vs1.toNat) (vs2.toNat) (0) (km.toNat) (24) (by omega) (by decide) vd.isLt vs1.isLt vs2.isLt (by decide) km.isLt (by decide)
  have cc : fld w 22 1 = 0 := g4
  rw [toVA g0, decodeVA, g6, ← @fv_eq w 23 3 km g5, ← @fv_eq w 17 5 vs2 g3, ← @fv_eq w 12 5 vs1 g2, ← @fv_eq w 7 5 vd g1]; exact if_pos cc

theorem vdqblk (km : BitVec 3) (vs2 vs1 vd : BitVec 5) : Statement (.vdqblk km vs2 vs1 vd) := by
  intro w hw _ _
  replace hw : 1677721611 + km.toNat * 8388608 + vs2.toNat * 131072 + vs1.toNat * 4096 + vd.toNat * 128 = w := Option.some.inj hw
  have ⟨g0, g1, g2, g3, g4, g5, g6⟩ := formV (w := w) (11) (vd.toNat) (vs1.toNat) (vs2.toNat) (0) (km.toNat) (25) (by omega) (by decide) vd.isLt vs1.isLt vs2.isLt (by decide) km.isLt (by decide)
  have cc : fld w 22 1 = 0 := g4
  rw [toVA g0, decodeVA, g6, ← @fv_eq w 23 3 km g5, ← @fv_eq w 17 5 vs2 g3, ← @fv_eq w 12 5 vs1 g2, ← @fv_eq w 7 5 vd g1]; exact if_pos cc

theorem vsplat (km : BitVec 3) (rs1 vd : BitVec 5) : Statement (.vsplat km rs1 vd) := by
  intro w hw _ _
  replace hw : 1749024779 + km.toNat * 8388608 + rs1.toNat * 4096 + vd.toNat * 128 = w := Option.some.inj hw
  have ⟨g0, g1, g2, g3, g4, g5, g6⟩ := formV (w := w) (11) (vd.toNat) (rs1.toNat) (0) (1) (km.toNat) (26) (by omega) (by decide) vd.isLt rs1.isLt (by decide) (by decide) km.isLt (by decide)
  have cc : fld w 17 6 = 32 := (join g3 g4)
  rw [toVA g0, decodeVA, g6, ← @fv_eq w 23 3 km g5, ← @fv_eq w 12 5 rs1 g2, ← @fv_eq w 7 5 vd g1]; exact if_pos cc

theorem vaddVi (km : BitVec 3) (imm : BitVec 6) (vs1 vd : BitVec 5) : Statement (.vaddVi km imm vs1 vd) := by
  intro w hw _ _
  replace hw : 2147483659 + km.toNat * 8388608 + imm.toNat * 131072 + vs1.toNat * 4096 + vd.toNat * 128 = w := Option.some.inj hw
  have ⟨g0, g1, g2, g3, g4, g5⟩ := formI (w := w) (11) (vd.toNat) (vs1.toNat) (imm.toNat) (km.toNat) (32) (by omega) (by decide) vd.isLt vs1.isLt imm.isLt km.isLt (by decide)
  rw [toVA g0, decodeVA, g5, ← @fv_eq w 23 3 km g4, ← @fv_eq w 17 6 imm g3, ← @fv_eq w 12 5 vs1 g2, ← @fv_eq w 7 5 vd g1]; rfl

theorem vsubVi (km : BitVec 3) (imm : BitVec 6) (vs1 vd : BitVec 5) : Statement (.vsubVi km imm vs1 vd) := by
  intro w hw _ _
  replace hw : 2214592523 + km.toNat * 8388608 + imm.toNat * 131072 + vs1.toNat * 4096 + vd.toNat * 128 = w := Option.some.inj hw
  have ⟨g0, g1, g2, g3, g4, g5⟩ := formI (w := w) (11) (vd.toNat) (vs1.toNat) (imm.toNat) (km.toNat) (33) (by omega) (by decide) vd.isLt vs1.isLt imm.isLt km.isLt (by decide)
  rw [toVA g0, decodeVA, g5, ← @fv_eq w 23 3 km g4, ← @fv_eq w 17 6 imm g3, ← @fv_eq w 12 5 vs1 g2, ← @fv_eq w 7 5 vd g1]; rfl

theorem vrsubVi (km : BitVec 3) (imm : BitVec 6) (vs1 vd : BitVec 5) : Statement (.vrsubVi km imm vs1 vd) := by
  intro w hw _ _
  replace hw : 2281701387 + km.toNat * 8388608 + imm.toNat * 131072 + vs1.toNat * 4096 + vd.toNat * 128 = w := Option.some.inj hw
  have ⟨g0, g1, g2, g3, g4, g5⟩ := formI (w := w) (11) (vd.toNat) (vs1.toNat) (imm.toNat) (km.toNat) (34) (by omega) (by decide) vd.isLt vs1.isLt imm.isLt km.isLt (by decide)
  rw [toVA g0, decodeVA, g5, ← @fv_eq w 23 3 km g4, ← @fv_eq w 17 6 imm g3, ← @fv_eq w 12 5 vs1 g2, ← @fv_eq w 7 5 vd g1]; rfl

theorem vmulVi (km : BitVec 3) (imm : BitVec 6) (vs1 vd : BitVec 5) : Statement (.vmulVi km imm vs1 vd) := by
  intro w hw _ _
  replace hw : 2348810251 + km.toNat * 8388608 + imm.toNat * 131072 + vs1.toNat * 4096 + vd.toNat * 128 = w := Option.some.inj hw
  have ⟨g0, g1, g2, g3, g4, g5⟩ := formI (w := w) (11) (vd.toNat) (vs1.toNat) (imm.toNat) (km.toNat) (35) (by omega) (by decide) vd.isLt vs1.isLt imm.isLt km.isLt (by decide)
  rw [toVA g0, decodeVA, g5, ← @fv_eq w 23 3 km g4, ← @fv_eq w 17 6 imm g3, ← @fv_eq w 12 5 vs1 g2, ← @fv_eq w 7 5 vd g1]; rfl

theorem vminVi (km : BitVec 3) (imm : BitVec 6) (vs1 vd : BitVec 5) : Statement (.vminVi km imm vs1 vd) := by
  intro w hw _ _
  replace hw : 2617245707 + km.toNat * 8388608 + imm.toNat * 131072 + vs1.toNat * 4096 + vd.toNat * 128 = w := Option.some.inj hw
  have ⟨g0, g1, g2, g3, g4, g5⟩ := formI (w := w) (11) (vd.toNat) (vs1.toNat) (imm.toNat) (km.toNat) (39) (by omega) (by decide) vd.isLt vs1.isLt imm.isLt km.isLt (by decide)
  rw [toVA g0, decodeVA, g5, ← @fv_eq w 23 3 km g4, ← @fv_eq w 17 6 imm g3, ← @fv_eq w 12 5 vs1 g2, ← @fv_eq w 7 5 vd g1]; rfl

theorem vmaxVi (km : BitVec 3) (imm : BitVec 6) (vs1 vd : BitVec 5) : Statement (.vmaxVi km imm vs1 vd) := by
  intro w hw _ _
  replace hw : 2684354571 + km.toNat * 8388608 + imm.toNat * 131072 + vs1.toNat * 4096 + vd.toNat * 128 = w := Option.some.inj hw
  have ⟨g0, g1, g2, g3, g4, g5⟩ := formI (w := w) (11) (vd.toNat) (vs1.toNat) (imm.toNat) (km.toNat) (40) (by omega) (by decide) vd.isLt vs1.isLt imm.isLt km.isLt (by decide)
  rw [toVA g0, decodeVA, g5, ← @fv_eq w 23 3 km g4, ← @fv_eq w 17 6 imm g3, ← @fv_eq w 12 5 vs1 g2, ← @fv_eq w 7 5 vd g1]; rfl

theorem vandVi (km : BitVec 3) (imm : BitVec 6) (vs1 vd : BitVec 5) : Statement (.vandVi km imm vs1 vd) := by
  intro w hw _ _
  replace hw : 2751463435 + km.toNat * 8388608 + imm.toNat * 131072 + vs1.toNat * 4096 + vd.toNat * 128 = w := Option.some.inj hw
  have ⟨g0, g1, g2, g3, g4, g5⟩ := formI (w := w) (11) (vd.toNat) (vs1.toNat) (imm.toNat) (km.toNat) (41) (by omega) (by decide) vd.isLt vs1.isLt imm.isLt km.isLt (by decide)
  rw [toVA g0, decodeVA, g5, ← @fv_eq w 23 3 km g4, ← @fv_eq w 17 6 imm g3, ← @fv_eq w 12 5 vs1 g2, ← @fv_eq w 7 5 vd g1]; rfl

theorem vorVi (km : BitVec 3) (imm : BitVec 6) (vs1 vd : BitVec 5) : Statement (.vorVi km imm vs1 vd) := by
  intro w hw _ _
  replace hw : 2818572299 + km.toNat * 8388608 + imm.toNat * 131072 + vs1.toNat * 4096 + vd.toNat * 128 = w := Option.some.inj hw
  have ⟨g0, g1, g2, g3, g4, g5⟩ := formI (w := w) (11) (vd.toNat) (vs1.toNat) (imm.toNat) (km.toNat) (42) (by omega) (by decide) vd.isLt vs1.isLt imm.isLt km.isLt (by decide)
  rw [toVA g0, decodeVA, g5, ← @fv_eq w 23 3 km g4, ← @fv_eq w 17 6 imm g3, ← @fv_eq w 12 5 vs1 g2, ← @fv_eq w 7 5 vd g1]; rfl

theorem vxorVi (km : BitVec 3) (imm : BitVec 6) (vs1 vd : BitVec 5) : Statement (.vxorVi km imm vs1 vd) := by
  intro w hw _ _
  replace hw : 2885681163 + km.toNat * 8388608 + imm.toNat * 131072 + vs1.toNat * 4096 + vd.toNat * 128 = w := Option.some.inj hw
  have ⟨g0, g1, g2, g3, g4, g5⟩ := formI (w := w) (11) (vd.toNat) (vs1.toNat) (imm.toNat) (km.toNat) (43) (by omega) (by decide) vd.isLt vs1.isLt imm.isLt km.isLt (by decide)
  rw [toVA g0, decodeVA, g5, ← @fv_eq w 23 3 km g4, ← @fv_eq w 17 6 imm g3, ← @fv_eq w 12 5 vs1 g2, ← @fv_eq w 7 5 vd g1]; rfl

theorem vsllVi (km : BitVec 3) (imm : BitVec 6) (vs1 vd : BitVec 5) : Statement (.vsllVi km imm vs1 vd) := by
  intro w hw _ _
  replace hw : 2952790027 + km.toNat * 8388608 + imm.toNat * 131072 + vs1.toNat * 4096 + vd.toNat * 128 = w := Option.some.inj hw
  have ⟨g0, g1, g2, g3, g4, g5⟩ := formI (w := w) (11) (vd.toNat) (vs1.toNat) (imm.toNat) (km.toNat) (44) (by omega) (by decide) vd.isLt vs1.isLt imm.isLt km.isLt (by decide)
  rw [toVA g0, decodeVA, g5, ← @fv_eq w 23 3 km g4, ← @fv_eq w 17 6 imm g3, ← @fv_eq w 12 5 vs1 g2, ← @fv_eq w 7 5 vd g1]; rfl

theorem vsrlVi (km : BitVec 3) (imm : BitVec 6) (vs1 vd : BitVec 5) : Statement (.vsrlVi km imm vs1 vd) := by
  intro w hw _ _
  replace hw : 3019898891 + km.toNat * 8388608 + imm.toNat * 131072 + vs1.toNat * 4096 + vd.toNat * 128 = w := Option.some.inj hw
  have ⟨g0, g1, g2, g3, g4, g5⟩ := formI (w := w) (11) (vd.toNat) (vs1.toNat) (imm.toNat) (km.toNat) (45) (by omega) (by decide) vd.isLt vs1.isLt imm.isLt km.isLt (by decide)
  rw [toVA g0, decodeVA, g5, ← @fv_eq w 23 3 km g4, ← @fv_eq w 17 6 imm g3, ← @fv_eq w 12 5 vs1 g2, ← @fv_eq w 7 5 vd g1]; rfl

theorem vsraVi (km : BitVec 3) (imm : BitVec 6) (vs1 vd : BitVec 5) : Statement (.vsraVi km imm vs1 vd) := by
  intro w hw _ _
  replace hw : 3087007755 + km.toNat * 8388608 + imm.toNat * 131072 + vs1.toNat * 4096 + vd.toNat * 128 = w := Option.some.inj hw
  have ⟨g0, g1, g2, g3, g4, g5⟩ := formI (w := w) (11) (vd.toNat) (vs1.toNat) (imm.toNat) (km.toNat) (46) (by omega) (by decide) vd.isLt vs1.isLt imm.isLt km.isLt (by decide)
  rw [toVA g0, decodeVA, g5, ← @fv_eq w 23 3 km g4, ← @fv_eq w 17 6 imm g3, ← @fv_eq w 12 5 vs1 g2, ← @fv_eq w 7 5 vd g1]; rfl

theorem vcmpeqVi (km : BitVec 3) (imm : BitVec 6) (vs1 : BitVec 5) (kd : BitVec 3) : Statement (.vcmpeqVi km imm vs1 kd) := by
  intro w hw _ _
  replace hw : 3154116619 + km.toNat * 8388608 + imm.toNat * 131072 + vs1.toNat * 4096 + kd.toNat * 128 = w := Option.some.inj hw
  have ⟨g0, g1, g2, g3, g4, g5⟩ := formI (w := w) (11) (kd.toNat) (vs1.toNat) (imm.toNat) (km.toNat) (47) (by omega) (by decide) (by have := kd.isLt; omega) vs1.isLt imm.isLt km.isLt (by decide)
  have cc : fld w 10 2 = 0 := (sub g1 3 2 (0) (by decide) (by have := kd.isLt; omega))
  rw [toVA g0, decodeVA, g5, ← @fv_eq w 23 3 km g4, ← @fv_eq w 17 6 imm g3, ← @fv_eq w 12 5 vs1 g2, ← @fv_eq w 7 3 kd (sub g1 0 3 (kd.toNat) (by decide) (by have := kd.isLt; omega))]; exact if_pos cc

theorem vcmpneVi (km : BitVec 3) (imm : BitVec 6) (vs1 : BitVec 5) (kd : BitVec 3) : Statement (.vcmpneVi km imm vs1 kd) := by
  intro w hw _ _
  replace hw : 3221225483 + km.toNat * 8388608 + imm.toNat * 131072 + vs1.toNat * 4096 + kd.toNat * 128 = w := Option.some.inj hw
  have ⟨g0, g1, g2, g3, g4, g5⟩ := formI (w := w) (11) (kd.toNat) (vs1.toNat) (imm.toNat) (km.toNat) (48) (by omega) (by decide) (by have := kd.isLt; omega) vs1.isLt imm.isLt km.isLt (by decide)
  have cc : fld w 10 2 = 0 := (sub g1 3 2 (0) (by decide) (by have := kd.isLt; omega))
  rw [toVA g0, decodeVA, g5, ← @fv_eq w 23 3 km g4, ← @fv_eq w 17 6 imm g3, ← @fv_eq w 12 5 vs1 g2, ← @fv_eq w 7 3 kd (sub g1 0 3 (kd.toNat) (by decide) (by have := kd.isLt; omega))]; exact if_pos cc

theorem vcmpltVi (km : BitVec 3) (imm : BitVec 6) (vs1 : BitVec 5) (kd : BitVec 3) : Statement (.vcmpltVi km imm vs1 kd) := by
  intro w hw _ _
  replace hw : 3288334347 + km.toNat * 8388608 + imm.toNat * 131072 + vs1.toNat * 4096 + kd.toNat * 128 = w := Option.some.inj hw
  have ⟨g0, g1, g2, g3, g4, g5⟩ := formI (w := w) (11) (kd.toNat) (vs1.toNat) (imm.toNat) (km.toNat) (49) (by omega) (by decide) (by have := kd.isLt; omega) vs1.isLt imm.isLt km.isLt (by decide)
  have cc : fld w 10 2 = 0 := (sub g1 3 2 (0) (by decide) (by have := kd.isLt; omega))
  rw [toVA g0, decodeVA, g5, ← @fv_eq w 23 3 km g4, ← @fv_eq w 17 6 imm g3, ← @fv_eq w 12 5 vs1 g2, ← @fv_eq w 7 3 kd (sub g1 0 3 (kd.toNat) (by decide) (by have := kd.isLt; omega))]; exact if_pos cc

theorem vcmpleVi (km : BitVec 3) (imm : BitVec 6) (vs1 : BitVec 5) (kd : BitVec 3) : Statement (.vcmpleVi km imm vs1 kd) := by
  intro w hw _ _
  replace hw : 3355443211 + km.toNat * 8388608 + imm.toNat * 131072 + vs1.toNat * 4096 + kd.toNat * 128 = w := Option.some.inj hw
  have ⟨g0, g1, g2, g3, g4, g5⟩ := formI (w := w) (11) (kd.toNat) (vs1.toNat) (imm.toNat) (km.toNat) (50) (by omega) (by decide) (by have := kd.isLt; omega) vs1.isLt imm.isLt km.isLt (by decide)
  have cc : fld w 10 2 = 0 := (sub g1 3 2 (0) (by decide) (by have := kd.isLt; omega))
  rw [toVA g0, decodeVA, g5, ← @fv_eq w 23 3 km g4, ← @fv_eq w 17 6 imm g3, ← @fv_eq w 12 5 vs1 g2, ← @fv_eq w 7 3 kd (sub g1 0 3 (kd.toNat) (by decide) (by have := kd.isLt; omega))]; exact if_pos cc

theorem vsplatVi (km : BitVec 3) (imm : BitVec 6) (vd : BitVec 5) : Statement (.vsplatVi km imm vd) := by
  intro w hw _ _
  replace hw : 3892314123 + km.toNat * 8388608 + imm.toNat * 131072 + vd.toNat * 128 = w := Option.some.inj hw
  have ⟨g0, g1, g2, g3, g4, g5⟩ := formI (w := w) (11) (vd.toNat) (0) (imm.toNat) (km.toNat) (58) (by omega) (by decide) vd.isLt (by decide) imm.isLt km.isLt (by decide)
  have cc : fld w 12 5 = 0 := g2
  rw [toVA g0, decodeVA, g5, ← @fv_eq w 23 3 km g4, ← @fv_eq w 17 6 imm g3, ← @fv_eq w 7 5 vd g1]; exact if_pos cc

theorem vmv (km : BitVec 3) (vs1 vd : BitVec 5) : Statement (.vmv km vs1 vd) := by
  intro w hw _ _
  replace hw : 2080374795 + km.toNat * 8388608 + vs1.toNat * 4096 + vd.toNat * 128 = w := Option.some.inj hw
  have ⟨g0, g1, g2, g3, g4, g5, g6⟩ := formV (w := w) (11) (vd.toNat) (vs1.toNat) (0) (0) (km.toNat) (31) (by omega) (by decide) vd.isLt vs1.isLt (by decide) (by decide) km.isLt (by decide)
  have cc : fld w 22 1 = 0 := g4
  rw [toUnary g0 g6, decodeUnary, g3, ← @fv_eq w 23 3 km g5, ← @fv_eq w 12 5 vs1 g2, ← @fv_eq w 7 5 vd g1]; exact if_pos cc

theorem vabs (km : BitVec 3) (vs1 vd : BitVec 5) : Statement (.vabs km vs1 vd) := by
  intro w hw _ _
  replace hw : 2080505867 + km.toNat * 8388608 + vs1.toNat * 4096 + vd.toNat * 128 = w := Option.some.inj hw
  have ⟨g0, g1, g2, g3, g4, g5, g6⟩ := formV (w := w) (11) (vd.toNat) (vs1.toNat) (1) (0) (km.toNat) (31) (by omega) (by decide) vd.isLt vs1.isLt (by decide) (by decide) km.isLt (by decide)
  have cc : fld w 22 1 = 0 := g4
  rw [toUnary g0 g6, decodeUnary, g3, ← @fv_eq w 23 3 km g5, ← @fv_eq w 12 5 vs1 g2, ← @fv_eq w 7 5 vd g1]; exact if_pos cc

theorem vneg (km : BitVec 3) (vs1 vd : BitVec 5) : Statement (.vneg km vs1 vd) := by
  intro w hw _ _
  replace hw : 2080636939 + km.toNat * 8388608 + vs1.toNat * 4096 + vd.toNat * 128 = w := Option.some.inj hw
  have ⟨g0, g1, g2, g3, g4, g5, g6⟩ := formV (w := w) (11) (vd.toNat) (vs1.toNat) (2) (0) (km.toNat) (31) (by omega) (by decide) vd.isLt vs1.isLt (by decide) (by decide) km.isLt (by decide)
  have cc : fld w 22 1 = 0 := g4
  rw [toUnary g0 g6, decodeUnary, g3, ← @fv_eq w 23 3 km g5, ← @fv_eq w 12 5 vs1 g2, ← @fv_eq w 7 5 vd g1]; exact if_pos cc

theorem vnot (km : BitVec 3) (vs1 vd : BitVec 5) : Statement (.vnot km vs1 vd) := by
  intro w hw _ _
  replace hw : 2080768011 + km.toNat * 8388608 + vs1.toNat * 4096 + vd.toNat * 128 = w := Option.some.inj hw
  have ⟨g0, g1, g2, g3, g4, g5, g6⟩ := formV (w := w) (11) (vd.toNat) (vs1.toNat) (3) (0) (km.toNat) (31) (by omega) (by decide) vd.isLt vs1.isLt (by decide) (by decide) km.isLt (by decide)
  have cc : fld w 22 1 = 0 := g4
  rw [toUnary g0 g6, decodeUnary, g3, ← @fv_eq w 23 3 km g5, ← @fv_eq w 12 5 vs1 g2, ← @fv_eq w 7 5 vd g1]; exact if_pos cc

theorem vsqrt (km : BitVec 3) (vs1 vd : BitVec 5) : Statement (.vsqrt km vs1 vd) := by
  intro w hw _ _
  replace hw : 2080899083 + km.toNat * 8388608 + vs1.toNat * 4096 + vd.toNat * 128 = w := Option.some.inj hw
  have ⟨g0, g1, g2, g3, g4, g5, g6⟩ := formV (w := w) (11) (vd.toNat) (vs1.toNat) (4) (0) (km.toNat) (31) (by omega) (by decide) vd.isLt vs1.isLt (by decide) (by decide) km.isLt (by decide)
  have cc : fld w 22 1 = 0 := g4
  rw [toUnary g0 g6, decodeUnary, g3, ← @fv_eq w 23 3 km g5, ← @fv_eq w 12 5 vs1 g2, ← @fv_eq w 7 5 vd g1]; exact if_pos cc

theorem vrcp (km : BitVec 3) (vs1 vd : BitVec 5) : Statement (.vrcp km vs1 vd) := by
  intro w hw _ _
  replace hw : 2081030155 + km.toNat * 8388608 + vs1.toNat * 4096 + vd.toNat * 128 = w := Option.some.inj hw
  have ⟨g0, g1, g2, g3, g4, g5, g6⟩ := formV (w := w) (11) (vd.toNat) (vs1.toNat) (5) (0) (km.toNat) (31) (by omega) (by decide) vd.isLt vs1.isLt (by decide) (by decide) km.isLt (by decide)
  have cc : fld w 22 1 = 0 := g4
  rw [toUnary g0 g6, decodeUnary, g3, ← @fv_eq w 23 3 km g5, ← @fv_eq w 12 5 vs1 g2, ← @fv_eq w 7 5 vd g1]; exact if_pos cc

theorem vrsqrt (km : BitVec 3) (vs1 vd : BitVec 5) : Statement (.vrsqrt km vs1 vd) := by
  intro w hw _ _
  replace hw : 2081161227 + km.toNat * 8388608 + vs1.toNat * 4096 + vd.toNat * 128 = w := Option.some.inj hw
  have ⟨g0, g1, g2, g3, g4, g5, g6⟩ := formV (w := w) (11) (vd.toNat) (vs1.toNat) (6) (0) (km.toNat) (31) (by omega) (by decide) vd.isLt vs1.isLt (by decide) (by decide) km.isLt (by decide)
  have cc : fld w 22 1 = 0 := g4
  rw [toUnary g0 g6, decodeUnary, g3, ← @fv_eq w 23 3 km g5, ← @fv_eq w 12 5 vs1 g2, ← @fv_eq w 7 5 vd g1]; exact if_pos cc

theorem vexp2 (km : BitVec 3) (vs1 vd : BitVec 5) : Statement (.vexp2 km vs1 vd) := by
  intro w hw _ _
  replace hw : 2081292299 + km.toNat * 8388608 + vs1.toNat * 4096 + vd.toNat * 128 = w := Option.some.inj hw
  have ⟨g0, g1, g2, g3, g4, g5, g6⟩ := formV (w := w) (11) (vd.toNat) (vs1.toNat) (7) (0) (km.toNat) (31) (by omega) (by decide) vd.isLt vs1.isLt (by decide) (by decide) km.isLt (by decide)
  have cc : fld w 22 1 = 0 := g4
  rw [toUnary g0 g6, decodeUnary, g3, ← @fv_eq w 23 3 km g5, ← @fv_eq w 12 5 vs1 g2, ← @fv_eq w 7 5 vd g1]; exact if_pos cc

theorem vlog2 (km : BitVec 3) (vs1 vd : BitVec 5) : Statement (.vlog2 km vs1 vd) := by
  intro w hw _ _
  replace hw : 2081423371 + km.toNat * 8388608 + vs1.toNat * 4096 + vd.toNat * 128 = w := Option.some.inj hw
  have ⟨g0, g1, g2, g3, g4, g5, g6⟩ := formV (w := w) (11) (vd.toNat) (vs1.toNat) (8) (0) (km.toNat) (31) (by omega) (by decide) vd.isLt vs1.isLt (by decide) (by decide) km.isLt (by decide)
  have cc : fld w 22 1 = 0 := g4
  rw [toUnary g0 g6, decodeUnary, g3, ← @fv_eq w 23 3 km g5, ← @fv_eq w 12 5 vs1 g2, ← @fv_eq w 7 5 vd g1]; exact if_pos cc

theorem vclz (km : BitVec 3) (vs1 vd : BitVec 5) : Statement (.vclz km vs1 vd) := by
  intro w hw _ _
  replace hw : 2081554443 + km.toNat * 8388608 + vs1.toNat * 4096 + vd.toNat * 128 = w := Option.some.inj hw
  have ⟨g0, g1, g2, g3, g4, g5, g6⟩ := formV (w := w) (11) (vd.toNat) (vs1.toNat) (9) (0) (km.toNat) (31) (by omega) (by decide) vd.isLt vs1.isLt (by decide) (by decide) km.isLt (by decide)
  have cc : fld w 22 1 = 0 := g4
  rw [toUnary g0 g6, decodeUnary, g3, ← @fv_eq w 23 3 km g5, ← @fv_eq w 12 5 vs1 g2, ← @fv_eq w 7 5 vd g1]; exact if_pos cc

theorem vpop (km : BitVec 3) (vs1 vd : BitVec 5) : Statement (.vpop km vs1 vd) := by
  intro w hw _ _
  replace hw : 2081685515 + km.toNat * 8388608 + vs1.toNat * 4096 + vd.toNat * 128 = w := Option.some.inj hw
  have ⟨g0, g1, g2, g3, g4, g5, g6⟩ := formV (w := w) (11) (vd.toNat) (vs1.toNat) (10) (0) (km.toNat) (31) (by omega) (by decide) vd.isLt vs1.isLt (by decide) (by decide) km.isLt (by decide)
  have cc : fld w 22 1 = 0 := g4
  rw [toUnary g0 g6, decodeUnary, g3, ← @fv_eq w 23 3 km g5, ← @fv_eq w 12 5 vs1 g2, ← @fv_eq w 7 5 vd g1]; exact if_pos cc

theorem vclass (km : BitVec 3) (vs1 vd : BitVec 5) : Statement (.vclass km vs1 vd) := by
  intro w hw _ _
  replace hw : 2081816587 + km.toNat * 8388608 + vs1.toNat * 4096 + vd.toNat * 128 = w := Option.some.inj hw
  have ⟨g0, g1, g2, g3, g4, g5, g6⟩ := formV (w := w) (11) (vd.toNat) (vs1.toNat) (11) (0) (km.toNat) (31) (by omega) (by decide) vd.isLt vs1.isLt (by decide) (by decide) km.isLt (by decide)
  have cc : fld w 22 1 = 0 := g4
  rw [toUnary g0 g6, decodeUnary, g3, ← @fv_eq w 23 3 km g5, ← @fv_eq w 12 5 vs1 g2, ← @fv_eq w 7 5 vd g1]; exact if_pos cc

theorem vcvt (km : BitVec 3) (vs1 vd : BitVec 5) : Statement (.vcvt km vs1 vd) := by
  intro w hw _ _
  replace hw : 2081947659 + km.toNat * 8388608 + vs1.toNat * 4096 + vd.toNat * 128 = w := Option.some.inj hw
  have ⟨g0, g1, g2, g3, g4, g5, g6⟩ := formV (w := w) (11) (vd.toNat) (vs1.toNat) (12) (0) (km.toNat) (31) (by omega) (by decide) vd.isLt vs1.isLt (by decide) (by decide) km.isLt (by decide)
  have cc : fld w 22 1 = 0 := g4
  rw [toUnary g0 g6, decodeUnary, g3, ← @fv_eq w 23 3 km g5, ← @fv_eq w 12 5 vs1 g2, ← @fv_eq w 7 5 vd g1]; exact if_pos cc

theorem vid (km : BitVec 3) (vd : BitVec 5) : Statement (.vid km vd) := by
  intro w hw _ _
  replace hw : 2082078731 + km.toNat * 8388608 + vd.toNat * 128 = w := Option.some.inj hw
  have ⟨g0, g1, g2, g3, g4, g5, g6⟩ := formV (w := w) (11) (vd.toNat) (0) (13) (0) (km.toNat) (31) (by omega) (by decide) vd.isLt (by decide) (by decide) (by decide) km.isLt (by decide)
  have cc : fld w 12 5 = 0 ∧ fld w 22 1 = 0 := ⟨g2, g4⟩
  rw [toUnary g0 g6, decodeUnary, g3, ← @fv_eq w 23 3 km g5, ← @fv_eq w 7 5 vd g1]; exact if_pos cc

theorem kand (ks2 ks1 kd : BitVec 3) : Statement (.kand ks2 ks1 kd) := by
  intro w hw _ _
  replace hw : 2013265931 + ks2.toNat * 8388608 + ks1.toNat * 4096 + kd.toNat * 128 = w := Option.some.inj hw
  have ⟨g0, g1, g2, g3, g4, g5, g6⟩ := formV (w := w) (11) (kd.toNat) (ks1.toNat) (0) (0) (ks2.toNat) (30) (by omega) (by decide) (by have := kd.isLt; omega) (by have := ks1.isLt; omega) (by decide) (by decide) ks2.isLt (by decide)
  have cc : fld w 10 2 = 0 ∧ fld w 15 2 = 0 ∧ fld w 22 1 = 0 := ⟨(sub g1 3 2 (0) (by decide) (by have := kd.isLt; omega)), (sub g2 3 2 (0) (by decide) (by have := ks1.isLt; omega)), g4⟩
  rw [toMask g0 g6, decodeMask, g3, ← @fv_eq w 23 3 ks2 g5, ← @fv_eq w 12 3 ks1 (sub g2 0 3 (ks1.toNat) (by decide) (by have := ks1.isLt; omega)), ← @fv_eq w 7 3 kd (sub g1 0 3 (kd.toNat) (by decide) (by have := kd.isLt; omega))]; exact if_pos cc

theorem kor (ks2 ks1 kd : BitVec 3) : Statement (.kor ks2 ks1 kd) := by
  intro w hw _ _
  replace hw : 2013397003 + ks2.toNat * 8388608 + ks1.toNat * 4096 + kd.toNat * 128 = w := Option.some.inj hw
  have ⟨g0, g1, g2, g3, g4, g5, g6⟩ := formV (w := w) (11) (kd.toNat) (ks1.toNat) (1) (0) (ks2.toNat) (30) (by omega) (by decide) (by have := kd.isLt; omega) (by have := ks1.isLt; omega) (by decide) (by decide) ks2.isLt (by decide)
  have cc : fld w 10 2 = 0 ∧ fld w 15 2 = 0 ∧ fld w 22 1 = 0 := ⟨(sub g1 3 2 (0) (by decide) (by have := kd.isLt; omega)), (sub g2 3 2 (0) (by decide) (by have := ks1.isLt; omega)), g4⟩
  rw [toMask g0 g6, decodeMask, g3, ← @fv_eq w 23 3 ks2 g5, ← @fv_eq w 12 3 ks1 (sub g2 0 3 (ks1.toNat) (by decide) (by have := ks1.isLt; omega)), ← @fv_eq w 7 3 kd (sub g1 0 3 (kd.toNat) (by decide) (by have := kd.isLt; omega))]; exact if_pos cc

theorem kxor (ks2 ks1 kd : BitVec 3) : Statement (.kxor ks2 ks1 kd) := by
  intro w hw _ _
  replace hw : 2013528075 + ks2.toNat * 8388608 + ks1.toNat * 4096 + kd.toNat * 128 = w := Option.some.inj hw
  have ⟨g0, g1, g2, g3, g4, g5, g6⟩ := formV (w := w) (11) (kd.toNat) (ks1.toNat) (2) (0) (ks2.toNat) (30) (by omega) (by decide) (by have := kd.isLt; omega) (by have := ks1.isLt; omega) (by decide) (by decide) ks2.isLt (by decide)
  have cc : fld w 10 2 = 0 ∧ fld w 15 2 = 0 ∧ fld w 22 1 = 0 := ⟨(sub g1 3 2 (0) (by decide) (by have := kd.isLt; omega)), (sub g2 3 2 (0) (by decide) (by have := ks1.isLt; omega)), g4⟩
  rw [toMask g0 g6, decodeMask, g3, ← @fv_eq w 23 3 ks2 g5, ← @fv_eq w 12 3 ks1 (sub g2 0 3 (ks1.toNat) (by decide) (by have := ks1.isLt; omega)), ← @fv_eq w 7 3 kd (sub g1 0 3 (kd.toNat) (by decide) (by have := kd.isLt; omega))]; exact if_pos cc

theorem kandn (ks2 ks1 kd : BitVec 3) : Statement (.kandn ks2 ks1 kd) := by
  intro w hw _ _
  replace hw : 2013659147 + ks2.toNat * 8388608 + ks1.toNat * 4096 + kd.toNat * 128 = w := Option.some.inj hw
  have ⟨g0, g1, g2, g3, g4, g5, g6⟩ := formV (w := w) (11) (kd.toNat) (ks1.toNat) (3) (0) (ks2.toNat) (30) (by omega) (by decide) (by have := kd.isLt; omega) (by have := ks1.isLt; omega) (by decide) (by decide) ks2.isLt (by decide)
  have cc : fld w 10 2 = 0 ∧ fld w 15 2 = 0 ∧ fld w 22 1 = 0 := ⟨(sub g1 3 2 (0) (by decide) (by have := kd.isLt; omega)), (sub g2 3 2 (0) (by decide) (by have := ks1.isLt; omega)), g4⟩
  rw [toMask g0 g6, decodeMask, g3, ← @fv_eq w 23 3 ks2 g5, ← @fv_eq w 12 3 ks1 (sub g2 0 3 (ks1.toNat) (by decide) (by have := ks1.isLt; omega)), ← @fv_eq w 7 3 kd (sub g1 0 3 (kd.toNat) (by decide) (by have := kd.isLt; omega))]; exact if_pos cc

theorem knot (ks1 kd : BitVec 3) : Statement (.knot ks1 kd) := by
  intro w hw _ _
  replace hw : 2013790219 + ks1.toNat * 4096 + kd.toNat * 128 = w := Option.some.inj hw
  have ⟨g0, g1, g2, g3, g4, g5, g6⟩ := formV (w := w) (11) (kd.toNat) (ks1.toNat) (4) (0) (0) (30) (by omega) (by decide) (by have := kd.isLt; omega) (by have := ks1.isLt; omega) (by decide) (by decide) (by decide) (by decide)
  have cc : fld w 10 2 = 0 ∧ fld w 15 2 = 0 ∧ fld w 22 4 = 0 := ⟨(sub g1 3 2 (0) (by decide) (by have := kd.isLt; omega)), (sub g2 3 2 (0) (by decide) (by have := ks1.isLt; omega)), (join0 g4 g5)⟩
  rw [toMask g0 g6, decodeMask, g3, ← @fv_eq w 12 3 ks1 (sub g2 0 3 (ks1.toNat) (by decide) (by have := ks1.isLt; omega)), ← @fv_eq w 7 3 kd (sub g1 0 3 (kd.toNat) (by decide) (by have := kd.isLt; omega))]; exact if_pos cc

theorem kpop (ks1 : BitVec 3) (rd : BitVec 5) : Statement (.kpop ks1 rd) := by
  intro w hw _ _
  replace hw : 2013921291 + ks1.toNat * 4096 + rd.toNat * 128 = w := Option.some.inj hw
  have ⟨g0, g1, g2, g3, g4, g5, g6⟩ := formV (w := w) (11) (rd.toNat) (ks1.toNat) (5) (0) (0) (30) (by omega) (by decide) rd.isLt (by have := ks1.isLt; omega) (by decide) (by decide) (by decide) (by decide)
  have cc : fld w 15 2 = 0 ∧ fld w 22 4 = 0 := ⟨(sub g2 3 2 (0) (by decide) (by have := ks1.isLt; omega)), (join0 g4 g5)⟩
  rw [toMask g0 g6, decodeMask, g3, ← @fv_eq w 12 3 ks1 (sub g2 0 3 (ks1.toNat) (by decide) (by have := ks1.isLt; omega)), ← @fv_eq w 7 5 rd g1]; exact if_pos cc

theorem kfirst (ks1 : BitVec 3) (rd : BitVec 5) : Statement (.kfirst ks1 rd) := by
  intro w hw _ _
  replace hw : 2014052363 + ks1.toNat * 4096 + rd.toNat * 128 = w := Option.some.inj hw
  have ⟨g0, g1, g2, g3, g4, g5, g6⟩ := formV (w := w) (11) (rd.toNat) (ks1.toNat) (6) (0) (0) (30) (by omega) (by decide) rd.isLt (by have := ks1.isLt; omega) (by decide) (by decide) (by decide) (by decide)
  have cc : fld w 15 2 = 0 ∧ fld w 22 4 = 0 := ⟨(sub g2 3 2 (0) (by decide) (by have := ks1.isLt; omega)), (join0 g4 g5)⟩
  rw [toMask g0 g6, decodeMask, g3, ← @fv_eq w 12 3 ks1 (sub g2 0 3 (ks1.toNat) (by decide) (by have := ks1.isLt; omega)), ← @fv_eq w 7 5 rd g1]; exact if_pos cc

theorem kmv (ks1 kd : BitVec 3) : Statement (.kmv ks1 kd) := by
  intro w hw _ _
  replace hw : 2014183435 + ks1.toNat * 4096 + kd.toNat * 128 = w := Option.some.inj hw
  have ⟨g0, g1, g2, g3, g4, g5, g6⟩ := formV (w := w) (11) (kd.toNat) (ks1.toNat) (7) (0) (0) (30) (by omega) (by decide) (by have := kd.isLt; omega) (by have := ks1.isLt; omega) (by decide) (by decide) (by decide) (by decide)
  have cc : fld w 10 2 = 0 ∧ fld w 15 2 = 0 ∧ fld w 22 4 = 0 := ⟨(sub g1 3 2 (0) (by decide) (by have := kd.isLt; omega)), (sub g2 3 2 (0) (by decide) (by have := ks1.isLt; omega)), (join0 g4 g5)⟩
  rw [toMask g0 g6, decodeMask, g3, ← @fv_eq w 12 3 ks1 (sub g2 0 3 (ks1.toNat) (by decide) (by have := ks1.isLt; omega)), ← @fv_eq w 7 3 kd (sub g1 0 3 (kd.toNat) (by decide) (by have := kd.isLt; omega))]; exact if_pos cc

theorem kmvFromEmask (kd : BitVec 3) : Statement (.kmvFromEmask kd) := by
  intro w hw _ _
  replace hw : 2014314507 + kd.toNat * 128 = w := Option.some.inj hw
  have ⟨g0, g1, g2, g3, g4, g5, g6⟩ := formV (w := w) (11) (kd.toNat) (0) (8) (0) (0) (30) (by omega) (by decide) (by have := kd.isLt; omega) (by decide) (by decide) (by decide) (by decide) (by decide)
  have cc : fld w 10 7 = 0 ∧ fld w 22 4 = 0 := ⟨(join0 (sub g1 3 2 (0) (by decide) (by have := kd.isLt; omega)) g2), (join0 g4 g5)⟩
  rw [toMask g0 g6, decodeMask, g3, ← @fv_eq w 7 3 kd (sub g1 0 3 (kd.toNat) (by decide) (by have := kd.isLt; omega))]; exact if_pos cc

theorem kmvToEmask (ks1 : BitVec 3) : Statement (.kmvToEmask ks1) := by
  intro w hw _ _
  replace hw : 2014445579 + ks1.toNat * 4096 = w := Option.some.inj hw
  have ⟨g0, g1, g2, g3, g4, g5, g6⟩ := formV (w := w) (11) (0) (ks1.toNat) (9) (0) (0) (30) (by omega) (by decide) (by decide) (by have := ks1.isLt; omega) (by decide) (by decide) (by decide) (by decide)
  have cc : fld w 7 5 = 0 ∧ fld w 15 2 = 0 ∧ fld w 22 4 = 0 := ⟨g1, (sub g2 3 2 (0) (by decide) (by have := ks1.isLt; omega)), (join0 g4 g5)⟩
  rw [toMask g0 g6, decodeMask, g3, ← @fv_eq w 12 3 ks1 (sub g2 0 3 (ks1.toNat) (by decide) (by have := ks1.isLt; omega))]; exact if_pos cc

theorem kset (rs1 : BitVec 5) (kd : BitVec 3) : Statement (.kset rs1 kd) := by
  intro w hw _ _
  replace hw : 2014576651 + rs1.toNat * 4096 + kd.toNat * 128 = w := Option.some.inj hw
  have ⟨g0, g1, g2, g3, g4, g5, g6⟩ := formV (w := w) (11) (kd.toNat) (rs1.toNat) (10) (0) (0) (30) (by omega) (by decide) (by have := kd.isLt; omega) rs1.isLt (by decide) (by decide) (by decide) (by decide)
  have cc : fld w 10 2 = 0 ∧ fld w 22 4 = 0 := ⟨(sub g1 3 2 (0) (by decide) (by have := kd.isLt; omega)), (join0 g4 g5)⟩
  rw [toMask g0 g6, decodeMask, g3, ← @fv_eq w 12 5 rs1 g2, ← @fv_eq w 7 3 kd (sub g1 0 3 (kd.toNat) (by decide) (by have := kd.isLt; omega))]; exact if_pos cc

theorem vld (km : BitVec 3) (rs1 vd : BitVec 5) : Statement (.vld km rs1 vd) := by
  intro w hw _ _
  replace hw : 43 + km.toNat * 8388608 + rs1.toNat * 4096 + vd.toNat * 128 = w := Option.some.inj hw
  have ⟨g0, g1, g2, g3, g4, g5, g6⟩ := formV (w := w) (43) (vd.toNat) (rs1.toNat) (0) (0) (km.toNat) (0) (by omega) (by decide) vd.isLt rs1.isLt (by decide) (by decide) km.isLt (by decide)
  have cc : fld w 17 6 = 0 := (join0 g3 g4)
  rw [toVX g0, decodeVX, g6, ← @fv_eq w 23 3 km g5, ← @fv_eq w 12 5 rs1 g2, ← @fv_eq w 7 5 vd g1]; exact if_pos cc

theorem vst (km : BitVec 3) (rs1 vs3 : BitVec 5) : Statement (.vst km rs1 vs3) := by
  intro w hw _ _
  replace hw : 67108907 + km.toNat * 8388608 + rs1.toNat * 4096 + vs3.toNat * 128 = w := Option.some.inj hw
  have ⟨g0, g1, g2, g3, g4, g5, g6⟩ := formV (w := w) (43) (vs3.toNat) (rs1.toNat) (0) (0) (km.toNat) (1) (by omega) (by decide) vs3.isLt rs1.isLt (by decide) (by decide) km.isLt (by decide)
  have cc : fld w 17 6 = 0 := (join0 g3 g4)
  rw [toVX g0, decodeVX, g6, ← @fv_eq w 23 3 km g5, ← @fv_eq w 12 5 rs1 g2, ← @fv_eq w 7 5 vs3 g1]; exact if_pos cc

theorem vlds (km : BitVec 3) (rs2 rs1 vd : BitVec 5) : Statement (.vlds km rs2 rs1 vd) := by
  intro w hw _ _
  replace hw : 134217771 + km.toNat * 8388608 + rs2.toNat * 131072 + rs1.toNat * 4096 + vd.toNat * 128 = w := Option.some.inj hw
  have ⟨g0, g1, g2, g3, g4, g5, g6⟩ := formV (w := w) (43) (vd.toNat) (rs1.toNat) (rs2.toNat) (0) (km.toNat) (2) (by omega) (by decide) vd.isLt rs1.isLt rs2.isLt (by decide) km.isLt (by decide)
  have cc : fld w 22 1 = 0 := g4
  rw [toVX g0, decodeVX, g6, ← @fv_eq w 23 3 km g5, ← @fv_eq w 17 5 rs2 g3, ← @fv_eq w 12 5 rs1 g2, ← @fv_eq w 7 5 vd g1]; exact if_pos cc

theorem vsts (km : BitVec 3) (rs2 rs1 vs3 : BitVec 5) : Statement (.vsts km rs2 rs1 vs3) := by
  intro w hw _ _
  replace hw : 201326635 + km.toNat * 8388608 + rs2.toNat * 131072 + rs1.toNat * 4096 + vs3.toNat * 128 = w := Option.some.inj hw
  have ⟨g0, g1, g2, g3, g4, g5, g6⟩ := formV (w := w) (43) (vs3.toNat) (rs1.toNat) (rs2.toNat) (0) (km.toNat) (3) (by omega) (by decide) vs3.isLt rs1.isLt rs2.isLt (by decide) km.isLt (by decide)
  have cc : fld w 22 1 = 0 := g4
  rw [toVX g0, decodeVX, g6, ← @fv_eq w 23 3 km g5, ← @fv_eq w 17 5 rs2 g3, ← @fv_eq w 12 5 rs1 g2, ← @fv_eq w 7 5 vs3 g1]; exact if_pos cc

theorem vldx (km : BitVec 3) (vs2 rs1 vd : BitVec 5) : Statement (.vldx km vs2 rs1 vd) := by
  intro w hw _ _
  replace hw : 268435499 + km.toNat * 8388608 + vs2.toNat * 131072 + rs1.toNat * 4096 + vd.toNat * 128 = w := Option.some.inj hw
  have ⟨g0, g1, g2, g3, g4, g5, g6⟩ := formV (w := w) (43) (vd.toNat) (rs1.toNat) (vs2.toNat) (0) (km.toNat) (4) (by omega) (by decide) vd.isLt rs1.isLt vs2.isLt (by decide) km.isLt (by decide)
  have cc : fld w 22 1 = 0 := g4
  rw [toVX g0, decodeVX, g6, ← @fv_eq w 23 3 km g5, ← @fv_eq w 17 5 vs2 g3, ← @fv_eq w 12 5 rs1 g2, ← @fv_eq w 7 5 vd g1]; exact if_pos cc

theorem vstx (km : BitVec 3) (vs2 rs1 vs3 : BitVec 5) : Statement (.vstx km vs2 rs1 vs3) := by
  intro w hw _ _
  replace hw : 335544363 + km.toNat * 8388608 + vs2.toNat * 131072 + rs1.toNat * 4096 + vs3.toNat * 128 = w := Option.some.inj hw
  have ⟨g0, g1, g2, g3, g4, g5, g6⟩ := formV (w := w) (43) (vs3.toNat) (rs1.toNat) (vs2.toNat) (0) (km.toNat) (5) (by omega) (by decide) vs3.isLt rs1.isLt vs2.isLt (by decide) km.isLt (by decide)
  have cc : fld w 22 1 = 0 := g4
  rw [toVX g0, decodeVX, g6, ← @fv_eq w 23 3 km g5, ← @fv_eq w 17 5 vs2 g3, ← @fv_eq w 12 5 rs1 g2, ← @fv_eq w 7 5 vs3 g1]; exact if_pos cc

theorem vgl (km : BitVec 3) (vs2 rs1 vd : BitVec 5) : Statement (.vgl km vs2 rs1 vd) := by
  intro w hw _ _
  replace hw : 402653227 + km.toNat * 8388608 + vs2.toNat * 131072 + rs1.toNat * 4096 + vd.toNat * 128 = w := Option.some.inj hw
  have ⟨g0, g1, g2, g3, g4, g5, g6⟩ := formV (w := w) (43) (vd.toNat) (rs1.toNat) (vs2.toNat) (0) (km.toNat) (6) (by omega) (by decide) vd.isLt rs1.isLt vs2.isLt (by decide) km.isLt (by decide)
  have cc : fld w 22 1 = 0 := g4
  rw [toVX g0, decodeVX, g6, ← @fv_eq w 23 3 km g5, ← @fv_eq w 17 5 vs2 g3, ← @fv_eq w 12 5 rs1 g2, ← @fv_eq w 7 5 vd g1]; exact if_pos cc

theorem vlsl (km : BitVec 3) (vs2 rs1 vd : BitVec 5) : Statement (.vlsl km vs2 rs1 vd) := by
  intro w hw _ _
  replace hw : 536870955 + km.toNat * 8388608 + vs2.toNat * 131072 + rs1.toNat * 4096 + vd.toNat * 128 = w := Option.some.inj hw
  have ⟨g0, g1, g2, g3, g4, g5, g6⟩ := formV (w := w) (43) (vd.toNat) (rs1.toNat) (vs2.toNat) (0) (km.toNat) (8) (by omega) (by decide) vd.isLt rs1.isLt vs2.isLt (by decide) km.isLt (by decide)
  have cc : fld w 22 1 = 0 := g4
  rw [toVX g0, decodeVX, g6, ← @fv_eq w 23 3 km g5, ← @fv_eq w 17 5 vs2 g3, ← @fv_eq w 12 5 rs1 g2, ← @fv_eq w 7 5 vd g1]; exact if_pos cc

theorem vssl (km : BitVec 3) (vs2 rs1 vs3 : BitVec 5) : Statement (.vssl km vs2 rs1 vs3) := by
  intro w hw _ _
  replace hw : 603979819 + km.toNat * 8388608 + vs2.toNat * 131072 + rs1.toNat * 4096 + vs3.toNat * 128 = w := Option.some.inj hw
  have ⟨g0, g1, g2, g3, g4, g5, g6⟩ := formV (w := w) (43) (vs3.toNat) (rs1.toNat) (vs2.toNat) (0) (km.toNat) (9) (by omega) (by decide) vs3.isLt rs1.isLt vs2.isLt (by decide) km.isLt (by decide)
  have cc : fld w 22 1 = 0 := g4
  rw [toVX g0, decodeVX, g6, ← @fv_eq w 23 3 km g5, ← @fv_eq w 17 5 vs2 g3, ← @fv_eq w 12 5 rs1 g2, ← @fv_eq w 7 5 vs3 g1]; exact if_pos cc

theorem vamoadd (km : BitVec 3) (old : Bool) (vs2 rs1 vd : BitVec 5) : Statement (.vamoadd km old vs2 rs1 vd) := by
  intro w hw _ _
  replace hw : 1073741867 + km.toNat * 8388608 + old.toNat * 4194304 + vs2.toNat * 131072 + rs1.toNat * 4096 + vd.toNat * 128 = w := Option.some.inj hw
  have ⟨g0, g1, g2, g3, g4, g5, g6⟩ := formV (w := w) (43) (vd.toNat) (rs1.toNat) (vs2.toNat) (old.toNat) (km.toNat) (16) (by omega) (by decide) vd.isLt rs1.isLt vs2.isLt old.toNat_lt km.isLt (by decide)
  rw [toVX g0, decodeVX, g6, ← @fv_eq w 23 3 km g5, ← @fbit_eq w 22 old g4, ← @fv_eq w 17 5 vs2 g3, ← @fv_eq w 12 5 rs1 g2, ← @fv_eq w 7 5 vd g1]; rfl

theorem vamomin (km : BitVec 3) (old : Bool) (vs2 rs1 vd : BitVec 5) : Statement (.vamomin km old vs2 rs1 vd) := by
  intro w hw _ _
  replace hw : 1140850731 + km.toNat * 8388608 + old.toNat * 4194304 + vs2.toNat * 131072 + rs1.toNat * 4096 + vd.toNat * 128 = w := Option.some.inj hw
  have ⟨g0, g1, g2, g3, g4, g5, g6⟩ := formV (w := w) (43) (vd.toNat) (rs1.toNat) (vs2.toNat) (old.toNat) (km.toNat) (17) (by omega) (by decide) vd.isLt rs1.isLt vs2.isLt old.toNat_lt km.isLt (by decide)
  rw [toVX g0, decodeVX, g6, ← @fv_eq w 23 3 km g5, ← @fbit_eq w 22 old g4, ← @fv_eq w 17 5 vs2 g3, ← @fv_eq w 12 5 rs1 g2, ← @fv_eq w 7 5 vd g1]; rfl

theorem vamomax (km : BitVec 3) (old : Bool) (vs2 rs1 vd : BitVec 5) : Statement (.vamomax km old vs2 rs1 vd) := by
  intro w hw _ _
  replace hw : 1207959595 + km.toNat * 8388608 + old.toNat * 4194304 + vs2.toNat * 131072 + rs1.toNat * 4096 + vd.toNat * 128 = w := Option.some.inj hw
  have ⟨g0, g1, g2, g3, g4, g5, g6⟩ := formV (w := w) (43) (vd.toNat) (rs1.toNat) (vs2.toNat) (old.toNat) (km.toNat) (18) (by omega) (by decide) vd.isLt rs1.isLt vs2.isLt old.toNat_lt km.isLt (by decide)
  rw [toVX g0, decodeVX, g6, ← @fv_eq w 23 3 km g5, ← @fbit_eq w 22 old g4, ← @fv_eq w 17 5 vs2 g3, ← @fv_eq w 12 5 rs1 g2, ← @fv_eq w 7 5 vd g1]; rfl

theorem vamoand (km : BitVec 3) (old : Bool) (vs2 rs1 vd : BitVec 5) : Statement (.vamoand km old vs2 rs1 vd) := by
  intro w hw _ _
  replace hw : 1275068459 + km.toNat * 8388608 + old.toNat * 4194304 + vs2.toNat * 131072 + rs1.toNat * 4096 + vd.toNat * 128 = w := Option.some.inj hw
  have ⟨g0, g1, g2, g3, g4, g5, g6⟩ := formV (w := w) (43) (vd.toNat) (rs1.toNat) (vs2.toNat) (old.toNat) (km.toNat) (19) (by omega) (by decide) vd.isLt rs1.isLt vs2.isLt old.toNat_lt km.isLt (by decide)
  rw [toVX g0, decodeVX, g6, ← @fv_eq w 23 3 km g5, ← @fbit_eq w 22 old g4, ← @fv_eq w 17 5 vs2 g3, ← @fv_eq w 12 5 rs1 g2, ← @fv_eq w 7 5 vd g1]; rfl

theorem vamoor (km : BitVec 3) (old : Bool) (vs2 rs1 vd : BitVec 5) : Statement (.vamoor km old vs2 rs1 vd) := by
  intro w hw _ _
  replace hw : 1342177323 + km.toNat * 8388608 + old.toNat * 4194304 + vs2.toNat * 131072 + rs1.toNat * 4096 + vd.toNat * 128 = w := Option.some.inj hw
  have ⟨g0, g1, g2, g3, g4, g5, g6⟩ := formV (w := w) (43) (vd.toNat) (rs1.toNat) (vs2.toNat) (old.toNat) (km.toNat) (20) (by omega) (by decide) vd.isLt rs1.isLt vs2.isLt old.toNat_lt km.isLt (by decide)
  rw [toVX g0, decodeVX, g6, ← @fv_eq w 23 3 km g5, ← @fbit_eq w 22 old g4, ← @fv_eq w 17 5 vs2 g3, ← @fv_eq w 12 5 rs1 g2, ← @fv_eq w 7 5 vd g1]; rfl

theorem vamoxor (km : BitVec 3) (old : Bool) (vs2 rs1 vd : BitVec 5) : Statement (.vamoxor km old vs2 rs1 vd) := by
  intro w hw _ _
  replace hw : 1409286187 + km.toNat * 8388608 + old.toNat * 4194304 + vs2.toNat * 131072 + rs1.toNat * 4096 + vd.toNat * 128 = w := Option.some.inj hw
  have ⟨g0, g1, g2, g3, g4, g5, g6⟩ := formV (w := w) (43) (vd.toNat) (rs1.toNat) (vs2.toNat) (old.toNat) (km.toNat) (21) (by omega) (by decide) vd.isLt rs1.isLt vs2.isLt old.toNat_lt km.isLt (by decide)
  rw [toVX g0, decodeVX, g6, ← @fv_eq w 23 3 km g5, ← @fbit_eq w 22 old g4, ← @fv_eq w 17 5 vs2 g3, ← @fv_eq w 12 5 rs1 g2, ← @fv_eq w 7 5 vd g1]; rfl

theorem vamoswp (km : BitVec 3) (old : Bool) (vs2 rs1 vd : BitVec 5) : Statement (.vamoswp km old vs2 rs1 vd) := by
  intro w hw _ _
  replace hw : 1476395051 + km.toNat * 8388608 + old.toNat * 4194304 + vs2.toNat * 131072 + rs1.toNat * 4096 + vd.toNat * 128 = w := Option.some.inj hw
  have ⟨g0, g1, g2, g3, g4, g5, g6⟩ := formV (w := w) (43) (vd.toNat) (rs1.toNat) (vs2.toNat) (old.toNat) (km.toNat) (22) (by omega) (by decide) vd.isLt rs1.isLt vs2.isLt old.toNat_lt km.isLt (by decide)
  rw [toVX g0, decodeVX, g6, ← @fv_eq w 23 3 km g5, ← @fbit_eq w 22 old g4, ← @fv_eq w 17 5 vs2 g3, ← @fv_eq w 12 5 rs1 g2, ← @fv_eq w 7 5 vd g1]; rfl

theorem vperm (km : BitVec 3) (vs2 vs1 vd : BitVec 5) : Statement (.vperm km vs2 vs1 vd) := by
  intro w hw _ _
  replace hw : 1610612779 + km.toNat * 8388608 + vs2.toNat * 131072 + vs1.toNat * 4096 + vd.toNat * 128 = w := Option.some.inj hw
  have ⟨g0, g1, g2, g3, g4, g5, g6⟩ := formV (w := w) (43) (vd.toNat) (vs1.toNat) (vs2.toNat) (0) (km.toNat) (24) (by omega) (by decide) vd.isLt vs1.isLt vs2.isLt (by decide) km.isLt (by decide)
  have cc : fld w 22 1 = 0 := g4
  rw [toVX g0, decodeVX, g6, ← @fv_eq w 23 3 km g5, ← @fv_eq w 17 5 vs2 g3, ← @fv_eq w 12 5 vs1 g2, ← @fv_eq w 7 5 vd g1]; exact if_pos cc

theorem vslup (km : BitVec 3) (rs2 vs1 vd : BitVec 5) : Statement (.vslup km rs2 vs1 vd) := by
  intro w hw _ _
  replace hw : 1677721643 + km.toNat * 8388608 + rs2.toNat * 131072 + vs1.toNat * 4096 + vd.toNat * 128 = w := Option.some.inj hw
  have ⟨g0, g1, g2, g3, g4, g5, g6⟩ := formV (w := w) (43) (vd.toNat) (vs1.toNat) (rs2.toNat) (0) (km.toNat) (25) (by omega) (by decide) vd.isLt vs1.isLt rs2.isLt (by decide) km.isLt (by decide)
  have cc : fld w 22 1 = 0 := g4
  rw [toVX g0, decodeVX, g6, ← @fv_eq w 23 3 km g5, ← @fv_eq w 17 5 rs2 g3, ← @fv_eq w 12 5 vs1 g2, ← @fv_eq w 7 5 vd g1]; exact if_pos cc

theorem vsldn (km : BitVec 3) (rs2 vs1 vd : BitVec 5) : Statement (.vsldn km rs2 vs1 vd) := by
  intro w hw _ _
  replace hw : 1744830507 + km.toNat * 8388608 + rs2.toNat * 131072 + vs1.toNat * 4096 + vd.toNat * 128 = w := Option.some.inj hw
  have ⟨g0, g1, g2, g3, g4, g5, g6⟩ := formV (w := w) (43) (vd.toNat) (vs1.toNat) (rs2.toNat) (0) (km.toNat) (26) (by omega) (by decide) vd.isLt vs1.isLt rs2.isLt (by decide) km.isLt (by decide)
  have cc : fld w 22 1 = 0 := g4
  rw [toVX g0, decodeVX, g6, ← @fv_eq w 23 3 km g5, ← @fv_eq w 17 5 rs2 g3, ← @fv_eq w 12 5 vs1 g2, ← @fv_eq w 7 5 vd g1]; exact if_pos cc

theorem vcomp (km : BitVec 3) (vs1 vd : BitVec 5) : Statement (.vcomp km vs1 vd) := by
  intro w hw _ _
  replace hw : 1811939371 + km.toNat * 8388608 + vs1.toNat * 4096 + vd.toNat * 128 = w := Option.some.inj hw
  have ⟨g0, g1, g2, g3, g4, g5, g6⟩ := formV (w := w) (43) (vd.toNat) (vs1.toNat) (0) (0) (km.toNat) (27) (by omega) (by decide) vd.isLt vs1.isLt (by decide) (by decide) km.isLt (by decide)
  have cc : fld w 17 6 = 0 := (join0 g3 g4)
  rw [toVX g0, decodeVX, g6, ← @fv_eq w 23 3 km g5, ← @fv_eq w 12 5 vs1 g2, ← @fv_eq w 7 5 vd g1]; exact if_pos cc

theorem vexpd (km : BitVec 3) (vs1 vd : BitVec 5) : Statement (.vexpd km vs1 vd) := by
  intro w hw _ _
  replace hw : 1879048235 + km.toNat * 8388608 + vs1.toNat * 4096 + vd.toNat * 128 = w := Option.some.inj hw
  have ⟨g0, g1, g2, g3, g4, g5, g6⟩ := formV (w := w) (43) (vd.toNat) (vs1.toNat) (0) (0) (km.toNat) (28) (by omega) (by decide) vd.isLt vs1.isLt (by decide) (by decide) km.isLt (by decide)
  have cc : fld w 17 6 = 0 := (join0 g3 g4)
  rw [toVX g0, decodeVX, g6, ← @fv_eq w 23 3 km g5, ← @fv_eq w 12 5 vs1 g2, ← @fv_eq w 7 5 vd g1]; exact if_pos cc

theorem vscan (km : BitVec 3) (vs1 vd : BitVec 5) : Statement (.vscan km vs1 vd) := by
  intro w hw _ _
  replace hw : 1946157099 + km.toNat * 8388608 + vs1.toNat * 4096 + vd.toNat * 128 = w := Option.some.inj hw
  have ⟨g0, g1, g2, g3, g4, g5, g6⟩ := formV (w := w) (43) (vd.toNat) (vs1.toNat) (0) (0) (km.toNat) (29) (by omega) (by decide) vd.isLt vs1.isLt (by decide) (by decide) km.isLt (by decide)
  have cc : fld w 17 6 = 0 := (join0 g3 g4)
  rw [toVX g0, decodeVX, g6, ← @fv_eq w 23 3 km g5, ← @fv_eq w 12 5 vs1 g2, ← @fv_eq w 7 5 vd g1]; exact if_pos cc

theorem vcex (km : BitVec 3) (vs2 vs1 vd : BitVec 5) : Statement (.vcex km vs2 vs1 vd) := by
  intro w hw _ _
  replace hw : 2013265963 + km.toNat * 8388608 + vs2.toNat * 131072 + vs1.toNat * 4096 + vd.toNat * 128 = w := Option.some.inj hw
  have ⟨g0, g1, g2, g3, g4, g5, g6⟩ := formV (w := w) (43) (vd.toNat) (vs1.toNat) (vs2.toNat) (0) (km.toNat) (30) (by omega) (by decide) vd.isLt vs1.isLt vs2.isLt (by decide) km.isLt (by decide)
  have cc : fld w 22 1 = 0 := g4
  rw [toVX g0, decodeVX, g6, ← @fv_eq w 23 3 km g5, ← @fv_eq w 17 5 vs2 g3, ← @fv_eq w 12 5 vs1 g2, ← @fv_eq w 7 5 vd g1]; exact if_pos cc

theorem vmrg (km : BitVec 3) (vs2 vs1 vd : BitVec 5) : Statement (.vmrg km vs2 vs1 vd) := by
  intro w hw _ _
  replace hw : 2080374827 + km.toNat * 8388608 + vs2.toNat * 131072 + vs1.toNat * 4096 + vd.toNat * 128 = w := Option.some.inj hw
  have ⟨g0, g1, g2, g3, g4, g5, g6⟩ := formV (w := w) (43) (vd.toNat) (vs1.toNat) (vs2.toNat) (0) (km.toNat) (31) (by omega) (by decide) vd.isLt vs1.isLt vs2.isLt (by decide) km.isLt (by decide)
  have cc : fld w 22 1 = 0 := g4
  rw [toVX g0, decodeVX, g6, ← @fv_eq w 23 3 km g5, ← @fv_eq w 17 5 vs2 g3, ← @fv_eq w 12 5 vs1 g2, ← @fv_eq w 7 5 vd g1]; exact if_pos cc

theorem vred (km : BitVec 3) (vs1 : BitVec 5) (ea : BitVec 3) : Statement (.vred km vs1 ea) := by
  intro w hw _ _
  replace hw : 2147483691 + km.toNat * 8388608 + vs1.toNat * 4096 + ea.toNat * 128 = w := Option.some.inj hw
  have ⟨g0, g1, g2, g3, g4, g5, g6⟩ := formV (w := w) (43) (ea.toNat) (vs1.toNat) (0) (0) (km.toNat) (32) (by omega) (by decide) (by have := ea.isLt; omega) vs1.isLt (by decide) (by decide) km.isLt (by decide)
  have cc : fld w 10 2 = 0 ∧ fld w 17 6 = 0 := ⟨(sub g1 3 2 (0) (by decide) (by have := ea.isLt; omega)), (join0 g3 g4)⟩
  rw [toVX g0, decodeVX, g6, ← @fv_eq w 23 3 km g5, ← @fv_eq w 12 5 vs1 g2, ← @fv_eq w 7 3 ea (sub g1 0 3 (ea.toNat) (by decide) (by have := ea.isLt; omega))]; exact if_pos cc

theorem vredmx (km : BitVec 3) (vs1 vd : BitVec 5) : Statement (.vredmx km vs1 vd) := by
  intro w hw _ _
  replace hw : 2214592555 + km.toNat * 8388608 + vs1.toNat * 4096 + vd.toNat * 128 = w := Option.some.inj hw
  have ⟨g0, g1, g2, g3, g4, g5, g6⟩ := formV (w := w) (43) (vd.toNat) (vs1.toNat) (0) (0) (km.toNat) (33) (by omega) (by decide) vd.isLt vs1.isLt (by decide) (by decide) km.isLt (by decide)
  have cc : fld w 17 6 = 0 := (join0 g3 g4)
  rw [toVX g0, decodeVX, g6, ← @fv_eq w 23 3 km g5, ← @fv_eq w 12 5 vs1 g2, ← @fv_eq w 7 5 vd g1]; exact if_pos cc

theorem vredmn (km : BitVec 3) (vs1 vd : BitVec 5) : Statement (.vredmn km vs1 vd) := by
  intro w hw _ _
  replace hw : 2281701419 + km.toNat * 8388608 + vs1.toNat * 4096 + vd.toNat * 128 = w := Option.some.inj hw
  have ⟨g0, g1, g2, g3, g4, g5, g6⟩ := formV (w := w) (43) (vd.toNat) (vs1.toNat) (0) (0) (km.toNat) (34) (by omega) (by decide) vd.isLt vs1.isLt (by decide) (by decide) km.isLt (by decide)
  have cc : fld w 17 6 = 0 := (join0 g3 g4)
  rw [toVX g0, decodeVX, g6, ← @fv_eq w 23 3 km g5, ← @fv_eq w 12 5 vs1 g2, ← @fv_eq w 7 5 vd g1]; exact if_pos cc

theorem vdot (km : BitVec 3) (vs2 vs1 : BitVec 5) (ea : BitVec 3) : Statement (.vdot km vs2 vs1 ea) := by
  intro w hw _ _
  replace hw : 2348810283 + km.toNat * 8388608 + vs2.toNat * 131072 + vs1.toNat * 4096 + ea.toNat * 128 = w := Option.some.inj hw
  have ⟨g0, g1, g2, g3, g4, g5, g6⟩ := formV (w := w) (43) (ea.toNat) (vs1.toNat) (vs2.toNat) (0) (km.toNat) (35) (by omega) (by decide) (by have := ea.isLt; omega) vs1.isLt vs2.isLt (by decide) km.isLt (by decide)
  have cc : fld w 10 2 = 0 ∧ fld w 22 1 = 0 := ⟨(sub g1 3 2 (0) (by decide) (by have := ea.isLt; omega)), g4⟩
  rw [toVX g0, decodeVX, g6, ← @fv_eq w 23 3 km g5, ← @fv_eq w 17 5 vs2 g3, ← @fv_eq w 12 5 vs1 g2, ← @fv_eq w 7 3 ea (sub g1 0 3 (ea.toNat) (by decide) (by have := ea.isLt; omega))]; exact if_pos cc

theorem eaclr (ea : BitVec 3) : Statement (.eaclr ea) := by
  intro w hw _ _
  replace hw : 2415919147 + ea.toNat * 128 = w := Option.some.inj hw
  have ⟨g0, g1, g2, g3, g4, g5, g6⟩ := formV (w := w) (43) (ea.toNat) (0) (0) (0) (0) (36) (by omega) (by decide) (by have := ea.isLt; omega) (by decide) (by decide) (by decide) (by decide) (by decide)
  have cc : fld w 10 16 = 0 := (join0 (join0 (join0 (join0 (sub g1 3 2 (0) (by decide) (by have := ea.isLt; omega)) g2) g3) g4) g5)
  rw [toVX g0, decodeVX, g6, ← @fv_eq w 7 3 ea (sub g1 0 3 (ea.toNat) (by decide) (by have := ea.isLt; omega))]; exact if_pos cc

theorem eard (ea : BitVec 3) (vd : BitVec 5) : Statement (.eard ea vd) := by
  intro w hw _ _
  replace hw : 2483028011 + ea.toNat * 4096 + vd.toNat * 128 = w := Option.some.inj hw
  have ⟨g0, g1, g2, g3, g4, g5, g6⟩ := formV (w := w) (43) (vd.toNat) (ea.toNat) (0) (0) (0) (37) (by omega) (by decide) vd.isLt (by have := ea.isLt; omega) (by decide) (by decide) (by decide) (by decide)
  have cc : fld w 15 11 = 0 := (join0 (join0 (join0 (sub g2 3 2 (0) (by decide) (by have := ea.isLt; omega)) g3) g4) g5)
  rw [toVX g0, decodeVX, g6, ← @fv_eq w 12 3 ea (sub g2 0 3 (ea.toNat) (by decide) (by have := ea.isLt; omega)), ← @fv_eq w 7 5 vd g1]; exact if_pos cc

theorem eamvLoad (rs1 : BitVec 5) (ea : BitVec 3) : Statement (.eamvLoad rs1 ea) := by
  intro w hw _ _
  replace hw : 2550136875 + rs1.toNat * 4096 + ea.toNat * 128 = w := Option.some.inj hw
  have ⟨g0, g1, g2, g3, g4, g5, g6⟩ := formV (w := w) (43) (ea.toNat) (rs1.toNat) (0) (0) (0) (38) (by omega) (by decide) (by have := ea.isLt; omega) rs1.isLt (by decide) (by decide) (by decide) (by decide)
  have cc : fld w 10 2 = 0 ∧ fld w 17 5 = 0 ∧ fld w 23 3 = 0 := ⟨(sub g1 3 2 (0) (by decide) (by have := ea.isLt; omega)), g3, g5⟩
  rw [toVX g0, decodeVX, g6, ← @fv_eq w 12 5 rs1 g2, ← @fv_eq w 7 3 ea (sub g1 0 3 (ea.toNat) (by decide) (by have := ea.isLt; omega))]; exact (if_neg (by simp [fbit, fld] at g4 ⊢; omega)).trans (if_pos cc)

theorem eamvStore (rs1 : BitVec 5) (ea : BitVec 3) : Statement (.eamvStore rs1 ea) := by
  intro w hw _ _
  replace hw : 2554331179 + rs1.toNat * 4096 + ea.toNat * 128 = w := Option.some.inj hw
  have ⟨g0, g1, g2, g3, g4, g5, g6⟩ := formV (w := w) (43) (ea.toNat) (rs1.toNat) (0) (1) (0) (38) (by omega) (by decide) (by have := ea.isLt; omega) rs1.isLt (by decide) (by decide) (by decide) (by decide)
  have cc : fld w 10 2 = 0 ∧ fld w 17 5 = 0 ∧ fld w 23 3 = 0 := ⟨(sub g1 3 2 (0) (by decide) (by have := ea.isLt; omega)), g3, g5⟩
  rw [toVX g0, decodeVX, g6, ← @fv_eq w 12 5 rs1 g2, ← @fv_eq w 7 3 ea (sub g1 0 3 (ea.toNat) (by decide) (by have := ea.isLt; omega))]; exact (if_pos (by simp [fbit, fld] at g4 ⊢; omega)).trans (if_pos cc)

theorem mma (mc ma mb : BitVec 3) : Statement (.mma mc ma mb) := by
  intro w hw _ _
  replace hw : 91 + mc.toNat * 8388608 + ma.toNat * 524288 + mb.toNat * 32768 = w := Option.some.inj hw
  have ⟨g0, g1, g2, g3, g4, g5, g6, g7, g8, g9⟩ := formM (w := w) (91) (0) (0) (mb.toNat) (0) (ma.toNat) (0) (mc.toNat) (0) (0) (by omega) (by decide) (by decide) (by decide) mb.isLt (by decide) ma.isLt (by decide) mc.isLt (by decide) (by decide)
  have cc : fld w 7 5 = 0 ∧ fld w 18 1 = 0 ∧ fld w 22 1 = 0 ∧ fld w 26 1 = 0 := ⟨g1, g4, g6, g8⟩
  rw [toTT0 g0 g2, decodeTT0, g9, ← @fv_eq w 23 3 mc g7, ← @fv_eq w 19 3 ma g5, ← @fv_eq w 15 3 mb g3]; exact if_pos cc

theorem mmasp (mc ma mb : BitVec 3) (v : BitVec 5) : Statement (.mmasp mc ma mb v) := by
  intro w hw _ _
  replace hw : 134217819 + mc.toNat * 8388608 + ma.toNat * 524288 + mb.toNat * 32768 + v.toNat * 128 = w := Option.some.inj hw
  have ⟨g0, g1, g2, g3, g4, g5, g6, g7, g8, g9⟩ := formM (w := w) (91) (v.toNat) (0) (mb.toNat) (0) (ma.toNat) (0) (mc.toNat) (0) (1) (by omega) (by decide) v.isLt (by decide) mb.isLt (by decide) ma.isLt (by decide) mc.isLt (by decide) (by decide)
  have cc : fld w 18 1 = 0 ∧ fld w 22 1 = 0 ∧ fld w 26 1 = 0 := ⟨g4, g6, g8⟩
  rw [toTT0 g0 g2, decodeTT0, g9, ← @fv_eq w 23 3 mc g7, ← @fv_eq w 19 3 ma g5, ← @fv_eq w 15 3 mb g3, ← @fv_eq w 7 5 v g1]; exact if_pos cc

theorem mmack (mc ma mb : BitVec 3) (v : BitVec 5) : Statement (.mmack mc ma mb v) := by
  intro w hw _ _
  replace hw : 268435547 + mc.toNat * 8388608 + ma.toNat * 524288 + mb.toNat * 32768 + v.toNat * 128 = w := Option.some.inj hw
  have ⟨g0, g1, g2, g3, g4, g5, g6, g7, g8, g9⟩ := formM (w := w) (91) (v.toNat) (0) (mb.toNat) (0) (ma.toNat) (0) (mc.toNat) (0) (2) (by omega) (by decide) v.isLt (by decide) mb.isLt (by decide) ma.isLt (by decide) mc.isLt (by decide) (by decide)
  have cc : fld w 18 1 = 0 ∧ fld w 22 1 = 0 ∧ fld w 26 1 = 0 := ⟨g4, g6, g8⟩
  rw [toTT0 g0 g2, decodeTT0, g9, ← @fv_eq w 23 3 mc g7, ← @fv_eq w 19 3 ma g5, ← @fv_eq w 15 3 mb g3, ← @fv_eq w 7 5 v g1]; exact if_pos cc

theorem tzero (mc : BitVec 3) : Statement (.tzero mc) := by
  intro w hw _ _
  replace hw : 4187 + mc.toNat * 8388608 = w := Option.some.inj hw
  have ⟨g0, g1, g2, g3, g4, g5, g6, g7, g8, g9⟩ := formM (w := w) (91) (0) (1) (0) (0) (0) (0) (mc.toNat) (0) (0) (by omega) (by decide) (by decide) (by decide) (by decide) (by decide) (by decide) (by decide) mc.isLt (by decide) (by decide)
  have cc : fld w 7 5 = 0 ∧ fld w 15 8 = 0 ∧ fld w 26 1 = 0 := ⟨g1, (join0 (join0 (join0 g3 g4) g5) g6), g8⟩
  rw [toTT1 g0 g2, decodeTT1, g9, ← @fv_eq w 23 3 mc g7]; exact if_pos cc

theorem tmv (mc ma : BitVec 3) : Statement (.tmv mc ma) := by
  intro w hw _ _
  replace hw : 134221915 + mc.toNat * 8388608 + ma.toNat * 524288 = w := Option.some.inj hw
  have ⟨g0, g1, g2, g3, g4, g5, g6, g7, g8, g9⟩ := formM (w := w) (91) (0) (1) (0) (0) (ma.toNat) (0) (mc.toNat) (0) (1) (by omega) (by decide) (by decide) (by decide) (by decide) (by decide) ma.isLt (by decide) mc.isLt (by decide) (by decide)
  have cc : fld w 7 5 = 0 ∧ fld w 15 4 = 0 ∧ fld w 22 1 = 0 ∧ fld w 26 1 = 0 := ⟨g1, (join0 g3 g4), g6, g8⟩
  rw [toTT1 g0 g2, decodeTT1, g9, ← @fv_eq w 23 3 mc g7, ← @fv_eq w 19 3 ma g5]; exact if_pos cc

theorem tcvt (mc ma : BitVec 3) : Statement (.tcvt mc ma) := by
  intro w hw _ _
  replace hw : 268439643 + mc.toNat * 8388608 + ma.toNat * 524288 = w := Option.some.inj hw
  have ⟨g0, g1, g2, g3, g4, g5, g6, g7, g8, g9⟩ := formM (w := w) (91) (0) (1) (0) (0) (ma.toNat) (0) (mc.toNat) (0) (2) (by omega) (by decide) (by decide) (by decide) (by decide) (by decide) ma.isLt (by decide) mc.isLt (by decide) (by decide)
  have cc : fld w 7 5 = 0 ∧ fld w 15 4 = 0 ∧ fld w 22 1 = 0 ∧ fld w 26 1 = 0 := ⟨g1, (join0 g3 g4), g6, g8⟩
  rw [toTT1 g0 g2, decodeTT1, g9, ← @fv_eq w 23 3 mc g7, ← @fv_eq w 19 3 ma g5]; exact if_pos cc

theorem tadd (mc ma mb : BitVec 3) : Statement (.tadd mc ma mb) := by
  intro w hw _ _
  replace hw : 402657371 + mc.toNat * 8388608 + ma.toNat * 524288 + mb.toNat * 32768 = w := Option.some.inj hw
  have ⟨g0, g1, g2, g3, g4, g5, g6, g7, g8, g9⟩ := formM (w := w) (91) (0) (1) (mb.toNat) (0) (ma.toNat) (0) (mc.toNat) (0) (3) (by omega) (by decide) (by decide) (by decide) mb.isLt (by decide) ma.isLt (by decide) mc.isLt (by decide) (by decide)
  have cc : fld w 7 5 = 0 ∧ fld w 18 1 = 0 ∧ fld w 22 1 = 0 ∧ fld w 26 1 = 0 := ⟨g1, g4, g6, g8⟩
  rw [toTT1 g0 g2, decodeTT1, g9, ← @fv_eq w 23 3 mc g7, ← @fv_eq w 19 3 ma g5, ← @fv_eq w 15 3 mb g3]; exact if_pos cc

theorem tscale (mc ma : BitVec 3) (rs : BitVec 5) : Statement (.tscale mc ma rs) := by
  intro w hw _ _
  replace hw : 536875099 + mc.toNat * 8388608 + ma.toNat * 524288 + rs.toNat * 128 = w := Option.some.inj hw
  have ⟨g0, g1, g2, g3, g4, g5, g6, g7, g8, g9⟩ := formM (w := w) (91) (rs.toNat) (1) (0) (0) (ma.toNat) (0) (mc.toNat) (0) (4) (by omega) (by decide) rs.isLt (by decide) (by decide) (by decide) ma.isLt (by decide) mc.isLt (by decide) (by decide)
  have cc : fld w 15 4 = 0 ∧ fld w 22 1 = 0 ∧ fld w 26 1 = 0 := ⟨(join0 g3 g4), g6, g8⟩
  rw [toTT1 g0 g2, decodeTT1, g9, ← @fv_eq w 23 3 mc g7, ← @fv_eq w 19 3 ma g5, ← @fv_eq w 7 5 rs g1]; exact if_pos cc

theorem tsum (ma : BitVec 3) (v : BitVec 5) : Statement (.tsum ma v) := by
  intro w hw _ _
  replace hw : 671092827 + ma.toNat * 524288 + v.toNat * 128 = w := Option.some.inj hw
  have ⟨g0, g1, g2, g3, g4, g5, g6, g7, g8, g9⟩ := formM (w := w) (91) (v.toNat) (1) (0) (0) (ma.toNat) (0) (0) (0) (5) (by omega) (by decide) v.isLt (by decide) (by decide) (by decide) ma.isLt (by decide) (by decide) (by decide) (by decide)
  have cc : fld w 15 4 = 0 ∧ fld w 22 5 = 0 := ⟨(join0 g3 g4), (join0 (join0 g6 g7) g8)⟩
  rw [toTT1 g0 g2, decodeTT1, g9, ← @fv_eq w 19 3 ma g5, ← @fv_eq w 7 5 v g1]; exact if_pos cc

theorem tld (md : BitVec 3) (rs2 rs1 : BitVec 5) : Statement (.tld md rs2 rs1) := by
  intro w hw _ _
  replace hw : 16475 + md.toNat * 1048576 + rs2.toNat * 32768 + rs1.toNat * 128 = w := Option.some.inj hw
  have ⟨g0, g1, g2, g3, g4, g5, g6⟩ := formL (w := w) (91) (rs1.toNat) (4) (rs2.toNat) (md.toNat) (0) (0) (by omega) (by decide) rs1.isLt (by decide) rs2.isLt md.isLt (by decide) (by decide)
  have cc : fld w 23 1 = 0 := g5
  rw [toTL g0 g2, decodeTL, g6, ← @fv_eq w 20 3 md g4, ← @fv_eq w 15 5 rs2 g3, ← @fv_eq w 7 5 rs1 g1]; exact if_pos cc

theorem tst (md : BitVec 3) (rs2 rs1 : BitVec 5) : Statement (.tst md rs2 rs1) := by
  intro w hw _ _
  replace hw : 16793691 + md.toNat * 1048576 + rs2.toNat * 32768 + rs1.toNat * 128 = w := Option.some.inj hw
  have ⟨g0, g1, g2, g3, g4, g5, g6⟩ := formL (w := w) (91) (rs1.toNat) (4) (rs2.toNat) (md.toNat) (0) (1) (by omega) (by decide) rs1.isLt (by decide) rs2.isLt md.isLt (by decide) (by decide)
  have cc : fld w 23 1 = 0 := g5
  rw [toTL g0 g2, decodeTL, g6, ← @fv_eq w 20 3 md g4, ← @fv_eq w 15 5 rs2 g3, ← @fv_eq w 7 5 rs1 g1]; exact if_pos cc

theorem ttov (md : BitVec 3) (v rs1 : BitVec 5) : Statement (.ttov md v rs1) := by
  intro w hw _ _
  replace hw : 33570907 + md.toNat * 1048576 + v.toNat * 32768 + rs1.toNat * 128 = w := Option.some.inj hw
  have ⟨g0, g1, g2, g3, g4, g5, g6⟩ := formL (w := w) (91) (rs1.toNat) (4) (v.toNat) (md.toNat) (0) (2) (by omega) (by decide) rs1.isLt (by decide) v.isLt md.isLt (by decide) (by decide)
  have cc : fld w 23 1 = 0 := g5
  rw [toTL g0 g2, decodeTL, g6, ← @fv_eq w 20 3 md g4, ← @fv_eq w 15 5 v g3, ← @fv_eq w 7 5 rs1 g1]; exact if_pos cc

theorem vtot (md : BitVec 3) (v rs1 : BitVec 5) : Statement (.vtot md v rs1) := by
  intro w hw _ _
  replace hw : 50348123 + md.toNat * 1048576 + v.toNat * 32768 + rs1.toNat * 128 = w := Option.some.inj hw
  have ⟨g0, g1, g2, g3, g4, g5, g6⟩ := formL (w := w) (91) (rs1.toNat) (4) (v.toNat) (md.toNat) (0) (3) (by omega) (by decide) rs1.isLt (by decide) v.isLt md.isLt (by decide) (by decide)
  have cc : fld w 23 1 = 0 := g5
  rw [toTL g0 g2, decodeTL, g6, ← @fv_eq w 20 3 md g4, ← @fv_eq w 15 5 v g3, ← @fv_eq w 7 5 rs1 g1]; exact if_pos cc

theorem tgetsh (md : BitVec 3) (rd : BitVec 5) : Statement (.tgetsh md rd) := by
  intro w hw _ _
  replace hw : 67129435 + md.toNat * 32768 + rd.toNat * 128 = w := Option.some.inj hw
  have ⟨g0, g1, g2, g3, g4, g5⟩ := formT (w := w) (91) (rd.toNat) (5) (md.toNat) (0) (2) (by omega) (by decide) rd.isLt (by decide) (by have := md.isLt; omega) (by decide) (by decide)
  have cc : fld w 18 7 = 0 := (join0 (sub g3 3 2 (0) (by decide) (by have := md.isLt; omega)) g4)
  rw [toShape g0 g2, decodeShape, g5, ← @fv_eq w 15 3 md (sub g3 0 3 (md.toNat) (by decide) (by have := md.isLt; omega)), ← @fv_eq w 7 5 rd g1]; exact if_pos cc

theorem chcfg (rs1 : BitVec 5) (c : BitVec 2) : Statement (.chcfg rs1 c) := by
  intro w hw _ _
  replace hw : 123 + rs1.toNat * 32768 + c.toNat * 128 = w := Option.some.inj hw
  have ⟨g0, g1, g2, g3, g4, g5⟩ := formT (w := w) (123) (c.toNat) (0) (rs1.toNat) (0) (0) (by omega) (by decide) (by have := c.isLt; omega) (by decide) rs1.isLt (by decide) (by decide)
  have cc : fld w 9 3 = 0 ∧ fld w 20 5 = 0 := ⟨(sub g1 2 3 (0) (by decide) (by have := c.isLt; omega)), g4⟩
  rw [toSY0 g0 g2, decodeSY0, g5, ← @fv_eq w 15 5 rs1 g3, ← @fv_eq w 7 2 c (sub g1 0 2 (c.toNat) (by decide) (by have := c.isLt; omega))]; exact if_pos cc

theorem chrun (rs1 : BitVec 5) (c : BitVec 2) : Statement (.chrun rs1 c) := by
  intro w hw _ _
  replace hw : 33554555 + rs1.toNat * 32768 + c.toNat * 128 = w := Option.some.inj hw
  have ⟨g0, g1, g2, g3, g4, g5⟩ := formT (w := w) (123) (c.toNat) (0) (rs1.toNat) (0) (1) (by omega) (by decide) (by have := c.isLt; omega) (by decide) rs1.isLt (by decide) (by decide)
  have cc : fld w 9 3 = 0 ∧ fld w 20 5 = 0 := ⟨(sub g1 2 3 (0) (by decide) (by have := c.isLt; omega)), g4⟩
  rw [toSY0 g0 g2, decodeSY0, g5, ← @fv_eq w 15 5 rs1 g3, ← @fv_eq w 7 2 c (sub g1 0 2 (c.toNat) (by decide) (by have := c.isLt; omega))]; exact if_pos cc

theorem chwait (rs2 : BitVec 5) (c : BitVec 2) (rd : BitVec 5) : Statement (.chwait rs2 c rd) := by
  intro w hw _ _
  replace hw : 67108987 + rs2.toNat * 1048576 + c.toNat * 32768 + rd.toNat * 128 = w := Option.some.inj hw
  have ⟨g0, g1, g2, g3, g4, g5⟩ := formT (w := w) (123) (rd.toNat) (0) (c.toNat) (rs2.toNat) (2) (by omega) (by decide) rd.isLt (by decide) (by have := c.isLt; omega) rs2.isLt (by decide)
  have cc : fld w 17 3 = 0 := (sub g3 2 3 (0) (by decide) (by have := c.isLt; omega))
  rw [toSY0 g0 g2, decodeSY0, g5, ← @fv_eq w 20 5 rs2 g4, ← @fv_eq w 15 2 c (sub g3 0 2 (c.toNat) (by decide) (by have := c.isLt; omega)), ← @fv_eq w 7 5 rd g1]; exact if_pos cc

theorem chbrk (c : BitVec 2) : Statement (.chbrk c) := by
  intro w hw _ _
  replace hw : 100663419 + c.toNat * 128 = w := Option.some.inj hw
  have ⟨g0, g1, g2, g3, g4, g5⟩ := formT (w := w) (123) (c.toNat) (0) (0) (0) (3) (by omega) (by decide) (by have := c.isLt; omega) (by decide) (by decide) (by decide) (by decide)
  have cc : fld w 9 3 = 0 ∧ fld w 15 10 = 0 := ⟨(sub g1 2 3 (0) (by decide) (by have := c.isLt; omega)), (join0 g3 g4)⟩
  rw [toSY0 g0 g2, decodeSY0, g5, ← @fv_eq w 7 2 c (sub g1 0 2 (c.toNat) (by decide) (by have := c.isLt; omega))]; exact if_pos cc

theorem chres (c : BitVec 2) : Statement (.chres c) := by
  intro w hw _ _
  replace hw : 134217851 + c.toNat * 128 = w := Option.some.inj hw
  have ⟨g0, g1, g2, g3, g4, g5⟩ := formT (w := w) (123) (c.toNat) (0) (0) (0) (4) (by omega) (by decide) (by have := c.isLt; omega) (by decide) (by decide) (by decide) (by decide)
  have cc : fld w 9 3 = 0 ∧ fld w 15 10 = 0 := ⟨(sub g1 2 3 (0) (by decide) (by have := c.isLt; omega)), (join0 g3 g4)⟩
  rw [toSY0 g0 g2, decodeSY0, g5, ← @fv_eq w 7 2 c (sub g1 0 2 (c.toNat) (by decide) (by have := c.isLt; omega))]; exact if_pos cc

theorem chstat (rs2 : BitVec 5) (c : BitVec 2) (rd : BitVec 5) : Statement (.chstat rs2 c rd) := by
  intro w hw _ _
  replace hw : 167772283 + rs2.toNat * 1048576 + c.toNat * 32768 + rd.toNat * 128 = w := Option.some.inj hw
  have ⟨g0, g1, g2, g3, g4, g5⟩ := formT (w := w) (123) (rd.toNat) (0) (c.toNat) (rs2.toNat) (5) (by omega) (by decide) rd.isLt (by decide) (by have := c.isLt; omega) rs2.isLt (by decide)
  have cc : fld w 17 3 = 0 := (sub g3 2 3 (0) (by decide) (by have := c.isLt; omega))
  rw [toSY0 g0 g2, decodeSY0, g5, ← @fv_eq w 20 5 rs2 g4, ← @fv_eq w 15 2 c (sub g3 0 2 (c.toNat) (by decide) (by have := c.isLt; omega)), ← @fv_eq w 7 5 rd g1]; exact if_pos cc

theorem chfree (c : BitVec 2) : Statement (.chfree c) := by
  intro w hw _ _
  replace hw : 201326715 + c.toNat * 128 = w := Option.some.inj hw
  have ⟨g0, g1, g2, g3, g4, g5⟩ := formT (w := w) (123) (c.toNat) (0) (0) (0) (6) (by omega) (by decide) (by have := c.isLt; omega) (by decide) (by decide) (by decide) (by decide)
  have cc : fld w 9 3 = 0 ∧ fld w 15 10 = 0 := ⟨(sub g1 2 3 (0) (by decide) (by have := c.isLt; omega)), (join0 g3 g4)⟩
  rw [toSY0 g0 g2, decodeSY0, g5, ← @fv_eq w 7 2 c (sub g1 0 2 (c.toNat) (by decide) (by have := c.isLt; omega))]; exact if_pos cc

theorem chsave (rs1 : BitVec 5) (c : BitVec 2) : Statement (.chsave rs1 c) := by
  intro w hw _ _
  replace hw : 234881147 + rs1.toNat * 32768 + c.toNat * 128 = w := Option.some.inj hw
  have ⟨g0, g1, g2, g3, g4, g5⟩ := formT (w := w) (123) (c.toNat) (0) (rs1.toNat) (0) (7) (by omega) (by decide) (by have := c.isLt; omega) (by decide) rs1.isLt (by decide) (by decide)
  have cc : fld w 9 3 = 0 ∧ fld w 20 5 = 0 := ⟨(sub g1 2 3 (0) (by decide) (by have := c.isLt; omega)), g4⟩
  rw [toSY0 g0 g2, decodeSY0, g5, ← @fv_eq w 15 5 rs1 g3, ← @fv_eq w 7 2 c (sub g1 0 2 (c.toNat) (by decide) (by have := c.isLt; omega))]; exact if_pos cc

theorem chload (rs1 : BitVec 5) (c : BitVec 2) : Statement (.chload rs1 c) := by
  intro w hw _ _
  replace hw : 268435579 + rs1.toNat * 32768 + c.toNat * 128 = w := Option.some.inj hw
  have ⟨g0, g1, g2, g3, g4, g5⟩ := formT (w := w) (123) (c.toNat) (0) (rs1.toNat) (0) (8) (by omega) (by decide) (by have := c.isLt; omega) (by decide) rs1.isLt (by decide) (by decide)
  have cc : fld w 9 3 = 0 ∧ fld w 20 5 = 0 := ⟨(sub g1 2 3 (0) (by decide) (by have := c.isLt; omega)), g4⟩
  rw [toSY0 g0 g2, decodeSY0, g5, ← @fv_eq w 15 5 rs1 g3, ← @fv_eq w 7 2 c (sub g1 0 2 (c.toNat) (by decide) (by have := c.isLt; omega))]; exact if_pos cc

theorem tlwait (tl : BitVec 2) (rs2 rs1 rd : BitVec 5) : Statement (.tlwait tl rs2 rs1 rd) := by
  intro w hw _ _
  replace hw : 4219 + tl.toNat * 33554432 + rs2.toNat * 1048576 + rs1.toNat * 32768 + rd.toNat * 128 = w := Option.some.inj hw
  have ⟨g0, g1, g2, g3, g4, g5⟩ := formT (w := w) (123) (rd.toNat) (1) (rs1.toNat) (rs2.toNat) (tl.toNat) (by omega) (by decide) rd.isLt (by decide) rs1.isLt rs2.isLt (by have := tl.isLt; omega)
  have e : fld w 25 7 = 0 ∨ fld w 25 7 = 1 ∨ fld w 25 7 = 2 ∨ fld w 25 7 = 3 := by have := tl.isLt; omega
  rw [toSY1 g0 g2, decodeSY1, ← @fv_eq w 25 2 tl (sub g5 0 2 (tl.toNat) (by decide) (by have := tl.isLt; omega)), ← @fv_eq w 20 5 rs2 g4, ← @fv_eq w 15 5 rs1 g3, ← @fv_eq w 7 5 rd g1]
  rcases e with e|e|e|e <;> rw [e] <;> rfl

theorem tlnow (tl : BitVec 2) (rd : BitVec 5) : Statement (.tlnow tl rd) := by
  intro w hw _ _
  replace hw : 134221947 + tl.toNat * 33554432 + rd.toNat * 128 = w := Option.some.inj hw
  have ⟨g0, g1, g2, g3, g4, g5⟩ := formT (w := w) (123) (rd.toNat) (1) (0) (0) (4 + tl.toNat) (by omega) (by decide) rd.isLt (by decide) (by decide) (by decide) (by have := tl.isLt; omega)
  have cc : fld w 15 10 = 0 := (join0 g3 g4)
  have e : fld w 25 7 = 4 ∨ fld w 25 7 = 5 ∨ fld w 25 7 = 6 ∨ fld w 25 7 = 7 := by have := tl.isLt; omega
  rw [toSY1 g0 g2, decodeSY1, ← @fv_eq w 25 2 tl (sub g5 0 2 (tl.toNat) (by decide) (by have := tl.isLt; omega)), ← @fv_eq w 7 5 rd g1]
  rcases e with e|e|e|e <;> rw [e] <;> exact if_pos cc

theorem wflag (ge : Bool) (rs2 rs1 rd : BitVec 5) : Statement (.wflag ge rs2 rs1 rd) := by
  intro w hw _ _
  replace hw : 268439675 + ge.toNat * 33554432 + rs2.toNat * 1048576 + rs1.toNat * 32768 + rd.toNat * 128 = w := Option.some.inj hw
  have ⟨g0, g1, g2, g3, g4, g5⟩ := formT (w := w) (123) (rd.toNat) (1) (rs1.toNat) (rs2.toNat) (8 + ge.toNat) (by omega) (by decide) rd.isLt (by decide) rs1.isLt rs2.isLt (by have := ge.toNat_le; omega)
  have e : fld w 25 7 = 8 ∨ fld w 25 7 = 9 := by have := ge.toNat_le; omega
  rw [toSY1 g0 g2, decodeSY1, ← @fbit_eq w 25 ge (sub g5 0 1 (ge.toNat) (by decide) (by have := ge.toNat_le; omega)), ← @fv_eq w 20 5 rs2 g4, ← @fv_eq w 15 5 rs1 g3, ← @fv_eq w 7 5 rd g1]
  rcases e with e|e <;> rw [e] <;> rfl

theorem rlnew (rs1 rd : BitVec 5) : Statement (.rlnew rs1 rd) := by
  intro w hw _ _
  replace hw : 8315 + rs1.toNat * 32768 + rd.toNat * 128 = w := Option.some.inj hw
  have ⟨g0, g1, g2, g3, g4, g5⟩ := formT (w := w) (123) (rd.toNat) (2) (rs1.toNat) (0) (0) (by omega) (by decide) rd.isLt (by decide) rs1.isLt (by decide) (by decide)
  have cc : fld w 20 5 = 0 := g4
  rw [toSY2 g0 g2, decodeSY2, g5, ← @fv_eq w 15 5 rs1 g3, ← @fv_eq w 7 5 rd g1]; exact if_pos cc

theorem rljoin (rs1 rd : BitVec 5) : Statement (.rljoin rs1 rd) := by
  intro w hw _ _
  replace hw : 33562747 + rs1.toNat * 32768 + rd.toNat * 128 = w := Option.some.inj hw
  have ⟨g0, g1, g2, g3, g4, g5⟩ := formT (w := w) (123) (rd.toNat) (2) (rs1.toNat) (0) (1) (by omega) (by decide) rd.isLt (by decide) rs1.isLt (by decide) (by decide)
  have cc : fld w 20 5 = 0 := g4
  rw [toSY2 g0 g2, decodeSY2, g5, ← @fv_eq w 15 5 rs1 g3, ← @fv_eq w 7 5 rd g1]; exact if_pos cc

theorem rlleave (rs1 rd : BitVec 5) : Statement (.rlleave rs1 rd) := by
  intro w hw _ _
  replace hw : 67117179 + rs1.toNat * 32768 + rd.toNat * 128 = w := Option.some.inj hw
  have ⟨g0, g1, g2, g3, g4, g5⟩ := formT (w := w) (123) (rd.toNat) (2) (rs1.toNat) (0) (2) (by omega) (by decide) rd.isLt (by decide) rs1.isLt (by decide) (by decide)
  have cc : fld w 20 5 = 0 := g4
  rw [toSY2 g0 g2, decodeSY2, g5, ← @fv_eq w 15 5 rs1 g3, ← @fv_eq w 7 5 rd g1]; exact if_pos cc

theorem rlfree (rs1 rd : BitVec 5) : Statement (.rlfree rs1 rd) := by
  intro w hw _ _
  replace hw : 100671611 + rs1.toNat * 32768 + rd.toNat * 128 = w := Option.some.inj hw
  have ⟨g0, g1, g2, g3, g4, g5⟩ := formT (w := w) (123) (rd.toNat) (2) (rs1.toNat) (0) (3) (by omega) (by decide) rd.isLt (by decide) rs1.isLt (by decide) (by decide)
  have cc : fld w 20 5 = 0 := g4
  rw [toSY2 g0 g2, decodeSY2, g5, ← @fv_eq w 15 5 rs1 g3, ← @fv_eq w 7 5 rd g1]; exact if_pos cc

theorem rlarr (rs1 rd : BitVec 5) : Statement (.rlarr rs1 rd) := by
  intro w hw _ _
  replace hw : 134226043 + rs1.toNat * 32768 + rd.toNat * 128 = w := Option.some.inj hw
  have ⟨g0, g1, g2, g3, g4, g5⟩ := formT (w := w) (123) (rd.toNat) (2) (rs1.toNat) (0) (4) (by omega) (by decide) rd.isLt (by decide) rs1.isLt (by decide) (by decide)
  have cc : fld w 20 5 = 0 := g4
  rw [toSY2 g0 g2, decodeSY2, g5, ← @fv_eq w 15 5 rs1 g3, ← @fv_eq w 7 5 rd g1]; exact if_pos cc

theorem rlwait (rs2 rs1 rd : BitVec 5) : Statement (.rlwait rs2 rs1 rd) := by
  intro w hw _ _
  replace hw : 167780475 + rs2.toNat * 1048576 + rs1.toNat * 32768 + rd.toNat * 128 = w := Option.some.inj hw
  have ⟨g0, g1, g2, g3, g4, g5⟩ := formT (w := w) (123) (rd.toNat) (2) (rs1.toNat) (rs2.toNat) (5) (by omega) (by decide) rd.isLt (by decide) rs1.isLt rs2.isLt (by decide)
  rw [toSY2 g0 g2, decodeSY2, g5, ← @fv_eq w 20 5 rs2 g4, ← @fv_eq w 15 5 rs1 g3, ← @fv_eq w 7 5 rd g1]; rfl

theorem rlbar (rs2 rs1 rd : BitVec 5) : Statement (.rlbar rs2 rs1 rd) := by
  intro w hw _ _
  replace hw : 201334907 + rs2.toNat * 1048576 + rs1.toNat * 32768 + rd.toNat * 128 = w := Option.some.inj hw
  have ⟨g0, g1, g2, g3, g4, g5⟩ := formT (w := w) (123) (rd.toNat) (2) (rs1.toNat) (rs2.toNat) (6) (by omega) (by decide) rd.isLt (by decide) rs1.isLt rs2.isLt (by decide)
  rw [toSY2 g0 g2, decodeSY2, g5, ← @fv_eq w 20 5 rs2 g4, ← @fv_eq w 15 5 rs1 g3, ← @fv_eq w 7 5 rd g1]; rfl

theorem ecopy (tl : BitVec 2) (rs2 rs1 rd : BitVec 5) : Statement (.ecopy tl rs2 rs1 rd) := by
  intro w hw _ _
  replace hw : 12411 + tl.toNat * 33554432 + rs2.toNat * 1048576 + rs1.toNat * 32768 + rd.toNat * 128 = w := Option.some.inj hw
  have ⟨g0, g1, g2, g3, g4, g5⟩ := formT (w := w) (123) (rd.toNat) (3) (rs1.toNat) (rs2.toNat) (tl.toNat) (by omega) (by decide) rd.isLt (by decide) rs1.isLt rs2.isLt (by have := tl.isLt; omega)
  have e : fld w 25 7 = 0 ∨ fld w 25 7 = 1 ∨ fld w 25 7 = 2 ∨ fld w 25 7 = 3 := by have := tl.isLt; omega
  rw [toSY3 g0 g2, decodeSY3, ← @fv_eq w 25 2 tl (sub g5 0 2 (tl.toNat) (by decide) (by have := tl.isLt; omega)), ← @fv_eq w 20 5 rs2 g4, ← @fv_eq w 15 5 rs1 g3, ← @fv_eq w 7 5 rd g1]
  rcases e with e|e|e|e <;> rw [e] <;> rfl

theorem egth (tl : BitVec 2) (rs2 rs1 rd : BitVec 5) : Statement (.egth tl rs2 rs1 rd) := by
  intro w hw _ _
  replace hw : 134230139 + tl.toNat * 33554432 + rs2.toNat * 1048576 + rs1.toNat * 32768 + rd.toNat * 128 = w := Option.some.inj hw
  have ⟨g0, g1, g2, g3, g4, g5⟩ := formT (w := w) (123) (rd.toNat) (3) (rs1.toNat) (rs2.toNat) (4 + tl.toNat) (by omega) (by decide) rd.isLt (by decide) rs1.isLt rs2.isLt (by have := tl.isLt; omega)
  have e : fld w 25 7 = 4 ∨ fld w 25 7 = 5 ∨ fld w 25 7 = 6 ∨ fld w 25 7 = 7 := by have := tl.isLt; omega
  rw [toSY3 g0 g2, decodeSY3, ← @fv_eq w 25 2 tl (sub g5 0 2 (tl.toNat) (by decide) (by have := tl.isLt; omega)), ← @fv_eq w 20 5 rs2 g4, ← @fv_eq w 15 5 rs1 g3, ← @fv_eq w 7 5 rd g1]
  rcases e with e|e|e|e <;> rw [e] <;> rfl

theorem esct (tl : BitVec 2) (rs2 rs1 rd : BitVec 5) : Statement (.esct tl rs2 rs1 rd) := by
  intro w hw _ _
  replace hw : 268447867 + tl.toNat * 33554432 + rs2.toNat * 1048576 + rs1.toNat * 32768 + rd.toNat * 128 = w := Option.some.inj hw
  have ⟨g0, g1, g2, g3, g4, g5⟩ := formT (w := w) (123) (rd.toNat) (3) (rs1.toNat) (rs2.toNat) (8 + tl.toNat) (by omega) (by decide) rd.isLt (by decide) rs1.isLt rs2.isLt (by have := tl.isLt; omega)
  have e : fld w 25 7 = 8 ∨ fld w 25 7 = 9 ∨ fld w 25 7 = 10 ∨ fld w 25 7 = 11 := by have := tl.isLt; omega
  rw [toSY3 g0 g2, decodeSY3, ← @fv_eq w 25 2 tl (sub g5 0 2 (tl.toNat) (by decide) (by have := tl.isLt; omega)), ← @fv_eq w 20 5 rs2 g4, ← @fv_eq w 15 5 rs1 g3, ← @fv_eq w 7 5 rd g1]
  rcases e with e|e|e|e <;> rw [e] <;> rfl

theorem efill (tl : BitVec 2) (rs2 rs1 rd : BitVec 5) : Statement (.efill tl rs2 rs1 rd) := by
  intro w hw _ _
  replace hw : 402665595 + tl.toNat * 33554432 + rs2.toNat * 1048576 + rs1.toNat * 32768 + rd.toNat * 128 = w := Option.some.inj hw
  have ⟨g0, g1, g2, g3, g4, g5⟩ := formT (w := w) (123) (rd.toNat) (3) (rs1.toNat) (rs2.toNat) (12 + tl.toNat) (by omega) (by decide) rd.isLt (by decide) rs1.isLt rs2.isLt (by have := tl.isLt; omega)
  have e : fld w 25 7 = 12 ∨ fld w 25 7 = 13 ∨ fld w 25 7 = 14 ∨ fld w 25 7 = 15 := by have := tl.isLt; omega
  rw [toSY3 g0 g2, decodeSY3, ← @fv_eq w 25 2 tl (sub g5 0 2 (tl.toNat) (by decide) (by have := tl.isLt; omega)), ← @fv_eq w 20 5 rs2 g4, ← @fv_eq w 15 5 rs1 g3, ← @fv_eq w 7 5 rd g1]
  rcases e with e|e|e|e <;> rw [e] <;> rfl

theorem ecvt (tl : BitVec 2) (rs2 rs1 rd : BitVec 5) : Statement (.ecvt tl rs2 rs1 rd) := by
  intro w hw _ _
  replace hw : 536883323 + tl.toNat * 33554432 + rs2.toNat * 1048576 + rs1.toNat * 32768 + rd.toNat * 128 = w := Option.some.inj hw
  have ⟨g0, g1, g2, g3, g4, g5⟩ := formT (w := w) (123) (rd.toNat) (3) (rs1.toNat) (rs2.toNat) (16 + tl.toNat) (by omega) (by decide) rd.isLt (by decide) rs1.isLt rs2.isLt (by have := tl.isLt; omega)
  have e : fld w 25 7 = 16 ∨ fld w 25 7 = 17 ∨ fld w 25 7 = 18 ∨ fld w 25 7 = 19 := by have := tl.isLt; omega
  rw [toSY3 g0 g2, decodeSY3, ← @fv_eq w 25 2 tl (sub g5 0 2 (tl.toNat) (by decide) (by have := tl.isLt; omega)), ← @fv_eq w 20 5 rs2 g4, ← @fv_eq w 15 5 rs1 g3, ← @fv_eq w 7 5 rd g1]
  rcases e with e|e|e|e <;> rw [e] <;> rfl

theorem ecan (tl : BitVec 2) (rs2 rs1 rd : BitVec 5) : Statement (.ecan tl rs2 rs1 rd) := by
  intro w hw _ _
  replace hw : 671101051 + tl.toNat * 33554432 + rs2.toNat * 1048576 + rs1.toNat * 32768 + rd.toNat * 128 = w := Option.some.inj hw
  have ⟨g0, g1, g2, g3, g4, g5⟩ := formT (w := w) (123) (rd.toNat) (3) (rs1.toNat) (rs2.toNat) (20 + tl.toNat) (by omega) (by decide) rd.isLt (by decide) rs1.isLt rs2.isLt (by have := tl.isLt; omega)
  have e : fld w 25 7 = 20 ∨ fld w 25 7 = 21 ∨ fld w 25 7 = 22 ∨ fld w 25 7 = 23 := by have := tl.isLt; omega
  rw [toSY3 g0 g2, decodeSY3, ← @fv_eq w 25 2 tl (sub g5 0 2 (tl.toNat) (by decide) (by have := tl.isLt; omega)), ← @fv_eq w 20 5 rs2 g4, ← @fv_eq w 15 5 rs1 g3, ← @fv_eq w 7 5 rd g1]
  rcases e with e|e|e|e <;> rw [e] <;> rfl

theorem icinv (pkg : Bool) (rs2 rs1 rd : BitVec 5) : Statement (.icinv pkg rs2 rs1 rd) := by
  intro w hw _ _
  replace hw : 16507 + pkg.toNat * 33554432 + rs2.toNat * 1048576 + rs1.toNat * 32768 + rd.toNat * 128 = w := Option.some.inj hw
  have ⟨g0, g1, g2, g3, g4, g5⟩ := formT (w := w) (123) (rd.toNat) (4) (rs1.toNat) (rs2.toNat) (pkg.toNat) (by omega) (by decide) rd.isLt (by decide) rs1.isLt rs2.isLt (by have := pkg.toNat_le; omega)
  have e : fld w 25 7 = 0 ∨ fld w 25 7 = 1 := by have := pkg.toNat_le; omega
  rw [toSY4 g0 g2, decodeSY4, ← @fbit_eq w 25 pkg (sub g5 0 1 (pkg.toNat) (by decide) (by have := pkg.toNat_le; omega)), ← @fv_eq w 20 5 rs2 g4, ← @fv_eq w 15 5 rs1 g3, ← @fv_eq w 7 5 rd g1]
  rcases e with e|e <;> rw [e] <;> rfl

theorem tlbinv (pkg : Bool) (rs2 rs1 rd : BitVec 5) : Statement (.tlbinv pkg rs2 rs1 rd) := by
  intro w hw _ _
  replace hw : 67125371 + pkg.toNat * 33554432 + rs2.toNat * 1048576 + rs1.toNat * 32768 + rd.toNat * 128 = w := Option.some.inj hw
  have ⟨g0, g1, g2, g3, g4, g5⟩ := formT (w := w) (123) (rd.toNat) (4) (rs1.toNat) (rs2.toNat) (2 + pkg.toNat) (by omega) (by decide) rd.isLt (by decide) rs1.isLt rs2.isLt (by have := pkg.toNat_le; omega)
  have e : fld w 25 7 = 2 ∨ fld w 25 7 = 3 := by have := pkg.toNat_le; omega
  rw [toSY4 g0 g2, decodeSY4, ← @fbit_eq w 25 pkg (sub g5 0 1 (pkg.toNat) (by decide) (by have := pkg.toNat_le; omega)), ← @fv_eq w 20 5 rs2 g4, ← @fv_eq w 15 5 rs1 g3, ← @fv_eq w 7 5 rd g1]
  rcases e with e|e <;> rw [e] <;> rfl

theorem fput (tl : BitVec 2) (rs2 rs1 rd : BitVec 5) : Statement (.fput tl rs2 rs1 rd) := by
  intro w hw _ _
  replace hw : 20603 + tl.toNat * 33554432 + rs2.toNat * 1048576 + rs1.toNat * 32768 + rd.toNat * 128 = w := Option.some.inj hw
  have ⟨g0, g1, g2, g3, g4, g5⟩ := formT (w := w) (123) (rd.toNat) (5) (rs1.toNat) (rs2.toNat) (tl.toNat) (by omega) (by decide) rd.isLt (by decide) rs1.isLt rs2.isLt (by have := tl.isLt; omega)
  have e : fld w 25 7 = 0 ∨ fld w 25 7 = 1 ∨ fld w 25 7 = 2 ∨ fld w 25 7 = 3 := by have := tl.isLt; omega
  rw [toSY5 g0 g2, decodeSY5, ← @fv_eq w 25 2 tl (sub g5 0 2 (tl.toNat) (by decide) (by have := tl.isLt; omega)), ← @fv_eq w 20 5 rs2 g4, ← @fv_eq w 15 5 rs1 g3, ← @fv_eq w 7 5 rd g1]
  rcases e with e|e|e|e <;> rw [e] <;> rfl

theorem fget (tl : BitVec 2) (rs2 rs1 rd : BitVec 5) : Statement (.fget tl rs2 rs1 rd) := by
  intro w hw _ _
  replace hw : 134238331 + tl.toNat * 33554432 + rs2.toNat * 1048576 + rs1.toNat * 32768 + rd.toNat * 128 = w := Option.some.inj hw
  have ⟨g0, g1, g2, g3, g4, g5⟩ := formT (w := w) (123) (rd.toNat) (5) (rs1.toNat) (rs2.toNat) (4 + tl.toNat) (by omega) (by decide) rd.isLt (by decide) rs1.isLt rs2.isLt (by have := tl.isLt; omega)
  have e : fld w 25 7 = 4 ∨ fld w 25 7 = 5 ∨ fld w 25 7 = 6 ∨ fld w 25 7 = 7 := by have := tl.isLt; omega
  rw [toSY5 g0 g2, decodeSY5, ← @fv_eq w 25 2 tl (sub g5 0 2 (tl.toNat) (by decide) (by have := tl.isLt; omega)), ← @fv_eq w 20 5 rs2 g4, ← @fv_eq w 15 5 rs1 g3, ← @fv_eq w 7 5 rd g1]
  rcases e with e|e|e|e <;> rw [e] <;> rfl

theorem fcoll (tl : BitVec 2) (rs2 rs1 rd : BitVec 5) : Statement (.fcoll tl rs2 rs1 rd) := by
  intro w hw _ _
  replace hw : 268456059 + tl.toNat * 33554432 + rs2.toNat * 1048576 + rs1.toNat * 32768 + rd.toNat * 128 = w := Option.some.inj hw
  have ⟨g0, g1, g2, g3, g4, g5⟩ := formT (w := w) (123) (rd.toNat) (5) (rs1.toNat) (rs2.toNat) (8 + tl.toNat) (by omega) (by decide) rd.isLt (by decide) rs1.isLt rs2.isLt (by have := tl.isLt; omega)
  have e : fld w 25 7 = 8 ∨ fld w 25 7 = 9 ∨ fld w 25 7 = 10 ∨ fld w 25 7 = 11 := by have := tl.isLt; omega
  rw [toSY5 g0 g2, decodeSY5, ← @fv_eq w 25 2 tl (sub g5 0 2 (tl.toNat) (by decide) (by have := tl.isLt; omega)), ← @fv_eq w 20 5 rs2 g4, ← @fv_eq w 15 5 rs1 g3, ← @fv_eq w 7 5 rd g1]
  rcases e with e|e|e|e <;> rw [e] <;> rfl

theorem dlaunch (rs2 rs1 rd : BitVec 5) : Statement (.dlaunch rs2 rs1 rd) := by
  intro w hw _ _
  replace hw : 402673787 + rs2.toNat * 1048576 + rs1.toNat * 32768 + rd.toNat * 128 = w := Option.some.inj hw
  have ⟨g0, g1, g2, g3, g4, g5⟩ := formT (w := w) (123) (rd.toNat) (5) (rs1.toNat) (rs2.toNat) (12) (by omega) (by decide) rd.isLt (by decide) rs1.isLt rs2.isLt (by decide)
  rw [toSY5 g0 g2, decodeSY5, g5, ← @fv_eq w 20 5 rs2 g4, ← @fv_eq w 15 5 rs1 g3, ← @fv_eq w 7 5 rd g1]; rfl

theorem vqpush (q : BitVec 3) (vs rs1 rd : BitVec 5) : Statement (.vqpush q vs rs1 rd) := by
  intro w hw _ _
  replace hw : 28795 + q.toNat * 33554432 + vs.toNat * 1048576 + rs1.toNat * 32768 + rd.toNat * 128 = w := Option.some.inj hw
  have ⟨g0, g1, g2, g3, g4, g5⟩ := formT (w := w) (123) (rd.toNat) (7) (rs1.toNat) (vs.toNat) (q.toNat) (by omega) (by decide) rd.isLt (by decide) rs1.isLt vs.isLt (by have := q.isLt; omega)
  have e : fld w 25 7 = 0 ∨ fld w 25 7 = 1 ∨ fld w 25 7 = 2 ∨ fld w 25 7 = 3 ∨ fld w 25 7 = 4 ∨ fld w 25 7 = 5 ∨ fld w 25 7 = 6 ∨ fld w 25 7 = 7 := by have := q.isLt; omega
  rw [toSY7 g0 g2, decodeSY7, ← @fv_eq w 25 3 q (sub g5 0 3 (q.toNat) (by decide) (by have := q.isLt; omega)), ← @fv_eq w 20 5 vs g4, ← @fv_eq w 15 5 rs1 g3, ← @fv_eq w 7 5 rd g1]
  rcases e with e|e|e|e|e|e|e|e <;> rw [e] <;> rfl

theorem vqpop (q : BitVec 3) (vd rs1 rd : BitVec 5) : Statement (.vqpop q vd rs1 rd) := by
  intro w hw _ _
  replace hw : 268464251 + q.toNat * 33554432 + vd.toNat * 1048576 + rs1.toNat * 32768 + rd.toNat * 128 = w := Option.some.inj hw
  have ⟨g0, g1, g2, g3, g4, g5⟩ := formT (w := w) (123) (rd.toNat) (7) (rs1.toNat) (vd.toNat) (8 + q.toNat) (by omega) (by decide) rd.isLt (by decide) rs1.isLt vd.isLt (by have := q.isLt; omega)
  have e : fld w 25 7 = 8 ∨ fld w 25 7 = 9 ∨ fld w 25 7 = 10 ∨ fld w 25 7 = 11 ∨ fld w 25 7 = 12 ∨ fld w 25 7 = 13 ∨ fld w 25 7 = 14 ∨ fld w 25 7 = 15 := by have := q.isLt; omega
  rw [toSY7 g0 g2, decodeSY7, ← @fv_eq w 25 3 q (sub g5 0 3 (q.toNat) (by decide) (by have := q.isLt; omega)), ← @fv_eq w 20 5 vd g4, ← @fv_eq w 15 5 rs1 g3, ← @fv_eq w 7 5 rd g1]
  rcases e with e|e|e|e|e|e|e|e <;> rw [e] <;> rfl

theorem vqcnt (q : BitVec 3) (rd : BitVec 5) : Statement (.vqcnt q rd) := by
  intro w hw _ _
  replace hw : 536899707 + q.toNat * 33554432 + rd.toNat * 128 = w := Option.some.inj hw
  have ⟨g0, g1, g2, g3, g4, g5⟩ := formT (w := w) (123) (rd.toNat) (7) (0) (0) (16 + q.toNat) (by omega) (by decide) rd.isLt (by decide) (by decide) (by decide) (by have := q.isLt; omega)
  have cc : fld w 15 10 = 0 := (join0 g3 g4)
  have e : fld w 25 7 = 16 ∨ fld w 25 7 = 17 ∨ fld w 25 7 = 18 ∨ fld w 25 7 = 19 ∨ fld w 25 7 = 20 ∨ fld w 25 7 = 21 ∨ fld w 25 7 = 22 ∨ fld w 25 7 = 23 := by have := q.isLt; omega
  rw [toSY7 g0 g2, decodeSY7, ← @fv_eq w 25 3 q (sub g5 0 3 (q.toNat) (by decide) (by have := q.isLt; omega)), ← @fv_eq w 7 5 rd g1]
  rcases e with e|e|e|e|e|e|e|e <;> rw [e] <;> exact if_pos cc

theorem claim : Statement (.claim) := by
  intro w hw _ _
  replace hw : 536887419 = w := Option.some.inj hw
  have ⟨g0, g1, g2, g3, g4, g5⟩ := formT (w := w) (123) (0) (4) (0) (0) (16) (by omega) (by decide) (by decide) (by decide) (by decide) (by decide) (by decide)
  have cc : fld w 7 5 = 0 ∧ fld w 15 10 = 0 := ⟨g1, (join0 g3 g4)⟩
  rw [toSY4 g0 g2, decodeSY4, g5]; exact if_pos cc

theorem toNat_ne {n k : Nat} {v : BitVec n} (h : (v != BitVec.ofNat n k) = true) (hk : k < 2 ^ n) : v.toNat ≠ k := by
  intro e
  have : v = BitVec.ofNat n k := BitVec.eq_of_toNat_eq (by simp [e, Nat.mod_eq_of_lt hk])
  simp [this] at h

theorem vsc (km : BitVec 3) (vs2 rs1 vs3 : BitVec 5) : Statement (.vsc km vs2 rs1 vs3) := by
  intro w hw hf _
  replace hw : 469762091 + km.toNat * 8388608 + vs2.toNat * 131072 + rs1.toNat * 4096 + vs3.toNat * 128 = w := Option.some.inj hw
  have ⟨g0, g1, g2, g3, g4, g5, g6⟩ := formV (w := w) 43 vs3.toNat rs1.toNat vs2.toNat 0 km.toNat 7 (by omega) (by decide) vs3.isLt rs1.isLt vs2.isLt (by decide) km.isLt (by decide)
  have hk : ¬ fld w 23 3 = 0 := by rw [g5]; exact toNat_ne hf (by decide)
  rw [toVX g0, decodeVX, g6, ← @fv_eq w 23 3 km g5, ← @fv_eq w 17 5 vs2 g3, ← @fv_eq w 12 5 rs1 g2, ← @fv_eq w 7 5 vs3 g1]
  exact (if_pos g4).trans (if_neg hk)

theorem vamocas (km : BitVec 3) (vs2 rs1 vd : BitVec 5) : Statement (.vamocas km vs2 rs1 vd) := by
  intro w hw hf _
  replace hw : 1547698219 + km.toNat * 8388608 + vs2.toNat * 131072 + rs1.toNat * 4096 + vd.toNat * 128 = w := Option.some.inj hw
  have ⟨g0, g1, g2, g3, g4, g5, g6⟩ := formV (w := w) 43 vd.toNat rs1.toNat vs2.toNat 1 km.toNat 23 (by omega) (by decide) vd.isLt rs1.isLt vs2.isLt (by decide) km.isLt (by decide)
  have hk : ¬ fld w 7 5 = 31 := by rw [g1]; exact toNat_ne hf (by decide)
  rw [toVX g0, decodeVX, g6, ← @fv_eq w 23 3 km g5, ← @fv_eq w 17 5 vs2 g3, ← @fv_eq w 12 5 rs1 g2, ← @fv_eq w 7 5 vd g1]
  exact (if_pos g4).trans (if_neg hk)

theorem code_lt (ty : ETag) : ty.code < 2 ^ 4 := by cases ty <;> decide
theorem ofCode_code (ty : ETag) : ETag.ofCode ty.code = ty := by cases ty <;> rfl
theorem width_lt (x : WidthClass) : x.code < 2 ^ 5 := by cases x <;> decide
theorem scope_lt (x : Scope) : x.code < 7 := by cases x <;> decide
theorem scope_code (x : Scope) : Scope.ofCode x.code = some x := by cases x <;> rfl

theorem vshape (width : WidthClass) (rs1 rd : BitVec 5) : Statement (.vshape width rs1 rd) := by
  intro w hw _ _
  replace hw : 20571 + width.code * 1048576 + rs1.toNat * 32768 + rd.toNat * 128 = w := Option.some.inj hw
  have ⟨g0, g1, g2, g3, g4, g5⟩ := formT (w := w) 91 rd.toNat 5 rs1.toNat width.code 0 (by omega) (by decide) rd.isLt (by decide) rs1.isLt (width_lt width) (by decide)
  rw [toShape g0 g2, decodeShape, g5, g4, ← @fv_eq w 15 5 rs1 g3, ← @fv_eq w 7 5 rd g1]
  cases width <;> rfl

theorem vtag (ty : ETag) (vd : BitVec 5) : Statement (.vtag ty vd) := by
  intro w hw _ _
  replace hw : 33575003 + ty.code * 32768 + vd.toNat * 128 = w := Option.some.inj hw
  have ht := code_lt ty
  have ⟨g0, g1, g2, g3, g4, g5⟩ := formT (w := w) 91 vd.toNat 5 ty.code 0 1 (by omega) (by decide) vd.isLt (by decide) (by omega) (by decide) (by decide)
  have c : fld w 19 6 = 0 := join0 (sub g3 4 1 0 (by decide) (by omega)) g4
  have e : ETag.ofCode (fld w 15 4) = ty := by rw [sub g3 0 4 ty.code (by decide) (by omega)]; exact ofCode_code ty
  rw [toShape g0 g2, decodeShape, g5, e, ← @fv_eq w 7 5 vd g1]; exact if_pos c

theorem tshape (ty : ETag) (rs2 rs1 : BitVec 5) (md : BitVec 3) : Statement (.tshape ty rs2 rs1 md) := by
  intro w hw hf _
  replace hw : 1073762395 + ty.code * 33554432 + rs2.toNat * 1048576 + rs1.toNat * 32768 + md.toNat * 128 = w := Option.some.inj hw
  have ht := code_lt ty
  have ⟨g0, g1, g2, g3, g4, g5⟩ := formT (w := w) 91 md.toNat 5 rs1.toNat rs2.toNat (32 + ty.code) (by omega) (by decide) (by have := md.isLt; omega) (by decide) rs1.isLt rs2.isLt (by omega)
  have c : fld w 10 2 = 0 := sub g1 3 2 0 (by decide) (by have := md.isLt; omega)
  have e4 : fld w 25 4 = ty.code := sub g5 0 4 ty.code (by decide) (by omega)
  have hz : ¬ ty.code = 0 := by
    intro e
    cases ty <;> first | exact absurd (show false = true from hf) (by decide) | exact absurd e (by decide)
  rw [toShape g0 g2, decodeShape, e4, ofCode_code, ← @fv_eq w 20 5 rs2 g4, ← @fv_eq w 15 5 rs1 g3,
    ← @fv_eq w 7 3 md (sub g1 0 3 md.toNat (by decide) (by have := md.isLt; omega)), g5]
  cases ty <;> first | exact absurd rfl hz | exact (if_pos c).trans (if_neg hz)

theorem sync (scope : Scope) (classes rs1 rd : BitVec 5) : Statement (.sync scope classes rs1 rd) := by
  intro w hw _ _
  replace hw : 2147487867 + scope.code * 33554432 + classes.toNat * 1048576 + rs1.toNat * 32768 + rd.toNat * 128 = w := Option.some.inj hw
  have hs := scope_lt scope
  have ⟨g0, g1, g2, g3, g4, g5⟩ := formT (w := w) 123 rd.toNat 1 rs1.toNat classes.toNat (64 + scope.code) (by omega) (by decide) rd.isLt (by decide) rs1.isLt classes.isLt (by omega)
  have e3 : fld w 25 3 = scope.code := sub g5 0 3 scope.code (by decide) (by omega)
  rw [toSY1 g0 g2, decodeSY1, g5, e3, scope_code, ← @fv_eq w 20 5 classes g4, ← @fv_eq w 15 5 rs1 g3, ← @fv_eq w 7 5 rd g1]
  cases scope <;> rfl

theorem ldaq (scope : Scope) (rs1 rd : BitVec 5) : Statement (.ldaq scope rs1 rd) := by
  intro w hw _ _
  replace hw : 24699 + scope.code * 33554432 + rs1.toNat * 32768 + rd.toNat * 128 = w := Option.some.inj hw
  have hs := scope_lt scope
  have ⟨g0, g1, g2, g3, g4, g5⟩ := formT (w := w) 123 rd.toNat 6 rs1.toNat 0 scope.code (by omega) (by decide) rd.isLt (by decide) rs1.isLt (by decide) (by omega)
  have e3 : fld w 25 3 = scope.code := sub g5 0 3 scope.code (by decide) (by omega)
  rw [toSY6 g0 g2, decodeSY6, g5, e3, scope_code, ← @fv_eq w 15 5 rs1 g3, ← @fv_eq w 7 5 rd g1]
  cases scope <;> exact if_pos g4

theorem strl (scope : Scope) (rs2 rs1 : BitVec 5) : Statement (.strl scope rs2 rs1) := by
  intro w hw _ _
  replace hw : 268460155 + scope.code * 33554432 + rs2.toNat * 1048576 + rs1.toNat * 32768 = w := Option.some.inj hw
  have hs := scope_lt scope
  have ⟨g0, g1, g2, g3, g4, g5⟩ := formT (w := w) 123 0 6 rs1.toNat rs2.toNat (8 + scope.code) (by omega) (by decide) (by decide) (by decide) rs1.isLt rs2.isLt (by omega)
  have e3 : fld w 25 3 = scope.code := sub g5 0 3 scope.code (by decide) (by omega)
  rw [toSY6 g0 g2, decodeSY6, g5, e3, scope_code, ← @fv_eq w 20 5 rs2 g4, ← @fv_eq w 15 5 rs1 g3]
  cases scope <;> exact if_pos g1

theorem vwait (ge : Bool) (kd : BitVec 3) (vs rs1 rd : BitVec 5) : Statement (.vwait ge kd vs rs1 rd) := by
  intro w hw hf _
  replace hw : 1073770619 + ge.toNat * 268435456 + kd.toNat * 33554432 + vs.toNat * 1048576 + rs1.toNat * 32768 + rd.toNat * 128 = w := Option.some.inj hw
  have hk := kd.isLt
  have hg := ge.toNat_le
  have ⟨g0, g1, g2, g3, g4, g5⟩ := formT (w := w) 123 rd.toNat 7 rs1.toNat vs.toNat (32 + 8 * ge.toNat + kd.toNat) (by omega) (by decide) rd.isLt (by decide) rs1.isLt vs.isLt (by omega)
  have hv : ¬ fld w 20 5 = 31 := by rw [g4]; exact toNat_ne hf (by decide)
  have e : fld w 25 7 = 32 ∨ fld w 25 7 = 33 ∨ fld w 25 7 = 34 ∨ fld w 25 7 = 35 ∨ fld w 25 7 = 36 ∨ fld w 25 7 = 37 ∨
      fld w 25 7 = 38 ∨ fld w 25 7 = 39 ∨ fld w 25 7 = 40 ∨ fld w 25 7 = 41 ∨ fld w 25 7 = 42 ∨ fld w 25 7 = 43 ∨
      fld w 25 7 = 44 ∨ fld w 25 7 = 45 ∨ fld w 25 7 = 46 ∨ fld w 25 7 = 47 := by omega
  rw [toSY7 g0 g2, decodeSY7, ← @fbit_eq w 28 ge (sub g5 3 1 ge.toNat (by decide) (by omega)),
    ← @fv_eq w 25 3 kd (sub g5 0 3 kd.toNat (by decide) (by omega)), ← @fv_eq w 20 5 vs g4, ← @fv_eq w 15 5 rs1 g3,
    ← @fv_eq w 7 5 rd g1]
  rcases e with e | e | e | e | e | e | e | e | e | e | e | e | e | e | e | e <;> rw [e] <;> exact if_neg hv

theorem toLoad {w : Nat} (h : fld w 0 7 = 0x03) : decode32 w = decodeLoad w := by unfold decode32; rw [h]; rfl
theorem toStore {w : Nat} (h : fld w 0 7 = 0x23) : decode32 w = decodeStore w := by unfold decode32; rw [h]; rfl
theorem toMiscMem {w : Nat} (h : fld w 0 7 = 0x0F) : decode32 w = decodeMiscMem w := by unfold decode32; rw [h]; rfl
theorem toOpImm {w : Nat} (h : fld w 0 7 = 0x13) : decode32 w = decodeOpImm w := by unfold decode32; rw [h]; rfl
theorem toOpImmW {w : Nat} (h : fld w 0 7 = 0x1B) : decode32 w = decodeOpImmW w := by unfold decode32; rw [h]; rfl
theorem toOp {w : Nat} (h : fld w 0 7 = 0x33) : decode32 w = decodeOp w := by unfold decode32; rw [h]; rfl
theorem toOpW {w : Nat} (h : fld w 0 7 = 0x3B) : decode32 w = decodeOpW w := by unfold decode32; rw [h]; rfl
theorem toBranch {w : Nat} (h : fld w 0 7 = 0x63) : decode32 w = decodeBranch w := by unfold decode32; rw [h]; rfl
theorem toAmo {w : Nat} (h : fld w 0 7 = 0x2F) : decode32 w = decodeAmo w := by unfold decode32; rw [h]; rfl
theorem toSystem {w : Nat} (h : fld w 0 7 = 0x73) : decode32 w = decodeSystem w := by unfold decode32; rw [h]; rfl

/-- The I format: a 12-bit immediate in the places of rs2 and funct7. -/
theorem formI12 {w : Nat} (f0 f1 f2 f3 f4 : Nat) (hw : f0 + 128 * f1 + 4096 * f2 + 32768 * f3 + 1048576 * f4 = w)
    (h0 : f0 < 128) (h1 : f1 < 32) (h2 : f2 < 8) (h3 : f3 < 32) (h4 : f4 < 4096) :
    fld w 0 7 = f0 ∧ fld w 7 5 = f1 ∧ fld w 12 3 = f2 ∧ fld w 15 5 = f3 ∧ fld w 20 12 = f4 := by
  subst hw; simp only [fld]; omega

theorem fence (fm pred succ : BitVec 4) (rs1 rd : BitVec 5) : Statement (.fence fm pred succ rs1 rd) := by
  intro w hw _ _
  replace hw : 0x0F + rd.toNat * 128 + rs1.toNat * 32768 + succ.toNat * 1048576 + pred.toNat * 16777216 + fm.toNat * 268435456 = w :=
    Option.some.inj hw
  have := succ.isLt; have := pred.isLt; have := fm.isLt
  have ⟨g0, g1, g2, g3, g4⟩ := formI12 (w := w) 15 rd.toNat 0 rs1.toNat (succ.toNat + 16 * pred.toNat + 256 * fm.toNat)
    (by omega) (by decide) rd.isLt (by decide) rs1.isLt (by omega)
  rw [toMiscMem g0, decodeMiscMem, g2, ← @fv_eq w 28 4 fm (sub g4 8 4 fm.toNat (by decide) (by omega)),
    ← @fv_eq w 24 4 pred (sub g4 4 4 pred.toNat (by decide) (by omega)),
    ← @fv_eq w 20 4 succ (sub g4 0 4 succ.toNat (by decide) (by omega)), ← @fv_eq w 15 5 rs1 g3, ← @fv_eq w 7 5 rd g1]
  rfl

theorem fenceI (imm : BitVec 12) (rs1 rd : BitVec 5) : Statement (.fenceI imm rs1 rd) := by
  intro w hw _ _
  replace hw : 0x0F + rd.toNat * 128 + 1 * 4096 + rs1.toNat * 32768 + imm.toNat * 1048576 = w := Option.some.inj hw
  have ⟨g0, g1, g2, g3, g4⟩ := formI12 (w := w) 15 rd.toNat 1 rs1.toNat imm.toNat
    (by omega) (by decide) rd.isLt (by decide) rs1.isLt imm.isLt
  rw [toMiscMem g0, decodeMiscMem, g2, ← @fv_eq w 20 12 imm g4, ← @fv_eq w 15 5 rs1 g3, ← @fv_eq w 7 5 rd g1]
  rfl

theorem scalarLoad (op : LoadOp) (imm : BitVec 12) (rs1 rd : BitVec 5) : Statement (.scalarLoad op imm rs1 rd) := by
  intro w hw _ _
  replace hw : 0x03 + rd.toNat * 128 + op.funct * 4096 + rs1.toNat * 32768 + imm.toNat * 1048576 = w := Option.some.inj hw
  have hf : op.funct < 8 := by cases op <;> decide
  have ⟨g0, g1, g2, g3, g4⟩ := formI12 (w := w) 3 rd.toNat op.funct rs1.toNat imm.toNat
    (by omega) (by decide) rd.isLt hf rs1.isLt imm.isLt
  rw [toLoad g0, decodeLoad, g2, ← @fv_eq w 20 12 imm g4, ← @fv_eq w 15 5 rs1 g3, ← @fv_eq w 7 5 rd g1]
  cases op <;> rfl

theorem ofNat_eq {n x : Nat} (v : BitVec n) (h : x = v.toNat) : BitVec.ofNat n x = v := by
  apply BitVec.eq_of_toNat_eq; subst h; simp

theorem scalarStore (op : StoreOp) (imm : BitVec 12) (rs2 rs1 : BitVec 5) : Statement (.scalarStore op imm rs2 rs1) := by
  intro w hw _ _
  replace hw : 0x23 + (imm.toNat % 32) * 128 + op.funct * 4096 + rs1.toNat * 32768 + rs2.toNat * 1048576 +
    (imm.toNat / 32) * 33554432 = w := Option.some.inj hw
  have hf : op.funct < 8 := by cases op <;> decide
  have hi := imm.isLt
  have ⟨g0, g1, g2, g3, g4, g5⟩ := formT (w := w) 0x23 (imm.toNat % 32) op.funct rs1.toNat rs2.toNat (imm.toNat / 32)
    (by omega) (by decide) (by omega) hf rs1.isLt rs2.isLt (by omega)
  rw [toStore g0, decodeStore, g2, g5, g1, ofNat_eq imm (by omega), ← @fv_eq w 20 5 rs2 g4, ← @fv_eq w 15 5 rs1 g3]
  cases op <;> rfl

theorem lr (dbl aq rl : Bool) (rs1 rd : BitVec 5) : Statement (.lr dbl aq rl rs1 rd) := by
  intro w hw _ _
  replace hw : 0x1000002F + rd.toNat * 128 + (2 + dbl.toNat) * 4096 + rs1.toNat * 32768 + rl.toNat * 33554432 +
    aq.toNat * 67108864 = w := Option.some.inj hw
  have := dbl.toNat_le; have := aq.toNat_le; have := rl.toNat_le
  have ⟨g0, g1, g2, g3, g4, g5⟩ := formT (w := w) 0x2F rd.toNat (2 + dbl.toNat) rs1.toNat 0 (rl.toNat + 2 * aq.toNat + 8)
    (by omega) (by decide) rd.isLt (by omega) rs1.isLt (by decide) (by omega)
  have e : fld w 27 5 = 2 := sub g5 2 5 2 (by decide) (by omega)
  rw [toAmo g0, decodeAmo, g2, e, ← @fbit_eq w 26 aq (sub g5 1 1 aq.toNat (by decide) (by omega)),
    ← @fbit_eq w 25 rl (sub g5 0 1 rl.toNat (by decide) (by omega)), ← @fv_eq w 15 5 rs1 g3, ← @fv_eq w 7 5 rd g1]
  cases dbl <;> exact if_pos g4

theorem sc (dbl aq rl : Bool) (rs2 rs1 rd : BitVec 5) : Statement (.sc dbl aq rl rs2 rs1 rd) := by
  intro w hw _ _
  replace hw : 0x1800002F + rd.toNat * 128 + (2 + dbl.toNat) * 4096 + rs1.toNat * 32768 + rs2.toNat * 1048576 +
    rl.toNat * 33554432 + aq.toNat * 67108864 = w := Option.some.inj hw
  have := dbl.toNat_le; have := aq.toNat_le; have := rl.toNat_le
  have ⟨g0, g1, g2, g3, g4, g5⟩ := formT (w := w) 0x2F rd.toNat (2 + dbl.toNat) rs1.toNat rs2.toNat (rl.toNat + 2 * aq.toNat + 12)
    (by omega) (by decide) rd.isLt (by omega) rs1.isLt rs2.isLt (by omega)
  have e : fld w 27 5 = 3 := sub g5 2 5 3 (by decide) (by omega)
  rw [toAmo g0, decodeAmo, g2, e, ← @fbit_eq w 26 aq (sub g5 1 1 aq.toNat (by decide) (by omega)),
    ← @fbit_eq w 25 rl (sub g5 0 1 rl.toNat (by decide) (by omega)), ← @fv_eq w 20 5 rs2 g4, ← @fv_eq w 15 5 rs1 g3,
    ← @fv_eq w 7 5 rd g1]
  cases dbl <;> rfl

theorem amo (op : AmoOp) (dbl aq rl : Bool) (rs2 rs1 rd : BitVec 5) : Statement (.amo op dbl aq rl rs2 rs1 rd) := by
  intro w hw _ _
  replace hw : 0x2F + rd.toNat * 128 + (2 + dbl.toNat) * 4096 + rs1.toNat * 32768 + rs2.toNat * 1048576 +
    rl.toNat * 33554432 + aq.toNat * 67108864 + op.funct * 134217728 = w := Option.some.inj hw
  have := dbl.toNat_le; have := aq.toNat_le; have := rl.toNat_le
  have hf : op.funct < 32 := by cases op <;> decide
  have ⟨g0, g1, g2, g3, g4, g5⟩ := formT (w := w) 0x2F rd.toNat (2 + dbl.toNat) rs1.toNat rs2.toNat
    (rl.toNat + 2 * aq.toNat + 4 * op.funct) (by omega) (by decide) rd.isLt (by omega) rs1.isLt rs2.isLt (by omega)
  have e : fld w 27 5 = op.funct := sub g5 2 5 op.funct (by decide) (by omega)
  rw [toAmo g0, decodeAmo, g2, e, ← @fbit_eq w 26 aq (sub g5 1 1 aq.toNat (by decide) (by omega)),
    ← @fbit_eq w 25 rl (sub g5 0 1 rl.toNat (by decide) (by omega)), ← @fv_eq w 20 5 rs2 g4, ← @fv_eq w 15 5 rs1 g3,
    ← @fv_eq w 7 5 rd g1]
  cases dbl <;> cases op <;> rfl

theorem sfenceVma (rs2 rs1 : BitVec 5) : Statement (.sfenceVma rs2 rs1) := by
  intro w hw _ _
  replace hw : 0x12000073 + rs1.toNat * 32768 + rs2.toNat * 1048576 = w := Option.some.inj hw
  have := rs1.isLt; have := rs2.isLt
  have ⟨g0, g1, g2, g3, g4, g5⟩ := formT (w := w) 0x73 0 0 rs1.toNat rs2.toNat 9 (by omega) (by decide) (by decide) (by decide)
    rs1.isLt rs2.isLt (by decide)
  rw [toSystem g0, decodeSystem, g2, ← @fv_eq w 20 5 rs2 g4, ← @fv_eq w 15 5 rs1 g3]
  have h1 : w / 128 ≠ 0 := by omega
  have h2 : w / 128 ≠ 0x2000 := by omega
  have h3 : w / 128 ≠ 0x20A000 := by omega
  have h4 : w / 128 ≠ 0x204000 := by omega
  simp only [g5, g1, and_self, if_true]

/-- A CSR instruction decodes to what csrInstr makes of its fields. -/
theorem csr_word (csr : BitVec 12) (op : CsrOp) (src : CsrSrc) (rd : BitVec 5) :
    decode32 (encCsr csr.toNat op src rd) = .ok (csrInstr csr op src rd) := by
  obtain ⟨w, hw⟩ : ∃ w, encCsr csr.toNat op src rd = w := ⟨_, rfl⟩
  rw [hw]
  cases src with
  | reg r =>
    have hf : csrFunct op false < 8 := by cases op <;> decide
    have ⟨g0, g1, g2, g3, g4⟩ := formI12 (w := w) 0x73 rd.toNat (csrFunct op false) r.toNat
      csr.toNat (by rw [← hw]; simp only [encCsr]; omega) (by decide) rd.isLt hf r.isLt csr.isLt
    rw [toSystem g0, decodeSystem, g2, fv_eq csr g4, fv_eq rd g1, fv_eq r g3]
    cases op <;> rfl
  | imm u =>
    have hf : csrFunct op true < 8 := by cases op <;> decide
    have ⟨g0, g1, g2, g3, g4⟩ := formI12 (w := w) 0x73 rd.toNat (csrFunct op true) u.toNat
      csr.toNat (by rw [← hw]; simp only [encCsr]; omega) (by decide) rd.isLt hf u.isLt csr.isLt
    rw [toSystem g0, decodeSystem, g2, fv_eq csr g4, fv_eq rd g1, fv_eq u g3]
    cases op <;> rfl

theorem writes_not_read {op : CsrOp} {src : CsrSrc} (h : csrWrites op src = true) : ¬ (op ≠ .rw ∧ src.field = 0) := by
  rintro ⟨h1, h2⟩
  cases op <;> simp_all [csrWrites]

theorem csrRow (k : BitVec 12) (op : CsrOp) (src : CsrSrc) (rd : BitVec 5) (i : Instr) (w : Nat)
    (hw : encCsr k.toNat op src rd = w) (hf : csrWrites op src = true)
    (hi : ¬ (op ≠ .rw ∧ src.field = 0) → csrInstr k op src rd = i) : decode32 w = .ok i := by
  rw [← hw, csr_word, hi (writes_not_read hf)]

theorem vstaWrite (op : CsrOp) (src : CsrSrc) (rd : BitVec 5) : Statement (.vstaWrite op src rd) := fun w hw hf _ =>
  csrRow 0x800 op src rd _ w (Option.some.inj hw) hf fun h => if_neg h

theorem emaskWrite (op : CsrOp) (src : CsrSrc) (rd : BitVec 5) : Statement (.emaskWrite op src rd) := fun w hw hf _ =>
  csrRow 0x801 op src rd _ w (Option.some.inj hw) hf fun h => if_neg h

theorem eclsWrite (op : CsrOp) (src : CsrSrc) (rd : BitVec 5) : Statement (.eclsWrite op src rd) := fun w hw hf _ =>
  csrRow 0x802 op src rd _ w (Option.some.inj hw) hf fun h => if_neg h

theorem finjWrite (op : CsrOp) (src : CsrSrc) (rd : BitVec 5) : Statement (.finjWrite op src rd) := fun w hw hf _ =>
  csrRow 0x805 op src rd _ w (Option.some.inj hw) hf fun h => if_neg h

theorem wceilWrite (op : CsrOp) (src : CsrSrc) (rd : BitVec 5) : Statement (.wceilWrite op src rd) := fun w hw hf _ =>
  csrRow 0x5C0 op src rd _ w (Option.some.inj hw) hf fun h => if_neg h

theorem wptWrite (n : BitVec 2) (op : CsrOp) (src : CsrSrc) (rd : BitVec 5) : Statement (.wptWrite n op src rd) := by
  intro w hw hf _
  have hn : ∀ n : BitVec 2, n = 0#2 ∨ n = 1#2 ∨ n = 2#2 ∨ n = 3#2 := by decide
  rcases hn n with rfl | rfl | rfl | rfl
  · exact csrRow 0x5C4 op src rd _ w (Option.some.inj hw) hf fun h => if_neg h
  · exact csrRow 0x5C5 op src rd _ w (Option.some.inj hw) hf fun h => if_neg h
  · exact csrRow 0x5C6 op src rd _ w (Option.some.inj hw) hf fun h => if_neg h
  · exact csrRow 0x5C7 op src rd _ w (Option.some.inj hw) hf fun h => if_neg h

theorem registerWrite (target : RegTarget) : Statement (.registerWrite target) := by
  intro w hw hf _
  cases target with
  | csr k op src rd =>
    simp only [Instr.wf, Bool.and_eq_true, Bool.not_eq_true'] at hf
    refine csrRow k op src rd _ w (Option.some.inj hw) hf.1 fun h => ?_
    have hr := hf.2
    simp only [csrHasRow, Bool.or_eq_false_iff, beq_eq_false_iff_ne, Bool.and_eq_false_iff, decide_eq_false_iff_not] at hr
    unfold csrInstr
    rw [if_neg h]
    have e1 : k.toNat ≠ 0x5C4 := by omega
    have e2 : k.toNat ≠ 0x5C5 := by omega
    have e3 : k.toNat ≠ 0x5C6 := by omega
    have e4 : k.toNat ≠ 0x5C7 := by omega
    obtain ⟨⟨⟨⟨⟨r1, r2⟩, r3⟩, r4⟩, r5⟩, -⟩ := hr
    split <;> first | rfl | contradiction
  | bar0 => cases hw
  | bar2 => cases hw

theorem ecall : Statement .ecall := fun w hw _ _ => by cases hw; rfl
theorem ebreak : Statement .ebreak := fun w hw _ _ => by cases hw; rfl
theorem wfi : Statement .wfi := fun w hw _ _ => by cases hw; rfl
theorem sret : Statement .sret := fun w hw _ _ => by cases hw; rfl
theorem encodingThatSelectsNothing (bits : BitVec 32) : Statement (.encodingThatSelectsNothing bits) :=
  fun _ _ _ h => absurd rfl (h bits)

/-- A U-format or J-format word. -/
theorem formU {w : Nat} (f0 f1 f2 : Nat) (hw : f0 + 128 * f1 + 4096 * f2 = w) (h0 : f0 < 128) (h1 : f1 < 32)
    (h2 : f2 < 1048576) : fld w 0 7 = f0 ∧ fld w 7 5 = f1 ∧ fld w 12 20 = f2 := by
  subst hw; simp only [fld]; omega

theorem scalar_lui (rd : BitVec 5) (imm : BitVec 20) : decode32 (encScalar (.lui rd imm)) = scalar (.lui rd imm) := by
  obtain ⟨w, hw⟩ : ∃ w, encScalar (.lui rd imm) = w := ⟨_, rfl⟩
  rw [hw]
  have ⟨g0, g1, g2⟩ := formU (w := w) 0x37 rd.toNat imm.toNat (by rw [← hw]; simp only [encScalar]; omega)
    (by decide) rd.isLt imm.isLt
  unfold decode32; rw [g0, fv_eq rd g1, fv_eq imm g2]; rfl

theorem scalar_auipc (rd : BitVec 5) (imm : BitVec 20) : decode32 (encScalar (.auipc rd imm)) = scalar (.auipc rd imm) := by
  obtain ⟨w, hw⟩ : ∃ w, encScalar (.auipc rd imm) = w := ⟨_, rfl⟩
  rw [hw]
  have ⟨g0, g1, g2⟩ := formU (w := w) 0x17 rd.toNat imm.toNat (by rw [← hw]; simp only [encScalar]; omega)
    (by decide) rd.isLt imm.isLt
  unfold decode32; rw [g0, fv_eq rd g1, fv_eq imm g2]; rfl

theorem scalar_jal (rd : BitVec 5) (off : BitVec 20) : decode32 (encScalar (.jal rd off)) = scalar (.jal rd off) := by
  obtain ⟨w, hw⟩ : ∃ w, encScalar (.jal rd off) = w := ⟨_, rfl⟩
  rw [hw]
  have ho := off.isLt
  obtain ⟨p, hp⟩ : ∃ p, p = off.toNat / 2048 % 256 := ⟨_, rfl⟩
  obtain ⟨q, hq⟩ : ∃ q, q = off.toNat / 1024 % 2 := ⟨_, rfl⟩
  obtain ⟨r, hr⟩ : ∃ r, r = off.toNat % 1024 := ⟨_, rfl⟩
  obtain ⟨t, ht⟩ : ∃ t, t = off.toNat / 524288 := ⟨_, rfl⟩
  have hpb : p < 256 := by omega
  have hqb : q < 2 := by omega
  have hrb : r < 1024 := by omega
  have htb : t < 2 := by omega
  have hsum : t * 524288 + p * 2048 + q * 1024 + r = off.toNat := by omega
  have ⟨g0, g1, g2⟩ := formU (w := w) 0x6F rd.toNat (p + 256 * q + 512 * r + 524288 * t)
    (by rw [← hw]; simp only [encScalar]; omega) (by decide) rd.isLt (by omega)
  have e : jalOff w = off := by
    unfold jalOff
    clear hw hp hq hr ht
    rw [sub g2 19 1 t (by decide) (digit (l := p + 256 * q + 512 * r) (h := 0) 19 1 (by omega) (by omega) htb),
      sub g2 0 8 p (by decide) (digit (l := 0) (h := q + 2 * r + 2048 * t) 0 8 (by omega) (by decide) hpb),
      sub g2 8 1 q (by decide) (digit (l := p) (h := r + 1024 * t) 8 1 (by omega) hpb hqb),
      sub g2 9 10 r (by decide) (digit (l := p + 256 * q) (h := t) 9 10 (by omega) (by omega) hrb)]
    exact ofNat_eq off hsum
  unfold decode32; rw [g0, fv_eq rd g1, e]; rfl

theorem scalar_jalr (rd rs1 : BitVec 5) (imm : BitVec 12) :
    decode32 (encScalar (.jalr rd rs1 imm)) = scalar (.jalr rd rs1 imm) := by
  obtain ⟨w, hw⟩ : ∃ w, encScalar (.jalr rd rs1 imm) = w := ⟨_, rfl⟩
  rw [hw]
  have ⟨g0, g1, g2, g3, g4⟩ := formI12 (w := w) 0x67 rd.toNat 0 rs1.toNat imm.toNat
    (by rw [← hw]; simp only [encScalar, encI]; omega) (by decide) rd.isLt (by decide) rs1.isLt imm.isLt
  unfold decode32; rw [g0, fv_eq rd g1, fv_eq rs1 g3, fv_eq imm g4]; exact if_pos g2

theorem scalar_branch (op : BranchOp) (rs1 rs2 : BitVec 5) (off : BitVec 12) :
    decode32 (encScalar (.branch op rs1 rs2 off)) = scalar (.branch op rs1 rs2 off) := by
  obtain ⟨w, hw⟩ : ∃ w, encScalar (.branch op rs1 rs2 off) = w := ⟨_, rfl⟩
  rw [hw]
  have ho := off.isLt
  have hf : op.funct < 8 := by cases op <;> decide
  obtain ⟨p, hp⟩ : ∃ p, p = off.toNat / 16 % 64 := ⟨_, rfl⟩
  obtain ⟨q, hq⟩ : ∃ q, q = off.toNat / 1024 % 2 := ⟨_, rfl⟩
  obtain ⟨r, hr⟩ : ∃ r, r = off.toNat % 16 := ⟨_, rfl⟩
  obtain ⟨t, ht⟩ : ∃ t, t = off.toNat / 2048 := ⟨_, rfl⟩
  have hpb : p < 64 := by omega
  have hqb : q < 2 := by omega
  have hrb : r < 16 := by omega
  have htb : t < 2 := by omega
  have hsum : t * 2048 + q * 1024 + p * 16 + r = off.toNat := by omega
  have ⟨g0, g1, g2, g3, g4, g5⟩ := formT (w := w) 0x63 (q + 2 * r) op.funct rs1.toNat rs2.toNat (p + 64 * t)
    (by rw [← hw]; simp only [encScalar]; omega) (by decide) (by omega) hf rs1.isLt rs2.isLt (by omega)
  clear hw hp hq hr ht
  rw [toBranch g0, decodeBranch, sub g5 6 1 t (by decide) (digit (l := p) (h := 0) 6 1 (by omega) hpb htb),
    sub g1 0 1 q (by decide) (digit (l := 0) (h := r) 0 1 (by omega) (by decide) hqb),
    sub g5 0 6 p (by decide) (digit (l := 0) (h := t) 0 6 (by omega) (by decide) hpb),
    sub g1 1 4 r (by decide) (digit (l := q) (h := 0) 1 4 (by omega) hqb hrb), g2, fv_eq rs1 g3, fv_eq rs2 g4,
    ofNat_eq off hsum]
  cases op <;> rfl

theorem scalar_opImm (op : ImmOp) (rd rs1 : BitVec 5) (imm : BitVec 12) :
    decode32 (encScalar (.opImm op rd rs1 imm)) = scalar (.opImm op rd rs1 imm) := by
  obtain ⟨w, hw⟩ : ∃ w, encScalar (.opImm op rd rs1 imm) = w := ⟨_, rfl⟩
  rw [hw]
  have hf : op.funct < 8 := by cases op <;> decide
  have ⟨g0, g1, g2, g3, g4⟩ := formI12 (w := w) 0x13 rd.toNat op.funct rs1.toNat imm.toNat
    (by rw [← hw]; simp only [encScalar, encI]; omega) (by decide) rd.isLt hf rs1.isLt imm.isLt
  rw [toOpImm g0, decodeOpImm, g2, fv_eq rd g1, fv_eq rs1 g3, fv_eq imm g4]
  cases op <;> rfl

theorem scalar_shiftImm (op : ShiftOp) (rd rs1 : BitVec 5) (n : BitVec 6) :
    decode32 (encScalar (.shiftImm op rd rs1 n)) = scalar (.shiftImm op rd rs1 n) := by
  obtain ⟨w, hw⟩ : ∃ w, encScalar (.shiftImm op rd rs1 n) = w := ⟨_, rfl⟩
  rw [hw]
  have hn := n.isLt
  have hf : op.funct.1 < 128 ∧ op.funct.2.1 < 8 ∧ op.funct.2.2 < 64 := by cases op <;> decide
  have ⟨g0, g1, g2, g3, g4⟩ := formI12 (w := w) op.funct.1 rd.toNat op.funct.2.1 rs1.toNat
    (n.toNat + 64 * op.funct.2.2) (by rw [← hw]; simp only [encScalar]; omega) hf.1 rd.isLt hf.2.1 rs1.isLt (by omega)
  have e6 := sub g4 6 6 op.funct.2.2 (by decide) (by omega)
  have en := fv_eq n (sub g4 0 6 n.toNat (by decide) (by omega))
  have h7 : op = .slliUw → ¬ fld w 25 7 = 0 := by
    rintro rfl
    rw [sub g4 5 7 (n.toNat / 32 + 4) (by decide) (by simp only [ShiftOp.funct]; omega)]; omega
  cases op with
  | slli => rw [toOpImm g0, decodeOpImm, g2]; show decodeImmLeft _ = _; rw [decodeImmLeft, fv_eq rd g1, fv_eq rs1 g3, en]; exact if_pos e6
  | srli => rw [toOpImm g0, decodeOpImm, g2]; show decodeImmRight _ = _; rw [decodeImmRight, fv_eq rd g1, fv_eq rs1 g3, en, e6]; rfl
  | srai => rw [toOpImm g0, decodeOpImm, g2]; show decodeImmRight _ = _; rw [decodeImmRight, fv_eq rd g1, fv_eq rs1 g3, en, e6]; rfl
  | rori => rw [toOpImm g0, decodeOpImm, g2]; show decodeImmRight _ = _; rw [decodeImmRight, fv_eq rd g1, fv_eq rs1 g3, en, e6]; rfl
  | slliUw =>
    rw [toOpImmW g0, decodeOpImmW, g2, fv_eq rd g1, fv_eq rs1 g3, en]
    exact (if_neg (h7 rfl)).trans (if_pos e6)

theorem scalar_addiw (rd rs1 : BitVec 5) (imm : BitVec 12) :
    decode32 (encScalar (.addiw rd rs1 imm)) = scalar (.addiw rd rs1 imm) := by
  obtain ⟨w, hw⟩ : ∃ w, encScalar (.addiw rd rs1 imm) = w := ⟨_, rfl⟩
  rw [hw]
  have ⟨g0, g1, g2, g3, g4⟩ := formI12 (w := w) 0x1B rd.toNat 0 rs1.toNat imm.toNat
    (by rw [← hw]; simp only [encScalar, encI]; omega) (by decide) rd.isLt (by decide) rs1.isLt imm.isLt
  rw [toOpImmW g0, decodeOpImmW, g2, fv_eq rd g1, fv_eq rs1 g3, fv_eq imm g4]; rfl

theorem scalar_shiftImmW (op : ShiftWOp) (rd rs1 n : BitVec 5) :
    decode32 (encScalar (.shiftImmW op rd rs1 n)) = scalar (.shiftImmW op rd rs1 n) := by
  obtain ⟨w, hw⟩ : ∃ w, encScalar (.shiftImmW op rd rs1 n) = w := ⟨_, rfl⟩
  rw [hw]
  have hf : op.funct.1 < 8 ∧ op.funct.2 < 128 := by cases op <;> decide
  have ⟨g0, g1, g2, g3, g4, g5⟩ := formT (w := w) 0x1B rd.toNat op.funct.1 rs1.toNat n.toNat
    op.funct.2 (by rw [← hw]; simp only [encScalar, encR]; omega) (by decide) rd.isLt hf.1 rs1.isLt n.isLt hf.2
  rw [toOpImmW g0, decodeOpImmW, g2, fv_eq rd g1, fv_eq rs1 g3, fv_eq n g4, g5]
  cases op <;> rfl

theorem scalar_alu (op : AluOp) (rd rs1 rs2 : BitVec 5) :
    decode32 (encScalar (.alu op rd rs1 rs2)) = scalar (.alu op rd rs1 rs2) := by
  obtain ⟨w, hw⟩ : ∃ w, encScalar (.alu op rd rs1 rs2) = w := ⟨_, rfl⟩
  rw [hw]
  have hf : op.funct.1 < 128 ∧ op.funct.2.2 < 8 ∧ op.funct.2.1 < 128 := by cases op <;> decide
  have ⟨g0, g1, g2, g3, g4, g5⟩ := formT (w := w) op.funct.1 rd.toNat op.funct.2.2 rs1.toNat
    rs2.toNat op.funct.2.1 (by rw [← hw]; simp only [encScalar, encR]; omega) hf.1 rd.isLt hf.2.1 rs1.isLt rs2.isLt hf.2.2
  have hop : op.funct.1 = 0x33 ∨ op.funct.1 = 0x3B := by cases op <;> decide
  rcases hop with h | h
  · rw [toOp (g0.trans h), decodeOp, g2, g5, fv_eq rd g1, fv_eq rs1 g3, fv_eq rs2 g4]
    cases op <;> first | rfl | exact absurd h (by decide)
  · rw [toOpW (g0.trans h), decodeOpW, g2, g5, fv_eq rd g1, fv_eq rs1 g3, fv_eq rs2 g4]
    cases op <;> first | rfl | exact absurd h (by decide)

theorem scalar_aluW (op : AluWOp) (rd rs1 rs2 : BitVec 5) :
    decode32 (encScalar (.aluW op rd rs1 rs2)) = scalar (.aluW op rd rs1 rs2) := by
  obtain ⟨w, hw⟩ : ∃ w, encScalar (.aluW op rd rs1 rs2) = w := ⟨_, rfl⟩
  rw [hw]
  have hf : op.funct.2 < 8 ∧ op.funct.1 < 128 := by cases op <;> decide
  have ⟨g0, g1, g2, g3, g4, g5⟩ := formT (w := w) 0x3B rd.toNat op.funct.2 rs1.toNat
    rs2.toNat op.funct.1 (by rw [← hw]; simp only [encScalar, encR]; omega) (by decide) rd.isLt hf.1 rs1.isLt rs2.isLt hf.2
  rw [toOpW g0, decodeOpW, g2, g5, fv_eq rd g1, fv_eq rs1 g3, fv_eq rs2 g4]
  cases op <;> rfl

theorem scalar_unary (op : UnaryOp) (rd rs1 : BitVec 5) :
    decode32 (encScalar (.unary op rd rs1)) = scalar (.unary op rd rs1) := by
  obtain ⟨w, hw⟩ : ∃ w, encScalar (.unary op rd rs1) = w := ⟨_, rfl⟩
  rw [hw]
  have hf : op.funct.1 < 128 ∧ op.funct.2.1 < 8 ∧ op.funct.2.2 < 4096 := by cases op <;> decide
  have ⟨g0, g1, g2, g3, g4⟩ := formI12 (w := w) op.funct.1 rd.toNat op.funct.2.1 rs1.toNat
    op.funct.2.2 (by rw [← hw]; simp only [encScalar]; omega) hf.1 rd.isLt hf.2.1 rs1.isLt hf.2.2
  have e6 := sub g4 6 6 (op.funct.2.2 / 64) (by decide) (by omega)
  have e7 := sub g4 5 7 (op.funct.2.2 / 32) (by decide) (by omega)
  have e5 := sub g4 0 5 (op.funct.2.2 % 32) (by decide) (by omega)
  have hop : op.funct.1 = 0x13 ∧ op.funct.2.1 = 1 ∨ op.funct.1 = 0x13 ∧ op.funct.2.1 = 5 ∨ op.funct.1 = 0x1B ∨ op.funct.1 = 0x3B := by
    cases op <;> decide
  rcases hop with ⟨h, k⟩ | ⟨h, k⟩ | h | h
  · rw [toOpImm (g0.trans h), decodeOpImm, g2, k]; show decodeImmLeft _ = _
    rw [decodeImmLeft, e6, fv_eq rd g1, fv_eq rs1 g3, g4]
    cases op <;> first | rfl | exact absurd h (by decide) | exact absurd k (by decide)
  · rw [toOpImm (g0.trans h), decodeOpImm, g2, k]; show decodeImmRight _ = _
    rw [decodeImmRight, e6, fv_eq rd g1, fv_eq rs1 g3, g4]
    cases op <;> first | rfl | exact absurd h (by decide) | exact absurd k (by decide)
  · rw [toOpImmW (g0.trans h), decodeOpImmW, g2, e7, e6, fv_eq rd g1, fv_eq rs1 g3, g4]
    cases op <;> first | rfl | exact absurd h (by decide)
  · rw [toOpW (g0.trans h), decodeOpW, g2, e7, fv_eq rd g1, fv_eq rs1 g3]
    cases op <;> first | exact absurd h (by decide) | exact if_pos ⟨rfl, rfl, e5⟩

theorem scalar_csrRead (csr : BitVec 12) (op : CsrOp) (imm : Bool) (rd : BitVec 5) (hf : (op != .rw) = true) :
    decode32 (encScalar (.csrRead csr op imm rd)) = scalar (.csrRead csr op imm rd) := by
  have hop : op ≠ .rw := by simpa using hf
  cases imm with
  | false =>
    have e : encScalar (.csrRead csr op false rd) = encCsr csr.toNat op (.reg 0) rd := by simp [encScalar, encCsr]
    rw [e, csr_word, csrInstr, if_pos ⟨hop, rfl⟩]; rfl
  | true =>
    have e : encScalar (.csrRead csr op true rd) = encCsr csr.toNat op (.imm 0) rd := by simp [encScalar, encCsr]
    rw [e, csr_word, csrInstr, if_pos ⟨hop, rfl⟩]; rfl

theorem scalarInstruction (op : ScalarOp) : Statement (.scalarInstruction op) := by
  intro w hw hf _
  rw [← (Option.some.inj hw : encScalar op = w)]
  cases op with
  | lui rd imm => exact scalar_lui rd imm
  | auipc rd imm => exact scalar_auipc rd imm
  | jal rd off => exact scalar_jal rd off
  | jalr rd rs1 imm => exact scalar_jalr rd rs1 imm
  | branch op rs1 rs2 off => exact scalar_branch op rs1 rs2 off
  | opImm op rd rs1 imm => exact scalar_opImm op rd rs1 imm
  | shiftImm op rd rs1 n => exact scalar_shiftImm op rd rs1 n
  | addiw rd rs1 imm => exact scalar_addiw rd rs1 imm
  | shiftImmW op rd rs1 n => exact scalar_shiftImmW op rd rs1 n
  | alu op rd rs1 rs2 => exact scalar_alu op rd rs1 rs2
  | aluW op rd rs1 rs2 => exact scalar_aluW op rd rs1 rs2
  | unary op rd rs1 => exact scalar_unary op rd rs1
  | csrRead csr op imm rd => exact scalar_csrRead csr op imm rd hf

/-! ### Steps of the other agents -/

theorem strandPlace (launch idx : Nat) (place : Place) (n0 n1 : Nat) : Statement (.strandPlace launch idx place n0 n1) := fun _ hw _ _ => nomatch hw
theorem preempt (sid copyA copyB : Nat) : Statement (.preempt sid copyA copyB) := fun _ hw _ _ => nomatch hw
theorem contextSaveEnd (sid : Nat) : Statement (.contextSaveEnd sid) := fun _ hw _ _ => nomatch hw
theorem contextRestore (sid : Nat) (place : Place) (n0 n1 : Nat) : Statement (.contextRestore sid place n0 n1) := fun _ hw _ _ => nomatch hw
theorem chainStageUnit (c : BitVec 2) (stage : Nat) : Statement (.chainStageUnit c stage) := fun _ hw _ _ => nomatch hw
theorem portElementRead (c : BitVec 2) (port : Nat) : Statement (.portElementRead c port) := fun _ hw _ _ => nomatch hw
theorem portElementWrite (c : BitVec 2) (port : Nat) : Statement (.portElementWrite c port) := fun _ hw _ _ => nomatch hw
theorem linkElementReceive (c : BitVec 2) (link : Nat) (ty : ETag) (value : Word) (mark : Bool) : Statement (.linkElementReceive c link ty value mark) := fun _ hw _ _ => nomatch hw
theorem cutMarkerReceive (c : BitVec 2) (link cause : Nat) : Statement (.cutMarkerReceive c link cause) := fun _ hw _ _ => nomatch hw
theorem temporalPass (c : BitVec 2) : Statement (.temporalPass c) := fun _ hw _ _ => nomatch hw
theorem homeAccessApply (write : Bool) (pa bytes : Nat) (data : Word) : Statement (.homeAccessApply write pa bytes data) := fun _ hw _ _ => nomatch hw
theorem updateTokenApply (op : TokenOp) (ty : ETag) (pa : Nat) (data cmp : Word) (rm : Nat) : Statement (.updateTokenApply op ty pa data cmp rm) := fun _ hw _ _ => nomatch hw
theorem engineElement (cmd : Nat) : Statement (.engineElement cmd) := fun _ hw _ _ => nomatch hw
theorem engineCommandEnd (cmd : Nat) : Statement (.engineCommandEnd cmd) := fun _ hw _ _ => nomatch hw
theorem patrolScrub (pa err : Nat) : Statement (.patrolScrub pa err) := fun _ hw _ _ => nomatch hw
theorem writeQueueDrain (stack chan : Nat) : Statement (.writeQueueDrain stack chan) := fun _ hw _ _ => nomatch hw
theorem rowActivate (pa bank row : Nat) : Statement (.rowActivate pa bank row) := fun _ hw _ _ => nomatch hw
theorem refreshWindowStart (stack bank : Nat) : Statement (.refreshWindowStart stack bank) := fun _ hw _ _ => nomatch hw
theorem fixerScrub (pa err : Nat) : Statement (.fixerScrub pa err) := fun _ hw _ _ => nomatch hw
theorem suspectReread (pa : Nat) (intact : Bool) : Statement (.suspectReread pa intact) := fun _ hw _ _ => nomatch hw
theorem rowSparing (pa bytes : Nat) (unreadable : List Nat) : Statement (.rowSparing pa bytes unreadable) := fun _ hw _ _ => nomatch hw
theorem ucieRetrain (module : Nat) : Statement (.ucieRetrain module) := fun _ hw _ _ => nomatch hw
theorem ucieModuleLost (module : Nat) (links : List (Place × Nat)) : Statement (.ucieModuleLost module links) := fun _ hw _ _ => nomatch hw
theorem stackLost (stack : Nat) : Statement (.stackLost stack) := fun _ hw _ _ => nomatch hw
theorem bankLost (die cluster bank : Nat) : Statement (.bankLost die cluster bank) := fun _ hw _ _ => nomatch hw
theorem engineLost (die cluster engine : Nat) : Statement (.engineLost die cluster engine) := fun _ hw _ _ => nomatch hw
theorem updateNodeLost (site : NodeSite) : Statement (.updateNodeLost site) := fun _ hw _ _ => nomatch hw
theorem coreRetire (die cluster core : Nat) (unread copyA copyB : List Nat) : Statement (.coreRetire die cluster core unread copyA copyB) := fun _ hw _ _ => nomatch hw
theorem dieOutOfService (die : Nat) (unread : List Nat) (copies : List (Nat × Nat)) : Statement (.dieOutOfService die unread copies) := fun _ hw _ _ => nomatch hw
theorem hostBar4Write (pa : Nat) (data : List Byte) : Statement (.hostBar4Write pa data) := fun _ hw _ _ => nomatch hw
theorem hostBar4Read (pa bytes : Nat) : Statement (.hostBar4Read pa bytes) := fun _ hw _ _ => nomatch hw
theorem portRecordAccept (port off : Nat) (data : List Byte) : Statement (.portRecordAccept port off data) := fun _ hw _ _ => nomatch hw
theorem recordTake (port : Nat) : Statement (.recordTake port) := fun _ hw _ _ => nomatch hw
theorem pcanWrite (port bytes : Nat) (value : Word) : Statement (.pcanWrite port bytes value) := fun _ hw _ _ => nomatch hw
theorem create (asid : BitVec 10) (arg : BitVec 48) : Statement (.create asid arg) := fun _ hw _ _ => nomatch hw
theorem destroy (asid : BitVec 10) (arg : BitVec 48) : Statement (.destroy asid arg) := fun _ hw _ _ => nomatch hw
theorem flushcode (asid : BitVec 10) (arg : BitVec 48) : Statement (.flushcode asid arg) := fun _ hw _ _ => nomatch hw
theorem invaltlb (asid : BitVec 10) (arg : BitVec 48) : Statement (.invaltlb asid arg) := fun _ hw _ _ => nomatch hw
theorem pbindWrite (port : Nat) (value : Word) : Statement (.pbindWrite port value) := fun _ hw _ _ => nomatch hw
theorem placementDecision (places : List Place) (copyA copyB : List Nat) : Statement (.placementDecision places copyA copyB) := fun _ hw _ _ => nomatch hw
theorem codeObjectLoad (launch : Nat) : Statement (.codeObjectLoad launch) := fun _ hw _ _ => nomatch hw
theorem launchDeadlineExpiry (launch : Nat) : Statement (.launchDeadlineExpiry launch) := fun _ hw _ _ => nomatch hw
theorem launchComplete (launch : Nat) : Statement (.launchComplete launch) := fun _ hw _ _ => nomatch hw
theorem launchReplay (launch : Nat) : Statement (.launchReplay launch) := fun _ hw _ _ => nomatch hw
theorem hostCopy (launch : Nat) : Statement (.hostCopy launch) := fun _ hw _ _ => nomatch hw
theorem deviceReset (slotA slotB : SignedImage) : Statement (.deviceReset slotA slotB) := fun _ hw _ _ => nomatch hw
theorem fixerImageVerify (slotA slotB : SignedImage) : Statement (.fixerImageVerify slotA slotB) := fun _ hw _ _ => nomatch hw
theorem unitSelfTestEnd (kind : UnitKind) (n : Nat) (pass : Bool) : Statement (.unitSelfTestEnd kind n pass) := fun _ hw _ _ => nomatch hw
theorem attestationRequest (value : Word) : Statement (.attestationRequest value) := fun _ hw _ _ => nomatch hw
theorem pwrcapWrite (value : Word) : Statement (.pwrcapWrite value) := fun _ hw _ _ => nomatch hw
theorem rasackWrite (value : Word) : Statement (.rasackWrite value) := fun _ hw _ _ => nomatch hw
theorem thermalTrip (copyA copyB : List Nat) : Statement (.thermalTrip copyA copyB) := fun _ hw _ _ => nomatch hw
theorem wmarkWrite (stack : Nat) (value : Word) : Statement (.wmarkWrite stack value) := fun _ hw _ _ => nomatch hw
theorem hrowWrite (stack : Nat) (value : Word) : Statement (.hrowWrite stack value) := fun _ hw _ _ => nomatch hw
theorem elideMark (stack : Nat) (value : Word) : Statement (.elideMark stack value) := fun _ hw _ _ => nomatch hw
theorem fpkgWrite (value : Word) : Statement (.fpkgWrite value) := fun _ hw _ _ => nomatch hw
theorem fabricRemoteRequest (kind : RemoteKind) (asid tag fromPkg fromAsid raddr len : Nat) (data : List Byte) : Statement (.fabricRemoteRequest kind asid tag fromPkg fromAsid raddr len data) := fun _ hw _ _ => nomatch hw
theorem fabricCommandEnd (cmd : Nat) (cause : BitVec 8) (count : Nat) (location : Word) (data : List Byte) : Statement (.fabricCommandEnd cmd cause count location data) := fun _ hw _ _ => nomatch hw
theorem collectiveContribution (msg : Contribution) : Statement (.collectiveContribution msg) := fun _ hw _ _ => nomatch hw
theorem collectiveResultReceive (cmd : Nat) (data : List Word) (classes : BitVec 6) : Statement (.collectiveResultReceive cmd data classes) := fun _ hw _ _ => nomatch hw
theorem collectiveCommit (key : Nat × Nat) (acks : List Nat) : Statement (.collectiveCommit key acks) := fun _ hw _ _ => nomatch hw
theorem collectiveExpiry (tag seq : Nat) : Statement (.collectiveExpiry tag seq) := fun _ hw _ _ => nomatch hw
theorem collectiveMemberLost (tag seq member : Nat) : Statement (.collectiveMemberLost tag seq member) := fun _ hw _ _ => nomatch hw
theorem memorySideCacheLineMove (line : Nat) (toArray : Bool) : Statement (.memorySideCacheLineMove line toArray) := fun _ hw _ _ => nomatch hw
theorem bankRowSparing (pa bytes : Nat) (unreadable : List Nat) : Statement (.bankRowSparing pa bytes unreadable) := fun _ hw _ _ => nomatch hw
theorem fabricPortTrained (port : Nat) : Statement (.fabricPortTrained port) := fun _ hw _ _ => nomatch hw
theorem fabricPortLost (port : Nat) : Statement (.fabricPortLost port) := fun _ hw _ _ => nomatch hw
theorem collectiveAbortReceive (cmd reason : Nat) (mask : List Nat) : Statement (.collectiveAbortReceive cmd reason mask) := fun _ hw _ _ => nomatch hw
theorem asyncEventTake : Statement (.asyncEventTake) := fun _ hw _ _ => nomatch hw
theorem strandEnd : Statement (.strandEnd) := fun _ hw _ _ => nomatch hw
theorem waitConditionMet : Statement (.waitConditionMet) := fun _ hw _ _ => nomatch hw
theorem waitExpiry : Statement (.waitExpiry) := fun _ hw _ _ => nomatch hw
theorem thermalCalibrationEnd : Statement (.thermalCalibrationEnd) := fun _ hw _ _ => nomatch hw
theorem thermalRecover : Statement (.thermalRecover) := fun _ hw _ _ => nomatch hw
theorem scmdCommandComplete : Statement (.scmdCommandComplete) := fun _ hw _ _ => nomatch hw
theorem attestationReportComplete : Statement (.attestationReportComplete) := fun _ hw _ _ => nomatch hw

end Sys2Proof.Laws.RoundTrip
end

