-- ==== Sys2Proof/Laws/Vector.lean ====
section
/-!
SUPPORT. What the common course of a VA instruction (R131) leaves when nothing stops it: the active elements from vsta in vd,
the tag, the recorded classes, vsta 0, and nothing else.
-/
namespace Sys2Proof.Machine

/-- The elements that a loop performs. -/
def Strand.todo (h : Strand) (active : Nat → Bool) : List Nat := (rangeFrom h.vsta (h.vl - h.vsta)).filter active

theorem mem_todo {h : Strand} {active : Nat → Bool} {e : Nat} :
    e ∈ h.todo active ↔ h.vsta ≤ e ∧ e < h.vl ∧ active e = true := by
  rw [Strand.todo, List.mem_filter, mem_rangeFrom]
  constructor
  · rintro ⟨⟨a, b⟩, c⟩; exact ⟨a, by omega, c⟩
  · rintro ⟨a, b, c⟩; exact ⟨⟨a, by omega⟩, c⟩

theorem nodup_todo (h : Strand) (active : Nat → Bool) : (h.todo active).Nodup := (nodup_rangeFrom _ _).filter _

/-- Delivering an element writes vd and emask alone. -/
theorem deliver_frame {h : Strand} (hb : h.bad = []) (vd : BitVec 5) (w e : Nat) (r : Nat × Cls) :
    h.deliver vd w e r = { h with v := h.v.set vd.toFin (setElem_ (h.v.get vd.toFin) h.lown w e r.1)
                                  emask := (h.deliver vd w e r).emask } := by
  unfold Strand.deliver Strand.storeElem Strand.flag Strand.heal Strand.putElem
  rw [if_pos hb]
  split <;> rfl

/-- With no class selected, delivering an element leaves emask (R65). -/
theorem deliver_unselected {h : Strand} (vd : BitVec 5) (w e : Nat) (r : Nat × Cls) (hz : h.cls = 0) :
    (h.deliver vd w e r).emask = h.emask := by
  unfold Strand.deliver Strand.storeElem Strand.flag Strand.heal Strand.putElem
  split <;> simp [hz]

/-- No configured chain restricts an instruction. -/
theorem needChains_free {s : State} (hu : s.hart.unchained = true) (reads writes : List Res) :
    needChains reads writes s = .ok () s := by
  have : (s.hart.c.toList.any fun c => c.active &&
      ((writes.any fun r => c.rcd.reads.contains r || c.rcd.writes.contains r) ||
       (reads.any fun r => c.rcd.writes.contains r))) = false := by
    simp only [List.any_eq_false]
    intro c hc
    simp only [Strand.unchained, List.all_eq_true] at hu
    have := hu c hc
    have : c.active = false := by unfold Chain.active; cases hs : c.state <;> simp_all
    simp [this]
  unfold needChains
  simp only [run_bind, run_getH, this]
  rfl

/-- What delivering elements one after the other leaves. -/
theorem deliver_each {vd : BitVec 5} {t : ETag} (g : Nat → Nat × Cls) (es : List Nat) : ∀ h : Strand, h.bad = [] → h.lown ≤ 256 →
    es.Nodup → (∀ e ∈ es, e < h.lown * 256 / t.width) →
    let k := foldH (fun e k => k.deliver vd t.width e (g e)) es h
    k = { h with v := k.v, emask := k.emask } ∧ (h.cls = 0 → k.emask = h.emask) ∧
      (∀ r, r ≠ vd → k.v.get r.toFin = h.v.get r.toFin) ∧
      (∀ e, e < h.lown * 256 / t.width → getElem_ (k.v.get vd.toFin) h.lown t.width e =
        if e ∈ es then (g e).1 % 2 ^ t.width else getElem_ (h.v.get vd.toFin) h.lown t.width e) := by
  induction es with
  | nil => exact fun h _ _ _ _ => ⟨rfl, fun _ => rfl, fun _ _ => rfl, fun _ _ => by simp⟩
  | cons d es ih =>
    intro h hb hl hn hc
    have e₁ := deliver_frame hb vd t.width d (g d)
    have em := deliver_unselected (h := h) vd t.width d (g d)
    rw [foldH_cons]
    generalize h.deliver vd t.width d (g d) = k₁ at e₁ em
    have hl₁ : k₁.lown = h.lown := by rw [e₁]
    have hv₁ : k₁.v = h.v.set vd.toFin (setElem_ (h.v.get vd.toFin) h.lown t.width d (g d).1) := by rw [e₁]
    have hn' := List.nodup_cons.mp hn
    obtain ⟨a, b, c, f⟩ := ih k₁ (by rw [e₁]; exact hb) (by rw [hl₁]; exact hl) hn'.2
      (fun e he => by rw [hl₁]; exact hc e (List.mem_cons_of_mem _ he))
    generalize foldH (fun e k => k.deliver vd t.width e (g e)) es k₁ = k at a b c f
    have hd := hc d (List.mem_cons_self ..)
    refine ⟨a.trans (by rw [e₁]), fun hz => ?_, fun r hr => ?_, fun e he => ?_⟩
    · rw [b (by rw [e₁]; exact hz), em hz]
    · rw [c r hr, hv₁]
      exact (get_set h.v vd.toFin r.toFin _).trans (if_neg fun q => hr (toFin_inj.mp q))
    · have hset : k₁.v.get vd.toFin = setElem_ (h.v.get vd.toFin) h.lown t.width d (g d).1 := by
        rw [hv₁]; exact (get_set h.v vd.toFin vd.toFin _).trans (if_pos rfl)
      rw [← hl₁, f e (by rw [hl₁]; exact he), hl₁, hset, getElem_setElem _ t hl hd he]
      by_cases h₁ : e = d
      · subst h₁; simp [hn'.1]
      · simp [h₁]

/-- What a VA instruction that has passed its type checks does when nothing stops it. -/
theorem vaRun_calm {km : BitVec 3} {vd : BitVec 5} {regs : List (BitVec 5)} {t : ETag} {ind : Bool} {f : Strand → Nat → Nat × Cls}
    {s : State} (hc : s.calm = true) (hf : s.hart.fits (t :: regs.map s.hart.tag) = true) (hu : s.hart.unchained = true)
    (hl : s.hart.lown ≤ 256) : ∃ h, vaRun km vd regs t ind f s = .ok () (s.withHart h) ∧ s.hart.vectorFrame h vd ∧
      s.hart.delivered h vd t (s.hart.active km) fun e => (f s.hart e).1 := by
  obtain ⟨hhit, -, -, hus, hbad, hstep⟩ := (calm_iff s).mp hc
  have hcap : (t :: regs.map s.hart.tag).any (fun u => decide (s.hart.cap u < s.hart.vl)) = false := by
    simp only [Strand.fits, List.all_eq_true, decide_eq_true_eq] at hf
    simp only [List.any_eq_false, decide_eq_true_eq, Nat.not_lt]
    exact hf
  have hmem : ∀ e ∈ s.hart.todo (s.hart.active km), e < s.hart.lown * 256 / t.width := fun e he => by
    have h₁ := (mem_todo.mp he).2.1
    have h₂ : s.hart.vl ≤ s.hart.cap t := by
      simp only [Strand.fits, List.all_eq_true, decide_eq_true_eq] at hf
      exact hf t (List.mem_cons_self ..)
    exact Nat.lt_of_lt_of_le h₁ h₂
  have hall := deliver_each (vd := vd) (t := t) (f s.hart) (s.hart.todo (s.hart.active km)) (s.hart.putTag vd t) hbad hl
    (nodup_todo _ _) hmem
  have hrun : vaRun km vd regs t ind f s = .ok () (s.withHart { foldH (fun e k => k.deliver vd t.width e (f s.hart e))
      (s.hart.todo (s.hart.active km)) (s.hart.putTag vd t) with vsta := 0 }) := by
    unfold vaRun vaRunOn needCap
    simp only [run_bind, run_getH, hcap, Bool.false_eq_true, if_false, run_pure, needChains_free hu]
    exact elementLoop_fold hstep hus hhit (fun e => badOf_none hbad _) (fun _ => rfl) fun e h => by simp [Strand.deliver]
  revert hrun hall
  generalize foldH (fun e k => k.deliver vd t.width e (f s.hart e)) (s.hart.todo (s.hart.active km)) (s.hart.putTag vd t) = k
  rintro ⟨a, b, c, d⟩ hrun
  have htag : ∀ r, k.vtag.get r.toFin = if r = vd then t else s.hart.vtag.get r.toFin := fun r => by
    rw [a]; exact Strand.tag_putTag s.hart vd r t
  refine ⟨_, hrun, ⟨?_, b, fun r hr => ⟨c r hr, (htag r).trans (if_neg hr)⟩⟩, (htag vd).trans (if_pos rfl), fun e he => ?_⟩
  · rw [a]; rfl
  · have hd := d e he
    have hm : e ∈ s.hart.todo (s.hart.active km) ↔ s.hart.vsta ≤ e ∧ s.hart.active km e = true := by
      rw [mem_todo]
      refine ⟨fun h => ⟨h.1, h.2.2⟩, fun h => ⟨h.1, ?_, h.2⟩⟩
      have := h.2
      simp only [Strand.active, Bool.and_eq_true, decide_eq_true_eq] at this
      exact this.1
    simp only [hm] at hd
    exact hd

end Sys2Proof.Machine
end

