-- ==== Sys2Proof/Tests/Slice0.lean ====
section
/-!
SUPPORT. Tests: terms that WellFormed refuses, words written out from the encoding tables, one step of small states, and for each
statement a state and operands that meet its hypotheses.
-/
namespace Sys2Proof.Tests
open Sys2Proof Sys2Proof.Machine
-- one kernel evaluation at a time
set_option Elab.async false

/-! ### Terms that no encoding admits -/

theorem test_wf_vsc_needs_a_mask : Instr.wf (.vsc 0#3 1#5 2#5 3#5) = false := by decide
theorem test_wf_vsc_with_a_mask : Instr.wf (.vsc 1#3 1#5 2#5 3#5) = true := by decide
theorem test_wf_vamocas_pair : Instr.wf (.vamocas 0#3 1#5 2#5 31#5) = false := by decide
theorem test_wf_vwait_pair : Instr.wf (.vwait true 0#3 31#5 1#5 2#5) = false := by decide
theorem test_wf_tshape_type : Instr.wf (.tshape .none 1#5 2#5 0#3) = false := by decide
theorem test_wf_vsta_write_writes : Instr.wf (.vstaWrite .rs (.reg 0#5) 1#5) = false := by decide
theorem test_wf_emask_write_writes : Instr.wf (.emaskWrite .rc (.imm 0#5) 1#5) = false := by decide
theorem test_wf_ecls_write_writes : Instr.wf (.eclsWrite .rs (.imm 0#5) 1#5) = false := by decide
theorem test_wf_wceil_write_writes : Instr.wf (.wceilWrite .rc (.reg 0#5) 1#5) = false := by decide
theorem test_wf_wpt_write_writes : Instr.wf (.wptWrite 1#2 .rs (.reg 0#5) 1#5) = false := by decide
theorem test_wf_finj_write_writes : Instr.wf (.finjWrite .rs (.reg 0#5) 1#5) = false := by decide
theorem test_wf_csr_write_of_a_row : Instr.wf (.registerWrite (.csr 0x800#12 .rw (.reg 1#5) 1#5)) = false := by decide
theorem test_wf_csr_write_of_nothing : Instr.wf (.registerWrite (.csr 0x804#12 .rs (.reg 0#5) 1#5)) = false := by decide
theorem test_wf_bar0_width : Instr.wf (.registerWrite (.bar0 0 0 2 0#64)) = false := by decide
theorem test_wf_bar0_alignment : Instr.wf (.registerWrite (.bar0 0 4 8 0#64)) = false := by decide
theorem test_wf_bar2_end : Instr.wf (.registerWrite (.bar2 0 262144 8 0#64)) = false := by decide
theorem test_wf_csr_read_of_csrrw : Instr.wf (.scalarInstruction (.csrRead 0xCC0#12 .rw false 1#5)) = false := by decide
theorem test_wf_place_cluster : Instr.wf (.strandPlace 1 0 ⟨0, 25, 0, 0⟩ 4 4) = false := by decide
theorem test_wf_place_lanes : Instr.wf (.contextRestore 1 ⟨0, 0, 0, 0⟩ 6 4) = false := by decide
theorem test_wf_record_length : Instr.wf (.portRecordAccept 0 127 [0#8, 0#8]) = false := by decide
theorem test_wf_record_port : Instr.wf (.recordTake 64) = false := by decide
theorem test_wf_bind_port : Instr.wf (.pbindWrite 64 0#64) = false := by decide
theorem test_wf_cancel_bytes : Instr.wf (.pcanWrite 0 9 0#64) = false := by decide
theorem test_wf_stack : Instr.wf (.wmarkWrite 16 0#64) = false ∧ Instr.wf (.stackLost 16) = false := by decide
theorem test_wf_bank : Instr.wf (.bankLost 0 0 64) = false := by decide
theorem test_wf_engine : Instr.wf (.engineLost 0 0 2) = false := by decide
theorem test_wf_core : Instr.wf (.coreRetire 8 0 0 [] [] []) = false := by decide
theorem test_wf_die : Instr.wf (.dieOutOfService 8 [] []) = false := by decide
theorem test_wf_fabric_port : Instr.wf (.fabricPortTrained 18) = false ∧ Instr.wf (.fabricPortLost 18) = false := by decide

/-! ### Words written out from the encoding tables -/

/-- R94: funct6 0, s 0, km 2, vs2 v1, vs1 v2, vd v3. -/
theorem test_decode_vadd : decodeTableWord 32 0b00000001000000100010000110001011 = some (.vadd 2#3 false 1#5 2#5 3#5) := by decide
/-- R154's worked example: kset k2, a0. -/
theorem test_decode_kset : decodeTableWord 32 0x7814A10B = some (.kset 10#5 2#3) := by decide
/-- R115's worked example: vtag v1, fp32. -/
theorem test_decode_vtag : decodeTableWord 32 0x0206D0DB = some (.vtag .fp32 1#5) := by decide
theorem test_decode_vred : decodeTableWord 32 0x8180512B = some (.vred 3#3 5#5 2#3) := by decide
theorem test_decode_vsc : decodeTableWord 32 0x1D06B32B = some (.vsc 2#3 3#5 11#5 6#5) := by decide
theorem test_decode_tld : decodeTableWord 32 0x0025C55B = some (.tld 2#3 11#5 10#5) := by decide
theorem test_decode_mmack : decodeTableWord 32 0x1100825B = some (.mmack 2#3 0#3 1#3 4#5) := by decide
theorem test_decode_chwait : decodeTableWord 32 0x04B0857B = some (.chwait 11#5 1#2 10#5) := by decide
theorem test_decode_tlnow : decodeTableWord 32 0x0C00157B = some (.tlnow 2#2 10#5) := by decide
theorem test_decode_ecopy : decodeTableWord 32 0x00C5B57B = some (.ecopy 0#2 12#5 11#5 10#5) := by decide
theorem test_decode_vqpush : decodeTableWord 32 0x0455F57B = some (.vqpush 2#3 5#5 11#5 10#5) := by decide
theorem test_decode_claim : decodeTableWord 32 0x2000407B = some .claim := by decide
/-- The standard word of addi x1, x2, -1: immediate 0xFFF, rs1 2, funct3 0, rd 1, opcode 0x13. -/
theorem test_decode_addi : decodeTableWord 32 0b11111111111100010000000010010011 =
    some (.scalarInstruction (.opImm .addi 1#5 2#5 0xFFF#12)) := by decide
/-- The standard word of ecall. -/
theorem test_decode_ecall : decodeTableWord 32 0x73 = some .ecall := by decide
/-- The standard word of amoadd.d.aq x1, x2, (x3): funct5 0, aq 1, rl 0. -/
theorem test_decode_amo : decodeTableWord 32 0x0421B0AF = some (.amo .add true true false 2#5 3#5 1#5) := by decide
/-- A write of emask through csrrw x0, 0x801, x1. -/
theorem test_decode_csr_row : (decodeTableWord 32 0x80109073).isSome = true := by decide

/-! ### Small states -/

/-- A number as n bytes, the least significant first. -/
def le (n v : Nat) : List Byte := toBytes n v

/-- Page tables in which the first 2^40 addresses map to themselves: of the root 0x20000 as idempotent memory, of 0x21000 as
device memory. -/
def tables : Memory :=
  cellsOf 0x20000 (le 8 0x22041) ++ cellsOf 0x21000 (le 8 0x23041) ++ cellsOf 0x22000 (le 8 0xE1F) ++ cellsOf 0x23000 (le 8 0xE3F)

/-- A device in service. -/
def inService : Service := { Service.start with
  boot := .full, controller := true, fixer := true, dies := 0xFF#8, hbmStacks := 0xFFFF#16, half := false, calibrated := true }

/-- The registers that the tests name: x1 a place, x2 to x4 small numbers, x8 a misaligned place. -/
def registers : Vector Word 32 :=
  #v[0, 0x3000, 2, 1, 3, 0x3040, 0, 0xFFFFFFFFFFFFFFFF, 0x3001, 0, 0x10000, 0x1000000000000, 0x6000, 0xBFFC, 0, 0, 0, 0, 0, 0, 0, 0, 0, 0, 0, 0, 0, 0, 0,
     0, 0, 0]

/-- v6 holds the numbers 0 to 15 twice over, in bytes, as the kept positions of two rows. -/
def positions : BitVec 65536 := (rangeFrom 0 32).foldl (fun v e => setElem_ v 32 8 e (e % 16)) 0#65536

/-- Tags of v0 to v15. -/
def tags : Vector ETag 32 :=
  Vector.ofFn fun i => nth [.none, .i32, .i32, .fp32, .fp32, .e4m3, .n8, .i64, .i32, .n16, .i4, .fp16, .n8, .i64, .i64, .fp64] i.1 .none

/-- Shapes of m0 to m6: a 32-bit square thrice, two squares of bytes, and the factors of a sparse product. -/
def shapes : Vector TShape 8 :=
  Vector.ofFn fun i => nth [⟨2, 2, .i32⟩, ⟨2, 2, .i32⟩, ⟨2, 2, .i32⟩, ⟨2, 2, .i8⟩, ⟨2, 2, .i8⟩, ⟨2, 16, .i8⟩, ⟨128, 2, .i8⟩] i.1 .none

/-- A strand that runs in user mode with 32 lanes and four elements. -/
def strand : Strand := { Strand.start with
  sid := 1, launch := 1, nstr := 1, status := .running, lown := 32, root := 0x20000, asid := 2, claimVa := 0x100000
  pc := 0x1000#64, npc := 0x1004#64, x := registers, vl := 4, wid := 32, vtag := tags, tshape := shapes
  v := (Strand.start.v).set 6 positions, k := #v[0, 0b1111, 0b0101, 0, 0, 0, 0, 0]
  q := Strand.start.q.set 0 ⟨[(5#64, false), (6#64, false), (7#64, true), (8#64, false)], .i32⟩
  tl := Strand.start.tl.set 0 ⟨3#64, 1#64, []⟩ }

/-- The device with that strand. -/
def user : State := { State.reset with hart := strand, mem := tables, svc := inService, nextId := 10 }

/-- The same in supervisor mode, claimed. -/
def supervisor : State := user.withHart { strand with mode := .supervisor, claimed := true }

/-- The strand with addresses that map to device memory. -/
def device : State := user.withHart { strand with root := 0x21000 }

/-- Nothing keeps the state's strand from an instruction on vector state. -/
def free (s : State) : Bool := s.calm && s.hart.mayVector && s.hart.unchained

/-! ### For each statement, states and operands that meet its hypotheses -/

theorem meets_VectorArithmeticCompletes : free user = true ∧ commonType [user.hart.tag 1#5, user.hart.tag 2#5] = some .i32 ∧
    ETag.isInt .i32 = true ∧ user.hart.fits [.i32, .i32, .i32] = true ∧ commonType [user.hart.tag 3#5, user.hart.tag 3#5] = some .fp32 ∧
    user.hart.fits [.fp32, .fp32] = true ∧ user.hart.tag 1#5 ≠ .none ∧ user.hart.fits [user.hart.tag 1#5] = true := by decide +kernel

theorem meets_IntegerElementResults : free user = true ∧ commonType [user.hart.tag 1#5, user.hart.tag 2#5] = some .i32 ∧
    user.hart.fits [.i32, .i32, .i32] = true ∧ ETag.isInt .i32 = true ∧
    commonType [user.hart.tag 3#5, user.hart.tag 4#5] = some .fp32 ∧ ETag.isInt .fp32 = false ∧
    (255 < 2 ^ ETag.width .i8 ∧ (0 : Int) ≤ 7 ∧ (7 : Int) < ETag.width .i8) ∧ ((ETag.width .i8 : Int) ≤ 8 ∧ (-1 : Int) < 0) := by
  decide +kernel

/-- A value that lies on the grid is what it rounds to. -/
theorem rounds_exact (g k : Int) : RMode.rounds .rne (k * 2 ^ g) g k := by
  simp only [RMode.rounds, sub_self, abs_zero, mul_zero]
  exact Or.inl (by positivity)

/-- Sums of FP32 numbers: 1 + 1 in the normal range, the least subnormal and 0 below it, the greatest number doubled above it. -/
theorem meets_IntegerElementResults_floats :
    (∀ p ∈ [(0x3F800000, 8388608, -23), (0x7F7FFFFF, 16777215, 104), (1, 1, -149), (0, 0, -149)],
      decodeFloat .fp32 p.1 = .fin false p.2.1 p.2.2) ∧
    (∀ p ∈ ([(1, 2, 8388608), (-149, 2 ^ (-149 : Int), 8388608), (128, 2 * 16777215 * 2 ^ (104 : Int), 16777215)] : List (Int × ℚ × Int)),
      p.2.1 ≠ 0 ∧ 2 ^ p.1 ≤ |p.2.1| ∧ |p.2.1| < 2 ^ (p.1 + 1) ∧ RMode.rounds .rne p.2.1 (p.1 - (fmtOf .fp32).m) p.2.2) ∧
    (Num.fin false 8388608 (-23)).value + (Num.fin false 8388608 (-23)).value = 2 ∧
    (Num.fin false 1 (-149)).value + (Num.fin false 0 (-149)).value = 2 ^ (-149 : Int) ∧
    (Num.fin false 16777215 104).value + (Num.fin false 16777215 104).value = 2 * 16777215 * 2 ^ (104 : Int) := by
  refine ⟨by decide +kernel, ?_, ?_, ?_, ?_⟩
  · intro p hp
    have hm : (fmtOf .fp32).m = 23 := by decide
    have on (g k : Int) (x : ℚ) (h : x = k * 2 ^ g) : RMode.rounds .rne x g k := h ▸ rounds_exact g k
    simp only [List.mem_cons, List.not_mem_nil, or_false] at hp
    obtain rfl | rfl | rfl := hp <;> rw [hm] <;> refine ⟨by norm_num, by norm_num, by norm_num, on _ _ _ (by norm_num)⟩
  all_goals norm_num [Num.value]

theorem meets_VectorLogicAndShiftsComplete : free user = true ∧ user.hart.fits [user.hart.tag 1#5] = true ∧
    user.hart.tag 1#5 ≠ .none ∧ user.hart.tag 2#5 = user.hart.tag 1#5 ∧ (user.hart.tag 1#5).isInt = true ∧
    (user.hart.tag 7#5).isInt = true ∧ user.hart.fits [user.hart.tag 7#5] = true := by decide +kernel

theorem meets_FusedMultiplyAddCompletes : free user = true ∧
    commonType [user.hart.tag 3#5, user.hart.tag 4#5, user.hart.tag 3#5] = some .fp32 ∧
    user.hart.fits [.fp32, user.hart.tag 3#5, user.hart.tag 3#5, user.hart.tag 4#5] = true := by decide +kernel

theorem meets_ComparesComplete : free user = true ∧ user.hart.fits [user.hart.tag 1#5] = true ∧
    commonType [user.hart.tag 1#5, user.hart.tag 7#5] = some .i64 ∧ user.hart.fits [user.hart.tag 7#5] = true ∧
    user.hart.tag 1#5 = .i32 ∧ (7#3 : BitVec 3) ≠ 0#3 := by decide +kernel

theorem meets_UnaryVectorCompletes : free user = true ∧
    (∀ f ∈ unaryV, (user.hart.tag 1#5 ≠ .none ∧ f.2.2 (user.hart.tag 1#5) = true ∧ user.hart.fits [user.hart.tag 1#5] = true) ∨
      (user.hart.tag 3#5 ≠ .none ∧ f.2.2 (user.hart.tag 3#5) = true ∧ user.hart.fits [user.hart.tag 3#5] = true)) := by decide +kernel

theorem meets_SelectsAndConversionsComplete : free user = true ∧ user.hart.tag 1#5 ≠ .none ∧ user.hart.tag 2#5 = user.hart.tag 1#5 ∧
    user.hart.fits [.n16, user.hart.tag 1#5] = true ∧ user.hart.tag 3#5 ≠ user.hart.tag 1#5 ∧ user.hart.tag 3#5 ≠ .none ∧
    user.hart.fits [user.hart.tag 3#5] = true := by decide +kernel

theorem meets_BlockQuantisationCompletes : free user = true ∧ user.hart.tag 3#5 = .fp32 ∧ (5#5 : BitVec 5) ≠ 6#5 ∧
    user.hart.fits [user.hart.tag 3#5, .e4m3, .n8] = true ∧ user.hart.vsta < user.hart.vl ∧ user.hart.tag 5#5 = .e4m3 ∧
    user.hart.tag 6#5 = .n8 ∧ (user.hart.tag 4#5).isFloat = true ∧ user.hart.fits [user.hart.tag 4#5, .e4m3, .n8] = true ∧
    32 * 0 < user.hart.vl ∧ user.hart.vl < user.hart.cap .e4m3 ∧ 1 < user.hart.cap .n8 := by decide +kernel

theorem meets_MaskInstructionsComplete : user.calm = true ∧ user.hart.mayVector = true ∧ (0 : Nat) < user.hart.vl ∧
    user.hart.vl < user.hart.mlen := by decide +kernel

theorem meets_StepsKeepTidy : user.tidy = true ∧ (match step user with
    | .next _ => true
    | _ => false) = true := by decide +kernel

theorem meets_DecodeOfEncode : encodeWord (.vadd 7#3 true 31#5 31#5 31#5) = some 0x03FFFF8B ∧
    Instr.wf (.vadd 7#3 true 31#5 31#5 31#5) = true := by decide +kernel

/-- user with the text of addi x1, x2, -1 at its pc, of two bytes of no instruction, and of a word that selects nothing. -/
def withText (bs : List Byte) : State := { user with mem := cellsOf 0x1000 bs ++ tables }

theorem meets_StepRunsTheDecodedInstruction : (∀ s ∈ [withText (le 4 0xFFF10093), withText (le 2 0), withText (le 4 0xFFFFFFFF),
      withText (le 2 0x0001)], s.agenda = [] ∧ turnDue (s.now + Config.tick) = false ∧ s.svc.boot ≠ .failed ∧ s.hart.status = .running ∧
      s.hart.wait = none ∧ (∀ k ∈ s.parked, k.status = .running → k.wait = none) ∧ hasPending s.hart = false ∧ s.hart.pc ≠ 0#64 ∧
      s.choices = [] ∧ s.upsets = [] ∧ s.swapped = [] ∧ atSchedule s.hart = false ∧ s.reaches .fetch 0x1000 2 0x1000 = true ∧ s.reaches .fetch 0x1002 2 0x1002 = true ∧
      readsBad s 0x1000 2 = false ∧ readsBad s 0x1002 2 = false) ∧
    ofBytes (homeBytes (withText (le 4 0xFFF10093)) 0x1000 2) % 4 = 3 ∧
    (decode (homeBytes (withText (le 4 0xFFF10093)) 0x1000 4)).toOption = some (.scalarInstruction (.opImm .addi 1#5 2#5 0xFFF#12), []) ∧
    ofBytes (homeBytes (withText (le 4 0xFFFFFFFF)) 0x1000 2) % 4 = 3 ∧
    (decode (homeBytes (withText (le 4 0xFFFFFFFF)) 0x1000 4)).isOk = false ∧ ofBytes (homeBytes (withText (le 2 0)) 0x1000 2) % 4 ≠ 3 ∧
    (decode (homeBytes (withText (le 2 0)) 0x1000 2)).isOk = false ∧
    (decode (homeBytes (withText (le 2 1)) 0x1000 2)).isOk = true := by decide +kernel

theorem meets_XRegisters : (31#5 : BitVec 5) ≠ 0#5 ∧ (1#5 : BitVec 5) ≠ 31#5 := by decide

theorem meets_ScalarInstructionsComplete : user.hart.plain = true ∧ supervisor.hart.plain = true := by decide +kernel

theorem meets_ScalarResults : (BitVec.intMin 64 : Word) = 0x8000000000000000#64 ∧ (BitVec.allOnes 64 : Word) ≠ 0#64 ∧
    (BitVec.intMin 32 : BitVec 32) ≠ 0#32 ∧ (BitVec.allOnes 32 : BitVec 32) ≠ 0#32 ∧ 0xFFFFFFFF < 2 ^ 32 ∧ 2 ^ 64 - 1 < 2 ^ 64 := by decide

theorem meets_CsrReadsComplete : user.hart.plain = true ∧ csrValue user 0xCC0 = some 4#64 ∧ csrValue user 0x100 = none ∧
    (csrValue supervisor 0x100).isSome = true ∧ user.hart.mode = .user ∧ user.hart.place.slot < 2 ∧ supervisor.hart.mode = .supervisor ∧
    ¬ user.hart.csr.scounteren.getLsbD 0 = true ∧
    (findCore { user with cores := [⟨0, 0, 0, 8, 0, 0xFF#8, 1#8, false, 0#8, Vector.replicate 8 0#5, []⟩] } user.hart.place).isSome = true := by decide +kernel

theorem meets_CsrWritesComplete : user.hart.plain = true ∧ supervisor.hart.plain = true ∧ user.hart.unchained = true ∧
    watchPlace supervisor 0x3003#64 = some (0x3000, 64) ∧ watchPlace supervisor 0x100_0000_0003#64 = none ∧
    (0x3003#64 : Word).toNat % 4 = 3 ∧ (0x3001#64 : Word).toNat % 4 ≠ 3 ∧
    (1 / 8 % 2 = 0 ∧ (user.hart.shape 0#3).rows = 2 ∧ (user.hart.shape 0#3).cols = 2 ∧ (user.hart.shape 0#3).ty.width = 32) := by
  decide +kernel

/-- Whatever bytes below the tables come to be, a place below them is reached by the strand of user. -/
theorem settles_below (k : Access) (hk : k = .load ∨ k = .store) (va : Nat) (hva : va < 0x20000) (W : Nat → Prop)
    (hW : ∀ a, W a → a < 0x20000) : user.settles k va va W := by
  intro t hs hn hb hp hm
  have hq : t.poison = [] := List.eq_nil_iff_forall_not_mem.2 fun w hw => absurd (show w ∈ ([] : List Nat) from hp w hw) List.not_mem_nil
  have hr : ∀ a, 0x20000 ≤ a → homeRead t a 8 = homeRead user a 8 := fun a ha => by
    simp only [homeRead, homeBytes, Memory.getBytes]
    rw [hm a, hm (a + 1), hm (a + 1 + 1), hm (a + 1 + 1 + 1), hm (a + 1 + 1 + 1 + 1), hm (a + 1 + 1 + 1 + 1 + 1),
      hm (a + 1 + 1 + 1 + 1 + 1 + 1), hm (a + 1 + 1 + 1 + 1 + 1 + 1 + 1)] <;> exact fun h => absurd (hW _ h) (by omega)
  have hl : ∀ a, readsBad t a 8 = readsBad user a 8 := fun a => by
    simp only [readsBad, lost, hn, hb, hq]
    rfl
  have hi : ∀ a, inHbm t a = inHbm user a := fun a => by simp only [inHbm, hs, hn]
  have hj : ∀ a, inTile t a = inTile user a := fun a => by simp only [inTile, hs, hn]
  have h₁ : homeRead t 0x20000 8 = 0x22041 := (hr _ (by decide)).trans (by decide +kernel)
  have h₂ : homeRead t 0x22000 8 = 0xE1F := (hr _ (by decide)).trans (by decide +kernel)
  have e₁ : va / 2 ^ (12 + 9 * 4) % 512 = 0 := by omega
  have e₂ : va / 2 ^ (12 + 9 * 3) % 512 = 0 := by omega
  have i₁ : inHbm t 0x20000 = true := (hi _).trans (by decide +kernel)
  have i₂ : inHbm t 0x22000 = true := (hi _).trans (by decide +kernel)
  have l₁ : readsBad t 0x20000 8 = false := (hl _).trans (by decide +kernel)
  have l₂ : readsBad t 0x22000 8 = false := (hl _).trans (by decide +kernel)
  have hc : canonical va = true := by simp only [canonical, Bool.or_eq_true, decide_eq_true_eq]; omega
  have hw : walkFrom t k va 5 0x20000 = .ok 0xE1F := by
    rw [walkFrom, e₁]
    simp only [i₁, l₁, h₁, Bool.true_or, Bool.not_true, Bool.false_eq_true, if_false, Nat.mul_zero, Nat.add_zero]
    rw [if_neg (by decide), if_pos (by decide), if_neg (by decide), show 0x22041 / 4096 % 2 ^ 40 * 4096 = 0x22000 from rfl, walkFrom, e₂]
    simp only [i₂, l₂, h₂, Bool.true_or, Bool.not_true, Bool.false_eq_true, if_false, Nat.mul_zero, Nat.add_zero]
    rw [if_neg (by decide), if_neg (by decide), if_neg (by decide)]
  have hm : inHbm t va = true := (hi _).trans (by
    have : va / 2 ^ 36 = 0 := by omega
    simp only [inHbm, this, Bool.and_eq_true, decide_eq_true_eq]
    exact ⟨by omega, by decide +kernel⟩)
  have hp : (0 : Nat) * 4096 + va % 2 ^ (12 + 2 * 14) = va := by omega
  show (if !canonical va then Except.error (pageCause k) else match walkFrom t k va 5 0x20000 with
    | .error c => .error c
    | .ok e => leafAddress t true k va e) = _
  rw [hc, hw]
  have perm : permission true k 0xE1F = none := by rcases hk with rfl | rfl <;> decide
  simp only [Bool.not_true, Bool.false_eq_true, if_false, leafAddress, perm]
  rw [show 0xE1F / 4096 % 2 ^ 40 * 4096 + va % 2 ^ (12 + 2 * (0xE1F / 256 % 16)) = va by omega, inMemory, hm]
  rfl

/-- Elements at places below the tables are reached by user's stores. -/
theorem reaches_below (es : List Nat) (va : Nat → Nat) (n : Nat) (h : ∀ e ∈ es, va e % n = 0 ∧ va e + n ≤ 0x20000) (hn : 0 < n) :
    user.reachesAll .store es va va n := by
  intro e he
  obtain ⟨h₁, h₂⟩ := h e he
  refine ⟨h₁, by simp only [ctlBase]; omega, settles_below .store (.inr rfl) _ (by omega) _ ?_⟩
  rintro a (⟨d, hd, ha⟩ | ⟨f, hf, -⟩)
  · have := (h d hd).2
    have := ha.2
    omega
  · exact absurd (show f ∈ ([] : List Held) from hf) List.not_mem_nil

/-- A port bound to virtual function 64. -/
def boundPort : State := { user with ports := user.ports.set 5 { Port.start with vf := 64 } }

theorem meets_RegisterWritesComplete : user.hart.plain = true ∧ supervisor.hart.mode = .supervisor ∧ (0xC00#12 : BitVec 12).toNat = 0xC00 ∧
    user.ports.length = 64 ∧ boundPort.ports.length = 64 ∧ (0x1000 + 8 * 63 < 0x1200 ∧ 0x4000 + 8 * 1023 < 0x6000) ∧
    ((rangeFrom 0 64).filter fun p => (0 : Nat) == 0 || (nth user.ports p .start).vf == 0)[0x3FFF8 / 4096]? = some 63 ∧
    ((rangeFrom 0 64).filter fun p => (64 : Nat) == 0 || (nth boundPort.ports p .start).vf == 64)[0x88 / 4096]? = some 5 ∧
    ((rangeFrom 0 64).filter fun p => (1 : Nat) == 0 || (nth boundPort.ports p .start).vf == 1)[0x88 / 4096]? = none := by decide +kernel

/-- The strand with addresses that map to the control space of the stacks. -/
def controlling : State := { user with mem := (tables ++ cellsOf 0x24000 (le 8 0x25041) ++ cellsOf 0x25000 (le 8 (ctlBase + 0xE3F))), hart := { strand with root := 0x24000 } }

/-- The strand with no page mapped. -/
def unmapped : State := user.withHart { strand with root := 0x40000 }

/-- The strand in a strip that may be rewound, with the word at 0x3000 uncorrectable. -/
def spoilt : State := { user with poison := [0x3000], hart := { strand with
  strip := { strand.strip with rewindable := true, checkpoint := some ⟨0x1000#64, registers, 2#32, 0#16384, strand.ea⟩ } } }

/-- device with a default deadline of 0. -/
def hasty : State := device.withHart { device.hart with wdef := 0#64 }

theorem meets_ScalarMemoryCompletes : user.calm = true ∧ device.calm = true ∧ canonical 0x3000 = true ∧ canonical 0x3001 = true ∧
    user.reaches .load 0x3000 8 0x3000 = true ∧ user.ownGood 0x3000 8 = true ∧ user.reaches .store 0x3000 8 0x3000 = true ∧
    device.reaches .load 0x3000 4 0x3000 = false ∧
    (translate device device.hart.root true .load 0x3000).toOption = some (0x3000, true) ∧
    (translate device device.hart.root true .store 0x3000).toOption = some (0x3000, true) ∧
    readsBad device.committed 0x3000 8 = false ∧ 0 < min device.hart.wdef.toNat device.hart.wceil ∧
    min hasty.hart.wdef.toNat hasty.hart.wceil = 0 ∧ (user.hart.rx 8#5).toNat % 4 ≠ 0 := by decide +kernel

theorem meets_ScalarMemoryCompletes_faults : controlling.calm = true ∧ unmapped.calm = true ∧ spoilt.calm = true ∧
    (∀ k ∈ [Access.load, .store], (translate controlling controlling.hart.root true k 0x3000).toOption = some (ctlBase + 0x3000, true) ∧
      (match translate unmapped unmapped.hart.root true k 0x3000 with
        | .error c => c == pageCause k && c != 28
        | .ok _ => false) = true) ∧
    canonical (user.hart.rx 11#5).toNat = true ∧ canonical 0x100000000000000 = false ∧
    spoilt.reaches .load 0x3000 8 0x3000 = true ∧ spoilt.ownGood 0x3000 8 = false ∧ spoilt.hart.mode = .user ∧
    spoilt.hart.strip.rewinds = 0 ∧ spoilt.hart.strip.checkpoint.isSome = true ∧ replayable spoilt = false ∧
    replayable { spoilt with launches := [{ newLaunch 1 2 (some 3) (le 40 0 ++ le 8 (2 ^ 20) ++ le 80 0) 0 false [] 0 1 with id := 1 }] } = true := by
  decide +kernel

theorem meets_StoresReachTheirBytes : ([1#8] : List Byte) ≠ [] ∧ (∀ i, i < 8 → lost user (0x3000 + i) = false) ∧
    user.hart.strip.buffer = [] := by decide +kernel

/-- supervisor with stack 1 lost and a place in it in x1. -/
def lostStack : State := { supervisor with lostNodes := [.stack 1], hart := { supervisor.hart with x := registers.set 1 0x1000000000#64 } }

theorem meets_AtomicsComplete : user.calm = true ∧ canonical 0x3000 = true ∧ user.reaches .load 0x3000 8 0x3000 = true ∧
    user.ownGood 0x3000 8 = true ∧ user.reaches .store 0x3000 8 0x3000 = true ∧ lost user 0x3000 = false ∧
    user.committed.ownGood 0x3000 8 = true ∧ (user.hart.rx 8#5).toNat % 8 ≠ 0 ∧
    (translate device device.hart.root true .load 0x3000).toOption = some (0x3000, true) ∧
    (translate device device.hart.root true .store 0x3000).toOption = some (0x3000, true) ∧ device.calm = true ∧
    (lostStack.withHart { lostStack.hart with claimed := false, mode := .user }).calm = true := by decide +kernel

theorem meets_AtomicsComplete_lost : lostStack.calm = true ∧ lostStack.hart.mode = .supervisor ∧ lost lostStack 0x1000000000 = true ∧
    replayable lostStack = false ∧ canonical 0x1000000000 = true := by decide +kernel

theorem meets_FencesAndScopedAccessesComplete : user.calm = true ∧ supervisor.calm = true ∧ user.reaches .load 0x3000 8 0x3000 = true ∧
    user.ownGood 0x3000 8 = true ∧ user.reaches .store 0x3000 8 0x3000 = true ∧ user.hart.mode = .user ∧
    supervisor.hart.mode = .supervisor := by decide +kernel

/-- user with a cut of chain 3, a hit of watchpoint 3 and a step pending. -/
def eventful (cut : Bool) (hit : Bool) : State := user.withHart { strand with
  cuts := Vector.ofFn fun i => if cut && i.1 == 3 then some (26, 7) else none
  hits := Vector.ofFn fun i => if hit && i.1 == 3 then some 9 else none, step := some 4 }

/-- user at address 0. -/
def atEnd : State := user.withHart { strand with pc := 0#64 }

theorem meets_EnvironmentCallsAndEvents : user.hart.hit = none ∧ supervisor.hart.hit = none ∧
    (∀ s ∈ [eventful true true, eventful false true, eventful false false, atEnd], s.hart.status = .running ∧ s.hart.wait = none ∧
      s.hart.mode = .user) ∧
    ((eventful true true).hart.cuts.get 3 = some (26, 7) ∧ ∀ j : Fin 4, j < 3 → (eventful true true).hart.cuts.get j = none) ∧
    ((∀ i : Fin 4, (eventful false true).hart.cuts.get i = none) ∧ (eventful false true).hart.hits.get 3 = some 9 ∧
      ∀ j : Fin 4, j < 3 → (eventful false true).hart.hits.get j = none) ∧
    ((∀ i : Fin 4, (eventful false false).hart.cuts.get i = none ∧ (eventful false false).hart.hits.get i = none) ∧
      (eventful false false).hart.step = some 4) ∧
    atEnd.hart.pc = 0#64 ∧ atEnd.hart.bad = [] ∧ atEnd.hart.unchained = true ∧ atEnd.hart.kept = [] ∧
    (∀ i : Fin 4, (atEnd.hart.c.get i).links = []) ∧ (supervisor.withHart { supervisor.hart with pc := 0#64 }).hart.pc = 0#64 := by
  decide +kernel

/-- supervisor that has not claimed. -/
def unclaimed : State := supervisor.withHart { supervisor.hart with claimed := false }

theorem meets_ClaimAndReturnComplete : supervisor.hart.plain = true ∧ supervisor.hart.claimed = true ∧ unclaimed.hart.plain = true ∧
    unclaimed.hart.claimed = false ∧ unclaimed.hart.unchained = true ∧ unclaimed.choices = [] ∧ user.hart.plain = true ∧
    ((rangeFrom 0 164).map fun i => 0x100000 + 4096 * i).length = claimBytes / 4096 ∧
    (∀ i, i < 164 → unclaimed.reaches .store ((unclaimed.hart.claimVa + 4096 * i) % 2 ^ 64) 4096 (0x100000 + 4096 * i) = true) := by
  decide +kernel

/-- With no unit lost and no word poisoned every read is good. -/
theorem reads_good {s : State} (hn : s.lostNodes = []) (hb : s.lostBanks = []) (hp : s.poison = []) (pa n : Nat) : readsBad s pa n = false := by
  simp [readsBad, lost, hn, hb, hp]

/-- A run of bytes in a memory whose lower cells stand first. -/
theorem bulk_split {low high : Memory} {p n : Nat} (h : ∀ c ∈ low, c.1 < p) (k : ∀ c ∈ high, p ≤ c.1) :
    Memory.bulk (low ++ high) p n = runFrom n p high := by
  induction low with
  | nil =>
    cases high with
    | nil => rfl
    | cons c high =>
      have := k c List.mem_cons_self
      rw [Memory.bulk, List.nil_append, List.dropWhile_cons, if_neg (by simpa using this)]
  | cons c low ih =>
    have := ih fun d hd => h d (List.mem_cons_of_mem _ hd)
    rw [Memory.bulk, List.cons_append, List.dropWhile_cons, if_pos (decide_eq_true (h c List.mem_cons_self))]
    exact this

/-- A run that ends before the first cell. -/
theorem run_zeros {l : Memory} : ∀ {n k : Nat}, (∀ c ∈ l, k + n ≤ c.1) → runFrom n k l = List.replicate n 0#8
  | 0, _, _ => rfl
  | n + 1, k, h => by
    cases l with
    | nil => exact congrArg (0#8 :: ·) (run_zeros (by simp))
    | cons c l =>
      have := h c List.mem_cons_self
      rw [runFrom, if_neg (by omega), run_zeros fun d hd => by have := h d hd; omega]
      rfl

/-- A run of pages of bytes that no cell lists. -/
theorem pages_zeros {low high : Memory} : ∀ {l : List Nat}, (∀ p ∈ l, (∀ c ∈ low, c.1 < p) ∧ ∀ c ∈ high, p + 4096 ≤ c.1) →
    l.flatMap (fun p => Memory.bulk (low ++ high) p 4096) = List.replicate (l.length * 4096) 0#8
  | [], _ => rfl
  | p :: l, hl => by
    have hp := hl p List.mem_cons_self
    rw [List.flatMap_cons, bulk_split hp.1 fun c hc => by have := hp.2 c hc; omega, run_zeros hp.2,
      pages_zeros fun q hq => hl q (List.mem_cons_of_mem _ hq), List.replicate_append_replicate, List.length_cons]
    congr 1
    omega

theorem sub_zeros (n o k : Nat) : sub (List.replicate n 0#8) o k = 0 := by
  have hz : ∀ n, ofBytes (List.replicate n 0#8) = 0 := fun n => by
    induction n with
    | zero => rfl
    | succ n ih => simp only [List.replicate_succ, ofBytes, ih]; rfl
  rw [sub, List.drop_replicate, List.take_replicate, hz]

/-- The pages of the claim image of supervisor. -/
def claimed : List Nat := (rangeFrom 0 164).map fun i => 0x100000 + 4096 * i

theorem image_zeros : claimed.flatMap (fun p => supervisor.mem.bulk p 4096) = List.replicate 671744 0#8 := by
  have hc : ∀ c ∈ supervisor.mem, c.1 < 0x100000 := by decide +kernel
  have hp : ∀ p ∈ claimed, 0x100000 ≤ p := by decide +kernel
  have := pages_zeros (low := supervisor.mem) (high := []) fun p h => ⟨fun c k => Nat.lt_of_lt_of_le (hc c k) (hp p h), by simp⟩
  rw [List.append_nil] at this
  rw [this, show claimed.length * 4096 = 671744 by decide +kernel]

theorem meets_ClaimAndReturnComplete_image : claimed.length = claimBytes / 4096 ∧ supervisor.hart.claimed = true ∧ supervisor.choices = [] ∧
    (∀ i, i < 164 → supervisor.reaches .load ((supervisor.hart.claimVa + 4096 * i) % 2 ^ 64) 4096 (nth claimed i 0) = true ∧
      readsBad supervisor (nth claimed i 0) 4096 = false) ∧
    claimBadField (claimed.flatMap fun p => supervisor.mem.bulk p 4096) = none ∧
    (∀ i : Fin 4, supervisor.hart.c.get i = .free ∧ nth supervisor.hart.kept i .free = .free ∧
      sub (claimed.flatMap fun p => supervisor.mem.bulk p 4096) (0x1000 + imageBytes * i) 8 % 8 = 0) ∧ supervisor.cores = [] := by
  have hr : ∀ i, i < 164 → supervisor.reaches .load ((supervisor.hart.claimVa + 4096 * i) % 2 ^ 64) 4096 (nth claimed i 0) = true := by
    decide +kernel
  refine ⟨by decide +kernel, rfl, rfl, fun i hi => ⟨hr i hi, reads_good rfl rfl rfl _ _⟩, ?_, fun i => ⟨?_, ?_, ?_⟩, rfl⟩
  · rw [image_zeros]
    simp only [claimBadField, imageFields, sub_zeros, List.drop_replicate, List.take_replicate]
    decide +kernel
  · revert i; decide +kernel
  · revert i; decide +kernel
  · rw [image_zeros, sub_zeros]

/-- The first execution of a vector instruction on user performs these elements, unmasked. -/
theorem elements_of_user : user.hart.elements 0#3 = [0, 1, 2, 3] ∧ user.hart.elements 2#3 = [0, 2] := by decide +kernel

theorem meets_VectorLoadsComplete : user.calm = true ∧
    (∀ p ∈ ([(.unit, 1#5), (.stride 2#5, 12#5), (.index 8#5, 7#5), (.unit, 10#5)] : List (Addressing × BitVec 5)),
      user.hart.mayAccess p.1 p.2 = true ∧ p.2 ∉ p.1.regs ∧ (∀ e ∈ user.hart.elements 2#3,
        user.reaches .load (p.1.addr user.hart 1#5 (user.hart.tag p.2).width e) (accessBytes (user.hart.tag p.2))
          (p.1.addr user.hart 1#5 (user.hart.tag p.2).width e) = true ∧
        user.ownGood (p.1.addr user.hart 1#5 (user.hart.tag p.2).width e) (accessBytes (user.hart.tag p.2)) = true)) := by
  decide +kernel

/-- The places of the elements of an access of register r from x1 up. -/
def places (a : Addressing) (r : BitVec 5) : Nat → Nat := a.addr user.hart 1#5 (user.hart.tag r).width

/-- The bytes of such an element. -/
def bytesOf (r : BitVec 5) : Nat := accessBytes (user.hart.tag r)

/-- An address that does not translate is refused. -/
theorem refuses_walk {s : State} {k : Access} {va n c : Nat} (h : (canonical va && decide (va % n = 0) && c != 28 &&
    match translate s s.hart.root (s.hart.mode == .user) k va with
    | .error d => d == c
    | .ok _ => false) = true) : s.refuses k va n c := by
  simp only [Bool.and_eq_true, decide_eq_true_eq, bne_iff_ne, ne_eq] at h
  obtain ⟨⟨⟨hc, hn⟩, h28⟩, ht⟩ := h
  refine .inr (.inr ⟨hc, hn, .inl ⟨?_, h28⟩⟩)
  split at ht
  · next d hd => rw [hd, beq_iff_eq.mp ht]
  · cases ht

/-- An address is refused that is not canonical, misaligned, in the control space of a stack or not mapped; of an access of user
from x1 by x11, and of a tile with its rows x11 apart, the first elements reach memory and the next is not mapped. -/
theorem meets_VectorLoadsComplete_faults :
    (∀ k ∈ [Access.load, .store], user.refuses k (2 ^ 63) 4 (pageCause k) ∧ user.refuses k 0x3001 4 (if k = .store then 6 else 4) ∧
      controlling.refuses k 0x3001 4 (accessCause k) ∧ controlling.refuses k 0x3000 4 (accessCause k) ∧
      user.refuses k (Addressing.addr (.stride 11#5) user.hart 1#5 32 1) 4 (pageCause k) ∧
      user.refuses k (tileAddr user.hart 1#5 11#5 32 2 2) 4 (pageCause k)) ∧
    user.hart.elements 0#3 = [0, 1, 2, 3] ∧ user.hart.mayAccess (.stride 11#5) 1#5 = true ∧
    Addressing.addr (.stride 11#5) user.hart 1#5 32 0 = 0x3000 ∧ tileAddr user.hart 1#5 11#5 32 2 0 = 0x3000 ∧
    tileAddr user.hart 1#5 11#5 32 2 1 = 0x3004 ∧ user.reaches .load 0x3000 4 0x3000 = true ∧ user.ownGood 0x3000 4 = true ∧
    user.reaches .load 0x3004 4 0x3004 = true ∧ user.ownGood 0x3004 4 = true := by
  refine ⟨fun k hk => ⟨.inl ⟨by decide, rfl⟩, .inr (.inl ?_), .inr (.inl ?_), .inr (.inr ?_), refuses_walk ?_, refuses_walk ?_⟩, by decide +kernel⟩
  · revert k; decide +kernel
  · revert k; decide +kernel
  · exact ⟨by decide, by decide, .inr (by revert k; decide +kernel)⟩
  all_goals revert k; decide +kernel

/-- user after the stores of the given elements of v1 from x1 by x11, or of m0 with its rows x11 apart. -/
def storedVector (es : List Nat) : State := es.foldl (fun u e => u.walkStored (Addressing.addr (.stride 11#5) user.hart 1#5 32 e)
  (user.hart.stores 1#5 (Addressing.addr (.stride 11#5) user.hart 1#5 32 e) e)) user
def storedTile (es : List Nat) : State := es.foldl (fun u e => u.walkStored (tileAddr user.hart 1#5 11#5 32 2 e)
  (heldOf false (tileAddr user.hart 1#5 11#5 32 2 e) (toBytes 4 (user.hart.tileElem 0#3 32 (e / 2) (e % 2))))) user

theorem meets_VectorStoresComplete_faults :
    user.reachesAll .store [0] (Addressing.addr (.stride 11#5) user.hart 1#5 32) (Addressing.addr (.stride 11#5) user.hart 1#5 32) 4 ∧
    (storedVector [0]).refuses .store (Addressing.addr (.stride 11#5) user.hart 1#5 32 1) 4 15 :=
  ⟨reaches_below _ _ _ (by decide +kernel) (by decide +kernel), refuses_walk (by decide +kernel)⟩

theorem meets_VectorStoresComplete : user.calm = true ∧
    ∀ p ∈ ([(.unit, 1#5), (.stride 2#5, 12#5), (.index 8#5, 7#5), (.unit, 10#5)] : List (Addressing × BitVec 5)),
      user.hart.mayAccess p.1 p.2 = true ∧ user.reachesAll .store (user.hart.elements 0#3) (places p.1 p.2) (places p.1 p.2) (bytesOf p.2) := by
  refine ⟨by decide +kernel, fun p hp => ⟨?_, reaches_below _ _ _ ?_ ?_⟩⟩ <;> revert p <;> decide +kernel

/-- user with links on the line at 0x3000, or with none. -/
def linked : State := { user with links := [⟨0x3000, 1, true⟩] }

theorem meets_LinkedAccessesComplete : user.calm = true ∧ user.hart.mayAccess (.index 8#5) 1#5 = true ∧ (8#5 : BitVec 5) ≠ 1#5 ∧
    (user.hart.elements 2#3).length ≤ Config.gatherLinks ∧ user.hart.strip.buffer = [] ∧
    (∀ e ∈ user.hart.elements 2#3, user.reaches .load (places (.index 8#5) 1#5 e) 4 (places (.index 8#5) 1#5 e) = true ∧
      user.ownGood (places (.index 8#5) 1#5 e) 4 = true ∧ lost user (places (.index 8#5) 1#5 e) = false) ∧
    (∀ l ∈ user.links, ¬ (l.sid = user.hart.sid ∧ l.vector = true)) ∧ linked.calm = true ∧
    (∀ e ∈ user.hart.elements 2#3, holdsLink linked (places (.index 8#5) 1#5 e / 64 * 64) linked.hart.sid true = true) := by
  decide +kernel

theorem meets_LinkedAccessesComplete_store :
    user.reachesAll .store (user.hart.elements 2#3) (places (.index 8#5) 1#5) (places (.index 8#5) 1#5) (bytesOf 1#5) ∧
    linked.reachesAll .store (linked.hart.elements 2#3) (places (.index 8#5) 1#5) (places (.index 8#5) 1#5) (bytesOf 1#5) := by
  have h : user.reachesAll .store (user.hart.elements 2#3) (places (.index 8#5) 1#5) (places (.index 8#5) 1#5) (bytesOf 1#5) :=
    reaches_below _ _ _ (by decide +kernel) (by decide +kernel)
  exact ⟨h, h⟩

theorem meets_LaneSlicesComplete : user.calm = true ∧ user.hart.mayAccess (.index 8#5) 1#5 = true ∧ user.hart.badSlice = [] ∧
    (8#5 : BitVec 5) ≠ 1#5 ∧ ∀ rs1 ∈ [0#5, 13#5], ∀ e ∈ user.hart.elements 0#3,
      0 ≤ (user.hart.rx rs1 + offsetOf user.hart 8#5 e).toInt ∧ (user.hart.rx rs1 + offsetOf user.hart 8#5 e).toInt + 4 ≤ 49152 ∧
      (user.hart.rx rs1 + offsetOf user.hart 8#5 e).toNat % 4 = 0 := by decide +kernel

theorem meets_VectorAtomicsComplete : user.calm = true ∧ user.hart.mayAccess (.index 8#5) 1#5 = true ∧ user.hart.strip.buffer = [] ∧
    (8#5 : BitVec 5) ≠ 1#5 ∧ (∀ e ∈ user.hart.elements 2#3, ∀ i, i < 4 → readsBad user (places (.index 8#5) 1#5 e + i) 1 = false) ∧
    (∀ f ∈ [VAmo.add, .min, .max, .and, .or, .xor, .swp], f.accepts (user.hart.tag 1#5) = true) ∧ (1#5 : BitVec 5) ≠ 31#5 ∧
    user.hart.tag (1#5 + 1#5) = user.hart.tag 1#5 ∧ (8#5 : BitVec 5) ≠ 2#5 ∧ (user.hart.elements 2#3).head? = some 0 ∧
    min (0#64 : Word).toNat user.hart.wceil = 0 := by decide +kernel

theorem meets_CrossLaneComplete : user.calm = true ∧ user.hart.mayVector = true ∧ user.hart.unchained = true ∧ user.hart.tag 1#5 ≠ .none ∧
    user.hart.fits [user.hart.tag 1#5] = true ∧ (user.hart.tag 8#5).isInt = true ∧ user.hart.fits [user.hart.tag 8#5] = true ∧
    user.hart.tag 2#5 = user.hart.tag 1#5 := by decide +kernel

theorem meets_IntegersAccumulateExactly : ETag.isInt .i8 = true ∧ ETag.i8 ≠ .i4 ∧ (∀ x ∈ [(100 : Int), 100, -300], x.natAbs < 2 ^ 64) ∧
    [(100 : Int), 100, -300].length < 2 ^ 64 := by decide +kernel

theorem meets_ReductionsComplete : free user = true ∧ user.hart.fits [user.hart.tag 1#5] = true ∧ redType (user.hart.tag 1#5) = true ∧
    redType (user.hart.tag 2#5) = true ∧ user.hart.fits [user.hart.tag 2#5] = true ∧
    ((user.hart.tag 1#5).isSigned = true ∧ (user.hart.tag 2#5).isSigned = true) ∧
    ((user.hart.tag 3#5).isFloat = true ∧ (user.hart.tag 4#5).isFloat = true) ∧
    ((user.hart.tag 6#5).isUnsigned = true ∧ (user.hart.tag 9#5).isUnsigned = true) ∧ user.hart.tag 2#5 = user.hart.tag 1#5 ∧
    user.hart.elements 2#3 ≠ [] := by decide +kernel

theorem meets_AccumulatorMovesComplete : free user = true ∧ user.hart.tag 3#5 ≠ .none ∧ user.hart.tag 3#5 ≠ .i4 ∧
    (∀ i ∈ rangeFrom 0 12, user.reaches .load (0x3000 + 8 * i) 8 (0x3000 + 8 * i) = true ∧ user.ownGood (0x3000 + 8 * i) 8 = true ∧
      user.reaches .store (0x3000 + 8 * i) 8 (0x3000 + 8 * i) = true) ∧
    (Acc.ofImage ((rangeFrom 0 12).flatMap fun i => toBytes 8 (user.ownValue (0x3000 + 8 * i) 8))).isSome = true ∧
    (let s := { user with mem := cellsOf 0x3050 (le 8 32) ++ tables }
     (Acc.ofImage ((rangeFrom 0 12).flatMap fun i => toBytes 8 (s.ownValue (0x3000 + 8 * i) 8))) = none) := by decide +kernel

theorem meets_TzeroClears : user.calm = true ∧ user.hart.mayMatrix [0#3] = true := by decide +kernel

theorem meets_TileOperationsComplete : user.calm = true ∧ user.hart.mayMatrix [0#3, 1#3] = true ∧
    (user.hart.shape 1#3).rows = (user.hart.shape 0#3).rows ∧ (user.hart.shape 1#3).cols = (user.hart.shape 0#3).cols ∧
    (user.hart.shape 0#3).ty = (user.hart.shape 1#3).ty ∧
    oneKind [(user.hart.shape 0#3).ty, (user.hart.shape 1#3).ty, (user.hart.shape 2#3).ty] = true ∧ (user.hart.shape 2#3).legal = true := by
  decide +kernel

theorem meets_ProductsComplete : user.calm = true ∧ user.hart.mayMatrix [0#3, 3#3, 4#3] = true ∧ user.hart.mayMatrix [0#3, 5#3, 6#3] = true ∧
    factorType .i8 = true ∧ productType .i32 = true ∧ oneKind [.i32, .i8, .i8] = true ∧
    ((user.hart.shape 3#3).rows = (user.hart.shape 0#3).rows ∧ (user.hart.shape 4#3).cols = (user.hart.shape 0#3).cols ∧
      (user.hart.shape 3#3).cols = (user.hart.shape 4#3).rows) ∧
    ((user.hart.shape 5#3).rows = (user.hart.shape 0#3).rows ∧ (user.hart.shape 6#3).cols = (user.hart.shape 0#3).cols ∧
      user.hart.tag 6#5 = .n8 ∧ user.hart.fits [.n8] = true ∧ (user.hart.shape 6#3).rows = 128 ∧ (user.hart.shape 5#3).cols = 16 ∧
      2 * 16 ≤ user.hart.cap .n8 ∧ (rangeFrom 0 2).all (keptRow user.hart 6#5 16) = true) ∧
    (checksumType .i32 (user.hart.tag 1#5) = true ∧ user.hart.tag 1#5 ≠ .none ∧ user.hart.fits [user.hart.tag 1#5] = true ∧
      2 + 2 ≤ user.hart.cap (user.hart.tag 1#5)) := by decide +kernel

theorem meets_TileTransfersComplete : user.calm = true ∧ user.hart.mayMatrix [0#3] = true ∧
    (∀ e ∈ rangeFrom 0 4, user.reaches .load (tileAddr user.hart 1#5 12#5 32 2 e) 4 (tileAddr user.hart 1#5 12#5 32 2 e) = true ∧
      user.ownGood (tileAddr user.hart 1#5 12#5 32 2 e) 4 = true) ∧
    user.hart.fits [(user.hart.shape 0#3).ty] = true ∧ (user.hart.rx 3#5).toNat < (user.hart.shape 0#3).rows ∧
    (user.hart.shape 0#3).cols ≤ user.hart.cap (user.hart.shape 0#3).ty ∧ user.hart.tag 1#5 = (user.hart.shape 0#3).ty := by
  decide +kernel

theorem meets_TileTransfersComplete_store : user.reachesAll .store (rangeFrom user.hart.vsta (2 * 2 - user.hart.vsta))
    (tileAddr user.hart 1#5 12#5 32 2) (tileAddr user.hart 1#5 12#5 32 2) 4 :=
  reaches_below _ _ _ (by decide +kernel) (by decide)

theorem meets_TileTransfersComplete_faults :
    user.reachesAll .store [0, 1] (tileAddr user.hart 1#5 11#5 32 2) (tileAddr user.hart 1#5 11#5 32 2) 4 ∧
    (storedTile [0, 1]).refuses .store (tileAddr user.hart 1#5 11#5 32 2 2) 4 15 :=
  ⟨reaches_below _ _ _ (by decide +kernel) (by decide +kernel), refuses_walk (by decide +kernel)⟩

theorem meets_ShapesComplete : user.calm = true ∧ user.hart.mayVector = true ∧ user.hart.unchained = true ∧ supervisor.calm = true ∧
    supervisor.hart.mayVector = true ∧ supervisor.hart.mode = .supervisor := by decide +kernel

/-- user without elements, and with a full queue of another type. -/
def empty : State := user.withHart { strand with vl := 0 }

theorem meets_QueueTransfersComplete : free user = true ∧ user.hart.mode = .user ∧ user.hart.tag 1#5 ≠ .none ∧
    user.hart.fits [user.hart.tag 1#5] = true ∧ empty.hart.vl = 0 ∧ free empty = true ∧ 0 < user.hart.vl ∧
    (user.hart.queue 0).fits (user.hart.tag 1#5) user.hart.vl = true ∧ (user.hart.queue 0).fits (user.hart.tag 3#5) user.hart.vl = false ∧
    user.hart.rx 0#5 = 0#64 ∧ user.hart.conduit 0 = none ∧ user.hart.vl ≤ (user.hart.queue 0).elems.length ∧ (user.hart.queue 0).tag = user.hart.tag 1#5 ∧
    (user.hart.queue 0).tag ≠ user.hart.tag 3#5 ∧ (user.hart.queue 1).elems.length < user.hart.vl := by decide +kernel

/-- A state whose x1 holds a value. -/
def having (v : Word) (s : State) : State := s.withHart { s.hart with x := s.hart.x.set 1 v }

/-- user with a wait for ticket 2 of timeline 0 held, or for ticket 1. -/
def holding (ticket : BitVec 5) (clamped : Bool) : State :=
  { user with now := 60, hart := { strand with wait := some ⟨.tlwait 0#2 3#5 ticket 7#5, 60, clamped, 0#64, [], 0, []⟩ } }

/-- user with chain 0 in a state. -/
def chained (c : ChState) : State := user.withHart { strand with c := strand.c.set 0 { Chain.free with state := c } }

theorem meets_WaitsComplete : user.calm = true ∧ (user.hart.timeline 0#2).issued = 3#64 ∧ (user.hart.timeline 0#2).completed = 1#64 ∧
    3 < (user.hart.rx 1#5).toNat ∧ (user.hart.rx 3#5).toNat ≤ 1 ∧ (user.hart.rx 4#5).toNat ≤ 3 ∧ 1 < (user.hart.rx 4#5).toNat ∧
    (user.hart.rx 0#5).toNat = 0 ∧ 0 < (user.hart.rx 3#5).toNat ∧ 0 < user.hart.wceil ∧
    (∀ s ∈ [holding 2#5 true, holding 2#5 false, holding 3#5 false], s.calm = true ∧ s.hart.status = .running ∧
      s.hart.wait.any (fun w => w.expiry ≤ s.now) = true) ∧
    user.reaches .load 0x3000 8 0x3000 = true ∧ user.ownGood 0x3000 8 = true ∧ flagTest true (user.ownValue 0x3000 8) 0 = true ∧
    flagTest false (user.ownValue 0x3000 8) 1 = false := by decide +kernel

theorem meets_WaitsComplete_vector : user.hart.mayVector = true ∧ user.hart.unchained = true ∧ user.hart.tag 13#5 = .i64 ∧
    user.hart.tag (nextReg 13#5) ∈ [ETag.i32, .n32, .i64, .n64] ∧ user.hart.fits [user.hart.tag 13#5, user.hart.tag (nextReg 13#5)] = true ∧
    user.hart.activeFrom 2#3 0 user.hart.vl = [0, 2] ∧
    (∀ e ∈ user.hart.activeFrom 2#3 0 user.hart.vl, user.reaches .load (user.hart.elem 13#5 64 e) 8 (user.hart.elem 13#5 64 e) = true ∧
      user.ownGood (user.hart.elem 13#5 64 e) 8 = true ∧
      vflagTest true .i64 (user.ownValue (user.hart.elem 13#5 64 e) 8) (user.hart.elem (nextReg 13#5) 64 e) = true) ∧
    incomplete user 31 user.nextId (portsOwe user.hart) = 0 ∧ (user.hart.chain 0).state ≠ .running ∧ (chained .running).calm = true ∧
    ((chained .running).hart.chain 0).state = .running ∧ (chained .running).hart.mayVector = true := by decide +kernel

/-- user with reels: 3 without members, 4 whose last arrival the strand is, 5 in which it has arrived and leaves, 6 of another. -/
def reeled : State := { user with reels := [⟨1, 3, 0, [], [], [], []⟩, ⟨1, 4, 7, [1, 2], [2], [], []⟩, ⟨1, 5, 7, [1, 2], [1], [], [1]⟩, ⟨1, 6, 7, [2], [], [], []⟩] }

theorem meets_ReelsComplete : reeled.calm = true ∧ 2 ^ 16 ≤ (reeled.hart.rx 10#5).toNat ∧ findReel reeled 1 2 = none ∧
    (∀ r ∈ reeled.reels, findReel reeled 1 r.id = some r ∧ r.id < 2 ^ 16 ∧ r.phase < 2 ^ 32) ∧
    ((⟨1, 4, 7, [1, 2], [2], [], []⟩ : Reel).members.contains 1 = true ∧ ([2] : List Nat).contains 1 = false ∧ ∀ m ∈ [1, 2], m = 1 ∨ m ∈ [2]) ∧
    2 ^ 48 ≤ (having 0x1000000000000#64 reeled).hart.x[1].toNat ∧
    7 = ((4 * 2 ^ 32 + 6) + 1) % 2 ^ 32 ∧ 7 = ((4 * 2 ^ 32 + 5) + 2) % 2 ^ 32 ∧ (4 * 2 ^ 32 + 6) / 2 ^ 32 = 4 := by decide +kernel

theorem meets_InvalidationsComplete : user.calm = true ∧ user.hart.place.die < 8 ∧ user.svc.dies.getLsbD user.hart.place.die = true ∧
    canonical (user.hart.rx 1#5).toNat = true ∧ (user.hart.rx 11#5).toNat ≤ 2 ^ 48 ∧ 2 ^ 48 < (user.hart.rx 7#5).toNat ∧
    user.hart.mode = .user ∧ supervisor.calm = true ∧ supervisor.hart.mode = .supervisor ∧ (supervisor.hart.rx 2#5).toNat = supervisor.hart.asid ∧
    supervisor.parked = [] ∧ (4#5 : BitVec 5) ≠ 0#5 ∧ (supervisor.hart.rx 4#5).toNat ≠ supervisor.hart.asid := by decide +kernel

/-- An engine descriptor of one dimension of n elements (R303). -/
def engineBytes (src dst imm rcd : Nat) (fmt n stride : Nat) : List Byte :=
  le 8 src ++ le 8 dst ++ le 8 imm ++ le 8 rcd ++ le 1 fmt ++ le 1 fmt ++ le 1 1 ++ le 1 0 ++ le 4 0 ++ le 4 n ++ le 4 stride ++ le 4 stride ++
    le 60 0 ++ le 16 0

/-- A descriptor of fput or fget (R410). -/
def remoteBytes (l r len flags : Nat) : List Byte := le 8 l ++ le 8 r ++ le 8 len ++ le 8 0 ++ le 2 0 ++ le 2 0 ++ le 1 flags ++ le 1 0 ++ le 26 0

/-- A descriptor of fcoll: an all-reduce of two I32 elements (R413). -/
def collectiveBytes (op : Nat) : List Byte :=
  le 8 0x3000 ++ le 8 0x3800 ++ le 8 0x3A00 ++ le 8 0 ++ le 2 0 ++ le 1 op ++ le 1 5 ++ le 2 0 ++ le 2 0 ++ le 4 2 ++ le 4 9 ++ le 8 1000 ++ le 8 0

/-- user with descriptors in memory, a group of two packages, and commands of the strand. -/
def commanding : State := { user with
  svc := { inService with fgt := [(2, 0x35001#64)], fabEn := true, pkg := 4 }
  mem := tables ++ cellsOf 0x34000 (engineBytes 0x3000 0x3800 0 0 5 3 4) ++ cellsOf 0x34080 (engineBytes 0x3000 0x3800 0 0 5 0 4) ++
    cellsOf 0x34100 (engineBytes 0x3000 0x3800 0 8 5 3 4) ++ cellsOf 0x34200 (remoteBytes 0x3000 0x3800 16 0) ++
    cellsOf 0x34240 (remoteBytes 0x3000 0x3800 0 0) ++ cellsOf 0x34280 (remoteBytes 0x3000 0x3800 16 16) ++
    cellsOf 0x342C0 (collectiveBytes 0) ++ cellsOf 0x34300 (collectiveBytes 4) ++ cellsOf 0x35000 (le 8 0x35100 ++ le 2 2 ++ le 2 0 ++ le 4 55) ++
    cellsOf 0x35100 (le 4 (4 + 8192 * 2) ++ le 4 (7 + 8192 * 3)) }

/-- The engine descriptor at 0x34000. -/
def copyThree : EngDesc := parseEng (engineBytes 0x3000 0x3800 0 0 5 3 4)

/-- A command of user's strand. -/
def command (id ticket : Nat) (body : CmdBody) (next : Nat) (cancelled : Bool) (fin : Option CmdEnd) : Cmd :=
  { id := id, sid := 1, launch := 1, tl := 0, ticket := ticket, die := 0, cluster := 0, engine := 0, asid := 2, root := 0x20000, user := true, rm := 0
    body := body, next := next, cls := 0#6, word := 0, pend := [], cancelled := cancelled, fin := fin }

/-- The group of commanding. -/
def pair : Group := ⟨55, 0, [(4, 2), (7, 3)]⟩

/-- A structure of n bytes at a place can be read (as State.readsStruct says of an address that maps to itself). -/
def readable (s : State) (a n : Nat) : Bool :=
  a % 64 == 0 && (List.range (n / 8)).all fun i => s.reaches .load ((a + 8 * i) % 2 ^ 64) 8 (a + 8 * i) && s.ownGood (a + 8 * i) 8

theorem readable_reads {s : State} {a n : Nat} (h : readable s a n = true) : s.readsStruct a n fun i => a + 8 * i := by
  rw [readable, Bool.and_eq_true, List.all_eq_true] at h
  refine ⟨by simpa using h.1, fun i hi => ?_⟩
  simpa using h.2 i (List.mem_range.2 hi)

/-- commanding with commands: one that has ended and one that has not. -/
def commanded : State := { commanding with cmds := [command 1 1 (.engine .copy copyThree) 3 false (some ⟨0, 3, 0, 0⟩), command 2 3 (.engine .copy copyThree) 1 false none] }

theorem meets_CommandsIssue : commanding.calm = true ∧ (user.hart.rx 8#5).toNat % 64 ≠ 0 ∧
    (∀ p ∈ [(0x34000, 0), (0x34080, 0), (0x34100, 6)], readable commanding p.1 128 = true ∧
      engRefusal commanding .copy (homeBytes commanding p.1 128) (parseEng (homeBytes commanding p.1 128)) = p.2) ∧
    (parseEng (homeBytes commanding 0x34080 128)).total = 0 ∧ commanded.calm = true ∧
    ((0 : Nat) = 0 ∧ (commanded.hart.timeline 0#2).issued.toNat < 4 ∧ ¬ (commanded.hart.timeline 0#2).issued.toNat < 3) ∧
    findTicket commanded 0 2 = none ∧ (findTicket commanded 0 1).any (fun k => k.fin.isSome) = true ∧
    (findTicket commanded 0 3).any (fun k => k.fin.isNone && !k.cancelled) = true := by decide +kernel

theorem meets_CommandsIssue_fabric : groupOf commanding commanding.hart.asid 0 = some pair ∧
    (∀ p ∈ [(0x34200, 0), (0x34240, 0), (0x34280, 1)], readable commanding p.1 64 = true ∧
      remRefusal commanding true (homeBytes commanding p.1 64) (parseRem (homeBytes commanding p.1 64)) (some pair) = p.2) ∧
    ∀ p ∈ [(0x342C0, 0), (0x34300, 2)], readable commanding p.1 64 = true ∧
      collRefusal commanding (homeBytes commanding p.1 64) (parseColl (homeBytes commanding p.1 64)) (some pair) = p.2 := by decide +kernel

/-- commanding with one command in progress. -/
def running (c : Cmd) : State := { commanding with cmds := [c] }

theorem meets_EngineStepsComplete :
    (∀ next ∈ [2, 3], ∀ can ∈ [true, false], ∀ k ∈ [EngKind.copy, .fill],
      let c := command 1 1 (.engine k copyThree) next can none
      findCmd (running c) 1 = some c ∧ c.fin = none ∧ mustWait (running c) c = false ∧ copyThree.total = 3) ∧
    copyThree.dfmt = copyThree.sfmt ∧ copyThree.sfmt ≠ 0x10 ∧
    (let s := running (command 1 1 (.engine .copy copyThree) 2 false none)
     let r := (command 1 1 (.engine .copy copyThree) 2 false none).realm
     (agentAddr s r true .load 0x3008 4).toOption = some 0x3008 ∧ (agentAddr s r true .store 0x3808 4).toOption = some 0x3808 ∧
      readsBad s 0x3008 4 = false ∧ stridedAddr copyThree.sbase 2 (copyThree.used.map fun x => (x.1, x.2.1)) = 0x3008) ∧
    (let c := command 1 1 (.engine .copy copyThree) 2 false none
     let s := { running c with lostEngines := [(0, 0, 0), (0, 0, 1)] }
     c.engineLost s = true ∧ c.engineLost (running c) = false ∧ mustWait s c = false) := by decide +kernel

/-- The descriptor at 0x34200. -/
def putSixteen : RemDesc := parseRem (remoteBytes 0x3000 0x3800 16 0)

theorem meets_FabricStepsComplete :
    (∀ put ∈ [true, false], let c := command 1 1 (.remote put putSixteen pair) 0 false none
      findCmd (running c) 1 = some c ∧ mustWait (running c) c = false ∧ ordWait (running c) c putSixteen pair = false ∧
      (localPart c put putSixteen pair 16 (List.replicate 16 0#8) (running c)).2 = none) ∧
    (∀ cause ∈ [0, 0x80, 0x9F, 0xC0, 0xC1], remoteCause cause = true) ∧ 16 ≤ putSixteen.len ∧
    (let bad := parseRem (remoteBytes 0x10000000000 0x3800 16 0)
     let c := command 1 1 (.remote true bad pair) 0 false none
     (localPart c true bad pair 16 [] (running c)).2.isSome = true) ∧
    (∀ p ∈ [0, 17], user.svc.fabUp.getLsbD p = false) ∧ ({ inService with fabUp := 0x20001#18 } : Service).fabUp.getLsbD 17 = true := by
  decide +kernel

/-- A space of user's address space. -/
def space : Space :=
  { asid := 2, roots := List.replicate 8 0x20000, codeTable := 0, codeCount := 0, weight := 1, ttable := 0x8000, mirror := 0, ctxBase := 0x1000000
    ctxLen := 2 ^ 39, loadBase := 0x5000000, loadLen := 0x100000, devSeq := 0, served := List.replicate 8 0
    resident := [⟨1, (0, 0), false, [0x1000], 0x1200, 1, 4096, [], [], [], (0, 0), none⟩] }

theorem meets_FabricStepsComplete_request : acceptsRequest { commanding with spaces := [space] } 2 55 7 3 = true ∧
    acceptsRequest { commanding with spaces := [space] } 2 54 7 3 = false ∧ findSpace { commanding with spaces := [space] } 2 = some space ∧
    VAmo.add.accepts .fp32 = true := by decide +kernel

/-- A collective of two members at the switch. -/
def collective (acks : List Nat) (o : CollOutcome) : Collective := ⟨55, 9, 0, .i32, 2, 0, 2, 0, 1000, 50, [(0, [1#64, 2#64])], acks, [], o⟩

/-- Its result. -/
def result : List (List Word) := [[1#64, 2#64], [1#64, 2#64]]

/-- The descriptor at 0x342C0. -/
def reduceTwo : CollDesc := parseColl (collectiveBytes 0)

/-- commanding with the strand's member of that collective at a stage, and the switch in a state. -/
def member (stage : Nat) (k : Collective) : State :=
  { commanding with now := 50, cmds := [command 1 1 (.coll reduceTwo pair) stage false none], collectives := [k] }

theorem meets_CollectiveStepsComplete :
    findCollective commanding 55 9 = none ∧ findCollective (member 1 (collective [] .pending)) 55 9 = some (collective [] .pending) ∧
    (collective [] .pending).expiry ≤ (member 1 (collective [] .pending)).now ∧ 1 < (collective [] .pending).n ∧
    (∀ x ∈ ownMembers (member 2 (collective [0] (.result result 0#6))) 55 9, x.1.next = 2 ∧ x.2.2.self = 0) ∧
    (∀ m, m < 2 → m ∈ [0] ∨ (m ∈ [1] ∧ 0 ≠ m)) ∧ (ownMembers (member 2 (collective [0, 1] (.committed result 0#6))) 55 9).filter (fun x => x.1.next == 2) ≠ [] ∧
    memberCmd (member 1 (collective [] (.result result 0#6))) 1 = some (command 1 1 (.coll reduceTwo pair) 1 false none, reduceTwo, pair) ∧
    ([1#64, 2#64] : List Word).length = (collCounts reduceTwo pair).2 ∧ nth result pair.self [] = [1#64, 2#64] ∧
    findCollective (member 1 (collective [] (.aborted 1 []))) 55 9 = some (collective [] (.aborted 1 [])) ∧ pair.self = 0 ∧
    0 ∈ (collective [] (.aborted 1 [])).got.map (·.1) ∧ (collective [] (.aborted 1 [])).staleFor 0 = false ∧
    (let k := collective [] .pending
     let s := { member 1 k with now := 49 }
     findCollective s 55 9 = some k ∧ s.now < k.expiry ∧ 0 ∈ k.got.map (·.1) ∧ 1 ∉ k.got.map (·.1)) ∧
    (let k := { collective [0, 1] (.committed result 0#6) with late := [(0, false)] }
     findCollective (member 1 k) 55 9 = some k ∧ k.staleFor 0 = false ∧ (memberCmd (member 1 k) 1).isSome = true) ∧
    (let k := { collective [0, 1] (.committed result 0#6) with late := [(0, true)] }
     findCollective (member 1 k) 55 9 = some k ∧ k.staleFor 0 = true ∧ (memberCmd (member 1 k) 1).isSome = true) ∧
    (let c := command 1 1 (.coll reduceTwo pair) 0 false none
     mustWait (running c) c = false ∧ (memberCmd (running c) 1).isSome = true) := by decide +kernel

/-- A stage entry of a chain record (R204): an instruction, its sources A, B and C, its destination, its types and flags, one replica. -/
def stageBytes (i : Instr) (a b c d flags : Nat) : List Byte :=
  le 4 ((encodeWord i).getD 0) ++ le 1 a ++ le 1 b ++ le 1 c ++ le 1 d ++ le 1 0 ++ le 1 1 ++ le 2 flags ++ le 4 0

/-- A record of three stages: q0 + v2 into v8, a stream port into q1, the value of v1 out through a port (R203, R206). -/
def recordBytes : List Byte :=
  let body := stageBytes (.vadd 0#3 false 0#5 0#5 0#5) 32 2 224 8 5 ++ stageBytes (.vmv 0#3 0#5 0#5) 64 224 224 33 0 ++
    stageBytes (.vabs 0#3 0#5 0#5) 1 224 224 65 0 ++
    (le 8 0x3000 ++ le 1 5 ++ le 1 0 ++ le 1 0 ++ le 1 1 ++ le 4 8 ++ le 4 4 ++ le 40 0 ++ le 4 0) ++
    (le 8 0x3800 ++ le 1 5 ++ le 1 1 ++ le 1 0 ++ le 1 1 ++ le 4 8 ++ le 4 4 ++ le 40 0 ++ le 4 0)
  le 4 (0xC4 + 3 * 256 + 2 * 4096 + 2 * 65536) ++ le 4 (16 + body.length) ++ le 8 0 ++ body

/-- user with that record in memory, and with its chain configured and running for six elements. -/
def recorded : State := { user with mem := tables ++ cellsOf 0x34000 recordBytes }
def chaining : State := modChain 0 (fun k => { k with state := .running, quota := 6 }) (configure 0 recordBytes user)

theorem meets_ChainInstructionsComplete : recorded.calm = true ∧ recorded.hart.mayVector = true ∧ readable recorded 0x34000 16 = true ∧
    headerValid (homeBytes recorded 0x34000 16) = true ∧ readable recorded 0x34000 (recordLength (homeBytes recorded 0x34000 16)) = true ∧
    readable recorded 0x3000 16 = true ∧ headerValid (homeBytes recorded 0x3000 16) = false ∧
    (∀ c ∈ [ChState.running, .broken, .free, .rejected, .ready], ((chained c).hart.chain 0).state = c ∧ (chained c).calm = true) ∧
    (2 ^ 48 < (user.hart.rx 7#5).toNat ∧ (user.hart.rx 11#5).toNat ≤ 2 ^ 48 ∧ (user.hart.rx 0#5).toNat = 0) ∧
    quotaBreaks (chained .ready).hart ((chained .ready).hart.chain 0) 1 = false := by decide +kernel

theorem meets_ChainInstructionsComplete_image : supervisor.calm = true ∧ supervisor.hart.mode = .supervisor ∧ (supervisor.hart.chain 0).state ≠ .running ∧
    (∀ i ∈ [0, imageBytes / 8 - 1], supervisor.reaches .store ((0x3000 + 8 * i) % 2 ^ 64) 8 (0x3000 + 8 * i) = true ∧
      supervisor.reaches .load ((0x3000 + 8 * i) % 2 ^ 64) 8 (0x3000 + 8 * i) = true ∧ supervisor.ownGood (0x3000 + 8 * i) 8 = true) ∧
    (imageFields (List.replicate imageBytes 0#8) false).any (·.2) = false ∧ sub (List.replicate imageBytes 0#8) 0 8 % 8 = 0 := by
  refine ⟨by decide +kernel, by decide +kernel, by decide +kernel, by decide +kernel, ?_, ?_⟩
  · simp only [imageFields, sub_zeros]
    decide
  · rw [sub_zeros]

theorem meets_ChainStepsComplete : chaining.hart.status = .running ∧ (chaining.hart.chain 0).runs = true ∧ (chaining.hart.chain 0).links = [] ∧
    chaining.upsets = [] ∧ chaining.hart.bad = [] ∧ chaining.hart.badSlice = [] ∧ (chaining.hart.chain 0).stages.length = 3 ∧
    chaining.hart.lown ≤ 256 ∧ (chaining.hart.chain 0).complete = false ∧ (chaining.hart.chain 0).ports.length = 2 ∧
    (∀ i, i < 3 → (chaining.hart.chain 0).mayBegin i = true ∧
      (stageOp ((chaining.hart.chain 0).ent i).inst).any (fun x => x.1.elementwise) = true ∧
      (∀ x ∈ ((chaining.hart.chain 0).ent i).operands, (chaining.nextOf 0 i x.1 x.2).isSome = true) ∧ chaining.hasRoom 0 i = true) ∧
    ((chaining.hart.chain 0).ent 2).selD = 64 + 1 ∧ ((chaining.hart.chain 0).portEnt 1).format < 15 ∧ ((chaining.hart.chain 0).portEnt 1).mode ≠ 2 ∧
    lost chaining 0x3800 = false ∧ (agentAddr chaining chaining.hart.realm (chaining.hart.chain 0).user .store 0x3800 4).toOption = some 0x3800 := by
  decide +kernel

/-- chaining on Temporal, with an element read ahead, and with a link on which a marker waits. -/
def pending : State := modChain 0 (fun k => { k with tgrant := true, links := [{ LinkSt.start 1 false with marks := [6] }] }) chaining

theorem meets_ChainStepsComplete_more : (pending.hart.chain 0).runs = true ∧ (pending.hart.chain 0).tgrant = true ∧
    ((pending.hart.chain 0).link 0).marks = [6] ∧ (∀ i, i < 3 → (match attempt 0 i (bindLinks 0 chaining) with
      | .moved _ => true
      | _ => false) = true) ∧
    ((chaining.hart.chain 0).portEnt 0).dir = 0 ∧ ((chaining.hart.chain 0).portEnt 0).mode ≠ 1 ∧ ((chaining.hart.chain 0).portEnt 0).count = 8 := by
  decide +kernel

/-- What stops a stage after n units of a group: whether the chain is cut there, none where the unit is performed. -/
def stops (i n : Nat) (s : State) : Option (Option Bool) :=
  (groupUnits 0 i n s).map fun t => match unit 0 i t with
    | .ok _ _ => none
    | .error x _ => some x.cuts

theorem meets_ChainStepsComplete_groups : stops 0 4 chaining = some (some false) ∧
    (groupUnits 0 1 6 chaining).any (fun t => !(t.hart.chain 0).mayBegin 1) = true ∧
    stops 1 2 { chaining with poison := [0x3008] } = some (some true) ∧
    (groupUnits 0 1 2 chaining).any (fun t => (t.hart.chain 0).mayBegin 1 && !(t.hart.chain 0).atGroupEnd 1) = true := by decide +kernel

/-- user with a READY chain of one link, whose other end a chain of another strand holds that runs. -/
def linkedTo : State := { user with
  hart := { strand with c := strand.c.set 0 { (strand.chain 0) with state := .ready, links := [{ LinkSt.start 1 false with peer := some (2, 1, 0) }] } }
  parked := [{ strand with
    sid := 2, c := strand.c.set 1 { (strand.chain 0) with state := .running, links := [{ LinkSt.start 1 false with peer := some (1, 0, 0) }] } }] }

theorem meets_ChainInstructionsComplete_peer : linkedTo.calm = true ∧ linkedTo.hart.mayVector = true ∧ (linkedTo.hart.chain 0).state = .ready ∧
    (linkedTo.hart.chain 0).links.map (·.peer) = [some (2, 1, 0)] ∧ linkedTo.hart.sid ≠ 2 ∧
    (findStrand linkedTo 2).any (fun f => decide (f.kept.length ≤ 1) && (f.chain 1).runs && decide (0 < (f.chain 1).links.length) &&
      ((f.chain 1).link 0).marks == []) = true := by decide +kernel

theorem meets_HomeAccessesComplete : (∀ n ∈ [1, 2, 4, 8], wordAccess 0x3000 n = true) ∧ inHbm user 0x3000 = true ∧ readsBad user 0x3000 8 = false ∧
    readsBad { user with poison := [0x3000] } 0x3000 8 = true ∧ tokenAccepts (.amo .add) .i32 = true ∧ tokenAccepts .vadd .fp32 = true ∧
    inTile user (2 ^ 40) = true ∧ inHbm user (2 ^ 40 - 1) = true := by decide +kernel

theorem meets_ScrubsComplete : lost user 0x3000 = false ∧ inHbm user 0x3000 = true ∧
    ({ user with live := [0] } : State).live.contains (regionOf 0x3000) = true ∧ inTile user (2 ^ 40) = true ∧ lost user (2 ^ 40) = false ∧
    ({ user with poison := [0x3000] } : State).poison.contains 0x3000 = true ∧ user.poison.contains 0x3000 = false ∧
    ({ user with suspect := [0x3000] } : State).suspect.contains 0x3000 = true ∧ inTile user (2 ^ 40 + 63) = true := by decide +kernel

/-- user with a line cached, a write queued and rows counted. -/
def memories : State := { user with
  mscLines := [0x3000], writeQueue := [(0, 3, 0x3000), (0, 3, 0x3040)], rows := [⟨0, 2, 3, 2047⟩, ⟨0, 2, 4, 5⟩], live := [0] }

theorem meets_MemoryDevicesComplete : inHbm memories 0x3000 = true ∧ memories.mscLines.contains 0x3000 = true ∧
    memories.mscLines.contains 0x3040 = false ∧ 0 < queued memories 0 3 ∧ memories.svc.hbmStacks.getLsbD 0 = true ∧ 0x3000 / 2 ^ 36 = 0 ∧
    memories.live.contains (regionOf 0x3000) = true ∧ memories.live.contains (regionOf 0x200000) = false ∧
    (∀ c ∈ countRow 0 2 4 memories, (c.stack == 0 && c.bank == 2 && c.row == 4) = true → c.count < (stackReg memories 0).thr) ∧
    (∀ c ∈ countRow 0 2 3 memories, (c.stack == 0 && c.bank == 2 && c.row == 3) = true → (stackReg memories 0).thr ≤ c.count) ∧
    (0x3F00 % 64 < 0x3F00 / 256 % 64 ∧ 0x1010 / 256 % 64 ≤ 0x1010 % 64 ∧ 0x10000 / 65536 % 4 = 1 ∧ 0x30000 / 65536 % 4 ≠ 1) := by decide +kernel

/-- A context area for user's strand, and its mirror in another pair of stacks. -/
def copyA : Nat := 0x1000000
def copyB : Nat := 0x2001000000

/-- user with its space and its launch of one strand of eight lane groups. -/
def launchBytes (handle ctl deadline : Nat) : List Byte :=
  le 8 handle ++ le 8 0 ++ le 8 0x77 ++ le 8 0x7000 ++ le 8 0x3F00 ++ le 8 ctl ++ le 8 0 ++ le 8 deadline ++ le 64 0
def launch (id : Nat) (st : LState) (raw : List Byte) : Launch := { newLaunch id 2 (some 3) raw 0 false [] 0 1 with state := st, loaded := true }
def launched : State := { user with spaces := [space], launches := [{ launch 1 .running (launchBytes 1 (1 + 8 * 4096) 5000) with placed := true, started := [0] }] }

/-- A Flaset image of one actor whose body is its ret, with a channel of four I32 tokens from the actor to itself (R379). -/
def flasetBytes : List Byte :=
  le 4 0x0F1A5E70 ++ le 2 1 ++ le 2 1 ++ le 4 1 ++ le 4 1 ++ le 8 48 ++ le 8 80 ++ le 8 96 ++ le 8 0 ++
    (le 8 112 ++ le 8 4 ++ le 1 1 ++ le 1 1 ++ le 6 0 ++ le 8 104) ++ (le 4 0 ++ le 2 4 ++ le 2 4 ++ le 4 4 ++ le 4 5) ++
    le 8 0 ++ le 8 0 ++ le 4 0x8067

/-- user as the strand of a launch of that image, at the schedule or in a firing of the actor. -/
def flowing (actor : Option Nat) (queues : List Conduit) (type : ETag) : State := { user with
  hart := { strand with firing := some ⟨0x1000#64, 0#64, some 1, 0, actor, queues, none⟩, vtag := strand.vtag.set 1 type }
  spaces := [{ space with resident := [⟨1, (0, 0), true, [0x1000], 0, 1, 4096, flasetBytes, [], [], (0, 0), none⟩] }]
  launches := [{ launch 1 .running (launchBytes 1 (1 + 8 * 4096) 5000) with placed := true, flow := some (Flow.start flasetBytes) }] }

/-- The input and the output of the actor as it fires. -/
def conduits : List Conduit := [⟨0, true, 4, .i32, 0⟩, ⟨0, false, 4, .i32, 0⟩]

theorem meets_StepRunsTheDecodedInstruction_firing : (flowing none [] .i32).agenda = [] ∧
    turnDue ((flowing none [] .i32).now + Config.tick) = false ∧ (flowing none [] .i32).svc.boot ≠ .failed ∧
    (flowing none [] .i32).hart.status = .running ∧ (flowing none [] .i32).hart.wait = none ∧ hasPending (flowing none [] .i32).hart = false ∧
    (findLaunch (flowing none [] .i32) 1).any (fun l => (residentOf (flowing none [] .i32) l).any (fun r =>
      l.flow.any fun w => (graphAt r.image (sub l.raw 8 2)).any fun g => g == ⟨0, [0], [(0, 4)]⟩ && mayFire r.image g w 0 &&
        decide (0 < 1 * (ownOrder g 0 1).length))) = true ∧
    (flowing none [] .i32).hart.strip.buffer = [] ∧ (flowing none [] .i32).hart.bad = [] ∧ flasetOk flasetBytes 1 = true := by decide +kernel

theorem meets_QueueTransfersComplete_channel : conduitsOf flasetBytes 0 = conduits ∧
    (∀ ty ∈ [ETag.i32, .fp32], free (flowing (some 0) conduits ty) = true ∧ (flowing (some 0) conduits ty).hart.tag 1#5 = ty ∧
      (flowing (some 0) conduits ty).hart.fits [ty] = true ∧ (flowing (some 0) conduits ty).hart.vl = 4 ∧
      (flowing (some 0) conduits ty).hart.conduit 0 = some ⟨0, true, 4, .i32, 0⟩ ∧
      (flowing (some 0) conduits ty).hart.conduit 1 = some ⟨0, false, 4, .i32, 0⟩ ∧
      (channelTokens (flowing (some 0) conduits ty) 0).length = 4) ∧
    (∀ c ∈ [Conduit.mk 0 true 4 .i32 1, ⟨0, false, 4, .i32, 1⟩], c.rate < c.moved + 4 ∧
      (flowing (some 0) [c] .i32).hart.conduit 0 = some c) := by decide +kernel

theorem meets_LossesComplete : user.lostModules.contains 0 = false ∧ user.svc.hbmStacks.getLsbD 15 = true ∧ user.lostBanks.contains (7, 24, 63) = false ∧
    user.lostEngines.contains (7, 24, 1) = false ∧ coreInService user ⟨7, 24, 7, 0⟩ = true ∧
    (strands user).filter (fun h => liesOn h 7 24 7) = [] ∧ (strands launched).filter (fun h => liesOn h 0 0 0) = [launched.hart] ∧
    launched.hart.status = .running ∧ copiesOk launched launched.hart copyA copyB = true ∧
    (∀ site ∈ [NodeSite.cluster 7 24, .stack 15], nodeThere user site = true ∧ user.lostNodes.contains site = false) ∧
    user.svc.dies.getLsbD 7 = true ∧ (strands user).filter (fun h => (h.status == .running || h.status == .saving) && h.place.die == 7) = [] ∧
    (strands launched).filter (fun h => (h.status == .running || h.status == .saving) && h.place.die == 0) = [launched.hart] := by decide +kernel

theorem meets_LossesComplete_saves : launched.hart.sid ∉ [2] ∧ launched.hart.sid ∈ [1] ∧ copiesOk launched launched.hart copyA copyA = false ∧
    (clearCores (fun h => liesOn h 0 0 0) [2] [(copyA, copyB)] launched).hart.status = .saving ∧
    (clearCores (fun h => liesOn h 0 0 0) [2] [(copyA, copyA)] launched).hart.status = .saving := by decide +kernel

/-- The package with a launch that waits to be placed. -/
def waiting : State := { State.reset with
  svc := inService, mem := tables, nextId := 10, spaces := [space], launches := [launch 2 .ready (launchBytes 1 (1 + 8 * 4096) 5000)] }

theorem meets_PlacementsComplete : (findLaunch waiting 2).all (fun l => mayPlace l && decide (0 < l.ctl 0 12) && !l.started.contains 0 &&
      alone waiting l && (findSpace waiting l.asid).isSome && (residentOf waiting l).isSome && placeable waiting l 0 ⟨0, 0, 0, 0⟩ 8 0 &&
      mayTake waiting l ⟨0, 0, 0, 0⟩ && nodesInOrder waiting == [l] && savedOf waiting l == [] && unstarted l == [0] &&
      decide (turnOf waiting [] (nodesInOrder waiting) = .place l []) && decide (leastPlaced waiting l ≤ 1) &&
      !([⟨0, 0, 0, 0⟩] : List Place).any (barred waiting []) && (placeAll 2 [⟨0, 0, 0, 0⟩] waiting).isSome) = true ∧
    (findLaunch waiting 2).isSome = true ∧ waiting.hart.status = .unplaced := by decide +kernel

/-- launched with a row launch of higher priority that needs all of core 0. -/
def contended : State := { launched with
  cores := [⟨0, 0, 0, 8, 0, 0xFF#8, 0#8, false, 0#8, Vector.replicate 8 0#5, []⟩]
  launches := launched.launches ++ [{ launch 2 .ready (launchBytes 1 (1 + 8 * 4096 + 2 * 2 ^ 28) 5000) with prio := 7, order := 2 }] }

theorem meets_PlacementsComplete_preempt : turnOf contended [] (nodesInOrder contended) = .preempt launched.launches ∧
    (strands contended).filter (fun h => h.status == .running && (launched.launches.map (·.id)).contains h.launch) = [contended.hart] ∧
    copiesOk contended contended.hart copyA copyB = true ∧ findStrand contended 1 = some contended.hart := by decide +kernel

/-- The cells of an area of version 1 whose sstatus shows UXL 2, and all else zero (R80, R285). -/
def areaCells : Memory := [(copyA, 1#8), (copyA + 0x1C4, 2#8)]

/-- The package with the strand saved in two areas, the second without a valid sstatus, of which one may be lost with its stack. -/
def saved (gone : List NodeSite) : State := { launched with
  hart := { strand with status := .saved, lown := 256, copies := (copyA, copyB) }, lostNodes := gone
  mem := tables ++ areaCells ++ [(copyB, 1#8)] }

theorem meets_PlacementsComplete_restore : ∀ gone ∈ [[], [NodeSite.stack 0, .stack 2]],
    ((saved gone).launches.head?.all fun l => l.state == .running && alone (saved gone) l && mayTake (saved gone) l ⟨0, 0, 0, 0⟩ &&
      resumePlace (saved gone) l (saved gone).hart ⟨0, 0, 0, 0⟩) = true ∧ findStrand (saved gone) 1 = some (saved gone).hart ∧
    (findLaunch (saved gone) 1).isSome = true ∧ findSpace (saved gone) 2 = some space ∧ canPlace (saved gone) ⟨0, 0, 0, 0⟩ 8 8 0 = true ∧
    mayResume (saved gone) (saved gone).hart 8 = true := by decide +kernel

/-- A running strand of a running launch, in the middle of its save. -/
def saving : State := launched.withHart { strand with status := .saving, copies := (copyA, copyB) }

theorem meets_PlacementsComplete_save : findStrand saving 1 = some saving.hart ∧ saving.hart.status = .saving ∧
    (findLaunch saving 1).any (fun l => l.state == .running) = true ∧ saving.hart.copies.1 ≠ saving.hart.copies.2 ∧
    (let s := launched.withHart { strand with status := .saving }
     findStrand s 1 = some s.hart ∧ s.hart.copies.1 = s.hart.copies.2 ∧ copiesOk s s.hart copyA copyB = true ∧
      (findLaunch { s with launches := [launch 1 .draining []] } 1).any (fun l => l.state != .running) = true) := by decide +kernel

theorem lost_areas : lostBlocks (saved [.stack 0, .stack 2]) copyA copyB areaBytes = true ∧
    lostBlocks (saved []) copyA copyB areaBytes = false ∧ (saved []).hart.c.toList.all (fun k => k.state == .free && k.links == []) = true := by
  refine ⟨by decide +kernel, ?_, by decide +kernel⟩
  simp [lostBlocks, reads_good (s := saved []) rfl rfl rfl]

/-- The first block of the saved area. -/
def firstBlock : List Byte := Memory.bulk (saved []).mem copyA 4096

theorem firstBlock_length : firstBlock.length = 4096 := by decide +kernel

theorem drop_rest {o n : Nat} (h : 4096 ≤ o) :
    (firstBlock ++ List.replicate n 0#8).drop o = List.replicate (n - (o - 4096)) 0#8 := by
  rw [List.drop_append, List.drop_eq_nil_of_le (by rw [firstBlock_length]; exact h), firstBlock_length, List.drop_replicate, List.nil_append]

theorem sub_rest {o n k : Nat} (h : 4096 ≤ o) : sub (firstBlock ++ List.replicate n 0#8) o k = 0 := by
  have hz := sub_zeros (n - (o - 4096)) 0 k
  rw [sub, List.drop_zero] at hz
  rw [sub, drop_rest h, hz]

theorem area_ones : readArea (saved []) copyA copyB = firstBlock ++ List.replicate 929792 0#8 := by
  have hr : ∀ i ∈ rangeFrom 0 228, readsBad (saved []) (copyA + 4096 * i) 4096 = false := fun i _ => reads_good rfl rfl rfl _ _
  have hs : readArea (saved []) copyA copyB =
      ((rangeFrom 0 228).map fun i => copyA + 4096 * i).flatMap fun p => Memory.bulk ((tables ++ areaCells) ++ [(copyB, 1#8)]) p 4096 := by
    rw [List.flatMap_map, readArea, List.flatMap_def, List.flatMap_def]
    exact congrArg List.flatten (List.map_congr_left fun i hi => by rw [hr i hi]; rfl)
  have ht : ∀ c ∈ tables ++ areaCells, c.1 < copyA + 4096 := by decide +kernel
  have hp : ∀ p ∈ (rangeFrom 1 227).map fun i => copyA + 4096 * i, copyA + 4096 ≤ p ∧ p + 4096 ≤ copyB := by decide +kernel
  have hrest := pages_zeros (low := tables ++ areaCells) (high := [(copyB, 1#8)])
    (l := (rangeFrom 1 227).map fun i => copyA + 4096 * i) fun p h => ⟨fun c hc => Nat.lt_of_lt_of_le (ht c hc) (hp p h).1,
      fun c hc => by rw [List.mem_singleton.1 hc]; exact (hp p h).2⟩
  rw [hs, rangeFrom, List.map_cons, List.flatMap_cons, hrest,
    show ((rangeFrom 1 227).map fun i => copyA + 4096 * i).length * 4096 = 929792 by decide +kernel]
  rfl

theorem meets_PlacementsComplete_area : lostBlocks (saved []) copyA copyB areaBytes = false ∧ areaBad (readArea (saved []) copyA copyB) = false ∧
    ∀ i, i < 4 → sub (readArea (saved []) copyA copyB) (0x1000 + imageBytes * i) 8 % 8 = 0 := by
  refine ⟨lost_areas.2.1, ?_, fun i hi => ?_⟩
  · rw [area_ones]
    simp (disch := omega) only [areaBad, claimBadField, imageFields, drop_rest, sub_zeros, List.take_replicate]
    decide +kernel
  · rw [area_ones, sub_rest (by omega)]

/-- user with port 63 bound and full of records, one of them valid, or with no free slot. -/
def accepting (free : Nat) : State := { user with
  spaces := [space], launches := [launch 3 .accepted (launchBytes 1 (1 + 8 * 4096) 5000), launch 4 .running (launchBytes 1 (1 + 8 * 4096) 5000),
    launch 5 .complete (launchBytes 1 (1 + 8 * 4096) 5000)]
  ports := user.ports.set 63 { Port.start with asid := 2, en := true, free := free, seq := 1, slots := [⟨1, 5, 7, 2, launchBytes 1 (1 + 8 * 4096) 50⟩] } }

theorem meets_HostRegistersComplete : (accepting 15).ports.length = 64 ∧ (nth (accepting 0).ports 63 .start).free = 0 ∧
    (nth (accepting 15).ports 63 .start).free ≠ 0 ∧ (nth (accepting 15).ports 63 .start).en = true ∧
    (nth (accepting 15).ports 63 .start).slots ≠ [] ∧ incompletes (accepting 15) < 65536 ∧
    ((nth (accepting 15).ports 63 .start).slots.find? fun x => x.seq == 1 && x.asid == 2).isSome = true ∧
    (63 * 2 ^ 41 + 1) / 2 ^ 41 = 63 ∧ (63 * 2 ^ 41 + 1).testBit 47 = false ∧ findLaunch (accepting 15) (launchKey 2 6) = none ∧
    (∀ p ∈ [(3, LState.accepted), (4, .running), (5, .complete)], (findLaunch (accepting 15) (launchKey 2 p.1)).any (fun l => l.asid == 2 && l.state == p.2) = true) ∧
    (user.svc.rasAck ≤ 0 ∧ 0 ≤ user.svc.rasHead) ∧ ({ inService with rasAck := 1 } : Service).rasAck > 0 ∧ user.svc.atBusy = false ∧
    ({ inService with atBusy := true } : Service).atBusy = true ∧ someLaunch user = false ∧ someLaunch (accepting 15) = true := by decide +kernel

/-- A descriptor of an address space (R370). -/
def spaceBytes : List Byte :=
  (rangeFrom 0 8).flatMap (fun _ => le 8 0x20000) ++ le 8 0 ++ le 2 1 ++ le 2 1 ++ le 4 0 ++ (rangeFrom 0 6).flatMap fun _ => le 8 0x10000

/-- user in the middle of a command of SCMD. -/
def scmd (op asid arg : Nat) (spaces : List Space) (ls : List Launch) : State := { user with
  svc := { inService with scBusy := true, scCmd := BitVec.ofNat 64 (op + 16 * asid + 65536 * arg) }, spaces := spaces, launches := ls
  mem := tables ++ cellsOf 0x34000 spaceBytes }

theorem meets_SpaceCommandsComplete : (scmdRuns (scmd 1 5 0x3400 [] []) 1 5#10 0x3400#48 = true ∧ findSpace (scmd 1 5 0x3400 [] []) 5 = none ∧
      0x3400 % 8 = 0 ∧ inHbm (scmd 1 5 0x3400 [] []) 0x34000 = true ∧ readsBad (scmd 1 5 0x3400 [] []) 0x34000 128 = false ∧
      (parseSpace 5 (homeBytes (scmd 1 5 0x3400 [] []) 0x34000 128)).isSome = true) ∧
    (scmdRuns (scmd 1 2 0 [space] []) 1 2#10 0#48 = true ∧ (findSpace (scmd 1 2 0 [space] []) 2).isSome = true) ∧
    (scmdRuns (scmd 1 5 1 [] []) 1 5#10 1#48 = true ∧ 1 % 8 ≠ 0) ∧
    (scmdRuns (scmd 2 2 0 [space] [launch 5 .complete []]) 2 2#10 0#48 = true ∧ (∀ l ∈ [launch 5 .complete []], l.asid = 2 → l.state = .complete) ∧
      ∀ p ∈ (scmd 2 2 0 [space] []).ports, ∀ x ∈ p.slots, x.asid ≠ 2) ∧
    (scmdRuns (scmd 2 2 0 [space] [launch 5 .running []]) 2 2#10 0#48 = true ∧ ∃ l ∈ [launch 5 .running []], l.asid = 2 ∧ l.state ≠ .complete) ∧
    scmdRuns (scmd 2 2 1 [] []) 2 2#10 1#48 = true ∧ scmdRuns (scmd 2 2 0 [] []) 2 2#10 0#48 = true ∧
    scmdRuns (scmd 3 2 65535 [space] []) 3 2#10 65535#48 = true ∧ scmdRuns (scmd 3 2 65536 [space] []) 3 2#10 65536#48 = true ∧
    scmdRuns (scmd 4 2 0 [space] []) 4 2#10 0#48 = true ∧ scmdRuns (scmd 4 2 1 [space] []) 4 2#10 1#48 = true ∧
    ({ inService with scBusy := true, scDone := some 2 } : Service).scDone = some 2 ∧ invalidating user = false ∧
    (5#64 : Word).toNat % 16 = 5 := by decide +kernel

/-- user with launch records at 0x34000 (valid), 0x34080 (of no strand) and its space. -/
def launching (ls : List Launch) : State := { user with
  spaces := [{ space with resident := [⟨1, (0, 0), false, [0x1000], 0x1200, 1, 4096, [], [], [], (0, 0), none⟩, ⟨2, (0, 0), false, [], 0, 1, 1, [], [], [], (0, 0), none⟩] }]
  mem := tables ++ cellsOf 0x34000 (launchBytes 1 (1 + 8 * 4096) 5000) ++ cellsOf 0x34080 (launchBytes 1 0 5000), launches := ls }

theorem meets_LaunchStepsComplete_dlaunch : (launching []).calm = true ∧ (launching []).hart.rx 8#5 = 0x3001#64 ∧
    readable (launching []) 0x34000 128 = true ∧ readable (launching []) 0x34080 128 = true ∧
    recordCheck (launching []) 2 (launching []).nextOrder (homeBytes (launching []) 0x34000 128) = some [] ∧
    recordCheck (launching []) 2 (launching []).nextOrder (homeBytes (launching []) 0x34080 128) = none ∧ incompletes (launching []) < 65536 ∧
    (findSpace (launching []) 2).isSome = true ∧ findLaunch (launching []) (launchKey 2 (2 ^ 47 + 1)) = none := by decide +kernel

/-- As many launches as may be incomplete. -/
theorem meets_LaunchStepsComplete_full : incompletes (launching (List.replicate 65536 (launch 1 .ready []))) = 65536 := by
  simp only [incompletes, launching, List.filter_replicate]
  rw [if_pos (by decide), List.length_replicate]

theorem meets_LaunchStepsComplete :
    (let l := { launch 1 .ready (launchBytes 1 (1 + 8 * 4096) 5000) with loaded := false }
     isCopy l.raw = false ∧ l.loaded = false ∧ (findSpace (launching [l]) l.asid).isSome = true ∧ (residentOf (launching [l]) l).any (fun r =>
      vlFits r (256 * l.ctl 12 4) && decide (sub l.raw 8 2 < r.entries.length)) = true ∧ findSpace { launching [l] with spaces := [] } l.asid = none) ∧
    (let l := { launch 1 .ready (launchBytes 2 (1 + 8 * 4096) 5000) with loaded := false }
     (residentOf (launching [l]) l).any (fun r => !vlFits r (256 * l.ctl 12 4)) = true) ∧
    (let l := { launch 1 .ready (le 8 1 ++ le 2 1 ++ (launchBytes 1 (1 + 8 * 4096) 5000).drop 10) with loaded := false }
     (residentOf (launching [l]) l).any (fun r => vlFits r (256 * l.ctl 12 4) && decide (r.entries.length ≤ sub l.raw 8 2)) = true) ∧
    (let l := { launch 1 .ready (launchBytes 3 (1 + 8 * 4096) 5000) with loaded := false }
     residentOf (launching [l]) l = none ∧ (findSpace (launching [l]) 2).all (fun sp => (codeEntry (launching [l]) sp 3).isNone) = true) ∧
    (let l := { launch 1 .draining (launchBytes 1 (1 + 8 * 4096) 5000) with code := 1 }
     ((launching [l]).cmds.any fun c => c.launch == 1 && c.fin.isNone) = false ∧
      liveStrands ((launching [l]).withHart .start) 1 = []) ∧
    (let l := { launch 1 .running (launchBytes 1 (1 + 8 * 4096 + 2 ^ 20) 5000) with trigger := true }
     l.ctl 20 1 = 1 ∧ liveStrands (endStrands 1 (launching [l])) 1 = [] ∧
      (({ launching [l] with cmds := [command 1 1 (.engine .copy copyThree) 0 false none] }).cmds.any fun c => c.launch == 1 && c.fin.isNone) = true) ∧
    (launch 1 .accepted (launchBytes 1 (1 + 8 * 4096) 0)).accepted + sub (launchBytes 1 (1 + 8 * 4096) 0) 56 8 ≤ user.now ∧
    isCopy (launchBytes 0 0 5000) = true ∧ user.svc.boot ≠ .boot := by decide +kernel

/-- A device before any self-test. -/
def booting : State := { State.reset with svc := { Service.start with controller := true, fixer := true } }

theorem meets_DeviceStepsComplete : booting.svc.controller = true ∧ booting.svc.fixerTried = false ∧
    booting.svc.dies.getLsbD 7 = false ∧ booting.svc.deadDies.getLsbD 7 = false ∧
    (7, 24) ∉ booting.svc.deadClusters ∧ booting.svc.hbmStacks.getLsbD 15 = false ∧ booting.svc.deadStacks.getLsbD 15 = false ∧
    booting.svc.fixer = true ∧ booting.svc.calibrated = false ∧ booting.svc.tripped = false ∧
    (strands booting).filter (fun h => h.status == .running) = [] ∧ (strands launched).filter (fun h => h.status == .running) = [launched.hart] ∧
    copiesOk launched launched.hart copyA copyB = true ∧ (coreInfo booting ⟨7, 24, 7, 0⟩).lgen.getLsbD 7 = true ∧
    ({ booting.svc with fixerTried := true } : Service).fixerTried = true ∧ (coreInfo booting ⟨7, 24, 7, 0⟩).spareUsed.getLsbD 7 = false ∧
    (coreInfo { booting with cores := [⟨7, 24, 7, 0, 0, 0x80#8, 0#8, false, 0x80#8, Vector.replicate 8 0#5, []⟩] } ⟨7, 24, 7, 0⟩).spareUsed.getLsbD 7 = true ∧
    (2 ^ 40 ≤ 2 ^ 41) ∧
    ({ inService with tripped := true } : Service).tripped = true ∧ 2 ^ 40 - 4096 < 2 ^ 40 ∧ inService.hbmStacks.getLsbD ((2 ^ 40 - 4096) / 2 ^ 36) = true ∧
    booting.svc.hbmStacks.getLsbD 0 = false ∧ readsBad user 0x3000 32 = false ∧ readsBad spoilt 0x3000 32 = true := by decide +kernel

/-! ### Single steps, with results worked out from the rules -/

/-- The state that an outcome gives, or that at reset. -/
def after (o : Host.Outcome State Fault Refusal) : State :=
  match o with
  | .next t => t
  | _ => State.reset

/-- addi x1, x2, -1 with x2 = 2 (R73, R78). -/
theorem test_step_addi : (after (step (withText (le 4 0xFFF10093)))).hart.rx 1#5 = 1#64 ∧
    (after (step (withText (le 4 0xFFF10093)))).hart.pc = 0x1004#64 := by decide +kernel

/-- v1 with its element 0 at the greatest I32, and element 1 at 5. -/
def topped : State := user.withHart { strand with v := strand.v.set 1 (setElem_ (setElem_ 0#65536 32 32 0 0x7FFFFFFF) 32 32 1 5) }

/-- An immediate addition clamps at the end of I32 (R24, R134). -/
theorem test_vaddVi_clamps : (after (exec (.vaddVi 0#3 1#6 1#5 2#5) topped)).hart.elem 2#5 32 0 = 0x7FFFFFFF ∧
    (after (exec (.vaddVi 0#3 1#6 1#5 2#5) topped)).hart.elem 2#5 32 1 = 6 := by decide +kernel

/-- Subtraction of a register from itself gives zeros, and only where the mask k2 holds (R117, R131). -/
theorem test_vsub_masked : (after (exec (.vsub 2#3 false 1#5 1#5 1#5) topped)).hart.elem 1#5 32 0 = 0 ∧
    (after (exec (.vsub 2#3 false 1#5 1#5 1#5) topped)).hart.elem 1#5 32 1 = 5 := by decide +kernel

/-- Of k2 = 0101 two bits are set below vl 4 (R155). -/
theorem test_kpop_counts : (after (exec (.kpop 2#3 5#5) user)).hart.rx 5#5 = 2#64 := by decide +kernel

/-- A request above the capacity of 32 lanes, 256 elements of 32 bits, is granted the capacity (R111, R120). -/
theorem test_vshape_grants : (after (exec (.vshape .w32 1#5 5#5) user)).hart.rx 5#5 = 256#64 := by decide +kernel

/-- ecall from user mode: cause 8, the pc saved, supervisor mode (R102, R272). -/
theorem test_ecall_traps : (after (exec .ecall user)).hart.csr.scause = 8#64 ∧ (after (exec .ecall user)).hart.csr.sepc = 0x1000#64 ∧
    (after (exec .ecall user)).hart.mode = .supervisor := by decide +kernel

/-- An actor's first firing: a0 is the launch's argument and 8, x1 and x3 at their start values (R88, R379, R380). -/
theorem test_step_fires : (after (step (flowing none [] .i32))).hart.rx 10#5 = 0x7F#64 ∧
    (after (step (flowing none [] .i32))).hart.rx 1#5 = 0#64 ∧ (after (step (flowing none [] .i32))).hart.rx 3#5 = 0#64 := by decide +kernel

/-- A push under a queue's name gives the channel four tokens after the four that it holds (R380). -/
theorem test_vqpush_gives_tokens :
    channelTokens (after (exec (.vqpush 1#3 1#5 0#5 5#5) ((flowing (some 0) conduits .i32).withHart
      { (flowing (some 0) conduits .i32).hart with v := topped.hart.v }))) 0 = [0, 0, 0, 0, 0x7FFFFFFF, 5, 0, 0] := by decide +kernel

/-- amoadd.w of −1 to a word 0: the old value 0 in rd, all ones in memory (R79, R316). -/
theorem test_amoadd_wraps : (after (exec (.amo .add false false false 7#5 1#5 5#5) user)).hart.rx 5#5 = 0#64 ∧
    homeRead (after (exec (.amo .add false false false 7#5 1#5 5#5) user)) 0x3000 8 = 0xFFFFFFFF := by decide +kernel

end Sys2Proof.Tests
end

section
/-!
Writes of the CSRs and of the host's registers (R19, R80 to R85, R368 to R372, R388, R402, R405, R406).
-/
namespace Sys2Proof.Machine

/-! ### Writes of CSRs by an instruction (R19, R81) -/

theorem Strand.plain_iff (h : Strand) : h.plain = true ↔ h.hit = none ∧ h.estep = false := by
  simp [Strand.plain]

/-- Reading a CSR other than cycle changes nothing. -/
theorem readCsr_some {s : State} {a : Nat} {old : Word} (hv : csrValue s a = some old) (ha : a ≠ 0xC00) :
    readCsr a s = .ok old s := by
  simp [readCsr, hv, ha]

theorem readCsr_none {s : State} {a : Nat} (hv : csrValue s a = none) : readCsr a s = .error (.bits 2) s := by
  simp [readCsr, hv]

/-- A CSR write that is allowed reads the old value, writes the new one and delivers the old one to rd. -/
theorem csrWrite_ok {a : Nat} {op : CsrOp} {src : CsrSrc} {rd : BitVec 5} {put : Word → M Unit} {s t : State} {old : Word}
    (ha : a < 0xC00) (hv : csrValue s a = some old) (hp : put (csrNew op old (csrSource s.hart src)) s = .ok () t) :
    csrWrite a op src rd put s = .ok () (t.withHart (t.hart.wx rd old)) := by
  have hro : csrReadOnly a = false := by simp [csrReadOnly, ha]
  simp [csrWrite, hro, readCsr_some hv (Nat.ne_of_lt ha), hp, writeX]

/-- A write of a register that the strand may not read is Illegal(). -/
theorem csrWrite_unread {a : Nat} {op : CsrOp} {src : CsrSrc} {rd : BitVec 5} {put : Word → M Unit} {s : State}
    (hv : csrValue s a = none) : csrWrite a op src rd put s = .error (.bits 2) s := by
  by_cases hro : csrReadOnly a = true <;> simp [csrWrite, hro, readCsr_none hv]

/-- A write of a read-only register is Illegal(). -/
theorem csrWrite_readOnly {a : Nat} {op : CsrOp} {src : CsrSrc} {rd : BitVec 5} {put : Word → M Unit} {s : State}
    (ha : 0xC00 ≤ a) : csrWrite a op src rd put s = .error (.bits 2) s := by
  simp [csrWrite, csrReadOnly, ha]

/-- A CSR write whose effect leaves state t with strand k completes with the old value in rd. -/
theorem runInstr_csrWrite {i : Instr} {a : Nat} {op : CsrOp} {src : CsrSrc} {rd : BitVec 5} {put : Word → M Unit} {s t : State}
    {k : Strand} {old : Word} (hs : s.hart.plain = true) (ha : a < 0xC00) (hv : csrValue s a = some old)
    (hp : put (csrNew op old (csrSource s.hart src)) s = .ok () (t.withHart k)) (hk : k.hit = s.hart.hit) :
    runInstr i (csrWrite a op src rd put) s = .next (t.completes (k.wx rd old)) := by
  obtain ⟨hhit, hstep⟩ := (Strand.plain_iff _).mp hs
  rw [runInstr_ok (csrWrite_ok ha hv hp), retire_completes hstep (by simp [hk, hhit])]
  rfl

/-- A supervisor's register is read in supervisor mode. -/
theorem csrValue_supervisor {s : State} {a : Nat} {v : Word} (hm : s.hart.mode = .supervisor) (hu : userCsr s a = none)
    (h : superCsr s a = some v) : csrValue s a = some v := by
  simp [csrValue, hu, hm, h]

/-- A supervisor's register is not there in user mode. -/
theorem csrValue_denied {s : State} {a : Nat} (hm : s.hart.mode = .user) (hu : userCsr s a = none) : csrValue s a = none := by
  simp [csrValue, hu, hm]

/-- Below the standard counters no register from 0x806 up is a user-mode one. -/
theorem userCsr_none {s : State} {a : Nat} (ha : a < 0x800 ∨ 0x806 ≤ a ∧ a < 0xC00) : userCsr s a = none := by
  unfold userCsr
  repeat rw [if_neg (by omega)]

/-- wceil holds at most 2^40 (R84). -/
theorem putWceil_ok (v : Word) (s : State) :
    putWceil v s = .ok () (s.withHart { s.hart with wceil := min (2 ^ 40) v.toNat }) := by
  have h : (if 2 ^ 40 < v.toNat then 2 ^ 40 else v.toNat) = min (2 ^ 40) v.toNat := by split <;> omega
  simp only [putWceil, run_modH, h]

/-! ### Watchpoints and fault injection (R85) -/

/-- The low two bits of a watchpoint have no part in its region. -/
theorem wptRegion_clear_src (w : Word) : wptRegion (w &&& ~~~3#64) = wptRegion w := by
  have h₁ : (w &&& ~~~3#64).toNat % 2 ^ 57 / 64 = w.toNat % 2 ^ 57 / 64 := by
    have h : ((w &&& ~~~3#64).extractLsb' 6 51) = w.extractLsb' 6 51 := by
      ext i hi
      simp only [BitVec.getElem_extractLsb', BitVec.getLsbD_and, BitVec.getLsbD_not]
      have : (3#64).getLsbD (6 + i) = false := by
        rw [BitVec.getLsbD_ofNat, Nat.testBit_lt_two_pow, Bool.and_false]
        exact Nat.lt_of_lt_of_le (by decide : 3 < 2 ^ 2) (Nat.pow_le_pow_right (by decide) (by omega))
      simp [this]
      omega
    have := congrArg BitVec.toNat h
    simp only [BitVec.extractLsb'_toNat, Nat.shiftRight_eq_div_pow] at this
    omega
  have h₂ : (w &&& ~~~3#64).getLsbD 5 = w.getLsbD 5 := by simp
  simp only [wptRegion, h₁, h₂]

section
variable {n : BitVec 2} {v w : Word} {s : State} (hw : v &&& 0x01FFFFFFFFFFFFEF#64 = w)
include hw

/-- A watchpoint of another source than 3 watches no place. -/
theorem putWpt_own (h : w.toNat % 4 ≠ 3) : putWpt n v s = .ok () (s.withHart { s.hart with
    wpt := s.hart.wpt.set n.toFin w, watch := s.hart.watch.filter fun x => x.1 != n.toNat }) := by
  simp [putWpt, hw, wptSrc, h]

/-- One of source 3 watches the place to which its region is mapped. -/
theorem putWpt_mapped {pa len : Nat} (h : w.toNat % 4 = 3) (hp : watchPlace s w = some (pa, len)) :
    putWpt n v s = .ok () ((s.probed (vaOf57 (wptRegion w).1)).withHart { s.hart with
      wpt := s.hart.wpt.set n.toFin w, watch := (n.toNat, pa, len) :: s.hart.watch.filter fun x => x.1 != n.toNat }) := by
  simp [putWpt, hw, wptSrc, h, hp]

/-- One of source 3 whose region has no place holds source 0. -/
theorem putWpt_unmapped (h : w.toNat % 4 = 3) (hp : watchPlace s w = none) :
    putWpt n v s = .ok () ((s.probed (vaOf57 (wptRegion w).1)).withHart { s.hart with
      wpt := s.hart.wpt.set n.toFin (w &&& ~~~3#64), watch := s.hart.watch.filter fun x => x.1 != n.toNat }) := by
  have hr : wptRegion (w &&& 18446744073709551612#64) = wptRegion w := wptRegion_clear_src w
  simp [putWpt, hw, wptSrc, h, hp, hr]

end

/-- Each watchpoint is at its own address, in supervisor mode only. -/
theorem csrValue_wpt {s : State} (n : BitVec 2) (hm : s.hart.mode = .supervisor) :
    csrValue s (0x5C4 + n.toNat) = some (s.hart.wpt.get n.toFin) := by
  refine csrValue_supervisor hm (userCsr_none (by omega)) ?_
  have hi : (0x5C4 + n.toNat - 0x5C4) % 4 = n.toNat := by omega
  simp only [superCsr, hi]
  repeat rw [if_neg (by omega)]
  exact if_pos (by omega)

/-- The fields of a value written to finj name an element of a granted shape and a bit of it (R85). -/
def finjNames (h : Strand) (v : Nat) : Prop :=
  v / 8 % 2 = 0 ∧ v < 2 ^ 24 ∧ v / 16 % 128 < (h.shape (BitVec.ofNat 3 v)).rows ∧
    v / 2 ^ 11 % 256 < (h.shape (BitVec.ofNat 3 v)).cols ∧ v / 2 ^ 19 % 32 < (h.shape (BitVec.ofNat 3 v)).ty.width

theorem finjInside_iff (h : Strand) (v : Word) : finjInside h v = true ↔ finjNames h v.toNat := by
  have hm : (⟨v.toNat % 8, Nat.mod_lt _ (by decide)⟩ : Fin 8) = (BitVec.ofNat 3 v.toNat).toFin := Fin.ext rfl
  have hq : v.toNat / 2 ^ 24 = 0 ↔ v.toNat < 2 ^ 24 := by omega
  simp only [finjInside, finjNames, hm, Bool.and_eq_true, beq_iff_eq, decide_eq_true_eq, hq, and_assoc]
  rfl

/-- A strand with the bit inverted that a value written to finj names. -/
def Strand.finj (h : Strand) (v : Nat) : Strand :=
  let m : BitVec 3 := BitVec.ofNat 3 v
  h.putTile m (h.shape m).ty.width (v / 16 % 128) (v / 2 ^ 11 % 256)
    (Nat.xor (h.tileElem m (h.shape m).ty.width (v / 16 % 128) (v / 2 ^ 11 % 256)) (2 ^ (v / 2 ^ 19 % 32)))

theorem putFinj_inside {s : State} {v : Word} (hu : s.hart.unchained = true) (h : finjNames s.hart v.toNat) :
    putFinj v s = .ok () (s.withHart (s.hart.finj v.toNat)) := by
  simp [putFinj, (finjInside_iff _ v).mpr h, needChains_free hu, Strand.finj]

theorem putFinj_outside {s : State} {v : Word} (h : ¬ finjNames s.hart v.toNat) : putFinj v s = .ok () (s.withHart s.hart) := by
  simp [putFinj, mt (finjInside_iff _ v).mp h]

/-! ### The written registers -/

/-- Settles O19: each write is a CSR write whose effect on the strand is that of its register. -/
theorem csrWritesComplete : Obligations.CsrWritesComplete := by
  unfold Obligations.CsrWritesComplete
  refine ⟨fun s op src rd hs => ?_, fun s op src rd hs => ?_⟩
  · intro h new ecls cls
    refine ⟨?_, ?_, ?_, fun hm => ?_, fun hm => ?_⟩
    · exact runInstr_csrWrite (a := 0x800) (put := putVsta) hs (by decide) rfl rfl rfl
    · exact runInstr_csrWrite (a := 0x801) (put := putEmask) hs (by decide) rfl rfl rfl
    · exact runInstr_csrWrite (a := 0x802) (put := putEcls) hs (by decide) rfl rfl rfl
    · exact runInstr_csrWrite (a := 0x5C0) hs (by decide) (csrValue_supervisor hm (userCsr_none (by decide)) rfl) (putWceil_ok _ _) rfl
    · exact runInstr_illegal (csrWrite_unread (csrValue_denied hm (userCsr_none (by decide))))
  · intro h
    refine ⟨fun hm n => ?_, fun hm n => ?_, fun hu => ?_⟩
    · exact runInstr_illegal (csrWrite_unread (csrValue_denied hm (userCsr_none (by omega))))
    · intro old w others z
      have hv := csrValue_wpt n hm
      refine ⟨fun h3 => ?_, fun h3 => ⟨fun pa len hp => ?_, fun hp => ?_⟩⟩
      · exact runInstr_csrWrite hs (by omega) hv (putWpt_own rfl h3) (by rfl)
      · exact runInstr_csrWrite hs (by omega) hv (putWpt_mapped rfl h3 hp) (by rfl)
      · exact runInstr_csrWrite hs (by omega) hv (putWpt_unmapped rfl h3 hp) (by rfl)
    · intro v m row col bit inside
      exact ⟨fun hi => runInstr_csrWrite hs (by decide) rfl (putFinj_inside hu hi) (by rfl),
        fun hi => runInstr_csrWrite hs (by decide) rfl (putFinj_outside hi) (by rfl)⟩

/-! ### Registers of the host's windows (R368) -/

section
variable {s : State} {fn off n : Nat} {v : Word}

/-- An aligned write of BAR0 within its range does what bar0Write says. -/
theorem exec_bar0 (hf : fn ≤ 64) (hn : wordAccess off n = true) (ho : off < 0x10000) :
    exec (.registerWrite (.bar0 fn off n v)) s = .next (bar0Write fn off n v s) :=
  runEvent_ok (by simp [enabled, hf, hn, ho])

/-- An aligned write of BAR2 within its range does what bar2Write says. -/
theorem exec_bar2 (hf : fn ≤ 64) (hn : wordAccess off n = true) (ho : off < 0x40000) :
    exec (.registerWrite (.bar2 fn off n v)) s = .next (bar2Write fn off n v s) :=
  runEvent_ok (by simp [enabled, hf, hn, ho])

end

theorem wordAccess_iff {off n : Nat} (hn : n = 4 ∨ n = 8) : wordAccess off n = true ↔ off % n = 0 := by
  rcases hn with rfl | rfl <;> simp [wordAccess]

/-- Eight bytes replace a register's value. -/
theorem mergeWord_whole (old v : Word) : mergeWord old 0 8 v = v := by
  apply BitVec.eq_of_toNat_eq
  simp [mergeWord, layBytes, toBytes, rangeFrom, nth, ofBytes]
  omega

/-- Four bytes at 0 replace its lower half. -/
theorem mergeWord_lower (old v : Word) : mergeWord old 0 4 v = old.extractLsb' 32 32 ++ v.extractLsb' 0 32 := by
  apply BitVec.eq_of_toNat_eq
  rw [BitVec.toNat_append, ← Nat.shiftLeft_add_eq_or_of_lt (BitVec.isLt _)]
  simp [mergeWord, layBytes, toBytes, rangeFrom, nth, ofBytes, Nat.shiftLeft_eq, Nat.shiftRight_eq_div_pow]
  omega

/-- Four bytes at 4 replace its upper half. -/
theorem mergeWord_upper (old v : Word) : mergeWord old 4 4 v = v.extractLsb' 0 32 ++ old.extractLsb' 0 32 := by
  apply BitVec.eq_of_toNat_eq
  rw [BitVec.toNat_append, ← Nat.shiftLeft_add_eq_or_of_lt (BitVec.isLt _)]
  simp [mergeWord, layBytes, toBytes, rangeFrom, nth, ofBytes, Nat.shiftLeft_eq]
  omega

/-- Two writes of BAR0 that leave the same register with the same value are the same. -/
theorem bar0Write_congr {fn off off' n n' : Nat} {v v' : Word} {s : State} (ho : off / 8 * 8 = off' / 8 * 8)
    (hv : mergeWord (bar0Value s fn (off' / 8 * 8)) (off % 8) n v = mergeWord (bar0Value s fn (off' / 8 * 8)) (off' % 8) n' v') :
    bar0Write fn off n v s = bar0Write fn off' n' v' s := by
  simp only [bar0Write, ho, hv]

/-- A virtual function's write of BAR0 is discarded. -/
theorem bar0Write_virtual {fn off n : Nat} {v : Word} {s : State} (hf : fn ≠ 0) : bar0Write fn off n v s = s := by
  simp [bar0Write, hf]

/-- The launches of the package are all complete, and the slots of its ports empty, where FPKG is written. -/
theorem someLaunch_eq (s : State) :
    someLaunch s = ((s.launches.any fun l => l.state != .complete) || s.ports.any fun p => p.slots != []) := by
  have h : (incompletes s != 0) = s.launches.any fun l => l.state != .complete := by
    rw [Bool.eq_iff_iff]
    simp [incompletes]
  simp only [someLaunch, h]

theorem pwrcapSet_eq (v : Word) (s : State) :
    pwrcapSet v s = { s with svc := { s.svc with pwrcap := max 1000 (min 3800 (v.toNat % 4096)) } } := by
  have h : (if v.toNat % 4096 < 1000 then 1000 else if 3800 < v.toNat % 4096 then 3800 else v.toNat % 4096) =
      max 1000 (min 3800 (v.toNat % 4096)) := by
    split
    · omega
    · split <;> omega
  simp only [pwrcapSet, h]

/-- A port after one is changed. -/
theorem nth_modPort {p : Nat} (f : Port → Port) {s : State} (hp : p < s.ports.length) (q : Nat) :
    nth (modPort p f s).ports q .start = if q = p then f (nth s.ports p .start) else nth s.ports q .start := by
  by_cases h : q = p
  · subst h; simp [modPort, nth, hp]
  · simp [modPort, nth, h, Ne.symm h]

/-- A port after a binding is written (R369). -/
theorem nth_pbindSet {k : Nat} (v : Word) {s : State} (hk : k < s.ports.length) (q : Nat) :
    nth (pbindSet k v s).ports q .start = if q = k then { nth s.ports k .start with
      asid := v.toNat % 1024, en := v.getLsbD 16 && (s.spaces.any fun x => x.asid == v.toNat % 1024)
      vec := v.toNat / 2 ^ 24 % 256, vf := v.toNat / 2 ^ 32 % 128 } else nth s.ports q .start := by
  have hf : (findSpace s (v.toNat % 1024)).isSome = s.spaces.any fun x => x.asid == v.toNat % 1024 := by
    rw [Bool.eq_iff_iff, findSpace, List.find?_isSome, List.any_eq_true]
  rw [pbindSet, nth_modPort _ hk, hf]

/-- An entry of the fabric group table after one is written. -/
theorem fgtOf_fgtSet (a : Nat) (v : Word) (s : State) (b : Nat) :
    fgtOf (fgtSet a v s) b = if b = a then v &&& 0xFFFFFFFFFFFFF#64 else fgtOf s b := by
  have hw : BitVec.ofNat 64 (v.toNat % 4096 + v.toNat % 2 ^ 52 / 4096 * 4096) = v &&& 0xFFFFFFFFFFFFF#64 := by
    apply BitVec.eq_of_toNat_eq
    have hm : (v &&& 0xFFFFFFFFFFFFF#64).toNat = v.toNat % 2 ^ 52 := by
      rw [BitVec.toNat_and]
      exact Nat.and_two_pow_sub_one_eq_mod v.toNat 52
    rw [hm, BitVec.toNat_ofNat]
    omega
  by_cases h : b = a
  · subst h; simpa [fgtOf, fgtSet] using hw
  · have hf : (s.svc.fgt.filter fun x => x.1 != a).find? (fun x => x.1 == b) = s.svc.fgt.find? fun x => x.1 == b := by
      rw [List.find?_filter]
      congr 1
      funext x
      by_cases hx : x.1 = b <;> simp [hx, h]
    simp [fgtOf, fgtSet, h, Ne.symm h, hf]

/-- The ports behind a function's windows. -/
theorem portOf_eq (s : State) (fn j : Nat) :
    portOf s fn j = ((rangeFrom 0 64).filter fun p => fn == 0 || (nth s.ports p .start).vf == fn)[j]? := by
  by_cases h : fn = 0
  · simp [portOf, h]
  · simp [portOf, h, beq_eq_false_iff_ne.mpr h]

/-- A port behind a window is one of the 64. -/
theorem portOf_lt {s : State} {fn j p : Nat} (h : portOf s fn j = some p) : p < 64 := by
  rw [portOf_eq] at h
  have := (mem_rangeFrom.mp (List.mem_filter.mp (List.mem_of_getElem? h)).1).2
  omega

/-- A write of BAR2 goes to the port behind its window. -/
theorem bar2Write_port {s : State} {fn off n p : Nat} {v : Word} (h : portOf s fn (off / 4096) = some p) :
    bar2Write fn off n v s = windowWrite p (off % 4096) n v s := by
  simp [bar2Write, h]

theorem bar2Write_none {s : State} {fn off n : Nat} {v : Word} (h : portOf s fn (off / 4096) = none) :
    bar2Write fn off n v s = s := by
  simp [bar2Write, h]

theorem toBytes_length (n v : Nat) : (toBytes n v).length = n := by
  induction n generalizing v with
  | zero => rfl
  | succ n ih => simp [toBytes, ih]

/-- Bytes that do not reach the record area's last one accept no record (R372). -/
theorem writeArea_part {p o : Nat} {bs : List Byte} {s : State} (h : o + bs.length < 0x80) :
    writeArea_ p o bs s = modPort p (fun q => { q with area := layBytes q.area o bs }) s := by
  simp only [writeArea_]
  exact if_neg (by omega)

/-- Those that do are the acceptance of a record. -/
theorem exec_portRecordAccept {p o : Nat} {bs : List Byte} {s : State} (hp : p < 64) (ho : o ≤ 0x7F) (h : 0x7F < o + bs.length) :
    exec (.portRecordAccept p o bs) s = .next (writeArea_ p o bs s) :=
  runEvent_ok (by simp [enabled, hp, ho, h])

theorem exec_pcanWrite {p n : Nat} {v : Word} {s : State} (hp : p < 64) :
    exec (.pcanWrite p n v) s = .next (cancelWrite p n v s) :=
  runEvent_ok (by simp [enabled, hp])

/-- A write of a CSR that has no row of its own. -/
theorem exec_csr {a : BitVec 12} {op : CsrOp} {src : CsrSrc} {rd : BitVec 5} {s : State} {k : Strand} {old : Word}
    (hs : s.hart.plain = true) (ha : a.toNat < 0xC00) (hv : csrValue s a.toNat = some old)
    (hp : putCsr a.toNat (csrNew op old (csrSource s.hart src)) s = .ok () (s.withHart k)) (hk : k.hit = s.hart.hit) :
    exec (.registerWrite (.csr a op src rd)) s = .next (s.completes (k.wx rd old)) :=
  runInstr_csrWrite hs ha hv hp hk

section
variable {s : State} {off : Nat} {v : Word}

/-- The physical function's write of a whole register of BAR0 gives it the value written. -/
theorem bar0Write_physical (h8 : off % 8 = 0) : bar0Write 0 off 8 v s =
    if off = 0x100 then scmdWrite v s
    else if off = 0x208 then pwrcapSet v s
    else if off = 0x218 then atreqSet v s
    else if off = 0x228 then rasbaseSet v s
    else if off = 0x238 then rasackSet v s
    else if off = 0x300 then fpkgSet v s
    else if 0x1000 ≤ off ∧ off < 0x1200 then pbindSet ((off - 0x1000) / 8) v s
    else if 0x4000 ≤ off ∧ off < 0x6000 then fgtSet ((off - 0x4000) / 8) v s
    else s := by
  have ha : off / 8 * 8 = off := by omega
  simp only [bar0Write, ha, h8, mergeWord_whole, ne_eq, not_true_eq_false, if_false]

end

/-- A write of half a register of BAR0 is one of the whole, with the other half as it reads. -/
theorem exec_bar0_half {s : State} {fn off : Nat} {v : Word} (hf : fn ≤ 64) (h8 : off % 8 = 0) (ho : off < 0x10000) (half : Bool) :
    exec (.registerWrite (.bar0 fn (if half then off + 4 else off) 4 v)) s = exec (.registerWrite (.bar0 fn off 8
      (if half then v.extractLsb' 0 32 ++ (bar0Value s fn off).extractLsb' 0 32
        else (bar0Value s fn off).extractLsb' 32 32 ++ v.extractLsb' 0 32))) s := by
  have hn : wordAccess (if half then off + 4 else off) 4 = true := by
    rw [wordAccess_iff (.inl rfl)]; split <;> omega
  have ha : off / 8 * 8 = off := by omega
  rw [exec_bar0 hf hn (by split <;> omega), exec_bar0 hf ((wordAccess_iff (.inr rfl)).mpr h8) ho]
  cases half
  · refine congrArg _ (bar0Write_congr rfl ?_)
    simp only [Bool.false_eq_true, if_false, h8, ha, mergeWord_whole, mergeWord_lower]
  · refine congrArg _ (bar0Write_congr (by simp only [if_true]; omega) ?_)
    simp only [if_true, show (off + 4) % 8 = 4 by omega, h8, ha, mergeWord_whole, mergeWord_upper]

section
variable {p o n : Nat} {v : Word} {s : State}

theorem windowWrite_area (h : o < 0x80) : windowWrite p o n v s = writeArea_ p o (toBytes n v.toNat) s := if_pos h

theorem windowWrite_status (h : o / 8 * 8 = 0x80) : windowWrite p o n v s =
    if (mergeWord 0#64 (o % 8) n v).getLsbD 63 then modPort p (fun q => { q with drop := false }) s else s := by
  rw [windowWrite, if_neg (by omega), if_pos h]

theorem windowWrite_cancel : windowWrite p 0x88 n v s = cancelWrite p n v s := rfl

theorem windowWrite_rest (h : 0x8C ≤ o) : windowWrite p o n v s = s := by
  rw [windowWrite, if_neg (by omega), if_neg (by omega), if_neg (by omega)]

end

/-- Settles O20: a CSR write changes its register alone; a write of BAR0 gives the register at its offset the value written; a write
of BAR2 is one of the port behind its window. -/
theorem registerWritesComplete : Obligations.RegisterWritesComplete := by
  unfold Obligations.RegisterWritesComplete
  intro s
  refine ⟨fun op src rd hs => ?_, fun fn off v hf h8 ho hl => ?_, fun fn off n v hf hn h0 ho hl => ?_⟩
  · intro h writes
    refine ⟨exec_csr hs (by decide) rfl rfl rfl, exec_csr hs (by decide) rfl rfl rfl, fun hm => ?_, fun hm a ha => ?_, fun a ha => ?_⟩
    · have hv {a : Nat} {old : Word} (ha : a < 0x800) (hr : superCsr s a = some old) : csrValue s a = some old :=
        csrValue_supervisor hm (userCsr_none (.inl ha)) hr
      refine ⟨?_, ?_, ?_, ?_, ?_, ?_, ?_, ?_, ?_, ?_, ?_⟩ <;>
        exact exec_csr hs (by decide) (hv (by decide) rfl) rfl rfl
    · have hlt : a.toNat < 0x800 := by
        have h := List.mem_map_of_mem (f := BitVec.toNat) ha
        simp only [List.map_cons, List.map_nil, List.mem_cons, List.not_mem_nil, or_false, BitVec.toNat_ofNat] at h
        omega
      exact runInstr_illegal (csrWrite_unread (csrValue_denied hm (userCsr_none (.inl hlt))))
    · exact runInstr_illegal (csrWrite_readOnly ha)
  · intro gives z w
    have hx : exec (.registerWrite (.bar0 fn off 8 v)) s = .next (bar0Write fn off 8 v s) :=
      exec_bar0 hf ((wordAccess_iff (.inr rfl)).mpr h8) ho
    have leaves {t : State} (e : bar0Write fn off 8 v s = t) : gives t := hx.trans (congrArg _ e)
    refine ⟨fun hv => leaves (bar0Write_virtual hv), fun hp => ?_, fun half => ?_⟩
    · subst hp
      have hw := bar0Write_physical (s := s) (v := v) h8
      refine ⟨fun e => leaves ?_, fun e => leaves ?_, fun e => leaves ?_, fun e => leaves ?_, fun e => leaves ?_, fun e => leaves ?_,
        fun k hk e => ⟨pbindSet k v s, leaves ?_, rfl, (List.length_set ..).trans hl, fun q => ?_⟩,
        fun a ha e => ⟨fgtSet a v s, leaves ?_, rfl, fgtOf_fgtSet a v s⟩, fun hn h₁ h₂ => leaves ?_⟩
      · rw [hw, if_pos e]; rfl
      · rw [hw, if_neg (by omega), if_pos e, pwrcapSet_eq]
      · rw [hw, if_neg (by omega), if_neg (by omega), if_pos e]; rfl
      · rw [hw, if_neg (by omega), if_neg (by omega), if_neg (by omega), if_pos e]; rfl
      · rw [hw, if_neg (by omega), if_neg (by omega), if_neg (by omega), if_neg (by omega), if_pos e]; rfl
      · rw [hw, if_neg (by omega), if_neg (by omega), if_neg (by omega), if_neg (by omega), if_neg (by omega), if_pos e, ← someLaunch_eq]
        rfl
      · have hk' : (off - 0x1000) / 8 = k := by omega
        rw [hw, hk']
        repeat rw [if_neg (by omega)]
        exact if_pos (by omega)
      · exact nth_pbindSet v (by omega) q
      · have ha' : (off - 0x4000) / 8 = a := by omega
        rw [hw, ha']
        repeat rw [if_neg (by omega)]
        exact if_pos (by omega)
      · simp only [List.mem_cons, List.not_mem_nil, or_false, not_or] at hn
        rw [hw]
        repeat rw [if_neg (by omega)]
    · exact exec_bar0_half hf h8 ho half
  · intro gives o behind
    have hx : exec (.registerWrite (.bar2 fn off n v)) s = .next (bar2Write fn off n v s) :=
      exec_bar2 hf ((wordAccess_iff hn).mpr h0) ho
    have leaves {t : State} (e : bar2Write fn off n v s = t) : gives t := hx.trans (congrArg _ e)
    have hb : behind = portOf s fn (off / 4096) := (portOf_eq s fn _).symm
    refine ⟨fun e => leaves (bar2Write_none (hb.symm.trans e)), fun p e => ?_⟩
    have hp := hb.symm.trans e
    have hw : bar2Write fn off n v s = windowWrite p o n v s := bar2Write_port hp
    have hlen := toBytes_length n v.toNat
    refine ⟨fun h => leaves ?_, fun h => ?_, fun h h₁ => leaves ?_, fun h h₁ => leaves ?_, fun h => leaves ?_, fun h => ?_,
      fun h h₁ => leaves ?_, fun h => leaves ?_⟩
    · rw [hw, windowWrite_area (by omega), writeArea_part (by omega)]
    · rw [hx, hw, windowWrite_area (by omega), exec_portRecordAccept (portOf_lt hp) (by omega) (by omega)]
    · rw [hw, h, h₁, windowWrite_status (by decide), mergeWord_whole]
    · rw [hw, h, h₁, windowWrite_status (by decide), mergeWord_lower]
      exact if_neg (by rw [BitVec.getLsbD_append, if_neg (by decide)]; decide)
    · have h₁ : n = 4 := hn.resolve_right fun e => by subst e; omega
      have hbit : (v.extractLsb' 0 32 ++ (0#64).extractLsb' 0 32).getLsbD 63 = v.getLsbD 31 := by
        simp only [BitVec.getLsbD_append, BitVec.getLsbD_extractLsb']
        simp
      rw [hw, h, h₁, windowWrite_status (by decide), mergeWord_upper, hbit]
    · rw [hx, hw, h, windowWrite_cancel, exec_pcanWrite (portOf_lt hp)]
    · rw [hw, h, h₁, windowWrite_cancel]
      rfl
    · rw [hw, windowWrite_rest (by omega)]

end Sys2Proof.Machine
end

section
/-!
Vector loads: the elements are read in ascending order, up to the first that is refused (R157 to R164, R276).
-/
namespace Sys2Proof.Machine

/-! ### Accesses of the running strand -/

/-- A strand that watches none of its own accesses meets no precise hit. -/
theorem noteAccess_unwatched {s : State} (hw : s.hart.unwatched = true) (b : Bool) (va n : Nat) : noteAccess b va n s = .ok () s := by
  have hsrc (i : Nat) (hi : i < 4) : (wptSrc (nth s.hart.wpt.toList i 0#64) == 1 || wptSrc (nth s.hart.wpt.toList i 0#64) == 2) = false := by
    have hm : nth s.hart.wpt.toList i 0#64 ∈ s.hart.wpt.toList := by
      have hl : i < s.hart.wpt.toList.length := by simpa using hi
      rw [nth, List.getElem?_eq_getElem hl]
      exact List.getElem_mem hl
    have := List.all_eq_true.mp hw _ hm
    simp only [Bool.and_eq_true, bne_iff_ne] at this
    simp [this]
  unfold noteAccess
  simp only [run_bind, run_getH]
  split
  · simp only [forEach_cons, run_bind, run_getH, hsrc _ (by decide : 0 < 4), hsrc _ (by decide : 1 < 4), hsrc _ (by decide : 2 < 4),
      hsrc _ (by decide : 3 < 4), Bool.and_false, Bool.false_and, Bool.false_eq_true, if_false, run_pure, forEach_nil]
  · rfl

/-- What it means that an access reaches a place. -/
theorem reaches_iff {s : State} {k : Access} {va n pa : Nat} : s.reaches k va n pa = true ↔
    canonical va = true ∧ va % n = 0 ∧ pa < ctlBase ∧ translate s s.hart.root (s.hart.mode == .user) k va = .ok (pa, false) := by
  simp only [State.reaches, Bool.and_eq_true, decide_eq_true_eq, and_assoc]
  cases translate s s.hart.root (s.hart.mode == .user) k va <;> simp

/-- The bytes of a load that meets no uncorrectable word (R280, R282). -/
theorem ownBytes_good {s : State} {pa n : Nat} (hg : s.ownGood pa n = true) (va : Nat) :
    ownBytes pa n va s = .ok ((rangeFrom pa n).map fun a => overlayByte s.hart.strip.buffer false a (s.mem.get a)) s := by
  have h : ((rangeFrom pa n).any fun a => !coveredByte s.hart.strip.buffer false a && readsBad s a 1) = false := by
    rw [← Bool.not_eq_true', List.not_any_eq_all_not]
    simpa [State.ownGood] using hg
  simp only [ownBytes, run_bind, run_get, h, Bool.false_eq_true, if_false, run_pure]

/-- What an element load of the running strand that reaches its place leaves. -/
def State.elementRead (s : State) (va pa n : Nat) : State := (s.walked va none).withoutLines pa n

/-- An element load that reaches good memory takes the strand's own view of it (R162, R280). -/
theorem vecRead_ok {s : State} {va n pa : Nat} (hc : s.choices = []) (hw : s.hart.unwatched = true)
    (hr : s.reaches .load va n pa = true) (hg : s.ownGood pa n = true) :
    vecRead va n s = .ok (s.ownValue pa n) (s.elementRead va pa n) := by
  obtain ⟨hcan, hal, hlow, htr⟩ := reaches_iff.mp hr
  have hb : ownBytes pa n va (s.walked va none) = _ := ownBytes_good (s := s.walked va none) hg va
  have hn := noteAccess_unwatched (s := s.elementRead va pa n) hw false va n
  have hd : dropDcache pa n (s.walked va none) = .ok () (s.elementRead va pa n) := rfl
  simp only [vecRead, run_bind, checkAddress_ok hcan hal, translateH_ok hc htr, if_neg (Nat.not_le.mpr hlow), run_pure,
    Bool.false_eq_true, if_false, hb, hd, hn]
  rfl

/-- An element load that is refused traps with the cause, after what its walk has done (R161, R333). -/
theorem vecRead_refused {s : State} {va n c : Nat} (hc : s.choices = []) (hr : s.refuses .load va n c) :
    vecRead va n s = .error (.trap c (BitVec.ofNat 64 va) none) (s.refused .load va n) := by
  rcases hr with ⟨hcan, rfl⟩ | ⟨hcan, hal, rfl⟩ | ⟨hcan, hal, ⟨htr, h28⟩ | ⟨hctl, rfl⟩⟩
  · simp [vecRead, checkAddress_far hcan, State.refused, hcan]
  · simp [vecRead, checkAddress_misaligned hcan hal, State.refused, hcan, hal]
  · simp [vecRead, checkAddress_ok hcan hal, translateH_error hc htr h28, State.refused, hcan, hal, htr]
  · unfold ctlMapped at hctl
    split at hctl
    case h_1 r htr =>
      have hpa : ctlBase ≤ r.1 := of_decide_eq_true hctl
      simp [vecRead, checkAddress_ok hcan hal, translateH_ok hc htr, hpa, State.refused, hcan, hal, htr, accessCause]
    case h_2 => cases hctl

/-! ### A state within a load -/

/-- A state that a load begun in s reaches: lines of the data cache have gone, and elements of registers have come. -/
def State.loading (s u : State) : Prop :=
  u = { s with dcache := u.dcache, hart := { s.hart with v := u.hart.v } } ∧ ∀ l ∈ u.dcache, l ∈ s.dcache

theorem State.loading_self (s : State) : s.loading s := ⟨rfl, fun _ h => h⟩

section
variable {s u : State} (h : s.loading u)
include h

theorem State.loading.hart_eq : u.hart = { s.hart with v := u.hart.v } := congrArg State.hart h.1

/-- But for the running strand only the data cache has changed. -/
theorem State.loading.withHart_eq (k : Strand) : u.withHart k = { s with dcache := u.dcache }.withHart k :=
  congrArg (·.withHart k) h.1

theorem State.loading.reaches_eq (k : Access) (va n pa : Nat) : u.reaches k va n pa = s.reaches k va n pa := by rw [h.1]; rfl

theorem State.loading.refuses_iff (k : Access) (va n c : Nat) : u.refuses k va n c ↔ s.refuses k va n c := by rw [h.1]; exact Iff.rfl

theorem State.loading.ownGood_eq (pa n : Nat) : u.ownGood pa n = s.ownGood pa n := by rw [h.1]; rfl

theorem State.loading.ownValue_eq (pa n : Nat) : u.ownValue pa n = s.ownValue pa n := by rw [h.1]; rfl

/-- An element read and an element delivered lead on within the load. -/
theorem State.loading.next (va pa n : Nat) (v : Vector (BitVec 65536) 32) :
    s.loading ((u.elementRead va pa n).withHart { u.hart with v := v }) := by
  obtain ⟨he, hd⟩ := h
  generalize u.dcache = dc, u.hart.v = w at he hd
  subst he
  exact ⟨rfl, fun l hl => hd l (List.mem_of_mem_filter (List.mem_of_mem_filter hl))⟩

end

/-- Delivering a value that raises nothing writes the element alone. -/
theorem deliver_plain {h : Strand} (hb : h.bad = []) (vd : BitVec 5) (w e x : Nat) :
    h.deliver vd w e (x, 0#6) = h.putElem vd w e x := by
  simp [Strand.deliver, Strand.flag, Strand.storeElem, Strand.heal, hb, Strand.putElem]

/-! ### The element loop of an access -/

/-- A loop over a list and more runs over the list first. -/
theorem forEach_append {f : α → M Unit} {as bs : List α} {s t : State} (h : forEach as f s = .ok () t) :
    forEach (as ++ bs) f s = forEach bs f t := by
  induction as generalizing s with
  | nil => cases h; rfl
  | cons a as ih =>
    rw [forEach_cons] at h
    rw [List.cons_append, forEach_cons]
    cases hf : f a s with
    | ok _ u => rw [hf] at h; exact ih h
    | error e u => rw [hf] at h; cases h

/-- Where nothing else stops it, the loop is its elements in order, up to the first that stops. -/
theorem elementLoop_steady {n : Nat} {active : Nat → Bool} {bad : Nat → Option Word} {act : Nat → M Unit} {s : State}
    (hc : s.calm = true) : elementLoop n false (pure ()) active bad act s =
      (do runElems bad act ((rangeFrom s.hart.vsta (n - s.hart.vsta)).filter active); loopDone n n : M Unit) s := by
  obtain ⟨-, -, -, hus, -, hstep⟩ := (calm_iff s).mp hc
  simp only [elementLoop, loopElements, run_bind, run_getH, Bool.false_eq_true, if_false, loopEnd_steady hstep, run_pure,
    takeUpsets_none hus, groupsIn, byGroup, List.filter_nil, runGroups]
  cases runElems bad act _ s <;> rfl

/-- A range in two parts. -/
theorem rangeFrom_append (lo a b : Nat) : rangeFrom lo (a + b) = rangeFrom lo a ++ rangeFrom (lo + a) b := by
  induction a generalizing lo with
  | zero => simp [rangeFrom]
  | succ a ih => rw [Nat.succ_add, rangeFrom, ih, rangeFrom, List.cons_append, Nat.add_right_comm, Nat.add_assoc]

/-- The elements of a loop at and below one of them. -/
theorem filter_rangeFrom_split {lo n d : Nat} {p : Nat → Bool} (hd : d ∈ (rangeFrom lo n).filter p) :
    ∃ rest, (rangeFrom lo n).filter p = (rangeFrom lo (d - lo)).filter p ++ d :: rest := by
  obtain ⟨hr, hp⟩ := List.mem_filter.mp hd
  have hb := mem_rangeFrom.mp hr
  have hn : n = (d - lo) + ((lo + n - d - 1) + 1) := by omega
  have hl : lo + (d - lo) = d := by omega
  refine ⟨(rangeFrom (d + 1) (lo + n - d - 1)).filter p, ?_⟩
  rw [hn, rangeFrom_append, List.filter_append, hl, rangeFrom, List.filter_cons, if_pos hp, ← hn]

/-! ### The elements of a vector load (R164) -/

/-- The types, the length and the chains let a vector access go on. -/
theorem mayAccess_iff {h : Strand} {a : Addressing} {r : BitVec 5} : h.mayAccess a r = true ↔
    h.mayVector = true ∧ h.unchained = true ∧ h.tag r ≠ .none ∧ (h.tag r = .i4 → a = .unit) ∧
      h.fits (h.tag r :: a.regs.map h.tag) = true ∧ ∀ x ∈ a.regs, (h.tag x).isInt = true := by
  simp only [Strand.mayAccess, Bool.and_eq_true, bne_iff_ne, Bool.or_eq_true, beq_iff_eq, List.all_eq_true, and_assoc,
    imp_iff_not_or]

/-- A strand that may name vector state passes the gate (R72, R277). -/
theorem vecGate_ok {s : State} (h : s.hart.mayVector = true) : vecGate s = .ok () s := by
  simp only [Strand.mayVector, Bool.and_eq_true, bne_iff_ne, Bool.or_eq_true, beq_iff_eq] at h
  obtain ⟨⟨hl, -⟩, hm⟩ := h
  have hd : ¬ (s.hart.mode = .supervisor ∧ s.hart.claimed = false) := by
    rintro ⟨hs, hf⟩
    rcases hm with hm | hm
    · rw [hs] at hm; cases hm
    · rw [hf] at hm; cases hm
  simp only [vecGate, run_bind, run_getH, if_neg hl, if_neg hd, run_pure]

/-- Types that fit the vector length pass (R114). -/
theorem needCap_ok {s : State} {ts : List ETag} (h : s.hart.fits ts = true) : needCap ts s = .ok () s := by
  have hc : ts.any (fun u => decide (s.hart.cap u < s.hart.vl)) = false := by
    simpa [Strand.fits] using h
  simp only [needCap, run_bind, run_getH, hc, Bool.false_eq_true, if_false, run_pure]

/-- The type checks of an access that it passes (R157). -/
theorem accessTypes_ok {s : State} {a : Addressing} {r : BitVec 5} (h : s.hart.mayAccess a r = true) :
    accessTypes a r s = .ok (s.hart.tag r) s := by
  obtain ⟨-, -, hn, h4, -, hi⟩ := mayAccess_iff.mp h
  have hc : (s.hart.tag r != .none && (s.hart.tag r != .i4 || a == .unit) && a.regs.all fun x => (s.hart.tag x).isInt) = true := by
    simp only [Bool.and_eq_true, bne_iff_ne, Bool.or_eq_true, beq_iff_eq, List.all_eq_true]
    exact ⟨⟨hn, imp_iff_not_or.mp h4⟩, hi⟩
  simp only [accessTypes, run_bind, run_getH, need_true hc, run_pure]

/-- What a vector load does with one element. -/
def loadElem (h : Strand) (a : Addressing) (rs1 vd : BitVec 5) (t : ETag) (e : Nat) : M Unit := do
  let va := a.addr h rs1 t.width e
  let v ← if t = .i4 then do
      let b ← vecRead va 1
      pure (if e % 2 = 0 then b % 16 else b / 16)
    else vecRead va (t.width / 8)
  modH fun k => k.deliver vd t.width e (v, 0#6)

/-- A vector load that may go on is the loop over its elements. -/
theorem vecLoad_loop {km : BitVec 3} {a : Addressing} {rs1 vd : BitVec 5} {s : State} (hc : s.calm = true)
    (hm : s.hart.mayAccess a vd = true) (hvd : vd ∉ a.regs) : vecLoad km a rs1 vd s =
      (do forEach (s.hart.elements km) fun e => atElem e (loadElem s.hart a rs1 vd (s.hart.tag vd) e)
          loopDone s.hart.vl s.hart.vl : M Unit) s := by
  obtain ⟨hv, hu, -, -, hf, -⟩ := mayAccess_iff.mp hm
  obtain ⟨-, -, -, -, hbad, -⟩ := (calm_iff s).mp hc
  have hreg : (!a.regs.contains vd) = true := by simpa using hvd
  simp only [vecLoad, run_bind, run_getH, vecGate_ok hv, accessTypes_ok hm, needCap_ok hf, need_true hreg, needChains_free hu,
    elementLoop_steady hc, runElems, badOf_none hbad, consume]
  rfl

/-- The element that the bytes of an access give: a nibble for I4 (R25). -/
def loadedValue (t : ETag) (e b : Nat) : Nat := if t = .i4 then (if e % 2 = 0 then b % 16 else b / 16) else b

/-- As an element of the type it is the byte's nibble, or the bytes as they stand. -/
theorem loadedValue_own (t : ETag) (e : Nat) (s : State) (pa : Nat) : loadedValue t e (s.ownValue pa (accessBytes t)) % 2 ^ t.width =
    (if t = .i4 then s.ownValue pa 1 / 16 ^ (e % 2) else s.ownValue pa (accessBytes t)) % 2 ^ t.width := by
  unfold loadedValue
  split
  · subst t
    rcases Nat.mod_two_eq_zero_or_one e with h | h <;> simp [h, ETag.width, accessBytes]
  · rfl

theorem State.loading.calm {s u : State} (h : s.loading u) (hc : s.calm = true) : u.calm = true := by rw [h.1]; exact hc

section
variable {s u : State} {a : Addressing} {rs1 vd : BitVec 5} {t : ETag} {e : Nat} (hu : s.loading u) (hc : s.calm = true)
include hu hc

/-- An element that reaches good memory is delivered. -/
theorem loadElem_ok {pa : Nat} (hr : s.reaches .load (a.addr s.hart rs1 t.width e) (accessBytes t) pa = true)
    (hg : s.ownGood pa (accessBytes t) = true) : ∃ u', atElem e (loadElem s.hart a rs1 vd t e) u = .ok () u' ∧ s.loading u' ∧
      u'.hart = u.hart.deliver vd t.width e (loadedValue t e (s.ownValue pa (accessBytes t)), 0#6) := by
  obtain ⟨hhit, hun, hch, -, hbad, -⟩ := (calm_iff u).mp (hu.calm hc)
  have hrd := vecRead_ok (s := u) hch hun ((hu.reaches_eq ..).trans hr) ((hu.ownGood_eq ..).trans hg)
  rw [hu.ownValue_eq] at hrd
  have hrun : loadElem s.hart a rs1 vd t e u = .ok () ((u.elementRead (a.addr s.hart rs1 t.width e) pa (accessBytes t)).withHart
      (u.hart.deliver vd t.width e (loadedValue t e (s.ownValue pa (accessBytes t)), 0#6))) := by
    unfold loadElem loadedValue
    by_cases h4 : t = .i4
    · have hn : accessBytes t = 1 := if_pos h4
      rw [hn] at hrd
      simp only [run_bind, if_pos h4, hrd, run_pure, hn]
      rfl
    · have hn : accessBytes t = t.width / 8 := if_neg h4
      rw [hn] at hrd
      simp only [run_bind, if_neg h4, hrd, hn]
      rfl
  refine ⟨_, atElem_ok hrun ?_, ?_, rfl⟩
  · rw [deliver_plain hbad]; exact hhit
  · rw [deliver_plain hbad]; exact hu.next _ _ _ _

/-- One that is refused traps at the element. -/
theorem loadElem_refused {c : Nat} (hr : s.refuses .load (a.addr s.hart rs1 t.width e) (accessBytes t) c) :
    atElem e (loadElem s.hart a rs1 vd t e) u =
      .error (.trap c (BitVec.ofNat 64 (a.addr s.hart rs1 t.width e)) (some e))
        (u.refused .load (a.addr s.hart rs1 t.width e) (accessBytes t)) := by
  obtain ⟨hhit, -, hch, -, -, -⟩ := (calm_iff u).mp (hu.calm hc)
  have hrd := vecRead_refused hch ((hu.refuses_iff ..).mpr hr)
  have hrun : loadElem s.hart a rs1 vd t e u = .error (.trap c (BitVec.ofNat 64 (a.addr s.hart rs1 t.width e)) none)
      (u.refused .load (a.addr s.hart rs1 t.width e) (accessBytes t)) := by
    unfold loadElem
    by_cases h4 : t = .i4
    · have hn : accessBytes t = 1 := if_pos h4
      rw [hn] at hrd ⊢
      simp only [run_bind, if_pos h4, hrd]
    · have hn : accessBytes t = t.width / 8 := if_neg h4
      rw [hn] at hrd ⊢
      simp only [run_bind, if_neg h4, hrd]
  simp only [atElem, hrun]
  rw [hitAt_quiet (by rw [refused_hart]; exact hhit)]

/-- Elements that all reach good memory are delivered one after another. -/
theorem loadElems_ok {pa : Nat → Nat} (es : List Nat)
    (hr : ∀ e ∈ es, s.reaches .load (a.addr s.hart rs1 t.width e) (accessBytes t) (pa e) = true ∧
      s.ownGood (pa e) (accessBytes t) = true) :
    ∃ u', forEach es (fun e => atElem e (loadElem s.hart a rs1 vd t e)) u = .ok () u' ∧ s.loading u' ∧
      u'.hart = foldH (fun e k => k.deliver vd t.width e (loadedValue t e (s.ownValue (pa e) (accessBytes t)), 0#6)) es u.hart := by
  induction es generalizing u with
  | nil => exact ⟨u, rfl, hu, rfl⟩
  | cons e es ih =>
    obtain ⟨hre, hge⟩ := hr e (by simp)
    obtain ⟨u₁, h₁, hu₁, hh₁⟩ := loadElem_ok (vd := vd) hu hc hre hge
    obtain ⟨u₂, h₂, hu₂, hh₂⟩ := ih hu₁ fun d hd => hr d (by simp [hd])
    exact ⟨u₂, by rw [forEach_cons, h₁]; exact h₂, hu₂, by rw [hh₂, hh₁, foldH_cons]⟩

end

/-- What delivering the active elements below a bound leaves. -/
theorem loads_of_fold {s u : State} {vd : BitVec 5} {t : ETag} {g : Nat → Nat} {es : List Nat} {active : Nat → Bool}
    (hu : s.loading u) (hc : s.calm = true) (hv : s.hart.mayVector = true) (ht : s.hart.tag vd = t)
    (hh : u.hart = foldH (fun e k => k.deliver vd t.width e (g e, 0#6)) es s.hart) (hn : es.Nodup)
    (hm : ∀ e, e ∈ es ↔ s.hart.vsta ≤ e ∧ active e = true) (hcap : ∀ e ∈ es, e < s.hart.cap t) :
    s.hart.vectorFrame { u.hart with vsta := 0 } vd ∧ u.hart.emask = s.hart.emask ∧ s.hart.delivered u.hart vd t active g := by
  obtain ⟨-, -, -, -, hbad, -⟩ := (calm_iff s).mp hc
  have hl : s.hart.lown ≤ 256 := by
    simp only [Strand.mayVector, Bool.and_eq_true, decide_eq_true_eq] at hv
    exact hv.1.2
  obtain ⟨-, -, hreg, helem⟩ := deliver_each (vd := vd) (t := t) (fun e => (g e, 0#6)) es s.hart hbad hl hn hcap
  rw [← hh] at hreg helem
  have hem : u.hart.emask = s.hart.emask := by rw [hu.hart_eq]
  have htag : ∀ r, u.hart.tag r = s.hart.tag r := fun r => by rw [hu.hart_eq]; rfl
  refine ⟨⟨?_, fun _ => hem, fun r hr => ⟨hreg r hr, htag r⟩⟩, hem, (htag vd).trans ht, fun e he => ?_⟩
  · conv_lhs => rw [hu.hart_eq]
    rw [hem, show u.hart.vtag = s.hart.vtag by rw [hu.hart_eq]]
  · simp only [helem e he, hm]

/-- Only what the delivered values are as elements counts. -/
theorem Strand.delivered.congr {k h : Strand} {vd : BitVec 5} {t : ETag} {active : Nat → Bool} {f g : Nat → Nat}
    (hd : k.delivered h vd t active f) (hfg : ∀ e, f e % 2 ^ t.width = g e % 2 ^ t.width) : k.delivered h vd t active g :=
  ⟨hd.1, fun e he => by rw [hd.2 e he, hfg]⟩

theorem mem_elements {h : Strand} {km : BitVec 3} {e : Nat} : e ∈ h.elements km ↔ h.vsta ≤ e ∧ h.active km e = true := by
  refine (mem_todo (h := h) (active := h.active km)).trans ⟨fun ⟨hl, _, ha⟩ => ⟨hl, ha⟩, fun ⟨hl, ha⟩ => ⟨hl, ?_, ha⟩⟩
  have := ha
  simp only [Strand.active, Bool.and_eq_true, decide_eq_true_eq] at this
  exact this.1

theorem exec_loadOf (km : BitVec 3) (a : Addressing) (rs1 vd : BitVec 5) (s : State) :
    exec (loadOf km a rs1 vd) s = runInstr (loadOf km a rs1 vd) (vecLoad km a rs1 vd) s := by cases a <;> rfl

/-- A trap at an element, where no precise hit is pending. -/
theorem runInstr_trapAt {i : Instr} {body : M Unit} {s u : State} {k : Access} {va n c d : Nat} (hh : u.hart.hit = none)
    (h : body s = .error (.trap c (BitVec.ofNat 64 va) (some d)) (u.refused k va n)) :
    runInstr i body s = .next (u.trapsAt k va n c d) := by
  simp only [runInstr, h, takeTrapAt, refused_hart, hh, State.trapsAt]
  rfl

/-- The elements of a loop below one of them. -/
theorem mem_filter_below {lo d e : Nat} {p : Nat → Bool} :
    e ∈ (rangeFrom lo (d - lo)).filter p ↔ lo ≤ e ∧ (p e && decide (e < d)) = true := by
  rw [List.mem_filter, mem_rangeFrom, Bool.and_eq_true, decide_eq_true_eq]
  constructor
  · rintro ⟨⟨hl, hd⟩, hp⟩; exact ⟨hl, hp, by omega⟩
  · rintro ⟨hl, hp, hd⟩; exact ⟨⟨hl, by omega⟩, hp⟩

/-- A register holds every element that an access of it performs (R114). -/
theorem elements_lt_cap {h : Strand} {km : BitVec 3} {a : Addressing} {r : BitVec 5} (hm : h.mayAccess a r = true) :
    ∀ e ∈ h.elements km, e < h.cap (h.tag r) := fun e he => by
  obtain ⟨-, -, -, -, hf, -⟩ := mayAccess_iff.mp hm
  simp only [Strand.fits, List.all_eq_true, decide_eq_true_eq] at hf
  exact Nat.lt_of_lt_of_le (mem_todo.mp he).2.1 (hf _ (List.mem_cons_self ..))

/-- Settles O28: the elements are delivered in ascending order, up to the first that is refused. -/
theorem vectorLoadsComplete : Obligations.VectorLoadsComplete := by
  unfold Obligations.VectorLoadsComplete
  intro km a rs1 vd s pa t n hc hm hvd va got loads
  obtain ⟨hv, -⟩ := mayAccess_iff.mp hm
  obtain ⟨-, -, -, -, -, hstep⟩ := (calm_iff s).mp hc
  have hcap := elements_lt_cap (km := km) hm
  have hload := vecLoad_loop (km := km) (rs1 := rs1) hc hm hvd
  have hval (e : Nat) := loadedValue_own t e s (pa e)
  refine ⟨fun hall => ?_, fun d hd c hlow href => ?_⟩
  · obtain ⟨u, hrun, hu, hh⟩ := loadElems_ok (vd := vd) s.loading_self hc (s.hart.elements km)
      fun e he => by simpa [got] using hall e he
    obtain ⟨hfr, hem, hdel⟩ := loads_of_fold hu hc hv rfl hh (nodup_todo _ _) (fun _ => mem_elements) hcap
    have hbody : vecLoad km a rs1 vd s = .ok () (u.withHart { u.hart with vsta := 0 }) := by
      rw [hload, run_bind, hrun]
      exact loopDone_end _ _
    refine ⟨{ u.hart with vsta := 0 }, u.dcache, ?_, hu.2, rfl, hfr, hem, hdel.congr hval⟩
    rw [exec_loadOf, runInstr_ok hbody, hu.withHart_eq]
    exact congrArg _ (retire_completes hstep ((calm_iff u).mp (hu.calm hc)).1)
  · obtain ⟨rest, hsplit⟩ := filter_rangeFrom_split hd
    have hsub : ∀ e ∈ (rangeFrom s.hart.vsta (d - s.hart.vsta)).filter (s.hart.active km), e ∈ s.hart.elements km ∧ e < d :=
      fun e he => by
        obtain ⟨hl, ha⟩ := mem_filter_below.mp he
        rw [Bool.and_eq_true, decide_eq_true_eq] at ha
        exact ⟨mem_elements.mpr ⟨hl, ha.1⟩, ha.2⟩
    obtain ⟨u, hrun, hu, hh⟩ := loadElems_ok (vd := vd) s.loading_self hc _
      fun e he => by simpa [got] using hlow e (hsub e he).1 (hsub e he).2
    obtain ⟨hfr, hem, hdel⟩ := loads_of_fold hu hc hv rfl hh ((nodup_rangeFrom _ _).filter _) (fun _ => mem_filter_below)
      fun e he => hcap e (hsub e he).1
    have hbody : vecLoad km a rs1 vd s = .error (.trap c (BitVec.ofNat 64 (va d)) (some d)) (u.refused .load (va d) n) := by
      rw [hload, run_bind, show s.hart.elements km = _ from hsplit, forEach_append hrun, forEach_cons,
        loadElem_refused hu hc href]
    refine ⟨u.hart, u.dcache, ?_, hu.2, hfr, hem, hdel.congr hval⟩
    rw [exec_loadOf, runInstr_trapAt ((calm_iff u).mp (hu.calm hc)).1 hbody]
    exact congrArg (fun w : State => Host.Outcome.next (w.trapsAt .load (va d) n c d)) (hu.withHart_eq u.hart)

end Sys2Proof.Machine
end

section
/-!
Stores of several elements: which translations such a store cannot change, and a state in which a commit changes one all the same.
-/
namespace Sys2Proof.Machine

/-! ### Translations that a write cannot change (R333) -/

/-- Bytes that agree at every place read the same. -/
theorem getBytes_congr {m m' : Memory} {a n : Nat} (h : ∀ i, i < n → m.get (a + i) = m'.get (a + i)) :
    m.getBytes a n = m'.getBytes a n := by
  induction n generalizing a with
  | zero => rfl
  | succ n ih =>
    have h₀ : m.get a = m'.get a := h 0 (by omega)
    have h₁ : m.getBytes (a + 1) n = m'.getBytes (a + 1) n := ih fun i hi => by
      rw [show a + 1 + i = a + (i + 1) by omega]; exact h (i + 1) (by omega)
    rw [Memory.getBytes, Memory.getBytes, h₀, h₁]

/-- A state in which the units of the package are those of another, and no other word is uncorrectable. -/
structure State.SameUnits (s t : State) : Prop where
  svc : t.svc = s.svc
  nodes : t.lostNodes = s.lostNodes
  banks : t.lostBanks = s.lostBanks
  poison : ∀ w ∈ t.poison, w ∈ s.poison

section
variable {s t : State} (h : s.SameUnits t)
include h

theorem State.SameUnits.inHbm_eq (pa : Nat) : inHbm t pa = inHbm s pa := by simp only [inHbm, h.svc, h.nodes]

theorem State.SameUnits.inTile_eq (pa : Nat) : inTile t pa = inTile s pa := by simp only [inTile, h.svc, h.nodes]

theorem State.SameUnits.inMemory_eq (pa : Nat) : inMemory t pa = inMemory s pa := by
  simp only [inMemory, h.inHbm_eq, h.inTile_eq, inCtl, h.svc]

theorem State.SameUnits.readsBad_false {pa n : Nat} (hb : readsBad s pa n = false) : readsBad t pa n = false := by
  have hl : lost t = lost s := by funext x; simp only [lost, h.nodes, h.banks]
  simp only [readsBad, hl, Bool.or_eq_false_iff, List.any_eq_false] at hb ⊢
  exact ⟨hb.1, fun w hw => hb.2 w (h.poison w hw)⟩

/-- A walk whose entries hold the same finds the same leaf. -/
theorem State.SameUnits.walkFrom_ok {k : Access} {va l a e : Nat}
    (hm : ∀ x ∈ walkTrail s va l a, ∀ i, i < 8 → t.mem.get (x + i) = s.mem.get (x + i)) (hw : walkFrom s k va l a = .ok e) :
    walkFrom t k va l a = .ok e := by
  induction l generalizing a with
  | zero => cases hw
  | succ l ih =>
    simp only [walkFrom, walkTrail, h.inHbm_eq, h.inTile_eq] at hw hm ⊢
    generalize a + 8 * (va / 2 ^ (12 + 9 * l) % 512) = x at hw hm ⊢
    by_cases hin : (!(inHbm s a || inTile s a)) = true
    · rw [if_pos hin] at hw; cases hw
    rw [if_neg hin] at hw hm ⊢
    by_cases hbad : readsBad s x 8 = true
    · rw [if_pos hbad] at hw; cases hw
    have hgood := h.readsBad_false (Bool.not_eq_true _ ▸ hbad)
    have hx : x ∈ (if !readsBad s x 8 && (homeRead s x 8).testBit 0 && !pteReserved (homeRead s x 8) && (homeRead s x 8).testBit 6
        then x :: walkTrail s va l (homeRead s x 8 / 4096 % 2 ^ 40 * 4096) else [x]) := by split <;> simp
    have hrd : homeRead t x 8 = homeRead s x 8 := congrArg ofBytes (getBytes_congr (hm x hx))
    rw [if_neg hbad] at hw
    rw [if_neg (by rw [hgood]; decide), hrd]
    split at hw
    case isTrue => cases hw
    case isFalse hv =>
      rw [if_neg hv]
      simp only [Bool.or_eq_true, not_or, Bool.not_eq_true, Bool.not_eq_false'] at hv
      split at hw
      case isTrue h6 =>
        split at hw
        case isTrue => cases hw
        case isFalse hl =>
          rw [if_pos h6, if_neg hl]
          refine ih (fun y hy => hm y ?_) hw
          have hc : (!readsBad s x 8 && (homeRead s x 8).testBit 0 && !pteReserved (homeRead s x 8) && (homeRead s x 8).testBit 6) = true := by
            simp only [Bool.and_eq_true, Bool.not_eq_true']
            exact ⟨⟨⟨Bool.not_eq_true _ ▸ hbad, hv.1⟩, hv.2⟩, h6⟩
          rw [if_pos hc]
          exact List.mem_cons_of_mem _ hy
      case isFalse h6 => rw [if_neg h6]; exact hw

/-- A translation whose entries hold the same reaches the same place. -/
theorem State.SameUnits.translate_ok {root va : Nat} {user : Bool} {k : Access} {r : Nat × Bool}
    (hm : ∀ x ∈ walkTrail s va 5 root, ∀ i, i < 8 → t.mem.get (x + i) = s.mem.get (x + i)) (ht : translate s root user k va = .ok r) :
    translate t root user k va = .ok r := by
  unfold translate at ht ⊢
  split at ht
  case isTrue => cases ht
  case isFalse hc =>
    rw [if_neg hc]
    cases hw : walkFrom s k va 5 root with
    | error c => rw [hw] at ht; cases ht
    | ok e =>
      rw [hw] at ht
      rw [h.walkFrom_ok hm hw]
      simpa only [leafAddress, h.inMemory_eq] using ht

end

/-- An access reaches its place whatever the bytes of W come to be, where its tables stand outside them. -/
theorem settles_of_trail {s : State} {k : Access} {va pa : Nat} {W : Nat → Prop}
    (ht : translate s s.hart.root (s.hart.mode == .user) k va = .ok (pa, false))
    (hW : ∀ x ∈ walkTrail s va 5 s.hart.root, ∀ i, i < 8 → ¬ W (x + i)) : s.settles k va pa W :=
  fun _ hsvc hnodes hbanks hp hmem => State.SameUnits.translate_ok ⟨hsvc, hnodes, hbanks, hp⟩
    (fun x hx i hi => hmem _ (hW x hx i hi)) ht

/-- Accesses reach their places where those, and the held stores, lie below a bound and the tables above it. -/
theorem reachesAll_below {s : State} {k : Access} {es : List Nat} {va pa : Nat → Nat} {n b : Nat}
    (hbuf : ∀ f ∈ s.hart.strip.buffer, f.slice = false → f.addr + 4 ≤ b)
    (hes : ∀ e ∈ es, va e % n = 0 ∧ pa e < ctlBase ∧ pa e + n ≤ b ∧
      translate s s.hart.root (s.hart.mode == .user) k (va e) = .ok (pa e, false) ∧ ∀ x ∈ walkTrail s (va e) 5 s.hart.root, b ≤ x) :
    s.reachesAll k es va pa n := by
  have hW : ∀ a, s.reachedBy es pa n a → a < b := by
    rintro a (⟨e, he, -, ha⟩ | ⟨f, hf, hs, -, ha⟩)
    · have := (hes e he).2.2.1; omega
    · have := hbuf f hf hs; omega
  refine fun e he => ?_
  obtain ⟨hal, hctl, -, htr, htrail⟩ := hes e he
  refine ⟨hal, hctl, settles_of_trail htr fun x hx i _ hw => ?_⟩
  have := hW _ hw
  have := htrail x hx
  omega

/-! ### A strip buffer with an access that is half memory and half lane slice -/

/-- Tables in which the first 2^40 addresses map to themselves. -/
def identityTables : Memory := cellsOf 0x20000 (toBytes 8 0x22041) ++ cellsOf 0x22000 (toBytes 8 0xE1F)

/-- A strand in supervisor mode that holds one access of two words: the first, without an enabled nibble, at the memory word 0x3000, its
continuation a word of a lane slice, whose offset is the physical address of the page-table leaf. v1 holds two I32 elements, m0 a
row of two. -/
def straddlingStrand : Strand := { Strand.start with
  status := .running, lown := 32, root := 0x20000, mode := .supervisor, claimed := true, vl := 2
  x := Strand.start.x.set 1 0x3000#64, vtag := Strand.start.vtag.set 1 .i32, tshape := Strand.start.tshape.set 0 ⟨1, 2, .i32⟩
  strip := { Strip.start with buffer :=
    [⟨false, 0, 0, 8, 0x3000, 0#32, 0#8, false⟩, ⟨true, 0, 0, 8, 0x22000, 0#32, 3#8, true⟩] } }

/-- A device in service on which that strand runs. -/
def straddling : State := { State.reset with
  hart := straddlingStrand, mem := identityTables, svc := { Service.start with hbmStacks := 0xFFFF#16 } }

/-- scause after an outcome that is a next state. -/
def causeAfter (o : Host.Outcome State Fault Refusal) : Option Word :=
  match o with
  | .next t => some t.hart.csr.scause
  | _ => none

/-- Elements at 0x3000 and 0x3004 reach their places in the sense of State.reachesAll, which takes the continuation of the held access
for a word of a lane slice. -/
theorem straddling_reachesAll {es : List Nat} {va : Nat → Nat} (hes : ∀ e ∈ es, e < 2) (hva : ∀ e, e < 2 → va e = 0x3000 + 4 * e) :
    straddling.reachesAll .store es va (fun e => 0x3000 + 4 * e) 4 := by
  have key : ∀ e, e < 2 → (0x3000 + 4 * e) % 4 = 0 ∧ 0x3000 + 4 * e < ctlBase ∧ 0x3000 + 4 * e + 4 ≤ 0x20000 ∧
      translate straddling straddling.hart.root (straddling.hart.mode == .user) .store (0x3000 + 4 * e) = .ok (0x3000 + 4 * e, false) ∧
      ∀ x ∈ walkTrail straddling (0x3000 + 4 * e) 5 straddling.hart.root, 0x20000 ≤ x := by decide +kernel
  refine reachesAll_below (b := 0x20000) (by decide) fun e he => ?_
  rw [hva e (hes e he)]
  exact key e (hes e he)

/-- Refutes O29: the statement ranges over every state, and State.reachedBy leaves out each held word of a lane slice, while performHeld
performs a whole access by the kind of its first word. The first element's store commits the strip of straddlingStrand and so writes
the page-table leaf; the second element's store then traps with a page fault where the statement has it complete. -/
theorem not_vectorStoresComplete : ¬ Obligations.VectorStoresComplete := by
  unfold Obligations.VectorStoresComplete
  intro h
  have hr := ((h 0#3 .unit 1#5 1#5 straddling (fun e => 0x3000 + 4 * e) (by decide +kernel) (by decide +kernel) (fun _ => rfl)).1
    (straddling_reachesAll (by decide +kernel) (by decide +kernel))).1
  have hrun : causeAfter (exec (storeOf 0#3 .unit 1#5 1#5) straddling) = some 15#64 := by decide +kernel
  rw [hr] at hrun
  exact absurd hrun (by decide +kernel)

/-- Refutes O40 as O29 is refuted: tst meets the same strip buffer between the two elements of a row. -/
theorem not_tileTransfersComplete : ¬ Obligations.TileTransfersComplete := by
  unfold Obligations.TileTransfersComplete
  intro h
  have hr := ((h 0#3 0#5 1#5 1#5 straddling (fun e => 0x3000 + 4 * e) (by decide +kernel) (by decide +kernel)).2.2.1
    (straddling_reachesAll (by decide +kernel) (by decide +kernel))).1
  have hrun : causeAfter (exec (.tst 0#3 0#5 1#5) straddling) = some 15#64 := by decide +kernel
  rw [hr] at hrun
  exact absurd hrun (by decide +kernel)

end Sys2Proof.Machine
end

section
/-!
Reductions (R178, R179): each active element from vsta goes into the accumulator, or into element 0 of vd, and nothing else changes but
emask and vsta.
-/
namespace Sys2Proof.Machine

/-- A loop that writes nothing before its elements, where nothing stops it and the elements only change the running strand. -/
theorem elementLoop_steady_fold {n : Nat} {active : Nat → Bool} {bad : Nat → Option Word} {f : Nat → Strand → Strand} {s : State}
    (hc : s.calm = true) (hb : ∀ e, bad e = none) (hk : ∀ e h, (f e h).hit = h.hit) :
    elementLoop n false (pure ()) active bad (fun e => modH (f e)) s = .ok () (s.withHart
      { foldH f ((rangeFrom s.hart.vsta (n - s.hart.vsta)).filter active) s.hart with vsta := 0 }) := by
  obtain ⟨hhit, -⟩ := (calm_iff s).mp hc
  rw [elementLoop_steady hc, run_bind, runElems_fold hk _ (fun e _ => hb e) s hhit]
  exact loopDone_end n _

/-! ### Recorded classes (R66) -/

/-- Recording classes changes emask alone. -/
theorem flag_frame (h : Strand) (e : Nat) (c : Cls) : h.flag e c = { h with emask := (h.flag e c).emask } := by
  unfold Strand.flag; split <;> rfl

/-- With no class selected nothing is recorded (R65). -/
theorem flag_unselected {h : Strand} (hz : h.cls = 0) (e : Nat) (c : Cls) : h.flag e c = h := by
  simp [Strand.flag, hz]

/-! ### Sums in an accumulator (R178) -/

/-- One term of a reduction: it enters the accumulator, and its classes are those of its element. -/
def Strand.addsTerm (ea : BitVec 3) (term : Nat → Acc → Acc × Cls) (e : Nat) (k : Strand) : Strand :=
  let r := term e (k.ea.get ea.toFin)
  (k.putAcc ea r.1).flag e r.2

theorem addsTerm_frame (ea : BitVec 3) (term : Nat → Acc → Acc × Cls) (e : Nat) (k : Strand) : k.addsTerm ea term e =
    { k with ea := k.ea.set ea.toFin (term e (k.ea.get ea.toFin)).1, emask := (k.addsTerm ea term e).emask } :=
  flag_frame (k.putAcc ea (term e (k.ea.get ea.toFin)).1) e _

theorem addsTerm_unselected {ea : BitVec 3} {term : Nat → Acc → Acc × Cls} {k : Strand} (hz : k.cls = 0) (e : Nat) :
    (k.addsTerm ea term e).emask = k.emask := by
  rw [Strand.addsTerm, flag_unselected (show (k.putAcc ea _).cls = 0 from hz)]
  rfl

/-- The terms of the elements enter the accumulator one after another. -/
theorem addsTerm_each (ea : BitVec 3) (term : Nat → Acc → Acc × Cls) (es : List Nat) : ∀ h : Strand,
    let k := foldH (Strand.addsTerm ea term) es h
    k = { h with ea := h.ea.set ea.toFin (es.foldl (fun a e => (term e a).1) (h.ea.get ea.toFin)), emask := k.emask } ∧
      (h.cls = 0 → k.emask = h.emask) := by
  induction es with
  | nil =>
    intro h
    have hset : h.ea.set ea.toFin (h.ea.get ea.toFin) = h.ea := Vector.set_getElem_self _
    exact ⟨by rw [List.foldl_nil, hset, foldH_nil], fun _ => rfl⟩
  | cons d es ih =>
    intro h
    have hfr := addsTerm_frame ea term d h
    have hcls : h.cls = 0 → (h.addsTerm ea term d).emask = h.emask := fun hz => addsTerm_unselected hz d
    rw [foldH_cons, List.foldl_cons]
    generalize h.addsTerm ea term d = k₁ at hfr hcls
    have hget : k₁.ea.get ea.toFin = (term d (h.ea.get ea.toFin)).1 := by rw [hfr]; exact (get_set ..).trans (if_pos rfl)
    have hset (a : Acc) : k₁.ea.set ea.toFin a = h.ea.set ea.toFin a := by rw [hfr]; exact Vector.set_set ..
    obtain ⟨hall, hz⟩ := ih k₁
    rw [hget, hset] at hall
    exact ⟨hall.trans (by rw [hfr]), fun h0 => (hz (by rw [hfr]; exact h0)).trans (hcls h0)⟩

/-- A reduction whose type checks are passed completes with the terms of the active elements in its accumulator. -/
theorem exec_reduction {i : Instr} {body : M Unit} {km ea : BitVec 3} {regs : List (BitVec 5)}
    {term : Strand → Nat → Acc → Acc × Cls} {s : State} (hi : exec i s = runInstr i body s)
    (hb : body s = reduceInto km regs ea term s) (hc : s.calm = true) (hu : s.hart.unchained = true)
    (hf : s.hart.fits (regs.map s.hart.tag) = true) :
    ∃ k, exec i s = .next (s.completes k) ∧
      k = { s.hart with
            ea := s.hart.ea.set ea.toFin ((s.hart.elements km).foldl (fun a e => (term s.hart e a).1) (s.hart.ea.get ea.toFin))
            emask := k.emask, vsta := 0 } ∧ (s.hart.cls = 0 → k.emask = s.hart.emask) := by
  obtain ⟨hhit, -, -, -, hbad, hstep⟩ := (calm_iff s).mp hc
  obtain ⟨hall, hz⟩ := addsTerm_each ea (term s.hart) (s.hart.elements km) s.hart
  refine ⟨{ foldH (Strand.addsTerm ea (term s.hart)) (s.hart.elements km) s.hart with vsta := 0 },
    hi.trans (completes_of_ok hstep (hb.trans ?_) ?_), ?_, hz⟩
  · simp only [reduceInto, run_bind, run_getH, needCap_ok hf, needChains_free hu]
    exact elementLoop_steady_fold hc (fun e => badOf_none hbad _) fun e k => by simp [Strand.putAcc]
  · rw [hall]
    exact hhit
  · conv_lhs => rw [hall]

/-! ### Least and greatest (R179) -/

/-- One element of a running least or greatest: element 0 of vd becomes the lesser or greater of itself and the element. -/
def Strand.foldsFirst (op : BinOp) (vd : BitVec 5) (t : ETag) (x : Nat → Nat) (e : Nat) (k : Strand) : Strand :=
  (k.deliver vd t.width 0 ((elemBin op t k.mode_ (k.elem vd t.width 0) (x e)).1, sigOf t (k.elem vd t.width 0))).flag e (sigOf t (x e))

theorem foldsFirst_frame {k : Strand} (hb : k.bad = []) (op : BinOp) (vd : BitVec 5) (t : ETag) (x : Nat → Nat) (e : Nat) :
    k.foldsFirst op vd t x e =
      { k with v := k.v.set vd.toFin (setElem_ (k.v.get vd.toFin) k.lown t.width 0
                      (elemBin op t (RMode.ofCode k.rm) (k.elem vd t.width 0) (x e)).1)
               emask := (k.foldsFirst op vd t x e).emask } := by
  have hd := deliver_frame hb vd t.width 0
    ((elemBin op t k.mode_ (k.elem vd t.width 0) (x e)).1, sigOf t (k.elem vd t.width 0))
  refine (flag_frame _ e _).trans ?_
  generalize hm : (Strand.flag _ e _).emask = m
  have hm' : (k.foldsFirst op vd t x e).emask = m := hm
  rw [hm', hd]
  rfl

theorem foldsFirst_unselected {k : Strand} (hz : k.cls = 0) (op : BinOp) (vd : BitVec 5) (t : ETag) (x : Nat → Nat) (e : Nat) :
    (k.foldsFirst op vd t x e).emask = k.emask := by
  rw [Strand.foldsFirst, flag_unselected (by simpa [Strand.deliver] using hz), deliver_unselected _ _ _ _ hz]

/-- What folding elements into element 0 of vd leaves. -/
theorem foldsFirst_each {op : BinOp} {vd : BitVec 5} {t : ETag} {x : Nat → Nat} (es : List Nat) : ∀ h : Strand, h.bad = [] →
    h.lown ≤ 256 → (∀ e ∈ es, e < h.cap t) →
    let k := foldH (Strand.foldsFirst op vd t x) es h
    k = { h with v := k.v, emask := k.emask } ∧ (h.cls = 0 → k.emask = h.emask) ∧
      (∀ r, r ≠ vd → k.v.get r.toFin = h.v.get r.toFin) ∧
      k.elem vd t.width 0 =
        es.foldl (fun m e => (elemBin op t (RMode.ofCode h.rm) m (x e)).1 % 2 ^ t.width) (h.elem vd t.width 0) ∧
      ∀ e, 0 < e → e < h.cap t → k.elem vd t.width e = h.elem vd t.width e := by
  induction es with
  | nil => exact fun h _ _ _ => ⟨rfl, fun _ => rfl, fun _ _ => rfl, rfl, fun _ _ _ => rfl⟩
  | cons d es ih =>
    intro h hb hl hc
    have hfr := foldsFirst_frame hb op vd t x d
    have hcls : h.cls = 0 → (h.foldsFirst op vd t x d).emask = h.emask := fun hz => foldsFirst_unselected hz op vd t x d
    rw [foldH_cons, List.foldl_cons]
    generalize h.foldsFirst op vd t x d = k₁ at hfr hcls
    have hcap : k₁.cap t = h.cap t := by rw [hfr]; rfl
    have h0 : 0 < h.cap t := Nat.zero_lt_of_lt (hc d (List.mem_cons_self ..))
    have hvd : k₁.v.get vd.toFin = setElem_ (h.v.get vd.toFin) h.lown t.width 0
        (elemBin op t (RMode.ofCode h.rm) (h.elem vd t.width 0) (x d)).1 := by
      rw [hfr]; exact (get_set ..).trans (if_pos rfl)
    have helem (e : Nat) (he : e < h.cap t) : k₁.elem vd t.width e = if e = 0 then
        (elemBin op t (RMode.ofCode h.rm) (h.elem vd t.width 0) (x d)).1 % 2 ^ t.width else h.elem vd t.width e := by
      rw [Strand.elem, hvd, show k₁.lown = h.lown by rw [hfr], getElem_setElem _ t hl h0 he]
      rfl
    obtain ⟨hall, hz, hreg, hfirst, hrest⟩ := ih k₁ (by rw [hfr]; exact hb) (by rw [hfr]; exact hl)
      fun e he => by rw [hcap]; exact hc e (List.mem_cons_of_mem _ he)
    refine ⟨hall.trans (by rw [hfr]), fun h0 => (hz (by rw [hfr]; exact h0)).trans (hcls h0), fun r hr => ?_, ?_, fun e hpos he => ?_⟩
    · rw [hreg r hr, hfr]
      exact (get_set ..).trans (if_neg fun q => hr (toFin_inj.mp q))
    · rw [hfirst, helem 0 h0, if_pos rfl, show k₁.rm = h.rm by rw [hfr]]
    · rw [hrest e hpos (by rw [hcap]; exact he), helem e he, if_neg (Nat.ne_of_gt hpos)]

/-- The elements that fit the vector length are elements of the register (R114). -/
theorem elements_lt_fits {h : Strand} {km : BitVec 3} {t : ETag} (hf : h.fits [t] = true) : ∀ e ∈ h.elements km, e < h.cap t :=
  fun e he => by
    have hvl : h.vl ≤ h.cap t := by simpa [Strand.fits] using hf
    exact Nat.lt_of_lt_of_le (mem_todo.mp he).2.1 hvl

theorem mayVector_lown {h : Strand} (hv : h.mayVector = true) : h.lown ≤ 256 := by
  simp only [Strand.mayVector, Bool.and_eq_true, decide_eq_true_eq] at hv
  exact hv.1.2

/-- vredmx and vredmn fold the active elements into element 0 of vd. -/
theorem reduceMinMax_ok {op : BinOp} {km : BitVec 3} {vs1 vd : BitVec 5} {s : State} (hc : s.calm = true)
    (hv : s.hart.mayVector = true) (hu : s.hart.unchained = true) (hf : s.hart.fits [s.hart.tag vs1] = true)
    (hn : s.hart.tag vs1 ≠ .none) (ht : s.hart.tag vd = s.hart.tag vs1) : reduceMinMax op km vs1 vd s =
      .ok () (s.withHart { foldH (Strand.foldsFirst op vd (s.hart.tag vs1) fun e => s.hart.elem vs1 (s.hart.tag vs1).width e)
        (s.hart.elements km) s.hart with vsta := 0 }) := by
  obtain ⟨-, -, -, -, hbad, -⟩ := (calm_iff s).mp hc
  have hany : anyTag vs1 s = .ok (s.hart.tag vs1) s := by
    simp only [anyTag, run_bind, run_getH, need_true (show (s.hart.tag vs1 != .none) = true by simpa using hn), run_pure]
  simp only [reduceMinMax, run_bind, vecGate_ok hv, hany, run_getH,
    need_true (show (s.hart.tag vd == s.hart.tag vs1) = true by simpa using ht), needCap_ok hf, needChains_free hu]
  exact elementLoop_steady_fold hc (fun e => badOf_none hbad _) fun e k => by simp

/-- Settles O35: the loop folds the terms of the active elements into the accumulator, or the elements into element 0 of vd. -/
theorem reductionsComplete : Obligations.ReductionsComplete := by
  unfold Obligations.ReductionsComplete
  intro km vs2 vs1 vd ea s h t u es x hc hv hu hf
  obtain ⟨hhit, -, -, -, hbad, hstep⟩ := (calm_iff s).mp hc
  have hlt : ∀ e ∈ s.hart.elements km, e < s.hart.cap t := elements_lt_fits hf
  refine ⟨fun ht => ?_, fun ht htu hfu hk => ?_, fun hn htag f hfm => ?_⟩
  · refine exec_reduction (regs := [vs1]) (term := fun h e a => a.add1 (valueOf t (encOf h t vs1 e))) rfl ?_ hc hu hf
    simp only [run_bind, vecGate_ok hv, run_getH, need_true (show redType (s.hart.tag vs1) = true from ht)]
    rfl
  · have hkinds : (redType t && redType u && ((t.isFloat && u.isFloat) || (t.isSigned && u.isSigned) ||
        (t.isUnsigned && u.isUnsigned))) = true := by
      simpa only [ht, htu, Bool.true_and, Bool.or_eq_true, Bool.and_eq_true, or_assoc] using hk
    have hfits : s.hart.fits ([vs1, vs2].map s.hart.tag) = true := by
      simp only [Strand.fits, List.all_cons, List.all_nil, Bool.and_true, List.map_cons, List.map_nil] at hf hfu ⊢
      rw [hf, hfu, Bool.and_self]
    refine exec_reduction (regs := [vs1, vs2]) (term := fun h e a => addProduct a t u (encOf h t vs1 e) (encOf h u vs2 e)) rfl ?_
      hc hu hfits
    simp only [run_bind, vecGate_ok hv, run_getH]
    rw [need_true hkinds]
  · obtain ⟨hall, hz, hreg, hfirst, hrest⟩ := foldsFirst_each (op := f.2) (vd := vd) (t := t) (x := x) (s.hart.elements km) s.hart hbad
      (mayVector_lown hv) hlt
    have hexec : exec (f.1 km vs1 vd) s = runInstr (f.1 km vs1 vd) (reduceMinMax f.2 km vs1 vd) s := by
      simp only [List.mem_cons, List.not_mem_nil, or_false] at hfm
      rcases hfm with rfl | rfl <;> rfl
    refine ⟨{ foldH (Strand.foldsFirst f.2 vd t x) (s.hart.elements km) s.hart with vsta := 0 }, ?_, ?_, hz, hreg, hfirst, hrest⟩
    · exact hexec.trans (completes_of_ok hstep (reduceMinMax_ok hc hv hu hf hn htag) (by rw [hall]; exact hhit))
    · conv_lhs => rw [hall]

end Sys2Proof.Machine
end

section
/-!
Block quantisation (R44, R45, R151, R152): vqblk delivers elements of vd and scale bytes of vs2 group by group, vdqblk runs the common
course of R131.
-/
namespace Sys2Proof.Machine

/-! ### Elements of eight bits delivered to several registers -/

/-- The given elements of the given registers delivered one after another, as elements of eight bits. -/
def Strand.deliverAll (f : BitVec 5 → Nat → Nat × Cls) (ps : List (BitVec 5 × Nat)) (h : Strand) : Strand :=
  ps.foldl (fun k p => k.deliver p.1 8 p.2 (f p.1 p.2)) h

/-- What delivering elements to several registers leaves. -/
theorem deliverAll_each (f : BitVec 5 → Nat → Nat × Cls) (ps : List (BitVec 5 × Nat)) : ∀ h : Strand,
    h.bad = [] → h.lown ≤ 256 → (∀ p ∈ ps, p.2 < h.cap .n8) →
    let k := h.deliverAll f ps
    k = { h with v := k.v, emask := k.emask } ∧ (h.cls = 0 → k.emask = h.emask) ∧
      (∀ r, (∀ e, (r, e) ∉ ps) → k.v.get r.toFin = h.v.get r.toFin) ∧
      ∀ r e, e < h.cap .n8 → k.elem r 8 e = if (r, e) ∈ ps then (f r e).1 % 256 else h.elem r 8 e := by
  induction ps with
  | nil => exact fun h _ _ _ => ⟨rfl, fun _ => rfl, fun _ _ => rfl, fun _ _ _ => by simp [Strand.deliverAll]⟩
  | cons d ps ih =>
    obtain ⟨q, d⟩ := d
    intro h hb hl hc
    have hfr := deliver_frame hb q 8 d (f q d)
    have hcls : h.cls = 0 → (h.deliver q 8 d (f q d)).emask = h.emask := deliver_unselected q 8 d (f q d)
    have hcons : h.deliverAll f ((q, d) :: ps) = (h.deliver q 8 d (f q d)).deliverAll f ps := rfl
    rw [hcons]
    generalize h.deliver q 8 d (f q d) = k₁ at hfr hcls
    have hcap : k₁.cap .n8 = h.cap .n8 := by rw [hfr]; rfl
    have hreg (r : BitVec 5) : k₁.v.get r.toFin =
        if r = q then setElem_ (h.v.get q.toFin) h.lown 8 d (f q d).1 else h.v.get r.toFin := by
      rw [hfr]
      exact (get_set h.v q.toFin r.toFin _).trans (if_congr toFin_inj rfl rfl)
    have helem (r : BitVec 5) (e : Nat) (he : e < h.cap .n8) :
        k₁.elem r 8 e = if (r, e) = (q, d) then (f q d).1 % 256 else h.elem r 8 e := by
      rw [Strand.elem, hreg, show k₁.lown = h.lown by rw [hfr]]
      by_cases hr : r = q
      · subst hr
        rw [if_pos rfl]
        refine (getElem_setElem _ .n8 hl (hc (r, d) (List.mem_cons_self ..)) he).trans (if_congr ?_ rfl rfl)
        simp
      · simp [hr, Strand.elem]
    obtain ⟨hall, hz, hother, hin⟩ := ih k₁ (by rw [hfr]; exact hb) (by rw [hfr]; exact hl)
      fun p hp => by rw [hcap]; exact hc p (List.mem_cons_of_mem _ hp)
    refine ⟨hall.trans (by rw [hfr]), fun h0 => (hz (by rw [hfr]; exact h0)).trans (hcls h0), fun r hr => ?_, fun r e he => ?_⟩
    · rw [hother r fun e hm => hr e (List.mem_cons_of_mem _ hm), hreg, if_neg]
      rintro rfl
      exact hr d (List.mem_cons_self ..)
    · rw [hin r e (by rw [hcap]; exact he), helem r e he]
      by_cases hd : (r, e) = (q, d)
      · obtain ⟨rfl, rfl⟩ := Prod.mk.inj hd
        simp
      · simp [hd]

/-- A stored element is one delivered without a class. -/
theorem storeElem_eq_deliver (h : Strand) (r : BitVec 5) (w e x : Nat) : h.storeElem r w e x = h.deliver r w e (x, 0#6) := by
  simp [Strand.deliver, Strand.flag]

/-! ### The groups of vqblk (R44, R151) -/

/-- The elements that group g of vqblk delivers: those of vd below vl, then the scale byte in vs2. -/
def Strand.quantPlaces (h : Strand) (vs2 vd : BitVec 5) (g : Nat) : List (BitVec 5 × Nat) :=
  (((rangeFrom 0 32).map (32 * g + ·)).filter fun e => decide (e < h.vl)).map (fun e => (vd, e)) ++ [(vs2, g)]

/-- Whether a value is an infinity. -/
def Num.isInf : Num → Bool
  | .inf _ => true
  | _ => false

/-- The code or scale byte that vqblk delivers to element e of register r, with its classes. -/
def Strand.quantCode (h : Strand) (km : BitVec 3) (vs2 vs1 r : BitVec 5) (e : Nat) : Nat × Cls :=
  if r = vs2 then ((quantGroup h.mode_ (groupValues h km vs1 e)).1, 0#6)
  else if h.active km e then
    let c := nth (quantGroup h.mode_ (groupValues h km vs1 (e / 32))).2 (e % 32) (0, 0#6)
    let x := nth (groupValues h km vs1 (e / 32)) (e % 32) (.fin false 0 0)
    (c.1, c.2 ||| sigCls x ||| Cls.invalid.on x.isInf)
  else (0, 0#6)

/-- A group of vqblk delivers its codes and its scale byte. -/
theorem quantInto_eq {vs2 vd : BitVec 5} (hne : vs2 ≠ vd) (km : BitVec 3) (h : Strand) (vs1 : BitVec 5) (g : Nat) (k : Strand) :
    quantInto km vs2 vd h vs1 g k = k.deliverAll (h.quantCode km vs2 vs1) (h.quantPlaces vs2 vd g) := by
  have hgroup (i : Nat) (hi : i ∈ rangeFrom 0 32) : (32 * g + i) / 32 = g ∧ (32 * g + i) % 32 = i := by
    have := (mem_rangeFrom.mp hi).2
    omega
  unfold quantInto Strand.deliverAll Strand.quantPlaces
  rw [List.foldl_append, List.foldl_map, List.foldl_filter, List.foldl_map, List.foldl_cons, List.foldl_nil, storeElem_eq_deliver]
  have hscale : h.quantCode km vs2 vs1 vs2 g = ((quantGroup h.mode_ (groupValues h km vs1 g)).1, 0#6) := if_pos rfl
  simp only [hscale]
  congr 1
  refine List.foldl_ext _ _ _ fun k i hi => ?_
  obtain ⟨hdiv, hmod⟩ := hgroup i hi
  have hcode : h.quantCode km vs2 vs1 vd (32 * g + i) = if h.active km (32 * g + i) = true then _ else _ := if_neg (Ne.symm hne)
  by_cases hvl : h.vl ≤ 32 * g + i
  · simp only [if_pos hvl, decide_eq_true_eq, if_neg (Nat.not_lt.mpr hvl)]
  · simp only [if_neg hvl, decide_eq_true_eq, if_pos (Nat.not_le.mp hvl), hcode, hdiv, hmod]
    by_cases ha : h.active km (32 * g + i) = true
    · simp only [if_pos ha]
      generalize nth (groupValues h km vs1 g) i (.fin false 0 0) = x
      cases x <;> rfl
    · simp only [if_neg ha, storeElem_eq_deliver]

/-- The elements that the groups of vqblk deliver, from group g0 on. -/
def Strand.quantAll (h : Strand) (vs2 vd : BitVec 5) (g0 : Nat) : List (BitVec 5 × Nat) :=
  ((rangeFrom (32 * g0) (h.vl - 32 * g0)).filter fun e => e % 32 == 0).flatMap fun e => h.quantPlaces vs2 vd (e / 32)

/-- They are the elements of vd from that group on below vl, and the scale bytes of the groups that have one of them. -/
theorem mem_quantAll {h : Strand} {vs2 vd : BitVec 5} {g0 : Nat} {r : BitVec 5} {e : Nat} : (r, e) ∈ h.quantAll vs2 vd g0 ↔
    (r = vd ∧ 32 * g0 ≤ e ∧ e < h.vl) ∨ (r = vs2 ∧ g0 ≤ e ∧ 32 * e < h.vl) := by
  simp only [Strand.quantAll, Strand.quantPlaces, List.mem_flatMap, List.mem_filter, mem_rangeFrom, beq_iff_eq, List.mem_append,
    List.mem_map, Prod.mk.injEq, decide_eq_true_eq, List.mem_singleton]
  constructor
  · rintro ⟨d, ⟨hd, hd32⟩, ⟨_, ⟨⟨i, hi, rfl⟩, hvl⟩, rfl, rfl⟩ | ⟨rfl, rfl⟩⟩
    · exact Or.inl ⟨rfl, by omega, hvl⟩
    · exact Or.inr ⟨rfl, by omega, by omega⟩
  · rintro (⟨rfl, hlo, hvl⟩ | ⟨rfl, hlo, hvl⟩)
    · exact ⟨e / 32 * 32, ⟨by omega, by omega⟩, Or.inl ⟨e, ⟨⟨e % 32, by omega, by omega⟩, hvl⟩, rfl, rfl⟩⟩
    · exact ⟨32 * e, ⟨by omega, by omega⟩, Or.inr ⟨rfl, by omega⟩⟩

/-- The groups of vqblk one after another deliver all of them. -/
theorem foldH_quantInto {vs2 vd : BitVec 5} (hne : vs2 ≠ vd) (km : BitVec 3) (h : Strand) (vs1 : BitVec 5) (g0 : Nat) (k : Strand) :
    foldH (fun e => quantInto km vs2 vd h vs1 (e / 32)) ((rangeFrom (32 * g0) (h.vl - 32 * g0)).filter fun e => e % 32 == 0) k =
      k.deliverAll (h.quantCode km vs2 vs1) (h.quantAll vs2 vd g0) := by
  simp only [foldH, quantInto_eq hne, Strand.deliverAll, Strand.quantAll, List.foldl_flatMap]

theorem deliverAll_hit (f : BitVec 5 → Nat → Nat × Cls) (ps : List (BitVec 5 × Nat)) (h : Strand) :
    (h.deliverAll f ps).hit = h.hit := by
  induction ps generalizing h with
  | nil => rfl
  | cons d ps ih => exact (ih _).trans (by simp [Strand.deliver])

/-- The types of the source of vqblk (R151). -/
theorem quantised_types {t : ETag} (ht : t = .fp32 ∨ t = .bf16 ∨ t = .fp16) : (t == .fp32 || t == .bf16 || t == .fp16) = true := by
  rcases ht with rfl | rfl | rfl <;> rfl

/-- The strand in which vqblk delivers its first element: vd and vs2 have their tags. -/
def Strand.quantStart (h : Strand) (vs2 vd : BitVec 5) : Strand :=
  ({ h with vsta := h.vsta / 32 * 32 }.putTag vd .e4m3).putTag vs2 .n8

theorem quantStart_tag (h : Strand) (vs2 vd r : BitVec 5) :
    (h.quantStart vs2 vd).tag r = if r = vs2 then .n8 else if r = vd then .e4m3 else h.tag r :=
  (Strand.tag_putTag _ vs2 r .n8).trans (if_congr Iff.rfl rfl (Strand.tag_putTag _ vd r .e4m3))

/-- The strand at the end of vqblk: the elements of every group from the one that holds element vsta are delivered. -/
def Strand.quantEnd (h : Strand) (km : BitVec 3) (vs2 vs1 vd : BitVec 5) : Strand :=
  { (h.quantStart vs2 vd).deliverAll (h.quantCode km vs2 vs1) (h.quantAll vs2 vd (h.vsta / 32)) with vsta := 0 }

section
variable {km : BitVec 3} {vs2 vs1 vd : BitVec 5} {s : State}
  (hv : s.hart.mayVector = true) (hf : s.hart.fits [s.hart.tag vs1, .e4m3, .n8] = true)
include hv hf

/-- vqblk into two registers completes with every group delivered. -/
theorem vqblk_completes (ht : s.hart.tag vs1 = .fp32 ∨ s.hart.tag vs1 = .bf16 ∨ s.hart.tag vs1 = .fp16) (hc : s.calm = true)
    (hu : s.hart.unchained = true) (hne : vs2 ≠ vd) :
    exec (.vqblk km vs2 vs1 vd) s = .next (s.completes (s.hart.quantEnd km vs2 vs1 vd)) := by
  obtain ⟨hhit, -, -, hus, hbad, hstep⟩ := (calm_iff s).mp hc
  refine completes_of_ok hstep ?_ ((deliverAll_hit ..).trans hhit)
  simp only [run_bind, vecGate_ok hv, run_getH, need_true (quantised_types ht), needCap_ok hf,
    need_true (show (vs2 != vd) = true by simpa using hne), needChains_free hu, run_modH]
  have hloop := elementLoop_fold (n := s.hart.vl) (ind := vd == vs1 || vs2 == vs1) (active := fun e => e % 32 == 0)
    (g := fun k => (k.putTag vd .e4m3).putTag vs2 .n8) (f := fun e => quantInto km vs2 vd s.hart vs1 (e / 32))
    (s := s.withHart { s.hart with vsta := s.hart.vsta / 32 * 32 }) hstep hus hhit
    (fun e => badOf_none hbad (((rangeFrom (e / 32 * 32) 32).filter (s.hart.active km)).flatMap (s.hart.srcReads [vs1] km)))
    (fun _ => rfl) fun e k => by rw [quantInto_eq hne, deliverAll_hit]
  refine hloop.trans ?_
  rw [withHart_hart, Nat.mul_comm (s.hart.vsta / 32), foldH_quantInto hne, Strand.quantEnd, Strand.quantStart,
    Nat.mul_comm (s.hart.vsta / 32)]
  rfl

/-- vqblk into one register is a shape fault. -/
theorem vqblk_shapeFault (ht : s.hart.tag vs1 = .fp32 ∨ s.hart.tag vs1 = .bf16 ∨ s.hart.tag vs1 = .fp16) (he : vs2 = vd) :
    exec (.vqblk km vs2 vs1 vd) s = .next (s.checkFault 24 (.vqblk km vs2 vs1 vd)) := by
  refine runInstr_bits (s' := s) ?_ (by decide)
  simp only [run_bind, vecGate_ok hv, run_getH, need_true (quantised_types ht), needCap_ok hf]
  simp [need, he]

/-- What vqblk leaves of the strand. -/
theorem vqblk_delivers (hc : s.calm = true) (hne : vs2 ≠ vd) :
    let g0 := s.hart.vsta / 32
    let h := s.hart.quantEnd km vs2 vs1 vd
    h = { s.hart with v := h.v, vtag := h.vtag, emask := h.emask, vsta := 0 } ∧
      (∀ r, r ≠ vd → r ≠ vs2 → h.v.get r.toFin = s.hart.v.get r.toFin ∧ h.tag r = s.hart.tag r) ∧
      h.tag vd = .e4m3 ∧ h.tag vs2 = .n8 ∧ (s.hart.cls = 0 → h.emask = s.hart.emask) ∧
      ∀ r e, e < s.hart.cap .n8 → h.elem r 8 e =
        if (r = vd ∧ 32 * g0 ≤ e ∧ e < s.hart.vl) ∨ (r = vs2 ∧ g0 ≤ e ∧ 32 * e < s.hart.vl)
        then (s.hart.quantCode km vs2 vs1 r e).1 % 256 else s.hart.elem r 8 e := by
  intro g0
  unfold Strand.quantEnd
  obtain ⟨-, -, -, -, hbad, -⟩ := (calm_iff s).mp hc
  have hvl : s.hart.vl ≤ s.hart.cap .n8 := by
    simp only [Strand.fits, List.all_cons, Bool.and_eq_true, decide_eq_true_eq] at hf
    exact hf.2.2.1
  have hcap : ∀ p ∈ s.hart.quantAll vs2 vd g0, p.2 < s.hart.cap .n8 := fun p hp => by
    rcases mem_quantAll.mp hp with ⟨-, -, h⟩ | ⟨-, -, h⟩ <;> omega
  obtain ⟨hall, hz, hreg, helem⟩ := deliverAll_each (s.hart.quantCode km vs2 vs1) _ (s.hart.quantStart vs2 vd) hbad
    (mayVector_lown hv) hcap
  have htag := quantStart_tag s.hart vs2 vd
  generalize (s.hart.quantStart vs2 vd).deliverAll (s.hart.quantCode km vs2 vs1) (s.hart.quantAll vs2 vd g0) = k at *
  have hktag (r : BitVec 5) : k.tag r = (s.hart.quantStart vs2 vd).tag r := by rw [hall]; rfl
  refine ⟨?_, fun r hd h2 => ⟨hreg r fun e hm => ?_, ?_⟩, ?_, ?_, hz, fun r e he => ?_⟩
  · conv_lhs => rw [hall]
    rw [show k.vtag = (s.hart.quantStart vs2 vd).vtag by rw [hall]]
    rfl
  · rcases mem_quantAll.mp hm with ⟨h, -⟩ | ⟨h, -⟩
    · exact hd h
    · exact h2 h
  · exact (hktag r).trans ((htag r).trans (by rw [if_neg h2, if_neg hd]))
  · exact (hktag vd).trans ((htag vd).trans (by rw [if_neg (Ne.symm hne), if_pos rfl]))
  · exact (hktag vs2).trans ((htag vs2).trans (if_pos rfl))
  · exact (helem r e he).trans (if_congr mem_quantAll rfl rfl)

end

/-! ### vdqblk (R45, R152) -/

/-- Which words an element reads does not count where none is uncorrectable. -/
theorem vaRunOn_good {reads : Strand → Nat → List SrcRead} {km : BitVec 3} {vd : BitVec 5} {regs : List (BitVec 5)} {t : ETag}
    {ind : Bool} {f : Strand → Nat → Nat × Cls} {s : State} (hb : s.hart.bad = []) :
    vaRunOn reads km vd regs t ind f s = vaRun km vd regs t ind f s := by
  simp only [vaRun, vaRunOn, run_bind, run_getH, badOf_none hb]

/-- Settles O8: vqblk delivers the elements and the scale bytes of its groups, vdqblk runs the common course of R131. -/
theorem blockQuantisationCompletes : Obligations.BlockQuantisationCompletes := by
  unfold Obligations.BlockQuantisationCompletes
  intro km vs2 vs1 vd s hc hv hu
  obtain ⟨hhit, -, -, -, hbad, hstep⟩ := (calm_iff s).mp hc
  refine ⟨fun ht hne hf => ?_, fun ht he hf => vqblk_shapeFault hv hf ht he, fun h2 h1 hfl hf => ?_⟩
  · intro g0
    obtain ⟨hframe, hother, htd, ht2, hz, helem⟩ := vqblk_delivers (km := km) hv hf hc hne
    refine ⟨_, vqblk_completes hv hf ht hc hu hne, hframe, hother, htd, ht2, hz, fun e he => ?_, fun g hg => ?_⟩
    · simp only [helem vd e he, true_and, Ne.symm hne, false_and, or_false, Strand.quantCode, if_false]
      refine if_congr Iff.rfl ?_ rfl
      by_cases ha : s.hart.active km e = true
      · rw [if_pos ha, if_pos ha]
        rfl
      · simp only [if_neg ha, Nat.zero_mod]
    · simp only [helem vs2 g hg, true_and, hne, false_and, false_or, Strand.quantCode, if_true]
      rfl
  · obtain ⟨h, hrun, hframe, hdel⟩ := vaRun_calm (km := km) (vd := vd) (regs := [vs2, vs1]) (t := s.hart.tag vd) (ind := vd == vs1)
      (f := fun h e => dequant (s.hart.tag vd) h.mode_ (h.elem vs1 8 (e / 32)) (h.elem vs2 8 e)) hc
      (by simpa only [List.map_cons, List.map_nil, h2, h1] using hf) hu (mayVector_lown hv)
    have hty : (s.hart.tag vs2 == .e4m3 && s.hart.tag vs1 == .n8 && (s.hart.tag vd).isFloat) = true := by simp [h2, h1, hfl]
    refine ⟨h, completes_of_ok hstep ?_ (by rw [hframe.1]; exact hhit), hframe, hdel⟩
    simp only [run_bind, vecGate_ok hv, run_getH, need_true hty, vaRunOn_good hbad]
    exact hrun

end Sys2Proof.Machine
end

section
/-!
Moves of exact accumulators (R37, R39, R180): what the words of an image read and store, and eaclr, eard and eamv.
-/
namespace Sys2Proof.Machine

/-! ### Bytes of a number (R17) -/

/-- The number of some bytes has them as its bytes. -/
theorem toBytes_ofBytes (bs : List Byte) : toBytes bs.length (ofBytes bs) = bs := by
  induction bs with
  | nil => rfl
  | cons b bs ih =>
    have hb : b.toNat < 256 := b.isLt
    have hlow : BitVec.ofNat 8 (b.toNat + 256 * ofBytes bs) = b :=
      BitVec.eq_of_toNat_eq (by rw [BitVec.toNat_ofNat]; omega)
    have hhigh : (b.toNat + 256 * ofBytes bs) / 256 = ofBytes bs := by omega
    rw [List.length_cons, ofBytes, toBytes, hlow, hhigh, ih]

theorem length_rangeFrom (lo n : Nat) : (rangeFrom lo n).length = n := by
  induction n generalizing lo with
  | zero => rfl
  | succ n ih => simp [rangeFrom, ih]

/-- The bytes that a load takes are those of its value. -/
theorem toBytes_ownValue (s : State) (pa n : Nat) :
    toBytes n (s.ownValue pa n) = (rangeFrom pa n).map fun a => overlayByte s.hart.strip.buffer false a (s.mem.get a) := by
  have h := toBytes_ofBytes ((rangeFrom pa n).map fun a => overlayByte s.hart.strip.buffer false a (s.mem.get a))
  rwa [List.length_map, length_rangeFrom] at h

/-! ### The words of an image (R180) -/

/-- A state that s reaches by reading memory: lines of the data cache have gone, and nothing else has changed. -/
def State.reading (s u : State) : Prop := u = { s with dcache := u.dcache } ∧ ∀ l ∈ u.dcache, l ∈ s.dcache

theorem State.reading_self (s : State) : s.reading s := ⟨rfl, fun _ h => h⟩

theorem State.reading.trans {s u w : State} (h : s.reading u) (h' : u.reading w) : s.reading w :=
  ⟨h'.1.trans (by rw [h.1]), fun l hl => h.2 l (h'.2 l hl)⟩

/-- Fewer lines of the data cache. -/
theorem State.reading_filter (s : State) (p : CacheLine → Bool) : s.reading { s with dcache := s.dcache.filter p } :=
  ⟨rfl, fun _ h => List.mem_of_mem_filter h⟩

theorem State.reading_walkedAll (vas : List Nat) (s : State) : s.reading (s.walkedAll vas) := by
  induction vas generalizing s with
  | nil => exact s.reading_self
  | cons va vas ih => exact (s.reading_filter _).trans (ih (s.walked va none))

section
variable {s u : State} (h : s.reading u)
include h

theorem State.reading.hart_eq : u.hart = s.hart := by rw [h.1]
theorem State.reading.ownGood_eq (pa n : Nat) : u.ownGood pa n = s.ownGood pa n := by rw [h.1]; rfl
theorem State.reading.ownValue_eq (pa n : Nat) : u.ownValue pa n = s.ownValue pa n := by rw [h.1]; rfl

/-- A running strand put into it is put into s with the data cache that is left. -/
theorem State.reading.withHart_eq (k : Strand) : u.withHart k = { s with dcache := u.dcache }.withHart k := by rw [h.1]

end

/-- A translated access that reaches its place. -/
theorem translateIdem_ok {s : State} {k : Access} {va n pa : Nat} (hc : s.choices = []) (hr : s.reaches k va n pa = true) :
    translateIdem k va s = .ok pa (s.walked va none) := by
  obtain ⟨-, -, hlow, htr⟩ := reaches_iff.mp hr
  simp [translateIdem, translateH_ok hc htr, Nat.not_le.mpr hlow]

/-- A collecting loop over a list and one more element runs over the element first. -/
theorem mapEach_cons {f : α → M β} {a : α} {as : List α} {b : β} {bs : List β} {s t u : State} (h : f a s = .ok b t)
    (h' : mapEach as f t = .ok bs u) : mapEach (a :: as) f s = .ok (b :: bs) u := by
  simp [mapEach, h, h']

/-- Every word of an image that reaches its place is translated, one after another. -/
theorem imageWords_ok {k : Access} {a : Nat} {pa : Nat → Nat} (n : Nat) {s : State} (hc : s.choices = []) (hh : s.hart.hit = none)
    (hr : ∀ i ∈ rangeFrom 0 n, s.reaches k ((a + 8 * i) % 2 ^ 64) 8 (pa i) = true) :
    imageWords k a n s = .ok ((rangeFrom 0 n).map fun i => ((a + 8 * i) % 2 ^ 64, pa i))
      (s.walkedAll ((rangeFrom 0 n).map fun i => (a + 8 * i) % 2 ^ 64)) := by
  unfold imageWords
  revert hr
  generalize rangeFrom 0 n = is
  induction is generalizing s with
  | nil => exact fun _ => rfl
  | cons i is ih =>
    intro hr
    have hri := hr i (List.mem_cons_self ..)
    obtain ⟨hcan, hal, -, -⟩ := reaches_iff.mp hri
    refine mapEach_cons (t := s.walked ((a + 8 * i) % 2 ^ 64) none) (atElem_ok ?_ hh)
      (ih (s := s.walked _ none) hc hh fun j hj => hr j (List.mem_cons_of_mem _ hj))
    simp only [run_bind, checkAddress_ok hcan hal, translateIdem_ok hc hri, run_pure]

/-- The bytes of words that hold no uncorrectable word. -/
theorem ownWords_ok {s : State} (hh : s.hart.hit = none) {ws : List (Nat × Nat)} (hg : ∀ w ∈ ws, s.ownGood w.2 8 = true) :
    mapEach ws (fun w => atElem 0 (ownBytes w.2 8 w.1)) s = .ok (ws.map fun w => toBytes 8 (s.ownValue w.2 8)) s :=
  mapEach_ok fun w hw => atElem_ok (by rw [toBytes_ownValue]; exact ownBytes_good (hg w hw) w.1) hh

/-- After the words are read the data cache keeps no line of them. -/
theorem dropWords_ok {s : State} (hw : s.hart.unwatched = true) (ws : List (Nat × Nat)) :
    ∃ u, forEach ws (fun w => do dropDcache w.2 8; noteAccess false w.1 8) s = .ok () u ∧ s.reading u := by
  obtain ⟨u, hrun, hu, -⟩ := forEach_ok (f := fun w : Nat × Nat => do dropDcache w.2 8; noteAccess false w.1 8) (as := ws)
    (R := State.reading) (I := fun u => u.hart.unwatched = true) State.reading_self State.reading.trans
    (fun w _ u hu => ⟨_, noteAccess_unwatched (s := u.withoutLines w.2 8) hu false w.1 8, u.reading_filter _, hu⟩) s hw
  exact ⟨u, hrun, hu⟩

/-! ### eaclr and eard (R39, R180) -/

section
variable {ea : BitVec 3} {vd rs1 : BitVec 5} {s : State} (hc : s.calm = true) (hv : s.hart.mayVector = true)
  (hu : s.hart.unchained = true)
include hc hv hu

theorem eaclr_completes :
    exec (.eaclr ea) s = .next (s.completes { s.hart with ea := s.hart.ea.set ea.toFin .clear, vsta := 0 }) := by
  obtain ⟨hhit, -, -, hus, hbad, hstep⟩ := (calm_iff s).mp hc
  refine completes_of_ok hstep ?_ hhit
  simp only [run_bind, vecGate_ok hv, needChains_free hu, needUpset_none hus, run_modH, clearVsta]
  rw [Strand.heal, if_pos (show (s.hart.putAcc ea .clear).bad = [] from hbad)]
  rfl

theorem eard_completes (hn : s.hart.tag vd ≠ .none) (h4 : s.hart.tag vd ≠ .i4) :
    let r := (s.hart.ea.get ea.toFin).read (s.hart.tag vd) (RMode.ofCode s.hart.rm)
    exec (.eard ea vd) s = .next (s.completes
      { (s.hart.putElem vd (s.hart.tag vd).width 0 r.1).flag 0 r.2 with vsta := 0 }) := by
  intro r
  obtain ⟨hhit, -, -, hus, hbad, hstep⟩ := (calm_iff s).mp hc
  have hdest : destType vd s = .ok (s.hart.tag vd) s := by
    simp only [destType, run_bind, run_getH, need_true (show (s.hart.tag vd != .none) = true by simpa using hn), run_pure]
  refine completes_of_ok hstep ?_ (by simpa using hhit)
  simp only [run_bind, vecGate_ok hv, hdest, need_true (show (s.hart.tag vd != .i4) = true by simpa using h4), needChains_free hu,
    run_getH, badOf_none hbad, consume, run_pure, needUpset_none hus, run_modH, clearVsta]
  rw [Strand.deliver, Strand.storeElem, Strand.heal, if_pos (show (s.hart.putElem vd _ 0 _).bad = [] from hbad)]
  rfl

/-! ### eamv from memory (R37, R180) -/

/-- What eamv from memory does with the accumulator of the image that it has read from address a. -/
def eamvTakes (ea : BitVec 3) (a : Nat) : Option Acc → M Unit
  | none => raiseAt 5 0 a
  | some v => do
    needUpset
    modH fun h => (h.putAcc ea v).heal 5 ea.toNat [0]
    clearVsta

/-- The words of an image at virtual address a all reach good memory, at the given places. -/
def State.imageReached (s : State) (a : Nat) (pa : Nat → Nat) : Prop :=
  ∀ i ∈ rangeFrom 0 12, s.reaches .load ((a + 8 * i) % 2 ^ 64) 8 (pa i) = true ∧ s.ownGood (pa i) 8 = true

/-- The bytes of an image at the given places, as the strand's own loads see them (R280). -/
def State.imageBytes (s : State) (pa : Nat → Nat) : List Byte := (rangeFrom 0 12).flatMap fun i => toBytes 8 (s.ownValue (pa i) 8)

/-- eamv reads the words of an image that all reach good memory, and goes on with the accumulator that they give. -/
theorem eamvLoad_reads {pa : Nat → Nat} (hr : s.imageReached (s.hart.rx rs1).toNat pa) :
    ∃ body u, exec (.eamvLoad rs1 ea) s = runInstr (.eamvLoad rs1 ea) body s ∧ s.reading u ∧
      body s = eamvTakes ea (s.hart.rx rs1).toNat (Acc.ofImage (s.imageBytes pa)) u := by
  obtain ⟨hhit, hun, hch, -, -, -⟩ := (calm_iff s).mp hc
  generalize hvas : (rangeFrom 0 12).map (fun i => ((s.hart.rx rs1).toNat + 8 * i) % 2 ^ 64) = vas
  have hw := s.reading_walkedAll vas
  have himg := imageWords_ok 12 hch hhit fun i hi => (hr i hi).1
  rw [hvas] at himg
  have hbytes := ownWords_ok (s := s.walkedAll vas)
    (ws := (rangeFrom 0 12).map fun i => (((s.hart.rx rs1).toNat + 8 * i) % 2 ^ 64, pa i)) (by rw [hw.hart_eq]; exact hhit)
    (fun w hm => by
      obtain ⟨i, hi, rfl⟩ := List.mem_map.mp hm
      rw [hw.ownGood_eq]
      exact (hr i hi).2)
  simp only [hw.ownValue_eq, List.map_map] at hbytes
  obtain ⟨u, hdrop, hu'⟩ := dropWords_ok (s := s.walkedAll vas) (by rw [hw.hart_eq]; exact hun)
    ((rangeFrom 0 12).map fun i => (((s.hart.rx rs1).toNat + 8 * i) % 2 ^ 64, pa i))
  have hflat : ((rangeFrom 0 12).map ((fun w : Nat × Nat => toBytes 8 (s.ownValue w.2 8)) ∘
      fun i => (((s.hart.rx rs1).toNat + 8 * i) % 2 ^ 64, pa i))).flatten = s.imageBytes pa := rfl
  refine ⟨_, u, rfl, hw.trans hu', ?_⟩
  simp only [run_bind, vecGate_ok hv, needChains_free hu, readX, run_getH, run_pure, himg, hbytes, hdrop, hflat]
  cases Acc.ofImage (s.imageBytes pa) <;> rfl

/-- An image without a reserved bit is loaded. -/
theorem eamvLoad_completes {pa : Nat → Nat} (hr : s.imageReached (s.hart.rx rs1).toNat pa) {v : Acc}
    (himg : Acc.ofImage (s.imageBytes pa) = some v) :
    ∃ d, exec (.eamvLoad rs1 ea) s =
        .next ({ s with dcache := d }.completes { s.hart with ea := s.hart.ea.set ea.toFin v, vsta := 0 }) ∧
      ∀ l ∈ d, l ∈ s.dcache := by
  obtain ⟨hhit, -, -, hus, hbad, hstep⟩ := (calm_iff s).mp hc
  obtain ⟨body, u, hexec, hread, hrun⟩ := eamvLoad_reads (ea := ea) hc hv hu hr
  have hus' : u.upsets = [] := by rw [hread.1]; exact hus
  have hbody : body s = .ok () (u.withHart { s.hart with ea := s.hart.ea.set ea.toFin v, vsta := 0 }) := by
    rw [hrun, himg]
    simp only [eamvTakes, run_bind, needUpset_none hus', run_modH, clearVsta, hread.hart_eq]
    rw [Strand.heal, if_pos (show (s.hart.putAcc ea v).bad = [] from hbad)]
    rfl
  refine ⟨u.dcache, ?_, hread.2⟩
  rw [hexec, runInstr_ok hbody, hread.withHart_eq]
  exact congrArg _ (retire_completes hstep hhit)

/-- An image with a reserved bit is an access fault at its address. -/
theorem eamvLoad_reserved {pa : Nat → Nat} (hr : s.imageReached (s.hart.rx rs1).toNat pa)
    (himg : Acc.ofImage (s.imageBytes pa) = none) :
    ∃ d, exec (.eamvLoad rs1 ea) s =
        .next (takeTrap 5 (s.hart.rx rs1) ({ s with dcache := d }.withHart { s.hart with vsta := 0 })) ∧ ∀ l ∈ d, l ∈ s.dcache := by
  obtain ⟨hhit, -⟩ := (calm_iff s).mp hc
  obtain ⟨body, u, hexec, hread, hrun⟩ := eamvLoad_reads (ea := ea) hc hv hu hr
  refine ⟨u.dcache, ?_, hread.2⟩
  rw [himg, eamvTakes, run_raiseAt, BitVec.ofNat_toNat, BitVec.setWidth_eq] at hrun
  rw [hexec, runInstr, hrun, ← hread.withHart_eq]
  simp only [takeTrapAt, hread.hart_eq, hhit]
  rfl

end

end Sys2Proof.Machine
end

section
/-!
Stores of the running strand (R280): what a store leaves of the strand and of memory, and eamv to memory (R180).
-/
namespace Sys2Proof.Machine

/-! ### What a store leaves of the strand -/

/-- A strand h that stores of k lead to: its held stores, its lane slices and its pending hits have changed. -/
def Strand.storing (k h : Strand) : Prop :=
  h = { k with strip := h.strip, slices := h.slices, badSlice := h.badSlice, hits := h.hits }

theorem Strand.storing.trans {k h g : Strand} (h₁ : k.storing h) (h₂ : h.storing g) : k.storing g :=
  Eq.trans h₂ (by rw [h₁])

section
variable {k h : Strand} (hs : k.storing h)
include hs

theorem Strand.storing.hit_eq : h.hit = k.hit := by rw [hs]
theorem Strand.storing.bad_eq : h.bad = k.bad := by rw [hs]
theorem Strand.storing.unwatched_eq : h.unwatched = k.unwatched := by rw [hs]; rfl
theorem Strand.storing.x_eq : h.x = k.x := by rw [hs]
theorem Strand.storing.v_eq : h.v = k.v := by rw [hs]
theorem Strand.storing.ea_eq : h.ea = k.ea := by rw [hs]

end

/-- A relation that each turn of a fold keeps to is kept to by the fold. -/
theorem foldl_related {R : State → State → Prop} (refl : ∀ s, R s s) (trans : ∀ {a b c}, R a b → R b c → R a c)
    {f : State → α → State} (rs : List α) (step : ∀ r ∈ rs, ∀ u, R u (f u r)) : ∀ s, R s (rs.foldl f s) := by
  induction rs with
  | nil => exact refl
  | cons r rs ih => exact fun s => trans (step r (by simp) s) (ih (fun q hq => step q (by simp [hq])) _)

/-- A write at its home leaves of the running strand all but its pending hits. -/
theorem homeWrite_hart (a : Agent) (pa : Nat) (bs : List Byte) (s : State) :
    (homeWrite a pa bs s).hart = { s.hart with hits := (homeWrite a pa bs s).hart.hits } := by
  unfold homeWrite
  split
  · rfl
  · split
    · rfl
    · exact Strand.watchWrite_eq ..

/-- A performed store changes lane slices and pending hits of the running strand, and not what it holds. -/
theorem performHeld_hart (es : List Held) (s : State) : (performHeld es s).hart =
    { s.hart with slices := (performHeld es s).hart.slices, badSlice := (performHeld es s).hart.badSlice
                  hits := (performHeld es s).hart.hits } := by
  have hfold {f : State → Nat × List Byte → State} (rs : List (Nat × List Byte)) := foldl_related (f := f)
    (R := fun s u : State => u.hart = { s.hart with slices := u.hart.slices, badSlice := u.hart.badSlice, hits := u.hart.hits })
    (fun _ => rfl) (fun h₁ h₂ => Eq.trans h₂ (by rw [h₁])) rs
  cases es with
  | nil => rfl
  | cons e es =>
    rw [performHeld]
    by_cases he : e.slice = true
    · rw [if_pos he]
      exact hfold (f := fun s r => { s with hart := s.hart.putSlice r.1 r.2 }) _ (fun _ _ _ => rfl) s
    · rw [if_neg he]
      exact hfold _ (fun r _ u => (homeWrite_hart u.hart.agent r.1 r.2 u).trans (by rw [homeWrite_hart])) s

theorem performHeld_storing (es : List Held) (s : State) : s.hart.storing (performHeld es s).hart :=
  (performHeld_hart es s).trans (by rw [performHeld_hart])

/-- A commit performs what the strand holds. -/
theorem committed_storing (s : State) : s.hart.storing s.committed.hart := by
  have h := foldl_related (R := fun s u : State => s.hart.storing u.hart) (f := fun u es => performHeld es u) (fun _ => rfl)
    Strand.storing.trans (heldAccesses s.hart.strip.buffer) (fun es _ u => performHeld_storing es u)
    { s with hart := { s.hart with strip := { s.hart.strip with buffer := [] } } }
  unfold State.committed
  refine Strand.storing.trans (h := { s.hart with strip := { s.hart.strip with buffer := [] } }) rfl (h.trans ?_)
  rfl

theorem stored_storing (s : State) (va : Nat) (es : List Held) : s.hart.storing (s.stored va es).hart := by
  have hperform (u : State) (hu : s.hart.storing u.hart) : s.hart.storing (performHeld es u).hart := hu.trans (performHeld_storing es u)
  unfold State.stored
  split
  · refine hperform _ ?_
    split
    · exact committed_storing s
    · rfl
  · split
    · split
      · exact hperform _ (committed_storing s)
      · rfl
    · exact hperform s rfl

/-- With no uncorrectable word among the held stores a commit does not stop. -/
theorem endRewind_ok {s : State} (hb : s.hart.bad = []) : endRewind s = .ok () s.committed := by
  simp [endRewind, commitStrip, hb, State.committed]

/-- A store of a strand that holds no uncorrectable word is held, or performed. -/
theorem holdOrPerform_ok {s : State} (hb : s.hart.bad = []) (va : Nat) (es : List Held) :
    holdOrPerform va es s = .ok () (s.stored va es) := by
  unfold holdOrPerform State.stored
  simp only [run_bind, run_getH, run_ite, run_modify, endRewind_ok hb]
  split
  · split <;> rfl
  · split
    · split <;> rfl
    · rfl

/-! ### What a performed store leaves of memory -/

/-- The runs of some bytes hold their addresses only. -/
theorem mem_runsOf {l : List (Nat × Byte)} : ∀ r ∈ runsOf l, ∀ i < r.2.length, ∃ b, (r.1 + i, b) ∈ l := by
  induction l with
  | nil => simp [runsOf]
  | cons c l ih =>
    obtain ⟨a, b⟩ := c
    have hfirst : ∃ b', (a, b') ∈ (a, b) :: l := ⟨b, List.mem_cons_self ..⟩
    have hrest {r : Nat × List Byte} (hr : r ∈ runsOf l) (i : Nat) (hi : i < r.2.length) : ∃ b', (r.1 + i, b') ∈ (a, b) :: l :=
      (ih r hr i hi).imp fun _ h => List.mem_cons_of_mem _ h
    intro r hr i hi
    rw [runsOf] at hr
    split at hr
    case h_1 a' bs more hruns =>
      have hhead : (a', bs) ∈ runsOf l := by rw [hruns]; exact List.mem_cons_self ..
      split at hr
      case isTrue ha =>
        rcases List.mem_cons.mp hr with rfl | hr
        · cases i with
          | zero => exact hfirst
          | succ i =>
            obtain ⟨b', hb'⟩ := hrest hhead i (by simpa using hi)
            exact ⟨b', by rwa [ha, Nat.add_assoc, Nat.add_comm 1] at hb'⟩
        · exact hrest (by rw [hruns]; exact List.mem_cons_of_mem _ hr) i hi
      case isFalse =>
        rcases List.mem_cons.mp hr with rfl | hr
        · obtain rfl : i = 0 := by simpa using hi
          exact hfirst
        · exact hrest (by rw [hruns]; exact hr) i hi
    case h_2 =>
      obtain rfl := List.mem_singleton.mp hr
      obtain rfl : i = 0 := by simpa using hi
      exact hfirst

/-- The enable bits of the bytes of a word that a condition selects. -/
def enables (p : Nat → Bool) : BitVec 8 := BitVec.ofNat 8 ((rangeFrom 0 4).foldl (fun n i => n + if p i then 3 * 4 ^ i else 0) 0)

/-- A byte has an enabled nibble only where the condition selects it. -/
theorem enables_selected (p : Nat → Bool) {i : Nat} (hi : i < 4)
    (h : ((enables p).getLsbD (2 * i) || (enables p).getLsbD (2 * i + 1)) = true) : p i = true := by
  have key : ∀ b0 b1 b2 b3 : Bool, ∀ i : Fin 4,
      let en : BitVec 8 := BitVec.ofNat 8
        ((((0 + if b0 then 3 else 0) + if b1 then 12 else 0) + if b2 then 48 else 0) + if b3 then 192 else 0)
      (en.getLsbD (2 * i) || en.getLsbD (2 * i + 1)) = true → [b0, b1, b2, b3][i] = true := by decide
  have h' := key (p 0) (p 1) (p 2) (p 3) ⟨i, hi⟩ h
  match i, hi, h' with
  | 0, _, h' => exact h'
  | 1, _, h' => exact h'
  | 2, _, h' => exact h'
  | 3, _, h' => exact h'

/-- A store of whole bytes writes its own bytes only. -/
theorem bytesOver_heldOf {a : Nat} {bs : List Byte} {old : Nat → Byte} {e : Held} (he : e ∈ heldOf false a bs) {p : Nat × Byte}
    (hp : p ∈ e.bytesOver old) : bytesAt a bs.length p.1 := by
  obtain ⟨w, -, rfl⟩ := List.mem_map.mp he
  obtain ⟨i, hi, rfl⟩ := List.mem_map.mp hp
  obtain ⟨hi4, hen⟩ := List.mem_filter.mp hi
  have hsel := enables_selected
    (fun i => (if a ≤ 4 * w + i ∧ 4 * w + i < a + bs.length then some (nth bs (4 * w + i - a) 0#8) else none).isSome)
    (by have := (mem_rangeFrom.mp hi4).2; omega) hen
  by_cases h : a ≤ 4 * w + i ∧ 4 * w + i < a + bs.length
  · exact h
  · simp [h] at hsel

/-- A write at its home leaves every byte outside it. -/
theorem homeWrite_get {a : Agent} {pa : Nat} {bs : List Byte} {s : State} {b : Nat} (hb : b < pa ∨ pa + bs.length ≤ b) :
    (homeWrite a pa bs s).mem.get b = s.mem.get b := by
  unfold homeWrite
  split
  · rfl
  · split
    · rfl
    · exact get_putBytes_out hb

/-- A performed store of whole bytes leaves every byte of memory outside it. -/
theorem performHeld_get {a b : Nat} {bs : List Byte} (hb : ¬ bytesAt a bs.length b) (s : State) :
    (performHeld (heldOf false a bs) s).mem.get b = s.mem.get b := by
  have hslice : ∀ e ∈ heldOf false a bs, e.slice = false := fun e he => by
    obtain ⟨w, -, rfl⟩ := List.mem_map.mp he
    rfl
  have hbytes : ∀ r ∈ runsOf ((heldOf false a bs).flatMap fun e => e.bytesOver (Memory.get s.mem)),
      b < r.1 ∨ r.1 + r.2.length ≤ b := fun r hr => by
      by_contra hin
      obtain ⟨c, hc⟩ := mem_runsOf r hr (b - r.1) (by omega)
      obtain ⟨e, he, hp⟩ := List.mem_flatMap.mp hc
      rw [show r.1 + (b - r.1) = b by omega] at hp
      exact hb (bytesOver_heldOf he hp)
  revert hslice hbytes
  generalize heldOf false a bs = es
  intro hslice hbytes
  cases es with
  | nil => rfl
  | cons e es =>
    rw [performHeld, if_neg (by simp [hslice e (List.mem_cons_self ..)])]
    exact foldl_related (R := fun s u : State => u.mem.get b = s.mem.get b) (fun _ => rfl) (fun h₁ h₂ => Eq.trans h₂ h₁)
      (f := fun s r => homeWrite s.hart.agent r.1 r.2 s) _ (fun r hr u => homeWrite_get (hbytes r hr)) s

/-- A strand that writes through performs its stores at once, and goes on so. -/
theorem stored_through {s : State} (hw : s.hart.writesThrough = true) (va : Nat) (es : List Held) :
    s.stored va es = performHeld es s := by
  simp only [Strand.writesThrough, Bool.and_eq_true, List.isEmpty_iff, Bool.or_eq_true, beq_iff_eq, Bool.not_eq_true'] at hw
  obtain ⟨hbuf, hmode⟩ := hw
  unfold State.stored
  by_cases hm : s.hart.mode = .supervisor
  · simp [hm, hbuf]
  · simp [hm, hmode.resolve_left hm]

theorem performHeld_writesThrough (es : List Held) (s : State) : (performHeld es s).hart.writesThrough = s.hart.writesThrough := by
  rw [performHeld_hart]
  rfl

/-! ### eamv to memory (R180) -/

/-- A loop whose every turn ends in a state that a function gives, where an invariant holds. -/
theorem forEach_foldl {f : α → M Unit} {g : State → α → State} {I : State → Prop} {as : List α}
    (step : ∀ a ∈ as, ∀ u, I u → f a u = .ok () (g u a) ∧ I (g u a)) : ∀ u, I u →
    forEach as f u = .ok () (as.foldl g u) ∧ I (as.foldl g u) := by
  induction as with
  | nil => exact fun u hu => ⟨rfl, hu⟩
  | cons a as ih =>
    intro u hu
    obtain ⟨hrun, hI⟩ := step a (by simp) u hu
    rw [forEach_cons, hrun]
    exact ih (fun b hb => step b (by simp [hb])) _ hI

theorem getElem?_rangeFrom {lo n i : Nat} (hi : i < n) : (rangeFrom lo n)[i]? = some (lo + i) := by
  induction n generalizing lo i with
  | zero => omega
  | succ n ih =>
    cases i with
    | zero => rfl
    | succ i => exact (ih (lo := lo + 1) (by omega)).trans (by rw [Nat.add_assoc, Nat.add_comm 1])

/-- An entry of a list over the numbers below n. -/
theorem nth_map_rangeFrom {n i : Nat} (hi : i < n) (f : Nat → α) (d : α) : nth ((rangeFrom 0 n).map f) i d = f i := by
  simp [nth, getElem?_rangeFrom hi]

/-- What one word of an image leaves when it is stored: word i of the accumulator's image at its place. -/
def State.imageStored (a : Nat) (pa : Nat → Nat) (img : List Byte) (u : State) (i : Nat) : State :=
  u.stored ((a + 8 * i) % 2 ^ 64) (heldOf false (pa i) ((img.drop (8 * i)).take 8))

/-- The words of an image, stored one after another in a strand in which nothing stops them, change what stores change. -/
theorem imageStores_ok {a : Nat} {pa : Nat → Nat} {img : List Byte} {s : State} (hbad : s.hart.bad = [])
    (hw : s.hart.unwatched = true) :
    forEach (rangeFrom 0 12) (fun i =>
      let w := nth ((rangeFrom 0 12).map fun i => ((a + 8 * i) % 2 ^ 64, pa i)) i (0, 0)
      idemStore w.1 w.2 ((img.drop (8 * i)).take 8)) s = .ok () ((rangeFrom 0 12).foldl (State.imageStored a pa img) s) ∧
    s.hart.storing ((rangeFrom 0 12).foldl (State.imageStored a pa img) s).hart := by
  refine forEach_foldl (I := fun u => s.hart.storing u.hart) (fun i hi u hu => ?_) s rfl
  have hnth : nth ((rangeFrom 0 12).map fun i => ((a + 8 * i) % 2 ^ 64, pa i)) i (0, 0) = ((a + 8 * i) % 2 ^ 64, pa i) :=
    nth_map_rangeFrom (by simpa using (mem_rangeFrom.mp hi).2) _ _
  have hbadu : u.hart.bad = [] := hu.bad_eq.trans hbad
  have hnext := hu.trans (stored_storing u ((a + 8 * i) % 2 ^ 64) (heldOf false (pa i) ((img.drop (8 * i)).take 8)))
  refine ⟨?_, hnext⟩
  simp only [hnth, idemStore, run_bind, holdOrPerform_ok hbadu]
  exact noteAccess_unwatched (hnext.unwatched_eq.trans hw) true _ _

/-- Where the strand writes through, they leave every byte outside their places. -/
theorem imageStores_get {a b : Nat} {pa : Nat → Nat} {img : List Byte} {is : List Nat} (hb : ∀ i ∈ is, ¬ bytesAt (pa i) 8 b) :
    ∀ s : State, s.hart.writesThrough = true → (is.foldl (State.imageStored a pa img) s).mem.get b = s.mem.get b := by
  induction is with
  | nil => exact fun s _ => rfl
  | cons i is ih =>
    intro s hw
    have hthrough : State.imageStored a pa img s i = performHeld _ s := stored_through hw _ _
    rw [List.foldl_cons, hthrough, ih (fun j hj => hb j (by simp [hj])) _ (by rw [performHeld_writesThrough]; exact hw)]
    refine performHeld_get (fun hin => hb i (by simp) ⟨hin.1, Nat.lt_of_lt_of_le hin.2 ?_⟩) s
    have := List.length_take_le 8 (img.drop (8 * i))
    omega

/-- eamv to memory completes with the words of the image stored one after another. -/
theorem eamvStore_completes {ea : BitVec 3} {rs1 : BitVec 5} {s w u : State} {pa : Nat → Nat} (hc : s.calm = true)
    (hv : s.hart.mayVector = true) (hu : s.hart.unchained = true)
    (hr : ∀ i ∈ rangeFrom 0 12, s.reaches .store (((s.hart.rx rs1).toNat + 8 * i) % 2 ^ 64) 8 (pa i) = true)
    (hw : s.walkedAll ((rangeFrom 0 12).map fun i => ((s.hart.rx rs1).toNat + 8 * i) % 2 ^ 64) = w)
    (hfold : (rangeFrom 0 12).foldl (State.imageStored (s.hart.rx rs1).toNat pa (s.hart.ea.get ea.toFin).image) w = u) :
    exec (.eamvStore rs1 ea) s = .next (u.completes { u.hart with vsta := 0 }) ∧ s.hart.storing u.hart := by
  obtain ⟨hhit, hun, hch, hus, hbad, hstep⟩ := (calm_iff s).mp hc
  have hread : s.reading w := hw ▸ s.reading_walkedAll _
  have husw : w.upsets = [] := by rw [hread.1]; exact hus
  have himg := imageWords_ok 12 hch hhit hr
  rw [hw] at himg
  obtain ⟨hloop, hstoring⟩ := imageStores_ok (a := (s.hart.rx rs1).toNat) (pa := pa) (img := (s.hart.ea.get ea.toFin).image) (s := w)
    (by rw [hread.hart_eq]; exact hbad) (by rw [hread.hart_eq]; exact hun)
  rw [hfold] at hloop hstoring
  rw [hread.hart_eq] at hstoring
  refine ⟨?_, hstoring⟩
  have hbody : ∀ body : M Unit, body s = .ok () (u.withHart { u.hart with vsta := 0 }) →
      runInstr (.eamvStore rs1 ea) body s = .next (u.completes { u.hart with vsta := 0 }) := fun body hb =>
    (runInstr_ok hb).trans (congrArg _ (retire_completes hstep (hstoring.hit_eq.trans hhit)))
  refine hbody _ ?_
  simp only [run_bind, vecGate_ok hv, needChains_free hu, run_getH, himg, badOf_none hbad, consume, run_pure,
    needUpset_none husw, hloop]
  rfl

/-- Settles O36: an image is read and stored word by word, once every word is translated. -/
theorem accumulatorMovesComplete : Obligations.AccumulatorMovesComplete := by
  unfold Obligations.AccumulatorMovesComplete
  intro ea vd rs1 s pa h t a ws va img hc hv hu
  refine ⟨eaclr_completes hc hv hu, eard_completes hc hv hu, fun hr v => eamvLoad_completes hc hv hu hr,
    eamvLoad_reserved hc hv hu, fun hr => ?_⟩
  have hread : s.reading (s.walkedAll (ws.map va)) := s.reading_walkedAll _
  generalize hw : s.walkedAll (ws.map va) = w at hread
  intro u
  have hget (b : Nat) (hb : ∀ i ∈ ws, ¬ bytesAt (pa i) 8 b) (ht : s.hart.writesThrough = true) : u.mem.get b = s.mem.get b :=
    (imageStores_get hb w (by rw [hread.hart_eq]; exact ht)).trans (by rw [hread.1])
  generalize hfold : u = u' at hget
  obtain ⟨hexec, hstoring⟩ := eamvStore_completes (ea := ea) hc hv hu hr hw hfold
  exact ⟨hexec, hstoring.x_eq, hstoring.v_eq, hstoring.ea_eq, fun ht b hb => hget b hb ht⟩

end Sys2Proof.Machine
end

section
/-!
Exact sums of integers (R37, R38, R42, R175, R198): values of encodings clamped to a type, running sums, products, and the exact
accumulator as a number and as an image.
-/
namespace Sys2Proof.Machine

/-! ### Integers of a type (R22, R24) -/

/-- An integer clamped to the values of a type. -/
def clampInt (t : ETag) (i : Int) : Int := max (intMin t) (min (intMax t) i)

theorem width_pos (t : ETag) : 0 < t.width := (width_dvd t).2

/-- Zero is in every type's range (R24). -/
theorem intMin_le_zero_le_intMax (t : ETag) : intMin t ≤ 0 ∧ 0 ≤ intMax t := by
  cases t <;> decide

theorem satInt_eq_clampInt (t : ETag) (i : Int) : satInt t i = clampInt t i := by
  have := intMin_le_zero_le_intMax t
  unfold satInt clampInt
  split
  · omega
  · split <;> omega

theorem clampInt_mem (t : ETag) (i : Int) : intMin t ≤ clampInt t i ∧ clampInt t i ≤ intMax t := by
  have := intMin_le_zero_le_intMax t
  unfold clampInt
  omega

/-- The top bit of a number of w + 1 bits. -/
theorem testBit_top {n w : Nat} (hn : n < 2 ^ (w + 1)) : n.testBit w = true ↔ 2 ^ w ≤ n :=
  ⟨Nat.ge_two_pow_of_testBit, fun h => Nat.testBit_of_two_pow_le_and_two_pow_add_one_gt h hn⟩

theorem truncInt_cast (t : ETag) (i : Int) : (truncInt t i : Int) = i % 2 ^ t.width :=
  Int.toNat_of_nonneg (Int.emod_nonneg i (by positivity))

theorem truncInt_lt (t : ETag) (i : Int) : truncInt t i < 2 ^ t.width := by
  have := Int.emod_lt_of_pos i (show (0 : Int) < 2 ^ t.width by positivity)
  zify
  rwa [truncInt_cast]

/-- The value of an encoding that has been cut from an integer: the top bit of a signed type counts negative (R24). -/
theorem decodeInt_truncInt_eq {t : ETag} {w : Nat} (hw : t.width = w + 1) (i : Int) : decodeInt t (truncInt t i) =
    if t.isSigned = true ∧ 2 ^ w ≤ i % 2 ^ (w + 1) then i % 2 ^ (w + 1) - 2 ^ (w + 1) else i % 2 ^ (w + 1) := by
  have hlt := truncInt_lt t i
  have hcast := truncInt_cast t i
  rw [hw] at hlt hcast
  have htop : (truncInt t i).testBit w = true ↔ 2 ^ w ≤ i % 2 ^ (w + 1) := by
    rw [testBit_top hlt, ← hcast]
    norm_cast
  rw [decodeInt]
  simp only [hw, Nat.add_sub_cancel, Nat.mod_eq_of_lt hlt, htop, hcast]

/-- A value of a type's range is that of its encoding (R24). -/
theorem decodeInt_truncInt {t : ETag} {i : Int} (hmin : intMin t ≤ i) (hmax : i ≤ intMax t) : decodeInt t (truncInt t i) = i := by
  obtain ⟨w, hw⟩ : ∃ w, t.width = w + 1 := ⟨t.width - 1, by have := width_pos t; omega⟩
  have hpow : (2 : Int) ^ (w + 1) = 2 * 2 ^ w := by rw [pow_succ]; ring
  have hpos : (0 : Int) < 2 ^ w := by positivity
  have hnonneg (h : 0 ≤ i) (h' : i < 2 ^ (w + 1)) : i % 2 ^ (w + 1) = i := Int.emod_eq_of_lt h h'
  simp only [intMin, intMax, hw, Nat.add_sub_cancel] at hmin hmax
  rw [decodeInt_truncInt_eq hw]
  by_cases hs : t.isSigned = true
  · simp only [hs, if_true, true_and] at hmin hmax ⊢
    by_cases hi : 0 ≤ i
    · rw [hnonneg hi (by omega), if_neg (by omega)]
    · have hneg : i % 2 ^ (w + 1) = i + 2 ^ (w + 1) := by
        rw [← Int.add_emod_right, Int.emod_eq_of_lt (by omega) (by omega)]
      rw [hneg, if_pos (by omega), Int.add_sub_cancel]
  · simp only [hs, if_false, false_and, Bool.false_eq_true] at hmin hmax ⊢
    exact hnonneg hmin (by omega)

/-- The encoding of a clamped integer has its value. -/
theorem decodeInt_satEnc (t : ETag) (i : Int) : decodeInt t (satEnc t i).1 = clampInt t i := by
  obtain ⟨hmin, hmax⟩ := clampInt_mem t i
  rw [satEnc, satInt_eq_clampInt]
  exact decodeInt_truncInt hmin hmax

theorem isInt_not_float {t : ETag} (h : t.isInt = true) : t.isFloat = false := by
  revert h
  cases t <;> decide

/-! ### Running sums (R175) and products (R198) -/

/-- Each running sum is the sum of the elements so far, clamped on its own. -/
theorem scanInt_nth (t : ETag) (xs : List Nat) : ∀ a : Int, (scanInt t a xs).length = xs.length ∧ ∀ i, i < xs.length →
    decodeInt t (nth (scanInt t a xs) i (0, 0#6)).1 = clampInt t (a + ((xs.take (i + 1)).map (decodeInt t)).sum) := by
  induction xs with
  | nil => exact fun _ => ⟨rfl, fun _ h => absurd h (Nat.not_lt_zero _)⟩
  | cons x xs ih =>
    intro a
    obtain ⟨hlen, hnth⟩ := ih (a + decodeInt t x)
    refine ⟨congrArg (· + 1) hlen, fun i hi => ?_⟩
    cases i with
    | zero => simpa [nth, scanInt] using decodeInt_satEnc t (a + decodeInt t x)
    | succ i =>
      have h := hnth i (Nat.lt_of_succ_lt_succ hi)
      rw [add_assoc] at h
      exact h

/-- A sum with a start. -/
theorem foldl_add_eq_sum (f : α → Int) (ps : List α) : ∀ c : Int, ps.foldl (fun n p => n + f p) c = c + (ps.map f).sum := by
  induction ps with
  | nil => simp
  | cons p ps ih => intro c; rw [List.foldl_cons, ih, List.map_cons, List.sum_cons, add_assoc]

/-! ### The image of an accumulator (R37) -/

theorem ofBytes_toBytes (n : Nat) : ∀ v, ofBytes (toBytes n v) = v % 256 ^ n := by
  induction n with
  | zero => intro v; simp [toBytes, ofBytes, Nat.mod_one]
  | succ n ih =>
    intro v
    have hlow : (BitVec.ofNat 8 v).toNat = v % 256 := BitVec.toNat_ofNat ..
    rw [toBytes, ofBytes, ih, hlow, Nat.pow_succ', Nat.mod_mul]

/-- The bytes of a word of whole bytes give its value back. -/
theorem ofBytes_toBytes_word (n : Nat) (v : BitVec (8 * n)) : ofBytes (toBytes n v.toNat) = v.toNat := by
  have hpow : 2 ^ (8 * n) = 256 ^ n := Nat.pow_mul ..
  rw [ofBytes_toBytes, Nat.mod_eq_of_lt (hpow ▸ v.isLt)]

theorem image_length (a : Acc) : a.image.length = 96 := by
  simp [Acc.image, toBytes_length]

/-- The flags word has its flags as bits and no other. -/
theorem flagBits_bits (a : Acc) : a.flagBits < 32 ∧ a.flagBits.testBit 0 = a.nf ∧ a.flagBits.testBit 1 = a.pf ∧
    a.flagBits.testBit 2 = a.mf ∧ a.flagBits.testBit 3 = a.vf ∧ a.flagBits.testBit 4 = a.zf := by
  unfold Acc.flagBits
  generalize a.nf = nf, a.pf = pf, a.mf = mf, a.vf = vf, a.zf = zf
  revert nf pf mf vf zf
  decide

/-- Loading the image of an accumulator gives it back. -/
theorem ofImage_image (a : Acc) : Acc.ofImage a.image = some a := by
  obtain ⟨hlt, h0, h1, h2, h3, h4⟩ := flagBits_bits a
  have hvalue : a.image.take 80 = toBytes 80 a.a.toNat := by
    rw [Acc.image, List.append_assoc, List.take_left' (toBytes_length ..)]
  have hrest : a.image.drop 80 = toBytes 8 a.flagBits ++ toBytes 8 0 := by
    rw [Acc.image, List.append_assoc, List.drop_left' (toBytes_length ..)]
  have hflags : (a.image.drop 80).take 8 = toBytes 8 a.flagBits := by rw [hrest, List.take_left' (toBytes_length ..)]
  have hzero : (a.image.drop 88).take 8 = toBytes 8 0 := by
    rw [show 88 = 80 + 8 from rfl, ← List.drop_drop, hrest, List.drop_left' (toBytes_length ..)]
    rfl
  have hword : ofBytes (toBytes 80 a.a.toNat) = a.a.toNat := ofBytes_toBytes_word 80 a.a
  have hbits : a.flagBits % 256 ^ 8 = a.flagBits := Nat.mod_eq_of_lt (by omega)
  unfold Acc.ofImage
  simp only [hvalue, hflags, hzero, hword, ofBytes_toBytes, hbits, BitVec.ofNat_toNat, BitVec.setWidth_eq, h0, h1, h2, h3, h4]
  rw [if_neg (by omega)]

/-! ### An accumulator that has taken integers (R38) -/

/-- An accumulator holds the integer n, and has taken no NaN and no infinity and has not overflown. -/
def Acc.holds (a : Acc) (n : Int) : Prop :=
  a.nf = false ∧ a.pf = false ∧ a.mf = false ∧ a.vf = false ∧ a.a.toInt = n * 2 ^ 320

theorem clear_holds : Acc.clear.holds 0 := ⟨rfl, rfl, rfl, rfl, BitVec.toInt_zero.trans (Int.zero_mul _).symm⟩

theorem cast_shiftLeft (n k : Nat) : ((n <<< k : Nat) : Int) = n * 2 ^ k := by
  rw [Nat.shiftLeft_eq, Nat.cast_mul, Nat.cast_pow, Nat.cast_ofNat]

/-- The fixed-point term of an integer. -/
theorem fixedPoint_intNum (x : Int) : fixedPoint (decide (x < 0)) x.natAbs 0 = x * 2 ^ 320 := by
  have hshift : ((x.natAbs <<< ((0 : Int) - -320).toNat : Nat) : Int) = x.natAbs * 2 ^ 320 := cast_shiftLeft x.natAbs 320
  unfold fixedPoint scaled
  rw [hshift]
  by_cases hx : x < 0
  · rw [if_pos (by simpa using hx), ← Int.neg_mul, Int.ofNat_natAbs_of_nonpos (Int.le_of_lt hx), Int.neg_neg]
  · rw [if_neg (by simpa using hx), Int.natAbs_of_nonneg (Int.not_lt.mp hx)]

/-- An integer enters an accumulator as an exact term (R38). -/
theorem add1_intNum (a : Acc) (x : Int) : (a.add1 (intNum x)).1 = a.addInt (x * 2 ^ 320) := by
  have hpos : ¬ (x.natAbs = 0 ∧ decide (x < 0) = true) := by
    rintro ⟨h0, hneg⟩
    have := of_decide_eq_true hneg
    omega
  rw [← fixedPoint_intNum]
  simp only [Acc.add1, Acc.addTerm, intNum, Num.isNaN, Bool.false_eq_true, if_false, if_neg hpos]

/-- Integers of 200 bits are well within an accumulator. -/
theorem fixedPoint_inRange {n : Int} (hn : n.natAbs < 2 ^ 200) : -2 ^ 639 ≤ n * 2 ^ 320 ∧ n * 2 ^ 320 < (2 : Int) ^ 639 := by
  have hpow : (2 : Int) ^ 639 = 2 ^ 319 * 2 ^ 320 := by rw [← pow_add]
  have hle : (2 : Int) ^ 200 ≤ 2 ^ 319 := pow_le_pow_right₀ (by decide) (by decide)
  have hpos : (0 : Int) < 2 ^ 320 := by positivity
  have habs : -2 ^ 200 < n ∧ n < (2 : Int) ^ 200 := by omega
  rw [hpow, ← Int.neg_mul]
  exact ⟨Int.mul_le_mul_of_nonneg_right (by omega) hpos.le, Int.mul_lt_mul_of_pos_right (by omega) hpos⟩

/-- An integer that is added is held, where the sum is in range. -/
theorem add1_holds {a : Acc} {n x : Int} (ha : a.holds n) (hr : (n + x).natAbs < 2 ^ 200) : (a.add1 (intNum x)).1.holds (n + x) := by
  obtain ⟨hnf, hpf, hmf, hvf, hv⟩ := ha
  obtain ⟨hlo, hhi⟩ := fixedPoint_inRange hr
  have hsum : a.a.toInt + x * 2 ^ 320 = (n + x) * 2 ^ 320 := by rw [hv, Int.add_mul]
  rw [add1_intNum, Acc.addInt, hsum]
  refine ⟨hnf, hpf, hmf, ?_, BitVec.toInt_ofInt_eq_self (by decide) hlo hhi⟩
  have hin : ¬ ((n + x) * 2 ^ 320 < -(2 ^ 639) ∨ 2 ^ 639 ≤ (n + x) * 2 ^ 320) := by omega
  simp only [hvf, hin, decide_false, Bool.or_self]

theorem foldl_add1_holds (xs : List Int) : ∀ (a : Acc) (n : Int), a.holds n → (∀ x ∈ xs, x.natAbs < 2 ^ 64) →
    n.natAbs + xs.length * 2 ^ 64 < 2 ^ 200 → (xs.foldl (fun a x => (a.add1 (intNum x)).1) a).holds (n + xs.sum) := by
  induction xs with
  | nil => intro a n ha _ _; simpa using ha
  | cons x xs ih =>
    intro a n ha hx hn
    have h1 : x.natAbs < 2 ^ 64 := hx x (by simp)
    have htri : (n + x).natAbs ≤ n.natAbs + x.natAbs := Int.natAbs_add_le n x
    rw [List.length_cons, Nat.add_mul, Nat.one_mul] at hn
    rw [List.foldl_cons, List.sum_cons, ← add_assoc]
    exact ih _ _ (add1_holds ha (by omega)) (fun y hy => hx y (by simp [hy])) (by omega)

/-- Zero reads as zero in an integer type, under every rounding mode (R35). -/
theorem numTo_zero {t : ETag} (ht : t.isInt = true) (m : RMode) (neg : Bool) : decodeInt t (numTo t m (.fin neg 0 0)).1 = 0 := by
  obtain ⟨hmin, hmax⟩ := intMin_le_zero_le_intMax t
  have hround : roundToInt m neg 0 0 = (0, false) := by cases m <;> cases neg <;> rfl
  have hsat : satInt t 0 = 0 := by rw [satInt_eq_clampInt, clampInt]; omega
  rw [numTo, if_neg (by simp [isInt_not_float ht]), numToInt]
  simp only [hround, hsat, if_true]
  exact decodeInt_truncInt hmin hmax

/-- Such an accumulator reads out in an integer type as its integer, clamped (R39). -/
theorem read_holds {a : Acc} {n : Int} (ha : a.holds n) {t : ETag} (ht : t.isInt = true) (m : RMode) :
    decodeInt t (a.read t m).1 = clampInt t n := by
  obtain ⟨hnf, hpf, hmf, hvf, hv⟩ := ha
  have hunit : (2 : Int) ^ 320 ≠ 0 := by positivity
  have hread : a.read t m = if n * 2 ^ 320 = 0 then numTo t m (.fin (a.zf || m == .rdn) 0 0)
      else if t.isInt ∧ n * 2 ^ 320 % 2 ^ 320 = 0 then satEnc t (n * 2 ^ 320 / 2 ^ 320)
      else numTo t m (.fin (decide (n * 2 ^ 320 < 0)) (n * 2 ^ 320).natAbs (-320)) := by
    simp only [Acc.read, hvf, hnf, hpf, hmf, hv, Bool.false_eq_true, if_false, Bool.and_self]
  rw [hread]
  by_cases hn : n = 0
  · obtain ⟨hmin, hmax⟩ := intMin_le_zero_le_intMax t
    rw [hn, if_pos (Int.zero_mul _), numTo_zero ht, clampInt]
    omega
  · rw [if_neg (mul_ne_zero hn hunit), if_pos ⟨ht, Int.mul_emod_left ..⟩, Int.mul_ediv_cancel _ hunit, decodeInt_satEnc]

/-- Settles O34: an accumulator holds its integers in units of 2^−320, and every other sum is clamped once. -/
theorem integersAccumulateExactly : Obligations.IntegersAccumulateExactly := by
  unfold Obligations.IntegersAccumulateExactly
  refine ⟨fun t m xs ht _ hx hlen => ?_, fun a => ⟨image_length a, ofImage_image a⟩, fun t m xs ht => ?_,
    fun ta tb tc m c ps ht => ?_⟩
  · have h := foldl_add1_holds xs Acc.clear 0 clear_holds hx (by rw [Int.natAbs_zero]; omega)
    rw [Int.zero_add] at h
    exact read_holds h ht m
  · have hf : t ≠ .fp64 := by rintro rfl; cases ht
    rw [scanOuts, if_neg hf, if_neg (by simp [isInt_not_float ht])]
    obtain ⟨hl, hn⟩ := scanInt_nth t xs 0
    exact ⟨hl, fun i hi => by rw [hn i hi, Int.zero_add]; rfl⟩
  · rw [dotInto, if_neg (by simp [isInt_not_float ht]), decodeInt_satEnc,
      foldl_add_eq_sum (fun p : Nat × Nat => decodeInt ta p.1 * decodeInt tb p.2)]
    rfl

end Sys2Proof.Machine
end

section
/-!
Two-operand vector arithmetic (R131, R134 to R138): the operands' common type, then the common course of R131.
-/
namespace Sys2Proof.Machine

/-- A type is the common type of itself and itself (R117). -/
theorem commonType_self {t : ETag} (ht : t ≠ .none) : commonType [t, t] = some t := by
  revert ht
  cases t <;> decide

/-- A two-operand instruction whose operands have a common type completes by the common course of R131 in that type. -/
theorem vaBin_completes {i : Instr} {op : BinOp} {io : Bool} {km : BitVec 3} {a vd : BitVec 5} {b : Opnd} {s : State} {t : ETag}
    (hx : exec i s = runInstr i (vaBin op io km a b vd) s) (hc : s.calm = true) (hv : s.hart.mayVector = true)
    (hu : s.hart.unchained = true) (ht : commonType [s.hart.tag a, b.ty s.hart (s.hart.tag a)] = some t)
    (hi : io = true → t.isInt = true) (hf : s.hart.fits (t :: s.hart.tag a :: b.regs.map s.hart.tag) = true) :
    ∃ h, exec i s = .next (s.completes h) ∧ s.hart.vectorFrame h vd ∧
      s.hart.delivered h vd t (s.hart.active km) fun e =>
        (elemBin op t s.hart.mode_ (widen (s.hart.tag a) t (s.hart.elem a (s.hart.tag a).width e))
          (widen (b.ty s.hart (s.hart.tag a)) t (b.val s.hart (s.hart.tag a) e))).1 := by
  obtain ⟨hhit, -, -, -, -, hstep⟩ := (calm_iff s).mp hc
  have hneed : (!io || t.isInt) = true := by
    cases io
    · rfl
    · simpa using hi rfl
  have hop : opType [s.hart.tag a, b.ty s.hart (s.hart.tag a)] s = .ok t s := by rw [opType, ht]; rfl
  obtain ⟨h, hrun, hfr, hd⟩ := vaRun_calm (km := km) (vd := vd) (regs := a :: b.regs) (ind := false)
    (f := fun h e => elemBin op t h.mode_ (widen (s.hart.tag a) t (h.elem a (s.hart.tag a).width e))
      (widen (b.ty s.hart (s.hart.tag a)) t (b.val h (s.hart.tag a) e))) hc hf hu (mayVector_lown hv)
  have hbody : vaBin op io km a b vd s = .ok () (s.withHart h) := by
    simp only [vaBin, run_bind, vecGate_ok hv, run_getH, hop, need_true hneed]
    exact hrun
  exact ⟨h, hx.trans (completes_of_ok hstep hbody (by rw [hfr.1]; exact hhit)), hfr, hd⟩

theorem exec_arithmeticVV {f : (BitVec 3 → Bool → BitVec 5 → BitVec 5 → BitVec 5 → Instr) × BinOp × Bool} (hf : f ∈ arithmeticVV)
    (km : BitVec 3) (sc : Bool) (a b vd : BitVec 5) (s : State) :
    exec (f.1 km sc a b vd) s = runInstr (f.1 km sc a b vd) (vaBin f.2.1 f.2.2 km a (vvOperands sc a b).2 vd) s := by
  simp only [arithmeticVV, List.mem_cons, List.not_mem_nil, or_false] at hf
  rcases hf with rfl | rfl | rfl | rfl | rfl | rfl | rfl | rfl | rfl <;> rfl

theorem exec_arithmeticVI {f : (BitVec 3 → BitVec 6 → BitVec 5 → BitVec 5 → Instr) × BinOp} (hf : f ∈ arithmeticVI)
    (km : BitVec 3) (imm : BitVec 6) (a vd : BitVec 5) (s : State) :
    exec (f.1 km imm a vd) s = runInstr (f.1 km imm a vd) (vaBin f.2 false km a (.imm imm) vd) s := by
  simp only [arithmeticVI, List.mem_cons, List.not_mem_nil, or_false] at hf
  rcases hf with rfl | rfl | rfl | rfl | rfl | rfl <;> rfl

/-- Settles O1: the operands' common type and the common course of R131, for each operand form. -/
theorem vectorArithmeticCompletes : Obligations.VectorArithmeticCompletes := by
  unfold Obligations.VectorArithmeticCompletes
  refine ⟨fun f hf km sc a b vd s t hc hv hu ht hi hfit => ?_, fun f hf km imm a vd s hc hv hu hn hfit => ?_⟩
  · have hx := exec_arithmeticVV hf km sc a b vd s
    cases sc
    · exact vaBin_completes hx hc hv hu ht hi hfit
    · exact vaBin_completes hx hc hv hu ht hi hfit
  · refine vaBin_completes (exec_arithmeticVI hf km imm a vd s) hc hv hu (commonType_self hn) (by simp) ?_
    simpa [Strand.fits, Opnd.regs] using hfit

end Sys2Proof.Machine
end

section
/-!
Lane slices (R54, R168): vlsl takes its elements from the strand's own view of the slices, vssl stores them there.
-/
namespace Sys2Proof.Machine

/-! ### Stores to lane slices (R57, R280) -/

/-- A store to a lane slice gives bytes of its own place only. -/
theorem bytesOver_heldOf_slice {a : Nat} {bs : List Byte} {old : Nat → Byte} {e : Held} (he : e ∈ heldOf true a bs) {p : Nat × Byte}
    (hp : p ∈ e.bytesOver old) : bytesAt a bs.length p.1 := by
  obtain ⟨w, hw, rfl⟩ := List.mem_map.mp he
  exact bytesOver_heldOf (List.mem_map.mpr ⟨w, hw, rfl⟩) hp

/-- A performed store to a lane slice leaves memory, and every byte of the slices outside its place. -/
theorem performHeld_slice {a : Nat} {bs : List Byte} (s : State) : (performHeld (heldOf true a bs) s).mem = s.mem ∧
    ∀ b, ¬ bytesAt a bs.length b →
      Memory.get (performHeld (heldOf true a bs) s).hart.slices b = Memory.get s.hart.slices b := by
  have hslice : ∀ e ∈ heldOf true a bs, e.slice = true := fun e he => by
    obtain ⟨w, -, rfl⟩ := List.mem_map.mp he
    rfl
  have hbytes (b : Nat) (hb : ¬ bytesAt a bs.length b) :
      ∀ r ∈ runsOf ((heldOf true a bs).flatMap fun e => e.bytesOver (Memory.get s.hart.slices)), b < r.1 ∨ r.1 + r.2.length ≤ b :=
    fun r hr => by
      by_contra hin
      obtain ⟨c, hc⟩ := mem_runsOf r hr (b - r.1) (by omega)
      obtain ⟨e, he, hp⟩ := List.mem_flatMap.mp hc
      rw [show r.1 + (b - r.1) = b by omega] at hp
      exact hb (bytesOver_heldOf_slice he hp)
  revert hslice hbytes
  generalize heldOf true a bs = es
  intro hslice hbytes
  cases es with
  | nil => exact ⟨rfl, fun _ _ => rfl⟩
  | cons e es =>
    rw [performHeld, if_pos (hslice e (List.mem_cons_self ..))]
    refine ⟨foldl_related (R := fun s u : State => u.mem = s.mem)
      (f := fun (s : State) (r : Nat × List Byte) => { s with hart := s.hart.putSlice r.1 r.2 }) (fun _ => rfl)
      (fun h₁ h₂ => Eq.trans h₂ h₁) _ (fun _ _ _ => rfl) s, fun b hb => ?_⟩
    exact foldl_related (R := fun s u : State => Memory.get u.hart.slices b = Memory.get s.hart.slices b)
      (f := fun (s : State) (r : Nat × List Byte) => { s with hart := s.hart.putSlice r.1 r.2 }) (fun _ => rfl)
      (fun h₁ h₂ => Eq.trans h₂ h₁) _
      (fun r hr _ => get_putBytes_out (hbytes b hb r hr)) s

/-- The bytes of a lane slice that elements of a register give, stored one element after another. -/
def State.sliceStored (place : Nat → Nat) (bs : Nat → List Byte) (u : State) (e : Nat) : State :=
  u.stored 0 (heldOf true (place e) (bs e))

/-- Where the strand writes through, such stores leave memory and every byte of the slices outside their places. -/
theorem sliceStored_get {place : Nat → Nat} {bs : Nat → List Byte} {es : List Nat} : ∀ s : State, s.hart.writesThrough = true →
    let u := es.foldl (State.sliceStored place bs) s
    u.mem = s.mem ∧ ∀ b, (∀ e ∈ es, ¬ bytesAt (place e) (bs e).length b) →
      Memory.get u.hart.slices b = Memory.get s.hart.slices b := by
  induction es with
  | nil => exact fun s _ => ⟨rfl, fun _ _ => rfl⟩
  | cons e es ih =>
    intro s hw
    have hthrough : State.sliceStored place bs s e = performHeld _ s := stored_through hw _ _
    obtain ⟨hmem, hslices⟩ := performHeld_slice (a := place e) (bs := bs e) s
    obtain ⟨hmems, hrest⟩ := ih (performHeld (heldOf true (place e) (bs e)) s) (by rw [performHeld_writesThrough]; exact hw)
    rw [List.foldl_cons, hthrough]
    exact ⟨hmems.trans hmem, fun b hb => (hrest b fun d hd => hb d (by simp [hd])).trans (hslices b (hb e (by simp)))⟩

/-! ### The checks (R168) -/

/-- The offset of element e of a lane-slice access of n bytes lies within its slice and is aligned. -/
def Strand.inSlice (h : Strand) (rs1 vs2 : BitVec 5) (n e : Nat) : Prop :=
  0 ≤ (h.rx rs1 + offsetOf h vs2 e).toInt ∧ (h.rx rs1 + offsetOf h vs2 e).toInt + n ≤ 49152 ∧
    (h.rx rs1 + offsetOf h vs2 e).toNat % n = 0

theorem sliceOffset_ok {store : Bool} {h : Strand} {rs1 vs2 : BitVec 5} {n e : Nat} (hin : h.inSlice rs1 vs2 n e) (s : State) :
    sliceOffset store h rs1 vs2 n e s = .ok (h.rx rs1 + offsetOf h vs2 e).toNat s := by
  obtain ⟨hlo, hhi, hal⟩ := hin
  simp only [sliceOffset, if_neg (not_or.mpr ⟨Int.not_lt.mpr hlo, Int.not_lt.mpr hhi⟩), hal, ne_eq, not_true_eq_false,
    if_false, run_pure]

theorem sliceStart_ok {s : State} {vs2 r : BitVec 5} (hm : s.hart.mayAccess (.index vs2) r = true) :
    sliceStart vs2 r s = .ok (s.hart.tag r) s := by
  obtain ⟨hv, -, -, -, hf, -⟩ := mayAccess_iff.mp hm
  simp only [sliceStart, run_bind, run_getH, vecGate_ok hv, accessTypes_ok hm,
    needCap_ok (show s.hart.fits [s.hart.tag r, s.hart.tag vs2] = true from hf), run_pure]

/-- The bytes of a slice as the strand's own loads see them. -/
def Strand.sliceValue (h : Strand) (k n : Nat) : Nat :=
  ofBytes ((rangeFrom k n).map fun b => overlayByte h.strip.buffer true b (Memory.get h.slices b))

/-- A read of a lane slice in which no word is poisoned takes the strand's own view of it. -/
theorem sliceRead_ok {s : State} (hb : s.hart.badSlice = []) (lane off n : Nat) :
    sliceRead lane off n s = .ok (s.hart.sliceValue (sliceKey lane off) n) s := by
  have hgood : ((rangeFrom (sliceKey lane off) n).any fun a =>
      !coveredByte s.hart.strip.buffer true a && s.hart.badSlice.any fun w => decide (w ≤ a) && decide (a < w + 4)) = false := by
    simp [hb]
  simp only [sliceRead, run_bind, run_getH, hgood, Bool.false_eq_true, if_false, run_pure]
  rfl

/-! ### vlsl and vssl -/

/-- Where no source holds an uncorrectable word and the actions of the loop's elements run in order, the loop ends with vsta 0. -/
theorem elementLoop_ends {n : Nat} {active : Nat → Bool} {bad : Nat → Option Word} {act : Nat → M Unit} {s u : State}
    (hc : s.calm = true) (hb : ∀ e, bad e = none)
    (hrun : forEach ((rangeFrom s.hart.vsta (n - s.hart.vsta)).filter active) (fun e => atElem e (act e)) s = .ok () u) :
    elementLoop n false (pure ()) active bad act s = .ok () (u.withHart { u.hart with vsta := 0 }) := by
  have hsame : runElems bad act = fun es => forEach es fun e => atElem e (act e) := by
    funext es
    simp only [runElems, hb, consume]
    rfl
  rw [elementLoop_steady hc, hsame, run_bind]
  simp only [hrun]
  exact loopDone_end n u

/-- The place of element e of a lane-slice access (R54, R168). -/
def Strand.slicePlaceOf (h : Strand) (rs1 vs2 : BitVec 5) (e : Nat) : Nat :=
  sliceKey (e % h.lown) (h.rx rs1 + offsetOf h vs2 e).toNat

/-- The strand as a lane-slice strand (R56). -/
def Strand.asSliced (h : Strand) : Strand := { h with sliced := true }

/-- A frame of a strand that has become a lane-slice strand. -/
theorem vectorFrame_asSliced {k g : Strand} {vd : BitVec 5} (hf : k.asSliced.vectorFrame g vd) :
    k.vectorFrame { g with sliced := k.sliced } vd ∧ ({ g with sliced := k.sliced } : Strand).asSliced = g := by
  obtain ⟨hall, hz, hreg⟩ := hf
  refine ⟨⟨?_, hz, hreg⟩, ?_⟩
  · conv_lhs => rw [hall]
    rfl
  · show { g with sliced := true } = g
    conv_rhs => rw [hall]
    conv_lhs => rw [hall]
    rfl

/-- What vlsl does with element e, in a strand that was h before. -/
def sliceLoadElem (h : Strand) (rs1 vs2 vd : BitVec 5) (t : ETag) (e : Nat) : M Unit := do
  let o ← sliceOffset false h rs1 vs2 (t.width / 8) e
  let v ← sliceRead (e % h.lown) o (t.width / 8)
  modH fun k => k.deliver vd t.width e (v, 0#6)

/-- What it delivers. -/
def Strand.sliceElem (h : Strand) (rs1 vs2 : BitVec 5) (t : ETag) (e : Nat) : Nat × Cls :=
  (h.sliceValue (h.slicePlaceOf rs1 vs2 e) (t.width / 8), 0#6)

/-- The elements of vlsl are delivered one after another; the registers alone change. -/
theorem sliceLoadElems_ok {s : State} {rs1 vs2 vd : BitVec 5} {t : ETag} (hhit : s.hart.hit = none) (hbad : s.hart.bad = [])
    (hb : s.hart.badSlice = []) (es : List Nat) (hin : ∀ e ∈ es, s.hart.inSlice rs1 vs2 (t.width / 8) e) :
    ∀ u : State, u = s.withHart { s.hart with v := u.hart.v } → ∃ u',
      forEach es (fun e => atElem e (sliceLoadElem s.hart rs1 vs2 vd t e)) u = .ok () u' ∧
        u' = s.withHart { s.hart with v := u'.hart.v } ∧
        u'.hart = foldH (fun e k => k.deliver vd t.width e (s.hart.sliceElem rs1 vs2 t e)) es u.hart := by
  induction es with
  | nil => exact fun u hu => ⟨u, rfl, hu, rfl⟩
  | cons e es ih =>
    intro u hu
    have hbadu : u.hart.bad = [] := by rw [hu]; exact hbad
    have hread : sliceRead (e % s.hart.lown) (s.hart.rx rs1 + offsetOf s.hart vs2 e).toNat (t.width / 8) u =
        .ok (s.hart.sliceElem rs1 vs2 t e).1 u := by
      rw [sliceRead_ok (by rw [hu]; exact hb), hu]
      rfl
    have hrun : sliceLoadElem s.hart rs1 vs2 vd t e u =
        .ok () (u.withHart (u.hart.deliver vd t.width e (s.hart.sliceElem rs1 vs2 t e))) := by
      simp only [sliceLoadElem, run_bind, sliceOffset_ok (hin e (by simp)), hread, run_modH]
      rfl
    have hput : u.hart.deliver vd t.width e (s.hart.sliceElem rs1 vs2 t e) = u.hart.putElem vd t.width e _ := deliver_plain hbadu ..
    rw [forEach_cons, atElem_ok hrun (by rw [hput, hu]; exact hhit)]
    exact ih (fun d hd => hin d (by simp [hd])) _ (by rw [hput, hu]; rfl)

section
variable {km : BitVec 3} {vs2 rs1 r : BitVec 5} {s : State} (hc : s.calm = true) (hm : s.hart.mayAccess (.index vs2) r = true)
  (hin : ∀ e ∈ s.hart.elements km, s.hart.inSlice rs1 vs2 ((s.hart.tag r).width / 8) e)
include hc hm hin

/-- vlsl completes with the elements of its slices' places delivered. -/
theorem vlsl_completes (hne : vs2 ≠ r) (hb : s.hart.badSlice = []) :
    ∃ g, exec (.vlsl km vs2 rs1 r) s = .next (s.completes g) ∧ s.hart.asSliced.vectorFrame g r ∧ g.emask = s.hart.emask ∧
      s.hart.asSliced.delivered g r (s.hart.tag r) (s.hart.active km) fun e =>
        (s.hart.sliceElem rs1 vs2 (s.hart.tag r) e).1 := by
  obtain ⟨hhit, -, -, -, hbad, hstep⟩ := (calm_iff s).mp hc
  obtain ⟨hv, hu, -, -, hf, -⟩ := mayAccess_iff.mp hm
  have hc' : (s.withHart s.hart.asSliced).calm = true := hc
  obtain ⟨u, hrun, hall, hh⟩ := sliceLoadElems_ok (s := s.withHart s.hart.asSliced) (vd := r) (t := s.hart.tag r) hhit hbad hb
    (s.hart.elements km) hin (s.withHart s.hart.asSliced) rfl
  have hdc : u.dcache = s.dcache := by rw [hall]; rfl
  have hload : (s.withHart s.hart.asSliced).loading u := ⟨by rw [hdc]; exact hall, by rw [hdc]; exact fun _ h => h⟩
  obtain ⟨hfr, hem, hdel⟩ := loads_of_fold hload hc' hv rfl hh (nodup_todo _ _) (fun _ => mem_elements) (elements_lt_cap hm)
  refine ⟨{ u.hart with vsta := 0 }, completes_of_ok hstep ?_ (by rw [hload.hart_eq]; exact hhit), hfr, hem, hdel⟩
  have hloop := elementLoop_ends (n := s.hart.vl) (active := s.hart.active km) (act := sliceLoadElem s.hart.asSliced rs1 vs2 r (s.hart.tag r))
    hc' (fun e => badOf_none hbad (s.hart.srcReads [vs2] km e)) hrun
  rw [show u.withHart { u.hart with vsta := 0 } = s.withHart { u.hart with vsta := 0 } from
    congrArg (·.withHart { u.hart with vsta := 0 }) hall] at hloop
  simp only [run_bind, sliceStart_ok hm, need_true (show (vs2 != r) = true by simpa using hne), needChains_free hu, run_modH,
    run_getH]
  exact hloop

/-- What vssl does with element e. -/
def sliceStoreElem (h : Strand) (rs1 vs2 vs3 : BitVec 5) (t : ETag) (e : Nat) : M Unit := do
  let o ← sliceOffset true h rs1 vs2 (t.width / 8) e
  holdOrPerform 0 (heldOf true (sliceKey (e % h.lown) o) (toBytes (t.width / 8) (h.elem vs3 t.width e)))

/-- vssl completes with the elements stored one after another. -/
theorem vssl_completes {u : State} (hfold : (s.hart.elements km).foldl (State.sliceStored (s.hart.slicePlaceOf rs1 vs2) fun e =>
      toBytes ((s.hart.tag r).width / 8) (s.hart.elem r (s.hart.tag r).width e)) (s.withHart s.hart.asSliced) = u) :
    exec (.vssl km vs2 rs1 r) s = .next (u.completes { u.hart with vsta := 0 }) ∧ s.hart.asSliced.storing u.hart := by
  obtain ⟨hhit, -, -, -, hbad, hstep⟩ := (calm_iff s).mp hc
  obtain ⟨hv, hu, -, -, hf, -⟩ := mayAccess_iff.mp hm
  have hc' : (s.withHart s.hart.asSliced).calm = true := hc
  obtain ⟨hrun, hstoring⟩ := forEach_foldl (I := fun u => s.hart.asSliced.storing u.hart)
    (f := fun e => atElem e (sliceStoreElem s.hart.asSliced rs1 vs2 r (s.hart.tag r) e))
    (g := State.sliceStored (s.hart.slicePlaceOf rs1 vs2) fun e =>
      toBytes ((s.hart.tag r).width / 8) (s.hart.elem r (s.hart.tag r).width e))
    (fun e he u hu => by
      have hnext := hu.trans (stored_storing u 0 (heldOf true (s.hart.slicePlaceOf rs1 vs2 e)
        (toBytes ((s.hart.tag r).width / 8) (s.hart.elem r (s.hart.tag r).width e))))
      refine ⟨atElem_ok ?_ (hnext.hit_eq.trans hhit), hnext⟩
      simp only [sliceStoreElem, run_bind, sliceOffset_ok (h := s.hart.asSliced) (hin e he)]
      exact holdOrPerform_ok (hu.bad_eq.trans hbad) 0 _)
    (s.withHart s.hart.asSliced) rfl
  rw [hfold] at hrun hstoring
  refine ⟨?_, hstoring⟩
  have hloop := elementLoop_ends (n := s.hart.vl) (active := s.hart.active km) (act := sliceStoreElem s.hart.asSliced rs1 vs2 r (s.hart.tag r))
    hc' (fun e => badOf_none hbad (s.hart.srcReads [r, vs2] km e)) hrun
  refine (runInstr_ok (s' := u.withHart { u.hart with vsta := 0 }) ?_).trans (congrArg _ (retire_completes hstep (hstoring.hit_eq.trans hhit)))
  simp only [run_bind, sliceStart_ok hm, needChains_free hu, run_modH, run_getH]
  exact hloop

end

/-- Settles O31: the elements of the slices' places are delivered, or stored, one after another. -/
theorem laneSlicesComplete : Obligations.LaneSlicesComplete := by
  unfold Obligations.LaneSlicesComplete
  intro km vs2 rs1 r s t n off place es u hc hm hin
  refine ⟨fun hne hb => ?_, ?_⟩
  · obtain ⟨g, hexec, hfr, hem, hdel⟩ := vlsl_completes hc hm hin hne hb
    obtain ⟨hframe, hg⟩ := vectorFrame_asSliced hfr
    exact ⟨{ g with sliced := s.hart.sliced }, hexec.trans (congrArg (fun k => Host.Outcome.next (s.completes k)) hg.symm), hframe,
      hem, hdel⟩
  · obtain ⟨hexec, hstoring⟩ := vssl_completes hc hm hin (u := u) rfl
    refine ⟨hexec, hstoring.x_eq, hstoring.v_eq, fun hw => ?_⟩
    obtain ⟨hmem, hslices⟩ := sliceStored_get (place := place) (bs := fun e => toBytes n (s.hart.elem r t.width e)) (es := es)
      (s.withHart s.hart.asSliced) hw
    exact ⟨fun a => congrArg (Memory.get · a) hmem, fun b hb => hslices b fun e he => by rw [toBytes_length]; exact hb e he⟩

end Sys2Proof.Machine
end

section
/-!
The next firing of a Flaset actor (R380): where a command of its strand is still queued, the firing renumbers the command's timeline.
-/
namespace Sys2Proof.Machine

/-- A Flaset image of one actor without channels, whose body is its ret (R379). -/
def retImage : List Byte :=
  toBytes 4 0x0F1A5E70 ++ toBytes 2 1 ++ toBytes 2 1 ++ toBytes 4 0 ++ toBytes 2 1 ++ toBytes 2 0 ++ toBytes 8 48 ++ toBytes 8 80 ++
    toBytes 8 80 ++ toBytes 8 0 ++
    (toBytes 8 88 ++ toBytes 8 4 ++ toBytes 8 0 ++ toBytes 8 92) ++ toBytes 8 0 ++ toBytes 4 0x8067

theorem retImage_translates : flasetOk retImage 1 = true := by decide +kernel

/-- A copy of one element that strand 1 has issued on its timeline 0. -/
def queuedCopy : Cmd :=
  { id := 1, sid := 1, launch := 1, tl := 0, ticket := 1, die := 0, cluster := 0, engine := 0, asid := 2, root := 0x20000, user := true
    rm := 0, body := .engine .copy ⟨0x3000, 0x4000, 0, 0, 1, 1, 1, 0, [(1, 1, 1)]⟩, next := 0, cls := 0#6, word := 0, pend := []
    cancelled := false, fin := none }

/-- Between its first two firings, strand 1 of a launch of that image stands at the schedule while its copy is queued. -/
def betweenFirings : State := { State.reset with
  hart := { Strand.start with
    sid := 1, launch := 1, nstr := 1, status := .running, lown := 32, root := 0x20000, asid := 2, pc := 0x1000#64
    firing := some ⟨0x1000#64, 0#64, some 2, 1, none, [], none⟩ }
  spaces := [⟨2, [0x20000], 0, 0, 1, 0, 0, 0, 0, 0, 0, 0, [], [⟨1, (0, 0), true, [0x1000], 0, 1, 4096, retImage, [], [], (0, 0), none⟩]⟩]
  launches := [{ newLaunch 1 2 none (toBytes 8 1) 0 false [] 0 1 with
    state := .running, placed := true, loaded := true, flow := some (Flow.start retImage) }]
  cmds := [queuedCopy]
  svc := { Service.start with boot := .full } }

/-- The timelines of the commands in the state that an outcome gives. -/
def timelinesAfter (o : Host.Outcome State Fault Refusal) : List Nat :=
  match o with
  | .next t => t.cmds.map (·.tl)
  | _ => []

/-- The launch of that strand, its code object and the graph of its actor. -/
theorem betweenFirings_graph :
    findLaunch betweenFirings 1 = some { newLaunch 1 2 none (toBytes 8 1) 0 false [] 0 1 with
      state := .running, placed := true, loaded := true, flow := some (Flow.start retImage) } ∧
    residentOf betweenFirings { newLaunch 1 2 none (toBytes 8 1) 0 false [] 0 1 with
      state := .running, placed := true, loaded := true, flow := some (Flow.start retImage) } =
      some ⟨1, (0, 0), true, [0x1000], 0, 1, 4096, retImage, [], [], (0, 0), none⟩ ∧
    graphAt retImage 0 = some ⟨0, [0], []⟩ ∧ mayFire retImage ⟨0, [0], []⟩ (Flow.start retImage) 0 = true := by decide +kernel

/-- Refutes O14: the clause on the next firing has every command stay as it was, but the model numbers the commands of the strand's
earlier firings by timelines of their own (R380: the new firing's timelines begin anew). The copy that betweenFirings still has queued on
timeline 0 is on timeline 4 after the step. -/
theorem not_stepRunsTheDecodedInstruction : ¬ Obligations.StepRunsTheDecodedInstruction := by
  unfold Obligations.StepRunsTheDecodedInstruction
  intro h
  obtain ⟨hlaunch, hresident, hgraph, hmay⟩ := betweenFirings_graph
  have hstep := (h betweenFirings 0 0 false false rfl (by decide) (by decide) rfl rfl (by simp [betweenFirings, State.reset])
    (fun _ => by decide +kernel) (by decide) rfl rfl rfl).1 _ _ _ _ _ _ rfl rfl rfl rfl rfl hlaunch hresident rfl hgraph rfl rfl
    (by decide +kernel) hmay
  have hrun : timelinesAfter (step betweenFirings) = [4] := by decide +kernel
  rw [hstep] at hrun
  exact absurd hrun (by decide +kernel)

end Sys2Proof.Machine
end

section
/-!
Reset, boot, self-tests, calibration, trips and reports (R345, R397 to R404).
-/
namespace Sys2Proof.Machine

/-! ### Bits of a register of units -/

theorem getLsbD_setBit {w n j : Nat} (v : BitVec w) (hj : j < w) :
    (v ||| (1#w <<< n)).getLsbD j = (v.getLsbD j || decide (j = n)) := by
  simp only [BitVec.getLsbD_or, BitVec.getLsbD_shiftLeft, BitVec.getLsbD_one, hj]
  by_cases h : j = n
  · subst h; simp; omega
  · simp [h]; omega

theorem getLsbD_clearBit {w n : Nat} (v : BitVec w) (j : Nat) :
    (v &&& ~~~(1#w <<< n)).getLsbD j = (v.getLsbD j && decide (j ≠ n)) := by
  by_cases hj : j < w
  · simp only [BitVec.getLsbD_and, BitVec.getLsbD_not, BitVec.getLsbD_shiftLeft, BitVec.getLsbD_one, hj]
    by_cases h : j = n
    · subst h; simp; omega
    · simp [h]; omega
  · simp [BitVec.getLsbD_of_ge _ _ (Nat.le_of_not_lt hj)]

/-! ### Steps of the device that are enabled -/

theorem enabled_ok {c : Bool} (h : c = true) (why : String) (s : State) : enabled c why s = .ok () s := by
  rw [enabled, if_pos h]
  rfl

/-! ### The log where no area is set (R404) -/

/-- A state that leads to another leaves memory as it is, and no log area is set in either. -/
def State.unlogged (s t : State) : Prop := s.svc.rasBase = 0 → t.svc.rasBase = 0 ∧ t.mem = s.mem

theorem State.unlogged.trans {s t u : State} (h₁ : s.unlogged t) (h₂ : t.unlogged u) : s.unlogged u := fun h =>
  ⟨(h₂ (h₁ h).1).1, (h₂ (h₁ h).1).2.trans (h₁ h).2⟩

theorem unlogged_of_eq {s t : State} (hv : t.svc.rasBase = s.svc.rasBase) (hm : t.mem = s.mem) : s.unlogged t := fun h =>
  ⟨hv.trans h, hm⟩

theorem rasLog_unlogged (k l p : Nat) (s : State) : s.unlogged (rasLog k l p s) := fun h => by
  rw [rasLog, if_neg (fun hb => hb.1 h)]
  exact ⟨h, rfl⟩

/-! ### The record of a core -/

/-- Whether a core's record stands at a place. -/
def CoreInfo.standsAt (c : CoreInfo) (p : Place) : Bool := c.die == p.die && c.cluster == p.cluster && c.core == p.core

theorem standsAt_iff {c : CoreInfo} {p : Place} : c.standsAt p = true ↔ (p.die, p.cluster, p.core) = (c.die, c.cluster, c.core) := by
  simp only [CoreInfo.standsAt, Bool.and_eq_true, beq_iff_eq, Prod.mk.injEq, and_assoc]
  exact ⟨fun ⟨a, b, c⟩ => ⟨a.symm, b.symm, c.symm⟩, fun ⟨a, b, c⟩ => ⟨a.symm, b.symm, c.symm⟩⟩

theorem findCore_eq_find (s : State) (p : Place) : findCore s p = s.cores.find? (·.standsAt p) := rfl

theorem findCore_congr {s t : State} (h : t.cores = s.cores) (q : Place) : findCore t q = findCore s q := by simp only [findCore, h]

theorem standsAt_of_findCore {s : State} {p : Place} {c : CoreInfo} (h : findCore s p = some c) : c.standsAt p = true :=
  List.find?_some (p := fun c : CoreInfo => c.standsAt p) h

theorem coreInfo_standsAt (s : State) (p : Place) : (coreInfo s p).standsAt p = true := by
  unfold coreInfo
  cases h : findCore s p with
  | none => exact standsAt_iff.mpr rfl
  | some c => exact standsAt_of_findCore h

/-- The state in which a core has the given record. -/
def State.withCore (s : State) (p : Place) (k : CoreInfo) : State :=
  if (findCore s p).isSome then putCore k s else { s with cores := k :: s.cores }

theorem withCore_eq (s : State) (p : Place) (k : CoreInfo) : s.withCore p k = { s with cores := (s.withCore p k).cores } := by
  unfold State.withCore putCore
  split <;> rfl

/-- A record replaced finds the record where it stands, and every other as before. -/
theorem find_putCore {s : State} {k : CoreInfo} (q : Place) : findCore (putCore k s) q =
    if k.standsAt q = true then (findCore s q).map fun _ => k else findCore s q := by
  let f (c : CoreInfo) : CoreInfo := if c.die = k.die ∧ c.cluster = k.cluster ∧ c.core = k.core then k else c
  have hkeep : ((·.standsAt q) ∘ f : CoreInfo → Bool) = (·.standsAt q) := by
    funext c
    by_cases h : c.die = k.die ∧ c.cluster = k.cluster ∧ c.core = k.core
    · simp only [Function.comp, f, if_pos h, CoreInfo.standsAt, h]
    · simp only [Function.comp, f, if_neg h]
  have hmap : findCore (putCore k s) q = (findCore s q).map f := by
    simp only [findCore_eq_find, putCore, List.find?_map]
    exact congrArg (Option.map f) (congrArg (List.find? · s.cores) hkeep)
  rw [hmap]
  cases hc : findCore s q with
  | none => simp
  | some c =>
    have hat := standsAt_iff.mp (standsAt_of_findCore hc)
    simp only [Prod.mk.injEq] at hat
    obtain ⟨hd, hcl, hn⟩ := hat
    have hk : k.standsAt q = true ↔ (c.die = k.die ∧ c.cluster = k.cluster ∧ c.core = k.core) := by
      rw [standsAt_iff, Prod.mk.injEq, Prod.mk.injEq, hd, hcl, hn]
    simp only [hk, Option.map_some, f]
    split <;> rfl

/-- A core's record is found at its place, every other core's as before. -/
theorem findCore_withCore {s : State} {p : Place} {k : CoreInfo} (hk : k.standsAt p = true) (q : Place) :
    findCore (s.withCore p k) q = if (q.die, q.cluster, q.core) = (p.die, p.cluster, p.core) then some k else findCore s q := by
  have hat : k.standsAt q = true ↔ (q.die, q.cluster, q.core) = (p.die, p.cluster, p.core) := by
    rw [standsAt_iff, standsAt_iff.mp hk]
  by_cases hq : (q.die, q.cluster, q.core) = (p.die, p.cluster, p.core)
  · have hsame : findCore s q = findCore s p := by
      simp only [Prod.mk.injEq] at hq
      simp only [findCore, hq]
    rw [if_pos hq, State.withCore]
    split
    case isTrue h =>
      rw [find_putCore, if_pos (hat.mpr hq), hsame]
      obtain ⟨c, hc⟩ := Option.isSome_iff_exists.mp h
      rw [hc]
      rfl
    case isFalse => exact List.find?_cons_of_pos (hat.mpr hq)
  · rw [if_neg hq, State.withCore]
    split
    · rw [find_putCore, if_neg (fun h => hq (hat.mp h))]
    · exact List.find?_cons_of_neg (fun h => hq (hat.mp h))

/-! ### A lane that fails its self-test (R62, R63, R345) -/

/-- A core that is retired has the record that says so; no other core changes. -/
theorem dropCore_findCore (n c x : Nat) (s : State) (q : Place) : findCore (dropCore n c x s) q =
    if (q.die, q.cluster, q.core) = (n, c, x) then some { coreInfo s ⟨n, c, x, 0⟩ with retired := true, portHolder := [] }
    else findCore s q := by
  let k : CoreInfo := { coreInfo s ⟨n, c, x, 0⟩ with retired := true, portHolder := [] }
  have hcores : (dropCore n c x s).cores = (s.withCore ⟨n, c, x, 0⟩ k).cores := rasLog_cores ..
  have hstands : k.standsAt ⟨n, c, x, 0⟩ = true := coreInfo_standsAt s ⟨n, c, x, 0⟩
  exact (findCore_congr hcores q).trans (findCore_withCore hstands q)

/-- The record of a core one lane of whose group g has failed: the spare takes the lane's place, or the group goes (R62, R63). -/
def CoreInfo.laneFailed (c : CoreInfo) (g : Nat) : CoreInfo :=
  if c.spareUsed.getLsbD g then { c with lgen := c.lgen &&& ~~~(1#8 <<< g) } else { c with spareUsed := c.spareUsed ||| (1#8 <<< g) }

theorem laneFailed_standsAt {c : CoreInfo} {p : Place} (g : Nat) (h : c.standsAt p = true) : (c.laneFailed g).standsAt p = true := by
  unfold CoreInfo.laneFailed
  split <;> exact h

theorem laneFailed_spent {c : CoreInfo} {g : Nat} (h : c.spareUsed.getLsbD g = true) :
    (c.laneFailed g).lgen.getLsbD g = false ∧ ∀ j, j ≠ g → (c.laneFailed g).lgen.getLsbD j = c.lgen.getLsbD j := by
  rw [CoreInfo.laneFailed, if_pos h]
  refine ⟨?_, fun j hj => ?_⟩
  · exact (getLsbD_clearBit c.lgen g).trans (by simp)
  · exact (getLsbD_clearBit c.lgen j).trans (by simp [hj])

theorem laneFailed_spare {c : CoreInfo} {g : Nat} (h : c.spareUsed.getLsbD g = false) (hg : g < 8) :
    (c.laneFailed g).lgen = c.lgen ∧ (c.laneFailed g).spareUsed.getLsbD g = true := by
  rw [CoreInfo.laneFailed, if_neg (by simp [h])]
  exact ⟨rfl, (getLsbD_setBit c.spareUsed hg).trans (by simp)⟩

/-- The state in which the record of a core stands after a lane of it has failed, with the entry of a lost group (R62, R63, R404). -/
def State.laneLogged (s : State) (p : Place) (g no : Nat) : State :=
  let held := s.withCore p ((coreInfo s p).laneFailed g)
  if (coreInfo s p).spareUsed.getLsbD g then rasLog 3 no 0 held else held

theorem laneOut_eq (p : Place) (g no : Nat) (s : State) : laneOut p g no s =
    if ((coreInfo s p).laneFailed g).lgen = 0#8 then dropCore p.die p.cluster p.core (s.laneLogged p g no)
    else s.laneLogged p g no := rfl

theorem laneLogged_findCore (s : State) (p : Place) (g no : Nat) (q : Place) : findCore (s.laneLogged p g no) q =
    if (q.die, q.cluster, q.core) = (p.die, p.cluster, p.core) then some ((coreInfo s p).laneFailed g) else findCore s q := by
  refine (findCore_congr ?_ q).trans (findCore_withCore (laneFailed_standsAt g (coreInfo_standsAt s p)) q)
  unfold State.laneLogged
  dsimp only
  split
  · exact rasLog_cores ..
  · rfl

theorem withCore_unlogged (s : State) (p : Place) (k : CoreInfo) : s.unlogged (s.withCore p k) :=
  unlogged_of_eq (by rw [withCore_eq]) (by rw [withCore_eq])

theorem State.laneLogged_unlogged (s : State) (p : Place) (g no : Nat) : s.unlogged (s.laneLogged p g no) := by
  have hheld := withCore_unlogged s p ((coreInfo s p).laneFailed g)
  unfold State.laneLogged
  dsimp only
  split
  · exact hheld.trans (rasLog_unlogged 3 no 0 _)
  · exact hheld

/-- The core after a lane of it has failed its self-test: its own record has changed, and it is retired without a lane group. -/
theorem laneOut_findCore (s : State) (p : Place) (g no : Nat) (q : Place) :
    let k := (coreInfo s p).laneFailed g
    findCore (laneOut p g no s) q =
      if (q.die, q.cluster, q.core) = (p.die, p.cluster, p.core)
      then some (if k.lgen = 0#8 then { k with retired := true, portHolder := [] } else k) else findCore s q := by
  intro k
  have hfind := laneLogged_findCore s p g no
  have hinfo : coreInfo (s.laneLogged p g no) ⟨p.die, p.cluster, p.core, 0⟩ = k := by rw [coreInfo, hfind, if_pos rfl]; rfl
  rw [laneOut_eq]
  by_cases h0 : k.lgen = 0#8
  · rw [if_pos h0, if_pos h0, dropCore_findCore, hinfo, hfind]
    split <;> rfl
  · rw [if_neg h0, if_neg h0, hfind]

/-- Of the cores only that of the lane changes: its spare is used, or its group is gone, and without a group it is retired. -/
theorem laneOut_cores {s : State} {p : Place} {g : Nat} (no : Nat) (hg : g < 8) :
    (∀ q : Place, (q.die, q.cluster, q.core) ≠ (p.die, p.cluster, p.core) → findCore (laneOut p g no s) q = findCore s q) ∧
      ∃ k, findCore (laneOut p g no s) p = some k ∧
        (if (coreInfo s p).spareUsed.getLsbD g = true then k.lgen.getLsbD g = false ∧
            ∀ j, j ≠ g → k.lgen.getLsbD j = (coreInfo s p).lgen.getLsbD j
          else k.lgen = (coreInfo s p).lgen ∧ k.spareUsed.getLsbD g = true) ∧ (k.lgen = 0#8 → k.retired = true) := by
  have hfind := laneOut_findCore s p g no
  have hgroup : if (coreInfo s p).spareUsed.getLsbD g = true then ((coreInfo s p).laneFailed g).lgen.getLsbD g = false ∧
      ∀ j, j ≠ g → ((coreInfo s p).laneFailed g).lgen.getLsbD j = (coreInfo s p).lgen.getLsbD j
      else ((coreInfo s p).laneFailed g).lgen = (coreInfo s p).lgen ∧ ((coreInfo s p).laneFailed g).spareUsed.getLsbD g = true := by
    split
    case isTrue h => exact laneFailed_spent h
    case isFalse h => exact laneFailed_spare (Bool.not_eq_true _ ▸ h) hg
  refine ⟨fun q hq => (hfind q).trans (if_neg hq), ?_⟩
  rw [hfind p, if_pos rfl]
  by_cases h0 : ((coreInfo s p).laneFailed g).lgen = 0#8
  · rw [if_pos h0]
    exact ⟨_, rfl, hgroup, fun _ => rfl⟩
  · rw [if_neg h0]
    exact ⟨_, rfl, hgroup, fun h => absurd h h0⟩

theorem dropCore_unlogged (n c x : Nat) (s : State) : s.unlogged (dropCore n c x s) :=
  State.unlogged.trans (t := clearCore n c x s)
    (fun h => withCore_unlogged s ⟨n, c, x, 0⟩ { coreInfo s ⟨n, c, x, 0⟩ with retired := true, portHolder := [] } h)
    (rasLog_unlogged 4 (coreLoc ⟨n, c, x, 0⟩ 0 0) 0 (clearCore n c x s))

theorem laneOut_unlogged (s : State) (p : Place) (g no : Nat) : s.unlogged (laneOut p g no s) := by
  have hlane := s.laneLogged_unlogged p g no
  rw [laneOut_eq]
  split
  · exact hlane.trans (dropCore_unlogged p.die p.cluster p.core (s.laneLogged p g no))
  · exact hlane

/-! ### The steps -/

theorem imageOf_isSome (fixer : Bool) (a b : SignedImage) : (imageOf fixer [a, b]).isSome = (accepts fixer a || accepts fixer b) := by
  cases ha : accepts fixer a <;> cases hb : accepts fixer b <;> simp [imageOf, ha, hb]

theorem exec_deviceReset (a b : SignedImage) (s : State) :
    exec (.deviceReset a b) s = .next { State.reset with
      hostMem := s.hostMem, agenda := s.agenda, choices := s.choices, upsets := s.upsets
      svc := { Service.start with flash := [a, b], controller := accepts false a || accepts false b
                                  boot := if accepts false a || accepts false b then .boot else .failed } } := by
  rw [← imageOf_isSome]
  rfl

theorem exec_fixerImageVerify {s : State} {a b : SignedImage} (hc : s.svc.controller = true) (ht : s.svc.fixerTried = false) :
    let t : State := { s with svc := { s.svc with fixerTried := true, fixerFlash := [a, b] } }
    exec (.fixerImageVerify a b) s = .next (if accepts true a || accepts true b then
      { t with svc := { t.svc with fixer := true } } else rasLog 12 0 0 t) := by
  intro t
  have hen : (s.svc.controller && !s.svc.fixerTried) = true := by rw [hc, ht]; rfl
  refine runEvent_ok ?_
  simp only [run_bind, run_get, enabled_ok hen, imageOf_isSome]
  split <;> rfl

section
variable {s : State} {n c x g l : Nat} (hv : s.svc.controller = true)
include hv

section
variable (hf : s.svc.fixerTried = true) (hn : n < 8) (hd : s.svc.dies.getLsbD n = false) (hdead : s.svc.deadDies.getLsbD n = false)
include hf hn hd hdead

/-- A cluster's self-test ends. -/
theorem exec_clusterTest (hc : c < 25) (hout : (n, c) ∉ s.svc.deadClusters) (pass : Bool) :
    exec (.unitSelfTestEnd .cluster (n + 8 * c) pass) s = .next (if pass then { s with svc := { s.svc with sensed := true } }
      else rasLog 12 (coreLoc ⟨n, c, 0, 0⟩ 0 0) 0
        { s with svc := { s.svc with sensed := true, deadClusters := (n, c) :: s.svc.deadClusters } }) := by
  have hdie : (n + 8 * c) % 8 = n := by omega
  have hcl : (n + 8 * c) / 8 = c := by omega
  have hen : (s.svc.controller && s.svc.fixerTried && decide (c < Config.clusters) && !bit s.svc.dies n && !bit s.svc.deadDies n &&
      !s.svc.deadClusters.contains (n, c)) = true := by
    simpa [hv, hf, bit, hd, hdead, Config.clusters, hc] using hout
  refine runEvent_ok ?_
  simp only [run_bind, run_get, hdie, hcl, enabled_ok hen]
  cases pass <;> rfl

/-- A lane's self-test ends. -/
theorem exec_laneTest (hc : c < 25) (hx : x < 8) (hg : g < 8) (hl : l < 34) (hlane : (coreInfo s ⟨n, c, x, 0⟩).lgen.getLsbD g = true)
    (pass : Bool) : let no := n + 8 * c + 256 * x + 2048 * g + 16384 * l
    exec (.unitSelfTestEnd .lane no pass) s = .next (if pass then { s with svc := { s.svc with sensed := true } }
      else laneOut ⟨n, c, x, 0⟩ g no (rasLog 12 no 0 { s with svc := { s.svc with sensed := true } })) := by
  intro no
  have hdie : no % 8 = n := by omega
  have hcl : no / 8 % 32 = c := by omega
  have hcore : no / 256 % 8 = x := by omega
  have hgroup : no / 2048 % 8 = g := by omega
  have hl' : no / 16384 = l := by omega
  have hen : (s.svc.controller && s.svc.fixerTried && decide (c < Config.clusters) && decide (x < Config.cores) &&
      decide (l < 34) && !bit s.svc.dies n && !bit s.svc.deadDies n && bit (coreInfo s ⟨n, c, x, 0⟩).lgen g) = true := by
    simp [hv, hf, bit, hd, hdead, Config.clusters, Config.cores, hc, hx, hl, hlane]
  refine runEvent_ok ?_
  simp only [run_bind, run_get, hdie, hcl, hcore, hgroup, hl', enabled_ok hen]
  cases pass <;> rfl

/-- A die's self-test ends. -/
theorem exec_dieTest (pass : Bool) :
    exec (.unitSelfTestEnd .die n pass) s = .next (if pass then
      renewTexts (bootMoves { s with svc := { s.svc with sensed := true, dies := s.svc.dies ||| (1#8 <<< n) } })
      else bootMoves (rasLog 12 n 0 { s with svc := { s.svc with sensed := true, deadDies := s.svc.deadDies ||| (1#8 <<< n) } })) := by
  have hen : (s.svc.controller && s.svc.fixerTried && decide (n < 8) && !bit s.svc.dies n && !bit s.svc.deadDies n) = true := by
    simp only [hv, hf, bit, hd, hdead, decide_eq_true hn]
    rfl
  refine runEvent_ok ?_
  simp only [run_bind, run_get, enabled_ok hen]
  cases pass <;> rfl

end

/-- A stack's self-test ends. -/
theorem exec_stackTest (hf : s.svc.fixer = true) (hn : n < 16) (hd : s.svc.hbmStacks.getLsbD n = false)
    (hdead : s.svc.deadStacks.getLsbD n = false) (pass : Bool) :
    exec (.unitSelfTestEnd .stack n pass) s = .next (if pass then
      bootMoves { s with svc := { s.svc with sensed := true, hbmStacks := s.svc.hbmStacks ||| (1#16 <<< n) } }
      else bootMoves (rasLog 12 n 0
        { s with svc := { s.svc with sensed := true, deadStacks := s.svc.deadStacks ||| (1#16 <<< n) } })) := by
  have hen : (s.svc.controller && s.svc.fixer && decide (n < 16) && !bit s.svc.hbmStacks n && !bit s.svc.deadStacks n) = true := by
    simp only [hv, hf, bit, hd, hdead, decide_eq_true hn]
    rfl
  refine runEvent_ok ?_
  simp only [run_bind, run_get, enabled_ok hen]
  cases pass <;> rfl

end

/-- The thermal calibration ends half rate. -/
theorem exec_thermalCalibrationEnd {s : State} (hv : s.svc.controller = true) (hc : s.svc.calibrated = false) :
    exec .thermalCalibrationEnd s = .next (rasLogOther 0 0
      (bootMoves { s with svc := { s.svc with sensed := true, calibrated := true, half := false } })) := by
  have hen : (s.svc.controller && !s.svc.calibrated) = true := by rw [hv, hc]; rfl
  exact runEvent_ok (by simp only [run_bind, run_get, enabled_ok hen]; rfl)

/-- A thermal recovery ends a trip. -/
theorem exec_thermalRecover {s : State} (h : s.svc.tripped = true) :
    exec .thermalRecover s = .next (rasLogOther 0 0 { s with svc := { s.svc with sensed := true, tripped := false } }) :=
  runEvent_ok (by simp only [run_bind, run_get, enabled_ok h]; rfl)

/-- A thermal trip saves the placed strands. -/
theorem exec_thermalTrip {s : State} (h : s.svc.tripped = false) (as bs : List Nat) :
    let u := saveAll ((strands s).filter fun h => h.status == .running) (as.zip bs) s
    exec (.thermalTrip as bs) s = .next (rasLogOther 0 0 { u with svc := { u.svc with tripped := true, sensed := true } }) :=
  runEvent_ok (by simp only [run_bind, run_get, enabled_ok (c := !s.svc.tripped) (by rw [h]; rfl)]; rfl)

/-- The bytes that a reader outside the strands receives, and what the read leaves. -/
theorem outsideRead_good {s : State} {pa n : Nat} (h : readsBad s pa n = false) :
    outsideRead pa n s = .ok (homeBytes s pa n) s := by
  simp only [outsideRead, run_bind, run_get, h, Bool.false_eq_true, if_false, run_pure]

theorem outsideRead_bad {s : State} {pa n : Nat} (h : readsBad s pa n = true) :
    ∃ bytes l, bytes.length = n ∧ outsideRead pa n s = .ok bytes { s with free := s.free + 1, suspect := l } := by
  refine ⟨(rangeFrom 0 n).map fun i => BitVec.ofNat 8 ((Config.freeWord s.free).toNat / 2 ^ (8 * (i % 8))),
    (suspectRead pa n s).suspect, by simp [length_rangeFrom], ?_⟩
  simp only [outsideRead, run_bind, run_get, h, if_true, run_set, run_pure]
  rfl

/-- A report whose area lies in a ready stack is written. -/
theorem exec_attestation {s u : State} {area : Nat} {nonce : List Byte} (hs : s.svc.atArea = area) (hb : s.svc.atBusy = true)
    (ha : area < 2 ^ 40) (hk : s.svc.hbmStacks.getLsbD (area / 2 ^ 36) = true) (hr : outsideRead area 32 s = .ok nonce u) :
    let t := homeWrite .host area (reportBytes u nonce) u
    exec .attestationReportComplete s = .next { t with svc := { t.svc with atBusy := false, atResult := 0 } } := by
  have hok : (decide (area < 2 ^ 40) && bit s.svc.hbmStacks (area / 2 ^ 36)) = true := by
    simp only [bit, hk, decide_eq_true ha, Bool.and_self]
  refine runEvent_ok ?_
  simp only [run_bind, run_get, enabled_ok hb, hs, hok, if_true, hr, run_modify, run_set]

/-- One whose area lies in none is refused. -/
theorem exec_attestation_refused {s : State} (hb : s.svc.atBusy = true)
    (ha : 2 ^ 40 ≤ s.svc.atArea ∨ s.svc.hbmStacks.getLsbD (s.svc.atArea / 2 ^ 36) = false) :
    exec .attestationReportComplete s = .next { s with svc := { s.svc with atBusy := false, atResult := 1 } } := by
  have hok : (decide (s.svc.atArea < 2 ^ 40) && bit s.svc.hbmStacks (s.svc.atArea / 2 ^ 36)) = false := by
    rw [Bool.and_eq_false_iff]
    exact ha.imp (fun h => decide_eq_false (Nat.not_lt.mpr h)) id
  refine runEvent_ok ?_
  simp only [run_bind, run_get, enabled_ok hb, hok, Bool.false_eq_true, if_false, run_set]

/-- Settles O60: each step of the device is enabled, and sets the state that its definition names. -/
theorem deviceStepsComplete : Obligations.DeviceStepsComplete := by
  unfold Obligations.DeviceStepsComplete
  intro s n a b v z
  refine ⟨fun slotA slotB => exec_deviceReset slotA slotB s, fun slotA slotB hc ht => exec_fixerImageVerify hc ht,
    fun c hv hf hn hc hd hdead hout => ⟨exec_clusterTest hv hf hn hd hdead hc hout true, exec_clusterTest hv hf hn hd hdead hc hout false⟩,
    fun c x g l hv hf hn hc hx hg hl hd hdead => ?_,
    fun hv hf hn hd hdead => ⟨v.dies ||| (1#8 <<< n), v.deadDies ||| (1#8 <<< n), exec_dieTest hv hf hn hd hdead true,
      exec_dieTest hv hf hn hd hdead false, fun j hj => ⟨getLsbD_setBit _ hj, getLsbD_setBit _ hj⟩⟩,
    fun hv hf hn hd hdead => ⟨v.hbmStacks ||| (1#16 <<< n), v.deadStacks ||| (1#16 <<< n), exec_stackTest hv hf hn hd hdead true,
      exec_stackTest hv hf hn hd hdead false, fun j hj => ⟨getLsbD_setBit _ hj, getLsbD_setBit _ hj⟩⟩,
    fun hv hcal => exec_thermalCalibrationEnd hv hcal, fun htrip => ?_, fun htrip => exec_thermalRecover htrip, fun hb ha hk => ?_,
    fun hb ha => exec_attestation_refused hb ha⟩
  · intro p no hlane
    refine ⟨exec_laneTest hv hf hn hd hdead hc hx hg hl hlane true, ?_⟩
    intro old spent k logged held t u
    have hcore : findCore logged p = findCore s p := findCore_congr (rasLog_cores ..) p
    have hinfo : coreInfo logged p = old := by rw [coreInfo, hcore]; rfl
    have hu : laneOut p g no logged = u := by
      rw [laneOut_eq, State.laneLogged, State.withCore, hinfo, hcore]
      rfl
    have hlog : s.unlogged logged := rasLog_unlogged 12 no 0 { s with svc := z }
    obtain ⟨hother, k', hk', hgroup, hret⟩ := laneOut_cores (s := logged) (p := p) no hg
    rw [hu] at hother hk'
    rw [hinfo] at hgroup
    refine ⟨exec_laneTest hv hf hn hd hdead hc hx hg hl hlane false |>.trans (congrArg _ hu), fun h0 w => ?_,
      fun q hq => (hother q hq).trans (findCore_congr (rasLog_cores ..) q), k', hk', hgroup, hret⟩
    have hmem := (hlog.trans (laneOut_unlogged logged p g no) h0).2
    rw [hu] at hmem
    rw [hmem]
  · intro on tripped
    have hall : ∀ as bs, exec (.thermalTrip as bs) s = .next (tripped (saveAll on (as.zip bs) s)) := exec_thermalTrip htrip
    refine ⟨fun h as bs => ?_, fun h hon => ?_, hall⟩
    · rw [hall, h]
      rfl
    · rw [hall, hon]
      rfl
  · intro gives
    refine ⟨fun hgood => exec_attestation rfl hb ha hk (outsideRead_good hgood), fun hbad => ?_⟩
    obtain ⟨bytes, l, hlen, hread⟩ := outsideRead_bad hbad
    exact ⟨bytes, l, hlen, exec_attestation rfl hb ha hk hread⟩

end Sys2Proof.Machine
end

section
/-!
A unit of an element stage whose destination selects a queue that the strand does not have: the model's queue numbers are modulo 8 where a
queue is written (R182).
-/
namespace Sys2Proof.Machine

/-- A stage that moves elements of v0 to selector 40, which is of the queues' kind and of index 8 (R204, R205). -/
def queueEightStage : StageEnt := ⟨BitVec.ofNat 32 ((encodeWord (.vmv 0#3 0#5 0#5)).getD 0), 0, 224, 224, 40, 0, 1, 0⟩

/-- A strand whose chain 0 has that stage alone and runs for one element; its queues are empty. -/
def feedsQueueEight : State := { State.reset with
  hart := { Strand.start with status := .running, lown := 32 }.putChain 0 { Chain.free with
    state := .running, quota := 1, vlc := 1, rcd := { Chain.free.rcd with stages := [queueEightStage] }
    stages := [{ StageSt.start with srcTys := [.i32], opTy := .i32, resTy := .i32 }] } }

/-- The elements of queue 0 after a unit, none where it is not performed. -/
def queueZeroAfter (r : EStateM.Result UStop State Unit) : Option (List (Word × Bool)) :=
  match r with
  | .ok _ t => some (t.hart.queue 0).elems
  | .error _ _ => none

/-- What feedsQueueEight meets of the first clause: its sources, its room and its selectors. -/
theorem feedsQueueEight_ready : (feedsQueueEight.hart.chain 0).runs = true ∧ (feedsQueueEight.hart.chain 0).mayBegin 0 = true ∧
    stageOp ((feedsQueueEight.hart.chain 0).ent 0).inst = some (.un .mv, none) ∧
    (∀ x ∈ ((feedsQueueEight.hart.chain 0).ent 0).operands, (feedsQueueEight.nextOf 0 0 x.1 x.2).isSome) ∧
    feedsQueueEight.hasRoom 0 0 = true := by decide +kernel

/-- Queue 0 takes the element that goes to selector 40. -/
theorem feedsQueueEight_unit : queueZeroAfter (unit 0 0 feedsQueueEight) = some [(0#64, false)] := by decide +kernel

/-- Refutes O51: the clause on a unit of an element stage has every queue but those that selectors 32 to 39 name stay as it was, and it
takes any destination selector. Selector 40 names queue 8, which the strand does not have; such a queue reads as empty, so that it has
room, and the model writes it modulo 8, so that feedsQueueEight finds its element in queue 0. (chcfg refuses such a selector, R205 and R208; the
statement does not ask for a record that chcfg has accepted.) -/
theorem not_chainStepsComplete : ¬ Obligations.ChainStepsComplete := by
  unfold Obligations.ChainStepsComplete
  intro h
  obtain ⟨hruns, hbegin, hop, hnext, hroom⟩ := feedsQueueEight_ready
  obtain ⟨t, w, hunit, -, -, -, -, -, hqueue, -⟩ := (h 0#2 feedsQueueEight rfl).1 hruns rfl rfl rfl rfl 0 _ _ (by decide) hbegin hop rfl
    (by decide) hnext hroom (.inl (by decide +kernel)) (by decide +kernel)
  have hkept : t.hart.queue 0 = feedsQueueEight.hart.queue 0 :=
    (hqueue 0 (by decide)).trans ((if_neg (by decide +kernel)).trans (if_neg (by decide +kernel)))
  have hgot := feedsQueueEight_unit
  rw [show unit 0 0 feedsQueueEight = .ok () t from hunit] at hgot
  simp only [queueZeroAfter, hkept] at hgot
  exact absurd hgot (by decide +kernel)

end Sys2Proof.Machine
end

section
/-!
PROOF. O12: the decoder reads an instruction back from the bytes of its word. The words themselves are decoded one by one in
Laws/PerInstr; here they are put together, and the bytes are put back into the word.
-/
namespace Sys2Proof.Laws.RoundTrip

/-- Each instruction that has a word decodes from it, by its own lemma; a step of an agent has no word. -/
theorem statement (i : Instr) : Statement i := by
  cases i with
  | vadd => exact vadd _ _ _ _ _
  | vsub => exact vsub _ _ _ _ _
  | vrsub => exact vrsub _ _ _ _ _
  | vmul => exact vmul _ _ _ _ _
  | vmulh => exact vmulh _ _ _ _ _
  | vdiv => exact vdiv _ _ _ _ _
  | vrem => exact vrem _ _ _ _ _
  | vmin => exact vmin _ _ _ _ _
  | vmax => exact vmax _ _ _ _ _
  | vand => exact vand _ _ _ _ _
  | vor => exact vor _ _ _ _ _
  | vxor => exact vxor _ _ _ _ _
  | vsll => exact vsll _ _ _ _ _
  | vsrl => exact vsrl _ _ _ _ _
  | vsra => exact vsra _ _ _ _ _
  | vcmpeq => exact vcmpeq _ _ _ _ _
  | vcmpne => exact vcmpne _ _ _ _ _
  | vcmplt => exact vcmplt _ _ _ _ _
  | vcmple => exact vcmple _ _ _ _ _
  | vfma => exact vfma _ _ _ _ _
  | vfms => exact vfms _ _ _ _ _
  | vfnma => exact vfnma _ _ _ _ _
  | vfnms => exact vfnms _ _ _ _ _
  | vsel => exact vsel _ _ _ _
  | vqblk => exact vqblk _ _ _ _
  | vdqblk => exact vdqblk _ _ _ _
  | vsplat => exact vsplat _ _ _
  | vaddVi => exact vaddVi _ _ _ _
  | vsubVi => exact vsubVi _ _ _ _
  | vrsubVi => exact vrsubVi _ _ _ _
  | vmulVi => exact vmulVi _ _ _ _
  | vminVi => exact vminVi _ _ _ _
  | vmaxVi => exact vmaxVi _ _ _ _
  | vandVi => exact vandVi _ _ _ _
  | vorVi => exact vorVi _ _ _ _
  | vxorVi => exact vxorVi _ _ _ _
  | vsllVi => exact vsllVi _ _ _ _
  | vsrlVi => exact vsrlVi _ _ _ _
  | vsraVi => exact vsraVi _ _ _ _
  | vcmpeqVi => exact vcmpeqVi _ _ _ _
  | vcmpneVi => exact vcmpneVi _ _ _ _
  | vcmpltVi => exact vcmpltVi _ _ _ _
  | vcmpleVi => exact vcmpleVi _ _ _ _
  | vsplatVi => exact vsplatVi _ _ _
  | vmv => exact vmv _ _ _
  | vabs => exact vabs _ _ _
  | vneg => exact vneg _ _ _
  | vnot => exact vnot _ _ _
  | vsqrt => exact vsqrt _ _ _
  | vrcp => exact vrcp _ _ _
  | vrsqrt => exact vrsqrt _ _ _
  | vexp2 => exact vexp2 _ _ _
  | vlog2 => exact vlog2 _ _ _
  | vclz => exact vclz _ _ _
  | vpop => exact vpop _ _ _
  | vclass => exact vclass _ _ _
  | vcvt => exact vcvt _ _ _
  | vid => exact vid _ _
  | kand => exact kand _ _ _
  | kor => exact kor _ _ _
  | kxor => exact kxor _ _ _
  | kandn => exact kandn _ _ _
  | knot => exact knot _ _
  | kpop => exact kpop _ _
  | kfirst => exact kfirst _ _
  | kmv => exact kmv _ _
  | kmvFromEmask => exact kmvFromEmask _
  | kmvToEmask => exact kmvToEmask _
  | kset => exact kset _ _
  | vld => exact vld _ _ _
  | vst => exact vst _ _ _
  | vlds => exact vlds _ _ _ _
  | vsts => exact vsts _ _ _ _
  | vldx => exact vldx _ _ _ _
  | vstx => exact vstx _ _ _ _
  | vgl => exact vgl _ _ _ _
  | vsc => exact vsc _ _ _ _
  | vlsl => exact vlsl _ _ _ _
  | vssl => exact vssl _ _ _ _
  | vamoadd => exact vamoadd _ _ _ _ _
  | vamomin => exact vamomin _ _ _ _ _
  | vamomax => exact vamomax _ _ _ _ _
  | vamoand => exact vamoand _ _ _ _ _
  | vamoor => exact vamoor _ _ _ _ _
  | vamoxor => exact vamoxor _ _ _ _ _
  | vamoswp => exact vamoswp _ _ _ _ _
  | vamocas => exact vamocas _ _ _ _
  | vperm => exact vperm _ _ _ _
  | vslup => exact vslup _ _ _ _
  | vsldn => exact vsldn _ _ _ _
  | vcomp => exact vcomp _ _ _
  | vexpd => exact vexpd _ _ _
  | vscan => exact vscan _ _ _
  | vcex => exact vcex _ _ _ _
  | vmrg => exact vmrg _ _ _ _
  | vred => exact vred _ _ _
  | vredmx => exact vredmx _ _ _
  | vredmn => exact vredmn _ _ _
  | vdot => exact vdot _ _ _ _
  | eaclr => exact eaclr _
  | eard => exact eard _ _
  | eamvLoad => exact eamvLoad _ _
  | eamvStore => exact eamvStore _ _
  | mma => exact mma _ _ _
  | mmasp => exact mmasp _ _ _ _
  | mmack => exact mmack _ _ _ _
  | tzero => exact tzero _
  | tmv => exact tmv _ _
  | tcvt => exact tcvt _ _
  | tadd => exact tadd _ _ _
  | tscale => exact tscale _ _ _
  | tsum => exact tsum _ _
  | tld => exact tld _ _ _
  | tst => exact tst _ _ _
  | ttov => exact ttov _ _ _
  | vtot => exact vtot _ _ _
  | vshape => exact vshape _ _ _
  | vtag => exact vtag _ _
  | tgetsh => exact tgetsh _ _
  | tshape => exact tshape _ _ _ _
  | chcfg => exact chcfg _ _
  | chrun => exact chrun _ _
  | chwait => exact chwait _ _ _
  | chbrk => exact chbrk _
  | chres => exact chres _
  | chstat => exact chstat _ _ _
  | chfree => exact chfree _
  | chsave => exact chsave _ _
  | chload => exact chload _ _
  | tlwait => exact tlwait _ _ _ _
  | tlnow => exact tlnow _ _
  | wflag => exact wflag _ _ _ _
  | sync => exact sync _ _ _ _
  | rlnew => exact rlnew _ _
  | rljoin => exact rljoin _ _
  | rlleave => exact rlleave _ _
  | rlfree => exact rlfree _ _
  | rlarr => exact rlarr _ _
  | rlwait => exact rlwait _ _ _
  | rlbar => exact rlbar _ _ _
  | ecopy => exact ecopy _ _ _ _
  | egth => exact egth _ _ _ _
  | esct => exact esct _ _ _ _
  | efill => exact efill _ _ _ _
  | ecvt => exact ecvt _ _ _ _
  | ecan => exact ecan _ _ _ _
  | icinv => exact icinv _ _ _ _
  | tlbinv => exact tlbinv _ _ _ _
  | claim => exact claim
  | fput => exact fput _ _ _ _
  | fget => exact fget _ _ _ _
  | fcoll => exact fcoll _ _ _ _
  | dlaunch => exact dlaunch _ _ _
  | ldaq => exact ldaq _ _ _
  | strl => exact strl _ _ _
  | vqpush => exact vqpush _ _ _ _
  | vqpop => exact vqpop _ _ _ _
  | vqcnt => exact vqcnt _ _
  | vwait => exact vwait _ _ _ _ _
  | fence => exact fence _ _ _ _ _
  | fenceI => exact fenceI _ _ _
  | lr => exact lr _ _ _ _ _
  | sc => exact sc _ _ _ _ _ _
  | amo => exact amo _ _ _ _ _ _ _
  | scalarLoad => exact scalarLoad _ _ _ _
  | scalarStore => exact scalarStore _ _ _ _
  | ecall => exact ecall
  | ebreak => exact ebreak
  | wfi => exact wfi
  | sret => exact sret
  | sfenceVma => exact sfenceVma _ _
  | vstaWrite => exact vstaWrite _ _ _
  | emaskWrite => exact emaskWrite _ _ _
  | eclsWrite => exact eclsWrite _ _ _
  | finjWrite => exact finjWrite _ _ _
  | wceilWrite => exact wceilWrite _ _ _
  | wptWrite => exact wptWrite _ _ _ _
  | registerWrite => exact registerWrite _
  | scalarInstruction => exact scalarInstruction _
  | encodingThatSelectsNothing => exact encodingThatSelectsNothing _
  | _ => exact fun _ hw _ _ => nomatch hw

/-- A word of four bytes whose two lowest bits are set, which is how the decoder knows an instruction of four bytes (R90). -/
def IsLongWord (w : Nat) : Prop := w % 4 = 3 ∧ w < 2 ^ 32

theorem isLongWord_encCsr {csr : Nat} (op : CsrOp) (src : CsrSrc) (rd : BitVec 5) (h : csr < 2 ^ 12) :
    IsLongWord (encCsr csr op src rd) := by
  have hf : ∀ imm, csrFunct op imm < 8 := by cases op <;> decide
  cases src with
  | reg r => have := hf false; simp only [encCsr, IsLongWord]; omega
  | imm u => have := hf true; simp only [encCsr, IsLongWord]; omega

theorem AluOp.funct_lt (op : AluOp) : op.funct.1 < 128 ∧ op.funct.1 % 4 = 3 ∧ op.funct.2.1 < 128 ∧ op.funct.2.2 < 8 := by
  cases op <;> decide
theorem AluWOp.funct_lt (op : AluWOp) : op.funct.1 < 128 ∧ op.funct.2 < 8 := by cases op <;> decide
theorem UnaryOp.funct_lt (op : UnaryOp) : op.funct.1 < 128 ∧ op.funct.1 % 4 = 3 ∧ op.funct.2.1 < 8 ∧ op.funct.2.2 < 4096 := by
  cases op <;> decide
theorem ShiftOp.funct_lt (op : ShiftOp) : op.funct.1 < 128 ∧ op.funct.1 % 4 = 3 ∧ op.funct.2.1 < 8 ∧ op.funct.2.2 < 64 := by
  cases op <;> decide
theorem ShiftWOp.funct_lt (op : ShiftWOp) : op.funct.1 < 8 ∧ op.funct.2 < 128 := by cases op <;> decide

theorem isLongWord_encScalar (op : ScalarOp) : IsLongWord (encScalar op) := by
  cases op with
  | lui | auipc | jal | jalr | addiw => simp only [encScalar, encI, IsLongWord]; omega
  | branch op =>
    have : op.funct < 8 := by cases op <;> decide
    simp only [encScalar, IsLongWord]; omega
  | opImm op =>
    have : op.funct < 8 := by cases op <;> decide
    simp only [encScalar, encI, IsLongWord]; omega
  | shiftImm op => have := ShiftOp.funct_lt op; simp only [encScalar, IsLongWord]; omega
  | shiftImmW op => have := ShiftWOp.funct_lt op; simp only [encScalar, encR, IsLongWord]; omega
  | alu op => have := AluOp.funct_lt op; simp only [encScalar, encR, IsLongWord]; omega
  | aluW op => have := AluWOp.funct_lt op; simp only [encScalar, encR, IsLongWord]; omega
  | unary op => have := UnaryOp.funct_lt op; simp only [encScalar, IsLongWord]; omega
  | csrRead csr op imm =>
    have : csrFunct op imm < 8 := by cases op <;> cases imm <;> decide
    simp only [encScalar, IsLongWord]; omega

theorem isLongWord_encodeWord {i : Instr} {w : Nat} (hw : encodeWord i = some w)
    (hi : ∀ b, i ≠ .encodingThatSelectsNothing b) : IsLongWord w := by
  cases i with
  | encodingThatSelectsNothing b => exact absurd rfl (hi b)
  | registerWrite t =>
    cases t with
    | csr csr op src rd => cases hw; exact isLongWord_encCsr op src rd csr.isLt
    | bar0 => cases hw
    | bar2 => cases hw
  | vstaWrite op src rd | emaskWrite op src rd | eclsWrite op src rd | finjWrite op src rd | wceilWrite op src rd =>
    cases hw; exact isLongWord_encCsr op src rd (by decide)
  | wptWrite n op src rd => cases hw; exact isLongWord_encCsr op src rd (by omega)
  | scalarInstruction op => cases hw; exact isLongWord_encScalar op
  | vshape width => have := width_lt width; cases hw; simp only [IsLongWord]; omega
  | vtag ty => have := code_lt ty; cases hw; simp only [IsLongWord]; omega
  | tshape ty => have := code_lt ty; cases hw; simp only [IsLongWord]; omega
  | sync scope => have := scope_lt scope; cases hw; simp only [IsLongWord]; omega
  | ldaq scope => have := scope_lt scope; cases hw; simp only [IsLongWord]; omega
  | strl scope => have := scope_lt scope; cases hw; simp only [IsLongWord]; omega
  | scalarLoad op =>
    have : op.funct < 8 := by cases op <;> decide
    cases hw; simp only [encI, IsLongWord]; omega
  | scalarStore op =>
    have : op.funct < 8 := by cases op <;> decide
    cases hw; simp only [IsLongWord]; omega
  | amo op d aq rl =>
    have : op.funct < 32 := by cases op <;> decide
    have := d.toNat_lt; have := aq.toNat_lt; have := rl.toNat_lt
    cases hw; simp only [IsLongWord]; omega
  | vadd _ b | vsub _ b | vrsub _ b | vmul _ b | vmulh _ b | vdiv _ b | vrem _ b | vmin _ b | vmax _ b | vand _ b
  | vor _ b | vxor _ b | vsll _ b | vsrl _ b | vsra _ b | vcmpeq _ b | vcmpne _ b | vcmplt _ b | vcmple _ b | vfma _ b
  | vfms _ b | vfnma _ b | vfnms _ b | vamoadd _ b | vamomin _ b | vamomax _ b | vamoand _ b | vamoor _ b
  | vamoxor _ b | vamoswp _ b | wflag b | icinv b | tlbinv b | vwait b =>
    have := b.toNat_lt
    cases hw; simp only [IsLongWord]; omega
  | lr d aq rl | sc d aq rl =>
    have := d.toNat_lt; have := aq.toNat_lt; have := rl.toNat_lt
    cases hw; simp only [IsLongWord]; omega
  | claim | ecall | ebreak | wfi | sret => cases hw; exact ⟨rfl, by decide⟩
  | _ => cases hw <;> simp only [encI, IsLongWord] <;> omega


/-- The four bytes of a long word decode as the word does, whatever follows (R90). -/
theorem decode_leBytes {w : Nat} (hw : IsLongWord w) (rest : List Byte) :
    decode (leBytes 4 w ++ rest) = (decode32 w).map (·, rest) := by
  obtain ⟨h4, hlt⟩ := hw
  have hlong : isLong (w % 256 + 256 * (w / 256 % 256)) = true := by
    simp only [isLong, beq_iff_eq]; omega
  have hword : w % 256 + 256 * (w / 256 % 256) + 65536 * (w / 256 / 256 % 256) + 16777216 * (w / 256 / 256 / 256 % 256) = w := by
    omega
  simp only [leBytes, List.cons_append, List.nil_append, decode, BitVec.toNat_ofNat, Nat.reducePow, hlong, if_true, hword]
  cases decode32 w <;> rfl

end Sys2Proof.Laws.RoundTrip

namespace Sys2Proof.Machine
/-- Settles O12: the word decodes to the instruction, by the lemma of its constructor, and its bytes give the word back. -/
theorem decodeOfEncode : Obligations.DecodeOfEncode := by
  intro i w rest hw hwf hi
  rw [Laws.RoundTrip.decode_leBytes (Laws.RoundTrip.isLongWord_encodeWord hw hi)]
  rw [Laws.RoundTrip.statement i w hw hwf hi]
  rfl
end Sys2Proof.Machine
end

section
/-!
PROOF. O15, O10, O25, O16: the x registers, the state after reset, trap entry, and the standard integer instructions.
-/
namespace Sys2Proof.Machine

/-- Settles O15: x0 by its two lemmas; a written register by what a vector of registers returns after a set. -/
theorem xRegisters : Obligations.XRegisters := by
  intro h v
  refine ⟨Strand.rx_zero h, Strand.wx_zero h v, fun r hr => ⟨Strand.rx_wx_same h v hr, fun q hq => Strand.rx_wx_other h v hq, ?_⟩⟩
  simp [Strand.wx, hr]

/-! ### Reset -/

/-- A strand at its start holds the reset value in each register (R88). -/
theorem start_rx (r : BitVec 5) : Strand.start.rx r = 0#64 := by
  unfold Strand.rx
  split
  · rfl
  · exact Vector.get_replicate _ _ _

theorem start_tag (r : BitVec 5) : Strand.start.tag r = .none := Vector.get_replicate _ _ _
theorem start_shape (m : BitVec 3) : Strand.start.shape m = .none := Vector.get_replicate _ _ _
theorem start_queue (q : Nat) : Strand.start.queue q = .empty := by
  simp only [Strand.queue, nth, Strand.start, Vector.toList_replicate, List.getElem?_replicate]
  split <;> rfl

/-- Before the sensors are calibrated every function reads no power (R402). -/
theorem bar0Value_power {s : State} (hs : s.svc.sensed = false) (fn : Nat) : bar0Value s fn 0x210 = 0#64 := by
  simp [bar0Value, hs]

/-- Settles O10: each field stands in the definition of the reset state; the registers of the strand are replicated values. -/
theorem resetState : Obligations.ResetState := by
  refine ⟨rfl, rfl, rfl, fun a => rfl, rfl, rfl, rfl, rfl, rfl, rfl, rfl, rfl, rfl, ?_, rfl, rfl, bar0Value_power rfl, rfl, rfl,
    rfl, rfl, rfl, rfl, rfl, rfl, rfl, start_rx, start_tag, start_shape, start_queue,
    fun i => ⟨Vector.get_replicate _ _ i, Vector.get_replicate _ _ i⟩, Vector.get_replicate _ _⟩
  intro p hp
  obtain rfl : p = Port.start := List.eq_of_mem_replicate hp
  exact ⟨rfl, rfl, rfl, rfl, rfl⟩

/-! ### Trap entry -/

/-- sstatus at a trap: SPP and SPIE take the mode and SIE, and SIE is cleared; no other bit changes (R272, log 6). -/
theorem trapStatus_bit (st : Word) (spp spie : Bool) (i : Nat) :
    ((st &&& ~~~0x122#64) ||| (if spp then 0x100#64 else 0#64) ||| (if spie then 0x20#64 else 0#64)).getLsbD i =
      if i = 8 then spp else if i = 5 then spie else if i = 1 then false else st.getLsbD i := by
  by_cases h64 : i < 64
  · interval_cases i <;> cases spp <;> cases spie <;> simp
  · have hi : 64 ≤ i := by omega
    rw [BitVec.getLsbD_of_ge _ _ hi, BitVec.getLsbD_of_ge st _ hi]
    have h8 : i ≠ 8 := by omega
    have h5 : i ≠ 5 := by omega
    simp [h8, h5]

/-- Settles O25: takeTrap writes the fields of the trap and then drops the strand's links. -/
theorem trapEntry : Obligations.TrapEntry := by
  intro cause tval s
  have hbit (i : Nat) : (takeTrap cause tval s).hart.csr.sstatus.getLsbD i =
      if i = 8 then decide (s.hart.mode = .supervisor) else if i = 5 then s.hart.csr.sstatus.getLsbD 1
      else if i = 1 then false else s.hart.csr.sstatus.getLsbD i := by
    rw [← trapStatus_bit]
    simp [takeTrap]
  refine ⟨rfl, rfl, rfl, rfl, rfl, ?_, ?_, ?_, ?_, ?_, rfl⟩
  · rw [hbit]; simp
  · rw [hbit]; simp
  · rw [hbit]; simp
  · intro i h1 h5 h8
    rw [hbit, if_neg h8, if_neg h5, if_neg h1]
  · simp [takeTrap, dropLinks]

/-! ### Standard integer instructions -/

/-- A scalar operation that leaves the strand as h, with no precise hit, completes with it. -/
theorem exec_scalar {s : State} {op : ScalarOp} {h : Strand} (hp : s.hart.plain = true)
    (hop : scalarOp op s = .ok () (s.withHart h)) (hh : h.hit = s.hart.hit) :
    exec (.scalarInstruction op) s = .next (s.completes h) := by
  obtain ⟨hit, he⟩ := (Strand.plain_iff _).mp hp
  exact completes_of_ok he hop (hh.trans hit)

/-- Settles O16: each operation writes rd or the next pc of the strand that it reads. -/
theorem scalarInstructionsComplete : Obligations.ScalarInstructionsComplete := by
  intro s rd rs1 rs2 hp h a b result
  refine ⟨fun imm => ⟨?_, ?_⟩, fun off => ?_, fun imm => ?_, fun op off => ?_, fun op imm => ?_, fun op n => ?_, fun imm => ?_,
    fun op n => ?_, fun op => ?_, fun op => ?_, fun op => ?_⟩
  case refine_5 =>
    by_cases ht : branchTaken op a b = true
    · rw [if_pos ht]
      exact exec_scalar hp (by simp [scalarOp, ht, a, b, h, jumpTo]) rfl
    · rw [if_neg ht]
      exact exec_scalar hp (by simp [scalarOp, ht, a, b, h]; rfl) rfl
  all_goals exact exec_scalar hp rfl (by simp [h])

end Sys2Proof.Machine
end

section
/-!
PROOF. O17: division, products, the forms on words and AMO against the integers and the natural numbers.
-/
namespace Sys2Proof.Machine

/-! ### Division and remainder -/

theorem divS_zero (a : BitVec w) : divS a 0#w = BitVec.allOnes w := if_pos rfl
theorem divU_zero (a : BitVec w) : divU a 0#w = BitVec.allOnes w := if_pos rfl
theorem remS_zero (a : BitVec w) : remS a 0#w = a := if_pos rfl
theorem remU_zero (a : BitVec w) : remU a 0#w = a := if_pos rfl

theorem divS_eq_sdiv (a : BitVec w) {b : BitVec w} (hb : b ≠ 0#w) : divS a b = a.sdiv b := by
  apply BitVec.eq_of_toInt_eq
  rw [divS, if_neg hb, BitVec.toInt_ofInt, BitVec.toInt_sdiv]

theorem remS_eq_srem (a : BitVec w) {b : BitVec w} (hb : b ≠ 0#w) : remS a b = a.srem b := by
  rw [remS, if_neg hb, ← BitVec.toInt_srem, BitVec.ofInt_toInt]

/-- By zero a quotient is all ones and a remainder the dividend. -/
theorem division_by_zero (a : BitVec w) {b : BitVec w} (hb : b = 0#w) :
    divS a b = BitVec.allOnes w ∧ divU a b = BitVec.allOnes w ∧ remS a b = a ∧ remU a b = a := by
  subst hb
  exact ⟨divS_zero a, divU_zero a, remS_zero a, remU_zero a⟩

/-- Otherwise quotient and remainder are the exact ones, rounded toward zero. -/
theorem division_exact (a : BitVec w) {b : BitVec w} (hb : b ≠ 0#w) :
    (divU a b).toNat = a.toNat / b.toNat ∧ (remU a b).toNat = a.toNat % b.toNat ∧ (remS a b).toInt = a.toInt.tmod b.toInt ∧
      (a ≠ BitVec.intMin w ∨ b ≠ BitVec.allOnes w → (divS a b).toInt = a.toInt.tdiv b.toInt) := by
  refine ⟨?_, ?_, ?_, fun hov => ?_⟩
  · rw [divU, if_neg hb, BitVec.toNat_udiv]
  · rw [remU, if_neg hb, BitVec.toNat_umod]
  · rw [remS_eq_srem a hb, BitVec.toInt_srem]
  · rw [divS_eq_sdiv a hb, BitVec.toInt_sdiv_of_ne_or_ne a b (BitVec.neg_one_eq_allOnes ▸ hov)]

/-- The most negative number by −1 gives itself and remainder 0. -/
theorem division_overflow {a b : BitVec w} (hw : 1 < w) (ha : a = BitVec.intMin w) (hb : b = BitVec.allOnes w) :
    divS a b = a ∧ remS a b = 0#w := by
  have hone : b = -1#w := hb.trans BitVec.neg_one_eq_allOnes.symm
  have hminus : b.toInt = -1 := by rw [hb, BitVec.toInt_allOnes, if_pos (by omega)]
  have hne : b ≠ 0#w := fun h => by rw [h, BitVec.toInt_zero] at hminus; omega
  constructor
  · rw [divS_eq_sdiv a hne, ha, hone, BitVec.intMin_sdiv_neg_one]
  · apply BitVec.eq_of_toInt_eq
    rw [remS_eq_srem a hne, BitVec.toInt_srem, hminus, Int.tmod_neg, Int.tmod_one, BitVec.toInt_zero]

/-! ### Products -/

theorem mul_eq_ofInt (a b : BitVec w) : a * b = BitVec.ofInt w (a.toInt * b.toInt) := by
  rw [BitVec.ofInt_mul, BitVec.ofInt_toInt, BitVec.ofInt_toInt]

theorem mul_eq_ofInt_mixed (a b : BitVec w) : a * b = BitVec.ofInt w (a.toInt * b.toNat) := by
  rw [BitVec.ofInt_mul, BitVec.ofInt_toInt, BitVec.ofInt_natCast, BitVec.ofNat_toNat, BitVec.setWidth_eq]

/-- A word whose high half is in range, and the low word, are the exact value together. -/
theorem high_low {p : Int} {hi lo : Word} (hhi : hi = BitVec.ofInt 64 (p / 2 ^ 64)) (hlo : lo = BitVec.ofInt 64 p)
    (hmin : -2 ^ 127 ≤ p) (hmax : p < 2 ^ 127) : hi.toInt * 2 ^ 64 + lo.toNat = p := by
  rw [hhi, hlo, BitVec.toInt_ofInt_eq_self (by decide) (by omega) (by omega), BitVec.toNat_ofInt]
  omega

theorem mulhu_mul (a b : Word) : (aluOp .mulhu a b).toNat * 2 ^ 64 + (aluOp .mul a b).toNat = a.toNat * b.toNat := by
  have hlt : a.toNat * b.toNat < 2 ^ 64 * 2 ^ 64 := Nat.mul_lt_mul'' a.isLt b.isLt
  simp only [aluOp, BitVec.toNat_ofNat, BitVec.toNat_mul]
  omega

theorem abs_toInt_le (a : Word) : |a.toInt| ≤ 2 ^ 63 := abs_le.mpr ⟨BitVec.le_toInt a, (BitVec.toInt_lt (x := a)).le⟩

theorem mulh_mul (a b : Word) : (aluOp .mulh a b).toInt * 2 ^ 64 + (aluOp .mul a b).toNat = a.toInt * b.toInt := by
  have hp : |a.toInt * b.toInt| ≤ 2 ^ 63 * 2 ^ 63 := by
    rw [abs_mul]
    exact mul_le_mul (abs_toInt_le a) (abs_toInt_le b) (abs_nonneg _) (by decide)
  obtain ⟨hmin, hmax⟩ := abs_le.mp hp
  exact high_low rfl (mul_eq_ofInt a b) (by omega) (by omega)

theorem mulhsu_mul (a b : Word) : (aluOp .mulhsu a b).toInt * 2 ^ 64 + (aluOp .mul a b).toNat = a.toInt * b.toNat := by
  have hb : (b.toNat : Int) < 2 ^ 64 := by have := b.isLt; omega
  have hmin : -2 ^ 63 * (b.toNat : Int) ≤ a.toInt * b.toNat := mul_le_mul_of_nonneg_right (BitVec.le_toInt a) (by omega)
  have hmax : a.toInt * b.toNat ≤ (2 ^ 63 - 1) * (b.toNat : Int) :=
    mul_le_mul_of_nonneg_right (Int.le_sub_one_of_lt BitVec.toInt_lt) (by omega)
  exact high_low rfl (mul_eq_ofInt_mixed a b) (by omega) (by omega)

/-! ### Shifts of words and AMO -/

theorem word_shifts (a b : BitVec 32) :
    (aluWOp .sllw a b).toNat = a.toNat * 2 ^ (b.toNat % 32) % 2 ^ 32 ∧ (aluWOp .srlw a b).toNat = a.toNat / 2 ^ (b.toNat % 32) ∧
      (aluWOp .sraw a b).toInt = a.toInt / 2 ^ (b.toNat % 32) := by
  refine ⟨?_, ?_, ?_⟩
  · rw [aluWOp, BitVec.toNat_shiftLeft, Nat.shiftLeft_eq]
  · rw [aluWOp, BitVec.toNat_ushiftRight, Nat.shiftRight_eq_div_pow]
  · rw [aluWOp, BitVec.toInt_sshiftRight, Int.shiftRight_eq_div_pow]
    norm_cast

/-- The integer that AMO's signed comparisons take is that of the bits. -/
theorem decodeInt_signed {t : ETag} {w a : Nat} (ht : t.isSigned = true) (hw : t.width = w + 1) (ha : a < 2 ^ (w + 1)) :
    decodeInt t a = (BitVec.ofNat (w + 1) a).toInt := by
  rw [decodeInt, hw, Nat.mod_eq_of_lt ha, BitVec.toInt_eq_msb_cond, BitVec.msb_eq_getLsbD_last, BitVec.getLsbD_ofNat,
    BitVec.toNat_ofNat, Nat.mod_eq_of_lt ha]
  simp [ht]

/-- The signed AMO choose the lesser and the greater of the two integers. -/
theorem amoNew_signed {t : ETag} {w a b : Nat} (hw : (if w = 64 then ETag.i64 else .i32) = t)
    (ha : decodeInt t a = (BitVec.ofNat w a).toInt) (hb : decodeInt t b = (BitVec.ofNat w b).toInt) :
    (BitVec.ofNat w (amoNew .min w a b)).toInt = min (BitVec.ofNat w a).toInt (BitVec.ofNat w b).toInt ∧
      (BitVec.ofNat w (amoNew .max w a b)).toInt = max (BitVec.ofNat w a).toInt (BitVec.ofNat w b).toInt := by
  simp only [amoNew, hw, ha, hb]
  constructor <;> split <;> omega

/-- Settles O17: the corners and exact values of division, the halves of a product, the forms on words, and AMO. -/
theorem scalarResults : Obligations.ScalarResults := by
  refine ⟨fun a b => ⟨division_by_zero a, division_exact a, division_overflow (by decide), mulhu_mul a b, mulh_mul a b,
    mulhsu_mul a b⟩, fun a b => ?_, fun w a b hw ha hb => ?_⟩
  · obtain ⟨hl, hr, hs⟩ := word_shifts a b
    refine ⟨rfl, rfl, rfl, ?_, ?_, hl, hr, hs, division_by_zero a, division_exact a, division_overflow (by decide)⟩
    · rw [aluWOp, BitVec.rotateLeft_def, Nat.mod_mod]
    · rw [aluWOp, BitVec.rotateRight_def, Nat.mod_mod]
  · refine ⟨rfl, rfl, rfl, rfl, rfl, ?_, ?_, ?_⟩
    · simp only [amoNew]; split <;> omega
    · simp only [amoNew]; split <;> omega
    · rcases hw with rfl | rfl
      · exact amoNew_signed rfl (decodeInt_signed rfl rfl ha) (decodeInt_signed rfl rfl hb)
      · exact amoNew_signed rfl (decodeInt_signed rfl rfl ha) (decodeInt_signed rfl rfl hb)

end Sys2Proof.Machine
end

section
/-!
PROOF. O18: reads of CSRs, those the strand may make and those it may not (R80, R81, R83, R84).
-/
namespace Sys2Proof.Machine

/-- A user-mode register is read in either mode. -/
theorem csrValue_user {s : State} {a : Nat} {v : Word} (h : userCsr s a = some v) : csrValue s a = some v := by
  simp [csrValue, h]

/-- An address at which neither list has a register. -/
theorem csrValue_none {s : State} {a : Nat} (hu : userCsr s a = none) (hs : s.hart.mode = .supervisor → superCsr s a = none) :
    csrValue s a = none := by
  rw [csrValue, hu]
  by_cases hm : s.hart.mode = .supervisor
  · simpa [hm] using hs hm
  · simp [hm]

/-- A read of a register uses a free value only where it is cycle (log 7). -/
theorem readCsr_ok {s : State} {a : Nat} {v : Word} (hv : csrValue s a = some v) :
    ∃ n, (a ≠ 0xC00 → n = s.free) ∧ readCsr a s = .ok v { s with free := n } := by
  by_cases ha : a = 0xC00
  · subst ha
    exact ⟨s.free + 1, fun h => absurd rfl h, by simp [readCsr, hv]⟩
  · exact ⟨s.free, fun _ => rfl, readCsr_some hv ha⟩

/-- The read instruction delivers the value that the register has. -/
theorem exec_csrRead {s : State} {csr : BitVec 12} {v : Word} (op : CsrOp) (imm : Bool) (rd : BitVec 5) (hp : s.hart.plain = true)
    (hv : csrValue s csr.toNat = some v) : ∃ n, (csr ≠ 0xC00#12 → n = s.free) ∧
      exec (.scalarInstruction (.csrRead csr op imm rd)) s = .next ({ s with free := n }.completes (s.hart.wx rd v)) := by
  obtain ⟨hit, he⟩ := (Strand.plain_iff _).mp hp
  obtain ⟨n, hn, hread⟩ := readCsr_ok hv
  refine ⟨n, fun hc => hn fun h => hc (BitVec.eq_of_toNat_eq h), ?_⟩
  have hbody : scalarOp (.csrRead csr op imm rd) s = .ok () ({ s with free := n }.withHart (s.hart.wx rd v)) := by
    simp [scalarOp, hread, writeX]
  refine (runInstr_ok hbody).trans ?_
  rw [retire_completes he (by simp [hit])]
  rfl

theorem exec_csrRead_none {s : State} {csr : BitVec 12} (op : CsrOp) (imm : Bool) (rd : BitVec 5)
    (hv : csrValue s csr.toNat = none) : exec (.scalarInstruction (.csrRead csr op imm rd)) s =
      .next (takeTrap 2 (instrBits (.scalarInstruction (.csrRead csr op imm rd))) s) :=
  runInstr_illegal (by simp [scalarOp, readCsr_none hv])

theorem counterOpen_iff (h : Strand) (i : Nat) :
    counterOpen h i = true ↔ h.mode = .supervisor ∨ h.csr.scounteren.getLsbD i = true := by
  simp [counterOpen]

theorem csrValue_counter {s : State} {a i : Nat} {v : Word} (ha : userCsr s a = if counterOpen s.hart i then some v else none)
    (ho : s.hart.mode = .supervisor ∨ s.hart.csr.scounteren.getLsbD i = true) : csrValue s a = some v :=
  csrValue_user (ha.trans (if_pos ((counterOpen_iff _ _).mpr ho)))

/-- A counter that is not open is not there: its address is no supervisor's register, and in supervisor mode it is open. -/
theorem csrValue_closed {s : State} {a i : Nat} {v : Word} (ha : userCsr s a = if counterOpen s.hart i then some v else none)
    (ho : ¬ (s.hart.mode = .supervisor ∨ s.hart.csr.scounteren.getLsbD i = true)) : csrValue s a = none :=
  csrValue_none (ha.trans (if_neg (mt (counterOpen_iff _ _).mp ho))) fun hm => absurd (.inl hm) ho

/-- The registers from 0xCD0 to 0xCDF are the granted shapes, eight of each slot (R81). -/
theorem userCsr_shape {s : State} {k m : Nat} (hk : k < 2) (hm : m < 8) : userCsr s (0xCD0 + 8 * k + m) =
    if k = s.hart.place.slot then some (s.hart.tshape.get ⟨m, hm⟩).word else none := by
  have hslot : (0xCD0 + 8 * k + m - 0xCD0) / 8 = k := by omega
  have htile : (0xCD0 + 8 * k + m - 0xCD0) % 8 = m := by omega
  unfold userCsr
  repeat rw [if_neg (by omega)]
  rw [if_pos (by omega)]
  simp only [hslot, htile]

theorem superCsr_shape {s : State} {a : Nat} (ha : 0xCD0 ≤ a ∧ a < 0xCE0) : superCsr s a = none := by
  unfold superCsr
  repeat rw [if_neg (by omega)]

/-- The supervisor's addresses are not user-mode registers. -/
theorem csrValue_supervisorOnly {s : State} {a : Nat} (hm : s.hart.mode = .user)
    (ha : a ∈ [0x100, 0x104, 0x105, 0x106, 0x10A, 0x140, 0x141, 0x142, 0x143, 0x144, 0x5C0, 0x5C1, 0x5C4, 0x5C5, 0x5C6, 0x5C7,
      0xDC0, 0xDC1]) : csrValue s a = none := by
  refine csrValue_denied hm ?_
  have hr : a < 0x800 ∨ a = 0xDC0 ∨ a = 0xDC1 := by
    simp only [List.mem_cons, List.not_mem_nil, or_false] at ha
    omega
  obtain h | rfl | rfl := hr
  · exact userCsr_none (.inl h)
  · rfl
  · rfl

/-- Settles O18: the instruction by readCsr, and each register's value by its place in the two lists. -/
theorem csrReadsComplete : Obligations.CsrReadsComplete := by
  intro s csr op imm rd hp
  refine ⟨fun v hv => exec_csrRead op imm rd hp hv, fun hv => exec_csrRead_none op imm rd hv,
    fun hm a ha => csrValue_supervisorOnly hm ha, csrValue_user rfl, csrValue_user rfl, csrValue_user rfl, ?_, fun k hk => ?_,
    fun m hslot => ⟨?_, ?_⟩, csrValue_counter rfl, csrValue_counter rfl, csrValue_closed rfl, csrValue_closed rfl,
    csrValue_closed rfl, fun hm => ⟨csrValue_supervisor hm rfl rfl, csrValue_supervisor hm rfl rfl⟩⟩
  · exact csrValue_user rfl
  · refine csrValue_user (show some (lpartWord s) = _ from ?_)
    rw [lpartWord, hk]
    rfl
  · exact csrValue_user ((userCsr_shape hslot m.isLt).trans (if_pos rfl))
  · exact csrValue_none ((userCsr_shape (by omega) m.isLt).trans (if_neg (by omega))) fun _ =>
      superCsr_shape (by omega)

end Sys2Proof.Machine
end

section
/-!
PROOF. O5: a compare writes the bits of kd of the active elements from vsta, one after the other (R75, R142).
-/
namespace Sys2Proof.Machine

/-! ### Bits of a mask register -/

theorem getLsbD_putBit {w : Nat} (v : BitVec w) {e : Nat} (b : Bool) (he : e < w) (i : Nat) :
    (putBit v e b).getLsbD i = if i = e then b else v.getLsbD i := by
  have hone : (BitVec.ofNat w (1 <<< e)).getLsbD i = (decide (i < w) && decide (i = e)) := by
    rw [BitVec.getLsbD_ofNat, Nat.one_shiftLeft, Nat.testBit_two_pow]
    simp [eq_comm]
  unfold putBit
  by_cases hi : i = e
  · subst hi
    cases b <;> simp [hone, he]
  · cases b <;> simp [hone, hi]
    exact BitVec.lt_of_getLsbD

/-- A bit of a mask register other than k0 after one bit of it is written. -/
theorem Strand.kbit_putKbit {h : Strand} {kd : BitVec 3} {e : Nat} (b : Bool) (hk : kd ≠ 0#3) (he : e < 16384) (i : Nat) :
    ((h.putKbit kd e b).k.get kd.toFin).getLsbD i = if i = e then b else (h.k.get kd.toFin).getLsbD i := by
  rw [Strand.putKbit, if_neg hk, ← getLsbD_putBit _ _ he]
  exact congrArg (·.getLsbD i) ((get_set h.k kd.toFin kd.toFin _).trans (if_pos rfl))

/-! ### What one compared element writes -/

/-- The effect of one element of a compare: its bit of kd, and its classes in emask. -/
def Strand.compared (kd : BitVec 3) (r : Nat → Bool × Cls) (e : Nat) (h : Strand) : Strand :=
  (h.storeKbit kd e (r e).1).flag e (r e).2

theorem compared_k {h : Strand} (hb : h.bad = []) (kd : BitVec 3) (r : Nat → Bool × Cls) (e : Nat) :
    (h.compared kd r e).k = (h.putKbit kd e (r e).1).k := by
  rw [Strand.compared, flag_frame, Strand.storeKbit, Strand.heal, if_pos (by simp [hb])]

theorem compared_frame {h : Strand} (hb : h.bad = []) (kd : BitVec 3) (r : Nat → Bool × Cls) (e : Nat) :
    h.compared kd r e = { h with k := (h.compared kd r e).k, emask := (h.compared kd r e).emask } := by
  rw [compared_k hb, Strand.compared, flag_frame, Strand.storeKbit, Strand.heal, if_pos (by simp [hb])]
  unfold Strand.putKbit
  split <;> rfl

theorem compared_emask {h : Strand} (hz : h.cls = 0) (kd : BitVec 3) (r : Nat → Bool × Cls) (e : Nat) :
    (h.compared kd r e).emask = h.emask := by
  rw [Strand.compared, flag_unselected (by simp [hz]), Strand.storeKbit_emask]

/-- The elements of a compare together: kd and emask alone change, kd in the bits of these elements. -/
theorem compared_each {kd : BitVec 3} {r : Nat → Bool × Cls} (es : List Nat) (hes : ∀ e ∈ es, e < 16384) :
    ∀ h : Strand, h.bad = [] → let k := foldH (Strand.compared kd r) es h
      k = { h with k := k.k, emask := k.emask } ∧ (h.cls = 0 → k.emask = h.emask) ∧ (kd = 0#3 → k.k = h.k) ∧
        (∀ q, q ≠ kd → k.k.get q.toFin = h.k.get q.toFin) ∧
        (kd ≠ 0#3 → ∀ i, (k.k.get kd.toFin).getLsbD i = if i ∈ es then (r i).1 else (h.k.get kd.toFin).getLsbD i) := by
  induction es with
  | nil => exact fun h _ => ⟨rfl, fun _ => rfl, fun _ => rfl, fun _ _ => rfl, fun _ _ => by simp⟩
  | cons e es ih =>
    intro h hb
    have he := hes e (List.mem_cons_self ..)
    have hframe := compared_frame hb kd r e
    have hk := compared_k hb kd r e
    have hem := compared_emask (h := h) (kd := kd) (r := r) (e := e)
    rw [foldH_cons]
    generalize h.compared kd r e = g at hframe hk hem
    obtain ⟨a, b, c, d, f⟩ := ih (fun e he => hes e (List.mem_cons_of_mem _ he)) g (by rw [hframe]; exact hb)
    refine ⟨a.trans (by rw [hframe]), fun hz => ?_, fun h0 => ?_, fun q hq => ?_, fun h0 i => ?_⟩
    · exact (b (by rw [hframe]; exact hz)).trans (hem hz)
    · rw [c h0, hk, h0, Strand.putKbit, if_pos rfl]
    · rw [d q hq, hk, Strand.k_putKbit_other _ _ _ hq]
    · rw [f h0 i, hk, Strand.kbit_putKbit _ h0 he]
      by_cases hi : i = e
      · subst hi; simp
      · simp [hi]

/-! ### The instructions -/

/-- No register holds more elements than a mask register has bits. -/
theorem cap_le {h : Strand} (hl : h.lown ≤ 256) (t : ETag) : h.cap t ≤ 16384 := by
  unfold Strand.cap
  cases t <;> simp only [ETag.width] <;> omega

/-- A compare whose operands have a common type completes. -/
theorem vaCmp_completes {i : Instr} {op : CmpOp} {km kd : BitVec 3} {a : BitVec 5} {b : Opnd} {s : State} {t : ETag}
    (hx : exec i s = runInstr i (vaCmp op km a b kd) s) (hc : s.calm = true) (hv : s.hart.mayVector = true)
    (hu : s.hart.unchained = true) (ht : commonType [s.hart.tag a, b.ty s.hart (s.hart.tag a)] = some t)
    (hf : s.hart.fits ((a :: b.regs).map s.hart.tag) = true) :
    ∃ h, exec i s = .next (s.completes h) ∧ s.hart.maskFrame h kd ∧
      (kd ≠ 0#3 → ∀ e, (h.k.get kd.toFin).getLsbD e = if s.hart.vsta ≤ e ∧ s.hart.active km e = true then
          (elemCmp op t (widen (s.hart.tag a) t (s.hart.elem a (s.hart.tag a).width e))
            (widen (b.ty s.hart (s.hart.tag a)) t (b.val s.hart (s.hart.tag a) e))).1
        else (s.hart.k.get kd.toFin).getLsbD e) := by
  obtain ⟨hhit, -, -, -, hbad, hstep⟩ := (calm_iff s).mp hc
  have hop : opType [s.hart.tag a, b.ty s.hart (s.hart.tag a)] s = .ok t s := by rw [opType, ht]; rfl
  have hfit : s.hart.fits [s.hart.tag a] = true := by
    simp only [List.map_cons, Strand.fits, List.all_cons, Bool.and_eq_true] at hf ⊢
    exact ⟨hf.1, rfl⟩
  have hlt : ∀ e ∈ s.hart.elements km, e < 16384 := fun e he =>
    Nat.lt_of_lt_of_le (elements_lt_fits hfit e he) (cap_le (mayVector_lown hv) _)
  have hbody : vaCmp op km a b kd s = .ok () (s.withHart { foldH (Strand.compared kd fun e =>
      elemCmp op t (widen (s.hart.tag a) t (s.hart.elem a (s.hart.tag a).width e))
        (widen (b.ty s.hart (s.hart.tag a)) t (b.val s.hart (s.hart.tag a) e))) (s.hart.elements km) s.hart with vsta := 0 }) := by
    simp only [vaCmp, run_bind, vecGate_ok hv, run_getH, hop, needCap_ok hf, needChains_free hu]
    exact elementLoop_steady_fold hc (fun e => badOf_none hbad _) fun e h => by simp
  obtain ⟨hframe, hem, hk0, hother, hbits⟩ := compared_each (kd := kd) (r := fun e =>
    elemCmp op t (widen (s.hart.tag a) t (s.hart.elem a (s.hart.tag a).width e))
      (widen (b.ty s.hart (s.hart.tag a)) t (b.val s.hart (s.hart.tag a) e))) (s.hart.elements km) hlt s.hart hbad
  refine ⟨_, hx.trans (completes_of_ok hstep hbody (by rw [hframe]; exact hhit)), ⟨by rw [hframe], hem, hk0, hother⟩, fun h0 e => ?_⟩
  simp only [← mem_elements]
  exact hbits h0 e

theorem exec_compareVV {f : (BitVec 3 → Bool → BitVec 5 → BitVec 5 → BitVec 3 → Instr) × CmpOp} (hf : f ∈ compareVV)
    (km kd : BitVec 3) (sc : Bool) (a b : BitVec 5) (s : State) :
    exec (f.1 km sc a b kd) s = runInstr (f.1 km sc a b kd) (vaCmp f.2 km a (vvOperands sc a b).2 kd) s := by
  simp only [compareVV, List.mem_cons, List.not_mem_nil, or_false] at hf
  rcases hf with rfl | rfl | rfl | rfl <;> rfl

theorem exec_compareVI {f : (BitVec 3 → BitVec 6 → BitVec 5 → BitVec 3 → Instr) × CmpOp} (hf : f ∈ compareVI)
    (km kd : BitVec 3) (imm : BitVec 6) (a : BitVec 5) (s : State) :
    exec (f.1 km imm a kd) s = runInstr (f.1 km imm a kd) (vaCmp f.2 km a (.imm imm) kd) s := by
  simp only [compareVI, List.mem_cons, List.not_mem_nil, or_false] at hf
  rcases hf with rfl | rfl | rfl | rfl <;> rfl

/-- Settles O5: the common type of the operands, then the loop over the bits of kd, for each operand form. -/
theorem comparesComplete : Obligations.ComparesComplete := by
  intro km kd a s t hc hv hu hfa
  refine ⟨fun f hf sc b ht hfb => ?_, fun f hf imm ht hn => ?_⟩
  · have hx := exec_compareVV hf km kd sc a b s
    cases sc
    · simp only [Bool.false_eq_true, if_false] at ht ⊢
      have hfab : s.hart.fits [s.hart.tag a, s.hart.tag b] = true := by
        have := hfb rfl
        simp only [Strand.fits, List.all_cons, List.all_nil, Bool.and_true, Bool.and_eq_true] at hfa this ⊢
        exact ⟨hfa, this⟩
      exact vaCmp_completes (b := .vec b) hx hc hv hu ht hfab
    · simp only [if_true] at ht ⊢
      exact vaCmp_completes (b := .scal b) hx hc hv hu ht hfa
  · subst ht
    exact vaCmp_completes (b := .imm imm) (exec_compareVI hf km kd imm a s) hc hv hu (commonType_self hn) hfa

end Sys2Proof.Machine
end

section
/-!
What a commit of the strip changes and what it does not read, and an instruction whose answer has come at once (R229, R231, R279).
-/
namespace Sys2Proof.Machine

/-! ### What writes at their homes change -/

/-- A state that writes at their homes lead to: memory with its poison and live regions, links, cached lines and pending hits. -/
def State.written (s u : State) : Prop :=
  u = { s with mem := u.mem, poison := u.poison, live := u.live, dcache := u.dcache, links := u.links, hart := u.hart, parked := u.parked }

theorem State.written.trans {s t u : State} (h₁ : s.written t) (h₂ : t.written u) : s.written u := Eq.trans h₂ (by rw [h₁])

section
variable {s u : State} (h : s.written u)
include h

theorem State.written.choices_eq : u.choices = s.choices := by rw [h]
theorem State.written.now_eq : u.now = s.now := by rw [h]
theorem State.written.launches_eq : u.launches = s.launches := by rw [h]
theorem State.written.lost_eq (pa : Nat) : lost u pa = lost s pa := by rw [h]; rfl

end

theorem homeWrite_written (a : Agent) (pa : Nat) (bs : List Byte) (s : State) : s.written (homeWrite a pa bs s) := by
  unfold homeWrite
  split
  · rfl
  · split <;> rfl

theorem performHeld_written (es : List Held) (s : State) : s.written (performHeld es s) := by
  have hfold {f : State → Nat × List Byte → State} (hf : ∀ r u, u.written (f u r)) (rs : List (Nat × List Byte)) (u : State) :
      u.written (rs.foldl f u) :=
    foldl_related (R := State.written) (fun _ => rfl) State.written.trans rs (fun r _ u => hf r u) u
  cases es with
  | nil => rfl
  | cons e es =>
    rw [performHeld]
    split
    · exact hfold (f := fun s r => { s with hart := s.hart.putSlice r.1 r.2 }) (fun _ _ => rfl) _ s
    · exact hfold (fun r u => homeWrite_written _ _ _ u) _ s

theorem committed_written (s : State) : s.written s.committed := by
  have h := foldl_related (R := State.written) (f := fun u es => performHeld es u) (fun _ => rfl) State.written.trans
    (heldAccesses s.hart.strip.buffer) (fun es _ u => performHeld_written es u)
    { s with hart := { s.hart with strip := { s.hart.strip with buffer := [] } } }
  exact State.written.trans (t := { s with hart := { s.hart with strip := { s.hart.strip with buffer := [] } } }) rfl
    (h.trans rfl)

/-- After a commit the strand holds nothing and its strip may not be rewound; its lane slices and pending hits may have changed. -/
theorem committed_hart (s : State) : s.committed.hart = { s.hart with
    strip := { s.hart.strip with buffer := [], rewindable := false }
    slices := s.committed.hart.slices, badSlice := s.committed.hart.badSlice, hits := s.committed.hart.hits } := by
  have h := foldl_related (f := fun u es => performHeld es u)
    (R := fun s u : State => u.hart = { s.hart with slices := u.hart.slices, badSlice := u.hart.badSlice, hits := u.hart.hits })
    (fun _ => rfl) (fun h₁ h₂ => Eq.trans h₂ (by rw [h₁])) (heldAccesses s.hart.strip.buffer)
    (fun es _ u => performHeld_hart es u) { s with hart := { s.hart with strip := { s.hart.strip with buffer := [] } } }
  unfold State.committed
  dsimp only [withHart_hart]
  rw [h]

/-- A commit of a strand that holds nothing in a strip that may not be rewound does nothing. -/
theorem committed_self {s : State} (hb : s.hart.strip.buffer = []) (hr : s.hart.strip.rewindable = false) : s.committed = s := by
  have hstrip : ({ s.hart.strip with buffer := [], rewindable := false } : Strip) = s.hart.strip := by rw [← hb, ← hr]
  calc s.committed = { s with hart := { s.hart with strip := { s.hart.strip with buffer := [], rewindable := false } } } := by
        simp only [State.committed, hb]; rfl
    _ = s := by rw [hstrip]

/-! ### What a commit does not read -/

/-- A change of the state that a write at its home does not see, and that leaves strand and memory, is not seen by a commit. -/
theorem committed_hom {f : State → State} (hw : ∀ a pa bs s, homeWrite a pa bs (f s) = f (homeWrite a pa bs s))
    (hh : ∀ s, (f s).hart = s.hart) (hm : ∀ s, (f s).mem = s.mem) (hk : ∀ s k, (f s).withHart k = f (s.withHart k)) (s : State) :
    (f s).committed = f s.committed := by
  have hperform (s : State) (es : List Held) : performHeld es (f s) = f (performHeld es s) := by
    cases es with
    | nil => rfl
    | cons e es =>
      simp only [performHeld, hh, hm]
      split
      · refine List.foldl_hom f fun s r => ?_
        show (f s).withHart ((f s).hart.putSlice r.1 r.2) = f (s.withHart (s.hart.putSlice r.1 r.2))
        rw [hh, hk]
      · exact List.foldl_hom f fun s r => by rw [hh, hw]
  have hstart := hk s { s.hart with strip := { s.hart.strip with buffer := [] } }
  simp only [State.committed, hh]
  rw [show ({ f s with hart := { s.hart with strip := { s.hart.strip with buffer := [] } } } : State) = _ from hstart,
    List.foldl_hom f fun s es => hperform s es, hh, hk]
  rfl

/-- A write to a lost home is discarded (R319, R366). -/
theorem homeWrite_lost {s : State} {pa : Nat} (hl : lost s pa = true) (a : Agent) (bs : List Byte) : homeWrite a pa bs s = s := by
  simp [homeWrite, hl]

/-- The state without the scalar data caches. -/
def State.uncached (s : State) : State := { s with dcache := [] }

/-- The state with the given outcomes to come. -/
def State.choosing (s : State) (cs : List Choice) : State := { s with choices := cs }

@[simp] theorem choosing_now (s : State) (cs : List Choice) : (s.choosing cs).now = s.now := rfl

theorem choosing_self {s : State} (hs : s.choices = []) (cs : List Choice) : (s.choosing cs).choosing [] = s := by
  cases s
  cases hs
  rfl

theorem committed_uncached (s : State) : s.uncached.committed = s.committed.uncached := by
  refine committed_hom (f := State.uncached) (fun a pa bs s => ?_) (fun _ => rfl) (fun _ => rfl) (fun _ _ => rfl) s
  by_cases hb : bs = []
  · simp only [homeWrite, if_pos hb]
  · by_cases hl : lost s pa = true
    · rw [homeWrite_lost hl, homeWrite_lost (show lost s.uncached pa = true from hl)]
    · simp only [homeWrite, if_neg hb, if_neg hl, if_neg (show ¬ lost s.uncached pa = true from hl)]
      cases a <;> rfl

theorem committed_choosing (s : State) (cs : List Choice) : (s.choosing cs).committed = s.committed.choosing cs := by
  refine committed_hom (f := fun s => s.choosing cs) (fun a pa bs s => ?_) (fun _ => rfl) (fun _ => rfl) (fun _ _ => rfl) s
  by_cases hb : bs = []
  · simp only [homeWrite, if_pos hb]
  · by_cases hl : lost s pa = true
    · rw [homeWrite_lost hl, homeWrite_lost (show lost (s.choosing cs) pa = true from hl)]
    · simp only [homeWrite, if_neg hb, if_neg hl, if_neg (show ¬ lost (s.choosing cs) pa = true from hl)]
      rfl

/-- But for cached lines a commit after a walk is a commit. -/
theorem committed_walked (s : State) (va : Nat) : (s.walked va none).committed.uncached = s.committed.uncached := by
  rw [← committed_uncached, ← committed_uncached]
  rfl

/-- What a read of a home answers does not depend on the caches. -/
theorem readsBad_uncached {s u : State} (h : s.uncached = u.uncached) (pa n : Nat) : readsBad s pa n = readsBad u pa n :=
  show readsBad s.uncached pa n = readsBad u.uncached pa n by rw [h]

/-! ### Answers that have come (R231) -/

/-- The strand with a wait on record, or with none. -/
def Strand.waiting (h : Strand) (w : Option PendingWait) : Strand := { h with wait := w }

/-- A register is written beside the wait. -/
theorem Strand.waiting_wx (h : Strand) (w : Option PendingWait) (r : BitVec 5) (v : Word) :
    (h.waiting w).wx r v = (h.wx r v).waiting w := by
  unfold Strand.wx
  split <;> rfl

/-- The wait on record is not in the state in which an instruction completes, nor in one that takes a trap. -/
theorem completes_waiting (s : State) (h : Strand) (w : Option PendingWait) : s.completes (h.waiting w) = s.completes h := rfl

theorem takeTrap_waiting (c : Nat) (v : Word) (s : State) (w : Option PendingWait) :
    takeTrap c v (s.withHart (s.hart.waiting w)) = takeTrap c v s := rfl

/-- The expiry of a wait: its deadline from now, clamped to the ceiling (R228). -/
theorem expiryOf_eq (d : Word) (s : State) :
    expiryOf d s = .ok (s.now + min d.toNat s.hart.wceil, decide (s.hart.wceil < d.toNat)) s := by
  simp only [expiryOf, run_bind, run_get, run_ite, run_pure]
  by_cases h : s.hart.wceil < d.toNat
  · rw [if_pos h, Nat.min_eq_right h.le, decide_eq_true h]
  · rw [if_neg h, Nat.min_eq_left (Nat.not_lt.mp h), decide_eq_false h]

/-- The wait that an instruction without a deadline operand puts on record. -/
def answerWait (s : State) (i : Instr) (v : Word) (token : Nat) (due : List (Nat × Nat × Cls)) : PendingWait :=
  ⟨i, s.now + min s.hart.wdef.toNat s.hart.wceil, decide (s.hart.wceil < s.hart.wdef.toNat), v, [], token, due⟩

/-- A wait is put on record. -/
theorem modH_answerWait (s : State) (i : Instr) (v : Word) (token : Nat) (due : List (Nat × Nat × Cls)) :
    modH (fun h => { h with wait := some ⟨i, s.now + min s.hart.wdef.toNat s.hart.wceil,
      decide (s.hart.wceil < s.hart.wdef.toNat), v, [], token, due⟩ }) s =
      .ok () (s.withHart (s.hart.waiting (some (answerWait s i v token due)))) := rfl

/-- An instruction whose answer has come goes on at once, with its wait on record. -/
theorem startWaitOn_answered {i : Instr} {v : Word} {token : Nat} {due : List (Nat × Nat × Cls)} {finish : M Unit} {s : State}
    (hs : s.choices = []) : startWaitOn i v token due (answerOps finish) s =
      finish (s.withHart (s.hart.waiting (some (answerWait s i v token due)))) := by
  have hanswer (h : Strand) : takeAnswer (s.withHart h) = .ok none (s.withHart h) := by simp [takeAnswer, hs]
  simp only [startWaitOn, answerOps, run_bind, run_getH, run_pure, expiryOf_eq, modH_answerWait, hanswer]
  cases finish (s.withHart (s.hart.waiting (some (answerWait s i v token due)))) <;> rfl

/-- Such a wait ends with WAIT_CEILING, clamped or not (R231). -/
theorem waitEnds_answer (finish : M Unit) (c : Bool) (s : State) :
    waitEnds (answerOps finish) c s = .error (.trap 27 s.hart.wdef none) s := by cases c <;> rfl

/-- One whose answer is late takes it as late, with its wait on record: it ends at once where its deadline is 0, and else is held. -/
theorem startWaitOn_late {i : Instr} {v : Word} {token n : Nat} {due : List (Nat × Nat × Cls)} {finish : M Unit} {s : State}
    {cs : List Choice} (hs : s.choices = .late n :: cs) : startWaitOn i v token due (answerOps finish) s =
      .error (if min s.hart.wdef.toNat s.hart.wceil = 0 then .trap 27 s.hart.wdef none else .hold)
        ((s.choosing cs).withHart (s.hart.waiting (some (answerWait s i v token due)))) := by
  have hattempt (h : Strand) : (answerOps finish).attempt (s.withHart h) = .ok false ((s.choosing cs).withHart h) := by
    simp only [answerOps, takeAnswer, run_bind, run_get, withHart_choices, hs]
    rfl
  have hdeadline : (answerOps finish).deadline s = .ok s.hart.wdef s := rfl
  simp only [startWaitOn, run_bind, hdeadline, expiryOf_eq, modH_answerWait, hattempt, Bool.false_eq_true, if_false, run_get]
  by_cases hd : min s.hart.wdef.toNat s.hart.wceil = 0
  · have hle : s.now + min s.hart.wdef.toNat s.hart.wceil ≤
        ((s.choosing cs).withHart (s.hart.waiting (some (answerWait s i v token due)))).now := by
      simp only [withHart_now, choosing_now]; omega
    rw [if_pos hle, if_pos hd, waitEnds_answer]
    rfl
  · have hlt : ¬ s.now + min s.hart.wdef.toNat s.hart.wceil ≤
        ((s.choosing cs).withHart (s.hart.waiting (some (answerWait s i v token due)))).now := by
      simp only [withHart_now, choosing_now]; omega
    rw [if_neg hlt, if_neg hd, run_throw]

/-- A late answer does not hold up the translation of an access. -/
theorem translateH_late {k : Access} {va n : Nat} {s : State} {r : Nat × Bool} {cs : List Choice} (hs : s.choices = .late n :: cs)
    (ht : translate s s.hart.root (s.hart.mode == .user) k va = .ok r) : translateH k va s = .ok r (s.walked va none) := by
  have hfills : takeFills s = .ok () s := by
    cases s
    cases hs
    rfl
  have hchoice : takeChoice s = .ok .fresh s := by simp [takeChoice, hs]
  simp [translateH, hfills, hchoice, ht]

end Sys2Proof.Machine
end

section
/-!
PROOF. O21: scalar loads and stores (R79, R87, R260, R262, R280 to R283, R367).
-/
namespace Sys2Proof.Machine

/-- What a scalar load does (R79). -/
def loadBody (op : LoadOp) (imm : BitVec 12) (rs1 rd : BitVec 5) : M Unit := do
  let va := scalarAddr (← getH) rs1 imm
  checkAddress .load va op.bytes
  let (pa, dev) ← translateH .load va
  if dev then do
    needCtlSize .load va pa op.bytes
    endRewind
    startWaitOn (.scalarLoad op imm rs1 rd) 0#64 pa (← pageOf va pa) (answerOps (finishLoad op imm rs1 rd))
  else do
    let v ← idemRead va pa op.bytes
    writeX rd (extendLoad op.signed op.bytes v)

theorem exec_scalarLoad (op : LoadOp) (imm : BitVec 12) (rs1 rd : BitVec 5) (s : State) :
    exec (.scalarLoad op imm rs1 rd) s = runInstr (.scalarLoad op imm rs1 rd) (loadBody op imm rs1 rd) s := rfl

theorem exec_scalarStore (op : StoreOp) (imm : BitVec 12) (rs2 rs1 : BitVec 5) (s : State) :
    exec (.scalarStore op imm rs2 rs1) s = runInstr (.scalarStore op imm rs2 rs1)
      (do let h ← getH
          scalarWrite (scalarAddr h rs1 imm) op.bytes ((h.rx rs2).toNat % 2 ^ (8 * op.bytes))) s := rfl

/-! ### Loads of idempotent class -/

/-- A load through the data cache that meets no uncorrectable word takes the strand's own view (R87, R280). -/
theorem idemRead_ok {s : State} {va pa n : Nat} (hs : s.choices = []) (hw : s.hart.unwatched = true) (hp : pa < ctlBase)
    (hg : s.ownGood pa n = true) : idemRead va pa n s = .ok (s.ownValue pa n) (s.withoutLines pa n) := by
  have hd : dropDcache pa n s = .ok () (s.withoutLines pa n) := rfl
  have hn := noteAccess_unwatched (s := s.withoutLines pa n) hw false va n
  simp only [idemRead, cachedLoad, run_bind, if_neg (Nat.not_le.mpr hp), run_pure, takeChoice_none hs, run_get, reduceCtorEq,
    if_false, ownBytes_good hg, hd, hn]
  rfl

/-- One that meets an uncorrectable word consumes it (R282). -/
theorem ownBytes_bad {s : State} {pa n : Nat} (hg : s.ownGood pa n = false) (va : Nat) :
    ownBytes pa n va s = .error (.ue (BitVec.ofNat 64 va) none) (suspectRead pa n s) := by
  have h : ((rangeFrom pa n).any fun a => !coveredByte s.hart.strip.buffer false a && readsBad s a 1) = true := by
    rw [← Bool.not_eq_false', List.not_any_eq_all_not]
    simpa [State.ownGood] using hg
  simp only [ownBytes, run_bind, run_get, h, if_true, run_set, run_throw]

theorem idemRead_bad {s : State} {va pa n : Nat} (hs : s.choices = []) (hp : pa < ctlBase)
    (hg : s.ownGood pa n = false) :
    idemRead va pa n s = .error (.ue (BitVec.ofNat 64 va) none) (suspectRead pa n s) := by
  simp only [idemRead, cachedLoad, run_bind, if_neg (Nat.not_le.mpr hp), takeChoice_none hs, run_get, reduceCtorEq,
    if_false, ownBytes_bad hg]

theorem loadBody_idem {s : State} {op : LoadOp} {imm : BitVec 12} {rs1 rd : BitVec 5} {pa : Nat} (hc : s.calm = true)
    (hr : s.reaches .load (scalarAddr s.hart rs1 imm) op.bytes pa = true) (hg : s.ownGood pa op.bytes = true) :
    loadBody op imm rs1 rd s = .ok () (((s.walked (scalarAddr s.hart rs1 imm) none).withoutLines pa op.bytes).withHart
      (s.hart.wx rd (extendLoad op.signed op.bytes (s.ownValue pa op.bytes)))) := by
  obtain ⟨-, hw, hs, -⟩ := (calm_iff s).mp hc
  obtain ⟨hcan, hal, hlow, htr⟩ := reaches_iff.mp hr
  have hread := idemRead_ok (s := s.walked (scalarAddr s.hart rs1 imm) none) (va := scalarAddr s.hart rs1 imm) hs hw hlow hg
  simp only [loadBody, run_bind, run_getH, checkAddress_ok hcan hal, translateH_ok hs htr, Bool.false_eq_true, if_false, hread,
    writeX, run_modH]
  rfl

theorem loadBody_bad {s : State} {op : LoadOp} {imm : BitVec 12} {rs1 rd : BitVec 5} {pa : Nat} (hc : s.calm = true)
    (hr : s.reaches .load (scalarAddr s.hart rs1 imm) op.bytes pa = true) (hg : s.ownGood pa op.bytes = false) :
    loadBody op imm rs1 rd s = .error (.ue (BitVec.ofNat 64 (scalarAddr s.hart rs1 imm)) none)
      (suspectRead pa op.bytes (s.walked (scalarAddr s.hart rs1 imm) none)) := by
  obtain ⟨-, -, hs, -⟩ := (calm_iff s).mp hc
  obtain ⟨hcan, hal, hlow, htr⟩ := reaches_iff.mp hr
  have hread := idemRead_bad (s := s.walked (scalarAddr s.hart rs1 imm) none) (va := scalarAddr s.hart rs1 imm) hs hlow hg
  simp only [loadBody, run_bind, run_getH, checkAddress_ok hcan hal, translateH_ok hs htr, Bool.false_eq_true, if_false, hread]

/-! ### Loads of device class -/

theorem needCtlSize_ok {s : State} {k : Access} {va pa n : Nat} (h : ctlBase ≤ pa → n = 8) : needCtlSize k va pa n s = .ok () s := by
  have : ¬ (ctlBase ≤ pa ∧ n ≠ 8) := fun ⟨hp, hn⟩ => hn (h hp)
  simp only [needCtlSize, if_neg this, run_pure]

theorem needCtlSize_refused {s : State} {k : Access} {va pa n : Nat} (hp : ctlBase ≤ pa) (hn : n ≠ 8) :
    needCtlSize k va pa n s = .error (.trap (accessCause k) (BitVec.ofNat 64 va) none) s := by
  simp only [needCtlSize, if_pos (And.intro hp hn), run_raise]

/-- The value that a read of device class takes at its place (R260, R367). -/
def State.deviceValue (s : State) (pa n : Nat) : Nat :=
  if ctlBase ≤ pa then (ctlRead s ((pa - ctlBase) / 2 ^ 16) (pa % 2 ^ 16)).toNat else homeRead s pa n

theorem deviceValue_uncached {s u : State} (h : s.uncached = u.uncached) (pa n : Nat) : s.deviceValue pa n = u.deviceValue pa n :=
  show s.uncached.deviceValue pa n = u.uncached.deviceValue pa n by rw [h]

/-- A read of device class by a strand whose strip is committed. -/
theorem deviceRead_ok {s : State} {va pa n : Nat} (hbad : s.hart.bad = []) (hb : s.hart.strip.buffer = [])
    (hr : s.hart.strip.rewindable = false) (hn : ctlBase ≤ pa → n = 8) (hg : pa < ctlBase → readsBad s pa n = false) :
    deviceRead va pa n s = .ok (s.deviceValue pa n) (s.withoutLines pa n) := by
  have hd : dropDcache pa n s = .ok () (s.withoutLines pa n) := rfl
  simp only [deviceRead, run_bind, needCtlSize_ok hn, endRewind_ok hbad, committed_self hb hr, hd, run_get, State.deviceValue]
  by_cases hp : ctlBase ≤ pa
  · simp only [if_pos hp]; rfl
  · have hgood : readsBad (s.withoutLines pa n) pa n = false := hg (Nat.not_le.mp hp)
    simp only [if_neg hp, hgood]; rfl

/-- What a load of device class does when its data comes, its wait on record. -/
theorem finishLoad_ok {s t : State} {op : LoadOp} {imm : BitVec 12} {rs1 rd : BitVec 5} {pa : Nat} {w : PendingWait}
    (hc : s.calm = true) (ht : t.uncached = s.committed.uncached) (hhart : s.hart.storing t.hart)
    (hb : t.hart.strip.buffer = []) (hr : t.hart.strip.rewindable = false) (htok : w.token = pa)
    (hn : ctlBase ≤ pa → op.bytes = 8) (hg : pa < ctlBase → readsBad s.committed pa op.bytes = false) :
    finishLoad op imm rs1 rd (t.withHart (t.hart.waiting (some w))) =
      .ok () ((t.withoutLines pa op.bytes).withHart ((t.hart.wx rd (extendLoad op.signed op.bytes
        (s.committed.deviceValue pa op.bytes))).waiting (some w))) := by
  obtain ⟨-, hw, -, -, hbad, -⟩ := (calm_iff s).mp hc
  have hgood (hp : pa < ctlBase) : readsBad t pa op.bytes = false := (readsBad_uncached ht _ _).trans (hg hp)
  have hread (va : Nat) := deviceRead_ok (s := t.withHart (t.hart.waiting (some w))) (va := va) (hhart.bad_eq.trans hbad) hb hr hn hgood
  have hnote (va : Nat) := noteAccess_unwatched (s := (t.withHart (t.hart.waiting (some w))).withoutLines pa op.bytes)
    (hhart.unwatched_eq.trans hw) false va op.bytes
  have hwait : (t.hart.waiting (some w)).wait = some w := rfl
  simp only [finishLoad, run_bind, run_getH, getWait, withHart_hart, hwait, run_pure, Option.map_some, Option.getD_some, htok, hread, hnote,
    writeX, run_modH]
  rw [← deviceValue_uncached ht, ← Strand.waiting_wx]
  rfl

/-- A load of device class whose answer has come completes with the value at its place (R260). -/
theorem loadBody_device {s : State} {op : LoadOp} {imm : BitVec 12} {rs1 rd : BitVec 5} {pa : Nat} (hc : s.calm = true)
    (hcan : canonical (scalarAddr s.hart rs1 imm) = true) (hal : scalarAddr s.hart rs1 imm % op.bytes = 0)
    (htr : translate s s.hart.root (s.hart.mode == .user) .load (scalarAddr s.hart rs1 imm) = .ok (pa, true))
    (hn : ctlBase ≤ pa → op.bytes = 8) (hg : pa < ctlBase → readsBad s.committed pa op.bytes = false) :
    let u := (s.walked (scalarAddr s.hart rs1 imm) none).committed.withoutLines pa op.bytes
    ∃ w, loadBody op imm rs1 rd s = .ok () (u.withHart ((u.hart.wx rd (extendLoad op.signed op.bytes
      (s.committed.deviceValue pa op.bytes))).waiting (some w))) := by
  obtain ⟨-, -, hs, -, hbad, -⟩ := (calm_iff s).mp hc
  have hz : (s.walked (scalarAddr s.hart rs1 imm) none).hart.bad = [] := hbad
  have hstrip := congrArg Strand.strip (committed_hart (s.walked (scalarAddr s.hart rs1 imm) none))
  have hchoices := (committed_written (s.walked (scalarAddr s.hart rs1 imm) none)).choices_eq.trans hs
  have hfinish (w : PendingWait) (htok : w.token = pa) := finishLoad_ok (imm := imm) (rs1 := rs1) (rd := rd) hc
    (committed_walked s (scalarAddr s.hart rs1 imm)) (committed_storing (s.walked (scalarAddr s.hart rs1 imm) none))
    (by rw [hstrip]) (by rw [hstrip]) htok hn hg
  refine ⟨answerWait (s.walked (scalarAddr s.hart rs1 imm) none).committed (.scalarLoad op imm rs1 rd) 0#64 pa
    [(pageSpan (s.walked (scalarAddr s.hart rs1 imm) none).committed (scalarAddr s.hart rs1 imm) pa, 0, 0#6)], ?_⟩
  simp only [loadBody, run_bind, run_getH, checkAddress_ok hcan hal, translateH_ok hs htr, if_true, needCtlSize_ok hn,
    endRewind_ok hz, pageOf, run_get, run_pure, startWaitOn_answered hchoices]
  exact hfinish _ rfl

/-- One whose answer is late commits the strip, and then ends at once or is held, as its deadline says (R231). -/
theorem loadBody_late {s : State} {op : LoadOp} {imm : BitVec 12} {rs1 rd : BitVec 5} {pa : Nat} (hc : s.calm = true)
    (hcan : canonical (scalarAddr s.hart rs1 imm) = true) (hal : scalarAddr s.hart rs1 imm % op.bytes = 0)
    (htr : translate s s.hart.root (s.hart.mode == .user) .load (scalarAddr s.hart rs1 imm) = .ok (pa, true)) (hp : pa < ctlBase) :
    let u := (s.walked (scalarAddr s.hart rs1 imm) none).committed
    let d := min s.hart.wdef.toNat s.hart.wceil
    ∃ w : PendingWait, w.instr = .scalarLoad op imm rs1 rd ∧ w.expiry = s.now + d ∧
      loadBody op imm rs1 rd (s.choosing [.late 0]) =
        .error (if d = 0 then .trap 27 s.hart.wdef none else .hold) (u.withHart (u.hart.waiting (some w))) := by
  obtain ⟨-, -, hs, -, hbad, -⟩ := (calm_iff s).mp hc
  intro u d
  have hcommit : ((s.choosing [.late 0]).walked (scalarAddr s.hart rs1 imm) none).committed = u.choosing [.late 0] :=
    committed_choosing (s.walked (scalarAddr s.hart rs1 imm) none) [.late 0]
  have hself : (u.choosing [.late 0]).choosing [] = u := 
    choosing_self ((committed_written (s.walked (scalarAddr s.hart rs1 imm) none)).choices_eq.trans hs) _
  have hdefs : u.hart.wdef = s.hart.wdef ∧ u.hart.wceil = s.hart.wceil := by
    rw [show u.hart = _ from committed_hart (s.walked (scalarAddr s.hart rs1 imm) none)]
    exact ⟨rfl, rfl⟩
  have hend : endRewind ((s.choosing [.late 0]).walked (scalarAddr s.hart rs1 imm) none) = .ok () (u.choosing [.late 0]) :=
    hcommit ▸ endRewind_ok (s := (s.choosing [.late 0]).walked (scalarAddr s.hart rs1 imm) none) hbad
  have hcheck : checkAddress .load (scalarAddr s.hart rs1 imm) op.bytes (s.choosing [.late 0]) = _ := checkAddress_ok hcan hal
  have htrans : translateH .load (scalarAddr s.hart rs1 imm) (s.choosing [.late 0]) = _ :=
    translateH_late (s := s.choosing [.late 0]) rfl htr
  refine ⟨answerWait (u.choosing [.late 0]) (.scalarLoad op imm rs1 rd) 0#64 pa
    [(pageSpan (u.choosing [.late 0]) (scalarAddr s.hart rs1 imm) pa, 0, 0#6)], rfl, ?_, ?_⟩
  · show u.now + min u.hart.wdef.toNat u.hart.wceil = _
    rw [hdefs.1, hdefs.2, (committed_written (s.walked (scalarAddr s.hart rs1 imm) none)).now_eq]
    rfl
  · have hn : ctlBase ≤ pa → op.bytes = 8 := fun h => absurd hp (Nat.not_lt.mpr h)
    simp only [loadBody, run_bind, run_getH, show (s.choosing [.late 0]).hart = s.hart from rfl, hcheck, htrans, if_true,
      needCtlSize_ok hn, hend, pageOf, run_get, run_pure, startWaitOn_late (s := u.choosing [.late 0]) rfl, hself]
    show EStateM.Result.error (if min u.hart.wdef.toNat u.hart.wceil = 0 then Stop.trap 27 u.hart.wdef none else Stop.hold) _ = _
    rw [hdefs.1, hdefs.2]
    rfl

/-! ### Consumed errors (R282, R283) -/

/-- Where the strip may not be rewound a consumed error is the trap CONSUMED_UE, or ends the strand for a replay. -/
theorem consumeUE_kept {s : State} (tval : Word) (h : s.hart.mode = .supervisor ∨ s.hart.strip.rewindable = false) :
    consumeUE tval none s = if replayable s then endForReplay s else takeTrap 28 tval s := by
  have hno : ¬ (s.hart.mode = .user ∧ s.hart.strip.rewindable = true) := by
    rintro ⟨hm, hr⟩
    rcases h with h | h
    · rw [hm] at h; cases h
    · rw [hr] at h; cases h
  simp only [consumeUE, if_neg hno]

/-- A first consumed error of a strip that may be rewound rewinds it, with an entry of the log. -/
theorem consumeUE_rewinds {s : State} {cp : Checkpoint} (tval : Word) (hm : s.hart.mode = .user)
    (hr : s.hart.strip.rewindable = true) (hcp : s.hart.strip.checkpoint = some cp) (h0 : s.hart.strip.rewinds = 0) :
    consumeUE tval none s = rasLog 9 (coreLoc s.hart.place 0 0) 0 (s.withHart (rewindTo cp s.hart)) := by
  simp only [consumeUE, if_pos (And.intro hm hr), hcp, if_pos h0]
  rfl

/-- The x registers that the checkpoint names come back, from a list of them. -/
theorem restore_each (cp : Checkpoint) (is : List Nat) (j : Fin 32) : ∀ x : Vector Word 32,
    (is.foldl (fun x i => if h : i < 32 then (if cp.xmask.getLsbD i then x.set i (cp.x.get ⟨i, h⟩) else x) else x) x).get j =
      if j.1 ∈ is ∧ cp.xmask.getLsbD j = true then cp.x.get j else x.get j := by
  induction is with
  | nil => exact fun x => by simp
  | cons i is ih =>
    intro x
    rw [List.foldl_cons, ih]
    by_cases hij : j.1 = i
    · subst hij
      rw [dif_pos j.2]
      by_cases hm : cp.xmask.getLsbD j = true
      · have hset : (x.set j.1 (cp.x.get j) j.2).get j = cp.x.get j := (get_set x j j _).trans (if_pos rfl)
        rw [if_pos hm, hset, ite_self, if_pos ⟨List.mem_cons_self .., hm⟩]
      · rw [if_neg hm, if_neg fun h => hm h.2, if_neg fun h => hm h.2]
    · have hne : (if h : i < 32 then (if cp.xmask.getLsbD i then x.set i (cp.x.get ⟨i, h⟩) else x) else x).get j = x.get j := by
        split
        case isTrue h =>
          split
          · exact (get_set x ⟨i, h⟩ j _).trans (if_neg fun e => hij (congrArg Fin.val e))
          · rfl
        case isFalse => rfl
      rw [hne]
      simp [hij]

/-- A register after a rewind: what the checkpoint holds where it names it, else as it was (R82, R282). -/
theorem rewindTo_rx (cp : Checkpoint) (h : Strand) {r : BitVec 5} (hr : r ≠ 0#5) :
    (rewindTo cp h).rx r = if cp.xmask.getLsbD r.toNat then cp.x.get r.toFin else h.rx r := by
  have hmem : r.toFin.1 ∈ rangeFrom 1 31 := by
    rw [mem_rangeFrom]
    have h0 : r.toNat ≠ 0 := fun h => hr (BitVec.eq_of_toNat_eq h)
    have := r.isLt
    exact ⟨by simp only [BitVec.val_toFin]; omega, by simp only [BitVec.val_toFin]; omega⟩
  have hget := restore_each cp (rangeFrom 1 31) r.toFin h.x
  simp only [hmem, true_and] at hget
  simp only [Strand.rx, if_neg hr]
  exact hget

/-! ### Stores -/

/-- A store that reaches memory of idempotent class is held or performed (R280). -/
theorem scalarWrite_idem {s : State} {va pa n v : Nat} (hc : s.calm = true) (hr : s.reaches .store va n pa = true) :
    scalarWrite va n v s = .ok () ((s.walked va none).stored va (heldOf false pa (toBytes n v))) := by
  obtain ⟨-, hw, hs, -, hbad, -⟩ := (calm_iff s).mp hc
  obtain ⟨hcan, hal, hlow, htr⟩ := reaches_iff.mp hr
  have hstore := holdOrPerform_ok (s := s.walked va none) hbad va (heldOf false pa (toBytes n v))
  have hnote := noteAccess_unwatched (s := (s.walked va none).stored va (heldOf false pa (toBytes n v)))
    ((stored_storing (s.walked va none) va _).unwatched_eq.trans hw) true va n
  simp only [scalarWrite, run_bind, checkAddress_ok hcan hal, translateH_ok hs htr, Bool.false_eq_true, if_false,
    if_neg (Nat.not_le.mpr hlow), hstore, hnote]

/-- The write of a store of device class: at the home, or of a register of a stack's control space (R260, R367). -/
def State.deviceStored (s : State) (a : Agent) (pa n v : Nat) : State :=
  if ctlBase ≤ pa then ctlWrite a ((pa - ctlBase) / 2 ^ 16) (pa % 2 ^ 16) (BitVec.ofNat 64 v) s
  else homeWrite a pa (toBytes n v) s

theorem Strand.storing_of_hits {k h : Strand} (e : h = { k with hits := h.hits }) : k.storing h := by
  generalize h.hits = x at e
  subst e
  rfl

/-- A write of a control register leaves of the running strand all but its pending hits. -/
theorem ctlWrite_storing (a : Agent) (k off : Nat) (v : Word) (s : State) :
    s.hart.storing (ctlWrite a k off v s).hart := by
  have hwatch (u : State) : u.hart.storing (ctlWatched a k off u).hart :=
    Strand.storing_of_hits (Strand.watchWrite_eq ..)
  unfold ctlWrite
  refine Strand.storing.trans ?_ (hwatch _)
  split
  · unfold ctlWmark; dsimp only; split <;> rfl
  · split
    · rfl
    · split
      · unfold ctlElide
        split
        · exact Strand.storing_of_hits (Strand.watchWrite_eq ..)
        · rfl
      · rfl

theorem deviceStored_storing (s : State) (a : Agent) (pa n v : Nat) : s.hart.storing (s.deviceStored a pa n v).hart := by
  unfold State.deviceStored
  split
  · exact ctlWrite_storing ..
  · exact Strand.storing_of_hits (homeWrite_hart ..)

/-- A store of device class commits the strip, and then writes at its place. -/
theorem scalarWrite_device {s : State} {va pa n v : Nat} (hc : s.calm = true) (hcan : canonical va = true) (hal : va % n = 0)
    (htr : translate s s.hart.root (s.hart.mode == .user) .store va = .ok (pa, true)) (hn : ctlBase ≤ pa → n = 8) :
    scalarWrite va n v s = .ok () ((s.walked va none).committed.deviceStored s.hart.agent pa n v) := by
  obtain ⟨-, hw, hs, -, hbad, -⟩ := (calm_iff s).mp hc
  have hend := endRewind_ok (s := s.walked va none) hbad
  have hagent : (s.walked va none).committed.hart.agent = s.hart.agent := by rw [committed_hart]; rfl
  have hnote := noteAccess_unwatched (s := (s.walked va none).committed.deviceStored s.hart.agent pa n v)
    (((committed_storing (s.walked va none)).trans (deviceStored_storing ..)).unwatched_eq.trans hw) true va n
  have hwrite : deviceWrite va pa n v (s.walked va none) = .ok () ((s.walked va none).committed.deviceStored s.hart.agent pa n v) := by
    simp only [deviceWrite, run_bind, needCtlSize_ok hn, hend, run_getH, hagent, State.deviceStored]
    split <;> rfl
  simp only [scalarWrite, run_bind, checkAddress_ok hcan hal, translateH_ok hs htr, if_true, hwrite, hnote]

/-- One of another size than 8 in the control space of a stack is an access fault (R367). -/
theorem scalarWrite_refused {s : State} {va pa n v : Nat} (hs : s.choices = []) (hcan : canonical va = true) (hal : va % n = 0)
    (htr : translate s s.hart.root (s.hart.mode == .user) .store va = .ok (pa, true)) (hp : ctlBase ≤ pa) (hn : n ≠ 8) :
    scalarWrite va n v s = .error (.trap 7 (BitVec.ofNat 64 va) none) (s.walked va none) := by
  simp only [scalarWrite, run_bind, checkAddress_ok hcan hal, translateH_ok hs htr, if_true, deviceWrite,
    needCtlSize_refused hp hn, accessCause]

/-! ### The instructions -/

/-- A scalar access whose address is refused traps before it reads or writes anything. -/
theorem loadBody_unchecked {s : State} {op : LoadOp} {imm : BitVec 12} {rs1 rd : BitVec 5} {e : Stop} {t : State}
    (h : checkAddress .load (scalarAddr s.hart rs1 imm) op.bytes s = .error e t) : loadBody op imm rs1 rd s = .error e t := by
  simp only [loadBody, run_bind, run_getH, h]

theorem loadBody_untranslated {s : State} {op : LoadOp} {imm : BitVec 12} {rs1 rd : BitVec 5} {e : Stop} {t : State}
    (hcan : canonical (scalarAddr s.hart rs1 imm) = true) (hal : scalarAddr s.hart rs1 imm % op.bytes = 0)
    (h : translateH .load (scalarAddr s.hart rs1 imm) s = .error e t) : loadBody op imm rs1 rd s = .error e t := by
  simp only [loadBody, run_bind, run_getH, checkAddress_ok hcan hal, h]

theorem loadBody_refused {s : State} {op : LoadOp} {imm : BitVec 12} {rs1 rd : BitVec 5} {pa : Nat} (hs : s.choices = [])
    (hcan : canonical (scalarAddr s.hart rs1 imm) = true) (hal : scalarAddr s.hart rs1 imm % op.bytes = 0)
    (htr : translate s s.hart.root (s.hart.mode == .user) .load (scalarAddr s.hart rs1 imm) = .ok (pa, true))
    (hp : ctlBase ≤ pa) (hn : op.bytes ≠ 8) : loadBody op imm rs1 rd s =
      .error (.trap 5 (BitVec.ofNat 64 (scalarAddr s.hart rs1 imm)) none) (s.walked (scalarAddr s.hart rs1 imm) none) := by
  simp only [loadBody, run_bind, run_getH, checkAddress_ok hcan hal, translateH_ok hs htr, if_true, needCtlSize_refused hp hn,
    accessCause]

theorem scalarWrite_unchecked {s : State} {va n v : Nat} {e : Stop} {t : State} (h : checkAddress .store va n s = .error e t) :
    scalarWrite va n v s = .error e t := by
  simp only [scalarWrite, run_bind, h]

theorem scalarWrite_untranslated {s : State} {va n v : Nat} {e : Stop} {t : State} (hcan : canonical va = true) (hal : va % n = 0)
    (h : translateH .store va s = .error e t) : scalarWrite va n v s = .error e t := by
  simp only [scalarWrite, run_bind, checkAddress_ok hcan hal, h]

/-- A doubleword needs no extension. -/
theorem extendLoad_word (signed : Bool) (v : Word) : extendLoad signed 8 v.toNat = v := by
  unfold extendLoad
  split
  · apply BitVec.eq_of_toNat_eq
    rw [BitVec.toNat_ofInt]
    have := v.isLt
    omega
  · rw [BitVec.ofNat_toNat, BitVec.setWidth_eq]

section
variable {s : State} {op : LoadOp} {imm : BitVec 12} {rs1 rd : BitVec 5} {pa : Nat} (hc : s.calm = true)
  (hcan : canonical (scalarAddr s.hart rs1 imm) = true) (hal : scalarAddr s.hart rs1 imm % op.bytes = 0)
  (htr : translate s s.hart.root (s.hart.mode == .user) .load (scalarAddr s.hart rs1 imm) = .ok (pa, true))
include hc hcan hal htr

/-- A load of device class completes with the value at its place. -/
theorem exec_deviceLoad (hn : ctlBase ≤ pa → op.bytes = 8) (hg : pa < ctlBase → readsBad s.committed pa op.bytes = false) :
    let u := (s.walked (scalarAddr s.hart rs1 imm) none).committed.withoutLines pa op.bytes
    exec (.scalarLoad op imm rs1 rd) s = .next (u.completes (u.hart.wx rd (extendLoad op.signed op.bytes
      (s.committed.deviceValue pa op.bytes)))) := by
  obtain ⟨hhit, -, -, -, -, he⟩ := (calm_iff s).mp hc
  obtain ⟨w, hbody⟩ := loadBody_device (rd := rd) hc hcan hal htr hn hg
  have hkept := (committed_storing (s.walked (scalarAddr s.hart rs1 imm) none)).hit_eq
  intro u
  rw [exec_scalarLoad, runInstr_ok hbody, retire_completes he (by simpa [Strand.waiting, State.withoutLines, hkept] using hhit)]
  rfl

/-- One whose answer is late ends with WAIT_CEILING at a deadline of 0, and waits at any other. -/
theorem exec_deviceLoad_late (hp : pa < ctlBase) :
    let d := min s.hart.wdef.toNat s.hart.wceil
    let u := (s.walked (scalarAddr s.hart rs1 imm) none).committed
    (d = 0 → exec (.scalarLoad op imm rs1 rd) (s.choosing [.late 0]) = .next (takeTrap 27 s.hart.wdef u)) ∧
      (0 < d → ∃ w, exec (.scalarLoad op imm rs1 rd) (s.choosing [.late 0]) = .next (u.withHart { u.hart with wait := some w }) ∧
        w.instr = .scalarLoad op imm rs1 rd ∧ w.expiry = s.now + d) := by
  obtain ⟨w, hinstr, hexp, hbody⟩ := loadBody_late (rd := rd) hc hcan hal htr hp
  intro d u
  constructor
  · intro hd
    rw [if_pos hd] at hbody
    rw [exec_scalarLoad, runInstr_trap hbody, takeTrap_waiting]
  · intro hd
    rw [if_neg (Nat.pos_iff_ne_zero.mp hd)] at hbody
    exact ⟨w, by rw [exec_scalarLoad, runInstr_hold hbody rfl]; rfl, hinstr, hexp⟩

end

/-- A load that meets an uncorrectable word consumes it. -/
theorem exec_badLoad {s : State} {op : LoadOp} {imm : BitVec 12} {rs1 rd : BitVec 5} {pa : Nat} (hc : s.calm = true)
    (hr : s.reaches .load (scalarAddr s.hart rs1 imm) op.bytes pa = true) (hg : s.ownGood pa op.bytes = false) :
    exec (.scalarLoad op imm rs1 rd) s = .next (consumeUE (BitVec.ofNat 64 (scalarAddr s.hart rs1 imm)) none
      (suspectRead pa op.bytes (s.walked (scalarAddr s.hart rs1 imm) none))) := by
  rw [exec_scalarLoad, runInstr, loadBody_bad hc hr hg]

/-- In a strip that may not be rewound it traps, or ends the strand for a replay (R283). -/
theorem exec_badLoad_kept {s : State} {op : LoadOp} {imm : BitVec 12} {rs1 rd : BitVec 5} {pa : Nat} (hc : s.calm = true)
    (hr : s.reaches .load (scalarAddr s.hart rs1 imm) op.bytes pa = true) (hg : s.ownGood pa op.bytes = false)
    (hk : s.hart.mode = .supervisor ∨ s.hart.strip.rewindable = false) :
    let u := suspectRead pa op.bytes (s.walked (scalarAddr s.hart rs1 imm) none)
    (replayable s = false →
        exec (.scalarLoad op imm rs1 rd) s = .next (takeTrap 28 (BitVec.ofNat 64 (scalarAddr s.hart rs1 imm)) u)) ∧
      (replayable s = true → exec (.scalarLoad op imm rs1 rd) s = .next (endForReplay u)) := by
  intro u
  have hkept : u.hart.mode = .supervisor ∨ u.hart.strip.rewindable = false := hk
  have hrep : replayable u = replayable s := rfl
  rw [exec_badLoad hc hr hg, consumeUE_kept _ hkept, hrep]
  exact ⟨fun h => by rw [h]; rfl, fun h => by rw [h]; rfl⟩

/-- In one that may be rewound for the first time it rewinds it (R282). -/
theorem exec_badLoad_rewinds {s : State} {op : LoadOp} {imm : BitVec 12} {rs1 rd : BitVec 5} {pa : Nat} {cp : Checkpoint}
    (hc : s.calm = true) (hr : s.reaches .load (scalarAddr s.hart rs1 imm) op.bytes pa = true)
    (hg : s.ownGood pa op.bytes = false) (hm : s.hart.mode = .user) (hrw : s.hart.strip.rewindable = true)
    (hcp : s.hart.strip.checkpoint = some cp) (h0 : s.hart.strip.rewinds = 0) :
    let u := suspectRead pa op.bytes (s.walked (scalarAddr s.hart rs1 imm) none)
    exec (.scalarLoad op imm rs1 rd) s = .next (rasLog 9 (coreLoc s.hart.place 0 0) 0 (u.withHart (rewindTo cp s.hart))) := by
  intro u
  rw [exec_badLoad hc hr hg, consumeUE_rewinds (s := u) _ hm hrw hcp h0]
  rfl

theorem exec_load_trap {s t : State} {op : LoadOp} {imm : BitVec 12} {rs1 rd : BitVec 5} {c : Nat} {v : Word}
    (hb : loadBody op imm rs1 rd s = .error (.trap c v none) t) : exec (.scalarLoad op imm rs1 rd) s = .next (takeTrap c v t) := by
  rw [exec_scalarLoad, runInstr_trap hb]

/-- A store completes with what its write leaves. -/
theorem exec_store {s t : State} {op : StoreOp} {imm : BitVec 12} {rs2 rs1 : BitVec 5} (hc : s.calm = true)
    (hw : scalarWrite (scalarAddr s.hart rs1 imm) op.bytes ((s.hart.rx rs2).toNat % 2 ^ (8 * op.bytes)) s = .ok () t)
    (hk : s.hart.storing t.hart) : exec (.scalarStore op imm rs2 rs1) s = .next (t.completes t.hart) := by
  obtain ⟨hhit, -, -, -, -, he⟩ := (calm_iff s).mp hc
  rw [exec_scalarStore, runInstr_ok (s' := t) (by simpa only [run_bind, run_getH] using hw),
    retire_completes he (hk.hit_eq.trans hhit)]

theorem exec_store_trap {s t : State} {op : StoreOp} {imm : BitVec 12} {rs2 rs1 : BitVec 5} {c : Nat} {v : Word}
    (hw : scalarWrite (scalarAddr s.hart rs1 imm) op.bytes ((s.hart.rx rs2).toNat % 2 ^ (8 * op.bytes)) s =
      .error (.trap c v none) t) : exec (.scalarStore op imm rs2 rs1) s = .next (takeTrap c v t) := by
  rw [exec_scalarStore, runInstr_trap (s' := t) (by simpa only [run_bind, run_getH] using hw)]

/-- Settles O21: loads by the course of their body, and stores by that of scalarWrite, in each case of the address. -/
theorem scalarMemoryCompletes : Obligations.ScalarMemoryCompletes := by
  refine ⟨?_, ?_, ?_⟩
  · intro s op imm rs1 rd pa va n hc hcan
    obtain ⟨hhit, -, hs, -, -, he⟩ := (calm_iff s).mp hc
    refine ⟨fun hr hg => ?_, fun hal htr hp hg => ?_, fun hal htr hp => exec_deviceLoad_late hc hcan hal htr hp,
      fun hal htr hp => ⟨fun hn => ?_, fun hn => ?_⟩, fun hal => ?_, fun c hal htr h28 => ?_, fun hr hg => ⟨fun hk => ⟨fun hrep => ?_,
        fun hrep => ?_⟩, fun cp hm hrw hcp h0 => ⟨?_, rfl, rfl, rfl, rfl, rfl, rfl, fun r hr => rewindTo_rx cp s.hart hr⟩⟩⟩
    · rw [exec_scalarLoad, runInstr_ok (loadBody_idem hc hr hg), retire_completes he (by simpa using hhit)]
      rfl
    · have h := exec_deviceLoad (rd := rd) hc hcan hal htr (fun h => absurd hp (Nat.not_lt.mpr h)) fun _ => hg
      rwa [State.deviceValue, if_neg (Nat.not_le.mpr hp)] at h
    · have h := exec_deviceLoad (rd := rd) hc hcan hal htr (fun _ => hn) fun h => absurd hp (Nat.not_le.mpr h)
      have hn' : op.bytes = 8 := hn
      rw [State.deviceValue, if_pos hp, hn', extendLoad_word] at h
      rw [show n = 8 from hn]
      exact h
    · exact exec_load_trap (loadBody_refused hs hcan hal htr hp hn)
    · exact exec_load_trap (loadBody_unchecked (checkAddress_misaligned hcan hal))
    · exact exec_load_trap (loadBody_untranslated hcan hal (translateH_error hs htr h28))
    · exact (exec_badLoad_kept hc hr hg hk).1 hrep
    · exact (exec_badLoad_kept hc hr hg hk).2 hrep
    · exact exec_badLoad_rewinds hc hr hg hm hrw hcp h0
  · intro s op imm rs2 rs1 pa va n v hc hcan
    obtain ⟨-, -, hs, -⟩ := (calm_iff s).mp hc
    refine ⟨fun hr => exec_store hc (scalarWrite_idem hc hr) (stored_storing (s.walked va none) va _), fun hal htr hp => ?_,
      fun hal htr hp => ⟨fun hn => ?_, fun hn => exec_store_trap (scalarWrite_refused hs hcan hal htr hp hn)⟩, fun hal => ?_,
      fun c hal htr h28 => exec_store_trap (scalarWrite_untranslated hcan hal (translateH_error hs htr h28))⟩
    · have h := exec_store (rs2 := rs2) hc (scalarWrite_device hc hcan hal htr fun h => absurd hp (Nat.not_lt.mpr h))
        ((committed_storing (s.walked va none)).trans (deviceStored_storing ..))
      rwa [State.deviceStored, if_neg (Nat.not_le.mpr hp)] at h
    · have h := exec_store (rs2 := rs2) hc (scalarWrite_device hc hcan hal htr fun _ => hn)
        ((committed_storing (s.walked va none)).trans (deviceStored_storing ..))
      rwa [State.deviceStored, if_pos hp] at h
    · exact exec_store_trap (scalarWrite_unchecked (checkAddress_misaligned hcan hal))
  · intro s op st imm rs2 rs1 rd va hc hcan
    refine ⟨?_, ?_⟩
    · exact exec_load_trap (loadBody_unchecked (checkAddress_far hcan))
    · exact exec_store_trap (scalarWrite_unchecked (checkAddress_far hcan))

end Sys2Proof.Machine
end

section
/-!
PROOF. O23: LR, SC and AMO (R79, R262, R316, R319).
-/
namespace Sys2Proof.Machine

/-- What LR does (R79). -/
def lrBody (dbl aq : Bool) (rs1 rd : BitVec 5) : M Unit := do
  let h ← getH
  let va := (h.rx rs1).toNat
  let n := atomicBytes dbl
  checkAddress .load va n
  let pa ← translateIdem .load va
  let bs ← ownBytes pa n va
  dropDcache pa n
  noteAccess false va n
  newLink (pa / 64 * 64) h.sid false
  if aq then acquire
  writeX rd (extendLoad true n (ofBytes bs))

/-- What SC does (R79). -/
def scBody (dbl aq : Bool) (rs2 rs1 rd : BitVec 5) : M Unit := do
  let h ← getH
  let va := (h.rx rs1).toNat
  let n := atomicBytes dbl
  checkAddress .store va n
  let pa ← translateIdem .store va
  endRewind
  let s ← get
  if lost s pa then throw (.ue (BitVec.ofNat 64 va) none)
  let ok := holdsLink s (pa / 64 * 64) s.hart.sid false
  modify dropScalarLink
  dropDcache pa n
  if ok then
    modify (homeWrite h.agent pa (toBytes n ((h.rx rs2).toNat % 2 ^ (8 * n))))
    noteAccess true va n
  if aq then acquire
  writeX rd (flagWord (!ok))

/-- What an AMO does (R79, R316). -/
def amoBody (op : AmoOp) (dbl aq rl : Bool) (rs2 rs1 rd : BitVec 5) : M Unit := do
  let h ← getH
  let va := (h.rx rs1).toNat
  let n := atomicBytes dbl
  checkAddress .store va n
  let pa ← translateIdem .store va
  endRewind
  let old := ofBytes (← ownBytes pa n va)
  modify (homeWrite h.agent pa (toBytes n (amoNew op (8 * n) old ((h.rx rs2).toNat % 2 ^ (8 * n)))))
  dropDcache pa n
  noteAccess false va n
  noteAccess true va n
  startWait (.amo op dbl aq rl rs2 rs1 rd) (extendLoad true n old) 0 (answerOps (finishAmo aq rd))

theorem exec_lr (dbl aq rl : Bool) (rs1 rd : BitVec 5) (s : State) :
    exec (.lr dbl aq rl rs1 rd) s = runInstr (.lr dbl aq rl rs1 rd) (lrBody dbl aq rs1 rd) s := rfl

theorem exec_sc (dbl aq rl : Bool) (rs2 rs1 rd : BitVec 5) (s : State) :
    exec (.sc dbl aq rl rs2 rs1 rd) s = runInstr (.sc dbl aq rl rs2 rs1 rd) (scBody dbl aq rs2 rs1 rd) s := rfl

theorem exec_amo (op : AmoOp) (dbl aq rl : Bool) (rs2 rs1 rd : BitVec 5) (s : State) :
    exec (.amo op dbl aq rl rs2 rs1 rd) s = runInstr (.amo op dbl aq rl rs2 rs1 rd) (amoBody op dbl aq rl rs2 rs1 rd) s := rfl

/-! ### Shared steps -/

/-- An address of idempotent class in memory is where the access goes. -/
theorem translateIdem_reaches {s : State} {k : Access} {va n pa : Nat} (hs : s.choices = []) (hr : s.reaches k va n pa = true) :
    translateIdem k va s = .ok pa (s.walked va none) := by
  obtain ⟨-, -, hlow, htr⟩ := reaches_iff.mp hr
  simp only [translateIdem, run_bind, translateH_ok hs htr, Bool.false_or, decide_eq_false (Nat.not_le.mpr hlow), Bool.false_eq_true,
    if_false, run_pure]

/-- One of device class is an access fault. -/
theorem translateIdem_device {s : State} {k : Access} {va pa : Nat} (hs : s.choices = [])
    (htr : translate s s.hart.root (s.hart.mode == .user) k va = .ok (pa, true)) :
    translateIdem k va s = .error (.trap (accessCause k) (BitVec.ofNat 64 va) none) (s.walked va none) := by
  simp only [translateIdem, run_bind, translateH_ok hs htr, Bool.true_or, if_true, run_raise]

/-- What follows an atomic in its core: an acquire where aq is set (R262). -/
def State.closed (s : State) (aq : Bool) : State := if aq then s.acquired else s

/-- What follows the acquire goes on from there. -/
theorem acquire_closed (aq : Bool) (x : M α) (s : State) :
    (if aq = true then (do acquire; x) else x) s = x (s.closed aq) := by
  cases aq <;> rfl

@[simp] theorem closed_hart (s : State) (aq : Bool) : (s.closed aq).hart = s.hart := by cases aq <;> rfl

theorem homeWrite_storing (a : Agent) (pa : Nat) (bs : List Byte) (s : State) : s.hart.storing (homeWrite a pa bs s).hart :=
  (homeWrite_hart a pa bs s).trans (by rw [homeWrite_hart])

theorem newLink_fresh {s : State} (hs : s.choices = []) (line sid : Nat) (v : Bool) :
    newLink line sid v s = .ok () (setLink line sid v s) := by
  simp [newLink, takeChoice_none hs]

/-! ### LR -/

theorem lrBody_ok {s : State} {dbl aq : Bool} {rs1 rd : BitVec 5} {pa : Nat} (hc : s.calm = true)
    (hr : s.reaches .load (s.hart.rx rs1).toNat (atomicBytes dbl) pa = true) (hg : s.ownGood pa (atomicBytes dbl) = true) :
    lrBody dbl aq rs1 rd s = .ok () (((setLink (pa / 64 * 64) s.hart.sid false
      ((s.walked (s.hart.rx rs1).toNat none).withoutLines pa (atomicBytes dbl))).closed aq).withHart
        (s.hart.wx rd (extendLoad true (atomicBytes dbl) (s.ownValue pa (atomicBytes dbl))))) := by
  obtain ⟨-, hw, hs, -⟩ := (calm_iff s).mp hc
  obtain ⟨hcan, hal, -⟩ := reaches_iff.mp hr
  have hown := ownBytes_good (s := s.walked (s.hart.rx rs1).toNat none) hg (s.hart.rx rs1).toNat
  have hdrop : dropDcache pa (atomicBytes dbl) (s.walked (s.hart.rx rs1).toNat none) =
    .ok () ((s.walked (s.hart.rx rs1).toNat none).withoutLines pa (atomicBytes dbl)) := rfl
  have hnote := noteAccess_unwatched (s := (s.walked (s.hart.rx rs1).toNat none).withoutLines pa (atomicBytes dbl)) hw false
    (s.hart.rx rs1).toNat (atomicBytes dbl)
  have hlink := newLink_fresh (s := (s.walked (s.hart.rx rs1).toNat none).withoutLines pa (atomicBytes dbl)) hs (pa / 64 * 64)
    s.hart.sid false
  simp only [lrBody, run_bind, run_getH, checkAddress_ok hcan hal, translateIdem_reaches hs hr, hown, hdrop, hnote, hlink,
    acquire_closed, writeX, run_modH, closed_hart]
  rfl

/-! ### SC -/

/-- The strand's scalar link goes (R79). -/
def State.unlinked (s : State) (sid : Nat) : State := { s with links := s.links.filter fun l => !(l.sid == sid && !l.vector) }

theorem scBody_lost {s : State} {dbl aq : Bool} {rs2 rs1 rd : BitVec 5} {pa : Nat} (hc : s.calm = true)
    (hr : s.reaches .store (s.hart.rx rs1).toNat (atomicBytes dbl) pa = true) (hl : lost s pa = true) :
    scBody dbl aq rs2 rs1 rd s = .error (.ue (s.hart.rx rs1) none) (s.walked (s.hart.rx rs1).toNat none).committed := by
  obtain ⟨-, -, hs, -, hbad, -⟩ := (calm_iff s).mp hc
  obtain ⟨hcan, hal, -⟩ := reaches_iff.mp hr
  have hend := endRewind_ok (s := s.walked (s.hart.rx rs1).toNat none) hbad
  have hlost : lost (s.walked (s.hart.rx rs1).toNat none).committed pa = true := ((committed_written _).lost_eq pa).trans hl
  simp only [scBody, run_bind, run_getH, checkAddress_ok hcan hal, translateIdem_reaches hs hr, hend, run_get, hlost, if_true, run_throw,
    BitVec.ofNat_toNat, BitVec.setWidth_eq]

theorem scBody_ok {s : State} {dbl aq : Bool} {rs2 rs1 rd : BitVec 5} {pa : Nat} (hc : s.calm = true)
    (hr : s.reaches .store (s.hart.rx rs1).toNat (atomicBytes dbl) pa = true) (hl : lost s pa = false) :
    let t := (s.walked (s.hart.rx rs1).toNat none).committed
    let ok := holdsLink t (pa / 64 * 64) s.hart.sid false
    let u := (t.unlinked s.hart.sid).withoutLines pa (atomicBytes dbl)
    let w := (if ok then homeWrite s.hart.agent pa (toBytes (atomicBytes dbl) ((s.hart.rx rs2).toNat % 2 ^ (8 * atomicBytes dbl))) u
      else u).closed aq
    scBody dbl aq rs2 rs1 rd s = .ok () (w.withHart (w.hart.wx rd (if ok then 0#64 else 1#64))) := by
  obtain ⟨-, hw, hs, -, hbad, -⟩ := (calm_iff s).mp hc
  obtain ⟨hcan, hal, -⟩ := reaches_iff.mp hr
  intro t
  have hend : endRewind (s.walked (s.hart.rx rs1).toNat none) = .ok () t := endRewind_ok hbad
  have hlost : lost t pa = false := ((committed_written _).lost_eq pa).trans hl
  have hsid : t.hart.sid = s.hart.sid := by rw [committed_hart]; rfl
  have hunwatched : t.hart.unwatched = true := (committed_storing (s.walked (s.hart.rx rs1).toNat none)).unwatched_eq.trans hw
  clear_value t
  intro ok u w
  have hok : holdsLink t (pa / 64 * 64) s.hart.sid false = ok := rfl
  have hunlink : dropScalarLink t = t.unlinked s.hart.sid := by rw [← hsid]; rfl
  have hdrop : dropDcache pa (atomicBytes dbl) (t.unlinked s.hart.sid) = .ok () u := rfl
  have hnote (bs : List Byte) := noteAccess_unwatched
    ((homeWrite_storing s.hart.agent pa bs u).unwatched_eq.trans hunwatched) true (s.hart.rx rs1).toNat (atomicBytes dbl)
  simp only [scBody, run_bind, run_getH, checkAddress_ok hcan hal, translateIdem_reaches hs hr, hend, run_get, hlost, Bool.false_eq_true,
    if_false, run_modify, hunlink, hdrop, hsid, hok]
  clear_value ok
  cases ok
  · simp only [Bool.false_eq_true, if_false, acquire_closed, writeX, run_modH]
    rfl
  · simp only [if_true, run_bind, run_modify, hnote, acquire_closed, writeX, run_modH]
    rfl

/-! ### AMO -/

theorem committed_ownView {s : State} (va pa n : Nat) :
    (s.walked va none).committed.ownGood pa n = s.committed.ownGood pa n := by
  show (s.walked va none).committed.uncached.ownGood pa n = s.committed.uncached.ownGood pa n
  rw [committed_walked]

theorem finishAmo_ok (aq : Bool) (rd : BitVec 5) (w : PendingWait) {t : State} (h : t.hart.wait = some w) :
    finishAmo aq rd t = .ok () ((t.closed aq).withHart (t.hart.wx rd w.rdVal)) := by
  have hv : getWait 0#64 (·.rdVal) (t.closed aq) = .ok w.rdVal (t.closed aq) := by simp [getWait, h]
  simp only [finishAmo, acquire_closed, run_bind, hv, writeX, run_modH, closed_hart]

theorem amoBody_ok {s : State} {op : AmoOp} {dbl aq rl : Bool} {rs2 rs1 rd : BitVec 5} {pa : Nat} (hc : s.calm = true)
    (hr : s.reaches .store (s.hart.rx rs1).toNat (atomicBytes dbl) pa = true)
    (hg : s.committed.ownGood pa (atomicBytes dbl) = true) :
    let t := (s.walked (s.hart.rx rs1).toNat none).committed
    let old := t.ownValue pa (atomicBytes dbl)
    let w := ((homeWrite s.hart.agent pa (toBytes (atomicBytes dbl)
      (amoNew op (8 * atomicBytes dbl) old ((s.hart.rx rs2).toNat % 2 ^ (8 * atomicBytes dbl)))) t).withoutLines pa (atomicBytes dbl))
    let v := extendLoad true (atomicBytes dbl) old
    ∃ p, amoBody op dbl aq rl rs2 rs1 rd s = .ok () ((w.closed aq).withHart ((w.hart.wx rd v).waiting p)) := by
  obtain ⟨-, hw, hs, -, hbad, -⟩ := (calm_iff s).mp hc
  obtain ⟨hcan, hal, -⟩ := reaches_iff.mp hr
  intro t
  have hend : endRewind (s.walked (s.hart.rx rs1).toNat none) = .ok () t := endRewind_ok hbad
  have hown := ownBytes_good (s := t) ((committed_ownView (s.hart.rx rs1).toNat pa (atomicBytes dbl)).trans hg) (s.hart.rx rs1).toNat
  have hunwatched : t.hart.unwatched = true := (committed_storing (s.walked (s.hart.rx rs1).toNat none)).unwatched_eq.trans hw
  have hchoices : t.choices = [] := (committed_written _).choices_eq.trans hs
  clear_value t
  intro old w v
  have hwritten (bs : List Byte) (b : Bool) := noteAccess_unwatched (s := (homeWrite s.hart.agent pa bs t).withoutLines pa (atomicBytes dbl))
    ((homeWrite_storing s.hart.agent pa bs t).unwatched_eq.trans hunwatched) b (s.hart.rx rs1).toNat (atomicBytes dbl)
  have hnote (b : Bool) : noteAccess b (s.hart.rx rs1).toNat (atomicBytes dbl) w = .ok () w := hwritten _ b
  have hstart := startWaitOn_answered (i := .amo op dbl aq rl rs2 rs1 rd) (v := v) (token := 0) (due := []) (finish := finishAmo aq rd)
    (s := w) ((homeWrite_written s.hart.agent pa _ t).choices_eq.trans hchoices)
  have hlast : startWait (.amo op dbl aq rl rs2 rs1 rd) v 0 (answerOps (finishAmo aq rd)) w = .ok () _ :=
    hstart.trans (finishAmo_ok aq rd (answerWait w (.amo op dbl aq rl rs2 rs1 rd) v 0 []) rfl)
  rw [withHart_hart, Strand.waiting_wx] at hlast
  refine ⟨some (answerWait w (.amo op dbl aq rl rs2 rs1 rd) v 0 []), ?_⟩
  have hupdate : dropDcache pa (atomicBytes dbl) (homeWrite s.hart.agent pa (toBytes (atomicBytes dbl)
      (amoNew op (8 * atomicBytes dbl) old ((s.hart.rx rs2).toNat % 2 ^ (8 * atomicBytes dbl)))) t) = .ok () w := rfl
  have hold : ofBytes ((rangeFrom pa (atomicBytes dbl)).map fun a => overlayByte t.hart.strip.buffer false a (t.mem.get a)) = old := rfl
  have hvalue : extendLoad true (atomicBytes dbl) old = v := rfl
  simp only [amoBody, run_bind, run_getH, checkAddress_ok hcan hal, translateIdem_reaches hs hr, hend, hown, run_modify, hold, hupdate,
    hnote, hvalue, hlast]
  cases aq <;> rfl

/-! ### Where they may not access -/

section
variable {s t : State} {dbl aq rl : Bool} {rs2 rs1 rd : BitVec 5} {e : Stop}

/-- LR does nothing where its address may not be used, or its place not be reached. -/
theorem lrBody_unchecked (h : checkAddress .load (s.hart.rx rs1).toNat (atomicBytes dbl) s = .error e t) :
    lrBody dbl aq rs1 rd s = .error e t := by
  simp only [lrBody, run_bind, run_getH, h]

theorem lrBody_refused (hcan : canonical (s.hart.rx rs1).toNat = true) (hal : (s.hart.rx rs1).toNat % atomicBytes dbl = 0)
    (h : translateIdem .load (s.hart.rx rs1).toNat s = .error e t) : lrBody dbl aq rs1 rd s = .error e t := by
  simp only [lrBody, run_bind, run_getH, checkAddress_ok hcan hal, h]

/-- Nor does SC or an AMO. -/
theorem updates_unchecked (h : checkAddress .store (s.hart.rx rs1).toNat (atomicBytes dbl) s = .error e t) :
    scBody dbl aq rs2 rs1 rd s = .error e t ∧ ∀ op, amoBody op dbl aq rl rs2 rs1 rd s = .error e t := by
  simp only [scBody, amoBody, run_bind, run_getH, h, implies_true, and_self]

theorem updates_refused (hcan : canonical (s.hart.rx rs1).toNat = true) (hal : (s.hart.rx rs1).toNat % atomicBytes dbl = 0)
    (h : translateIdem .store (s.hart.rx rs1).toNat s = .error e t) :
    scBody dbl aq rs2 rs1 rd s = .error e t ∧ ∀ op, amoBody op dbl aq rl rs2 rs1 rd s = .error e t := by
  simp only [scBody, amoBody, run_bind, run_getH, checkAddress_ok hcan hal, h, implies_true, and_self]

end

/-- A meaning that ends in a register write completes with it. -/
theorem completes_of_wx {i : Instr} {body : M Unit} {s t : State} {rd : BitVec 5} {v : Word} (he : s.hart.estep = false)
    (hh : t.hart.hit = none) (hb : body s = .ok () (t.withHart (t.hart.wx rd v))) :
    runInstr i body s = .next (t.completes (t.hart.wx rd v)) := by
  rw [runInstr_ok hb, retire_completes he ((Strand.wx_hit ..).trans hh)]
  rfl

/-- One that waited for its answer completes without the wait. -/
theorem completes_of_waiting {i : Instr} {body : M Unit} {s t : State} {rd : BitVec 5} {v : Word} (he : s.hart.estep = false)
    (hh : t.hart.hit = none) (hb : ∃ p, body s = .ok () (t.withHart ((t.hart.wx rd v).waiting p))) :
    runInstr i body s = .next (t.completes (t.hart.wx rd v)) := by
  obtain ⟨p, hb⟩ := hb
  rw [runInstr_ok hb, retire_completes he ((Strand.wx_hit ..).trans hh)]
  exact congrArg _ (completes_waiting t _ p)

/-- What is then written at a home makes no hit pending. -/
theorem updated_hit {t : State} (h : t.hart.hit = none) (a : Agent) (pa n : Nat) (bs : List Byte) :
    ((homeWrite a pa bs t).withoutLines pa n).hart.hit = none :=
  (homeWrite_storing a pa bs t).hit_eq.trans h

/-- LR completes with the strand's own view of its bytes and the strand's link (R79). -/
theorem exec_lr_ok {s : State} {dbl aq rl : Bool} {rs1 rd : BitVec 5} {pa : Nat} (hc : s.calm = true)
    (hr : s.reaches .load (s.hart.rx rs1).toNat (atomicBytes dbl) pa = true) (hg : s.ownGood pa (atomicBytes dbl) = true) :
    let t := (setLink (pa / 64 * 64) s.hart.sid false
      ((s.walked (s.hart.rx rs1).toNat none).withoutLines pa (atomicBytes dbl))).closed aq
    exec (.lr dbl aq rl rs1 rd) s =
      .next (t.completes (s.hart.wx rd (extendLoad true (atomicBytes dbl) (s.ownValue pa (atomicBytes dbl))))) := by
  intro t
  obtain ⟨hh, -, -, -, -, he⟩ := (calm_iff s).mp hc
  have ht : t.hart = s.hart := closed_hart ..
  have h := completes_of_wx (i := .lr dbl aq rl rs1 rd) (t := t) he (by rw [ht, hh]) (by rw [ht]; exact lrBody_ok (rd := rd) hc hr hg)
  rwa [ht] at h

/-- SC completes where its home is not lost (R79). -/
theorem exec_sc_ok {s : State} {dbl aq rl : Bool} {rs2 rs1 rd : BitVec 5} {pa : Nat} (hc : s.calm = true)
    (hr : s.reaches .store (s.hart.rx rs1).toNat (atomicBytes dbl) pa = true) (hl : lost s pa = false) :
    let t := (s.walked (s.hart.rx rs1).toNat none).committed
    let ok := holdsLink t (pa / 64 * 64) s.hart.sid false
    let u := (t.unlinked s.hart.sid).withoutLines pa (atomicBytes dbl)
    let w := (if ok then homeWrite s.hart.agent pa (toBytes (atomicBytes dbl) ((s.hart.rx rs2).toNat % 2 ^ (8 * atomicBytes dbl))) u
      else u).closed aq
    exec (.sc dbl aq rl rs2 rs1 rd) s = .next (w.completes (w.hart.wx rd (if ok then 0#64 else 1#64))) := by
  intro t ok u w
  obtain ⟨hh, -, -, -, -, he⟩ := (calm_iff s).mp hc
  have hhit : t.hart.hit = none := (committed_storing (s.walked (s.hart.rx rs1).toNat none)).hit_eq.trans hh
  refine (exec_sc ..).trans (completes_of_wx he ?_ (scBody_ok hc hr hl))
  clear_value t
  rw [closed_hart]
  split
  · exact (homeWrite_storing s.hart.agent pa _ u).hit_eq.trans hhit
  · exact hhit

/-- It consumes an uncorrectable error where its home is lost (R319). -/
theorem exec_sc_lost {s : State} {dbl aq rl : Bool} {rs2 rs1 rd : BitVec 5} {pa : Nat} (hc : s.calm = true)
    (hr : s.reaches .store (s.hart.rx rs1).toNat (atomicBytes dbl) pa = true) (hl : lost s pa = true)
    (hm : s.hart.mode = .supervisor) (hrep : replayable s = false) :
    exec (.sc dbl aq rl rs2 rs1 rd) s =
      .next (takeTrap 28 (s.hart.rx rs1) (s.walked (s.hart.rx rs1).toNat none).committed) := by
  have hkept : (s.walked (s.hart.rx rs1).toNat none).committed.hart.mode = .supervisor := by rw [committed_hart]; exact hm
  have hreplay : replayable (s.walked (s.hart.rx rs1).toNat none).committed = false := by
    rw [← hrep, replayable, replayable, findLaunch, findLaunch, (committed_written _).launches_eq, committed_hart]
    rfl
  rw [exec_sc, runInstr, scBody_lost hc hr hl]
  show Host.Outcome.next (consumeUE (s.hart.rx rs1) none _) = _
  rw [consumeUE_kept _ (.inl hkept), hreplay]
  rfl

/-- An AMO completes with the old value of its place (R79, R316). -/
theorem exec_amo_ok {s : State} {op : AmoOp} {dbl aq rl : Bool} {rs2 rs1 rd : BitVec 5} {pa : Nat} (hc : s.calm = true)
    (hr : s.reaches .store (s.hart.rx rs1).toNat (atomicBytes dbl) pa = true)
    (hg : s.committed.ownGood pa (atomicBytes dbl) = true) :
    let t := (s.walked (s.hart.rx rs1).toNat none).committed
    let old := t.ownValue pa (atomicBytes dbl)
    let w := ((homeWrite s.hart.agent pa (toBytes (atomicBytes dbl)
      (amoNew op (8 * atomicBytes dbl) old ((s.hart.rx rs2).toNat % 2 ^ (8 * atomicBytes dbl)))) t).withoutLines pa
        (atomicBytes dbl)).closed aq
    exec (.amo op dbl aq rl rs2 rs1 rd) s = .next (w.completes (w.hart.wx rd (extendLoad true (atomicBytes dbl) old))) := by
  intro t old w
  obtain ⟨hh, -, -, -, -, he⟩ := (calm_iff s).mp hc
  have hhit : t.hart.hit = none := (committed_storing (s.walked (s.hart.rx rs1).toNat none)).hit_eq.trans hh
  refine (exec_amo ..).trans (completes_of_waiting he ?_ ?_)
  · rw [closed_hart]
    exact updated_hit hhit ..
  · rw [closed_hart]
    exact amoBody_ok hc hr hg

/-- Settles O23: the meaning of each, up to the place that it reaches and from there on. -/
theorem atomicsComplete : Obligations.AtomicsComplete := by
  intro s dbl aq rl rs2 rs1 rd pa h va n v line closes z hc hcan
  obtain ⟨hh, -, hs, -, -, he⟩ := (calm_iff s).mp hc
  have hva : BitVec.ofNat 64 va = s.hart.rx rs1 := by simp [va, h]
  refine ⟨fun hr hg => ?_, fun hr hl hm hrep => ?_, fun hr hl => exec_sc_ok hc hr hl, fun hr hg op => exec_amo_ok hc hr hg, fun hal => ?_,
    fun hal htr => ?_, fun hal htr => ?_⟩
  · exact exec_lr_ok hc hr hg
  · rw [hva]
    exact exec_sc_lost hc hr hl hm hrep
  · have hstore := updates_unchecked (aq := aq) (rl := rl) (rs2 := rs2) (rd := rd) (checkAddress_misaligned (k := .store) hcan hal)
    exact ⟨runInstr_trap (lrBody_unchecked (checkAddress_misaligned hcan hal)), runInstr_trap hstore.1, fun op => runInstr_trap (hstore.2 op)⟩
  · exact runInstr_trap (lrBody_refused hcan hal (translateIdem_device hs htr))
  · have hstore := updates_refused (aq := aq) (rl := rl) (rs2 := rs2) (rd := rd) hcan hal (translateIdem_device hs htr)
    exact ⟨runInstr_trap hstore.1, fun op => runInstr_trap (hstore.2 op)⟩

end Sys2Proof.Machine
end

section
/-!
PROOF. O24: fences, WFI, SFENCE.VMA, ldaq and strl (R79, R241, R262, R264, R265).
-/
namespace Sys2Proof.Machine

/-! ### Answers that come at once -/

/-- An instruction whose answer has come completes with what it then does, without its wait. -/
theorem completes_of_held {i : Instr} {body : M Unit} {s t : State} {p : Option PendingWait} (he : s.hart.estep = false)
    (hh : t.hart.hit = none) (hb : body s = .ok () (t.withHart (t.hart.waiting p))) :
    runInstr i body s = .next (t.completes t.hart) := by
  rw [runInstr_ok hb, retire_completes he (show (t.withHart (t.hart.waiting p)).hart.hit = none from hh)]
  exact congrArg _ (completes_waiting t _ p)

theorem Strand.addHit_waiting (h : Strand) (i : Fin 4) (w : Word) (p : Option PendingWait) :
    (h.waiting p).addHit i w = (h.addHit i w).waiting p := by
  have hhits : (h.waiting p).hits = h.hits := rfl
  unfold Strand.addHit
  rw [hhits]
  split <;> rfl

/-- A wait on record changes no watchpoint's hits. -/
theorem Strand.watchWrite_waiting (h : Strand) (s : State) (a : Agent) (pa n : Nat) (p : Option PendingWait) :
    (h.waiting p).watchWrite s a pa n = (h.watchWrite s a pa n).waiting p :=
  List.foldl_hom (fun h : Strand => h.waiting p) fun h w => by
    dsimp only
    rw [apply_ite (fun h : Strand => h.waiting p)]
    exact if_congr Iff.rfl (Strand.addHit_waiting ..) rfl

/-- Nor what a write at a home leaves. -/
theorem homeWrite_waiting (a : Agent) (pa : Nat) (bs : List Byte) (s : State) (p : Option PendingWait) :
    homeWrite a pa bs (s.withHart (s.hart.waiting p)) =
      (homeWrite a pa bs s).withHart ((homeWrite a pa bs s).hart.waiting p) := by
  by_cases hb : bs = []
  · simp only [homeWrite, if_pos hb]
  · by_cases hl : lost s pa = true
    · simp only [homeWrite_lost hl, homeWrite_lost (show lost (s.withHart (s.hart.waiting p)) pa = true from hl)]
    · simp only [homeWrite, if_neg hb, if_neg hl, if_neg (show ¬ lost (s.withHart (s.hart.waiting p)) pa = true from hl)]
      rw [show (clearLinks _ pa bs.length : State).hart = s.hart.waiting p from rfl, Strand.watchWrite_waiting]
      rfl

/-! ### ldaq and strl -/

/-- What an ldaq does (R241). -/
def ldaqBody (sc : Scope) (rs1 rd : BitVec 5) : M Unit := do
  let va := (← readX rs1).toNat
  checkAddress .load va 8
  let (pa, dev) ← translateH .load va
  if !dev && decide (ctlBase ≤ pa) then raise 5 (BitVec.ofNat 64 va)
  if dev then endRewind
  startWaitOn (.ldaq sc rs1 rd) 0#64 (2 * pa + dev.toNat) (← pageOf va pa) (answerOps (finishLdaq sc rs1 rd))

/-- What an strl does (R241). -/
def strlBody (sc : Scope) (rs2 rs1 : BitVec 5) : M Unit := do
  let va := (← readX rs1).toNat
  checkAddress .store va 8
  let (pa, dev) ← translateH .store va
  if !dev && decide (ctlBase ≤ pa) then raise 7 (BitVec.ofNat 64 va)
  endRewind
  startWaitOn (.strl sc rs2 rs1) 0#64 (2 * pa + dev.toNat) (← pageOf va pa) (answerOps (finishStrl rs2 rs1))

theorem exec_ldaq (sc : Scope) (rs1 rd : BitVec 5) (s : State) :
    exec (.ldaq sc rs1 rd) s = runInstr (.ldaq sc rs1 rd) (ldaqBody sc rs1 rd) s := rfl

theorem exec_strl (sc : Scope) (rs2 rs1 : BitVec 5) (s : State) :
    exec (.strl sc rs2 rs1) s = runInstr (.strl sc rs2 rs1) (strlBody sc rs2 rs1) s := rfl

/-- What an acquire of a scope leaves (R262). -/
def State.acquiredAt (s : State) (sc : Scope) : State := if sc = .strand then s else s.acquired

theorem acquireAt_ok (sc : Scope) (s : State) : acquireAt sc s = .ok () (s.acquiredAt sc) := by
  unfold acquireAt State.acquiredAt
  split <;> rfl

@[simp] theorem acquiredAt_hart (s : State) (sc : Scope) : (s.acquiredAt sc).hart = s.hart := by
  unfold State.acquiredAt
  split <;> rfl

theorem getWait_waiting {s : State} {w : PendingWait} (h : s.hart.wait = some w) (d : α) (f : PendingWait → α) :
    getWait d f s = .ok (f w) s := by
  simp [getWait, h]

/-- The data of an ldaq of idempotent class has come (R241). -/
theorem finishLdaq_ok {s : State} {sc : Scope} {rs1 rd : BitVec 5} {pa : Nat} {w : PendingWait} (hw : s.hart.wait = some w)
    (ht : w.token = 2 * pa) (hu : s.hart.unwatched = true) (hg : s.ownGood pa 8 = true) :
    let u := (s.withoutLines pa 8).acquiredAt sc
    finishLdaq sc rs1 rd s = .ok () (u.withHart (u.hart.wx rd (BitVec.ofNat 64 (s.ownValue pa 8)))) := by
  have hnote := noteAccess_unwatched (s := s.withoutLines pa 8) hu false (s.hart.rx rs1).toNat 8
  have hdrop : dropDcache pa 8 s = .ok () (s.withoutLines pa 8) := rfl
  simp only [finishLdaq, run_bind, getWait_waiting hw, ht, readX, run_getH, run_pure, Nat.mul_mod_right, Nat.zero_ne_one, if_false,
    Nat.mul_div_cancel_left pa two_pos, ownBytes_good hg, hdrop, hnote, acquireAt_ok, writeX, run_modH]
  rfl

theorem ldaqBody_ok {s : State} {sc : Scope} {rs1 rd : BitVec 5} {pa : Nat} (hc : s.calm = true)
    (hr : s.reaches .load (s.hart.rx rs1).toNat 8 pa = true) (hg : s.ownGood pa 8 = true) :
    let u := ((s.walked (s.hart.rx rs1).toNat none).withoutLines pa 8).acquiredAt sc
    ∃ p, ldaqBody sc rs1 rd s = .ok () (u.withHart ((u.hart.wx rd (BitVec.ofNat 64 (s.ownValue pa 8))).waiting p)) := by
  obtain ⟨-, hu, hs, -⟩ := (calm_iff s).mp hc
  obtain ⟨hcan, hal, hlow, htr⟩ := reaches_iff.mp hr
  intro u
  let z := s.walked (s.hart.rx rs1).toNat none
  let due : List (Nat × Nat × Cls) := [(pageSpan z (s.hart.rx rs1).toNat pa, 0, 0#6)]
  let w := answerWait z (.ldaq sc rs1 rd) 0#64 (2 * pa) due
  have hfinish := finishLdaq_ok (s := z.withHart (z.hart.waiting (some w))) (sc := sc) (rs1 := rs1) (rd := rd) (w := w) rfl rfl hu hg
  refine ⟨some w, ?_⟩
  simp only [ldaqBody, run_bind, readX, run_getH, run_pure, checkAddress_ok hcan hal, translateH_ok hs htr, Bool.not_false, Bool.true_and,
    decide_eq_false (Nat.not_le.mpr hlow), Bool.false_eq_true, if_false, Bool.toNat_false, Nat.add_zero]
  refine (startWaitOn_answered (s := z) hs).trans (hfinish.trans ?_)
  have hfields : ((z.withHart (z.hart.waiting (some w))).withoutLines pa 8).acquiredAt sc = u.withHart (u.hart.waiting (some w)) := by
    simp only [State.acquiredAt, u]
    split <;> rfl
  rw [hfields, withHart_hart, Strand.waiting_wx]
  rfl

/-- What an strl stores when the earlier accesses are complete (R241). -/
theorem finishStrl_ok {s : State} {rs2 rs1 : BitVec 5} {pa : Nat} {w : PendingWait} (hw : s.hart.wait = some w)
    (ht : w.token = 2 * pa) (hu : s.hart.unwatched = true) :
    finishStrl rs2 rs1 s = .ok () (homeWrite s.hart.agent pa (toBytes 8 (s.hart.rx rs2).toNat) s) := by
  have hnote := noteAccess_unwatched ((homeWrite_storing s.hart.agent pa (toBytes 8 (s.hart.rx rs2).toNat) s).unwatched_eq.trans hu) true
    (s.hart.rx rs1).toNat 8
  simp only [finishStrl, run_bind, getWait_waiting hw, ht, run_getH, Nat.mul_mod_right, Nat.zero_ne_one, if_false, run_modify,
    Nat.mul_div_cancel_left pa two_pos, hnote]

theorem strlBody_ok {s : State} {sc : Scope} {rs2 rs1 : BitVec 5} {pa : Nat} (hc : s.calm = true)
    (hr : s.reaches .store (s.hart.rx rs1).toNat 8 pa = true) :
    let t := homeWrite s.hart.agent pa (toBytes 8 (s.hart.rx rs2).toNat) (s.walked (s.hart.rx rs1).toNat none).committed
    ∃ p, strlBody sc rs2 rs1 s = .ok () (t.withHart (t.hart.waiting p)) := by
  obtain ⟨-, hu, hs, -, hbad, -⟩ := (calm_iff s).mp hc
  obtain ⟨hcan, hal, hlow, htr⟩ := reaches_iff.mp hr
  obtain ⟨t, ht⟩ : ∃ t, t = (s.walked (s.hart.rx rs1).toNat none).committed := ⟨_, rfl⟩
  have hend : endRewind (s.walked (s.hart.rx rs1).toNat none) = .ok () t := ht ▸ endRewind_ok hbad
  have hkept : s.hart.storing t.hart := ht ▸ committed_storing (s.walked (s.hart.rx rs1).toNat none)
  have hagent : t.hart.agent = s.hart.agent := by rw [hkept]; rfl
  have hrx : t.hart.rx rs2 = s.hart.rx rs2 := by rw [Strand.rx, Strand.rx, hkept.x_eq]
  have hchoices : t.choices = [] := ht ▸ (committed_written _).choices_eq.trans hs
  rw [← ht]
  clear ht
  let due : List (Nat × Nat × Cls) := [(pageSpan t (s.hart.rx rs1).toNat pa, 0, 0#6)]
  let w := answerWait t (.strl sc rs2 rs1) 0#64 (2 * pa) due
  have hpage : pageOf (s.hart.rx rs1).toNat pa t = .ok due t := rfl
  have hfinish := finishStrl_ok (s := t.withHart (t.hart.waiting (some w))) (rs2 := rs2) (rs1 := rs1) (w := w) rfl rfl
    (hkept.unwatched_eq.trans hu)
  have hlast := (startWaitOn_answered hchoices).trans hfinish
  refine ⟨some w, ?_⟩
  simp only [strlBody, run_bind, readX, run_getH, run_pure, checkAddress_ok hcan hal, translateH_ok hs htr, Bool.not_false, Bool.true_and,
    decide_eq_false (Nat.not_le.mpr hlow), Bool.false_eq_true, if_false, hend, hpage, Bool.toNat_false, Nat.add_zero]
  refine hlast.trans ?_
  rw [homeWrite_waiting, ← hagent, ← hrx]
  rfl

/-- ldaq takes its bytes past the cache and acquires (R241). -/
theorem exec_ldaq_ok {s : State} {sc : Scope} {rs1 rd : BitVec 5} {pa : Nat} (hc : s.calm = true)
    (hr : s.reaches .load (s.hart.rx rs1).toNat 8 pa = true) (hg : s.ownGood pa 8 = true) :
    let u := ((s.walked (s.hart.rx rs1).toNat none).withoutLines pa 8).acquiredAt sc
    exec (.ldaq sc rs1 rd) s = .next (u.completes (s.hart.wx rd (BitVec.ofNat 64 (s.ownValue pa 8)))) := by
  intro u
  obtain ⟨hh, -, -, -, -, he⟩ := (calm_iff s).mp hc
  have hu : u.hart = s.hart := acquiredAt_hart ..
  have h := completes_of_waiting (i := .ldaq sc rs1 rd) he (by rw [hu, hh]) (ldaqBody_ok (sc := sc) (rd := rd) hc hr hg)
  rwa [acquiredAt_hart] at h

/-- strl commits the strip and stores (R241). -/
theorem exec_strl_ok {s : State} {sc : Scope} {rs2 rs1 : BitVec 5} {pa : Nat} (hc : s.calm = true)
    (hr : s.reaches .store (s.hart.rx rs1).toNat 8 pa = true) :
    let t := homeWrite s.hart.agent pa (toBytes 8 (s.hart.rx rs2).toNat) (s.walked (s.hart.rx rs1).toNat none).committed
    exec (.strl sc rs2 rs1) s = .next (t.completes t.hart) := by
  obtain ⟨hh, -, -, -, -, he⟩ := (calm_iff s).mp hc
  obtain ⟨p, hbody⟩ := strlBody_ok (sc := sc) (rs2 := rs2) hc hr
  have hkept := (committed_storing (s.walked (s.hart.rx rs1).toNat none)).trans
    (homeWrite_storing s.hart.agent pa (toBytes 8 (s.hart.rx rs2).toNat) _)
  exact completes_of_held he (hkept.hit_eq.trans hh) hbody

/-! ### Fences -/

theorem orderAfter_none (s : State) : orderAfter 0 s = .ok () s := rfl

theorem orderAfter_loads (s : State) : orderAfter 1 s = .ok () s.ordered := rfl

/-- What a fence commits and then waits for completes with what it does in its core. -/
theorem exec_commits {i : Instr} {finish : M Unit} {f : State → State} {s : State} (hc : s.calm = true)
    (hfinish : ∀ u, finish u = .ok () (f u)) (hhart : ∀ u, (f u).hart.hit = u.hart.hit)
    (hw : ∀ u p, f (u.withHart (u.hart.waiting p)) = (f u).withHart ((f u).hart.waiting p)) :
    runInstr i (do endRewind; startWait i 0#64 0 (answerOps finish)) s =
      .next ((f s.committed).completes (f s.committed).hart) := by
  obtain ⟨hh, -, hs, -, hbad, he⟩ := (calm_iff s).mp hc
  have hstart := startWaitOn_answered (i := i) (v := 0#64) (token := 0) (due := []) (finish := finish)
    ((committed_written s).choices_eq.trans hs)
  refine completes_of_held (p := some (answerWait s.committed i 0#64 0 [])) he
    (((hhart _).trans (committed_storing s).hit_eq).trans hh) ?_
  simp only [run_bind, endRewind_ok hbad, startWait, hstart, hfinish, hw]

theorem exec_fence_none {s : State} {fm pred succ : BitVec 4} {rs1 rd : BitVec 5} (hc : s.calm = true) (h : pred = 0#4 ∨ succ = 0#4) :
    exec (.fence fm pred succ rs1 rd) s = .next (s.completes s.hart) := by
  obtain ⟨hh, -, -, -, -, he⟩ := (calm_iff s).mp hc
  have hno : ¬ (pred ≠ 0#4 ∧ succ ≠ 0#4) := by tauto
  refine completes_of_ok he (h := s.hart) ?_ hh
  simp only [if_neg hno, run_pure]
  rfl

theorem exec_fence_some {s : State} {fm pred succ : BitVec 4} {rs1 rd : BitVec 5} (hc : s.calm = true) (hp : pred ≠ 0#4) (hq : succ ≠ 0#4) :
    let t := if (pred ||| succ) &&& 0xA#4 = 0#4 then s.committed else s.committed.ordered
    exec (.fence fm pred succ rs1 rd) s = .next (t.completes t.hart) := by
  have hbody : exec (.fence fm pred succ rs1 rd) s = runInstr (.fence fm pred succ rs1 rd)
      (do endRewind; startWait (.fence fm pred succ rs1 rd) 0#64 0 (answerOps (finishFence pred succ))) s := by
    show runInstr _ (if pred ≠ 0#4 ∧ succ ≠ 0#4 then _ else _) s = _
    rw [if_pos ⟨hp, hq⟩]
  rw [hbody]
  by_cases hno : (pred ||| succ) &&& 0xA#4 = 0#4
  · rw [if_pos hno]
    exact exec_commits (f := id) hc (fun u => by rw [finishFence, if_pos hno]; exact orderAfter_none u) (fun _ => rfl) fun _ _ => rfl
  · rw [if_neg hno]
    exact exec_commits hc (fun u => by rw [finishFence, if_neg hno]; exact orderAfter_loads u) (fun _ => rfl) fun _ _ => rfl

theorem exec_fenceI {s : State} {imm : BitVec 12} {rs1 rd : BitVec 5} (hc : s.calm = true) :
    exec (.fenceI imm rs1 rd) s = .next (s.committed.withoutText.completes s.committed.withoutText.hart) :=
  exec_commits (f := State.withoutText) hc (fun _ => rfl) (fun _ => rfl) fun _ _ => rfl

/-! ### SFENCE.VMA -/

/-- The translations that an SFENCE.VMA leaves (R79). -/
def State.withoutTranslations (s : State) (rs2 rs1 : BitVec 5) : State :=
  if rs2 = 0#5 ∨ (s.hart.rx rs2).toNat % 1024 = s.hart.asid then
    { s with tlb := s.tlb.filter fun t => !(t.site == .core (coreNo s.hart.place) && t.asid == s.hart.asid &&
      (rs1 == 0#5 || t.covers s.hart.asid (s.hart.rx rs1).toNat)) }
  else s

theorem exec_sfenceVma_user {s : State} {rs2 rs1 : BitVec 5} (hm : s.hart.mode = .user) :
    exec (.sfenceVma rs2 rs1) s = .next (takeTrap 2 (instrBits (.sfenceVma rs2 rs1)) s) :=
  runInstr_illegal (by simp only [run_bind, run_getH, if_pos hm, run_illegal])

theorem exec_sfenceVma {s : State} {rs2 rs1 : BitVec 5} (hc : s.calm = true) (hm : s.hart.mode = .supervisor) :
    exec (.sfenceVma rs2 rs1) s = .next ((s.withoutTranslations rs2 rs1).completes s.hart) := by
  obtain ⟨hh, -, -, -, -, he⟩ := (calm_iff s).mp hc
  have huser : ¬ s.hart.mode = .user := by rw [hm]; decide
  have hhart : (s.withoutTranslations rs2 rs1).hart = s.hart := by unfold State.withoutTranslations; split <;> rfl
  refine (runInstr_ok (s' := s.withoutTranslations rs2 rs1) ?_).trans ?_
  · simp only [run_bind, run_getH, if_neg huser, State.withoutTranslations]
    split <;> rfl
  · rw [retire_completes he (by rw [hhart, hh]), hhart]

theorem mem_withoutTranslations {s : State} {rs2 rs1 : BitVec 5} {x : TlbEntry} : x ∈ (s.withoutTranslations rs2 rs1).tlb ↔ x ∈ s.tlb ∧
    ¬ ((rs2 = 0#5 ∨ (s.hart.rx rs2).toNat % 1024 = s.hart.asid) ∧ x.site = .core (coreNo s.hart.place) ∧ x.asid = s.hart.asid ∧
      (rs1 = 0#5 ∨ x.covers s.hart.asid (s.hart.rx rs1).toNat = true)) := by
  unfold State.withoutTranslations
  split
  next h =>
    simp only [List.mem_filter, h, true_and, Bool.not_eq_true', ← Bool.not_eq_true, Bool.and_eq_true, Bool.or_eq_true, beq_iff_eq,
      and_assoc]
  next h => simp [h]

/-- Settles O24: each instruction's meaning, up to its answer and from there on. -/
theorem fencesAndScopedAccessesComplete : Obligations.FencesAndScopedAccessesComplete := by
  refine ⟨fun s sc rs2 rs1 rd pa => ?_, fun s hc => ⟨fun fm pred succ rs1 rd => ⟨exec_fence_none hc, exec_fence_some hc⟩,
    fun _ _ _ => exec_fenceI hc, ?_, fun _ _ => exec_sfenceVma_user, fun rs2 rs1 hm => ?_⟩⟩
  · intro h va hc
    exact ⟨exec_ldaq_ok hc, exec_strl_ok hc⟩
  · obtain ⟨hh, -, -, -, -, he⟩ := (calm_iff s).mp hc
    exact completes_of_ok he (h := s.hart) rfl hh
  · refine ⟨s.withoutTranslations rs2 rs1, exec_sfenceVma hc hm, ?_, fun _ => mem_withoutTranslations⟩
    unfold State.withoutTranslations
    split <;> rfl

end Sys2Proof.Machine
end

section
/-!
PROOF. O26: environment calls, pending events and the end of a strand (R79, R101, R274, R275, R387).
-/
namespace Sys2Proof.Machine

/-! ### The first of what is pending -/

/-- The first entry of four that holds something. -/
theorem findSome_first {v : Vector (Option α) 4} {i : Fin 4} {x : α} (hi : v.get i = some x) (hlow : ∀ j, j < i → v.get j = none) :
    ((rangeFrom 0 4).findSome? fun i => (v.toList[i]?.getD none).map fun x => (i, x)) = some (i.1, x) := by
  have hget (j : Nat) (hj : j < 4) : v.toList[j]?.getD none = v.get ⟨j, hj⟩ := by
    rw [List.getElem?_eq_getElem (by simpa using hj)]
    rfl
  rw [List.findSome?_eq_some_iff]
  refine ⟨rangeFrom 0 i.1, i.1, rangeFrom (i.1 + 1) (3 - i.1), ?_, by rw [hget _ i.2, hi]; rfl, fun j hj => ?_⟩
  · have h := rangeFrom_append 0 i.1 (3 - i.1 + 1)
    rwa [show i.1 + (3 - i.1 + 1) = 4 by omega, Nat.zero_add] at h
  · have hlt : j < i.1 := by simpa using (mem_rangeFrom.mp hj).2
    rw [hget j (by omega), hlow ⟨j, by omega⟩ hlt]
    rfl

/-- Nothing where none of the four does. -/
theorem findSome_nothing {v : Vector (Option α) 4} (h : ∀ i, v.get i = none) :
    ((rangeFrom 0 4).findSome? fun i => (v.toList[i]?.getD none).map fun x => (i, x)) = none := by
  have hget (j : Nat) (hj : j < 4) : v.toList[j]?.getD none = v.get ⟨j, hj⟩ := by
    rw [List.getElem?_eq_getElem (by simpa using hj)]
    rfl
  rw [List.findSome?_eq_none_iff]
  intro j hj
  obtain ⟨-, hlt⟩ := mem_rangeFrom.mp hj
  rw [hget j (by omega), h]
  rfl

/-! ### Reels that an ending strand leaves -/

/-- A state that what reels do leads to: reels, and how waits on them end. -/
def State.reeled (s u : State) : Prop :=
  u = { s with hart := s.hart.waiting u.hart.wait, parked := u.parked, reels := u.reels }

theorem State.reeled.trans {s t u : State} (h₁ : s.reeled t) (h₂ : t.reeled u) : s.reeled u := Eq.trans h₂ (by rw [h₁]; rfl)

theorem putReel_reeled (r : Reel) (s : State) : s.reeled (putReel r s) := rfl

theorem decideWaits_reeled (launch token what : Nat) (s : State) : s.reeled (decideWaits launch token what s) := by
  unfold State.reeled decideWaits
  dsimp only
  split <;> rfl

theorem settleReel_reeled (r : Reel) (s : State) : s.reeled (settleReel r s) := by
  unfold settleReel
  split
  · exact (putReel_reeled _ s).trans (decideWaits_reeled ..)
  · exact putReel_reeled r s

theorem leaveReels_reeled (sid launch : Nat) (s : State) : s.reeled (leaveReels sid launch s) := by
  refine foldl_related (R := State.reeled) (fun _ => rfl) State.reeled.trans _ (fun r _ u => ?_) s
  split
  · split
    · rfl
    · exact settleReel_reeled _ u
  · split
    · exact putReel_reeled _ u
    · rfl

/-! ### Chains without links -/

theorem takePrompt_unlinked {ci : Nat} {s : State} (h : (s.hart.chain ci).links = []) : takePrompt ci s = (false, s) := by
  unfold takePrompt runningPeers
  rw [h]
  split <;> rfl

/-- The release of a chain that has no links frees its handle and its ports (R218). -/
theorem dropChain_unlinked {ci : Nat} {s : State} (h : (s.hart.chain ci).links = []) :
    dropChain ci s = { modChain ci (fun _ => .free) s with
      cores := s.cores.map fun k => { k with portHolder := k.portHolder.filter fun x => !(x.2.1 == s.hart.sid && x.2.2 == ci) } } := by
  simp only [dropChain, takePrompt_unlinked h, h]
  rfl

/-- A state that the release of such chains leads to: chain handles and ports. -/
def State.unchains (s u : State) : Prop := u = { s with hart := { s.hart with c := u.hart.c }, cores := u.cores }

theorem foldl_dropChain_unlinked (cis : List Nat) {s : State} (h : ∀ i : Fin 4, (s.hart.c.get i).links = []) :
    s.unchains (cis.foldl (fun s ci => dropChain ci s) s) ∧
      ∀ i : Fin 4, (cis.foldl (fun s ci => dropChain ci s) s).hart.c.get i =
        if i.1 ∈ cis.map (· % 4) then .free else s.hart.c.get i := by
  induction cis generalizing s with
  | nil => exact ⟨rfl, fun i => by simp⟩
  | cons ci cis ih =>
    have hdrop := dropChain_unlinked (h ⟨ci % 4, Nat.mod_lt _ (by decide)⟩)
    have hc (i : Fin 4) : (dropChain ci s).hart.c.get i = if i.1 = ci % 4 then .free else s.hart.c.get i := by
      rw [hdrop]
      show (s.hart.c.set (ci % 4) .free (Nat.mod_lt _ (by decide)))[i.1] = _
      rw [Vector.getElem_set]
      simp only [eq_comm]
      rfl
    obtain ⟨hrel, hfree⟩ := ih (s := dropChain ci s) fun i => by rw [hc]; split; exacts [rfl, h i]
    refine ⟨?_, fun i => ?_⟩
    · rw [List.foldl_cons]
      exact Eq.trans hrel (by rw [hdrop]; rfl)
    · rw [List.foldl_cons, hfree, hc, List.map_cons]
      by_cases hi : i.1 = ci % 4
      · rw [if_pos hi, if_pos (List.mem_cons.mpr (.inl hi)), ite_self]
      · rw [if_neg hi]
        simp only [List.mem_cons, hi, false_or]

/-! ### The end of a strand -/

/-- A strand without links and without a claim image ends: its held stores, queues, slices, links and chains go, and no byte of memory
changes (R387). -/
theorem endHart_unlinked {s : State} (hk : s.hart.kept = []) (hl : ∀ i : Fin 4, (s.hart.c.get i).links = []) :
    (endHart s).hart.status = .ended ∧ (endHart s).hart.strip.buffer = [] ∧ (endHart s).hart.slices = [] ∧
      (∀ q, (endHart s).hart.queue q = .empty) ∧ (∀ i : Fin 4, (endHart s).hart.c.get i = .free) ∧
      (∀ l ∈ (endHart s).links, l.sid ≠ s.hart.sid) ∧ (endHart s).hart.x = s.hart.x ∧ (endHart s).hart.v = s.hart.v ∧
      (endHart s).mem = s.mem := by
  obtain ⟨hrel, hfree⟩ := foldl_dropChain_unlinked (rangeFrom 0 4) hl
  have hchains : dropChains s = (rangeFrom 0 4).foldl (fun s ci => dropChain ci s) s := by
    have hself : ({ s with hart := { s.hart with kept := [] } } : State) = s := by rw [← hk]
    simp only [dropChains, hself, hk, if_true]
  rw [← hchains] at hrel hfree
  have hreels := leaveReels_reeled (dropChains s).hart.sid (dropChains s).hart.launch (dropLinks (dropChains s).hart.sid
    { dropChains s with hart := { (dropChains s).hart with
        status := .ended, strip := { (dropChains s).hart.strip with buffer := [], rewindable := false }, wait := none, hit := none
        q := Vector.replicate 8 .empty, slices := [], badSlice := [], cuts := Vector.replicate 4 none
        hits := Vector.replicate 4 none, step := none, watch := [] } })
  change State.reeled _ (endHart s) at hreels
  refine ⟨by rw [hreels]; rfl, by rw [hreels]; rfl, by rw [hreels]; rfl, fun q => ?_, fun i => ?_, fun l hmem => ?_, ?_, ?_, ?_⟩
  · rw [hreels]
    show nth (Vector.replicate 8 Queue.empty).toList q .empty = .empty
    rw [nth, Vector.toList_replicate, List.getElem?_replicate]
    split <;> rfl
  · rw [hreels]
    show (dropChains s).hart.c.get i = .free
    rw [hfree, if_pos]
    revert i
    decide
  · have hsid : (dropChains s).hart.sid = s.hart.sid := by rw [hrel]
    rw [hreels] at hmem
    have h := (List.mem_filter.mp hmem).2
    rw [← hsid]
    simpa using h
  · rw [hreels]
    show (dropChains s).hart.x = s.hart.x
    rw [hrel]
  · rw [hreels]
    show (dropChains s).hart.v = s.hart.v
    rw [hrel]
  · rw [hreels]
    show (dropChains s).mem = s.mem
    rw [hrel]

theorem drainWhenEnded_eq (launch : Nat) (s : State) :
    drainWhenEnded launch s = { s with launches := (drainWhenEnded launch s).launches } := by
  unfold drainWhenEnded
  split
  · rfl
  · split <;> rfl

/-- A strand that reaches address 0 in user mode commits its strip and ends (R387). -/
theorem exec_strandEnd_user {s : State} (hrun : s.hart.status = .running) (hw : s.hart.wait = none) (hpc : s.hart.pc = 0#64)
    (hm : s.hart.mode = .user) (hb : s.hart.bad = []) :
    ∃ u : State, u.withHart { u.hart with strip := { u.hart.strip with rewindable := false } } = s.committed ∧
      exec .strandEnd s = .next (drainWhenEnded s.hart.launch (endHart u)) := by
  refine ⟨_, rfl, ?_⟩
  have hgo : ¬ (s.hart.status ≠ .running ∨ s.hart.pc ≠ 0#64 ∨ s.hart.wait.isSome = true) := by simp [hrun, hw, hpc]
  have hsup : ¬ s.hart.mode = .supervisor := by rw [hm]; decide
  show execStrandEnd s = _
  simp only [execStrandEnd, if_neg hgo, if_neg hsup, commitStrip, run_bind, run_get, hb, List.any_nil, Bool.false_eq_true, if_false,
    run_set]

theorem exec_strandEnd_supervisor {s : State} (hrun : s.hart.status = .running) (hw : s.hart.wait = none) (hpc : s.hart.pc = 0#64)
    (hm : s.hart.mode = .supervisor) : exec .strandEnd s = .next (fatalFault s.hart.sid 12 0#64 s) := by
  have hgo : ¬ (s.hart.status ≠ .running ∨ s.hart.pc ≠ 0#64 ∨ s.hart.wait.isSome = true) := by simp [hrun, hw, hpc]
  show execStrandEnd s = _
  simp only [execStrandEnd, if_neg hgo, if_pos hm]

/-! ### Pending events (R275) -/

section
variable {s : State} (hrun : s.hart.status = .running) (hw : s.hart.wait = none) (hm : s.hart.mode = .user)
include hrun hw hm

/-- A chain's cut traps before all else. -/
theorem exec_asyncEventTake_cut {i : Fin 4} {c : Nat × Word} (hc : s.hart.cuts.get i = some c)
    (hlow : ∀ j, j < i → s.hart.cuts.get j = none) :
    exec .asyncEventTake s = .next (takeTrap c.1 c.2 (s.withHart { s.hart with cuts := s.hart.cuts.set i none })) := by
  have hgo : ¬ (s.hart.status ≠ .running ∨ s.hart.mode ≠ .user ∨ s.hart.wait.isSome = true) := by simp [hrun, hw, hm]
  show execAsyncEventTake s = _
  simp only [execAsyncEventTake, if_neg hgo, findSome_first hc hlow, Nat.mod_eq_of_lt i.2]
  rfl

/-- Then a watchpoint's hit. -/
theorem exec_asyncEventTake_hit {i : Fin 4} {w : Word} (hc : ∀ i, s.hart.cuts.get i = none) (hi : s.hart.hits.get i = some w)
    (hlow : ∀ j, j < i → s.hart.hits.get j = none) :
    exec .asyncEventTake s = .next (takeTrap 3 w (s.withHart { s.hart with hits := s.hart.hits.set i none })) := by
  have hgo : ¬ (s.hart.status ≠ .running ∨ s.hart.mode ≠ .user ∨ s.hart.wait.isSome = true) := by simp [hrun, hw, hm]
  show execAsyncEventTake s = _
  simp only [execAsyncEventTake, if_neg hgo, findSome_nothing hc, findSome_first hi hlow, Nat.mod_eq_of_lt i.2]
  rfl

/-- And then a step. -/
theorem exec_asyncEventTake_step {w : Word} (hc : ∀ i, s.hart.cuts.get i = none) (hi : ∀ i, s.hart.hits.get i = none)
    (hstep : s.hart.step = some w) :
    exec .asyncEventTake s = .next (takeTrap 3 w (s.withHart { s.hart with step := none })) := by
  have hgo : ¬ (s.hart.status ≠ .running ∨ s.hart.mode ≠ .user ∨ s.hart.wait.isSome = true) := by simp [hrun, hw, hm]
  show execAsyncEventTake s = _
  simp only [execAsyncEventTake, if_neg hgo, findSome_nothing hc, findSome_nothing hi, hstep]
  rfl

end

/-! ### Calls, breakpoints and illegal words -/

theorem exec_ecall (s : State) : exec .ecall s = .next (takeTrap (if s.hart.mode = .user then 8 else 9) 0#64 s) :=
  runInstr_trap (i := .ecall) rfl

theorem exec_ebreak (s : State) : exec .ebreak s = .next (takeTrap 3 s.hart.pc s) := runInstr_trap (i := .ebreak) rfl

theorem exec_encodingThatSelectsNothing (bits : BitVec 32) (s : State) :
    exec (.encodingThatSelectsNothing bits) s = .next (takeTrap 2 (bits.zeroExtend 64) s) := by
  have hbits : instrBits (.encodingThatSelectsNothing bits) = bits.zeroExtend 64 := by
    show BitVec.ofNat 64 bits.toNat = _
    simp
  rw [← hbits]
  exact runInstr_illegal (i := .encodingThatSelectsNothing bits) (run_illegal s)

/-- Settles O26: what each trap takes, and what the end of a strand leaves. -/
theorem environmentCallsAndEvents : Obligations.EnvironmentCallsAndEvents := by
  refine ⟨fun s => ⟨fun _ => ⟨fun hm => ?_, fun hm => ?_, exec_ebreak s⟩, fun bits => exec_encodingThatSelectsNothing bits s⟩,
    fun s hrun hw => ⟨fun hm => ⟨fun i c => exec_asyncEventTake_cut hrun hw hm, fun hc => ⟨fun i w => exec_asyncEventTake_hit hrun hw hm hc,
      fun w => exec_asyncEventTake_step hrun hw hm hc⟩⟩, fun hpc hm hb _ hk hl => ?_, exec_strandEnd_supervisor hrun hw⟩⟩
  · rw [exec_ecall, if_pos hm]
  · rw [exec_ecall, if_neg (by rw [hm]; decide)]
  · obtain ⟨u, hu, hexec⟩ := exec_strandEnd_user hrun hw hpc hm hb
    have hkept := committed_hart s
    rw [← hu] at hkept
    have hc : u.hart.c = s.hart.c := (congrArg Strand.c hkept :)
    have hsid : u.hart.sid = s.hart.sid := (congrArg Strand.sid hkept :)
    have hx : u.hart.x = s.hart.x := (congrArg Strand.x hkept :)
    have hv : u.hart.v = s.hart.v := (congrArg Strand.v hkept :)
    have hmem : u.mem = s.committed.mem := (congrArg State.mem hu :)
    have hended := endHart_unlinked (s := u) ((congrArg Strand.kept hkept :).trans hk) (by rw [hc]; exact hl)
    rw [hsid, hx, hv, hmem] at hended
    refine ⟨_, hexec, ?_⟩
    rw [drainWhenEnded_eq]
    exact hended

end Sys2Proof.Machine
end

section
/-!
PROOF. O27: claim and sret (R88, R278, R286).
-/
namespace Sys2Proof.Machine

theorem plain_steady {h : Strand} (hp : h.plain = true) : h.hit = none ∧ h.estep = false := by
  simpa [Strand.plain] using hp

/-! ### sret (R278) -/

/-- What an sret does. -/
def sretBody : M Unit := do
  let h ← getH
  if h.mode = .user then illegal
  if h.claimed then reloadClaim
  modify returnFromTrap
  if h.claimed then modify reformAll

/-- What a claim does. -/
def claimBody : M Unit := do
  let h ← getH
  if h.mode = .user then illegal
  if h.claimed then pure ()
  else do
    let pages ← claimPages .store
    modify cutAllAuto
    modify (dropLinks h.sid)
    let h ← getH
    modify (writeClaim h pages)
    modH Strand.cleared

theorem exec_sret (s : State) : exec .sret s = runInstr .sret sretBody s := rfl

theorem exec_claim (s : State) : exec .claim s = runInstr .claim claimBody s := rfl

/-- Neither is for user mode (R101). -/
theorem exec_user {s : State} (hm : s.hart.mode = .user) :
    exec .sret s = .next (takeTrap 2 (instrBits .sret) s) ∧ exec .claim s = .next (takeTrap 2 (instrBits .claim) s) := by
  refine ⟨runInstr_illegal (i := .sret) (body := sretBody) ?_, runInstr_illegal (i := .claim) (body := claimBody) ?_⟩
  · simp only [sretBody, run_bind, run_getH, if_pos hm, run_illegal]
  · simp only [claimBody, run_bind, run_getH, if_pos hm, run_illegal]

section
variable {s : State} (hm : s.hart.mode = .supervisor)
include hm

theorem sretBody_unclaimed (hc : s.hart.claimed = false) : sretBody s = .ok () (returnFromTrap s) := by
  have huser : ¬ s.hart.mode = .user := by rw [hm]; decide
  simp only [sretBody, run_bind, run_getH, if_neg huser, hc, Bool.false_eq_true, if_false, run_modify, run_pure]

theorem sretBody_claimed (hc : s.hart.claimed = true) {t : State} (ht : reloadClaim s = .ok () t) :
    sretBody s = .ok () (reformAll (returnFromTrap t)) := by
  have huser : ¬ s.hart.mode = .user := by rw [hm]; decide
  simp only [sretBody, run_bind, run_getH, if_neg huser, hc, if_true, ht, run_modify]

/-- An sret with a claim image that is put back ends with the chains re-formed. -/
theorem exec_sret_claimed (he : s.hart.estep = false) (hc : s.hart.claimed = true) {t : State} (ht : reloadClaim s = .ok () t)
    (hh : (reformAll (returnFromTrap t)).hart.hit = none) :
    exec .sret s = .next ((reformAll (returnFromTrap t)).completes (reformAll (returnFromTrap t)).hart) := by
  rw [exec_sret, runInstr_ok (sretBody_claimed hm hc ht), retire_completes he hh]

end

/-- The status that an sret leaves: SIE from SPIE, SPIE 1, SPP user (R278). -/
def returnStatus (st : Word) : Word := st &&& ~~~(0x122#64) ||| (if st.getLsbD 5 then 0x2#64 else 0#64) ||| 0x20#64

theorem returnStatus_bits (st : Word) : (returnStatus st).getLsbD 1 = st.getLsbD 5 ∧ (returnStatus st).getLsbD 5 = true ∧
    (returnStatus st).getLsbD 8 = false ∧ ∀ i, i ≠ 1 → i ≠ 5 → i ≠ 8 → (returnStatus st).getLsbD i = st.getLsbD i := by
  have hbit (i : Nat) : (returnStatus st).getLsbD i =
      if i = 8 then false else if i = 5 then true else if i = 1 then st.getLsbD 5 else st.getLsbD i := by
    unfold returnStatus
    by_cases h64 : i < 64
    · cases st.getLsbD 5 <;> interval_cases i <;> simp
    · have hi : 64 ≤ i := by omega
      rw [BitVec.getLsbD_of_ge _ _ hi, BitVec.getLsbD_of_ge st _ hi, if_neg (by omega), if_neg (by omega), if_neg (by omega)]
  refine ⟨by rw [hbit]; rfl, by rw [hbit]; rfl, by rw [hbit]; rfl, fun i h1 h5 h8 => ?_⟩
  rw [hbit, if_neg h8, if_neg h5, if_neg h1]

/-- What an sret of a strand that has not claimed leaves. -/
theorem exec_sret_unclaimed {s : State} (hp : s.hart.plain = true) (hm : s.hart.mode = .supervisor) (hc : s.hart.claimed = false) :
    exec .sret s = .next (s.completes { s.hart with
      mode := if s.hart.csr.sstatus.getLsbD 8 then .supervisor else .user, npc := s.hart.csr.sepc
      csr := { s.hart.csr with sstatus := returnStatus s.hart.csr.sstatus } }) := by
  obtain ⟨hh, he⟩ := plain_steady hp
  rw [exec_sret, runInstr_ok (sretBody_unclaimed hm hc), retire_completes he (show (returnFromTrap s).hart.hit = none from hh)]
  rfl

/-! ### The pages of the claim area -/

/-- Accesses that reach their places are translated, one after another. -/
theorem translateEach_ok {k : Access} {n : Nat} {g : Nat → Nat} {is pages : List Nat} : ∀ {s : State}, s.choices = [] →
    List.Forall₂ (fun i pa => s.reaches k (g i) n pa = true) is pages →
    mapEach is (fun i => translateIdem k (g i)) s = .ok pages (s.walkedAll (is.map g)) := by
  induction is generalizing pages with
  | nil => rintro s - ⟨⟩; rfl
  | cons i is ih =>
    rintro s hs (_ | ⟨h, hrest⟩)
    exact mapEach_cons (translateIdem_ok hs h) (ih (s := s.walked (g i) none) hs hrest)

/-- The pages of a claim area that is reached whole (R278). -/
theorem claimPages_ok {k : Access} {s : State} {pages : List Nat} (hs : s.choices = []) (hlen : pages.length = claimBytes / 4096)
    (hr : ∀ i, i < pages.length → s.reaches k ((s.hart.claimVa + 4096 * i) % 2 ^ 64) 4096 (nth pages i 0) = true) :
    claimPages k s = .ok pages
      (s.walkedAll ((rangeFrom 0 (claimBytes / 4096)).map fun i => (s.hart.claimVa + 4096 * i) % 2 ^ 64)) := by
  simp only [claimPages, run_bind, run_getH]
  revert hlen
  generalize claimBytes / 4096 = n
  intro hlen
  refine translateEach_ok (n := 4096) (g := fun i => (s.hart.claimVa + 4096 * i) % 2 ^ 64) hs (List.forall₂_iff_get.mpr ⟨?_, fun i h₁ h₂ => ?_⟩)
  · rw [length_rangeFrom, hlen]
  · have hat : (rangeFrom 0 n)[i]? = some (0 + i) := getElem?_rangeFrom (hlen ▸ h₂)
    have hpage : nth pages i 0 = pages.get ⟨i, h₂⟩ := by rw [nth, List.getElem?_eq_getElem h₂]; rfl
    rw [List.getElem?_eq_getElem h₁, Option.some.injEq, Nat.zero_add] at hat
    rw [← hpage, List.get_eq_getElem, hat]
    exact hr i h₂

/-- A read that meets no uncorrectable word marks none. -/
theorem suspectRead_good {s : State} {pa n : Nat} (h : readsBad s pa n = false) : suspectRead pa n s = s := by
  have hnone : (s.poison.filter fun w => decide (w < pa + n) && decide (pa < w + 8) && decide (w < 2 ^ 40)) = [] := by
    rw [readsBad, Bool.or_eq_false_iff, List.any_eq_false] at h
    exact List.filter_eq_nil_iff.mpr fun w hw hw' => h.2 w hw (Bool.and_eq_true_iff.mp hw').1
  simp only [suspectRead, hnone, List.foldl_nil]

/-- It meets none where some of them are left out. -/
theorem readsBad_fewer {s : State} {pa n : Nat} (p : Nat → Bool) (h : readsBad s pa n = false) :
    readsBad { s with poison := s.poison.filter p } pa n = false := by
  rw [readsBad, Bool.or_eq_false_iff, List.any_eq_false] at h ⊢
  exact ⟨h.1, fun w hw => h.2 w (List.mem_of_mem_filter hw)⟩

/-- The bytes of a claim image that can be read (R286). -/
theorem readClaim_ok {s : State} {pages : List Nat} (hg : ∀ p ∈ pages, readsBad s p 4096 = false) :
    readClaim pages s = .ok (pages.flatMap fun p => s.mem.bulk p 4096) s := by
  have hsuspect : pages.foldl (fun s p => suspectRead p 4096 s) s = s := by
    induction pages with
    | nil => rfl
    | cons p pages ih =>
      rw [List.foldl_cons, suspectRead_good (hg p (by simp)), ih fun q hq => hg q (by simp [hq])]
  have hread : (pages.any fun p => readsBad { s with poison := s.poison.filter fun w =>
      !(s.hart.keptBad.flatMap fun b => b.2.map (claimAddr pages)).contains w } p 4096) = false := by
    rw [List.any_eq_false]
    exact fun p hp => by rw [readsBad_fewer _ (hg p hp)]; decide
  simp only [readClaim, run_bind, run_get, run_modify, hsuspect, hread, Bool.false_eq_true, if_false, run_pure]

/-! ### Free chains -/

/-- The first word of a chain's image stands where the image does. -/
theorem sub_image (bs : List Byte) (o : Nat) : sub ((bs.drop o).take imageBytes) 0 8 = sub bs o 8 := by
  have hmin : min 8 imageBytes = 8 := Nat.min_eq_left (by unfold imageBytes; omega)
  simp only [sub, List.drop_zero, List.take_take, hmin]

section
variable {ci : Nat} {s : State} (hf : s.hart.chain ci = .free)
  (hp : ∀ k ∈ s.cores, ∀ x ∈ k.portHolder, x.2.1 ≠ s.hart.sid)
include hf

/-- A free chain put in a free handle changes nothing. -/
theorem putChain_free : s.hart.putChain ci .free = s.hart := by
  have hset : s.hart.c.set (ci % 4) .free (Nat.mod_lt _ (by decide)) = s.hart.c := by
    rw [← hf]
    exact Vector.set_getElem_self ..
  simp only [Strand.putChain, hset]

include hp

/-- The release of a free chain of a strand that holds no port changes nothing. -/
theorem dropChain_free : dropChain ci s = s := by
  have hports : (s.cores.map fun k => { k with portHolder := k.portHolder.filter fun x => !(x.2.1 == s.hart.sid && x.2.2 == ci) }) =
      s.cores := by
    refine (List.map_congr_left fun k hk => ?_).trans (List.map_id _)
    have hkept : (k.portHolder.filter fun x => !(x.2.1 == s.hart.sid && x.2.2 == ci)) = k.portHolder :=
      List.filter_eq_self.mpr fun x hx => by simp [hp k hk x hx]
    rw [hkept]
    rfl
  rw [dropChain_unlinked (by rw [hf]; rfl), hports, modChain, putChain_free hf]

/-- A handle whose image says FREE, and of which nothing else is kept, stays free (R278). -/
theorem reclaimChain_free {kept : List Chain} {bs : List Byte} (hk : nth kept ci .free = .free)
    (hbad : (imageFields ((bs.drop (0x1000 + imageBytes * ci)).take imageBytes) true).any (·.2) = false)
    (hst : sub bs (0x1000 + imageBytes * ci) 8 % 8 = 0) : reclaimChain kept bs ci s = .ok () s := by
  have hstate : sub ((bs.drop (0x1000 + imageBytes * ci)).take imageBytes) 0 8 % 8 = 0 := by
    rw [sub_image, hst]
  have hload : loadImage ci ((bs.drop (0x1000 + imageBytes * ci)).take imageBytes) true s = .ok true s := by
    simp only [loadImage, run_bind, run_get, hbad, hstate, Bool.false_eq_true, if_false, if_true, run_modify, dropChain_free hf hp,
      run_pure]
  have himage : reclaimChain kept bs ci s = if (s.hart.putChain ci .free).image ci =
      (bs.drop (0x1000 + imageBytes * ci)).take imageBytes then .ok () (s.withHart (s.hart.putChain ci Chain.free.absorbLate))
      else .ok () s := by
    simp only [reclaimChain, run_bind, run_getH, hk]
    split
    · rfl
    · simp only [run_bind, hload, if_true, run_pure]
  have hlate : Chain.free.absorbLate = .free := rfl
  rw [himage, hlate, putChain_free hf]
  split <;> rfl

end

/-- No field of a claim image's chains is bad where none of the image is. -/
theorem claimBadField_chain {bs : List Byte} (h : claimBadField bs = none) {ci : Nat} (hci : ci < 4) :
    (imageFields ((bs.drop (0x1000 + imageBytes * ci)).take imageBytes) true).any (·.2) = false := by
  simp only [claimBadField, List.findSome?_eq_none_iff] at h
  rw [List.any_eq_false]
  intro f hf hbad
  have hnone := h (0x1000 + imageBytes * ci + f.1, f.2) (List.mem_append_right _ (List.mem_flatMap.mpr
    ⟨ci, mem_rangeFrom.mpr ⟨Nat.zero_le _, by omega⟩, List.mem_map.mpr ⟨f, hf, rfl⟩⟩))
  simp [hbad] at hnone

/-- An operation that changes nothing, for each of some. -/
theorem forEach_unchanged {f : α → M Unit} {as : List α} {s : State} (h : ∀ a ∈ as, f a s = .ok () s) : forEach as f s = .ok () s := by
  induction as with
  | nil => rfl
  | cons a as ih =>
    rw [forEach_cons, h a (by simp)]
    exact ih fun b hb => h b (by simp [hb])

/-- Chains that do not run are not re-formed (R222). -/
theorem reformAll_free {s : State} (hf : ∀ i : Fin 4, s.hart.c.get i = .free) : reformAll s = s := by
  have hchain (ci : Nat) : ¬ ((s.hart.chain ci).state = .running ∧ (s.hart.chain ci).cause = 7) := by
    rw [Strand.chain, hf]
    rintro ⟨h, -⟩
    cases h
  simp only [reformAll, rangeFrom, List.foldl_cons, List.foldl_nil, if_neg (hchain _)]

/-- Every chain of a claim image is loaded, in place of the handler's own (R278). -/
def reclaimAll (kept : List Chain) (bs : List Byte) : M Unit := do
  modify fun s => { reloadClaim.dropChainsOwn s with hart := { (reloadClaim.dropChainsOwn s).hart with kept := [] } }
  forEach (rangeFrom 0 4) (reclaimChain kept bs)

/-- The claimed parts of a strand h come back from a claim image that has been read. -/
def reclaimParts (h : Strand) (pages : List Nat) (bs : List Byte) : M Unit := do
  let saved ← get
  match reclaimAll h.kept bs saved with
  | .error e _ => throw e
  | .ok _ s' =>
    set s'
    modH fun k => { k.fromShared bs with
      claimed := false, keptBad := []
      bad := (k.bad.filter fun b => !decide (b.src < 6)) ++ (claimBadWords saved h pages).map (·.1) }

/-- The strand that a claim image whose chains are free is put back into (R278, R286). -/
def State.reclaimed (s : State) (pages : List Nat) : State :=
  s.withHart { ({ s.hart with kept := [] } : Strand).fromShared (pages.flatMap fun p => s.mem.bulk p 4096) with
    claimed := false, keptBad := []
    bad := (s.hart.bad.filter fun b => !decide (b.src < 6)) ++ (claimBadWords s s.hart pages).map (·.1) }

/-- A claim image that can be read, with legal fields and free chains, is put back (R278). -/
theorem reloadClaim_ok {s z : State} {pages : List Nat} (hz : claimPages .load s = .ok pages z) (hread : s.reading z)
    (hg : ∀ p ∈ pages, readsBad s p 4096 = false) (hfields : claimBadField (pages.flatMap fun p => s.mem.bulk p 4096) = none)
    (hf : ∀ i : Fin 4, s.hart.c.get i = .free ∧ nth s.hart.kept i .free = .free ∧
      sub (pages.flatMap fun p => s.mem.bulk p 4096) (0x1000 + imageBytes * i) 8 % 8 = 0)
    (hp : ∀ k ∈ s.cores, ∀ x ∈ k.portHolder, x.2.1 ≠ s.hart.sid) : reloadClaim s = .ok () (z.reclaimed pages) := by
  have hhart := hread.hart_eq
  have hmem : z.mem = s.mem := by rw [hread.1]
  have hcores : z.cores = s.cores := by rw [hread.1]
  have hgood (p : Nat) (h : p ∈ pages) : readsBad z p 4096 = false := by rw [hread.1]; exact hg p h
  rw [← hmem] at hfields hf
  rw [← hhart] at hf hp
  rw [← hcores] at hp
  have hchain (ci : Nat) : z.hart.chain ci = .free := (hf _).1
  have hdrop : reloadClaim.dropChainsOwn z = z := by
    simp only [reloadClaim.dropChainsOwn, rangeFrom, List.foldl_cons, List.foldl_nil, dropChain_free (hchain _) hp]
  have hloop := forEach_unchanged (f := reclaimChain z.hart.kept (pages.flatMap fun p => z.mem.bulk p 4096)) (as := rangeFrom 0 4)
    (s := z.withHart { z.hart with kept := [] }) fun ci hci => by
      have hlt : ci < 4 := by simpa using (mem_rangeFrom.mp hci).2
      obtain ⟨-, hk, hst⟩ := hf ⟨ci, hlt⟩
      exact reclaimChain_free (s := z.withHart { z.hart with kept := [] }) (hchain ci) hp hk (claimBadField_chain hfields hlt) hst
  have hall : reclaimAll z.hart.kept (pages.flatMap fun p => z.mem.bulk p 4096) z =
      .ok () (z.withHart { z.hart with kept := [] }) := by
    simp only [reclaimAll, run_bind, run_modify, hdrop]
    exact hloop
  have hparts : reloadClaim s = reclaimParts z.hart pages (pages.flatMap fun p => z.mem.bulk p 4096) z := by
    simp only [reloadClaim, run_bind, run_getH, hz, readClaim_ok hgood, hfields, ← hhart]
    rfl
  rw [hparts]
  simp only [reclaimParts, run_bind, run_get, hall, run_set, run_modH]
  rfl

theorem reclaimed_reading {s z : State} (h : s.reading z) (pages : List Nat) : z.reclaimed pages =
    z.withHart { ({ s.hart with kept := [] } : Strand).fromShared (pages.flatMap fun p => s.mem.bulk p 4096) with
      claimed := false, keptBad := []
      bad := (s.hart.bad.filter fun b => !decide (b.src < 6)) ++ (claimBadWords s s.hart pages).map (·.1) } := by
  have hmem : z.mem = s.mem := by rw [h.1]
  have hbad : claimBadWords z s.hart pages = claimBadWords s s.hart pages := by rw [h.1]; rfl
  rw [State.reclaimed, h.hart_eq, hmem, hbad]

theorem exec_sret_reclaimed {s z : State} {pages : List Nat} (hpl : s.hart.plain = true) (hm : s.hart.mode = .supervisor)
    (hc : s.hart.claimed = true) (hread : s.reading z) (hf : ∀ i : Fin 4, s.hart.c.get i = .free)
    (ht : reloadClaim s = .ok () (z.reclaimed pages)) :
    exec .sret s = .next ((returnFromTrap (z.reclaimed pages)).completes (returnFromTrap (z.reclaimed pages)).hart) := by
  obtain ⟨hh, he⟩ := plain_steady hpl
  have hre : reformAll (returnFromTrap (z.reclaimed pages)) = returnFromTrap (z.reclaimed pages) :=
    reformAll_free fun i => (show (returnFromTrap (z.reclaimed pages)).hart.c.get i = z.hart.c.get i from rfl).trans
      (by rw [hread.hart_eq]; exact hf i)
  have hhit : (returnFromTrap (z.reclaimed pages)).hart.hit = none :=
    (show _ = z.hart.hit from rfl).trans (by rw [hread.hart_eq]; exact hh)
  have h := exec_sret_claimed hm he hc ht (by rw [hre]; exact hhit)
  rwa [hre] at h

/-! ### claim (R278) -/

/-- A state that u is written from: the running strand's hits are all of it that has changed. -/
def State.hitting (s u : State) : Prop := u.hart = { s.hart with hits := u.hart.hits }

theorem State.hitting.trans {s t u : State} (h₁ : s.hitting t) (h₂ : t.hitting u) : s.hitting u := Eq.trans h₂ (by rw [h₁])

theorem homeWriteAll_hitting (a : Agent) (pa : Nat) (bs : List Byte) (s : State) : s.hitting (homeWriteAll a pa bs s) := by
  unfold homeWriteAll
  split
  · exact foldl_related (R := State.hitting) (fun _ => rfl) State.hitting.trans _ (fun _ _ u => homeWrite_hart _ _ _ u) s
  · exact homeWrite_hart a pa bs s

theorem rasLog_hitting (kind loc pa : Nat) (s : State) : s.hitting (rasLog kind loc pa s) := by
  unfold rasLog
  dsimp only
  split
  · show State.hitting s (hbmWrite _ _ s)
    unfold hbmWrite
    split
    · exact homeWrite_hart ..
    · rfl
  · rfl

theorem poisonSaved_hitting (w : Nat) (s : State) : s.hitting (poisonSaved s w) := by
  unfold poisonSaved
  split
  · rfl
  · exact rasLog_hitting _ _ _ { s with poison := setAdd w s.poison }

/-- The claim image is written without the strand's registers (R278). -/
theorem writeClaim_hitting (h : Strand) (pages : List Nat) (s : State) : s.hitting (writeClaim h pages s) := by
  unfold writeClaim
  refine State.hitting.trans (foldl_related (R := State.hitting) (fun _ => rfl) State.hitting.trans _ (fun p _ u => ?_) s)
    (foldl_related (R := State.hitting) (fun _ => rfl) State.hitting.trans _ (fun b _ u => ?_) _)
  · exact homeWriteAll_hitting h.agent p.1 p.2 u
  · exact foldl_related (R := State.hitting) (fun _ => rfl) State.hitting.trans _ (fun o _ u => poisonSaved_hitting _ u) u

/-- Chains that are not configured are not cut (R222). -/
theorem cutAllAuto_unchained {s : State} (hu : s.hart.unchained = true) : cutAllAuto s = s := by
  have hcut (ci : Nat) : cutChain ci 7 7 none s = s := by
    have hmem : s.hart.chain ci ∈ s.hart.c.toList := List.getElem_mem (by simpa using Nat.mod_lt ci (by decide : 0 < 4))
    have hstate := List.all_eq_true.mp hu _ hmem
    have hruns : (s.hart.chain ci).runs = false := by
      rw [Chain.runs]
      cases hst : (s.hart.chain ci).state <;> simp_all
    simp only [cutChain, hruns, Bool.not_false, if_true]
  simp only [cutAllAuto, rangeFrom, List.foldl_cons, List.foldl_nil, hcut]

theorem exec_claim_again {s : State} (hpl : s.hart.plain = true) (hm : s.hart.mode = .supervisor) (hc : s.hart.claimed = true) :
    exec .claim s = .next (s.completes s.hart) := by
  obtain ⟨hh, he⟩ := plain_steady hpl
  have huser : ¬ s.hart.mode = .user := by rw [hm]; decide
  refine (exec_claim s).trans (completes_of_ok he (h := s.hart) ?_ hh)
  simp only [claimBody, run_bind, run_getH, if_neg huser, hc, if_true, run_pure]
  rfl

theorem dropLinks_reading {s z : State} (h : s.reading z) (sid : Nat) :
    dropLinks sid z = { z with links := s.links.filter fun l => l.sid != sid } := by
  rw [dropLinks, show z.links = s.links by rw [h.1]]

/-! What stands in the parts that a claim clears (R88). -/

theorem cleared_tag (h : Strand) (r : BitVec 5) : h.cleared.tag r = .none := by
  show (Vector.replicate 32 ETag.none)[r.toFin.1] = .none
  simp

theorem cleared_v (h : Strand) (r : BitVec 5) : h.cleared.v.get r.toFin = 0#65536 := by
  show (Vector.replicate 32 0#65536)[r.toFin.1] = 0#65536
  simp

theorem cleared_shape (h : Strand) (m : BitVec 3) : h.cleared.shape m = .none := by
  show (Vector.replicate 8 TShape.none)[m.toFin.1] = .none
  simp

/-- A claim writes the image and clears the claimed parts (R278). -/
theorem exec_claim_first {s z w t : State} {pages : List Nat} (hpl : s.hart.plain = true) (hm : s.hart.mode = .supervisor)
    (hc : s.hart.claimed = false) (hu : s.hart.unchained = true) (hz : claimPages .store s = .ok pages z) (hread : s.reading z)
    (hw : dropLinks s.hart.sid z = w) (ht : writeClaim s.hart pages w = t) :
    exec .claim s = .next (t.completes t.hart.cleared) ∧ t.hart = { s.hart with hits := t.hart.hits } := by
  obtain ⟨hh, he⟩ := plain_steady hpl
  have huser : ¬ s.hart.mode = .user := by rw [hm]; decide
  have hcut : cutAllAuto z = z := cutAllAuto_unchained (by rw [hread.hart_eq]; exact hu)
  have hhart : w.hart = s.hart := hw ▸ hread.hart_eq
  have hkept : t.hart = { s.hart with hits := t.hart.hits } := by
    have h : w.hitting t := ht ▸ writeClaim_hitting s.hart pages w
    rwa [State.hitting, hhart] at h
  have hbody : claimBody s = .ok () (t.withHart t.hart.cleared) := by
    simp only [claimBody, run_bind, run_getH, if_neg huser, hc, Bool.false_eq_true, if_false, hz, run_modify, hcut, hw, hhart, ht,
      run_modH]
  have hhit : (t.withHart t.hart.cleared).hart.hit = none := (show _ = t.hart.hit from rfl).trans (by rw [hkept]; exact hh)
  refine ⟨?_, hkept⟩
  rw [exec_claim, runInstr_ok hbody, retire_completes he hhit]
  rfl

/-- Settles O27: sret by what it puts back, claim by the image that it writes. -/
theorem claimAndReturnComplete : Obligations.ClaimAndReturnComplete := by
  intro s hpl walks
  have hread : s.reading walks := s.reading_walkedAll _
  refine ⟨fun hm hc => ?_, fun hm hc t ht => ?_, exec_user, exec_claim_again hpl, fun pages hm hc hs hlen hr => ?_,
    fun pages hm hc hu hs hlen hr => ?_⟩
  · obtain ⟨h1, h5, h8, hrest⟩ := returnStatus_bits s.hart.csr.sstatus
    exact ⟨_, exec_sret_unclaimed hpl hm hc, h1, h5, h8, hrest⟩
  · exact exec_sret_claimed hm (plain_steady hpl).2 hc ht
  · intro bs hfields hf hp
    have hz := claimPages_ok hs hlen fun i hi => (hr i hi).1
    have hgood : ∀ p ∈ pages, readsBad s p 4096 = false := by
      intro p hp
      obtain ⟨i, hi, rfl⟩ := List.getElem_of_mem hp
      simpa [nth, hi] using (hr i hi).2
    have ht := reloadClaim_ok hz hread hgood hfields hf hp
    have h := exec_sret_reclaimed hpl hm hc hread (fun i => (hf i).1) ht
    rwa [reclaimed_reading hread] at h
  · obtain ⟨hexec, hkept⟩ := exec_claim_first hpl hm hc hu (claimPages_ok hs hlen hr) hread (dropLinks_reading hread _) rfl
    exact ⟨hexec, rfl, rfl, fun r => ⟨cleared_tag _ r, cleared_v _ r⟩, cleared_shape _, (congrArg Strand.x hkept :),
      (congrArg Strand.csr hkept :), (congrArg Strand.slices hkept :)⟩

end Sys2Proof.Machine
end

section
/-!
PROOF. O56, placement: whose turn it is, and where a strand starts (R88, R383, R385).
-/
namespace Sys2Proof.Machine

theorem enabled_true {c : Bool} (h : c = true) (why : String) (s : State) : enabled c why s = .ok () s := by
  rw [enabled, if_pos h]
  rfl

/-! ### A strand placed by itself -/

/-- What a STRAND_PLACE does where it may (R383). -/
theorem exec_strandPlace {s : State} {id idx : Nat} {p : Place} {n0 n1 : Nat} {l : Launch} (hl : findLaunch s id = some l)
    (hm : mayPlace l = true) (hi : idx < l.ctl 0 12) (hn : idx ∉ l.started) (ha : alone s l = true)
    (hsp : (findSpace s l.asid).isSome) (hr : (residentOf s l).isSome) (hp : placeable s l idx p n0 n1 = true)
    (ht : mayTake s l p = true) : exec (.strandPlace id idx p n0 n1) s = .next (serve l (startStrand l idx p n0 n1 s)) := by
  have hstarted : l.started.contains idx = false := by simpa using hn
  have hgo : (mayPlace l && decide (idx < l.ctl 0 12) && !l.started.contains idx && alone s l && (findSpace s l.asid).isSome &&
      (residentOf s l).isSome && placeable s l idx p n0 n1 && mayTake s l p) = true := by
    simp only [hm, decide_eq_true hi, hstarted, ha, hsp, hr, hp, ht, Bool.not_false, Bool.and_self]
  show execStrandPlace id idx p n0 n1 s = _
  refine runEvent_ok ?_
  simp only [run_bind, run_get, hl, enabled_true hgo, run_set]

/-- The Shutter's count of turns is of no strand and no memory. -/
theorem serve_eq (l : Launch) (s : State) : serve l s = { s with spaces := (serve l s).spaces } := by
  unfold serve
  dsimp only
  split
  · split <;> rfl
  · rfl

theorem serve_hart (l : Launch) (s : State) : (serve l s).hart = s.hart := by rw [serve_eq]

theorem serve_mem (l : Launch) (s : State) : (serve l s).mem = s.mem := by rw [serve_eq]

theorem setPart_eq (p : Place) (n0 n1 : Nat) (s : State) : setPart p n0 n1 s =
    { s with icache := (setPart p n0 n1 s).icache, dcache := (setPart p n0 n1 s).dcache, cores := (setPart p n0 n1 s).cores } := by
  unfold setPart
  dsimp only
  split <;> rfl

/-- In a package of which no strand runs yet, the strand that starts is the one that runs (R88). -/
theorem startStrand_first {s : State} {l : Launch} {idx : Nat} {p : Place} {n0 n1 : Nat} {sp : Space} {r : Resident}
    (hsp : findSpace s l.asid = some sp) (hr : residentOf s l = some r) (hu : s.hart.status = .unplaced) :
    (startStrand l idx p n0 n1 s).hart = freshStrand s l sp r idx p ∧ (startStrand l idx p n0 n1 s).mem = s.mem := by
  have hparts := setPart_eq p n0 n1 s
  have hunplaced : (setPart p n0 n1 s).hart.status = .unplaced := by rw [hparts]; exact hu
  have hfresh : freshStrand (setPart p n0 n1 s) l sp r idx p = freshStrand s l sp r idx p := by rw [hparts]; rfl
  have hmem : (setPart p n0 n1 s).mem = s.mem := by rw [hparts]
  simp only [startStrand, hsp, hr, addStrand, if_pos hunplaced, hfresh]
  split
  · exact ⟨rfl, hmem⟩
  · exact ⟨rfl, hmem⟩

/-- The registers of a strand at its start: a0 holds its argument, every other 0 (R88). -/
theorem freshStrand_rx (s : State) (l : Launch) (sp : Space) (r : Resident) (idx : Nat) (p : Place) (q : BitVec 5) :
    (freshStrand s l sp r idx p).rx q = if q = 10#5 then BitVec.ofNat 64 (sub l.raw 16 8) else 0#64 := by
  have hx (i : Nat) (hi : i < 32) : (Strand.start.x.set 10 (BitVec.ofNat 64 (sub l.raw 16 8)) (by decide))[i] =
      if i = 10 then BitVec.ofNat 64 (sub l.raw 16 8) else 0#64 := by
    rw [Vector.getElem_set]
    simp [Strand.start, eq_comm]
  have hq : q = 10#5 ↔ q.toNat = 10 := by
    rw [← BitVec.toNat_inj]
    rfl
  have hat : (freshStrand s l sp r idx p).x.get q.toFin = if q.toNat = 10 then BitVec.ofNat 64 (sub l.raw 16 8) else 0#64 :=
    hx q.toNat q.isLt
  rw [Strand.rx, hat]
  simp only [hq]
  by_cases h0 : q = 0#5
  · rw [if_pos h0, h0]
    rfl
  · rw [if_neg h0]

theorem freshStrand_tag (s : State) (l : Launch) (sp : Space) (r : Resident) (idx : Nat) (p : Place) (q : BitVec 5) :
    (freshStrand s l sp r idx p).tag q = .none := by
  show (Vector.replicate 32 ETag.none)[q.toFin.1] = .none
  simp

/-! ### The only node that waits -/

theorem mem_insertNode {s : State} {es : List (Nat × Nat)} {l x : Launch} {ns : List Launch} :
    x ∈ insertNode s es l ns ↔ x = l ∨ x ∈ ns := by
  induction ns with
  | nil => simp [insertNode]
  | cons n ns ih =>
    rw [insertNode]
    split
    · simp
    · simp only [List.mem_cons, ih]
      tauto

/-- A node to consider is one that is ready to place and has strands that wait (R385). -/
theorem wantsPlace_of_mem {s : State} {l : Launch} (h : l ∈ nodesInOrder s) : wantsPlace s l = true := by
  have hfold : ∀ (ls ns : List Launch), l ∈ ls.foldl (fun ns l => insertNode s (priorities s) l ns) ns → l ∈ ns ∨ l ∈ ls := by
    intro ls
    induction ls with
    | nil => exact fun ns h => .inl h
    | cons x ls ih =>
      intro ns h
      rcases ih _ h with h | h
      · rcases mem_insertNode.mp h with rfl | h
        · exact .inr (List.mem_cons_self ..)
        · exact .inl h
      · exact .inr (List.mem_cons_of_mem _ h)
  rcases hfold _ [] h with h | h
  · cases h
  · exact (List.mem_filter.mp h).2

/-- A place that takes a strand is one of the package. -/
theorem mem_allPlaces {s : State} {p : Place} {n n0 n1 : Nat} (h : canPlace s p n n0 n1 = true) : p ∈ allPlaces := by
  simp only [canPlace, Bool.and_eq_true, decide_eq_true_eq, and_assoc] at h
  obtain ⟨hd, hc, hk, hs, -⟩ := h
  rw [Config.clusters] at hc
  rw [Config.cores] at hk
  refine List.mem_map.mpr ⟨400 * p.die + 16 * p.cluster + 2 * p.core + p.slot, mem_rangeFrom.mpr ⟨Nat.zero_le _, ?_⟩, ?_⟩
  · rw [Config.clusters, Config.cores]
    omega
  · cases p
    simp only [Place.mk.injEq]
    dsimp only at hd hc hk hs
    omega

/-- Where a place among some serves the one strand of a node that waits, they serve it. -/
theorem greedy_one {key : Nat} {s : State} {l : Launch} (hl : findLaunch s key = some l) {p : Place}
    (hp : (placeNext holdPlace l p s).isSome) : ∀ {ps : List Place}, p ∈ ps → greedy key ps 1 s 0 = 1 := by
  have hdone (ps : List Place) (t : State) : greedy key ps 1 t 1 = 1 := by
    cases ps <;> simp [greedy]
  intro ps
  induction ps with
  | nil => exact fun h => nomatch h
  | cons x ps ih =>
    intro hmem
    rw [greedy, if_neg (by decide)]
    simp only [hl, Option.bind_some]
    cases hx : placeNext holdPlace l x s with
    | some t => exact hdone ps t
    | none =>
      rcases List.mem_cons.mp hmem with rfl | h
      · rw [hx] at hp
        cases hp
      · exact ih h

/-- A node that alone waits, for one strand, and that a place takes. -/
structure Lone (s : State) (l : Launch) (idx : Nat) (p : Place) : Prop where
  nodes : nodesInOrder s = [l]
  loaded : l.loaded = true
  found : findLaunch s l.id = some l
  saved : savedOf s l = []
  waits : unstarted l = [idx]
  takes : placeable s l idx p (partFor s p (l.ctl 12 4)).1 (partFor s p (l.ctl 12 4)).2 = true

section
variable {s : State} {l : Launch} {idx : Nat} {p : Place} (h : Lone s l idx p)
include h

theorem Lone.mayPlace_eq : mayPlace l = true := by
  have hw := wantsPlace_of_mem (s := s) (l := l) (by rw [h.nodes]; exact List.mem_singleton_self l)
  rw [wantsPlace, Bool.and_eq_true, Bool.and_eq_true] at hw
  have hself : ({ l with loaded := true } : Launch) = l := by rw [← h.loaded]
  rw [← hself]
  exact hw.1.2

theorem Lone.leastPlaced_eq : leastPlaced s l = 1 := by
  rw [leastPlaced, h.saved, h.waits]
  split <;> rfl

theorem Lone.placeNext_eq (put : Putter) : placeNext put l p s =
    some (startStrand l idx p (partFor s p (l.ctl 12 4)).1 (partFor s p (l.ctl 12 4)).2 s) := by
  simp only [placeNext, h.saved, h.waits, h.takes, if_true]

/-- Its turn has come: no node is ahead of it (R385). -/
theorem Lone.turn : turnOf s [] (nodesInOrder s) = .place l [] := by
  have hnext : (placeNext holdPlace l p s).isSome := by rw [h.placeNext_eq]; rfl
  obtain ⟨⟨hcan, -⟩, haff⟩ : (canPlace s p (l.ctl 12 4) _ _ = true ∧ bootAllows s l p.die = true) ∧ affinityOk s l idx p = true := by
    simpa only [placeable, Bool.and_eq_true] using h.takes
  have hnow : placeableNow s [] l = true := by
    simp only [placeableNow, h.leastPlaced_eq, h.saved, h.waits, if_true]
    rw [greedy_one h.found hnext]
    · rfl
    · split
      next hrow =>
        rw [affinityOk, hrow] at haff
        obtain ⟨hplace, -⟩ := Bool.and_eq_true_iff.mp haff
        rw [eq_of_beq hplace]
        exact List.mem_singleton_self _
      next => exact mem_allPlaces hcan
  rw [h.nodes, turnOf, if_neg (by rw [h.loaded]; decide), if_pos hnow]

theorem Lone.mayTake_eq : mayTake s l p = true := by
  simp [mayTake, h.turn, barred]

end

/-! ### Placement decisions (R385) -/

/-- A decision that serves the node whose turn it is. -/
theorem exec_placementDecision_place {s t : State} {l : Launch} {ahead : List Launch} {places : List Place} {as bs : List Nat}
    (hturn : turnOf s [] (nodesInOrder s) = .place l ahead) (hn : leastPlaced s l ≤ places.length)
    (hb : places.any (barred s ahead) = false) (ht : placeAll l.id places s = some t) :
    exec (.placementDecision places as bs) s = .next (serve l t) := by
  have hgo : (decide (leastPlaced s l ≤ places.length) && !places.any (barred s ahead)) = true := by
    rw [decide_eq_true hn, hb]
    rfl
  show execPlacementDecision places as bs s = _
  refine runEvent_ok ?_
  simp only [run_bind, run_get, hturn, enabled_true hgo, ht, run_set]

/-- One that pre-empts lays the saves of the victims on the agenda (R386). -/
theorem exec_placementDecision_preempt {s : State} {vs : List Launch} {places : List Place} {as bs : List Nat}
    (hturn : turnOf s [] (nodesInOrder s) = .preempt vs) :
    let hs := (strands s).filter fun h => h.status == .running && (vs.map (·.id)).contains h.launch
    hs.length ≤ (as.zip bs).length → exec (.placementDecision places as bs) s = .next { s with
      agenda := (hs.zip (as.zip bs)).map (fun (x : Strand × (Nat × Nat)) => Turn.event (.preempt x.1.sid x.2.1 x.2.2)) ++ s.agenda } := by
  intro hs hlen
  have hgo : decide (((strands s).filter fun h => h.status == .running && (vs.map (·.id)).contains h.launch).length ≤
    (as.zip bs).length) = true := decide_eq_true hlen
  show execPlacementDecision places as bs s = _
  refine runEvent_ok ?_
  simp only [run_bind, run_get, hturn, enabled_true hgo, run_set]
  rfl

/-- The one node that waits is placed by itself or by a decision. -/
theorem Lone.exec {s : State} {l : Launch} {idx : Nat} {p : Place} (h : Lone s l idx p) (hsp : (findSpace s l.asid).isSome)
    (hr : (residentOf s l).isSome) (as bs : List Nat) :
    let q := partFor s p (l.ctl 12 4)
    let t := serve l (startStrand l idx p q.1 q.2 s)
    Machine.exec (.strandPlace l.id idx p q.1 q.2) s = .next t ∧ Machine.exec (.placementDecision [p] as bs) s = .next t := by
  have hidx : idx ∈ unstarted l := by rw [h.waits]; exact List.mem_singleton_self idx
  obtain ⟨hrange, hnot⟩ := List.mem_filter.mp hidx
  have hlt : idx < l.ctl 0 12 := by simpa using (mem_rangeFrom.mp hrange).2
  refine ⟨exec_strandPlace h.found h.mayPlace_eq hlt (by simpa using hnot) ?_ hsp hr h.takes h.mayTake_eq,
    exec_placementDecision_place h.turn ?_ ?_ ?_⟩
  · rw [alone, h.leastPlaced_eq]
    rfl
  · rw [h.leastPlaced_eq]
    exact Nat.le_refl 1
  · rfl
  · simp only [placeAll, h.found, h.mayPlace_eq, h.placeNext_eq, if_true, Option.bind_some]

end Sys2Proof.Machine
end

section
/-!
PROOF. O56, saves: operations that never stop, the end of a save, and a restore (R284, R286, R383).
-/
namespace Sys2Proof.Machine

/-! ### Operations that never stop -/

/-- An operation that runs to its end from every state. -/
def Total (x : M α) : Prop := ∀ s, ∃ a u, x s = .ok a u

theorem total_pure (a : α) : Total (pure a : M α) := fun s => ⟨a, s, rfl⟩

theorem total_get : Total (get : M State) := fun s => ⟨s, s, rfl⟩

theorem total_set (s : State) : Total (set s : M PUnit) := fun _ => ⟨_, s, rfl⟩

theorem total_modify (f : State → State) : Total (modify f : M PUnit) := fun s => ⟨_, f s, rfl⟩

theorem total_modH (f : Strand → Strand) : Total (modH f) := fun s => ⟨_, s.withHart (f s.hart), rfl⟩

theorem total_getH : Total getH := fun s => ⟨s.hart, s, rfl⟩

theorem total_freshWord : Total freshWord := fun _ => ⟨_, _, rfl⟩

theorem Total.bind {x : M α} {f : α → M β} (hx : Total x) (hf : ∀ a, Total (f a)) : Total (x >>= f) := fun s => by
  obtain ⟨a, u, h⟩ := hx s
  obtain ⟨b, w, h'⟩ := hf a u
  exact ⟨b, w, by rw [run_bind, h]; exact h'⟩

theorem Total.ite {c : Prop} [Decidable c] {x y : M α} (hx : Total x) (hy : Total y) : Total (if c then x else y) := by
  split
  · exact hx
  · exact hy

theorem total_mapEach {f : α → M β} (as : List α) (h : ∀ a, Total (f a)) : Total (mapEach as f) := by
  induction as with
  | nil => exact total_pure []
  | cons a as ih => exact (h a).bind fun b => ih.bind fun bs => total_pure (b :: bs)

theorem total_forEach {f : α → M Unit} (as : List α) (h : ∀ a, Total (f a)) : Total (forEach as f) := by
  induction as with
  | nil => exact total_pure ()
  | cons a as ih => exact (h a).bind fun _ => ih

theorem total_slotOf (t : ETag) (bs : List Byte) : Total (slotOf t bs) :=
  total_freshWord.bind fun _ => total_freshWord.bind fun _ => total_pure _

theorem total_chainOfImage (ci : Nat) (bs raw : List Byte) (types : List (ETag × ETag)) (ports : List Bool) (near : Bool) :
    Total (chainOfImage ci bs raw types ports near) := by
  refine total_getH.bind fun h => total_freshWord.bind fun _ => total_freshWord.bind fun _ =>
    (total_mapEach _ fun p => ?_).bind fun ps => (total_mapEach _ fun l => ?_).bind fun ls => total_freshWord.bind fun _ => total_pure _
  · refine total_freshWord.bind fun _ => total_get.bind fun s => ?_
    dsimp only
    exact .ite ((total_mapEach _ fun _ => total_freshWord.bind fun _ => total_pure _).bind fun _ => total_pure _) (total_pure _)
  · exact (total_mapEach _ fun k => total_slotOf _ _).bind fun _ => total_pure _

/-- A chain image is loaded or refused (R226). -/
theorem total_loadImage (ci : Nat) (bs : List Byte) (running : Bool) : Total (loadImage ci bs running) := by
  refine total_get.bind fun s => ?_
  dsimp only
  refine .ite (total_pure _) (.ite ((total_modify _).bind fun _ => total_pure _) (.ite ((total_modify _).bind fun _ => total_pure _)
    (.ite (total_pure _) ?_)))
  split
  · exact total_pure _
  · refine .ite ((total_modify _).bind fun _ => total_pure _) ((total_modify _).bind fun _ => total_get.bind fun s => (total_set _).bind fun _ => ?_)
    split
    · exact (total_modify _).bind fun _ => total_pure _
    · exact (total_chainOfImage _ _ _ _ _ _).bind fun c => (total_modify _).bind fun _ => total_pure _

/-! ### The contents of an area put back (R286) -/

theorem total_reloadArea (a b : Nat) : Total (reloadArea a b) := by
  refine total_get.bind fun s => (total_modH _).bind fun _ => total_forEach _ fun ci => total_getH.bind fun h => ?_
  exact .ite (total_modH _) ((total_loadImage _ _ _).bind fun _ => total_pure ())

/-- No chain of a strand has a link. -/
def Strand.unlinked (h : Strand) : Prop := ∀ i : Fin 4, (h.c.get i).links = []

theorem Strand.unlinked_putChain {h : Strand} (hl : h.unlinked) (ci : Nat) {x : Chain} (hx : x.links = []) :
    (h.putChain ci x).unlinked := by
  intro i
  show ((h.c.set (ci % 4) x (Nat.mod_lt _ (by decide)))[i.1]).links = []
  rw [Vector.getElem_set]
  split
  · exact hx
  · exact hl i

/-- A state whose running strand has other chains. -/
def State.rechained (s u : State) : Prop := u.hart = { s.hart with c := u.hart.c }

theorem State.rechained.trans {s t u : State} (h₁ : s.rechained t) (h₂ : t.rechained u) : s.rechained u := Eq.trans h₂ (by rw [h₁])

/-- An image that says FREE leaves of a strand without links all but its chains. -/
theorem loadImage_unlinked {s : State} {ci : Nat} {bs : List Byte} {running : Bool} (hl : s.hart.unlinked)
    (hst : sub bs 0 8 % 8 = 0) : ∃ r u, loadImage ci bs running s = .ok r u ∧ s.rechained u ∧ u.hart.unlinked := by
  have hdrop := dropChain_unlinked (ci := ci) (s := s) (hl _)
  by_cases hbad : (imageFields bs running).any (·.2) = true
  · exact ⟨false, s, by simp only [loadImage, run_bind, run_get, hbad, if_true, run_pure], rfl, hl⟩
  · refine ⟨true, dropChain ci s, ?_, ?_, ?_⟩
    · simp only [loadImage, run_bind, run_get, if_neg hbad, hst, if_true, run_modify, run_pure]
    · rw [State.rechained, hdrop]
      rfl
    · rw [hdrop]
      exact Strand.unlinked_putChain hl ci rfl

/-- The parts of an area but for its chains, put back into a strand (R286). -/
def Strand.fromImage (h : Strand) (bs : List Byte) (slices : List Host.Cell) : Strand := { (h.fromShared bs).fromOwn bs with slices := slices }

/-- What a restore does with the chain of a handle. -/
def reloadChain (kept : Vector Chain 4) (bs : List Byte) (ci : Nat) : M Unit := do
  let img := (bs.drop (0x1000 + imageBytes * ci)).take imageBytes
  let h ← getH
  let old := kept.toList[ci]?.getD .free
  if (h.putChain ci old).image ci = img then modH fun h => h.putChain ci (h.chain ci).absorbLate
  else
    let _ ← loadImage ci img true

/-- Of a strand without links it changes the chains alone where the image says FREE. -/
theorem reloadChain_unlinked {kept : Vector Chain 4} {bs : List Byte} {ci : Nat} {s : State} (hl : s.hart.unlinked)
    (hst : sub ((bs.drop (0x1000 + imageBytes * ci)).take imageBytes) 0 8 % 8 = 0) :
    ∃ u, reloadChain kept bs ci s = .ok () u ∧ s.rechained u ∧ u.hart.unlinked := by
  obtain ⟨r, u, hload, hrel, hu⟩ := loadImage_unlinked (ci := ci) (running := true) hl hst
  by_cases himg : (s.hart.putChain ci (kept.toList[ci]?.getD .free)).image ci = (bs.drop (0x1000 + imageBytes * ci)).take imageBytes
  · refine ⟨s.withHart (s.hart.putChain ci (s.hart.chain ci).absorbLate), ?_, rfl, Strand.unlinked_putChain hl ci ?_⟩
    · simp only [reloadChain, run_bind, run_getH, if_pos himg, run_modH]
    · rw [Chain.absorbLate, show (s.hart.chain ci).links = [] from hl _]
      rfl
  · exact ⟨u, by simp only [reloadChain, run_bind, run_getH, if_neg himg, hload, run_pure], hrel, hu⟩

/-- An area whose chains are free is put back into a strand that has none: its parts are the area's (R286). -/
theorem reloadArea_free {z : State} {a b : Nat} (hl : z.hart.unlinked)
    (hst : ∀ i, i < 4 → sub (readArea z a b) (0x1000 + imageBytes * i) 8 % 8 = 0) :
    ∃ u c, reloadArea a b z = .ok () u ∧ u.hart = { z.hart.fromImage (readArea z a b) (readSlices z a b) with c := c } := by
  have hsub (ci : Nat) (h : ci < 4) : sub (((readArea z a b).drop (0x1000 + imageBytes * ci)).take imageBytes) 0 8 % 8 = 0 := by
    rw [sub_image]
    exact hst ci h
  obtain ⟨u, hu, hrel, -⟩ := forEach_ok (f := reloadChain z.hart.c (readArea z a b)) (as := rangeFrom 0 4) (R := State.rechained)
    (fun _ => rfl) State.rechained.trans (I := fun u => u.hart.unlinked)
    (fun ci hci w hw => reloadChain_unlinked hw (hsub ci (by simpa using (mem_rangeFrom.mp hci).2)))
    (z.withHart (z.hart.fromImage (readArea z a b) (readSlices z a b))) hl
  refine ⟨u, u.hart.c, ?_, hrel⟩
  simp only [reloadArea, run_bind, run_get, run_modH]
  exact hu

/-! ### Strands by number -/

theorem asFront_eq (sid : Nat) (s : State) : asFront sid s = { s with hart := (asFront sid s).hart, parked := (asFront sid s).parked } := by
  unfold asFront swapTo
  split
  · rfl
  · split <;> rfl

theorem asFront_hart {s : State} {sid : Nat} {h : Strand} (hf : findStrand s sid = some h) : (asFront sid s).hart = h := by
  unfold findStrand at hf
  unfold asFront swapTo
  split at hf
  next hs =>
    rw [if_pos hs]
    exact Option.some.inj hf
  next hs =>
    rw [if_neg hs, hf]
    rfl

theorem areaSuspects_eq (a b : Nat) (s : State) : areaSuspects a b s = { s with suspect := (areaSuspects a b s).suspect } := by
  refine foldl_related (R := fun s u : State => u = { s with suspect := u.suspect }) (fun _ => rfl)
    (fun h₁ h₂ => Eq.trans h₂ (by rw [h₁])) s.poison (fun w _ u => ?_) s
  split <;> rfl

/-! ### Saves (R284, R286) -/

/-- A running strand stops and its save begins, or waits. -/
theorem exec_preempt_running {s : State} {sid a b : Nat} {h : Strand} (hf : findStrand s sid = some h) (hid : h.sid = sid)
    (hrun : h.status = .running) :
    exec (.preempt sid a b) s = .next (asStrand sid (if copiesOk s h a b = true then beginSave a b else beginSave 0 0) s) := by
  show execPreempt sid a b s = _
  refine runEvent_ok ?_
  simp only [run_bind, run_get, hf, hrun, if_true, run_set, preempted, hid]

/-- One whose save waits takes places that can hold its copies. -/
theorem exec_preempt_saving {s : State} {sid a b : Nat} {h : Strand} (hf : findStrand s sid = some h) (hsave : h.status = .saving)
    (heq : h.copies.1 = h.copies.2) (hok : copiesOk s h a b = true) :
    exec (.preempt sid a b) s = .next (modStrand sid (fun h => { h with copies := (a, b) }) s) := by
  have hrun : ¬ h.status = .running := by rw [hsave]; decide
  show execPreempt sid a b s = _
  refine runEvent_ok ?_
  simp only [run_bind, run_get, hf, if_neg hrun, if_pos (And.intro hsave (And.intro heq hok)), run_set]

theorem writeArea_launches (base : Nat) (h : Strand) (seq : Nat) (s : State) : (writeArea base h seq s).launches = s.launches := rfl

theorem modStrand_launches (sid : Nat) (f : Strand → Strand) (s : State) : (modStrand sid f s).launches = s.launches := by
  unfold modStrand
  split <;> rfl

/-- What the end of a save leaves of a strand, by its launch (R386). -/
def saveEnds (sid launch : Nat) (t : State) : M Unit :=
  match findLaunch t launch with
  | some l => set (if l.state = .running then t else asStrand sid endHart t)
  | none => set t

theorem saveEnds_ok {sid launch : Nat} {t : State} {l : Launch} (h : findLaunch t launch = some l) (s : State) :
    saveEnds sid launch t s = .ok () (if l.state = .running then t else asStrand sid endHart t) := by
  rw [saveEnds, h]
  rfl

/-- A save ends in two copies, and the strand with it where its launch no longer runs. -/
theorem exec_contextSaveEnd {s : State} {sid : Nat} {h : Strand} {l : Launch} (hf : findStrand s sid = some h)
    (hsave : h.status = .saving) (hl : findLaunch s h.launch = some l) (hdue : h.copies.1 ≠ h.copies.2 ∨ l.state ≠ .running) :
    let w := if h.copies.1 = h.copies.2 then s else writeArea h.copies.2 h h.saveSeq (writeArea h.copies.1 h h.saveSeq s)
    let t := modStrand sid (fun h => { h with status := .saved }) w
    exec (.contextSaveEnd sid) s = .next (if l.state = .running then t else asStrand sid endHart t) := by
  intro w t
  have hcan : ¬ saveDue s h = false := by
    rw [saveDue, hsave, hl]
    rcases hdue with h | h <;> simp [h]
  have hlaunch : findLaunch t h.launch = some l := by
    have hw : w.launches = s.launches := by
      show (ite _ _ _ : State).launches = _
      split <;> rfl
    rw [findLaunch, modStrand_launches, hw]
    exact hl
  show execContextSaveEnd sid s = _
  refine runEvent_ok ?_
  simp only [run_bind, run_get, hf, if_neg hcan]
  exact saveEnds_ok hlaunch s

/-! ### Restores (R286, R383) -/

/-- An x register of an area (R285). -/
theorem fromImage_rx (h : Strand) (bs : List Byte) (slices : List Host.Cell) {r : BitVec 5} (hr : r ≠ 0#5) :
    (h.fromImage bs slices).rx r = BitVec.ofNat 64 (sub bs (0x40 + 8 * r.toNat) 8) := by
  have hr0 : r.toNat ≠ 0 := fun h => hr (BitVec.eq_of_toNat_eq h)
  rw [Strand.rx, if_neg hr]
  show (vecOf 32 fun i => if i = 0 then 0#64 else BitVec.ofNat 64 (sub bs (0x40 + 8 * i) 8))[r.toNat]'r.isLt = _
  simp only [vecOf, Vector.getElem_ofFn, if_neg hr0]

theorem unlinked_of_free {h : Strand} (hf : h.c.toList.all (fun k => k.state == .free && k.links == []) = true) : h.unlinked := by
  intro i
  have hk := List.all_eq_true.mp hf (h.c.get i) (List.getElem_mem (by simp : i.1 < h.c.toList.length))
  exact eq_of_beq (Bool.and_eq_true_iff.mp hk).2

/-- The state in which a saved strand is read back (R286). -/
def State.fronted (s : State) (sid a b : Nat) (p : Place) (n0 n1 : Nat) : State := asFront sid (setPart p n0 n1 (areaSuspects a b s))

theorem readArea_fronted (s : State) (sid a b : Nat) (p : Place) (n0 n1 : Nat) :
    readArea (s.fronted sid a b p n0 n1) a b = readArea s a b := by
  rw [State.fronted, asFront_eq, setPart_eq, areaSuspects_eq]
  rfl

theorem fronted_hart {s : State} {sid : Nat} {h : Strand} (hf : findStrand s sid = some h) (a b : Nat) (p : Place) (n0 n1 : Nat) :
    (s.fronted sid a b p n0 n1).hart = h := by
  refine asFront_hart ?_
  rw [setPart_eq, areaSuspects_eq]
  exact hf

/-- What a restore reads is not what it marks. -/
theorem areaLost_suspects (s : State) (a b : Nat) :
    (lostBlocks (areaSuspects a b s) a b areaBytes || areaBad (readArea (areaSuspects a b s) a b)) =
      (lostBlocks s a b areaBytes || areaBad (readArea s a b)) := by
  rw [areaSuspects_eq]
  rfl

/-- A saved strand that may resume at a place, with its launch's turn come. -/
structure Resumes (s : State) (sid : Nat) (p : Place) (n0 n1 : Nat) (h : Strand) (l : Launch) (sp : Space) : Prop where
  found : findStrand s sid = some h
  launch : findLaunch s h.launch = some l
  space : findSpace s h.asid = some sp
  saved : h.status = .saved
  running : l.state = .running
  single : alone s l = true
  turn : mayTake s l p = true
  fits : canPlace s p (if p.slot = 0 then n0 else n1) n0 n1 = true
  count : mayResume s h (if p.slot = 0 then n0 else n1) = true
  place : resumePlace s l h p = true
  sid_eq : h.sid = sid

section
variable {s : State} {sid : Nat} {p : Place} {n0 n1 : Nat} {h : Strand} {l : Launch} {sp : Space} (hr : Resumes s sid p n0 n1 h l sp)
include hr

/-- It is read back, and placed with what that gives. -/
theorem Resumes.exec_eq {t : State} (ht : restoreAt h l p n0 n1 s = some t) : exec (.contextRestore sid p n0 n1) s = .next (serve l t) := by
  have hgo : (alone s l && mayTake s l p) = true := by rw [hr.single, hr.turn]; rfl
  show execContextRestore sid p n0 n1 s = _
  refine runEvent_ok ?_
  simp only [run_bind, run_get, hr.found, hr.launch, enabled_true hgo, ht, run_set]

theorem Resumes.may : ¬ (h.status ≠ .saved ∨ l.state ≠ .running ∨ canPlace s p (if p.slot = 0 then n0 else n1) n0 n1 = false ∨
    mayResume s h (if p.slot = 0 then n0 else n1) = false ∨ resumePlace s l h p = false) := by
  rw [hr.fits, hr.count, hr.place]
  simp [hr.saved, hr.running]

/-- Where neither copy can be read or the area is not valid, its launch ends (R286). -/
theorem Resumes.exec_lost
    (hlost : (lostBlocks s h.copies.1 h.copies.2 areaBytes || areaBad (readArea s h.copies.1 h.copies.2)) = true) :
    exec (.contextRestore sid p n0 n1) s = .next (serve l (drainLaunch { l with code := 7, reason := 5 }
      (rasLog 11 (coreLoc h.place 0 0) h.copies.1 (areaSuspects h.copies.1 h.copies.2 s)))) := by
  refine hr.exec_eq ?_
  simp only [restoreAt, hr.space, if_neg hr.may, areaLost_suspects, hlost, if_true]

/-- Else it runs again, with what the area gives, regranted to its lanes (R127, R286). -/
theorem Resumes.exec_read {u : State}
    (hlost : (lostBlocks s h.copies.1 h.copies.2 areaBytes || areaBad (readArea s h.copies.1 h.copies.2)) = false)
    (hu : reloadArea h.copies.1 h.copies.2 (s.fronted sid h.copies.1 h.copies.2 p n0 n1) = .ok () u) :
    let n := if p.slot = 0 then n0 else n1
    let k : Strand := { u.hart with status := .running, place := p, root := nth sp.roots p.die 0 }
    let v := reformAll (regrantAll (u.withHart (if 32 * n < k.lown then regrantStrand (32 * n) k else k)))
    exec (.contextRestore sid p n0 n1) s = .next (serve l (asFront s.hart.sid v)) := by
  have hfront : asFront h.sid (setPart p n0 n1 (areaSuspects h.copies.1 h.copies.2 s)) =
      s.fronted sid h.copies.1 h.copies.2 p n0 n1 := by rw [hr.sid_eq]; rfl
  have hhart : (areaSuspects h.copies.1 h.copies.2 s).hart = s.hart := by rw [areaSuspects_eq]
  intro n k v
  refine hr.exec_eq ?_
  simp only [restoreAt, hr.space, if_neg hr.may, areaLost_suspects, hlost, Bool.false_eq_true, if_false, hfront, run_bind, hu, run_modH,
    run_modify, hhart]
  rfl

end

/-- Settles O56: each placement by whose turn it is, each save and restore by what it leaves. -/
theorem placementsComplete : Obligations.PlacementsComplete := by
  intro s
  refine ⟨fun id idx p n0 n1 l sp r hl hm hi hn ha hsp hr hp ht hu => ?_, fun id idx p n0 n1 l hl hm hi hn ha hsp hr hp ht =>
      exec_strandPlace hl hm hi hn ha hsp hr hp ht,
    fun l idx p as bs hn hload hl hs hu hsp hr => ?_,
    fun l ahead places as bs t => exec_placementDecision_place, fun vs places as bs => exec_placementDecision_preempt,
    fun sid a b h hf hid => ⟨exec_preempt_running hf hid, exec_preempt_saving hf⟩,
    fun sid h l => exec_contextSaveEnd, fun sid p n0 n1 h l sp => ?_⟩
  · obtain ⟨hstart, hmem⟩ := startStrand_first (idx := idx) (p := p) (n0 := n0) (n1 := n1) hsp hr hu
    intro t
    have hhart : t.hart = freshStrand s l sp r idx p := (serve_hart l _).trans hstart
    have htmem : t.mem = s.mem := (serve_mem l _).trans hmem
    rw [hhart]
    refine ⟨exec_strandPlace hl hm hi hn ha (by rw [hsp]; rfl) (by rw [hr]; rfl) hp ht, rfl, rfl, rfl, rfl, rfl, rfl, ?_, fun q hq => ?_,
      rfl, rfl, rfl, freshStrand_tag s l sp r idx p, rfl, htmem⟩
    · rw [freshStrand_rx, if_pos rfl]
    · rw [freshStrand_rx, if_neg hq]
  · intro q t hp
    exact Lone.exec ⟨hn, hload, hl, hs, hu, hp⟩ hsp hr as bs
  · intro n a b bs lost y z hf hl hsp hs hrun ha ht hc hm hp hid
    have hr : Resumes s sid p n0 n1 h l sp := ⟨hf, hl, hsp, hs, hrun, ha, ht, hc, hm, hp, hid⟩
    refine ⟨hr.exec_lost, fun hlost => ?_⟩
    obtain ⟨_, u, hu⟩ := total_reloadArea a b z
    refine ⟨u, hu, hr.exec_read hlost hu, fun hfree hst => ?_⟩
    have hz : readArea z a b = bs := readArea_fronted s sid a b p n0 n1
    have hlinks : z.hart.unlinked := by
      rw [show z.hart = h from fronted_hart hf a b p n0 n1]
      exact unlinked_of_free hfree
    obtain ⟨w, c, hw, hparts⟩ := reloadArea_free (a := a) (b := b) hlinks (by rw [hz]; exact hst)
    obtain rfl : u = w := by injection hu.symm.trans hw
    rw [hz] at hparts
    rw [hparts]
    exact ⟨rfl, rfl, rfl, rfl, fun r hr => fromImage_rx z.hart bs (readSlices z a b) hr⟩

end Sys2Proof.Machine
end

section
/-!
PROOF. O13: words of the encoding tables (R93 to R99).
-/
namespace Sys2Proof.Machine

/-- Settles O13: the decoder, evaluated on each word, reads from it the instruction beside it. -/
theorem decodesTheWordsOfTheSpec : Obligations.DecodesTheWordsOfTheSpec :=
  ⟨rfl, rfl, rfl, rfl, rfl, rfl, rfl, rfl, rfl, rfl, rfl, rfl, rfl, rfl, rfl, rfl, rfl, rfl, rfl, rfl⟩

end Sys2Proof.Machine
end

section
/-!
PROOF. O3: logic and shifts, the common course of R131 with results that raise no class (R140, R141).
-/
namespace Sys2Proof.Machine

/-- The common course of R131 when nothing stops it: the tag, then the active elements in order. -/
theorem vaRun_fold {km : BitVec 3} {vd : BitVec 5} {regs : List (BitVec 5)} {t : ETag} {ind : Bool} {f : Strand → Nat → Nat × Cls}
    {s : State} (hc : s.calm = true) (hf : s.hart.fits (t :: regs.map s.hart.tag) = true) (hu : s.hart.unchained = true) :
    vaRun km vd regs t ind f s = .ok () (s.withHart { foldH (fun e k => k.deliver vd t.width e (f s.hart e)) (s.hart.elements km)
      (s.hart.putTag vd t) with vsta := 0 }) := by
  obtain ⟨hhit, -, -, hus, hbad, hstep⟩ := (calm_iff s).mp hc
  simp only [vaRun, vaRunOn, run_bind, run_getH, needCap_ok hf, needChains_free hu]
  exact elementLoop_fold hstep hus hhit (fun e => badOf_none hbad _) (fun _ => rfl) fun e h => by simp [Strand.deliver]

/-- An element that raises no class leaves emask. -/
theorem deliver_quiet_emask (h : Strand) (vd : BitVec 5) (w e : Nat) {r : Nat × Cls} (hr : r.2 = 0#6) :
    (h.deliver vd w e r).emask = h.emask := by
  simp [Strand.deliver, Strand.flag, hr]

/-- A VA instruction whose results raise no class leaves emask as well (R66, R131). -/
theorem vaRun_quiet {km : BitVec 3} {vd : BitVec 5} {regs : List (BitVec 5)} {t : ETag} {ind : Bool} {f : Strand → Nat → Nat × Cls}
    {s : State} (hc : s.calm = true) (hf : s.hart.fits (t :: regs.map s.hart.tag) = true) (hu : s.hart.unchained = true)
    (hv : s.hart.mayVector = true) (hq : ∀ e, (f s.hart e).2 = 0#6) :
    ∃ h, vaRun km vd regs t ind f s = .ok () (s.withHart h) ∧ s.hart.vectorFrame h vd ∧ h.emask = s.hart.emask ∧
      s.hart.delivered h vd t (s.hart.active km) fun e => (f s.hart e).1 := by
  obtain ⟨h, hrun, hframe, hdel⟩ := vaRun_calm (km := km) (vd := vd) (ind := ind) (f := f) hc hf hu (mayVector_lown hv)
  refine ⟨h, hrun, hframe, ?_, hdel⟩
  have hfold := hrun.symm.trans (vaRun_fold hc hf hu)
  obtain rfl : h = _ := congrArg State.hart (EStateM.Result.ok.inj hfold).2
  exact foldH_keeps Strand.emask (fun e k => deliver_quiet_emask k vd t.width e (hq e)) _ _

/-- Such an instruction completes, once its checks have led to the common course. -/
theorem completes_of_vaRun_quiet {i : Instr} {body : M Unit} {km : BitVec 3} {vd : BitVec 5} {regs : List (BitVec 5)} {t : ETag}
    {f : Strand → Nat → Nat × Cls} {s : State} (hx : exec i s = runInstr i body s) (hb : body s = vaRun km vd regs t false f s)
    (hc : s.calm = true) (hf : s.hart.fits (t :: regs.map s.hart.tag) = true) (hu : s.hart.unchained = true)
    (hv : s.hart.mayVector = true) (hq : ∀ e, (f s.hart e).2 = 0#6) :
    ∃ h, exec i s = .next (s.completes h) ∧ s.hart.vectorFrame h vd ∧ h.emask = s.hart.emask ∧
      s.hart.delivered h vd t (s.hart.active km) fun e => (f s.hart e).1 := by
  obtain ⟨hhit, -, -, -, -, hstep⟩ := (calm_iff s).mp hc
  obtain ⟨h, hrun, hrest⟩ := vaRun_quiet hc hf hu hv hq
  exact ⟨h, hx.trans (completes_of_ok hstep (hb.trans hrun) (by rw [hrest.1.1]; exact hhit)), hrest⟩

/-! ### Logic (R140) -/

/-- The logic operations. -/
def BinOp.isLogic (op : BinOp) : Prop := op = .and ∨ op = .or ∨ op = .xor

/-- Logic works on encodings: the rounding mode does not count and no class is raised (R140). -/
theorem elemBin_logic {op : BinOp} (ho : op.isLogic) (t : ETag) (m : RMode) (a b : Nat) :
    elemBin op t m a b = ((elemBin op t .rne a b).1, 0#6) := by
  rcases ho with rfl | rfl | rfl <;> rfl

/-- A logic instruction whose operands have equal tags completes. -/
theorem vaLogic_completes {i : Instr} {op : BinOp} {km : BitVec 3} {a vd : BitVec 5} {b : Opnd} {s : State} (ho : op.isLogic)
    (hx : exec i s = runInstr i (vaLogic op km a b vd) s) (hc : s.calm = true) (hv : s.hart.mayVector = true)
    (hu : s.hart.unchained = true) (hn : s.hart.tag a ≠ .none) (ht : b.ty s.hart (s.hart.tag a) = s.hart.tag a)
    (hf : s.hart.fits (s.hart.tag a :: s.hart.tag a :: b.regs.map s.hart.tag) = true) :
    ∃ h, exec i s = .next (s.completes h) ∧ s.hart.vectorFrame h vd ∧ h.emask = s.hart.emask ∧
      s.hart.delivered h vd (s.hart.tag a) (s.hart.active km) fun e =>
        (elemBin op (s.hart.tag a) .rne (s.hart.elem a (s.hart.tag a).width e) (b.val s.hart (s.hart.tag a) e)).1 := by
  have hneed : (s.hart.tag a != .none && b.ty s.hart (s.hart.tag a) == s.hart.tag a) = true := by simp [hn, ht]
  have hbody : vaLogic op km a b vd s = vaRun km vd (a :: b.regs) (s.hart.tag a) false (fun h e =>
      ((elemBin op (s.hart.tag a) .rne (h.elem a (s.hart.tag a).width e) (b.val h (s.hart.tag a) e)).1, 0#6)) s := by
    simp only [vaLogic, run_bind, vecGate_ok hv, run_getH, need_true hneed, elemBin_logic ho _ (Strand.mode_ _)]
  exact completes_of_vaRun_quiet hx hbody hc hf hu hv fun _ => rfl

theorem exec_logicVV {f : (BitVec 3 → Bool → BitVec 5 → BitVec 5 → BitVec 5 → Instr) × BinOp} (hf : f ∈ logicVV) :
    f.2.isLogic ∧ ∀ km sc a b vd s,
      exec (f.1 km sc a b vd) s = runInstr (f.1 km sc a b vd) (vaLogic f.2 km a (vvOperands sc a b).2 vd) s := by
  simp only [logicVV, List.mem_cons, List.not_mem_nil, or_false] at hf
  rcases hf with rfl | rfl | rfl <;> exact ⟨by simp [BinOp.isLogic], fun _ _ _ _ _ _ => rfl⟩

theorem exec_logicVI {f : (BitVec 3 → BitVec 6 → BitVec 5 → BitVec 5 → Instr) × BinOp} (hf : f ∈ logicVI) :
    f.2.isLogic ∧ ∀ km imm a vd s,
      exec (f.1 km imm a vd) s = runInstr (f.1 km imm a vd) (vaLogic f.2 km a (.imm imm) vd) s := by
  simp only [logicVI, List.mem_cons, List.not_mem_nil, or_false] at hf
  rcases hf with rfl | rfl | rfl <;> exact ⟨by simp [BinOp.isLogic], fun _ _ _ _ _ => rfl⟩

/-! ### Shifts (R141) -/

/-- A shift of integers by an integer count completes. -/
theorem vaShift_completes {i : Instr} {op : ShOp} {km : BitVec 3} {a vd : BitVec 5} {b : Opnd} {s : State}
    (hx : exec i s = runInstr i (vaShift op km a b vd) s) (hc : s.calm = true) (hv : s.hart.mayVector = true)
    (hu : s.hart.unchained = true) (ha : (s.hart.tag a).isInt = true) (hb : (b.ty s.hart (s.hart.tag a)).isInt = true)
    (hf : s.hart.fits (s.hart.tag a :: s.hart.tag a :: b.regs.map s.hart.tag) = true) :
    ∃ h, exec i s = .next (s.completes h) ∧ s.hart.vectorFrame h vd ∧ h.emask = s.hart.emask ∧
      s.hart.delivered h vd (s.hart.tag a) (s.hart.active km) fun e =>
        elemShift op (s.hart.tag a) (s.hart.elem a (s.hart.tag a).width e) (shiftCount s.hart b e) := by
  have hneed : ((s.hart.tag a).isInt && (b.ty s.hart (s.hart.tag a)).isInt) = true := by simp [ha, hb]
  have hbody : vaShift op km a b vd s = vaRun km vd (a :: b.regs) (s.hart.tag a) false (fun h e =>
      (elemShift op (s.hart.tag a) (h.elem a (s.hart.tag a).width e) (shiftCount h b e), 0#6)) s := by
    simp only [vaShift, run_bind, vecGate_ok hv, run_getH, need_true hneed]
  exact completes_of_vaRun_quiet hx hbody hc hf hu hv fun _ => rfl

theorem exec_shiftVV {f : (BitVec 3 → Bool → BitVec 5 → BitVec 5 → BitVec 5 → Instr) × ShOp} (hf : f ∈ shiftVV)
    (km : BitVec 3) (sc : Bool) (a b vd : BitVec 5) (s : State) :
    exec (f.1 km sc a b vd) s = runInstr (f.1 km sc a b vd) (vaShift f.2 km a (vvOperands sc a b).2 vd) s := by
  simp only [shiftVV, List.mem_cons, List.not_mem_nil, or_false] at hf
  rcases hf with rfl | rfl | rfl <;> rfl

theorem exec_shiftVI {f : (BitVec 3 → BitVec 6 → BitVec 5 → BitVec 5 → Instr) × ShOp} (hf : f ∈ shiftVI)
    (km : BitVec 3) (imm : BitVec 6) (a vd : BitVec 5) (s : State) :
    exec (f.1 km imm a vd) s = runInstr (f.1 km imm a vd) (vaShift f.2 km a (.imm imm) vd) s := by
  simp only [shiftVI, List.mem_cons, List.not_mem_nil, or_false] at hf
  rcases hf with rfl | rfl | rfl <;> rfl

theorem fits_cons {h : Strand} {t : ETag} {ts : List ETag} : h.fits (t :: ts) = true ↔ h.vl ≤ h.cap t ∧ h.fits ts = true := by
  simp [Strand.fits]

/-- Settles O3: the operands' types, then the common course of R131, for each operand form. -/
theorem vectorLogicAndShiftsComplete : Obligations.VectorLogicAndShiftsComplete := by
  intro km a vd s hc hv hu hfa
  have hcap := (fits_cons.mp hfa).1
  have hfit {ts : List ETag} (hts : s.hart.fits ts = true) : s.hart.fits (s.hart.tag a :: s.hart.tag a :: ts) = true :=
    fits_cons.mpr ⟨hcap, fits_cons.mpr ⟨hcap, hts⟩⟩
  refine ⟨fun f hf sc b hn ht => ?_, fun f hf imm hn => ?_, fun f hf sc b ha hb => ?_, fun f hf imm ha => ?_⟩
  · obtain ⟨ho, hx⟩ := exec_logicVV hf
    cases sc
    · have htag := ht rfl
      have hfb : s.hart.fits [s.hart.tag b] = true := by rw [htag]; exact hfa
      simpa only [Opnd.val, htag, Bool.false_eq_true, if_false] using
        vaLogic_completes (b := .vec b) ho (hx km false a b vd s) hc hv hu hn htag (hfit hfb)
    · exact vaLogic_completes (b := .scal b) ho (hx km true a b vd s) hc hv hu hn rfl (hfit rfl)
  · obtain ⟨ho, hx⟩ := exec_logicVI hf
    exact vaLogic_completes ho (hx km imm a vd s) hc hv hu hn rfl (hfit rfl)
  · have hx := exec_shiftVV hf km sc a b vd s
    cases sc
    · exact vaShift_completes (b := .vec b) hx hc hv hu ha (hb rfl).1 (hfit (hb rfl).2)
    · exact vaShift_completes (b := .scal b) hx hc hv hu ha ha (hfit rfl)
  · exact vaShift_completes (exec_shiftVI hf km imm a vd s) hc hv hu ha ha (hfit rfl)

end Sys2Proof.Machine
end

section
/-!
PROOF. O30, vgl: each element is loaded as vldx loads it, and its line is linked for the strand (R166).
-/
namespace Sys2Proof.Machine

/-! ### Links that a strand gains (R166) -/

/-- The package with other links. -/
def State.withLinks (s : State) (ls : List LinkEntry) : State := { s with links := ls }

/-- The vector links of a strand among some links. -/
def vectorLinks (sid : Nat) (ls : List LinkEntry) : List LinkEntry := ls.filter fun l => l.sid == sid && l.vector

/-- After a strand's vector links are dropped it has none, and all others are left (R167). -/
theorem mem_dropVectorLinks {s : State} {l : LinkEntry} :
    l ∈ (dropVectorLinks s).links ↔ l ∈ s.links ∧ ¬ (l.sid = s.hart.sid ∧ l.vector = true) := by
  simp [dropVectorLinks, imp_iff_not_or]

theorem vectorLinks_dropVectorLinks (s : State) : vectorLinks s.hart.sid (dropVectorLinks s).links = [] := by
  refine List.filter_eq_nil_iff.mpr fun l hl => ?_
  simpa using (mem_dropVectorLinks.mp hl).2

/-- A strand holds a link on a line where that link stands in the list. -/
theorem holdsLink_iff {s : State} {line sid : Nat} {v : Bool} : holdsLink s line sid v = true ↔ ⟨line, sid, v⟩ ∈ s.links := by
  simp only [holdsLink, List.any_eq_true, Bool.and_eq_true, beq_iff_eq]
  constructor
  · rintro ⟨⟨_, _, _⟩, hl, ⟨rfl, rfl⟩, rfl⟩
    exact hl
  · exact fun h => ⟨_, h, ⟨rfl, rfl⟩, rfl⟩

/-- A vector link that is set stands beside every other link. -/
theorem mem_setLink {line sid : Nat} {s : State} {l : LinkEntry} :
    l ∈ (setLink line sid true s).links ↔ l = ⟨line, sid, true⟩ ∨ l ∈ s.links := by
  simp only [setLink, List.mem_cons, List.mem_filter]
  refine or_congr_right' fun hne => and_iff_left_of_imp fun _ => ?_
  obtain ⟨line', sid', v⟩ := l
  simp only [LinkEntry.mk.injEq, not_and] at hne
  simp only [Bool.not_true, Bool.or_false, Bool.not_eq_true', Bool.and_eq_false_imp, beq_iff_eq, beq_eq_false_iff_ne, Bool.and_eq_true]
  exact fun ⟨hsid, hv⟩ hline => hne hline hsid hv

/-- Where the strand's link set has room for it, the line is linked; the set grows by one link at most (R166). -/
theorem linkLine_ok {s : State} (hs : s.choices = []) (pa : Nat)
    (hroom : (vectorLinks s.hart.sid s.links).length < Config.gatherLinks) :
    ∃ ls, linkLine pa s = .ok () (s.withLinks ls) ∧ (∀ l, l ∈ ls ↔ l = ⟨pa / 64 * 64, s.hart.sid, true⟩ ∨ l ∈ s.links) ∧
      (vectorLinks s.hart.sid ls).length ≤ (vectorLinks s.hart.sid s.links).length + 1 := by
  by_cases hheld : holdsLink s (pa / 64 * 64) s.hart.sid true = true
  · refine ⟨s.links, ?_, fun l => ⟨.inr, ?_⟩, Nat.le_succ _⟩
    · simp only [linkLine, run_bind, run_get, hheld, if_true, run_pure]
      rfl
    · rintro (rfl | hl)
      · exact holdsLink_iff.mp hheld
      · exact hl
  · refine ⟨(setLink (pa / 64 * 64) s.hart.sid true s).links, ?_, fun l => mem_setLink, ?_⟩
    · have hroom' : (s.links.filter fun l => l.sid == s.hart.sid && l.vector).length < Config.gatherLinks := hroom
      simp only [linkLine, run_bind, run_get, hheld, Bool.false_eq_true, if_false, if_pos hroom', newLink_fresh hs]
      rfl
    · simp only [setLink, vectorLinks, List.filter_cons, BEq.rfl, Bool.and_self, if_true, List.length_cons]
      exact Nat.succ_le_succ ((List.filter_sublist.filter _).length_le)

/-! ### The elements of vgl -/

/-- What vgl does with one element. -/
def gatherLinked (h : Strand) (vs2 rs1 vd : BitVec 5) (t : ETag) (e : Nat) : M Unit := do
  let va := Addressing.addr (.index vs2) h rs1 t.width e
  let n := t.width / 8
  checkAddress .load va n
  let pa ← translateIdem .load va
  let bs ← ownBytes pa n va
  dropDcache pa n
  noteAccess false va n
  linkLine pa
  modH fun k => k.deliver vd t.width e (ofBytes bs, 0#6)

section
variable {s : State} {vs2 rs1 vd : BitVec 5} {t : ETag} (hc : s.calm = true)
include hc

/-- An element that reaches good memory, where the link set has room, is delivered and its line linked. -/
theorem gatherLinked_ok {u : State} {e pa : Nat} (hu : (s.withLinks u.links).loading u)
    (hr : s.reaches .load (Addressing.addr (.index vs2) s.hart rs1 t.width e) (t.width / 8) pa = true)
    (hg : s.ownGood pa (t.width / 8) = true) (hroom : (vectorLinks s.hart.sid u.links).length < Config.gatherLinks) :
    ∃ u', atElem e (gatherLinked s.hart vs2 rs1 vd t e) u = .ok () u' ∧ (s.withLinks u'.links).loading u' ∧
      u'.hart = u.hart.deliver vd t.width e (s.ownValue pa (t.width / 8), 0#6) ∧
      (∀ l, l ∈ u'.links ↔ l = ⟨pa / 64 * 64, s.hart.sid, true⟩ ∨ l ∈ u.links) ∧
      (vectorLinks s.hart.sid u'.links).length ≤ (vectorLinks s.hart.sid u.links).length + 1 := by
  have hcu : u.calm = true := hu.calm (s := s.withLinks u.links) hc
  obtain ⟨hhit, hun, hch, -, hbad, -⟩ := (calm_iff u).mp hcu
  have hru := (hu.reaches_eq ..).trans hr
  have hgu := (hu.ownGood_eq ..).trans hg
  have hval : u.ownValue pa (t.width / 8) = s.ownValue pa (t.width / 8) := hu.ownValue_eq ..
  have hsid : u.hart.sid = s.hart.sid := by rw [hu.hart_eq]; rfl
  generalize hva : Addressing.addr (.index vs2) s.hart rs1 t.width e = va at hr hru
  obtain ⟨hcan, hal, -⟩ := reaches_iff.mp hru
  have hown := ownBytes_good (s := u.walked va none) hgu va
  have hdrop : dropDcache pa (t.width / 8) (u.walked va none) = .ok () (u.elementRead va pa (t.width / 8)) := rfl
  have hnote := noteAccess_unwatched (s := u.elementRead va pa (t.width / 8)) hun false va (t.width / 8)
  obtain ⟨ls, hlink, hmem, hlen⟩ := linkLine_ok (s := u.elementRead va pa (t.width / 8)) hch pa (by rw [← hsid] at hroom; exact hroom)
  have hrun : gatherLinked s.hart vs2 rs1 vd t e u = .ok () (((u.elementRead va pa (t.width / 8)).withLinks ls).withHart
      (u.hart.deliver vd t.width e (u.ownValue pa (t.width / 8), 0#6))) := by
    simp only [gatherLinked, run_bind, hva, checkAddress_ok hcan hal, translateIdem_reaches hch hru, hown, hdrop, hnote, hlink]
    rfl
  rw [hval, deliver_plain hbad] at hrun
  rw [deliver_plain hbad]
  refine ⟨_, atElem_ok hrun hhit, ?_, rfl, ?_, ?_⟩
  · have hnext := (hu.next va pa (t.width / 8) (u.hart.putElem vd t.width e (s.ownValue pa (t.width / 8))).v)
    exact ⟨congrArg (State.withLinks · ls) hnext.1, hnext.2⟩
  · rw [← hsid]; exact hmem
  · rw [← hsid]; exact hlen

/-- Elements that all reach good memory, no more than the link set has room for, are delivered and linked one after another. -/
theorem gatherLinked_each {pa : Nat → Nat} (es : List Nat)
    (hr : ∀ e ∈ es, s.reaches .load (Addressing.addr (.index vs2) s.hart rs1 t.width e) (t.width / 8) (pa e) = true ∧
      s.ownGood (pa e) (t.width / 8) = true) : ∀ u, (s.withLinks u.links).loading u →
    (vectorLinks s.hart.sid u.links).length + es.length ≤ Config.gatherLinks →
    ∃ u', forEach es (fun e => atElem e (gatherLinked s.hart vs2 rs1 vd t e)) u = .ok () u' ∧ (s.withLinks u'.links).loading u' ∧
      u'.hart = foldH (fun e k => k.deliver vd t.width e (s.ownValue (pa e) (t.width / 8), 0#6)) es u.hart ∧
      ∀ l, l ∈ u'.links ↔ l ∈ u.links ∨ ∃ e ∈ es, l = ⟨pa e / 64 * 64, s.hart.sid, true⟩ := by
  induction es with
  | nil => exact fun u hu _ => ⟨u, rfl, hu, rfl, by simp⟩
  | cons e es ih =>
    intro u hu hroom
    rw [List.length_cons] at hroom
    obtain ⟨hre, hge⟩ := hr e (by simp)
    obtain ⟨u₁, h₁, hu₁, hh₁, hm₁, hl₁⟩ := gatherLinked_ok (vd := vd) hc hu hre hge (by omega)
    obtain ⟨u₂, h₂, hu₂, hh₂, hm₂⟩ := ih (fun d hd => hr d (by simp [hd])) u₁ hu₁ (by omega)
    refine ⟨u₂, by rw [forEach_cons, h₁]; exact h₂, hu₂, by rw [hh₂, hh₁, foldH_cons], fun l => ?_⟩
    rw [hm₂, hm₁, List.exists_mem_cons_iff, or_assoc, or_left_comm]

/-- vgl completes with its elements delivered and their lines linked. -/
theorem vgl_completes {km : BitVec 3} {pa : Nat → Nat} (hm : s.hart.mayAccess (.index vs2) vd = true) (hne : vs2 ≠ vd)
    (hroom : (s.hart.elements km).length ≤ Config.gatherLinks)
    (hr : ∀ e ∈ s.hart.elements km,
      s.reaches .load (Addressing.addr (.index vs2) s.hart rs1 (s.hart.tag vd).width e) ((s.hart.tag vd).width / 8) (pa e) = true ∧
        s.ownGood (pa e) ((s.hart.tag vd).width / 8) = true) :
    ∃ h d ls, exec (.vgl km vs2 rs1 vd) s = .next ({ s with dcache := d, links := ls }.completes h) ∧ (∀ l ∈ d, l ∈ s.dcache) ∧
      s.hart.vectorFrame h vd ∧ h.emask = s.hart.emask ∧
      s.hart.delivered h vd (s.hart.tag vd) (s.hart.active km) (fun e => s.ownValue (pa e) ((s.hart.tag vd).width / 8)) ∧
      ∀ l, l ∈ ls ↔ (l ∈ s.links ∧ ¬ (l.sid = s.hart.sid ∧ l.vector = true)) ∨
        ∃ e ∈ s.hart.elements km, l = ⟨pa e / 64 * 64, s.hart.sid, true⟩ := by
  obtain ⟨hv, hch, -, -, hf, -⟩ := mayAccess_iff.mp hm
  obtain ⟨hhit, -, -, -, hbad, hstep⟩ := (calm_iff s).mp hc
  obtain ⟨u, hrun, hu, hh, hlinks⟩ := gatherLinked_each (vd := vd) hc (s.hart.elements km) hr (dropVectorLinks s)
    (State.loading_self _) (by rw [vectorLinks_dropVectorLinks, List.length_nil, Nat.zero_add]; exact hroom)
  obtain ⟨hfr, hem, hdel⟩ := loads_of_fold hu hc hv rfl hh (nodup_todo _ _) (fun _ => mem_elements) (elements_lt_cap hm)
  have hloop := elementLoop_ends (s := dropVectorLinks s) hc (fun e => badOf_none hbad (s.hart.srcReads [vs2] km e)) hrun
  refine ⟨{ u.hart with vsta := 0 }, u.dcache, u.links, ?_, hu.2, hfr, hem, hdel, fun l => ?_⟩
  · have hw := hu.withHart_eq { u.hart with vsta := 0 }
    refine (runInstr_ok (s' := u.withHart { u.hart with vsta := 0 }) ?_).trans
      (congrArg _ ((retire_completes hstep (by rw [hu.hart_eq]; exact hhit)).trans (by rw [hw]; rfl)))
    simp only [run_bind, vecGate_ok hv, accessTypes_ok hm, run_getH, needCap_ok (ts := [_, _]) hf,
      need_true (show (vs2 != vd) = true by simpa using hne), needChains_free hch, run_modify]
    exact hloop
  · rw [hlinks, mem_dropVectorLinks]

end

end Sys2Proof.Machine
end

section
/-!
PROOF. O30, vsc: each element is stored where the strand holds its line's link, and its bit of km says so (R167).
-/
namespace Sys2Proof.Machine

/-! ### Places of elements (R160, R333) -/

/-- An access at indexed addresses has whole bytes (R157). -/
theorem accessBytes_indexed {h : Strand} {vs2 r : BitVec 5} (hm : h.mayAccess (.index vs2) r = true) :
    accessBytes (h.tag r) = (h.tag r).width / 8 := by
  obtain ⟨-, -, -, h4, -⟩ := mayAccess_iff.mp hm
  exact if_neg fun ht => nomatch h4 ht

/-- An address that translates is canonical. -/
theorem translate_canonical {s : State} {root va : Nat} {user : Bool} {k : Access} {r : Nat × Bool}
    (h : translate s root user k va = .ok r) : canonical va = true := by
  by_contra hc
  rw [translate, if_pos (by simpa using hc)] at h
  cases h

/-- A translation keeps the offset within the least page (R333). -/
theorem translate_page {s : State} {root va pa : Nat} {user d : Bool} {k : Access}
    (h : translate s root user k va = .ok (pa, d)) : pa % 4096 = va % 4096 := by
  rw [translate, translate_canonical h] at h
  cases hw : walkFrom s k va 5 root with
  | error c => simp [hw] at h
  | ok e =>
    have hspan : va % 2 ^ (12 + 2 * (e / 256 % 16)) % 4096 = va % 4096 :=
      Nat.mod_mod_of_dvd _ (Nat.pow_dvd_pow 2 (Nat.le_add_right 12 _))
    simp only [hw, leafAddress, Bool.not_true, Bool.false_eq_true, if_false] at h
    split at h
    · cases h
    · split at h
      · obtain ⟨rfl, -⟩ := Prod.mk.inj (Except.ok.inj h)
        omega
      · cases h

/-- An aligned element lies within one line. -/
theorem element_in_line {t : ETag} {va pa : Nat} (hal : va % accessBytes t = 0) (hp : pa % 4096 = va % 4096) :
    pa + accessBytes t ≤ pa / 64 * 64 + 64 := by
  have hn : accessBytes t = 1 ∨ accessBytes t = 2 ∨ accessBytes t = 4 ∨ accessBytes t = 8 := by cases t <;> decide
  rcases hn with hn | hn | hn | hn <;> rw [hn] at hal ⊢ <;> omega

/-! ### Writes at a home -/

/-- A write makes no word uncorrectable. -/
theorem homeWrite_poison {a : Agent} {pa : Nat} {bs : List Byte} {s : State} : ∀ w ∈ (homeWrite a pa bs s).poison, w ∈ s.poison := by
  unfold homeWrite
  split
  · exact fun _ h => h
  · split
    · exact fun _ h => h
    · exact fun _ h => List.mem_of_mem_filter h

/-- A home that is not lost holds the bytes written. -/
theorem homeWrite_bytes {a : Agent} {pa : Nat} {bs : List Byte} {s : State} (hl : lost s pa = false) :
    homeBytes (homeWrite a pa bs s) pa bs.length = bs := by
  by_cases hbs : bs = []
  · subst hbs
    rfl
  · simp only [homeWrite, if_neg hbs, hl, Bool.false_eq_true, if_false]
    exact getBytes_putBytes ..

/-- A write leaves the links on every line that it does not touch. -/
theorem mem_homeWrite_links {a : Agent} {pa : Nat} {bs : List Byte} {s : State} {l : LinkEntry} (hl : l ∈ s.links)
    (ho : overlaps pa bs.length l.line 64 = false) : l ∈ (homeWrite a pa bs s).links := by
  unfold homeWrite
  split
  · exact hl
  · split
    · exact hl
    · exact List.mem_filter.mpr ⟨hl, by rw [ho]; rfl⟩

/-- A link that is set changes the links alone. -/
theorem setLink_written (line sid : Nat) (v : Bool) (s : State) : s.written (setLink line sid v s) := rfl

/-! ### One element -/

/-- The strip closed to rewinds (R281). -/
def State.unrewindable (s : State) : State := s.withHart { s.hart with strip := { s.hart.strip with rewindable := false } }

/-- A commit of a strand that holds nothing only closes the strip. -/
theorem committed_empty {s : State} (hb : s.hart.strip.buffer = []) : s.committed = s.unrewindable := by
  have hstrip : ({ s.hart.strip with buffer := [] } : Strip) = s.hart.strip := by rw [← hb]
  simp only [State.committed, hb, hstrip]
  rfl

/-- The state in which an element's store reaches its home: after the walk and the end of the strip's rewinds (R281). -/
def State.atHome (u : State) (va : Nat) : State := (u.walked va none).committed

/-- Where the strand holds no store, only cached lines and the strip differ from before. -/
theorem atHome_eq {u : State} (hb : u.hart.strip.buffer = []) (va : Nat) : u.atHome va =
    { u with dcache := (u.atHome va).dcache, hart := { u.hart with strip := { u.hart.strip with rewindable := false } } } := by
  rw [State.atHome, committed_empty (s := u.walked va none) hb]
  rfl

/-- Whether the strand holds the vector link on the line of an address. -/
def State.holdsLine (t : State) (pa : Nat) : Bool := holdsLink t (pa / 64 * 64) t.hart.sid true

/-- What a store at its home leaves that is made where the strand holds the line's link (R167). -/
def State.storedIfHeld (t : State) (pa n v : Nat) : State :=
  if t.holdsLine pa = true then setLink (pa / 64 * 64) t.hart.sid true (homeWrite t.hart.agent pa (toBytes n v) t) else t

section
variable {t : State} {pa n v : Nat}

theorem storedIfHeld_written : t.written (t.storedIfHeld pa n v) := by
  unfold State.storedIfHeld
  split
  · exact (homeWrite_written t.hart.agent pa (toBytes n v) t).trans (setLink_written _ _ _ _)
  · rfl

theorem storedIfHeld_poison : ∀ w ∈ (t.storedIfHeld pa n v).poison, w ∈ t.poison := by
  unfold State.storedIfHeld
  split
  · rw [setLink_poison]
    exact homeWrite_poison
  · exact fun _ h => h

theorem storedIfHeld_hart : (t.storedIfHeld pa n v).hart = { t.hart with hits := (t.storedIfHeld pa n v).hart.hits } := by
  unfold State.storedIfHeld
  split
  · rw [setLink_hart]
    exact homeWrite_hart ..
  · rfl

/-- No byte outside the element's place changes. -/
theorem storedIfHeld_get {b : Nat} (hb : ¬ bytesAt pa n b) : (t.storedIfHeld pa n v).mem.get b = t.mem.get b := by
  unfold State.storedIfHeld
  split
  · rw [setLink_mem]
    refine homeWrite_get ?_
    rw [toBytes_length]
    unfold bytesAt at hb
    omega
  · rfl

/-- Without the link nothing changes. -/
theorem storedIfHeld_unheld (hh : t.holdsLine pa = false) : t.storedIfHeld pa n v = t := by
  rw [State.storedIfHeld, hh, if_neg Bool.false_ne_true]

/-- With it the element's bytes stand in their place. -/
theorem storedIfHeld_bytes (hh : t.holdsLine pa = true) (hl : lost t pa = false) :
    homeBytes (t.storedIfHeld pa n v) pa n = toBytes n v := by
  have hbytes := homeWrite_bytes (a := t.hart.agent) (bs := toBytes n v) hl
  rw [toBytes_length] at hbytes
  rw [State.storedIfHeld, if_pos hh]
  exact hbytes

/-- The strand keeps each of its links: its own store of an element within a line leaves that line's link (R167). -/
theorem storedIfHeld_links {a : Nat} (hh : t.holdsLine a = true) (hin : pa + n ≤ pa / 64 * 64 + 64) :
    (t.storedIfHeld pa n v).holdsLine a = true := by
  have hsid : (t.storedIfHeld pa n v).hart.sid = t.hart.sid := by rw [storedIfHeld_hart]
  rw [State.holdsLine, hsid]
  unfold State.storedIfHeld
  split
  · rw [State.holdsLine, holdsLink_iff] at hh
    rw [holdsLink_iff, mem_setLink]
    by_cases hline : a / 64 * 64 = pa / 64 * 64
    · exact .inl (by rw [hline])
    · refine .inr (mem_homeWrite_links hh ?_)
      simp only [overlaps, toBytes_length, Bool.and_eq_false_iff, decide_eq_false_iff_not]
      omega
  · exact hh

end

/-- A bit of a mask register is no link. -/
theorem holdsLine_storeKbit (t : State) (km : BitVec 3) (e : Nat) (b : Bool) (a : Nat) :
    (t.withHart (t.hart.storeKbit km e b)).holdsLine a = t.holdsLine a := by
  simp only [State.holdsLine, withHart_hart, Strand.storeKbit_sid]
  rfl

section
variable {u : State} {km : BitVec 3} {va pa n v e : Nat}

/-- One element of vsc: the store at the home, then the bit of km. -/
theorem storeLinked_eq : u.storeLinked km va pa n v e = ((u.atHome va).storedIfHeld pa n v).withHart
    (((u.atHome va).storedIfHeld pa n v).hart.storeKbit km e ((u.atHome va).holdsLine pa)) := by
  unfold State.storeLinked State.storedIfHeld
  by_cases hh : (u.atHome va).holdsLine pa = true
  · rw [if_pos hh, hh]
    exact if_pos hh
  · rw [if_neg hh, Bool.eq_false_iff.mpr hh]
    exact if_neg hh

/-- One element of vsc that reaches its place, whose home is not lost. -/
theorem storeIfLinked_ok (hs : u.choices = []) (hw : u.hart.unwatched = true) (hbad : u.hart.bad = [])
    (hr : u.reaches .store va n pa = true) (hl : lost u pa = false) :
    storeIfLinked km va n v e u = .ok () (u.storeLinked km va pa n v e) := by
  obtain ⟨hcan, hal, -⟩ := reaches_iff.mp hr
  obtain ⟨t, ht⟩ : ∃ t, t = (u.walked va none).committed := ⟨_, rfl⟩
  have hend : endRewind (u.walked va none) = .ok () t := ht ▸ endRewind_ok hbad
  have hlost : lost t pa = false := ht ▸ ((committed_written _).lost_eq pa).trans hl
  have hunwatched : t.hart.unwatched = true := ht ▸ (committed_storing (u.walked va none)).unwatched_eq.trans hw
  have hnote (bs : List Byte) := noteAccess_unwatched (s := setLink (pa / 64 * 64) t.hart.sid true (homeWrite t.hart.agent pa bs t))
    ((homeWrite_storing t.hart.agent pa bs t).unwatched_eq.trans hunwatched) true va n
  simp only [storeIfLinked, run_bind, checkAddress_ok hcan hal, translateIdem_reaches hs hr, hend, run_get, hlost, Bool.false_eq_true,
    if_false, State.storeLinked, ← ht]
  by_cases hh : holdsLink t (pa / 64 * 64) t.hart.sid true = true
  · simp only [if_pos hh, run_bind, run_set, hnote, run_modH]
  · simp only [if_neg hh, run_modH]

end

theorem storeKbit_good {h : Strand} (hb : h.bad = []) (k : BitVec 3) (e : Nat) (b : Bool) : h.storeKbit k e b = h.putKbit k e b := by
  simp [Strand.storeKbit, Strand.heal, hb]

theorem putKbit_frame (h : Strand) (k : BitVec 3) (e : Nat) (b : Bool) : h.putKbit k e b = { h with k := (h.putKbit k e b).k } := by
  unfold Strand.putKbit
  split <;> rfl

/-! ### The elements of vsc -/

/-- A state within a vsc begun in s, whose elements are es: homes are written within the elements' places alone, and of the
running strand bits of km, the strip, which stays empty, and pending hits have changed. -/
structure State.Scattering (s : State) (km : BitVec 3) (es : List Nat) (pa : Nat → Nat) (n : Nat) (u : State) : Prop where
  written : s.written u
  poison : ∀ w ∈ u.poison, w ∈ s.poison
  hart : u.hart = { s.hart with k := u.hart.k, strip := u.hart.strip, hits := u.hart.hits }
  buffer : u.hart.strip.buffer = []
  masks : ∀ q, q ≠ km → u.hart.k.get q.toFin = s.hart.k.get q.toFin
  bits : ∀ e, e ∉ es → u.hart.kbit km e = s.hart.kbit km e
  mem : ∀ b, (∀ e ∈ es, ¬ bytesAt (pa e) n b) → u.mem.get b = s.mem.get b

/-- What each turn of a fold establishes of its element, and every other turn keeps, holds of all elements at its end. -/
theorem foldl_establishes {f : State → Nat → State} {I : State → Prop} {P : Nat → State → Prop} (es : List Nat)
    (hI : ∀ e ∈ es, ∀ u, I u → I (f u e)) (hP : ∀ e ∈ es, ∀ u, I u → P e (f u e))
    (hk : ∀ d ∈ es, ∀ e ∈ es, d ≠ e → ∀ u, I u → P e u → P e (f u d)) {s : State} (hs : I s) :
    I (es.foldl f s) ∧ ∀ e ∈ es, P e (es.foldl f s) := by
  induction es using List.reverseRecOn with
  | nil => exact ⟨hs, by simp⟩
  | append_singleton es d ih =>
    have hsub : ∀ e ∈ es, e ∈ es ++ [d] := fun e he => List.mem_append_left _ he
    have hd : d ∈ es ++ [d] := by simp
    obtain ⟨hfold, hall⟩ := ih (fun e he => hI e (hsub e he)) (fun e he => hP e (hsub e he))
      fun c hc e he => hk c (hsub c hc) e (hsub e he)
    rw [List.foldl_append, List.foldl_cons, List.foldl_nil]
    refine ⟨hI d hd _ hfold, fun e he => ?_⟩
    by_cases hde : d = e
    · exact hde ▸ hP d hd _ hfold
    · have he' : e ∈ es := by simpa [Ne.symm hde] using he
      exact hk d hd e he hde _ hfold (hall e he')

/-- A bit of km after one bit of it is written. -/
theorem kbit_putKbit {h : Strand} {km : BitVec 3} {e : Nat} (b : Bool) (hk : km ≠ 0#3) (he : e < 16384) (i : Nat) :
    (h.putKbit km e b).kbit km i = if i = e then b else h.kbit km i := by
  simp only [Strand.kbit, beq_eq_false_iff_ne.mpr hk, Bool.false_or, Strand.kbit_putKbit b hk he]

section
variable {s u : State} {km : BitVec 3} {es : List Nat} {va pa val : Nat → Nat} {n e : Nat}

theorem State.Scattering.start (hbuf : s.hart.strip.buffer = []) : s.Scattering km es pa n s :=
  ⟨rfl, fun _ h => h, rfl, hbuf, fun _ _ => rfl, fun _ _ => rfl, fun _ _ => rfl⟩

section
variable (h : s.Scattering km es pa n u)
include h

theorem State.Scattering.sid_eq : u.hart.sid = s.hart.sid := by rw [h.hart]

/-- Each element reaches its place all along. -/
theorem State.Scattering.reaches (hr : s.reachesAll .store es va pa n) (he : e ∈ es) : u.reaches .store (va e) n (pa e) = true := by
  obtain ⟨hal, hlow, hsettles⟩ := hr e he
  have htr := hsettles u (by rw [h.written]) (by rw [h.written]) (by rw [h.written]) h.poison
    fun a ha => h.mem a fun d hd hin => ha (.inl ⟨d, hd, hin⟩)
  refine reaches_iff.mpr ⟨translate_canonical htr, hal, hlow, ?_⟩
  rw [h.hart]
  exact htr

theorem State.Scattering.holdsLine_atHome (va a : Nat) : (u.atHome va).holdsLine a = u.holdsLine a := by
  rw [atHome_eq h.buffer]
  rfl

theorem State.Scattering.mem_atHome (va : Nat) : (u.atHome va).mem = u.mem := by rw [atHome_eq h.buffer]

theorem State.Scattering.lost_atHome (va a : Nat) : lost (u.atHome va) a = lost s a := by
  rw [atHome_eq h.buffer]
  exact h.written.lost_eq a

theorem State.Scattering.atHome (va : Nat) : s.Scattering km es pa n (u.atHome va) := by
  rw [atHome_eq h.buffer]
  exact ⟨h.written.trans rfl, h.poison, by rw [h.hart], h.buffer, h.masks, h.bits, h.mem⟩

theorem State.Scattering.storedIfHeld {v : Nat} (he : e ∈ es) : s.Scattering km es pa n (u.storedIfHeld (pa e) n v) := by
  have hframe := storedIfHeld_hart (t := u) (pa := pa e) (n := n) (v := v)
  refine ⟨h.written.trans storedIfHeld_written, fun w hw => h.poison w (storedIfHeld_poison w hw), ?_, ?_, fun q hq => ?_, fun i hi => ?_,
    fun b hb => (storedIfHeld_get (hb e he)).trans (h.mem b hb)⟩
  · rw [hframe, h.hart]
  · rw [hframe]
    exact h.buffer
  · rw [hframe]
    exact h.masks q hq
  · rw [hframe]
    exact h.bits i hi

/-- A byte outside the element's place is as before. -/
theorem State.Scattering.get_next {v b : Nat} (va : Nat) (hb : ¬ bytesAt (pa e) n b) :
    (u.storeLinked km va (pa e) n v e).mem.get b = u.mem.get b := by
  rw [storeLinked_eq, withHart_mem, storedIfHeld_get hb, h.mem_atHome]

/-- Where the strand holds the line's link the element's bytes stand in their place. -/
theorem State.Scattering.bytes_next {v : Nat} (va : Nat) (hh : u.holdsLine (pa e) = true) (hl : lost s (pa e) = false) :
    homeBytes (u.storeLinked km va (pa e) n v e) (pa e) n = toBytes n v := by
  rw [storeLinked_eq]
  exact storedIfHeld_bytes ((h.holdsLine_atHome va _).trans hh) ((h.lost_atHome va _).trans hl)

/-- No link of the strand goes. -/
theorem State.Scattering.holdsLine_next {v a : Nat} (va : Nat) (hin : pa e + n ≤ pa e / 64 * 64 + 64) (hh : u.holdsLine a = true) :
    (u.storeLinked km va (pa e) n v e).holdsLine a = true := by
  rw [storeLinked_eq, holdsLine_storeKbit]
  exact storedIfHeld_links ((h.holdsLine_atHome va a).trans hh) hin

/-- Where the strand holds no link of the line nothing is stored, and no link changes. -/
theorem State.Scattering.unheld_next {v : Nat} (va : Nat) (hh : u.holdsLine (pa e) = false) :
    (u.storeLinked km va (pa e) n v e).mem = u.mem ∧ ∀ a, (u.storeLinked km va (pa e) n v e).holdsLine a = u.holdsLine a := by
  rw [storeLinked_eq, storedIfHeld_unheld ((h.holdsLine_atHome va _).trans hh)]
  exact ⟨h.mem_atHome va, fun a => (holdsLine_storeKbit ..).trans (h.holdsLine_atHome va a)⟩

variable (hbad : s.hart.bad = []) (hk : km ≠ 0#3) (hlt : e < 16384) (he : e ∈ es)
include hbad hk hlt he

/-- A bit of km is written. -/
theorem State.Scattering.storeKbit (b : Bool) : s.Scattering km es pa n (u.withHart (u.hart.storeKbit km e b)) := by
  rw [storeKbit_good (by rw [h.hart]; exact hbad)]
  refine ⟨h.written.trans rfl, h.poison, ?_, ?_, fun q hq => ?_, fun i hi => ?_, h.mem⟩
  · rw [withHart_hart, putKbit_frame, h.hart]
  · rw [withHart_hart, putKbit_frame]
    exact h.buffer
  · exact (Strand.k_putKbit_other _ _ _ hq).trans (h.masks q hq)
  · rw [withHart_hart, kbit_putKbit _ hk hlt, if_neg fun q : i = e => hi (q ▸ he)]
    exact h.bits i hi

/-- An element leads on within the vsc. -/
theorem State.Scattering.next {v : Nat} (va : Nat) : s.Scattering km es pa n (u.storeLinked km va (pa e) n v e) := by
  rw [storeLinked_eq]
  exact ((h.atHome va).storedIfHeld he).storeKbit hbad hk hlt he _

/-- The element's bit of km says whether the strand held the link, and no other bit changes. -/
theorem State.Scattering.kbit_next {v : Nat} (va i : Nat) :
    (u.storeLinked km va (pa e) n v e).hart.kbit km i = if i = e then u.holdsLine (pa e) else u.hart.kbit km i := by
  have hin := (h.atHome va).storedIfHeld (v := v) he
  rw [storeLinked_eq, withHart_hart, storeKbit_good (by rw [hin.hart]; exact hbad), kbit_putKbit _ hk hlt, h.holdsLine_atHome,
    storedIfHeld_hart, atHome_eq h.buffer]
  rfl

end

end

/-- What the elements of vsc leave, one after another. -/
def State.scattered (s : State) (km : BitVec 3) (va pa val : Nat → Nat) (n : Nat) (es : List Nat) : State :=
  es.foldl (fun u e => u.storeLinked km (va e) (pa e) n (val e) e) s

section
variable {s : State} {km : BitVec 3} {es : List Nat} {va pa val : Nat → Nat} {n : Nat} (hbad : s.hart.bad = [])
  (hbuf : s.hart.strip.buffer = []) (hk : km ≠ 0#3) (hlt : ∀ e ∈ es, e < 16384)
include hbad hbuf hk hlt

/-- With no link held nothing is stored, and each element's bit is 0. -/
theorem scattered_unlinked (hnone : ∀ l ∈ s.links, ¬ (l.sid = s.hart.sid ∧ l.vector = true)) :
    s.sameMemory (s.scattered km va pa val n es) ∧ ∀ e ∈ es, (s.scattered km va pa val n es).hart.kbit km e = false := by
  have hfree (a : Nat) : s.holdsLine a = false :=
    Bool.eq_false_iff.mpr fun hh => hnone _ (holdsLink_iff.mp hh) ⟨rfl, rfl⟩
  obtain ⟨⟨-, hmem, -⟩, hall⟩ := foldl_establishes (f := fun u e => u.storeLinked km (va e) (pa e) n (val e) e)
    (I := fun u => s.Scattering km es pa n u ∧ u.mem = s.mem ∧ ∀ a, u.holdsLine a = false)
    (P := fun e u => u.hart.kbit km e = false) es
    (fun e he u ⟨hu, hm, hf⟩ => by
      obtain ⟨hmem, hlinks⟩ := hu.unheld_next (v := val e) (va e) (hf _)
      exact ⟨hu.next hbad hk (hlt e he) he (va e), hmem.trans hm, fun a => (hlinks a).trans (hf a)⟩)
    (fun e he u ⟨hu, _, hf⟩ => by rw [hu.kbit_next hbad hk (hlt e he) he, if_pos rfl, hf])
    (fun d hd e _ hde u ⟨hu, _⟩ hp => by rw [hu.kbit_next hbad hk (hlt d hd) hd, if_neg (Ne.symm hde), hp])
    ⟨State.Scattering.start hbuf, rfl, hfree⟩
  exact ⟨fun a => congrArg (Memory.get · a) hmem, hall⟩

/-- With every line linked each element's bit is 1, and its bytes stand where no other element shares them. -/
theorem scattered_linked (hin : ∀ e ∈ es, pa e + n ≤ pa e / 64 * 64 + 64) (hl : ∀ e ∈ es, lost s (pa e) = false)
    (hheld : ∀ e ∈ es, s.holdsLine (pa e) = true) : ∀ e ∈ es, (s.scattered km va pa val n es).hart.kbit km e = true ∧
      ((∀ d ∈ es, d ≠ e → pa d + n ≤ pa e ∨ pa e + n ≤ pa d) →
        homeBytes (s.scattered km va pa val n es) (pa e) n = toBytes n (val e)) := by
  refine (foldl_establishes (f := fun u e => u.storeLinked km (va e) (pa e) n (val e) e)
    (I := fun u => s.Scattering km es pa n u ∧ ∀ e ∈ es, u.holdsLine (pa e) = true)
    (P := fun e u => u.hart.kbit km e = true ∧
      ((∀ d ∈ es, d ≠ e → pa d + n ≤ pa e ∨ pa e + n ≤ pa d) → homeBytes u (pa e) n = toBytes n (val e))) es
    (fun e he u ⟨hu, hh⟩ => ⟨hu.next hbad hk (hlt e he) he (va e), fun d hd => hu.holdsLine_next (va e) (hin e he) (hh d hd)⟩)
    (fun e he u ⟨hu, hh⟩ => ⟨?_, fun _ => hu.bytes_next (va e) (hh e he) (hl e he)⟩)
    (fun d hd e _ hde u ⟨hu, _⟩ ⟨hbit, hbytes⟩ => ⟨?_, fun hap => ?_⟩) ⟨State.Scattering.start hbuf, hheld⟩).2
  · rw [hu.kbit_next hbad hk (hlt e he) he, if_pos rfl, hh e he]
  · rw [hu.kbit_next hbad hk (hlt d hd) hd, if_neg (Ne.symm hde), hbit]
  · refine (getBytes_congr fun i hi => hu.get_next (va d) fun hb => ?_).trans (hbytes hap)
    have := hap d hd hde
    unfold bytesAt at hb
    omega

/-- The whole is within the vsc. -/
theorem scattered_scattering : s.Scattering km es pa n (s.scattered km va pa val n es) :=
  List.foldlRecOn es _ (State.Scattering.start hbuf) fun _ hu e he => hu.next hbad hk (hlt e he) he (va e)

end

/-! ### vgl and vsc -/

/-- vsc with k0 is an illegal instruction (R167). -/
theorem vsc_k0 {vs2 rs1 vs3 : BitVec 5} {s : State} (hv : s.hart.mayVector = true) :
    exec (.vsc 0#3 vs2 rs1 vs3) s = .next (takeTrap 2 (instrBits (.vsc 0#3 vs2 rs1 vs3)) s) := by
  refine runInstr_illegal ?_
  simp only [run_bind, vecGate_ok hv]
  rfl

/-- vsc completes with its elements stored where linked, one after another, and the strand's vector links gone (R167). -/
theorem vsc_completes {km : BitVec 3} {vs2 rs1 vs3 : BitVec 5} {s u : State} {pa : Nat → Nat} (hc : s.calm = true)
    (hm : s.hart.mayAccess (.index vs2) vs3 = true) (hbuf : s.hart.strip.buffer = []) (hk : km ≠ 0#3)
    (hr : s.reachesAll .store (s.hart.elements km) (Addressing.addr (.index vs2) s.hart rs1 (s.hart.tag vs3).width) pa
      ((s.hart.tag vs3).width / 8)) (hl : ∀ e ∈ s.hart.elements km, lost s (pa e) = false) (hlt : ∀ e ∈ s.hart.elements km, e < 16384)
    (hu : s.scattered km (Addressing.addr (.index vs2) s.hart rs1 (s.hart.tag vs3).width) pa
      (s.hart.elem vs3 (s.hart.tag vs3).width) ((s.hart.tag vs3).width / 8) (s.hart.elements km) = u) :
    exec (.vsc km vs2 rs1 vs3) s = .next ((dropVectorLinks u).completes { u.hart with vsta := 0 }) := by
  obtain ⟨hv, hch, -, -, hf, -⟩ := mayAccess_iff.mp hm
  obtain ⟨hhit, hun, hs, -, hbad, hstep⟩ := (calm_iff s).mp hc
  obtain ⟨hrun, hin⟩ := forEach_foldl (I := s.Scattering km (s.hart.elements km) pa ((s.hart.tag vs3).width / 8))
    (f := fun e => atElem e (storeIfLinked km (Addressing.addr (.index vs2) s.hart rs1 (s.hart.tag vs3).width e)
      ((s.hart.tag vs3).width / 8) (s.hart.elem vs3 (s.hart.tag vs3).width e) e))
    (g := fun u e => u.storeLinked km (Addressing.addr (.index vs2) s.hart rs1 (s.hart.tag vs3).width e) (pa e)
      ((s.hart.tag vs3).width / 8) (s.hart.elem vs3 (s.hart.tag vs3).width e) e)
    (fun e he u hu => by
      have hnext := hu.next (v := s.hart.elem vs3 (s.hart.tag vs3).width e) hbad hk (hlt e he) he
        (Addressing.addr (.index vs2) s.hart rs1 (s.hart.tag vs3).width e)
      refine ⟨atElem_ok (storeIfLinked_ok (hu.written.choices_eq.trans hs) ?_ ?_ (hu.reaches hr he) ?_) ?_, hnext⟩
      · rw [hu.hart]; exact hun
      · rw [hu.hart]; exact hbad
      · exact (hu.written.lost_eq _).trans (hl e he)
      · rw [hnext.hart]; exact hhit)
    s (State.Scattering.start hbuf)
  unfold State.scattered at hu
  rw [hu] at hrun hin
  have hloop := elementLoop_ends hc (fun e => badOf_none hbad (s.hart.srcReads [vs3, vs2] km e)) hrun
  refine (runInstr_ok (s' := (dropVectorLinks u).withHart { u.hart with vsta := 0 }) ?_).trans
    (congrArg _ (retire_completes hstep (by rw [withHart_hart, hin.hart]; exact hhit)))
  simp only [run_bind, vecGate_ok hv, need_true (show (km != 0#3) = true by simpa using hk), accessTypes_ok hm, run_getH,
    needCap_ok (ts := [_, _]) hf, needChains_free hch]
  rw [show elementLoop _ _ _ _ _ _ s = _ from hloop]
  rfl

/-- Settles O30: vgl by what its elements deliver and link, vsc by what each element's store leaves and what it keeps. -/
theorem linkedAccessesComplete : Obligations.LinkedAccessesComplete := by
  unfold Obligations.LinkedAccessesComplete
  constructor
  · intro km vs2 rs1 vd s pa t n es hc hm hne hroom hr
    have hn : n = t.width / 8 := accessBytes_indexed hm
    rw [hn] at hr ⊢
    obtain ⟨h, d, ls, hexec, hd, hfr, hem, hdel, hlinks⟩ := vgl_completes (rs1 := rs1) hc hm hne hroom hr
    refine ⟨h, d, ls, hexec, hd, hfr, hem, hdel, fun l => (hlinks l).trans (or_congr_right ?_)⟩
    obtain ⟨line, sid, v⟩ := l
    simp only [LinkEntry.mk.injEq]
    exact ⟨fun ⟨e, he, hline, hsid, hv⟩ => ⟨hsid, hv, e, he, hline⟩, fun ⟨hsid, hv, e, he, hline⟩ => ⟨e, he, hline, hsid, hv⟩⟩
  · intro km vs2 rs1 vs3 s pa t n es hc hm hbuf
    have hv : s.hart.mayVector = true := (mayAccess_iff.mp hm).1
    refine ⟨fun h0 => h0 ▸ vsc_k0 hv, fun hk hr hl => ?_⟩
    intro u w
    have hn : n = t.width / 8 := accessBytes_indexed hm
    obtain ⟨-, -, -, -, hbad, -⟩ := (calm_iff s).mp hc
    have hlt : ∀ e ∈ es, e < 16384 := fun e he =>
      Nat.lt_of_lt_of_le (elements_lt_cap hm e he) (cap_le (mayVector_lown hv) _)
    have hin : ∀ e ∈ es, pa e + n ≤ pa e / 64 * 64 + 64 := fun e he => by
      obtain ⟨hal, -, hsettles⟩ := hr e he
      exact element_in_line hal (translate_page (hsettles s rfl rfl rfl (fun _ h => h) fun _ _ => rfl))
    have hscat : s.Scattering km es pa n u := scattered_scattering hbad hbuf hk hlt
    have hexec : exec (.vsc km vs2 rs1 vs3) s = .next ((dropVectorLinks u).completes { u.hart with vsta := 0 }) :=
      vsc_completes hc hm hbuf hk (hn ▸ hr) hl hlt (by rw [← hn]; rfl)
    have hw : dropVectorLinks u = w := by rw [dropVectorLinks, hscat.sid_eq]
    rw [hw] at hexec
    exact ⟨hexec, by rw [hscat.hart], by rw [hscat.hart], by rw [hscat.hart], hscat.masks, hscat.bits, hscat.mem,
      scattered_unlinked hbad hbuf hk hlt, scattered_linked hbad hbuf hk hlt hin hl⟩

end Sys2Proof.Machine
end

section
/-!
PROOF. O7: vsel, vclass, and the instructions of the Destination class (R118, R143, R144, R146, R147, R150), each by the common course of
R131.
-/
namespace Sys2Proof.Machine

/-- A VA instruction completes once its checks have led to the common course of R131. -/
theorem completes_of_vaRun {i : Instr} {body : M Unit} {km : BitVec 3} {vd : BitVec 5} {regs : List (BitVec 5)} {t : ETag} {ind : Bool}
    {f : Strand → Nat → Nat × Cls} {s : State} (hx : exec i s = runInstr i body s) (hb : body s = vaRun km vd regs t ind f s)
    (hc : s.calm = true) (hf : s.hart.fits (t :: regs.map s.hart.tag) = true) (hu : s.hart.unchained = true)
    (hv : s.hart.mayVector = true) :
    ∃ h, exec i s = .next (s.completes h) ∧ s.hart.vectorFrame h vd ∧
      s.hart.delivered h vd t (s.hart.active km) fun e => (f s.hart e).1 := by
  obtain ⟨hhit, -, -, -, -, hstep⟩ := (calm_iff s).mp hc
  obtain ⟨h, hrun, hframe, hdel⟩ := vaRun_calm (km := km) (vd := vd) (ind := ind) (f := f) hc hf hu (mayVector_lown hv)
  exact ⟨h, hx.trans (completes_of_ok hstep (hb.trans hrun) (by rw [hframe.1]; exact hhit)), hframe, hdel⟩

/-! ### vsel (R144) -/

/-- Under k0 every element below vl is active (R22, R75). -/
theorem active_k0 (h : Strand) : h.active 0#3 = fun e => decide (e < h.vl) := by
  funext e
  simp [Strand.active, Strand.kbit]

/-- A loop that leaves out no element performs those that are active under k0. -/
theorem todo_all (h : Strand) : h.todo (fun _ => true) = h.todo (h.active 0#3) :=
  List.filter_congr fun e he => by
    have hlt := mem_rangeFrom.mp he
    rw [active_k0]
    exact (decide_eq_true (by omega)).symm

/-- vsel of two registers with one tag completes with the element that km selects; it runs the common course of R131 under k0. -/
theorem vsel_completes {km : BitVec 3} {a b vd : BitVec 5} {s : State} (hc : s.calm = true) (hv : s.hart.mayVector = true)
    (hu : s.hart.unchained = true) (hn : s.hart.tag a ≠ .none) (ht : s.hart.tag b = s.hart.tag a)
    (hf : s.hart.fits [s.hart.tag a] = true) :
    ∃ h, exec (.vsel km a b vd) s = .next (s.completes h) ∧ s.hart.vectorFrame h vd ∧ h.emask = s.hart.emask ∧
      s.hart.delivered h vd (s.hart.tag a) (fun e => decide (e < s.hart.vl)) fun e =>
        s.hart.elem (if s.hart.kbit km e then a else b) (s.hart.tag a).width e := by
  obtain ⟨hhit, -, -, hus, hbad, hstep⟩ := (calm_iff s).mp hc
  have hneed : (s.hart.tag a != .none && s.hart.tag b == s.hart.tag a) = true := by simp [hn, ht]
  have hcap := (fits_cons.mp hf).1
  have hfit : s.hart.fits (s.hart.tag a :: [a, b].map s.hart.tag) = true := by
    simp only [List.map_cons, List.map_nil, ht, fits_cons, hcap, true_and]
    rfl
  rw [← active_k0]
  refine completes_of_vaRun_quiet (f := fun h e => (h.elem (if h.kbit km e then a else b) (s.hart.tag a).width e, 0#6)) rfl ?_
    hc hfit hu hv fun _ => rfl
  simp only [run_bind, vecGate_ok hv, run_getH, need_true hneed, needCap_ok hf, needChains_free hu, vaRun_fold hc hfit hu]
  have hall : s.hart.elements 0#3 = s.hart.todo fun _ => true := (todo_all s.hart).symm
  rw [hall]
  exact elementLoop_fold hstep hus hhit (fun e => badOf_none hbad _) (fun _ => rfl) fun e h => by simp [Strand.deliver]

/-- vsel of registers with unequal tags is a type fault. -/
theorem vsel_typeFault {km : BitVec 3} {a b vd : BitVec 5} {s : State} (hv : s.hart.mayVector = true)
    (ht : s.hart.tag b ≠ s.hart.tag a) : exec (.vsel km a b vd) s = .next (s.checkFault 25 (.vsel km a b vd)) := by
  have hneed : (s.hart.tag a != .none && s.hart.tag b == s.hart.tag a) = false := by simp [ht]
  refine runInstr_bits (s' := s) ?_ (by decide)
  simp only [run_bind, vecGate_ok hv, run_getH, need, hneed, Bool.false_eq_true, if_false, run_typeFault]

/-! ### The Destination class (R118) -/

/-- A destination with a tag gives the operation its type. -/
theorem destType_ok {vd : BitVec 5} {s : State} (h : s.hart.tag vd ≠ .none) : destType vd s = .ok (s.hart.tag vd) s := by
  simp [destType, need, h]

section
variable {km : BitVec 3} {a vd rs1 : BitVec 5} {imm : BitVec 6} {s : State} (hc : s.calm = true) (hv : s.hart.mayVector = true)
  (hu : s.hart.unchained = true)
include hc hv hu

/-- vclass delivers the class of each element as one bit (R143). -/
theorem vclass_completes (hn : s.hart.tag a ≠ .none) (hf : s.hart.fits [.n16, s.hart.tag a] = true) :
    ∃ h, exec (.vclass km a vd) s = .next (s.completes h) ∧ s.hart.vectorFrame h vd ∧ h.emask = s.hart.emask ∧
      s.hart.delivered h vd .n16 (s.hart.active km) fun e => 2 ^ classBit (s.hart.tag a) (s.hart.elem a (s.hart.tag a).width e) := by
  obtain ⟨hhit, -, -, -, -, hstep⟩ := (calm_iff s).mp hc
  obtain ⟨h, hrun, hrest⟩ := vaRun_quiet (km := km) (vd := vd) (regs := [a]) (t := .n16) (ind := vd == a && s.hart.tag a != .n16)
    (f := fun h e => (2 ^ classBit (s.hart.tag a) (h.elem a (s.hart.tag a).width e), 0#6)) hc hf hu hv fun _ => rfl
  refine ⟨h, completes_of_ok hstep ?_ (by rw [hrest.1.1]; exact hhit), hrest⟩
  simp only [run_bind, vecGate_ok hv, run_getH, need_true (show (s.hart.tag a != .none) = true by simpa using hn)]
  exact hrun

variable (hd : s.hart.tag vd ≠ .none) (hf : s.hart.fits [s.hart.tag vd] = true)
include hd hf

/-- vcvt converts to the type of vd (R150). -/
theorem vcvt_completes (hn : s.hart.tag a ≠ .none) (hfa : s.hart.fits [s.hart.tag a] = true) :
    ∃ h, exec (.vcvt km a vd) s = .next (s.completes h) ∧ s.hart.vectorFrame h vd ∧
      s.hart.delivered h vd (s.hart.tag vd) (s.hart.active km) fun e =>
        (elemCvt (s.hart.tag a) (s.hart.tag vd) (RMode.ofCode s.hart.rm) (s.hart.elem a (s.hart.tag a).width e)).1 := by
  refine completes_of_vaRun (ind := false) (regs := [a])
    (f := fun h e => elemCvt (s.hart.tag a) (s.hart.tag vd) h.mode_ (h.elem a (s.hart.tag a).width e))
    rfl ?_ hc (fits_cons.mpr ⟨(fits_cons.mp hf).1, hfa⟩) hu hv
  simp only [run_bind, vecGate_ok hv, run_getH, need_true (show (s.hart.tag a != .none) = true by simpa using hn), destType_ok hd]

/-- vid delivers each element's number, rounded or saturated to the type of vd (R147). -/
theorem vid_completes : ∃ h, exec (.vid km vd) s = .next (s.completes h) ∧ s.hart.vectorFrame h vd ∧
    s.hart.delivered h vd (s.hart.tag vd) (s.hart.active km) fun e =>
      (if (s.hart.tag vd).isFloat then (roundNum (s.hart.tag vd) (RMode.ofCode s.hart.rm) (intNum e)).1
       else truncInt (s.hart.tag vd) (satInt (s.hart.tag vd) e)) := by
  obtain ⟨h, hx, hframe, hdel⟩ := completes_of_vaRun (i := .vid km vd) (km := km) (vd := vd) (ind := false) (regs := [])
    (f := fun h e => if (s.hart.tag vd).isFloat then roundNum (s.hart.tag vd) h.mode_ (intNum e) else satEnc (s.hart.tag vd) e)
    rfl (by simp only [run_bind, vecGate_ok hv, destType_ok hd]) hc hf hu hv
  exact ⟨h, hx, hframe, hdel.congr fun e => by rw [apply_ite Prod.fst]; rfl⟩

/-- vsplat delivers the low bits of an x register (R93, R146). -/
theorem vsplat_completes : ∃ h, exec (.vsplat km rs1 vd) s = .next (s.completes h) ∧ s.hart.vectorFrame h vd ∧
    h.emask = s.hart.emask ∧ s.hart.delivered h vd (s.hart.tag vd) (s.hart.active km) fun _ => (s.hart.rx rs1).toNat := by
  obtain ⟨h, hx, hframe, hemask, hdel⟩ := completes_of_vaRun_quiet (i := .vsplat km rs1 vd) (km := km) (vd := vd) (regs := [])
    (f := fun h _ => (broadcastX (s.hart.tag vd) (h.rx rs1), 0#6))
    rfl (by simp only [run_bind, vecGate_ok hv, destType_ok hd]) hc hf hu hv fun _ => rfl
  exact ⟨h, hx, hframe, hemask, hdel.congr fun _ => Nat.mod_mod ..⟩

/-- The immediate form of vsplat delivers the immediate in the type of vd (R93, R146). -/
theorem vsplatVi_completes : ∃ h, exec (.vsplatVi km imm vd) s = .next (s.completes h) ∧ s.hart.vectorFrame h vd ∧
    h.emask = s.hart.emask ∧ s.hart.delivered h vd (s.hart.tag vd) (s.hart.active km) fun _ => broadcastImm (s.hart.tag vd) imm :=
  completes_of_vaRun_quiet (regs := []) (f := fun _ _ => (broadcastImm (s.hart.tag vd) imm, 0#6))
    rfl (by simp only [run_bind, vecGate_ok hv, destType_ok hd]) hc hf hu hv fun _ => rfl

end

/-- Settles O7: each instruction by its checks and the common course of R131, vsel also by its type fault. -/
theorem selectsAndConversionsComplete : Obligations.SelectsAndConversionsComplete := by
  refine ⟨fun km a b vd s hc hv hu => ⟨vsel_completes hc hv hu, vsel_typeFault hv⟩,
    fun km a vd rs1 imm s hc hv hu => ⟨vclass_completes hc hv hu, fun hd hf => ⟨?_, ?_, ?_, ?_⟩⟩⟩
  · exact vcvt_completes hc hv hu hd hf
  · exact vid_completes hc hv hu hd hf
  · exact vsplat_completes hc hv hu hd hf
  · exact vsplatVi_completes hc hv hu hd hf

end Sys2Proof.Machine
end

section
/-!
PROOF. O41: shapes and tags (R111, R115, R120, R122), and the strip that vshape begins (R279).
-/
namespace Sys2Proof.Machine

/-! ### vshape -/

/-- The grant of vshape is the least of its request and the registers' capacity (R111). -/
theorem vshapeGrant_eq_min (h : Strand) (w : WidthClass) (rs1 : BitVec 5) :
    vshapeGrant h w rs1 = min (h.rx rs1).toNat (h.lown * 256 / w.bits) := by
  unfold vshapeGrant
  dsimp only
  split <;> omega

/-- The strip that the strand begins at a boundary: it may be rewound to here, and holds nothing (R279). -/
def Strand.newStrip (h : Strand) : Strip :=
  ⟨true, if h.strip.rewinds = 2 then 1 else 0, some ⟨h.pc, h.x, h.stripmask, h.emask, h.ea⟩, []⟩

/-- What a new strip is made of is not changed by the old one's commit. -/
theorem newStrip_committed (s : State) : s.committed.hart.newStrip = s.hart.newStrip := by
  rw [committed_hart]
  rfl

/-- A strip boundary commits the old strip and begins a new one. -/
theorem stripBoundary_ok {s : State} (hb : s.hart.bad = []) :
    stripBoundary s = .ok () (s.committed.withHart { s.committed.hart with strip := s.hart.newStrip }) := by
  have hgood : (s.hart.bad.any fun b => b.src == 8) = false := by rw [hb, List.any_nil]
  rw [← newStrip_committed]
  simp only [stripBoundary, commitStrip, run_bind, run_get, hgood, Bool.false_eq_true, if_false, run_set,
    run_modH]
  rfl

section
variable {w : WidthClass} {rs1 rd : BitVec 5} {s : State} (hc : s.calm = true) (hv : s.hart.mayVector = true)
include hc hv

/-- vshape in supervisor mode sets the shape alone. -/
theorem vshape_supervisor (hm : s.hart.mode = .supervisor) : exec (.vshape w rs1 rd) s = .next (s.completes
    ({ s.hart with vl := vshapeGrant s.hart w rs1, wid := w.bits, rgf := false, vsta := 0 }.wx rd
      (BitVec.ofNat 64 (vshapeGrant s.hart w rs1)))) := by
  obtain ⟨hhit, -, -, -, -, hstep⟩ := (calm_iff s).mp hc
  refine completes_of_ok hstep ?_ ((Strand.wx_hit ..).trans hhit)
  simp only [run_bind, vecGate_ok hv, run_getH, if_neg (show s.hart.mode ≠ .user by simp [hm])]
  rfl

/-- vshape in user mode sets the shape and begins a strip (R111, R279). -/
theorem vshape_user (hm : s.hart.mode = .user) : exec (.vshape w rs1 rd) s = .next (s.committed.completes
    ({ s.committed.hart with vl := vshapeGrant s.hart w rs1, wid := w.bits, rgf := false, vsta := 0, strip := s.hart.newStrip }.wx rd
      (BitVec.ofNat 64 (vshapeGrant s.hart w rs1)))) := by
  obtain ⟨hhit, -, -, -, hbad, hstep⟩ := (calm_iff s).mp hc
  refine completes_of_wx (t := s.committed.withHart { s.committed.hart with
    vl := vshapeGrant s.hart w rs1, wid := w.bits, rgf := false, vsta := 0, strip := s.hart.newStrip }) hstep
    ((committed_storing s).hit_eq.trans hhit) ?_
  simp only [run_bind, vecGate_ok hv, run_getH, if_pos hm, stripBoundary_ok hbad]
  rfl

end

/-! ### vtag, tshape and tgetsh -/

/-- With no chain configured, tags and shapes may change (R124). -/
theorem needUnconfigured_free {s : State} (hu : s.hart.unchained = true) (r : Res) : needUnconfigured r s = .ok () s := by
  have hnone : (s.hart.c.toList.any fun c => c.state != .free && c.state != .rejected &&
      (c.rcd.reads.contains r || c.rcd.writes.contains r)) = false := by
    simp only [List.any_eq_false]
    intro c hc
    have hstate := List.all_eq_true.mp hu c hc
    simp only [Bool.or_eq_true, beq_iff_eq] at hstate
    rcases hstate with h | h <;> simp [h]
  simp only [needUnconfigured, run_bind, run_getH, hnone]
  rfl

/-- The granted shape is the request held to 128 rows and the type's columns, or none where a request is 0 (R120). -/
theorem tshapeGrant_eq (ty : ETag) (x y : Word) : tshapeGrant ty x.toNat y.toNat =
    if x = 0#64 ∨ y = 0#64 then .none else ⟨min x.toNat 128, min y.toNat (colMax ty), ty⟩ := by
  have hzero (z : Word) : z.toNat = 0 ↔ z = 0#64 := BitVec.toNat_inj (y := 0#64)
  have hmin (m n : Nat) : (if m < n then m else n) = min m n := by split <;> omega
  simp only [tshapeGrant, hzero, hmin]

section
variable {s : State} (hc : s.calm = true) (hv : s.hart.mayVector = true)
include hc hv

theorem vtag_completes (hu : s.hart.unchained = true) (ty : ETag) (vd : BitVec 5) :
    exec (.vtag ty vd) s = .next (s.completes (s.hart.putTag vd ty)) := by
  obtain ⟨hhit, -, -, -, -, hstep⟩ := (calm_iff s).mp hc
  refine completes_of_ok hstep ?_ hhit
  simp only [run_bind, vecGate_ok hv, needUnconfigured_free hu, run_modH]

theorem tshape_completes (hu : s.hart.unchained = true) (ty : ETag) (rs2 rs1 : BitVec 5) (md : BitVec 3) :
    exec (.tshape ty rs2 rs1 md) s = .next (s.completes { s.hart with
      tshape := s.hart.tshape.set md.toFin (tshapeGrant ty (s.hart.rx rs1).toNat (s.hart.rx rs2).toNat) }) := by
  obtain ⟨hhit, -, -, -, -, hstep⟩ := (calm_iff s).mp hc
  refine completes_of_ok hstep ?_ hhit
  simp only [run_bind, vecGate_ok hv, needUnconfigured_free hu, run_modH]

theorem tgetsh_completes (md : BitVec 3) (rd : BitVec 5) :
    exec (.tgetsh md rd) s = .next (s.completes (s.hart.wx rd (s.hart.shape md).word)) := by
  obtain ⟨hhit, -, -, -, -, hstep⟩ := (calm_iff s).mp hc
  refine completes_of_wx hstep hhit ?_
  simp only [run_bind, vecGate_ok hv, run_getH]
  rfl

end

/-- Settles O41: vshape by its grant and the strip boundary of user mode, the others by their checks and what they write. -/
theorem shapesComplete : Obligations.ShapesComplete := by
  intro s rs2 rs1 rd vd md ty h rows cols granted hc hv
  refine ⟨fun w => ?_, fun hu => ⟨vtag_completes hc hv hu ty vd, ?_⟩, tgetsh_completes hc hv md rd⟩
  · intro g
    have hg : vshapeGrant h w rs1 = g := vshapeGrant_eq_min h w rs1
    rw [← hg]
    exact ⟨vshape_supervisor hc hv, vshape_user hc hv⟩
  · have hgrant : tshapeGrant ty (h.rx rs1).toNat (h.rx rs2).toNat = granted := tshapeGrant_eq ty _ _
    rw [← hgrant]
    exact tshape_completes hc hv hu ty rs2 rs1 md

end Sys2Proof.Machine
end

section
/-!
PROOF. O4: the fused multiply-adds, the common course of R131 with vd as a third typed source (R139).
-/
namespace Sys2Proof.Machine

/-- A fused multiply-add whose three sources have a common type completes by the common course of R131 in that type. -/
theorem vaFma_completes {i : Instr} {negP negC : Bool} {km : BitVec 3} {a vd : BitVec 5} {b : Opnd} {s : State} {t : ETag}
    (hx : exec i s = runInstr i (vaFma negP negC km a b vd) s) (hc : s.calm = true) (hv : s.hart.mayVector = true)
    (hu : s.hart.unchained = true) (ht : commonType [s.hart.tag a, b.ty s.hart (s.hart.tag a), s.hart.tag vd] = some t)
    (hf : s.hart.fits (t :: s.hart.tag a :: s.hart.tag vd :: b.regs.map s.hart.tag) = true) :
    ∃ h, exec i s = .next (s.completes h) ∧ s.hart.vectorFrame h vd ∧
      s.hart.delivered h vd t (s.hart.active km) fun e =>
        (elemFma negP negC t s.hart.mode_ (widen (s.hart.tag a) t (s.hart.elem a (s.hart.tag a).width e))
          (widen (b.ty s.hart (s.hart.tag a)) t (b.val s.hart (s.hart.tag a) e))
          (widen (s.hart.tag vd) t (s.hart.elem vd (s.hart.tag vd).width e))).1 := by
  have hop : opType [s.hart.tag a, b.ty s.hart (s.hart.tag a), s.hart.tag vd] s = .ok t s := by rw [opType, ht]; rfl
  refine completes_of_vaRun (ind := false) (regs := a :: vd :: b.regs)
    (f := fun h e => elemFma negP negC t h.mode_ (widen (s.hart.tag a) t (h.elem a (s.hart.tag a).width e))
      (widen (b.ty s.hart (s.hart.tag a)) t (b.val h (s.hart.tag a) e))
      (widen (s.hart.tag vd) t (h.elem vd (s.hart.tag vd).width e))) hx ?_ hc hf hu hv
  simp only [vaFma, run_bind, vecGate_ok hv, run_getH, hop]

theorem exec_fusedVV {f : (BitVec 3 → Bool → BitVec 5 → BitVec 5 → BitVec 5 → Instr) × Bool × Bool} (hf : f ∈ fusedVV)
    (km : BitVec 3) (sc : Bool) (a b vd : BitVec 5) (s : State) :
    exec (f.1 km sc a b vd) s = runInstr (f.1 km sc a b vd) (vaFma f.2.1 f.2.2 km a (vvOperands sc a b).2 vd) s := by
  simp only [fusedVV, List.mem_cons, List.not_mem_nil, or_false] at hf
  rcases hf with rfl | rfl | rfl | rfl <;> rfl

/-- Settles O4: the common type of the three sources and the common course of R131, for a register and an x register as B. -/
theorem fusedMultiplyAddCompletes : Obligations.FusedMultiplyAddCompletes := by
  intro f hf km sc a b vd s t hc hv hu ht hfit
  have hx := exec_fusedVV hf km sc a b vd s
  cases sc
  · exact vaFma_completes (b := .vec b) hx hc hv hu ht hfit
  · exact vaFma_completes (b := .scal b) hx hc hv hu ht hfit

end Sys2Proof.Machine
end

section
/-!
PROOF. O6: the one-operand instructions, the common course of R131 in the source's own type (R145, R148, R149).
-/
namespace Sys2Proof.Machine

/-- The type checks of a one-operand instruction lead to the common course of R131. -/
theorem vaUnary_run {op : UnOp} {accepts : ETag → Bool} {km : BitVec 3} {a vd : BitVec 5} {s : State}
    (hv : s.hart.mayVector = true) (hn : s.hart.tag a ≠ .none) (ha : accepts (s.hart.tag a) = true) :
    vaUnary op accepts km a vd s = vaRun km vd [a] (s.hart.tag a) false
      (fun h e => elemUn op (s.hart.tag a) h.mode_ (h.elem a (s.hart.tag a).width e)) s := by
  have hneed : (s.hart.tag a != .none && accepts (s.hart.tag a)) = true := by simp [hn, ha]
  simp only [vaUnary, run_bind, vecGate_ok hv, run_getH, need_true hneed]

theorem exec_unaryV {f : (BitVec 3 → BitVec 5 → BitVec 5 → Instr) × UnOp × (ETag → Bool)} (hf : f ∈ unaryV)
    (km : BitVec 3) (a vd : BitVec 5) (s : State) :
    exec (f.1 km a vd) s = runInstr (f.1 km a vd) (vaUnary f.2.1 f.2.2 km a vd) s := by
  simp only [unaryV, List.mem_cons, List.not_mem_nil, or_false] at hf
  rcases hf with rfl | rfl | rfl | rfl | rfl | rfl | rfl | rfl | rfl | rfl | rfl <;> rfl

/-- Settles O6: the accepted type, then the common course of R131, for vmv with results that raise no class. -/
theorem unaryVectorCompletes : Obligations.UnaryVectorCompletes := by
  have hfit {s : State} {a : BitVec 5} (hf : s.hart.fits [s.hart.tag a] = true) :
      s.hart.fits (s.hart.tag a :: [a].map s.hart.tag) = true := fits_cons.mpr ⟨(fits_cons.mp hf).1, hf⟩
  refine ⟨fun f hf km a vd s hc hv hu hn ha hcap => ?_, fun km a vd s hc hv hu hn hcap => ?_⟩
  · exact completes_of_vaRun (exec_unaryV hf km a vd s) (vaUnary_run hv hn ha) hc (hfit hcap) hu hv
  · exact completes_of_vaRun_quiet (i := .vmv km a vd) rfl (vaUnary_run hv hn rfl) hc (hfit hcap) hu hv fun _ => rfl

end Sys2Proof.Machine
end

section
/-!
PROOF. O9: the mask group (R75, R153 to R155), by the bits of the mask registers that the instructions read and write.
-/
namespace Sys2Proof.Machine

/-! ### Bits of mask registers (R75) -/

theorem getLsbD_lowBits (n i : Nat) : (lowBits n).getLsbD i = (decide (i < 16384) && decide (i < n)) := by
  rw [lowBits, BitVec.getLsbD_ofNat, Nat.testBit_two_pow_sub_one]

/-- A mask register reads as its bits, k0 as all ones. -/
theorem getLsbD_kreg (h : Strand) (k : BitVec 3) {e : Nat} (he : e < 16384) : (h.kreg k).getLsbD e = h.kbit k e := by
  by_cases hk : k = 0#3
  · rw [Strand.kreg, if_pos hk, BitVec.getLsbD_allOnes, decide_eq_true he, Strand.kbit, hk]
    rfl
  · simp [Strand.kreg, Strand.kbit, hk]

/-- No bit of a mask register stands at or above 16384. -/
theorem mlen_le {h : Strand} (hv : h.mayVector = true) : h.mlen ≤ 16384 := by
  have := mayVector_lown hv
  unfold Strand.mlen
  omega

theorem getLsbD_and_lowBits_mlen {h : Strand} (hv : h.mayVector = true) (v : BitVec 16384) {e : Nat} (he : e < h.mlen) :
    (v &&& lowBits h.mlen).getLsbD e = v.getLsbD e := by
  have hlt := Nat.lt_of_lt_of_le he (mlen_le hv)
  rw [BitVec.getLsbD_and, getLsbD_lowBits, decide_eq_true he, decide_eq_true hlt, Bool.and_self, Bool.and_true]

theorem rangeFrom_eq_range' (lo n : Nat) : rangeFrom lo n = List.range' lo n := by
  induction n generalizing lo with
  | zero => rfl
  | succ n ih => rw [rangeFrom, ih, List.range'_succ]

theorem rangeFrom_zero (n : Nat) : rangeFrom 0 n = List.range n := by rw [rangeFrom_eq_range', List.range_eq_range']

/-- What kfirst writes: the number of the first bit of a mask register set below vl, or all ones (R154). -/
def Strand.firstSet (h : Strand) (k : BitVec 3) : Word :=
  match (List.range h.vl).find? (h.kbit k) with
  | some e => BitVec.ofNat 64 e
  | none => BitVec.allOnes 64

theorem firstSet_spec (h : Strand) (k : BitVec 3) :
    (∃ e, e < h.vl ∧ h.kbit k e = true ∧ (∀ d, d < e → h.kbit k d = false) ∧ h.firstSet k = BitVec.ofNat 64 e) ∨
      ((∀ e, e < h.vl → h.kbit k e = false) ∧ h.firstSet k = BitVec.allOnes 64) := by
  unfold Strand.firstSet
  cases hfind : (List.range h.vl).find? (h.kbit k) with
  | some e =>
    obtain ⟨hbit, hmem, hleast⟩ := List.find?_range_eq_some.mp hfind
    exact Or.inl ⟨e, List.mem_range.mp hmem, hbit, fun d hd => by simpa using hleast d hd, rfl⟩
  | none => exact Or.inr ⟨fun e he => by simpa using List.find?_range_eq_none.mp hfind e he, rfl⟩

/-! ### What the instructions of the group check and write -/

/-- A strand with no uncorrectable word reads its mask registers. -/
theorem needMask_ok {s : State} (hb : s.hart.bad = []) (k : BitVec 3) : needMask k s = .ok () s := by
  simp only [needMask, run_bind, run_getH, badOf_none hb, ite_self]
  rfl

theorem forEach_needMask_ok {s : State} (hb : s.hart.bad = []) (ks : List (BitVec 3)) : forEach ks needMask s = .ok () s := by
  induction ks with
  | nil => rfl
  | cons k ks ih => rw [forEach_cons, needMask_ok hb]; exact ih

/-- The strand with a mask register written and vsta 0. -/
def Strand.maskSet (h : Strand) (kd : BitVec 3) (v : BitVec 16384) : Strand := { h.putK kd v with vsta := 0 }

/-- A written mask register holds what was written, k0 excepted, and nothing else of the strand but vsta changes. -/
theorem maskSet_frame {h : Strand} (hb : h.bad = []) (kd : BitVec 3) (v : BitVec 16384) :
    h.maskFrame (h.maskSet kd v) kd ∧ (h.maskSet kd v).emask = h.emask ∧ (kd ≠ 0#3 → (h.maskSet kd v).k.get kd.toFin = v) := by
  by_cases hk : kd = 0#3
  · have hset : h.maskSet kd v = { h with vsta := 0 } := by rw [Strand.maskSet, Strand.putK, if_pos hk]
    rw [hset]
    exact ⟨⟨rfl, fun _ => rfl, fun _ => rfl, fun _ _ => rfl⟩, rfl, fun h0 => absurd hk h0⟩
  · have hset : h.maskSet kd v = { h with k := h.k.set kd.toFin v, vsta := 0 } := by
      rw [Strand.maskSet, Strand.putK, if_neg hk, hb, List.filter_nil, ← hb]
    have hget (q : BitVec 3) : (h.k.set kd.toFin v).get q.toFin = if q = kd then v else h.k.get q.toFin :=
      (get_set h.k kd.toFin q.toFin v).trans (if_congr toFin_inj rfl rfl)
    rw [hset]
    exact ⟨⟨rfl, fun _ => rfl, fun h0 => absurd h0 hk, fun q hq => (hget q).trans (if_neg hq)⟩, rfl,
      fun _ => (hget kd).trans (if_pos rfl)⟩

/-- An instruction that writes an x register and leaves vsta 0 completes. -/
theorem completes_of_clearing_wx {i : Instr} {body : M Unit} {s : State} {rd : BitVec 5} {v : Word} (hc : s.calm = true)
    (hx : exec i s = runInstr i body s) (hb : body s = .ok () (s.withHart { s.hart.wx rd v with vsta := 0 })) :
    ∃ h, exec i s = .next (s.completes h) ∧ s.hart.registerFrame h rd v := by
  obtain ⟨hhit, -, -, -, -, hstep⟩ := (calm_iff s).mp hc
  exact ⟨_, hx.trans (completes_of_ok hstep hb ((Strand.wx_hit ..).trans hhit)), rfl⟩

section
variable {s : State} (hc : s.calm = true) (hv : s.hart.mayVector = true)
include hc hv

/-- A mask operation completes with the bits of its result below vl and the old bits of kd from there on (R153). -/
theorem maskOp_completes {i : Instr} {srcs : List (BitVec 3)} {kd : BitVec 3} {f : Strand → BitVec 16384} {bit : Nat → Bool}
    (hx : exec i s = runInstr i (maskOp srcs kd f) s) (hbit : ∀ e, e < 16384 → e < s.hart.vl → (f s.hart).getLsbD e = bit e) :
    ∃ h, exec i s = .next (s.completes h) ∧ s.hart.maskFrame h kd ∧ h.emask = s.hart.emask ∧
      (kd ≠ 0#3 → ∀ e, e < s.hart.mlen →
        (h.k.get kd.toFin).getLsbD e = if e < s.hart.vl then bit e else (s.hart.k.get kd.toFin).getLsbD e) := by
  obtain ⟨hhit, -, -, hus, hbad, hstep⟩ := (calm_iff s).mp hc
  obtain ⟨hframe, hemask, hval⟩ := maskSet_frame hbad kd
    ((s.hart.kreg kd &&& ~~~lowBits s.hart.vl) ||| (f s.hart &&& lowBits s.hart.vl))
  have hbody : maskOp srcs kd f s = .ok () (s.withHart (s.hart.maskSet kd
      ((s.hart.kreg kd &&& ~~~lowBits s.hart.vl) ||| (f s.hart &&& lowBits s.hart.vl)))) := by
    simp only [maskOp, run_bind, vecGate_ok hv, forEach_needMask_ok hbad, run_getH, needUpsetIn_none hus, run_modH, clearVsta]
    rfl
  refine ⟨_, hx.trans (completes_of_ok hstep hbody (by rw [hframe.1]; exact hhit)), hframe, hemask, fun h0 e he => ?_⟩
  have hlt : e < 16384 := Nat.lt_of_lt_of_le he (mlen_le hv)
  rw [hval h0, BitVec.getLsbD_or, BitVec.getLsbD_and, BitVec.getLsbD_and, BitVec.getLsbD_not, getLsbD_lowBits, getLsbD_kreg _ _ hlt]
  by_cases hvl : e < s.hart.vl
  · rw [hbit e hlt hvl]
    simp [hvl, hlt]
  · simp [hvl, hlt, Strand.kbit, h0]

/-- kpop writes the number of bits set below vl (R154). -/
theorem kpop_completes (ks1 : BitVec 3) (rd : BitVec 5) : ∃ h, exec (.kpop ks1 rd) s = .next (s.completes h) ∧
    s.hart.registerFrame h rd (BitVec.ofNat 64 ((List.range s.hart.vl).countP fun e => s.hart.kbit ks1 e)) := by
  obtain ⟨-, -, -, hus, hbad, -⟩ := (calm_iff s).mp hc
  refine completes_of_clearing_wx hc rfl ?_
  simp only [run_bind, vecGate_ok hv, needMask_ok hbad, run_getH, needUpsetIn_none hus, writeX, clearVsta, run_modH,
    rangeFrom_zero, ← List.countP_eq_length_filter]
  rfl

/-- kfirst writes the number of the first bit set below vl, or all ones (R154). -/
theorem kfirst_completes (ks1 : BitVec 3) (rd : BitVec 5) : ∃ h, exec (.kfirst ks1 rd) s = .next (s.completes h) ∧
    s.hart.registerFrame h rd (s.hart.firstSet ks1) := by
  obtain ⟨-, -, -, hus, hbad, -⟩ := (calm_iff s).mp hc
  refine completes_of_clearing_wx hc rfl ?_
  simp only [run_bind, vecGate_ok hv, needMask_ok hbad, run_getH, needUpsetIn_none hus, writeX, clearVsta, run_modH,
    rangeFrom_zero, Strand.firstSet]
  rfl

/-- kmv from emask copies its MLEN bits to kd (R155). -/
theorem kmvFromEmask_completes (k : BitVec 3) : ∃ h, exec (.kmvFromEmask k) s = .next (s.completes h) ∧ s.hart.maskFrame h k ∧
    h.emask = s.hart.emask ∧ (k ≠ 0#3 → ∀ e, e < s.hart.mlen → (h.k.get k.toFin).getLsbD e = s.hart.emask.getLsbD e) := by
  obtain ⟨hhit, -, -, hus, hbad, hstep⟩ := (calm_iff s).mp hc
  obtain ⟨hframe, hemask, hval⟩ := maskSet_frame hbad k (s.hart.emask &&& lowBits s.hart.mlen)
  refine ⟨_, completes_of_ok hstep ?_ (by rw [hframe.1]; exact hhit), hframe, hemask, fun h0 e he => ?_⟩
  · simp only [run_bind, vecGate_ok hv, run_getH, needUpsetIn_none hus, run_modH, clearVsta]
    rfl
  · rw [hval h0, getLsbD_and_lowBits_mlen hv _ he]

/-- kmv to emask copies the MLEN bits of a mask register (R155). -/
theorem kmvToEmask_completes (k : BitVec 3) : ∃ h, exec (.kmvToEmask k) s = .next (s.completes h) ∧
    h = { s.hart with emask := h.emask, vsta := 0 } ∧ ∀ e, e < s.hart.mlen → h.emask.getLsbD e = s.hart.kbit k e := by
  obtain ⟨hhit, -, -, hus, hbad, hstep⟩ := (calm_iff s).mp hc
  refine ⟨{ s.hart with emask := s.hart.kreg k &&& lowBits s.hart.mlen, vsta := 0 }, completes_of_ok hstep ?_ hhit, rfl,
    fun e he => ?_⟩
  · simp only [run_bind, vecGate_ok hv, needMask_ok hbad, run_getH, needUpsetIn_none hus, run_modH, clearVsta]
    rfl
  · rw [getLsbD_and_lowBits_mlen hv _ he, getLsbD_kreg _ _ (Nat.lt_of_lt_of_le he (mlen_le hv))]

end

/-- Settles O9: each operation of two masks or one by the bits of its result, the counts and the moves of emask by what they write. -/
theorem maskInstructionsComplete : Obligations.MaskInstructionsComplete := by
  refine ⟨fun ks2 ks1 kd rs1 s hc hv p hp => ?_, fun ks1 rd s hc hv => ⟨kpop_completes hc hv ks1 rd, ?_⟩,
    fun k s hc hv => ⟨kmvFromEmask_completes hc hv k, kmvToEmask_completes hc hv k⟩⟩
  · simp only [maskVV, List.map_cons, List.map_nil, List.cons_append, List.nil_append, List.mem_cons, List.not_mem_nil, or_false] at hp
    rcases hp with rfl | rfl | rfl | rfl | rfl | rfl | rfl
    · exact maskOp_completes hc hv rfl fun e he _ => by rw [BitVec.getLsbD_and, getLsbD_kreg _ _ he, getLsbD_kreg _ _ he]
    · exact maskOp_completes hc hv rfl fun e he _ => by rw [BitVec.getLsbD_or, getLsbD_kreg _ _ he, getLsbD_kreg _ _ he]
    · exact maskOp_completes hc hv rfl fun e he _ => by
        rw [BitVec.getLsbD_xor, getLsbD_kreg _ _ he, getLsbD_kreg _ _ he, Bool.bne_eq_xor]
    · exact maskOp_completes hc hv rfl fun e he _ => by
        rw [BitVec.getLsbD_and, BitVec.getLsbD_not, decide_eq_true he, Bool.true_and, getLsbD_kreg _ _ he, getLsbD_kreg _ _ he]
    · exact maskOp_completes hc hv rfl fun e he _ => by
        rw [BitVec.getLsbD_not, decide_eq_true he, Bool.true_and, getLsbD_kreg _ _ he]
    · exact maskOp_completes hc hv rfl fun e he _ => getLsbD_kreg _ _ he
    · refine maskOp_completes hc hv rfl fun e he hvl => ?_
      rw [getLsbD_lowBits, decide_eq_true he, Bool.true_and, decide_eq_decide]
      split <;> omega
  · obtain ⟨h, hx, hframe⟩ := kfirst_completes hc hv ks1 rd
    exact ⟨h, _, hx, hframe, firstSet_spec s.hart ks1⟩

end Sys2Proof.Machine
end

section
/-!
Rounding to a grid (R30): RMode.rounds names one multiple, and roundGrid computes it.
-/
namespace Sys2Proof.Machine

/-! ### Rounding to an integer -/

/-- A value and its grid scale together: rounding to a multiple of 2^g is rounding the quotient to an integer. -/
theorem rounds_scale (mode : RMode) (y : ℚ) (g k : Int) : mode.rounds (y * 2 ^ g) g k ↔ mode.rounds y 0 k := by
  have hu : (0 : ℚ) < 2 ^ g := by positivity
  unfold RMode.rounds
  simp only [zpow_zero, mul_one]
  generalize (2 : ℚ) ^ g = u at *
  have hdist : |y * u - k * u| = |y - k| * u := by rw [← sub_mul, abs_mul, abs_of_pos hu]
  have habs (z : ℚ) : |z * u| = |z| * u := by rw [abs_mul, abs_of_pos hu]
  have hlt (a b : ℚ) : a * u < b * u ↔ a < b := mul_lt_mul_iff_left₀ hu
  have hle (a b : ℚ) : a * u ≤ b * u ↔ a ≤ b := mul_le_mul_iff_left₀ hu
  have heq (a b : ℚ) : a * u = b * u ↔ a = b := mul_left_inj' hu.ne'
  cases mode
  case rne =>
    dsimp only
    rw [hdist, ← mul_assoc, ← hlt _ 1, ← heq _ 1, one_mul]
  case rtz =>
    dsimp only
    rw [habs, habs, ← mul_assoc, hle, ← hle 0 (k * y), zero_mul, ← hlt _ (|(k : ℚ)| + 1), add_mul, one_mul]
  case rdn =>
    dsimp only
    rw [hle, ← hlt _ (k + 1 : ℚ), add_mul, one_mul]
  case rup =>
    dsimp only
    rw [hle, ← hlt (k - 1 : ℚ), sub_mul, one_mul]
  case rod =>
    dsimp only
    rw [hdist, heq, ← hlt _ 1, one_mul]

/-- The mode that rounds −x as this one rounds x. -/
def RMode.mirror : RMode → RMode
  | .rdn => .rup
  | .rup => .rdn
  | mode => mode

theorem rounds_neg (mode : RMode) (y : ℚ) (k : Int) : mode.rounds (-y) 0 (-k) ↔ mode.mirror.rounds y 0 k := by
  have hdist : |-y - -(k : ℚ)| = |y - k| := by rw [← abs_neg]; ring_nf
  cases mode <;> simp only [RMode.rounds, RMode.mirror, Int.cast_neg, zpow_zero, mul_one, hdist, abs_neg, neg_mul_neg]
  case rne => rw [show -k % 2 = 0 ↔ k % 2 = 0 by omega]
  case rdn => constructor <;> rintro ⟨h, h'⟩ <;> constructor <;> linarith
  case rup => constructor <;> rintro ⟨h, h'⟩ <;> constructor <;> linarith
  case rod => rw [show -k % 2 = 1 ↔ k % 2 = 1 by omega, neg_inj]

/-- Of a value that is not negative, toward zero is down. -/
theorem rounds_rtz_iff {y : ℚ} (hy : 0 ≤ y) (k : Int) : RMode.rtz.rounds y 0 k ↔ RMode.rdn.rounds y 0 k := by
  simp only [RMode.rounds, zpow_zero, mul_one, abs_of_nonneg hy]
  constructor
  · rintro ⟨hsign, hle, hlt⟩
    have hk : (0 : ℚ) ≤ k := by
      by_contra hneg
      rw [abs_of_neg (not_le.mp hneg)] at hle
      nlinarith
    rw [abs_of_nonneg hk] at hle hlt
    exact ⟨hle, hlt⟩
  · rintro ⟨hle, hlt⟩
    have hk : (0 : ℚ) ≤ k := by
      have : (-1 : ℚ) < k := by linarith
      exact_mod_cast Int.add_one_le_of_lt (show (-1 : Int) < k by exact_mod_cast this)
    rw [abs_of_nonneg hk]
    exact ⟨mul_nonneg hk hy, hle, hlt⟩

/-- What a value rounds to is less than one unit away. -/
theorem rounds_near {mode : RMode} {y : ℚ} {k : Int} (h : mode.rounds y 0 k) : |y - k| < 1 := by
  have hdown {y : ℚ} {k : Int} (h : RMode.rdn.rounds y 0 k) : |y - k| < 1 := by
    simp only [RMode.rounds, zpow_zero, mul_one] at h
    rw [abs_lt]; constructor <;> linarith
  cases mode
  case rne => simp only [RMode.rounds, zpow_zero, mul_one] at h; rcases h with h | ⟨h, -⟩ <;> linarith
  case rtz =>
    rcases le_total 0 y with hy | hy
    · exact hdown ((rounds_rtz_iff hy k).mp h)
    · rw [← neg_neg y, ← neg_neg k, rounds_neg] at h
      have := hdown ((rounds_rtz_iff (neg_nonneg.mpr hy) _).mp h)
      rwa [← abs_neg, Int.cast_neg, show -(-y - -(k : ℚ)) = y - k by ring] at this
  case rdn => exact hdown h
  case rup => simp only [RMode.rounds, zpow_zero, mul_one] at h; rw [abs_lt]; constructor <;> linarith
  case rod =>
    simp only [RMode.rounds, zpow_zero, mul_one] at h
    rcases h with rfl | ⟨h, -⟩
    · simp
    · exact h

/-- No mode offers a value two neighbouring integers. -/
theorem rounds_not_succ {mode : RMode} {y : ℚ} {k : Int} (hk : mode.rounds y 0 k) : ¬ mode.rounds y 0 (k + 1) := by
  have hdown {y : ℚ} {k : Int} (hk : RMode.rdn.rounds y 0 k) : ¬ RMode.rdn.rounds y 0 (k + 1) := by
    simp only [RMode.rounds, zpow_zero, mul_one, Int.cast_add, Int.cast_one] at hk ⊢
    exact fun hl => absurd hl.1 (not_le.mpr hk.2)
  intro hl
  cases mode
  case rne =>
    simp only [RMode.rounds, zpow_zero, mul_one, Int.cast_add, Int.cast_one] at hk hl
    have hle : |y - k| ≤ 1 / 2 := by rcases hk with h | ⟨h, -⟩ <;> linarith
    have hle' : |y - (k + 1)| ≤ 1 / 2 := by rcases hl with h | ⟨h, -⟩ <;> linarith
    have hy : y = k + 1 / 2 := le_antisymm (by linarith [le_of_abs_le hle]) (by linarith [neg_le_of_abs_le hle'])
    have htie : |y - k| = 1 / 2 := by rw [hy]; norm_num
    have htie' : |y - (k + 1)| = 1 / 2 := by rw [hy]; norm_num
    rw [htie] at hk
    rw [htie'] at hl
    norm_num at hk hl
    omega
  case rtz =>
    rcases le_total 0 y with hy | hy
    · exact hdown ((rounds_rtz_iff hy _).mp hk) ((rounds_rtz_iff hy _).mp hl)
    · have hneg {j : Int} (hj : RMode.rtz.rounds y 0 j) : RMode.rdn.rounds (-y) 0 (-j) :=
        (rounds_rtz_iff (neg_nonneg.mpr hy) _).mp ((rounds_neg .rtz y j).mpr hj)
      exact hdown (hneg hl) (by rw [show -(k + 1) + 1 = -k by ring]; exact hneg hk)
  case rdn => exact hdown hk hl
  case rup =>
    simp only [RMode.rounds, zpow_zero, mul_one, Int.cast_add, Int.cast_one] at hk hl
    linarith
  case rod =>
    have hnear := rounds_near hk
    have hnear' := rounds_near hl
    simp only [RMode.rounds, zpow_zero, mul_one] at hk hl
    rcases hk with rfl | ⟨-, hodd⟩
    · norm_num at hnear'
    · rcases hl with rfl | ⟨-, hodd'⟩
      · norm_num at hnear
      · omega

/-- A mode rounds a value in one way. -/
theorem rounds_unique {mode : RMode} {y : ℚ} {k l : Int} (hk : mode.rounds y 0 k) (hl : mode.rounds y 0 l) : k = l := by
  obtain ⟨h₁, h₂⟩ := abs_lt.mp (rounds_near hk)
  obtain ⟨h₃, h₄⟩ := abs_lt.mp (rounds_near hl)
  have hlow : (k : ℚ) < l + 2 := by linarith
  have hhigh : (l : ℚ) < k + 2 := by linarith
  have hlow' : k < l + 2 := by exact_mod_cast hlow
  have hhigh' : l < k + 2 := by exact_mod_cast hhigh
  have hne : l ≠ k + 1 := by rintro rfl; exact rounds_not_succ hk hl
  have hne' : k ≠ l + 1 := by rintro rfl; exact rounds_not_succ hl hk
  omega

/-! ### What roundGrid computes -/

/-- An integer with a sign given apart. -/
def signedInt (neg : Bool) (n : Nat) : Int := if neg then -n else n

/-- How the part cut off, in units of the last place, compares with half a unit (R30). -/
def restOf (rest : Nat) (r : ℚ) : Prop :=
  (rest = 0 ∧ r = 0) ∨ (rest = 1 ∧ 0 < r ∧ r < 1 / 2) ∨ (rest = 2 ∧ r = 1 / 2) ∨ (rest = 3 ∧ 1 / 2 < r ∧ r < 1)

/-- Rounding a value that is not negative by its last bit and the part cut off. -/
theorem rounds_up_or_not (mode : RMode) (q rest : Nat) {r : ℚ} (hr : restOf rest r) :
    mode.rounds (q + r) 0 ((if roundUp mode false (q % 2 == 1) rest then q + 1 else q : Nat) : Int) := by
  have hq : (0 : ℚ) ≤ q := Nat.cast_nonneg q
  have h0 : 0 ≤ r := by rcases hr with ⟨-, h⟩ | ⟨-, h, -⟩ | ⟨-, h⟩ | ⟨-, h, -⟩ <;> linarith
  have h1 : r < 1 := by rcases hr with ⟨-, h⟩ | ⟨-, -, h⟩ | ⟨-, h⟩ | ⟨-, -, h⟩ <;> linarith
  have hdown : RMode.rdn.rounds (q + r) 0 q := by
    simp only [RMode.rounds, zpow_zero, mul_one, Int.cast_natCast]
    constructor <;> linarith
  have hbelow : |q + r - ((q : Int) : ℚ)| = r := by rw [Int.cast_natCast, add_sub_cancel_left, abs_of_nonneg h0]
  have habove : |q + r - (((q + 1 : Nat) : Int) : ℚ)| = 1 - r := by
    rw [Int.cast_natCast, Nat.cast_succ, add_sub_add_left_eq_sub, abs_sub_comm, abs_of_pos (by linarith)]
  have hzero : rest = 0 ↔ r = 0 := by
    rcases hr with ⟨rfl, h⟩ | ⟨rfl, h, -⟩ | ⟨rfl, h⟩ | ⟨rfl, h, -⟩ <;> simp [h] <;> linarith
  cases mode
  case rne =>
    simp only [RMode.rounds, zpow_zero, mul_one]
    rcases hr with ⟨rfl, h⟩ | ⟨rfl, -, h⟩ | ⟨rfl, h⟩ | ⟨rfl, h, -⟩
    · rw [if_neg (by simp [roundUp]), hbelow]
      exact Or.inl (by linarith)
    · rw [if_neg (by simp [roundUp]), hbelow]
      exact Or.inl (by linarith)
    · by_cases hodd : q % 2 = 1
      · rw [if_pos (by simp [roundUp, hodd]), habove]
        exact Or.inr ⟨by linarith, by omega⟩
      · rw [if_neg (by simp [roundUp, hodd]), hbelow]
        exact Or.inr ⟨by linarith, by omega⟩
    · exact Or.inl (habove ▸ (by linarith : 2 * (1 - r) < 1))
  case rtz => exact (rounds_rtz_iff (by linarith) _).mpr hdown
  case rdn => exact hdown
  case rup =>
    by_cases h : rest = 0
    · have := hzero.mp h
      simp [roundUp, RMode.rounds, h, this]
    · have : 0 < r := lt_of_le_of_ne h0 fun h' => h (hzero.mpr h'.symm)
      simp [roundUp, RMode.rounds, h]
      constructor <;> linarith
  case rod =>
    simp only [RMode.rounds, zpow_zero, mul_one]
    by_cases h : rest = 0
    · rw [if_neg (by simp [roundUp, h]), hzero.mp h]
      exact Or.inl (by simp)
    · have hpos : 0 < r := lt_of_le_of_ne h0 fun h' => h (hzero.mpr h'.symm)
      by_cases hodd : q % 2 = 1
      · rw [if_neg (by simp [roundUp, hodd]), hbelow]
        exact Or.inr ⟨h1, by omega⟩
      · rw [if_pos (by simp [roundUp, hodd, h]), habove]
        exact Or.inr ⟨by linarith, by omega⟩

/-- Rounding the magnitude by the sign is rounding the value (R30). -/
theorem rounds_signed (mode : RMode) (neg : Bool) (q rest : Nat) {r : ℚ} (hr : restOf rest r) :
    mode.rounds ((if neg then -1 else 1) * (q + r)) 0
      (signedInt neg (if roundUp mode neg (q % 2 == 1) rest then q + 1 else q)) := by
  cases neg
  · rw [if_neg Bool.false_ne_true, one_mul]
    exact rounds_up_or_not mode q rest hr
  · have hmirror (odd : Bool) : roundUp mode true odd rest = roundUp mode.mirror false odd rest := by cases mode <;> rfl
    rw [if_pos rfl, neg_one_mul, signedInt, if_pos rfl, rounds_neg, hmirror]
    exact rounds_up_or_not mode.mirror q rest hr

/-- How roundGrid compares the i + 1 bits that it cuts off with half a unit. -/
theorem restOf_cut {i r : Nat} (hr : r < 2 ^ (i + 1)) :
    restOf (if r < 2 ^ i then (if r = 0 then 0 else 1) else if r = 2 ^ i then 2 else 3) (r / 2 ^ (i + 1)) := by
  have hD : (0 : ℚ) < 2 ^ (i + 1) := by positivity
  have hhalf : (1 : ℚ) / 2 = 2 ^ i / 2 ^ (i + 1) := by rw [pow_succ]; field_simp
  have hlt (a b : Nat) : (a : ℚ) / 2 ^ (i + 1) < b / 2 ^ (i + 1) ↔ a < b := by
    rw [div_lt_div_iff_of_pos_right hD, Nat.cast_lt]
  have hpow : ((2 ^ i : Nat) : ℚ) = 2 ^ i := by norm_cast
  unfold restOf
  rw [hhalf, ← hpow]
  by_cases h : r < 2 ^ i
  · by_cases h0 : r = 0
    · exact Or.inl ⟨by rw [if_pos h, if_pos h0], by rw [h0, Nat.cast_zero, zero_div]⟩
    · exact Or.inr (Or.inl ⟨by rw [if_pos h, if_neg h0], by positivity, (hlt _ _).mpr h⟩)
  · by_cases h0 : r = 2 ^ i
    · exact Or.inr (Or.inr (Or.inl ⟨by rw [if_neg h, if_pos h0], by rw [h0]⟩))
    · refine Or.inr (Or.inr (Or.inr ⟨by rw [if_neg h, if_neg h0], (hlt _ _).mpr (by omega), ?_⟩))
      rw [div_lt_one hD]
      exact_mod_cast hr

theorem two_zpow_of_add {l n : Int} {i : Nat} (h : l + i = n) : (2 : ℚ) ^ n = 2 ^ i * 2 ^ l := by
  rw [← h, zpow_add₀ two_ne_zero, zpow_natCast, mul_comm]

/-- roundGrid gives the multiple that the value rounds to (R30). -/
theorem rounds_roundGrid (mode : RMode) (neg : Bool) (m : Nat) (e g : Int) :
    mode.rounds (Num.fin neg m e).value g (signedInt neg (roundGrid mode neg m e false g).1) := by
  unfold roundGrid
  by_cases hg : g ≤ e
  · obtain ⟨i, hi⟩ := Int.le.dest hg
    have hval : (Num.fin neg m e).value = (if neg then -1 else 1) * ((m <<< i : Nat) + 0) * 2 ^ g := by
      rw [Num.value, two_zpow_of_add hi, add_zero, Nat.shiftLeft_eq, Nat.cast_mul, Nat.cast_pow, Nat.cast_ofNat]
      ring
    rw [if_pos hg, hval, show (e - g).toNat = i by omega, rounds_scale]
    exact rounds_signed mode neg (m <<< i) 0 (Or.inl ⟨rfl, rfl⟩)
  · obtain ⟨i, hi⟩ : ∃ i : Nat, g - e = i + 1 := ⟨(g - e).toNat - 1, by omega⟩
    have hgrid := two_zpow_of_add (show e + ((i + 1 : Nat) : Int) = g by push_cast; omega)
    have hm : (m : ℚ) = 2 ^ (i + 1) * (m >>> (i + 1) : Nat) + (m % 2 ^ (i + 1) : Nat) := by
      rw [Nat.shiftRight_eq_div_pow]
      exact_mod_cast (Nat.div_add_mod m (2 ^ (i + 1))).symm
    have hval : (Num.fin neg m e).value = (if neg then -1 else 1) *
        ((m >>> (i + 1) : Nat) + (m % 2 ^ (i + 1) : Nat) / 2 ^ (i + 1)) * 2 ^ g := by
      rw [Num.value, hm, hgrid]
      field_simp
    rw [if_neg hg, hval, show (g - e).toNat = i + 1 by omega, rounds_scale]
    simpa using rounds_signed mode neg (m >>> (i + 1)) _ (restOf_cut (Nat.mod_lt m (Nat.two_pow_pos (i + 1))))

end Sys2Proof.Machine
end

section
/-!
The encodings of finite floats (R26, R27): what encFinite gives reads back as the value it was given.
-/
namespace Sys2Proof.Machine

/-! ### The float formats (R26) -/

/-- A float type's width is that of its fields, and its greatest significand has the full length. -/
theorem fmtOf_fields {t : ETag} (ht : t.isFloat = true) : t.width = (fmtOf t).eb + (fmtOf t).m + 1 ∧ 1 < 2 ^ (fmtOf t).eb ∧
    2 ^ (fmtOf t).m ≤ (fmtOf t).maxM ∧ (fmtOf t).maxM < 2 ^ ((fmtOf t).m + 1) := by
  revert ht
  cases t <;> decide

/-- The exponent field of the greatest finite value: E4M3 has no infinity, and its last code of the field is its NaN (R28). -/
theorem fmtOf_greatest {t : ETag} (ht : t.isFloat = true) : (1 : Int) - (fmtOf t).bias - (fmtOf t).m ≤ (fmtOf t).maxE ∧
    if t = .e4m3 then (fmtOf t).eb = 4 ∧ (fmtOf t).m = 3 ∧ (fmtOf t).maxE + (fmtOf t).bias + (fmtOf t).m = 15 ∧ (fmtOf t).maxM = 14
    else (fmtOf t).maxE + (fmtOf t).bias + (fmtOf t).m + 2 = 2 ^ (fmtOf t).eb := by
  revert ht
  cases t <;> decide

/-- The bit of a sign in an encoding. -/
def signPart (t : ETag) (neg : Bool) : Nat := if neg then 2 ^ (t.width - 1) else 0

/-- The fields of an encoding put together from them. -/
theorem fields_of_encoding {t : ETag} (ht : t.isFloat = true) (neg : Bool) {ex sig : Nat} (hex : ex < 2 ^ (fmtOf t).eb)
    (hsig : sig < 2 ^ (fmtOf t).m) : signBit t (signPart t neg + (ex * 2 ^ (fmtOf t).m + sig)) = neg ∧
      (signPart t neg + (ex * 2 ^ (fmtOf t).m + sig)) >>> (fmtOf t).m % 2 ^ (fmtOf t).eb = ex ∧
      (signPart t neg + (ex * 2 ^ (fmtOf t).m + sig)) % 2 ^ (fmtOf t).m = sig := by
  obtain ⟨hw, -⟩ := fmtOf_fields ht
  have hwidth : t.width - 1 = (fmtOf t).eb + (fmtOf t).m := by omega
  simp only [signBit, signPart, hwidth, Nat.shiftRight_eq_div_pow]
  generalize (fmtOf t).eb = a at *
  generalize (fmtOf t).m = b at *
  have hlow : ex * 2 ^ b + sig < 2 ^ (a + b) := by
    have : (ex + 1) * 2 ^ b ≤ 2 ^ a * 2 ^ b := Nat.mul_le_mul_right _ hex
    rw [pow_add]
    linarith
  have hdiv : (ex * 2 ^ b + sig) / 2 ^ b = ex := by
    rw [mul_comm, Nat.mul_add_div (Nat.two_pow_pos b), Nat.div_eq_of_lt hsig, add_zero]
  have hmod : (ex * 2 ^ b + sig) % 2 ^ b = sig := by rw [mul_comm, Nat.mul_add_mod, Nat.mod_eq_of_lt hsig]
  cases neg
  · simp only [Bool.false_eq_true, if_false, zero_add]
    exact ⟨Nat.testBit_lt_two_pow hlow, by rw [hdiv, Nat.mod_eq_of_lt hex], hmod⟩
  · simp only [if_true]
    refine ⟨by rw [Nat.testBit_two_pow_add_eq, Nat.testBit_lt_two_pow hlow]; rfl, ?_, ?_⟩
    · rw [pow_add, mul_comm (2 ^ a), Nat.mul_add_div (Nat.two_pow_pos b), hdiv, Nat.add_mod_left, Nat.mod_eq_of_lt hex]
    · rw [pow_add, mul_comm (2 ^ a), Nat.mul_add_mod, hmod]

/-- An exponent field of 0 is that of the subnormals and zeros (R27). -/
theorem decodeFloat_subnormal {t : ETag} (ht : t.isFloat = true) (neg : Bool) {sig : Nat} (hsig : sig < 2 ^ (fmtOf t).m) :
    decodeFloat t (signPart t neg + sig) = .fin neg sig (1 - (fmtOf t).bias - (fmtOf t).m) := by
  obtain ⟨-, heb, -⟩ := fmtOf_fields ht
  obtain ⟨hs, he, hm⟩ := fields_of_encoding ht neg (Nat.two_pow_pos _) hsig
  rw [zero_mul, zero_add] at hs he hm
  rw [decodeFloat]
  simp only [hs, he, hm, if_true]
  by_cases h4 : t = .e4m3
  · simp [h4]
  · rw [if_neg h4, if_neg (by omega)]

/-- Above it, up to the greatest finite value, the leading bit counts (R27). -/
theorem decodeFloat_normal {t : ETag} (ht : t.isFloat = true) (neg : Bool) {ex sig : Nat} (hpos : ex ≠ 0)
    (hsig : sig < 2 ^ (fmtOf t).m) (hle : (ex : Int) - (fmtOf t).bias - (fmtOf t).m ≤ (fmtOf t).maxE)
    (htop : (ex : Int) - (fmtOf t).bias - (fmtOf t).m = (fmtOf t).maxE → 2 ^ (fmtOf t).m + sig ≤ (fmtOf t).maxM) :
    decodeFloat t (signPart t neg + (ex * 2 ^ (fmtOf t).m + sig)) =
      .fin neg (2 ^ (fmtOf t).m + sig) (ex - (fmtOf t).bias - (fmtOf t).m) := by
  obtain ⟨-, hgreatest⟩ := fmtOf_greatest ht
  by_cases h4 : t = .e4m3
  · rw [if_pos h4] at hgreatest
    obtain ⟨heb, hm3, hmax, hM⟩ := hgreatest
    have hex : ex < 2 ^ (fmtOf t).eb := by rw [heb]; omega
    obtain ⟨hs, he, hm⟩ := fields_of_encoding ht neg hex hsig
    have hnan : ¬ (ex = 15 ∧ sig = 7) := by
      rintro ⟨rfl, rfl⟩
      have := htop (by omega)
      rw [hm3, hM] at this
      omega
    rw [decodeFloat]
    simp only [hs, he, hm, if_pos h4, if_neg hnan, if_neg hpos]
  · rw [if_neg h4] at hgreatest
    have hmax : ex + 1 < 2 ^ (fmtOf t).eb := by zify; omega
    obtain ⟨hs, he, hm⟩ := fields_of_encoding (ex := ex) ht neg (by omega) hsig
    rw [decodeFloat]
    simp only [hs, he, hm, if_neg h4, if_neg hpos, if_neg (show ex ≠ 2 ^ (fmtOf t).eb - 1 by omega)]

/-! ### encFinite -/

/-- The number of bits of a number between two powers. -/
theorem bitLen_eq {n b : Nat} (hlo : 2 ^ b ≤ n) (hhi : n < 2 ^ (b + 1)) : bitLen n = b + 1 := by
  have hn : n ≠ 0 := (Nat.lt_of_lt_of_le (Nat.two_pow_pos b) hlo).ne'
  rw [bitLen, if_neg hn, (Nat.log2_eq_iff hn).mpr ⟨hlo, hhi⟩]

theorem exists_bitLen {n : Nat} (hn : n ≠ 0) : ∃ b, bitLen n = b + 1 ∧ 2 ^ b ≤ n ∧ n < 2 ^ (b + 1) := by
  obtain ⟨hlo, hhi⟩ := (Nat.log2_eq_iff hn).mp rfl
  exact ⟨n.log2, bitLen_eq hlo hhi, hlo, hhi⟩

/-- A finite number's value by its signed significand. -/
theorem value_fin (neg : Bool) (m : Nat) (e : Int) : (Num.fin neg m e).value = signedInt neg m * 2 ^ e := by
  cases neg <;> simp [Num.value, signedInt]

/-- A value on the subnormals' grid, below the normals, is read back. -/
theorem floatHolds_subnormal {t : ETag} (ht : t.isFloat = true) (neg : Bool) {q : Nat} (hq : q < 2 ^ (fmtOf t).m) :
    floatHolds t (encFinite t neg q (1 - (fmtOf t).bias - (fmtOf t).m)) neg
      (signedInt neg q * 2 ^ (1 - (fmtOf t).bias - (fmtOf t).m : Int)) := by
  refine ⟨q, _, ?_, value_fin ..⟩
  rw [← decodeFloat_subnormal ht neg hq]
  congr 1
  rw [encFinite]
  by_cases h0 : q = 0
  · rw [if_pos h0, h0]
    rfl
  · obtain ⟨b, hb, hlo, -⟩ := exists_bitLen h0
    have hlt : b < (fmtOf t).m := (Nat.pow_lt_pow_iff_right (by decide)).mp (Nat.lt_of_le_of_lt hlo hq)
    rw [if_neg h0]
    dsimp only
    rw [if_pos (by rw [hb]; push_cast; omega), sub_self]
    rfl

/-- A value of full length in the range of the normals is read back. -/
theorem floatHolds_normal {t : ETag} (ht : t.isFloat = true) (neg : Bool) {s i : Nat} {g : Int} (hlo : 2 ^ (fmtOf t).m ≤ s)
    (hhi : s < 2 ^ ((fmtOf t).m + 1)) (hmin : 1 - ((fmtOf t).bias : Int) ≤ g + i + (fmtOf t).m) (hmax : g + i ≤ (fmtOf t).maxE)
    (htop : g + i = (fmtOf t).maxE → s ≤ (fmtOf t).maxM) :
    floatHolds t (encFinite t neg (s * 2 ^ i) g) neg (signedInt neg (s * 2 ^ i) * 2 ^ g) := by
  obtain ⟨ex, hex⟩ : ∃ ex : Nat, g + i + (fmtOf t).m + (fmtOf t).bias = ex := ⟨_, (Int.toNat_of_nonneg (by omega)).symm⟩
  have hlen : bitLen (s * 2 ^ i) = (fmtOf t).m + i + 1 := bitLen_eq (by rw [pow_add]; exact Nat.mul_le_mul_right _ hlo)
    (by rw [add_right_comm, pow_add]; exact Nat.mul_lt_mul_of_pos_right hhi (Nat.two_pow_pos i))
  have hs : s = 2 ^ (fmtOf t).m + (s - 2 ^ (fmtOf t).m) := by omega
  have hexp : (ex : Int) - (fmtOf t).bias - (fmtOf t).m = g + i := by omega
  have hdec := decodeFloat_normal ht neg (ex := ex) (sig := s - 2 ^ (fmtOf t).m) (by omega) (by rw [pow_succ] at hhi; omega)
    (by rw [hexp]; exact hmax) (by rw [hexp, ← hs]; exact htop)
  rw [← hs, hexp] at hdec
  refine ⟨s, g + i, ?_, ?_⟩
  · rw [← hdec]
    congr 1
    have hne : s * 2 ^ i ≠ 0 := (Nat.mul_pos (Nat.lt_of_lt_of_le (Nat.two_pow_pos _) hlo) (Nat.two_pow_pos i)).ne'
    have hfield : (g + ((fmtOf t).m + i + 1 : Nat) - 1 + (fmtOf t).bias).toNat = ex := by omega
    have hsig : (if (fmtOf t).m + i + 1 ≤ (fmtOf t).m + 1 then (s * 2 ^ i) <<< ((fmtOf t).m + 1 - ((fmtOf t).m + i + 1))
        else (s * 2 ^ i) >>> ((fmtOf t).m + i + 1 - ((fmtOf t).m + 1))) = s := by
      rw [show (fmtOf t).m + i + 1 - ((fmtOf t).m + 1) = i by omega, Nat.shiftRight_eq_div_pow, Nat.mul_div_cancel _ (Nat.two_pow_pos i)]
      split
      · rw [show i = 0 by omega, pow_zero, mul_one, Nat.sub_self, Nat.shiftLeft_zero]
      · rfl
    rw [encFinite, if_neg hne]
    dsimp only
    rw [hlen, if_neg (by push_cast; omega), hsig, hfield, Nat.shiftLeft_eq]
    rfl
  · rw [value_fin, two_zpow_of_add (show g + (i : Int) = g + i from rfl), ← mul_assoc]
    cases neg <;> simp [signedInt]

/-- Every multiple of a power of two up to the greatest finite value, of full length or a subnormal, is read back (R27). -/
theorem floatHolds_encFinite {t : ETag} (ht : t.isFloat = true) (neg : Bool) {q : Nat} {g : Int} (hhi : q ≤ 2 ^ ((fmtOf t).m + 1))
    (hmax : (q : ℚ) * 2 ^ g ≤ (fmtOf t).maxM * 2 ^ (fmtOf t).maxE)
    (hmin : g = 1 - (fmtOf t).bias - (fmtOf t).m ∨ 2 ^ (fmtOf t).m ≤ q ∧ (2 : ℚ) ^ (1 - (fmtOf t).bias : Int) ≤ q * 2 ^ g) :
    floatHolds t (encFinite t neg q g) neg (signedInt neg q * 2 ^ g) := by
  by_cases hsub : q < 2 ^ (fmtOf t).m
  · obtain rfl : g = _ := hmin.resolve_right fun h => absurd h.1 (Nat.not_le.mpr hsub)
    exact floatHolds_subnormal ht neg hsub
  obtain ⟨s, i, rfl, hlo, hlt⟩ : ∃ s i, q = s * 2 ^ i ∧ 2 ^ (fmtOf t).m ≤ s ∧ s < 2 ^ ((fmtOf t).m + 1) := by
    rcases Nat.lt_or_eq_of_le hhi with h | rfl
    · exact ⟨q, 0, by rw [pow_zero, mul_one], Nat.not_lt.mp hsub, h⟩
    · exact ⟨2 ^ (fmtOf t).m, 1, pow_succ .., Nat.le_refl _, Nat.pow_lt_pow_right (by decide) (Nat.lt_succ_self _)⟩
  obtain ⟨-, -, -, hM⟩ := fmtOf_fields ht
  have hval : ((s * 2 ^ i : Nat) : ℚ) * 2 ^ g = s * 2 ^ (g + i) := by
    rw [two_zpow_of_add rfl]; push_cast; ring
  rw [hval] at hmax hmin
  refine floatHolds_normal ht neg hlo hlt ?_ ?_ fun htop => ?_
  · rcases hmin with rfl | ⟨-, hmin⟩
    · omega
    · have hlt' : (2 : ℚ) ^ (1 - (fmtOf t).bias : Int) < 2 ^ (g + i + (fmtOf t).m + 1) := by
        rw [two_zpow_of_add (show g + i + ((fmtOf t).m + 1 : Nat) = g + i + (fmtOf t).m + 1 by push_cast; ring)]
        exact hmin.trans_lt (mul_lt_mul_of_pos_right (by exact_mod_cast hlt) (by positivity))
      rw [zpow_lt_zpow_iff_right₀ one_lt_two] at hlt'
      omega
  · by_contra hbig
    have hM' : ((fmtOf t).maxM : ℚ) < 2 ^ ((fmtOf t).m + 1) := by exact_mod_cast hM
    have hs' : (2 : ℚ) ^ (fmtOf t).m ≤ s := by exact_mod_cast hlo
    have hpow : (2 : ℚ) * 2 ^ (fmtOf t).maxE ≤ 2 ^ (g + i) := by
      rw [← zpow_one_add₀ two_ne_zero]
      exact zpow_le_zpow_right₀ one_le_two (by omega)
    have hpos : (0 : ℚ) < 2 ^ (fmtOf t).maxE := by positivity
    have h : (2 : ℚ) ^ (fmtOf t).m * (2 * 2 ^ (fmtOf t).maxE) ≤ s * 2 ^ (g + i) := mul_le_mul hs' hpow (by positivity) (by positivity)
    rw [← mul_assoc, ← pow_succ] at h
    exact absurd (h.trans hmax) (not_le.mpr (mul_lt_mul_of_pos_right hM' hpos))
  · rw [htop] at hmax
    exact_mod_cast le_of_mul_le_mul_right hmax (by positivity)

end Sys2Proof.Machine
end

section
/-!
The three steps of R31: roundFinite and the sums and products of finite floats (R134) against exact values.
-/
namespace Sys2Proof.Machine

/-- How roundFinite compares two values: the significand of the greater exponent is shifted. -/
theorem shifted_lt_iff (a b : Nat) (f g : Int) :
    (if f ≤ g then decide (a < b <<< (g - f).toNat) else decide (a <<< (f - g).toNat < b)) = true ↔ (a : ℚ) * 2 ^ f < b * 2 ^ g := by
  have hshift {x : Nat} {i j : Int} (h : i ≤ j) : ((x <<< (j - i).toNat : Nat) : ℚ) * 2 ^ i = x * 2 ^ j := by
    rw [two_zpow_of_add (show i + ((j - i).toNat : Int) = j by omega), Nat.shiftLeft_eq, Nat.cast_mul, Nat.cast_pow, Nat.cast_ofNat,
      mul_assoc]
  by_cases h : f ≤ g
  · rw [if_pos h, decide_eq_true_eq, ← hshift h, mul_lt_mul_iff_left₀ (by positivity), Nat.cast_lt]
  · rw [if_neg h, decide_eq_true_eq, ← hshift (not_le.mp h).le, mul_lt_mul_iff_left₀ (by positivity), Nat.cast_lt]

/-- How it finds a value below a power of two. -/
theorem bitLen_le_iff {q : Nat} (hq : q ≠ 0) (g l : Int) : g + bitLen q ≤ l ↔ (q : ℚ) * 2 ^ g < 2 ^ l := by
  obtain ⟨b, hb, hlo, hhi⟩ := exists_bitLen hq
  have hpow (c : Nat) : (2 : ℚ) ^ (g + c) = 2 ^ c * 2 ^ g := two_zpow_of_add rfl
  rw [hb]
  constructor
  · intro h
    refine lt_of_lt_of_le ?_ (zpow_le_zpow_right₀ one_le_two h)
    rw [hpow]
    exact mul_lt_mul_of_pos_right (by exact_mod_cast hhi) (by positivity)
  · intro h
    have hlt : (2 : ℚ) ^ (g + b) < 2 ^ l := by
      rw [hpow]
      exact lt_of_le_of_lt (mul_le_mul_of_nonneg_right (by exact_mod_cast hlo) (by positivity)) h
    rw [zpow_lt_zpow_iff_right₀ one_lt_two] at hlt
    push_cast
    omega

theorem abs_signedInt (neg : Bool) (q : Nat) : |(signedInt neg q : ℚ)| = q := by cases neg <;> simp [signedInt]

theorem abs_value (neg : Bool) (m : Nat) (e : Int) : |(Num.fin neg m e).value| = m * 2 ^ e := by
  rw [value_fin, abs_mul, abs_signedInt, abs_of_pos (by positivity : (0 : ℚ) < 2 ^ e)]

theorem value_neg_iff {neg : Bool} {m : Nat} {e : Int} (hm : m ≠ 0) : decide ((Num.fin neg m e).value < 0) = neg := by
  have hpos : (0 : ℚ) < m * 2 ^ e := by positivity
  cases neg
  · simp [Num.value, hpos.le]
  · simp [Num.value, hpos]

/-- The multiple that roundGrid gives is less than one unit from the magnitude. -/
theorem roundGrid_near (mode : RMode) (neg : Bool) (m : Nat) (e g : Int) :
    |(m : ℚ) * 2 ^ (e - g) - (roundGrid mode neg m e false g).1| < 1 := by
  have h := rounds_roundGrid mode neg m e g
  have hval : (Num.fin neg m e).value = signedInt neg m * 2 ^ (e - g) * 2 ^ g := by
    rw [value_fin, mul_assoc, ← zpow_add₀ two_ne_zero, sub_add_cancel]
  rw [hval, rounds_scale] at h
  have hnear := rounds_near h
  cases neg
  · simpa [signedInt] using hnear
  · rw [← abs_neg] at hnear
    simpa [signedInt, sub_eq_add_neg, add_comm] using hnear

/-- A value's one multiple of 2^g under a mode is that of roundGrid. -/
theorem rounds_eq_roundGrid {mode : RMode} {neg : Bool} {m : Nat} {e g k : Int} (h : mode.rounds (Num.fin neg m e).value g k) :
    k = signedInt neg (roundGrid mode neg m e false g).1 := by
  have hgrid := rounds_roundGrid mode neg m e g
  have hval : (Num.fin neg m e).value = (Num.fin neg m e).value / 2 ^ g * 2 ^ g := (div_mul_cancel₀ _ (by positivity)).symm
  rw [hval, rounds_scale] at h hgrid
  exact rounds_unique h hgrid

/-- The magnitude on the first grid of R31 has the full length, or is the next power of two. -/
theorem roundGrid_full (mode : RMode) (neg : Bool) {m b : Nat} (e : Int) (w : Nat) (hlo : 2 ^ b ≤ m) (hhi : m < 2 ^ (b + 1)) :
    2 ^ w ≤ (roundGrid mode neg m e false (e + b - w)).1 ∧ (roundGrid mode neg m e false (e + b - w)).1 ≤ 2 ^ (w + 1) := by
  obtain ⟨h₁, h₂⟩ := abs_lt.mp (roundGrid_near mode neg m e (e + b - w))
  generalize (roundGrid mode neg m e false (e + b - w)).1 = y at *
  have hscale (c : Nat) : (2 : ℚ) ^ (b + c : Nat) * 2 ^ (e - (e + b - w)) = 2 ^ (w + c) := by
    rw [← zpow_natCast, ← zpow_natCast, ← zpow_add₀ two_ne_zero]
    congr 1
    push_cast
    ring
  have hpos : (0 : ℚ) < 2 ^ (e - (e + b - w)) := by positivity
  have hlo' : (2 : ℚ) ^ w ≤ m * 2 ^ (e - (e + b - w)) := by
    rw [← add_zero w, ← hscale 0]
    exact mul_le_mul_of_nonneg_right (by exact_mod_cast hlo) hpos.le
  have hhi' : m * 2 ^ (e - (e + b - w)) < (2 : ℚ) ^ (w + 1) := by
    rw [← hscale 1]
    exact mul_lt_mul_of_pos_right (by exact_mod_cast hhi) hpos
  have hy : (2 : ℚ) ^ w < y + 1 := by linarith
  have hy' : (y : ℚ) < 2 ^ (w + 1) + 1 := by linarith
  exact ⟨Nat.lt_succ_iff.mp (by exact_mod_cast hy), Nat.lt_succ_iff.mp (by exact_mod_cast hy')⟩

/-- A magnitude below 2^w units rounds to at most that. -/
theorem roundGrid_le (mode : RMode) (neg : Bool) {m : Nat} {e g : Int} {w : Nat} (hlt : (m : ℚ) * 2 ^ e < 2 ^ w * 2 ^ g) :
    (roundGrid mode neg m e false g).1 ≤ 2 ^ w := by
  have hnear := (abs_lt.mp (roundGrid_near mode neg m e g)).1
  have hscaled : (m : ℚ) * 2 ^ (e - g) < 2 ^ w := by
    rw [zpow_sub₀ two_ne_zero, ← mul_div_assoc, div_lt_iff₀ (by positivity)]
    exact hlt
  have hz : ((roundGrid mode neg m e false g).1 : ℚ) < 2 ^ w + 1 := by linarith
  exact Nat.lt_succ_iff.mp (by exact_mod_cast hz)

/-- The branches of roundFinite by the values compared (R31). -/
theorem roundFinite_fst (t : ETag) (mode : RMode) (neg : Bool) {m b : Nat} (e : Int) (hlo : 2 ^ b ≤ m) (hhi : m < 2 ^ (b + 1)) :
    (roundFinite t mode neg m e false).1 =
      let y := (roundGrid mode neg m e false (e + b - (fmtOf t).m)).1
      if ((fmtOf t).maxM : ℚ) * 2 ^ (fmtOf t).maxE < y * 2 ^ (e + b - (fmtOf t).m) then overflowEnc t mode neg
      else if (y : ℚ) * 2 ^ (e + b - (fmtOf t).m) < 2 ^ (1 - (fmtOf t).bias : Int) then
        encFinite t neg (roundGrid mode neg m e false (1 - (fmtOf t).bias - (fmtOf t).m)).1 (1 - (fmtOf t).bias - (fmtOf t).m)
      else encFinite t neg y (e + b - (fmtOf t).m) := by
  have hy : (roundGrid mode neg m e false (e + b - (fmtOf t).m)).1 ≠ 0 :=
    (Nat.lt_of_lt_of_le (Nat.two_pow_pos _) (roundGrid_full mode neg e (fmtOf t).m hlo hhi).1).ne'
  have hg : e + bitLen m - ((fmtOf t).m + 1) = e + b - (fmtOf t).m := by rw [bitLen_eq hlo hhi]; push_cast; ring
  rw [roundFinite]
  dsimp only
  rw [hg]
  simp only [shifted_lt_iff, bitLen_le_iff hy]
  split
  · rfl
  · split <;> rfl

/-- A magnitude lies between the powers of two that its number of bits gives. -/
theorem binade_bounds {m b : Nat} (e : Int) (hlo : 2 ^ b ≤ m) (hhi : m < 2 ^ (b + 1)) :
    (2 : ℚ) ^ (e + b) ≤ m * 2 ^ e ∧ m * 2 ^ e < (2 : ℚ) ^ (e + b + 1) := by
  rw [two_zpow_of_add (show e + (b : Int) = e + b from rfl), two_zpow_of_add (show e + (b + 1 : Nat) = e + b + 1 by push_cast; ring)]
  exact ⟨mul_le_mul_of_nonneg_right (by exact_mod_cast hlo) (by positivity),
    mul_lt_mul_of_pos_right (by exact_mod_cast hhi) (by positivity)⟩

theorem binade_unique {x : ℚ} {n n' : Int} (h : 2 ^ n ≤ x ∧ x < 2 ^ (n + 1)) (h' : 2 ^ n' ≤ x ∧ x < 2 ^ (n' + 1)) : n = n' := by
  have h₁ := h.1.trans_lt h'.2
  have h₂ := h'.1.trans_lt h.2
  rw [zpow_lt_zpow_iff_right₀ one_lt_two] at h₁ h₂
  omega

/-- The third step of R31: where the first rounding is below the normals, the value rounded to the subnormals' grid is read back. -/
theorem floatHolds_third_step {t : ETag} (ht : t.isFloat = true) (mode : RMode) (neg : Bool) {m b : Nat} {e : Int} (hlo : 2 ^ b ≤ m)
    (hhi : m < 2 ^ (b + 1))
    (hsmall : ((roundGrid mode neg m e false (e + b - (fmtOf t).m)).1 : ℚ) * 2 ^ (e + b - (fmtOf t).m) < 2 ^ (1 - (fmtOf t).bias : Int)) :
    let least : Int := 1 - (fmtOf t).bias - (fmtOf t).m
    let z := (roundGrid mode neg m e false least).1
    floatHolds t (encFinite t neg z least) neg (signedInt neg z * 2 ^ least) := by
  obtain ⟨-, -, hM, -⟩ := fmtOf_fields ht
  have hexp : e + b < 1 - (fmtOf t).bias := by
    rw [← zpow_lt_zpow_iff_right₀ (one_lt_two (α := ℚ))]
    refine lt_of_le_of_lt ?_ hsmall
    rw [two_zpow_of_add (show e + b - (fmtOf t).m + ((fmtOf t).m : Int) = e + b by ring)]
    exact mul_le_mul_of_nonneg_right (by exact_mod_cast (roundGrid_full mode neg e (fmtOf t).m hlo hhi).1) (by positivity)
  have hz : (roundGrid mode neg m e false (1 - (fmtOf t).bias - (fmtOf t).m)).1 ≤ 2 ^ (fmtOf t).m := by
    refine roundGrid_le mode neg ?_
    rw [← two_zpow_of_add (show (1 - (fmtOf t).bias - (fmtOf t).m : Int) + ((fmtOf t).m : Int) = 1 - (fmtOf t).bias by ring)]
    exact (binade_bounds e hlo hhi).2.trans_le (zpow_le_zpow_right₀ one_le_two (by omega))
  refine floatHolds_encFinite ht neg (hz.trans (Nat.pow_le_pow_right (by decide) (Nat.le_succ _))) ?_ (Or.inl rfl)
  exact mul_le_mul (by exact_mod_cast hz.trans hM) (zpow_le_zpow_right₀ one_le_two (fmtOf_greatest ht).1) (by positivity) (by positivity)

/-- roundFinite delivers the three steps of R31. -/
theorem isRoundOf_roundFinite {t : ETag} (ht : t.isFloat = true) (mode : RMode) (neg : Bool) {m : Nat} (hm : m ≠ 0) (e : Int) :
    isRoundOf t mode (Num.fin neg m e).value (roundFinite t mode neg m e false).1 := by
  obtain ⟨b, -, hlo, hhi⟩ := exists_bitLen hm
  obtain ⟨hfull, hfull'⟩ := roundGrid_full mode neg e (fmtOf t).m hlo hhi
  rw [roundFinite_fst t mode neg e hlo hhi]
  intro n k hn hn' hk y most
  rw [abs_value] at hn hn'
  obtain rfl : n = e + b := binade_unique ⟨hn, hn'⟩ (binade_bounds e hlo hhi)
  obtain rfl := rounds_eq_roundGrid hk
  have hy : |y| = (roundGrid mode neg m e false (e + b - (fmtOf t).m)).1 * 2 ^ (e + b - (fmtOf t).m) := by
    rw [abs_mul, abs_signedInt, abs_of_pos (by positivity : (0 : ℚ) < 2 ^ (e + b - (fmtOf t).m))]
  dsimp only
  rw [value_neg_iff hm, ← hy]
  refine ⟨fun hbig => if_pos hbig, fun hle hmin => ?_, fun hle hsmall j hj => ?_⟩
  · rw [if_neg (not_lt.mpr hle), if_neg (not_lt.mpr hmin)]
    exact floatHolds_encFinite ht neg hfull' (hy ▸ hle) (Or.inr ⟨hfull, hy ▸ hmin⟩)
  · rw [if_neg (not_lt.mpr hle), if_pos hsmall]
    obtain rfl := rounds_eq_roundGrid hj
    exact floatHolds_third_step ht mode neg hlo hhi (hy ▸ hsmall)

end Sys2Proof.Machine
end

section
/-!
Sums, differences and products of finite floats (R134): the exact value, then one rounding.
-/
namespace Sys2Proof.Machine

theorem scaled_eq (neg : Bool) (m : Nat) {e g : Int} (h : g ≤ e) : (scaled neg m e g : ℚ) * 2 ^ g = (Num.fin neg m e).value := by
  rw [Num.value, two_zpow_of_add (show g + ((e - g).toNat : Int) = e by omega), scaled, Nat.shiftLeft_eq]
  cases neg <;> simp <;> ring

/-- An integer multiple of a power of two as a number. -/
theorem value_ofInt (s g : Int) : (Num.fin (decide (s < 0)) s.natAbs g).value = s * 2 ^ g := by
  have hs : signedInt (decide (s < 0)) s.natAbs = s := by
    rw [signedInt]
    split
    case isTrue h => rw [decide_eq_true_eq] at h; omega
    case isFalse h => rw [decide_eq_true_eq] at h; omega
  rw [value_fin, hs]

theorem value_negNum (neg : Bool) (m : Nat) (e : Int) : (negNum (.fin neg m e)).value = -(Num.fin neg m e).value := by
  cases neg <;> simp [negNum, Num.value]

theorem value_mulNum (p q : Bool) (i j : Nat) (e g : Int) :
    (mulNum (.fin p i e) (.fin q j g)).1.value = (Num.fin p i e).value * (Num.fin q j g).value := by
  rw [mulNum, Num.value, Num.value, Num.value, zpow_add₀ two_ne_zero]
  cases p <;> cases q <;> push_cast <;> simp <;> ring

/-- The exact sum of finite numbers is a finite number (R33). -/
theorem addNum_fin (mode : RMode) (p q : Bool) (i j : Nat) (e g : Int) : ∃ neg m l,
    (addNum mode (.fin p i e) (.fin q j g)).1 = .fin neg m l ∧
      (Num.fin neg m l).value = (Num.fin p i e).value + (Num.fin q j g).value := by
  rw [addNum]
  by_cases h0 : i = 0 ∧ j = 0
  · obtain ⟨rfl, rfl⟩ := h0
    exact ⟨_, _, _, rfl, by simp [Num.value]⟩
  rw [if_neg h0]
  dsimp only
  have hl : (if e ≤ g then e else g) ≤ e ∧ (if e ≤ g then e else g) ≤ g := by split <;> omega
  generalize (if e ≤ g then e else g) = l at *
  have hsum : ((scaled p i e l + scaled q j g l : Int) : ℚ) * 2 ^ l = (Num.fin p i e).value + (Num.fin q j g).value := by
    rw [Int.cast_add, add_mul, scaled_eq p i hl.1, scaled_eq q j hl.2]
  rw [← hsum]
  split
  case isTrue hs => exact ⟨_, _, _, rfl, by simp [Num.value, hs]⟩
  case isFalse => exact ⟨_, _, _, rfl, value_ofInt ..⟩

/-- A finite number that is not zero is delivered by the three steps of R31. -/
theorem isRoundOf_roundNum {t : ETag} (ht : t.isFloat = true) (mode : RMode) {neg : Bool} {m : Nat} {e : Int}
    (hv : (Num.fin neg m e).value ≠ 0) : isRoundOf t mode (Num.fin neg m e).value (roundNum t mode (.fin neg m e)).1 := by
  have hm : m ≠ 0 := by rintro rfl; simp [Num.value] at hv
  rw [roundNum, if_neg hm]
  exact isRoundOf_roundFinite ht mode neg hm e

theorem isRoundOf_roundNum_addNum {t : ETag} (ht : t.isFloat = true) (mode : RMode) {p q : Bool} {i j : Nat} {e g : Int}
    (hv : (Num.fin p i e).value + (Num.fin q j g).value ≠ 0) : isRoundOf t mode ((Num.fin p i e).value + (Num.fin q j g).value)
      (roundNum t mode (addNum mode (.fin p i e) (.fin q j g)).1).1 := by
  obtain ⟨neg, m, l, hsum, hval⟩ := addNum_fin mode p q i j e g
  rw [hsum, ← hval]
  exact isRoundOf_roundNum ht mode (hval ▸ hv)

/-- The encoding of 1 that a difference is formed with (R134). -/
theorem decodeFloat_encOne {t : ETag} (ht : t.isFloat = true) :
    decodeFloat t (elemBin.encOne t) = .fin false (2 ^ (fmtOf t).m) (-(fmtOf t).m) := by
  revert ht
  cases t <;> decide

section
variable {t : ETag} (ht : t.isFloat = true) (mode : RMode) {a b : Nat} {p q : Bool} {i j : Nat} {e g : Int}
  (ha : decodeFloat t a = .fin p i e) (hb : decodeFloat t b = .fin q j g)
include ht ha hb

theorem isRoundOf_fAdd (hv : (Num.fin p i e).value + (Num.fin q j g).value ≠ 0) :
    isRoundOf t mode ((Num.fin p i e).value + (Num.fin q j g).value) (fAdd t mode a b).1 := by
  rw [fAdd, ha, hb]
  exact isRoundOf_roundNum_addNum ht mode hv

theorem isRoundOf_fMul (hv : (Num.fin p i e).value * (Num.fin q j g).value ≠ 0) :
    isRoundOf t mode ((Num.fin p i e).value * (Num.fin q j g).value) (fMul t mode a b).1 := by
  rw [fMul, ha, hb]
  rw [← value_mulNum] at hv ⊢
  exact isRoundOf_roundNum ht mode hv

/-- A difference is one fused operation with the factor 1, so one rounding. -/
theorem isRoundOf_difference (hv : (Num.fin p i e).value - (Num.fin q j g).value ≠ 0) :
    isRoundOf t mode ((Num.fin p i e).value - (Num.fin q j g).value) (fFma t mode false true a (elemBin.encOne t) b).1 := by
  have hone : (mulNum (.fin p i e) (.fin false (2 ^ (fmtOf t).m) (-(fmtOf t).m))).1.value = (Num.fin p i e).value := by
    rw [value_mulNum]
    simp [Num.value]
  have hneg := value_negNum q j g
  rw [fFma, ha, hb, decodeFloat_encOne ht]
  rw [sub_eq_add_neg, ← hneg, ← hone] at hv ⊢
  exact isRoundOf_roundNum_addNum ht mode hv

end

/-- An exact sum, difference or product of finite floats that is not zero is rounded by the three steps of R31 (R134). -/
theorem isRoundOf_exactOps {t : ETag} (ht : t.isFloat = true) (mode : RMode) {a b : Nat} {p q : Bool} {i j : Nat} {e g : Int}
    (ha : decodeFloat t a = .fin p i e) (hb : decodeFloat t b = .fin q j g) {f : BinOp × (ℚ → ℚ → ℚ)} (hf : f ∈ exactOps)
    (hv : f.2 (Num.fin p i e).value (Num.fin q j g).value ≠ 0) :
    isRoundOf t mode (f.2 (Num.fin p i e).value (Num.fin q j g).value) (elemBin f.1 t mode a b).1 := by
  simp only [exactOps, List.mem_cons, List.not_mem_nil, or_false] at hf
  rcases hf with rfl | rfl | rfl | rfl <;> rw [elemBin, if_pos ht]
  · exact isRoundOf_fAdd ht mode ha hb hv
  · exact isRoundOf_difference ht mode ha hb hv
  · exact isRoundOf_difference ht mode hb ha hv
  · exact isRoundOf_fMul ht mode ha hb hv

end Sys2Proof.Machine
end

section
/-!
PROOF. O2: results of integer elements by their values (R24, R136 to R138, R141), vmulh as an instruction, and with the rounding of
floats the whole.
-/
namespace Sys2Proof.Machine

/-! ### Integers of a type (R22, R24) -/

theorem satEnc_snd (t : ETag) (i : Int) : (satEnc t i).2 = if intMin t ≤ i ∧ i ≤ intMax t then 0#6 else Cls.saturation := by
  have hiff : clampInt t i = i ↔ intMin t ≤ i ∧ i ≤ intMax t := by
    have := intMin_le_zero_le_intMax t
    unfold clampInt
    omega
  rw [satEnc, satInt_eq_clampInt]
  by_cases h : intMin t ≤ i ∧ i ≤ intMax t
  · rw [hiff.mpr h, bne_self_eq_false, if_pos h]
    rfl
  · rw [bne_iff_ne.mpr (hiff.not.mpr h), if_neg h]
    rfl

theorem exists_width_succ (t : ETag) : ∃ w, t.width = w + 1 := Nat.exists_eq_add_one.mpr (width_pos t)

/-- An encoding's value is in its type's range. -/
theorem decodeInt_mem (t : ETag) (n : Nat) : intMin t ≤ decodeInt t n ∧ decodeInt t n ≤ intMax t := by
  obtain ⟨w, hw⟩ := exists_width_succ t
  have hlt : n % 2 ^ (w + 1) < 2 ^ (w + 1) := Nat.mod_lt _ (Nat.two_pow_pos _)
  have htop := testBit_top hlt
  have hpow : (2 : Int) ^ (w + 1) = 2 * 2 ^ w := pow_succ' 2 w
  zify at hlt htop
  rw [decodeInt, intMin, intMax]
  simp only [hw, Nat.add_sub_cancel, htop]
  push_cast
  by_cases hs : t.isSigned = true
  · simp only [hs, if_true, true_and]
    split <;> omega
  · simp only [hs, if_false, false_and, Bool.false_eq_true]
    omega

/-- Only the bits of the type's width count. -/
theorem decodeInt_mod (t : ETag) (n : Nat) : decodeInt t (n % 2 ^ t.width) = decodeInt t n := by
  rw [decodeInt, decodeInt, Nat.mod_mod]

/-- A quotient rounded down is in the range that its bounds give. -/
theorem decodeInt_truncInt_ediv {t : ETag} {x d : Int} (hd : 0 < d) (hmin : intMin t * d ≤ x) (hmax : x < (intMax t + 1) * d) :
    decodeInt t (truncInt t (x / d)) = x / d :=
  decodeInt_truncInt ((Int.le_ediv_iff_mul_le hd).mpr hmin) (Int.lt_add_one_iff.mp ((Int.ediv_lt_iff_lt_mul hd).mpr hmax))

/-! ### Two-operand results -/

section
variable {t : ETag} (ht : t.isInt = true) (m : RMode) (a b : Nat)
include ht

/-- Sums, differences and products are exact, then clamped (R134). -/
theorem elemBin_clamped {f : BinOp × (Int → Int → Int)}
    (hf : f ∈ ([(.add, fun x y => x + y), (.sub, fun x y => x - y), (.rsub, fun x y => y - x), (.mul, fun x y => x * y)] :
      List (BinOp × (Int → Int → Int)))) : elemBin f.1 t m a b = satEnc t (f.2 (decodeInt t a) (decodeInt t b)) := by
  simp only [List.mem_cons, List.not_mem_nil, or_false] at hf
  rcases hf with rfl | rfl | rfl | rfl <;> simp only [elemBin, isInt_not_float ht, Bool.false_eq_true, if_false]

/-- A quotient (R137). -/
theorem elemBin_div : elemBin .div t m a b = if decodeInt t b = 0 then
      (truncInt t (if decodeInt t a < 0 then intMin t else intMax t), Cls.saturation)
    else satEnc t ((decodeInt t a).tdiv (decodeInt t b)) := by
  simp only [elemBin, isInt_not_float ht, Bool.false_eq_true, if_false, intDiv]

theorem decodeInt_elemBin_div : decodeInt t (elemBin .div t m a b).1 =
    if decodeInt t b = 0 then (if decodeInt t a < 0 then intMin t else intMax t)
    else clampInt t ((decodeInt t a).tdiv (decodeInt t b)) := by
  have := intMin_le_zero_le_intMax t
  rw [elemBin_div ht]
  by_cases h0 : decodeInt t b = 0
  · rw [if_pos h0, if_pos h0]
    exact decodeInt_truncInt (by split <;> omega) (by split <;> omega)
  · rw [if_neg h0, if_neg h0, decodeInt_satEnc]

theorem elemBin_div_snd : (elemBin .div t m a b).2 = if decodeInt t b ≠ 0 ∧ intMin t ≤ (decodeInt t a).tdiv (decodeInt t b) ∧
    (decodeInt t a).tdiv (decodeInt t b) ≤ intMax t then 0#6 else Cls.saturation := by
  rw [elemBin_div ht]
  by_cases h0 : decodeInt t b = 0 <;> simp [h0, satEnc_snd]

/-- The lesser and the greater (R138). -/
theorem elemBin_min_max : decodeInt t (elemBin .min t m a b).1 = min (decodeInt t a) (decodeInt t b) ∧ (elemBin .min t m a b).2 = 0#6 ∧
    decodeInt t (elemBin .max t m a b).1 = max (decodeInt t a) (decodeInt t b) ∧ (elemBin .max t m a b).2 = 0#6 := by
  simp only [elemBin, isInt_not_float ht, Bool.false_eq_true, if_false, and_true, true_and]
  constructor <;> split <;> omega

end

/-- The remainder has the dividend's sign and is no greater, so it is in range (R137). -/
theorem decodeInt_elemBin_rem (t : ETag) (m : RMode) (a b : Nat) : decodeInt t (elemBin .rem t m a b).1 =
    if decodeInt t b = 0 then decodeInt t a else decodeInt t a - decodeInt t b * (decodeInt t a).tdiv (decodeInt t b) := by
  obtain ⟨hmin, hmax⟩ := decodeInt_mem t a
  obtain ⟨hneg, hpos⟩ := intMin_le_zero_le_intMax t
  rw [elemBin, intRem]
  generalize decodeInt t a = x at *
  generalize decodeInt t b = y at *
  by_cases h0 : y = 0
  · rw [if_pos h0, if_pos h0]
    exact decodeInt_truncInt hmin hmax
  · rw [if_neg h0, if_neg h0]
    have habs : (x.tmod y).natAbs ≤ x.natAbs := by rw [Int.natAbs_tmod]; exact Nat.mod_le _ _
    have hsign : (0 ≤ x → 0 ≤ x.tmod y) ∧ (x ≤ 0 → x.tmod y ≤ 0) :=
      ⟨fun h => Int.tmod_nonneg y h, fun h => by
        have := Int.tmod_nonneg y (Int.neg_nonneg.mpr h)
        rw [Int.neg_tmod] at this
        omega⟩
    rw [← Int.tmod_def]
    exact decodeInt_truncInt (by omega) (by omega)

theorem elemBin_rem_snd (t : ETag) (m : RMode) (a b : Nat) : (elemBin .rem t m a b).2 = 0#6 := by
  rw [elemBin, intRem]
  split <;> rfl

/-- The product of two values of a type has twice the width (R136). -/
theorem product_range {t : ETag} {x y : Int} (hx : intMin t ≤ x ∧ x ≤ intMax t) (hy : intMin t ≤ y ∧ y ≤ intMax t) :
    intMin t * 2 ^ t.width ≤ x * y ∧ x * y < (intMax t + 1) * 2 ^ t.width := by
  obtain ⟨w, hw⟩ := exists_width_succ t
  have hpow : (2 : Int) ^ (w + 1) = 2 * 2 ^ w := pow_succ' 2 w
  have hpos : (0 : Int) < 2 ^ w := by positivity
  simp only [intMin, intMax, hw, Nat.add_sub_cancel, hpow] at *
  generalize (2 : Int) ^ w = d at *
  cases hs : t.isSigned
  · simp only [hs, Bool.false_eq_true, if_false] at *
    constructor <;> nlinarith
  · simp only [hs, if_true] at *
    constructor <;> nlinarith

/-- The high half of a product (R136). -/
theorem decodeInt_elemBin_mulh (t : ETag) (m : RMode) (a b : Nat) :
    decodeInt t (elemBin .mulh t m a b).1 = decodeInt t a * decodeInt t b / 2 ^ t.width := by
  obtain ⟨hmin, hmax⟩ := product_range (decodeInt_mem t a) (decodeInt_mem t b)
  exact decodeInt_truncInt_ediv (by positivity) hmin hmax

/-! ### Shifts (R141) -/

section
variable {t : ETag} {p : Nat} {c : Int}

/-- By a count in range a shift moves the encoding. -/
theorem elemShift_moves (hp : p < 2 ^ t.width) (h0 : 0 ≤ c) (hc : c < t.width) :
    elemShift .sll t p c % 2 ^ t.width = p * 2 ^ c.toNat % 2 ^ t.width ∧ elemShift .srl t p c % 2 ^ t.width = p / 2 ^ c.toNat := by
  simp only [elemShift, if_pos (And.intro h0 hc), Nat.shiftLeft_eq, Nat.shiftRight_eq_div_pow, Nat.mod_mod, true_and]
  exact Nat.mod_eq_of_lt (Nat.lt_of_le_of_lt (Nat.div_le_self ..) hp)

/-- vsra divides the value, rounding down. -/
theorem decodeInt_elemShift_sra (h0 : 0 ≤ c) (hc : c < t.width) :
    decodeInt t (elemShift .sra t p c) = decodeInt t p / 2 ^ c.toNat := by
  obtain ⟨hmin, hmax⟩ := decodeInt_mem t p
  obtain ⟨hneg, hpos⟩ := intMin_le_zero_le_intMax t
  have hd : (0 : Int) < 2 ^ c.toNat := by positivity
  simp only [elemShift, if_pos (And.intro h0 hc)]
  exact decodeInt_truncInt_ediv hd (by nlinarith) (by nlinarith)

/-- Of an unsigned type it moves the encoding. -/
theorem elemShift_sra_unsigned (hs : t.isSigned = false) (hp : p < 2 ^ t.width) (h0 : 0 ≤ c) (hc : c < t.width) :
    elemShift .sra t p c % 2 ^ t.width = p / 2 ^ c.toNat := by
  have hval (n : Nat) (hn : n < 2 ^ t.width) : decodeInt t n = n := by simp [decodeInt, hs, Nat.mod_eq_of_lt hn]
  have h := decodeInt_elemShift_sra (p := p) h0 hc
  rw [hval p hp, ← decodeInt_mod, hval _ (Nat.mod_lt _ (Nat.two_pow_pos _))] at h
  exact_mod_cast h

/-- By any other count nothing is left, of a negative element its sign. -/
theorem elemShift_out_of_range (h : c < 0 ∨ t.width ≤ c) : elemShift .sll t p c = 0 ∧ elemShift .srl t p c = 0 ∧
    decodeInt t (elemShift .sra t p c) = if t.isSigned = true ∧ decodeInt t p < 0 then -1 else 0 := by
  have hc : ¬ (0 ≤ c ∧ c < t.width) := by omega
  simp only [elemShift, if_neg hc, true_and]
  split
  case isTrue hs =>
    obtain ⟨w, hw⟩ := exists_width_succ t
    have hones : (2 ^ (w + 1) - 1) % 2 ^ (w + 1) = 2 ^ (w + 1) - 1 := Nat.mod_eq_of_lt (Nat.sub_one_lt_of_lt (Nat.two_pow_pos _))
    have htop : (2 ^ (w + 1) - 1).testBit w = true := by rw [Nat.testBit_two_pow_sub_one]; simp
    rw [decodeInt, hw]
    simp only [hones, hs.1, Nat.add_sub_cancel, htop, and_self, if_true, Nat.cast_sub (Nat.one_le_two_pow)]
    push_cast
    ring
  case isFalse => simp [decodeInt]

end

/-! ### vmulh (R117, R136) -/

/-- The range of an integer type grows with its width. -/
theorem intRange_mono {t u : ETag} (hs : u.isSigned = t.isSigned) (hw : u.width ≤ t.width) :
    intMin t ≤ intMin u ∧ intMax u ≤ intMax t := by
  have h₁ : (2 : Int) ^ (u.width - 1) ≤ 2 ^ (t.width - 1) := pow_le_pow_right₀ (by decide) (by omega)
  have h₂ : (2 : Int) ^ u.width ≤ 2 ^ t.width := pow_le_pow_right₀ (by decide) hw
  simp only [intMin, intMax, hs]
  split <;> omega

/-- A list of types that are all signed or all unsigned is one of integers of one signedness. -/
theorem sameSign_of_all {us : List ETag} (h : (us.all ETag.isSigned || us.all ETag.isUnsigned) = true) :
    ∃ sign, ∀ u ∈ us, u.isFloat = false ∧ u.isSigned = sign := by
  have hkind (u : ETag) : (u.isSigned = true → u.isFloat = false) ∧
      (u.isUnsigned = true → u.isFloat = false ∧ u.isSigned = false) := by
    cases u <;> decide
  rw [Bool.or_eq_true, List.all_eq_true, List.all_eq_true] at h
  rcases h with h | h
  · exact ⟨true, fun u hu => ⟨(hkind u).1 (h u hu), h u hu⟩⟩
  · exact ⟨false, fun u hu => (hkind u).2 (h u hu)⟩

/-- The widest of two types is one of them, and as wide as either. -/
theorem widestInt_pair (u v : ETag) : widestInt [u, v] ∈ [u, v] ∧ ∀ x ∈ [u, v], x.width ≤ (widestInt [u, v]).width := by
  have hw : widestInt [u, v] = if u.width < v.width then v else u := by simp [widestInt, nth]
  rw [hw]
  split <;> simp <;> omega

/-- A common integer type of two has their signedness and is as wide as either (R117). -/
theorem commonType_int {u v t : ETag} (h : commonType [u, v] = some t) (ht : t.isInt = true) : ∀ x ∈ [u, v],
    x.isFloat = false ∧ x.isSigned = t.isSigned ∧ x.width ≤ t.width := by
  rw [commonType] at h
  split at h
  case isTrue => cases h
  case isFalse =>
    split at h
    case isTrue hint =>
      obtain ⟨sign, hsame⟩ := sameSign_of_all hint
      obtain ⟨hmem, hwide⟩ := widestInt_pair u v
      obtain rfl := Option.some.inj h
      exact fun x hx => ⟨(hsame x hx).1, (hsame x hx).2.trans (hsame _ hmem).2.symm, hwide x hx⟩
    case isFalse =>
      split at h
      case isTrue =>
        have hmem := List.mem_of_find?_eq_some h
        have hfloat : t.isFloat = true := by
          simp only [List.mem_cons, List.not_mem_nil, or_false] at hmem
          rcases hmem with rfl | rfl | rfl | rfl | rfl | rfl <;> rfl
        rw [isInt_not_float ht] at hfloat
        cases hfloat
      case isFalse => cases h

/-- Widening to a common integer type keeps the value (R117). -/
theorem decodeInt_widen {u t : ETag} (hf : u.isFloat = false) (hs : u.isSigned = t.isSigned) (hw : u.width ≤ t.width) (n : Nat) :
    decodeInt t (widen u t n) = decodeInt u n := by
  obtain ⟨hmin, hmax⟩ := decodeInt_mem u n
  obtain ⟨hlo, hhi⟩ := intRange_mono hs hw
  rw [widen]
  split
  case isTrue h => rw [h]
  case isFalse =>
    rw [if_neg (by simp [hf])]
    exact decodeInt_truncInt (hlo.trans hmin) (hmax.trans hhi)

/-- vmulh of operands with a common integer type completes with the high halves of the products, and raises no class (R136). -/
theorem vmulh_completes {km : BitVec 3} {sc : Bool} {a b vd : BitVec 5} {o : Opnd} {s : State} {t : ETag}
    (hx : exec (.vmulh km sc a b vd) s = runInstr (.vmulh km sc a b vd) (vaBin .mulh true km a o vd) s) (hc : s.calm = true)
    (hv : s.hart.mayVector = true) (hu : s.hart.unchained = true) (ht : commonType [s.hart.tag a, o.ty s.hart (s.hart.tag a)] = some t)
    (hi : t.isInt = true) (hf : s.hart.fits (t :: s.hart.tag a :: o.regs.map s.hart.tag) = true) :
    ∃ h, exec (.vmulh km sc a b vd) s = .next (s.completes h) ∧ s.hart.vectorFrame h vd ∧ h.emask = s.hart.emask ∧
      h.tag vd = t ∧ ∀ e, s.hart.vsta ≤ e → s.hart.active km e = true →
        decodeInt t (getElem_ (h.v.get vd.toFin) s.hart.lown t.width e) =
          (decodeInt (s.hart.tag a) (s.hart.elem a (s.hart.tag a).width e) *
            decodeInt (o.ty s.hart (s.hart.tag a)) (o.val s.hart (s.hart.tag a) e)) / 2 ^ t.width := by
  have hop : opType [s.hart.tag a, o.ty s.hart (s.hart.tag a)] s = .ok t s := by rw [opType, ht]; rfl
  have hbody : vaBin .mulh true km a o vd s = vaRun km vd (a :: o.regs) t false (fun h e =>
      elemBin .mulh t h.mode_ (widen (s.hart.tag a) t (h.elem a (s.hart.tag a).width e))
        (widen (o.ty s.hart (s.hart.tag a)) t (o.val h (s.hart.tag a) e))) s := by
    simp only [vaBin, run_bind, vecGate_ok hv, run_getH, hop, need_true (show (!true || t.isInt) = true from hi)]
  obtain ⟨h, hrun, hframe, hemask, htag, helem⟩ := completes_of_vaRun_quiet hx hbody hc hf hu hv fun _ => rfl
  refine ⟨h, hrun, hframe, hemask, htag, fun e hlo hact => ?_⟩
  have hvl : e < s.hart.vl := by
    simp only [Strand.active, Bool.and_eq_true, decide_eq_true_eq] at hact
    exact hact.1
  have hcommon := commonType_int ht hi
  obtain ⟨hfa, hsa, hwa⟩ := hcommon (s.hart.tag a) (by simp)
  obtain ⟨hfo, hso, hwo⟩ := hcommon (o.ty s.hart (s.hart.tag a)) (by simp)
  rw [helem e (Nat.lt_of_lt_of_le hvl (fits_cons.mp hf).1), if_pos ⟨hlo, hact⟩, decodeInt_mod, decodeInt_elemBin_mulh,
    decodeInt_widen hfa hsa hwa, decodeInt_widen hfo hso hwo]

/-- vmulh of operands with any other common type, or none, is a type fault (R119, R136). -/
theorem vmulh_typeFault {km : BitVec 3} {sc : Bool} {a b vd : BitVec 5} {o : Opnd} {s : State}
    (hx : exec (.vmulh km sc a b vd) s = runInstr (.vmulh km sc a b vd) (vaBin .mulh true km a o vd) s)
    (hv : s.hart.mayVector = true) (ht : ∀ t, commonType [s.hart.tag a, o.ty s.hart (s.hart.tag a)] = some t → t.isInt = false) :
    exec (.vmulh km sc a b vd) s = .next (s.checkFault 25 (.vmulh km sc a b vd)) := by
  refine hx.trans (runInstr_bits (s' := s) ?_ (by decide))
  simp only [vaBin, run_bind, vecGate_ok hv, run_getH, opType]
  cases hop : commonType [s.hart.tag a, o.ty s.hart (s.hart.tag a)] with
  | none => rfl
  | some t => simp only [run_pure, need, ht t hop, Bool.not_true, Bool.or_self, Bool.false_eq_true, if_false, run_typeFault]

/-! ### The statement -/

/-- Settles O2: integers by their values, floats by the three steps of R31, vmulh by its two ends, and the shifts by their counts. -/
theorem integerElementResults : Obligations.IntegerElementResults := by
  refine ⟨fun t m a b ht f hf => ?_, fun t m a b p q i j e g ht ha hb f hf => isRoundOf_exactOps ht m ha hb hf,
    fun t m a b ht => ⟨decodeInt_elemBin_div ht m a b, elemBin_div_snd ht m a b, decodeInt_elemBin_rem t m a b, elemBin_rem_snd t m a b,
      elemBin_min_max ht m a b⟩, fun km sc a b vd s hc hv hu => ?_, fun t p c ht hp => ⟨fun h0 hc => ?_, elemShift_out_of_range⟩⟩
  · rw [elemBin_clamped ht m a b hf]
    exact ⟨decodeInt_satEnc t _, satEnc_snd t _⟩
  · have hx := exec_arithmeticVV (f := (.vmulh, .mulh, true)) (by simp [arithmeticVV]) km sc a b vd s
    cases sc
    · exact ⟨fun t ht hi hf => vmulh_completes (o := .vec b) hx hc hv hu ht hi hf, vmulh_typeFault (o := .vec b) hx hv⟩
    · exact ⟨fun t ht hi hf => vmulh_completes (o := .scal b) hx hc hv hu ht hi hf, vmulh_typeFault (o := .scal b) hx hv⟩
  · obtain ⟨hsll, hsrl⟩ := elemShift_moves hp h0 hc
    exact ⟨hsll, hsrl, fun _ => decodeInt_elemShift_sra h0 hc, fun hs => elemShift_sra_unsigned hs hp h0 hc⟩

end Sys2Proof.Machine
end

section
/-!
PROOF. O33: the cross-lane instructions (R171 to R177). Each starts at element 0 and delivers some of the elements below vl from its
sources as they stood; vmrg then writes the bits of km.
-/
namespace Sys2Proof.Machine

/-! ### The course of a cross-lane instruction (R171) -/

/-- A loop whose turns change the running strand where an element is active, and do nothing where it is not. -/
theorem forEach_active {act : Nat → M Unit} {active : Nat → Bool} {f : Nat → Strand → Strand} {es : List Nat}
    (h : ∀ e ∈ es, ∀ u, act e u = .ok () (if active e = true then u.withHart (f e u.hart) else u)) :
    ∀ u, forEach es act u = .ok () (u.withHart (foldH f (es.filter active) u.hart)) := by
  induction es with
  | nil => exact fun u => rfl
  | cons e es ih =>
    intro u
    rw [forEach_cons, h e (List.mem_cons_self ..), List.filter_cons]
    have hrest := ih fun d hd => h d (List.mem_cons_of_mem _ hd)
    by_cases ha : active e = true
    · rw [if_pos ha, if_pos ha]
      exact hrest _
    · rw [if_neg ha, if_neg ha]
      exact hrest u

/-- The elements that a cross-lane instruction delivers. -/
theorem mem_range_active {n e : Nat} {active : Nat → Bool} (ha : ∀ e, active e = true → e < n) :
    e ∈ (rangeFrom 0 n).filter active ↔ active e = true := by
  rw [List.mem_filter, mem_rangeFrom]
  exact ⟨And.right, fun h => ⟨⟨Nat.zero_le e, by simpa using ha e h⟩, h⟩⟩

/-- The strand as an instruction finds it that starts at element 0. -/
def Strand.atStart (h : Strand) : Strand := { h with vsta := 0 }

section
variable {km : BitVec 3} {vd : BitVec 5} {regs : List (BitVec 5)} {t : ETag} {f : Strand → Nat → Option (Nat × Cls)}
  {active : Nat → Bool} {g : Nat → Nat × Cls} {s : State} (hc : s.calm = true) (hv : s.hart.mayVector = true)
  (hu : s.hart.unchained = true) (hf : s.hart.fits (t :: regs.map s.hart.tag) = true)
  (hpick : ∀ e, e < s.hart.vl → f s.hart e = if active e = true then some (g e) else none)
include hc hu hf hpick

/-- When nothing stops it, a cross-lane instruction sets the tag and delivers the active elements from element 0 on. -/
theorem crossRun_fold : crossRun km vd regs t f s = .ok () (s.withHart
    (foldH (fun e k => k.deliver vd t.width e (g e)) ((rangeFrom 0 s.hart.vl).filter active) (s.hart.atStart.putTag vd t))) := by
  obtain ⟨-, -, -, hus, hbad, -⟩ := (calm_iff s).mp hc
  simp only [crossRun, run_bind, run_getH, needCap_ok hf, needChains_free hu, badOf_none hbad, needUpsetIn_none hus,
    clearVsta, run_modH]
  refine forEach_active (fun e he u => ?_) _
  rw [hpick e (by simpa using (mem_rangeFrom.mp he).2)]
  by_cases ha : active e = true
  · simp only [if_pos ha, run_modH]
  · simp only [if_neg ha, run_pure]

include hv

/-- What that leaves of the strand. -/
theorem crossRun_ok (hact : ∀ e, active e = true → e < s.hart.vl) :
    ∃ k, crossRun km vd regs t f s = .ok () (s.withHart k) ∧ s.hart.atStart.vectorFrame k vd ∧
      ((∀ e, (g e).2 = 0#6) → k.emask = s.hart.emask) ∧
      s.hart.atStart.delivered k vd t active fun e => (g e).1 := by
  obtain ⟨-, -, -, -, hbad, -⟩ := (calm_iff s).mp hc
  have hvl : s.hart.vl ≤ s.hart.cap t := (fits_cons.mp hf).1
  refine ⟨_, crossRun_fold hc hu hf hpick, ?_⟩
  have hmem (e : Nat) := mem_range_active (e := e) hact
  have hquiet (hq : ∀ e, (g e).2 = 0#6) := foldH_keeps Strand.emask (fun e k => deliver_quiet_emask k vd t.width e (hq e))
    ((rangeFrom 0 s.hart.vl).filter active) (s.hart.atStart.putTag vd t)
  obtain ⟨hall, hz, hreg, helem⟩ := deliver_each (vd := vd) (t := t) g ((rangeFrom 0 s.hart.vl).filter active)
    (s.hart.atStart.putTag vd t) hbad (mayVector_lown hv) ((nodup_rangeFrom _ _).filter _)
    fun e he => (hact e ((hmem e).mp he)).trans_le hvl
  generalize foldH _ _ _ = k at *
  have htag (r : BitVec 5) : k.tag r = if r = vd then t else s.hart.tag r := by
    rw [hall]
    exact Strand.tag_putTag s.hart.atStart vd r t
  refine ⟨⟨?_, hz, fun r hr => ⟨hreg r hr, (htag r).trans (if_neg hr)⟩⟩, hquiet, (htag vd).trans (if_pos rfl), fun e he => ?_⟩
  · rw [hall]
    rfl
  · refine (helem e he).trans (if_congr ?_ rfl rfl)
    rw [hmem e]
    exact (and_iff_right (Nat.zero_le e)).symm

/-- Such an instruction completes, once its checks have led to that course. -/
theorem completes_of_crossRun {i : Instr} {body : M Unit} (hx : exec i s = runInstr i body s)
    (hb : body s = crossRun km vd regs t f s) (hact : ∀ e, active e = true → e < s.hart.vl) :
    ∃ k, exec i s = .next (s.completes k) ∧ s.hart.atStart.vectorFrame k vd ∧
      ((∀ e, (g e).2 = 0#6) → k.emask = s.hart.emask) ∧ s.hart.atStart.delivered k vd t active fun e => (g e).1 := by
  obtain ⟨hhit, -, -, -, -, hstep⟩ := (calm_iff s).mp hc
  obtain ⟨k, hrun, hframe, hrest⟩ := crossRun_ok (km := km) (vd := vd) (g := g) hc hv hu hf hpick hact
  exact ⟨k, hx.trans (completes_of_ok hstep (hb.trans hrun) (by rw [hframe.1]; exact hhit)), hframe, hrest⟩

end

/-- One whose elements raise no class leaves emask as well. -/
theorem crossRun_delivers {i : Instr} {body : M Unit} {km : BitVec 3} {vd : BitVec 5} {regs : List (BitVec 5)} {t : ETag}
    {active : Nat → Bool} {g : Nat → Nat} {s : State} (hc : s.calm = true) (hv : s.hart.mayVector = true) (hu : s.hart.unchained = true)
    (hf : s.hart.fits (t :: regs.map s.hart.tag) = true) (hx : exec i s = runInstr i body s)
    (hb : ∃ f, body s = crossRun km vd regs t f s ∧
      ∀ e, e < s.hart.vl → f s.hart e = if active e = true then some (g e, 0#6) else none)
    (hact : ∀ e, active e = true → e < s.hart.vl) :
    ∃ k, exec i s = .next (s.completes k) ∧ s.hart.atStart.vectorFrame k vd ∧ k.emask = s.hart.emask ∧
      s.hart.atStart.delivered k vd t active g := by
  obtain ⟨f, hb, hpick⟩ := hb
  obtain ⟨k, hexec, hframe, hem, hdel⟩ := completes_of_crossRun (g := fun e => (g e, 0#6)) hc hv hu hf hpick hx hb hact
  exact ⟨k, hexec, hframe, hem fun _ => rfl, hdel⟩

/-- A source with a tag gives the operation its type. -/
theorem anyTag_ok {r : BitVec 5} {s : State} (h : s.hart.tag r ≠ .none) : anyTag r s = .ok (s.hart.tag r) s := by
  simp [anyTag, need, h]

/-- An active element lies below vl (R22). -/
theorem lt_of_active {h : Strand} {km : BitVec 3} {e : Nat} (ha : h.active km e = true) : e < h.vl := by
  simp only [Strand.active, Bool.and_eq_true, decide_eq_true_eq] at ha
  exact ha.1

/-! ### vmrg (R177) -/

/-- The first bits of a mask register stored one after another: that register alone changes. -/
theorem storeKbits_each {km : BitVec 3} (bit : Nat → Bool) {n : Nat} (hn : n ≤ 16384) {h : Strand} (hb : h.bad = []) :
    let k := (rangeFrom 0 n).foldl (fun k e => k.storeKbit km e (bit e)) h
    k = { h with k := k.k } ∧ (∀ q, q ≠ km → k.k.get q.toFin = h.k.get q.toFin) ∧ (km ≠ 0#3 → ∀ e, e < n → k.kbit km e = bit e) := by
  have hfold : (rangeFrom 0 n).foldl (fun k e => k.storeKbit km e (bit e)) h =
      foldH (Strand.compared km fun e => (bit e, 0#6)) (rangeFrom 0 n) h :=
    congrArg (fun f => (rangeFrom 0 n).foldl f h) (by funext k e; simp [Strand.compared, Strand.flag])
  rw [hfold]
  obtain ⟨hall, -, -, hother, hbits⟩ := compared_each (kd := km) (r := fun e => (bit e, 0#6)) (rangeFrom 0 n)
    (fun e he => by have := (mem_rangeFrom.mp he).2; omega) h hb
  have hemask := foldH_keeps Strand.emask (f := Strand.compared km fun e => (bit e, 0#6))
    (fun e k => by simp [Strand.compared, Strand.flag]) (rangeFrom 0 n) h
  refine ⟨hall.trans (by rw [hemask]), hother, fun h0 e he => ?_⟩
  rw [Strand.kbit, hbits h0 e, if_pos (mem_rangeFrom.mpr ⟨Nat.zero_le e, by omega⟩), beq_eq_false_iff_ne.mpr h0, Bool.false_or]

/-- vmrg of two registers with one tag completes with the merged run in vd and the origins of its elements in km. -/
theorem vmrg_completes {km : BitVec 3} {vs2 vs1 vd : BitVec 5} {s : State} (hc : s.calm = true) (hv : s.hart.mayVector = true)
    (hu : s.hart.unchained = true) (hn : s.hart.tag vs1 ≠ .none) (hf : s.hart.fits [s.hart.tag vs1] = true)
    (ht : s.hart.tag vs2 = s.hart.tag vs1) {out : List (Nat × Bool)}
    (hout : mergeRuns (s.hart.tag vs1) (encOf s.hart (s.hart.tag vs1) vs1) (encOf s.hart (s.hart.tag vs1) vs2) s.hart.vl 0 0 = out) :
    ∃ k, exec (.vmrg km vs2 vs1 vd) s = .next (s.completes k) ∧
      k = { s.hart with v := k.v, vtag := k.vtag, k := k.k, vsta := 0 } ∧
      (∀ r, r ≠ vd → k.v.get r.toFin = s.hart.v.get r.toFin ∧ k.tag r = s.hart.tag r) ∧
      (∀ q, q ≠ km → k.k.get q.toFin = s.hart.k.get q.toFin) ∧
      s.hart.atStart.delivered k vd (s.hart.tag vs1) (fun e => decide (e < s.hart.vl)) (fun e => (nth out e (0, false)).1) ∧
      (km ≠ 0#3 → ∀ e, e < s.hart.vl → k.kbit km e = (nth out e (0, false)).2) := by
  obtain ⟨hhit, -, -, -, hbad, hstep⟩ := (calm_iff s).mp hc
  have hvl := (fits_cons.mp hf).1
  have hfit : s.hart.fits (s.hart.tag vs1 :: [vs1, vs2].map s.hart.tag) = true := by
    simp only [List.map_cons, List.map_nil, ht, fits_cons]
    exact ⟨hvl, hvl, hvl, rfl⟩
  obtain ⟨g, hrun, ⟨hg, -, hreg⟩, hem, hdel⟩ := crossRun_ok (km := 0#3) (vd := vd) (regs := [vs1, vs2])
    (f := fun _ e => some ((nth out e (0, false)).1, 0#6)) (active := fun e => decide (e < s.hart.vl))
    (g := fun e => ((nth out e (0, false)).1, 0#6)) hc hv hu hfit (fun e he => (if_pos (decide_eq_true he)).symm)
    fun e he => of_decide_eq_true he
  have hemask : g.emask = s.hart.emask := hem fun _ => rfl
  obtain ⟨hk, hother, hbits⟩ := storeKbits_each (km := km) (fun e => (nth out e (0, false)).2)
    (hvl.trans (cap_le (mayVector_lown hv) _)) (h := g) (by rw [hg]; exact hbad)
  generalize hfold : (rangeFrom 0 s.hart.vl).foldl (fun k e => k.storeKbit km e (nth out e (0, false)).2) g = k at *
  have htag : k.vtag = g.vtag := by rw [hk]
  have hval : k.v = g.v := by rw [hk]
  refine ⟨k, completes_of_ok hstep ?_ (by rw [hk, hg]; exact hhit), ?_, fun r hr => ?_, fun q hq => ?_, ⟨?_, fun e he => ?_⟩, hbits⟩
  · simp only [run_bind, vecGate_ok hv, anyTag_ok hn, run_getH, need_true (show (s.hart.tag vs2 == s.hart.tag vs1) = true by simp [ht]),
      hout, hrun, run_modH, withHart_hart, hfold, withHart_withHart]
  · rw [hval, htag]
    refine hk.trans ?_
    conv_lhs => rw [hg]
    rw [hemask]
    rfl
  · rw [hval, Strand.tag, htag]
    exact hreg r hr
  · rw [hother q hq, hg]
    rfl
  · rw [Strand.tag, htag]
    exact hdel.1
  · rw [hval]
    exact hdel.2 e he

/-- Settles O33: each instruction by what it picks for an element, vmrg also by the bits that it writes to km. -/
theorem crossLaneComplete : Obligations.CrossLaneComplete := by
  unfold Obligations.CrossLaneComplete
  intro km vs2 vs1 vd rs2 s h t u z x j n packed rank hc hv hu hn hf writes
  have hvl := (fits_cons.mp hf).1
  have hfit : s.hart.fits (t :: [vs1].map s.hart.tag) = true := fits_cons.mpr ⟨hvl, hf⟩
  have below (e : Nat) (he : decide (e < h.vl) = true) : e < h.vl := of_decide_eq_true he
  have hfit₂ (hfu : h.fits [u] = true) : s.hart.fits (t :: [vs1, vs2].map s.hart.tag) = true :=
    fits_cons.mpr ⟨hvl, fits_cons.mpr ⟨hvl, hfu⟩⟩
  refine ⟨fun hi hfu => ⟨crossRun_delivers (km := km) (hf := hfit₂ hfu) hc hv hu rfl ⟨?_, ?vperm, ?vpermPick⟩ fun e => lt_of_active,
      crossRun_delivers (km := km) (hf := hfit₂ hfu) hc hv hu rfl ⟨?_, ?vcex, ?vcexPick⟩ fun e => lt_of_active⟩,
    crossRun_delivers (km := km) (hf := hfit) hc hv hu rfl ⟨?_, ?vslup, ?vslupPick⟩ fun e he => lt_of_active (Bool.and_eq_true_iff.mp he).1,
    crossRun_delivers (km := km) (hf := hfit) hc hv hu rfl ⟨?_, ?vsldn, ?vsldnPick⟩ fun e => lt_of_active,
    crossRun_delivers (km := km) (hf := hfit) hc hv hu rfl ⟨?_, ?vcomp, ?vcompPick⟩ below,
    crossRun_delivers (km := km) (hf := hfit) hc hv hu rfl ⟨?_, ?vexpd, ?vexpdPick⟩ fun e => lt_of_active, ?vscan,
    fun ht => vmrg_completes hc hv hu hn hf ht rfl⟩
  case vperm | vcex =>
    simp only [run_bind, vecGate_ok hv, anyTag_ok hn, run_getH, need_true (show (s.hart.tag vs2).isInt = true from hi)]
    rfl
  case vslup | vsldn | vcomp | vexpd =>
    simp only [run_bind, vecGate_ok hv, anyTag_ok hn, run_getH]
    rfl
  case vpermPick | vcexPick | vsldnPick | vexpdPick => exact fun e _ => rfl
  case vslupPick => exact fun e _ => if_congr (by rw [Bool.and_eq_true, decide_eq_true_eq]) rfl rfl
  case vcompPick => exact fun e he => (if_pos (decide_eq_true he)).symm
  case vscan =>
    obtain ⟨k, hexec, hframe, -, hdel⟩ := completes_of_crossRun (i := .vscan km vs1 vd) (km := km) (vd := vd) (regs := [vs1])
      (g := fun e => nth (scanOuts t (RMode.ofCode h.rm) packed) (rank e) (0, 0#6)) hc hv hu hfit (fun e _ => rfl) rfl
      (by simp only [run_bind, vecGate_ok hv, anyTag_ok hn, run_getH]; rfl) fun e => lt_of_active
    exact ⟨k, hexec, hframe, hdel⟩

end Sys2Proof.Machine
end

section
/-!
PROOF. O42: the transfers between vector registers and queues, or the channels of a Flaset image under the queues' names (R182 to
R185, R230, R380).
-/
namespace Sys2Proof.Machine

/-! ### How a transfer ends -/

/-- From s, a meaning ends in state t with running strand k, but for the wait that it may leave on record. -/
def EndsIn (body : M Unit) (s t : State) (k : Strand) : Prop := ∃ p, body s = .ok () (t.withHart (k.waiting p))

/-- What ends with a strand ends in it, with its own wait. -/
theorem EndsIn.of_ok {body : M Unit} {s t : State} {k : Strand} (h : body s = .ok () (t.withHart k)) : EndsIn body s t k := ⟨k.wait, h⟩

/-- An instruction whose meaning ends completes. -/
theorem EndsIn.completes {i : Instr} {body : M Unit} {s t : State} {k : Strand} (h : EndsIn body s t k) (he : s.hart.estep = false)
    (hh : k.hit = none) (hx : exec i s = runInstr i body s) : exec i s = .next (t.completes k) := by
  obtain ⟨p, hp⟩ := h
  exact hx.trans (completes_of_held (t := t.withHart k) he hh hp)

/-- A meaning may be read by what it does in this state. -/
theorem runInstr_congr {i : Instr} {body body' : M Unit} {s : State} (h : body s = body' s) :
    runInstr i body s = runInstr i body' s := by
  unfold runInstr
  rw [h]

/-- A transfer ends with its status and with vsta at 0 (R82, R183). -/
theorem transferEnds_ok (rd : BitVec 5) (st : Word) (s : State) :
    transferEnds rd st s = .ok () (s.withHart (s.hart.wx rd st).atStart) := rfl

/-- A count of tokens that 16 bits hold is given as it is. -/
theorem tokenCount_ok {n : Nat} (hn : n < 2 ^ 16) (s : State) : tokenCount n s = .ok n s := by
  rw [tokenCount, if_pos hn]
  rfl

/-- Register rd and vsta are written in either order. -/
theorem Strand.atStart_wx (h : Strand) (r : BitVec 5) (v : Word) : h.atStart.wx r v = (h.wx r v).atStart := by
  unfold Strand.wx
  split <;> rfl

theorem tokensEnd_ok {n : Nat} (hn : n < 2 ^ 16) (rd : BitVec 5) (s : State) :
    tokensEnd rd n s = .ok () (s.withHart (s.hart.wx rd (status 0 n)).atStart) := by
  simp only [tokensEnd, run_bind, tokenCount_ok hn, transferEnds_ok]

theorem acquire_ok (s : State) : acquire s = .ok () s.acquired := rfl

theorem consume_none (s : State) : consume none s = .ok () s := rfl

/-! ### What the wait on record does not change -/

/-- The first elements of a register, stored one after another. -/
def Strand.storeAll (h : Strand) (r : BitVec 5) (w n : Nat) (x : Nat → Nat) : Strand :=
  (rangeFrom 0 n).foldl (fun k e => k.storeElem r w e (x e)) h

/-- The state as its running strand has a wait on record, or none. -/
def State.waiting (s : State) (p : Option PendingWait) : State := s.withHart (s.hart.waiting p)

/-- A held store is performed alike, whatever wait is on record. -/
theorem performHeld_waiting (es : List Held) (s : State) (p : Option PendingWait) :
    performHeld es (s.waiting p) = (performHeld es s).waiting p := by
  cases es with
  | nil => rfl
  | cons e es =>
    simp only [performHeld]
    split
    · exact List.foldl_hom (fun u : State => u.waiting p) fun u r => rfl
    · exact List.foldl_hom (fun u : State => u.waiting p) fun u r => homeWrite_waiting ..

theorem committed_waiting (s : State) (p : Option PendingWait) : (s.waiting p).committed = s.committed.waiting p := by
  have hfold := List.foldl_hom (fun u : State => u.waiting p) (g₁ := fun u es => performHeld es u) (g₂ := fun u es => performHeld es u)
    (l := heldAccesses s.hart.strip.buffer) (init := { s with hart := { s.hart with strip := { s.hart.strip with buffer := [] } } })
    fun u es => performHeld_waiting es u p
  simp only [State.committed]
  exact congrArg (fun t : State => t.withHart { t.hart with strip := { t.hart.strip with rewindable := false } }) hfold

theorem endRewind_waiting {s : State} (hb : s.hart.bad = []) (p : Option PendingWait) :
    endRewind (s.waiting p) = .ok () (s.committed.withHart (s.committed.hart.waiting p)) := by
  rw [endRewind_ok (s := s.waiting p) hb, committed_waiting]
  rfl

/-- A strand is changed, and a transfer ends, beside the wait on record. -/
theorem modH_waiting {f : Strand → Strand} {k : Strand} {p : Option PendingWait} (hf : f (k.waiting p) = (f k).waiting p) (t : State) :
    modH f (t.withHart (k.waiting p)) = .ok () (t.withHart ((f k).waiting p)) := by
  rw [run_modH, withHart_hart, hf]
  rfl

theorem transferEnds_waiting (rd : BitVec 5) (st : Word) (t : State) (k : Strand) (p : Option PendingWait) :
    transferEnds rd st (t.withHart (k.waiting p)) = .ok () (t.withHart ((k.wx rd st).atStart.waiting p)) := by
  rw [transferEnds_ok, withHart_hart, Strand.waiting_wx]
  rfl

/-- What a pop stores leaves the wait on record. -/
theorem storeAll_waiting (h : Strand) (r : BitVec 5) (w n : Nat) (x : Nat → Nat) (p : Option PendingWait) :
    (h.waiting p).storeAll r w n x = (h.storeAll r w n x).waiting p :=
  List.foldl_hom (fun k : Strand => k.waiting p) fun k e => by
    simp only [Strand.storeElem, Strand.heal, apply_ite fun k : Strand => k.waiting p]
    rfl

/-! ### Waits that end at their issue (R229, R230) -/

/-- The wait that an instruction puts on record with a deadline (R228). -/
def newWait (s : State) (i : Instr) (d x : Word) (token : Nat) : PendingWait :=
  ⟨i, s.now + min d.toNat s.hart.wceil, decide (s.hart.wceil < d.toNat), x, [], token, []⟩

theorem modH_newWait (s : State) (i : Instr) (d x : Word) (token : Nat) :
    modH (fun h => { h with wait := some ⟨i, s.now + min d.toNat s.hart.wceil, decide (s.hart.wceil < d.toNat), x, [], token, []⟩ }) s =
      .ok () (s.waiting (some (newWait s i d x token))) := rfl

section
variable {i : Instr} {x d : Word} {token : Nat} {ops : WaitOps} {s t : State} {k : Strand}

/-- A wait whose condition is met at its issue ends with what the condition's success does. -/
theorem startWait_met (hd : ops.deadline s = .ok d s)
    (ha : ∀ p, ops.attempt (s.waiting p) = .ok true (t.withHart (k.waiting p))) : EndsIn (startWait i x token ops) s t k := by
  refine ⟨some (newWait s i d x token), ?_⟩
  simp only [startWait, startWaitOn, run_bind, hd, expiryOf_eq, modH_newWait, ha, if_true, run_pure]

/-- One whose condition is not met, with a deadline of 0, ends with what is withdrawn and its expiry's code. -/
theorem startWait_expired (hd : ops.deadline s = .ok 0#64 s) (ha : ∀ p, ops.attempt (s.waiting p) = .ok false (s.waiting p))
    (hw : ∀ p, (do ops.withdraw; ops.expired) (s.waiting p) = .ok () (s.withHart (k.waiting p))) :
    EndsIn (startWait i x token ops) s s k := by
  refine ⟨some (newWait s i 0#64 x token), ?_⟩
  have hx : s.now + min (0#64).toNat s.hart.wceil ≤ (s.waiting (some (newWait s i 0#64 x token))).now := by
    simp [State.waiting]
  have hends : waitEnds ops (decide (s.hart.wceil < (0#64).toNat)) = (do ops.withdraw; ops.expired) := by simp [waitEnds]
  simp only [startWait, startWaitOn, run_bind, hd, expiryOf_eq, modH_newWait, ha, Bool.false_eq_true, if_false, run_get, if_pos hx, hends]
  simpa only [run_bind] using hw (some (newWait s i 0#64 x token))

end

/-! ### What a transfer finds and moves -/

/-- A strand without a configured chain has none that writes a queue, or reads one (R221). -/
theorem chainWrites_free {h : Strand} (hu : h.unchained = true) (q : Nat) : h.chainWrites q = false ∧ h.chainReads q = false := by
  have hnone (c : Chain) (hc : c ∈ h.c.toList) : c.configured = false := by
    have hstate := List.all_eq_true.mp hu c hc
    simp only [Bool.or_eq_true, beq_iff_eq] at hstate
    rcases hstate with e | e <;> rw [Chain.configured, e] <;> rfl
  constructor <;> exact List.any_eq_false.mpr fun c hc => by simp [hnone c hc]

/-- The queues after one has been replaced. -/
theorem queue_putQueue (h : Strand) (q p : BitVec 3) (v : Queue) :
    (h.putQueue q.toNat v).queue p.toNat = if p = q then v else h.queue p.toNat := by
  have hq : q.toNat % 8 = q.toNat := Nat.mod_eq_of_lt q.isLt
  simp only [Strand.queue, Strand.putQueue, nth, Vector.toList_set, hq, List.getElem?_set]
  by_cases e : p = q
  · subst e
    rw [if_pos rfl, if_pos rfl, if_pos (by simpa using p.isLt)]
    rfl
  · rw [if_neg e, if_neg fun hn => e (BitVec.eq_of_toNat_eq hn.symm)]

/-- A queue and a register are written in either order. -/
theorem Strand.putQueue_wx (h : Strand) (q : Nat) (v : Queue) (r : BitVec 5) (w : Word) :
    (h.putQueue q v).wx r w = (h.wx r w).putQueue q v := by
  unfold Strand.wx
  split <;> rfl

/-- Without uncorrectable words the removal of a queue's oldest elements changes that queue alone. -/
theorem popQueue_good {h : Strand} (hb : h.bad = []) (q n : Nat) :
    h.popQueue q n = h.putQueue q { h.queue q with elems := (h.queue q).elems.drop n } := by
  cases h
  cases hb
  rfl

/-- What storing the first elements of a register leaves. -/
theorem storeAll_each {h : Strand} {r : BitVec 5} {t : ETag} {n : Nat} (x : Nat → Nat) (hb : h.bad = []) (hl : h.lown ≤ 256)
    (hn : n ≤ h.cap t) (ht : h.tag r = t) :
    let k := h.storeAll r t.width n x
    k = { h with v := k.v } ∧ (∀ p, p ≠ r → k.v.get p.toFin = h.v.get p.toFin) ∧
      h.atStart.delivered k r t (fun e => decide (e < n)) x := by
  have hfold : h.storeAll r t.width n x = foldH (fun e k => k.deliver r t.width e (x e, 0#6)) (rangeFrom 0 n) h :=
    congrArg (fun f => (rangeFrom 0 n).foldl f h) (by funext k e; exact storeElem_eq_deliver ..)
  have hemask := foldH_keeps Strand.emask (fun e k => deliver_quiet_emask k r t.width e (r := (x e, 0#6)) rfl) (rangeFrom 0 n) h
  obtain ⟨hall, -, hreg, helem⟩ := deliver_each (vd := r) (t := t) (fun e => (x e, 0#6)) (rangeFrom 0 n) h hb hl (nodup_rangeFrom _ _)
    fun e he => by have := (mem_rangeFrom.mp he).2; exact (show e < n by omega).trans_le hn
  rw [← hfold] at hall hreg helem hemask
  generalize h.storeAll r t.width n x = k at *
  refine ⟨hall.trans (by rw [hemask]), hreg, ?_, fun e he => (helem e he).trans (if_congr ?_ rfl rfl)⟩
  · rw [hall]
    exact ht
  · simp [mem_rangeFrom, Strand.atStart]

/-! ### vqcnt (R185) -/

/-- The strand may run vqcnt in user mode, and in supervisor mode once it has claimed (R277). -/
theorem claimGate_ok {s : State} (h : s.hart.mode = .user ∨ s.hart.claimed = true) : claimGate s = .ok () s := by
  have hn : ¬ (s.hart.mode = .supervisor ∧ s.hart.claimed = false) := by
    rintro ⟨hm, hc⟩
    rcases h with h | h
    · exact absurd (h.symm.trans hm) (by decide)
    · exact absurd (h.symm.trans hc) (by decide)
  simp only [claimGate, run_bind, run_getH, if_neg hn, run_pure]

section
variable {q : BitVec 3} {rd : BitVec 5} {s : State} (hc : s.calm = true) (hm : s.hart.mode = .user ∨ s.hart.claimed = true)
include hc hm

/-- vqcnt of a channel reads the count and the type of its tokens (R380). -/
theorem vqcnt_channel {c : Conduit} (hq : s.hart.conduit q.toNat = some c) (hn : (channelTokens s c.chan).length < 2 ^ 16) :
    exec (.vqcnt q rd) s = .next (s.completes
      (s.hart.wx rd (BitVec.ofNat 64 ((channelTokens s c.chan).length + 65536 * c.ty.code)))) := by
  obtain ⟨hhit, -, -, -, -, hstep⟩ := (calm_iff s).mp hc
  refine completes_of_ok hstep ?_ ((Strand.wx_hit ..).trans hhit)
  simp only [run_bind, claimGate_ok hm, run_get, hq, tokenCount_ok hn]
  rfl

/-- vqcnt of a queue reads its count, its tag and whether it has a mark (R185). -/
theorem vqcnt_queue (hq : s.hart.conduit q.toNat = none) :
    exec (.vqcnt q rd) s = .next (s.completes (s.hart.wx rd (s.hart.queue q.toNat).countWord)) := by
  obtain ⟨hhit, -, -, -, -, hstep⟩ := (calm_iff s).mp hc
  refine completes_of_ok hstep ?_ ((Strand.wx_hit ..).trans hhit)
  simp only [run_bind, claimGate_ok hm, run_get, hq]
  rfl

end

section
variable {q : BitVec 3} {r rs1 rd : BitVec 5} {s : State} (hc : s.calm = true) (hv : s.hart.mayVector = true)
  (hu : s.hart.unchained = true) (ht : s.hart.tag r ≠ .none) (hf : s.hart.fits [s.hart.tag r] = true)

/-! ### Transfers with a channel (R380) -/

section
variable {c : Conduit} (hq : s.hart.conduit q.toNat = some c)

section
include hv hu ht hf hq

/-- Under a channel's name a transfer that passes its gates is one of tokens. -/
theorem vqpush_channel : exec (.vqpush q r rs1 rd) s = runInstr (.vqpush q r rs1 rd) (pushTokens q c r rd) s := by
  refine runInstr_congr ?_
  simp only [run_bind, vecGate_ok hv, run_getH, need_true (bne_iff_ne.mpr ht), needCap_ok hf, needChains_free hu, hq]

theorem vqpop_channel : exec (.vqpop q r rs1 rd) s = runInstr (.vqpop q r rs1 rd) (popTokens q c r (s.hart.tag r) rd) s := by
  refine runInstr_congr ?_
  simp only [run_bind, vecGate_ok hv, destType_ok ht, needCap_ok hf, needChains_free hu, run_getH, hq]

end

/-- Without elements nothing moves. -/
theorem pushTokens_none (hl : s.hart.vl = 0) (hn : (channelTokens s c.chan).length < 2 ^ 16) :
    EndsIn (pushTokens q c r rd) s s (s.hart.wx rd (status 0 (channelTokens s c.chan).length)).atStart :=
  .of_ok (by simp only [pushTokens, run_bind, run_get, if_pos hl, tokensEnd_ok hn])

theorem popTokens_none {t : ETag} (hl : s.hart.vl = 0) (hn : (channelTokens s c.chan).length < 2 ^ 16) :
    EndsIn (popTokens q c r t rd) s s.acquired (s.hart.wx rd (status 0 (channelTokens s c.chan).length)).atStart :=
  .of_ok (by simp only [popTokens, run_bind, run_get, if_pos hl, acquire_ok, tokensEnd_ok hn]; rfl)

/-- The strand as its firing goes back to the schedule, broken under a queue's name. -/
def Strand.breaks (h : Strand) (q : Nat) : Strand :=
  { h with firing := h.firing.map fun f => { f with broken := some q }, npc := (h.firing.map (·.home)).getD h.npc }

/-- A transfer against the rate, the direction or the type of its channel breaks the firing. -/
theorem pushTokens_breaks (hl : 0 < s.hart.vl) (hb : c.input = true ∨ c.ty ≠ s.hart.tag r ∨ c.rate < c.moved + s.hart.vl) :
    EndsIn (pushTokens q c r rd) s s (s.hart.breaks q.toNat) := by
  have hcond : (c.input || c.ty != s.hart.tag r || decide (c.rate < c.moved + s.hart.vl)) = true := by
    simpa [or_assoc] using hb
  exact .of_ok (by simp only [pushTokens, run_bind, run_get, if_neg hl.ne', if_pos hcond]; rfl)

theorem popTokens_breaks {t : ETag} (hl : 0 < s.hart.vl) (hb : c.input = false ∨ c.rate < c.moved + s.hart.vl) :
    EndsIn (popTokens q c r t rd) s s (s.hart.breaks q.toNat) := by
  have hcond : (!c.input || decide (c.rate < c.moved + s.hart.vl)) = true := by simpa using hb
  exact .of_ok (by simp only [popTokens, run_bind, run_get, if_neg hl.ne', if_pos hcond]; rfl)

/-- A pop of tokens of another type reads that type, and moves nothing. -/
theorem popTokens_otherType {t : ETag} (hl : 0 < s.hart.vl) (hb : c.moved + s.hart.vl ≤ c.rate) (hi : c.input = true) (hty : c.ty ≠ t) :
    EndsIn (popTokens q c r t rd) s s (s.hart.wx rd (status 4 c.ty.code)).atStart := by
  have hcond : ¬ (!c.input || decide (c.rate < c.moved + s.hart.vl)) = true := by simpa [hi] using hb
  exact .of_ok (by simp only [popTokens, run_bind, run_get, if_neg hl.ne', if_neg hcond, if_pos hty, transferEnds_ok])

section
include hc
variable (hl : 0 < s.hart.vl) (hb : c.moved + s.hart.vl ≤ c.rate) (hty : c.ty = s.hart.tag r)
include hl hb hty

/-- A push within the rate, along the direction and of the type commits the strip and appends its elements. -/
theorem pushTokens_moves (hi : c.input = false) (hn : (channelTokens s c.chan).length + s.hart.vl < 2 ^ 16) :
    let u := s.committed
    EndsIn (pushTokens q c r rd) s (putTokens c.chan
        (channelTokens s c.chan ++ (rangeFrom 0 s.hart.vl).map fun e => BitVec.ofNat 64 (s.hart.elem r (s.hart.tag r).width e)) u)
      ((u.hart.moves q.toNat s.hart.vl).wx rd (status 0 ((channelTokens s c.chan).length + s.hart.vl))).atStart := by
  obtain ⟨-, -, -, hus, hbad, -⟩ := (calm_iff s).mp hc
  have hcond : ¬ (c.input || c.ty != s.hart.tag r || decide (c.rate < c.moved + s.hart.vl)) = true := by simpa [hi, hty] using hb
  refine .of_ok ?_
  simp only [pushTokens, run_bind, run_get, if_neg hl.ne', if_neg hcond, badOf_none hbad, consume_none, needUpsetIn_none hus,
    endRewind_ok hbad, run_modify, run_modH, tokensEnd_ok hn, putTokens_hart]
  rfl

/-- A pop within the rate, along the direction and of the type commits the strip, acquires and delivers the oldest tokens. -/
theorem popTokens_moves (hi : c.input = true) (hn : (channelTokens s c.chan).length < 2 ^ 16) :
    let u := s.committed
    EndsIn (popTokens q c r (s.hart.tag r) rd) s (putTokens c.chan ((channelTokens s c.chan).drop s.hart.vl) u.acquired)
      (((u.hart.moves q.toNat s.hart.vl).storeAll r (s.hart.tag r).width s.hart.vl
        fun e => (nth (channelTokens s c.chan) e 0#64).toNat).wx rd
          (status 0 ((channelTokens s c.chan).length - s.hart.vl))).atStart := by
  obtain ⟨-, -, -, hus, hbad, -⟩ := (calm_iff s).mp hc
  have hcond : ¬ (!c.input || decide (c.rate < c.moved + s.hart.vl)) = true := by simpa [hi] using hb
  have hless : (channelTokens s c.chan).length - s.hart.vl < 2 ^ 16 := by omega
  refine .of_ok ?_
  simp only [popTokens, run_bind, run_get, if_neg hl.ne', if_neg hcond, if_neg (not_not_intro hty), needUpsetIn_none hus,
    endRewind_ok hbad, acquire_ok, run_modify, run_modH, tokensEnd_ok hless, putTokens_hart]
  rfl

end

end

/-! ### Transfers with a queue of the strand (R182 to R184) -/

section
variable (hq : s.hart.conduit q.toNat = none)
include hv hu ht hf hq

/-- Under the name of a queue a transfer that passes its gates is one of its elements. -/
theorem vqpush_queue : exec (.vqpush q r rs1 rd) s = runInstr (.vqpush q r rs1 rd) (execVqpush.pushQueue q r rs1 rd s.hart) s := by
  refine runInstr_congr ?_
  simp only [run_bind, vecGate_ok hv, run_getH, need_true (bne_iff_ne.mpr ht), needCap_ok hf, needChains_free hu, hq]

theorem vqpop_queue : exec (.vqpop q r rs1 rd) s = runInstr (.vqpop q r rs1 rd) (execVqpop.popQueue q r rs1 rd s.hart) s := by
  refine runInstr_congr ?_
  simp only [run_bind, vecGate_ok hv, destType_ok ht, needCap_ok hf, needChains_free hu, run_getH, hq]

end

/-- Without elements nothing moves. -/
theorem pushQueue_none (hl : s.hart.vl = 0) : EndsIn (execVqpush.pushQueue q r rs1 rd s.hart) s s
    (s.hart.wx rd (status 0 (s.hart.queue q.toNat).elems.length)).atStart :=
  .of_ok (by simp only [execVqpush.pushQueue, if_pos hl, transferEnds_ok])

theorem popQueue_none (hl : s.hart.vl = 0) : EndsIn (execVqpop.popQueue q r rs1 rd s.hart) s s.acquired
    (s.hart.wx rd (status 0 (s.hart.queue q.toNat).elems.length)).atStart :=
  .of_ok (by simp only [execVqpop.popQueue, if_pos hl, run_bind, acquire_ok, transferEnds_ok]; rfl)

section
include hc hu
variable (hl : 0 < s.hart.vl)
include hl

/-- A push of elements is a wait for room. -/
theorem pushQueue_waits : execVqpush.pushQueue q r rs1 rd s.hart s = startWait (.vqpush q r rs1 rd) 0#64 0 (vqpushOps q r rs1 rd) s := by
  obtain ⟨-, -, -, hus, hbad, -⟩ := (calm_iff s).mp hc
  simp only [execVqpush.pushQueue, if_neg hl.ne', (chainWrites_free hu q.toNat).1, Bool.false_eq_true, if_false, run_bind,
    badOf_none hbad, consume_none, needUpsetIn_none hus]

/-- A pop of elements is a wait for them. -/
theorem popQueue_waits : execVqpop.popQueue q r rs1 rd s.hart s = startWait (.vqpop q r rs1 rd) 0#64 0 (vqpopOps q r rs1 rd) s := by
  obtain ⟨-, -, -, hus, -, -⟩ := (calm_iff s).mp hc
  simp only [execVqpop.popQueue, if_neg hl.ne', (chainWrites_free hu q.toNat).2, Bool.false_eq_true, if_false, run_bind,
    needUpsetIn_none hus]

end

/-- What a transfer finds no room or no elements for ends at deadline 0 with status 1 (R183, R230). -/
theorem expires_full {i : Instr} {ops : WaitOps} (hd : ops.deadline = readX rs1) (hw : ops.withdraw = clearVsta)
    (hx : ops.expired = do writeX rd (status 1 ((← getH).queue q.toNat).elems.length)) (h0 : s.hart.rx rs1 = 0#64)
    (ha : ∀ p, ops.attempt (s.waiting p) = .ok false (s.waiting p)) : EndsIn (startWait i 0#64 0 ops) s s
      (s.hart.wx rd (status 1 (s.hart.queue q.toNat).elems.length)).atStart := by
  refine startWait_expired (by rw [hd, ← h0]; rfl) ha fun p => ?_
  have hends : (do clearVsta; writeX rd (status 1 ((← getH).queue q.toNat).elems.length)) (s.waiting p) =
      .ok () (s.withHart ((s.hart.atStart.waiting p).wx rd (status 1 (s.hart.queue q.toNat).elems.length))) := rfl
  rw [hw, hx, hends, Strand.waiting_wx, Strand.atStart_wx]

theorem push_expires (h0 : s.hart.rx rs1 = 0#64) (hfit : (s.hart.queue q.toNat).fits (s.hart.tag r) s.hart.vl = false) :
    EndsIn (startWait (.vqpush q r rs1 rd) 0#64 0 (vqpushOps q r rs1 rd)) s s
      (s.hart.wx rd (status 1 (s.hart.queue q.toNat).elems.length)).atStart :=
  expires_full rfl rfl rfl h0 fun p => by
    have hno : ((s.waiting p).hart.queue q.toNat).fits ((s.waiting p).hart.tag r) (s.waiting p).hart.vl = false := hfit
    simp only [vqpushOps, run_bind, run_getH, hno, Bool.false_eq_true, if_false, run_pure]

theorem pop_expires (h0 : s.hart.rx rs1 = 0#64) (hless : (s.hart.queue q.toNat).elems.length < s.hart.vl) :
    EndsIn (startWait (.vqpop q r rs1 rd) 0#64 0 (vqpopOps q r rs1 rd)) s s
      (s.hart.wx rd (status 1 (s.hart.queue q.toNat).elems.length)).atStart :=
  expires_full rfl rfl rfl h0 fun p => by
    have hno : ¬ (s.waiting p).hart.vl ≤ ((s.waiting p).hart.queue q.toNat).elems.length := Nat.not_le.mpr hless
    simp only [vqpopOps, run_bind, run_getH, if_neg hno, run_pure]

/-- A queue with another tag ends a pop with that tag (R183). -/
theorem pop_otherTag (hn : s.hart.vl ≤ (s.hart.queue q.toNat).elems.length) (htag : (s.hart.queue q.toNat).tag ≠ s.hart.tag r) :
    EndsIn (startWait (.vqpop q r rs1 rd) 0#64 0 (vqpopOps q r rs1 rd)) s s
      (s.hart.wx rd (status 4 (s.hart.queue q.toNat).tag.code)).atStart := by
  refine startWait_met (d := s.hart.rx rs1) rfl fun p => ?_
  have hle : (s.waiting p).hart.vl ≤ ((s.waiting p).hart.queue q.toNat).elems.length := hn
  have hne : ((s.waiting p).hart.queue q.toNat).tag ≠ (s.waiting p).hart.tag r := htag
  simp only [vqpopOps, run_bind, run_getH, if_pos hle, if_pos hne]
  simp only [State.waiting, transferEnds_waiting, run_pure]
  rfl

section
include hc

/-- Elements that fit are appended, after a commit of the strip (R183). -/
theorem push_appends (hfit : (s.hart.queue q.toNat).fits (s.hart.tag r) s.hart.vl = true) :
    let v := s.hart.queue q.toNat
    EndsIn (startWait (.vqpush q r rs1 rd) 0#64 0 (vqpushOps q r rs1 rd)) s s.committed
      ((s.committed.hart.putQueue q.toNat (v.push (s.hart.tag r)
        ((rangeFrom 0 s.hart.vl).map fun e => (BitVec.ofNat 64 (s.hart.elem r (s.hart.tag r).width e), false)))).wx rd
          (status 0 (v.elems.length + s.hart.vl))).atStart := by
  obtain ⟨-, -, -, -, hbad, -⟩ := (calm_iff s).mp hc
  refine startWait_met (d := s.hart.rx rs1) rfl fun p => ?_
  have hyes : ((s.waiting p).hart.queue q.toNat).fits ((s.waiting p).hart.tag r) (s.waiting p).hart.vl = true := hfit
  simp only [vqpushOps, run_bind, run_getH, if_pos hyes, endRewind_waiting hbad]
  rw [modH_waiting rfl]
  simp only [transferEnds_waiting, run_pure]
  rfl

/-- What a successful pop tells of the first mark among the elements it removed: whether there is one, and its place (R184). -/
def markField (es : List (Word × Bool)) : Nat := if (firstMark es).2 then 2 ^ 16 + 2 ^ 17 * (firstMark es).1 else 0

/-- What a pop of n elements into register r with width w does once the queue v has them (R183, R184). -/
def popMoves (q : Nat) (r rd : BitVec 5) (v : Queue) (w n : Nat) : M Unit := do
  endRewind
  acquire
  modH fun k => (k.popQueue q n).storeAll r w n fun e => (nth (v.elems.take n) e (0#64, false)).1.toNat
  transferEnds rd (status 0 (v.elems.length - n + markField (v.elems.take n)))

theorem vqpop_attempt (hn : s.hart.vl ≤ (s.hart.queue q.toNat).elems.length) (htag : (s.hart.queue q.toNat).tag = s.hart.tag r)
    (p : Option PendingWait) : (vqpopOps q r rs1 rd).attempt (s.waiting p) =
      (do popMoves q.toNat r rd (s.hart.queue q.toNat) (s.hart.tag r).width s.hart.vl; return true) (s.waiting p) := by
  obtain ⟨-, -, -, -, hbad, -⟩ := (calm_iff s).mp hc
  have hle : (s.waiting p).hart.vl ≤ ((s.waiting p).hart.queue q.toNat).elems.length := hn
  have hsame : ¬ ((s.waiting p).hart.queue q.toNat).tag ≠ (s.waiting p).hart.tag r := not_not_intro htag
  have hgood : (s.waiting p).hart.badQueue q.toNat (s.waiting p).hart.vl = none := badOf_none hbad _
  simp only [vqpopOps, run_bind, run_getH, if_pos hle, if_neg hsame, hgood, consume_none, popMoves, endRewind_waiting hbad, acquire_ok]
  rfl

/-- Elements that are there are removed and delivered, after a commit of the strip and with an acquire (R183, R184, R262). -/
theorem pop_delivers (hn : s.hart.vl ≤ (s.hart.queue q.toNat).elems.length) (htag : (s.hart.queue q.toNat).tag = s.hart.tag r) :
    let v := s.hart.queue q.toNat
    let es := v.elems.take s.hart.vl
    EndsIn (startWait (.vqpop q r rs1 rd) 0#64 0 (vqpopOps q r rs1 rd)) s s.committed.acquired
      (((s.committed.hart.putQueue q.toNat { v with elems := v.elems.drop s.hart.vl }).storeAll r (s.hart.tag r).width s.hart.vl
        fun e => (nth es e (0#64, false)).1.toNat).wx rd (status 0 (v.elems.length - s.hart.vl + markField es))).atStart := by
  intro v es
  obtain ⟨-, -, -, -, hbad, -⟩ := (calm_iff s).mp hc
  refine startWait_met (d := s.hart.rx rs1) rfl fun p => ?_
  have hqueue : s.committed.hart.queue q.toNat = v := by rw [committed_hart]; rfl
  have hacq : acquire (s.committed.withHart (s.committed.hart.waiting p)) =
      .ok () (s.committed.acquired.withHart (s.committed.hart.waiting p)) := rfl
  rw [vqpop_attempt hc hn htag]
  simp only [popMoves, run_bind, endRewind_waiting hbad, hacq]
  rw [modH_waiting (storeAll_waiting (s.committed.hart.popQueue q.toNat s.hart.vl) _ _ _ _ p),
    popQueue_good ((committed_storing s).bad_eq.trans hbad), hqueue]
  simp only [transferEnds_waiting, run_pure]
  rfl

end

end

/-! ### The statement -/

section
variable {q : BitVec 3} {r rs1 rd : BitVec 5} {s : State} (hv : s.hart.mayVector = true) (hf : s.hart.fits [s.hart.tag r] = true)
include hv hf

/-- The strand as a pop leaves it: what it stored stands in register r, and all else as before. -/
theorem pop_leaves {k : Strand} {st : Word} (x : Nat → Nat) (hk : k.bad = [] ∧ k.hit = none) (hl : k.lown = s.hart.lown)
    (hreg : k.v = s.hart.v ∧ k.vtag = s.hart.vtag) :
    let g := ((k.storeAll r (s.hart.tag r).width s.hart.vl x).wx rd st).atStart
    g.hit = none ∧ g = { k.wx rd st with v := g.v, vsta := 0 } ∧ (∀ p, p ≠ r → g.v.get p.toFin = s.hart.v.get p.toFin) ∧
      s.hart.atStart.delivered g r (s.hart.tag r) (fun e => decide (e < s.hart.vl)) x := by
  obtain ⟨hbad, hhit⟩ := hk
  obtain ⟨hv', htag'⟩ := hreg
  have hcap (t : ETag) : k.cap t = s.hart.cap t := by rw [Strand.cap, Strand.cap, hl]
  obtain ⟨hall, hother, htag, helem⟩ := storeAll_each (h := k) (r := r) (t := s.hart.tag r) (n := s.hart.vl) x hbad
    (by rw [hl]; exact mayVector_lown hv) (by rw [hcap]; exact (fits_cons.mp hf).1) (by rw [Strand.tag, htag']; rfl)
  generalize k.storeAll r (s.hart.tag r).width s.hart.vl x = l at *
  obtain ⟨w, rfl⟩ : ∃ w, l = { k with v := w } := ⟨l.v, hall⟩
  have hwx : ({ k with v := w } : Strand).wx rd st = { k.wx rd st with v := w } := by
    unfold Strand.wx
    split <;> rfl
  rw [hwx]
  refine ⟨(Strand.wx_hit ..).trans hhit, rfl, fun p hp => (hother p hp).trans (by rw [hv']), ?_, fun e he => ?_⟩
  · show (k.wx rd st).vtag.get r.toFin = _
    rw [Strand.wx_vtag]
    exact htag
  · have h := helem e (by rw [show k.atStart.cap (s.hart.tag r) = _ from hcap _]; exact he)
    rw [show k.atStart.lown = s.hart.lown from hl, show k.atStart.v = s.hart.v from hv'] at h
    exact h

end

section
variable {q : BitVec 3} {r rs1 rd : BitVec 5} {s : State} (hc : s.calm = true) (hv : s.hart.mayVector = true)
  (hu : s.hart.unchained = true) (ht : s.hart.tag r ≠ .none) (hf : s.hart.fits [s.hart.tag r] = true)
include hc hv hu ht hf

/-- vqpop of a channel's tokens within its rate, along its direction and of its type (R380). -/
theorem vqpop_tokens {c : Conduit} (hq : s.hart.conduit q.toNat = some c) (hn : (channelTokens s c.chan).length < 2 ^ 16)
    (hl : 0 < s.hart.vl) (hb : c.moved + s.hart.vl ≤ c.rate) (hi : c.input = true) (hty : c.ty = s.hart.tag r) :
    let ts := channelTokens s c.chan
    let u := s.committed
    ∃ k, exec (.vqpop q r rs1 rd) s = .next ((putTokens c.chan (ts.drop s.hart.vl) u.acquired).completes k) ∧
      k = { (u.hart.moves q.toNat s.hart.vl).wx rd (status 0 (ts.length - s.hart.vl)) with v := k.v, vsta := 0 } ∧
      (∀ p, p ≠ r → k.v.get p.toFin = s.hart.v.get p.toFin) ∧
      s.hart.atStart.delivered k r (s.hart.tag r) (fun e => decide (e < s.hart.vl)) fun e => (nth ts e 0#64).toNat := by
  intro ts u
  obtain ⟨hhit, -, -, -, hbad, hstep⟩ := (calm_iff s).mp hc
  have hkept := committed_storing s
  obtain ⟨hend, hframe⟩ := pop_leaves (k := u.hart.moves q.toNat s.hart.vl) (st := status 0 (ts.length - s.hart.vl)) (rd := rd) hv hf
    (fun e => (nth ts e 0#64).toNat) ⟨hkept.bad_eq.trans hbad, hkept.hit_eq.trans hhit⟩ (by simp only [u]; rw [committed_hart]; rfl)
    ⟨hkept.v_eq, by simp only [u]; rw [committed_hart]; rfl⟩
  exact ⟨_, (popTokens_moves hc hl hb hty hi hn).completes hstep hend (vqpop_channel hv hu ht hf hq), hframe⟩

/-- vqpop of elements that the queue has with the register's tag (R183, R184). -/
theorem vqpop_elements (hq : s.hart.conduit q.toNat = none) (hl : 0 < s.hart.vl)
    (hn : s.hart.vl ≤ (s.hart.queue q.toNat).elems.length) (htag : (s.hart.queue q.toNat).tag = s.hart.tag r) :
    let v := s.hart.queue q.toNat
    let u := s.committed
    let es := v.elems.take s.hart.vl
    ∃ k, exec (.vqpop q r rs1 rd) s = .next (u.acquired.completes k) ∧
      k = { u.hart.wx rd (status 0 (v.elems.length - s.hart.vl + markField es)) with v := k.v, q := k.q, vsta := 0 } ∧
      (∀ p, p ≠ r → k.v.get p.toFin = s.hart.v.get p.toFin) ∧
      (∀ p : BitVec 3, k.queue p.toNat = if p = q then { v with elems := v.elems.drop s.hart.vl } else s.hart.queue p.toNat) ∧
      s.hart.atStart.delivered k r (s.hart.tag r) (fun e => decide (e < s.hart.vl)) fun e => (nth es e (0#64, false)).1.toNat := by
  intro v u es
  obtain ⟨hhit, -, -, -, hbad, hstep⟩ := (calm_iff s).mp hc
  have hkept := committed_storing s
  obtain ⟨hend, hall, hother, hdel⟩ := pop_leaves (k := u.hart.putQueue q.toNat { v with elems := v.elems.drop s.hart.vl })
    (st := status 0 (v.elems.length - s.hart.vl + markField es)) (rd := rd) hv hf (fun e => (nth es e (0#64, false)).1.toNat)
    ⟨hkept.bad_eq.trans hbad, hkept.hit_eq.trans hhit⟩ (by simp only [u]; rw [committed_hart]; rfl)
    ⟨hkept.v_eq, by simp only [u]; rw [committed_hart]; rfl⟩
  have hruns := (vqpop_queue (rs1 := rs1) (rd := rd) hv hu ht hf hq).trans (runInstr_congr (popQueue_waits hc hu hl))
  refine ⟨_, (pop_delivers hc hn htag).completes hstep hend hruns, ?_⟩
  rw [Strand.putQueue_wx] at hall
  generalize ((u.hart.putQueue q.toNat { v with elems := v.elems.drop s.hart.vl }).storeAll r (s.hart.tag r).width s.hart.vl
    fun e => (nth es e (0#64, false)).1.toNat).wx rd (status 0 (v.elems.length - s.hart.vl + markField es)) = l at *
  generalize l.atStart = k at *
  obtain ⟨w, rfl⟩ : ∃ w, k = { (u.hart.wx rd (status 0 (v.elems.length - s.hart.vl + markField es))).putQueue q.toNat
    { v with elems := v.elems.drop s.hart.vl } with v := w, vsta := 0 } := ⟨k.v, hall⟩
  refine ⟨rfl, hother, fun p => ?_, hdel⟩
  have hqs : (u.hart.wx rd (status 0 (v.elems.length - s.hart.vl + markField es))).queue p.toNat = s.hart.queue p.toNat := by
    rw [Strand.queue, Strand.wx_q, committed_hart]
    rfl
  exact (queue_putQueue _ q p _).trans (by rw [hqs])

end

/-- Settles O42: each transfer by what its meaning ends in, under the name of a channel and under that of a queue. -/
theorem queueTransfersComplete : Obligations.QueueTransfersComplete := by
  intro q r rs1 rd s h t v u push pop hc
  obtain ⟨hhit, -, -, -, -, hstep⟩ := (calm_iff s).mp hc
  have hkept : u.hart.hit = none := (committed_storing s).hit_eq.trans hhit
  have hwx {k : Strand} {st : Word} (hk : k.hit = none) : (k.wx rd st).atStart.hit = none := (Strand.wx_hit ..).trans hk
  refine ⟨fun c hq => ?_, fun hq => ⟨fun hm => vqcnt_queue hc hm hq, fun hv hu ht hf => ?_⟩⟩
  · intro ts n broken hn
    have hfew : n < 2 ^ 16 := by omega
    refine ⟨fun hm => vqcnt_channel hc hm hq hfew, fun hv hu ht hf => ?_⟩
    have hpush := vqpush_channel (rs1 := rs1) (rd := rd) hv hu ht hf hq
    have hpop := vqpop_channel (rs1 := rs1) (rd := rd) hv hu ht hf hq
    exact ⟨fun h0 => ⟨(pushTokens_none h0 hfew).completes hstep (hwx hhit) hpush,
        (popTokens_none h0 hfew).completes hstep (hwx hhit) hpop⟩,
      fun hl hb => (pushTokens_breaks hl hb).completes hstep hhit hpush,
      fun hl hb => (popTokens_breaks hl hb).completes hstep hhit hpop,
      fun hl hb => ⟨fun hi hty => (pushTokens_moves hc hl hb hty hi hn).completes hstep (hwx hkept) hpush,
        fun hi hty => (popTokens_otherType hl hb hi hty).completes hstep (hwx hhit) hpop,
        fun hi hty => vqpop_tokens hc hv hu ht hf hq hfew hl hb hi hty⟩⟩
  · have hpush := vqpush_queue (rs1 := rs1) (rd := rd) hv hu ht hf hq
    have hpop := vqpop_queue (rs1 := rs1) (rd := rd) hv hu ht hf hq
    have hpushed (hl : 0 < s.hart.vl) := hpush.trans (runInstr_congr (pushQueue_waits hc hu hl))
    have hpopped (hl : 0 < s.hart.vl) := hpop.trans (runInstr_congr (popQueue_waits hc hu hl))
    exact ⟨fun h0 => ⟨(pushQueue_none h0).completes hstep (hwx hhit) hpush, (popQueue_none h0).completes hstep (hwx hhit) hpop⟩,
      fun hl hfit => (push_appends hc hfit).completes hstep (hwx hkept) (hpushed hl),
      fun hfit h0 hl => (push_expires h0 hfit).completes hstep (hwx hhit) (hpushed hl),
      fun hl hn htag => vqpop_elements hc hv hu ht hf hq hl hn htag,
      fun hl hn htag => (pop_otherTag hn htag).completes hstep (hwx hhit) (hpopped hl),
      fun hn h0 => (pop_expires h0 hn).completes hstep (hwx hhit) (hpopped ((Nat.zero_le _).trans_lt hn))⟩

end Sys2Proof.Machine
end

section
/-!
PROOF. O32: vector atomics. Each active element sends one token, in ascending order, which the home of its bytes applies (R169, R170,
R228, R316).
-/
namespace Sys2Proof.Machine

/-! ### One token at its home (R169, R316) -/

/-- A home after a token: it holds the new n bytes at pa, where there are any. -/
def State.tokened (u : State) (pa n : Nat) : Option Nat → State
  | some v => homeWrite u.hart.agent pa (toBytes n v) u
  | none => u

/-- A token of the running strand takes its own view and leaves its home so, its core without cached lines of the place. -/
theorem sendToken_eq (u : State) (va pa n : Nat) (new : Nat → Option Nat × Cls) :
    u.sendToken va pa n new = (((u.atHome va).ownValue pa n, (new ((u.atHome va).ownValue pa n)).2),
      ((u.atHome va).tokened pa n (new ((u.atHome va).ownValue pa n)).1).withoutLines pa n) := by
  unfold State.sendToken State.tokened State.atHome
  rfl

section
variable {u : State} {pa n : Nat} {x : Option Nat}

theorem tokened_none : u.tokened pa n none = u := rfl

theorem tokened_some {v : Nat} : u.tokened pa n (some v) = homeWrite u.hart.agent pa (toBytes n v) u := rfl

theorem tokened_written : u.written (u.tokened pa n x) := by
  cases x with
  | none => rw [tokened_none]; rfl
  | some v => rw [tokened_some]; exact homeWrite_written ..

theorem tokened_poison : ∀ w ∈ (u.tokened pa n x).poison, w ∈ u.poison := by
  cases x with
  | none => rw [tokened_none]; exact fun _ h => h
  | some v => rw [tokened_some]; exact homeWrite_poison

theorem tokened_hart : (u.tokened pa n x).hart = { u.hart with hits := (u.tokened pa n x).hart.hits } := by
  cases x with
  | none => rw [tokened_none]
  | some v => rw [tokened_some]; exact homeWrite_hart ..

theorem withoutLines_tokened_hart :
    ((u.tokened pa n x).withoutLines pa n).hart = { u.hart with hits := (u.tokened pa n x).hart.hits } := tokened_hart

/-- No byte outside the token's place changes. -/
theorem tokened_get {b : Nat} (hb : ¬ bytesAt pa n b) : (u.tokened pa n x).mem.get b = u.mem.get b := by
  cases x with
  | none => rw [tokened_none]
  | some v =>
    rw [tokened_some]
    refine homeWrite_get ?_
    rw [toBytes_length]
    unfold bytesAt at hb
    omega

/-- Bytes make a number below the power of their count. -/
theorem ofBytes_lt (bs : List Byte) : ofBytes bs < 256 ^ bs.length := by
  induction bs with
  | nil => exact Nat.one_pos
  | cons b bs ih =>
    have hb : b.toNat < 256 := b.isLt
    rw [ofBytes, List.length_cons, Nat.pow_succ']
    omega

theorem length_getBytes (m : Memory) (a n : Nat) : (m.getBytes a n).length = n := by
  induction n generalizing a with
  | zero => rfl
  | succ n ih => rw [Memory.getBytes, List.length_cons, ih]

/-- A home that is not lost holds the token's new value, or the old one where there is none. -/
theorem homeRead_tokened (hl : lost u pa = false) :
    homeRead (u.tokened pa n x) pa n = x.getD (homeRead u pa n) % 256 ^ n := by
  cases x with
  | none =>
    have hlt := ofBytes_lt (homeBytes u pa n)
    rw [homeBytes, length_getBytes] at hlt
    rw [tokened_none]
    exact (Nat.mod_eq_of_lt hlt).symm
  | some v =>
    have hbytes := homeWrite_bytes (a := u.hart.agent) (bs := toBytes n v) hl
    rw [toBytes_length] at hbytes
    rw [homeRead, tokened_some, hbytes, ofBytes_toBytes]
    rfl

/-- Two states whose homes hold the same bytes at a place hold the same number there. -/
theorem homeRead_congr {v : State} (h : ∀ b, bytesAt pa n b → v.mem.get b = u.mem.get b) : homeRead v pa n = homeRead u pa n :=
  congrArg ofBytes (getBytes_congr fun _ hi => h _ ⟨Nat.le_add_right .., Nat.add_lt_add_left hi _⟩)

end

/-- A strand that holds no store sees the homes. -/
theorem ownValue_home {u : State} (hb : u.hart.strip.buffer = []) (pa n : Nat) : u.ownValue pa n = homeRead u pa n := by
  rw [State.ownValue, homeRead, homeBytes, hb]
  refine congrArg ofBytes ?_
  induction n generalizing pa with
  | zero => rfl
  | succ n ih => exact congrArg _ (ih (pa + 1))

/-- Good bytes are good to the strand's own view. -/
theorem ownGood_home {u : State} {pa n : Nat} (h : ∀ b, bytesAt pa n b → readsBad u b 1 = false) : u.ownGood pa n = true := by
  refine List.all_eq_true.mpr fun a ha => ?_
  rw [h a (mem_rangeFrom.mp ha), Bool.not_false, Bool.or_true]

/-- A place without uncorrectable bytes has a home that is not lost. -/
theorem lost_false_of_readsBad {u : State} {pa n : Nat} (hn : 0 < n) (h : ∀ b, bytesAt pa n b → readsBad u b 1 = false) :
    lost u pa = false := by
  have hb := h pa ⟨Nat.le_refl _, Nat.lt_add_of_pos_right hn⟩
  simp only [readsBad, Bool.or_eq_false_iff] at hb
  exact hb.1.1

/-- What sends a token sends it to the place that it reaches, where the strand's own view of the place is good. -/
theorem sendToken_ok {u : State} {va pa n : Nat} (new : Nat → Option Nat × Cls) (hs : u.choices = []) (hw : u.hart.unwatched = true)
    (hbad : u.hart.bad = []) (hr : u.reaches .store va n pa = true) (hg : (u.atHome va).ownGood pa n = true) :
    sendToken va n new u = .ok (u.sendToken va pa n new).1 (u.sendToken va pa n new).2 := by
  obtain ⟨hcan, hal, -⟩ := reaches_iff.mp hr
  have hend : endRewind (u.walked va none) = .ok () (u.atHome va) := endRewind_ok hbad
  have hunwatched : (u.atHome va).hart.unwatched = true := (committed_storing (u.walked va none)).unwatched_eq.trans hw
  rw [sendToken_eq]
  generalize u.atHome va = t at *
  have hdrop (z : State) : dropDcache pa n z = .ok () (z.withoutLines pa n) := rfl
  have hnote (x : Option Nat) (b : Bool) := noteAccess_unwatched (s := (t.tokened pa n x).withoutLines pa n)
    ((congrArg Strand.unwatched tokened_hart).trans hunwatched) b va n
  have hold : ofBytes ((rangeFrom pa n).map fun a => overlayByte t.hart.strip.buffer false a (t.mem.get a)) = t.ownValue pa n := rfl
  unfold sendToken
  simp only [run_bind, checkAddress_ok hcan hal, translateIdem_reaches hs hr, hend, ownBytes_good hg, hold, run_modify]
  generalize new (t.ownValue pa n) = r
  obtain ⟨x, c⟩ := r
  have hrest := hnote x
  cases x with
  | none =>
    rw [tokened_none] at hrest ⊢
    simp only [hdrop, hrest, run_pure]
  | some v =>
    rw [tokened_some] at hrest ⊢
    simp only [hdrop, hrest, run_pure]

/-! ### States within a vector atomic -/

/-- A state within a vector atomic begun in s, whose elements are es with places of n bytes: homes are written within those places
alone, and of the running strand register vd and its record of classes, the strip, which stays empty, and pending hits have changed. -/
structure State.Updating (s : State) (vd : BitVec 5) (es : List Nat) (pa : Nat → Nat) (n : Nat) (u : State) : Prop where
  written : s.written u
  poison : ∀ w ∈ u.poison, w ∈ s.poison
  hart : u.hart = { s.hart with v := u.hart.v, emask := u.hart.emask, strip := u.hart.strip, hits := u.hart.hits }
  buffer : u.hart.strip.buffer = []
  regs : ∀ r, r ≠ vd → u.hart.v.get r.toFin = s.hart.v.get r.toFin
  emask : s.hart.cls = 0 → u.hart.emask = s.hart.emask
  mem : ∀ b, (∀ e ∈ es, ¬ bytesAt (pa e) n b) → u.mem.get b = s.mem.get b

/-- What the response of an element makes of the strand: register vd takes the old value, or only the classes are recorded (R169). -/
def Strand.answered (back : Bool) (vd : BitVec 5) (w e : Nat) (r : Nat × Cls) (k : Strand) : Strand :=
  if back then k.deliver vd w e r else k.flag e r.2

section
variable {s u : State} {vd : BitVec 5} {es : List Nat} {va pa : Nat → Nat} {n e : Nat}

theorem State.Updating.start (hbuf : s.hart.strip.buffer = []) : s.Updating vd es pa n s :=
  ⟨rfl, fun _ h => h, rfl, hbuf, fun _ _ => rfl, fun _ => rfl, fun _ _ => rfl⟩

section
variable (h : s.Updating vd es pa n u)
include h

theorem State.Updating.units : s.SameUnits u :=
  ⟨by rw [h.written], by rw [h.written], by rw [h.written], h.poison⟩

/-- Each element reaches its place all along. -/
theorem State.Updating.reaches (hr : s.reachesAll .store es va pa n) (he : e ∈ es) : u.reaches .store (va e) n (pa e) = true := by
  obtain ⟨hal, hlow, hsettles⟩ := hr e he
  have htr := hsettles u (by rw [h.written]) (by rw [h.written]) (by rw [h.written]) h.poison
    fun a ha => h.mem a fun d hd hin => ha (.inl ⟨d, hd, hin⟩)
  refine reaches_iff.mpr ⟨translate_canonical htr, hal, hlow, ?_⟩
  rw [h.hart]
  exact htr

theorem State.Updating.atHome (a : Nat) : s.Updating vd es pa n (u.atHome a) := by
  rw [atHome_eq h.buffer]
  exact ⟨h.written.trans rfl, h.poison, by rw [h.hart], h.buffer, h.regs, h.emask, h.mem⟩

theorem State.Updating.mem_atHome (a : Nat) : (u.atHome a).mem = u.mem := by rw [atHome_eq h.buffer]

/-- The old value of a token is what its home holds. -/
theorem State.Updating.token_old (a p : Nat) (new : Nat → Option Nat × Cls) :
    (u.sendToken a p n new).1 = (homeRead u p n, (new (homeRead u p n)).2) := by
  have hval : (u.atHome a).ownValue p n = homeRead u p n := by
    rw [ownValue_home (h.atHome a).buffer, homeRead_congr (u := u) fun b _ => by rw [h.mem_atHome]]
  rw [sendToken_eq, hval]

/-- A token changes its home and the strand's pending hits, and closes the strip. -/
theorem State.Updating.token (a : Nat) (new : Nat → Option Nat × Cls) (he : e ∈ es) :
    s.Updating vd es pa n (u.sendToken a (pa e) n new).2 := by
  have h₁ := h.atHome a
  rw [sendToken_eq]
  generalize (new _).1 = x
  have hframe := withoutLines_tokened_hart (u := u.atHome a) (pa := pa e) (n := n) (x := x)
  refine ⟨(h₁.written.trans tokened_written).trans rfl, fun w hw => h₁.poison w (tokened_poison w hw), ?_, ?_, ?_, ?_,
    fun b hb => (tokened_get (hb e he)).trans (h₁.mem b hb)⟩
  all_goals rw [hframe]
  · rw [h₁.hart]
  · exact h₁.buffer
  · exact h₁.regs
  · exact h₁.emask

/-- It changes no byte outside its place. -/
theorem State.Updating.token_get (a : Nat) (new : Nat → Option Nat × Cls) {b : Nat} (hb : ¬ bytesAt (pa e) n b) :
    (u.sendToken a (pa e) n new).2.mem.get b = u.mem.get b := by
  rw [sendToken_eq]
  exact (tokened_get hb).trans (by rw [h.mem_atHome])

/-- It leaves the registers. -/
theorem State.Updating.token_v (a p : Nat) (new : Nat → Option Nat × Cls) : (u.sendToken a p n new).2.hart.v = u.hart.v := by
  rw [sendToken_eq, withoutLines_tokened_hart, atHome_eq h.buffer]

theorem State.Updating.token_elem (a : Nat) (new : Nat → Option Nat × Cls) (he : e ∈ es) (r : BitVec 5) (w d : Nat) :
    (u.sendToken a (pa e) n new).2.hart.elem r w d = u.hart.elem r w d := by
  have hlown : (u.sendToken a (pa e) n new).2.hart.lown = u.hart.lown := by rw [(h.token a new he).hart, h.hart]
  rw [Strand.elem, h.token_v, hlown, Strand.elem]

/-- Its home holds the new value, or the old one where there is none. -/
theorem State.Updating.token_new (a : Nat) (new : Nat → Option Nat × Cls) (hl : lost s (pa e) = false) :
    homeRead (u.sendToken a (pa e) n new).2 (pa e) n =
      (new (homeRead u (pa e) n)).1.getD (homeRead u (pa e) n) % 256 ^ n := by
  have hlost : lost (u.atHome a) (pa e) = false := ((h.atHome a).written.lost_eq _).trans hl
  have hval : (u.atHome a).ownValue (pa e) n = homeRead u (pa e) n :=
    congrArg Prod.fst ((sendToken_eq ..).symm ▸ h.token_old a (pa e) new)
  have hread : homeRead (u.atHome a) (pa e) n = homeRead u (pa e) n := by rw [← ownValue_home (h.atHome a).buffer, hval]
  rw [sendToken_eq, hval, ← hread]
  exact homeRead_tokened hlost

end

end

/-! ### Responses (R169) -/

section
variable {k : Strand} {back : Bool} {vd : BitVec 5} {e : Nat} {x : Nat × Cls}

theorem answered_false {w : Nat} : k.answered false vd w e x = k.flag e x.2 := rfl

theorem answered_true {w : Nat} : k.answered true vd w e x = k.deliver vd w e x := rfl

/-- A delivered response stands in vd. -/
theorem deliver_v {w : Nat} (hb : k.bad = []) :
    (k.deliver vd w e x).v = k.v.set vd.toFin (setElem_ (k.v.get vd.toFin) k.lown w e x.1) :=
  congrArg Strand.v (deliver_frame hb vd w e x)

/-- No register takes a response where the old values are not wanted. -/
theorem answered_unwanted {w : Nat} : (k.answered false vd w e x).v = k.v := by
  rw [answered_false, flag_frame]

theorem answered_frame {w : Nat} (hb : k.bad = []) : k.answered back vd w e x =
    { k with v := (k.answered back vd w e x).v, emask := (k.answered back vd w e x).emask } := by
  cases back with
  | false =>
    rw [answered_unwanted, answered_false]
    exact flag_frame k e x.2
  | true =>
    rw [answered_true, deliver_v hb]
    exact deliver_frame hb vd w e x

/-- Where they are, no register but vd does. -/
theorem answered_other {w : Nat} (hb : k.bad = []) {r : BitVec 5} (hr : r ≠ vd) :
    (k.answered back vd w e x).v.get r.toFin = k.v.get r.toFin := by
  cases back with
  | false => rw [answered_unwanted]
  | true =>
    rw [answered_true, deliver_v hb]
    exact (get_set k.v vd.toFin r.toFin _).trans (if_neg fun q => hr (toFin_inj.mp q))

/-- With no class selected nothing is recorded (R65). -/
theorem answered_unselected {w : Nat} (hz : k.cls = 0) : (k.answered back vd w e x).emask = k.emask := by
  cases back with
  | false => exact congrArg Strand.emask (flag_unselected hz e x.2)
  | true => exact deliver_unselected vd w e x hz

/-- The element reads as the response, and every other element as before. -/
theorem answered_elem {t : ETag} {d : Nat} (hb : k.bad = []) (hl : k.lown ≤ 256) (he : e < k.cap t) (hd : d < k.cap t) :
    (k.answered true vd t.width e x).elem vd t.width d = if d = e then x.1 % 2 ^ t.width else k.elem vd t.width d := by
  have hset : (k.deliver vd t.width e x).v.get vd.toFin = setElem_ (k.v.get vd.toFin) k.lown t.width e x.1 := by
    rw [deliver_v hb]
    exact (get_set k.v vd.toFin vd.toFin _).trans (if_pos rfl)
  have hlown : (k.deliver vd t.width e x).lown = k.lown := by rw [deliver_frame hb]
  rw [answered_true, Strand.elem, hset, hlown]
  exact getElem_setElem _ t hl he hd

end

/-- A vector atomic's turn on one element: its token, then what f makes of the strand with the response. -/
def State.tokenTurn (u : State) (va pa n : Nat) (new : Nat → Option Nat × Cls) (f : Nat × Cls → Strand → Strand) : State :=
  let r := u.sendToken va pa n new
  r.2.withHart (f r.1 r.2.hart)

section
variable {s u : State} {vd : BitVec 5} {es : List Nat} {va pa : Nat → Nat} {n w e : Nat} {back : Bool} {x : Nat × Cls}
  {new : Nat → Option Nat × Cls}

/-- A turn leaves the registers where the old values are not wanted. -/
theorem State.Updating.turn_unwanted (h : s.Updating vd es pa n u) (a p : Nat) :
    (u.tokenTurn a p n new (Strand.answered false vd w e)).hart.v = u.hart.v :=
  (answered_unwanted (vd := vd) (w := w)).trans (h.token_v a p new)

variable (hbad : s.hart.bad = [])
include hbad

/-- A response leads on within the vector atomic. -/
theorem State.Updating.answered (h : s.Updating vd es pa n u) (d : Nat) :
    s.Updating vd es pa n (u.withHart (u.hart.answered back vd w d x)) := by
  have hb : u.hart.bad = [] := by rw [h.hart]; exact hbad
  have hcls : u.hart.cls = s.hart.cls := by rw [h.hart]
  refine ⟨h.written.trans rfl, h.poison, ?_, ?_, fun r hr => (answered_other hb hr).trans (h.regs r hr),
    fun hz => (answered_unselected (hcls.trans hz)).trans (h.emask hz), h.mem⟩
  · rw [withHart_hart, answered_frame hb]
    exact (congrArg (fun k : Strand => { k with v := (u.hart.answered back vd w d x).v, emask := (u.hart.answered back vd w d x).emask })
      h.hart).trans rfl
  · rw [withHart_hart, answered_frame hb]
    exact h.buffer

/-- So does each turn of one that delivers its responses. -/
theorem State.Updating.turn (h : s.Updating vd es pa n u) (a : Nat) (he : e ∈ es) :
    s.Updating vd es pa n (u.tokenTurn a (pa e) n new (Strand.answered back vd w e)) :=
  (h.token a new he).answered hbad e

end

/-- What the fold of an element's turn establishes, once its turn comes, and the other turns keep, holds at its end. -/
theorem foldl_turn {f : State → Nat → State} {Q J : State → Prop} {es : List Nat} {e : Nat} (hnd : es.Nodup) (he : e ∈ es)
    (before : ∀ d ∈ es, d ≠ e → ∀ u, Q u → Q (f u d)) (turn : ∀ u, Q u → J (f u e))
    (after : ∀ d ∈ es, d ≠ e → ∀ u, J u → J (f u d)) {s : State} (hs : Q s) : J (es.foldl f s) := by
  obtain ⟨l, r, rfl⟩ := List.append_of_mem he
  obtain ⟨hne, -⟩ := List.nodup_cons.mp (List.nodup_middle.mp hnd)
  rw [List.mem_append, not_or] at hne
  rw [List.foldl_append, List.foldl_cons]
  refine List.foldlRecOn r f (turn _ (List.foldlRecOn l f hs fun u hu d hd => ?_)) fun u hu d hd => ?_
  · exact before d (List.mem_append_left _ hd) (fun q => hne.1 (q ▸ hd)) u hu
  · exact after d (List.mem_append_right _ (List.mem_cons_of_mem _ hd)) (fun q => hne.2 (q ▸ hd)) u hu

/-- The turns of a vector atomic's elements, one after another. -/
def State.tokens (s : State) (va pa : Nat → Nat) (n : Nat) (new : Nat → Nat → Option Nat × Cls)
    (f : Nat → Nat × Cls → Strand → Strand) (es : List Nat) : State :=
  es.foldl (fun u e => u.tokenTurn (va e) (pa e) n (new e) (f e)) s

section
variable {s : State} {vd : BitVec 5} {es : List Nat} {va pa : Nat → Nat} {n w : Nat} {back : Bool} {t : ETag}
  {new : Nat → Nat → Option Nat × Cls} (hbad : s.hart.bad = []) (hbuf : s.hart.strip.buffer = [])
include hbad hbuf

theorem tokens_updating : s.Updating vd es pa n (s.tokens va pa n new (Strand.answered back vd w) es) :=
  List.foldlRecOn es _ (State.Updating.start hbuf) fun _ hu e he => hu.turn hbad (va e) he

/-- Without the old values every register stays. -/
theorem tokens_unwanted : (s.tokens va pa n new (Strand.answered false vd w) es).hart.v = s.hart.v :=
  (List.foldlRecOn (motive := fun u : State => s.Updating vd es pa n u ∧ u.hart.v = s.hart.v) es _
    ⟨State.Updating.start hbuf, rfl⟩ fun _ ⟨hu, hv⟩ e he =>
      ⟨hu.turn hbad (va e) he, (hu.turn_unwanted (va e) (pa e)).trans hv⟩).2

/-- An element that shares its place with no other leaves there the value of its operation on the old one, and takes the old one
where it is wanted. -/
theorem tokens_apart (hl : s.hart.lown ≤ 256) (hcap : ∀ e ∈ es, e < s.hart.cap t) (hnd : es.Nodup) (hw : 256 ^ n = 2 ^ t.width)
    (hlost : ∀ e ∈ es, lost s (pa e) = false) (hap : ∀ e ∈ es, ∀ d ∈ es, d ≠ e → pa d + n ≤ pa e ∨ pa e + n ≤ pa d) :
    let u := s.tokens va pa n new (Strand.answered back vd t.width) es
    ∀ e ∈ es, homeRead u (pa e) n = (new e (homeRead s (pa e) n)).1.getD (homeRead s (pa e) n) % 2 ^ t.width ∧
      (back = true → u.hart.elem vd t.width e = homeRead s (pa e) n) := by
  intro u e he
  have hlt := ofBytes_lt (homeBytes s (pa e) n)
  rw [homeBytes, length_getBytes, hw] at hlt
  have hread {v : State} (hv : s.Updating vd es pa n v) {d : Nat} (hd : d ∈ es) (hde : d ≠ e) :
      homeRead (v.tokenTurn (va d) (pa d) n (new d) (Strand.answered back vd t.width d)) (pa e) n = homeRead v (pa e) n :=
    homeRead_congr fun b hb => hv.token_get (va d) (new d) fun hb' => by
      have := hap e he d hd hde
      unfold bytesAt at hb hb'
      omega
  have helem {v : State} (hv : s.Updating vd es pa n v) {d : Nat} (hd : d ∈ es) :
      (v.tokenTurn (va d) (pa d) n (new d) (Strand.answered true vd t.width d)).hart.elem vd t.width e =
        if e = d then homeRead v (pa d) n % 2 ^ t.width else v.hart.elem vd t.width e := by
    have hk := (hv.token (va d) (new d) hd).hart
    have hold : (v.sendToken (va d) (pa d) n (new d)).1.1 = homeRead v (pa d) n :=
      congrArg Prod.fst (hv.token_old (va d) (pa d) (new d))
    rw [← hv.token_elem (va d) (new d) hd, ← hold]
    exact answered_elem (by rw [hk]; exact hbad) (by rw [hk]; exact hl) (by rw [hk]; exact hcap d hd) (by rw [hk]; exact hcap e he)
  refine (foldl_turn (Q := fun v => s.Updating vd es pa n v ∧ homeRead v (pa e) n = homeRead s (pa e) n)
    (J := fun v => s.Updating vd es pa n v ∧
      homeRead v (pa e) n = (new e (homeRead s (pa e) n)).1.getD (homeRead s (pa e) n) % 2 ^ t.width ∧
      (back = true → v.hart.elem vd t.width e = homeRead s (pa e) n)) hnd he
    (fun d hd hde v ⟨hv, hq⟩ => ?_) (fun v ⟨hv, hq⟩ => ?_) (fun d hd hde v ⟨hv, hnew, hback⟩ => ?_) ⟨State.Updating.start hbuf, rfl⟩).2
  · exact ⟨hv.turn hbad (va d) hd, (hread hv hd hde).trans hq⟩
  · refine ⟨hv.turn hbad (va e) he, ?_, fun hb => ?_⟩
    · rw [← hw, ← hq]
      exact hv.token_new (va e) (new e) (hlost e he)
    · subst hb
      rw [helem hv he, if_pos rfl, hq]
      exact Nat.mod_eq_of_lt hlt
  · refine ⟨hv.turn hbad (va d) hd, (hread hv hd hde).trans hnew, fun hb => ?_⟩
    subst hb
    rw [helem hv hd, if_neg (Ne.symm hde), hback rfl]

end

/-! ### The tokens as a vector atomic sends them -/

theorem atHome_waiting (u : State) (va : Nat) (p : Option PendingWait) : (u.waiting p).atHome va = (u.atHome va).waiting p :=
  committed_waiting (u.walked va none) p

/-- A token does not read the wait on record. -/
theorem sendToken_waiting (u : State) (va pa n : Nat) (new : Nat → Option Nat × Cls) (p : Option PendingWait) :
    (u.waiting p).sendToken va pa n new = ((u.sendToken va pa n new).1, (u.sendToken va pa n new).2.waiting p) := by
  have hval : ((u.atHome va).waiting p).ownValue pa n = (u.atHome va).ownValue pa n := rfl
  have hhome (t : State) (x : Option Nat) : (t.waiting p).tokened pa n x = (t.tokened pa n x).waiting p := by
    cases x with
    | none => rw [tokened_none, tokened_none]
    | some v =>
      rw [tokened_some, tokened_some]
      exact homeWrite_waiting ..
  rw [sendToken_eq, sendToken_eq, atHome_waiting, hval, hhome]
  rfl

/-- A response is delivered with the width of vd's tag. -/
theorem amoDeliver_eq {k : Strand} {vd : BitVec 5} {t : ETag} (ht : k.tag vd = t) (back : Bool) (e : Nat) (r : Nat × Cls) :
    amoDeliver back vd e r k = k.answered back vd t.width e r := by
  rw [amoDeliver, ht]
  rfl

/-- What sends the token of each element, one after another, leaves. -/
def State.issued (s : State) (va pa : Nat → Nat) (n : Nat) (new : Nat → Nat → Option Nat × Cls) (es : List Nat) : State :=
  es.foldl (fun u e => (u.sendToken (va e) (pa e) n (new e)).2) s

section
variable {s u : State} {vd : BitVec 5} {es : List Nat} {va pa : Nat → Nat} {n e : Nat} (hc : s.calm = true)
  (hr : s.reachesAll .store es va pa n) (hg : ∀ e ∈ es, ∀ b, bytesAt (pa e) n b → readsBad s b 1 = false)
include hc

theorem State.Updating.hit_eq (h : s.Updating vd es pa n u) : u.hart.hit = none := by
  rw [h.hart]
  exact ((calm_iff s).mp hc).1

include hr hg

/-- Nothing keeps an element's token back. -/
theorem State.Updating.sendable (h : s.Updating vd es pa n u) (he : e ∈ es) : u.choices = [] ∧ u.hart.unwatched = true ∧
    u.hart.bad = [] ∧ u.reaches .store (va e) n (pa e) = true ∧ (u.atHome (va e)).ownGood (pa e) n = true := by
  obtain ⟨-, hun, hs, -, hbad, -⟩ := (calm_iff s).mp hc
  refine ⟨h.written.choices_eq.trans hs, ?_, ?_, h.reaches hr he,
    ownGood_home fun b hb => (h.atHome (va e)).units.readsBad_false (hg e he b hb)⟩
  · rw [h.hart]
    exact hun
  · rw [h.hart]
    exact hbad

/-- Each element's token is sent beside a wait on record. -/
theorem State.Updating.sends_waiting (h : s.Updating vd es pa n u) (he : e ∈ es) (new : Nat → Option Nat × Cls)
    (p : Option PendingWait) : Machine.sendToken (va e) n new (u.waiting p) =
      .ok (u.sendToken (va e) (pa e) n new).1 ((u.sendToken (va e) (pa e) n new).2.waiting p) := by
  obtain ⟨hs, hun, hbad, hreach, hown⟩ := h.sendable hc hr hg he
  have hsend := sendToken_ok (u := u.waiting p) new hs hun hbad hreach (by rw [atHome_waiting]; exact hown)
  rwa [sendToken_waiting] at hsend

/-- Each element's token is sent, and its response delivered. -/
theorem State.Updating.turns (h : s.Updating vd es pa n u) (he : e ∈ es) (new : Nat → Option Nat × Cls) (back : Bool) :
    (do
      let r ← Machine.sendToken (va e) n new
      modH (amoDeliver back vd e r) : M Unit) u =
      .ok () (u.tokenTurn (va e) (pa e) n new (Strand.answered back vd (s.hart.tag vd).width e)) := by
  have htag : (u.sendToken (va e) (pa e) n new).2.hart.tag vd = s.hart.tag vd := by
    rw [(h.token (va e) new he).hart]
    rfl
  obtain ⟨hs, hun, hbad, hreach, hown⟩ := h.sendable hc hr hg he
  have hsend := sendToken_ok new hs hun hbad hreach hown
  simp only [run_bind, hsend, run_modH, amoDeliver_eq htag]
  rfl

end

/-- Sending all tokens leads on within the vector atomic. -/
theorem issued_updating {s : State} {vd : BitVec 5} {es : List Nat} {va pa : Nat → Nat} {n : Nat}
    {new : Nat → Nat → Option Nat × Cls} (hbuf : s.hart.strip.buffer = []) :
    s.Updating vd es pa n (s.issued va pa n new es) :=
  List.foldlRecOn es _ (State.Updating.start hbuf) fun _ hu e he => hu.token (va e) (new e) he

/-- With no outcome to come an answer comes at once. -/
theorem takeAnswer_none {s : State} (hs : s.choices = []) : takeAnswer s = .ok none s := by simp [takeAnswer, hs]

theorem choosing_hart (s : State) (cs : List Choice) : (s.choosing cs).hart = s.hart := rfl

/-- With a late one to come that is taken. -/
theorem takeAnswer_late {s : State} (hs : s.choices = []) (m : Nat) : takeAnswer (s.choosing [.late m]) = .ok (some m) s := by
  have hback : (s.choosing [.late m]).choosing [] = s := choosing_self hs _
  simp only [takeAnswer, run_bind, run_get]
  exact congrArg (EStateM.Result.ok (some m)) hback

section
variable {s : State} {i : Instr} {km : BitVec 3} {back : Bool} {vd : BitVec 5} {va pa : Nat → Nat} {n : Nat}
  {new : Nat → Nat → Option Nat × Cls} {bad : Nat → Option Word} (hc : s.calm = true) (hbuf : s.hart.strip.buffer = [])
  (hr : s.reachesAll .store (s.hart.elements km) va pa n)
  (hg : ∀ e ∈ s.hart.elements km, ∀ b, bytesAt (pa e) n b → readsBad s b 1 = false) (hb : ∀ e, bad e = none)
include hc hbuf hr hg hb

/-- Where the responses come at once each is delivered with its token. -/
theorem tokenLoop_answered : tokenLoop i km back vd bad (fun e => sendToken (va e) n (new e)) s =
    .ok () ((s.tokens va pa n new (Strand.answered back vd (s.hart.tag vd).width) (s.hart.elements km)).withHart
      { (s.tokens va pa n new (Strand.answered back vd (s.hart.tag vd).width) (s.hart.elements km)).hart with vsta := 0 }) := by
  obtain ⟨-, -, hs, -, hbad, -⟩ := (calm_iff s).mp hc
  obtain ⟨hrun, -⟩ := forEach_foldl (I := s.Updating vd (s.hart.elements km) pa n)
    (fun e he u hu => by
      have hnext := hu.turn (back := back) (w := (s.hart.tag vd).width) (new := new e) hbad (va e) he
      exact ⟨atElem_ok (e := e) (hu.turns hc hr hg he (new e) back) (hnext.hit_eq hc), hnext⟩) s (State.Updating.start hbuf)
  simp only [tokenLoop, run_bind, run_getH, takeAnswer_none hs]
  exact elementLoop_ends hc hb hrun

end

/-! ### Late responses (R170) -/

theorem modWait_some (u : State) (w : PendingWait) (f : PendingWait → PendingWait) :
    modWait f (u.waiting (some w)) = .ok () (u.waiting (some (f w))) := rfl

theorem getWait_some (u : State) (w : PendingWait) (d : α) (f : PendingWait → α) :
    getWait d f (u.waiting (some w)) = .ok (f w) (u.waiting (some w)) := rfl

/-- What a vector atomic with late responses does with one element: its token's response is due. -/
def issueElem (send : Nat → M (Nat × Cls)) (e : Nat) : M Unit := do
  let r ← send e
  modWait fun w => { w with due := w.due ++ [(e, r)] }

/-- Each token is sent, and its response is due. -/
theorem issueElem_each {s : State} {vd : BitVec 5} {es : List Nat} {va pa : Nat → Nat} {n : Nat} {new : Nat → Nat → Option Nat × Cls}
    (hc : s.calm = true) (hr : s.reachesAll .store es va pa n)
    (hg : ∀ e ∈ es, ∀ b, bytesAt (pa e) n b → readsBad s b 1 = false) (ds : List Nat) (hsub : ∀ d ∈ ds, d ∈ es) :
    ∀ u w, s.Updating vd es pa n u → ∃ rs : List (Nat × Nat × Cls), rs.map Prod.fst = ds ∧
      forEach ds (fun e => atElem e (issueElem (fun e => sendToken (va e) n (new e)) e)) (u.waiting (some w)) =
        .ok () ((u.issued va pa n new ds).waiting (some { w with due := w.due ++ rs })) := by
  induction ds with
  | nil => exact fun u w _ => ⟨[], rfl, by rw [List.append_nil]; rfl⟩
  | cons d ds ih =>
    intro u w hu
    have hd := hsub d (List.mem_cons_self ..)
    have hnext := hu.token (va d) (new d) hd
    obtain ⟨rs, hrs, hrest⟩ := ih (fun e he => hsub e (List.mem_cons_of_mem _ he)) (u.sendToken (va d) (pa d) n (new d)).2
      { w with due := w.due ++ [(d, (u.sendToken (va d) (pa d) n (new d)).1)] } hnext
    have hissue : issueElem (fun e => sendToken (va e) n (new e)) d (u.waiting (some w)) = .ok ()
        ((u.sendToken (va d) (pa d) n (new d)).2.waiting
          (some { w with due := w.due ++ [(d, (u.sendToken (va d) (pa d) n (new d)).1)] })) := by
      simp only [issueElem, run_bind, hu.sends_waiting hc hr hg hd, modWait_some]
    refine ⟨(d, (u.sendToken (va d) (pa d) n (new d)).1) :: rs, by rw [List.map_cons, hrs], ?_⟩
    have hhit : (u.sendToken (va d) (pa d) n (new d)).2.hart.hit = none := hnext.hit_eq hc
    rw [forEach_cons, atElem_ok hissue hhit]
    refine hrest.trans ?_
    rw [List.append_assoc]
    rfl

/-- A loop of tokens that nothing stops. -/
theorem amoStops_ok {back : Bool} {vd : BitVec 5} {act : M α} {a : α} {s u : State} (h : act s = .ok a u) :
    amoStops back vd act s = .ok a u := by
  simp only [amoStops, h]

/-- The elements of a loop that nothing stops. -/
theorem loopElements_ends {n : Nat} {active : Nat → Bool} {bad : Nat → Option Word} {act : Nat → M Unit} {s u : State}
    (hstep : s.hart.estep = false) (hus : s.upsets = []) (hb : ∀ e, bad e = none)
    (hrun : forEach ((rangeFrom s.hart.vsta (n - s.hart.vsta)).filter active) (fun e => atElem e (act e)) s = .ok () u) :
    loopElements n false (pure ()) active bad act s = .ok n u := by
  have hsame : runElems bad act = fun es => forEach es fun e => atElem e (act e) := by
    funext es
    simp only [runElems, hb, consume]
    rfl
  simp only [loopElements, run_bind, run_getH, Bool.false_eq_true, if_false, loopEnd_steady hstep, run_pure,
    takeUpsets_none hus, groupsIn, byGroup, List.filter_nil, runGroups, hsame, hrun]

/-- The end of a vector atomic's wait at deadline 0: it traps with the count of the responses that are due, at the first of them. -/
theorem waitEnds_due {u : State} {w : PendingWait} {back : Bool} {vd : BitVec 5} {c : Bool} {e : Nat}
    (he : (w.due.head?.map Prod.fst) = some e) : waitEnds (amoOps back vd) c (u.waiting (some w)) =
      .error (.trap 27 (BitVec.ofNat 64 w.due.length) none) ((u.withHart { u.hart with vsta := e }).waiting (some w)) := by
  simp only [waitEnds, amoOps, run_bind, getWait_some, he, Option.getD_some, run_modH, run_raise]
  rfl

section
variable {s : State} {i : Instr} {km : BitVec 3} {back : Bool} {vd : BitVec 5} {va pa : Nat → Nat} {n e : Nat}
  {new : Nat → Nat → Option Nat × Cls} {bad : Nat → Option Word} (hc : s.calm = true) (hbuf : s.hart.strip.buffer = [])
  (hr : s.reachesAll .store (s.hart.elements km) va pa n)
  (hg : ∀ e ∈ s.hart.elements km, ∀ b, bytesAt (pa e) n b → readsBad s b 1 = false) (hb : ∀ e, bad e = none)
include hc hbuf hr hg hb

/-- Where every response is late at deadline 0, every token is sent, and the vector atomic traps. -/
theorem tokenLoop_late (he : (s.hart.elements km).head? = some e) (h0 : min s.hart.wdef.toNat s.hart.wceil = 0) :
    ∃ p, tokenLoop i km back vd bad (fun e => sendToken (va e) n (new e)) (s.choosing [.late 0]) =
      .error (.trap 27 (BitVec.ofNat 64 (s.hart.elements km).length) none)
        (((s.issued va pa n new (s.hart.elements km)).withHart
          { (s.issued va pa n new (s.hart.elements km)).hart with vsta := e }).waiting p) := by
  obtain ⟨-, -, hs, hus, -, hstep⟩ := (calm_iff s).mp hc
  obtain ⟨rs, hrs, hrun⟩ := issueElem_each (vd := vd) (new := new) hc hr hg (s.hart.elements km) (fun _ => id) s
    (newWait s i s.hart.wdef 0#64 0) (State.Updating.start hbuf)
  have hstop := amoStops_ok (back := back) (vd := vd) (loopElements_ends (n := s.hart.vl) (act := fun e => do
    let r ← sendToken (va e) n (new e)
    modWait fun w => { w with due := w.due ++ [(e, r)] }) (s := s.waiting (some (newWait s i s.hart.wdef 0#64 0))) hstep hus hb hrun)
  have hdue : (newWait s i s.hart.wdef 0#64 0).due ++ rs = rs := rfl
  have hlen : rs.length = (s.hart.elements km).length := by rw [← hrs, List.length_map]
  have hhead : rs.head?.map Prod.fst = some e := by rw [← List.head?_map, hrs, he]
  have hmany : ¬ rs.length ≤ 0 := by
    intro hle
    rw [List.length_eq_zero_iff.mp (Nat.le_zero.mp hle)] at hhead
    cases hhead
  have hnow (p : Option PendingWait) :
      s.now + min s.hart.wdef.toNat s.hart.wceil ≤ ((s.issued va pa n new (s.hart.elements km)).waiting p).now := by
    rw [h0]
    exact (issued_updating (vd := vd) hbuf).written.now_eq.ge
  have hsame (z : State) : modH (fun k => k) z = .ok () z := rfl
  rw [hdue] at hstop
  simp only [tokenLoop, run_bind, run_getH, takeAnswer_late hs, choosing_hart, expiryOf_eq, modH_newWait, hstop, modWait_some,
    getWait_some, List.take_zero, List.foldl_nil, hsame, List.drop_zero, if_neg hmany, run_get, if_pos (hnow _)]
  rw [waitEnds_due hhead, hlen]
  exact ⟨_, rfl⟩

end

/-! ### The instructions (R169) -/

/-- A type that atomics at indexed addresses accept has whole bytes. -/
theorem whole_bytes {t : ETag} (hnone : t ≠ .none) (h4 : t ≠ .i4) : 0 < t.width / 8 ∧ 256 ^ (t.width / 8) = 2 ^ t.width := by
  revert hnone h4
  cases t <;> decide

/-- A vector atomic whose operands pass its checks is its loop of tokens. -/
theorem vecAmo_loop {i : Instr} {op : VAmo} {km : BitVec 3} {old : Bool} {vs2 rs1 vd : BitVec 5} {s : State}
    (hm : s.hart.mayAccess (.index vs2) vd = true) (hop : op.accepts (s.hart.tag vd) = true) (hne : old = true → vs2 ≠ vd) :
    vecAmo i op km old vs2 rs1 vd s = tokenLoop i km old vd (fun e => s.hart.badOf (s.hart.srcReads [vd, vs2] km e)) (fun e =>
      sendToken (Addressing.addr (.index vs2) s.hart rs1 (s.hart.tag vd).width e) ((s.hart.tag vd).width / 8) fun m =>
        let r := tokenNew op (s.hart.tag vd) s.hart.mode_ m (s.hart.elem vd (s.hart.tag vd).width e)
        (some r.1, r.2)) s := by
  obtain ⟨hv, hch, -, -, hf, hint⟩ := mayAccess_iff.mp hm
  have htypes : (op.accepts (s.hart.tag vd) && (s.hart.tag vs2).isInt) = true := by
    rw [hop, hint vs2 (List.mem_singleton.mpr rfl)]
    rfl
  have hshape : (!old || vs2 != vd) = true := by
    cases old with
    | false => rfl
    | true => exact bne_iff_ne.mpr (hne rfl)
  simp only [vecAmo, run_bind, vecGate_ok hv, run_getH, need_true htypes, needCap_ok (ts := [_, _]) hf, need_true hshape,
    needChains_free hch]

/-- So is vamocas. -/
theorem vamocas_loop {km : BitVec 3} {vs2 rs1 vd : BitVec 5} {s : State} (hm : s.hart.mayAccess (.index vs2) vd = true)
    (hop : VAmo.accepts .swp (s.hart.tag vd) = true) (htag : s.hart.tag (vd + 1#5) = s.hart.tag vd) (hne : vs2 ≠ vd)
    (hne' : vs2 ≠ vd + 1#5) : exec (.vamocas km vs2 rs1 vd) s = runInstr (.vamocas km vs2 rs1 vd)
      (tokenLoop (.vamocas km vs2 rs1 vd) km true vd (fun e => s.hart.badOf (s.hart.srcReads [vd, vd + 1#5, vs2] km e)) fun e =>
        sendToken (Addressing.addr (.index vs2) s.hart rs1 (s.hart.tag vd).width e) ((s.hart.tag vd).width / 8) fun m =>
          (if m = s.hart.elem vd (s.hart.tag vd).width e then some (s.hart.elem (vd + 1#5) (s.hart.tag vd).width e) else none, 0#6)) s := by
  obtain ⟨hv, hch, -, -, hf, hint⟩ := mayAccess_iff.mp hm
  have htypes : (VAmo.accepts .swp (s.hart.tag vd) && s.hart.tag (nextReg vd) == s.hart.tag vd && (s.hart.tag vs2).isInt) = true := by
    rw [hop, nextReg, htag, hint vs2 (List.mem_singleton.mpr rfl)]
    simp
  have hshape : (vs2 != vd && vs2 != nextReg vd) = true := Bool.and_eq_true_iff.mpr ⟨bne_iff_ne.mpr hne, bne_iff_ne.mpr hne'⟩
  refine runInstr_congr ?_
  simp only [run_bind, vecGate_ok hv, run_getH, need_true htypes, needCap_ok (ts := [_, _]) hf, need_true hshape, needChains_free hch]
  rfl

section
variable {s : State} {i : Instr} {km : BitVec 3} {back : Bool} {vd : BitVec 5} {va pa : Nat → Nat} {n : Nat}
  {new : Nat → Nat → Option Nat × Cls} (hc : s.calm = true) (hbuf : s.hart.strip.buffer = [])
include hc hbuf

/-- A vector atomic that is its loop of tokens completes with each element's token and response, and with late responses at deadline 0
traps with all tokens sent. -/
theorem tokens_complete {a : Addressing} (hm : s.hart.mayAccess a vd = true) (hn : 0 < n ∧ 256 ^ n = 2 ^ (s.hart.tag vd).width)
    (hr : s.reachesAll .store (s.hart.elements km) va pa n)
    (hg : ∀ e ∈ s.hart.elements km, ∀ b, bytesAt (pa e) n b → readsBad s b 1 = false) (reads : Nat → List SrcRead)
    (hx : ∀ z : State, z.hart = s.hart → exec i z = runInstr i
      (tokenLoop i km back vd (fun e => s.hart.badOf (reads e)) fun e => sendToken (va e) n (new e)) z) :
    let es := s.hart.elements km
    let u := s.tokens va pa n new (Strand.answered back vd (s.hart.tag vd).width) es
    let v := s.issued va pa n new es
    exec i s = .next (u.completes { u.hart with vsta := 0 }) ∧ u.hart.x = s.hart.x ∧ u.hart.k = s.hart.k ∧
      (back = false → u.hart.v = s.hart.v) ∧ (s.hart.cls = 0 → u.hart.emask = s.hart.emask) ∧
      (∀ r, r ≠ vd → u.hart.v.get r.toFin = s.hart.v.get r.toFin) ∧
      (∀ b, (∀ e ∈ es, ¬ bytesAt (pa e) n b) → u.mem.get b = s.mem.get b) ∧
      ((∀ e ∈ es, ∀ d ∈ es, d ≠ e → pa d + n ≤ pa e ∨ pa e + n ≤ pa d) → ∀ e ∈ es,
        homeRead u (pa e) n = (new e (homeRead s (pa e) n)).1.getD (homeRead s (pa e) n) % 2 ^ (s.hart.tag vd).width ∧
        (back = true → u.hart.elem vd (s.hart.tag vd).width e = homeRead s (pa e) n)) ∧
      (∀ e, es.head? = some e → min s.hart.wdef.toNat s.hart.wceil = 0 → exec i (s.choosing [.late 0]) =
        .next (takeTrap 27 (BitVec.ofNat 64 es.length) (v.withHart { v.hart with vsta := e }))) := by
  intro es u v
  obtain ⟨-, -, -, -, hbad, hstep⟩ := (calm_iff s).mp hc
  obtain ⟨hpos, hpow⟩ := hn
  have hin : s.Updating vd es pa n u := tokens_updating hbad hbuf
  have hb (e : Nat) : s.hart.badOf (reads e) = none := badOf_none hbad _
  refine ⟨?_, by rw [hin.hart], by rw [hin.hart], fun hback => ?_, hin.emask, hin.regs, hin.mem, fun hap => ?_, fun e he h0 => ?_⟩
  · exact (EndsIn.of_ok (tokenLoop_answered hc hbuf hr hg hb)).completes hstep (hin.hit_eq hc) (hx s rfl)
  · subst hback
    exact tokens_unwanted hbad hbuf
  · exact tokens_apart hbad hbuf (mayVector_lown (mayAccess_iff.mp hm).1) (elements_lt_cap hm) ((nodup_rangeFrom _ _).filter _) hpow
      (fun e he => lost_false_of_readsBad hpos (hg e he)) hap
  · obtain ⟨p, hlate⟩ := tokenLoop_late (i := i) (back := back) (vd := vd) (new := new) hc hbuf hr hg hb he h0
    have htrap := takeTrap_waiting 27 (BitVec.ofNat 64 es.length) (v.withHart { v.hart with vsta := e }) p
    exact (hx (s.choosing [.late 0]) rfl).trans ((runInstr_trap hlate).trans (congrArg _ htrap))

end

/-- The instructions of vector atomics with their operations. -/
theorem exec_vecAmo {f : (BitVec 3 → Bool → BitVec 5 → BitVec 5 → BitVec 5 → Instr) × VAmo}
    (hf : f ∈ ([(.vamoadd, .add), (.vamomin, .min), (.vamomax, .max), (.vamoand, .and), (.vamoor, .or), (.vamoxor, .xor),
      (.vamoswp, .swp)] : List ((BitVec 3 → Bool → BitVec 5 → BitVec 5 → BitVec 5 → Instr) × VAmo)))
    (km : BitVec 3) (old : Bool) (vs2 rs1 vd : BitVec 5) (s : State) : exec (f.1 km old vs2 rs1 vd) s =
      runInstr (f.1 km old vs2 rs1 vd) (vecAmo (f.1 km old vs2 rs1 vd) f.2 km old vs2 rs1 vd) s := by
  simp only [List.mem_cons, List.not_mem_nil, or_false] at hf
  rcases hf with rfl | rfl | rfl | rfl | rfl | rfl | rfl <;> rfl

/-- Settles O32: each vector atomic is a loop of tokens, which home by home apply one after another. -/
theorem vectorAtomicsComplete : Obligations.VectorAtomicsComplete := by
  intro km old vs2 rs1 vd s pa h t n es mode hc hm hbuf hne hr hg
  obtain ⟨-, -, hnone, h4, -, -⟩ := mayAccess_iff.mp hm
  have hwhole := whole_bytes hnone fun ht => nomatch h4 ht
  have hn : n = t.width / 8 := accessBytes_indexed hm
  rw [hn] at hr hg ⊢
  intro run runs
  refine ⟨fun f hf hop => ?_, fun hop _ htag hd hd' => ?_⟩
  · refine tokens_complete hc hbuf hm hwhole hr hg (s.hart.srcReads [vd, vs2] km) fun z hz => ?_
    refine (exec_vecAmo hf ..).trans (runInstr_congr ((vecAmo_loop (hz ▸ hm) (hz ▸ hop) hne).trans ?_))
    rw [hz]
    rfl
  · refine tokens_complete hc hbuf hm hwhole hr hg (s.hart.srcReads [vd, vd + 1#5, vs2] km) fun z hz => ?_
    refine (vamocas_loop (hz ▸ hm) (hz ▸ hop) (hz ▸ htag) hd hd').trans ?_
    rw [hz]

end Sys2Proof.Machine
end

section
/-!
PROOF. What an operation that writes whole tiles leaves (R76, R121, R188), and what the checks of the matrix instructions find where
all tiles have granted shapes (R187).
-/
namespace Sys2Proof.Machine

/-! ### Where the elements of a tile stand (R121) -/

/-- The bit offset of element e, in row order, of a tile. -/
def TShape.off (T : TShape) (e : Nat) : Nat := tileOff T.ty.width (e / T.cols) (e % T.cols)

theorem TShape.legal_iff {T : TShape} :
    T.legal = true ↔ T.ty ≠ .none ∧ 1 ≤ T.rows ∧ T.rows ≤ 128 ∧ 1 ≤ T.cols ∧ T.cols ≤ colMax T.ty := by
  simp [TShape.legal, and_assoc]

/-- A row of 2048 bits holds the columns that a type may have (R120). -/
theorem width_mul_colMax_le (t : ETag) : t.width * colMax t ≤ 2048 := by cases t <;> decide

/-- An element of a legal shape has a row below 128, and a field within the row. -/
theorem TShape.off_in_row {T : TShape} (hT : T.legal = true) {e : Nat} (he : e < T.rows * T.cols) :
    e / T.cols < 128 ∧ T.ty.width * (e % T.cols) + T.ty.width ≤ 2048 := by
  obtain ⟨-, -, hrows, hcols, hmax⟩ := TShape.legal_iff.mp hT
  refine ⟨(Nat.div_lt_of_lt_mul (Nat.mul_comm _ _ ▸ he)).trans_le hrows, ?_⟩
  calc T.ty.width * (e % T.cols) + T.ty.width = T.ty.width * (e % T.cols + 1) := (Nat.mul_succ ..).symm
    _ ≤ T.ty.width * colMax T.ty := Nat.mul_le_mul_left _ ((Nat.mod_lt e hcols).trans_le hmax)
    _ ≤ 2048 := width_mul_colMax_le T.ty

theorem TShape.off_le {T : TShape} (hT : T.legal = true) {e : Nat} (he : e < T.rows * T.cols) :
    T.off e + T.ty.width ≤ 262144 := by
  obtain ⟨hrow, hfield⟩ := off_in_row hT he
  rw [TShape.off, tileOff]
  omega

/-- Distinct elements of a legal shape lie in disjoint fields. -/
theorem TShape.off_apart {T : TShape} (hT : T.legal = true) {d e : Nat} (hd : d < T.rows * T.cols) (he : e < T.rows * T.cols)
    (hne : d ≠ e) : T.off d + T.ty.width ≤ T.off e ∨ T.off e + T.ty.width ≤ T.off d := by
  have hfd := (off_in_row hT hd).2
  have hfe := (off_in_row hT he).2
  have hfields {a b : Nat} (h : a < b) : T.ty.width * a + T.ty.width ≤ T.ty.width * b :=
    (Nat.mul_succ ..).symm.trans_le (Nat.mul_le_mul_left _ h)
  simp only [TShape.off, tileOff]
  by_cases hrow : d / T.cols = e / T.cols
  · have hcol : d % T.cols ≠ e % T.cols := fun h => hne (by rw [← Nat.div_add_mod d T.cols, ← Nat.div_add_mod e T.cols, hrow, h])
    rw [hrow, Nat.add_assoc, Nat.add_assoc]
    exact (Nat.lt_or_gt_of_ne hcol).imp (fun h => Nat.add_le_add_left (hfields h) _) fun h => Nat.add_le_add_left (hfields h) _
  · omega

/-- Element (i, j) is element i · cols + j in row order. -/
theorem TShape.at_index {T : TShape} {i j : Nat} (hi : i < T.rows) (hj : j < T.cols) :
    i * T.cols + j < T.rows * T.cols ∧ (i * T.cols + j) / T.cols = i ∧ (i * T.cols + j) % T.cols = j := by
  refine ⟨?_, ?_, ?_⟩
  · calc i * T.cols + j < i * T.cols + T.cols := Nat.add_lt_add_left hj _
      _ = (i + 1) * T.cols := (Nat.succ_mul ..).symm
      _ ≤ T.rows * T.cols := Nat.mul_le_mul_right _ hi
  · rw [Nat.add_comm, Nat.add_mul_div_right _ _ (Nat.zero_lt_of_lt hj), Nat.div_eq_of_lt hj, Nat.zero_add]
  · rw [Nat.add_comm, Nat.add_mul_mod_self_right, Nat.mod_eq_of_lt hj]

/-! ### The bits of a tile -/

/-- The bits of a tile after some elements, in row order, were written one after another. -/
def TShape.written (T : TShape) (x : Nat → Nat) (es : List Nat) (b : BitVec 262144) : BitVec 262144 :=
  es.foldl (fun b e => setTile b T.ty.width (e / T.cols) (e % T.cols) (x e)) b

/-- No bit outside the field that is written changes. -/
theorem getLsbD_setTile {w i j b : Nat} (hb : ¬ bytesAt (tileOff w i j) w b) (t : BitVec 262144) (x : Nat) :
    (setTile t w i j x).getLsbD b = t.getLsbD b := by
  by_cases hn : b < 262144
  · simp only [setTile, BitVec.getLsbD_or, BitVec.getLsbD_and, BitVec.getLsbD_not, BitVec.getLsbD_ofNat, Nat.testBit_shiftLeft,
      Nat.testBit_two_pow_sub_one, Nat.testBit_mod_two_pow, hn, decide_true, Bool.true_and]
    by_cases hlo : tileOff w i j ≤ b
    · have hhi : ¬ b - tileOff w i j < w := fun h => hb ⟨hlo, by omega⟩
      simp [hhi]
    · simp [hlo]
  · rw [BitVec.getLsbD_of_ge _ _ (Nat.le_of_not_lt hn), BitVec.getLsbD_of_ge _ _ (Nat.le_of_not_lt hn)]

theorem TShape.getLsbD_written {T : TShape} (x : Nat → Nat) {es : List Nat} {b : Nat} (hb : ∀ e ∈ es, ¬ bytesAt (T.off e) T.ty.width b) :
    ∀ t, (T.written x es t).getLsbD b = t.getLsbD b := by
  induction es with
  | nil => exact fun _ => rfl
  | cons e es ih =>
    exact fun t => (ih (fun d hd => hb d (List.mem_cons_of_mem _ hd)) _).trans (getLsbD_setTile (hb e (List.mem_cons_self ..)) ..)

/-- Each element written reads as it was written, and every other as before. -/
theorem TShape.field_written {T : TShape} (hT : T.legal = true) (x : Nat → Nat) {d : Nat} (hd : d < T.rows * T.cols) {es : List Nat}
    (hes : ∀ e ∈ es, e < T.rows * T.cols) : ∀ t : BitVec 262144, (T.written x es t).toNat / 2 ^ T.off d % 2 ^ T.ty.width =
      if d ∈ es then x d % 2 ^ T.ty.width else t.toNat / 2 ^ T.off d % 2 ^ T.ty.width := by
  induction es with
  | nil => exact fun _ => rfl
  | cons e es ih =>
    intro t
    have he := hes e (List.mem_cons_self ..)
    have hpos := (width_dvd T.ty).2
    have hset : (setTile t T.ty.width (e / T.cols) (e % T.cols) (x e)).toNat / 2 ^ T.off d % 2 ^ T.ty.width =
        if T.off d = T.off e then x e % 2 ^ T.ty.width else t.toNat / 2 ^ T.off d % 2 ^ T.ty.width :=
      field_set t hpos (off_le hT he) (by
        by_cases h : d = e
        · exact .inl (congrArg _ h)
        · exact .inr (off_apart hT hd he h))
    refine (ih (fun c hc => hes c (List.mem_cons_of_mem _ hc)) _).trans ?_
    rw [hset]
    by_cases h : d = e
    · simp [h]
    · have hoff : T.off d ≠ T.off e := by have := off_apart hT hd he h; omega
      simp [h, hoff]

/-! ### The elements of a tile written by an operation (R188) -/

/-- Element e, in row order, of a tile written, with its classes recorded by its row. -/
def Strand.deliverTile (h : Strand) (mc : BitVec 3) (T : TShape) (e : Nat) (r : Nat × Cls) : Strand :=
  (h.storeTile mc T.ty.width (e / T.cols) (e % T.cols) r.1).flag (e / T.cols) r.2

theorem deliverTile_frame {h : Strand} (hb : h.bad = []) (mc : BitVec 3) (T : TShape) (e : Nat) (r : Nat × Cls) :
    h.deliverTile mc T e r = { h with m := h.m.set mc.toFin (T.written (fun _ => r.1) [e] (h.m.get mc.toFin))
                                      emask := (h.deliverTile mc T e r).emask } := by
  have hs : h.storeTile mc T.ty.width (e / T.cols) (e % T.cols) r.1 = h.putTile mc T.ty.width (e / T.cols) (e % T.cols) r.1 := if_pos hb
  rw [Strand.deliverTile, hs]
  exact flag_frame ..

theorem deliverTile_unselected {h : Strand} (hz : h.cls = 0) (mc : BitVec 3) (T : TShape) (e : Nat) (r : Nat × Cls) :
    (h.deliverTile mc T e r).emask = h.emask := by
  rw [Strand.deliverTile, flag_unselected (by simp [hz])]
  simp

theorem deliverTile_quiet (h : Strand) (mc : BitVec 3) (T : TShape) (e : Nat) {r : Nat × Cls} (hr : r.2 = 0#6) :
    (h.deliverTile mc T e r).emask = h.emask := by
  simp [Strand.deliverTile, Strand.flag, hr]

/-- Elements written one after another change the tile's bits, and emask where a class is selected. -/
theorem deliverTile_each {mc : BitVec 3} {T : TShape} (g : Nat → Nat × Cls) (es : List Nat) : ∀ h : Strand, h.bad = [] →
    let k := foldH (fun e k => k.deliverTile mc T e (g e)) es h
    k = { h with m := h.m.set mc.toFin (T.written (fun e => (g e).1) es (h.m.get mc.toFin)), emask := k.emask } ∧
      (h.cls = 0 → k.emask = h.emask) := by
  induction es with
  | nil =>
    intro h _
    refine ⟨?_, fun _ => rfl⟩
    have : h.m.set mc.toFin (h.m.get mc.toFin) = h.m := Vector.set_getElem_self ..
    rw [foldH_nil, TShape.written, List.foldl_nil, this]
  | cons e es ih =>
    intro h hb
    have hstep := deliverTile_frame hb mc T e (g e)
    have hz := fun z => deliverTile_unselected (h := h) z mc T e (g e)
    rw [foldH_cons]
    generalize h.deliverTile mc T e (g e) = k₁ at hstep hz
    obtain ⟨hall, hrest⟩ := ih k₁ (by rw [hstep]; exact hb)
    have hm : k₁.m = h.m.set mc.toFin (T.written (fun _ => (g e).1) [e] (h.m.get mc.toFin)) := by rw [hstep]
    have hget : k₁.m.get mc.toFin = T.written (fun _ => (g e).1) [e] (h.m.get mc.toFin) := by
      rw [hm]
      exact (get_set h.m mc.toFin mc.toFin _).trans (if_pos rfl)
    generalize foldH _ es k₁ = k at hall hrest
    refine ⟨?_, fun z => (hrest (by rw [hstep]; exact z)).trans (hz z)⟩
    rw [hget, hm, Vector.set_set] at hall
    exact hall.trans (by rw [hstep]; rfl)

/-! ### The granted shape written in full (R188) -/

/-- The strand with every element of a tile's granted shape written, in row order, and vsta 0. -/
def Strand.filled (h : Strand) (mc : BitVec 3) (f : Nat → Nat → Nat × Cls) : Strand :=
  let T := h.shape mc
  { foldH (fun e k => k.deliverTile mc T e (f (e / T.cols) (e % T.cols))) (rangeFrom 0 (T.rows * T.cols)) h with vsta := 0 }

theorem fillTile_eq (mc : BitVec 3) (f : Strand → Nat → Nat → Nat × Cls) (s : State) :
    fillTile mc f s = .ok () (s.withHart (s.hart.filled mc (f s.hart))) := rfl

/-- Elements that raise no class leave emask (R65). -/
theorem filled_quiet (h : Strand) (mc : BitVec 3) {f : Nat → Nat → Nat × Cls} (hq : ∀ i j, (f i j).2 = 0#6) :
    (h.filled mc f).emask = h.emask :=
  foldH_keeps Strand.emask (fun e k => deliverTile_quiet k mc (h.shape mc) e (hq _ _)) _ h

theorem filled_tileWritten {h : Strand} (hb : h.bad = []) {mc : BitVec 3} (hT : (h.shape mc).legal = true) (f : Nat → Nat → Nat × Cls) :
    h.tileWritten (h.filled mc f) mc 0 fun i j => (f i j).1 := by
  rw [Strand.filled]
  unfold Strand.tileWritten
  generalize h.shape mc = T at *
  obtain ⟨hall, hz⟩ := deliverTile_each (mc := mc) (T := T) (fun e => f (e / T.cols) (e % T.cols)) (rangeFrom 0 (T.rows * T.cols)) h hb
  have hmem {e : Nat} : e ∈ rangeFrom 0 (T.rows * T.cols) ↔ e < T.rows * T.cols := by simp [mem_rangeFrom]
  generalize foldH _ _ h = k at *
  have hget (q : BitVec 3) : k.m.get q.toFin = if q = mc then
      T.written (fun e => (f (e / T.cols) (e % T.cols)).1) (rangeFrom 0 (T.rows * T.cols)) (h.m.get mc.toFin) else h.m.get q.toFin := by
    rw [hall]
    exact (get_set h.m mc.toFin q.toFin _).trans (if_congr toFin_inj rfl rfl)
  have hbits := (hget mc).trans (if_pos rfl)
  refine ⟨by rw [hall], hz, fun q hq => (hget q).trans (if_neg hq), fun i j hi hj _ => ?_, fun b hb => ?_⟩
  · obtain ⟨hlt, hrow, hcol⟩ := TShape.at_index hi hj
    have hfield := T.field_written hT (fun e => (f (e / T.cols) (e % T.cols)).1) hlt (fun e => hmem.mp) (h.m.get mc.toFin)
    rw [if_pos (hmem.mpr hlt), TShape.off, hrow, hcol, ← hbits] at hfield
    exact hfield
  · refine (congrArg (BitVec.getLsbD · b) hbits).trans (T.getLsbD_written _ (fun e he => ?_) _)
    obtain ⟨-, -, -, hcols, -⟩ := TShape.legal_iff.mp hT
    exact hb _ _ (Nat.div_lt_of_lt_mul (Nat.mul_comm _ _ ▸ hmem.mp he)) (Nat.mod_lt e hcols) (Nat.zero_le _)

/-! ### The checks of the matrix instructions (R187) -/

theorem mayMatrix_iff {h : Strand} {ms : List (BitVec 3)} : h.mayMatrix ms = true ↔
    h.mayVector = true ∧ h.unchained = true ∧ ∀ m ∈ ms, (h.shape m).legal = true := by
  simp only [Strand.mayMatrix, Bool.and_eq_true, List.all_eq_true, and_assoc]

/-- A tile of a legal shape has a granted shape. -/
theorem granted_of_legal {T : TShape} (hT : T.legal = true) : T.granted = true := by
  obtain ⟨-, hrows, -⟩ := TShape.legal_iff.mp hT
  exact bne_iff_ne.mpr (Nat.ne_of_gt hrows)

/-- Where all tiles have granted shapes, the type checks are about all of them. -/
theorem grantedTypes_eq {h : Strand} {ms : List (BitVec 3)} (hT : ∀ m ∈ ms, (h.shape m).legal = true) :
    grantedTypes h ms = ms.map fun m => (h.shape m).ty := by
  have hall : (ms.map h.shape).filter TShape.granted = ms.map h.shape := by
    simpa [List.filter_eq_self] using fun m hm => granted_of_legal (hT m hm)
  rw [grantedTypes, hall, List.map_map]
  rfl

section
variable {s : State} {ms : List (BitVec 3)}

theorem needTiles_ok (hT : ∀ m ∈ ms, (s.hart.shape m).legal = true) : needTiles ms s = .ok () s := by
  have hnone : (ms.any fun m => !(s.hart.shape m).granted) = false := by
    simpa using fun m hm => granted_of_legal (hT m hm)
  simp only [needTiles, run_bind, run_getH, hnone, Bool.false_eq_true, if_false, run_pure]

/-- A source without an uncorrectable word is read (R189, R190). -/
theorem consume_badOf_ok (hc : s.calm = true) (rs : List SrcRead) : atElem 0 (consume (s.hart.badOf rs)) s = .ok () s := by
  obtain ⟨hhit, -, -, -, hbad, -⟩ := (calm_iff s).mp hc
  rw [badOf_none hbad]
  exact atElem_ok (consume_none s) hhit

theorem needTileWords_ok (hc : s.calm = true) (m : BitVec 3) : needTileWords m s = .ok () s := by
  simp only [needTileWords, run_bind, run_getH, consume_badOf_ok hc]

theorem forEach_needTileWords_ok (hc : s.calm = true) : forEach ms needTileWords s = .ok () s :=
  forEach_unchanged fun m _ => needTileWords_ok hc m

/-- The checks of an element operation on tiles of one shape (R195). -/
theorem tileMapChecks_ok (hc : s.calm = true) {mc : BitVec 3} (hm : s.hart.mayMatrix (mc :: ms) = true)
    (heq : ∀ m ∈ ms, (s.hart.shape m).rows = (s.hart.shape mc).rows ∧ (s.hart.shape m).cols = (s.hart.shape mc).cols) :
    tileMapChecks mc ms s = .ok () s := by
  obtain ⟨-, -, -, hus, -, -⟩ := (calm_iff s).mp hc
  obtain ⟨-, hu, hT⟩ := mayMatrix_iff.mp hm
  have hall : (ms.all fun m => (s.hart.shape m).rows == (s.hart.shape mc).rows && (s.hart.shape m).cols == (s.hart.shape mc).cols) = true := by
    simpa using heq
  simp only [tileMapChecks, run_bind, needTiles_ok hT, run_getH, need_true hall, needChains_free hu, forEach_needTileWords_ok hc,
    needUpset_none hus]

/-- An instruction that writes a tile in full completes, once its checks have led to that. -/
theorem completes_of_fillTile {i : Instr} {body : M Unit} {mc : BitVec 3} {f : Strand → Nat → Nat → Nat × Cls} (hc : s.calm = true)
    (hT : (s.hart.shape mc).legal = true) (hx : exec i s = runInstr i body s) (hb : body s = fillTile mc f s) :
    exec i s = .next (s.completes (s.hart.filled mc (f s.hart))) ∧
      s.hart.tileWritten (s.hart.filled mc (f s.hart)) mc 0 fun i j => (f s.hart i j).1 := by
  obtain ⟨hhit, -, -, -, hbad, hstep⟩ := (calm_iff s).mp hc
  have hw := filled_tileWritten hbad hT (f s.hart)
  exact ⟨hx.trans (completes_of_ok hstep (hb.trans (fillTile_eq mc f s)) (by rw [hw.1]; exact hhit)), hw⟩

end

end Sys2Proof.Machine
end

section
/-!
PROOF. O37 and O38: tzero and the element operations on tiles of one shape (R194, R195).
-/
namespace Sys2Proof.Machine

/-- Settles O37: every element of the granted shape is delivered as 0 with no class. -/
theorem tzeroClears : Obligations.TzeroClears := by
  intro mc s hc hm
  obtain ⟨-, -, -, hus, -, -⟩ := (calm_iff s).mp hc
  obtain ⟨hv, hu, hT⟩ := mayMatrix_iff.mp hm
  obtain ⟨hexec, hw⟩ := completes_of_fillTile (i := .tzero mc) (f := fun _ _ _ => (0, 0#6)) hc (hT mc (by simp)) rfl (by
    simp only [run_bind, vecGate_ok hv, needTiles_ok hT, needChains_free hu, needUpset_none hus])
  exact ⟨_, hexec, hw, filled_quiet s.hart mc fun _ _ => rfl⟩

/-! ### Element operations (R195) -/

section
variable {s : State} {mc ma : BitVec 3} (hc : s.calm = true) (hm : s.hart.mayMatrix [mc, ma] = true)
  (hrows : (s.hart.shape ma).rows = (s.hart.shape mc).rows) (hcols : (s.hart.shape ma).cols = (s.hart.shape mc).cols)
include hc hm hrows hcols

theorem tileMapChecks_ok_pair : tileMapChecks mc [ma] s = .ok () s := tileMapChecks_ok hc hm (by simpa using ⟨hrows, hcols⟩)

theorem tmv_completes (hty : (s.hart.shape mc).ty = (s.hart.shape ma).ty) :
    ∃ k, exec (.tmv mc ma) s = .next (s.completes k) ∧ s.hart.tileWritten k mc 0 (s.hart.tileAt ma) ∧ k.emask = s.hart.emask := by
  obtain ⟨hv, -, hT⟩ := mayMatrix_iff.mp hm
  have htypes : (!(s.hart.shape mc).granted || !(s.hart.shape ma).granted || (s.hart.shape mc).ty == (s.hart.shape ma).ty) = true := by
    simp [hty]
  obtain ⟨hexec, hw⟩ := completes_of_fillTile (i := .tmv mc ma) (f := fun h i j => (h.tileAt ma i j, 0#6)) hc (hT mc (by simp)) rfl (by
    simp only [run_bind, vecGate_ok hv, run_getH, need_true htypes, tileMapChecks_ok_pair hc hm hrows hcols])
  exact ⟨_, hexec, hw, filled_quiet s.hart mc fun _ _ => rfl⟩

theorem tcvt_completes : ∃ k, exec (.tcvt mc ma) s = .next (s.completes k) ∧ s.hart.tileWritten k mc 0 fun i j =>
    (convert (s.hart.shape ma).ty (s.hart.shape mc).ty s.hart.mode_ (s.hart.tileAt ma i j)).1 := by
  obtain ⟨hv, -, hT⟩ := mayMatrix_iff.mp hm
  exact ⟨_, completes_of_fillTile (i := .tcvt mc ma)
    (f := fun h i j => convert (h.shape ma).ty (h.shape mc).ty h.mode_ (h.tileAt ma i j)) hc (hT mc (by simp)) rfl (by
      simp only [run_bind, vecGate_ok hv, tileMapChecks_ok_pair hc hm hrows hcols])⟩

theorem tscale_completes (rs : BitVec 5) (hkind : oneKind [(s.hart.shape mc).ty, (s.hart.shape ma).ty] = true) :
    ∃ k, exec (.tscale mc ma rs) s = .next (s.completes k) ∧ s.hart.tileWritten k mc 0 fun i j =>
      (mulInto (s.hart.shape ma).ty (s.hart.shape ma).ty (s.hart.shape mc).ty s.hart.mode_ (s.hart.tileAt ma i j)
        (broadcastX (s.hart.shape ma).ty (s.hart.rx rs))).1 := by
  obtain ⟨hv, -, hT⟩ := mayMatrix_iff.mp hm
  have htypes : oneKind (grantedTypes s.hart [mc, ma]) = true := by rw [grantedTypes_eq hT]; exact hkind
  exact ⟨_, completes_of_fillTile (i := .tscale mc ma rs) (f := fun h i j =>
    mulInto (h.shape ma).ty (h.shape ma).ty (h.shape mc).ty h.mode_ (h.tileAt ma i j) (broadcastX (h.shape ma).ty (h.rx rs)))
    hc (hT mc (by simp)) rfl (by
      simp only [run_bind, vecGate_ok hv, run_getH, need_true htypes, tileMapChecks_ok_pair hc hm hrows hcols])⟩

end

theorem tadd_completes {s : State} {mc ma mb : BitVec 3} (hc : s.calm = true) (hm : s.hart.mayMatrix [mc, ma, mb] = true)
    (hshapes : ∀ q ∈ [ma, mb], (s.hart.shape q).rows = (s.hart.shape mc).rows ∧ (s.hart.shape q).cols = (s.hart.shape mc).cols)
    (hkind : oneKind [(s.hart.shape mc).ty, (s.hart.shape ma).ty, (s.hart.shape mb).ty] = true) :
    ∃ k, exec (.tadd mc ma mb) s = .next (s.completes k) ∧ s.hart.tileWritten k mc 0 fun i j =>
      (addInto (s.hart.shape ma).ty (s.hart.shape mb).ty (s.hart.shape mc).ty s.hart.mode_ (s.hart.tileAt ma i j)
        (s.hart.tileAt mb i j)).1 := by
  obtain ⟨hv, -, hT⟩ := mayMatrix_iff.mp hm
  have htypes : oneKind (grantedTypes s.hart [mc, ma, mb]) = true := by rw [grantedTypes_eq hT]; exact hkind
  exact ⟨_, completes_of_fillTile (i := .tadd mc ma mb) (f := fun h i j =>
    addInto (h.shape ma).ty (h.shape mb).ty (h.shape mc).ty h.mode_ (h.tileAt ma i j) (h.tileAt mb i j)) hc (hT mc (by simp)) rfl (by
      simp only [run_bind, vecGate_ok hv, run_getH, need_true htypes, tileMapChecks_ok hc hm hshapes])⟩

/-- Settles O38: past its checks each of them fills mc from the tiles as they stood. -/
theorem tileOperationsComplete : Obligations.TileOperationsComplete := by
  intro mc ma mb rs s h A B C m at_ hc hm hrows hcols gives
  obtain ⟨hv, hu, hT⟩ := mayMatrix_iff.mp hm
  refine ⟨fun hty => ?_, tcvt_completes hc hm hrows hcols, tscale_completes hc hm hrows hcols rs, fun hkind hB hrows' hcols' => ?_⟩
  · obtain ⟨k, hexec, hw, hem⟩ := tmv_completes hc hm hrows hcols hty
    refine ⟨⟨k, hexec, hw⟩, fun t ht => ?_⟩
    obtain rfl := Host.Outcome.next.inj (hexec.symm.trans ht)
    exact hem
  · have hthree : h.mayMatrix [mc, ma, mb] = true := mayMatrix_iff.mpr ⟨hv, hu, by simpa using ⟨hT mc (by simp), hT ma (by simp), hB⟩⟩
    exact tadd_completes hc hthree (by simpa using ⟨⟨hrows, hcols⟩, hrows', hcols'⟩) hkind

end Sys2Proof.Machine
end

section
/-!
PROOF. O39: matrix products and checksums (R196 to R201). A product fills mc from the tiles as they stood; mmack then stores the
predicted sums to its vector register, and tsum delivers the actual ones.
-/
namespace Sys2Proof.Machine

/-! ### Products (R196 to R199) -/

section
variable {s : State} {mc ma mb : BitVec 3} {v : BitVec 5}

/-- The types of a product on granted tiles (R196). -/
def Strand.productTypes (h : Strand) (mc ma mb : BitVec 3) : Prop :=
  factorType (h.shape ma).ty = true ∧ factorType (h.shape mb).ty = true ∧ productType (h.shape mc).ty = true ∧
    oneKind [(h.shape mc).ty, (h.shape ma).ty, (h.shape mb).ty] = true

theorem needProductTypes_ok (hT : ∀ q ∈ [mc, ma, mb], (s.hart.shape q).legal = true) (hty : s.hart.productTypes mc ma mb) :
    needProductTypes mc ma mb s = .ok () s := by
  obtain ⟨ha, hb, hc, hkind⟩ := hty
  have hTc : ∀ q ∈ [mc], (s.hart.shape q).legal = true := fun q hq => hT q (List.mem_singleton.mp hq ▸ List.mem_cons_self ..)
  have hTab : ∀ q ∈ [ma, mb], (s.hart.shape q).legal = true := fun q hq => hT q (List.mem_cons_of_mem _ hq)
  have hall : ((grantedTypes s.hart [ma, mb]).all factorType && (grantedTypes s.hart [mc]).all productType &&
      oneKind (grantedTypes s.hart [mc, ma, mb])) = true := by
    rw [grantedTypes_eq hT, grantedTypes_eq hTab, grantedTypes_eq hTc]
    simpa [ha, hb, hc] using hkind
  simp only [needProductTypes, run_bind, run_getH, need_true hall]

/-- What a product writes at element (i, j): the old value and the exact products, rounded once (R198). -/
def Strand.productAt (h : Strand) (mc ma mb : BitVec 3) (pairs : Nat → Nat → List (Nat × Nat)) (i j : Nat) : Nat × Cls :=
  dotInto (h.shape ma).ty (h.shape mb).ty (h.shape mc).ty h.mode_ (h.tileAt mc i j) (pairs i j)

/-- The strand after a dense product. -/
def Strand.multiplied (h : Strand) (mc ma mb : BitVec 3) : Strand := h.filled mc (h.productAt mc ma mb (densePairs h ma mb))

theorem multiplied_tileWritten {h : Strand} (hb : h.bad = []) (hT : (h.shape mc).legal = true) (ma mb : BitVec 3) :
    h.tileWritten (h.multiplied mc ma mb) mc 0 fun i j => (h.productAt mc ma mb (densePairs h ma mb) i j).1 :=
  filled_tileWritten hb hT _

theorem fillProduct_dense (s : State) : fillProduct mc ma mb (fun h i j => densePairs h ma mb i j) s =
    .ok () (s.withHart (s.hart.multiplied mc ma mb)) := rfl

variable (hc : s.calm = true) (hm : s.hart.mayMatrix [mc, ma, mb] = true) (hty : s.hart.productTypes mc ma mb)
  (hrows : (s.hart.shape ma).rows = (s.hart.shape mc).rows) (hcols : (s.hart.shape mb).cols = (s.hart.shape mc).cols)
include hc hm hty hrows hcols

theorem mma_completes (hinner : (s.hart.shape ma).cols = (s.hart.shape mb).rows) :
    ∃ k, exec (.mma mc ma mb) s = .next (s.completes k) ∧
      s.hart.tileWritten k mc 0 fun i j => (s.hart.productAt mc ma mb (densePairs s.hart ma mb) i j).1 := by
  obtain ⟨-, -, -, hus, -, -⟩ := (calm_iff s).mp hc
  obtain ⟨hv, hu, hT⟩ := mayMatrix_iff.mp hm
  have hshapes : mmaShapes s.hart mc ma mb = true := by simp [mmaShapes, hrows, hcols, hinner]
  exact ⟨_, completes_of_fillTile (i := .mma mc ma mb) (f := fun h => h.productAt mc ma mb (densePairs h ma mb)) hc (hT mc (by simp)) rfl (by
    simp only [run_bind, vecGate_ok hv, needProductTypes_ok hT hty, needTiles_ok hT, run_getH, need_true hshapes, needChains_free hu,
      forEach_needTileWords_ok hc, needUpset_none hus]
    rfl)⟩

/-- The factor pairs of element (i, j) of a product with n kept values in a row (R199). -/
def Strand.keptPairs (h : Strand) (ma mb : BitVec 3) (v : BitVec 5) (n i j : Nat) : List (Nat × Nat) :=
  (rangeFrom 0 n).map fun p => (h.tileAt ma i p, h.tileAt mb (keptPos h v n i p) j)

theorem mmasp_completes (htag : s.hart.tag v = .n8) (hf : s.hart.fits [.n8] = true) (hdeep : (s.hart.shape mb).rows = 128)
    (hkept : (s.hart.shape ma).cols = 16 ∨ (s.hart.shape ma).cols = 32 ∨ (s.hart.shape ma).cols = 64)
    (hcap : (s.hart.shape mc).rows * (s.hart.shape ma).cols ≤ s.hart.cap .n8)
    (hpos : (rangeFrom 0 (s.hart.shape mc).rows).all (keptRow s.hart v (s.hart.shape ma).cols) = true) :
    ∃ k, exec (.mmasp mc ma mb v) s = .next (s.completes k) ∧
      s.hart.tileWritten k mc 0 fun i j => (s.hart.productAt mc ma mb (s.hart.keptPairs ma mb v (s.hart.shape ma).cols) i j).1 := by
  obtain ⟨-, -, -, hus, -, -⟩ := (calm_iff s).mp hc
  obtain ⟨hv, hu, hT⟩ := mayMatrix_iff.mp hm
  have htype : (s.hart.tag v == .n8) = true := by simp [htag]
  have hshapes : ((s.hart.shape mb).rows == 128 &&
      ((s.hart.shape ma).cols == 16 || (s.hart.shape ma).cols == 32 || (s.hart.shape ma).cols == 64) &&
      (s.hart.shape ma).rows == (s.hart.shape mc).rows && (s.hart.shape mb).cols == (s.hart.shape mc).cols &&
      decide ((s.hart.shape mc).rows * (s.hart.shape ma).cols ≤ s.hart.cap .n8)) = true := by
    simpa [hrows, hcols, hdeep, hcap, or_assoc] using hkept
  exact ⟨_, completes_of_fillTile (i := .mmasp mc ma mb v) (f := fun h => h.productAt mc ma mb (h.keptPairs ma mb v (s.hart.shape ma).cols)) hc
    (hT mc (by simp)) rfl (by
      simp only [run_bind, vecGate_ok hv, needProductTypes_ok hT hty, run_getH, need_true htype, needTiles_ok hT, needCap_ok hf,
        need_true hshapes, needChains_free hu, consume_badOf_ok hc, need_true hpos, forEach_needTileWords_ok hc, needUpset_none hus]
      rfl)⟩

end

/-! ### The first elements of a register -/

/-- The first n elements of a register delivered one after another. -/
def Strand.deliverFirst (h : Strand) (v : BitVec 5) (t : ETag) (n : Nat) (g : Nat → Nat × Cls) : Strand :=
  foldH (fun e k => k.deliver v t.width e (g e)) (rangeFrom 0 n) h

/-- What that leaves of a strand whose register has the tag already. -/
theorem deliverFirst_each {h : Strand} {v : BitVec 5} {t : ETag} {n : Nat} (g : Nat → Nat × Cls) (hb : h.bad = []) (hl : h.lown ≤ 256)
    (hn : n ≤ h.cap t) (ht : h.tag v = t) :
    let k := h.deliverFirst v t n g
    k = { h with v := k.v, emask := k.emask } ∧ (h.cls = 0 → k.emask = h.emask) ∧ (∀ r, r ≠ v → k.v.get r.toFin = h.v.get r.toFin) ∧
      h.atStart.delivered k v t (fun e => decide (e < n)) fun e => (g e).1 := by
  obtain ⟨hall, hz, hreg, helem⟩ := deliver_each (vd := v) (t := t) g (rangeFrom 0 n) h hb hl (nodup_rangeFrom _ _)
    fun e he => by have := (mem_rangeFrom.mp he).2; exact (show e < n by omega).trans_le hn
  refine ⟨hall, hz, hreg, ?_, fun e he => (helem e he).trans (if_congr ?_ rfl rfl)⟩
  · rw [Strand.deliverFirst, hall]
    exact ht
  · simp [mem_rangeFrom, Strand.atStart]

/-- Elements that raise no class change the register alone. -/
theorem deliverFirst_quiet {h : Strand} {v : BitVec 5} {t : ETag} {n : Nat} (x : Nat → Nat) (hb : h.bad = []) (hl : h.lown ≤ 256)
    (hn : n ≤ h.cap t) (ht : h.tag v = t) :
    let k := h.deliverFirst v t n fun e => (x e, 0#6)
    k = { h with v := k.v } ∧ (∀ r, r ≠ v → k.v.get r.toFin = h.v.get r.toFin) ∧
      ∀ e, e < h.cap t → k.elem v t.width e = if e < n then x e % 2 ^ t.width else h.elem v t.width e := by
  obtain ⟨hall, -, hreg, -, helem⟩ := deliverFirst_each (fun e => (x e, 0#6)) hb hl hn ht
  have hem : (h.deliverFirst v t n fun e => (x e, 0#6)).emask = h.emask :=
    foldH_keeps Strand.emask (fun e k => deliver_quiet_emask k v t.width e rfl) _ h
  generalize h.deliverFirst v t n (fun e => (x e, 0#6)) = k at *
  have hlown : k.lown = h.lown := by rw [hall]
  refine ⟨hall.trans (by rw [hem]), hreg, fun e he => ?_⟩
  rw [Strand.elem, hlown]
  exact (helem e he).trans (if_congr (by simp [Strand.atStart]) rfl rfl)

/-! ### Predicted sums (R200) -/

section
variable {s : State} {mc ma mb : BitVec 3} {v : BitVec 5}

/-- The predicted sum of row i of a product. -/
def Strand.predictedRow (h : Strand) (mc ma mb : BitVec 3) (td : ETag) (i : Nat) : Nat :=
  (checksum (h.shape ma).ty (h.shape mb).ty (h.shape mc).ty td h.mode_ ((rangeFrom 0 (h.shape mc).cols).map fun j => h.tileAt mc i j)
    ((rangeFrom 0 (h.shape mc).cols).flatMap fun j => densePairs h ma mb i j)).1

/-- The predicted sum of its column j. -/
def Strand.predictedCol (h : Strand) (mc ma mb : BitVec 3) (td : ETag) (j : Nat) : Nat :=
  (checksum (h.shape ma).ty (h.shape mb).ty (h.shape mc).ty td h.mode_ ((rangeFrom 0 (h.shape mc).rows).map fun i => h.tileAt mc i j)
    ((rangeFrom 0 (h.shape mc).rows).flatMap fun i => densePairs h ma mb i j)).1

/-- Element e of the checksums: the sums of the rows, then those of the columns. -/
def Strand.predicted (h : Strand) (mc ma mb : BitVec 3) (td : ETag) (e : Nat) : Nat :=
  if e < (h.shape mc).rows then h.predictedRow mc ma mb td e else h.predictedCol mc ma mb td (e - (h.shape mc).rows)

/-- The strand after mmack: the product, then the predicted sums. -/
def Strand.multipliedChecked (h : Strand) (mc ma mb : BitVec 3) (v : BitVec 5) : Strand :=
  (h.multiplied mc ma mb).deliverFirst v (h.tag v) ((h.shape mc).rows + (h.shape mc).cols) fun e =>
    (h.predicted mc ma mb (h.tag v) e, 0#6)

theorem kindOf_eq_float (t : ETag) : kindOf t = .float ↔ t.isFloat = true := by cases t <;> decide

/-- Types of one kind have the same checksum types (R200). -/
theorem checksumType_congr {t u : ETag} (h : kindOf u = kindOf t) (td : ETag) : checksumType u td = checksumType t td := by
  have hfloat : u.isFloat = t.isFloat := Bool.eq_iff_iff.mpr (by rw [← kindOf_eq_float, ← kindOf_eq_float, h])
  rw [checksumType, checksumType, hfloat]

theorem all_checksumType {td : ETag} (hT : ∀ q ∈ [mc, ma, mb], (s.hart.shape q).legal = true) (hty : s.hart.productTypes mc ma mb)
    (hck : checksumType (s.hart.shape mc).ty td = true) :
    ((grantedTypes s.hart [mc, ma, mb]).all fun t => checksumType t td) = true := by
  obtain ⟨-, -, -, hkind⟩ := hty
  obtain ⟨ha, hb⟩ : kindOf (s.hart.shape ma).ty = kindOf (s.hart.shape mc).ty ∧ kindOf (s.hart.shape mb).ty = kindOf (s.hart.shape mc).ty := by
    simpa [oneKind] using hkind
  rw [grantedTypes_eq hT]
  simp [hck, checksumType_congr ha, checksumType_congr hb]

variable (hc : s.calm = true) (hm : s.hart.mayMatrix [mc, ma, mb] = true)
  (hcap : (s.hart.shape mc).rows + (s.hart.shape mc).cols ≤ s.hart.cap (s.hart.tag v))
include hc hm hcap

/-- What mmack leaves: of the product, its vector register alone differs, and holds the sums in its first elements. -/
theorem multipliedChecked_frame :
    let k := s.hart.multipliedChecked mc ma mb v
    k = { s.hart.multiplied mc ma mb with v := k.v } ∧ (∀ r, r ≠ v → k.v.get r.toFin = s.hart.v.get r.toFin) ∧
      (∀ e, e < (s.hart.shape mc).rows →
        k.elem v (s.hart.tag v).width e = s.hart.predictedRow mc ma mb (s.hart.tag v) e % 2 ^ (s.hart.tag v).width) ∧
      (∀ e, e < (s.hart.shape mc).cols → k.elem v (s.hart.tag v).width ((s.hart.shape mc).rows + e) =
        s.hart.predictedCol mc ma mb (s.hart.tag v) e % 2 ^ (s.hart.tag v).width) ∧
      ∀ e, (s.hart.shape mc).rows + (s.hart.shape mc).cols ≤ e → e < s.hart.cap (s.hart.tag v) →
        k.elem v (s.hart.tag v).width e = s.hart.elem v (s.hart.tag v).width e := by
  obtain ⟨-, -, -, -, hbad, -⟩ := (calm_iff s).mp hc
  obtain ⟨hv, -, hT⟩ := mayMatrix_iff.mp hm
  have hl := (multiplied_tileWritten hbad (hT mc (by simp)) ma mb).1
  have hlown : (s.hart.multiplied mc ma mb).lown = s.hart.lown := by rw [hl]
  have hregs : (s.hart.multiplied mc ma mb).v = s.hart.v := by rw [hl]
  have htags : (s.hart.multiplied mc ma mb).vtag = s.hart.vtag := by rw [hl]
  have htag : (s.hart.multiplied mc ma mb).tag v = s.hart.tag v := congrArg (·.get v.toFin) htags
  have hcap' : (s.hart.multiplied mc ma mb).cap = s.hart.cap := by funext t; rw [Strand.cap, Strand.cap, hlown]
  have helem' : (s.hart.multiplied mc ma mb).elem = s.hart.elem := by funext r w e; rw [Strand.elem, Strand.elem, hlown, hregs]
  have hleft := deliverFirst_quiet (n := (s.hart.shape mc).rows + (s.hart.shape mc).cols) (s.hart.predicted mc ma mb (s.hart.tag v))
    (by rw [hl]; exact hbad) (by rw [hlown]; exact mayVector_lown hv) (by rw [hcap']; exact hcap) htag
  rw [hregs, hcap', helem'] at hleft
  obtain ⟨hk, hreg, helem⟩ := hleft
  refine ⟨hk, hreg, fun e he => ?_, fun e he => ?_, fun e hlo he => ?_⟩
  · refine (helem e (by omega)).trans ((if_pos (by omega)).trans ?_)
    rw [Strand.predicted, if_pos he]
  · refine (helem _ (by omega)).trans ((if_pos (by omega)).trans ?_)
    rw [Strand.predicted, if_neg (by omega), Nat.add_sub_cancel_left]
  · exact (helem e he).trans (if_neg (by omega))

theorem mmack_completes (hty : s.hart.productTypes mc ma mb) (hrows : (s.hart.shape ma).rows = (s.hart.shape mc).rows)
    (hcols : (s.hart.shape mb).cols = (s.hart.shape mc).cols) (hinner : (s.hart.shape ma).cols = (s.hart.shape mb).rows)
    (hck : checksumType (s.hart.shape mc).ty (s.hart.tag v) = true) (hn : s.hart.tag v ≠ .none)
    (hf : s.hart.fits [s.hart.tag v] = true) :
    exec (.mmack mc ma mb v) s = .next (s.completes (s.hart.multipliedChecked mc ma mb v)) := by
  obtain ⟨hhit, -, -, hus, hbad, hstep⟩ := (calm_iff s).mp hc
  obtain ⟨hv, hu, hT⟩ := mayMatrix_iff.mp hm
  have hshapes : (mmaShapes s.hart mc ma mb && decide ((s.hart.shape mc).rows + (s.hart.shape mc).cols ≤ s.hart.cap (s.hart.tag v))) = true := by
    simp [mmaShapes, hrows, hcols, hinner, hcap]
  refine completes_of_ok hstep ?_ ?_
  · simp only [run_bind, vecGate_ok hv, needProductTypes_ok hT hty, destType_ok hn, run_getH, need_true (all_checksumType hT hty hck),
      needTiles_ok hT, needCap_ok hf, need_true hshapes, needChains_free hu, forEach_needTileWords_ok hc, needUpset_none hus,
      fillProduct_dense, run_modH, withHart_hart, withHart_withHart]
    rfl
  · rw [(multipliedChecked_frame hc hm hcap).1, (multiplied_tileWritten hbad (hT mc (by simp)) ma mb).1]
    exact hhit

end

/-! ### Actual sums (R201) -/

/-- The actual sum at element e of a checksum register: those of the rows of the tile, then those of its columns. -/
def Strand.actual (h : Strand) (ma : BitVec 3) (td : ETag) (e : Nat) : Nat × Cls :=
  let A := h.shape ma
  let sum (cs : List Nat) : Nat × Cls := checksum A.ty A.ty A.ty td h.mode_ cs []
  if e < A.rows then sum ((rangeFrom 0 A.cols).map fun j => h.tileAt ma e j)
  else sum ((rangeFrom 0 A.rows).map fun i => h.tileAt ma i (e - A.rows))

theorem tsum_completes {s : State} {ma : BitVec 3} {v : BitVec 5} (hc : s.calm = true) (hm : s.hart.mayMatrix [ma] = true)
    (h64 : (s.hart.shape ma).ty ≠ .fp64) (hck : checksumType (s.hart.shape ma).ty (s.hart.tag v) = true) (hn : s.hart.tag v ≠ .none)
    (hf : s.hart.fits [s.hart.tag v] = true)
    (hcap : (s.hart.shape ma).rows + (s.hart.shape ma).cols ≤ s.hart.cap (s.hart.tag v)) :
    ∃ k, exec (.tsum ma v) s = .next (s.completes k) ∧ s.hart.vectorFrame k v ∧ s.hart.atStart.delivered k v (s.hart.tag v)
      (fun e => decide (e < (s.hart.shape ma).rows + (s.hart.shape ma).cols)) fun e => (s.hart.actual ma (s.hart.tag v) e).1 := by
  obtain ⟨hhit, -, -, hus, hbad, hstep⟩ := (calm_iff s).mp hc
  obtain ⟨hv, hu, hT⟩ := mayMatrix_iff.mp hm
  have htypes : ((grantedTypes s.hart [ma]).all fun t => t != .fp64 && checksumType t (s.hart.tag v)) = true := by
    rw [grantedTypes_eq hT]
    simp [h64, hck]
  obtain ⟨hall, hz, hreg, hdel⟩ := deliverFirst_each (s.hart.actual ma (s.hart.tag v)) hbad (mayVector_lown hv) hcap rfl
  refine ⟨{ s.hart.deliverFirst v (s.hart.tag v) ((s.hart.shape ma).rows + (s.hart.shape ma).cols) (s.hart.actual ma (s.hart.tag v)) with
    vsta := 0 }, completes_of_ok hstep ?_ ?_, ⟨?_, hz, fun r hr => ⟨hreg r hr, ?_⟩⟩, hdel⟩
  · simp only [run_bind, vecGate_ok hv, destType_ok hn, run_getH, need_true htypes, needTiles_ok hT, needCap_ok hf,
      need_true (decide_eq_true hcap), needChains_free hu, needTileWords_ok hc, needUpset_none hus, run_modH]
    rfl
  · rw [hall]
    exact hhit
  · rw [hall]
  · rw [hall]
    rfl

/-! ### The statement -/

/-- Settles O39: the products fill mc, and the sums of either kind stand in the first elements of their register. -/
theorem productsComplete : Obligations.ProductsComplete := by
  intro mc ma mb v s h A B C td m at_ dense dot hc hm ha hb hcT hkind hrows hcols
  have hty : h.productTypes mc ma mb := ⟨ha, hb, hcT, hkind⟩
  obtain ⟨hv, hu, hT⟩ := mayMatrix_iff.mp hm
  have hTc := hT mc (by simp)
  have htile : h.mayMatrix [mc] = true := mayMatrix_iff.mpr ⟨hv, hu, by simpa using hTc⟩
  refine ⟨mma_completes hc hm hty hrows hcols, mmasp_completes hc hm hty hrows hcols, ?_, ?_⟩
  · intro hinner hck hn hf hcap ck
    obtain ⟨-, -, -, -, hbad, -⟩ := (calm_iff s).mp hc
    exact ⟨_, _, mmack_completes hc hm hcap hty hrows hcols hinner hck hn hf, multiplied_tileWritten hbad hTc ma mb,
      multipliedChecked_frame hc hm hcap⟩
  · intro h64 hck hn hf hcap sum
    obtain ⟨k, hexec, hframe, hdel⟩ := tsum_completes hc htile h64 hck hn hf hcap
    exact ⟨k, hexec, hframe, hdel.congr fun e => congrArg (· % 2 ^ td.width) (apply_ite Prod.fst _ _ _)⟩

end Sys2Proof.Machine
end

section
/-!
PROOF. O43: a wflag whose flag is not met, on a core whose data cache holds a line of the page tables (R238, R257, R336).
-/
namespace Sys2Proof.Machine

/-- A strand that waits for a flag of 1 at 0x3000, where memory holds 0; its core's data cache holds the line of the first table that
translates that address. -/
def flagAwaiting : State := { State.reset with
  hart := { Strand.start with
    status := .running, root := 0x20000, mode := .supervisor, x := (Strand.start.x.set 1 0x3000#64).set 3 1#64 }
  mem := identityTables, svc := { Service.start with hbmStacks := 0xFFFF#16 }
  dcache := [⟨coreNo Strand.start.place, 0, 0x20000, List.replicate 64 0#8⟩] }

/-- The cached lines after an outcome that is a next state. -/
def linesAfter (o : Host.Outcome State Fault Refusal) : Option (List CacheLine) :=
  match o with
  | .next t => some t.dcache
  | _ => none

/-- The flag is read past the cache, and its walk reads the table's entry: no line is left. -/
theorem flagAwaiting_lines : linesAfter (exec (.wflag false 0#5 1#5 3#5) flagAwaiting) = some [] := by decide +kernel

/-- Refutes O43: where the flag is not met at deadline 0, the statement has the data cache lose the lines of the flag alone, and it ranges
over every state. The model's load walks the tables first, so that the cache keeps no line of an entry that the walk has read (R257, R336);
flagAwaiting holds such a line. -/
theorem not_waitsComplete : ¬ Obligations.WaitsComplete := by
  unfold Obligations.WaitsComplete
  rintro ⟨-, hflags⟩
  have hunmet := ((hflags false 0#3 0#5 1#5 3#5 0#5 flagAwaiting 0x3000 id (by decide +kernel)).1 (by decide +kernel)
    (by decide +kernel)).2 (by decide +kernel) (by decide +kernel)
  have hlines := flagAwaiting_lines
  rw [hunmet] at hlines
  exact absurd hlines (by decide +kernel)

end Sys2Proof.Machine
end

section
/-!
What the operations on chains change of the strands: their handles, the chains kept in their claim images, and their pending cuts
(R216 to R223, R326).
-/
namespace Sys2Proof.Machine

/-! ### The strands -/

/-- A strand that operations on chains make of k: its handles, the chains of its claim image and its pending cuts have changed. -/
def Strand.rechained (k h : Strand) : Prop := h = { k with c := h.c, kept := h.kept, cuts := h.cuts }

theorem Strand.rechained_self (k : Strand) : k.rechained k := rfl

theorem Strand.rechained.trans {k h g : Strand} (h₁ : k.rechained h) (h₂ : h.rechained g) : k.rechained g := Eq.trans h₂ (by rw [h₁])

section
variable {k h : Strand} (hr : k.rechained h)
include hr

theorem Strand.rechained.sid_eq : h.sid = k.sid := by rw [hr]
theorem Strand.rechained.hit_eq : h.hit = k.hit := by rw [hr]
theorem Strand.rechained.x_eq : h.x = k.x := by rw [hr]
theorem Strand.rechained.v_eq : h.v = k.v := by rw [hr]

end

theorem Strand.putChain_rechained (h : Strand) (ci : Nat) (c : Chain) : h.rechained (h.putChain ci c) := rfl

theorem Strand.modFar_rechained (h : Strand) (p : Nat) (f : Chain → Chain) : h.rechained (h.modFar p f) := by
  unfold Strand.modFar
  split
  · rfl
  · exact h.putChain_rechained ..

/-! ### The package -/

/-- A state that operations on chains make of s, each strand keeping its place among the others. -/
structure State.relinked (s t : State) : Prop where
  rest : t = { s with hart := t.hart, parked := t.parked, cores := t.cores }
  hart : s.hart.rechained t.hart
  parked : List.Forall₂ Strand.rechained s.parked t.parked

theorem State.relinked_self (s : State) : s.relinked s := ⟨rfl, rfl, List.forall₂_same.mpr fun _ _ => rfl⟩

theorem rechained_lists {as bs cs : List Strand} (h₁ : List.Forall₂ Strand.rechained as bs) (h₂ : List.Forall₂ Strand.rechained bs cs) :
    List.Forall₂ Strand.rechained as cs := by
  induction h₁ generalizing cs with
  | nil => exact h₂
  | cons hab _ ih =>
    cases h₂ with
    | cons hbc hrest => exact .cons (hab.trans hbc) (ih hrest)

theorem State.relinked.trans {s t u : State} (h₁ : s.relinked t) (h₂ : t.relinked u) : s.relinked u where
  rest := h₂.rest.trans (by rw [h₁.rest])
  hart := h₁.hart.trans h₂.hart
  parked := rechained_lists h₁.parked h₂.parked

section
variable {s t : State} (h : s.relinked t)
include h

theorem State.relinked.choices_eq : t.choices = s.choices := by rw [h.rest]
theorem State.relinked.mem_eq : t.mem = s.mem := by rw [h.rest]
theorem State.relinked.images_eq : t.images = s.images := by rw [h.rest]

end

theorem modChain_relinked (ci : Nat) (f : Chain → Chain) (s : State) : s.relinked (modChain ci f s) :=
  ⟨rfl, rfl, List.forall₂_same.mpr fun _ _ => rfl⟩

theorem modStrand_relinked (sid : Nat) {f : Strand → Strand} (hf : ∀ h : Strand, h.rechained (f h)) (s : State) :
    s.relinked (modStrand sid f s) := by
  unfold modStrand
  split
  · exact ⟨rfl, hf _, List.forall₂_same.mpr fun _ _ => rfl⟩
  · refine ⟨rfl, rfl, List.forall₂_map_right_iff.mpr (List.forall₂_same.mpr fun h _ => ?_)⟩
    split
    · exact hf h
    · rfl

theorem modPeer_relinked (ci l : Nat) (f : Chain → LinkSt → LinkSt) (s : State) : s.relinked (modPeer ci l f s) := by
  unfold modPeer
  split
  · exact s.relinked_self
  · exact modStrand_relinked _ (fun h => h.modFar_rechained ..) s

theorem deliverAll_relinked (ci l : Nat) (s : State) : s.relinked (deliverAll ci l s) := by
  unfold deliverAll
  exact (modPeer_relinked ..).trans (modChain_relinked ..)

/-- A relation of states that every turn of a fold keeps to, for relinked states. -/
theorem foldl_relinked {f : State → α → State} (as : List α) (step : ∀ a (s : State), s.relinked (f s a)) (s : State) :
    s.relinked (as.foldl f s) :=
  foldl_related State.relinked_self State.relinked.trans as (fun a _ u => step a u) s

/-! ### Cuts (R222) -/

theorem sendMarker_relinked (ci cause : Nat) (answers : Option Nat) (l : Nat) (s : State) :
    s.relinked (sendMarker ci cause answers s l) := by
  unfold sendMarker
  exact ((deliverAll_relinked ci l s).trans (modPeer_relinked ..)).trans (modChain_relinked ..)

theorem cutChain_relinked (ci own sent : Nat) (answers : Option Nat) (s : State) : s.relinked (cutChain ci own sent answers s) := by
  unfold cutChain
  split
  · exact s.relinked_self
  · exact (foldl_relinked _ (sendMarker_relinked ci sent answers) s).trans (modChain_relinked ..)

theorem requestCut_relinked (ci : Nat) (s : State) : s.relinked (requestCut ci s) :=
  (cutChain_relinked ..).trans (modChain_relinked ..)

theorem cutTrap_relinked (ci own trap : Nat) (tval : Word) (s : State) : s.relinked (cutTrap ci own trap tval s) := by
  unfold cutTrap
  split
  · exact (cutChain_relinked ci own own none s).trans ⟨rfl, rfl, List.forall₂_same.mpr fun _ _ => rfl⟩
  · exact s.relinked_self

/-! ### Grants (R69, R213) -/

/-- Where no choice is pending the nodes of the stacks carry out nothing. -/
theorem takeNear_quiet {s : State} (hs : s.choices = []) (r : ChainRec) : takeNear r s = (false, s) := by
  simp only [takeNear, hs]

theorem takePorts_relinked (ci : Nat) (r : ChainRec) (s : State) : s.relinked (takePorts ci r s).1 := by
  unfold takePorts
  split
  · exact s.relinked_self
  · exact ⟨rfl, rfl, List.forall₂_same.mpr fun _ _ => rfl⟩

theorem regrant_relinked {s : State} (hs : s.choices = []) (ci : Nat) : s.relinked (regrant ci s) := by
  simp only [regrant, takeNear_quiet hs]
  exact modChain_relinked ..

theorem settle_relinked (ci : Nat) (s : State) : s.relinked (settle ci s) := modChain_relinked ..

/-! ### The release of a chain (R218) -/

theorem unbindPeer_relinked (ci l : Nat) (s : State) : s.relinked (unbindPeer ci s l) := by
  unfold unbindPeer
  exact (deliverAll_relinked ci l s).trans (modPeer_relinked ..)

/-- The handle freed and its ports given back. -/
def State.withoutChain (s : State) (ci sid : Nat) : State :=
  { modChain ci (fun _ => .free) s with
    cores := s.cores.map fun k => { k with portHolder := k.portHolder.filter fun x => !(x.2.1 == sid && x.2.2 == ci) } }

/-- Where no choice is pending no peer is told at once: every peer loses the chain, and the handle is free. -/
theorem dropChain_quiet {s : State} (hs : s.choices = []) (ci : Nat) : dropChain ci s =
    ((rangeFrom 0 (s.hart.chain ci).links.length).foldl (unbindPeer ci) s).withoutChain ci s.hart.sid := by
  simp only [dropChain, takePrompt, hs]
  rfl

theorem dropChain_relinked {s : State} (hs : s.choices = []) (ci : Nat) : s.relinked (dropChain ci s) := by
  rw [dropChain_quiet hs]
  have hpeers := foldl_relinked (rangeFrom 0 (s.hart.chain ci).links.length) (fun l u => unbindPeer_relinked ci l u) s
  exact hpeers.trans ⟨rfl, rfl, List.forall₂_same.mpr fun _ _ => rfl⟩

/-! ### A chain put in place (R220, R222) -/

theorem bindLinks_relinked (ci : Nat) (s : State) : s.relinked (bindLinks ci s) := by
  unfold bindLinks
  refine foldl_relinked _ (fun l u => ?_) s
  split
  · exact u.relinked_self
  · split
    · exact u.relinked_self
    · exact (modChain_relinked ..).trans (modStrand_relinked _ (fun h => h.putChain_rechained ..) _)

/-- The package with another strand h of number sid in the running strand's place. -/
def State.exchanged (s : State) (sid : Nat) (h : Strand) : State :=
  { s with hart := h, parked := s.hart :: s.parked.filter fun k => k.sid != sid }

/-- What is done in another strand's place is done there, and the running strand comes back. -/
theorem asStrand_other {f : State → State} {s : State} {sid : Nat} {h : Strand} (hs : s.hart.sid ≠ sid)
    (hfind : s.parked.find? (fun k => k.sid == sid) = some h) (hf : (s.exchanged sid h).relinked (f (s.exchanged sid h))) :
    ∃ me, s.hart.rechained me ∧ asStrand sid f s = { f (s.exchanged sid h) with
      hart := me, parked := (f (s.exchanged sid h)).hart :: (f (s.exchanged sid h)).parked.filter fun k => k.sid != s.hart.sid } := by
  obtain ⟨me, rest, hme, -, hlist⟩ := List.forall₂_cons_left_iff.mp hf.parked
  have hback : (f (s.exchanged sid h)).parked.find? (fun k => k.sid == s.hart.sid) = some me := by
    rw [hlist, List.find?_cons_of_pos]
    simpa using hme.sid_eq
  refine ⟨me, hme, ?_⟩
  simp only [asStrand, if_neg hs, hfind]
  rw [State.exchanged] at hback
  rw [hback]
  rfl

theorem asStrand_hart {f : State → State} (hf : ∀ s : State, s.relinked (f s)) (sid : Nat) (s : State) :
    s.hart.rechained (asStrand sid f s).hart := by
  by_cases hs : s.hart.sid = sid
  · rw [asStrand, if_pos hs]
    exact (hf s).hart
  · cases hfind : s.parked.find? fun k => k.sid == sid with
    | none =>
      rw [asStrand, if_neg hs, hfind]
      exact s.hart.rechained_self
    | some h =>
      obtain ⟨me, hme, heq⟩ := asStrand_other hs hfind (hf _)
      rw [heq]
      exact hme

theorem cutMismatched_hart (ci : Nat) (s : State) : s.hart.rechained (cutMismatched ci s).hart := by
  have hfold {α : Type} {f : State → α → State} (as : List α) (step : ∀ a u, u.hart.rechained (f u a).hart) (u : State) :
      u.hart.rechained (as.foldl f u).hart :=
    foldl_related (R := fun s u : State => s.hart.rechained u.hart) (fun u => u.hart.rechained_self) Strand.rechained.trans as
      (fun a _ u => step a u) u
  refine hfold _ (fun h u => hfold _ (fun p u => hfold _ (fun l u => ?_) u) u) s
  split
  · exact u.hart.rechained_self
  · split
    · exact asStrand_hart (cutTrap_relinked p 4 31 (BitVec.ofNat 64 l)) h.sid u
    · exact u.hart.rechained_self

theorem installChain_hart (ci : Nat) (c : Chain) (s : State) : s.hart.rechained (installChain ci c s).hart := by
  have hput : s.hart.rechained (s.hart.putChain ci c) := rfl
  exact (hput.trans (bindLinks_relinked ci { s with hart := s.hart.putChain ci c }).hart).trans (cutMismatched_hart ..)

theorem configure_hart {s : State} (hs : s.choices = []) (ci : Nat) (raw : List Byte) : s.hart.rechained (configure ci raw s).hart := by
  have hdrop := (dropChain_relinked hs ci).hart
  unfold configure
  dsimp only
  split
  · exact hdrop.trans (modChain_relinked ..).hart
  · rw [takeNear_quiet ((dropChain_relinked hs ci).choices_eq.trans hs)]
    exact (hdrop.trans (takePorts_relinked ..).hart).trans (installChain_hart ..)

end Sys2Proof.Machine
end

section
/-!
PROOF. O50, the instructions on handles: chcfg, chrun, chbrk, chres, chfree and chstat (R216 to R219, R222, R225).
-/
namespace Sys2Proof.Machine

/-- A meaning that ends without a hit completes in the state that it reaches. -/
theorem completes_as_left {i : Instr} {body : M Unit} {s t : State} (he : s.hart.estep = false) (hb : body s = .ok () t)
    (hh : t.hart.hit = none) : runInstr i body s = .next (t.completes t.hart) := by
  rw [runInstr_ok hb, retire_completes he hh]

/-! ### Structures (R218) -/

/-- One word of a structure read. -/
def State.wordRead (a : Nat) (pa : Nat → Nat) (t : State) (i : Nat) : State :=
  (t.walked ((a + 8 * i) % 2 ^ 64) none).withoutLines (pa i) 8

/-- A structure that the strand reaches word by word is read as its own loads see it. -/
theorem readStruct_ok {s : State} {a n : Nat} {pa : Nat → Nat} (hc : s.calm = true) (hr : s.readsStruct a n pa) :
    readStruct a n s = .ok (s.structBytes n pa) (s.withoutStruct a n pa) := by
  obtain ⟨hhit, hw, hs, -⟩ := (calm_iff s).mp hc
  obtain ⟨hal, hwords⟩ := hr
  have hloop (is : List Nat) (his : ∀ i ∈ is, i < n / 8) (u : State) (hu : s.reading u) :
      mapEach is (fun i => atElem 0 (do
        let va := (a + 8 * i) % 2 ^ 64
        let p ← translateIdem .load va
        let bs ← ownBytes p 8 va
        dropDcache p 8
        noteAccess false va 8
        return bs)) u = .ok (is.map fun i => toBytes 8 (s.ownValue (pa i) 8)) (is.foldl (State.wordRead a pa) u) := by
    induction is generalizing u with
    | nil => rfl
    | cons i is ih =>
      obtain ⟨hreach, hgood⟩ := hwords i (his i (List.mem_cons_self ..))
      have hwalked : s.reading (u.walked ((a + 8 * i) % 2 ^ 64) none) := hu.trans (u.reading_filter _)
      have hnext : s.reading (u.wordRead a pa i) := hwalked.trans (State.reading_filter _ _)
      have htrans := translateIdem_ok (s := u) (by rw [hu.1]; exact hs) (by rw [hu.1]; exact hreach)
      have hbytes := ownBytes_good ((hwalked.ownGood_eq (pa i) 8).trans hgood) ((a + 8 * i) % 2 ^ 64)
      rw [← toBytes_ownValue, hwalked.ownValue_eq] at hbytes
      have hdrop : dropDcache (pa i) 8 (u.walked ((a + 8 * i) % 2 ^ 64) none) = .ok () (u.wordRead a pa i) := rfl
      have hnote := noteAccess_unwatched (s := u.wordRead a pa i) (by rw [hnext.hart_eq]; exact hw) false ((a + 8 * i) % 2 ^ 64) 8
      refine mapEach_cons (atElem_ok ?_ (by rw [hnext.hart_eq]; exact hhit)) (ih (fun j hj => his j (List.mem_cons_of_mem _ hj)) _ hnext)
      simp only [run_bind, htrans, hbytes, hdrop, hnote, run_pure]
  have hrun := hloop (rangeFrom 0 (n / 8)) (fun i hi => by simpa using (mem_rangeFrom.mp hi).2) s s.reading_self
  simp only [readStruct, run_bind, if_neg (not_not_intro hal), hrun, run_pure]
  rfl

/-- Reading a structure changes nothing but the data cache. -/
theorem State.reading_withoutStruct (s : State) (a n : Nat) (pa : Nat → Nat) : s.reading (s.withoutStruct a n pa) :=
  foldl_related State.reading_self State.reading.trans _ (fun _ _ u => (u.reading_filter _).trans (State.reading_filter _ _)) s

theorem State.reading.calm_eq {s u : State} (h : s.reading u) : u.calm = s.calm := by rw [h.1]; rfl

theorem State.reading.readsStruct {s u : State} (h : s.reading u) {a n : Nat} {pa : Nat → Nat} (hr : s.readsStruct a n pa) :
    u.readsStruct a n pa := by
  rw [h.1]
  exact hr

theorem State.reading.structBytes_eq {s u : State} (h : s.reading u) (n : Nat) (pa : Nat → Nat) :
    u.structBytes n pa = s.structBytes n pa := by
  rw [h.1]
  rfl

/-! ### Handles in use (R216) -/

theorem needIdle_ok {s : State} {c : BitVec 2} {broken : Bool} (hr : (s.hart.chain c.toNat).state ≠ .running)
    (hb : broken = true → (s.hart.chain c.toNat).state ≠ .broken) : needIdle c broken s = .ok () s := by
  have hidle : ((s.hart.chain c.toNat).state != .running && !(broken && (s.hart.chain c.toNat).state == .broken)) = true := by
    cases broken <;> simp_all
  simp only [needIdle, run_bind, run_getH, need_true hidle]

theorem needIdle_busy {s : State} {c : BitVec 2} (h : (s.hart.chain c.toNat).state = .running ∨ (s.hart.chain c.toNat).state = .broken) :
    needIdle c true s = .error (.bits 24) s := by
  have hbusy : ((s.hart.chain c.toNat).state != .running && !(true && (s.hart.chain c.toNat).state == .broken)) = false := by
    rcases h with h | h <;> rw [h] <;> rfl
  simp only [needIdle, run_bind, run_getH, need, hbusy, Bool.false_eq_true, if_false, run_shapeFault]

/-! ### How a run begins (R216, R217) -/

/-- A run that does not begin leaves its status with the handle. -/
def State.answered (s : State) (ci : Nat) (w : Word) : State := modChain ci (fun k => { k with last := some w }) s

/-- The state in which a chain begins or resumes its run: the strip is committed, and lane slices may be in use. -/
def State.resumed (s : State) (ci : Nat) : State := s.committed.withHart (markSliced ci s.committed.hart)

/-- A READY chain as its run begins with a quota. -/
def Chain.started (k : Chain) (quota : Nat) : Chain :=
  { k with state := .running, cause := 0, quota := quota, stages := k.stages.map fun t => { t with inRun := 0 } }

theorem markSliced_hit (ci : Nat) (h : Strand) : (markSliced ci h).hit = h.hit := by
  unfold markSliced
  split <;> rfl

/-- What chrun does once the handle is neither running nor BROKEN. -/
def runBody (ci n : Nat) (k : Chain) (quotaBad : Bool) : M Unit :=
  let last (w : Word) : M Unit := modify (modChain ci fun k => { k with last := some w })
  if k.state = .free then last (chainWord 7 0 17)
  else if k.state = .rejected then last (chainWord 7 0 k.reject)
  else if n = 0 then last (chainWord 0 0 0)
  else if 2 ^ 48 < n ∨ quotaBad = true then last (chainWord 7 0 16)
  else do
    endRewind
    modH (markSliced ci)
    modify (modChain ci fun k => k.started n)
    modify (settle ci)

section
variable {c : BitVec 2} {rs2 rs1 rd : BitVec 5} {s : State} (hc : s.calm = true) (hv : s.hart.mayVector = true)

/-- A handle that runs or is BROKEN refuses chcfg and chrun. -/
theorem chain_busy (hv : s.hart.mayVector = true)
    (h : (s.hart.chain c.toNat).state = .running ∨ (s.hart.chain c.toNat).state = .broken) :
    ∀ i ∈ [Instr.chcfg rs1 c, .chrun rs1 c], exec i s = .next (s.checkFault 24 i) := by
  have hrefused {i : Instr} {body : M Unit} (hb : body s = .error (.bits 24) s) : runInstr i body s = .next (s.checkFault 24 i) :=
    runInstr_bits hb (by decide)
  have hboth : exec (.chcfg rs1 c) s = .next (s.checkFault 24 (.chcfg rs1 c)) ∧
      exec (.chrun rs1 c) s = .next (s.checkFault 24 (.chrun rs1 c)) :=
    ⟨hrefused (by simp only [run_bind, vecGate_ok hv, needIdle_busy h]), hrefused (by simp only [run_bind, vecGate_ok hv, needIdle_busy h])⟩
  simpa using hboth

/-- What chfree does, whatever choices are pending. -/
theorem chfree_body (hv : s.hart.mayVector = true) :
    (do vecGate
        let ci := c.toNat
        if ((← getH).chain ci).state ≠ .free then
          modify fun s => dropChain ci (if (s.hart.chain ci).state = .running then requestCut ci s else s) : M Unit) s =
      .ok () (if (s.hart.chain c.toNat).state = .free then s
        else dropChain c.toNat (if (s.hart.chain c.toNat).state = .running then requestCut c.toNat s else s)) := by
  simp only [run_bind, vecGate_ok hv, run_getH, run_ite, run_modify, run_pure, ite_not]
  split <;> rfl

include hc hv

/-! ### chcfg (R216, R218) -/

section
variable {pa : Nat → Nat} (hr : (s.hart.chain c.toNat).state ≠ .running) (hb : (s.hart.chain c.toNat).state ≠ .broken)
  (hhead : s.readsStruct (s.hart.rx rs1).toNat 16 pa)
include hr hb hhead

/-- Of a record whose header is not valid the header alone is read. -/
theorem chcfg_invalid (hi : headerValid (s.structBytes 16 pa) = false) :
    let t := configure c.toNat (s.structBytes 16 pa) (s.withoutStruct (s.hart.rx rs1).toNat 16 pa)
    exec (.chcfg rs1 c) s = .next (t.completes t.hart) := by
  obtain ⟨hhit, -, hs, -, -, hstep⟩ := (calm_iff s).mp hc
  have hread := s.reading_withoutStruct (s.hart.rx rs1).toNat 16 pa
  refine completes_as_left hstep ?_ ((configure_hart (by rw [hread.1]; exact hs) ..).hit_eq.trans (by rw [hread.hart_eq]; exact hhit))
  simp only [run_bind, vecGate_ok hv, needIdle_ok hr fun _ => hb, readX, run_getH, run_pure, readStruct_ok hc hhead, hi,
    Bool.false_eq_true, if_false, run_modify]

/-- Of any other the whole record. -/
theorem chcfg_valid (hi : headerValid (s.structBytes 16 pa) = true)
    (hrec : s.readsStruct (s.hart.rx rs1).toNat (recordLength (s.structBytes 16 pa)) pa) :
    let n := recordLength (s.structBytes 16 pa)
    let t := configure c.toNat (s.structBytes n pa)
      ((s.withoutStruct (s.hart.rx rs1).toNat 16 pa).withoutStruct (s.hart.rx rs1).toNat n pa)
    exec (.chcfg rs1 c) s = .next (t.completes t.hart) := by
  obtain ⟨hhit, -, hs, -, -, hstep⟩ := (calm_iff s).mp hc
  have hread := s.reading_withoutStruct (s.hart.rx rs1).toNat 16 pa
  have hread' := hread.trans (State.reading_withoutStruct _ (s.hart.rx rs1).toNat (recordLength (s.structBytes 16 pa)) pa)
  have hbody := readStruct_ok (hread.calm_eq.trans hc) (hread.readsStruct hrec)
  rw [hread.structBytes_eq] at hbody
  refine completes_as_left hstep ?_ ((configure_hart (by rw [hread'.1]; exact hs) ..).hit_eq.trans (by rw [hread'.hart_eq]; exact hhit))
  simp only [run_bind, vecGate_ok hv, needIdle_ok hr fun _ => hb, readX, run_getH, run_pure, readStruct_ok hc hhead, hi,
    if_true, hbody, run_modify]

end

/-! ### chrun (R216, R217, R219) -/

section
variable (hr : (s.hart.chain c.toNat).state ≠ .running) (hb : (s.hart.chain c.toNat).state ≠ .broken)
include hr hb

theorem chrun_body {t : State} (hbody : runBody c.toNat (s.hart.rx rs1).toNat (s.hart.chain c.toNat)
      (quotaBreaks s.hart (s.hart.chain c.toNat) (s.hart.rx rs1).toNat) s = .ok () t) (hh : t.hart.hit = none) :
    exec (.chrun rs1 c) s = .next (t.completes t.hart) := by
  obtain ⟨-, -, -, -, -, hstep⟩ := (calm_iff s).mp hc
  refine completes_as_left hstep ?_ hh
  simp only [run_bind, vecGate_ok hv, needIdle_ok hr fun _ => hb, run_getH]
  exact hbody

theorem chrun_answers {w : Word} (hbody : runBody c.toNat (s.hart.rx rs1).toNat (s.hart.chain c.toNat)
      (quotaBreaks s.hart (s.hart.chain c.toNat) (s.hart.rx rs1).toNat) s = .ok () (s.answered c.toNat w)) :
    exec (.chrun rs1 c) s = .next ((s.answered c.toNat w).completes (s.answered c.toNat w).hart) :=
  chrun_body hc hv hr hb hbody ((calm_iff s).mp hc).1

end

theorem chrun_free (h : (s.hart.chain c.toNat).state = .free) :
    let t := s.answered c.toNat (chainWord 7 0 17)
    exec (.chrun rs1 c) s = .next (t.completes t.hart) :=
  chrun_answers hc hv (by rw [h]; decide) (by rw [h]; decide) (by simp only [runBody, h, if_true]; rfl)

theorem chrun_rejected (h : (s.hart.chain c.toNat).state = .rejected) :
    let t := s.answered c.toNat (chainWord 7 0 (s.hart.chain c.toNat).reject)
    exec (.chrun rs1 c) s = .next (t.completes t.hart) :=
  chrun_answers hc hv (by rw [h]; decide) (by rw [h]; decide) (by simp only [runBody, h, reduceCtorEq, if_false, if_true]; rfl)

section
variable (h : (s.hart.chain c.toNat).state = .ready)
include h

theorem chrun_none (h0 : (s.hart.rx rs1).toNat = 0) :
    let t := s.answered c.toNat (chainWord 0 0 0)
    exec (.chrun rs1 c) s = .next (t.completes t.hart) :=
  chrun_answers hc hv (by rw [h]; decide) (by rw [h]; decide) (by simp only [runBody, h, h0, reduceCtorEq, if_false, if_true]; rfl)

theorem chrun_quota (h0 : 0 < (s.hart.rx rs1).toNat)
    (hq : 2 ^ 48 < (s.hart.rx rs1).toNat ∨ quotaBreaks s.hart (s.hart.chain c.toNat) (s.hart.rx rs1).toNat = true) :
    let t := s.answered c.toNat (chainWord 7 0 16)
    exec (.chrun rs1 c) s = .next (t.completes t.hart) :=
  chrun_answers hc hv (by rw [h]; decide) (by rw [h]; decide)
    (by simp only [runBody, h, reduceCtorEq, if_neg h0.ne', if_pos hq, if_false]; rfl)

/-- A READY chain starts with its quota, after a commit. -/
theorem chrun_starts (h0 : 0 < (s.hart.rx rs1).toNat) (hmax : (s.hart.rx rs1).toNat ≤ 2 ^ 48)
    (hq : quotaBreaks s.hart (s.hart.chain c.toNat) (s.hart.rx rs1).toNat = false) :
    let t := settle c.toNat (modChain c.toNat (fun k => k.started (s.hart.rx rs1).toNat) (s.resumed c.toNat))
    exec (.chrun rs1 c) s = .next (t.completes t.hart) := by
  obtain ⟨hhit, -, -, -, hbad, -⟩ := (calm_iff s).mp hc
  have hfits : ¬ (2 ^ 48 < (s.hart.rx rs1).toNat ∨ quotaBreaks s.hart (s.hart.chain c.toNat) (s.hart.rx rs1).toNat = true) := by
    rw [hq]
    simpa using hmax
  have hkept : (s.resumed c.toNat).hart.hit = none :=
    (markSliced_hit ..).trans ((committed_storing s).hit_eq.trans hhit)
  refine chrun_body hc hv (by rw [h]; decide) (by rw [h]; decide) ?_
    (((modChain_relinked ..).trans (settle_relinked ..)).hart.hit_eq.trans hkept)
  simp only [runBody, h, reduceCtorEq, if_neg h0.ne', if_neg hfits, if_false, run_bind, endRewind_ok hbad, run_modH, run_modify]
  rfl

end

/-! ### chbrk, chres, chfree and chstat (R218, R219, R225) -/

/-- chbrk cuts a chain that runs. -/
theorem chbrk_cuts :
    let t := if (s.hart.chain c.toNat).state = .running then requestCut c.toNat s else s
    exec (.chbrk c) s = .next (t.completes t.hart) := by
  obtain ⟨hhit, -, -, -, -, hstep⟩ := (calm_iff s).mp hc
  intro t
  have ht : s.relinked t := by
    unfold t
    split
    · exact requestCut_relinked ..
    · exact s.relinked_self
  refine completes_as_left hstep ?_ (ht.hart.hit_eq.trans hhit)
  simp only [run_bind, vecGate_ok hv, run_getH, run_ite, run_modify, run_pure, t]
  split <;> rfl

/-- chres gives a BROKEN chain its grant afresh and runs it. -/
theorem chres_resumes :
    let t := if (s.hart.chain c.toNat).state = .broken then settle c.toNat (modChain c.toNat
      (fun k => { k with state := .running, cause := 0 }) (regrant c.toNat (s.resumed c.toNat))) else s
    exec (.chres c) s = .next (t.completes t.hart) := by
  obtain ⟨hhit, -, hs, -, hbad, hstep⟩ := (calm_iff s).mp hc
  intro t
  have hkeptc : (s.resumed c.toNat).choices = [] := (committed_written s).choices_eq.trans hs
  have hkept : (s.resumed c.toNat).hart.hit = none := (markSliced_hit ..).trans ((committed_storing s).hit_eq.trans hhit)
  have ht : t.hart.hit = none := by
    unfold t
    split
    · exact (((regrant_relinked hkeptc _).trans (modChain_relinked ..)).trans (settle_relinked ..)).hart.hit_eq.trans hkept
    · exact hhit
  refine completes_as_left hstep ?_ ht
  simp only [run_bind, vecGate_ok hv, run_getH, run_ite, run_pure, endRewind_ok hbad, run_modH, run_modify, t]
  split <;> rfl

/-- chfree cuts a chain that runs, and releases any. -/
theorem chfree_releases :
    let t := if (s.hart.chain c.toNat).state = .free then s
      else dropChain c.toNat (if (s.hart.chain c.toNat).state = .running then requestCut c.toNat s else s)
    exec (.chfree c) s = .next (t.completes t.hart) := by
  obtain ⟨hhit, -, hs, -, -, hstep⟩ := (calm_iff s).mp hc
  intro t
  have ht : s.relinked t := by
    unfold t
    split
    · exact s.relinked_self
    · split
      · have hcut := requestCut_relinked c.toNat s
        exact hcut.trans (dropChain_relinked (hcut.choices_eq.trans hs) _)
      · exact dropChain_relinked hs _
  exact completes_as_left hstep (chfree_body hv) (ht.hart.hit_eq.trans hhit)

/-- chstat reads. -/
theorem chstat_reads :
    exec (.chstat rs2 c rd) s = .next (s.completes (s.hart.wx rd (chstatValue s c.toNat (s.hart.rx rs2).toNat))) := by
  obtain ⟨hhit, -, -, -, -, hstep⟩ := (calm_iff s).mp hc
  refine completes_of_ok hstep ?_ ((Strand.wx_hit ..).trans hhit)
  simp only [run_bind, vecGate_ok hv, run_get, writeX, run_modH]

end

end Sys2Proof.Machine
end

section
/-!
PROOF. O50, chfree of a chain whose peer runs: the notice of a freed peer, and the cut that it makes at once where a choice says so
(R218, R222).
-/
namespace Sys2Proof.Machine

/-! ### Handles, links and strands after a change -/

@[simp] theorem Strand.chain_putChain (h : Strand) (ci : Nat) (c : Chain) : (h.putChain ci c).chain ci = c :=
  Vector.getElem_set_self ..

@[simp] theorem modChain_chain (ci : Nat) (f : Chain → Chain) (s : State) : (modChain ci f s).hart.chain ci = f (s.hart.chain ci) :=
  Strand.chain_putChain ..

theorem Chain.link_modLink {c : Chain} {j : Nat} (hj : j < c.links.length) (f : LinkSt → LinkSt) : (c.modLink j f).link j = f (c.link j) := by
  simp [Chain.modLink, Chain.link, nth, hj]

@[simp] theorem Chain.length_modLink (c : Chain) (j : Nat) (f : LinkSt → LinkSt) : (c.modLink j f).links.length = c.links.length :=
  List.length_set

/-- The chain at the far end of a link is the strand's own where its claim image holds none of that number. -/
theorem Strand.modFar_own {h : Strand} {p : Nat} (hk : h.kept.length ≤ p) (f : Chain → Chain) :
    h.modFar p f = h.putChain p (f (h.chain p)) := if_neg (Nat.not_lt.mpr hk)

section
variable {s : State} {sid : Nat} (hs : s.hart.sid ≠ sid)
include hs

theorem findStrand_parked : findStrand s sid = s.parked.find? fun h => h.sid == sid := if_neg hs

/-- A strand after a change of it, by its number. -/
theorem findStrand_modStrand {f : Strand} (hf : findStrand s sid = some f) {F : Strand → Strand} (hF : ∀ h : Strand, h.rechained (F h)) :
    findStrand (modStrand sid F s) sid = some (F f) := by
  rw [findStrand_parked hs] at hf
  have hkeep : (fun h : Strand => h.sid == sid) ∘ (fun h : Strand => if h.sid = sid then F h else h) = fun h => h.sid == sid := by
    funext h
    simp only [Function.comp]
    split
    · rw [(hF h).sid_eq]
    · rfl
  have hsid : f.sid = sid := by simpa using List.find?_some hf
  rw [modStrand, if_neg hs]
  refine (if_neg hs).trans ?_
  rw [List.find?_map, hkeep, hf, Option.map_some, if_pos hsid]

theorem findStrand_modChain (ci : Nat) (F : Chain → Chain) : findStrand (modChain ci F s) sid = findStrand s sid :=
  (findStrand_parked (s := modChain ci F s) hs).trans (findStrand_parked hs).symm

theorem findStrand_withoutChain (ci n : Nat) : findStrand (s.withoutChain ci n) sid = findStrand s sid :=
  (findStrand_parked (s := s.withoutChain ci n) hs).trans (findStrand_parked hs).symm

/-- A change through a link of the chain at its far end, where that is another strand's own. -/
theorem findStrand_modPeer {ci l p j : Nat} {f : Strand} (hp : ((s.hart.chain ci).link l).peer = some (sid, p, j))
    (hf : findStrand s sid = some f) (hk : f.kept.length ≤ p) (F : Chain → LinkSt → LinkSt) :
    findStrand (modPeer ci l F s) sid = some (f.putChain p ((f.chain p).modLink j (F (f.chain p)))) := by
  simp only [modPeer, hp]
  rw [findStrand_modStrand hs hf fun h => h.modFar_rechained .., Strand.modFar_own hk]

theorem modPeer_hart {ci l p j : Nat} (hp : ((s.hart.chain ci).link l).peer = some (sid, p, j)) (F : Chain → LinkSt → LinkSt) :
    (modPeer ci l F s).hart = s.hart := by
  simp only [modPeer, hp, modStrand, if_neg hs]

end

/-! ### The notice -/

/-- A link to which elements on their way have arrived: in its receive buffer, or beside it while its chain stands in an image. -/
def LinkSt.arrived (away : Bool) (w : List (ETag × Word × Bool)) (x : LinkSt) : LinkSt :=
  if away then { x with late := x.late ++ w } else { x with rx := w.foldl slotPut x.rx }

theorem deliverAll_eq (ci l : Nat) (s : State) : deliverAll ci l s = modChain ci (fun c => c.modLink l fun x => { x with wire := [] })
    (modPeer ci l (fun _ => LinkSt.arrived (peerAway s ci l) ((s.hart.chain ci).link l).wire) s) := rfl

section
variable {s : State} {ci sid p j : Nat} {l : LinkSt} {f : Strand} (hs : s.hart.sid ≠ sid)
  (hl : (s.hart.chain ci).links = [l]) (hp : l.peer = some (sid, p, j)) (hf : findStrand s sid = some f) (hk : f.kept.length ≤ p)
  (hr : (f.chain p).runs = true) (hj : j < (f.chain p).links.length) (hm : ((f.chain p).link j).marks = [])
include hs hl hp hf hk

/-- What was sent on a chain's one link arrives at the peer. -/
theorem deliverAll_peer : ∃ x : LinkSt → LinkSt, (∀ y, (x y).marks = y.marks) ∧
    findStrand (deliverAll ci 0 s) sid = some (f.putChain p ((f.chain p).modLink j x)) ∧
    (((deliverAll ci 0 s).hart.chain ci).link 0).peer = some (sid, p, j) ∧ (deliverAll ci 0 s).hart.sid = s.hart.sid := by
  have hlink : (s.hart.chain ci).link 0 = l := by rw [Chain.link, hl]; rfl
  have hpeer : ((s.hart.chain ci).link 0).peer = some (sid, p, j) := by rw [hlink, hp]
  refine ⟨LinkSt.arrived (peerAway s ci 0) ((s.hart.chain ci).link 0).wire, fun y => ?_, ?_, ?_, (deliverAll_relinked ci 0 s).hart.sid_eq⟩
  · unfold LinkSt.arrived
    split <;> rfl
  · rw [deliverAll_eq, findStrand_modChain (s := modPeer ..) (by rw [modPeer_hart hs hpeer]; exact hs), findStrand_modPeer hs hpeer hf hk]
  · rw [deliverAll_eq, modChain_chain, modPeer_hart hs hpeer, Chain.link_modLink (by rw [hl]; exact Nat.one_pos)]
    exact hpeer

include hr hj hm

/-- The peer that runs has lost its link, and the notice stands among the link's markers. -/
theorem unbindPeer_notices : ∃ g, findStrand (unbindPeer ci s 0) sid = some g ∧ g.kept.length ≤ p ∧ (g.chain p).runs = true ∧
    j < (g.chain p).links.length ∧ ((g.chain p).link j).marks = [freedMark] ∧ ((g.chain p).link j).peer = none := by
  obtain ⟨x, hx, hfound, hpeer, hsid⟩ := deliverAll_peer hs hl hp hf hk
  have hj' : j < ((f.chain p).modLink j x).links.length := by rwa [Chain.length_modLink]
  have hstate : ((f.chain p).modLink j x).state = .running := by
    simp only [Chain.runs, Bool.and_eq_true, beq_iff_eq] at hr
    exact hr.1
  unfold unbindPeer
  refine ⟨_, findStrand_modPeer (hsid ▸ hs) hpeer hfound hk _, hk, ?_, ?_, ?_, ?_⟩
  all_goals rw [Strand.chain_putChain, Strand.chain_putChain]
  · exact hr
  · rwa [Chain.length_modLink]
  · rw [Chain.link_modLink hj', if_pos hstate, Chain.link_modLink hj, hx, hm]
    rfl
  · rw [Chain.link_modLink hj']

/-- So it is once the chain is released. -/
theorem dropChain_notices (hch : s.choices = []) : ∃ g, findStrand (dropChain ci s) sid = some g ∧ (g.chain p).runs = true ∧
    j < (g.chain p).links.length ∧ ((g.chain p).link j).marks = [freedMark] ∧ ((g.chain p).link j).peer = none := by
  obtain ⟨g, hfound, -, hg⟩ := unbindPeer_notices hs hl hp hf hk hr hj hm
  have hone : (rangeFrom 0 [l].length).foldl (unbindPeer ci) s = unbindPeer ci s 0 := by
    rw [List.length_singleton, rangeFrom, rangeFrom, List.foldl_cons, List.foldl_nil]
  have hsid : (unbindPeer ci s 0).hart.sid ≠ sid := by rwa [(unbindPeer_relinked ci 0 s).hart.sid_eq]
  refine ⟨g, ?_, hg⟩
  rw [dropChain_quiet hch, hl, hone, findStrand_withoutChain hsid]
  exact hfound

omit hs hj hm in
/-- Where the choice says so the notice is received at once. -/
theorem dropChain_prompt (hch : s.choices = []) :
    dropChain ci (s.choosing [.held]) = asStrand sid (markersIn true p j) (dropChain ci s) := by
  have hpeers : runningPeers ci s = [(sid, p, j)] := by
    simp [runningPeers, hl, hp, hf, hr, Nat.not_lt.mpr hk]
  have hself : (s.choosing [.held]).choosing [] = s := choosing_self hch _
  have htake : takePrompt ci (s.choosing [.held]) = (true, s) := by
    show (if (runningPeers ci s).isEmpty then _ else (true, (s.choosing [.held]).choosing [])) = _
    rw [hpeers, hself]
    rfl
  rw [dropChain_quiet hch]
  simp only [dropChain, htake, if_true, hpeers]
  rfl

end

/-! ### The cut -/

theorem Chain.withoutAhead_state (c : Chain) : c.withoutAhead.state = c.state := rfl

/-- A chain that runs and is cut by a trap is BROKEN with its cause. -/
theorem cutTrap_breaks {s : State} {ci own : Nat} (hr : (s.hart.chain ci).runs = true) (ho : own ≠ 7) (trap : Nat) (tval : Word) :
    ((cutTrap ci own trap tval s).hart.chain ci).state = .broken ∧ ((cutTrap ci own trap tval s).hart.chain ci).cause = own := by
  have hcut : (cutTrap ci own trap tval s).hart.chain ci = (cutChain ci own own none s).hart.chain ci := by
    rw [cutTrap, if_pos hr]
    rfl
  have hgo : ¬ (!(s.hart.chain ci).runs) = true := by simp [hr]
  rw [hcut, cutChain, if_neg hgo]
  dsimp only
  rw [modChain_chain, Chain.cutState]
  exact ⟨if_neg ho, rfl⟩

/-- The only marker on a link being the notice of a freed peer, the chain takes it. -/
theorem markersIn_freed {s : State} {ci l : Nat} (hm : ((s.hart.chain ci).link l).marks = [freedMark]) :
    markersIn true ci l s = cutTrap ci 4 31 (BitVec.ofNat 64 l) (modChain ci (fun c => c.modLink l fun x => { x with await := false })
      (modChain ci (fun c => c.modLink l fun x => { x with marks := [] }) s)) := by
  simp only [markersIn, hm, if_true]
  rfl

/-- A strand's chain that runs, told of its freed peer in the running strand's place, is cut with LINK. -/
theorem asStrand_freed {s : State} {sid p j : Nat} {g : Strand} (hs : s.hart.sid ≠ sid) (hf : findStrand s sid = some g)
    (hr : (g.chain p).runs = true) (hm : ((g.chain p).link j).marks = [freedMark]) :
    s.hart.rechained (asStrand sid (markersIn true p j) s).hart ∧ ∃ e, findStrand (asStrand sid (markersIn true p j) s) sid = some e ∧
      (e.chain p).state = .broken ∧ (e.chain p).cause = 4 := by
  rw [findStrand_parked hs] at hf
  have hsid : g.sid = sid := by simpa using List.find?_some hf
  have hmark := markersIn_freed (s := s.exchanged sid g) (ci := p) (l := j) hm
  have hrel : (s.exchanged sid g).relinked (markersIn true p j (s.exchanged sid g)) := by
    rw [hmark]
    exact ((modChain_relinked ..).trans (modChain_relinked ..)).trans (cutTrap_relinked ..)
  obtain ⟨me, hme, heq⟩ := asStrand_other hs hf hrel
  have hbroken := cutTrap_breaks (s := modChain p (fun c => c.modLink j fun x => { x with await := false })
    (modChain p (fun c => c.modLink j fun x => { x with marks := [] }) (s.exchanged sid g))) (ci := p) (own := 4)
    (by rw [modChain_chain, modChain_chain]; exact hr) (by decide) 31 (BitVec.ofNat 64 j)
  rw [← hmark] at hbroken
  rw [heq]
  refine ⟨hme, _, ?_, hbroken⟩
  have hback : me.sid ≠ sid := by rwa [hme.sid_eq]
  have hfront : (markersIn true p j (s.exchanged sid g)).hart.sid = sid := hrel.hart.sid_eq.trans hsid
  rw [findStrand_parked hback, List.find?_cons_of_pos (by simpa using hfront)]

/-- chfree of a chain whose one peer runs gives the peer its notice, and cuts it at once where the choice says so. -/
theorem chfree_notices {c : BitVec 2} {s : State} (hc : s.calm = true) (hv : s.hart.mayVector = true) {l : LinkSt} {sid p j : Nat}
    {f : Strand} (hready : (s.hart.chain c.toNat).state = .ready) (hl : (s.hart.chain c.toNat).links = [l])
    (hp : l.peer = some (sid, p, j)) (hs : sid ≠ s.hart.sid) (hf : findStrand s sid = some f) (hk : f.kept.length ≤ p)
    (hr : (f.chain p).runs = true) (hj : j < (f.chain p).links.length) (hm : ((f.chain p).link j).marks = []) :
    (∃ t g, exec (.chfree c) s = .next t ∧ findStrand t sid = some g ∧ (g.chain p).state = .running ∧
      ((g.chain p).link j).marks = [freedMark] ∧ ((g.chain p).link j).peer = none) ∧
    ∃ t g, exec (.chfree c) { s with choices := [.held] } = .next t ∧ findStrand t sid = some g ∧ (g.chain p).state = .broken ∧
      (g.chain p).cause = 4 := by
  obtain ⟨hhit, -, hch, -, -, hstep⟩ := (calm_iff s).mp hc
  have hdrop := dropChain_relinked hch c.toNat
  have hsid : (dropChain c.toNat s).hart.sid ≠ sid := by rw [hdrop.hart.sid_eq]; exact hs.symm
  obtain ⟨g, hfound, hruns, -, hmarks, hpeer⟩ := dropChain_notices hs.symm hl hp hf hk hr hj hm hch
  have hcompleted {t : State} {e : Strand} (ht : t.hart.sid ≠ sid) (he : findStrand t sid = some e) :
      findStrand (t.completes t.hart) sid = some e := by
    rw [findStrand_parked ht] at he
    rwa [findStrand_parked (s := t.completes t.hart) ht]
  have hrun : (g.chain p).state = .running := by
    simp only [Chain.runs, Bool.and_eq_true, beq_iff_eq] at hruns
    exact hruns.1
  have hbody {u : State} (hu : u.hart = s.hart) (hh : (dropChain c.toNat u).hart.hit = none) :
      exec (.chfree c) u = .next ((dropChain c.toNat u).completes (dropChain c.toNat u).hart) := by
    have hfree := chfree_body (c := c) (s := u) (by rw [hu]; exact hv)
    rw [hu, hready, if_neg (by decide), if_neg (by decide)] at hfree
    exact completes_as_left (by rw [hu]; exact hstep) hfree hh
  refine ⟨⟨_, g, hbody rfl (hdrop.hart.hit_eq.trans hhit), hcompleted hsid hfound, hrun, hmarks, hpeer⟩, ?_⟩
  have hprompt := dropChain_prompt hl hp hf hk hr hch
  obtain ⟨hme, e, hcut, hbroken⟩ := asStrand_freed hsid hfound hruns hmarks
  rw [← hprompt] at hme hcut
  exact ⟨_, e, hbody (u := s.choosing [.held]) rfl (hme.hit_eq.trans (hdrop.hart.hit_eq.trans hhit)),
    hcompleted (by rwa [hme.sid_eq]) hcut, hbroken⟩

end Sys2Proof.Machine
end

section
/-!
Loads of chain images: which chain an image brings to a handle, and what is left open (R226).
-/
namespace Sys2Proof.Machine

/-! ### Free values -/

/-- An operation that takes free values and changes nothing else, with what its answer is known to meet. -/
def Frees (x : M α) (P : α → Prop) : Prop := ∀ s : State, ∃ a n, x s = .ok a { s with free := n } ∧ P a

theorem frees_pure {a : α} {P : α → Prop} (h : P a) : Frees (pure a) P := fun s => ⟨a, s.free, rfl, h⟩

theorem frees_get : Frees (get : M State) fun _ => True := fun s => ⟨s, s.free, rfl, trivial⟩

theorem frees_getH : Frees getH fun _ => True := fun s => ⟨s.hart, s.free, rfl, trivial⟩

theorem frees_freshWord : Frees freshWord fun _ => True := fun s => ⟨Config.freeWord s.free, s.free + 1, rfl, trivial⟩

theorem Frees.bind {x : M α} {f : α → M β} {P : α → Prop} {Q : β → Prop} (hx : Frees x P) (hf : ∀ a, P a → Frees (f a) Q) :
    Frees (x >>= f) Q := fun s => by
  obtain ⟨a, n, hrun, ha⟩ := hx s
  obtain ⟨b, m, hrun', hb⟩ := hf a ha { s with free := n }
  exact ⟨b, m, by rw [run_bind, hrun]; exact hrun', hb⟩

theorem Frees.ite {c : Prop} [Decidable c] {x y : M α} {P : α → Prop} (hx : Frees x P) (hy : Frees y P) : Frees (if c then x else y) P := by
  split
  · exact hx
  · exact hy

/-- A collecting loop whose every turn takes free values collects what its turns answer. -/
theorem frees_mapEach {f : α → M β} {P : α → β → Prop} (as : List α) (h : ∀ a ∈ as, Frees (f a) (P a)) :
    Frees (mapEach as f) (List.Forall₂ P as) := by
  induction as with
  | nil => exact frees_pure .nil
  | cons a as ih =>
    exact (h a (by simp)).bind fun b hb => (ih fun a' ha' => h a' (by simp [ha'])).bind fun bs hbs => frees_pure (.cons hb hbs)

/-- The entries of such a list over the numbers below n. -/
theorem forall₂_rangeFrom {P : Nat → β → Prop} {n : Nat} {bs : List β} (h : List.Forall₂ P (rangeFrom 0 n) bs) {i : Nat}
    (hi : i < bs.length) (d : β) : P i (nth bs i d) := by
  have hlen : n = bs.length := by rw [← h.length_eq, length_rangeFrom]
  have hget := h.get (i := i) (by rw [length_rangeFrom, hlen]; exact hi) hi
  have hin : (rangeFrom 0 n)[i]? = some i := (getElem?_rangeFrom (hlen ▸ hi)).trans (by rw [Nat.zero_add])
  obtain ⟨_, hval⟩ := List.getElem?_eq_some_iff.mp hin
  simpa [nth, hi, hval] using hget

/-! ### The chain of an image -/

/-- What a chain image gives a chain, whatever free values it takes for the rest. -/
structure Chain.ofImage (b : Chain) (bs record : List Byte) (types : List (ETag × ETag)) : Prop where
  state : b.state = if sub bs 0 8 % 8 = 2 then .ready else if sub bs 0 8 % 8 = 3 then .running else .broken
  raw : b.raw = record
  rcd : b.rcd = parseRecord record
  rm : b.rm = sub bs 0 8 / 16 % 8
  last : b.last = some (BitVec.ofNat 64 (sub bs 8 8))
  consts : b.consts = (rangeFrom 0 32).map fun i => BitVec.ofNat 64 (sub bs (896 + 8 * i) 8)
  stages : ∀ i, i < types.length → (b.st i).produced = sub bs (1152 + 48 * i) 8 ∧ (b.st i).consA = sub bs (1160 + 48 * i) 8 ∧
    (b.st i).resTy = (nth types i (.none, .none)).2
  ports : ∀ p, p < b.ports.length → (b.portSt p).cursor = sub bs (1920 + 8 * p) 8

/-- A new chain's stages have the types of the record. -/
theorem newChain_stage (h : Strand) (ci : Nat) (raw : List Byte) (types : List (ETag × ETag)) (ports : List Bool) (near : Bool) :
    (newChain h ci raw types ports near).stages.length = types.length ∧ ∀ i, i < types.length →
      ((newChain h ci raw types ports near).st i).resTy = (nth types i (.none, .none)).2 := by
  refine ⟨by simp [newChain, length_rangeFrom], fun i hi => ?_⟩
  simp only [Chain.st, newChain, nth_map_rangeFrom hi]

theorem frees_chainOfImage (ci : Nat) (bs raw : List Byte) (types : List (ETag × ETag)) (ports : List Bool) (near : Bool) :
    Frees (chainOfImage ci bs raw types ports near) fun b => b.ofImage bs raw types := by
  refine frees_getH.bind fun h _ => frees_freshWord.bind fun vlc _ => frees_freshWord.bind fun user _ =>
    (frees_mapEach (P := fun p (x : PortSt) => x.cursor = sub bs (1920 + 8 * p) 8) _ fun p _ => ?_).bind fun ps hps =>
    (frees_mapEach (P := fun _ _ => True) _ fun l _ => ?_).bind fun ls _ => frees_freshWord.bind fun other _ => frees_pure ?_
  · refine frees_freshWord.bind fun some1 _ => frees_get.bind fun s _ => ?_
    dsimp only
    exact .ite ((frees_mapEach (P := fun _ _ => True) _ fun _ _ => frees_freshWord.bind fun _ _ => frees_pure trivial).bind fun _ _ =>
      frees_pure rfl) (frees_pure rfl)
  · exact (frees_mapEach (P := fun _ _ => True) _ fun k _ => frees_freshWord.bind fun _ _ => frees_freshWord.bind fun _ _ =>
      frees_pure trivial).bind fun _ _ => frees_pure trivial
  · obtain ⟨hlen, hres⟩ := newChain_stage h ci raw types ports near
    refine ⟨rfl, rfl, rfl, rfl, rfl, rfl, fun i hi => ?_, fun p hp => ?_⟩
    · simp only [Chain.st, nth_map_rangeFrom (hlen.symm ▸ hi), true_and]
      exact ⟨by rw [show 1152 + 48 * i + 8 = 1160 + 48 * i by omega], hres i hi⟩
    · exact forall₂_rangeFrom hps hp _

/-! ### Loads into a handle -/

/-- The bytes of an image that hold a chain's record, and the record itself. -/
def imageRecord (bs : List Byte) : List Byte := (bs.drop 64).take 832
def imageRaw (bs : List Byte) : List Byte := (imageRecord bs).take (recordLength (imageRecord bs))

/-- A record in an image is not valid where its header is not, or where bytes stand behind it. -/
def imageBad (bs : List Byte) : Bool :=
  !headerValid (imageRecord bs) || ofBytes ((imageRecord bs).drop (recordLength (imageRecord bs))) != 0

/-- The package once a handle's chain is released, and the lane-link ports that the links of a record then take. -/
def State.vacated (s : State) (ci : Nat) (r : ChainRec) : State × List Bool := takePorts ci r (dropChain ci s)

theorem vacated_relinked {s : State} (hs : s.choices = []) (ci : Nat) (r : ChainRec) : s.relinked (s.vacated ci r).1 :=
  (dropChain_relinked hs ci).trans (takePorts_relinked ..)

section
variable {ci : Nat} {bs : List Byte} {s : State}

/-- An image with a bad field is refused. -/
theorem loadImage_badField (hf : (imageFields bs false).any (·.2) = true) : loadImage ci bs false s = .ok false s := by
  simp only [loadImage, run_bind, run_get, hf, if_true, run_pure]

section
variable (hf : (imageFields bs false).any (·.2) = false)
include hf

theorem loadImage_free (h0 : sub bs 0 8 % 8 = 0) : loadImage ci bs false s = .ok true (dropChain ci s) := by
  simp only [loadImage, run_bind, run_get, hf, Bool.false_eq_true, if_false, if_pos h0, run_modify, run_pure]

theorem loadImage_rejected (h1 : sub bs 0 8 % 8 = 1) : loadImage ci bs false s = .ok true (modChain ci (fun _ =>
    { Chain.free with state := .rejected, reject := sub bs 0 8 / 2 ^ 10 % 64 }) (dropChain ci s)) := by
  have h0 : ¬ sub bs 0 8 % 8 = 0 := by omega
  simp only [loadImage, run_bind, run_get, hf, Bool.false_eq_true, if_false, if_neg h0, if_pos h1, run_modify, run_pure]

section
variable (h2 : 2 ≤ sub bs 0 8 % 8)
include h2

theorem loadImage_badRecord (hb : imageBad bs = true) : loadImage ci bs false s = .ok false s := by
  have h0 : ¬ sub bs 0 8 % 8 = 0 := by omega
  have h1 : ¬ sub bs 0 8 % 8 = 1 := by omega
  rw [imageBad, imageRecord] at hb
  simp only [loadImage, run_bind, run_get, hf, Bool.false_eq_true, if_false, if_neg h0, if_neg h1, hb, if_true, run_pure]

variable (hb : imageBad bs = false)
include hb

theorem loadImage_refused {n : Nat} (he : checkRecord s ci 1 (imageRaw bs) = .error n) : loadImage ci bs false s = .ok false s := by
  have h0 : ¬ sub bs 0 8 % 8 = 0 := by omega
  have h1 : ¬ sub bs 0 8 % 8 = 1 := by omega
  rw [imageBad, imageRecord] at hb
  rw [imageRaw, imageRecord] at he
  simp only [loadImage, run_bind, run_get, hf, Bool.false_eq_true, if_false, if_neg h0, if_neg h1, hb, he, run_pure]

variable {types : List (ETag × ETag)} (ht : checkRecord s ci 1 (imageRaw bs) = .ok types)
include ht

/-- A handle whose image this already is is granted afresh. -/
theorem loadImage_same (hsame : (s.hart.chain ci).raw = imageRaw bs ∧ s.hart.image ci = bs) :
    loadImage ci bs false s = .ok true (regrant ci s) := by
  have h0 : ¬ sub bs 0 8 % 8 = 0 := by omega
  have h1 : ¬ sub bs 0 8 % 8 = 1 := by omega
  rw [imageBad, imageRecord] at hb
  rw [imageRaw, imageRecord] at hsame ht
  simp only [loadImage, run_bind, run_get, hf, Bool.false_eq_true, if_false, if_neg h0, if_neg h1, hb, ht, if_pos hsame, run_modify, run_pure]

section
variable (hs : s.choices = []) (hother : ¬ ((s.hart.chain ci).raw = imageRaw bs ∧ s.hart.image ci = bs))
include hs hother

/-- Any other gets the chain that chsave stored with this image. -/
theorem loadImage_stored {x : List Byte × Chain} (hx : s.images.find? (fun x => x.1 == bs) = some x) :
    let v := s.vacated ci (parseRecord (imageRaw bs))
    loadImage ci bs false s = .ok true (installChain ci (restoredChain v.1.hart ci x.2 v.2 false) v.1) := by
  have h0 : ¬ sub bs 0 8 % 8 = 0 := by omega
  have h1 : ¬ sub bs 0 8 % 8 = 1 := by omega
  have himages := (vacated_relinked hs ci (parseRecord (imageRaw bs))).images_eq
  have hdrop : (dropChain ci s).choices = [] := (dropChain_relinked hs ci).choices_eq.trans hs
  rw [← himages] at hx
  simp only [State.vacated, imageRaw, imageRecord, imageBad] at hb ht hother hx ⊢
  simp only [loadImage, run_bind, run_get, hf, Bool.false_eq_true, if_false, if_neg h0, if_neg h1, hb, ht, if_neg hother, run_modify,
    takeNear_quiet hdrop, run_set, hx, run_pure]

/-- Where it stored none, the chain is one of the image. -/
theorem loadImage_fresh (hx : s.images.find? (fun x => x.1 == bs) = none) : ∃ b n,
    let v := s.vacated ci (parseRecord (imageRaw bs))
    loadImage ci bs false s = .ok true (installChain ci b { v.1 with free := n }) ∧ b.ofImage bs (imageRaw bs) types := by
  have h0 : ¬ sub bs 0 8 % 8 = 0 := by omega
  have h1 : ¬ sub bs 0 8 % 8 = 1 := by omega
  have himages := (vacated_relinked hs ci (parseRecord (imageRaw bs))).images_eq
  have hdrop : (dropChain ci s).choices = [] := (dropChain_relinked hs ci).choices_eq.trans hs
  obtain ⟨b, n, hrun, hof⟩ := frees_chainOfImage ci bs (imageRaw bs) types (s.vacated ci (parseRecord (imageRaw bs))).2 false
    (s.vacated ci (parseRecord (imageRaw bs))).1
  refine ⟨b, n, ?_, hof⟩
  rw [← himages] at hx
  simp only [State.vacated, imageRaw, imageRecord, imageBad] at hb ht hother hx hrun ⊢
  simp only [loadImage, run_bind, run_get, hf, Bool.false_eq_true, if_false, if_neg h0, if_neg h1, hb, ht, if_neg hother, run_modify,
    takeNear_quiet hdrop, run_set, hx, hrun, run_pure]

/-- Either way the chain is put in place in a package whose strands have lost the old one. -/
theorem loadImage_other : ∃ (b : Chain) (u : State) (n : Nat), s.relinked u ∧
    loadImage ci bs false s = .ok true (installChain ci b { u with free := n }) ∧
    (s.images.find? (fun x => x.1 == bs) = none → b.ofImage bs (imageRaw bs) types) ∧
    ∀ x, s.images.find? (fun x => x.1 == bs) = some x → b.state = x.2.state ∧ b.raw = x.2.raw ∧ b.consts = x.2.consts := by
  have hrel := vacated_relinked hs ci (parseRecord (imageRaw bs))
  cases hx : s.images.find? fun x => x.1 == bs with
  | some x =>
    refine ⟨_, _, _, hrel, loadImage_stored hf h2 hb ht hs hother hx, fun h => (nomatch h), fun y hy => ?_⟩
    cases hy
    exact ⟨rfl, rfl, rfl⟩
  | none =>
    obtain ⟨b, n, hload, hof⟩ := loadImage_fresh hf h2 hb ht hs hother hx
    exact ⟨b, _, n, hrel, hload, fun _ => hof, fun y hy => (nomatch hy)⟩

end

end

end

end

end Sys2Proof.Machine
end

section
/-!
PROOF. O50: chsave and chload, and the statement (R216 to R226).
-/
namespace Sys2Proof.Machine

/-! ### Gates (R99, R226) -/

theorem imageGate_user {s : State} (hm : s.hart.mode = .user) (store : Bool) (c : BitVec 2) (a : Nat) :
    imageGate store c a s = .error (.bits 2) s := by
  simp only [imageGate, run_bind, run_getH, if_pos hm, run_illegal]

theorem imageGate_ok {s : State} {c : BitVec 2} {a : Nat} (hv : s.hart.mayVector = true) (hm : s.hart.mode = .supervisor)
    (hr : (s.hart.chain c.toNat).state ≠ .running) (ha : a % 64 = 0) (store : Bool) : imageGate store c a s = .ok () s := by
  have huser : ¬ s.hart.mode = .user := by rw [hm]; decide
  simp only [imageGate, run_bind, run_getH, if_neg huser, run_pure, vecGate_ok hv, needIdle_ok (broken := false) hr (by simp),
    if_neg (not_not_intro ha)]

/-- Chain images are a supervisor's to move. -/
theorem image_user {s : State} (hm : s.hart.mode = .user) (rs1 : BitVec 5) (c : BitVec 2) :
    ∀ i ∈ [Instr.chsave rs1 c, .chload rs1 c], exec i s = .next (takeTrap 2 (instrBits i) s) := by
  have hboth : exec (.chsave rs1 c) s = .next (takeTrap 2 (instrBits (.chsave rs1 c)) s) ∧
      exec (.chload rs1 c) s = .next (takeTrap 2 (instrBits (.chload rs1 c)) s) :=
    ⟨runInstr_illegal (by simp only [run_bind, readX, run_getH, run_pure, imageGate_user hm]),
      runInstr_illegal (by simp only [run_bind, readX, run_getH, run_pure, imageGate_user hm])⟩
  simpa using hboth

/-! ### chsave -/

/-- The words of an image, stored one after another in a strand in which nothing stops them, change what stores change. -/
theorem wordStores_ok {a : Nat} {pa : Nat → Nat} {img : List Byte} {s : State} (n : Nat) (hbad : s.hart.bad = [])
    (hw : s.hart.unwatched = true) :
    forEach (rangeFrom 0 n) (fun i =>
      let w := nth ((rangeFrom 0 n).map fun i => ((a + 8 * i) % 2 ^ 64, pa i)) i (0, 0)
      idemStore w.1 w.2 ((img.drop (8 * i)).take 8)) s = .ok () ((rangeFrom 0 n).foldl (State.imageStored a pa img) s) ∧
    s.hart.storing ((rangeFrom 0 n).foldl (State.imageStored a pa img) s).hart := by
  refine forEach_foldl (I := fun u => s.hart.storing u.hart) (fun i hi u hu => ?_) s rfl
  have hnext : s.hart.storing (State.imageStored a pa img u i).hart := hu.trans (stored_storing ..)
  refine ⟨?_, hnext⟩
  simp only [nth_map_rangeFrom (show i < n by simpa using (mem_rangeFrom.mp hi).2), idemStore, run_bind,
    holdOrPerform_ok (hu.bad_eq.trans hbad)]
  exact noteAccess_unwatched (hnext.unwatched_eq.trans hw) true _ _

/-- The addresses of an image's words. -/
def imageVas (a : Nat) : List Nat := (rangeFrom 0 (imageBytes / 8)).map fun i => (a + 8 * i) % 2 ^ 64

/-- The package once the addresses of an image's words are translated, with the handle's chain kept beside its image. -/
def savingImage (s : State) (ci a : Nat) : State :=
  { s.walkedAll ((rangeFrom 0 (imageBytes / 8)).map fun i => (a + 8 * i) % 2 ^ 64) with
    images := (s.hart.image ci, s.hart.chain ci) :: s.images }

theorem savingImage_eq (s : State) (ci a : Nat) : savingImage s ci a = { s.walkedAll (imageVas a) with
    images := ((s.walkedAll (imageVas a)).hart.image ci, (s.walkedAll (imageVas a)).hart.chain ci) :: (s.walkedAll (imageVas a)).images } := by
  have hread := s.reading_walkedAll (imageVas a)
  rw [savingImage, ← imageVas]
  generalize s.walkedAll (imageVas a) = w at *
  rw [hread.1]

theorem savingImage_hart (s : State) (ci a : Nat) : (savingImage s ci a).hart = s.hart := by
  have hread := s.reading_walkedAll (imageVas a)
  rw [savingImage, ← imageVas]
  generalize s.walkedAll (imageVas a) = w at *
  rw [hread.1]

section
variable {c : BitVec 2} {rs1 : BitVec 5} {s : State} {pa : Nat → Nat} (hc : s.calm = true) (hv : s.hart.mayVector = true)
  (hm : s.hart.mode = .supervisor) (hr : (s.hart.chain c.toNat).state ≠ .running) (ha : (s.hart.rx rs1).toNat % 64 = 0)
include hc hv hm hr ha

/-- chsave stores the image word by word once each is translated, and the model keeps it with the chain. -/
theorem chsave_stores (hreach : ∀ i ∈ rangeFrom 0 (imageBytes / 8),
      s.reaches .store (((s.hart.rx rs1).toNat + 8 * i) % 2 ^ 64) 8 (pa i) = true) {t : State}
    (ht : (rangeFrom 0 (imageBytes / 8)).foldl (State.imageStored (s.hart.rx rs1).toNat pa (s.hart.image c.toNat))
      (savingImage s c.toNat (s.hart.rx rs1).toNat) = t) : exec (.chsave rs1 c) s = .next (t.completes t.hart) := by
  subst ht
  obtain ⟨hhit, hw, hch, -, hbad, hstep⟩ := (calm_iff s).mp hc
  have hwalked := (s.reading_walkedAll (imageVas (s.hart.rx rs1).toNat)).hart_eq
  have hwords := imageWords_ok (imageBytes / 8) hch hhit hreach
  have hkept := savingImage_eq s c.toNat (s.hart.rx rs1).toNat
  have hhart := savingImage_hart s c.toNat (s.hart.rx rs1).toNat
  rw [← imageVas] at hwords
  generalize s.walkedAll (imageVas (s.hart.rx rs1).toNat) = w at *
  generalize savingImage s c.toNat (s.hart.rx rs1).toNat = z at *
  obtain ⟨hloop, hstoring⟩ := wordStores_ok (a := (s.hart.rx rs1).toNat) (pa := pa) (img := s.hart.image c.toNat) (s := z)
    (imageBytes / 8) (hhart ▸ hbad) (hhart ▸ hw)
  refine completes_as_left hstep ?_ (hstoring.hit_eq.trans (hhart ▸ hhit))
  simp only [run_bind, readX, run_getH, run_pure, imageGate_ok hv hm hr ha, hwords, run_modify, ← hkept]
  rw [hwalked]
  exact hloop

end

/-! ### chload -/

/-- The state once the words of an image are read. -/
def readImage (s : State) (a : Nat) (pa : Nat → Nat) : State :=
  (rangeFrom 0 (imageBytes / 8)).foldl (fun t i => t.withoutLines (pa i) 8) (s.walkedAll (imageVas a))

theorem reading_readImage (s : State) (a : Nat) (pa : Nat → Nat) : s.reading (readImage s a pa) :=
  (s.reading_walkedAll (imageVas a)).trans (foldl_related (f := fun t i => t.withoutLines (pa i) 8) State.reading_self State.reading.trans
    _ (fun _ _ u => u.reading_filter _) _)

/-- What chload does with the bytes that it has read. -/
def loadTail (c : BitVec 2) (a : Nat) (bs : List Byte) : M Unit := do
  if !(← loadImage c.toNat bs false) then raise 5 (BitVec.ofNat 64 a)

section
variable {c : BitVec 2} {rs1 : BitVec 5} {s : State} {pa : Nat → Nat} (hc : s.calm = true) (hv : s.hart.mayVector = true)
  (hm : s.hart.mode = .supervisor) (hr : (s.hart.chain c.toNat).state ≠ .running)
  (hread : s.readsStruct (s.hart.rx rs1).toNat imageBytes pa)
include hc hv hm hr hread

/-- chload reads the image, and then loads it. -/
theorem chload_body : exec (.chload rs1 c) s = runInstr (.chload rs1 c) (fun _ =>
    loadTail c (s.hart.rx rs1).toNat (s.structBytes imageBytes pa) (readImage s (s.hart.rx rs1).toNat pa)) s := by
  obtain ⟨hhit, hw, hch, -⟩ := (calm_iff s).mp hc
  obtain ⟨ha, hin⟩ := hread
  have hlt {i : Nat} (hi : i ∈ rangeFrom 0 (imageBytes / 8)) : i < imageBytes / 8 := by simpa using (mem_rangeFrom.mp hi).2
  have hwords := imageWords_ok (imageBytes / 8) hch hhit fun i hi => (hin i (hlt hi)).1
  have hwalk : s.reading (s.walkedAll (imageVas (s.hart.rx rs1).toNat)) := s.reading_walkedAll _
  have hafter : readImage s (s.hart.rx rs1).toNat pa = (rangeFrom 0 (imageBytes / 8)).foldl (fun t i => t.withoutLines (pa i) 8)
    (s.walkedAll (imageVas (s.hart.rx rs1).toNat)) := rfl
  have hbytes : s.structBytes imageBytes pa = ((rangeFrom 0 (imageBytes / 8)).map fun i => toBytes 8 (s.ownValue (pa i) 8)).flatten :=
    List.flatMap_def
  rw [← imageVas] at hwords
  rw [hafter, hbytes]
  generalize s.walkedAll (imageVas (s.hart.rx rs1).toNat) = w at *
  generalize rangeFrom 0 (imageBytes / 8) = is at *
  have hown := ownWords_ok (s := w) (hwalk.hart_eq ▸ hhit) (ws := is.map fun i => (((s.hart.rx rs1).toNat + 8 * i) % 2 ^ 64, pa i))
    fun x hx => by
      obtain ⟨i, hi, rfl⟩ := List.mem_map.mp hx
      exact (hwalk.ownGood_eq ..).trans (hin i (hlt hi)).2
  obtain ⟨hdrop, -⟩ := forEach_foldl (f := fun w : Nat × Nat => do dropDcache w.2 8; noteAccess false w.1 8)
    (g := fun u w => u.withoutLines w.2 8) (I := fun u => u.hart.unwatched = true)
    (as := is.map fun i => (((s.hart.rx rs1).toNat + 8 * i) % 2 ^ 64, pa i))
    (fun x _ u hu => ⟨noteAccess_unwatched (s := u.withoutLines x.2 8) hu false x.1 8, hu⟩) w (hwalk.hart_eq ▸ hw)
  rw [List.foldl_map] at hdrop
  simp only [List.map_map, Function.comp_def, hwalk.ownValue_eq] at hown
  refine runInstr_congr ?_
  simp only [loadTail, run_bind, readX, run_getH, run_pure, imageGate_ok hv hm hr ha, hwords, hown, hdrop]

/-- An image that is not loaded traps. -/
theorem chload_refuses (hl : loadImage c.toNat (s.structBytes imageBytes pa) false (readImage s (s.hart.rx rs1).toNat pa) =
      .ok false (readImage s (s.hart.rx rs1).toNat pa)) :
    exec (.chload rs1 c) s = .next (takeTrap 5 (BitVec.ofNat 64 (s.hart.rx rs1).toNat) (readImage s (s.hart.rx rs1).toNat pa)) :=
  (chload_body hc hv hm hr hread).trans (runInstr_trap (by simp only [loadTail, run_bind, hl, Bool.not_false, if_true, run_raise]))

/-- One that is loaded completes in what the load leaves. -/
theorem chload_loads {t : State} (hl : loadImage c.toNat (s.structBytes imageBytes pa) false (readImage s (s.hart.rx rs1).toNat pa) =
      .ok true t) (ht : s.hart.rechained t.hart) : exec (.chload rs1 c) s = .next (t.completes t.hart) := by
  obtain ⟨hhit, -, -, -, -, hstep⟩ := (calm_iff s).mp hc
  exact (chload_body hc hv hm hr hread).trans (completes_as_left hstep
    (by simp only [loadTail, run_bind, hl, Bool.not_true, Bool.false_eq_true, if_false, run_pure]) (ht.hit_eq.trans hhit))

end

end Sys2Proof.Machine
end

section
/-!
PROOF. O50, the statement: what chload leaves of an image that is no bad one, and the instructions together.
-/
namespace Sys2Proof.Machine

/-- What operations on chains change of the strand after it has read memory is what they change of it. -/
theorem State.reading.rechained {s r t : State} (h : s.reading r) (hr : r.hart.rechained t.hart) : s.hart.rechained t.hart :=
  h.hart_eq ▸ hr

/-- An image without a bad field is of no running chain (R226). -/
theorem imageFields_state {bs : List Byte} (hf : (imageFields bs false).any (·.2) = false) :
    sub bs 0 8 % 8 ≤ 4 ∧ sub bs 0 8 % 8 ≠ 3 := by
  have hfirst := List.any_eq_false.mp hf _ (List.mem_append_left _ (List.mem_append_left _ (List.mem_cons_self ..)))
  simp only [Bool.or_eq_true, decide_eq_true_eq, Bool.and_eq_true, beq_iff_eq, Bool.not_false, and_true, not_or] at hfirst
  omega

section
variable {c : BitVec 2} {rs1 : BitVec 5} {s : State} {pa : Nat → Nat} (hc : s.calm = true) (hv : s.hart.mayVector = true)
  (hm : s.hart.mode = .supervisor) (hr : (s.hart.chain c.toNat).state ≠ .running)
  (hread : s.readsStruct (s.hart.rx rs1).toNat imageBytes pa)
  (hf : (imageFields (s.structBytes imageBytes pa) false).any (·.2) = false)
include hc hv hm hr hread hf

/-- An image of a free handle, and one of a handle that was rejected. -/
theorem chload_unconfigured :
    let bs := s.structBytes imageBytes pa
    let t := readImage s (s.hart.rx rs1).toNat pa
    (sub bs 0 8 % 8 = 0 → exec (.chload rs1 c) s = .next ((dropChain c.toNat t).completes (dropChain c.toNat t).hart)) ∧
    (sub bs 0 8 % 8 = 1 →
      let w := modChain c.toNat (fun _ => { Chain.free with state := .rejected, reject := sub bs 0 8 / 2 ^ 10 % 64 }) (dropChain c.toNat t)
      exec (.chload rs1 c) s = .next (w.completes w.hart)) := by
  have hafter := reading_readImage s (s.hart.rx rs1).toNat pa
  have hch : (readImage s (s.hart.rx rs1).toNat pa).choices = [] := by rw [hafter.1]; exact ((calm_iff s).mp hc).2.2.1
  have hdrop := hafter.rechained (dropChain_relinked hch c.toNat).hart
  exact ⟨fun h0 => chload_loads hc hv hm hr hread (loadImage_free hf h0) hdrop,
    fun h1 => chload_loads hc hv hm hr hread (loadImage_rejected hf h1) (hdrop.trans (modChain_relinked ..).hart)⟩

section
variable (h2 : 2 ≤ sub (s.structBytes imageBytes pa) 0 8 % 8) (hb : imageBad (s.structBytes imageBytes pa) = false)
  {types : List (ETag × ETag)} (ht : checkRecord (readImage s (s.hart.rx rs1).toNat pa) c.toNat 1 (imageRaw (s.structBytes imageBytes pa)) =
    .ok types)
include h2 hb ht

/-- The image that a handle has already. -/
theorem chload_same (hsame : (s.hart.chain c.toNat).raw = imageRaw (s.structBytes imageBytes pa) ∧
      s.hart.image c.toNat = s.structBytes imageBytes pa) :
    let t := regrant c.toNat (readImage s (s.hart.rx rs1).toNat pa)
    exec (.chload rs1 c) s = .next (t.completes t.hart) := by
  have hafter := reading_readImage s (s.hart.rx rs1).toNat pa
  have hch : (readImage s (s.hart.rx rs1).toNat pa).choices = [] := by rw [hafter.1]; exact ((calm_iff s).mp hc).2.2.1
  exact chload_loads hc hv hm hr hread (loadImage_same hf h2 hb ht (by rw [hafter.hart_eq]; exact hsame))
    (hafter.rechained (regrant_relinked hch c.toNat).hart)

/-- Any other gives the handle the chain that chsave stored with it, or the one that it holds. -/
theorem chload_other (hother : ¬ ((s.hart.chain c.toNat).raw = imageRaw (s.structBytes imageBytes pa) ∧
      s.hart.image c.toNat = s.structBytes imageBytes pa)) :
    ∃ (b : Chain) (w : State), exec (.chload rs1 c) s = .next ((installChain c.toNat b w).completes (installChain c.toNat b w).hart) ∧
      w.sameMemory s ∧ w.hart.x = s.hart.x ∧ w.hart.v = s.hart.v ∧
      (s.images.find? (fun x => x.1 == s.structBytes imageBytes pa) = none →
        b.ofImage (s.structBytes imageBytes pa) (imageRaw (s.structBytes imageBytes pa)) types) ∧
      ∀ x, s.images.find? (fun x => x.1 == s.structBytes imageBytes pa) = some x →
        b.state = x.2.state ∧ b.raw = x.2.raw ∧ b.consts = x.2.consts := by
  have hafter := reading_readImage s (s.hart.rx rs1).toNat pa
  have hch : (readImage s (s.hart.rx rs1).toNat pa).choices = [] := by rw [hafter.1]; exact ((calm_iff s).mp hc).2.2.1
  have himages : (readImage s (s.hart.rx rs1).toNat pa).images = s.images := by rw [hafter.1]
  have hmem : (readImage s (s.hart.rx rs1).toNat pa).mem = s.mem := by rw [hafter.1]
  obtain ⟨b, w, n, hrel, hload, hfresh, hstored⟩ := loadImage_other hf h2 hb ht hch (by rw [hafter.hart_eq]; exact hother)
  have hhart := hafter.rechained hrel.hart
  rw [himages] at hfresh hstored
  exact ⟨b, { w with free := n }, chload_loads hc hv hm hr hread hload (hhart.trans (installChain_hart c.toNat b { w with free := n })),
    fun x => congrArg (Memory.get · x) (hrel.mem_eq.trans hmem).symm, hhart.x_eq, hhart.v_eq, hfresh, hstored⟩

end

end

/-- Settles O50: the instructions on handles, and those that move images by what becomes of the image. -/
theorem chainInstructionsComplete : Obligations.ChainInstructionsComplete := by
  intro c rs2 rs1 rd s pa
  -- The statement's lets are not introduced: against a list that a let names, the kernel evaluates the 1280 stores of chsave.
  refine fun hc hv => ⟨fun hr hb hhead => ⟨chcfg_invalid hc hv hr hb hhead, chcfg_valid hc hv hr hb hhead⟩, chain_busy hv, chrun_free hc hv,
    chrun_rejected hc hv, chrun_none hc hv, chrun_quota hc hv, chrun_starts hc hv, chbrk_cuts hc hv, chres_resumes hc hv,
    chfree_releases hc hv, fun l sid p j f => chfree_notices hc hv, chstat_reads hc hv, fun hm => image_user hm rs1 c,
    fun hm hr ha => ⟨fun hreach => chsave_stores hc hv hm hr ha hreach rfl, fun hread => ?_⟩⟩
  intro t bs st raw0 raw badField badRecord refused
  have hrefuses := chload_refuses hc hv hm hr hread
  refine ⟨fun hf => hrefuses (loadImage_badField hf), fun hf => ?_⟩
  obtain ⟨hfree, hrejected⟩ := chload_unconfigured hc hv hm hr hread hf
  refine ⟨hfree, hrejected, fun h2 hb => hrefuses (loadImage_badRecord hf h2 hb), fun h2 hb => ⟨fun n he =>
    hrefuses (loadImage_refused hf h2 hb he), fun types ht => ⟨fun hraw himg => chload_same hc hv hm hr hread hf h2 hb ht ⟨hraw, himg⟩,
      fun hne => ?_⟩⟩⟩
  obtain ⟨b, w, hexec, hmem, hx, hv', hfresh, hstored⟩ := chload_other hc hv hm hr hread hf h2 hb ht (not_and_or.mpr hne)
  refine ⟨b, w, hexec, hmem, hx, hv', fun hnone => ?_, hstored⟩
  obtain ⟨hstate, hrawb, hrcd, hrm, hlast, hconsts, hstages, hports⟩ := hfresh hnone
  have hthree : ¬ sub (s.structBytes imageBytes pa) 0 8 % 8 = 3 := (imageFields_state hf).2
  rw [if_neg hthree] at hstate
  exact ⟨hstate, hrawb, hrcd, hrm, hlast, hconsts, hstages, hports⟩

end Sys2Proof.Machine
end
